-- ==== Sys2Proof/Word.lean ====
section
/-! DEFINITION. The word types of the device and the two sparse containers in which State holds its arrays and its memories (plain lists in one canonical form; their operations stand in Machine/Ops.lean). -/

namespace Sys2Proof

abbrev Byte := BitVec 8

/-- A counter of the layout of R115: 32 bits, stopping at 0xFFFF_FFFF. -/
abbrev Count := BitVec 32

/-- A 48-bit Plumb count, R286 and R287. -/
abbrev PCount := BitVec 48

/-- A sparse array of plain data: (index, value) pairs with strictly rising indices and no value equal to what an unlisted index reads as. -/
abbrev Tab (α : Type) := List (Nat × α)

/-- An addressed memory of bytes (HBM by device HBM address, an engine's tile area by byte address) in the same canonical form; an unlisted address reads as 0. -/
abbrev Mem := List Host.Cell

end Sys2Proof
end

