-- ==== Sys2Proof/Syntax.lean ====
section
/-! DEFINITION. The commands of the block: one constructor of Instr for each row of spec/opcode_table.json, with the row's operands, and the records that the operands are made of. -/

namespace Sys2Proof

/-- Full time of R286 as one number of units of 2^-16 ns since the PTP epoch; SEC, NS and FRAC are its parts. -/
abbrev FullTime := Nat

/-- A bit error found in an entry of the LA file, R113 and R119: row, lane, and whether it is uncorrectable. -/
structure LaUpset where
  row : Fin 256
  lane : Fin 128
  hard : Bool
deriving DecidableEq, Repr

/-- What happens to an error in one of the 128 bursts of a tile: the stack's on-die ECC corrects and reports it, SECDED corrects it, or it is uncorrectable, R328 to R330. -/
inductive UpsetKind where
  | onDie | soft | hard
deriving DecidableEq, Repr

/-- A bit error in one of the 128 bursts of a tile. -/
structure BurstUpset where
  burst : Fin 128
  kind : UpsetKind
deriving DecidableEq, Repr

/-- What names a tile of R242 to R244 that comes from another member of the rail group: the sender's rank, the step, the sender's region and tile, and the KIND it is stored with. -/
structure MirrorHdr where
  src : BitVec 15
  step : BitVec 32
  region : BitVec 8
  tile : BitVec 24
  kind : BitVec 2
deriving DecidableEq, Repr

/-- A tile on its way to an input queue: header of R89, 4,096 bytes, and the near endpoint it came from, if one sent it; or a tile for the mirror parity or the rebuild of this member, which joins no queue. -/
structure IqTile where
  fmt : BitVec 8
  crc : BitVec 32
  tileNo : BitVec 16
  data : List Byte
  origin : Option (Fin 8 × Fin 32)
  mirror : Option MirrorHdr := none
deriving DecidableEq, Repr

/-- A mailbox command record of R540 as far as its row's operands do not carry it: the checks of R541 use these fields. `formOk` is check 1; its unused bytes are 0. -/
structure MboxRec where
  formOk : Bool
  session : BitVec 16
  mbox : Fin 16
  cmdId : BitVec 16
  seq : BitVec 64
  hcs : BitVec 8
  tag : List Byte
deriving DecidableEq, Repr

/-- Who gives a Lath command: the host through the LATH mailbox command, or Hawk through LTH_CMD with an owner class, R347 and R359. -/
inductive LathSrc where
  | host (r : MboxRec)
  | hawk (cls : BitVec 2)
deriving DecidableEq, Repr

/-- The users that confirm a fence, R349. -/
inductive FenceUser where
  | engine (e : Fin 64)
  | skm | mnd | rnd | hostBulk
deriving DecidableEq, Repr

/-- A control message of R215 (64 bytes on the wire). -/
structure ClcMsg where
  type : BitVec 8
  flags : BitVec 8
  src : BitVec 16
  coll : BitVec 8
  outcome : BitVec 8
  code : BitVec 8
  job : BitVec 64
  plan : BitVec 64
  step : BitVec 32
  digest : BitVec 64
  asig : BitVec 32
  subj : BitVec 16
  nfPos : BitVec 48
  value : BitVec 32
  crc : BitVec 32
  /-- the reserved bytes 7 and 52 to 59 as they came: they are forwarded unchanged -/
  rsv7 : BitVec 8 := 0
  rsv52 : BitVec 64 := 0
deriving DecidableEq, Repr

/-- Header of a Straightedge pair record, R279: its SEQ, and whether the record's CRC-32C holds. -/
structure PairHdr where
  seq : BitVec 32
  crcOk : Bool
deriving DecidableEq, Repr

/-- A destination record of R273 without its digest's inputs: KIND, stroke, ADDR and digest. -/
structure DestRec where
  kind : BitVec 4
  stroke : BitVec 16
  addr : BitVec 40
  digest : BitVec 64
deriving DecidableEq, Repr

/-- The data set that an Announce message carries: grandmasterPriority1, clockClass, clockAccuracy, offsetScaledLogVariance, grandmasterPriority2, grandmasterIdentity and stepsRemoved of IEEE 1588-2019. -/
structure AnnounceSet where
  prio1 : BitVec 8
  clockClass : BitVec 8
  accuracy : BitVec 8
  variance : BitVec 16
  prio2 : BitVec 8
  grandmaster : BitVec 64
  steps : BitVec 16
deriving DecidableEq, Repr

/-- PTP messages that source 0 serves, R300, each with the domain it is sent in and the master that sends it. Times are of the master unless `rx` is this device's timestamp at the pin. -/
inductive PtpMsg where
  | announce (domain : BitVec 8) (master : BitVec 64) (set : AnnounceSet)
  | syncOneStep (domain : BitVec 8) (master : BitVec 64) (origin correction : FullTime) (rx : FullTime)
  | syncTwoStep (domain : BitVec 8) (master : BitVec 64) (seq : BitVec 16) (correction : FullTime) (rx : FullTime)
  | followUp (domain : BitVec 8) (master : BitVec 64) (seq : BitVec 16) (origin correction : FullTime)
  | delayResp (domain : BitVec 8) (master : BitVec 64) (seq : BitVec 16) (receipt correction : FullTime)
  | other
deriving DecidableEq, Repr

/-- A far time message of R301. -/
structure TimeMsg where
  version : BitVec 8
  locked : Bool
  usesYou : Bool
  hops : BitVec 8
  seq : BitVec 8
  tx : FullTime
  echoTx : FullTime
  echoRx : FullTime
  echoSeq : BitVec 8
  crcOk : Bool
deriving DecidableEq, Repr

/-- A lane of the inner code: a far lane, or a receive colour of a photonic engine under R480. -/
inductive LaneRef where
  | far (g : Fin 128)
  | near (n : Fin 8) (c : Fin 32)
deriving DecidableEq, Repr

/-- A loop of Level, R500, with the colour or the octet it serves. -/
inductive Loop where
  | laserPower (c : Fin 32)
  | laserFreq (c : Fin 32)
  | txRing (c : Fin 32)
  | rxRing (c : Fin 32)
  | spareCurrent (o : Fin 4)
  | spareHeater (o : Fin 4)
deriving DecidableEq, Repr

/-- What one control cycle of a photonic engine finds, R487, R493 and R500: the colours whose drop photodiode stands at a peak above -14.0 dBm, the spares whose beat lies below 1 GHz and carries the pilot tone, and where each loop would put what it acts on: a bias in 0.1 mA, a heater in steps of 0.05 mW, a laser's frequency in MHz from that of its colour. -/
structure CycleObs where
  txPeak : List (Fin 32)
  rxPeak : List (Fin 32)
  spareLocked : List (Fin 4)
  wishes : List (Loop × Int)
deriving DecidableEq, Repr

/-- One laser's monitor sample, R492: the colour it drives, its bias in 0.1 mA and whether it gives light. -/
structure LaserSample where
  colour : Fin 32
  bias : BitVec 12
  light : Bool
deriving DecidableEq, Repr

/-- What one monitor sample of a photonic engine finds, R492 and R500. -/
structure MonitorObs where
  lasers : List LaserSample
  rxPower : List (Fin 32 × BitVec 16)
  rxTotal : BitVec 16
deriving DecidableEq, Repr

/-- What arrives at an output queue, R511: a coded unit's bytes or a pair record as a segment, a control message, or a tile of a SEND. -/
inductive ArriveItem where
  | unit (bytes : List Byte)
  | clc (m : ClcMsg)
  | pair (body : List Byte)
  | tile (fmt : BitVec 4) (tileNo : BitVec 16) (data : List Byte)
deriving DecidableEq, Repr

/-- A queue of the SCH block: one of the 256 numbered queues, or the control queue of a bond. -/
inductive QueueRef where
  | num (q : Fin 256)
  | ctl (b : Fin 16)
deriving DecidableEq, Repr

/-- The settings registers of an output queue, R515. -/
inductive QueueReg where
  | cfg | mask | weight | srate | sburst | prate | pburst
deriving DecidableEq, Repr

/-- OPEN1 of R537. `key` is the host's public key record, for METHOD 1. -/
structure Open1 where
  hcs : BitVec 8
  method : BitVec 8
  mboxMask : BitVec 16
  hostNonce : List Byte
  key : List Byte
deriving DecidableEq, Repr

/-- A bulk record of R545. -/
structure BulkRec where
  session : BitVec 16
  hcs : BitVec 8
  seq : BitVec 64
  tag : List Byte
  area : BitVec 8
  handle : BitVec 32
  offset : BitVec 64
  payload : List Byte
deriving DecidableEq, Repr

/-- What the primer ROM or Hawk finds in a firmware image: its presence, its signature block of R175, its declared FW_SVN, PART, FW_ARITH, version and MIN_SVN floor, and the SHA-256 of its signed part. -/
structure FwImage where
  present : Bool
  block : List Byte
  svn : BitVec 8
  part : BitVec 16
  arith : BitVec 32
  version : BitVec 32
  floor : BitVec 8
  digest : List Byte
deriving DecidableEq, Repr

/-- What a start of Hawk finds in the SPI NOR besides the image: the identity record of R442, and the parts whose summary record fails its CRC in both copies, R569. -/
structure StartFinds where
  idRecord : List Byte
  damaged : List (BitVec 16) := []
deriving DecidableEq, Repr

/-- A datagram of neighbour discovery or echo, R534. -/
inductive NdMsg where
  | solicit (target : BitVec 128) (src : BitVec 128)
  | echo (src : BitVec 128) (data : List Byte)
  | other
deriving DecidableEq, Repr

/-- One reading of the temperature sensors, R610: each die's 24 sensors (none: no reading), each stack, each photonic engine, in °C. -/
structure TempObs where
  die : List (List (Option Nat))
  stack : List Nat
  pho : List Nat
deriving DecidableEq, Repr

/-- The commands, one constructor per row of spec/opcode_table.json, in the table's order. -/
inductive Instr where
  | csrWrite (addr value : BitVec 32)
  | wideRegisterLowRead (addr : BitVec 32)
  | strokeNop (e : Fin 64) (i : BitVec 16) (w : BitVec 120)
  | setx (e : Fin 64) (i : BitVec 16) (w : BitVec 120)
  | setp (e : Fin 64) (i : BitVec 16) (w : BitVec 120)
  | load (e : Fin 64) (i : BitVec 16) (w : BitVec 120)
  | loadTileArrive (e : Fin 64) (slot : Fin 1024) (ups : List BurstUpset)
  | store (e : Fin 64) (i : BitVec 16) (w : BitVec 120)
  | send (e : Fin 64) (i : BitVec 16) (w : BitVec 120)
  | clra (e : Fin 64) (i : BitVec 16) (w : BitVec 120)
  | acc (e : Fin 64) (i : BitVec 16) (w : BitVec 120) (ups : List LaUpset)
  | rdla (e : Fin 64) (i : BitVec 16) (w : BitVec 120) (ups : List LaUpset)
  | svla (e : Fin 64) (i : BitVec 16) (w : BitVec 120) (ups : List LaUpset)
  | addla (e : Fin 64) (i : BitVec 16) (w : BitVec 120) (ups : List LaUpset)
  | add (e : Fin 64) (i : BitVec 16) (w : BitVec 120)
  | fma (e : Fin 64) (i : BitVec 16) (w : BitVec 120)
  | dot (e : Fin 64) (i : BitVec 16) (w : BitVec 120) (ups : List LaUpset)
  | cvt (e : Fin 64) (i : BitVec 16) (w : BitVec 120)
  | sum64 (e : Fin 64) (i : BitVec 16) (w : BitVec 120)
  | skenc (e : Fin 64) (i : BitVec 16) (w : BitVec 120)
  | skdec (e : Fin 64) (i : BitVec 16) (w : BitVec 120) (ups : List LaUpset)
  | upds (e : Fin 64) (i : BitVec 16) (w : BitVec 120)
  | updm (e : Fin 64) (i : BitVec 16) (w : BitVec 120)
  | upda (e : Fin 64) (i : BitVec 16) (w : BitVec 120)
  | iqTileArrive (e : Fin 64) (q : Fin 8) (t : IqTile)
  | scrub (e : Fin 64)
  | online (e : Fin 64)
  | offline (e : Fin 64)
  | engClrCounts (e : Fin 64)
  | scrubEnd (e : Fin 64)
  | skmTblLoad
  | skmTblLoadDone
  | skmActivate (slot : Fin 2)
  | skmRetire (slot : Fin 2)
  | skmClrCounts
  | skmSlotDrained (slot : Fin 2)
  | unitArrive (src : Fin 17) (copied : Bool) (bytes : List Byte)
  | planAdmit (r : MboxRec) (len crc : BitVec 32)
  | planAdmitDone
  | planRelaunch (r : MboxRec) (launchNs : BitVec 64)
  | planDiscard (r : MboxRec) (which : BitVec 8)
  | planHalt (r : MboxRec)
  | haltAtSeam
  | discardNext
  | stnClrCounts
  | launch
  | stepStart
  | slotStart (k : Fin 4096)
  | stepDeadline
  | stepSeam
  | join (m : ClcMsg)
  | siteJoin (m : ClcMsg)
  | clcReady (m : ClcMsg)
  | siteReady (m : ClcMsg)
  | abortReq (m : ClcMsg)
  | late (m : ClcMsg)
  | ext (m : ClcMsg)
  | ring (m : ClcMsg)
  | notify (m : ClcMsg)
  | abortReply (m : ClcMsg)
  | rebuildReq (m : ClcMsg)
  | rebuilt (m : ClcMsg)
  | memberLostTimeout (coll : Fin 64) (step : BitVec 32) (rank : BitVec 15)
  | abortHoldEnd (coll : Fin 64) (step : BitVec 32)
  | ringResend (coll : Fin 64) (step : BitVec 32)
  | clcAbort (coll : Fin 64)
  | clcClrCounts
  | collAbort (r : MboxRec) (coll : BitVec 8) (step : BitVec 32)
  | pairLinkUp
  | seHello (h : PairHdr) (role : BitVec 8) (part : BitVec 16) (stepping : BitVec 8) (asig : BitVec 32) (hash : BitVec 64)
  | seSlot (h : PairHdr) (step : BitVec 32) (slot : BitVec 16) (e : Fin 64) (count : BitVec 32) (digest : BitVec 64)
  | seDestReq (h : PairHdr) (step : BitVec 32) (slot : BitVec 16) (e : Fin 64)
  | seDest (h : PairHdr) (step : BitVec 32) (slot : BitVec 16) (e : Fin 64) (idx : BitVec 32) (d : Option DestRec)
  | seUnit (h : PairHdr) (bond : Fin 16) (bytes : List Byte)
  | seCtl (h : PairHdr) (m : ClcMsg)
  | seRoleWrite (value : BitVec 32)
  | clrCapture
  | seClrCounts
  | ptpMessage (m : PtpMsg)
  | ptpAnnounceTimeout
  | timeMessage (b : Fin 16) (m : TimeMsg) (rx : FullTime)
  | ppsInEdge (t : FullTime)
  | stepNow
  | plbClrCounts
  | incWrite (inc : BitVec 40)
  | swStale
  | asymWrite (src : Fin 19) (valid : Bool) (asym : BitVec 48)
  | calibrationDone (src : Fin 19)
  | ppsOutPulse
  | hbmRefresh (k : Fin 32) (patrol : Option (Fin 6291456 × List BurstUpset)) (passDone : Bool)
  | hbmCeWriteback (k : Fin 32) (burst : BitVec 40)
  | hbmTrainingDone (k : Fin 32) (ok : Bool) (margin : BitVec 16)
  | stackInitDone (k : Fin 32)
  | hbmLinkLoss (k : Fin 32)
  | clrUeAddr (k : Fin 32)
  | hbmClrCounts (k : Fin 32)
  | grant (src : LathSrc) (owner : BitVec 32) (pool : BitVec 3) (quad : Fin 4)
  | free (src : LathSrc) (owner : BitVec 32) (handle : BitVec 32)
  | freeOwner (src : LathSrc) (owner : BitVec 32)
  | handover (src : LathSrc) (owner : BitVec 32) (newCls : BitVec 2) (newOwner : BitVec 32)
  | proxyFree (src : LathSrc) (owner : BitVec 32)
  | query (src : LathSrc) (handle : BitVec 32)
  | fenceConfirm (u : FenceUser) (epoch : BitVec 16)
  | fenceStuck
  | legFramesWrite (p : Fin 4) (value : BitVec 32)
  | lthClrCounts
  | frameReceive (g : Fin 128) (arrival : FullTime)
  | lofDeclare (g : Fin 128)
  | lofClear (g : Fin 128)
  | farLosAssert (g : Fin 128)
  | losClear (g : Fin 128)
  | rangingMessage (b : Fin 16) (bytes : List Byte)
  | frameRelease (b : Fin 16)
  | tribAddOctet (c : Fin 4) (group : BitVec 10)
  | bondCfgWrite (b : Fin 16) (value : BitVec 32)
  | portCfgWrite (p : Fin 16) (value : BitVec 32)
  | tribCfgWrite (c : Fin 4) (value : BitVec 32)
  | rndClrCounts (p : Fin 16)
  | codewordReceive (l : LaneRef) (levels : List (BitVec 2))
  | transmitPosition (b : Fin 16)
  | resendTimeout (b : Fin 16) (seq : BitVec 48)
  | moveRetire (b : Fin 16) (pos : BitVec 8)
  | moveRestore (b : Fin 16) (pos : BitVec 8)
  | moveDone
  | mndClrCounts
  | stripeCfgWrite (b : Fin 16) (value : BitVec 32)
  | keyLoad (r : MboxRec) (offset crc : BitVec 32)
  | keyReady (b : Fin 16) (bytes : List Byte)
  | txKeySwitch (b : Fin 16)
  | overlapExpire (b : Fin 16) (slot : Fin 2)
  | trngFail (q : Fin 4)
  | slrClrCounts
  | attest (r : MboxRec) (nonce : List Byte)
  | ownerUpload (r : MboxRec) (offset crc : BitVec 32)
  | stripChallenge (r : MboxRec)
  | strip (r : MboxRec) (offset crc : BitVec 32)
  | nearFrameReceive (n : Fin 8) (c : Fin 32)
  | nearTxFrame (n : Fin 8) (c : Fin 32)
  | controlCycle (n : Fin 8) (o : CycleObs)
  | monitorSample (n : Fin 8) (o : MonitorObs)
  | ringPeakLoss (n : Fin 8) (c : Fin 32) (rx : Bool)
  | rxLos (n : Fin 8) (c : Fin 32)
  | verifyTimeout (n : Fin 8) (c : Fin 32)
  | spareMakeTimeout (n : Fin 8) (o : Fin 4)
  | rxSweepRetry (n : Fin 8) (c : Fin 32)
  | eyeInterlockHigh
  | eyeInterlockLow
  | rxLightLoss (n : Fin 8)
  | probeEntry (n : Fin 8)
  | probeTimeout (n : Fin 8) (light : Bool)
  | relock (n : Fin 8) (c : Fin 32) (rx : Bool)
  | swap (n : Fin 8) (c : Fin 32)
  | forceOff (n : Fin 8) (on : Bool)
  | phnClrCounts (n : Fin 8)
  | fenceWrite (n : Fin 8) (reg : Fin 3) (value : BitVec 32)
  | queueItemArrive (q : QueueRef) (it : ArriveItem)
  | gateCycleStart
  | gateSwap
  | queueSample
  | clrMax
  | schClrCounts
  | queueCfgWrite (q : Fin 256) (reg : QueueReg) (value : BitVec 32)
  | open1 (m : Open1)
  | open3 (session : BitVec 16) (hcs : BitVec 8) (proof : List Byte)
  | openLapse (session : BitVec 16)
  | sessionIdleTimeout (session : BitVec 16)
  | lockoutExpire
  | nop (r : MboxRec)
  | close (r : MboxRec)
  | info (r : MboxRec)
  | ready (r : MboxRec)
  | peek (r : MboxRec) (addr : BitVec 32) (n : BitVec 8)
  | poke (r : MboxRec) (addr value : BitVec 32)
  | stageClaim (r : MboxRec) (area : BitVec 8)
  | stageRelease (r : MboxRec) (area : BitVec 8)
  | bulkRead (r : MboxRec) (area : BitVec 8) (handle : BitVec 32) (offset : BitVec 64) (len : BitVec 32)
  | bulkWrite (r : BulkRec)
  | ledgerRead (r : MboxRec) (sel : BitVec 8) (firstPart count : BitVec 16) (firstSeq : BitVec 64)
  | fmRetire (r : MboxRec) (part : BitVec 16) (seq : BitVec 64)
  | fmTolerate (r : MboxRec) (part : BitVec 16) (seq : BitVec 64)
  | fmRestore (r : MboxRec) (part : BitVec 16) (seq : BitVec 64)
  | fwUpdate (r : MboxRec) (len crc : BitVec 32) (im : FwImage)
  | fwUpdateDone (readBackOk : Bool)
  | resetDevice (r : MboxRec)
  | resetFirmware (r : MboxRec)
  | resetDatapath (r : MboxRec)
  | netSet (r : MboxRec) (slot len : BitVec 8) (mboxPort bulkPort : BitVec 16) (addr : BitVec 128)
  | neighborDiscovery (m : NdMsg)
  | recoverInfo
  | recoverWrite (offset : BitVec 32) (bytes : List Byte)
  | recoverDone (len crc : BitVec 32) (im : FwImage) (found : StartFinds)
  | hwkClrCounts
  | hawkStart (im : FwImage) (found : StartFinds)
  | lifeSTick
  | ledgerPoll (hostCorr hostUncorr : BitVec 32)
  | journalFlush (readBackOk : Bool)
  | summaryWrite (readBackOk : Bool)
  | scoreEval
  | flush (readBackOk : Bool)
  | sngClrCounts
  | powerOn (byPin : Bool)
  | brownOut
  | supplyWarnAssert (inTime : Bool)
  | supplyWarnRelease
  | tempSample (o : TempObs)
  | throttleHoldExpire
  | powerRemoved
  | minLevelWrite (value : BitVec 32)
  | pwrClrCounts
  | tapReset
  | idcode
  | bypass (tdi : List Bool)
  | jtagBoundaryScan (cells : Nat) (drive : Option (List Bool))
  | jtagPrivate (tdi : List Bool)
  | dropFifoSend (c : Fin 4)
  | rxLosClear (n : Fin 8) (c : Fin 32)
  | resetNRise
  | brownOutEnd
  | ppsInEdgeMissing
  | ref10mInMeasure (rate : BitVec 32)
  | delayReqSend (departure : FullTime)
  | stripChallengeExpire
  | hostPortLinkChange (lost : Bool)
deriving DecidableEq, Repr

end Sys2Proof
end

