-- ==== Sys2Proof/Machine/Tab.lean ====
section
/-! DEFINITION. Operations of the sparse arrays and memories of Word.lean, and the byte-order helpers of R4. -/

namespace Sys2Proof

/-- The value at index `k`; an unlisted index reads as `d`. -/
def Tab.get {α : Type} (d : α) (t : Tab α) (k : Nat) : α :=
  match t with
  | [] => d
  | (j, v) :: r => if j = k then v else Tab.get d r k

/-- The entries below `k`, and those from `k` on. -/
def Tab.below {α : Type} (t : Tab α) (k : Nat) : Tab α := t.filter (fun p => p.1 < k)
def Tab.from {α : Type} (t : Tab α) (k : Nat) : Tab α := t.filter (fun p => k ≤ p.1)

/-- Writes `v` at index `k`; writing the default removes the entry. -/
def Tab.put {α : Type} [DecidableEq α] (d : α) (t : Tab α) (k : Nat) (v : α) : Tab α :=
  Tab.below t k ++ (if v = d then [] else [(k, v)]) ++ Tab.from t (k + 1)

/-- Entries for a list of values at consecutive indices from `k`, defaults left out. -/
def Tab.seg {α : Type} [DecidableEq α] (d : α) : Nat → List α → Tab α
  | _, [] => []
  | k, v :: vs => if v = d then Tab.seg d (k + 1) vs else (k, v) :: Tab.seg d (k + 1) vs

/-- Writes a list of values at consecutive indices from `k`. -/
def Tab.putSeg {α : Type} [DecidableEq α] (d : α) (t : Tab α) (k : Nat) (vs : List α) : Tab α :=
  Tab.below t k ++ Tab.seg d k vs ++ Tab.from t (k + vs.length)

/-- `n` values at consecutive indices from `k`, read from entries that start no lower than `k`. -/
def Tab.fill {α : Type} (d : α) (k : Nat) : Nat → Tab α → List α
  | 0, _ => []
  | n + 1, [] => d :: Tab.fill d (k + 1) n []
  | n + 1, (j, v) :: r => if j = k then v :: Tab.fill d (k + 1) n r else d :: Tab.fill d (k + 1) n ((j, v) :: r)

/-- The `n` values from index `k`. -/
def Tab.getSeg {α : Type} (d : α) (t : Tab α) (k n : Nat) : List α := Tab.fill d k n (Tab.from t k)

/-- Removes every entry of `n` indices from `k`, so that they read as the default. -/
def Tab.clearSeg {α : Type} (t : Tab α) (k n : Nat) : Tab α := Tab.below t k ++ Tab.from t (k + n)

/-- Rising indices, from `lo` on, and no listed default: the canonical form. -/
def Tab.wfFrom {α : Type} [DecidableEq α] (d : α) : Nat → Tab α → Bool
  | _, [] => true
  | lo, (j, v) :: r => decide (lo ≤ j) && decide (v ≠ d) && Tab.wfFrom d (j + 1) r

def Tab.wf {α : Type} [DecidableEq α] (d : α) (t : Tab α) : Bool := Tab.wfFrom d 0 t

/-- Canonical form of a memory, whose unlisted bytes read as 0. -/
def Mem.wf (m : Mem) : Bool := Tab.wf (0 : Byte) m

/-- One byte of a memory. -/
def Mem.get (m : Mem) (a : Nat) : Byte := Tab.get 0 m a

/-- Writes bytes at rising addresses from `a`. -/
def Mem.write (m : Mem) (a : Nat) (bs : List Byte) : Mem := Tab.putSeg 0 m a bs

/-- Reads `n` bytes from address `a`. -/
def Mem.read (m : Mem) (a n : Nat) : List Byte := Tab.getSeg 0 m a n

/-- Bytes `[off, off + n)` of a list. -/
def slice {α : Type} (l : List α) (off n : Nat) : List α := (l.drop off).take n

/-- The `len` low bytes of `v`, least significant first: R4, registers and data structures. -/
def leBytes : (len v : Nat) → List Byte
  | 0, _ => []
  | n + 1, v => BitVec.ofNat 8 v :: leBytes n (v / 256)

/-- The `len` low bytes of `v`, most significant first: R4, wire formats. -/
def beBytes (len v : Nat) : List Byte := (leBytes len v).reverse

/-- The number that bytes stand for, least significant first. -/
def leNat : List Byte → Nat
  | [] => 0
  | b :: bs => b.toNat + 256 * leNat bs

/-- The number that bytes stand for, most significant first. -/
def beNat (bs : List Byte) : Nat := leNat bs.reverse

/-- Little-endian field of a byte string. -/
def leAt (bs : List Byte) (off n : Nat) : Nat := leNat (slice bs off n)

/-- Big-endian field of a byte string. -/
def beAt (bs : List Byte) (off n : Nat) : Nat := beNat (slice bs off n)

/-- A list cut or padded to length `n`. -/
def padTo {α : Type} (d : α) (n : Nat) (l : List α) : List α := l.take n ++ List.replicate (n - l.length) d

/-- A list cut into pieces of `n`, at most `fuel` of them. -/
def chunks {α : Type} (n : Nat) : (fuel : Nat) → List α → List (List α)
  | 0, _ => []
  | f + 1, l => if l.isEmpty then [] else l.take n :: chunks n f (l.drop n)

/-- Element `i` of a list with one place replaced. -/
def listSet {α : Type} (l : List α) (i : Nat) (v : α) : List α := l.set i v

/-- Bits [hi:lo] of a number. -/
def bitsOf (v hi lo : Nat) : Nat := (v >>> lo) % 2 ^ (hi + 1 - lo)

/-- One bit of a number. -/
def bitOf (v i : Nat) : Bool := v.testBit i

/-- A one-bit field. -/
def b2n (b : Bool) : Nat := if b then 1 else 0

/-- Bit position of the most significant 1, R46. -/
def msbIndex (x : Nat) : Nat := x.log2

/-- Smallest integer not below a / b. -/
def ceilDiv (a b : Nat) : Nat := (a + b - 1) / b

/-- A number kept within two bounds. -/
def clampInt (lo hi v : Int) : Int := if v < lo then lo else if v > hi then hi else v

end Sys2Proof
end

