-- ==== Sys2Proof/Machine/Hash.lean ====
section
/-! DEFINITION. CRC-32C of R80, the 8-bit and 16-bit check codes of the wire formats, and SHA-256 (FIPS 180-4) and HMAC-SHA-256 over it. -/

namespace Sys2Proof

/-- One bit of the reflected CRC register. -/
def crcBit (poly c : Nat) : Nat := if c % 2 = 1 then (c / 2) ^^^ poly else c / 2

/-- Eight bits of the reflected CRC register. -/
def crcByte (poly c b : Nat) : Nat :=
  let c := c ^^^ b
  crcBit poly (crcBit poly (crcBit poly (crcBit poly (crcBit poly (crcBit poly (crcBit poly (crcBit poly c)))))))

/-- The reflected form of 0x1EDC_6F41. -/
def crc32cPoly : Nat := 0x82F63B78

/-- CRC-32C of R80. -/
def crc32c (bs : List Byte) : BitVec 32 :=
  BitVec.ofNat 32 ((bs.foldl (fun c b => crcByte crc32cPoly c b.toNat) 0xFFFFFFFF) ^^^ 0xFFFFFFFF)

/-- CRC-32C of a tile of 4,096 zero bytes: what R332 initialises every tile's tag to, and the tag of a cleared tile. -/
def crcZeroTile : BitVec 32 := crc32c (List.replicate 4096 0)

/-! SHA-256, FIPS 180-4, over numbers below 2^32. Its constants are computed: they are the first 32 bits of the fractions of cube and square roots of primes. -/

/-- The largest number whose k-th power is at most n, found from bit b down. -/
def rootBits (k n : Nat) : (b acc : Nat) → Nat
  | 0, acc => acc
  | b + 1, acc => rootBits k n b (if (acc + 2 ^ b) ^ k ≤ n then acc + 2 ^ b else acc)

/-- The first 32 bits of the fraction of the k-th root of p. -/
def rootFraction (k p : Nat) : Nat := rootBits k (p * 2 ^ (32 * k)) 37 0 % 2 ^ 32

/-- The primes below n. -/
def primesBelow (n : Nat) : List Nat := (List.range n).filter fun p => 2 ≤ p ∧ (List.range p).all fun q => q < 2 || p % q != 0

/-- Round constants: the first 64 primes. -/
def shaRounds : List Nat := (primesBelow 312).map (rootFraction 3)

/-- Exclusive or of the rotations of a word by these amounts, and of it shifted by the last. -/
def turned (by' : List Nat) (shift : Option Nat) (x : Nat) : Nat :=
  let y := by'.foldl (fun y n => y ^^^ ((x >>> n) ||| ((x <<< (32 - n)) % 2 ^ 32))) 0
  match shift with
  | some n => y ^^^ (x >>> n)
  | none => y

/-- The hash between rounds: the last four words of either recurrence, newest first, and the sixteen words of the message schedule still ahead. -/
structure ShaRun where
  top : List Nat
  low : List Nat
  ahead : List Nat

/-- One round with its constant: the schedule moves by one word and either recurrence gains one. -/
def ShaRun.round (r : ShaRun) (k : Nat) : ShaRun :=
  let at' := fun (l : List Nat) i => l.getD i 0
  let choice := at' r.low 2 ^^^ (at' r.low 0 &&& (at' r.low 1 ^^^ at' r.low 2))
  let common := at' r.low 3 + turned [6, 11, 25] none (at' r.low 0) + choice + k + at' r.ahead 0
  let agreed := (at' r.top 0 &&& (at' r.top 1 ||| at' r.top 2)) ||| (at' r.top 1 &&& at' r.top 2)
  let word := at' r.ahead 0 + turned [7, 18] (some 3) (at' r.ahead 1) + at' r.ahead 9 + turned [17, 19] (some 10) (at' r.ahead 14)
  { top := (common + turned [2, 13, 22] none (at' r.top 0) + agreed) % 2 ^ 32 :: r.top.take 3, low := (at' r.top 3 + common) % 2 ^ 32 :: r.low.take 3, ahead := r.ahead.drop 1 ++ [word % 2 ^ 32] }

/-- One block of 64 bytes changes the eight words of the hash. -/
def shaBlock (hash : List Nat) (block : List Byte) : List Nat :=
  let r := shaRounds.foldl ShaRun.round ⟨hash.take 4, hash.drop 4, (chunks 4 16 block).map beNat⟩
  List.zipWith (fun x y => (x + y) % 2 ^ 32) hash (r.top ++ r.low)

/-- SHA-256 of a byte string. -/
def sha256 (bs : List Byte) : List Byte :=
  let blocks := (bs.length + 72) / 64
  let message := padTo 0 (64 * blocks - 8) (bs ++ [0x80]) ++ beBytes 8 (8 * bs.length)
  ((chunks 64 blocks message).foldl shaBlock ((primesBelow 20).map (rootFraction 2))).flatMap (beBytes 4)

/-- HMAC-SHA-256, RFC 2104. -/
def hmac (key msg : List Byte) : List Byte :=
  let k := padTo 0 64 (if 64 < key.length then sha256 key else key)
  let pad := fun v : Byte => k.map (· ^^^ v)
  sha256 (pad 0x5C ++ sha256 (pad 0x36 ++ msg))

/-- ASCII "EX9640-", with which every label of chapter 12 begins, and what follows it in one. -/
def exLabel (rest : List Byte) : List Byte := [0x45, 0x58, 0x39, 0x36, 0x34, 0x30, 0x2D] ++ rest

end Sys2Proof
end

