-- ==== Sys2Proof/Machine/Numeric.lean ====
section
/-! DEFINITION. Number formats and arithmetic, chapter 02: formats, decoding, rounding, conversion, the long accumulator, ADD, FMA, products, the FP64 tree and the stochastic-rounding generator. -/

namespace Sys2Proof

/-- An exact operand: a finite value (−1)^neg × mag × 2^q, an infinity or a NaN. -/
inductive Num where
  | fin (neg : Bool) (mag : Nat) (q : Int)
  | inf (neg : Bool)
  | nan
deriving DecidableEq, Repr

/-- Rounding modes of R45. -/
inductive Rm where
  | rne | rtz | sr
deriving DecidableEq, Repr

/-- A rounded result: its code, whether a finite value was replaced by a range limit (R50), and whether it raises the non-finite flag (R73). -/
structure Res where
  code : Nat
  sat : Bool
  nf : Bool
deriving DecidableEq, Repr

/-- Layout of a format of R36 or R41: its bits, the bits of its mantissa, bias, precision, emin, emax; `nans` is 2 for formats with infinities and NaNs, 1 for E4M3, 0 for formats without. -/
structure FmtInfo where
  bits : Nat
  int : Bool
  mbits : Nat
  bias : Int
  emin : Int
  emax : Int
  nans : Nat
deriving DecidableEq, Repr

/-- The formats of R33 with codes 0x0 to 0xB. -/
def fmtInfo (f : BitVec 4) : FmtInfo :=
  match f.toNat with
  | 0 => ⟨64, false, 52, 1023, -1022, 1023, 2⟩
  | 1 => ⟨32, false, 23, 127, -126, 127, 2⟩
  | 2 => ⟨16, false, 7, 127, -126, 127, 2⟩
  | 3 => ⟨16, false, 10, 15, -14, 15, 2⟩
  | 4 => ⟨8, false, 2, 15, -14, 15, 2⟩
  | 5 => ⟨8, false, 3, 7, -6, 8, 1⟩
  | 6 => ⟨6, false, 2, 3, -2, 4, 0⟩
  | 7 => ⟨6, false, 3, 1, 0, 2, 0⟩
  | 8 => ⟨4, false, 1, 1, 0, 2, 0⟩
  | 9 => ⟨32, true, 0, 0, 0, 0, 0⟩
  | 10 => ⟨16, true, 0, 0, 0, 0, 0⟩
  | _ => ⟨8, true, 0, 0, 0, 0, 0⟩

/-- Precision p of R36. -/
def FmtInfo.p (i : FmtInfo) : Nat := i.mbits + 1

/-- Bits that one element takes in storage, R33 and R34. -/
def storeBits (f : BitVec 4) : Nat :=
  match f.toNat with
  | 6 => 8 | 7 => 8
  | _ => (fmtInfo f).bits

/-- Elements of a 4 KiB tile, R77. -/
def elemsPerTile (f : BitVec 4) : Nat := if 12 ≤ f.toNat then 1024 else 32768 / storeBits f

/-- LA rows of a tile or SKDEC span position, R77. -/
def rowsPerTile (f : BitVec 4) : Nat := elemsPerTile f / 128

/-- The sign bit of a code. -/
def signOf (i : FmtInfo) (c : Nat) : Bool := c.testBit (i.bits - 1)

/-- Value of a code, R37 and R41. -/
def decodeNum (f : BitVec 4) (c : Nat) : Num :=
  let i := fmtInfo f
  if i.int then
    let v : Int := if signOf i c then (c : Int) - 2 ^ i.bits else c
    .fin (decide (v < 0)) v.natAbs 0
  else
    let s := signOf i c
    let m := c % 2 ^ i.mbits
    let e := (c >>> i.mbits) % 2 ^ (i.bits - 1 - i.mbits)
    let ones := 2 ^ (i.bits - 1 - i.mbits) - 1
    if i.nans = 2 ∧ e = ones then (if m = 0 then .inf s else .nan)
    else if i.nans = 1 ∧ e = ones ∧ m = 2 ^ i.mbits - 1 then .nan
    else if e = 0 then .fin s m (i.emin - i.mbits)
    else .fin s (2 ^ i.mbits + m) ((e : Int) - i.bias - i.mbits)

/-- The canonical NaN of a format, R36; formats without a NaN give +0. -/
def canonNan (i : FmtInfo) : Nat :=
  if i.nans = 2 then (2 ^ (i.bits - 1 - i.mbits) - 1) * 2 ^ i.mbits + 2 ^ (i.mbits - 1)
  else if i.nans = 1 then 2 ^ (i.bits - 1) - 1 else 0

/-- A code with its sign bit. -/
def withSign (i : FmtInfo) (s : Bool) (c : Nat) : Nat := c + (if s then 2 ^ (i.bits - 1) else 0)

/-- The largest finite significand of the top binade, R38. -/
def topKept (i : FmtInfo) : Nat := if i.nans = 1 then 2 ^ i.p - 2 else 2 ^ i.p - 1

/-- The largest finite value of a sign, or the range end of an integer format, R38 and R41. -/
def largest (i : FmtInfo) (s : Bool) : Nat :=
  if i.int then (if s then 2 ^ (i.bits - 1) else 2 ^ (i.bits - 1) - 1)
  else withSign i s ((i.emax + i.bias).toNat * 2 ^ i.mbits + (topKept i - 2 ^ i.mbits))

/-- An infinity of a format that has one. -/
def infCode (i : FmtInfo) (s : Bool) : Nat := withSign i s ((2 ^ (i.bits - 1 - i.mbits) - 1) * 2 ^ i.mbits)

/-- A zero, R49. -/
def zeroResult (i : FmtInfo) (s : Bool) : Res := ⟨if i.int then 0 else withSign i s 0, false, false⟩

/-- Overflow results, R48. -/
def overflowResult (i : FmtInfo) (s : Bool) (mode : Rm) (sat : Bool) : Res :=
  if i.int ∨ i.nans = 0 ∨ mode = .rtz ∨ sat then ⟨largest i s, true, false⟩
  else if i.nans = 2 then ⟨infCode i s, false, true⟩
  else ⟨canonNan i, false, true⟩

/-- Whether kept × 2^q lies above the largest finite magnitude, R46. -/
def exceedsRange (i : FmtInfo) (s : Bool) (kept : Nat) (q : Int) : Bool :=
  if i.int then decide (kept > if s then 2 ^ (i.bits - 1) else 2 ^ (i.bits - 1) - 1)
  else
    let top := i.emax - i.mbits
    decide (top ≤ q) && decide (kept <<< (q - top).toNat > topKept i)

/-- The code of a finite non-zero value on the grid, R37. -/
def encodeNum (i : FmtInfo) (s : Bool) (kept : Nat) (q : Int) : Nat :=
  if i.int then (if s then 2 ^ i.bits - kept else kept)
  else
    let (kept, q) := if kept = 2 ^ i.p then (2 ^ i.mbits, q + 1) else (kept, q)
    if kept < 2 ^ i.mbits then withSign i s kept
    else withSign i s ((q + i.mbits + i.bias).toNat * 2 ^ i.mbits + (kept - 2 ^ i.mbits))

/-- Exponent q of the grid that a magnitude is rounded on, R46. -/
def gridExp (i : FmtInfo) (mag : Nat) (k : Int) : Int :=
  if i.int then 0 else max ((msbIndex mag : Int) + k) i.emin - i.mbits

/-- Whether the discarded part rounds up, R46 and R47. -/
def roundsUp (mode : Rm) (n kept rest r32 : Nat) : Bool :=
  if n = 0 then false
  else match mode with
    | .rtz => false
    | .rne =>
      let half := 2 ^ (n - 1)
      decide (rest > half) || (decide (rest = half) && decide (kept % 2 = 1))
    | .sr =>
      let f := if 32 ≤ n then rest >>> (n - 32) else rest <<< (32 - n)
      decide (2 ^ 32 ≤ f + r32)

/-- `round_value` of R46. -/
def roundValue (s : Bool) (mag : Nat) (k : Int) (f : BitVec 4) (mode : Rm) (r32 : Nat) (sat : Bool) : Res :=
  let i := fmtInfo f
  if mag = 0 then zeroResult i s
  else
    let q := gridExp i mag k
    let n := if q > k then (q - k).toNat else 0
    let kept := if q > k then mag >>> n else mag <<< (k - q).toNat
    let rest := if q > k then mag - (kept <<< n) else 0
    let kept := if roundsUp mode n kept rest r32 then kept + 1 else kept
    if exceedsRange i s kept q then overflowResult i s mode sat
    else if kept = 0 then zeroResult i s
    else ⟨encodeNum i s kept q, false, false⟩

/-- Conversion of a NaN input, R55. -/
def nanResult (i : FmtInfo) : Res := ⟨canonNan i, false, true⟩

/-- Conversion of an infinite input, R55. -/
def infResult (i : FmtInfo) (s sat : Bool) : Res :=
  if i.int ∨ i.nans = 0 ∨ sat then ⟨largest i s, false, true⟩
  else if i.nans = 2 then ⟨infCode i s, false, true⟩ else ⟨canonNan i, false, true⟩

/-- An exact value, infinity or NaN rounded to a format: R46, R55. -/
def roundNum (v : Num) (f : BitVec 4) (mode : Rm) (r32 : Nat) (sat : Bool) : Res :=
  match v with
  | .fin s mag k => roundValue s mag k f mode r32 sat
  | .inf s => infResult (fmtInfo f) s sat
  | .nan => nanResult (fmtInfo f)

def Num.isFinite : Num → Bool
  | .fin _ _ _ => true
  | _ => false

/-- CVT of one element, R53. -/
def convert (src dst : BitVec 4) (c : Nat) (mode : Rm) (r32 : Nat) (sat : Bool) : Res :=
  let v := decodeNum src c
  if src = dst then ⟨c, false, !v.isFinite⟩ else roundNum v dst mode r32 sat

/-- (−1)^neg × mag as an integer. -/
def signed (neg : Bool) (mag : Nat) : Int := if neg then -(mag : Int) else mag

/-- Exact sum of two finite values as an integer and an exponent. -/
def exactSum (s1 : Bool) (m1 : Nat) (q1 : Int) (s2 : Bool) (m2 : Nat) (q2 : Int) : Int × Int :=
  let q := min q1 q2
  (signed s1 (m1 <<< (q1 - q).toNat) + signed s2 (m2 <<< (q2 - q).toNat), q)

/-- Sum of two operands, before rounding; an exact zero is −0 only when both operands are −0, R68. -/
def addNum (a b : Num) : Num :=
  match a, b with
  | .nan, _ => .nan
  | _, .nan => .nan
  | .inf s, .inf t => if s = t then .inf s else .nan
  | .inf s, _ => .inf s
  | _, .inf t => .inf t
  | .fin s1 m1 q1, .fin s2 m2 q2 =>
    let (v, q) := exactSum s1 m1 q1 s2 m2 q2
    if v = 0 then .fin (m1 = 0 && m2 = 0 && s1 && s2) 0 q else .fin (decide (v < 0)) v.natAbs q

/-- Exact product, R69 and R72. -/
def mulNum (a b : Num) : Num :=
  match a, b with
  | .nan, _ => .nan
  | _, .nan => .nan
  | .inf s, .inf t => .inf (s ^^ t)
  | .inf s, .fin t m _ => if m = 0 then .nan else .inf (s ^^ t)
  | .fin t m _, .inf s => if m = 0 then .nan else .inf (s ^^ t)
  | .fin s1 m1 q1, .fin s2 m2 q2 => .fin (s1 ^^ s2) (m1 * m2) (q1 + q2)

/-- A rounded operation raises the flag for a non-finite operand or result, R73. An infinite exact result is an infinity of the operands and no overflow, so SAT does not bear on it. -/
def roundOp (v : Num) (f : BitVec 4) (mode : Rm) (r32 : Nat) (sat anyNonFinite : Bool) : Res :=
  let r := match v with
    | .fin s mag k => roundValue s mag k f mode r32 sat
    | .inf s => infResult (fmtInfo f) s false
    | .nan => nanResult (fmtInfo f)
  { r with nf := r.nf || anyNonFinite }

/-- ADD of one element pair, R68. -/
def addElem (f : BitVec 4) (a b : Nat) (mode : Rm) (r32 : Nat) (sat : Bool) : Res :=
  let x := decodeNum f a
  let y := decodeNum f b
  roundOp (addNum x y) f mode r32 sat (!x.isFinite || !y.isFinite)

def fp32 : BitVec 4 := 1
def fp64 : BitVec 4 := 0

/-- FMA of one element, R69. -/
def fmaElem (a b c : Nat) (mode : Rm) (r32 : Nat) (sat : Bool) : Res :=
  let x := decodeNum fp32 a
  let y := decodeNum fp32 b
  let z := decodeNum fp32 c
  roundOp (addNum (mulNum x y) z) fp32 mode r32 sat (!x.isFinite || !y.isFinite || !z.isFinite)

/-- Largest r with r² ≤ x, found from bit `b` down. -/
def isqrtFrom (x : Nat) : (b r : Nat) → Nat
  | 0, r => r
  | b + 1, r => isqrtFrom x b (if (r + 2 ^ b) * (r + 2 ^ b) ≤ x then r + 2 ^ b else r)

/-- The reciprocal square root of R106: 140 fraction bits of 1/√h with a sticky bit below, rounded once. -/
def rsqElem (h : Nat) (mode : Rm) (r32 : Nat) (sat : Bool) : Res :=
  let i := fmtInfo fp32
  match decodeNum fp32 h with
  | .nan => nanResult i
  | .inf true => nanResult i
  | .inf false => ⟨0, false, true⟩
  | .fin s mag k =>
    if mag = 0 then ⟨infCode i false, false, true⟩
    else if s then nanResult i
    else
      let x := 2 ^ (280 + 200 - (k + 200).toNat) / mag
      let y := isqrtFrom x 220 0
      let exact := decide (y * y * mag * 2 ^ (k + 200).toNat = 2 ^ 480)
      roundValue false (2 * y + b2n (!exact)) (-141) fp32 mode r32 sat

/-- One `add64` of R67. -/
def add64 (a b : Nat) : Nat := (addElem fp64 a b .rne 0 false).code

/-- One level of the tree of R67. -/
def treeLevel : List Nat → List Nat
  | a :: b :: r => add64 a b :: treeLevel r
  | l => l

def treeLevels : Nat → List Nat → List Nat
  | 0, l => l
  | n + 1, l => if l.length ≤ 1 then l else treeLevels n (treeLevel l)

/-- `tree_sum` of R67. -/
def treeSum (l : List Nat) : Nat := (treeLevels l.length l).headD 0

/-- A code in which a NaN is the canonical one of its format, R40. -/
def canonicalNan (f : BitVec 4) (c : Nat) : Nat :=
  match decodeNum f c with
  | .nan => canonNan (fmtInfo f)
  | _ => c

/-! The stochastic-rounding generator of R51. -/

def mix64 (x : BitVec 64) : BitVec 64 :=
  let x := x ^^^ (x >>> 31)
  let x := x * 0xC3A56F1D2B97E44B#64
  let x := x ^^^ (x >>> 29)
  let x := x * 0x8F2D5B71A6E309C5#64
  x ^^^ (x >>> 32)

def srWord (seed : BitVec 64) (step rank stream index : Nat) : Nat :=
  let hi := BitVec.ofNat 64 (step <<< 32 ||| rank <<< 17 ||| stream <<< 9)
  let lo := BitVec.ofNat 64 index
  let h := mix64 (seed ^^^ hi)
  let h := mix64 (h ^^^ lo ^^^ 0x7B3EA41C96D20F58#64)
  h.toNat >>> 32

/-! The long accumulator, R57 to R65. -/

/-- An entry of the LA file, R76: the 320-bit value and the five state bits ANY, ALLNEGZ, PINF, NINF, NAN (bits 0 to 4). In FP32 form the low 32 bits of `value` hold the running sum. -/
structure LaEntry where
  value : BitVec 320
  st : BitVec 5
deriving DecidableEq, Repr

/-- What a scrub writes: zeros, R118. -/
def LaEntry.zero : LaEntry := ⟨0, 0⟩

/-- An LA after a clear, R61. -/
def LaEntry.cleared : LaEntry := ⟨0, 0b00010⟩

/-- An FP32 running sum of −0, R97. -/
def LaEntry.negZero32 : LaEntry := ⟨0x80000000, 0⟩

/-- An addend enters an LA, R59 and R61. -/
def LaEntry.add (x : LaEntry) (v : Num) : LaEntry :=
  match v with
  | .fin s m q =>
    let d := BitVec.ofInt 320 (signed s (m <<< (q + 149).toNat))
    let negz := s && m = 0
    ⟨x.value + d, (x.st ||| 1) &&& (if negz then 0b11111 else 0b11101)⟩
  | .inf false => ⟨x.value, (x.st ||| 0b00101) &&& 0b11101⟩
  | .inf true => ⟨x.value, (x.st ||| 0b01001) &&& 0b11101⟩
  | .nan => ⟨x.value, (x.st ||| 0b10001) &&& 0b11101⟩

/-- An LA image enters an LA, R65. -/
def LaEntry.merge (x y : LaEntry) : LaEntry :=
  ⟨x.value + y.value, ((x.st ||| y.st) &&& 0b11101) ||| (x.st &&& y.st &&& 0b00010)⟩

/-- What an LA reads out as before rounding, R63. -/
def LaEntry.num (x : LaEntry) : Num :=
  if x.st.getLsbD 4 || (x.st.getLsbD 2 && x.st.getLsbD 3) then .nan
  else if x.st.getLsbD 2 then .inf false
  else if x.st.getLsbD 3 then .inf true
  else
    let v := x.value.toInt
    if v = 0 then .fin (x.st.getLsbD 0 && x.st.getLsbD 1) 0 (-149)
    else .fin (decide (v < 0)) v.natAbs (-149)

/-- Read-out of an LA, R63. -/
def LaEntry.read (x : LaEntry) (f : BitVec 4) (mode : Rm) (r32 : Nat) (sat : Bool) : Res :=
  roundNum x.num f mode r32 sat

/-- The 48-byte image of R65. -/
def LaEntry.image (x : LaEntry) : List Byte := leBytes 40 x.value.toNat ++ leBytes 8 x.st.toNat

/-- An entry from its image. -/
def LaEntry.ofImage (bs : List Byte) : LaEntry := ⟨BitVec.ofNat 320 (leAt bs 0 40), BitVec.ofNat 5 (leAt bs 40 1)⟩

/-- An addend enters an FP32 running sum, R66: converted exactly to FP32 and added with RNE. -/
def LaEntry.addEager (x : LaEntry) (c32 : Nat) : LaEntry :=
  { x with value := BitVec.ofNat 320 (addElem fp32 (x.value.toNat % 2 ^ 32) c32 .rne 0 false).code }

/-- FP32 code of an exactly representable value. -/
def toFp32 (v : Num) : Nat := (roundNum v fp32 .rne 0 false).code

/-- The addend of one DOT pair, R71 and R72. -/
def dotNum (f : BitVec 4) (a b : Nat) : Num :=
  let x := decodeNum f a
  let y := decodeNum f b
  let p := mulNum x y
  if (fmtInfo f).int then
    match p with
    | .fin s m q => .fin (s && m ≠ 0) m q
    | p => p
  else if f = 2 then decodeNum fp32 (roundNum p fp32 .rne 0 false).code
  else p

/-! Skim element values, R42 to R44. -/

/-- Width w of the magnitude of an SK format: SK8 0xC, SK4 0xD, SK2 0xE. -/
def skWidth (f : BitVec 4) : Nat := if f = 0xC then 7 else if f = 0xD then 3 else 1

/-- Value of an SK element under scale code s. -/
def skValue (f : BitVec 4) (s code : Nat) : Num :=
  let w := skWidth f
  if s = 0 then .fin false 0 0
  else if s = 255 then .nan
  else
    let m := code % 2 ^ w
    .fin (code.testBit w && m ≠ 0) m ((s : Int) - 127 - w)

/-! Elements of a tile, R34. -/

/-- The codes of the elements of a byte string in a format. -/
def elemsOf (f : BitVec 4) (bs : List Byte) : List Nat :=
  match f.toNat with
  | 8 => bs.flatMap fun b => [b.toNat % 16, b.toNat / 16]
  | 6 => bs.map fun b => b.toNat % 64
  | 7 => bs.map fun b => b.toNat % 64
  | _ => let n := storeBits f / 8
         (chunks n bs.length bs).map leNat

/-- Two nibbles to a byte. -/
def packNibbles : List Nat → List Byte
  | a :: b :: r => BitVec.ofNat 8 (a % 16 + 16 * (b % 16)) :: packNibbles r
  | [a] => [BitVec.ofNat 8 (a % 16)]
  | [] => []

/-- The bytes of a list of element codes, R34. -/
def elemBytes (f : BitVec 4) (cs : List Nat) : List Byte :=
  match f.toNat with
  | 8 => packNibbles cs
  | _ => cs.flatMap fun c => leBytes (storeBits f / 8) c

end Sys2Proof
end

