-- ==== Sys2Proof/Machine/SkimCode.lean ====
section
/-! DEFINITION. The codings of chapter 04 without state: fixed-rate blocks, residuals, coded units, the lossless coding and its tables. -/

namespace Sys2Proof

/-! ## Fixed-rate blocks, R124 to R132 -/

/-- floor(log2 |x|) of a finite non-zero value. -/
def Num.log2? : Num → Option Int
  | .fin _ m q => if m = 0 then none else some ((msbIndex m : Int) + q)
  | _ => none

/-- floor(log2 M) over the elements of a block; none when M = 0. -/
def maxLog2 (xs : List Num) : Option Int :=
  xs.foldl (fun b x => match b, x.log2? with
    | none, y => y
    | some a, some c => some (max a c)
    | some a, none => some a) none

/-- Scale code of R125. -/
def scaleCode (xs : List Num) : Nat :=
  match maxLog2 xs with
  | none => 0
  | some e => (clampInt 1 254 (e + 128)).toNat

/-- One element of R126 on a step of 2^t: sign, magnitude, and whether it was clamped. -/
def skElement (x : Num) (t : Int) (w : Nat) (mode : Rm) (r32 : Nat) : Bool × Nat × Bool :=
  match x with
  | .fin s mag q =>
    let n := (t - q).toNat
    let kept := if q < t then mag >>> n else mag <<< (q - t).toNat
    let rest := if q < t then mag - (kept <<< n) else 0
    let m := if roundsUp mode n kept rest r32 then kept + 1 else kept
    let top := 2 ^ w - 1
    let c := decide (top < m)
    let m := if c then top else m
    (s && decide (m ≠ 0), m, c)
  | _ => (false, 0, false)

/-- Exact x − (−1)^s × m × 2^t; an exact zero is +0, R131. -/
def skDiff (x : Num) (s : Bool) (m : Nat) (t : Int) : Num :=
  match x with
  | .fin xs mag q =>
    let (v, e) := exactSum xs mag q (!s) m t
    .fin (decide (v < 0)) v.natAbs e
  | _ => .fin false 0 0

/-- A coded block: scale code, element codes, clamped elements, whether it is poisoned, and the exact differences. -/
structure SkBlock where
  scale : Nat
  codes : List Nat
  clamps : Nat
  poisoned : Bool
  diffs : List Num
deriving DecidableEq, Repr

/-- Codes a block of 32 values, each with its random word: R125 to R128 and R132. -/
def encBlock (f : BitVec 4) (mode : Rm) (xs : List (Num × Nat)) : SkBlock :=
  let w := skWidth f
  if xs.any fun x => !x.1.isFinite then
    ⟨255, xs.map fun _ => 0, 0, true, xs.map fun _ => .fin false 0 0⟩
  else
    let s := scaleCode (xs.map (·.1))
    let t : Int := (s : Int) - 127 - w
    let es := xs.map fun x => (x.1, if s = 0 then (false, 0, false) else skElement x.1 t w mode x.2)
    let clamps := (es.filter fun e => e.2.2.2).length
    let diffs := es.map fun e => skDiff e.1 e.2.1 e.2.2.1 t
    if es.all fun e => e.2.2.1 = 0 then ⟨0, es.map fun _ => 0, clamps, false, diffs⟩
    else ⟨s, es.map fun e => (if e.2.1 then 2 ^ w else 0) + e.2.2.1, clamps, false, diffs⟩

/-- Two-bit codes, four to a byte. -/
def packPairs : List Nat → List Byte
  | a :: b :: c :: d :: r => BitVec.ofNat 8 (a % 4 + 4 * (b % 4) + 16 * (c % 4) + 64 * (d % 4)) :: packPairs r
  | _ => []

/-- Element codes in the layout of R124. -/
def packCodes (f : BitVec 4) (cs : List Nat) : List Byte :=
  if f = 0xC then cs.map (BitVec.ofNat 8) else if f = 0xD then packNibbles cs else packPairs cs

/-- Element codes from the layout of R124. -/
def unpackCodes (f : BitVec 4) (bs : List Byte) : List Nat :=
  if f = 0xC then bs.map (·.toNat)
  else if f = 0xD then bs.flatMap fun b => [b.toNat % 16, b.toNat / 16]
  else bs.flatMap fun b => [b.toNat % 4, b.toNat / 4 % 4, b.toNat / 16 % 4, b.toNat / 64]

/-- Payload length of a lossy unit, R124. -/
def skLen (f : BitVec 4) : Nat := if f = 0xC then 1056 else if f = 0xD then 544 else 288

/-- The blocks of a unit. -/
def encBlocks (f : BitVec 4) (mode : Rm) (xs : List (Num × Nat)) : List SkBlock := (chunks 32 xs.length xs).map (encBlock f mode)

/-- Payload of a unit's blocks, R124. -/
def blocksPayload (f : BitVec 4) (bs : List SkBlock) : List Byte :=
  bs.map (fun b => BitVec.ofNat 8 b.scale) ++ packCodes f (bs.flatMap (·.codes))

/-- Element values of a lossy unit's payload, R130: 32 scale codes, then 1,024 element codes. -/
def decPayload (f : BitVec 4) (p : List Byte) : List Num :=
  let cs := chunks 32 1024 (unpackCodes f (slice p 32 (skLen f - 32)))
  (List.zip (p.take 32) cs).flatMap fun b => b.2.map fun c => skValue f b.1.toNat c

/-- Elements 0 of the poisoned blocks of a payload, R74 and R130. -/
def poisonedAt (p : List Byte) : List Nat :=
  ((List.range 32).zip (p.take 32)).filterMap fun b => if b.2 = 255 then some (32 * b.1) else none

/-! ## Coded units, R123 -/

/-- Header of a coded unit. -/
structure UnitHdr where
  chan : Nat
  fmt : BitVec 4
  ll : Bool
  tab : Bool
  unit : Nat
  step : BitVec 32
  len : Nat
  tag : Nat
  crc : BitVec 32
deriving DecidableEq, Repr

/-- Header bytes 0 to 11. -/
def UnitHdr.bytes12 (h : UnitHdr) : List Byte :=
  [BitVec.ofNat 8 h.chan, BitVec.ofNat 8 (16 * h.fmt.toNat + 8 * b2n h.ll + 4 * b2n h.tab)] ++ beBytes 2 h.unit ++ beBytes 4 h.step.toNat
    ++ beBytes 2 h.len ++ beBytes 2 h.tag

/-- A whole header. -/
def UnitHdr.bytes (h : UnitHdr) : List Byte := h.bytes12 ++ beBytes 4 h.crc.toNat

/-- The header of a unit's first 16 bytes. -/
def unitHdr (b : List Byte) : UnitHdr :=
  let k := beAt b 1 1
  ⟨beAt b 0 1, BitVec.ofNat 4 (k / 16), k.testBit 3, k.testBit 2, beAt b 2 2, BitVec.ofNat 32 (beAt b 4 4), beAt b 8 2, beAt b 10 2, BitVec.ofNat 32 (beAt b 12 4)⟩

/-- Payload of a unit. -/
def unitPayload (b : List Byte) : List Byte := slice b 16 (unitHdr b).len

/-- A lossy unit with its CRC over header bytes 0 to 11 and the payload. -/
def lossyUnit (chan : Nat) (f : BitVec 4) (unit : Nat) (step : BitVec 32) (payload : List Byte) : List Byte :=
  let h : UnitHdr := ⟨chan, f, false, false, unit % 65536, step, payload.length, 0, 0⟩
  h.bytes12 ++ beBytes 4 (crc32c (h.bytes12 ++ payload)).toNat ++ payload

/-- Whether a lossy unit passes its CRC, R138. -/
def lossyCrcOk (b : List Byte) : Bool := decide ((unitHdr b).crc = crc32c (b.take 12 ++ unitPayload b))

/-! ## Lossless coding, R140 to R145 -/

/-- Bits below the symbol: the remainder is the sign followed by them, R142. -/
def llLow (f : BitVec 4) : Nat :=
  match f.toNat with
  | 0 => 55 | 1 => 23 | 2 => 7 | _ => 10

/-- Width of the symbol. -/
def llSymBits (f : BitVec 4) : Nat := if f = 3 then 5 else 8

/-- Symbol and remainder of an element code, R142. -/
def llSplit (f : BitVec 4) (c : Nat) : Nat × Nat :=
  let k := llLow f
  ((c >>> k) % 2 ^ llSymBits f, (c >>> (k + llSymBits f)) % 2 * 2 ^ k + c % 2 ^ k)

/-- Element code of a symbol and remainder. -/
def llJoin (f : BitVec 4) (sym rm : Nat) : Nat :=
  let k := llLow f
  (rm / 2 ^ k) * 2 ^ (k + llSymBits f) + (sym % 2 ^ llSymBits f) * 2 ^ k + rm % 2 ^ k

/-- The `w` low bits of a number, most significant first. -/
def bitsMsb : (w v : Nat) → List Bool
  | 0, _ => []
  | n + 1, v => v.testBit n :: bitsMsb n v

/-- Number that bits stand for, most significant first. -/
def natOfBits (l : List Bool) : Nat := l.foldl (fun n b => 2 * n + b2n b) 0

/-- Bits packed into bytes, most significant first, padded with 0. -/
def packBits : (fuel : Nat) → List Bool → List Byte
  | 0, _ => []
  | n + 1, l => if l.isEmpty then [] else BitVec.ofNat 8 (natOfBits (padTo false 8 (l.take 8))) :: packBits n (l.drop 8)

def bytesBits (b : List Byte) : List Bool := b.flatMap fun x => bitsMsb 8 x.toNat

/-- Symbols with codes of length n among the first k lengths. -/
def lenCount (lens : List (BitVec 4)) (n : Nat) : Nat := (lens.filter fun l => l.toNat = n).length

/-- First code of length n: RFC 1951, section 3.2.2. -/
def firstCode (lens : List (BitVec 4)) : Nat → Nat
  | 0 => 0
  | n + 1 => 2 * (firstCode lens n + (if n = 0 then 0 else lenCount lens n))

/-- Code word of a symbol as bits; none when its length is 0. -/
def symCode (lens : List (BitVec 4)) (sym : Nat) : Option (List Bool) :=
  let n := (lens.getD sym 0).toNat
  if n = 0 then none else some (bitsMsb n (firstCode lens n + lenCount (lens.take sym) n))

/-- The k-th symbol, from 0, with a code of length n. -/
def symOf (lens : List (BitVec 4)) (n k : Nat) : Option Nat :=
  (((List.range lens.length).zip lens).filter fun p => p.2.toNat = n)[k]?.map (·.1)

/-- Reads one code word of at most 15 bits: the symbol and the bits left. -/
def readSym (lens : List (BitVec 4)) : (fuel n v : Nat) → List Bool → Option (Nat × List Bool)
  | 0, _, _, _ => none
  | _, _, _, [] => none
  | f + 1, n, v, b :: r =>
    let v := 2 * v + b2n b
    let n := n + 1
    let c := firstCode lens n
    if c ≤ v ∧ v < c + lenCount lens n then (symOf lens n (v - c)).map fun s => (s, r)
    else readSym lens f n v r

/-- Reads n code words. -/
def readSyms (lens : List (BitVec 4)) : (n : Nat) → List Bool → Option (List Nat × List Bool)
  | 0, l => some ([], l)
  | n + 1, l => match readSym lens 15 0 0 l with
    | none => none
    | some (s, l) => (readSyms lens n l).map fun p => (s :: p.1, p.2)

/-- Reads remainders for as long as the bits last. -/
def readRems (w : Nat) : (n : Nat) → List Bool → List Nat × List Bool
  | 0, l => ([], l)
  | n + 1, l => if l.length < w then ([], []) else
    let (a, r) := readRems w n (l.drop w)
    (natOfBits (l.take w) :: a, r)

/-- Header byte of a block, R141. -/
def blockHdr (raw : Bool) (epoch : Nat) : Byte := BitVec.ofNat 8 (128 * b2n raw + 64 * epoch)

/-- One block under the active table, if there is one: its bytes and whether it went raw, R143. -/
def llBlock (f : BitVec 4) (table : Option (Nat × List (BitVec 4))) (cs : List Nat) : List Byte × Bool :=
  let raw := elemBytes f cs
  match table with
  | none => (blockHdr true 0 :: raw, true)
  | some (e, lens) =>
    let sp := cs.map (llSplit f)
    if sp.any fun p => (symCode lens p.1).isNone then (blockHdr true e :: raw, true)
    else
      let bits := (sp.flatMap fun p => (symCode lens p.1).getD []) ++ sp.flatMap fun p => bitsMsb (llLow f + 1) p.2
      let coded := packBits bits.length bits
      if raw.length ≤ coded.length then (blockHdr true e :: raw, true) else (blockHdr false e :: coded, false)

/-- Payload of a lossless unit and its number of raw blocks. -/
def llEncode (f : BitVec 4) (table : Option (Nat × List (BitVec 4))) (tile : List Byte) : List Byte × Nat :=
  let bs := (chunks 32 4096 (elemsOf f tile)).map (llBlock f table)
  (bs.flatMap (·.1), (bs.filter (·.2)).length)

/-- Decodes the elements of one block after its header: 32 codes, and the bytes left. Where the block cannot be decoded to its end its rest is 0 bytes, and where the next block begins is not stated: `free` gives it, R144. -/
def llDecBlock (f : BitVec 4) (lens : Option (List (BitVec 4))) (raw : Bool) (free : Nat) (bs : List Byte) : List Nat × List Byte :=
  let n := storeBits f / 8
  if raw then (elemsOf f (padTo 0 (32 * n) bs), bs.drop (32 * n))
  else
    let lost := bs.drop (free % (bs.length + 1))
    match lens with
    | none => (List.replicate 32 0, lost)
    | some lens => match readSyms lens 32 (bytesBits bs) with
      | none => (List.replicate 32 0, lost)
      | some (syms, rest) =>
        let (rems, left) := readRems (llLow f + 1) 32 rest
        let cs := padTo 0 32 ((List.zip syms rems).map fun p => llJoin f p.1 p.2)
        if rems.length < 32 then (cs, []) else (cs, bs.drop (bs.length - left.length / 8))

/-- Decodes n blocks. `slot` gives the lengths of a table slot. -/
def llDecBlocks (f : BitVec 4) (slot : Nat → Option (List (BitVec 4))) (free : Nat) : (n : Nat) → List Byte → List Nat
  | 0, _ => []
  | n + 1, [] => List.replicate (32 * (n + 1)) 0
  | n + 1, h :: bs =>
    let (cs, rest) := llDecBlock f (slot (b2n (h.getLsbD 6))) (h.getLsbD 7) free bs
    cs ++ llDecBlocks f slot free n rest

/-- The tile that a lossless payload decodes to. -/
def llDecode (f : BitVec 4) (slot : Nat → Option (List (BitVec 4))) (free : Nat) (payload : List Byte) : List Byte :=
  padTo 0 4096 (elemBytes f (llDecBlocks f slot free (elemsPerTile f / 32) payload))

/-- Largest LEN of a lossless unit, R150. -/
def llMaxLen (f : BitVec 4) : Nat := 4096 + elemsPerTile f / 32

/-- Whether lengths are oversubscribed, R145. -/
def oversubscribed (lens : List (BitVec 4)) : Bool :=
  decide (2 ^ 15 < lens.foldl (fun n l => if l = 0 then n else n + 2 ^ (15 - l.toNat)) 0)

end Sys2Proof
end

