-- ==== Sys2Proof/Config.lean ====
section
/-! DEFINITION. What an implementation fixes and the free values: constants without a body, so that nothing can be proved about the values they take. Every one is named in the assumption log. -/

namespace Sys2Proof.Config

/-- The n-th byte string of `len` bytes drawn from the DRBG of R438 (keys, nonces, challenges, salts). -/
opaque drbg : (n len : Nat) → List Byte

/-- The private exponents of IDK and KTK, R437: generated on the die at manufacture, wrapped in the SPI NOR. -/
opaque idkSecret : Nat
opaque ktkSecret : Nat

/-- The records of the two Deaskius firmware keys in the primer ROM, R445, and that of the manufacturing key, R442. -/
opaque firmwareKeys : List (List Byte)
opaque makerKey : List Byte

/-- FW_ARITH of the running image before any start has named one, R260, R281. -/
opaque fwArith : BitVec 32

/-- Version of the running firmware image before any start has named one, R559. -/
opaque fwVersion : BitVec 32

/-- FW_SVN of the running image before any start has named one, R445. -/
opaque fwSvn : BitVec 8

/-- Fused identity: DEVICE_ID of R442, MIN_SVN of R445 as manufactured, the owner root hash when claimed at manufacture time is none. -/
opaque deviceId : BitVec 128
opaque minSvn : BitVec 8

/-- Primer ROM version, R460. -/
opaque primerVersion : BitVec 32

/-- MAC address of the host port, R535. -/
opaque macAddress : BitVec 48

/-- End-of-life bias of laser c of photonic engine n (c 32 to 35 are the spares), 0.1 mA, measured at manufacture, R492, R509. -/
opaque laserEol : (n c : Nat) → BitVec 12

/-- The increment INC that the servo of R295 asks for at its k-th action; only the bounds of R295 and R288 are stated. -/
opaque servoInc : (k : Nat) → BitVec 40

/-- The filtered offset after the k-th accepted measurement: the filter of R292 and R317 is not given. -/
opaque filteredOffset : (k : Nat) → BitVec 64

/-- A Plumb trigger reaches the core domain 24 or 25 core cycles after its tick, R162: which, at the k-th crossing. -/
opaque crossing25 : (k : Nat) → Bool

/-- When the near tiles that a plan awaits on an input queue are taken to have arrived, in core cycles from the step start: R180 and R188 leave the near arrival windows to the plan and give no record of them. -/
opaque nearWindow : (planId : BitVec 64) → (engine queue : Nat) → Nat

/-- The 10 SECDED bits over the 256 ciphertext bits and the 6 tag bits of a burst: R324 names the code and does not give it. -/
opaque secded : (cipher : List Byte) → (tagBits : BitVec 6) → BitVec 10

/-- The k-th undefined value, as a number: what the spec calls undefined after an operation that goes on. -/
opaque free : (k : Nat) → Nat

/-- The far bond whose control queue carries a message from one rank to another of another site: R215 leaves the control routes to the plan, and no part of a plan image gives them. -/
opaque ctlRoute : (planId : BitVec 64) → (src dest : Nat) → Fin 16

/-- Instances that are still undecided, as (COLL, step), when a spare takes rank 0: R245 has it decide them, and nothing that it receives is given that would name them. -/
opaque undecidedAt : (k : Nat) → List (Nat × BitVec 32)

/-- Whether the plan that is admitted binds this device as a spare, R241, and which members of its rail group are then lost, by member number: nothing that the device receives is given that would tell it. -/
opaque spareOf : (k : Nat) → Option (List Nat)

end Sys2Proof.Config
end

