-- ==== Sys2Proof/Machine/Units1.lean ====
section
/-! DEFINITION. State of the units that do the work of a step: engines, Skim, plans and Stencil, collectives, Straightedge, Plumb, HBM, Lath, and the output queues, each with its values at reset. -/

namespace Sys2Proof.Machine

/-! ## Trowel engines, chapter 03 -/

/-- STATE of a tile slot, R79. -/
inductive SlotState where
  | empty | pending | valid
deriving DecidableEq, Repr

/-- Tag of a tile slot, R79. -/
structure TileTag where
  crc : BitVec 32 := 0
  fmt : BitVec 4 := 0
  img : Bool := false
  st : SlotState := .empty
deriving DecidableEq, Repr

/-- STATE of R110. -/
inductive EngSt where
  | idle | armed | running | fault | scrubbing | offline
deriving DecidableEq, Repr

/-- A destination record, R273, with what it is about. -/
structure Dest where
  kind : BitVec 4
  stroke : BitVec 16
  addr : BitVec 40
  digest : BitVec 64
deriving DecidableEq, Repr

/-- A stroke that has issued and has not made all its counts. `part` is what it has formed of a destination tile or residual place that is not yet whole; `since` is Plb.run at which its present wait began, as far as it is not yet counted. -/
structure Flight where
  idx : BitVec 16
  word : BitVec 128
  /-- IDXB and the parameters as they stood when the stroke issued, R85 -/
  idxb : BitVec 48 := 0
  params : Tab (BitVec 32) := []
  done : Nat := 0
  part : List Byte := []
  /-- destination records formed while the stroke ran: SEND and SKENC, R273 -/
  dests : List Dest := []
  waited : Bool := false
  since : Option Nat := none
deriving DecidableEq, Repr

/-- A tile that a LOAD has requested: its slot, its place in HBM, and the stroke's index and format. -/
structure LoadReq where
  slot : Nat
  dha : Nat
  stroke : BitVec 16
  fmt : BitVec 4
deriving DecidableEq, Repr

/-- One Trowel engine. -/
structure Engine where
  /-- tile area, R75: slot × 4096 + offset -/
  tiles : Mem := []
  tags : Tab TileTag := []
  /-- LA file, R76: row × 128 + lane -/
  la : Tab LaEntry := []
  /-- rows in FP32 form, R78 -/
  form32 : Tab Bool := []
  /-- bit errors in LA entries not yet read, R119 -/
  marks : List LaUpset := []
  /-- input queues IQ0 to IQ7, oldest tile first, R88 -/
  iqs : Tab (List IqTile) := []
  params : Tab (BitVec 32) := []
  idxb : BitVec 48 := 0
  st : EngSt := .scrubbing
  err : BitVec 32 := 0
  fault : BitVec 32 := 0
  /-- ENG_NF and ENG_NF_STROKE: stroke index and first position -/
  nf : Option (BitVec 16 × BitVec 48) := none
  nfStroke : BitVec 16 := 0
  satCount : Count := 0
  laCeCount : Count := 0
  arriveCrcCount : Count := 0
  waitCount : Count := 0
  waitCycles : Count := 0
  pc : BitVec 16 := 0
  /-- strokes of the step that have issued -/
  issued : Nat := 0
  /-- strokes below this index belong to slots that have started -/
  gate : Nat := 0
  toIssue : List (BitVec 16 × BitVec 128) := []
  flights : List Flight := []
  loads : List LoadReq := []
  /-- the contents of the tile area and the LA file are undefined, R118 -/
  undef : Bool := false
deriving DecidableEq, Repr

def Engine.reset : Engine := {}

/-! ## Skim, chapter 04 -/

/-- States of a table slot, R146. -/
inductive TblSt where
  | empty | loaded | active | draining
deriving DecidableEq, Repr

structure TblSlot where
  st : TblSt := .empty
  id : BitVec 32 := 0
  lens : List (BitVec 4) := []
deriving DecidableEq, Repr

/-- The tables that the plan sets, R158 and R159: register words by offset from the SKM base. -/
abbrev SkmTables := Tab (BitVec 32)

structure Skm where
  slots : List TblSlot := [{}, {}]
  /-- SKM_TBL_STAGE words, R152 -/
  stage : Tab (BitVec 32) := []
  busy : Bool := false
  /-- the slot that a LOAD in progress fills -/
  loadSlot : Nat := 0
  result : BitVec 4 := 0
  err : BitVec 32 := 0
  dropCount : Count := 0
  epochDropCount : Count := 0
  clampCount : Count := 0
  rawCount : Count := 0
  poisonCount : Count := 0
  /-- tables in use, and NEXT's second set, R637 -/
  tables : SkmTables := []
  nextTables : SkmTables := []
  /-- units queued on each sub-stream, oldest first: the bytes of R123 -/
  subq : Tab (List (List Byte)) := []
  /-- units that a RESID sub-stream has delivered in this step, R136 -/
  resNext : Tab Nat := []
deriving DecidableEq, Repr

/-! ## Plans, chapter 05 -/

/-- A slot table entry, R169, with its first-stroke indices by engine. -/
structure PSlot where
  start : Nat
  limit : Nat
  engines : BitVec 64
  firsts : Tab Nat
  /-- index in section 2 of the slot's first entry, MAP_OFF // 2 -/
  mapAt : Nat := 0
deriving DecidableEq, Repr

/-- A patch entry, R171. -/
structure Patch where
  engine : Nat
  stroke : Nat
  word : Nat
deriving DecidableEq, Repr

/-- A body, R168: its slots, each engine's stroke list and its patch list. -/
structure Body where
  alt : Byte := 0xFF
  slots : List PSlot := []
  patches : List Patch := []
  /-- strokes by engine × 65536 + index -/
  counts : Tab Nat := []
  strokes : List (Nat × List (BitVec 128)) := []
  /-- cycle of the step's latest write as the timing check of R180 computes it -/
  latest : Nat := 0
deriving DecidableEq, Repr

/-- A region of the plan, R172, with the DHA of each of its pieces once granted: (handle, DHA) in grant order. -/
structure Region where
  name : BitVec 32
  tiles : Nat
  pool : Nat
  persist : Bool
  inherit : Bool
  bufs : List (Nat × Nat) := []
  /-- largest number of addends in an entry of the LA images that each tile may hold, R60 and R65 -/
  images : Tab Nat := []
deriving DecidableEq, Repr

/-- A budget record, R174. -/
structure Budget where
  kind : Byte
  index : Nat
  value : Nat
deriving DecidableEq, Repr

/-- A collective descriptor, R206. -/
structure Desc where
  op : Nat
  topLevel : Nat
  fmt : Nat
  wireFmt : Nat
  d : Nat
  mirror : Bool
  resFmt : Nat
  rm : Nat
  count : Nat
  idxBase : Nat
  bodies : Nat
  catchup : Nat
  chunk : Nat
  ctlNs : Nat
  lostNs : Nat
  ringNs : Nat
  m4 : Nat
  m5 : Nat
  m6 : Nat
  m7 : Nat
  mirrorRegions : List Nat
  parityRegions : List Nat
  fedUnits : Nat
  fedChan : Nat
  digest : BitVec 64
  reservedOk : Bool
deriving DecidableEq, Repr

/-- A plan image as admitted, R166 to R175. -/
structure Plan where
  version : Nat
  eagerMode : Bool
  fallback : Bool
  seamLaunch : Bool
  nfAbort : Bool
  asig : BitVec 32
  rank : BitVec 15
  job : BitVec 64
  planId : BitVec 64
  seed : BitVec 64
  step0 : BitVec 32
  steps : Nat
  launchNs : PCount
  stepNs : Nat
  deadlineNs : Nat
  extCap : Nat
  w : Nat
  bodies : List Body
  sched : List (BitVec 32 × Nat)
  params : List (BitVec 32)
  regions : List Region
  budgets : List Budget
  skim : SkmTables
  descs : List Desc
  /-- first 8 bytes of the SHA-256 of the signed part, R271 -/
  imageHash : BitVec 64
  /-- SHA-256 of the signed part, R460 -/
  imageDigest : List Byte := []
  /-- admitted under R178 -/
  isBreak : Bool
  /-- register offset of each entry of section 9, in order -/
  skimOffs : List Nat := []
  /-- handles granted to bond areas at its admission, R348 -/
  areas : List Nat := []
deriving DecidableEq, Repr

/-- A region that the device holds, R192 and R196. -/
structure Held where
  name : BitVec 32
  tiles : Nat
  pool : Nat
  regNo : Nat
  bufs : List (Nat × Nat)
  /-- as in Region -/
  images : Tab Nat := []
deriving DecidableEq, Repr

/-- CUR of R199. -/
inductive Place where
  | none | armed | running | halted
deriving DecidableEq, Repr

/-- A PLAN_ADMIT that is being served: the mailbox it answers to, its LEN and CRC. -/
structure Admitting where
  req : MboxRec
  len : Nat
  crc : BitVec 32
deriving DecidableEq, Repr

structure Stn where
  cur : Option Plan := none
  place : Place := .none
  next : Option Plan := none
  /-- PERSIST regions kept after their plan ended -/
  held : List Held := []
  body : Nat := 0
  haltCause : BitVec 4 := 0
  admitting : Option Admitting := none
  inSeam : Bool := false
  admitResult : Byte := 0xFF
  admitWhere : BitVec 32 := 0
  step : BitVec 32 := 0
  haltStep : BitVec 32 := 0
  stepStart : PCount := 0
  /-- the model's own: Plb.run at the tick of stepStart -/
  startedAt : Nat := 0
  /-- extension handed over for the running step -/
  ext : BitVec 32 := 0
  err : BitVec 32 := 0
  slotLate : Count := 0
  stepLate : Count := 0
  haltReq : Bool := false
  /-- the launch target in force -/
  launchAt : PCount := 0
  /-- the step from which the armed plan launches -/
  launchStep : BitVec 32 := 0
  /-- no step has begun since the launch trigger -/
  launching : Bool := false
  /-- a step is running (between its start edge and its seam) -/
  stepRunning : Bool := false
  /-- the deadline of the running step has passed -/
  deadlineDone : Bool := false
  /-- slots of the body that have started -/
  slotsStarted : Nat := 0
  /-- slots already reported late, and those whose digest is closed, (slot, engine) -/
  lateSlots : List Nat := []
  closed : List (Nat × Nat) := []
  /-- patched values of the step, (engine, stroke) to word, R171 -/
  patched : List (Nat × Nat × BitVec 32) := []
  /-- a residual read has failed in the step, R136 -/
  resFailed : Bool := false
  /-- collectives whose JOINs have gone out in this launch -/
  joined : List Nat := []
  /-- the last step of CURRENT that has begun -/
  begunTo : Option (BitVec 32) := none
deriving DecidableEq, Repr

/-! ## Collectives, chapter 06 -/

/-- A decision of the root, R224 and R225. -/
structure Decision where
  abort : Bool
  code : Byte
  subj : Option (BitVec 16)
  nf : Option (BitVec 48)
  repro : Bool
deriving DecidableEq, Repr

/-- What this device holds about one instance (COLL, n). -/
structure Inst where
  coll : Nat
  step : BitVec 32
  /-- READYs at a site head -/
  readies : List ClcMsg := []
  siteReadySent : Bool := false
  /-- SITE_READYs at the root -/
  siteReadies : List ClcMsg := []
  /-- abort requests at the root, first one first -/
  reqs : List ClcMsg := []
  hold : Bool := false
  decision : Option Decision := none
  ringBack : Bool := false
  /-- the outcome is recorded here, R224 -/
  recorded : Bool := false
  /-- this member takes part and awaits the outcome, R227 -/
  tracked : Bool := false
  /-- the SITE_JOINs of its launch had all come and matched, and a JOIN of it named a recorded break, when that launch was left -/
  joined : Bool := false
  broke : Bool := false
deriving DecidableEq, Repr

/-- A unit held in the catch-up area, R234: its tile place, step, unit bytes, and whether an SKDEC has consumed it. -/
structure CatchUnit where
  place : Nat
  coll : Nat
  step : BitVec 32
  source : Nat
  received : Bool
  bytes : List Byte
  consumed : Bool
deriving DecidableEq, Repr

/-- A codeword of R242 whose tiles are gathered: the step, the mirrored and the parity region, the group and the number in it; the tiles that came, by the member that holds them, with their KINDs; and whether this member's own tile of it has been formed. -/
structure MWord where
  step : BitVec 32
  region : Nat
  parity : Nat
  group : Nat
  word : Nat
  got : List (Nat × BitVec 2 × List Byte) := []
  formed : Bool := false
deriving DecidableEq, Repr

structure Clc where
  collSel : BitVec 6 := 0
  abortStep : BitVec 32 := 0
  abortResult : Byte := 0xFF
  /-- the instance that CLC_ABORT_RESULT speaks of -/
  abortInst : Option (Nat × BitVec 32) := none
  /-- the COLL_ABORT command that waits for the result, R547 -/
  abortMbox : Option MboxRec := none
  rebuild : BitVec 2 := 0
  /-- codewords whose parity this member forms in a step, or that it rebuilds as a spare, R242 and R243 -/
  words : List MWord := []
  /-- other members of the rail group that are lost with the one this spare replaces, R244 -/
  lostPeers : List Nat := []
  /-- the catch-up area of the twin has been copied, R243 -/
  copied : Bool := false
  /-- bound as a spare and not launched since, R236 and R245 -/
  spareNew : Bool := false
  insts : List Inst := []
  /-- JOINs at a site head: (coll, rank, digest) -/
  joins : List (Nat × BitVec 16 × BitVec 64) := []
  siteJoinSent : List Nat := []
  /-- SITE_JOINs at the root -/
  siteJoins : List ClcMsg := []
  /-- collectives with a JOIN or SITE_JOIN of this launch that carries REPRO_BREAK -/
  breaks : List Nat := []
  /-- messages that name NEXT, until it becomes CURRENT, R217 -/
  early : List ClcMsg := []
  /-- decided instances that a relaunch runs again while their RING has not returned, R223 -/
  rings : List Inst := []
  /-- messages handled, for the second-copy rule of R217: (TYPE, SRC_RANK, COLL, STEP) -/
  seen : List (Byte × BitVec 16 × Byte × BitVec 32) := []
  /-- LATE values received at the root, largest for each step, and grants sent -/
  lates : List (BitVec 32 × BitVec 32) := []
  grants : List (BitVec 32 × BitVec 32) := []
  /-- last EXT handled for each step -/
  exts : List (BitVec 32 × BitVec 32) := []
  /-- extensions applied to finished steps -/
  applied : List (BitVec 32 × BitVec 32) := []
  /-- non-finite records handed over at the seams: step, stroke and position, R114 -/
  nfs : List (BitVec 32 × BitVec 16 × BitVec 48) := []
  lost : List (BitVec 15) := []
  catchup : List CatchUnit := []
  /-- the last LATE of the step has been sent -/
  lateStep : Option (BitVec 32) := none
  recs : Mem := []
  recCount : Count := 0
  err : BitVec 32 := 0
  sealCount : Count := 0
  abortCount : Count := 0
  lateCount : Count := 0
  ctlDrop : Count := 0
deriving DecidableEq, Repr

/-! ## Straightedge, chapter 07 -/

/-- A (step, slot, engine) of this device: its records, its digest once closed, and whether it was marked lost. -/
structure SeSlotRec where
  step : BitVec 32
  slot : Nat
  engine : Nat
  dests : List Dest := []
  digest : Option (BitVec 64) := none
  lost : Bool := false
  compared : Bool := false
  unchecked : Bool := false
  diverged : Bool := false
  /-- records of the peer's slot, and the index up to which its records agree -/
  peerCount : Nat := 0
  agree : Nat := 0
deriving DecidableEq, Repr

structure SeCapture where
  step : BitVec 32
  slot : Nat
  engine : Nat
  loc : BitVec 64
  peer : BitVec 64
  addr : Option (BitVec 4 × BitVec 16 × BitVec 40) := none
  final : Bool := false
deriving DecidableEq, Repr

structure Se where
  ports : BitVec 16 := 0
  action : BitVec 2 := 0
  role : BitVec 2 := 0
  refuse : BitVec 4 := 0
  link : BitVec 4 := 0
  cap : Option SeCapture := none
  slotCount : Count := 0
  unchecked : Count := 0
  addrLost : Count := 0
  /-- slot records of this device not yet released, and the peer's that wait for ours -/
  recs : List SeSlotRec := []
  peer : List (BitVec 32 × Nat × Nat × BitVec 64 × Nat) := []
  txSeq : BitVec 32 := 0
  rxSeq : Option (BitVec 32) := none
  /-- the LEAD has stopped forwarding, R278 -/
  stopFwd : Bool := false
  /-- the LEAD stops forwarding at its next seam, R278 -/
  stopAsked : Bool := false
deriving DecidableEq, Repr

/-! ## Plumb, chapter 08 -/

structure Src where
  en : Bool := false
  prio : BitVec 4 := 15
  peerHops : Byte := 0xFF
  calibrating : Bool := false
  suspended : Bool := false
  qualified : Bool := false
  asymValid : Bool := false
  asym : BitVec 48 := 0
  offset : BitVec 64 := 0
  delay : BitVec 64 := 0
  /-- measurements in a row within the window, up to 16 -/
  good : Nat := 0
  outliers : Nat := 0
  /-- LOCKED and USES_YOU of the peer's last accepted message -/
  peerLocked : Bool := false
  peerUses : Bool := false
  /-- CRCs of the peer's messages hold -/
  crcOk : Bool := false
  calSum : Int := 0
  calCount : Nat := 0
  /-- when the last message with a valid CRC came, in Plb.run -/
  heardAt : Option Nat := none
  /-- time messages sent and not older than 1 s: (SEQ, Plb.run) -/
  sent : List (Byte × Nat) := []
  txSeq : Byte := 0
  /-- last message received: its TX, its arrival and its SEQ -/
  lastRx : Option (Nat × Nat × Byte) := none
deriving DecidableEq, Repr

structure Trig where
  target : PCount := 0
  period : BitVec 32 := 0
  en : Bool := false
  lastLate : BitVec 16 := 0
deriving DecidableEq, Repr

/-- STATE of R294. -/
inductive PlbSt where
  | freerun | acquiring | locked | holdover
deriving DecidableEq, Repr

structure Plb where
  /-- full time of R286 in units of 2^-16 ns -/
  time : FullTime := 0
  /-- the model's own: full time that the clock has run since reset, whatever steps PLB_TIME has made -/
  run : Nat := 0
  ppsOutEn : Bool := false
  swLock : Bool := false
  swMode : Bool := false
  st : PlbSt := .freerun
  freqHold : Bool := false
  selected : Option Nat := none
  /-- the first measurement after FREERUN has been accepted, R295 -/
  started : Bool := false
  stepEpoch : Byte := 0
  err : BitVec 32 := 0
  calS : Byte := 16
  outlierNs : BitVec 16 := 50
  bw : BitVec 3 := 3
  inc : BitVec 40 := 0x6400000000
  stepVal : BitVec 64 := 0
  offset : BitVec 64 := 0
  ptpCfg : BitVec 32 := 0
  ppsInAdj : BitVec 32 := 0
  ppsOutAdj : BitVec 32 := 0
  holdSeconds : BitVec 32 := 0
  holdFrom : Option Nat := none
  ppsTodValid : Bool := false
  ppsTod : BitVec 48 := 0
  stepCount : Count := 0
  switchCount : Count := 0
  outlierCount : Count := 0
  trigSkip : Count := 0
  srcs : Tab Src := []
  trigs : Tab Trig := []
  /-- consecutive accepted measurements within 20 ns, R294 -/
  within20 : Nat := 0
  /-- INC and time spent in LOCKED, newest first: (INC, duration), R298 -/
  lockHist : List (Nat × Nat) := []
  lockFrom : Option Nat := none
  /-- INC was written within the last 2 s, R296 -/
  swFresh : Bool := false
  master : Option (BitVec 64) := none
  /-- the last data set announced by each master that has been heard, R300 -/
  foreign : List (BitVec 64 × AnnounceSet) := []
  /-- two-step Sync that waits for its Follow_Up: sequence, correction, arrival -/
  syncWait : Option (BitVec 16 × Nat × Nat) := none
  /-- last Sync: arrival here less departure at the master -/
  syncDiff : Option Int := none
  /-- mean path delay from the last Delay_Resp -/
  pathDelay : Option Int := none
  /-- Delay_Req sent: sequence and departure -/
  delayReq : Option (BitVec 16 × Nat) := none
  delaySeq : BitVec 16 := 0
  lastEdge : Option Nat := none
  ppsGood : Bool := false
  refGood : Bool := false
  /-- measured rates of REF10M_IN, newest first, with the time of each in Plb.run: those of the last 16 s and the one before them, R308 -/
  refHist : List (Nat × Int) := []
  ppsPulses : Count := 0
  /-- PPS_OUT is high until this time in Plb.run, R307 -/
  ppsUntil : Nat := 0
  /-- a STEP_NOW waits for the next tick, R297 -/
  stepAsked : Bool := false
  /-- a launch trigger fires on the present tick, R297 -/
  launchTick : Bool := false
  servoK : Nat := 0
  filtK : Nat := 0
deriving DecidableEq, Repr

/-! ## HBM and Lath, chapter 09 -/

/-- Stored tile tag, R325. -/
structure HTag where
  crc : BitVec 32
  used : Byte
  kind : BitVec 2
deriving DecidableEq, Repr

structure Stack where
  /-- 0 TRAINING, 1 INITIALISING, 2 READY, 3 FAILED -/
  st : BitVec 3 := 0
  temp : Byte := 0
  err : BitVec 32 := 0
  ce : Count := 0
  ue : Count := 0
  odecc : Count := 0
  patrol : Count := 0
  ueAddr : Option (BitVec 40) := none
  /-- eye margin found at the last training, in 1/64 UI, R565 -/
  margin : Option (BitVec 16) := none
  /-- trainings since the last reset that clears HBM -/
  trainings : Nat := 0
deriving DecidableEq, Repr

structure Hbm where
  bytes : Mem := []
  tags : Tab HTag := []
  stackTab : Tab Stack := []
  /-- bursts with a single-bit error not yet written back, and those with an uncorrectable error, by DHA // 32 -/
  soft : List Nat := []
  hard : List Nat := []
  /-- bursts whose correction waits for the next refresh hold, R329 -/
  writeback : List Nat := []
deriving DecidableEq, Repr

/-- An owner of buffers, R340. -/
structure Owner where
  cls : BitVec 2
  name : BitVec 32
deriving DecidableEq, Repr

/-- A Lath command, R359. -/
inductive LathOp where
  | grant (pool : Nat) (quad : Nat)
  | free (handle : BitVec 32)
  | freeOwner
  | handover (new : Owner)
  | proxyFree
  | query (handle : BitVec 32)
  /-- Hawk gives back what an owner holds: all of it, or these handles -/
  | release (only : Option (List Nat))
  | bad
deriving DecidableEq, Repr

structure LathCmd where
  op : LathOp
  owner : Owner
  /-- the mailbox that waits for the answer, if the command came by one -/
  mbox : Option MboxRec
  /-- queued by Hawk for itself: it answers to no register -/
  quiet : Bool := false
  /-- the host's, so that BUSY stands until it completes, R357 -/
  host : Bool := false
deriving DecidableEq, Repr

structure Fence where
  owner : Owner
  epoch : BitVec 16
  engines : BitVec 64
  skm : Bool
  mnd : Bool
  rnd : Bool
  host : Bool
deriving DecidableEq, Repr

structure Lath where
  /-- LTH_LEG_FRAMES1 to 4 -/
  leg : Tab Nat := []
  /-- GRANTED buffers and their owners, by handle -/
  owners : Tab (Option Owner) := []
  /-- quadrants whose free lists are built, R351 -/
  joined : BitVec 4 := 0
  queue : List LathCmd := []
  fence : Option Fence := none
  epoch : BitVec 16 := 0
  err : BitVec 32 := 0
  cmd : BitVec 32 := 0
  argHandle : BitVec 32 := 0
  argOwner : BitVec 32 := 0
  argNew : BitVec 32 := 0
  result : Byte := 0xFF
  resultHandle : BitVec 32 := 0
  busy : Bool := false
  doubleFree : Count := 0
  notOwner : Count := 0
  fallback : Count := 0
  reclaim : Count := 0
deriving DecidableEq, Repr

/-! ## Output queues, chapter 14 -/

/-- An item of an output queue: a segment of R418 (its TYPE and body), or a tile with its tag, number and step. -/
inductive QItem where
  | seg (kind : Byte) (body : List Byte)
  | tile (fmt : BitVec 4) (crc : BitVec 32) (tileNo : BitVec 16) (step : BitVec 32) (data : List Byte)
deriving DecidableEq, Repr

/-- An item in a queue, the count at which it entered, and the colours that have sent it. -/
structure QEntry where
  item : QItem
  entered : PCount
  sent : BitVec 32 := 0
deriving DecidableEq, Repr

structure OutQ where
  cfg : BitVec 32 := 0
  mask : BitVec 32 := 0
  weight : BitVec 16 := 1
  srate : BitVec 32 := 0
  sburst : BitVec 24 := 0
  prate : BitVec 32 := 0
  pburst : BitVec 24 := 0
  items : List QEntry := []
  f : BitVec 64 := 0
  stk : Int := 0
  sLast : PCount := 0
  ptk : Int := 0
  pLast : PCount := 0
  sampleDepth : BitVec 32 := 0
  sampleDelay : BitVec 32 := 0
  maxDelay : BitVec 32 := 0
  sentCount : Count := 0
  dropCount : Count := 0
  polCount : Count := 0
deriving DecidableEq, Repr

structure Sch where
  queues : Tab OutQ := []
  /-- control queue of each bond -/
  ctl : Tab (List QEntry) := []
  /-- virtual time of each bond -/
  v : Tab (BitVec 64) := []
  err : BitVec 32 := 0
  gateBase : PCount := 0
  gateCycle : BitVec 32 := 1000000
  gateEn : Bool := false
  active : Bool := false
  swapPending : Bool := false
  len0 : BitVec 9 := 1
  len1 : BitVec 9 := 1
  bank0 : Tab (BitVec 32) := []
  bank1 : Tab (BitVec 32) := []
  /-- target of the last cycle-start firing -/
  lastFire : Option PCount := none
  samplePeriod : BitVec 32 := 0
  sampleSeq : BitVec 32 := 0
  ctlDrop : Count := 0
deriving DecidableEq, Repr

end Sys2Proof.Machine
end

