-- ==== Sys2Proof/Machine/Units2.lean ====
section
/-! DEFINITION. State of the units around the step: Hawk and its mailboxes, the Snag ledger, power, the test access port, and what has left the device. -/

namespace Sys2Proof.Machine

/-! ## Hawk, chapter 15 -/

/-- A session that is open or opening, R537 to R539. -/
structure Session where
  num : BitVec 16
  hcs : BitVec 8
  method : BitVec 8
  mask : BitVec 16
  isOpen : Bool := false
  /-- 1 OBSERVE, 2 OPERATE -/
  level : BitVec 2 := 0
  hostNonce : List Byte := []
  devNonce : List Byte := []
  /-- the public key record that the host presented, key method only -/
  hostKey : List Byte := []
  sk : List Byte := []
  lastSeq : Option (BitVec 64) := none
  txSeq : BitVec 64 := 0
  discards : Nat := 0
  /-- opened on an unclaimed device for the one use of R462 -/
  claiming : Bool := false
  /-- AREA 3 of R546 -/
  area3 : Mem := []
deriving DecidableEq, Repr

structure Mailbox where
  /-- CMD_ID, session and opcode of the running command -/
  running : Option (BitVec 16 × BitVec 16 × BitVec 16) := none
  lastCmd : Option (BitVec 16) := none
  /-- stored records of R540, SEQ and TAG as zeros -/
  cmdRec : List Byte := []
  respRec : List Byte := []
deriving DecidableEq, Repr

/-- The firmware region of the SPI NOR as the device knows it: none where nothing is known of it (it is then what the primer ROM finds at a start), `some none` where it holds no valid image. -/
abbrev NorImage := Option (Option FwImage)

structure Hwk where
  /-- Hawk firmware runs; false before its start, in recovery and while a reset holds it -/
  running : Bool := false
  sessions : Tab (Option Session) := []
  lastNum : BitVec 16 := 0
  mboxes : Tab Mailbox := []
  stage1 : Option (BitVec 16) := none
  stage2 : Option (BitVec 16) := none
  area1 : Mem := []
  area2 : Mem := []
  /-- FW_UPDATE in progress: its record and image -/
  updating : Option (MboxRec × FwImage) := none
  fwState : BitVec 2 := 0
  err : BitVec 32 := 0
  cmdCount : Count := 0
  refusedCount : Count := 0
  dropCount : Count := 0
  fwVersion : Option (BitVec 32) := none
  fwArith : Option (BitVec 32) := none
  fwSvn : Option (BitVec 8) := none
  /-- records of the firmware keys in the primer ROM, where they are known, R445 -/
  romKeys : Option (List (List Byte)) := none
  /-- SHA-256 of the signed part of the running image, R460 -/
  fwDigest : List Byte := []
  /-- global addresses of R535: (prefix length, address) by slot -/
  addrs : Tab (BitVec 8 × BitVec 128) := []
  mboxPort : BitVec 16 := 50960
  bulkPort : BitVec 16 := 50961
  nor : NorImage := none
  /-- owners whose PROXY_FREE Hawk queues when it next runs, R605 -/
  reclaim : List Owner := []
  /-- reason of recovery, R557 -/
  recovery : Option Byte := none
  /-- image region of the SPI NOR as RECOVER_WRITE has written it -/
  recoverBuf : Mem := []
  linkUp : Bool := false
deriving DecidableEq, Repr

/-! ## Snag ledger, chapter 16 -/

/-- A journal entry, R567, without its CRC. -/
structure JEntry where
  seq : BitVec 64
  lifeS : BitVec 32
  count : PCount
  plbState : Byte
  type : Byte
  part : BitVec 16
  body : List Byte
deriving DecidableEq, Repr

/-- A summary record of R564, with what the score of R570 needs of the past: the increases of CORR, UNCORR and RETRAIN of each hour, newest first. -/
structure Summary where
  /-- 0 IN_SERVICE, 1 TOLERATED, 2 SOFT_RETIRED, 3 HARD_RETIRED, 4 OUT, 5 STANDBY -/
  st : Byte := 0
  /-- 255 until the first evaluation that finds otherwise -/
  score : Byte := 255
  /-- seconds of LIFE_S in STATE 0, 1 or 5 before the last change of STATE -/
  seconds : Nat := 0
  corr : BitVec 64 := 0
  uncorr : BitVec 64 := 0
  retry : BitVec 32 := 0
  retrain : BitVec 32 := 0
  defect : BitVec 32 := 0
  margin : BitVec 16 := 0x7FFF
  marginWorst : BitVec 16 := 0x7FFF
  tempMax : Byte := 0
  damaged : Bool := false
  saturated : Bool := false
  recommended : Bool := false
  cause : Byte := 0
  changedS : BitVec 32 := 0
  lastSeq : BitVec 64 := 0
  recoCount : BitVec 32 := 0
  /-- increases in the current hour of LIFE_S and the 23 before: (corr, uncorr, retrain) -/
  hours : List (Nat × Nat × Nat) := []
  /-- the largest MAXSYM read in the current hour, of a far lane -/
  hourMax : Nat := 0
  /-- SEQ of the outstanding RECOMMEND -/
  recoSeq : BitVec 64 := 0
  /-- score when the part entered TOLERATED, and the code of R582 that refused its retirement, 0 for none -/
  tolScore : Byte := 0
  tolCode : Byte := 0
deriving DecidableEq, Repr

structure Sng where
  lifeS : BitVec 32 := 0
  seq : BitVec 64 := 0
  /-- entries made and not yet in the SPI NOR, oldest first; at most 512 -/
  pend : List JEntry := []
  /-- entries in the SPI NOR, oldest first -/
  journal : List JEntry := []
  parts : Tab Summary := []
  /-- last value read of each counter, by CSR address, R566 -/
  lastRead : Tab Nat := []
  /-- a flush on SUPPLY_WARN took longer than 2 ms, R568 -/
  flushLate : Bool := false
  /-- such a flush is still running -/
  flushing : Bool := false
  journalOk : Bool := false
  summaryOk : Bool := false
  /-- records and LIFE_S last written to the SPI NOR -/
  saved : Tab Summary := []
  savedS : BitVec 32 := 0
  err : BitVec 32 := 0
  retol : Byte := 32
  softT : Byte := 96
  recoCount : Count := 0
  softCount : Count := 0
  hardCount : Count := 0
  refusedCount : Count := 0
deriving DecidableEq, Repr

/-! ## Power, chapter 17 -/

structure Pwr where
  railsGood : Bool := false
  resetN : Bool := false
  brownHold : Bool := false
  supplyWarn : Bool := false
  /-- LEVEL, the throttle level in force -/
  level : BitVec 2 := 0
  /-- the level that the temperatures have called for and that the hold keeps; LEVEL follows it and MIN_LEVEL at a seam, or at once when no plan is RUNNING -/
  applied : BitVec 2 := 0
  minLevel : BitVec 2 := 0
  slowed : Bool := false
  /-- Plb.run at which level 3 slowed the core clock, R612 -/
  slowFrom : Option Nat := none
  /-- a trip holds THERM_TRIP_N low and every laser shutter closed, and every clock but Plumb's stands still, R613 -/
  tripped : Bool := false
  tjMax : Byte := 0
  err : BitVec 32 := 0
  causeSource : BitVec 2 := 0
  causeKind : BitVec 2 := 0
  /-- PWR_TEMP_Qq words by quadrant -/
  temps : Tab (BitVec 32) := []
  /-- sensors left out, by die × 24 + sensor -/
  badSensors : Tab Bool := []
  /-- samples in a row in which a sensor has read too far from the others of its die, by the same index -/
  strayRuns : Tab Nat := []
  /-- level that the last sample called for, and whether it lay 3 °C below the level in force, R611 -/
  asked : BitVec 2 := 0
  cool : Bool := false
  throttleCount : Count := 0
  emergencyCount : Count := 0
  supplyWarnCount : Count := 0
  resetCount : Count := 0
deriving DecidableEq, Repr

/-! ## Test access port, chapter 18 -/

inductive TapInstr where
  | idcode | bypass | boundary | priv
deriving DecidableEq, Repr

structure Tap where
  instr : TapInstr := .idcode
  bypassBit : Bool := false
  /-- pins driven by the boundary scan register, when it drives them -/
  drive : Option (List Bool) := none
  tdo : List Bool := []
deriving DecidableEq, Repr

/-! ## What has left the device -/

/-- What a transmit position of a bond carries, R367, R414 and R417: the shared and the lane overhead, and the line frame before encryption, with its NCTR, key and GCM tag; `line` is none where no transmit key is ACTIVE. -/
structure TxFrame where
  bond : Nat
  mfn : Nat
  fn : Nat
  ke : Bool
  pstart : Byte
  jc : Nat
  /-- bytes 16 to 47: the slots of P0, P1 and P2, and the tributary's -/
  slots : List Byte
  m : BitVec 2
  k : Nat
  ack : BitVec 48
  nack : BitVec 48
  ncnt : Byte
  ntag : Byte
  /-- global lane, POS, RDI, LDI, ERASED -/
  lanes : List (Nat × Nat × Bool × Bool × Bool)
  line : Option (List Byte)
  nctr : Nat
  keyId : BitVec 64
  /-- the frame of each lane, R366, and the levels that its codewords put on the pins, R401 to R403 -/
  octets : List (Nat × List Byte)
  pins : List (Nat × List (BitVec 2))
deriving DecidableEq, Repr

inductive Out where
  /-- Neighbor Advertisement for one of the device's addresses, R534 -/
  | neighborAdvert (target dest : BitVec 128) (mac : BitVec 48)
  /-- ICMPv6 echo reply -/
  | echoReply (dest : BitVec 128) (data : List Byte)
  /-- datagram of the host port, after IPv6 and UDP -/
  | host (bytes : List Byte)
  /-- CLC message on its control route, with the rank it goes to -/
  | clc (dest : BitVec 15) (m : ClcMsg)
  /-- near frame on a transmit colour, and the levels that its codewords put there -/
  | near (n c : Nat) (bytes : List Byte) (levels : List (BitVec 2))
  /-- a transmit position of a bond -/
  | line (f : TxFrame)
  /-- frame position of a far port that is in no enabled bond, R382: the frame of each lane and the levels on its pins -/
  | idleFrames (p : Nat) (octets : List (Nat × List Byte)) (pins : List (Nat × List (BitVec 2)))
  /-- unit of the catch-up area for the spare that copies it, with the rank it goes to and the unit's source; no bytes mark the end of the area -/
  | catchup (dest : BitVec 15) (source : Nat) (bytes : List Byte)
  /-- tile for a mirror holder or for a spare that rebuilds, with the rank it goes to -/
  | mirror (dest : BitVec 15) (region tile : Nat) (kind : BitVec 2) (bytes : List Byte)
  /-- Delay_Req on the host port: domain, sequence and originTimestamp, R300 -/
  | delayReq (domain : Nat) (seq : BitVec 16) (origin : FullTime)
  /-- PPS_OUT rises, at this count -/
  | pps (count : PCount)
  /-- code group on an overhead serial port, and the octet that it stands for; none for the idle -/
  | os (c : Nat) (octet : Option Byte) (group : BitVec 10)
deriving DecidableEq, Repr

end Sys2Proof.Machine
end

