-- ==== Sys2Proof/Machine/Units3.lean ====
section
/-! DEFINITION. State of the line side and the optics: Render, coding and replay, Sealer, and the near photonics. -/

namespace Sys2Proof.Machine

/-! ## Render, chapter 10 -/

/-- A frame that a lane holds in the skew buffer: its position MFN × 256 + FN, its payload, whether an octet of it is flagged, whether OHCRC held, and the overhead that MND and Sealer use. -/
structure HeldFrame where
  pos : Nat
  /-- POS that the lane carries -/
  lanePos : Byte
  payload : List Byte
  flagged : Bool
  ohOk : Bool
  erased : Bool
  mstat : Byte
  k : Byte
  ack : BitVec 32
  nack : BitVec 32
  ncnt : Byte
  ntag : Byte
  ke : Bool
deriving DecidableEq, Repr

/-- A receive lane. Its STATE of R396 follows from the flags. -/
structure RLane where
  inFrame : Bool := false
  /-- ranged under R387 -/
  ranged : Bool := false
  los : Bool := false
  loa : Bool := false
  lof : Bool := false
  oof : Bool := false
  lidMm : Bool := false
  skew : Bool := false
  ldi : Bool := false
  rdiRx : Bool := false
  retired : Bool := false
  /-- octets of the lane that no frame has taken yet, and where in them flagged codewords lie: (first octet, length), R364 and R406 -/
  stream : List Byte := []
  flags : List (Nat × Nat) := []
  /-- position of the next frame expected -/
  next : Nat := 0
  badFaw : Nat := 0
  badSeq : Nat := 0
  /-- frames in a row that pass OHCRC with each mismatch of R381, and without any -/
  mmBond : Nat := 0
  mmPos : Nat := 0
  mmDup : Nat := 0
  mmGood : Nat := 0
  ldiSet : Nat := 0
  ldiClr : Nat := 0
  rdiSet : Nat := 0
  rdiClr : Nat := 0
  rxLid : Byte := 0
  rxVer : BitVec 4 := 0
  rxBond : BitVec 4 := 0
  rxPos : Byte := 0xFF
  /-- last d_l -/
  d : Option (BitVec 32) := none
  /-- last d_l in service -/
  dSvc : Option (BitVec 32) := none
  hold : Nat := 0
  /-- measurements in a row that agree within 1,000 ns while RANGING -/
  stable : Nat := 0
  /-- multiframe and arrival of the last 64 frames 0, R383 -/
  fn0s : List (Nat × PCount) := []
  /-- the next measurement is a new baseline, R384 -/
  rebase : Bool := false
  /-- position from which the lane is in service, R387 -/
  svcFrom : Nat := 0
  /-- POS last carried in service, R392 -/
  svcPos : Option Byte := none
  /-- ERASED of the last frame that passed OHCRC -/
  erasedOh : Bool := false
  frames : List HeldFrame := []
  err : BitVec 32 := 0
  oofCount : Count := 0
  ohcrcCount : Count := 0
  lateCount : Count := 0
  rangeCount : Count := 0
  falseCount : Count := 0
deriving DecidableEq, Repr

structure RPort where
  v1 : Bool := false
  err : BitVec 32 := 0
  /-- position of the next frame that a port of no enabled bond sends -/
  txPos : Nat := 0
deriving DecidableEq, Repr

structure Bond where
  en : Bool := false
  follow : Bool := true
  minLanes : Byte := 0
  ports : BitVec 16 := 0
  peerBond : BitVec 4 := 0
  rangeStable : Byte := 64
  guardUs : BitVec 16 := 64
  err : BitVec 32 := 0
  dbond : BitVec 32 := 0
  pchTrunc : Count := 0
  /-- STATE of R382: 0 OFF, 1 DOWN, 2 DEGRADED, 3 UP -/
  st : BitVec 2 := 0
  /-- reference lane, R375 -/
  ref : Option Nat := none
  /-- the last reference lane there was -/
  lastRef : Option Nat := none
  /-- lane whose shared fields were taken last -/
  chanLane : Option Nat := none
  /-- position of the next frame sent -/
  txPos : Nat := 0
  /-- STEP_EPOCH of the last ranging message, and this device's own at that time, R384 -/
  peerEpoch : Option Byte := none
  ownEpoch : Byte := 0
  /-- bytes still to come of a message on P0, P1 and P2, R374 -/
  p0Left : Nat := 0
  p1Left : Nat := 0
  p2Left : Nat := 0
  /-- bytes that have come of each, and the arrival of the frame that began the message on P0 -/
  p0Got : List Byte := []
  p1Got : List Byte := []
  p2Got : List Byte := []
  p0At : FullTime := 0
  /-- bytes still to be sent of a message on each channel, and the messages that wait for P1, R373 -/
  p0Tx : List Byte := []
  p1Tx : List Byte := []
  p2Tx : List Byte := []
  p1Queue : List (List Byte) := []
  /-- multiframe whose boundary came last, R385 -/
  mfAt : Option Nat := none
  /-- multiframe and TX of the last 64 ranging messages, R383 -/
  times : List (Nat × PCount) := []
  /-- D_bond has yet to move with a new baseline, R384 -/
  baseDue : Bool := false
  /-- position released last -/
  released : Option Nat := none
deriving DecidableEq, Repr

structure Trib where
  en : Bool := false
  bond : BitVec 4 := 0
  rate : BitVec 17 := 0
  addFifo : List Byte := []
  dropFifo : List Byte := []
  /-- running disparity of OSc and of OS(c + 4), positive or not, R625 -/
  txPlus : Bool := false
  rxPlus : Bool := false
  err : BitVec 32 := 0
  slip : Count := 0
  lost : Count := 0
deriving DecidableEq, Repr

structure Rnd where
  ports : Tab RPort := []
  lanes : Tab RLane := []
  bonds : Tab Bond := []
  tribs : Tab Trib := []
deriving DecidableEq, Repr

/-! ## Coding and replay, chapter 11 -/

/-- The inner decoder of a lane, R404 to R406. -/
structure MLane where
  precode : Bool := false
  highT : BitVec 4 := 8
  maxSym : BitVec 4 := 0
  locked : Bool := false
  /-- exact markers in a row while searching, bad markers and uncorrectable codewords in a row while locked -/
  good : Nat := 0
  lastCwn : Byte := 0
  /-- the last level received and the last one sent, for the precoding of R403 -/
  rxLast : BitVec 2 := 0
  txLast : BitVec 2 := 0
  /-- octets that no codeword has taken yet, and CWN of the next codeword sent, R401 and R402 -/
  txTail : List Byte := []
  txCwn : Byte := 0
  badMarks : Nat := 0
  badWords : Nat := 0
  err : BitVec 32 := 0
  corrSym : Count := 0
  corrCw : Count := 0
  uncorrCw : Count := 0
  highSym : Count := 0
  loaCount : Count := 0
deriving DecidableEq, Repr

/-- A SEQ that a receiver misses: the requests made for it and the time at which the last was first carried. -/
structure Missing where
  seq : BitVec 48
  tries : Nat := 0
  tag : Byte := 0
  since : Option Nat := none
deriving DecidableEq, Repr

/-- A request that is to be carried in some more positions, R423. -/
structure Request where
  first : BitVec 48
  count : Byte
  tag : Byte
  left : Nat
deriving DecidableEq, Repr

/-- A frame in the replay store: its SEQ, whether it was resent, and its table-coded units of epochs 0 and 1. -/
structure Stored where
  seq : BitVec 48
  resent : Bool
  n0 : Nat
  n1 : Nat
deriving DecidableEq, Repr

structure MBond where
  m : BitVec 2 := 0
  retries : BitVec 4 := 3
  rto : BitVec 24 := 16000
  err : BitVec 32 := 0
  erasures : Byte := 0
  cfgMm : Bool := false
  mmBad : Nat := 0
  mmGood : Nat := 0
  minLow : Bool := false
  txSeq : BitVec 48 := 0
  ackIn : BitVec 48 := 0
  rxAck : BitVec 48 := 0
  rtt : BitVec 32 := 0
  /-- the next accepted frame sets RXACK, R425 -/
  rebase : Bool := true
  /-- SEQs above RXACK delivered or given up -/
  done : List (BitVec 48) := []
  missing : List Missing := []
  requests : List Request := []
  nextTag : Byte := 0
  /-- NTAG of the last request of the peer that was served, and the SEQs that are still to be sent for it -/
  served : Option Byte := none
  toServe : List (BitVec 48) := []
  /-- frames in the replay store -/
  store : List Stored := []
  /-- largest number of erasures in the multiframe under way and in the last complete one, R428 -/
  eNow : Nat := 0
  eLast : Nat := 0
  /-- transmit positions that set ERASED for a move -/
  moved : List Nat := []
  recovered : Count := 0
  lost : Count := 0
  synd : Count := 0
  req : Count := 0
  resent : Count := 0
  gone : Count := 0
  giveup : Count := 0
  evict : Count := 0
  dup : Count := 0
deriving DecidableEq, Repr

/-- A lane move in progress, R428 and R429. -/
structure Move where
  bond : Nat
  pos : Nat
  restore : Bool
  /-- the FM_ACTION that asked for it, with the recommendation it answers -/
  fm : Option (MboxRec × BitVec 64) := none
deriving DecidableEq, Repr

structure Mnd where
  lanes : Tab MLane := []
  bonds : Tab MBond := []
  move : Option Move := none
  moveResult : BitVec 3 := 7
  action : BitVec 2 := 0
  bondSel : BitVec 4 := 0
  posSel : Byte := 0
deriving DecidableEq, Repr

/-! ## Sealer, chapter 12 -/

/-- A key slot, R448: 0 EMPTY, 1 LOADED, 2 ACTIVE, 3 DRAINING. `nctr` is the next NCTR of a transmit slot, `last` the last NCTR accepted by a receive slot. -/
structure KeySlot where
  st : BitVec 2 := 0
  id : BitVec 64 := 0
  salt : List Byte := []
  key : List Byte := []
  nctr : Nat := 0
  last : Option Nat := none
deriving DecidableEq, Repr

structure SBond where
  tx0 : KeySlot := {}
  tx1 : KeySlot := {}
  rx0 : KeySlot := {}
  rx1 : KeySlot := {}
  /-- the LOADED transmit slot that the next FN 0 makes ACTIVE, R454 -/
  switchTo : Option (Fin 2) := none
  err : BitVec 32 := 0
  authFail : Count := 0
  replay : Count := 0
  noKey : Count := 0
  switches : Count := 0
deriving DecidableEq, Repr

/-- The owner store of R444, as accepted. -/
structure OwnerStore where
  version : BitVec 32
  planKeys : List (List Byte)
  sessHash : List (List Byte)
  pw : Bool
  bytes : List Byte
deriving DecidableEq, Repr

/-- An RSA-3072 key with its private part: its public key record and its private exponent. -/
structure KeyPair where
  record : List Byte
  secret : Nat
deriving DecidableEq, Repr

structure Slr where
  bonds : Tab SBond := []
  err : BitVec 32 := 0
  /-- 0 CLOSED, 1 ERASING, 2 OPEN -/
  strip : BitVec 2 := 0
  trngOk : BitVec 4 := 0
  drbg : Bool := false
  /-- IDK and KTK in Hawk SRAM: none while they are not unwrapped -/
  idk : Option KeyPair := none
  ktk : Option KeyPair := none
  /-- record of the manufacturing key, where it is known, R442 -/
  makerKey : Option (List Byte) := none
  /-- quadrants that have XTS keys -/
  xts : BitVec 4 := 0
  /-- those keys, the data key before the tweak key, R459 -/
  xtsKeys : Tab (List Byte) := []
  /-- the read gate of DUK has closed -/
  gateClosed : Bool := false
  overlap : BitVec 16 := 28
  /-- fused: the owner root hash once claimed, and what MIN_SVN has been raised to -/
  ownerHash : Option (List Byte) := none
  minSvn : Option (BitVec 8) := none
  /-- in SPI NOR -/
  store : Option OwnerStore := none
  fails : BitVec 16 := 0
  /-- seconds of a lockout that remain -/
  lockout : BitVec 16 := 0
  /-- strip challenge that is valid, R467 -/
  challenge : Option (List Byte) := none
  sessFail : Count := 0
  recFail : Count := 0
  keyLoads : Count := 0
  trngFail : Count := 0
deriving DecidableEq, Repr

/-! ## Near photonics, chapter 13 -/

/-- SAFETY of R505. -/
inductive Safety where
  | off | normal | shutdown | probe
deriving DecidableEq, Repr

/-- TX_STATE and RX_STATE of R509. -/
inductive RingSt where
  | off | locking | verify | inService | swapping | retired | failed
deriving DecidableEq, Repr

/-- STATE of a spare, R508. -/
inductive SpareSt where
  | idle | tuning | locked | bus | failed
deriving DecidableEq, Repr

/-- One ring of a colour. Heaters are counted in the steps of 0.05 mW of R487. -/
structure Ring where
  st : RingSt := .off
  att : BitVec 2 := 0
  /-- the ring holds a peak -/
  locked : Bool := false
  heat : Nat := 0
  /-- steps since the sweep began -/
  swept : Nat := 0
  /-- a whole sweep has found no peak; the next begins with RX_SWEEP_RETRY -/
  parked : Bool := false
deriving DecidableEq, Repr

structure Colour where
  tx : Ring := {}
  rx : Ring := {}
  spared : Bool := false
  los : Bool := false
  lastEcho : Byte := 0xFF
  lastCid : Byte := 0xFF
  stage : BitVec 2 := 0
  bias : BitVec 12 := 0
  rxPwr : BitVec 16 := 0x8000
  credits : BitVec 16 := 0
  /-- stage whose threshold the last sample reached -/
  level : Nat := 0
  /-- the laser gave light at the last sample -/
  light : Bool := true
  /-- launch power that the power loop holds, 0.1 dBm, and the laser's frequency from f_c, MHz -/
  aim : Int := 30
  freq : Int := 0
  aligned : Bool := false
  /-- octets of the receive stream that no frame has taken yet, R480 -/
  stream : List Byte := []
  /-- frame positions in a row whose SYNC was bad while aligned -/
  syncBad : Nat := 0
  /-- good frames in a row with the colour's own CID, and with another -/
  ownRun : Nat := 0
  otherRun : Nat := 0
  /-- good frames in a row that carry the last ECHO -/
  echoRun : Nat := 0
  /-- the inner code of the receive stream, R480 -/
  lane : MLane := {}
  loa : Bool := false
  /-- the transmit state before a move -/
  before : RingSt := .off
deriving DecidableEq, Repr

structure Spare where
  st : SpareSt := .idle
  colour : BitVec 5 := 0
  bias : BitVec 12 := 0
  heat : Nat := 0
  moves : BitVec 2 := 0
  /-- the move waits for no seam, R495 -/
  urgent : Bool := false
  /-- step in whose seam a move last failed -/
  tried : Option (BitVec 32) := none
  /-- the FM_ACTION that asked for the substitution, and the recommendation it answers -/
  fm : Option (MboxRec × BitVec 64) := none
deriving DecidableEq, Repr

structure PEng where
  safety : Safety := .off
  colour : BitVec 5 := 0
  rxSel : Bool := false
  autoSwap : Bool := true
  forceOff : Bool := false
  err : BitVec 32 := 0
  evKind : Byte := 0
  evColour : BitVec 5 := 0
  evDir : Bool := false
  biasMax : BitVec 16 := 1300
  freqWin : BitVec 16 := 10000
  heatMax : BitVec 16 := 400
  heatMin : BitVec 16 := 0
  pwrMax : Byte := 40
  pwrMin : Byte := 10
  pwrTgt : Byte := 30
  rxTotal : BitVec 16 := 0x8000
  wrongLock : Count := 0
  swaps : Count := 0
  eyes : Count := 0
  discards : Count := 0
  fenceSat : Count := 0
  spares : Tab Spare := []
  colours : Tab Colour := []
  /-- loops that are held at their fence -/
  saturated : List Loop := []
deriving DecidableEq, Repr

structure Phn where
  engines : Tab PEng := []
  /-- EYE_INTERLOCK_N is high -/
  interlock : Bool := false
  /-- ticks of 1 ns still to pass of the 100 ms after EYE_INTERLOCK_N went low -/
  holdNs : Nat := 0
  /-- input-queue credits that the next frames on a colour return, by colour × 512 + 8 × engine + queue, R484 -/
  owed : Tab Nat := []
  /-- credits that the device has returned to an endpoint and that the endpoint has not spent, by the same index -/
  held : Tab Nat := []
deriving DecidableEq, Repr

end Sys2Proof.Machine
end

