-- ==== Sys2Proof/Machine/State.lean ====
section
/-! DEFINITION. The state of the device, its values after reset, and the reasons a step can stop. -/

namespace Sys2Proof.Machine

/-- Faults. None: the manual gives every command of this block an effect, so no meaning ends in a fault. -/
inductive Fault where
deriving DecidableEq, Repr

/-- Refusals. -/
inductive Refusal where
  /-- Raised by an arm of exec whose command has no meaning yet; safe. -/
  | notModelled (mnemonic : String)
deriving DecidableEq, Repr

/-- TOP registers that are held, R28 to R30: the function bits of TOP_READY and TOP_READY_DROP, and the unit bits as last reported, so that a fall is seen. -/
structure Top where
  ready : BitVec 9 := 0
  drop : BitVec 13 := 0
  trw : BitVec 64 := 0
  hbm : BitVec 32 := 0
  far : BitVec 16 := 0
  near : BitVec 8 := 0
  /-- TOP_ASIG, none before Hawk's first start -/
  asig : Option (BitVec 32) := none
deriving DecidableEq, Repr

structure State where
  /-- commands that wait, first in first out -/
  pending : List Instr := []
  top : Top := {}
  /-- captures of registers wider than 32 bits, R6: the higher words by address -/
  captures : Tab (Option (BitVec 32)) := []
  /-- low words written and not yet taken over, R313 -/
  wstage : Tab (Option (BitVec 32)) := []
  engines : Tab Engine := []
  skm : Skm := {}
  stn : Stn := {}
  clc : Clc := {}
  se : Se := {}
  plb : Plb := {}
  hbm : Hbm := {}
  lth : Lath := {}
  sch : Sch := {}
  rnd : Rnd := {}
  mnd : Mnd := {}
  slr : Slr := {}
  phn : Phn := {}
  hwk : Hwk := {}
  sng : Sng := {}
  pwr : Pwr := {}
  tap : Tap := {}
  /-- what has left the device, oldest first -/
  out : List Out := []
  /-- the model's own: how many free values and random draws have been taken -/
  fresh : Nat := 0
deriving DecidableEq, Repr

/-- The device right after power-on: every register at its Reset value, the queue of commands empty, no plan, and no memory written. -/
def State.reset : State := {}

end Sys2Proof.Machine
end

