-- ==== Sys2Proof/Machine/Ops.lean ====
section
/-! DEFINITION. Named operations over the state that many meanings share: counters, error bits, parts by number, readiness, the journal, the mailbox answer, time, and HBM. -/

namespace Sys2Proof.Machine

/-! ## Counters and flag words -/

/-- A counter of R115: stops at 0xFFFF_FFFF. -/
def bump (c : Count) (n : Nat) : Count := if 0xFFFFFFFF ≤ c.toNat + n then 0xFFFFFFFF else BitVec.ofNat 32 (c.toNat + n)

/-- One bit of a word set or cleared. -/
def putBit {n : Nat} (v : BitVec n) (i : Nat) (b : Bool) : BitVec n :=
  if b then v ||| (1#n <<< i) else v &&& ~~~(1#n <<< i)

/-- An event sets a bit of an RW1C word, R7 and R8. -/
def setErr (e : BitVec 32) (i : Nat) : BitVec 32 := e ||| (1#32 <<< i)

/-- A write of 1 clears a bit of an RW1C word, R7. -/
def clearErr (e v : BitVec 32) : BitVec 32 := e &&& ~~~v

/-- The k-th draw of what the manual leaves undefined. -/
def freeNat (s : State) : Nat := Config.free s.fresh

/-- Random bytes from the DRBG, R438, and the state with the draw taken. -/
def draw (s : State) (len : Nat) : List Byte × State :=
  (padTo 0 len (Config.drbg s.fresh len), { s with fresh := s.fresh + 1 })

/-- Something leaves the device. -/
def emit (s : State) (o : Out) : State := { s with out := s.out ++ [o] }

/-- A command takes effect: from a thermal trip until power is removed every clock but Plumb's stands still, and nothing changes, R613. -/
def act (s s' : State) : Host.Outcome State Fault Refusal := .next (if s.pwr.tripped then s else s')

/-- Bring-up may go on: RESET_N is high and no brown-out holds the reset, R599 and R608. -/
def isUp (s : State) : Bool := s.pwr.resetN && !s.pwr.brownHold

/-! ## Parts by number -/

def State.eng (s : State) (e : Nat) : Engine := Tab.get Engine.reset s.engines e
def State.setEng (s : State) (e : Nat) (x : Engine) : State := { s with engines := Tab.put Engine.reset s.engines e x }
/-- An engine with other strokes in flight. -/
def Engine.withFlights (x : Engine) (l : List Flight) : Engine := { x with flights := l }
def Engine.tag (x : Engine) (k : Nat) : TileTag := Tab.get {} x.tags k
def Engine.iq (x : Engine) (q : Nat) : List IqTile := Tab.get [] x.iqs q
/-- An engine with another content of an input queue. -/
def Engine.setIq (x : Engine) (q : Nat) (l : List IqTile) : Engine := { x with iqs := Tab.put [] x.iqs q l }
def Engine.param (x : Engine) (p : Nat) : BitVec 32 := Tab.get 0 x.params p
def Engine.entry (x : Engine) (row lane : Nat) : LaEntry := Tab.get LaEntry.zero x.la (row * 128 + lane)
def State.src (s : State) (i : Nat) : Src := Tab.get { asymValid := i = 0 } s.plb.srcs i
def State.setSrc (s : State) (i : Nat) (x : Src) : State :=
  { s with plb := { s.plb with srcs := Tab.put { asymValid := i = 0 } s.plb.srcs i x } }
def State.trig (s : State) (c : Nat) : Trig := Tab.get {} s.plb.trigs c
def State.setTrig (s : State) (c : Nat) (t : Trig) : State := { s with plb := { s.plb with trigs := Tab.put {} s.plb.trigs c t } }
def State.stack (s : State) (k : Nat) : Stack := Tab.get {} s.hbm.stackTab k
def State.setStack (s : State) (k : Nat) (x : Stack) : State := { s with hbm := { s.hbm with stackTab := Tab.put {} s.hbm.stackTab k x } }
def State.queue (s : State) (q : Nat) : OutQ := Tab.get {} s.sch.queues q
def State.setQueue (s : State) (q : Nat) (x : OutQ) : State := { s with sch := { s.sch with queues := Tab.put {} s.sch.queues q x } }
def State.bond (s : State) (b : Nat) : Bond := Tab.get {} s.rnd.bonds b
def State.setBond (s : State) (b : Nat) (x : Bond) : State := { s with rnd := { s.rnd with bonds := Tab.put {} s.rnd.bonds b x } }
def State.session (s : State) (i : Nat) : Option Session := Tab.get none s.hwk.sessions i
def State.setSession (s : State) (i : Nat) (x : Option Session) : State :=
  { s with hwk := { s.hwk with sessions := Tab.put none s.hwk.sessions i x } }
def State.mbox (s : State) (m : Nat) : Mailbox := Tab.get {} s.hwk.mboxes m
def State.setMbox (s : State) (m : Nat) (x : Mailbox) : State := { s with hwk := { s.hwk with mboxes := Tab.put {} s.hwk.mboxes m x } }
/-- The record of a part nothing has happened to: a spare laser is STANDBY, every other part IN_SERVICE, R564. -/
def freshPart (p : Nat) : Summary := if p / 4096 = 6 ∧ 32 ≤ p % 4096 % 36 then { st := 5 } else {}
def State.part (s : State) (p : Nat) : Summary := Tab.get (freshPart p) s.sng.parts p
def State.setPart (s : State) (p : Nat) (x : Summary) : State := { s with sng := { s.sng with parts := Tab.put (freshPart p) s.sng.parts p x } }

/-- An engine's ENG_ERR gains a bit. -/
def engErr (s : State) (e i : Nat) : State :=
  let x := s.eng e
  s.setEng e { x with err := setErr x.err i }

/-! ## Readiness, R28 to R32 -/

/-- TOP_READY bit numbers of R28. -/
def rdyHwk : Nat := 0
def rdyPlb : Nat := 1
def rdyLth : Nat := 2
def rdyStn : Nat := 3
def rdySkm : Nat := 4
def rdySlr : Nat := 5
def rdySch : Nat := 6
def rdySng : Nat := 7
def rdyClc : Nat := 8

/-- A function's readiness bit takes a value; a fall sets its TOP_READY_DROP bit, R32. -/
def setReady (s : State) (i : Nat) (b : Bool) : State :=
  let fell := s.top.ready.getLsbD i && !b
  { s with top := { s.top with ready := putBit s.top.ready i b, drop := if fell then putBit s.top.drop i true else s.top.drop } }

/-- An engine's readiness bit, R110. -/
def setTrwReady (s : State) (e : Nat) (b : Bool) : State :=
  let fell := s.top.trw.getLsbD e && !b
  { s with top := { s.top with trw := putBit s.top.trw e b, drop := if fell then putBit s.top.drop 9 true else s.top.drop } }

/-- A stack's readiness bit, R353. -/
def setHbmReady (s : State) (k : Nat) (b : Bool) : State :=
  let fell := s.top.hbm.getLsbD k && !b
  { s with top := { s.top with hbm := putBit s.top.hbm k b, drop := if fell then putBit s.top.drop 10 true else s.top.drop } }

/-- A far port's readiness bit, R393. -/
def setFarReady (s : State) (p : Nat) (b : Bool) : State :=
  let fell := s.top.far.getLsbD p && !b
  { s with top := { s.top with far := putBit s.top.far p b, drop := if fell then putBit s.top.drop 11 true else s.top.drop } }

/-- A photonic engine's readiness bit, R503. -/
def setNearReady (s : State) (n : Nat) (b : Bool) : State :=
  let fell := s.top.near.getLsbD n && !b
  { s with top := { s.top with near := putBit s.top.near n b, drop := if fell then putBit s.top.drop 12 true else s.top.drop } }

/-- Whether a STATE of an engine shows as ready, R110. -/
def EngSt.ready : EngSt → Bool
  | .idle => true | .armed => true | .running => true | _ => false

/-- An engine's STATE changes, and its readiness bit with it, R110. -/
def setEngSt (s : State) (e : Nat) (st : EngSt) : State :=
  setTrwReady (s.setEng e { s.eng e with st := st }) e st.ready

/-! ## Time -/

/-- The Plumb count of R287. -/
def State.count (s : State) : PCount := BitVec.ofNat 48 (s.plb.time / 65536)

/-- `signed_diff` of R182. -/
def signedDiff (a b : PCount) : Int := (a - b).toInt

/-- `due` of R182. -/
def due (now t : PCount) : Bool := decide (0 ≤ signedDiff now t)

/-- Full time as 12 bytes, most significant first: SEC, NS, FRAC, R286. -/
def fullTimeBytes (t : FullTime) : List Byte :=
  let ns := t / 65536
  beBytes 6 (ns / 1000000000) ++ beBytes 4 (ns % 1000000000) ++ beBytes 2 (t % 65536)

/-- Core cycles in the last `units` of full time: 2.4 per ns, and 1.2 per ns since level 3 slowed the core clock, R612. -/
def coreCycles (s : State) (units : Nat) : Nat :=
  let slow := match s.pwr.slowFrom with
    | some t => min units (s.plb.run - t)
    | none => 0
  ((units - slow) * 12 + slow * 6) / (5 * 65536)

/-- Core cycles of the waits that the strokes of an engine are in, R87. -/
def waiting (s : State) (x : Engine) : Nat :=
  x.flights.foldl (fun n f => match f.since with | some t => n + coreCycles s (s.plb.run - t) | none => n) 0

/-- ENG_WAIT_CYCLES: the waits that have ended and those that go on, R87 and R115. -/
def waitCyclesNow (s : State) (x : Engine) : Count := bump x.waitCycles (waiting s x)

/-- An engine whose waits are counted up to now and begin anew, if they go on. -/
def Engine.countWaits (s : State) (x : Engine) : Engine :=
  { x with waitCycles := waitCyclesNow s x, flights := x.flights.map fun f => { f with since := f.since.map fun _ => s.plb.run } }

def plbCode : PlbSt → Nat
  | .freerun => 0 | .acquiring => 1 | .locked => 2 | .holdover => 3

/-! ## The journal of the Snag ledger, R567 -/

/-- Hawk makes a journal entry: it takes the next SEQ and waits to be written; the part's LAST_SEQ names it. JOURNAL_FLUSH writes what waits, R568. -/
def journal (s : State) (type : Nat) (part : BitVec 16) (body : List Byte) : State :=
  let q := s.sng.seq + 1
  let e : JEntry := ⟨q, s.sng.lifeS, s.count, BitVec.ofNat 8 (plbCode s.plb.st), BitVec.ofNat 8 type, part, padTo 0 36 body⟩
  let s := { s with sng := { s.sng with seq := q, pend := s.sng.pend ++ [e] } }
  if part = 0xFFFF then s else s.setPart part.toNat { s.part part.toNat with lastSeq := q }

/-- PART_ID of R562. -/
def partId (kind index : Nat) : BitVec 16 := BitVec.ofNat 16 (kind * 4096 + index)
def deviceId : BitVec 16 := 0xFFFF

/-- Seconds of LIFE_S that a part has been in STATE 0, 1 or 5, R564. -/
def Summary.inService (p : Summary) (now : BitVec 32) : Nat :=
  p.seconds + (if p.st = 0 ∨ p.st = 1 ∨ p.st = 5 then (now - p.changedS).toNat else 0)

/-- A part takes a STATE; a change ends an outstanding recommendation, R571. -/
def setPartSt (s : State) (part : BitVec 16) (st : Nat) : State :=
  let p := s.part part.toNat
  if p.st.toNat = st then s
  else s.setPart part.toNat { p with st := BitVec.ofNat 8 st, seconds := p.inService s.sng.lifeS, changedS := s.sng.lifeS, recommended := false }

/-- The device changes a part's STATE by itself on a hard failure, or back to 0 after it: STATE_HARD of R572. -/
def stateHard (s : State) (part : BitVec 16) (cause st : Nat) : State :=
  if (s.part part.toNat).st.toNat = st then s
  else
    let s := setPartSt s part st
    let p := s.part part.toNat
    let s := s.setPart part.toNat { p with cause := if st = 0 then p.cause else BitVec.ofNat 8 cause }
    let s := { s with sng := { s.sng with hardCount := bump s.sng.hardCount 1, err := setErr s.sng.err 1 } }
    journal s 0x09 part [BitVec.ofNat 8 cause, BitVec.ofNat 8 st]

/-- A part whose failure has been mended returns from STATE 4 to STATE 0, R572. -/
def stateMended (s : State) (part : BitVec 16) (cause : Nat) : State :=
  if (s.part part.toNat).st = 4 then stateHard s part cause 0 else s

/-- A defect or fault declaration of a part, R565. -/
def countDefect (s : State) (part : BitVec 16) : State :=
  let p := s.part part.toNat
  s.setPart part.toNat { p with defect := bump p.defect 1 }

/-! ## Part counts, R564 and R565 -/

/-- A lifetime count grows by n and stops at its largest value. -/
def addCount (c : BitVec 32) (n : Nat) : BitVec 32 := bump c n

/-- A retry of a part. -/
def partRetry (s : State) (p : BitVec 16) (n : Nat) : State :=
  let x := s.part p.toNat
  s.setPart p.toNat { x with retry := addCount x.retry n }

/-- Adds to the increases of the current hour, R570. -/
def addHour (h : List (Nat × Nat × Nat)) (c u r : Nat) : List (Nat × Nat × Nat) :=
  match h with
  | [] => [(c, u, r)]
  | (a, b, d) :: t => (a + c, b + u, d + r) :: t

/-- A re-training or a re-lock of a part. -/
def partRetrain (s : State) (p : BitVec 16) (n : Nat) : State :=
  let x := s.part p.toNat
  s.setPart p.toNat { x with retrain := addCount x.retrain n, hours := addHour x.hours 0 0 n }

/-- Corrected and uncorrectable events of a part. -/
def partErrors (s : State) (p : BitVec 16) (corr uncorr : Nat) : State :=
  let x := s.part p.toNat
  s.setPart p.toNat { x with corr := BitVec.ofNat 64 (min (2 ^ 64 - 1) (x.corr.toNat + corr)), uncorr := BitVec.ofNat 64 (min (2 ^ 64 - 1) (x.uncorr.toNat + uncorr)), hours := addHour x.hours corr uncorr 0 }

/-- MARGIN of a part at a sample, and the lowest one. -/
def partMargin (s : State) (p : BitVec 16) (m : Int) : State :=
  let x := s.part p.toNat
  let v := BitVec.ofInt 16 (clampInt (-32768) 32766 m)
  s.setPart p.toNat { x with margin := v, marginWorst := if x.marginWorst = 0x7FFF ∨ v.toInt < x.marginWorst.toInt then v else x.marginWorst }

/-- The highest temperature of a part. -/
def partTemp (s : State) (p : BitVec 16) (t : Byte) : State :=
  let x := s.part p.toNat
  if x.tempMax.toNat < t.toNat then s.setPart p.toNat { x with tempMax := t } else s

def sngErr (s : State) (i : Nat) : State := { s with sng := { s.sng with err := setErr s.sng.err i } }

/-! ## The mailbox answer, R540 to R544 -/

/-- The slot of an open or opening session. -/
def sessionSlot (s : State) (num : BitVec 16) : Option Nat :=
  (List.range 8).find? fun i => match s.session i with
    | some x => decide (x.num = num)
    | none => false

/-- A record of R540 with SEQ and TAG as zeros. -/
def mboxRecord (type : Nat) (r : MboxRec) (opcode : BitVec 16) (status : Byte) (body : List Byte) : List Byte :=
  [BitVec.ofNat 8 type, r.hcs] ++ beBytes 2 r.session.toNat ++ [BitVec.ofNat 8 r.mbox.val, 0] ++ beBytes 2 opcode.toNat
    ++ beBytes 2 r.cmdId.toNat ++ [status, 0] ++ padTo 0 32 body ++ List.replicate 20 0

/-- The tag of R464 over a record whose tag field holds 0; `dir` is 0 from the host and 1 from the device. -/
def recordTag (sk : List Byte) (dir : Byte) (seq : BitVec 64) (record : List Byte) : List Byte :=
  (hmac sk (dir :: beBytes 8 seq.toNat ++ record)).take 12

/-- A mailbox record under a SEQ, its tag field 0, R540. -/
def underSeq (record : List Byte) (seq : BitVec 64) : List Byte := record.take 44 ++ beBytes 8 seq.toNat ++ List.replicate 12 0

/-- Sends a record in a session under its next SEQ, with the tag of R464; a session that is closed sends nothing, R543. -/
def sendRecord (s : State) (num : BitVec 16) (record : List Byte) : State :=
  match sessionSlot s num with
  | none => s
  | some i =>
    match s.session i with
    | none => s
    | some x =>
      if x.isOpen then
        let q := x.txSeq + 1
        let body := underSeq record q
        let s := s.setSession i (some { x with txSeq := q })
        emit s (.host (body.take 52 ++ recordTag x.sk 1 q body))
      else s

/-- The final response of a command: stored, sent, and the mailbox idle again. A command whose session has closed has its response discarded, R543. -/
def respond (s : State) (r : MboxRec) (opcode : BitVec 16) (status : Byte) (result : List Byte) : State :=
  let m := s.mbox r.mbox.val
  let resp := mboxRecord 0x11 r opcode status result
  let s := if status = 0 then s else { s with hwk := { s.hwk with refusedCount := bump s.hwk.refusedCount 1 } }
  if m.running = some (r.cmdId, r.session, opcode) then
    sendRecord (s.setMbox r.mbox.val { m with running := none, lastCmd := some r.cmdId, respRec := resp }) r.session resp
  else s

/-- STATUS codes of R544. -/
def stOk : Byte := 0
def stInProgress : Byte := 1
def stAccessError : Byte := 2
def stNotReady : Byte := 3
def stNotPermitted : Byte := 4
def stBadOpcode : Byte := 5
def stBadArg : Byte := 6
def stMboxBusy : Byte := 7
def stRefused : Byte := 8
def stBadObject : Byte := 9
def stNotOwner : Byte := 0xA

/-! ## HBM, R321 to R334 -/

def quadBytes : Nat := 0x3000000000

/-- The stack of a DHA, R322. -/
def stackOf (dha : Nat) : Nat := 8 * (dha / quadBytes) + (dha % quadBytes / 4096) % 8

/-- What the tag of a tile that nothing has written reads as: KIND 3, USED 0, the CRC of 4,096 zero bytes, R332. -/
def initTag : HTag := ⟨0x98F94189, 0, 3⟩

def State.htag (s : State) (dha : Nat) : HTag := Tab.get initTag s.hbm.tags (dha / 4096)

/-- Bursts of a tile that a write of n bytes stores, R326. -/
def usedBursts (n : Nat) : Nat := max 8 (ceilDiv n 32)

/-- Number of bursts that USED stands for, R325. -/
def HTag.bursts (t : HTag) : Nat := if t.used = 0 then 128 else t.used.toNat

/-- A write of bursts ends their faults and supersedes a write-back, R329 and R330. -/
def clearFaults (h : Hbm) (dha n : Nat) : Hbm :=
  let keep := fun b : Nat => b < dha / 32 || dha / 32 + n ≤ b
  { h with soft := h.soft.filter keep, hard := h.hard.filter keep, writeback := h.writeback.filter keep }

/-- Writes a tile: KIND 0 or 1 stores all 128 bursts, KIND 2 its coded bytes up to a whole burst, R326, and no more than its tile place holds, R135. -/
def writeTile (s : State) (dha : Nat) (kind : BitVec 2) (bs : List Byte) : State :=
  let base := dha / 4096 * 4096
  let n := if kind = 2 then min 128 (usedBursts bs.length) else 128
  let body := padTo 0 (32 * n) bs
  let tag : HTag := ⟨crc32c body, if n = 128 then 0 else BitVec.ofNat 8 n, kind⟩
  let h := clearFaults s.hbm base n
  { s with hbm := { h with bytes := Mem.write h.bytes base body, tags := Tab.put initTag h.tags (base / 4096) tag } }

/-- New bit errors of a tile, as a read meets them: those that the stack corrects itself are counted, the others mark their burst, R328 and R354. -/
def addUpsets (s : State) (dha : Nat) (ups : List BurstUpset) : State :=
  let base := dha / 4096 * 128
  ups.foldl (fun s u =>
    let b := base + u.burst.val
    match u.kind with
    | .onDie => let x := s.stack (stackOf dha); s.setStack (stackOf dha) { x with odecc := bump x.odecc 1, err := setErr x.err 2 }
    | .soft => { s with hbm := { s.hbm with soft := if s.hbm.soft.contains b then s.hbm.soft else s.hbm.soft ++ [b] } }
    | .hard => { s with hbm := { s.hbm with hard := if s.hbm.hard.contains b then s.hbm.hard else s.hbm.hard ++ [b] } }) s

/-- The controller's handling of the first n bursts of a tile that are read, R329 and R330: errors are counted and recorded, corrections wait for their write-back. The answer says whether the tile has failed. -/
def readBursts (s : State) (dha n : Nat) : Bool × State :=
  let base := dha / 4096 * 128
  let k := stackOf dha
  let inTile := fun b : Nat => base ≤ b && b < base + n
  let hard := s.hbm.hard.filter inTile
  let soft := s.hbm.soft.filter (fun b => inTile b && !s.hbm.hard.contains b)
  let x := s.stack k
  let x := if soft.isEmpty then x else { x with ce := bump x.ce soft.length, err := setErr x.err 0 }
  let x := match hard with
    | [] => x
    | b :: _ => { x with ue := bump x.ue hard.length, err := setErr x.err 1, ueAddr := match x.ueAddr with
        | none => some (BitVec.ofNat 40 (b * 32))
        | some a => some a }
  let s := { s with hbm := { s.hbm with writeback := s.hbm.writeback ++ soft.filter (fun b => !s.hbm.writeback.contains b) } }
  let s := s.setStack k x
  let s := match hard with
    | [] => s
    | b :: _ => journal s 0x04 (partId 2 k) (leBytes 5 (b * 32))
  (!hard.isEmpty, s)

/-- The used bytes of a tile and whether they pass the stored CRC, R328. -/
def readTile (s : State) (dha : Nat) : Bool × List Byte × State :=
  let base := dha / 4096 * 4096
  let t := s.htag base
  let n := t.bursts
  let (bad, s) := readBursts s base n
  let bs := Mem.read s.hbm.bytes base (32 * n)
  (!bad && (t.kind = 3 || decide (crc32c bs = t.crc)), bs, s)

end Sys2Proof.Machine
end

