-- ==== Sys2Proof/Machine/Lath.lean ====
section
/-! DEFINITION. Lath: pools, handles, grants, owners, the command queue and the fence, R338 to R350. -/

namespace Sys2Proof.Machine

/-- Buffer size of a pool, R338. -/
def poolSize (p : Nat) : Nat :=
  match p with
  | 1 => 2048 | 2 => 8192 | 3 => 32768 | 4 => 131072 | _ => 65536

def legFrames (l : Lath) (p : Nat) : Nat := Tab.get 0 l.leg p

/-- First frame of a legacy pool: pool 4 highest, then 3, 2 and 1 below it, R338. -/
def firstFrame (l : Lath) (p : Nat) : Nat :=
  match p with
  | 4 => 3145728 - legFrames l 4
  | 3 => 3145728 - legFrames l 4 - legFrames l 3
  | 2 => 3145728 - legFrames l 4 - legFrames l 3 - legFrames l 2
  | 1 => 3145728 - legFrames l 4 - legFrames l 3 - legFrames l 2 - legFrames l 1
  | _ => 8192

/-- Native frames of each quadrant, R338. -/
def nativeFrames (l : Lath) : Nat := 3137536 - legFrames l 1 - legFrames l 2 - legFrames l 3 - legFrames l 4

/-- Buffers of a pool in each quadrant. -/
def poolCount (l : Lath) (p : Nat) : Nat :=
  match p with
  | 0 => nativeFrames l
  | 1 => legFrames l 1 * 32
  | 2 => legFrames l 2 * 8
  | 3 => legFrames l 3 * 2
  | 4 => legFrames l 4 / 2
  | _ => 0

/-- Handle of a buffer, R339. -/
def mkHandle (q p i : Nat) : Nat := q * 2 ^ 30 + p * 2 ^ 27 + i
def handleQuad (h : Nat) : Nat := h / 2 ^ 30
def handlePool (h : Nat) : Nat := h / 2 ^ 27 % 8
def handleIndex (h : Nat) : Nat := h % 2 ^ 27

/-- Whether a handle names a buffer, R339. -/
def handleOk (l : Lath) (h : Nat) : Bool := decide (handleQuad h < 4) && decide (handleIndex h < poolCount l (handlePool h))

/-- DHA of the first byte of a buffer, R339. -/
def handleDha (l : Lath) (h : Nat) : Nat :=
  let p := handlePool h
  handleQuad h * quadBytes + firstFrame l p * 65536 + handleIndex h * poolSize p

def ownerOf (l : Lath) (h : Nat) : Option Owner := Tab.get none l.owners h

def setOwner (l : Lath) (h : Nat) (o : Option Owner) : Lath := { l with owners := Tab.put none l.owners h o }

/-- Whether an owner holds a buffer. -/
def holdsAny (l : Lath) (o : Owner) : Bool := l.owners.any fun p => decide (p.2 = some o)

/-- Number of buffers that an owner holds. -/
def holdCount (l : Lath) (o : Owner) : Nat := (l.owners.filter fun p => decide (p.2 = some o)).length

/-- Handles of an owner's buffers, in increasing order. -/
def heldBy (l : Lath) (o : Owner) : List Nat := (l.owners.filter fun p => decide (p.2 = some o)).map (·.1)

/-- Lowest FREE INDEX of a pool in a quadrant. -/
def lowestFree (l : Lath) (q p : Nat) : Option Nat :=
  let base := mkHandle q p 0
  let n := poolCount l p
  let i := (l.owners.filter fun e => base ≤ e.1 && e.1 < base + n).foldl (fun i e => if e.1 = base + i then i + 1 else i) 0
  if i < n then some i else none

/-- Lowest i for which legacy buffers 2i and 2i + 1 of pool 1 are both FREE, R345. -/
def lowestPair (l : Lath) (q : Nat) : Option Nat :=
  let base := mkHandle q 1 0
  let n := poolCount l 1 / 2
  let i := (l.owners.filter fun e => base ≤ e.1 && e.1 < base + 2 * n).foldl (fun i e => if (e.1 - base) / 2 = i then i + 1 else i) 0
  if i < n then some i else none

/-- Pools in the order 2, 8, 32, 64 and 128 KiB from the one required, R342. -/
def poolOrder (p : Nat) : List Nat :=
  match p with
  | 1 => [1, 2, 3, 0, 4] | 2 => [2, 3, 0, 4] | 3 => [3, 0, 4] | 0 => [0, 4] | _ => [4]

/-- Whether all the stacks of a quadrant are ready, R343. -/
def quadReady (s : State) (q : Nat) : Bool := (List.range 8).all fun j => s.top.hbm.getLsbD (8 * q + j)

/-- The free lists of every quadrant whose stacks are then all ready, R351. -/
def joinPools (s : State) : State :=
  { s with lth := { s.lth with joined := (List.range 4).foldl (fun v q => if quadReady s q then putBit v q true else v) s.lth.joined } }

/-- First buffer found in a list of pools, with a mark when it is not of the first pool. -/
def findBuffer (l : Lath) (q : Nat) : List Nat → Option Nat
  | [] => none
  | p :: ps => match lowestFree l q p with
    | some i => some (mkHandle q p i)
    | none => findBuffer l q ps

/-- Grants one buffer, R342 and R343: its handle, or none. -/
def grantBuffer (s : State) (o : Owner) (q p : Nat) : Option Nat × State :=
  if !quadReady s q then (none, s)
  else match findBuffer s.lth q (poolOrder p) with
    | none => (none, s)
    | some h =>
      let l := setOwner s.lth h (some o)
      let l := if handlePool h = p then l else { l with fallback := bump l.fallback 1, err := setErr l.err 3 }
      (some h, { s with lth := l })

/-- Grants a piece of a region: a buffer, or an aligned pair of pool 1, R345. -/
def grantPiece (s : State) (o : Owner) (q p : Nat) : Option Nat × State :=
  if p ≠ 1 then grantBuffer s o q p
  else if !quadReady s q then (none, s)
  else match lowestPair s.lth q with
    | some i =>
      let h := mkHandle q 1 (2 * i)
      (some h, { s with lth := setOwner (setOwner s.lth h (some o)) (h + 1) (some o) })
    | none => match findBuffer s.lth q [2, 3, 0, 4] with
      | none => (none, s)
      | some h =>
        let l := setOwner s.lth h (some o)
        (some h, { s with lth := { l with fallback := bump l.fallback 1, err := setErr l.err 3 } })

/-- Bytes of a region that one piece holds. -/
def pieceSize (p : Nat) : Nat := if p = 1 then 4096 else poolSize p

/-- Quadrant of piece k of region r, R344. -/
def pieceQuad (r p k : Nat) : Nat := (r + k * pieceSize p / max (poolSize p) 65536) % 4

/-- Grants the pieces of a region in order: (handle, DHA) each, or none when one fails. -/
def grantPieces (o : Owner) (r p : Nat) : (n k : Nat) → State → Option (List (Nat × Nat)) × State
  | 0, _, s => (some [], s)
  | n + 1, k, s =>
    match grantPiece s o (pieceQuad r p k) p with
    | (none, s) => (none, s)
    | (some h, s) => match grantPieces o r p n (k + 1) s with
      | (none, s) => (none, s)
      | (some r, s) => (some ((h, handleDha s.lth h) :: r), s)

/-- DHA of a tile of a region held in these pieces, R173. -/
def tileDha (bufs : List (Nat × Nat)) (pool tile : Nat) : Option Nat :=
  (bufs[tile * 4096 / pieceSize pool]?).map fun b => b.2 + tile * 4096 % pieceSize pool

/-- Frees every buffer of an owner. -/
def freeAll (l : Lath) (o : Owner) : Lath := { l with owners := l.owners.filter fun p => !decide (p.2 = some o) }

/-- Frees those of an owner's buffers that a list names. -/
def freeSome (l : Lath) (o : Owner) (hs : List Nat) : Lath := { l with owners := l.owners.filter fun p => !(hs.contains p.1 && decide (p.2 = some o)) }

/-- Renames every buffer of an owner. -/
def renameAll (l : Lath) (o n : Owner) : Lath :=
  { l with owners := l.owners.map fun p => (p.1, if p.2 = some o then some n else p.2) }

/-- Result codes of R359. -/
def lrOk : Byte := 0
def lrNoBuffers : Byte := 1
def lrDoubleFree : Byte := 2
def lrNotOwner : Byte := 3
def lrBadHandle : Byte := 4
def lrNotPermitted : Byte := 5
def lrBusy : Byte := 6
def lrInUse : Byte := 7

/-- Whether an owner is marked dead, R349. -/
def isDead (l : Lath) (o : Owner) : Bool :=
  match l.fence with
  | some f => decide (f.owner = o)
  | none => false

/-- Region names of CURRENT and NEXT. -/
def planNames (s : State) : List (BitVec 32) :=
  (match s.stn.cur with | some p => p.regions.map (·.name) | none => []) ++
  (match s.stn.next with | some p => p.regions.map (·.name) | none => [])

/-- A region that a plan names cannot be freed, R347. -/
def inUse (s : State) (o : Owner) : Bool := decide (o.cls = 0) && (planNames s).contains o.name

/-- Takes a freed region out of the list of regions held. -/
def dropHeld (s : State) (o : Owner) : State :=
  if o.cls = 0 then { s with stn := { s.stn with held := s.stn.held.filter fun h => !decide (h.name = o.name) } } else s

/-- FREE of one handle, R347; the two buffers of a pair go together, R345. -/
def lathFree (s : State) (o : Owner) (h : Nat) : Byte × State :=
  let l := s.lth
  if isDead l o then (lrNotOwner, s)
  else if !handleOk l h then (lrBadHandle, s)
  else match ownerOf l h with
    | none => (lrDoubleFree, { s with lth := { l with doubleFree := bump l.doubleFree 1, err := setErr l.err 1 } })
    | some x =>
      if x = o then
        let l := setOwner l h none
        let mate := if handleIndex h % 2 = 0 then h + 1 else h - 1
        let l := if handlePool h = 1 ∧ o.cls = 0 ∧ ownerOf l mate = some o then setOwner l mate none else l
        (lrOk, { s with lth := l })
      else (lrNotOwner, { s with lth := { l with notOwner := bump l.notOwner 1, err := setErr l.err 2 } })

/-- Users that have not yet confirmed when a fence opens: engines in FAULT, SCRUBBING or OFFLINE confirm at once, R349. -/
def fenceEngines (s : State) : BitVec 64 :=
  (List.range 64).foldl (fun v e => putBit v e (s.eng e).st.ready) 0

/-- Opens the fence of PROXY_FREE, R349 steps 1 and 2. -/
def openFence (s : State) (o : Owner) : State :=
  let ep := s.lth.epoch + 1
  { s with lth := { s.lth with epoch := ep, fence := some ⟨o, ep, fenceEngines s, true, true, true, true⟩ } }

/-- Whether every user has confirmed. -/
def Fence.done (f : Fence) : Bool := decide (f.engines = 0) && !f.skm && !f.mnd && !f.rnd && !f.host

/-- Step 4 of R349. -/
def closeFence (s : State) (f : Fence) : State :=
  let n := holdCount s.lth f.owner
  let l := freeAll s.lth f.owner
  dropHeld { s with lth := { l with fence := none, reclaim := bump l.reclaim n, err := setErr l.err 4 } } f.owner

/-- The answer of a command: the result registers, the flag, and the mailbox that waits, R347 and R359. -/
def lathAnswer (s : State) (c : LathCmd) (code : Byte) (handle : BitVec 32) : State :=
  if c.quiet then s
  else
  let l := s.lth
  let l := { l with result := code, resultHandle := handle, busy := l.busy && !c.host, err := if code = 0 then l.err else setErr l.err 0 }
  let s := { s with lth := l }
  match c.mbox with
  | none => s
  | some r => respond s r 0x0040 (if code = 0 then stOk else stRefused) ([code, 0, 0, 0] ++ (if code = 0 then beBytes 4 handle.toNat else []))

/-- A command other than PROXY_FREE takes effect, R347. -/
def lathDo (s : State) (c : LathCmd) : State :=
  let l := s.lth
  match c.op with
  | .grant p q =>
    if isDead l c.owner then lathAnswer s c lrNotOwner 0
    else if 5 ≤ p then lathAnswer s c lrBadHandle 0
    else match grantBuffer s c.owner q p with
      | (none, s) => lathAnswer s c lrNoBuffers 0
      | (some h, s) => lathAnswer s c lrOk (BitVec.ofNat 32 h)
  | .free h => let (code, s) := lathFree s c.owner h.toNat; lathAnswer s c code 0
  | .freeOwner =>
    if isDead l c.owner then lathAnswer s c lrNotOwner 0
    else if inUse s c.owner then lathAnswer s c lrInUse 0
    else lathAnswer (dropHeld { s with lth := freeAll l c.owner } c.owner) c lrOk 0
  | .handover n =>
    if isDead l c.owner || isDead l n then lathAnswer s c lrNotOwner 0
    else if holdsAny l n then lathAnswer s c lrInUse 0
    else lathAnswer { s with lth := renameAll l c.owner n } c lrOk 0
  | .query h =>
    if !handleOk l h.toNat then lathAnswer s c lrBadHandle 0
    else match ownerOf l h.toNat with
      | none => lathAnswer s c lrOk 0
      | some o => lathAnswer s c lrOk (0x80000000#32 ||| (o.cls.setWidth 32 <<< 28) ||| (o.name &&& 0x0FFFFFFF))
  | .proxyFree => lathAnswer (openFence s c.owner) c lrOk 0
  | .release only =>
    if isDead l c.owner then lathAnswer s c lrNotOwner 0
    else lathAnswer { s with lth := match only with
      | none => freeAll l c.owner
      | some hs => freeSome l c.owner hs } c lrOk 0
  | .bad => lathAnswer s c lrNotPermitted 0

/-- Serves the queue: a PROXY_FREE waits while a fence is open, and the commands behind it wait too, R349. -/
def lathRun : (fuel : Nat) → State → State
  | 0, s => s
  | n + 1, s =>
    match s.lth.queue with
    | [] => s
    | c :: rest =>
      if c.op = .proxyFree ∧ s.lth.fence.isSome then s
      else
        let s := lathDo { s with lth := { s.lth with queue := rest } } c
        match s.lth.fence with
        | some f => if f.done then lathRun n (closeFence s f) else lathRun n s
        | none => lathRun n s

/-- A command joins the queue, R341. -/
def lathQueue (s : State) (c : LathCmd) : State :=
  let s := { s with lth := { s.lth with queue := s.lth.queue ++ [c] } }
  lathRun (s.lth.queue.length + 1) s

/-- Hawk queues PROXY_FREE of a dead owner, without any register or mailbox to answer to. -/
def proxyFree (s : State) (o : Owner) : State := lathQueue s ⟨.proxyFree, o, none, true, false⟩

/-- Hawk gives back an owner's buffers by the queue, behind the commands that wait there, R341. -/
def releaseOwner (s : State) (o : Owner) (only : Option (List Nat)) : State :=
  if holdsAny s.lth o then lathQueue s ⟨.release only, o, none, true, false⟩ else s

/-- The class 2 owner of a session, R340. -/
def sessionOwner (num : BitVec 16) : Owner := ⟨2, num.setWidth 32⟩

/-- A command of the command registers or of the host's mailbox: refused while BUSY, else queued; the host's raises BUSY, R357 and R359. -/
def lathCommand (s : State) (host : Bool) (op : LathOp) (o : Owner) (mbox : Option MboxRec) : State :=
  if s.lth.busy then
    let s := { s with lth := { s.lth with result := lrBusy, err := setErr s.lth.err 0 } }
    match mbox with
    | none => s
    | some r => respond s r 0x0040 stRefused [lrBusy, 0, 0, 0]
  else lathQueue { s with lth := { s.lth with busy := host } } ⟨op, o, mbox, false, host⟩

/-- Whether the host may use a command for an owner, R347: `num` is its session's number. -/
def hostMay (num : BitVec 16) (op : LathOp) (o : Owner) : Bool :=
  match op with
  | .grant _ _ => decide (o = sessionOwner num)
  | .free _ => decide (o = sessionOwner num)
  | .freeOwner => decide (o = sessionOwner num) || decide (o.cls = 0)
  | .query _ => true
  | _ => false

/-- A write to LTH_CMD, R359: refused while BUSY; an OP other than 0 queues the command with the argument registers as they stand. A command that `may` does not allow reports NOT_PERMITTED. -/
def lathCmdWriteBy (host : Bool) (may : LathOp → Owner → Bool) (s : State) (v : BitVec 32) : State :=
  let n := v.toNat
  if s.lth.busy then lathCommand s host .bad ⟨0, 0⟩ none
  else
    let s := { s with lth := { s.lth with cmd := BitVec.ofNat 32 (n % 2048) } }
    let l := s.lth
    let o : Owner := ⟨BitVec.ofNat 2 (bitsOf n 5 4), l.argOwner⟩
    let op : LathOp := match bitsOf n 3 0 with
      | 1 => .grant (bitsOf n 8 6) (bitsOf n 10 9)
      | 2 => .free l.argHandle
      | 3 => .freeOwner
      | 4 => .handover ⟨BitVec.ofNat 2 (bitsOf l.argNew.toNat 31 30), l.argHandle⟩
      | 5 => .proxyFree
      | 6 => .query l.argHandle
      | _ => .bad
    if bitsOf n 3 0 = 0 then s else lathCommand s host (if may op o then op else .bad) o none

/-- Hawk's own write to LTH_CMD. -/
def lathCmdWrite (s : State) (v : BitVec 32) : State := lathCmdWriteBy false (fun _ _ => true) s v

/-- A write to LTH_CMD by a POKE of session `num`: the host's limits of R347 hold. -/
def lathCmdPoke (num : BitVec 16) (s : State) (v : BitVec 32) : State := lathCmdWriteBy true (hostMay num) s v

/-- Hawk writes the argument registers that a command uses, then LTH_CMD. -/
def lathByHawk (s : State) (op cls pool quad : Nat) (handle name new : Option (BitVec 32)) : State :=
  let l := s.lth
  lathCmdWrite { s with lth := { l with argHandle := handle.getD l.argHandle, argOwner := name.getD l.argOwner, argNew := new.getD l.argNew } } (BitVec.ofNat 32 (op + 16 * cls + 64 * pool + 512 * quad))

/-- Number of FREE buffers of a pool in a quadrant, R360: none before its free lists are built, R351. -/
def freeCount (s : State) (q p : Nat) : Nat :=
  let base := mkHandle q p 0
  if !s.lth.joined.getLsbD q then 0 else
  poolCount s.lth p - (s.lth.owners.filter fun e => base ≤ e.1 && e.1 < base + poolCount s.lth p).length

/-- A write to LTH_LEG_FRAMESp, R338. -/
def legFramesWrite (s : State) (p : Nat) (v : BitVec 32) : State :=
  let f := v.toNat % 2 ^ 22
  let f := if p = 4 then f - f % 2 else f
  let l := { s.lth with leg := Tab.put 0 s.lth.leg p f }
  let sum := legFrames l 1 + legFrames l 2 + legFrames l 3 + legFrames l 4
  if !s.lth.owners.isEmpty || decide (3137536 < sum + 1048576) then
    { s with lth := { s.lth with result := lrBusy, err := setErr s.lth.err 0 } }
  else { s with lth := l }

/-- The open fence with other confirmations: it closes once every user has confirmed, and the queue goes on, R349. -/
def fenceMoves (s : State) (f : Fence) : State :=
  let s := { s with lth := { s.lth with fence := some f } }
  if f.done then let s := closeFence s f; lathRun (s.lth.queue.length + 1) s else s

/-- A user confirms the epoch of the open fence, R349. -/
def fenceConfirm (s : State) (u : FenceUser) (ep : BitVec 16) : State :=
  match s.lth.fence with
  | none => s
  | some f =>
    if f.epoch ≠ ep then s
    else
      let f := match u with
        | .engine e => { f with engines := putBit f.engines e.val false }
        | .skm => { f with skm := false }
        | .mnd => { f with mnd := false }
        | .rnd => { f with rnd := false }
        | .hostBulk => { f with host := false }
      fenceMoves s f

/-- An engine that stops confirms an open fence at once, since its transfers are cancelled, R349. -/
def engConfirm (s : State) (e : Nat) : State :=
  match s.lth.fence with
  | none => s
  | some f => if f.engines.getLsbD e then fenceMoves s { f with engines := putBit f.engines e false } else s

/-- LTH_FENCE_WAIT, R359. -/
def fenceWait (f : Fence) : Nat :=
  (List.range 16).foldl (fun n k => n + (if (f.engines.toNat / 16 ^ k) % 16 = 0 then 0 else 2 ^ k)) 0
    + 2 ^ 28 * b2n f.skm + 2 ^ 29 * b2n f.mnd + 2 ^ 30 * b2n f.rnd + 2 ^ 31 * b2n f.host

/-- A user has not confirmed after 1 ms, R350. -/
def fenceStuck (s : State) : State :=
  match s.lth.fence with
  | none => s
  | some f => if f.done then s else journal { s with lth := { s.lth with err := setErr s.lth.err 5 } } 0x11 deviceId (leBytes 2 s.lth.epoch.toNat ++ [0, 0] ++ leBytes 4 (fenceWait f))

end Sys2Proof.Machine
end

