-- ==== Sys2Proof/Machine/Sched.lean ====
section
/-! DEFINITION. Output queues, policers and shapers, the fair-queueing order, the gate list and sampling, chapter 14, with the commands of that chapter. -/

namespace Sys2Proof.Machine

/-! ## Fields of SCH_Qq_CFG, R531 -/

def OutQ.en (q : OutQ) : Bool := q.cfg.getLsbD 31
/-- BIND; 3 acts as 0. -/
def OutQ.bind (q : OutQ) : Nat := let b := bitsOf q.cfg.toNat 30 29; if b = 3 then 0 else b
def OutQ.bond (q : OutQ) : Nat := bitsOf q.cfg.toNat 27 24
def OutQ.neng (q : OutQ) : Nat := bitsOf q.cfg.toNat 22 20
def OutQ.gclass (q : OutQ) : Nat := bitsOf q.cfg.toNat 18 16
/-- POL_ACT; 3 acts as 2. -/
def OutQ.polAct (q : OutQ) : Nat := let b := bitsOf q.cfg.toNat 15 14; if b = 3 then 2 else b
def OutQ.shapeEn (q : OutQ) : Bool := q.cfg.getLsbD 8
/-- OVERHEAD, signed. -/
def OutQ.overhead (q : OutQ) : Int := (q.cfg.setWidth 8).toInt
/-- WEIGHT; 0 acts as 1. -/
def OutQ.w (q : OutQ) : Nat := max 1 q.weight.toNat

/-! ## Items -/

/-- Body length padded to a multiple of 4, R418. -/
def padded4 (n : Nat) : Nat := (n + 3) / 4 * 4

/-- Stored bytes of an item, R513. -/
def QItem.len : QItem → Nat
  | .seg _ b => 4 + padded4 b.length
  | .tile _ _ _ _ _ => 4096

def itemsLen (l : List QEntry) : Nat := l.foldl (fun n e => n + e.item.len) 0

/-- DEPTH of R531. -/
def OutQ.depth (q : OutQ) : Nat := itemsLen q.items

/-- A CLC message on the wire, R215. -/
def clcBytes (m : ClcMsg) : List Byte :=
  [m.type, m.flags] ++ beBytes 2 m.src.toNat ++ [m.coll, m.outcome, m.code, m.rsv7] ++ beBytes 8 m.job.toNat ++ beBytes 8 m.plan.toNat
    ++ beBytes 4 m.step.toNat ++ beBytes 8 m.digest.toNat ++ beBytes 4 m.asig.toNat ++ beBytes 2 m.subj.toNat ++ beBytes 6 m.nfPos.toNat
    ++ beBytes 4 m.value.toNat ++ beBytes 8 m.rsv52.toNat ++ beBytes 4 m.crc.toNat

/-- The CRC that a message should carry, R215. -/
def clcCrc (m : ClcMsg) : BitVec 32 := crc32c ((clcBytes m).take 60)

/-- Budget of a kind and index in a plan; a resource with no record has 0, R174. -/
def planBudget (p : Option Plan) (kind : Byte) (index : Nat) : Nat :=
  match p with
  | none => 0
  | some p => match p.budgets.find? fun b => b.kind = kind ∧ b.index = index with
    | some b => b.value
    | none => 0

/-- Whether CURRENT or NEXT holds a budget record of a kind for an index. -/
def hasBudget (s : State) (kind : Byte) (index : Nat) : Bool :=
  let has := fun p : Option Plan => match p with
    | none => false
    | some p => p.budgets.any fun b => decide (b.kind = kind ∧ b.index = index)
  has s.stn.cur || has s.stn.next

/-- Depth that the governing plan gives a queue, R637. -/
def queueRoom (s : State) (q : Nat) : Nat := planBudget s.stn.cur 0x02 q

/-! ## Token buckets, R519 -/

/-- `refill`: tokens and t_last after a refill at t. -/
def refill (tk : Int) (last : PCount) (rate burst : Nat) (t : PCount) : Int × PCount :=
  let e := signedDiff t last
  (if 0 < e then min ((burst <<< 16 : Nat) : Int) (tk + (((rate * e.toNat) <<< 16) / 8000 : Nat)) else tk, t)

/-- `charge`. -/
def OutQ.charge (q : OutQ) (len : Nat) : Nat := (max 1 ((len : Int) + q.overhead)).toNat

/-- `conforms`. -/
def conforms (tk : Int) (charge burst : Nat) : Bool := decide (((min charge burst <<< 16 : Nat) : Int) ≤ tk)

/-! ## Fair queueing, R518 -/

/-- `cost`. -/
def OutQ.cost (q : OutQ) (len : Nat) : BitVec 64 := BitVec.ofNat 64 ((len * 65536 + q.w - 1) / q.w)

def State.vtime (s : State) (b : Nat) : BitVec 64 := Tab.get 0 s.sch.v b

/-- An entry joins a queue: `on_new_head` when the queue was empty. -/
def enqueue (s : State) (qn : Nat) (e : QEntry) : State :=
  let q := s.queue qn
  let f := if q.items.isEmpty ∧ q.bind = 1 then s.vtime q.bond + q.cost e.item.len else q.f
  s.setQueue qn { q with items := q.items ++ [e], f := f }

/-- The head leaves a queue: `on_taken`. -/
def takeHead (s : State) (qn : Nat) : State :=
  let q := s.queue qn
  match q.items with
  | [] => s
  | e :: rest =>
    let s := { s with sch := { s.sch with v := Tab.put 0 s.sch.v q.bond q.f } }
    let f := match rest with
      | [] => q.f
      | n :: _ => q.f + q.cost n.item.len
    let tk := if q.shapeEn then q.stk - ((q.charge e.item.len <<< 16 : Nat) : Int) else q.stk
    s.setQueue qn { q with items := rest, f := f, stk := tk, sentCount := bump q.sentCount 1 }

/-- The bond's EN rises: its virtual time and the finish times of its queues begin at 0, R518. -/
def fairRestart (s : State) (b : Nat) : State :=
  let s := { s with sch := { s.sch with v := Tab.put 0 s.sch.v b 0 } }
  (List.range 256).foldl (fun s qn => let q := s.queue qn; if q.bind = 1 ∧ q.bond = b then s.setQueue qn { q with f := 0 } else s) s

/-! ## The gate list, R522 to R524 -/

def gateEntry (s : State) (bank : Bool) (i : Nat) : BitVec 32 := Tab.get 0xFF000000 (if bank then s.sch.bank1 else s.sch.bank0) i

/-- LEN of a bank: 0 acts as 1, above 256 as 256. -/
def gateLen (s : State) (bank : Bool) : Nat := min 256 (max 1 (if bank then s.sch.len1 else s.sch.len0).toNat)

/-- Entry that covers u among n entries from entry i on; beyond the last, the last. -/
def gateCover (s : State) (u : Nat) : (n i acc : Nat) → Nat
  | 0, i, _ => i
  | 1, i, _ => i
  | n + 2, i, acc =>
    let d := (gateEntry s s.sch.active i).toNat % 2 ^ 24
    if u < acc + d then i else gateCover s u (n + 1) (i + 1) (acc + d)

/-- Entry in force at a count; entry 0 before the first cycle start. -/
def gateIndex (s : State) (t : PCount) : Nat :=
  if !s.sch.gateEn then 0
  else match s.sch.lastFire with
    | none => 0
    | some f =>
      let u := signedDiff t f
      if u < 0 then 0 else gateCover s u.toNat (gateLen s s.sch.active) 0 0

/-- Open mask at a count: every class while EN is 0 and until the first cycle start. -/
def gateOpen (s : State) (t : PCount) : BitVec 8 :=
  if !s.sch.gateEn ∨ s.sch.lastFire.isNone then 0xFF
  else BitVec.ofNat 8 ((gateEntry s s.sch.active (gateIndex s t)).toNat >>> 24)

/-! ## Arrival, R516 and R521 -/

/-- What comes of an arriving item. -/
inductive Arrival where
  | entered | dropped | held
deriving DecidableEq, Repr

/-- An item arrives at a numbered queue. The policer acts first; an item that finds no room is held off when it is a SEND, and discarded otherwise. -/
def arrive (s : State) (qn : Nat) (it : QItem) (isSend : Bool) : Arrival × State :=
  let q := s.queue qn
  let now := s.count
  let (tk, last) := refill q.ptk q.pLast q.prate.toNat q.pburst.toNat now
  let ch := q.charge it.len
  let ok := conforms tk ch q.pburst.toNat
  let bindOk := match it with
    | .seg _ _ => decide (q.bind = 1)
    | .tile _ _ _ _ _ => decide (q.bind = 2)
  let room := q.en && bindOk && decide (q.depth + it.len ≤ queueRoom s qn)
  let policed := if q.polAct = 0 then q
    else if ok then { q with ptk := tk - ((ch <<< 16 : Nat) : Int), pLast := last }
    else { q with ptk := tk, pLast := last, polCount := bump q.polCount 1 }
  let nonconf := decide (q.polAct ≠ 0) && !ok
  let markPol := fun s : State => if nonconf then { s with sch := { s.sch with err := setErr s.sch.err 2 } } else s
  if nonconf ∧ q.polAct = 2 then (.dropped, markPol (s.setQueue qn policed))
  else if room then (.entered, enqueue (markPol (s.setQueue qn policed)) qn ⟨it, now, 0⟩)
  else if isSend then (.held, s)
  else
    let s := markPol (s.setQueue qn { policed with dropCount := bump policed.dropCount 1 })
    (.dropped, { s with sch := { s.sch with err := setErr s.sch.err 1 } })

def State.ctlQ (s : State) (b : Nat) : List QEntry := Tab.get [] s.sch.ctl b

/-- An item arrives at a bond's control queue of 256 KiB, R513 and R516. -/
def arriveCtl (s : State) (b : Nat) (it : QItem) : State :=
  if itemsLen (s.ctlQ b) + it.len ≤ 262144 then
    { s with sch := { s.sch with ctl := Tab.put [] s.sch.ctl b (s.ctlQ b ++ [⟨it, s.count, 0⟩]) } }
  else { s with sch := { s.sch with ctlDrop := bump s.sch.ctlDrop 1, err := setErr s.sch.err 3 } }

/-- The item that a command brings. -/
def itemOf (it : ArriveItem) (step : BitVec 32) : QItem :=
  match it with
  | .unit b => .seg 1 b
  | .clc m => .seg 2 (clcBytes m)
  | .pair b => .seg 3 b
  | .tile f n d => let d := padTo 0 4096 d; .tile f (crc32c d) n step d

/-- QUEUE_ITEM_ARRIVE, R516 and R521. A tile is that of a SEND; the control queues hold segments only. -/
def execQueueItemArrive (q : QueueRef) (it : ArriveItem) (s : State) : Host.Outcome State Fault Refusal :=
  let isTile := match it with | .tile _ _ _ => true | _ => false
  act s (match q with
    | .num n => (arrive s n.val (itemOf it s.stn.step) isTile).2
    | .ctl b => if isTile then s else arriveCtl s b.val (itemOf it s.stn.step))

/-! ## Taking segments at an assembly instant, R517 -/

/-- Segments of the control queue for as long as the next one fits. -/
def takeCtl : (fuel room : Nat) → List QEntry → List QItem × List QEntry
  | 0, _, l => ([], l)
  | _, _, [] => ([], [])
  | n + 1, room, e :: l =>
    if e.item.len ≤ room then let (a, b) := takeCtl n (room - e.item.len) l; (e.item :: a, b) else ([], e :: l)

/-- Whether a queue may give its head to a bond now, R518 and R520. -/
def eligible (s : State) (b qn : Nat) : Bool :=
  let q := s.queue qn
  match q.items with
  | [] => false
  | e :: _ =>
    let (tk, _) := refill q.stk q.sLast q.srate.toNat q.sburst.toNat s.count
    q.en && decide (q.bind = 1) && decide (q.bond = b) && (gateOpen s s.count).getLsbD q.gclass
      && (!q.shapeEn || conforms tk (q.charge e.item.len) q.sburst.toNat)

/-- `select` of R518: lowest finish time, the lower number on a tie. -/
def selectQueue (s : State) (b : Nat) : Option Nat :=
  ((List.range 256).filter (eligible s b)).foldl (fun best q => match best with
    | none => some q
    | some p => if ((s.queue q).f - (s.queue p).f).toInt < 0 then some q else some p) none

/-- A queue's shaper is refilled before it is judged. -/
def refillShapers (s : State) (b : Nat) : State :=
  (List.range 256).foldl (fun s qn =>
    let q := s.queue qn
    if q.shapeEn ∧ q.bind = 1 ∧ q.bond = b then
      let (tk, last) := refill q.stk q.sLast q.srate.toNat q.sburst.toNat s.count
      s.setQueue qn { q with stk := tk, sLast := last }
    else s) s

/-- Segments of the numbered queues for as long as the selected one fits. -/
def takeNumbered (b : Nat) : (fuel room : Nat) → State → List QItem × State
  | 0, _, s => ([], s)
  | n + 1, room, s =>
    match selectQueue s b with
    | none => ([], s)
    | some q => match (s.queue q).items with
      | [] => ([], s)
      | e :: _ =>
        if e.item.len ≤ room then
          let (a, s) := takeNumbered b n (room - e.item.len) (takeHead s q)
          (e.item :: a, s)
        else ([], s)

/-- The segments that fill a line frame of a bond with `room` bytes, R517. The numbered queues follow only when the control queue has nothing left that stopped it. -/
def takeSegments (s : State) (b room : Nat) : List QItem × State :=
  let (a, rest) := takeCtl room room (s.ctlQ b)
  let s := { s with sch := { s.sch with ctl := Tab.put [] s.sch.ctl b rest } }
  let s := refillShapers s b
  let used := a.foldl (fun n i => n + i.len) 0
  if rest.isEmpty then let (c, s) := takeNumbered b room (room - used) s; (a ++ c, s) else (a, s)

/-- Whether any queue bound to a bond could give a segment, R419. -/
def hasSegment (s : State) (b : Nat) : Bool := !(s.ctlQ b).isEmpty || (selectQueue s b).isSome

/-! ## Gate cycles -/

/-- GATE_CYCLE_START, R523 and R524: the list starts at entry 0 from the target that fired, or from the firing itself after skipped periods; a pending swap takes effect. -/
def execGateCycleStart (s : State) : Host.Outcome State Fault Refusal :=
  act s (if !s.sch.gateEn then s
    else
      let late := (s.trig 20).lastLate.toNat
      let fire := if late < max 1000 s.sch.gateCycle.toNat ∧ late < 0xFFFF then s.count - BitVec.ofNat 48 late else s.count
      { s with sch := { s.sch with lastFire := some fire, active := if s.sch.swapPending then !s.sch.active else s.sch.active, swapPending := false } })

/-- SCH_GATE_CTRL.SWAP, R524. -/
def gateSwap (s : State) : State :=
  if s.sch.swapPending then { s with sch := { s.sch with err := setErr s.sch.err 0 } }
  else { s with sch := { s.sch with swapPending := true } }

def execGateSwap (s : State) : Host.Outcome State Fault Refusal := act s (gateSwap s)

/-- Arms trigger channel 20: the first cycle start BASE + k × CYCLE_NS not yet due, R523. -/
def armGates (s : State) : State :=
  let cyc := max 1000 s.sch.gateCycle.toNat
  let d := signedDiff s.count s.sch.gateBase
  let k : Nat := if d < 0 then 0 else d.toNat / cyc + 1
  s.setTrig 20 { s.trig 20 with target := s.sch.gateBase + BitVec.ofNat 48 (k * cyc), period := BitVec.ofNat 32 cyc, en := true }

/-- A write of SCH_GATE_CTRL.EN. -/
def gateEnable (s : State) (en : Bool) : State :=
  if en = s.sch.gateEn then s
  else if en then armGates { s with sch := { s.sch with gateEn := true, lastFire := none } }
  else
    let s := { s with sch := { s.sch with gateEn := false, lastFire := none } }
    s.setTrig 20 { s.trig 20 with en := false }

/-! ## Sampling, R527 -/

/-- Age of a queue's head in ns, stopping at 0xFFFF_FFFF. -/
def headAge (s : State) (q : OutQ) : BitVec 32 :=
  match q.items with
  | [] => 0
  | e :: _ => BitVec.ofNat 32 (min 0xFFFFFFFF (max 0 (signedDiff s.count e.entered)).toNat)

def sampleQueue (s : State) (qn : Nat) : State :=
  let q := s.queue qn
  let age := headAge s q
  s.setQueue qn { q with sampleDepth := BitVec.ofNat 32 q.depth, sampleDelay := age, maxDelay := if age.toNat < q.maxDelay.toNat then q.maxDelay else age }

/-- QUEUE_SAMPLE, R527; sampling stands while PERIOD is 0. -/
def execQueueSample (s : State) : Host.Outcome State Fault Refusal :=
  act s (if s.sch.samplePeriod = 0 then s
    else
      let s := (List.range 256).foldl sampleQueue s
      { s with sch := { s.sch with sampleSeq := s.sch.sampleSeq + 1 } })

/-- Arms trigger channel 21 at whole multiples of the period, R527. -/
def armSampling (s : State) (period : BitVec 32) : State :=
  let s := { s with sch := { s.sch with samplePeriod := period } }
  if period = 0 then s.setTrig 21 { s.trig 21 with en := false }
  else
    let t := (s.count.toNat / period.toNat + 1) * period.toNat
    s.setTrig 21 { s.trig 21 with target := BitVec.ofNat 48 t, period := period, en := true }

/-- CLR_MAX, R530. -/
def clrMax (s : State) : State := (List.range 256).foldl (fun s q => s.setQueue q { s.queue q with maxDelay := 0 }) s
def execClrMax (s : State) : Host.Outcome State Fault Refusal := act s (clrMax s)

/-- SCH CLR_COUNTS: every SCH counter, R530 and R532. -/
def schClrCounts (s : State) : State :=
  let s := (List.range 256).foldl (fun s q => s.setQueue q { s.queue q with sentCount := 0, dropCount := 0, polCount := 0 }) s
  { s with sch := { s.sch with ctlDrop := 0 } }
def execSchClrCounts (s : State) : Host.Outcome State Fault Refusal := act s (schClrCounts s)

/-! ## Queue settings, R515 and R528 -/

/-- The defined bits of SCH_Qq_CFG, R531. -/
def queueCfgMask : BitVec 32 := 0xEF77C1FF

/-- SCH_Qq_CFG takes a value: EN rising fills the buckets, EN 0 discards the items. -/
def writeQueueCfg (s : State) (qn : Nat) (v : BitVec 32) : State :=
  let q := s.queue qn
  let n := { q with cfg := v &&& queueCfgMask }
  if n.en ∧ !q.en then
    s.setQueue qn { n with stk := ((q.sburst.toNat <<< 16 : Nat) : Int), sLast := s.count, ptk := ((q.pburst.toNat <<< 16 : Nat) : Int), pLast := s.count }
  else if !n.en ∧ !q.items.isEmpty then
    let s := s.setQueue qn { n with items := [], dropCount := bump q.dropCount q.items.length }
    { s with sch := { s.sch with err := setErr s.sch.err 1 } }
  else s.setQueue qn n

/-- A write to a settings register of a queue, R515. -/
def queueCfgWrite (s : State) (qn : Nat) (reg : QueueReg) (v : BitVec 32) : State :=
  if hasBudget s 0x02 qn || s.stn.admitting.isSome then { s with sch := { s.sch with err := setErr s.sch.err 0 } }
  else
    let q := s.queue qn
    match reg with
    | .cfg => writeQueueCfg s qn v
    | .mask => s.setQueue qn { q with mask := v }
    | .weight => s.setQueue qn { q with weight := v.setWidth 16 }
    | .srate => s.setQueue qn { q with srate := v }
    | .sburst => s.setQueue qn { q with sburst := v.setWidth 24 }
    | .prate => s.setQueue qn { q with prate := v }
    | .pburst => s.setQueue qn { q with pburst := v.setWidth 24 }

/-- QUEUE_CFG_WRITE, R515, R528 and R531. -/
def execQueueCfgWrite (q : Fin 256) (reg : QueueReg) (value : BitVec 32) (s : State) : Host.Outcome State Fault Refusal :=
  act s (queueCfgWrite s q.val reg value)

end Sys2Proof.Machine
end

