-- ==== Sys2Proof/Machine/StencilOps.lean ====
section
/-! DEFINITION. What a plan says of a step, and the operations that halt, drop or end a plan: R160 to R165, R191 to R194, R348. -/

namespace Sys2Proof.Machine

/-! ## Reading a plan -/

/-- Engines that a body uses: the union of its slots' masks. -/
def Body.engines (b : Body) : BitVec 64 := b.slots.foldl (fun v p => v ||| p.engines) 0

/-- Engines that a plan uses, R636. -/
def Plan.engines (p : Plan) : BitVec 64 := p.bodies.foldl (fun v b => v ||| b.engines) 0

/-- Body number of a step: that of the last schedule entry not after it, R160. -/
def Plan.bodyOf (p : Plan) (n : BitVec 32) : Nat :=
  p.sched.foldl (fun b e => if (e.1 - p.step0).toNat ≤ (n - p.step0).toNat then e.2 else b) 0

def Plan.body (p : Plan) (i : Nat) : Body := p.bodies.getD i {}

/-- Body of the step that CURRENT runs. -/
def curBody (s : State) : Body :=
  match s.stn.cur with
  | some p => p.body s.stn.body
  | none => {}

/-- Strokes in an engine's list of a body. -/
def Body.count (b : Body) (e : Nat) : Nat := Tab.get 0 b.counts e

/-- Slots that contain an engine, in increasing order, with the engine's first stroke index: (slot, first). -/
def Body.slotsOf (b : Body) (e : Nat) : List (Nat × Nat) :=
  ((List.range b.slots.length).zip b.slots).filterMap fun p =>
    if p.2.engines.getLsbD e then some (p.1, Tab.get 0 p.2.firsts e) else none

/-- Slot that a stroke belongs to, R163. -/
def Body.slotOf (b : Body) (e i : Nat) : Nat :=
  ((b.slotsOf e).foldl (fun k p => if p.2 ≤ i then p.1 else k) 0)

/-- First stroke of an engine that belongs to no slot below `k`: strokes under it may issue once the slots below `k` have started. -/
def Body.gateFor (b : Body) (e k : Nat) : Nat :=
  match (b.slotsOf e).find? fun p => k ≤ p.1 with
  | some p => p.2
  | none => b.count e

/-- Index one past the last stroke of an engine in a slot. -/
def Body.slotEnd (b : Body) (e k : Nat) : Nat := b.gateFor e (k + 1)

/-- Region r of CURRENT. -/
def curRegion (s : State) (r : Nat) : Option Region :=
  match s.stn.cur with
  | some p => p.regions[r]?
  | none => none

/-- DHA of a tile of a region of CURRENT, R173. -/
def regionTile (s : State) (r t : Nat) : Option Nat :=
  match curRegion s r with
  | some g => if t < g.tiles then tileDha g.bufs g.pool t else none
  | none => none

/-- Whether an engine has made every stroke of its list and every arrival, R164. -/
def engineDone (s : State) (b : Body) (e : Nat) : Bool :=
  let x := s.eng e
  decide (x.issued = b.count e) && x.flights.isEmpty && x.loads.isEmpty && x.toIssue.isEmpty

/-- Whether every parity tile that this member has begun to gather for the running step is formed, R242. -/
def parityFormed (s : State) : Bool := s.clc.words.all fun w => w.formed || decide (w.step ≠ s.stn.step)

/-- Whether the running step has completed, R164. -/
def stepComplete (s : State) : Bool :=
  let b := curBody s
  s.stn.stepRunning && parityFormed s && (List.range 64).all fun e => !b.engines.getLsbD e || engineDone s b e

/-- Core cycles of the running step that have passed since its step-start edge, which lies 24 or 25 cycles after the tick, R162; at level 3 each lasts twice as long, R612. -/
def stepCycles (s : State) : Nat :=
  coreCycles s (s.plb.run - s.stn.startedAt) - (24 + b2n (Config.crossing25 s.stn.step.toNat))

/-- A logical rank's 15 bits of CURRENT. -/
def curRank (s : State) : BitVec 15 := match s.stn.cur with | some p => p.rank | none => 0

/-! ## Bond areas, R348 -/

/-- Lowest-numbered far port of a bond. -/
def bondPort (s : State) (b : Nat) : Nat := ((List.range 16).find? fun p => (s.bond b).ports.getLsbD p).getD 0

/-- Quadrant that holds a bond's queues and areas, R348 and R513. -/
def bondQuad (s : State) (b : Nat) : Nat := bondPort s b / 4

def areaOwner (kind : Byte) (b : Nat) : Owner := ⟨1, BitVec.ofNat 32 ((if kind = 0x04 then 0x100 else 0x200) + b)⟩

/-- Grants buffers of an area one by one until it holds n. -/
def growArea (o : Owner) (q : Nat) : (fuel : Nat) → State → Bool × State
  | 0, s => (true, s)
  | n + 1, s =>
    if isDead s.lth o then (false, s)
    else match grantBuffer s o q 0 with
      | (none, s) => (false, s)
      | (some _, s) => growArea o q n s

/-- Sizes an area of a bond to the larger of two plans' budgets. -/
def fitArea (s : State) (kind : Byte) (b : Nat) (extra : Option Plan) : Bool × State :=
  let want := max (planBudget s.stn.cur kind b) (max (planBudget s.stn.next kind b) (planBudget extra kind b))
  let o := areaOwner kind b
  growArea o (bondQuad s b) (ceilDiv want 65536 - holdCount s.lth o) s

/-- Owners of the two areas of every bond, with the budget KIND that sizes each. -/
def bondAreas : List (Byte × Nat) := (List.range 16).flatMap fun b => [(0x04, b), (0x05, b)]

/-- Frees the buffers of bond areas that an admission granted, R198 and R348. -/
def freeHandles (s : State) (hs : List Nat) : State :=
  bondAreas.foldl (fun s a => releaseOwner s (areaOwner a.1 a.2) (some hs)) s

/-- Frees the areas that no admitted plan budgets any more. -/
def trimAreas (s : State) : State :=
  bondAreas.foldl (fun s a => if hasBudget s a.1 a.2 then s else releaseOwner s (areaOwner a.1 a.2) none) s

/-! ## Leaving a plan -/

def regionOwner (n : BitVec 32) : Owner := ⟨0, n⟩

/-- Releases the grants of an armed plan that never took over its INHERIT regions. -/
def releaseNextRegions (s : State) (p : Plan) : State :=
  (p.regions.filter fun r => !r.inherit).foldl (fun s r => releaseOwner s (regionOwner r.name) none) s

/-- NEXT is discarded and its grants are released, R193, R194, R198; `mark` sets NEXT_DROPPED. Engines that no other plan uses return to IDLE, R110. -/
def dropNext (s : State) (mark : Bool) : State :=
  match s.stn.next with
  | none => s
  | some p =>
    let s := releaseNextRegions s p
    let s := freeHandles s p.areas
    let keep := match s.stn.cur with | some c => c.engines | none => 0
    let s := (List.range 64).foldl (fun s e =>
      if p.engines.getLsbD e && !keep.getLsbD e && decide ((s.eng e).st = .armed) then setEngSt s e .idle else s) s
    let s := { s with stn := { s.stn with next := none, err := if mark then setErr s.stn.err 5 else s.stn.err }, clc := { s.clc with early := [] }, skm := { s.skm with nextTables := [] } }
    trimAreas s

/-- Last value kept for a step in a list. -/
def stepVal (l : List (BitVec 32 × BitVec 32)) (step : BitVec 32) : BitVec 32 :=
  match l.find? fun p => p.1 = step with
  | some p => p.2
  | none => 0

def setStepVal (l : List (BitVec 32 × BitVec 32)) (step v : BitVec 32) : List (BitVec 32 × BitVec 32) :=
  (l.filter fun p => p.1 ≠ step) ++ [(step, v)]

/-- Cancels what an engine has in flight: its strokes, whose waits are counted as far as they went, and its LOADs, whose pending slots become EMPTY, R87, R104 and R193. -/
def cancelEngine (s : State) (e : Nat) : State :=
  let x := s.eng e
  let tags := x.loads.foldl (fun t l =>
    let g := Tab.get ({} : TileTag) t l.slot
    if g.st = .pending then Tab.put {} t l.slot { g with st := .empty } else t) x.tags
  s.setEng e { x with tags := tags, loads := [], flights := [], toIssue := [], waitCycles := waitCyclesNow s x }

/-- CURRENT enters HALTED: the engines cancel their strokes, those in RUNNING return to ARMED, R110 and R193. What CLC holds of the launch stays, for the decisions that are still to come, with the extension of the step that is left, R249. -/
def toHalted (s : State) (cause : BitVec 4) (step : BitVec 32) : State :=
  match s.stn.cur with
  | none => s
  | some p =>
    let s := (List.range 64).foldl (fun s e =>
      if p.engines.getLsbD e then
        let s := cancelEngine s e
        if (s.eng e).st = .running then setEngSt s e .armed else s
      else s) s
    let s := if s.stn.stepRunning ∨ s.stn.inSeam then { s with clc := { s.clc with applied := setStepVal s.clc.applied s.stn.step s.stn.ext } } else s
    let s := { s with stn := { s.stn with place := .halted, haltCause := cause, haltStep := step, err := setErr s.stn.err 4, stepRunning := false, launching := false, inSeam := false, haltReq := false } }
    let s := s.setTrig 1 { s.trig 1 with en := false }
    let s := s.setTrig 2 { s.trig 2 with en := false }
    s.setTrig 0 { s.trig 0 with en := false }

/-- The first step that CURRENT has not completed. -/
def uncompletedStep (s : State) : BitVec 32 :=
  if s.stn.stepRunning then s.stn.step
  else if s.stn.launching then s.stn.launchStep else s.stn.step + 1

/-- A running plan halts at once, R193: HALT_CAUSE 1 for an abort or a timeout, 2 for an engine fault; NEXT is discarded. -/
def haltNow (s : State) (cause : BitVec 4) : State :=
  if s.stn.place = .running then dropNext (toHalted s cause (uncompletedStep s)) true else s

/-- Arms a one-shot trigger channel. -/
def armTrig (s : State) (c : Nat) (t : PCount) : State := s.setTrig c { s.trig c with target := t, period := 0, en := true }

/-- An extension handed over by CLC applies to the running step before its deadline trigger, R161. -/
def applyExt (s : State) (step : BitVec 32) (v : BitVec 32) : Bool × State :=
  match s.stn.cur with
  | none => (false, s)
  | some p =>
    if s.stn.place = .running ∧ s.stn.step = step ∧ (s.stn.stepRunning ∨ s.stn.inSeam) ∧ !s.stn.deadlineDone then
      let s := { s with stn := { s.stn with ext := v } }
      let s := armTrig s 2 (s.stn.stepStart + BitVec.ofNat 48 (p.deadlineNs + v.toNat))
      let s := if s.stn.inSeam then armTrig s 1 (s.stn.stepStart + BitVec.ofNat 48 (p.stepNs + v.toNat)) else s
      (true, s)
    else (false, s)

end Sys2Proof.Machine
end

