-- ==== Sys2Proof/Machine/Clc.lean ====
section
/-! DEFINITION. Collectives, chapter 06: ranks and heads, the control messages, joining, sealing and aborting, extensions, completion records, and the commands that receive messages. -/

namespace Sys2Proof.Machine

/-! ## Ranks, R204 and R205 -/

def rankMember (r : Nat) : Nat := r % 16
def rankRail (r : Nat) : Nat := r / 16 % 16
def rankSite (r : Nat) : Nat := r / 256 % 16
def rankRegion (r : Nat) : Nat := r / 4096 % 8
def siteHead (r : Nat) : Nat := r / 256 * 256

/-- Whether a rank is a member of a collective. -/
def Desc.isMember (d : Desc) (r : Nat) : Bool :=
  decide (rankMember r < d.m4) && decide (rankRail r < d.m5) && decide (rankSite r < d.m6) && decide (rankRegion r < d.m7)

/-- The members of the site of a rank, in increasing order. -/
def Desc.siteMembers (d : Desc) (head : Nat) : List Nat :=
  (List.range d.m5).flatMap fun rail => (List.range d.m4).map fun m => head + 16 * rail + m

/-- The site heads of a collective, in increasing order. -/
def Desc.heads (d : Desc) : List Nat :=
  (List.range d.m7).flatMap fun g => (List.range d.m6).map fun t => g * 4096 + t * 256

/-! ## Codes -/

/-- TYPE codes of R216. -/
def tyJoin : Byte := 1
def tySiteJoin : Byte := 2
def tyReady : Byte := 3
def tySiteReady : Byte := 4
def tyAbortReq : Byte := 5
def tyLate : Byte := 6
def tyExt : Byte := 7
def tyRing : Byte := 8
def tyNotify : Byte := 9
def tyAbortReply : Byte := 0xA
def tyRebuildReq : Byte := 0xB
def tyRebuilt : Byte := 0xC

/-- Collective error codes of R246. -/
def ceDescMismatch : Byte := 1
def ceTimeout : Byte := 2
def ceAborted : Byte := 3
def ceMemberLost : Byte := 4
def ceSignatureMismatch : Byte := 5
def ceBufferExhausted : Byte := 6
def ceStaleLimit : Byte := 7
def ceIntegrity : Byte := 8
def ceNonfinite : Byte := 9

/-- Precedence of R248: 0 is the highest. -/
def precedence (code : Byte) : Nat :=
  match code.toNat with
  | 4 => 0 | 8 => 1 | 1 => 2 | 5 => 3 | 6 => 4 | 9 => 5 | 7 => 6 | 2 => 7 | _ => 8

/-! ## Messages -/

def flagSpare (m : ClcMsg) : Bool := m.flags.getLsbD 0
def flagRepro (m : ClcMsg) : Bool := m.flags.getLsbD 1
def flagNf (m : ClcMsg) : Bool := m.flags.getLsbD 2
def flagSubj (m : ClcMsg) : Bool := m.flags.getLsbD 3

/-- A message with its CRC filled in. -/
def sealMsg (m : ClcMsg) : ClcMsg := { m with crc := clcCrc m }

/-- Sends that a handler makes: (rank it goes to, message). -/
abbrev Sends := List (Nat × ClcMsg)

def desc? (p : Option Plan) (coll : Nat) : Option Desc :=
  match p with
  | some p => p.descs[coll]?
  | none => none

def curDesc (s : State) (coll : Nat) : Option Desc := desc? s.stn.cur coll

def topAsig (s : State) : BitVec 32 := s.top.asig.getD 0

/-- A message of this member about an instance of CURRENT, R215. -/
def baseMsg (s : State) (type : Byte) (coll : Nat) (step : BitVec 32) : ClcMsg :=
  { type := type, flags := 0, src := (curRank s).setWidth 16, coll := BitVec.ofNat 8 coll, outcome := 0, code := 0, job := (match s.stn.cur with | some p => p.job | none => 0), plan := (match s.stn.cur with | some p => p.planId | none => 0), step := step, digest := (match curDesc s coll with | some d => d.digest | none => 0), asig := topAsig s, subj := 0, nfPos := 0, value := 0, crc := 0 }

def withFlag (m : ClcMsg) (i : Nat) (b : Bool) : ClcMsg := { m with flags := putBit m.flags i b }
def withSubj (m : ClcMsg) (r : Option (BitVec 16)) : ClcMsg :=
  match r with
  | some r => withFlag { m with subj := r } 3 true
  | none => m
def withNf (m : ClcMsg) (p : Option (BitVec 48)) : ClcMsg :=
  match p with
  | some p => withFlag { m with nfPos := p } 2 true
  | none => m

def myRank (s : State) : Nat := (curRank s).toNat
def isRoot (s : State) : Bool := decide (myRank s = 0)
def isHead (s : State) : Bool := decide (myRank s % 256 = 0)

/-- Where a member sends what goes to its site head, and a site head what goes to the root. -/
def upRank (s : State) : Nat := if isHead s then 0 else siteHead (myRank s)

/-- Whether this device takes part under R178, or knows from the JOINs of the launch of a member that does. -/
def knowsBreak (s : State) (coll : Nat) : Bool :=
  (match s.stn.cur with | some p => p.isBreak | none => false) || s.clc.breaks.contains coll

/-- An abort request of this member, R225. -/
def abortReq (s : State) (coll : Nat) (step : BitVec 32) (code : Byte) (subj : Option (BitVec 16)) (nf : Option (BitVec 48)) : Sends :=
  [(upRank s, sealMsg (withFlag (withNf (withSubj { baseMsg s tyAbortReq coll step with code := code } subj) nf) 1 (knowsBreak s coll)))]

/-! ## Instances -/

/-- The instance whose step is step m: n with n + D = m, or m itself before the first such n. -/
def instOfStep (p : Plan) (d : Desc) (m : BitVec 32) : BitVec 32 :=
  if d.d ≤ (m - p.step0).toNat then m - BitVec.ofNat 32 d.d else m

def findInst (s : State) (coll : Nat) (step : BitVec 32) : Option Inst :=
  s.clc.insts.find? fun i => decide (i.coll = coll ∧ i.step = step)

/-- The instance, or a fresh one. -/
def getInst (s : State) (coll : Nat) (step : BitVec 32) : Inst := (findInst s coll step).getD { coll := coll, step := step }

def putInst (s : State) (x : Inst) : State :=
  if (findInst s x.coll x.step).isSome then
    { s with clc := { s.clc with insts := s.clc.insts.map fun i => if i.coll = x.coll ∧ i.step = x.step then x else i } }
  else { s with clc := { s.clc with insts := s.clc.insts ++ [x] } }

/-- Undecided instances of a collective that this member tracks, R227. -/
def undecided (s : State) (coll : Nat) : Nat :=
  (s.clc.insts.filter fun i => decide (i.coll = coll) && i.tracked && !i.recorded).length

/-- CLC_STATUS.UNDECIDED, R252. -/
def maxUndecided (s : State) : Nat := (List.range 64).foldl (fun m c => max m (undecided s c)) 0

/-- Extension that this member applied to a step. -/
def extOf (s : State) (step : BitVec 32) : BitVec 32 :=
  if s.stn.step = step ∧ (s.stn.stepRunning ∨ s.stn.inSeam) then s.stn.ext else stepVal s.clc.applied step

/-! ## Abort results and completion records -/

/-- CLC_ABORT_RESULT takes its final value; a COLL_ABORT that waits for it is answered, R547. -/
def abortResult (s : State) (code : Byte) : State :=
  let r := s.clc.abortMbox
  let s := { s with clc := { s.clc with abortResult := code, abortInst := none, abortMbox := none } }
  match r with
  | some r => respond s r 0x0041 stOk [code]
  | none => s

/-- The 32 bytes of a completion record, R249. -/
def recordBytes (s : State) (x : Inst) (d : Decision) (ext : BitVec 32) : List Byte :=
  let flags := b2n d.nf.isSome + 2 * b2n d.repro + 4 * b2n d.subj.isSome + 8 * b2n (decide (ext ≠ 0))
  [BitVec.ofNat 8 x.coll, if d.abort then 2 else 1, d.code, BitVec.ofNat 8 flags] ++ leBytes 4 x.step.toNat ++ leBytes 2 (d.subj.getD 0).toNat
    ++ leBytes 6 (d.nf.getD 0).toNat ++ leBytes 4 ext.toNat ++ leBytes 6 s.count.toNat ++ List.replicate 6 0

/-- What this device knows of members that took part in an instance under R178: itself, and those whose JOINs, READYs or requests say so. -/
def breakSeen (s : State) (x : Inst) : Bool :=
  knowsBreak s x.coll || x.broke || x.readies.any flagRepro || x.siteReadies.any flagRepro || x.reqs.any flagRepro

/-- The outcome of an instance is recorded here: the completion record, the counts and flags, the end of its catch-up units, and the halt on an abort, R224, R226, R234, R249. -/
def recordOutcome (s : State) (x : Inst) (d : Decision) : State :=
  if x.recorded then s
  else
    let stale := match curDesc s x.coll with | some c => c.d | none => 0
    let d := { d with repro := d.repro || breakSeen s x }
    let rec32 := recordBytes s x d (extOf s (x.step + BitVec.ofNat 32 stale))
    let c := s.clc
    let err := if d.abort then setErr c.err 4 else c.err
    let err := if d.repro then setErr err 3 else err
    let err := if d.nf.isSome then setErr err 2 else err
    let c := { c with recs := Mem.write c.recs (32 * (c.recCount.toNat % 256)) rec32, recCount := c.recCount + 1, err := err, sealCount := (if d.abort then c.sealCount else bump c.sealCount 1), abortCount := (if d.abort then bump c.abortCount 1 else c.abortCount), catchup := c.catchup.filter fun u => !(decide (u.coll = x.coll) && decide (u.step = x.step)) }
    let s := putInst { s with clc := c } { x with recorded := true, decision := some d }
    let s := if d.abort ∧ s.clc.abortInst = some (x.coll, x.step) then abortResult s 1 else s
    if d.abort then haltNow s 1 else s

/-! ## The root -/

/-- RING of a decision, R223 and R224. -/
def ringMsg (s : State) (x : Inst) (d : Decision) : ClcMsg :=
  let m := { baseMsg s tyRing x.coll x.step with outcome := (if d.abort then 2 else 1), code := d.code }
  sealMsg (withFlag (withNf (withSubj m d.subj) d.nf) 1 d.repro)

/-- NOTIFY of the same outcome, to every member of the head's site but the head itself. -/
def notifySite (s : State) (c : Desc) (ring : ClcMsg) : Sends :=
  ((c.siteMembers (myRank s)).filter fun r => r ≠ myRank s).map fun r => (r, sealMsg { ring with type := tyNotify, src := BitVec.ofNat 16 (myRank s) })

/-- The site head after a rank in increasing order, passing over a lost head; the root after the last, R223 and R240. -/
def nextHead (c : Desc) (after : Nat) (ring : ClcMsg) : Nat :=
  let skip := fun r : Nat => decide (ring.code = ceMemberLost) && flagSubj ring && decide (ring.subj.toNat = r)
  ((c.heads.filter fun r => after < r && !skip r).headD 0)

/-- The root decides an instance once: it records the outcome and sends the RING and its site's NOTIFYs, R223 to R225. -/
def decideInst (s : State) (x : Inst) (d : Decision) : State × Sends :=
  match curDesc s x.coll with
  | none => (s, [])
  | some c =>
    let ring := ringMsg s x d
    let nh := nextHead c 0 ring
    let x := { x with decision := some d, hold := false, ringBack := decide (nh = 0) }
    let s := recordOutcome (putInst s x) x d
    (s, (if nh = 0 then [] else [(nh, ring)]) ++ notifySite s c ring)

/-- Lowest position of a list of messages with NF_VALID and the rank that reports it; the lower rank on a tie. -/
def lowestNf (l : List (BitVec 16 × ClcMsg)) : Option (BitVec 48 × BitVec 16) :=
  l.foldl (fun b p =>
    if flagNf p.2 then match b with
      | none => some (p.2.nfPos, p.1)
      | some q => if p.2.nfPos.toNat < q.1.toNat ∨ (p.2.nfPos = q.1 ∧ p.1.toNat < q.2.toNat) then some (p.2.nfPos, p.1) else b
    else b) none

/-- Whether every SITE_JOIN of the launch has arrived and matched, R223. -/
def joinsMatched (s : State) (c : Desc) (coll : Nat) : Bool :=
  c.heads.all fun h => s.clc.siteJoins.any fun m =>
    decide (m.coll.toNat = coll) && decide (m.src.toNat = h) && decide (m.digest = c.digest) && !flagSubj m

/-- The root seals an instance when every join and ready has come and no abort is pending, R223. -/
def trySeal (s : State) (coll : Nat) (step : BitVec 32) : State × Sends :=
  match curDesc s coll, findInst s coll step with
  | some c, some x =>
    if x.decision.isNone && x.reqs.isEmpty && (x.joined || joinsMatched s c coll) && c.heads.all (fun h => x.siteReadies.any fun m => decide (m.src.toNat = h)) then
      let nf := lowestNf (x.siteReadies.map fun m => (m.subj, m))
      decideInst s x { abort := false, code := 0, subj := nf.map (·.2), nf := nf.map (·.1), repro := breakSeen s x }
    else (s, [])
  | _, _ => (s, [])

/-- Seals every instance of a collective that now can be. -/
def trySealAll (s : State) (coll : Nat) : State × Sends :=
  (s.clc.insts.filter fun i => decide (i.coll = coll)).foldl (fun (acc : State × Sends) i =>
    let (s, o) := trySeal acc.1 coll i.step
    (s, acc.2 ++ o)) (s, [])

/-- An abort request reaches the root, R225. -/
def rootAbort (s : State) (m : ClcMsg) : State × Sends :=
  let x := getInst s m.coll.toNat m.step
  match x.decision with
  | none => (putInst s { x with reqs := x.reqs ++ [m], hold := true }, [])
  | some d =>
    if m.src.toNat = 0 then
      (if s.clc.abortInst = some (x.coll, x.step) then abortResult s (if d.abort then 1 else 2) else s, [])
    else
      let r := { baseMsg s tyAbortReply m.coll.toNat m.step with outcome := (if d.abort then 2 else 3), code := (if d.abort then d.code else 0) }
      (s, [(siteHead m.src.toNat, sealMsg (withSubj r (some m.src)))])

/-- A request that the root raises itself goes the same way. -/
def rootRaise (s : State) (coll : Nat) (step : BitVec 32) (code : Byte) (subj : Option (BitVec 16)) : State × Sends :=
  rootAbort s (sealMsg (withSubj { baseMsg s tyAbortReq coll step with code := code } subj))

/-- Whether a request goes before another at the end of the hold, R225. -/
def reqBefore (a b : ClcMsg) : Bool :=
  if precedence a.code ≠ precedence b.code then decide (precedence a.code < precedence b.code)
  else if a.code = ceNonfinite ∧ a.nfPos ≠ b.nfPos then decide (a.nfPos.toNat < b.nfPos.toNat)
  else decide (a.subj.toNat < b.subj.toNat)

/-- The lowest rank whose digest differs from rank 0's, as the SITE_JOINs give it, R220. -/
def lowestDiffer (s : State) (c : Desc) (coll : Nat) : Option (BitVec 16) :=
  (s.clc.siteJoins.filter fun m => decide (m.coll.toNat = coll)).foldl (fun b m =>
    let r := if m.digest ≠ c.digest then some m.src else if flagSubj m then some m.subj else none
    match b, r with
    | none, r => r
    | some q, some r => if r.toNat < q.toNat then some r else some q
    | b, none => b) none

/-- End of the root's hold: RING ABORT with the request of highest precedence, R225. -/
def holdEnd (s : State) (coll : Nat) (step : BitVec 32) : State × Sends :=
  match curDesc s coll, findInst s coll step with
  | some c, some x =>
    match x.reqs with
    | [] => (s, [])
    | r :: rest =>
      if x.hold && x.decision.isNone then
        let best := rest.foldl (fun b q => if reqBefore q b then q else b) r
        let subj := if best.code = ceDescMismatch then
            (match lowestDiffer s c coll with | some r => some r | none => if flagSubj best then some best.subj else none)
          else if flagSubj best then some best.subj else none
        decideInst s x { abort := true, code := best.code, subj := subj, nf := if best.code = ceNonfinite then some best.nfPos else none, repro := breakSeen s x }
      else (s, [])
  | _, _ => (s, [])

/-! ## Site heads and members -/

def markMismatch (s : State) : State := { s with clc := { s.clc with err := setErr s.clc.err 0 } }

/-- A JOIN at a site head, R219 to R221. -/
def onJoin (s : State) (m : ClcMsg) : State × Sends :=
  let coll := m.coll.toNat
  match curDesc s coll, s.stn.cur with
  | some c, some p =>
    if !isHead s || decide (siteHead m.src.toNat ≠ myRank s) then (s, [])
    else
      let js := s.clc.joins ++ [(coll, m.src, m.digest)]
      let s := { s with clc := { s.clc with joins := js, breaks := if flagRepro m then s.clc.breaks ++ [coll] else s.clc.breaks } }
      let bad := decide (m.digest ≠ c.digest)
      let sig := decide (m.asig ≠ p.asig) && !flagRepro m
      let s := if bad || sig then markMismatch s else s
      let req := (if bad then abortReq s coll m.step ceDescMismatch (some m.src) none else [])
        ++ (if sig then abortReq s coll m.step ceSignatureMismatch (some m.src) none else [])
      let mine := js.filter fun j => decide (j.1 = coll)
      if (c.siteMembers (myRank s)).all (fun r => mine.any fun j => decide (j.2.1.toNat = r)) && !s.clc.siteJoinSent.contains coll then
        let low := (mine.filter fun j => j.2.2 ≠ c.digest).foldl (fun (b : Option (BitVec 16)) j => match b with
          | none => some j.2.1
          | some q => if j.2.1.toNat < q.toNat then some j.2.1 else some q) none
        let s := { s with clc := { s.clc with siteJoinSent := s.clc.siteJoinSent ++ [coll] } }
        (s, req ++ [(0, sealMsg (withFlag (withSubj (baseMsg s tySiteJoin coll m.step) low) 1 (knowsBreak s coll)))])
      else (s, req)
  | _, _ => (s, [])

/-- A SITE_JOIN at the root, R220 and R223. -/
def onSiteJoin (s : State) (m : ClcMsg) : State × Sends :=
  let coll := m.coll.toNat
  match curDesc s coll with
  | none => (s, [])
  | some c =>
    if !isRoot s then (s, [])
    else
      let s := { s with clc := { s.clc with siteJoins := s.clc.siteJoins ++ [m], breaks := if flagRepro m then s.clc.breaks ++ [coll] else s.clc.breaks } }
      let (s, o) := if m.digest ≠ c.digest then rootRaise (markMismatch s) coll m.step ceDescMismatch (some m.src) else (s, [])
      let (s, o2) := trySealAll s coll
      (s, o ++ o2)

/-- A READY at a site head, R222. -/
def onReady (s : State) (m : ClcMsg) : State × Sends :=
  let coll := m.coll.toNat
  match curDesc s coll with
  | none => (s, [])
  | some c =>
    if !isHead s || decide (siteHead m.src.toNat ≠ myRank s) then (s, [])
    else
      let x := getInst s coll m.step
      let x := { x with readies := x.readies ++ [m] }
      if (c.siteMembers (myRank s)).all (fun r => x.readies.any fun j => decide (j.src.toNat = r)) && !x.siteReadySent then
        let want := stepVal s.clc.exts (m.step + BitVec.ofNat 32 c.d)
        let low := (x.readies.filter fun j => j.value ≠ want).foldl (fun (b : Option (BitVec 16)) j => match b with
          | none => some j.src
          | some q => if j.src.toNat < q.toNat then some j.src else some q) none
        let s := putInst s { x with siteReadySent := true }
        match low with
        | some r => (s, abortReq s coll m.step ceTimeout (some r) none)
        | none =>
          let nf := lowestNf (x.readies.map fun j => (j.src, j))
          let b := { baseMsg s tySiteReady coll m.step with value := want }
          let b := withFlag (withNf (withSubj b (nf.map (·.2))) (nf.map (·.1))) 1 (x.readies.any flagRepro)
          (s, [(0, sealMsg b)])
      else (putInst s x, [])

/-- A SITE_READY at the root, R231 and R223. -/
def onSiteReady (s : State) (m : ClcMsg) : State × Sends :=
  let coll := m.coll.toNat
  match curDesc s coll with
  | none => (s, [])
  | some c =>
    if !isRoot s then (s, [])
    else
      let x := getInst s coll m.step
      let s := putInst s { x with siteReadies := x.siteReadies ++ [m] }
      if m.value ≠ stepVal s.clc.grants (m.step + BitVec.ofNat 32 c.d) then rootRaise s coll m.step ceTimeout (some m.src)
      else trySeal s coll m.step

/-- An ABORT_REQ: a site head forwards it unchanged, the root resolves it, R217 and R225. -/
def onAbortReq (s : State) (m : ClcMsg) : State × Sends :=
  if isRoot s then rootAbort s m else if isHead s then (s, [(0, m)]) else (s, [])

/-- A LATE: a site head forwards it, the root computes the grant, R230. -/
def onLate (s : State) (m : ClcMsg) : State × Sends :=
  if isRoot s then
    match s.stn.cur, curDesc s m.coll.toNat with
    | some p, some c =>
      let v := max m.value.toNat (stepVal s.clc.lates m.step).toNat
      let s := { s with clc := { s.clc with lates := setStepVal s.clc.lates m.step (BitVec.ofNat 32 v) } }
      let g := min p.extCap v
      let dl := s.stn.stepStart + BitVec.ofNat 48 (p.deadlineNs + s.stn.ext.toNat)
      let inTime := decide (s.stn.step = m.step) && (s.stn.stepRunning || s.stn.inSeam) && decide (0 ≤ signedDiff dl (s.count + BitVec.ofNat 48 (2 * c.ctlNs)))
      if (stepVal s.clc.grants m.step).toNat < g ∧ inTime then
        let s := { s with clc := { s.clc with grants := setStepVal s.clc.grants m.step (BitVec.ofNat 32 g) } }
        (s, c.heads.map fun h => (h, sealMsg { baseMsg s tyExt m.coll.toNat m.step with value := BitVec.ofNat 32 g }))
      else (s, [])
    | _, _ => (s, [])
  else if isHead s then (s, [(0, m)]) else (s, [])

/-- An EXT: a site head passes it on, and every member hands it to Stencil, R230. -/
def onExt (s : State) (m : ClcMsg) : State × Sends :=
  match curDesc s m.coll.toNat with
  | none => (s, [])
  | some c =>
    let fwd : Sends := if isHead s then ((c.siteMembers (myRank s)).filter fun r => r ≠ myRank s).map fun r => (r, m) else []
    let s := { s with clc := { s.clc with exts := setStepVal s.clc.exts m.step m.value } }
    let s := (applyExt s m.step m.value).2
    ({ s with clc := { s.clc with err := setErr s.clc.err 5 } }, fwd)

/-- The decision that a RING or NOTIFY carries. -/
def decisionOf (m : ClcMsg) : Decision :=
  { abort := decide (m.outcome = 2), code := m.code, subj := if flagSubj m then some m.subj else none, nf := if flagNf m then some m.nfPos else none, repro := flagRepro m }

/-- A RING: a site head records the first copy, sends NOTIFY and passes every copy on; at the root the first copy that returns ends the lap, R223 and R224. -/
def onRing (s : State) (m : ClcMsg) : State × Sends :=
  match curDesc s m.coll.toNat with
  | none => (s, [])
  | some c =>
    let x := getInst s m.coll.toNat m.step
    if isRoot s then
      let s := { s with clc := { s.clc with rings := s.clc.rings.filter fun i => !(decide (i.coll = m.coll.toNat) && decide (i.step = m.step)) } }
      (if x.decision.isSome then putInst s { x with ringBack := true } else s, [])
    else if isHead s then
      let o : Sends := (if x.recorded then [] else notifySite s c m) ++ [(nextHead c (myRank s) m, m)]
      (recordOutcome s x (decisionOf m), o)
    else (s, [])

/-- A NOTIFY: the member records the outcome and halts on an abort, R226. -/
def onNotify (s : State) (m : ClcMsg) : State × Sends :=
  match curDesc s m.coll.toNat with
  | none => (s, [])
  | some _ => (recordOutcome s (getInst s m.coll.toNat m.step) (decisionOf m), [])

/-- An ABORT_REPLY: a site head forwards it to the member that SUBJ_RANK names; the requester's result takes its final value, R225. -/
def onAbortReply (s : State) (m : ClcMsg) : State × Sends :=
  if m.subj.toNat = myRank s then
    (if s.clc.abortInst = some (m.coll.toNat, m.step) then abortResult s (if m.outcome = 2 then 1 else 2) else s, [])
  else if isHead s then (s, [(m.subj.toNat, m)]) else (s, [])

/-! ## Rebuild of a lost member, R242 to R244 -/

/-- Multiplication in GF(2^8) with the polynomial 0x11D, R242. -/
def gfMulAux : Nat → Nat → Nat → Nat
  | 0, _, _ => 0
  | n + 1, a, b =>
    let rest := gfMulAux n (let d := a * 2; if 256 ≤ d then d ^^^ 0x11D else d) (b / 2)
    if b % 2 = 1 then a ^^^ rest else rest

def gfMul (a b : Nat) : Nat := gfMulAux 8 a b

/-- 2 to the power n. -/
def gfPow2 : Nat → Nat
  | 0 => 1
  | n + 1 => gfMul 2 (gfPow2 n)

/-- Inverse: x^254. -/
def gfInv (x : Nat) : Nat :=
  let x2 := gfMul x x
  let x4 := gfMul x2 x2
  let x8 := gfMul x4 x4
  let x16 := gfMul x8 x8
  let x32 := gfMul x16 x16
  let x64 := gfMul x32 x32
  let x128 := gfMul x64 x64
  gfMul (gfMul (gfMul x2 x4) (gfMul x8 x16)) (gfMul (gfMul x32 x64) x128)

def xorBytes (a b : List Byte) : List Byte := List.zipWith (· ^^^ ·) a b
def scaleBytes (k : Nat) (a : List Byte) : List Byte := a.map fun b => BitVec.ofNat 8 (gfMul k b.toNat)

/-- Tile of a group that data member m holds in codeword 8G + i, R242. -/
def mirrorTile (m i : Nat) : Nat := if i < m / 2 then i else i - 1

/-- Data members of codeword i of a group. -/
def dataMembers (i : Nat) : List Nat := (List.range 16).filter fun m => m / 2 ≠ i

/-- P of R242 over (member, tile) pairs. -/
def parityP (l : List (Nat × List Byte)) : List Byte := l.foldl (fun a p => xorBytes a p.2) (List.replicate 4096 0)

/-- Q of R242. -/
def parityQ (l : List (Nat × List Byte)) : List Byte := l.foldl (fun a p => xorBytes a (scaleBytes (gfPow2 p.1) p.2)) (List.replicate 4096 0)

/-- A lost data tile from P and the other 13, R243. -/
def rebuildFromP (pTile : List Byte) (others : List (Nat × List Byte)) : List Byte := xorBytes pTile (parityP others)

/-- A lost data tile of member x from Q and the other 13, R243. -/
def rebuildFromQ (x : Nat) (qTile : List Byte) (others : List (Nat × List Byte)) : List Byte :=
  scaleBytes (gfInv (gfPow2 x)) (xorBytes qTile (parityQ others))

/-- Two lost data tiles of members a and b from P, Q and the other 12, R244. -/
def rebuildTwo (a b : Nat) (pTile qTile : List Byte) (others : List (Nat × List Byte)) : List Byte × List Byte :=
  let p' := xorBytes pTile (parityP others)
  let q' := xorBytes qTile (parityQ others)
  let da := scaleBytes (gfInv (gfPow2 a ^^^ gfPow2 b)) (xorBytes (scaleBytes (gfPow2 b) p') q')
  (da, xorBytes p' da)

/-- Mirrored regions of CURRENT, each with its collective and its parity region: (collective, region, parity region). -/
def mirrorPairs (s : State) : List (Nat × Nat × Nat) :=
  match s.stn.cur with
  | some p => ((List.range p.descs.length).zip p.descs).flatMap fun d =>
      if d.2.mirror then ((d.2.mirrorRegions.zip d.2.parityRegions).filter fun x => decide (x.1 ≠ 255)).map fun x => (d.1, x.1, x.2) else []
  | none => []

/-- The number in its group of the codeword that holds tile x of a group of member m. -/
def wordOf (m x : Nat) : Nat := if x < m / 2 then x else x + 1

/-- The tiles that this member holds of the codewords in which a lost member x held a tile, as (region, tile): its data tiles of the codewords in which x holds data or parity, and its parity tiles of those in which x holds data, R243 and R244. -/
def mirrorHeld (s : State) (coll x : Nat) : List (Nat × Nat) :=
  let me := rankMember (myRank s)
  (mirrorPairs s).flatMap fun m => if m.1 ≠ coll then []
    else match curRegion s m.2.1 with
      | none => []
      | some g => (List.range (g.tiles / 7)).flatMap fun grp => (List.range 8).flatMap fun i =>
          if me / 2 ≠ i then [(m.2.1, 7 * grp + mirrorTile me i)]
          else if rankMember x / 2 ≠ i then [(m.2.2, grp)] else []

/-- A stored parity tile has failed its check: CE_INTEGRITY for its collective, R238. The instance is that of the halted step, or of the last step that began. -/
def parityBad (s : State) (t : Nat × Nat) : Sends :=
  match s.stn.cur, (mirrorPairs s).find? fun m => decide (m.2.2 = t.1) with
  | some p, some m => match p.descs[m.1]? with
    | some d => abortReq s m.1 (instOfStep p d s.stn.step) ceIntegrity (some ((curRank s).setWidth 16)) none
    | none => []
  | _, _ => []

/-- Reads one of these tiles and sends it; one whose check fails is not sent, and a parity tile asks for an abort, R238. -/
def mirrorSend (x : Nat) (p : State × Sends) (t : Nat × Nat) : State × Sends :=
  match regionTile p.1 t.1 t.2 with
  | none => p
  | some dha =>
    let (ok, bs, u) := readTile p.1 dha
    if ok then (emit u (.mirror (BitVec.ofNat 15 x) t.1 t.2 (p.1.htag (dha / 4096 * 4096)).kind (padTo 0 4096 bs)), p.2) else (u, p.2 ++ parityBad u t)

/-- The data tiles that this spare has rebuilt and that the parity tiles of another spare of its rail group need, R244. -/
def spareHeld (s : State) (coll x : Nat) : List (Nat × Nat) :=
  let me := rankMember (myRank s)
  let i := rankMember x / 2
  (mirrorPairs s).flatMap fun m => if m.1 ≠ coll ∨ me / 2 = i then []
    else match curRegion s m.2.1 with
      | none => []
      | some g => ((List.range (g.tiles / 7)).filter fun grp =>
          decide (s.clc.rebuild = 2) || s.clc.words.any fun w => w.formed && decide (w.region = m.2.1) && decide (w.group = grp) && decide (w.word = i)).map fun grp => (m.2.1, 7 * grp + mirrorTile me i)

/-- The two holders of the codeword that a tile of a mirrored region belongs to, R242. -/
def mirrorHolders (s : State) (t : Nat) : List Nat :=
  let i := wordOf (rankMember (myRank s)) (t % 7)
  [myRank s / 16 * 16 + 2 * i, myRank s / 16 * 16 + 2 * i + 1]

/-- The mirrored region that a written tile lies in, with its parity region; none in a SHADOW, which sends nothing, R272. -/
def mirrorPair (s : State) (r : Nat) : Option (Nat × Nat × Nat) := if s.se.role = 2 then none else (mirrorPairs s).find? fun m => decide (m.2.1 = r)

/-- The codewords that this member gathers, after a tile that it writes: every member writes the same groups, so this one now awaits the tiles of the codeword of that group whose parity it holds, R242. -/
def wordsAwaited (s : State) (r t : Nat) : List MWord :=
  match mirrorPair s r with
  | some m =>
    if s.clc.words.any fun v => decide (v.step = s.stn.step) && decide (v.region = r) && decide (v.group = t / 7) then s.clc.words
    else s.clc.words ++ [{ step := s.stn.step, region := r, parity := m.2.2, group := t / 7, word := rankMember (myRank s) / 2 }]
  | none => s.clc.words

/-- What a tile written in a region has sent: the tile, to the two holders of its codeword where the region is mirrored, R242. -/
def mirrorTiles (s : State) (r t : Nat) (kind : BitVec 2) (bs : List Byte) : List Out :=
  match mirrorPair s r with
  | some _ => (mirrorHolders s t).map fun h => Out.mirror (BitVec.ofNat 15 h) r t kind (padTo 0 4096 bs)
  | none => []

/-- A tile written in a region, R242. -/
def mirrorOut (s : State) (r t : Nat) (kind : BitVec 2) (bs : List Byte) : State :=
  { s with clc := { s.clc with words := wordsAwaited s r t }, out := s.out ++ mirrorTiles s r t kind bs }

/-- Whether a rank is the twin of another for a collective: the same MEMBER, RAIL and REGION and the lowest other SITE, R243. -/
def twinOf (c : Desc) (x : Nat) : Option Nat :=
  ((List.range c.m6).find? fun t => decide (t ≠ rankSite x)).map fun t => x - rankSite x * 256 + t * 256

/-- A REBUILD_REQ: while this survivor is HALTED it sends its data and parity tiles to the spare; the twin also sends its catch-up area, R243. Another spare of the rail group sends the tiles that it has rebuilt and the sender's parity needs, R244. -/
def onRebuildReq (s : State) (m : ClcMsg) : State × Sends :=
  match curDesc s m.coll.toNat with
  | none => (s, [])
  | some c =>
    let x := m.src.toNat
    let peer := decide (x / 16 = myRank s / 16) && decide (x ≠ myRank s)
    if s.stn.place ≠ .halted then
      (if s.clc.spareNew && peer then (spareHeld s m.coll.toNat x).foldl (mirrorSend x) (s, []) else (s, []))
    else
      let (s, o) := if peer && c.mirror then (mirrorHeld s m.coll.toNat x).foldl (mirrorSend x) (s, []) else (s, [])
      let twin := decide (0 < c.d) && decide (twinOf c x = some (myRank s))
      (if twin then { s with out := s.out ++ ((s.clc.catchup.filter fun u => decide (u.coll = m.coll.toNat)).map fun u => Out.catchup (BitVec.ofNat 15 x) u.source u.bytes) ++ [Out.catchup (BitVec.ofNat 15 x) 16 []] } else s, o)

/-- A REBUILT at the root: the rank is no longer lost, R243. -/
def onRebuilt (s : State) (m : ClcMsg) : State × Sends :=
  if isRoot s then ({ s with clc := { s.clc with lost := s.clc.lost.filter fun r => r.toNat ≠ m.src.toNat } }, []) else (s, [])

/-! ## Forwarding to a SHADOW, R272 and R279 -/

/-- The bond that the pair ports belong to. -/
def pairBond (s : State) : Option Nat := (List.range 16).find? fun b => decide ((s.bond b).ports &&& s.se.ports ≠ 0)

/-- Sends a pair record: 8-byte header, body and CRC-32C, in the control queue of the pair ports' bond. -/
def sendPair (s : State) (type : Byte) (body : List Byte) : State :=
  let q := s.se.txSeq + 1
  let h := [type, 0] ++ beBytes 2 body.length ++ beBytes 4 q.toNat ++ body
  let s := { s with se := { s.se with txSeq := q } }
  match pairBond s with
  | some b => arriveCtl s b (.seg 3 (h ++ beBytes 4 (crc32c h).toNat))
  | none => s

/-- A LEAD forwards what it accepts while paired and not stopped, R272 and R278. -/
def seForward (s : State) (type : Byte) (body : List Byte) : State :=
  if s.se.role = 1 ∧ s.se.link = 2 ∧ !s.se.stopFwd then sendPair s type body else s

/-! ## Reception, R217 -/

def clcDrop (s : State) : State := { s with clc := { s.clc with ctlDrop := bump s.clc.ctlDrop 1, err := setErr s.clc.err 7 } }

/-- Whether a message names a plan by JOB_ID and PLAN_ID. -/
def names (p : Option Plan) (m : ClcMsg) : Bool :=
  match p with | some p => decide (p.job = m.job) && decide (p.planId = m.plan) | none => false

/-- Whether a message names CURRENT or NEXT. -/
def knownPlan (s : State) (m : ClcMsg) : Bool := names s.stn.cur m || names s.stn.next m

/-- Whether R217 ignores a message as a second copy. -/
def secondCopy (s : State) (m : ClcMsg) : Bool :=
  if m.type = tyRing then false
  else if m.type = tyExt then s.clc.exts.any fun p => decide (p.1 = m.step) && decide (m.value.toNat ≤ p.2.toNat)
  else s.clc.seen.contains (m.type, m.src, m.coll, m.step)

/-- A message is handled by its TYPE, R216; in a SHADOW only the outcomes of a RING or NOTIFY are recorded, R272. What this device asks of itself is no message that could come twice: a request that the root raises itself joins those it holds, R225. -/
def clcHandle (s : State) (m : ClcMsg) (own : Bool) : State × Sends :=
  if (!own || decide (m.type = tyExt)) && secondCopy s m then (s, [])
  else
    let s := { s with clc := { s.clc with seen := s.clc.seen ++ [(m.type, m.src, m.coll, m.step)] } }
    if s.se.role = 2 then
      (if m.type = tyRing ∨ m.type = tyNotify then (onNotify s m).1 else if m.type = tyExt then (onExt s m).1 else s, [])
    else match m.type.toNat with
      | 1 => onJoin s m
      | 2 => onSiteJoin s m
      | 3 => onReady s m
      | 4 => onSiteReady s m
      | 5 => onAbortReq s m
      | 6 => onLate s m
      | 7 => onExt s m
      | 8 => onRing s m
      | 9 => onNotify s m
      | 10 => onAbortReply s m
      | 11 => onRebuildReq s m
      | 12 => onRebuilt s m
      | _ => (s, [])

/-- One message leaves: to a rank of another site in the control queue of a far bond, R215 and R511, and inside the site on its control route. -/
def sendMsg (s : State) (dest : Nat) (m : ClcMsg) : State :=
  if siteHead dest = siteHead (myRank s) then emit s (.clc (BitVec.ofNat 15 dest) m)
  else arriveCtl s (Config.ctlRoute m.plan (myRank s) dest).val (.seg 2 (clcBytes m))

/-- Messages go out: one for this device's own rank is handled here, the others leave on their control routes. A SHADOW sends nothing, R272. -/
def clcSend : (fuel : Nat) → State × Sends → State
  | 0, p => p.1
  | _, (s, []) => s
  | n + 1, (s, (dest, m) :: rest) =>
    if s.se.role = 2 then s
    else if dest = myRank s then
      let (s, o) := clcHandle s m true
      clcSend n (s, rest ++ o)
    else clcSend n (sendMsg s dest m, rest)

/-- Sends what a handler has left to send. -/
def clcOut (p : State × Sends) : State := clcSend 100000 p

/-- Whether a message passes the checks of R217. -/
def clcAccepts (s : State) (m : ClcMsg) : Bool :=
  decide (m.crc = clcCrc m) && decide (1 ≤ m.type.toNat) && decide (m.type.toNat ≤ 12) && knownPlan s m

/-- A message that has passed its checks: one that names CURRENT is handled, one that names NEXT waits until NEXT is CURRENT, with its own descriptors and instances. -/
def clcTake (s : State) (m : ClcMsg) : State :=
  if names s.stn.cur m then clcOut (clcHandle s m false) else { s with clc := { s.clc with early := s.clc.early ++ [m] } }

/-- A message arrives, R217: discarded and counted when it fails its checks, handled otherwise. -/
def clcReceive (s : State) (m : ClcMsg) : State :=
  if clcAccepts s m then clcTake (seForward s 0x06 (clcBytes m)) m else clcDrop s

/-- A message arrives in the command of one TYPE; one of a reserved TYPE is discarded and counted, one of another TYPE is no event of this command. A SHADOW takes only what its LEAD forwards, R272. -/
def clcCommand (s : State) (type : Byte) (m : ClcMsg) : State :=
  if s.se.role = 2 then s else if m.type = type then clcReceive s m else if m.type = 0 ∨ 12 < m.type.toNat then clcDrop s else s

def execJoin (m : ClcMsg) (s : State) : Host.Outcome State Fault Refusal := act s (clcCommand s tyJoin m)
def execSiteJoin (m : ClcMsg) (s : State) : Host.Outcome State Fault Refusal := act s (clcCommand s tySiteJoin m)
def execClcReady (m : ClcMsg) (s : State) : Host.Outcome State Fault Refusal := act s (clcCommand s tyReady m)
def execSiteReady (m : ClcMsg) (s : State) : Host.Outcome State Fault Refusal := act s (clcCommand s tySiteReady m)
def execAbortReq (m : ClcMsg) (s : State) : Host.Outcome State Fault Refusal := act s (clcCommand s tyAbortReq m)
def execLate (m : ClcMsg) (s : State) : Host.Outcome State Fault Refusal := act s (clcCommand s tyLate m)
def execExt (m : ClcMsg) (s : State) : Host.Outcome State Fault Refusal := act s (clcCommand s tyExt m)
def execRing (m : ClcMsg) (s : State) : Host.Outcome State Fault Refusal := act s (clcCommand s tyRing m)
def execNotify (m : ClcMsg) (s : State) : Host.Outcome State Fault Refusal := act s (clcCommand s tyNotify m)
def execAbortReply (m : ClcMsg) (s : State) : Host.Outcome State Fault Refusal := act s (clcCommand s tyAbortReply m)
def execRebuildReq (m : ClcMsg) (s : State) : Host.Outcome State Fault Refusal := act s (clcCommand s tyRebuildReq m)
def execRebuilt (m : ClcMsg) (s : State) : Host.Outcome State Fault Refusal := act s (clcCommand s tyRebuilt m)

/-! ## Timers of the root and of a site head -/

/-- Whether a step of CURRENT has begun, in this launch or before. -/
def stepBegun (s : State) (p : Plan) (step : BitVec 32) : Bool :=
  match s.stn.begunTo with
  | some b => decide ((step - p.step0).toNat ≤ (b - p.step0).toNat)
  | none => false

/-- Whether the JOIN of this launch for a collective has fallen due. -/
def joinDue (s : State) (p : Plan) (coll : Nat) (step : BitVec 32) : Bool := s.stn.joined.contains coll && stepBegun s p step

/-- Whether the deadline of step n + D, at which a READY falls due, has passed. -/
def readyDue (s : State) (p : Plan) (c : Desc) (step : BitVec 32) : Bool :=
  let m := step + BitVec.ofNat 32 c.d
  stepBegun s p m && (decide (m ≠ s.stn.step) || s.stn.deadlineDone)

/-- Whether a site head, or the root, still awaits a JOIN or READY of a rank for an instance after it fell due, R240. -/
def awaits (s : State) (coll : Nat) (step : BitVec 32) (r : Nat) : Bool :=
  match s.stn.cur, curDesc s coll with
  | some p, some c =>
    let x := getInst s coll step
    let asHead := isHead s && decide (r ≠ myRank s) && (c.siteMembers (myRank s)).contains r
    let asRoot := isRoot s && c.heads.contains r && decide (r ≠ 0)
    let joined := s.clc.joins.any fun j => decide (j.1 = coll) && decide (j.2.1.toNat = r)
    let ready := x.readies.any fun m => decide (m.src.toNat = r)
    let siteJoined := s.clc.siteJoins.any fun m => decide (m.coll.toNat = coll) && decide (m.src.toNat = r)
    let siteReady := x.siteReadies.any fun m => decide (m.src.toNat = r)
    let asked := s.clc.seen.any fun e => decide (e.1 = tyAbortReq) && decide (e.2.1.toNat = r) && decide (e.2.2.1.toNat = coll) && decide (e.2.2.2 = step)
    let jd := joinDue s p coll step
    let rd := readyDue s p c step
    !asked && ((asHead && ((jd && !joined) || (rd && !ready))) || (asRoot && ((jd && !siteJoined) || (rd && !siteReady))))
  | _, _ => false

/-- MEMBER_LOST_TIMEOUT, R240: an abort request with CE_MEMBER_LOST for the lost rank. -/
def execMemberLostTimeout (coll : Fin 64) (step : BitVec 32) (rank : BitVec 15) (s : State) : Host.Outcome State Fault Refusal :=
  act s (if awaits s coll.val step rank.toNat ∧ s.se.role ≠ 2 then
      let s := { s with clc := { s.clc with lost := s.clc.lost ++ [rank], err := setErr s.clc.err 1 } }
      clcOut (s, abortReq s coll.val step ceMemberLost (some (rank.setWidth 16)) none)
    else s)

/-- ABORT_HOLD_END, R225. -/
def execAbortHoldEnd (coll : Fin 64) (step : BitVec 32) (s : State) : Host.Outcome State Fault Refusal :=
  act s (if isRoot s then clcOut (holdEnd s coll.val step) else s)

/-- RING_RESEND: the root sends the same RING again while no copy has returned, R223 and R224. -/
def execRingResend (coll : Fin 64) (step : BitVec 32) (s : State) : Host.Outcome State Fault Refusal :=
  act s (match curDesc s coll.val, (s.clc.rings ++ s.clc.insts).find? fun i => decide (i.coll = coll.val) && decide (i.step = step) with
    | some c, some x => match x.decision with
      | some d =>
        if isRoot s && !x.ringBack then
          let ring := ringMsg s x d
          clcOut (s, [(nextHead c 0 ring, ring)])
        else s
      | none => s
    | _, _ => s)

/-! ## Aborts asked for here, R228 -/

/-- Whether the plan holds the instance and its first step has begun. -/
def hasInstance (s : State) (coll : Nat) (step : BitVec 32) : Bool :=
  match s.stn.cur, curDesc s coll with
  | some p, some c =>
    stepBegun s p step && Nat.testBit c.bodies (p.bodyOf step)
  | _, _ => false

/-- Raises an ABORT_REQ with CE_ABORTED for the instance named, R228. -/
def clcAbort (s : State) (coll : Nat) (step : BitVec 32) (mbox : Option MboxRec) : State :=
  let s := { s with clc := { s.clc with abortMbox := mbox } }
  if !hasInstance s coll step then abortResult s 3
  else
    let s := { s with clc := { s.clc with abortResult := 0, abortInst := some (coll, step) } }
    clcOut (s, abortReq s coll step ceAborted (some ((curRank s).setWidth 16)) none)

/-- CLC_CTRL.ABORT with COLL, for CLC_ABORT_STEP; a write while the result is PENDING changes nothing, R251. -/
def execClcAbort (coll : Fin 64) (s : State) : Host.Outcome State Fault Refusal :=
  act s (if s.clc.abortResult = 0 then s
    else clcAbort { s with clc := { s.clc with collSel := BitVec.ofNat 6 coll.val } } coll.val s.clc.abortStep none)

/-- CLC CLR_COUNTS, R251. -/
def clcClrCounts (s : State) : State := { s with clc := { s.clc with sealCount := 0, abortCount := 0, lateCount := 0, ctlDrop := 0 } }
def execClcClrCounts (s : State) : Host.Outcome State Fault Refusal := act s (clcClrCounts s)

/-! ## Requests that the step itself raises -/

/-- Collectives that run in a body. -/
def bodyColls (p : Plan) (body : Nat) : List Nat :=
  (List.range p.descs.length).filter fun c => match p.descs[c]? with | some d => Nat.testBit d.bodies body | none => false

/-- An abort request with a code for every collective of the running step, R238 and R232. -/
def raiseStep (s : State) (code : Byte) : State :=
  match s.stn.cur with
  | none => s
  | some p =>
    (bodyColls p s.stn.body).foldl (fun s c => match p.descs[c]? with
      | some d => clcOut (s, abortReq s c (instOfStep p d s.stn.step) code (some ((curRank s).setWidth 16)) none)
      | none => s) s

end Sys2Proof.Machine
end

