-- ==== Sys2Proof/Machine/Straightedge.lean ====
section
/-! DEFINITION. Straightedge pairing, R269 to R285: digests, pair records, comparison and capture, and the commands that receive pair records. -/

namespace Sys2Proof.Machine

/-! ## Digests, R273 -/

def seK : BitVec 64 := 0x93D15B2E47A60C8F

/-- Bytes read as 64-bit little-endian words, the last padded with zero bytes. -/
def words64 (bs : List Byte) : List (BitVec 64) := (chunks 8 (bs.length + 1) bs).map fun c => BitVec.ofNat 64 (leNat c)

/-- `dest_digest`. -/
def destDigest (kind stroke addr : Nat) (ws : List (BitVec 64)) : BitVec 64 :=
  ws.foldl (fun h w => mix64 (h ^^^ w)) (mix64 (seK ^^^ BitVec.ofNat 64 (kind <<< 60) ^^^ BitVec.ofNat 64 (stroke <<< 40) ^^^ BitVec.ofNat 64 addr))

/-- `slot_digest`. -/
def slotDigest (step slot engine : Nat) (ds : List (BitVec 64)) : BitVec 64 :=
  ds.foldl (fun h d => mix64 (h ^^^ d)) (mix64 (seK ^^^ BitVec.ofNat 64 (step <<< 32) ^^^ BitVec.ofNat 64 (slot <<< 8) ^^^ BitVec.ofNat 64 engine))

def mkDest (kind stroke addr : Nat) (bs : List Byte) : Dest :=
  ⟨BitVec.ofNat 4 kind, BitVec.ofNat 16 stroke, BitVec.ofNat 40 addr, destDigest kind stroke addr (words64 bs)⟩

/-! ## Pair records, R279 -/

/-- A received record's SEQ is taken; one whose CRC fails is as if lost. -/
def pairTake (s : State) (h : PairHdr) (f : State → State) : State :=
  if h.crcOk ∧ s.se.role ≠ 0 then f { s with se := { s.se with rxSeq := some h.seq } } else s

/-- First 8 bytes of the hash of CURRENT's signed part; 0 without a plan. -/
def imageHash (s : State) : BitVec 64 := match s.stn.cur with | some p => p.imageHash | none => 0

/-- PAIR_LINK_UP: HELLO is sent, R271. -/
def execPairLinkUp (s : State) : Host.Outcome State Fault Refusal :=
  act s (if s.se.role = 0 then s
    else
      let s := { s with se := { s.se with link := 1, refuse := 0, rxSeq := none } }
      sendPair s 0x01 ([BitVec.ofNat 8 s.se.role.toNat] ++ beBytes 2 0x9640 ++ [0xB1] ++ beBytes 4 (topAsig s).toNat ++ beBytes 8 (imageHash s).toNat))

/-- SE_HELLO: PAIRED when every item of R271 holds, otherwise REFUSED with the first that fails. -/
def seHello (s : State) (h : PairHdr) (role : BitVec 8) (part : BitVec 16) (stepping : BitVec 8) (asig : BitVec 32) (hash : BitVec 64) : State :=
  pairTake s h fun s =>
    let r : BitVec 4 := if role.toNat = s.se.role.toNat then 1 else if part ≠ 0x9640 ∨ stepping ≠ 0xB1 then 2
      else if asig ≠ topAsig s then 3 else if hash ≠ imageHash s then 4 else 0
    { s with se := { s.se with refuse := r, link := if r = 0 then 2 else 3 } }

def execSeHello (h : PairHdr) (role : BitVec 8) (part : BitVec 16) (stepping : BitVec 8) (asig : BitVec 32) (hash : BitVec 64) (s : State) : Host.Outcome State Fault Refusal :=
  act s (seHello s h role part stepping asig hash)

/-! ## Slots and capture, R275 to R278 -/

def findSlot (s : State) (step : BitVec 32) (slot e : Nat) : Option SeSlotRec :=
  s.se.recs.find? fun r => decide (r.step = step) && decide (r.slot = slot) && decide (r.engine = e)

def putSlot (s : State) (x : SeSlotRec) : State :=
  let same := fun r : SeSlotRec => decide (r.step = x.step) && decide (r.slot = x.slot) && decide (r.engine = x.engine)
  if s.se.recs.any same then { s with se := { s.se with recs := s.se.recs.map fun r => if same r then x else r } }
  else { s with se := { s.se with recs := s.se.recs ++ [x] } }

def dropSlot (s : State) (x : SeSlotRec) : State :=
  { s with se := { s.se with recs := s.se.recs.filter fun r => !(decide (r.step = x.step) && decide (r.slot = x.slot) && decide (r.engine = x.engine)) } }

/-- Order of divergences, R276, with steps counted from STEP0. -/
def seBefore (s : State) (a b : BitVec 32 × Nat × Nat) : Bool :=
  let z := match s.stn.cur with | some p => p.step0 | none => 0
  let x := (a.1 - z).toNat
  let y := (b.1 - z).toNat
  decide (x < y) || (decide (x = y) && (decide (a.2.1 < b.2.1) || (decide (a.2.1 = b.2.1) && decide (a.2.2 < b.2.2))))

/-- What ACTION asks for when a divergence is found, R278: a LEAD stops forwarding, and the devices that halt do so, at the first seam that begins after it; a LEAD with no plan RUNNING stops at once. -/
def seAct (s : State) : State :=
  if s.se.action = 0 then s
  else
    let s := if s.se.role = 1 then (if s.stn.place = .running then { s with se := { s.se with stopAsked := true } } else { s with se := { s.se with stopFwd := true } }) else s
    if (s.se.role = 2 ∨ s.se.action = 2) ∧ s.stn.place = .running then { s with stn := { s.stn with haltReq := true } } else s

/-- FINAL is set once nothing up to the captured step is still uncompared, R276. -/
def seFinal (s : State) : State :=
  match s.se.cap with
  | none => s
  | some c =>
    let z := match s.stn.cur with | some p => p.step0 | none => 0
    let open_ := s.se.recs.any fun r => decide ((r.step - z).toNat ≤ (c.step - z).toNat) && !r.compared && !r.unchecked
    let past := decide ((c.step - z).toNat < (s.stn.step - z).toNat) || (decide (c.step = s.stn.step) && !s.stn.stepRunning)
    if past && !open_ then { s with se := { s.se with cap := some { c with final := true } } } else s

/-- Captures the address of a divergence at record i when it is the captured one, R277. -/
def seAddr (s : State) (r : SeSlotRec) (d : Dest) (loc peer : BitVec 64) : State :=
  match s.se.cap with
  | none => s
  | some c =>
    if c.step = r.step ∧ c.slot = r.slot ∧ c.engine = r.engine ∧ c.addr.isNone then
      { s with se := { s.se with cap := some { c with addr := some (d.kind, d.stroke, d.addr), loc := loc, peer := peer } } }
    else s

/-- The digests of a slot differ: the lowest divergence is captured, the records are asked for, and ACTION is taken, R276 to R278. -/
def seDiverge (s : State) (r : SeSlotRec) (loc peer : BitVec 64) (count : Nat) : State :=
  let s := putSlot s { r with compared := true, diverged := true, peerCount := count }
  let here := (r.step, r.slot, r.engine)
  let lower := match s.se.cap with
    | none => true
    | some c => seBefore s here (c.step, c.slot, c.engine)
  let s := if lower then { s with se := { s.se with cap := some ⟨r.step, r.slot, r.engine, loc, peer, none, false⟩ } } else s
  let s := if r.lost then { s with se := { s.se with addrLost := bump s.se.addrLost 1 } } else s
  let s := sendPair s 0x03 (beBytes 4 r.step.toNat ++ beBytes 2 r.slot ++ [BitVec.ofNat 8 r.engine])
  let s := if !r.lost && decide (count = 0) then
      (match r.dests with | d :: _ => seAddr s r d d.digest 0 | [] => s) else s
  seFinal (seAct s)

/-- Compares a closed slot with the peer's digest, R275. -/
def seCompare (s : State) (r : SeSlotRec) (peer : BitVec 64) (count : Nat) : State :=
  match r.digest with
  | none => s
  | some d =>
    let s := { s with se := { s.se with slotCount := bump s.se.slotCount 1 } }
    if d = peer then seFinal (dropSlot s r) else seDiverge s r d peer count

/-- SE_SLOT: compared at once, or kept until this device has closed the slot, R275. -/
def seSlot (s : State) (h : PairHdr) (step : BitVec 32) (slot : BitVec 16) (e : Fin 64) (count : BitVec 32) (digest : BitVec 64) : State :=
  pairTake s h fun s =>
    match findSlot s step slot.toNat e.val with
    | some r =>
      if r.compared || r.unchecked then s
      else if r.digest.isSome then seCompare s r digest count.toNat
      else { s with se := { s.se with peer := s.se.peer ++ [(step, slot.toNat, e.val, digest, count.toNat)] } }
    | none => { s with se := { s.se with peer := s.se.peer ++ [(step, slot.toNat, e.val, digest, count.toNat)] } }

def execSeSlot (h : PairHdr) (step : BitVec 32) (slot : BitVec 16) (e : Fin 64) (count : BitVec 32) (digest : BitVec 64) (s : State) : Host.Outcome State Fault Refusal :=
  act s (seSlot s h step slot e count digest)

/-- The body of a DEST record, R279; a lost slot answers with the LOST flag, 0xFF in place of KIND. -/
def destBody (step : BitVec 32) (slot e i : Nat) (d : Option Dest) : List Byte :=
  beBytes 4 step.toNat ++ beBytes 2 slot ++ [BitVec.ofNat 8 e] ++ beBytes 4 i ++ (match d with
    | some d => [BitVec.ofNat 8 d.kind.toNat] ++ beBytes 2 d.stroke.toNat ++ beBytes 5 d.addr.toNat ++ beBytes 8 d.digest.toNat
    | none => [0xFF])

/-- SE_DEST_REQ: the records of the slot are sent, R277. -/
def seDestReq (s : State) (h : PairHdr) (step : BitVec 32) (slot : BitVec 16) (e : Fin 64) : State :=
  pairTake s h fun s =>
    match findSlot s step slot.toNat e.val with
    | none => sendPair s 0x04 (destBody step slot.toNat e.val 0 none)
    | some r =>
      if r.lost then sendPair s 0x04 (destBody step slot.toNat e.val 0 none)
      else ((List.range r.dests.length).zip r.dests).foldl (fun s p => sendPair s 0x04 (destBody step slot.toNat e.val p.1 (some p.2))) s

def execSeDestReq (h : PairHdr) (step : BitVec 32) (slot : BitVec 16) (e : Fin 64) (s : State) : Host.Outcome State Fault Refusal :=
  act s (seDestReq s h step slot e)

/-- SE_DEST: the first index at which KIND, stroke, ADDR or digest differ gives the captured address, R277. -/
def seDest (s : State) (h : PairHdr) (step : BitVec 32) (slot : BitVec 16) (e : Fin 64) (idx : BitVec 32) (d : Option DestRec) : State :=
  pairTake s h fun s =>
    match findSlot s step slot.toNat e.val, d with
    | some r, some p =>
      if !r.diverged || r.lost || decide (r.agree ≠ idx.toNat) then s
      else match r.dests[idx.toNat]? with
        | none => seAddr s r ⟨p.kind, p.stroke, p.addr, p.digest⟩ 0 p.digest
        | some own =>
          if own.kind = p.kind ∧ own.stroke = p.stroke ∧ own.addr = p.addr ∧ own.digest = p.digest then
            let s := putSlot s { r with agree := r.agree + 1 }
            if r.agree + 1 = r.peerCount then (match r.dests[r.agree + 1]? with | some x => seAddr s r x x.digest 0 | none => s) else s
          else seAddr s r own own.digest p.digest
    | some r, none => if r.diverged && !r.lost then { putSlot s { r with lost := true } with se := { (putSlot s { r with lost := true }).se with addrLost := bump s.se.addrLost 1 } } else s
    | none, _ => s

def execSeDest (h : PairHdr) (step : BitVec 32) (slot : BitVec 16) (e : Fin 64) (idx : BitVec 32) (d : Option DestRec) (s : State) : Host.Outcome State Fault Refusal :=
  act s (seDest s h step slot e idx d)

/-- SE_CTL: a SHADOW handles the LEAD's message as received; R272. -/
def seCtl (s : State) (h : PairHdr) (m : ClcMsg) : State :=
  pairTake s h fun s => if s.se.role = 2 then clcReceive s m else s

def execSeCtl (h : PairHdr) (m : ClcMsg) (s : State) : Host.Outcome State Fault Refusal :=
  act s (seCtl s h m)

/-- The slots of steps that will run again, or that another plan will run, are forgotten with what the peer sent of them, R274. -/
def seForget (drop : BitVec 32 → Bool) (s : State) : State :=
  { s with se := { s.se with recs := s.se.recs.filter fun r => !drop r.step, peer := s.se.peer.filter fun q => !drop q.1 } }

/-- At the seam of step m, a SLOT record of step m − 2 or earlier that has not come leaves its slot unchecked, R275. -/
def seSeam (s : State) : State :=
  let late := fun r : SeSlotRec => decide (2 ≤ (s.stn.step - r.step).toNat) && decide ((s.stn.step - r.step).toNat < 2 ^ 31) && !r.compared && !r.unchecked
  let n := (s.se.recs.filter late).length
  let recs := (s.se.recs.map fun r => if late r then { r with unchecked := true } else r).filter fun r => !(r.unchecked && !r.diverged)
  seFinal { s with se := { s.se with recs := recs, unchecked := bump s.se.unchecked n, stopFwd := s.se.stopFwd || s.se.stopAsked, stopAsked := false } }

/-- Records that an engine's buffer holds: those of its slots that are not marked lost, R277. -/
def seHeld (s : State) (e : Nat) : Nat :=
  (s.se.recs.filter fun r => decide (r.engine = e) && !r.lost).foldl (fun n r => n + r.dests.length) 0

/-- While an engine's buffer holds more than 16,384 records, its oldest unconfirmed slot is marked lost, R277: one not compared yet, or else one that has diverged. -/
def seTrim (e : Nat) : (fuel : Nat) → State → State
  | 0, s => s
  | n + 1, s =>
    if seHeld s e ≤ 16384 then s
    else
      let mine := s.se.recs.filter fun r => decide (r.engine = e) && !r.lost
      match (mine.filter (fun r => !r.compared) ++ mine).head? with
      | some r => seTrim e n (putSlot s { r with lost := true })
      | none => s

/-- Adds the destination records of a stroke to its slot, R274. The digest of a lost slot still covers all of them. -/
def seAdd (s : State) (slot e : Nat) (ds : List Dest) : State :=
  if s.se.role = 0 ∨ ds.isEmpty then s
  else
    let r := (findSlot s s.stn.step slot e).getD { step := s.stn.step, slot := slot, engine := e }
    let s := putSlot s { r with dests := r.dests ++ ds }
    seTrim e s.se.recs.length s

/-- Records of a slot in the order of R274: by stroke index, and within a stroke as they were made. -/
def destOrder (ds : List Dest) : List Dest :=
  ds.foldl (fun acc d => (acc.filter fun x => x.stroke.toNat ≤ d.stroke.toNat) ++ [d] ++ (acc.filter fun x => d.stroke.toNat < x.stroke.toNat)) []

/-- An engine's last stroke in a slot has made its last write: the slot's digest closes and a SLOT record is sent, R274 and R275. -/
def seClose (s : State) (slot e : Nat) : State :=
  if s.se.role = 0 then s
  else
    let r := (findSlot s s.stn.step slot e).getD { step := s.stn.step, slot := slot, engine := e }
    let ds := destOrder r.dests
    let dg := slotDigest s.stn.step.toNat slot e (ds.map (·.digest))
    let r := { r with dests := ds, digest := some dg }
    let s := putSlot s r
    let s := sendPair s 0x02 (beBytes 4 r.step.toNat ++ beBytes 2 slot ++ [BitVec.ofNat 8 e, 0] ++ beBytes 4 ds.length ++ beBytes 8 dg.toNat)
    match s.se.peer.find? fun p => decide (p.1 = r.step) && decide (p.2.1 = slot) && decide (p.2.2.1 = e) with
    | none => s
    | some p =>
      let s := { s with se := { s.se with peer := s.se.peer.filter fun q => !decide (q = p) } }
      seCompare s r p.2.2.2.1 p.2.2.2.2

/-! ## SE_CTRL, R282 -/

/-- CLR_CAPTURE. -/
def clrCapture (s : State) : State := { s with se := { s.se with cap := none } }
def execClrCapture (s : State) : Host.Outcome State Fault Refusal := act s (clrCapture s)

/-- CLR_COUNTS of SE_CTRL. -/
def seClrCounts (s : State) : State := { s with se := { s.se with slotCount := 0, unchecked := 0, addrLost := 0 } }
def execSeClrCounts (s : State) : Host.Outcome State Fault Refusal := act s (seClrCounts s)

/-- A write of PAIR_PORTS, ACTION and ROLE: ROLE and PAIR_PORTS stay while a plan is held. -/
def seRoleWrite (s : State) (v : BitVec 32) : State :=
  let s := { s with se := { s.se with action := BitVec.ofNat 2 (bitsOf v.toNat 7 6) } }
  if s.stn.place ≠ .none ∨ s.stn.next.isSome then s
  else { s with se := { s.se with ports := BitVec.ofNat 16 (v.toNat / 65536), role := BitVec.ofNat 2 (bitsOf v.toNat 5 4), stopFwd := false, stopAsked := false } }

def execSeRoleWrite (value : BitVec 32) (s : State) : Host.Outcome State Fault Refusal := act s (seRoleWrite s value)

end Sys2Proof.Machine
end

