-- ==== Sys2Proof/Machine/Skim.lean ====
section
/-! DEFINITION. Skim, chapter 04: its tables, the table slots and their commands, encoding, sub-stream queues, residual storage and the catch-up area. -/

namespace Sys2Proof.Machine

/-! ## The tables that a plan sets, R158 and R159 -/

def skmWord (t : SkmTables) (off : Nat) : Nat := (Tab.get 0 t off).toNat

/-- A channel table entry. -/
structure Chan where
  valid : Bool
  ll : Bool
  fmt : BitVec 4
  resFmt : Nat
  resRm : Nat
  loop : Bool
  destQ : Nat
  region : Nat
  tile0 : Nat
  bankTiles : Nat
  origin : Nat
deriving DecidableEq, Repr

def chanOf (t : SkmTables) (c : Nat) : Chan :=
  let w := skmWord t (0x4000 + 0x20 * c)
  let r := skmWord t (0x4004 + 0x20 * c)
  ⟨w.testBit 31, w.testBit 30, BitVec.ofNat 4 (bitsOf w 27 24), bitsOf w 23 22, bitsOf w 21 20, w.testBit 19, bitsOf w 7 0, bitsOf r 31 24, bitsOf r 23 0, bitsOf (skmWord t (0x4008 + 0x20 * c)) 23 0, skmWord t (0x400C + 0x20 * c) + 2 ^ 32 * (skmWord t (0x4010 + 0x20 * c) % 65536)⟩

/-- A sub-stream entry. -/
structure SubS where
  valid : Bool
  ll : Bool
  resid : Bool
  fmt : BitVec 4
  rchan : Nat
  kind : Nat
  engine : Nat
  iq : Nat
  region : Nat
  tile0 : Nat
deriving DecidableEq, Repr

def subOf (t : SkmTables) (n : Nat) : SubS :=
  let w := skmWord t (0x8000 + 0x10 * n)
  let d := skmWord t (0x8004 + 0x10 * n)
  let h := skmWord t (0x8008 + 0x10 * n)
  ⟨w.testBit 31, w.testBit 30, w.testBit 29, BitVec.ofNat 4 (bitsOf w 27 24), bitsOf w 23 16, bitsOf d 31 30, bitsOf d 29 24, bitsOf d 23 21, bitsOf h 31 24, bitsOf h 23 0⟩

/-- Sub-stream that a source and channel are steered to, R137 and R159. -/
def steerOf (t : SkmTables) (src ch : Nat) : Option Nat :=
  let k := 256 * src + ch
  let w := skmWord t (0xA000 + 4 * (k / 2))
  let e := if k % 2 = 0 then w % 65536 else w / 65536
  if e.testBit 15 then some (e % 256) else none

def State.chan (s : State) (c : Nat) : Chan := chanOf s.skm.tables c
def State.sub (s : State) (n : Nat) : SubS := subOf s.skm.tables n
def State.subQ (s : State) (n : Nat) : List (List Byte) := Tab.get [] s.skm.subq n
def setSubQ (s : State) (n : Nat) (q : List (List Byte)) : State := { s with skm := { s.skm with subq := Tab.put [] s.skm.subq n q } }

def skmErr (s : State) (i : Nat) : State := { s with skm := { s.skm with err := setErr s.skm.err i } }

/-- A unit or tile is discarded: UNIT_DROP, R137, R138 and R144. -/
def unitDrop (s : State) : State := skmErr { s with skm := { s.skm with dropCount := bump s.skm.dropCount 1 } } 2

/-! ## Table slots, R145 to R149 -/

def State.tslot (s : State) (e : Nat) : TblSlot := s.skm.slots.getD e {}
def setTslot (s : State) (e : Nat) (x : TblSlot) : State := { s with skm := { s.skm with slots := s.skm.slots.set e x } }

/-- Code lengths of a slot that decodes: LOADED, ACTIVE or DRAINING. -/
def slotLens (s : State) (e : Nat) : Option (List (BitVec 4)) :=
  let t := s.tslot e
  if t.st = .empty then none else some t.lens

/-- The ACTIVE slot and its lengths. -/
def activeTable (s : State) : Option (Nat × List (BitVec 4)) :=
  ([0, 1].find? fun e => decide ((s.tslot e).st = .active)).map fun e => (e, (s.tslot e).lens)

/-- SKM_TBL_STATUS.RESULT takes a code, and TBL_REFUSED is set by a code other than 0. -/
def tblResult (s : State) (code : Nat) : State :=
  let s := { s with skm := { s.skm with result := BitVec.ofNat 4 code } }
  if code = 0 then s else skmErr s 5

/-- The 140 bytes of the staging window. -/
def stageBytes (s : State) : List Byte := (List.range 35).flatMap fun i => leBytes 4 (Tab.get 0 s.skm.stage i).toNat

/-- LOAD: it starts into the lower-numbered EMPTY slot. -/
def tblLoad (s : State) : State :=
  if s.skm.busy then tblResult s 5
  else match [0, 1].find? fun e => decide ((s.tslot e).st = .empty) with
    | none => tblResult s 1
    | some e => { s with skm := { s.skm with busy := true, loadSlot := e } }

/-- The LOAD ends with its checks, R145. -/
def tblLoadDone (s : State) : State :=
  if !s.skm.busy then s
  else
    let b := stageBytes s
    let lens := (slice b 8 128).flatMap fun x => [BitVec.ofNat 4 (x.toNat % 16), BitVec.ofNat 4 (x.toNat / 16)]
    let s := { s with skm := { s.skm with busy := false } }
    if crc32c (b.take 136) ≠ BitVec.ofNat 32 (leAt b 136 4) then tblResult s 2
    else if oversubscribed lens then tblResult s 3
    else tblResult (setTslot s s.skm.loadSlot ⟨.loaded, BitVec.ofNat 32 (leAt b 0 4), lens⟩) 0

/-- ACTIVATE slot e; the slot that was ACTIVE becomes LOADED. -/
def tblActivate (s : State) (e : Nat) : State :=
  if s.skm.busy then tblResult s 5
  else if (s.tslot e).st ≠ .loaded then tblResult s 4
  else
    let o := 1 - e
    let s := if (s.tslot o).st = .active then setTslot s o { s.tslot o with st := .loaded } else s
    tblResult (setTslot s e { s.tslot e with st := .active }) 0

/-- RETIRE slot e. -/
def tblRetire (s : State) (e : Nat) : State :=
  if s.skm.busy then tblResult s 5
  else if (s.tslot e).st ≠ .loaded then tblResult s 4
  else tblResult (setTslot s e { s.tslot e with st := .draining }) 0

def skmClrCounts (s : State) : State :=
  { s with skm := { s.skm with dropCount := 0, epochDropCount := 0, clampCount := 0, rawCount := 0, poisonCount := 0 } }

/-- A write of SKM_CTRL, R153. -/
def skmCtrlWrite (s : State) (v : BitVec 32) : State :=
  let s := if v.getLsbD 5 then skmClrCounts s else s
  let e := b2n (v.getLsbD 4)
  let n := b2n (v.getLsbD 1) + b2n (v.getLsbD 2) + b2n (v.getLsbD 3)
  if n = 0 then s
  else if 1 < n then tblResult s 5
  else if v.getLsbD 1 then tblLoad s
  else if v.getLsbD 2 then tblActivate s e
  else tblRetire s e

def execSkmTblLoad (s : State) : Host.Outcome State Fault Refusal := act s (tblLoad s)
def execSkmTblLoadDone (s : State) : Host.Outcome State Fault Refusal := act s (tblLoadDone s)
def execSkmActivate (slot : Fin 2) (s : State) : Host.Outcome State Fault Refusal := act s (tblActivate s slot.val)
def execSkmRetire (slot : Fin 2) (s : State) : Host.Outcome State Fault Refusal := act s (tblRetire s slot.val)
def execSkmClrCounts (s : State) : Host.Outcome State Fault Refusal := act s (skmClrCounts s)

/-! ## Requests and the catch-up area, R233 to R239 -/

/-- The federation collective of CURRENT that a channel serves: its number and descriptor. -/
def fedColl (s : State) (chan : Nat) : Option (Nat × Desc) :=
  match s.stn.cur with
  | none => none
  | some p => (((List.range p.descs.length).zip p.descs).find? fun d => decide (d.2.topLevel = 7) && decide (d.2.fedChan = chan))

/-- CE_BUFFER_EXHAUSTED for a unit, R239: for the federation instance that the unit belongs to, or else for the collectives of the step. -/
def bufferExhausted (s : State) (b : List Byte) : State :=
  match fedColl s (unitHdr b).chan with
  | some (c, _) => clcOut (s, abortReq s c (unitHdr b).step ceBufferExhausted (some ((curRank s).setWidth 16)) none)
  | none => raiseStep s ceBufferExhausted

/-- Lowest tile place of a catch-up area that no unit holds. -/
def freePlace (s : State) (c : Nat) (d : Desc) : Option Nat :=
  (List.range (2 * (d.d + 1) * d.fedUnits * d.m7)).find? fun k => !s.clc.catchup.any fun u => decide (u.coll = c) && decide (u.place = k)

/-- Writes a federation unit to the catch-up area, R234; false when no tile place is free. -/
def catchupWrite (s : State) (source : Nat) (received : Bool) (b : List Byte) : Bool × State :=
  match fedColl s (unitHdr b).chan with
  | none => (true, s)
  | some (c, d) =>
    let decided := match findInst s c (unitHdr b).step with | some x => x.recorded | none => false
    if decided then (true, s)
    else match freePlace s c d with
      | none => (false, s)
      | some k =>
        let s := { s with clc := { s.clc with catchup := s.clc.catchup ++ [⟨k, c, (unitHdr b).step, source, received, b, false⟩] } }
        (true, match regionTile s d.catchup k with
          | some dha => writeTile s dha 2 b
          | none => s)

/-- Marks the first of some units as consumed. -/
def markConsumed (f : CatchUnit → Bool) : List CatchUnit → List CatchUnit
  | [] => []
  | u :: l => if f u then { u with consumed := true } :: l else u :: markConsumed f l

/-- Marks the copy of a unit that an SKDEC takes from sub-stream n: the first not yet consumed with these bytes that came to this sub-stream, from a bond or by loopback, R236. -/
def catchupConsumed (s : State) (n : Nat) (b : List Byte) : State :=
  let here := fun u : CatchUnit => !u.consumed && decide (u.bytes = b) && decide (steerOf s.skm.tables u.source (unitHdr b).chan = some n) && (u.received || (s.chan (unitHdr b).chan).loop)
  { s with clc := { s.clc with catchup := markConsumed here s.clc.catchup } }

/-- The unit that a sub-stream delivers next: the oldest, but of a federation channel's units the oldest of step n − D, for those of other steps are held apart, R233. -/
def pickUnit (s : State) (n : Nat) : Option (List Byte) :=
  (s.subQ n).find? fun b => match fedColl s (unitHdr b).chan with
    | some (_, d) => decide ((unitHdr b).step = s.stn.step - BitVec.ofNat 32 d.d)
    | none => true

/-! ## The receive side, R137 to R139 and R149 -/

/-- Whether a unit passes the checks of R138 on a sub-stream. -/
def unitOk (x : SubS) (b : List Byte) : Bool :=
  let h := unitHdr b
  decide (16 ≤ b.length) && decide (16 + h.len ≤ b.length) && decide (h.ll = x.ll) && decide (h.fmt = x.fmt)
    && (if h.ll then decide (h.len ≤ llMaxLen h.fmt) else decide (h.len = skLen h.fmt) && lossyCrcOk b)

/-- Slot that coded a unit: EPOCH of its first block. -/
def unitEpoch (b : List Byte) : Nat := b2n (((unitPayload b).headD 0).getLsbD 6)

/-- Whether a table-coded unit names a slot that holds its table, R149. -/
def epochOk (s : State) (b : List Byte) : Bool :=
  let h := unitHdr b
  let t := s.tslot (unitEpoch b)
  !(h.ll && h.tab) || (decide (t.st ≠ .empty) && decide (t.id.toNat % 65536 = h.tag))

/-- Units that a sub-stream holds under CURRENT, R174. -/
def subRoom (s : State) (n : Nat) : Nat := planBudget s.stn.cur 0x03 n

/-- A coded unit reaches the receive side, without the decoding that may follow: R137, R138, R149, R234, R239, and R272 for a LEAD. -/
def unitQueue (s : State) (src : Nat) (bytes : List Byte) : State :=
  if bytes.isEmpty then unitDrop s
  else match steerOf s.skm.tables src (unitHdr bytes).chan with
    | none => unitDrop s
    | some n =>
      let x := s.sub n
      if !x.valid || x.resid || !unitOk x bytes then unitDrop s
      else
        let b := bytes.take (16 + (unitHdr bytes).len)
        let s := if src < 16 then seForward s 0x05 (BitVec.ofNat 8 src :: b) else s
        if !epochOk s b then skmErr { s with skm := { s.skm with epochDropCount := bump s.skm.epochDropCount 1 } } 3
        else if subRoom s n ≤ (s.subQ n).length then bufferExhausted s b
        else
          let (ok, s) := if src < 16 then catchupWrite s src true b else (true, s)
          if ok then setSubQ s n (s.subQ n ++ [b]) else bufferExhausted s b

/-! ## Lossless decoding to HBM, R139 and R144 -/

/-- Decodes the unit at the head of a lossless sub-stream: the tile, or what is left of it. -/
def decodeLossless (s : State) (b : List Byte) : List Byte × State :=
  (llDecode (unitHdr b).fmt (slotLens s) (freeNat s) (unitPayload b), { s with fresh := s.fresh + 1 })

/-- Delivers the units of a lossless sub-stream whose destination is HBM. -/
def drainHbm (n : Nat) : (fuel : Nat) → State → State
  | 0, s => s
  | k + 1, s =>
    let x := s.sub n
    match pickUnit s n with
    | none => s
    | some b =>
      if x.valid && x.ll && decide (x.kind = 2) then
        let (tile, s) := decodeLossless (setSubQ s n ((s.subQ n).erase b)) b
        let t := x.tile0 + (unitHdr b).unit
        let s := if crc32c tile = (unitHdr b).crc then
            (match regionTile s x.region t with
              | some dha => mirrorOut (writeTile s dha 0 tile) x.region t 0 tile
              | none => s)
          else unitDrop s
        drainHbm n k s
      else s

/-! ## Encoding, R125 to R134 and R140 to R143 -/

/-- What an engine sends reaches an output queue; in a SHADOW it is digested and dropped, R272. -/
def sendArrive (s : State) (q : Nat) (it : QItem) (isSend : Bool) : Arrival × State :=
  if s.se.role = 2 then (.entered, s) else arrive s q it isSend

/-- A unit goes to its output queue and, with LOOP, to source 16; one of a federation channel is also written to the catch-up area, R234. -/
def sendUnit (s : State) (x : Chan) (b : List Byte) : State :=
  let (ok, s) := catchupWrite s 16 false b
  if ok then
    let s := (sendArrive s x.destQ (.seg 1 b) false).2
    if x.loop then unitQueue s 16 b else s
  else bufferExhausted s b

/-- A lossless unit of a SEND that its queue has room for: the catch-up area, the queue and loopback as for a coded unit, R234 and R239. -/
def sendLossless (s : State) (c q : Nat) (u : List Byte) : State :=
  let (ok, s) := catchupWrite s 16 false u
  if ok then
    let s := (sendArrive s q (.seg 1 u) true).2
    if (s.chan c).loop then unitQueue s 16 u else s
  else bufferExhausted s u

/-- Rounding mode of a two-bit field. -/
def rmOf (v : Nat) : Rm := if v = 1 then .rtz else if v = 2 then .sr else .rne

/-- Stochastic-rounding rank of R51: the rank with the fields cleared that RKSEL names, R91. -/
def srRank (s : State) (rksel : Nat) : Nat :=
  let r := myRank s
  if rksel = 1 then r - rankSite r * 256 else if rksel = 2 then r % 256 else r

/-- Random word of R51 for CURRENT's running step. -/
def srDraw (s : State) (rksel stream index : Nat) : Nat :=
  match s.stn.cur with
  | some p => srWord p.seed s.stn.step.toNat (srRank s rksel) (stream % 256) (index % 2 ^ 48)
  | none => 0

/-- Writes a residual tile place of the next bank, R133 and R135. -/
def writeResidual (s : State) (x : Chan) (place : Nat) (kind : BitVec 2) (bs : List Byte) : State :=
  let b := (s.stn.step.toNat + 1) % 2
  let t := x.tile0 + b * x.bankTiles + place
  match regionTile s x.region t with
  | some dha => mirrorOut (writeTile s dha kind bs) x.region t kind bs
  | none => s

/-- Elements of a residual tile place. -/
def resPlace (resFmt : Nat) : Nat := if resFmt = 2 then 2048 else 1024

/-- What coding one unit gives: the unit, its residual in bytes, clamped and saturated elements, poisoned blocks, and the elements that raise the non-finite flag. -/
structure EncOut where
  unit : List Byte
  resid : List Byte
  clamps : Nat
  resClamps : Nat
  sats : Nat
  poisoned : Nat
  nf : List Nat
deriving DecidableEq, Repr

/-- Codes 1,024 FP32 elements whose first has element index idx, R125 to R132. -/
def encodeUnit (s : State) (c : Nat) (x : Chan) (f : BitVec 4) (mode : Rm) (rksel stream idx : Nat) (codes : List Nat) : EncOut :=
  let r32 := fun (m : Rm) (st j : Nat) => if m = .sr then srDraw s rksel st (idx + j) else 0
  let xs := ((List.range 1024).zip codes).map fun e => (decodeNum fp32 e.2, r32 mode stream e.1)
  let bs := encBlocks f mode xs
  let rm := rmOf x.resRm
  let diffs := (List.range 1024).zip (bs.flatMap (·.diffs))
  let ds := diffs.map fun e => (e.2, r32 rm (stream + 1) e.1)
  let dfmt : BitVec 4 := if x.resFmt = 2 then 2 else 1
  let rounded := if x.resFmt = 1 ∨ x.resFmt = 2 then ds.map fun e => roundNum e.1 dfmt rm e.2 true else []
  let rblocks := if x.resFmt = 3 then encBlocks 0xC rm ds else []
  { unit := lossyUnit c f (idx / 1024) s.stn.step (blocksPayload f bs), resid := if x.resFmt = 3 then blocksPayload 0xC rblocks else elemBytes dfmt (rounded.map (·.code)), clamps := bs.foldl (fun n b => n + b.clamps) 0, resClamps := rblocks.foldl (fun n b => n + b.clamps) 0, sats := (rounded.filter (·.sat)).length, poisoned := (bs.filter (·.poisoned)).length, nf := ((List.range 1024).zip xs).filterMap fun e => if e.2.1.isFinite then none else some e.1 }

/-- SKM counters and flags of a coded unit, R129 and R157. -/
def countEnc (s : State) (o : EncOut) : State :=
  let k := s.skm
  let cl := o.clamps + o.resClamps
  let k := { k with clampCount := bump k.clampCount cl, poisonCount := bump k.poisonCount o.poisoned }
  let k := { k with err := if cl = 0 then k.err else setErr k.err 1 }
  { s with skm := { k with err := if o.poisoned = 0 then k.err else setErr k.err 0 } }

/-- The lossless channel that a tile of a SEND to an output queue passes through, if the plan binds one. -/
def losslessChan (s : State) (q : Nat) (f : BitVec 4) : Option Nat :=
  (List.range 256).find? fun c => let x := s.chan c; x.valid && x.ll && decide (x.destQ = q) && decide (x.fmt = f)

/-- The lossless unit of a tile and its number of raw blocks, R140 to R143. -/
def losslessUnit (s : State) (c : Nat) (f : BitVec 4) (tileNo : Nat) (crc : BitVec 32) (tile : List Byte) : List Byte × Nat :=
  let t := activeTable s
  let (p, raw) := llEncode f t tile
  let tag := match t with
    | some (e, _) => (s.tslot e).id.toNat % 65536
    | none => 0
  let h : UnitHdr := ⟨c, f, true, t.isSome, tileNo % 65536, s.stn.step, p.length, tag, crc⟩
  (h.bytes ++ p, raw)

/-! ## Reading SK8 residuals, R136 -/

/-- The next unit of a RESID sub-stream: its bytes, none when the bank is used up, and whether it was read at all. A read that fails its check sets RES_CRC, and the unit is not delivered. -/
def nextResid (s : State) (n : Nat) : Option (Option (List Byte)) × State :=
  let x := s.sub n
  let c := s.chan x.rchan
  let k := Tab.get 0 s.skm.resNext n
  if c.bankTiles ≤ k then (none, s)
  else match regionTile s c.region (c.tile0 + s.stn.step.toNat % 2 * c.bankTiles + k) with
    | none => (none, s)
    | some dha =>
      let s := { s with skm := { s.skm with resNext := Tab.put 0 s.skm.resNext n (k + 1) } }
      let (ok, bs, s) := readTile s dha
      if ok then (some (some (lossyUnit x.rchan 0xC (c.origin / 1024 + k) (s.stn.step - 1) (padTo 0 1056 bs))), s)
      else
        let s := skmErr s 4
        (some none, { s with stn := { s.stn with resFailed := true } })

end Sys2Proof.Machine
end

