-- ==== Sys2Proof/Machine/Mirror.lean ====
section
/-! DEFINITION. Mirror parity and the rebuild of a lost member, R241 to R244: what a holder of parity forms in a step, and how a spare is bound, gathers its tiles and its twin's catch-up area, and reports. -/

namespace Sys2Proof.Machine

/-- The tile of a member in a codeword that is gathered, if it has come. -/
def MWord.tile (w : MWord) (m : Nat) : Option (List Byte) := (w.got.find? fun g => decide (g.1 = m)).map (·.2.2)

/-- What member `me` holds of a codeword, formed from the tiles that came: parity from the 14 data tiles, R242; a data tile from P, from Q where P is lost too, and from both where another data tile is lost, R243 and R244. None while tiles are missing. -/
def MWord.mine (w : MWord) (me : Nat) (lost : List Nat) : Option (List Byte) :=
  let others := (dataMembers w.word).filter fun m => decide (m ≠ me)
  let have_ := others.filterMap fun m => (w.tile m).map fun b => (m, b)
  if me / 2 = w.word then
    (if have_.length = 14 then some (if me % 2 = 0 then parityP have_ else parityQ have_) else none)
  else if have_.length = 13 then
    (match w.tile (2 * w.word) with
      | some p => some (rebuildFromP p have_)
      | none => if lost.contains (2 * w.word) then (w.tile (2 * w.word + 1)).map fun q => rebuildFromQ me q have_ else none)
  else match others.filter fun m => lost.contains m, w.tile (2 * w.word), w.tile (2 * w.word + 1) with
    | [b], some p, some q => if have_.length = 12 then some (rebuildTwo me b p q have_).1 else none
    | _, _, _ => none

/-- The codeword that a tile of member m in one of its regions belongs to, empty as yet, with its collective. -/
def wordAt (s : State) (m : Nat) (step : BitVec 32) (r t : Nat) : Option (Nat × MWord) :=
  let inRegion := match curRegion s r with | some g => decide (t < g.tiles) | none => false
  if !inRegion then none
  else match (mirrorPairs s).find? fun x => decide (x.2.1 = r) with
    | some x => some (x.1, { step := step, region := r, parity := x.2.2, group := t / 7, word := wordOf m (t % 7) })
    | none => match (mirrorPairs s).find? fun x => decide (x.2.2 = r) with
      | some x => some (x.1, { step := step, region := x.2.1, parity := r, group := t, word := m / 2 })
      | none => none

def MWord.same (w v : MWord) : Bool := decide (v.step = w.step) && decide (v.region = w.region) && decide (v.group = w.group) && decide (v.word = w.word)

def putWord (s : State) (w : MWord) : State :=
  { s with clc := { s.clc with words := (s.clc.words.filter fun v => !w.same v) ++ [w] } }

/-- Region and tile of what member `me` holds of a codeword. -/
def MWord.spot (w : MWord) (me : Nat) : Nat × Nat := if me / 2 = w.word then (w.parity, w.group) else (w.region, 7 * w.group + mirrorTile me w.word)

/-- This member's tile of a codeword is written to its region: a parity tile with KIND 0, a data tile with the KIND of the other members' tiles. -/
def storeWord (s : State) (w : MWord) (bs : List Byte) : State :=
  let me := rankMember (myRank s)
  let x := w.spot me
  let kind : BitVec 2 := if me / 2 = w.word then 0 else ((w.got.find? fun g => (dataMembers w.word).contains g.1).map (·.2.1)).getD 0
  match regionTile s x.1 x.2 with
  | some dha => writeTile s dha kind bs
  | none => s

/-- The other spare of the rail group gets a data tile that its parity tile needs, R244. -/
def shareWord (s : State) (w : MWord) (bs : List Byte) : State :=
  let x := w.spot (rankMember (myRank s))
  if rankMember (myRank s) / 2 = w.word then s
  else (s.clc.lostPeers.filter fun m => decide (m / 2 = w.word)).foldl (fun s m =>
    emit s (.mirror (BitVec.ofNat 15 (myRank s / 16 * 16 + m)) x.1 x.2 0 bs)) s

/-- Codewords that a spare rebuilds: eight for each group of each mirrored region. -/
def rebuildTotal (s : State) : Nat :=
  (mirrorPairs s).foldl (fun n x => n + (match curRegion s x.2.1 with | some g => 8 * (g.tiles / 7) | none => 0)) 0

/-- Collectives of CURRENT for which a spare has something to gather: tiles, or with D > 0 the catch-up area of its twin, R243. -/
def rebuildColls (s : State) : List (Nat × Desc) :=
  match s.stn.cur with
  | some p => ((List.range p.descs.length).zip p.descs).filter fun d => d.2.mirror || decide (0 < d.2.d)
  | none => []

/-- Whether a rebuild copies the catch-up area of a twin. -/
def needsTwin (s : State) : Bool := (rebuildColls s).any fun d => decide (0 < d.2.d)

/-- The rebuild is complete when every codeword is formed and, with D > 0, the twin's catch-up area is copied: REBUILD reads 2, and the root is sent REBUILT, R243. -/
def finishRebuild (s : State) : State :=
  if s.clc.rebuild = 1 ∧ (s.clc.words.filter (·.formed)).length = rebuildTotal s ∧ (needsTwin s = true → s.clc.copied = true) then
    let s := { s with clc := { s.clc with rebuild := 2, words := [] } }
    clcOut (s, (rebuildColls s).map fun d => (0, sealMsg (baseMsg s tyRebuilt d.1 s.stn.launchStep)))
  else s

/-- CE_INTEGRITY of a holder that receives a data tile whose CRC fails, R238. -/
def mirrorIntegrity (s : State) (coll : Nat) : State :=
  match s.stn.cur with
  | some p => match p.descs[coll]? with
    | some d => clcOut (s, abortReq s coll (instOfStep p d s.stn.step) ceIntegrity (some ((curRank s).setWidth 16)) none)
    | none => s
  | none => s

/-- A tile joins its codeword; when this member's tile can be formed it is, and is stored. -/
def gather (s : State) (w : MWord) (m : Nat) (kind : BitVec 2) (bs : List Byte) : State :=
  let w := (s.clc.words.find? w.same).getD w
  if w.formed || (w.tile m).isSome then s
  else
    let w := { w with got := w.got ++ [(m, kind, bs)] }
    match w.mine (rankMember (myRank s)) s.clc.lostPeers with
    | none => putWord s w
    | some b =>
      let s := storeWord (putWord s { w with formed := true, got := [] }) w b
      if s.clc.rebuild = 1 then finishRebuild (shareWord s w b) else s

/-- A tile of another member of the rail group arrives: at a holder of parity for the step, R242, or at a spare that rebuilds, R243. A holder that receives a damaged data tile asks for an abort, R238; a spare that receives one discards it. -/
def mirrorTake (s : State) (h : MirrorHdr) (t : IqTile) : State :=
  let me := myRank s
  let m := rankMember h.src.toNat
  let spare := decide (s.clc.rebuild = 1)
  if !(spare || decide (s.stn.place = .running)) || decide (s.se.role = 2) || decide (h.src.toNat / 16 ≠ me / 16) || decide (h.src.toNat = me) then s
  else match wordAt s m (if spare then 0 else h.step) h.region.toNat h.tile.toNat with
    | none => s
    | some (coll, w) =>
      if !spare && decide (rankMember me / 2 ≠ w.word) then s
      else if crc32c (padTo 0 4096 t.data) ≠ t.crc then (if spare then s else mirrorIntegrity s coll)
      else gather s w m h.kind (padTo 0 4096 t.data)

/-- A unit of the twin's catch-up area comes to a spare that rebuilds; an empty one says that the area is copied, R243. The units count as consumed, so that the launch delivers them, R236. -/
def catchupCopy (s : State) (src : Nat) (b : List Byte) : State :=
  if s.clc.rebuild ≠ 1 then s
  else if b.isEmpty then finishRebuild { s with clc := { s.clc with copied := true } }
  else
    let (ok, s) := catchupWrite s src (decide (src < 16)) b
    if ok then { s with clc := { s.clc with catchup := markConsumed (fun u => !u.consumed && decide (u.bytes = b) && decide (u.source = src)) s.clc.catchup } } else bufferExhausted s b

/-- REBUILD_REQ of a spare: for its mirrored collectives to its 15 rail-group peers, and for those with D > 0 to its twin. -/
def rebuildRequests (s : State) : Sends :=
  let me := myRank s
  (rebuildColls s).flatMap fun d =>
    let peers := if d.2.mirror then ((List.range 16).map fun m => me / 16 * 16 + m).filter fun r => decide (r ≠ me) else []
    let twin := if 0 < d.2.d then (twinOf d.2 me).toList else []
    (peers ++ twin).map fun r => (r, sealMsg (baseMsg s tyRebuildReq d.1 s.stn.launchStep))

/-- Binds this device as a spare, R241, when the admission does: REBUILD reads 3 when no rebuild is possible, R244, and else 1 while it runs. -/
def bindSpare (s : State) : State :=
  let k := s.fresh
  let s := { s with fresh := k + 1 }
  match Config.spareOf k with
  | none => s
  | some l =>
    let me := rankMember (myRank s)
    let peers := (List.range 16).filter fun m => l.contains m && decide (m ≠ me)
    let s := { s with clc := { s.clc with spareNew := true } }
    let noTwin := (rebuildColls s).any fun d => decide (0 < d.2.d) && (twinOf d.2 (myRank s)).isNone
    if 2 ≤ peers.length ∨ noTwin then { s with clc := { s.clc with rebuild := 3 } }
    else
      let s := { s with clc := { s.clc with rebuild := 1, lostPeers := peers, words := [], copied := false } }
      finishRebuild (clcOut (s, rebuildRequests s))

end Sys2Proof.Machine
end

