-- ==== Sys2Proof/Machine/Flags.lean ====
section
/-! DEFINITION. What an engine flags: non-finite values, saturation, LA errors, waits, and the fatal errors of R117. -/

namespace Sys2Proof.Machine

/-- ENG_ERR bits of R112. -/
def ebTileCrc : Nat := 0
def ebTileEmpty : Nat := 1
def ebTileFmt : Nat := 2
def ebLaUe : Nat := 3
def ebBadStroke : Nat := 4
def ebLaCe : Nat := 5
def ebSat : Nat := 6
def ebNonfinite : Nat := 7
def ebArriveCrc : Nat := 8
def ebWait : Nat := 9
def ebCtrlIgnored : Nat := 10

/-- A stroke raised the non-finite flag at a position: the lowest stroke index is held, and of one stroke the lowest position, R74 and R114. -/
def Engine.noteNf (x : Engine) (stroke : BitVec 16) (pos : BitVec 48) : Engine :=
  let n := match x.nf with
    | none => some (stroke, pos)
    | some (t, p) =>
      if stroke.toNat < t.toNat ∨ (stroke = t ∧ pos.toNat < p.toNat) then some (stroke, pos) else some (t, p)
  { x with nf := n, nfStroke := (match n with | some (t, _) => t | none => x.nfStroke), err := setErr x.err ebNonfinite }

/-- Positions, relative to a base index, at which a stroke raised the flag. -/
def Engine.noteNfs (x : Engine) (stroke : BitVec 16) (base : Nat) (js : List Nat) : Engine :=
  match js with
  | [] => x
  | j :: r => x.noteNf stroke (BitVec.ofNat 48 (base + r.foldl min j))

/-- Saturation events, R50. -/
def Engine.noteSat (x : Engine) (n : Nat) : Engine :=
  if n = 0 then x else { x with satCount := bump x.satCount n, err := setErr x.err ebSat }

/-- Corrected LA entries, R119. -/
def Engine.noteCe (x : Engine) (n : Nat) : Engine :=
  if n = 0 then x else { x with laCeCount := bump x.laCeCount n, err := setErr x.err ebLaCe }

/-- Linear index, row × 128 + lane, of the entry that an upset has struck. -/
def upsetEntry (u : LaUpset) : Nat := u.row.val * 128 + u.lane.val

/-- Whether an upset has struck one of n entries from a linear index. -/
def upsetIn (start n : Nat) (u : LaUpset) : Bool := decide (start ≤ upsetEntry u) && decide (upsetEntry u < start + n)

/-- A run of entries once it is read: its upsets are gone, R119. -/
def Engine.clearMarks (x : Engine) (start n : Nat) : Engine := { x with marks := x.marks.filter fun m => !upsetIn start n m }

/-- Bit errors met in n entries from a linear index that are read: each corrected entry is counted once and its errors are gone; the answer is the lowest row with an uncorrectable one. -/
def Engine.readRows (x : Engine) (start n : Nat) : Option Nat × Engine :=
  let here := x.marks.filter (upsetIn start n)
  let hard := (here.filter (·.hard)).map upsetEntry
  let soft := ((here.map upsetEntry).filter fun k => !hard.contains k).eraseDups
  let low := hard.foldl (fun (b : Option Nat) k => match b with | none => some (k / 128) | some r => some (min r (k / 128))) none
  (low, (x.clearMarks start n).noteCe soft.length)

/-- ENG_FAULT of R113. -/
def faultWord (cause whereF : Nat) (iq : Bool) (stroke : BitVec 16) : BitVec 32 :=
  BitVec.ofNat 32 (cause * 2 ^ 29 + b2n iq * 2 ^ 28 + whereF % 1024 * 65536 + stroke.toNat)

/-- A fatal error, R117: the engine stops, its strokes are cancelled, its STATE becomes FAULT, Stencil and CLC are told, and its contents are undefined until a scrub, R118. The ledger counts it, R565 and R572. -/
def engFault (s : State) (e cause whereF : Nat) (iq : Bool) (stroke : BitVec 16) : State :=
  let s := cancelEngine s e
  let x := s.eng e
  let w := faultWord cause whereF iq stroke
  let s := s.setEng e { x with err := setErr x.err cause, fault := w, undef := true }
  let s := engConfirm (setEngSt s e .fault) e
  let part := partId 1 e
  let s := journal s 0x03 part (leBytes 4 w.toNat ++ leBytes 4 s.stn.step.toNat)
  let s := countDefect s part
  let s := partErrors s part 0 1
  let s := stateHard s part 5 4
  let s := raiseStep s ceIntegrity
  haltNow s 2

end Sys2Proof.Machine
end

