-- ==== Sys2Proof/Machine/Operands.lean ====
section
/-! DEFINITION. Stroke words, R91 to R95: their fields, operand forms, the tests of R94, and the slots and rows that a stroke touches. -/

namespace Sys2Proof.Machine

/-! ## Fields of a stroke word, R91 and R92 -/

def wField (w : BitVec 128) (hi lo : Nat) : Nat := bitsOf w.toNat hi lo
def wOp (w : BitVec 128) : Nat := wField w 127 120
def wFmt (w : BitVec 128) : BitVec 4 := BitVec.ofNat 4 (wField w 119 116)
def wFmtD (w : BitVec 128) : BitVec 4 := BitVec.ofNat 4 (wField w 115 112)
def wRm (w : BitVec 128) : Nat := wField w 111 110
def wSat (w : BitVec 128) : Bool := w.getLsbD 109
def wOpt (w : BitVec 128) : Bool := w.getLsbD 108
def wStream (w : BitVec 128) : Nat := wField w 107 100
def wRksel (w : BitVec 128) : Nat := wField w 99 98
def wSa (w : BitVec 128) : Nat := wField w 95 85
def wSb (w : BitVec 128) : Nat := wField w 84 74
def wSc (w : BitVec 128) : Nat := wField w 73 63
def wDst (w : BitVec 128) : Nat := wField w 62 52
def wLaBase (w : BitVec 128) : Nat := wField w 51 44
/-- SPAN in tiles. -/
def wSpan (w : BitVec 128) : Nat := wField w 43 34 + 1
/-- Count of layout T. -/
def wCountT (w : BitVec 128) : Nat := wField w 33 18 + 1
def wIdxOff (w : BitVec 128) : Nat := wField w 17 0
/-- First tile slot of layout M. -/
def wTs (w : BitVec 128) : Nat := wField w 95 85
/-- Tiles of layout M. -/
def wCountM (w : BitVec 128) : Nat := wField w 84 69 + 1
def wRegion (w : BitVec 128) : Nat := wField w 63 56
def wToff (w : BitVec 128) : Nat := wField w 55 32
def wPreg (w : BitVec 128) : Nat := wField w 95 92

/-- Word of a row: its opcode over the 120 bits that the row carries. -/
def strokeWord (op : Nat) (w : BitVec 120) : BitVec 128 := BitVec.ofNat 8 op ++ w

/-! ## Opcodes, R95 -/

def opNop : Nat := 0x00
def opSetx : Nat := 0x01
def opSetp : Nat := 0x02
def opLoad : Nat := 0x08
def opStore : Nat := 0x09
def opSend : Nat := 0x0A
def opClra : Nat := 0x10
def opAcc : Nat := 0x11
def opRdla : Nat := 0x12
def opSvla : Nat := 0x13
def opAddla : Nat := 0x14
def opAdd : Nat := 0x18
def opFma : Nat := 0x19
def opDot : Nat := 0x1A
def opCvt : Nat := 0x1B
def opSum64 : Nat := 0x1C
def opSkenc : Nat := 0x20
def opSkdec : Nat := 0x21
def opUpds : Nat := 0x28
def opUpdm : Nat := 0x29
def opUpda : Nat := 0x2A

/-- Unit of an operation, R83: 0 Control, 1 Lane, 2 FMA, 3 Convert, 4 Skim port, 5 Transfer. -/
def unitOf (op : Nat) : Nat :=
  if op ≤ 2 then 0
  else if op ≤ 0xA then 5
  else if op = opAdd ∨ op = opFma ∨ op = opSum64 ∨ 0x28 ≤ op then 2
  else if op = opCvt then 3
  else if op = opSkenc then 4
  else 1

/-- Count n of a stroke, R95. -/
def wCount (w : BitVec 128) : Nat :=
  let op := wOp w
  if op ≤ 2 then 1 else if op = opLoad ∨ op = opStore then wCountM w else wCountT w

/-! ## Operand codes, R93 -/

def isTile (c : Nat) : Bool := decide (c < 0x400)
def isIq (c : Nat) : Bool := decide (0x400 ≤ c) && decide (c < 0x408)
def isSub (c : Nat) : Bool := decide (0x500 ≤ c) && decide (c < 0x600)
def isChan (c : Nat) : Bool := decide (0x600 ≤ c) && decide (c < 0x700)
def isNone (c : Nat) : Bool := decide (c = 0x7FF)

/-- A run of n slots that stays within the tile area. -/
def tileRun (c n : Nat) : Bool := decide (c + n ≤ 0x400)

/-! ## The tests of R94 -/

def inFmts (f : BitVec 4) (lo hi : Nat) : Bool := decide (lo ≤ f.toNat) && decide (f.toNat ≤ hi)

/-- Whether RM takes effect in an operation, R91. -/
def usesRm (op : Nat) : Bool := [opRdla, opCvt, opAdd, opFma, opSkenc, opUpds, opUpdm, opUpda].contains op

/-- Header tests: RM, RKSEL, OPT, FMT_D where it must be 0, and the reserved bits [97:96]. -/
def headerOk (w : BitVec 128) : Bool :=
  let op := wOp w
  decide (wRm w ≠ 3) && decide (wRksel w ≠ 3) && decide (wField w 97 96 = 0)
    && (usesRm op || decide (wRm w = 0)) && (decide (wRm w = 2) || decide (wRksel w = 0))
    && (!wOpt w || decide (op = opClra) || decide (op = opSum64))
    && (decide (op = opCvt) || decide (op = opRdla) || decide (op = opSkenc) || decide (op = opSkdec) || decide (wFmtD w = 0))

/-- Tiles of a span. -/
def spanRows (w : BitVec 128) (e : Nat) : Nat := ceilDiv (wSpan w * e) 128

/-- LA rows that a stroke reads or writes: first row and number. -/
def rowsOf (w : BitVec 128) : Nat × Nat :=
  let op := wOp w
  let n := wCount w
  let b := wLaBase w
  if op = opClra then (b, n)
  else if op = opAcc ∨ op = opDot then (b, spanRows w (elemsPerTile (wFmt w)))
  else if op = opRdla then (b, ceilDiv (n * elemsPerTile (wFmtD w)) 128)
  else if op = opSvla ∨ op = opAddla then (b, ceilDiv (64 * n) 128)
  else if op = opSkdec ∧ isNone (wDst w) then (b, 8 * wSpan w)
  else (b, 0)

/-- Destination tiles of a CVT. -/
def cvtTiles (w : BitVec 128) : Nat := ceilDiv (wCount w * elemsPerTile (wFmt w)) (elemsPerTile (wFmtD w))

/-- Operand tests of each operation, R95. Runs of slots and of rows must lie within the tile area and the LA file. -/
def operandsOk (w : BitVec 128) : Bool :=
  let op := wOp w
  let n := wCount w
  let f := wFmt w
  let d := wFmtD w
  let sa := wSa w
  let sb := wSb w
  let sc := wSc w
  let dst := wDst w
  let t := fun c => isTile c && tileRun c n
  if op = opNop then decide (wField w 95 0 = 0)
  else if op = opSetx then decide (wField w 95 48 = 0)
  else if op = opSetp then decide (wField w 91 32 = 0)
  else if op = opLoad ∨ op = opStore then inFmts f 0 11 && isTile (wTs w) && tileRun (wTs w) n && decide (wField w 68 64 = 0) && decide (wField w 31 0 = 0)
  else if op = opSend then inFmts f 0 11 && t sa && decide (sb < 0x300) && isNone sc && isNone dst
  else if op = opClra then isNone sa && isNone sb && isNone sc && isNone dst
  else if op = opAcc then inFmts f 1 11 && (isIq sa || t sa) && isNone sb && isNone sc && isNone dst
  else if op = opRdla then inFmts d 0 11 && isNone sa && isNone sb && isNone sc && t dst
  else if op = opSvla then decide (f = 0) && isNone sa && isNone sb && isNone sc && t dst
  else if op = opAddla then decide (f = 0) && t sa && isNone sb && isNone sc && isNone dst
  else if op = opAdd then inFmts f 0 3 && t sa && t sb && isNone sc && t dst
  else if op = opFma then decide (f = 1) && t sa && t sb && t sc && t dst
  else if op = opDot then inFmts f 2 11 && t sa && t sb && isNone sc && isNone dst
  else if op = opCvt then inFmts f 0 11 && inFmts d 0 11 && t sa && isNone sb && isNone sc && isTile dst && tileRun dst (cvtTiles w)
  else if op = opSum64 then decide (f = 0) && t sa && isNone sb && isNone sc && isTile dst && tileRun dst (if wOpt w then 1 else wSpan w)
  else if op = opSkenc then decide (f = 1) && inFmts d 12 14 && t sa && isNone sb && isNone sc && isChan dst
  else if op = opSkdec then inFmts d 12 14 && isSub sa && isNone sb && isNone sc && (isNone dst || (isTile dst && tileRun dst (wSpan w)))
  else if op = opUpds then decide (f = 1) && t sa && t sb && isNone sc && isNone dst
  else if op = opUpdm then decide (f = 1) && t sa && t sb && t sc && isNone dst
  else if op = opUpda then decide (f = 1) && t sa && t sb && t sc && t dst
  else false

/-- Whether a stroke word passes R94. -/
def strokeOk (w : BitVec 128) : Bool :=
  let r := rowsOf w
  headerOk w && decide (wFmt w ≠ 0xF) && operandsOk w && decide (r.1 + r.2 ≤ 256)

/-! ## What a stroke touches, R85 -/

/-- Runs of slots or rows: (first, number). -/
abbrev Runs := List (Nat × Nat)

def runsMeet (a b : Runs) : Bool := a.any fun x => b.any fun y => decide (0 < x.2) && decide (0 < y.2) && decide (x.1 < y.1 + y.2) && decide (y.1 < x.1 + x.2)

/-- Slots that a stroke reads. -/
def slotReads (w : BitVec 128) : Runs :=
  let op := wOp w
  let n := wCount w
  if op = opStore then [(wTs w, n)]
  else if op = opAcc then (if isTile (wSa w) then [(wSa w, n)] else [])
  else if op = opSend ∨ op = opAddla ∨ op = opCvt ∨ op = opSum64 ∨ op = opSkenc then [(wSa w, n)]
  else if op = opAdd ∨ op = opDot ∨ op = opUpds then [(wSa w, n), (wSb w, n)]
  else if op = opFma ∨ op = opUpdm then [(wSa w, n), (wSb w, n), (wSc w, n)]
  else if op = opUpda then [(wSa w, n), (wSb w, n), (wSc w, n), (wDst w, n)]
  else []

/-- Slots that a stroke writes, in the order of R274. -/
def slotWrites (w : BitVec 128) : Runs :=
  let op := wOp w
  let n := wCount w
  if op = opLoad then [(wTs w, n)]
  else if op = opRdla ∨ op = opSvla ∨ op = opAdd ∨ op = opFma then [(wDst w, n)]
  else if op = opCvt then [(wDst w, cvtTiles w)]
  else if op = opSum64 then [(wDst w, if wOpt w then 1 else wSpan w)]
  else if op = opSkdec then (if isTile (wDst w) then [(wDst w, wSpan w)] else [])
  else if op = opUpds then [(wSb w, n)]
  else if op = opUpdm then [(wSb w, n), (wSc w, n)]
  else if op = opUpda then [(wSb w, n), (wSc w, n), (wDst w, n)]
  else []

/-- Slots that count k of a stroke writes; for an SKDEC any slot of its span, since the unit's number decides which. -/
def countWrites (w : BitVec 128) (k : Nat) : Runs :=
  let op := wOp w
  let last := decide (k + 1 = wCount w)
  if op = opCvt then
    let per := elemsPerTile (wFmt w) * storeBits (wFmtD w) / 8
    let lo := k * per / 4096
    let hi := if last then ceilDiv ((k + 1) * per) 4096 else (k + 1) * per / 4096
    [(wDst w + lo, hi - lo)]
  else if op = opSum64 then (if last then slotWrites w else [])
  else if op = opSkdec then slotWrites w
  else (slotWrites w).map fun r => (r.1 + k, 1)

/-- LA rows that a stroke reads without writing them. -/
def rowReads (w : BitVec 128) : Runs := if wOp w = opRdla ∨ wOp w = opSvla then [rowsOf w] else []

/-- LA rows that a stroke writes. -/
def rowWrites (w : BitVec 128) : Runs := if wOp w = opRdla ∨ wOp w = opSvla then [] else [rowsOf w]

/-- Whether stroke `w` must wait for the earlier stroke `v`: third condition of R85. A LOAD makes its writes at its issue. -/
def mustWait (v w : BitVec 128) : Bool :=
  if wOp v = opLoad then false
  else runsMeet (slotWrites v) (slotReads w ++ slotWrites w) || runsMeet (slotReads v) (slotWrites w)
    || runsMeet (rowWrites v) (rowReads w ++ rowWrites w) || runsMeet (rowReads v) (rowWrites w)

end Sys2Proof.Machine
end

