-- ==== Sys2Proof/Machine/Engine.lean ====
section
/-! DEFINITION. How engines carry out strokes, chapter 03: reading and checking tiles, the counts of each operation, issue, waits and completion. -/

namespace Sys2Proof.Machine

/-! ## Tile slots -/

/-- What reading a slot comes to: the stroke waits, meets fatal errors (ENG_ERR bits, lowest first), or has the tile. -/
inductive ReadRes where
  | wait
  | fault (causes : List Nat)
  | ok (bytes : List Byte) (tag : TileTag)
deriving DecidableEq, Repr

def Engine.bytes (x : Engine) (slot : Nat) : List Byte := Mem.read x.tiles (slot * 4096) 4096

/-- Reads and checks a slot, R81 and R100. `img` is the IMG the stroke needs, none when it carries a slot whatever its IMG. -/
def Engine.readSlot (x : Engine) (slot : Nat) (f : BitVec 4) (img : Option Bool) : ReadRes :=
  let t := x.tag slot
  match t.st with
  | .empty => .fault [ebTileEmpty]
  | .pending => .wait
  | .valid =>
    let b := x.bytes slot
    let badImg := match img with | some v => decide (t.img ≠ v) | none => false
    let bad := badImg || (!t.img && decide (t.fmt ≠ f))
    let cs := (if crc32c b = t.crc then [] else [ebTileCrc]) ++ (if bad then [ebTileFmt] else [])
    if cs.isEmpty then .ok b t else .fault cs

def ReadRes.causes : ReadRes → List Nat
  | .fault cs => cs
  | _ => []
def ReadRes.tile : ReadRes → Option (List Byte × TileTag)
  | .ok b t => some (b, t)
  | _ => none

/-- Of (ENG_ERR bit, slot) pairs the first of the lowest bit. -/
def lowestFault (l : List (Nat × Nat)) : Option (Nat × Nat) :=
  l.foldl (fun b p => match b with | none => some p | some q => if p.1 < q.1 then some p else some q) none

/-- Reads the slots of one count: the first error of the lowest bit number with its slot, a wait, or all the tiles. -/
def Engine.readSlots (x : Engine) (f : BitVec 4) (img : Option Bool) (slots : List Nat) : ReadRes × Nat × List (List Byte × TileTag) :=
  let rs := slots.map fun k => (k, x.readSlot k f img)
  let faults := rs.flatMap fun r => r.2.causes.map fun c => (c, r.1)
  match lowestFault faults with
  | some (_, k) => (.fault (faults.map (·.1)), k, [])
  | none =>
    if rs.any fun r => decide (r.2 = .wait) then (.wait, 0, [])
    else (.ok [] {}, 0, rs.filterMap fun r => r.2.tile)

/-- A stroke writes a tile slot, R81. -/
def Engine.putTile (x : Engine) (slot : Nat) (f : BitVec 4) (img : Bool) (bs : List Byte) : Engine :=
  let b := padTo 0 4096 bs
  { x with tiles := Mem.write x.tiles (slot * 4096) b, tags := Tab.put {} x.tags slot ⟨crc32c b, f, img, .valid⟩ }

/-! ## The LA file -/

def Engine.isForm32 (x : Engine) (row : Nat) : Bool := Tab.get false x.form32 row

/-- Entries from a linear index row × 128 + lane. -/
def Engine.entries (x : Engine) (start n : Nat) : List LaEntry := Tab.getSeg LaEntry.zero x.la start n
def Engine.putEntries (x : Engine) (start : Nat) (es : List LaEntry) : Engine := { x with la := Tab.putSeg LaEntry.zero x.la start es }

/-- Adds addends to entries from a linear index, R59 or R66 by the form of each row; also the addends that raise the non-finite flag. -/
def Engine.accumulate (x : Engine) (start : Nat) (vs : List Num) : Engine × List Nat :=
  let es := x.entries start vs.length
  let out := ((List.range vs.length).zip (es.zip vs)).map fun p =>
    let j := p.1
    let (y, v) := p.2
    if x.isForm32 ((start + j) / 128) then
      let r := addElem fp32 (y.value.toNat % 2 ^ 32) (toFp32 v) .rne 0 false
      (({ y with value := BitVec.ofNat 320 r.code } : LaEntry), r.nf)
    else (y.add v, !v.isFinite)
  (x.putEntries start (out.map (·.1)), ((List.range out.length).zip out).filterMap fun p => if p.2.2 then some p.1 else none)

/-! ## Counts -/

/-- What one count of a stroke comes to. -/
inductive CountRes where
  | wait (s : State)
  | fault (s : State) (causes : List Nat) (whereF : Nat) (iq : Bool)
  | ok (s : State) (fl : Flight)
deriving DecidableEq, Repr

/-- Element index of element 0 of a stroke's run, R96. -/
def Flight.base (fl : Flight) : Nat := fl.idxb.toNat + 256 * wIdxOff fl.word

/-- Random word for element j of the run in rounding stream STREAM + k. -/
def Flight.r32 (fl : Flight) (s : State) (k j : Nat) : Nat :=
  if wRm fl.word = 2 then srDraw s (wRksel fl.word) (wStream fl.word + k) (fl.base + j) else 0

/-- Records the flags of rounded results whose first has index j0 in the run. -/
def Engine.noteRes (x : Engine) (fl : Flight) (j0 : Nat) (rs : List Res) : Engine :=
  let nf := ((List.range rs.length).zip rs).filterMap fun p => if p.2.nf then some p.1 else none
  (x.noteSat ((rs.filter (·.sat)).length)).noteNfs fl.idx (fl.base + j0) nf

/-- Reads the slots of a count and goes on with their tiles. -/
def withTiles (s : State) (e : Nat) (fl : Flight) (img : Option Bool) (slots : List Nat) (f : List (List Byte × TileTag) → CountRes) : CountRes :=
  match (s.eng e).readSlots (wFmt fl.word) img slots with
  | (.wait, _, _) => .wait s
  | (.fault cs, k, _) => .fault s cs k false
  | (.ok _ _, _, ts) => f ts

/-- Meets the bit errors of the n LA entries from a linear index that a count reads, R119, and goes on. -/
def withRows (s : State) (e : Nat) (start n : Nat) (f : State → CountRes) : CountRes :=
  match (s.eng e).readRows start n with
  | (some r, x) => .fault (s.setEng e x) [ebLaUe] r false
  | (none, x) => f (s.setEng e x)

/-- Adds values to the LA rows of a span position, with the flags. -/
def addSpan (s : State) (e : Nat) (fl : Flight) (j0 : Nat) (vs : List Num) : CountRes :=
  let start := wLaBase fl.word * 128 + j0
  withRows s e start vs.length fun s =>
    let (x, nf) := (s.eng e).accumulate start vs
    .ok (s.setEng e (x.noteNfs fl.idx (fl.base + j0) nf)) fl

/-- SETX, R96. -/
def countSetx (s : State) (e : Nat) (fl : Flight) : CountRes :=
  .ok (s.setEng e { s.eng e with idxb := fl.word.setWidth 48 }) fl

/-- Value of a SETP: the patched word of the step, if the stroke is patched, R171. -/
def setpValue (s : State) (e : Nat) (fl : Flight) : BitVec 32 :=
  match s.stn.patched.find? fun p => decide (p.1 = e) && decide (p.2.1 = fl.idx.toNat) with
  | some p => p.2.2
  | none => fl.word.setWidth 32

/-- SETP, R105. -/
def countSetp (s : State) (e : Nat) (fl : Flight) : CountRes :=
  .ok (s.setEng e { s.eng e with params := Tab.put 0 (s.eng e).params (wPreg fl.word) (setpValue s e fl) }) fl

/-- LOAD, R104: every slot becomes PENDING at once; a slot that is still PENDING is waited for, R85. -/
def countLoad (s : State) (e : Nat) (fl : Flight) : CountRes :=
  let x := s.eng e
  let n := wCountM fl.word
  let slots := (List.range n).map fun k => wTs fl.word + k
  if slots.any fun k => decide ((x.tag k).st = .pending) then .wait s
  else
    let places := (List.range n).map fun k => regionTile s (wRegion fl.word) (wToff fl.word + k)
    if places.any (·.isNone) then .fault s [ebBadStroke] 0 false
    else
      let f := wFmt fl.word
      let tags := slots.foldl (fun t k => Tab.put ({} : TileTag) t k ⟨0, f, false, .pending⟩) x.tags
      let reqs := (slots.zip places).map fun p => (⟨p.1, p.2.getD 0, fl.idx, f⟩ : LoadReq)
      .ok (s.setEng e { x with tags := tags, loads := x.loads ++ reqs }) { fl with done := n - 1 }

/-- STORE of one tile, R104 and R326. -/
def countStore (s : State) (e : Nat) (fl : Flight) : CountRes :=
  let k := fl.done
  withTiles s e fl none [wTs fl.word + k] fun ts =>
    match ts, regionTile s (wRegion fl.word) (wToff fl.word + k) with
    | (b, t) :: _, some dha =>
      let d := mkDest 2 fl.idx.toNat (wRegion fl.word * 2 ^ 24 + wToff fl.word + k) b
      .ok (mirrorOut (writeTile s dha (if t.img then 1 else 0) b) (wRegion fl.word) (wToff fl.word + k) (if t.img then 1 else 0) b) { fl with dests := fl.dests ++ [d] }
    | _, _ => .fault s [ebBadStroke] 0 false

/-- Depth of an input queue under CURRENT, R88 and R174. -/
def iqDepth (s : State) (e q : Nat) : Nat := planBudget s.stn.cur 0x01 (8 * e + q)

/-- Whether an input queue has a free tile place: a credit. -/
def iqRoom (s : State) (e q : Nat) : Bool := decide (((s.eng e).iq q).length < iqDepth s e q)

/-- A credit of an input queue returns to the endpoint that spent it, R88 and R484; other senders see the free place itself. -/
def returnCredit (s : State) (e q : Nat) (t : IqTile) : State :=
  match t.origin with
  | none => s
  | some (n, c) =>
    let k := (32 * n.val + c.val) * 512 + 8 * e + q
    { s with phn := { s.phn with owed := Tab.put 0 s.phn.owed k (Tab.get 0 s.phn.owed k + 1) } }

/-- A tile reaches an input queue: kept, or discarded on its CRC with its credit returned, R81 and R88. -/
def iqInsert (s : State) (e q : Nat) (t : IqTile) : State :=
  if crc32c t.data = t.crc then s.setEng e ((s.eng e).setIq q ((s.eng e).iq q ++ [t]))
  else
    let x := s.eng e
    returnCredit (s.setEng e { x with arriveCrcCount := bump x.arriveCrcCount 1, err := setErr x.err ebArriveCrc }) e q t

/-- SEND of one tile, R104: to an input queue against a credit, or to an output queue against room, through a lossless channel where the plan binds one. -/
def countSend (s : State) (e : Nat) (fl : Flight) : CountRes :=
  let k := fl.done
  let sb := wSb fl.word
  withTiles s e fl none [wSa fl.word + k] fun ts =>
    match ts with
    | [] => .wait s
    | (b, t) :: _ =>
      if sb < 0x200 then
        let te := sb / 8
        let q := sb % 8
        if iqRoom s te q then
          .ok (iqInsert s te q ⟨t.fmt.setWidth 8, t.crc, BitVec.ofNat 16 k, b, none, none⟩) { fl with dests := fl.dests ++ [mkDest 3 fl.idx.toNat sb b] }
        else .wait s
      else
        let q := sb - 0x200
        match losslessChan s q t.fmt with
        | some c =>
          let (u, raw) := losslessUnit s c t.fmt k t.crc b
          if (sendArrive s q (.seg 1 u) true).1 = .held then .wait s
          else
            let s := sendLossless { s with skm := { s.skm with rawCount := bump s.skm.rawCount raw } } c q u
            .ok s { fl with dests := fl.dests ++ [mkDest 3 fl.idx.toNat sb u] }
        | none =>
          match sendArrive s q (.tile t.fmt t.crc (BitVec.ofNat 16 k) s.stn.step b) true with
          | (.held, _) => .wait s
          | (_, s) => .ok s { fl with dests := fl.dests ++ [mkDest 3 fl.idx.toNat sb b] }

/-- CLRA of one row, R97. -/
def countClra (s : State) (e : Nat) (fl : Flight) : CountRes :=
  let row := wLaBase fl.word + fl.done
  let x := s.eng e
  let v := if wOpt fl.word then LaEntry.negZero32 else LaEntry.cleared
  let x := x.putEntries (row * 128) (List.replicate 128 v)
  .ok (s.setEng e { x with form32 := Tab.put false x.form32 row (wOpt fl.word), marks := x.marks.filter fun m => m.row.val ≠ row }) fl

/-- The values of a tile's elements. -/
def tileNums (f : BitVec 4) (b : List Byte) : List Num := (elemsOf f b).map (decodeNum f)

/-- ACC of the oldest tile of input queue q, R88 and R98: its own number decides its rows. -/
def countAccIq (s : State) (e q : Nat) (fl : Flight) : CountRes :=
  match (s.eng e).iq q with
  | [] => .wait s
  | t :: rest =>
    if t.fmt ≠ (wFmt fl.word).setWidth 8 ∨ wSpan fl.word ≤ t.tileNo.toNat then .fault s [ebTileFmt] q true
    else
      match addSpan s e fl (t.tileNo.toNat * elemsPerTile (wFmt fl.word)) (tileNums (wFmt fl.word) t.data) with
      | .ok s fl => .ok (returnCredit (s.setEng e ((s.eng e).setIq q rest)) e q t) fl
      | r => r

/-- ACC of one tile, R98. -/
def countAcc (s : State) (e : Nat) (fl : Flight) : CountRes :=
  if isIq (wSa fl.word) then countAccIq s e (wSa fl.word - 0x400) fl
  else
    withTiles s e fl (some false) [wSa fl.word + fl.done] fun ts =>
      match ts with
      | [] => .wait s
      | (b, _) :: _ => addSpan s e fl (fl.done % wSpan fl.word * elemsPerTile (wFmt fl.word)) (tileNums (wFmt fl.word) b)

/-- RDLA of one destination tile, R99. -/
def countRdla (s : State) (e : Nat) (fl : Flight) : CountRes :=
  let d := wFmtD fl.word
  let n := elemsPerTile d
  let j0 := fl.done * n
  let start := wLaBase fl.word * 128 + j0
  let mode := rmOf (wRm fl.word)
  withRows s e start n fun s =>
    let x := s.eng e
    let rs := ((List.range n).zip (x.entries start n)).map fun p =>
      let r := fl.r32 s 0 (j0 + p.1)
      if x.isForm32 ((start + p.1) / 128) then convert fp32 d (p.2.value.toNat % 2 ^ 32) mode r (wSat fl.word)
      else p.2.read d mode r (wSat fl.word)
    let x := x.noteRes fl j0 rs
    .ok (s.setEng e (x.putTile (wDst fl.word + fl.done) d false (elemBytes d (rs.map (·.code))))) fl

/-- SVLA of one destination tile of 64 images, R100. -/
def countSvla (s : State) (e : Nat) (fl : Flight) : CountRes :=
  let start := wLaBase fl.word * 128 + 64 * fl.done
  withRows s e start 64 fun s =>
    let x := s.eng e
    let b := (x.entries start 64).flatMap fun y => y.image ++ List.replicate 16 0
    .ok (s.setEng e (x.putTile (wDst fl.word + fl.done) 0 true b)) fl

/-- ADDLA of one source tile, R100 and R65. -/
def countAddla (s : State) (e : Nat) (fl : Flight) : CountRes :=
  let start := wLaBase fl.word * 128 + 64 * fl.done
  withTiles s e fl (some true) [wSa fl.word + fl.done] fun ts =>
    match ts with
    | [] => .wait s
    | (b, _) :: _ =>
      withRows s e start 64 fun s =>
        let x := s.eng e
        let es := (List.zip (x.entries start 64) (chunks 64 64 b)).map fun p => p.1.merge (LaEntry.ofImage p.2)
        .ok (s.setEng e (x.putEntries start es)) fl

/-- ADD of one tile, R68. -/
def countAdd (s : State) (e : Nat) (fl : Flight) : CountRes :=
  let f := wFmt fl.word
  let k := fl.done
  let j0 := k * elemsPerTile f
  withTiles s e fl (some false) [wSa fl.word + k, wSb fl.word + k] fun ts =>
    match ts with
    | (a, _) :: (b, _) :: _ =>
      let rs := ((List.range (elemsPerTile f)).zip ((elemsOf f a).zip (elemsOf f b))).map fun p =>
        addElem f p.2.1 p.2.2 (rmOf (wRm fl.word)) (fl.r32 s 0 (j0 + p.1)) (wSat fl.word)
      let x := (s.eng e).noteRes fl j0 rs
      .ok (s.setEng e (x.putTile (wDst fl.word + k) f false (elemBytes f (rs.map (·.code))))) fl
    | _ => .wait s

/-- FMA of one tile, R69. -/
def countFma (s : State) (e : Nat) (fl : Flight) : CountRes :=
  let k := fl.done
  let j0 := k * 1024
  withTiles s e fl (some false) [wSa fl.word + k, wSb fl.word + k, wSc fl.word + k] fun ts =>
    match ts with
    | (a, _) :: (b, _) :: (c, _) :: _ =>
      let rs := ((List.range 1024).zip ((elemsOf fp32 a).zip ((elemsOf fp32 b).zip (elemsOf fp32 c)))).map fun p =>
        fmaElem p.2.1 p.2.2.1 p.2.2.2 (rmOf (wRm fl.word)) (fl.r32 s 0 (j0 + p.1)) (wSat fl.word)
      let x := (s.eng e).noteRes fl j0 rs
      .ok (s.setEng e (x.putTile (wDst fl.word + k) fp32 false (elemBytes fp32 (rs.map (·.code))))) fl
    | _ => .wait s

/-- DOT of one tile pair, R101. A product that is not finite, or comes of an operand that is not, raises the flag. -/
def countDot (s : State) (e : Nat) (fl : Flight) : CountRes :=
  let f := wFmt fl.word
  let k := fl.done
  let n := elemsPerTile f
  withTiles s e fl (some false) [wSa fl.word + k, wSb fl.word + k] fun ts =>
    match ts with
    | (a, _) :: (b, _) :: _ =>
      addSpan s e fl (k % wSpan fl.word * n) (((elemsOf f a).zip (elemsOf f b)).map fun p => dotNum f p.1 p.2)
    | _ => .wait s

/-- Writes the destination tiles that a gathered part fills, and at the last count the rest with zeros, R82. -/
def flushPart (x : Engine) (fl : Flight) (d : BitVec 4) (slot : Nat) : (fuel : Nat) → List Byte → Engine × List Byte
  | 0, b => (x, b)
  | n + 1, b =>
    if 4096 ≤ b.length then flushPart (x.putTile slot d false (b.take 4096)) fl d (slot + 1) n (b.drop 4096)
    else if fl.done + 1 = wCount fl.word ∧ !b.isEmpty then (x.putTile slot d false b, [])
    else (x, b)

/-- CVT of one source tile, R53. -/
def countCvt (s : State) (e : Nat) (fl : Flight) : CountRes :=
  let f := wFmt fl.word
  let d := wFmtD fl.word
  let k := fl.done
  let n := elemsPerTile f
  let j0 := k * n
  withTiles s e fl (some false) [wSa fl.word + k] fun ts =>
    match ts with
    | [] => .wait s
    | (b, _) :: _ =>
      let rs := ((List.range n).zip (elemsOf f b)).map fun p => convert f d p.2 (rmOf (wRm fl.word)) (fl.r32 s 0 (j0 + p.1)) (wSat fl.word)
      let x := (s.eng e).noteRes fl j0 rs
      let (x, part) := flushPart x fl d (wDst fl.word + (j0 * storeBits d / 8) / 4096) 32 (fl.part ++ elemBytes d (rs.map (·.code)))
      .ok (s.setEng e x) { fl with part := part }

/-- The FP64 tree sums of a SUM64 that has read its run, R102: the results, in element order; a NaN is the canonical one, R40, also where a single input makes the sum. -/
def sum64Results (x : Engine) (fl : Flight) : List Nat :=
  let n := wCount fl.word
  let tile := fun k : Nat => elemsOf fp64 (x.bytes (wSa fl.word + k))
  let sum := fun l => canonicalNan fp64 (treeSum l)
  if wOpt fl.word then [sum ((List.range n).flatMap tile)]
  else
    let sp := wSpan fl.word
    (List.range sp).flatMap fun t =>
      let ins := (List.range (n / sp)).map fun i => tile (i * sp + t)
      (List.range 512).map fun j => sum (ins.map fun l => l.getD j 0)

/-- SUM64: each tile is checked at its turn, and the last one completes the sums. -/
def countSum64 (s : State) (e : Nat) (fl : Flight) : CountRes :=
  withTiles s e fl (some false) [wSa fl.word + fl.done] fun _ =>
    if fl.done + 1 < wCount fl.word then .ok s fl
    else
      let x := s.eng e
      let cs := sum64Results x fl
      let rs := cs.map fun c => (⟨c, false, !(decodeNum fp64 c).isFinite⟩ : Res)
      let x := x.noteRes fl 0 rs
      let tiles := chunks 4096 1024 (elemBytes fp64 cs)
      .ok (s.setEng e (((List.range tiles.length).zip tiles).foldl (fun x p => x.putTile (wDst fl.word + p.1) fp64 false p.2) x)) fl

/-- What a coded unit of an SKENC does on channel c: it is counted and sent, its flags are raised, and its residual joins what the stroke has formed; a whole tile place of residuals goes to the next bank, R132 to R135. -/
def sendEncoded (s : State) (e : Nat) (fl : Flight) (c : Nat) (o : EncOut) : CountRes :=
  let x := s.chan c
  let idx := fl.base + 1024 * fl.done
  let s := sendUnit (countEnc s o) x o.unit
  let sats := (if x.resFmt = 0 then o.clamps else 0) + o.resClamps + o.sats
  let s := s.setEng e (((s.eng e).noteSat sats).noteNfs fl.idx idx o.nf)
  let ds := fl.dests ++ [mkDest 3 fl.idx.toNat (0x600 + c) o.unit]
  if x.resFmt = 0 then .ok s { fl with dests := ds }
  else
    let part := fl.part ++ o.resid
    let place := (idx - x.origin) / resPlace x.resFmt
    let whole := if x.resFmt = 2 then decide (4096 ≤ part.length) else true
    if whole then
      let bank := (s.stn.step.toNat + 1) % 2
      let d := mkDest 2 fl.idx.toNat (x.region * 2 ^ 24 + x.tile0 + bank * x.bankTiles + place) part
      .ok (writeResidual s x place (if x.resFmt = 3 then 2 else 0) part) { fl with part := [], dests := ds ++ [d] }
    else .ok s { fl with part := part, dests := ds }

/-- What coding the elements of a tile of an SKENC gives. -/
def encodeTile (s : State) (fl : Flight) (c : Nat) (b : List Byte) : EncOut :=
  encodeUnit s c (s.chan c) (s.chan c).fmt (rmOf (wRm fl.word)) (wRksel fl.word) (wStream fl.word) (fl.base + 1024 * fl.done) (elemsOf fp32 b)

/-- SKENC of one unit, R103 and chapter 04. -/
def countSkenc (s : State) (e : Nat) (fl : Flight) : CountRes :=
  withTiles s e fl (some false) [wSa fl.word + fl.done] fun ts =>
    match ts with
    | [] => .wait s
    | (b, _) :: _ => sendEncoded s e fl (wDst fl.word - 0x600) (encodeTile s fl (wDst fl.word - 0x600) b)

/-- The next unit that a RESID sub-stream delivers, past those that fail their check. -/
def takeResid (n : Nat) : (fuel : Nat) → State → Option (List Byte) × State
  | 0, s => (none, s)
  | k + 1, s => match nextResid s n with
    | (none, s) => (none, s)
    | (some (some u), s) => (some u, s)
    | (some none, s) => takeResid n k s

/-- The unit that an SKDEC takes from a sub-stream, and the state without it. Units of different steps are held apart on a federation sub-stream: the stroke takes those of step n − D, R233. -/
def takeUnit (s : State) (n : Nat) : Option (List Byte) × State :=
  if (s.sub n).resid then takeResid n ((s.chan (s.sub n).rchan).bankTiles + 1) s
  else
    match pickUnit s n with
    | none => (none, s)
    | some b => (some b, catchupConsumed (setSubQ s n ((s.subQ n).erase b)) n b)

/-- SKDEC of one unit, R103 and R130. -/
def countSkdec (s : State) (e : Nat) (fl : Flight) : CountRes :=
  let f := wFmtD fl.word
  let sp := wSpan fl.word
  match takeUnit s (wSa fl.word - 0x500) with
  | (none, s) => .wait s
  | (some u, s) =>
    let p := unitPayload u
    let pos := (unitHdr u).unit % sp
    let vs := decPayload f p
    if isNone (wDst fl.word) then
      addSpan s e fl (1024 * pos) vs
    else
      let x := (s.eng e).noteNfs fl.idx (fl.base + 1024 * pos) (poisonedAt p)
      .ok (s.setEng e (x.putTile (wDst fl.word + pos) fp32 false (elemBytes fp32 (vs.map toFp32)))) fl

/-! ## Optimiser kernels, R105 to R108 -/

/-- What a kernel computes for one element position: new values in the order of its destinations, and every rounding. -/
abbrev KernelOut := List Nat × List Res

/-- The rounded operations of a kernel at element j of the run. -/
structure KernelEnv where
  p : Nat → Nat
  mode : Rm
  sat : Bool
  r32 : Nat → Nat

def KernelEnv.fma (k : KernelEnv) (a b c n : Nat) : Res := fmaElem a b c k.mode (k.r32 n) k.sat
def KernelEnv.rsq (k : KernelEnv) (h n : Nat) : Res := rsqElem h k.mode (k.r32 n) k.sat

/-- `upds`. -/
def upds (k : KernelEnv) (g w : Nat) : KernelOut :=
  let c := k.fma (k.p 7) w 0 0
  let w1 := k.fma (k.p 6) g c.code 1
  ([w1.code], [c, w1])

/-- `updm`. -/
def updm (k : KernelEnv) (g w m : Nat) : KernelOut :=
  let m1 := k.fma (k.p 0) m g 0
  let c := k.fma (k.p 7) w 0 1
  let w1 := k.fma (k.p 6) m1.code c.code 2
  ([w1.code, m1.code], [m1, c, w1])

/-- `upda`. -/
def upda (k : KernelEnv) (g w m v : Nat) : KernelOut :=
  let a := k.fma (k.p 0) m 0 0
  let m1 := k.fma (k.p 1) g a.code 1
  let gg := k.fma g g 0 2
  let b := k.fma (k.p 2) v 0 3
  let v1 := k.fma (k.p 3) gg.code b.code 4
  let h := k.fma (k.p 4) v1.code (k.p 5) 5
  let r := k.rsq h.code 6
  let q := k.fma m1.code r.code 0 7
  let c := k.fma (k.p 7) w 0 8
  let w1 := k.fma (k.p 6) q.code c.code 9
  ([w1.code, m1.code, v1.code], [a, m1, gg, b, v1, h, r, q, c, w1])

/-- The kernel of an opcode on the operands of one element position. -/
def kernel (op : Nat) (k : KernelEnv) (xs : List Nat) : KernelOut :=
  let g := xs.getD 0 0
  let w := xs.getD 1 0
  if op = opUpds then upds k g w
  else if op = opUpdm then updm k g w (xs.getD 2 0)
  else upda k g w (xs.getD 2 0) (xs.getD 3 0)

/-- First slots of a kernel's operands, g first; all but g are written back in place. -/
def kernelSlots (w : BitVec 128) : List Nat :=
  [wSa w, wSb w] ++ (if wOp w = opUpds then [] else [wSc w]) ++ (if wOp w = opUpda then [wDst w] else [])

/-- UPDS, UPDM or UPDA of one tile. -/
def countKernel (s : State) (e : Nat) (fl : Flight) : CountRes :=
  let k := fl.done
  let j0 := k * 1024
  let slots := kernelSlots fl.word
  withTiles s e fl (some false) (slots.map (· + k)) fun ts =>
    let cols := ts.map fun t => elemsOf fp32 t.1
    let p := fun i : Nat => (Tab.get 0 fl.params i).toNat
    let out := (List.range 1024).map fun j =>
      kernel (wOp fl.word) ⟨p, rmOf (wRm fl.word), wSat fl.word, fun n => fl.r32 s n (j0 + j)⟩ (cols.map fun c => c.getD j 0)
    let x := s.eng e
    let x := x.noteSat (out.foldl (fun n o => n + (o.2.filter (·.sat)).length) 0)
    let x := x.noteNfs fl.idx (fl.base + j0) (((List.range 1024).zip out).filterMap fun o => if o.2.2.any (·.nf) then some o.1 else none)
    let dsts := (slots.drop 1).map (· + k)
    let x := ((List.range dsts.length).zip dsts).foldl (fun x d =>
      x.putTile d.2 fp32 false (elemBytes fp32 (out.map fun o => o.1.getD d.1 0))) x
    .ok (s.setEng e x) fl

/-! ## Issue, waits and completion, R85 to R87 -/

/-- Whether a count would write a slot whose LOAD has yet to bring its tile, R87. -/
def writesPending (x : Engine) (fl : Flight) : Bool :=
  (countWrites fl.word fl.done).any fun r => (List.range r.2).any fun k => decide ((x.tag (r.1 + k)).st = .pending)

/-- One count of a stroke. A LOAD looks at all its slots at once. -/
def countStroke (s : State) (e : Nat) (fl : Flight) : CountRes :=
  let op := wOp fl.word
  if op = opNop then .ok s fl
  else if op ≠ opLoad && writesPending (s.eng e) fl then .wait s
  else if op = opSetx then countSetx s e fl
  else if op = opSetp then countSetp s e fl
  else if op = opLoad then countLoad s e fl
  else if op = opStore then countStore s e fl
  else if op = opSend then countSend s e fl
  else if op = opClra then countClra s e fl
  else if op = opAcc then countAcc s e fl
  else if op = opRdla then countRdla s e fl
  else if op = opSvla then countSvla s e fl
  else if op = opAddla then countAddla s e fl
  else if op = opAdd then countAdd s e fl
  else if op = opFma then countFma s e fl
  else if op = opDot then countDot s e fl
  else if op = opCvt then countCvt s e fl
  else if op = opSum64 then countSum64 s e fl
  else if op = opSkenc then countSkenc s e fl
  else if op = opSkdec then countSkdec s e fl
  else countKernel s e fl

/-- The row's bytes that its digest covers, R273. -/
def rowBytes (x : Engine) (row : Nat) : List Byte :=
  (x.entries (row * 128) 128).flatMap fun y => if x.isForm32 row then leBytes 8 (y.value.toNat % 2 ^ 32) else y.image

/-- The destination records of a stroke that has made its last write, in the order of R274. -/
def strokeDests (x : Engine) (fl : Flight) : List Dest :=
  let w := fl.word
  let i := fl.idx.toNat
  let op := wOp w
  if op = opSetx then [mkDest 4 i 0x100 (leBytes 8 x.idxb.toNat)]
  else if op = opSetp then [mkDest 4 i (wPreg w) (leBytes 8 (x.param (wPreg w)).toNat)]
  else if op = opStore ∨ op = opSend then fl.dests
  else if op = opSkenc then (fl.dests.filter fun d => d.kind = 3) ++ fl.dests.filter fun d => d.kind ≠ 3
  else
    let rows := (rowWrites w).flatMap fun r => (List.range r.2).map fun k => mkDest 1 i (r.1 + k) (rowBytes x (r.1 + k))
    let tiles := (slotWrites w).flatMap fun r => (List.range r.2).map fun k => mkDest 0 i (r.1 + k) (x.bytes (r.1 + k))
    tiles ++ rows

/-- Whether every stroke of an engine in a slot has made its last write. -/
def slotDone (s : State) (b : Body) (e k : Nat) : Bool :=
  let x := s.eng e
  let hi := b.slotEnd e k
  decide (hi ≤ x.issued) && x.flights.all fun f => decide (hi ≤ f.idx.toNat)

/-- A slot of an engine whose last write has just been made: its digest closes, and past its LIMIT it is late, R165 and R274. -/
def closeSlot (b : Body) (e : Nat) (s : State) (k : Nat) : State :=
  if s.stn.closed.contains (k, e) || !slotDone s b e k then s
  else
    let s := seClose { s with stn := { s.stn with closed := s.stn.closed ++ [(k, e)] } } k e
    match b.slots[k]? with
    | some p =>
      if p.limit < stepCycles s ∧ !s.stn.lateSlots.contains k then
        { s with stn := { s.stn with lateSlots := s.stn.lateSlots ++ [k], slotLate := bump s.stn.slotLate 1, err := setErr s.stn.err 2 } }
      else s
    | none => s

/-- Every slot of an engine that is done, in order. -/
def closeSlots (s : State) (e : Nat) : State := (((curBody s).slotsOf e).map (·.1)).foldl (closeSlot (curBody s) e) s

/-- A stroke has made its last write. -/
def strokeComplete (s : State) (e : Nat) (fl : Flight) : State :=
  let x := s.eng e
  let s := s.setEng e (x.withFlights (x.flights.filter fun f => f.idx ≠ fl.idx))
  let s := if s.se.role = 0 then s else seAdd s ((curBody s).slotOf e fl.idx.toNat) e (strokeDests x fl)
  closeSlots s e

/-- A flight's record in its engine. -/
def putFlight (s : State) (e : Nat) (fl : Flight) : State :=
  let x := s.eng e
  s.setEng e (x.withFlights (x.flights.map fun f => if f.idx = fl.idx then fl else f))

/-- A stroke begins or goes on waiting, R87. -/
def flightWaits (s : State) (e : Nat) (fl : Flight) : State :=
  let x := s.eng e
  let x := if fl.waited then x else { x with waitCount := bump x.waitCount 1, err := setErr x.err ebWait }
  putFlight (s.setEng e x) e { fl with waited := true, since := some (fl.since.getD s.plb.run) }

/-- A LOAD whose slots are all PENDING: it holds no unit and awaits its tiles. -/
def Flight.awaitsTiles (fl : Flight) : Bool := decide (wOp fl.word = opLoad) && decide (0 < fl.done)

/-- The cycles of a wait that has ended are counted. -/
def endWait (s : State) (e : Nat) (fl : Flight) : State :=
  match fl.since with
  | none => s
  | some t => let x := s.eng e; s.setEng e { x with waitCycles := bump x.waitCycles (coreCycles s (s.plb.run - t)) }

/-- A flight that has made one count more and waits no longer. -/
def Flight.nextCount (fl : Flight) : Flight := { fl with done := fl.done + 1, since := none }

/-- One count of a stroke in flight, if it can make it: whether anything moved, and the state. -/
def advance (s : State) (e : Nat) (fl : Flight) : Bool × State :=
  if fl.awaitsTiles then (false, s)
  else match countStroke s e fl with
    | .wait s => (false, flightWaits s e fl)
    | .fault s cs k iq =>
      let s := s.setEng e (cs.foldl (fun x c => { x with err := setErr x.err c }) (s.eng e))
      (true, engFault s e (cs.foldl min 7) k iq fl.idx)
    | .ok s fl =>
      let s := endWait s e fl
      let fl := fl.nextCount
      let s := putFlight s e fl
      if fl.done = wCount fl.word ∧ wOp fl.word ≠ opLoad then (true, strokeComplete s e fl) else (true, s)

/-- Issues the next stroke of an engine when R85 allows it. -/
def issue (s : State) (e : Nat) : Bool × State :=
  let x := s.eng e
  match x.toIssue with
  | [] => (false, s)
  | (i, w) :: rest =>
    if x.gate ≤ i.toNat then (false, s)
    else if !strokeOk w then (true, engFault s e ebBadStroke 0 false i)
    else if x.flights.any (fun f => !f.awaitsTiles && (decide (unitOf (wOp f.word) = unitOf (wOp w)) || mustWait f.word w)) then (false, s)
    else
      let fl : Flight := { idx := i, word := w, idxb := x.idxb, params := x.params }
      (true, s.setEng e { x with toIssue := rest, flights := x.flights ++ [fl], pc := i, issued := x.issued + 1 })

/-- Runs an engine until nothing in it can move. -/
def runEngine (e : Nat) : (fuel : Nat) → Bool × State → Bool × State
  | 0, p => p
  | n + 1, (m, s) =>
    let (moved, s) := (s.eng e).flights.foldl (fun (p : Bool × State) fl => if p.1 then p else advance p.2 e fl) (false, s)
    if moved then runEngine e n (true, s)
    else
      let (moved, s) := issue s e
      if moved then runEngine e n (true, s) else (m, s)

/-- Counts that an engine has still to make, and strokes it has still to issue. -/
def Engine.work (x : Engine) : Nat :=
  (x.flights.foldl (fun n f => n + wCount f.word + 1) 0) + (x.toIssue.foldl (fun n p => n + wCount p.2 + 2) 0)

/-- Delivers what the queue of one lossless sub-stream holds for HBM, or one tile of it to its input queue where that has room. -/
def drainSub (p : Bool × State) (q : Nat × List (List Byte)) : Bool × State :=
  let n := q.1
  let s := p.2
  let x := s.sub n
  if !x.ll then p
  else match pickUnit s n with
    | none => p
    | some b =>
      if x.kind = 2 then (true, drainHbm n q.2.length s)
      else if x.kind = 1 ∧ iqRoom s x.engine x.iq then
        let (tile, s) := decodeLossless (setSubQ s n ((s.subQ n).erase b)) b
        let h := unitHdr b
        (true, iqInsert s x.engine x.iq ⟨h.fmt.setWidth 8, h.crc, BitVec.ofNat 16 h.unit, tile, none, none⟩)
      else p

/-- Delivers decoded tiles of lossless sub-streams to input queues with room and to HBM, R139; whether any went. -/
def drainSubs (s : State) : Bool × State := s.skm.subq.foldl drainSub (false, s)

/-- Engines that have something to do, by number. -/
def busyEngines (s : State) : List Nat := (s.engines.filter fun p => !p.2.flights.isEmpty || !p.2.toIssue.isEmpty).map (·.1)

/-- Runs every engine, and the sub-streams that feed input queues, until nothing can move. -/
def pumpFor : (fuel : Nat) → State → State
  | 0, s => s
  | n + 1, s =>
    let p := (busyEngines s).foldl (fun (p : Bool × State) e => runEngine e ((p.2.eng e).work + 1) p) (false, s)
    let (fed, s) := drainSubs p.2
    if p.1 || fed then pumpFor n s else s

/-- Lets the engines run on, then raises CE_INTEGRITY if a residual read failed its check meanwhile, R238. -/
def pump (s : State) : State :=
  let work := s.engines.foldl (fun n p => n + p.2.work) 0
  let units := s.skm.subq.foldl (fun n p => n + p.2.length) 0
  let t := pumpFor (work + units + 1) s
  if t.stn.resFailed && !s.stn.resFailed then raiseStep t ceIntegrity else t

end Sys2Proof.Machine
end

