-- ==== Sys2Proof/Machine/EngineCmd.lean ====
section
/-! DEFINITION. The engine commands, chapter 03: one per operation of the opcode table of R95, the arrivals, and ENG_CTRL; and the coded unit that reaches the receive side, R137. -/

namespace Sys2Proof.Machine

/-- A stroke of an engine's list comes up: a RUNNING engine takes it in order, and everything that can move moves. -/
def strokeCmd (s : State) (e : Fin 64) (op : Nat) (i : BitVec 16) (w : BitVec 120) (ups : List LaUpset) : State :=
  let x := s.eng e.val
  if x.st = .running then
    pump (s.setEng e.val { x with toIssue := x.toIssue ++ [(i, strokeWord op w)], marks := x.marks ++ ups })
  else s

def execStrokeNop (e : Fin 64) (i : BitVec 16) (w : BitVec 120) (s : State) : Host.Outcome State Fault Refusal := act s (strokeCmd s e opNop i w [])
def execSetx (e : Fin 64) (i : BitVec 16) (w : BitVec 120) (s : State) : Host.Outcome State Fault Refusal := act s (strokeCmd s e opSetx i w [])
def execSetp (e : Fin 64) (i : BitVec 16) (w : BitVec 120) (s : State) : Host.Outcome State Fault Refusal := act s (strokeCmd s e opSetp i w [])
def execLoad (e : Fin 64) (i : BitVec 16) (w : BitVec 120) (s : State) : Host.Outcome State Fault Refusal := act s (strokeCmd s e opLoad i w [])
def execStore (e : Fin 64) (i : BitVec 16) (w : BitVec 120) (s : State) : Host.Outcome State Fault Refusal := act s (strokeCmd s e opStore i w [])
def execSend (e : Fin 64) (i : BitVec 16) (w : BitVec 120) (s : State) : Host.Outcome State Fault Refusal := act s (strokeCmd s e opSend i w [])
def execClra (e : Fin 64) (i : BitVec 16) (w : BitVec 120) (s : State) : Host.Outcome State Fault Refusal := act s (strokeCmd s e opClra i w [])
def execAcc (e : Fin 64) (i : BitVec 16) (w : BitVec 120) (ups : List LaUpset) (s : State) : Host.Outcome State Fault Refusal := act s (strokeCmd s e opAcc i w ups)
def execRdla (e : Fin 64) (i : BitVec 16) (w : BitVec 120) (ups : List LaUpset) (s : State) : Host.Outcome State Fault Refusal := act s (strokeCmd s e opRdla i w ups)
def execSvla (e : Fin 64) (i : BitVec 16) (w : BitVec 120) (ups : List LaUpset) (s : State) : Host.Outcome State Fault Refusal := act s (strokeCmd s e opSvla i w ups)
def execAddla (e : Fin 64) (i : BitVec 16) (w : BitVec 120) (ups : List LaUpset) (s : State) : Host.Outcome State Fault Refusal := act s (strokeCmd s e opAddla i w ups)
def execAdd (e : Fin 64) (i : BitVec 16) (w : BitVec 120) (s : State) : Host.Outcome State Fault Refusal := act s (strokeCmd s e opAdd i w [])
def execFma (e : Fin 64) (i : BitVec 16) (w : BitVec 120) (s : State) : Host.Outcome State Fault Refusal := act s (strokeCmd s e opFma i w [])
def execDot (e : Fin 64) (i : BitVec 16) (w : BitVec 120) (ups : List LaUpset) (s : State) : Host.Outcome State Fault Refusal := act s (strokeCmd s e opDot i w ups)
def execCvt (e : Fin 64) (i : BitVec 16) (w : BitVec 120) (s : State) : Host.Outcome State Fault Refusal := act s (strokeCmd s e opCvt i w [])
def execSum64 (e : Fin 64) (i : BitVec 16) (w : BitVec 120) (s : State) : Host.Outcome State Fault Refusal := act s (strokeCmd s e opSum64 i w [])
def execSkenc (e : Fin 64) (i : BitVec 16) (w : BitVec 120) (s : State) : Host.Outcome State Fault Refusal := act s (strokeCmd s e opSkenc i w [])
def execSkdec (e : Fin 64) (i : BitVec 16) (w : BitVec 120) (ups : List LaUpset) (s : State) : Host.Outcome State Fault Refusal := act s (strokeCmd s e opSkdec i w ups)
def execUpds (e : Fin 64) (i : BitVec 16) (w : BitVec 120) (s : State) : Host.Outcome State Fault Refusal := act s (strokeCmd s e opUpds i w [])
def execUpdm (e : Fin 64) (i : BitVec 16) (w : BitVec 120) (s : State) : Host.Outcome State Fault Refusal := act s (strokeCmd s e opUpdm i w [])
def execUpda (e : Fin 64) (i : BitVec 16) (w : BitVec 120) (s : State) : Host.Outcome State Fault Refusal := act s (strokeCmd s e opUpda i w [])

/-! ## Arrivals -/

/-- A LOAD's tile with its stored KIND is taken into its slot: KIND 1 gives an image, R328. -/
def loadInto (x : Engine) (req : LoadReq) (kind : BitVec 2) (bs : List Byte) : Engine :=
  let img := decide (kind = 1)
  x.putTile req.slot (if img then 0 else req.fmt) img bs

/-- The first LOAD of an engine whose last tile has arrived makes its last write. -/
def loadDone (s : State) (e : Nat) (stroke : BitVec 16) : State :=
  let x := s.eng e
  if x.loads.any fun l => decide (l.stroke = stroke) then s
  else match x.flights.find? fun f => decide (f.idx = stroke) with
    | some fl => strokeComplete s e fl
    | none => s

/-- LOAD_TILE_ARRIVE: a tile comes from HBM, is checked and becomes VALID, R104 and R328; a tile whose slot no LOAD awaits any more is discarded. -/
def loadTileArrive (s : State) (e slot : Nat) (ups : List BurstUpset) : State :=
  match (s.eng e).loads.find? fun l => decide (l.slot = slot) with
  | none => s
  | some req =>
    let s := addUpsets s req.dha ups
    let kind := (s.htag req.dha).kind
    let (ok, bs, s) := readTile s req.dha
    if !ok then
      let s := engErr s e ebTileCrc
      pump (engFault s e ebTileCrc slot false req.stroke)
    else if kind = 2 then
      let s := engErr s e ebTileFmt
      pump (engFault s e ebTileFmt slot false req.stroke)
    else
      let x := s.eng e
      let x := { loadInto x req kind bs with loads := x.loads.filter fun l => decide (l.slot ≠ slot) }
      pump (loadDone (s.setEng e x) e req.stroke)

def execLoadTileArrive (e : Fin 64) (slot : Fin 1024) (ups : List BurstUpset) (s : State) : Host.Outcome State Fault Refusal :=
  act s (loadTileArrive s e.val slot.val ups)

/-- IQ_TILE_ARRIVE: a tile reaches an input queue against a credit, R81 and R88; one that another member sends for a codeword of R242 joins no queue. -/
def iqTileArrive (s : State) (e q : Nat) (t : IqTile) : State :=
  match t.mirror with
  | some h => mirrorTake s h t
  | none => if iqRoom s e q then pump (iqInsert s e q { t with data := padTo 0 4096 t.data }) else s

def execIqTileArrive (e : Fin 64) (q : Fin 8) (t : IqTile) (s : State) : Host.Outcome State Fault Refusal :=
  act s (iqTileArrive s e.val q.val t)

/-- UNIT_ARRIVE: a coded unit reaches the receive side, or a spare is sent one of the units that it copies from its twin, R243. In a SHADOW what its own ports receive is discarded, R272. -/
def execUnitArrive (src : Fin 17) (copied : Bool) (bytes : List Byte) (s : State) : Host.Outcome State Fault Refusal :=
  act s (if copied then catchupCopy s src.val bytes else if s.se.role = 2 ∧ src.val < 16 then s else pump (unitQueue s src.val bytes))

/-- SE_UNIT: a SHADOW takes the unit that the LEAD accepted from a bond, R272. -/
def seUnit (s : State) (h : PairHdr) (bond : Fin 16) (bytes : List Byte) : State :=
  pairTake s h fun s => if s.se.role = 2 then pump (unitQueue s bond.val bytes) else s

def execSeUnit (h : PairHdr) (bond : Fin 16) (bytes : List Byte) (s : State) : Host.Outcome State Fault Refusal :=
  act s (seUnit s h bond bytes)

/-! ## ENG_CTRL, R111 -/

/-- A write of 1 in a state that the table does not list. -/
def ctrlIgnored (s : State) (e : Nat) : State := engErr s e ebCtrlIgnored

def engScrub (s : State) (e : Nat) : State :=
  if (s.eng e).st = .idle ∨ (s.eng e).st = .fault then engConfirm (setEngSt s e .scrubbing) e else ctrlIgnored s e

def engOnline (s : State) (e : Nat) : State := if (s.eng e).st = .offline then engConfirm (setEngSt s e .scrubbing) e else ctrlIgnored s e

def engOffline (s : State) (e : Nat) : State :=
  if (s.eng e).st = .idle ∨ (s.eng e).st = .fault then engConfirm (setEngSt s e .offline) e else ctrlIgnored s e

/-- CLR_COUNTS: a wait that goes on is counted from now on, R115. -/
def engClrCounts (s : State) (e : Nat) : State :=
  s.setEng e { (s.eng e).countWaits s with satCount := 0, laCeCount := 0, arriveCrcCount := 0, waitCount := 0, waitCycles := 0 }

/-- What a scrub leaves of an engine, R118. -/
def scrubbed (x : Engine) : Engine :=
  { x with tiles := [], tags := [], la := [], form32 := [], marks := [], err := 0, fault := 0, nf := none, nfStroke := 0, idxb := 0, pc := 0, params := [], undef := false, st := .idle }

/-- SCRUB_END, R118: the engine enters IDLE; a failed engine's STATE is mended and its scrub counts as a retrain, R565 and R572. -/
def scrubEnd (s : State) (e : Nat) : State :=
  let x := s.eng e
  if x.st = .scrubbing ∧ isUp s then
    let part := partId 1 e
    let s := setEngSt (s.setEng e (scrubbed x)) e .idle
    stateMended (partRetrain s part 1) part 5
  else s

def execScrubEnd (e : Fin 64) (s : State) : Host.Outcome State Fault Refusal := act s (scrubEnd s e.val)

end Sys2Proof.Machine
end

