-- ==== Sys2Proof/Machine/Xts.lean ====
section
/-! DEFINITION. What the stacks hold: the key pair of each quadrant, R332 and R459, AES-256-XTS over a burst, R331 (FIPS 197 and IEEE 1619), and a burst with its side-band bits as it travels, R324, R325 and R328. -/

namespace Sys2Proof

/-! ## AES-256 over numbers below 256 -/

/-- Product with x in the field of AES. -/
def aesTwice (a : Nat) : Nat := if a < 128 then 2 * a else (2 * a) ^^^ 0x11B

/-- Product in the field of AES, over the low k bits of b. -/
def aesMul (a b : Nat) : (k : Nat) → Nat
  | 0 => 0
  | k + 1 => (if b % 2 = 1 then a else 0) ^^^ aesMul (aesTwice a) (b / 2) k

/-- The inverse of a number is its power 254 = 2 + 4 + … + 128; 0 has 0. -/
def aesInverse (a : Nat) : Nat :=
  ((List.range 7).foldl (fun (p : Nat × Nat) _ => let sq := aesMul p.1 p.1 8; (sq, aesMul p.2 sq 8)) (a, 1)).2

/-- The byte substitution: the inverse, then the affine map. -/
def aesSub (a : Nat) : Nat :=
  let i := aesInverse a
  ([1, 2, 3, 4] : List Nat).foldl (fun v k => v ^^^ (i * 2 ^ k % 256 + i / 2 ^ (8 - k))) (i ^^^ 0x63)

/-- Bytewise exclusive or. -/
def xorNats (a b : List Nat) : List Nat := List.zipWith (fun x y => x ^^^ y) a b

/-- The next eight words of the key schedule from the last eight and the round constant. -/
def aesNextWords (w : List (List Nat)) (rcon : Nat) : List (List Nat) :=
  let last := w.getD 7 []
  let turned := xorNats ((last.drop 1 ++ last.take 1).map aesSub) [rcon, 0, 0, 0]
  (((List.range 8).foldl (fun (p : List (List Nat) × List Nat) i =>
    let word := xorNats (w.getD i []) (if i = 4 then p.2.map aesSub else p.2)
    (p.1 ++ [word], word)) ([], turned))).1

/-- The bytes of the key schedule from eight words on, for n turns. -/
def aesSchedule : (n rcon : Nat) → List (List Nat) → List Nat
  | 0, _, w => w.flatten
  | n + 1, rcon, w => w.flatten ++ aesSchedule n (aesTwice rcon) (aesNextWords w rcon)

/-- Substitution and the shift of the rows of a block held by columns. -/
def aesSubShift (b : List Nat) : List Nat := (List.range 16).map fun i => aesSub (b.getD ((i + 4 * (i % 4)) % 16) 0)

/-- The mix of one column: each byte takes 2, 3, 1 and 1 times the bytes from itself on. -/
def aesMix (b : List Nat) : List Nat :=
  (List.range 16).map fun i =>
    let c := fun r : Nat => b.getD (i / 4 * 4 + (i + r) % 4) 0
    aesTwice (c 0) ^^^ aesTwice (c 1) ^^^ c 1 ^^^ c 2 ^^^ c 3

/-- The key schedule of a key of 32 bytes. -/
def aesKeys (key : List Nat) : List Nat := aesSchedule 7 1 (chunks 4 8 key)

/-- The rounds over a block of 16 bytes. -/
def aesRounds (ks block : List Nat) : List Nat :=
  let roundKey := fun r : Nat => slice ks (16 * r) 16
  let mid := (List.range 13).foldl (fun b r => xorNats (aesMix (aesSubShift b)) (roundKey (r + 1))) (xorNats block (roundKey 0))
  xorNats (aesSubShift mid) (roundKey 14)

/-- AES-256 of a block under a key of 32 bytes. -/
def aes256 (key block : List Nat) : List Nat := aesRounds (aesKeys key) block

/-- The tweak of the next block: the product with α, least significant byte first, IEEE 1619. -/
def xtsNext (t : List Nat) : List Nat :=
  let v := 2 * leNat (t.map (BitVec.ofNat 8))
  let v := if v < 2 ^ 128 then v else (v % 2 ^ 128) ^^^ 0x87
  (leBytes 16 v).map (·.toNat)

/-- AES-256-XTS of a burst of 32 bytes, R331: the key pair is the data key and then the tweak key, and the data unit is the burst's number. -/
def xtsBurst (keys plain : List Byte) (unit : Nat) : List Byte :=
  let k := keys.map (·.toNat)
  let p := plain.map (·.toNat)
  let t0 := aes256 (slice k 32 32) ((leBytes 16 unit).map (·.toNat))
  let one := fun (t b : List Nat) => xorNats (aes256 (slice k 0 32) (xorNats b t)) t
  (one t0 (slice p 0 16) ++ one (xtsNext t0) (slice p 16 16)).map (BitVec.ofNat 8)

namespace Machine

/-- The key pair that a quadrant takes: two keys drawn apart and never equal, R332 and R459. -/
def drawXts (s : State) (q : Nat) : State :=
  let (a, s) := draw s 32
  let (b, s) := draw s 32
  let b := if b = a then b.map (~~~ ·) else b
  { s with slr := { s.slr with xts := putBit s.slr.xts q true, xtsKeys := Tab.put [] s.slr.xtsKeys q (a ++ b) } }

/-- The tag word of a tile, R325. -/
def HTag.word (t : HTag) : Nat := t.crc.toNat + t.used.toNat * 2 ^ 32 + t.kind.toNat * 2 ^ 40

/-- A burst as a stack holds it, R324: ciphertext, 6 tag bits and 10 bits of SECDED. -/
structure StoredBurst where
  cipher : List Byte
  tagBits : BitVec 6
  secded : BitVec 10
deriving DecidableEq, Repr

/-- Burst b of the device (DHA // 32) as its stack holds it, R328: the plaintext is encrypted under its quadrant's keys with b as the tweak, R331; burst j of its tile carries bits [6j + 5 : 6j] of the tag for j below 8, R325; SECDED covers both. -/
def storedBurst (s : State) (b : Nat) : StoredBurst :=
  let dha := 32 * b
  let j := b % 128
  let c := xtsBurst (Tab.get [] s.slr.xtsKeys (dha / quadBytes)) (Mem.read s.hbm.bytes dha 32) b
  let t := BitVec.ofNat 6 (if j < 8 then (s.htag dha).word / 2 ^ (6 * j) else 0)
  ⟨c, t, Config.secded c t⟩

end Machine
end Sys2Proof
end

