-- ==== Sys2Proof/Machine/Gcm.lean ====
section
/-! DEFINITION. AES-256-GCM, with which Sealer protects a line frame, R447: encryption, the tag, and the check of the tag. -/

namespace Sys2Proof

/-- Product in the field of GCM of the number x, from bit k − 1 down, with v; bit 127 is the first bit of a block. -/
def ghashMul (x : Nat) : (k v : Nat) → Nat
  | 0, _ => 0
  | k + 1, v => (if x.testBit k then v else 0) ^^^ ghashMul x k (if v % 2 = 1 then (v / 2) ^^^ (0xE1 * 2 ^ 120) else v / 2)

/-- GHASH under H, block by block, the last one padded with zeros. -/
def ghash (h : Nat) : (fuel acc : Nat) → List Byte → Nat
  | 0, acc, _ => acc
  | n + 1, acc, b => if b.isEmpty then acc else ghash h n (ghashMul (acc ^^^ beNat (padTo 0 16 b)) 128 h) (b.drop 16)

/-- A block under a key schedule. -/
def gcmBlock (ks : List Nat) (b : List Byte) : List Byte := (aesRounds ks (b.map (·.toNat))).map (BitVec.ofNat 8)

/-- Counter mode from counter value c on: encryption and decryption are one. -/
def gcmCounter (ks : List Nat) (iv : List Byte) : (fuel c : Nat) → List Byte → List Byte
  | 0, _, _ => []
  | n + 1, c, b => if b.isEmpty then [] else List.zipWith (fun x y => x ^^^ y) (b.take 16) (gcmBlock ks (iv ++ beBytes 4 c)) ++ gcmCounter ks iv n (c + 1) (b.drop 16)

/-- What the tag covers: data and ciphertext, each padded to whole blocks, and their lengths in bits. -/
def gcmCovered (aad cipher : List Byte) : List Byte :=
  padTo 0 (ceilDiv aad.length 16 * 16) aad ++ padTo 0 (ceilDiv cipher.length 16 * 16) cipher ++ beBytes 8 (8 * aad.length) ++ beBytes 8 (8 * cipher.length)

/-- The tag over data and ciphertext. -/
def gcmTag (ks : List Nat) (iv aad cipher : List Byte) : List Byte :=
  let h := beNat (gcmBlock ks (List.replicate 16 0))
  let c := gcmCovered aad cipher
  List.zipWith (fun x y => x ^^^ y) (beBytes 16 (ghash h (c.length / 16 + 1) 0 c)) (gcmBlock ks (iv ++ beBytes 4 1))

/-- Encrypts under a key and a 12-byte nonce: ciphertext and then tag. -/
def gcmSeal (key iv aad plain : List Byte) : List Byte :=
  let ks := aesKeys (key.map (·.toNat))
  let c := gcmCounter ks iv (plain.length / 16 + 1) 2 plain
  c ++ gcmTag ks iv aad c

/-- The plaintext of ciphertext whose tag verifies. -/
def gcmOpen (key iv aad cipher tag : List Byte) : Option (List Byte) :=
  let ks := aesKeys (key.map (·.toNat))
  if gcmTag ks iv aad cipher = tag then some (gcmCounter ks iv (cipher.length / 16 + 1) 2 cipher) else none

end Sys2Proof
end

