-- ==== Sys2Proof/Machine/InnerCode.lean ====
section
/-! DEFINITION. The inner code of a lane, R401 to R406: RS(544,514) over GF(2^10) as IEEE 802.3 Clause 119 defines it, the codeword marker, and the PAM4 levels on the pins with the Gray coding and the precoding of Clause 120. -/

namespace Sys2Proof

/-! ## GF(2^10) with x^10 + x^3 + 1, α = 2 -/

/-- Product with α. -/
def symTwice (a : Nat) : Nat := if a < 512 then 2 * a else (2 * a) ^^^ 0x409

/-- Product, over the low k bits of b. -/
def symMulBits (a b : Nat) : (k : Nat) → Nat
  | 0 => 0
  | k + 1 => (if b % 2 = 1 then a else 0) ^^^ symMulBits (symTwice a) (b / 2) k

def symMul (a b : Nat) : Nat := symMulBits a b 10

/-- α to a power. -/
def symAlpha : Nat → Nat
  | 0 => 1
  | n + 1 => symTwice (symAlpha n)

/-- The inverse is the power 1022 = 2 + 4 + … + 512. -/
def symInverse (a : Nat) : Nat :=
  ((List.range 9).foldl (fun (p : Nat × Nat) _ => let sq := symMul p.1 p.1; (sq, symMul p.2 sq)) (a, 1)).2

/-- Sum of symbols, or of polynomials with the lowest power first. -/
def symAdd : List Nat → List Nat → List Nat
  | [], b => b
  | a, [] => a
  | x :: a, y :: b => (x ^^^ y) :: symAdd a b

/-- Value of a polynomial, lowest power first. -/
def symValue (p : List Nat) (x : Nat) : Nat := p.foldr (fun c v => symMul v x ^^^ c) 0

/-! ## The code -/

/-- Coefficients of (x − α^0) … (x − α^(n−1)), highest power first. -/
def rsGenerator : Nat → List Nat
  | 0 => [1]
  | n + 1 => let p := rsGenerator n; List.zipWith (fun a b => a ^^^ b) (p ++ [0]) (0 :: p.map (symMul (symAlpha n)))

/-- A codeword: 514 message symbols and their 30 parity symbols, the remainder by the generator. -/
def rsEncode (msg : List Nat) : List Nat :=
  let g := (rsGenerator 30).drop 1
  msg ++ msg.foldl (fun r d => let fb := d ^^^ r.headD 0; List.zipWith (fun a c => a ^^^ symMul c fb) (r.drop 1 ++ [0]) g) (List.replicate 30 0)

/-- The 30 syndromes of a received word. -/
def rsSyndromes (w : List Nat) : List Nat :=
  (List.range 30).map fun j => let a := symAlpha j; w.foldl (fun v c => symMul v a ^^^ c) 0

/-- What the shift-register synthesis holds: the locator and the one before its last change of length, that length, the discrepancy of that change, and the shift since. -/
structure RsSynth where
  loc : List Nat
  prev : List Nat
  len : Nat
  disc : Nat
  shift : Nat

/-- One step of the synthesis at syndrome n. -/
def rsSynthStep (syn : List Nat) (x : RsSynth) (n : Nat) : RsSynth :=
  let d := (List.range (x.len + 1)).foldl (fun v i => v ^^^ symMul (x.loc.getD i 0) (if i ≤ n then syn.getD (n - i) 0 else 0)) 0
  if d = 0 then { x with shift := x.shift + 1 }
  else
    let f := symMul d (symInverse x.disc)
    let next := symAdd x.loc (List.replicate x.shift 0 ++ x.prev.map (symMul f))
    if 2 * x.len ≤ n then ⟨next, x.loc, n + 1 - x.len, d, 1⟩ else { x with loc := next, shift := x.shift + 1 }

/-- The places of a word at which a locator is 0, with the locator number of each: place i stands for x^(543 − i). -/
def rsPlaces (loc : List Nat) : (left i inv : Nat) → List (Nat × Nat)
  | 0, _, _ => []
  | n + 1, i, inv => if symValue loc inv = 0 then (i, inv) :: rsPlaces loc n (i + 1) (symTwice inv) else rsPlaces loc n (i + 1) (symTwice inv)

/-- The word within 15 symbols of the one received, with the number of symbols corrected, or none. -/
def rsDecode (w : List Nat) : Option (List Nat × Fin 16) :=
  let syn := rsSyndromes w
  if syn.all (· = 0) then some (w, 0)
  else
    let x := (List.range 30).foldl (rsSynthStep syn) ⟨[1], [1], 0, 1, 1⟩
    if h : x.len < 16 then
      let places := rsPlaces x.loc 544 0 (symAlpha 480)
      let omega := (List.range 30).map fun k => (List.range (k + 1)).foldl (fun v i => v ^^^ symMul (x.loc.getD i 0) (syn.getD (k - i) 0)) 0
      let slope := (List.range x.loc.length).map fun k => if k % 2 = 0 then x.loc.getD (k + 1) 0 else 0
      let fixed := places.foldl (fun v p =>
        let e := symMul (symInverse p.2) (symMul (symValue omega p.2) (symInverse (symValue slope p.2)))
        v.set p.1 (v.getD p.1 0 ^^^ e)) w
      if places.length = x.len ∧ (rsSyndromes fixed).all (· = 0) then some (fixed, ⟨x.len, h⟩) else none
    else none

/-! ## Words, markers and levels -/

/-- The marker pattern of R402. -/
def markerPattern : Nat := 0xD2B

/-- Octets as symbols, five to four, most significant bit first, R401. -/
def octetSymbols : (fuel : Nat) → List Byte → List Nat
  | 0, _ => []
  | n + 1, b =>
    if b.isEmpty then []
    else let v := beNat (b.take 5); [v / 2 ^ 30, v / 2 ^ 20 % 1024, v / 2 ^ 10 % 1024, v % 1024] ++ octetSymbols n (b.drop 5)

/-- Symbols as octets. -/
def symbolOctets : (fuel : Nat) → List Nat → List Byte
  | 0, _ => []
  | n + 1, l =>
    if l.isEmpty then []
    else beBytes 5 ((l.take 4).foldl (fun v x => v * 1024 + x) 0) ++ symbolOctets n (l.drop 4)

/-- The codeword that carries 640 octets under a CWN, R401 and R402. -/
def codewordOf (cwn : Byte) (octets : List Byte) : List Nat :=
  let m := markerPattern * 256 + cwn.toNat
  rsEncode ([m / 1024, m % 1024] ++ octetSymbols 128 octets)

/-- Gray coding of two bits as a level, and back. -/
def grayLevel (b : Nat) : Nat := match b with | 0 => 0 | 1 => 1 | 3 => 2 | _ => 3
def grayBits (l : Nat) : Nat := match l with | 0 => 0 | 1 => 1 | 2 => 3 | _ => 2

/-- The levels of symbols, first bit first; with precoding each is the level less the one sent before it, modulo 4. The answer adds the last level sent. -/
def sendLevels (precode : Bool) (last : BitVec 2) (symbols : List Nat) : List (BitVec 2) × BitVec 2 :=
  let gs := symbols.flatMap fun s => ([256, 64, 16, 4, 1] : List Nat).map fun d => BitVec.ofNat 2 (grayLevel (s / d % 4))
  if precode then
    let (out, l) := gs.foldl (fun (p : List (BitVec 2) × BitVec 2) g => let v := g - p.2; (v :: p.1, v)) ([], last)
    (out.reverse, l)
  else (gs, gs.getLastD last)

/-- The symbols that levels stand for. -/
def levelSymbols (precode : Bool) (last : BitVec 2) (levels : List (BitVec 2)) : List Nat :=
  let gs := if precode then List.zipWith (fun a b => a + b) levels (last :: levels) else levels
  (chunks 5 (gs.length / 5) gs).map fun p => p.foldl (fun v g => v * 4 + grayBits g.toNat) 0

/-- An inner codeword as the decoder gives it: how many bits of the marker pattern differ as received, CWN, the number of symbols corrected, or none when uncorrectable, and the 640 octets that are delivered, corrected or as received, R404 and R406. -/
structure Codeword where
  patternErrors : Nat
  cwn : BitVec 8
  corrected : Option (Fin 16)
  octets : List Byte
deriving DecidableEq, Repr

/-- Number of 1 bits of a number below 2^12. -/
def ones12 (v : Nat) : Nat := (List.range 12).foldl (fun n i => n + b2n (v.testBit i)) 0

/-- A received word of 544 symbols read as a codeword. -/
def readCodeword (w : List Nat) : Codeword :=
  let m := w.getD 0 0 * 1024 + w.getD 1 0
  let octets := fun v : List Nat => symbolOctets 128 (slice v 2 512)
  match rsDecode w with
  | some (v, k) => ⟨ones12 ((m / 256) ^^^ markerPattern), BitVec.ofNat 8 m, some k, octets v⟩
  | none => ⟨ones12 ((m / 256) ^^^ markerPattern), BitVec.ofNat 8 m, none, octets w⟩

end Sys2Proof
end

