-- ==== Sys2Proof/Machine/Plumb.lean ====
section
/-! DEFINITION. Plumb network time, chapter 08: steering, sources, selection, states, triggers, and the commands of that chapter. -/

namespace Sys2Proof.Machine

/-! ## INC, R288 and R298 -/

/-- One nanosecond and one second of full time. -/
def unitNs : Nat := 65536
def unitSec : Nat := 65536000000000

def nominalInc : Nat := 0x6400000000

/-- INC within ±200 ppm of nominal. -/
def clampInc (v : Nat) : BitVec 40 := BitVec.ofNat 40 (min (nominalInc + nominalInc / 5000) (max (nominalInc - nominalInc / 5000) v))

/-- Weighted sum of INC and total weight over the newest `left` units of time in LOCKED. -/
def lockMean : (left sum total : Nat) → List (Nat × Nat) → Nat × Nat
  | _, sum, total, [] => (sum, total)
  | left, sum, total, (i, d) :: r => let w := min left d; lockMean (left - w) (sum + i * w) (total + w) r

/-- The segments of time spent in LOCKED, with the present one. -/
def lockSegments (s : State) : List (Nat × Nat) :=
  match s.plb.lockFrom with
  | some t => (s.plb.inc.toNat, s.plb.time - t) :: s.plb.lockHist
  | none => s.plb.lockHist

/-- The holdover rate, R298. -/
def holdoverInc (s : State) : Nat :=
  let (sum, total) := lockMean (16 * unitSec) 0 0 (lockSegments s)
  if total = 0 then nominalInc else sum / total

/-- INC takes a value; in LOCKED the time spent at the old one is kept. -/
def setInc (s : State) (v : Nat) : State :=
  let p := s.plb
  let p := match p.lockFrom with
    | some t => { p with lockHist := (p.inc.toNat, p.time - t) :: p.lockHist, lockFrom := some p.time }
    | none => p
  { s with plb := { p with inc := clampInc v } }

/-- What the servo asks for next, within ±100 ppm of the holdover rate, R295. -/
def servoInc (s : State) : State :=
  let h := holdoverInc s
  let w := (Config.servoInc s.plb.servoK).toNat
  let s := { s with plb := { s.plb with servoK := s.plb.servoK + 1 } }
  setInc s (min (h + h / 10000) (max (h - h / 10000) w))

/-! ## States, R294 and R296 -/

/-- Seconds since HOLDOVER was entered, or those of the last time, R298. -/
def holdSeconds (s : State) : BitVec 32 :=
  match s.plb.holdFrom with
  | some t => BitVec.ofNat 32 ((s.plb.time - t) / unitSec)
  | none => s.plb.holdSeconds

/-- Whether PPS_OUT has pulses: PPS_OUT_EN is 1 and STATE is not FREERUN, R307. -/
def ppsOn (s : State) : Bool := s.plb.ppsOutEn && decide (s.plb.st ≠ .freerun)

/-- Trigger channel 3 is armed at the next whole second less ADV while PPS_OUT has pulses, R307. -/
def armPps (s : State) : State :=
  if ppsOn s then
    let now : Int := ((s.plb.time / unitNs : Nat) : Int)
    let t := now + (1000000000 - (now + s.plb.ppsOutAdj.toInt) % 1000000000)
    s.setTrig 3 { s.trig 3 with target := BitVec.ofInt 48 t, period := 1000000000, en := true }
  else s.setTrig 3 { s.trig 3 with en := false }

/-- Channel 3 follows PPS_OUT_EN and STATE; while it stays enabled it keeps its TARGET, R310. -/
def ppsFollow (s : State) : State := if ppsOn s = (s.trig 3).en then s else armPps s

/-- STATE changes: TOP_READY.PLB follows it, and so do the times in LOCKED and in HOLDOVER. -/
def setPlbSt (s : State) (st : PlbSt) : State :=
  if st = s.plb.st then s
  else
    let p := s.plb
    let p := match p.lockFrom with
      | some t => { p with lockHist := (p.inc.toNat, p.time - t) :: p.lockHist, lockFrom := none }
      | none => p
    let p := { p with holdSeconds := holdSeconds s, holdFrom := none, freqHold := false, st := st, within20 := 0 }
    let p := if st = .locked then { p with lockFrom := some p.time } else p
    let p := if st = .holdover then { p with holdFrom := some p.time, err := setErr p.err 1 } else p
    ppsFollow (setReady { s with plb := p } rdyPlb (decide (st = .locked)))

/-- HOLDOVER steers by REF10M_IN while source 18 is qualified, and holds the holdover rate otherwise, R298. -/
def holdSteer (s : State) : State :=
  let q := (s.src 18).qualified
  let v := if q then (Config.servoInc s.plb.servoK).toNat else holdoverInc s
  let s := { s with plb := { s.plb with freqHold := q, servoK := s.plb.servoK + 1 } }
  setInc s v

def enterHoldover (s : State) : State := if s.plb.st = .holdover then s else holdSteer (setPlbSt s .holdover)

/-- STATE in software-increment mode, R296. -/
def swState (s : State) : PlbSt := if s.plb.swLock then (if s.plb.swFresh then .locked else .holdover) else .acquiring

/-- STATE after a change of selection or of MODE. -/
def plbSettle (s : State) : State :=
  if s.plb.swMode then setPlbSt s (swState s)
  else match s.plb.selected with
    | some _ => if s.plb.st = .freerun ∨ s.plb.st = .holdover then setPlbSt s .acquiring else s
    | none => if s.plb.st = .freerun then s else enterHoldover s

/-! ## Qualification and selection, R292, R293, R303 -/

/-- HOPS of this device, R303. -/
def myHops (s : State) : Byte :=
  match s.plb.selected with
  | none => 0xFF
  | some 0 => 0
  | some 1 => 0
  | some n => (s.src n).peerHops + 1

/-- Whether the peer's messages arrive: the last with a valid CRC came within the last second. -/
def Src.heard (x : Src) (run : Nat) : Bool := match x.heardAt with | some t => decide (run ≤ t + unitSec) | none => false

/-- Conditions of R292 other than that on the last 16 measurements. -/
def srcCondition (s : State) (i : Nat) : Bool :=
  let x := s.src i
  if i = 0 then s.plb.master.isSome
  else if i = 1 then s.plb.ppsGood && ((s.src 0).qualified || s.plb.ppsTodValid)
  else if i = 18 then s.plb.refGood
  else x.crcOk && x.heard s.plb.run && x.peerLocked && decide (x.peerHops.toNat ≤ 14) && !x.peerUses && x.asymValid && !x.suspended

/-- QUALIFIED of one source after a change: gained with 16 measurements, or in FREERUN without; lost when a condition fails. -/
def qualify (s : State) (i : Nat) : State :=
  let x := s.src i
  let q := x.en && srcCondition s i && (x.qualified || decide (i = 18) || decide (s.plb.st = .freerun) || decide (16 ≤ x.good))
  s.setSrc i { x with qualified := q, good := if x.en then x.good else 0 }

/-- The qualified phase source with the lowest PRIO, the lower number on a tie. -/
def bestSource (s : State) : Option Nat :=
  ((List.range 18).filter fun i => (s.src i).qualified).foldl (fun b i => match b with
    | none => some i
    | some j => if (s.src i).prio.toNat < (s.src j).prio.toNat then some i else some j) none

/-- Selection after every change of a tick, R293: a change to another source is counted, and the STATE follows. With no source left the STATE alone tells of it. -/
def reselect (s : State) : State :=
  let b := bestSource s
  if b = s.plb.selected then s
  else
    let p := s.plb
    plbSettle { s with plb := if b.isSome then { p with selected := b, switchCount := bump p.switchCount 1, err := setErr p.err 0 } else { p with selected := b } }

/-- Every source is judged afresh, and the selection made once. -/
def requalify (s : State) : State :=
  let s := (List.range 19).foldl qualify s
  let s := reselect s
  if s.plb.st = .holdover ∧ !s.plb.swMode ∧ s.plb.freqHold ≠ (s.src 18).qualified then holdSteer s else s

/-- A far source becomes SUSPENDED, R304; the selection follows at the end of the tick's changes. -/
def suspendSrc (s : State) (i : Nat) : State :=
  let x := s.src i
  let s := s.setSrc i { x with suspended := true, calibrating := false, asymValid := false, qualified := false, good := 0, outliers := 0, calSum := 0, calCount := 0 }
  { s with plb := { s.plb with err := setErr s.plb.err 2 } }

/-- SOURCE_SUSPEND, R304. -/
def suspend (s : State) (i : Nat) : State := requalify (suspendSrc s i)

/-! ## Measurements, R292, R294, R295 -/

/-- OUTLIER_NS; 0 acts as 1. -/
def outlierUnits (s : State) : Int := ((max 1 s.plb.outlierNs.toNat * unitNs : Nat) : Int)

/-- Adds a signed interval to full time, and keeps the times held against it in step, R295 and R297. -/
def stepTime (s : State) (v : Int) : State :=
  let p := s.plb
  let t := (((p.time : Nat) : Int) + v) % ((2 ^ 48 * unitSec : Nat) : Int)
  let move := fun x : Option Nat => x.map fun a => ((((a : Nat) : Int) + (t - ((p.time : Nat) : Int))).toNat)
  { s with plb := { p with time := t.toNat, lockFrom := move p.lockFrom, holdFrom := move p.holdFrom, lastEdge := move p.lastEdge, syncWait := none, syncDiff := none, delayReq := none, stepCount := bump p.stepCount 1, stepEpoch := p.stepEpoch + 1, err := setErr p.err 5 } }

/-- The selected source's measurement is accepted: the filter, the first step of R295, the servo, and the STATE. -/
def acceptSelected (s : State) (off : Int) : State :=
  let first := !s.plb.started
  let s := { s with plb := { s.plb with started := true } }
  if first ∧ !s.plb.swMode then
    let s := stepTime s off
    { s with plb := { s.plb with offset := 0 } }
  else
    let f := Config.filteredOffset s.plb.filtK
    let w := if off.natAbs ≤ 20 * unitNs then s.plb.within20 + 1 else 0
    let s := { s with plb := { s.plb with offset := f, filtK := s.plb.filtK + 1, within20 := w } }
    if s.plb.swMode then s
    else
      let s := servoInc s
      if s.plb.st = .acquiring ∧ 16 ≤ w then setPlbSt s .locked
      else if s.plb.st = .locked ∧ 100 * unitNs < f.toInt.natAbs then setPlbSt s .acquiring
      else s

/-- Whether a measurement lies within OUTLIER_NS of the filtered offset of the selected source or, of a source that is not selected, of Plumb time; in FREERUN every one does, R292. -/
def inWindow (s : State) (i : Nat) (off : Int) : Bool :=
  if s.plb.selected = some i then !s.plb.started || decide (((off - s.plb.offset.toInt).natAbs : Int) ≤ outlierUnits s)
  else decide (s.plb.st = .freerun) || decide ((off.natAbs : Int) ≤ outlierUnits s)

/-- A measurement is judged against the selection as it stands: offset of the source's time from Plumb's, and mean delay. -/
def judge (s : State) (i : Nat) (off delay : Int) : State :=
  let x := { s.src i with offset := BitVec.ofInt 64 off, delay := BitVec.ofInt 64 delay }
  let s := s.setSrc i x
  let more := { x with outliers := 0, good := min 16 (x.good + 1) }
  if !x.en || x.suspended then s
  else if s.plb.selected = some i then
    if inWindow s i off then acceptSelected (s.setSrc i more) off
    else
      let n := x.outliers + 1
      let p := s.plb
      let s := { s with plb := { p with outlierCount := bump p.outlierCount 1 } }
      if 16 ≤ n then
        let s := s.setSrc i { x with outliers := 0, good := 0, qualified := false }
        let s := { s with plb := { s.plb with err := setErr s.plb.err 4 } }
        if 2 ≤ i then suspendSrc s i else s
      else s.setSrc i { x with outliers := n }
  else if inWindow s i off then s.setSrc i more
  else s.setSrc i { x with good := 0, qualified := false }

/-- A measurement of a phase source; the selection is made once, after it, and takes effect on the next one, R293. -/
def measure (s : State) (i : Nat) (off delay : Int) : State := requalify (judge s i off delay)

/-! ## PTP, R300 -/

/-- A Sync's half of the exchange: with a known path delay it gives a measurement. -/
def ptpSync (s : State) (diff : Int) : State :=
  let s := { s with plb := { s.plb with syncDiff := some diff } }
  match s.plb.pathDelay with
  | none => s
  | some d => measure s 0 ((2 * (d - diff) - (s.src 0).asym.toInt) / 2) d

/-- DOMAIN of PLB_PTP_CFG; values of 128 or more act as 0, R317. -/
def ptpDomain (s : State) : Nat := let d := bitsOf s.plb.ptpCfg.toNat 15 8; if 128 ≤ d then 0 else d

/-- What the default best master clock algorithm compares, in its order; the sender breaks the last tie. -/
def announceKey (q : BitVec 64 × AnnounceSet) : List Nat :=
  [q.2.prio1.toNat, q.2.clockClass.toNat, q.2.accuracy.toNat, q.2.variance.toNat, q.2.prio2.toNat, q.2.grandmaster.toNat, q.2.steps.toNat, q.1.toNat]

/-- A list of numbers comes before another of its length. -/
def listLess : List Nat → List Nat → Bool
  | a :: l, b :: m => decide (a < b) || (decide (a = b) && listLess l m)
  | _, _ => false

/-- The best master of those heard; this clock itself is slave-only. -/
def bestMaster (l : List (BitVec 64 × AnnounceSet)) : Option (BitVec 64) :=
  (l.foldl (fun b q => match b with
    | none => some q
    | some p => if listLess (announceKey q) (announceKey p) then some q else some p) (none : Option (BitVec 64 × AnnounceSet))).map (·.1)

/-- An Announce message of the domain: its data set replaces that of its sender, and the best master is chosen; another master begins a new exchange, R300. -/
def ptpAnnounce (s : State) (master : BitVec 64) (set : AnnounceSet) : State :=
  let l := (s.plb.foreign.filter fun q => decide (q.1 ≠ master)) ++ (if set.steps.toNat < 255 then [(master, set)] else [])
  let p := { s.plb with foreign := l }
  let m := bestMaster l
  requalify { s with plb := if m = p.master then p else { p with master := m, syncDiff := none, pathDelay := none, syncWait := none, delayReq := none } }

/-- PTP_MESSAGE. Messages of another domain or master, and kinds that R300 does not support, are ignored. -/
def ptpMessage (s : State) (m : PtpMsg) : State :=
  let mine := fun (dom : BitVec 8) (master : BitVec 64) => decide (dom.toNat = ptpDomain s) && decide (s.plb.master = some master)
  if !(s.src 0).en then s
  else match m with
    | .announce dom master set => if dom.toNat = ptpDomain s then ptpAnnounce s master set else s
    | .syncOneStep dom master origin corr rx =>
      if mine dom master then ptpSync s (((rx : Nat) : Int) - ((origin : Nat) : Int) - ((corr : Nat) : Int)) else s
    | .syncTwoStep dom master seq corr rx =>
      if mine dom master then { s with plb := { s.plb with syncWait := some (seq, corr, rx) } } else s
    | .followUp dom master seq origin corr =>
      match s.plb.syncWait with
      | some (q, c, rx) =>
        if mine dom master ∧ q = seq then
          ptpSync { s with plb := { s.plb with syncWait := none } } (((rx : Nat) : Int) - ((origin : Nat) : Int) - ((corr : Nat) : Int) - ((c : Nat) : Int))
        else s
      | none => s
    | .delayResp dom master seq receipt corr =>
      match s.plb.delayReq, s.plb.syncDiff with
      | some (q, t1), some d =>
        if mine dom master ∧ q = seq then
          let up : Int := ((receipt : Nat) : Int) - ((corr : Nat) : Int) - ((t1 : Nat) : Int)
          { s with plb := { s.plb with pathDelay := some ((up + d) / 2), delayReq := none } }
        else s
      | _, _ => s
    | .other => s

def execPtpMessage (m : PtpMsg) (s : State) : Host.Outcome State Fault Refusal := act s (ptpMessage s m)

/-- PTP_ANNOUNCE_TIMEOUT: no master is chosen any more. -/
def ptpAnnounceTimeout (s : State) : State :=
  requalify { s with plb := { s.plb with master := none, foreign := [], syncDiff := none, pathDelay := none, syncWait := none, delayReq := none } }
def execPtpAnnounceTimeout (s : State) : Host.Outcome State Fault Refusal := act s (ptpAnnounceTimeout s)

/-- DELAY_REQ_SEND: a one-step Delay_Req leaves, R300. -/
def delayReqSend (s : State) (departure : FullTime) : State :=
  if (s.src 0).en ∧ s.plb.master.isSome then
    let q := s.plb.delaySeq + 1
    emit { s with plb := { s.plb with delaySeq := q, delayReq := some (q, departure) } } (.delayReq (ptpDomain s) q departure)
  else s
def execDelayReqSend (departure : FullTime) (s : State) : Host.Outcome State Fault Refusal := act s (delayReqSend s departure)

/-! ## Far time messages, R301 to R305 -/

/-- Whether a calibration may run on a far source, R305. -/
def mayCalibrate (s : State) (b : Nat) (x : Src) : Bool :=
  decide (2 ≤ (s.bond b).st.toNat) && decide (s.plb.st = .locked) && s.plb.selected.isSome && decide (s.plb.selected ≠ some (b + 2)) && x.peerLocked && !x.peerUses

/-- TIME_MESSAGE on a far bond. One whose CRC holds is echoed in the next message; it is used only when its ECHO_SEQ names a message sent within the last second. -/
def timeMessage (s : State) (b : Nat) (m : TimeMsg) (rx : FullTime) : State :=
  let i := b + 2
  let x := s.src i
  if !m.crcOk then requalify (s.setSrc i { x with crcOk := false })
  else if m.version ≠ 1 then s
  else
    let x := { x with crcOk := true, heardAt := some s.plb.run, lastRx := some (m.tx, rx, m.seq) }
    let known := x.sent.any fun p => decide (p.1 = m.echoSeq) && decide (s.plb.run ≤ p.2 + unitSec)
    if !known then requalify (s.setSrc i x)
    else
      let x := { x with peerLocked := m.locked, peerUses := m.usesYou, peerHops := m.hops }
      let s := s.setSrc i x
      let up : Int := ((m.echoRx : Nat) : Int) - ((m.echoTx : Nat) : Int)
      let down : Int := ((rx : Nat) : Int) - ((m.tx : Nat) : Int)
      let delay := (down + up) / 2
      let off := (up - down - x.asym.toInt) / 2
      if x.suspended then
        let go := mayCalibrate s b x
        let x := if x.calibrating && go then { x with calSum := x.calSum + (up - down), calCount := x.calCount + 1 }
          else if go then { x with calibrating := true, calSum := up - down, calCount := 1 }
          else { x with calibrating := false, calSum := 0, calCount := 0 }
        requalify (s.setSrc i { x with offset := BitVec.ofInt 64 off, delay := BitVec.ofInt 64 delay })
      else measure s i off delay

def execTimeMessage (b : Fin 16) (m : TimeMsg) (rx : FullTime) (s : State) : Host.Outcome State Fault Refusal := act s (timeMessage s b.val m rx)

/-- CALIBRATION_DONE: CAL_S seconds of calibration have passed, R305. The measurements of the calibration agree with its mean, so the source has its 16. -/
def calibrationDone (s : State) (i : Nat) : State :=
  let x := s.src i
  if x.calibrating ∧ 0 < x.calCount then
    let mean := x.calSum / ((x.calCount : Nat) : Int)
    let s := s.setSrc i { x with asym := BitVec.ofInt 48 mean, asymValid := true, suspended := false, calibrating := false, good := min 16 x.calCount, calSum := 0, calCount := 0 }
    requalify { s with plb := { s.plb with err := setErr s.plb.err 3 } }
  else s
def execCalibrationDone (i : Fin 19) (s : State) : Host.Outcome State Fault Refusal := act s (calibrationDone s i.val)

/-- ASYM_WRITE: PLB_SRCs_ASYM takes a value, R304, R305 and R318. -/
def asymWrite (s : State) (i : Nat) (valid : Bool) (asym : BitVec 48) : State :=
  let far := decide (2 ≤ i) && decide (i ≤ 17)
  let x := { s.src i with asym := asym, asymValid := valid }
  if far ∧ !valid then suspend (s.setSrc i x) i
  else requalify (s.setSrc i { x with suspended := false, calibrating := false, calSum := 0, calCount := 0 })
def execAsymWrite (i : Fin 19) (valid : Bool) (asym : BitVec 48) (s : State) : Host.Outcome State Fault Refusal := act s (asymWrite s i.val valid asym)

/-! ## Pulse and frequency inputs, R306 and R308 -/

/-- PPS_IN_EDGE: an edge at the pin, less the adjustment, marks the start of a second. It is accepted, and PLB_PPS_TOD.SEC rises, when it comes 1 s after the edge before, if there was one, and its measurement is not discarded. -/
def ppsInEdge (s : State) (t : FullTime) : State :=
  let te : Int := ((t : Nat) : Int) - s.plb.ppsInAdj.toInt * unitNs
  let spaced := match s.plb.lastEdge with
    | some l => decide ((te - ((l : Nat) : Int) - ((unitSec : Nat) : Int)).natAbs ≤ 1000 * unitNs)
    | none => false
  let first := s.plb.lastEdge.isNone
  let s := { s with plb := { s.plb with lastEdge := some te.toNat, ppsGood := spaced } }
  let sec : Option Int :=
    if (s.src 0).qualified then some ((te + (s.src 0).offset.toInt + ((unitSec / 2 : Nat) : Int)) / ((unitSec : Nat) : Int))
    else if s.plb.ppsTodValid then some ((s.plb.ppsTod.toNat : Nat) : Int) else none
  match sec with
  | none => requalify s
  | some n =>
    let off := n * ((unitSec : Nat) : Int) - te
    if !(first || spaced) then requalify s
    else
      let taken := (s.src 1).en && inWindow s 1 off
      let s := measure s 1 off 0
      if taken then { s with plb := { s.plb with ppsTod := s.plb.ppsTod + 1 } } else s
def execPpsInEdge (t : FullTime) (s : State) : Host.Outcome State Fault Refusal := act s (ppsInEdge s t)

/-- PPS_IN_EDGE_MISSING: no edge has come where one was due, R292. -/
def ppsInEdgeMissing (s : State) : State :=
  let s := { s with plb := { s.plb with ppsGood := false, lastEdge := none } }
  requalify (s.setSrc 1 { s.src 1 with good := 0 })
def execPpsInEdgeMissing (s : State) : Host.Outcome State Fault Refusal := act s (ppsInEdgeMissing s)

/-- The newest measurements of REF10M_IN, up to and with the first that is 16 s old. -/
def refWindow (now : Nat) : List (Nat × Int) → List (Nat × Int)
  | [] => []
  | q :: l => if q.1 + 16 * unitSec ≤ now then [q] else q :: refWindow now l

/-- Whether REF10M_IN meets R308: its rate is within 50 ppm, and over 16 s its measured rates differ by at most 1 ppb. Rates are in parts per 10^12. -/
def refMeets (now : Nat) (l : List (Nat × Int)) : Bool :=
  match l with
  | [] => false
  | q :: _ => decide (q.2.natAbs ≤ 50000000) && (l.any fun p => decide (p.1 + 16 * unitSec ≤ now)) && l.all fun p => l.all fun r => decide (p.2 - r.2 ≤ 1000)

/-- REF10M_IN_MEASURE: a measurement of REF10M_IN against the Plumb clock, R308. In HOLDOVER with source 18 qualified INC is steered by each measurement, R298. -/
def ref10mInMeasure (s : State) (rate : BitVec 32) : State :=
  let l := refWindow s.plb.run ((s.plb.run, rate.toInt) :: s.plb.refHist)
  let hold := s.plb.freqHold
  let s := requalify { s with plb := { s.plb with refHist := l, refGood := refMeets s.plb.run l } }
  if hold && s.plb.freqHold && !s.plb.swMode then holdSteer s else s
def execRef10mInMeasure (rate : BitVec 32) (s : State) : Host.Outcome State Fault Refusal := act s (ref10mInMeasure s rate)

/-- The level of PPS_OUT. -/
def ppsOutHigh (s : State) : Bool := decide (s.plb.run < s.plb.ppsUntil)

/-- PPS_OUT_PULSE: trigger channel 3 drives PPS_OUT high for 100 µs, R307. Plumb sets the channel's next TARGET to the next whole second less ADV, from which a step of time may have moved it. -/
def ppsOutPulse (s : State) : State :=
  if ppsOn s then
    armPps (emit { s with plb := { s.plb with ppsPulses := s.plb.ppsPulses + 1, ppsUntil := s.plb.run + 100000 * unitNs } } (.pps s.count))
  else s
def execPpsOutPulse (s : State) : Host.Outcome State Fault Refusal := act s (ppsOutPulse s)

/-! ## Commands of PLB_CTRL and PLB_INC -/

/-- A step that R297 refuses. -/
def stepRefused (s : State) : State := { s with plb := { s.plb with err := setErr s.plb.err 6 } }

/-- STEP_NOW, R297: full time is stepped on the next tick. -/
def stepNow (s : State) : State :=
  if s.stn.place = .running ∨ s.plb.launchTick then stepRefused s else { s with plb := { s.plb with stepAsked := true } }

/-- The step that a tick brings, after the tick's own nanosecond; `launching` says that a launch trigger falls due on it. -/
def stepDue (s : State) (launching : Bool) : State :=
  if !s.plb.stepAsked then s
  else
    let s := { s with plb := { s.plb with stepAsked := false } }
    if s.stn.place = .running ∨ launching then stepRefused s else stepTime s s.plb.stepVal.toInt
def execStepNow (s : State) : Host.Outcome State Fault Refusal := act s (stepNow s)

def plbClrCounts (s : State) : State := { s with plb := { s.plb with stepCount := 0, switchCount := 0, outlierCount := 0, trigSkip := 0 } }
def execPlbClrCounts (s : State) : Host.Outcome State Fault Refusal := act s (plbClrCounts s)

/-- INC_WRITE: ignored in mode 0; in mode 1 INC takes the value within its range, R288 and R296. -/
def incWrite (s : State) (inc : BitVec 40) : State :=
  if s.plb.swMode then
    let s := setInc s inc.toNat
    plbSettle { s with plb := { s.plb with swFresh := true } }
  else s
def execIncWrite (inc : BitVec 40) (s : State) : Host.Outcome State Fault Refusal := act s (incWrite s inc)

/-- SW_STALE: 2 s have passed without a write of INC, R296. -/
def swStale (s : State) : State :=
  if s.plb.swMode then
    let s := { s with plb := { s.plb with swFresh := false } }
    if s.plb.swLock then plbSettle { s with plb := { s.plb with err := setErr s.plb.err 8 } } else s
  else s
def execSwStale (s : State) : Host.Outcome State Fault Refusal := act s (swStale s)

/-- MODE, SW_LOCK and PPS_OUT_EN take values, R296 and R314. Back in mode 0, STATE follows the selection. -/
def plbModeWrite (s : State) (mode lock pps : Bool) : State :=
  let was := s.plb.swMode
  let s := { s with plb := { s.plb with swMode := mode, swLock := lock, ppsOutEn := pps, swFresh := if mode then s.plb.swFresh else false } }
  let s := if was ∧ !mode then
      (match s.plb.selected with
        | some _ => setPlbSt s .acquiring
        | none => if s.plb.started then enterHoldover s else setPlbSt s .freerun)
    else if mode then setPlbSt s (swState s) else s
  ppsFollow s

/-- A write of PLB_CTRL, R314. -/
def plbCtrlWrite (s : State) (v : BitVec 32) : State :=
  let s := if v.getLsbD 5 then plbClrCounts s else s
  let s := plbModeWrite s (v.getLsbD 1) (v.getLsbD 2) (v.getLsbD 3)
  if v.getLsbD 4 then stepNow s else s

/-! ## Triggers, R309 and R310 -/

/-- The commands that a firing channel brings. -/
def trigCmds (c : Nat) : List Instr :=
  if c = 0 then [.launch] else if c = 1 then [.stepStart] else if c = 2 then [.stepDeadline] else if c = 3 then [.ppsOutPulse]
  else if c = 20 then [.gateCycleStart] else if c = 21 then [.queueSample] else []

/-- One channel at a tick: it fires when due, passes LATE on, and disables itself or falls back onto its grid. -/
def fireTrig (c : Nat) (s : State) : State :=
  let t := s.trig c
  if t.en && due s.count t.target then
    let late := (signedDiff s.count t.target).toNat
    let per := t.period.toNat
    let k := if per = 0 then 0 else late / per + 1
    let s := s.setTrig c { t with target := t.target + BitVec.ofNat 48 (k * per), en := decide (per ≠ 0), lastLate := BitVec.ofNat 16 (min 0xFFFF late) }
    let s := if 1 < k then { s with plb := { s.plb with trigSkip := bump s.plb.trigSkip (k - 1), err := setErr s.plb.err 7 } } else s
    { s with pending := s.pending ++ trigCmds c }
  else s

/-- One tick of the Plumb clock, when no reset holds it: full time advances by 1 ns, R288, a step that waits is taken, R297, far sources whose messages no longer arrive lose their qualification, R292, but for a tripped device, whose other clocks have stopped, and due triggers fire, judged against the stepped count, R310 and R311. -/
def plumbTick (s : State) : State :=
  if !isUp s then s
  else
    let s := { s with plb := { s.plb with time := (s.plb.time + unitNs) % (2 ^ 48 * unitSec), run := s.plb.run + unitNs }, phn := { s.phn with holdNs := s.phn.holdNs - 1 } }
    let s := stepDue s ((s.trig 0).en && due s.count (s.trig 0).target)
    let s := if !s.pwr.tripped && (List.range 16).any (fun b => (s.src (b + 2)).qualified && !(s.src (b + 2)).heard s.plb.run) then requalify s else s
    let s := { s with plb := { s.plb with launchTick := (s.trig 0).en && due s.count (s.trig 0).target } }
    (List.range 22).foldl (fun s c => fireTrig c s) s

end Sys2Proof.Machine
end

