-- ==== Sys2Proof/Machine/SerialCode.lean ====
section
/-! DEFINITION. The line code of the overhead serial ports, R625: 8b/10b of IEEE 802.3 Clause 36. A code group is written abcdeifghj, a leftmost, and a is sent first. -/

namespace Sys2Proof

/-- How many of the lowest n bits are set. -/
def bitCount : (n v : Nat) → Nat
  | 0, _ => 0
  | n + 1, v => v % 2 + bitCount n (v / 2)

/-- The six bits abcdei of the 32 values EDCBA under a negative running disparity. -/
def sixBits : List Nat :=
  [0b100111, 0b011101, 0b101101, 0b110001, 0b110101, 0b101001, 0b011001, 0b111000, 0b111001, 0b100101, 0b010101, 0b110100, 0b001101, 0b101100, 0b011100, 0b010111]
    ++ [0b011011, 0b100011, 0b010011, 0b110010, 0b001011, 0b101010, 0b011010, 0b111010, 0b110011, 0b100110, 0b010110, 0b110110, 0b001110, 0b101110, 0b011110, 0b101011]

/-- The four bits fghj of the 8 values HGF under a negative running disparity. -/
def fourBits : List Nat := [0b1011, 0b1001, 0b0101, 0b1100, 0b1101, 0b1010, 0b0110, 0b1110]

/-- A block of n bits under a running disparity: it is inverted under a positive one where it is not balanced, or is the one that alternates. -/
def blockUnder (plus : Bool) (n alternates v : Nat) : Nat := if plus && (decide (2 * bitCount n v ≠ n) || decide (v = alternates)) then 2 ^ n - 1 - v else v

/-- Running disparity after a block of n bits, Clause 36.2.4.4: `low` is the balanced block that ends in ones. -/
def disparityAfter (plus : Bool) (n low v : Nat) : Bool :=
  if n < 2 * bitCount n v ∨ v = low then true else if 2 * bitCount n v < n ∨ v = 2 ^ n - 1 - low then false else plus

/-- Running disparity after a code group. -/
def groupDisparity (plus : Bool) (g : BitVec 10) : Bool := disparityAfter (disparityAfter plus 6 0b000111 (g.toNat / 16)) 4 0b0011 (g.toNat % 16)

/-- The data code group of an octet under a running disparity; the alternate fghj avoids five equal bits. -/
def dataGroup (plus : Bool) (octet : Byte) : BitVec 10 :=
  let x := octet.toNat % 32
  let y := octet.toNat / 32
  let six := blockUnder plus 6 0b111000 (sixBits.getD x 0)
  let mid := disparityAfter plus 6 0b000111 six
  let alt := decide (y = 7) && (if mid then [11, 13, 14] else [17, 18, 20]).contains x
  BitVec.ofNat 10 (16 * six + blockUnder mid 4 0b1100 (if alt then 0b0111 else fourBits.getD y 0))

/-- K28.5, the idle. -/
def idleGroup (plus : Bool) : BitVec 10 := if plus then 0b1100000101 else 0b0011111010

/-- The octet of a valid data character under a running disparity. -/
def groupOctet (plus : Bool) (g : BitVec 10) : Option Byte := ((List.range 256).map (BitVec.ofNat 8)).find? fun b => decide (dataGroup plus b = g)

end Sys2Proof
end

