-- ==== Sys2Proof/Machine/Render.lean ====
section
/-! DEFINITION. Render far-side framing, chapter 10: lanes, alignment, overhead channels, bonds, ranging and the skew buffer, defects, and the commands of that chapter but for the release of frames. -/

namespace Sys2Proof.Machine

def State.lane (s : State) (g : Nat) : RLane := Tab.get {} s.rnd.lanes g
def State.setLane (s : State) (g : Nat) (x : RLane) : State := { s with rnd := { s.rnd with lanes := Tab.put {} s.rnd.lanes g x } }
def State.rport (s : State) (p : Nat) : RPort := Tab.get {} s.rnd.ports p
def State.setRport (s : State) (p : Nat) (x : RPort) : State := { s with rnd := { s.rnd with ports := Tab.put {} s.rnd.ports p x } }
def State.trib (s : State) (c : Nat) : Trib := Tab.get {} s.rnd.tribs c
def State.setTrib (s : State) (c : Nat) (x : Trib) : State := { s with rnd := { s.rnd with tribs := Tab.put {} s.rnd.tribs c x } }
def State.mbond (s : State) (b : Nat) : MBond := Tab.get {} s.mnd.bonds b
def State.setMbond (s : State) (b : Nat) (x : MBond) : State := { s with mnd := { s.mnd with bonds := Tab.put {} s.mnd.bonds b x } }
def State.mlane (s : State) (g : Nat) : MLane := Tab.get {} s.mnd.lanes g
def State.setMlane (s : State) (g : Nat) (x : MLane) : State := { s with mnd := { s.mnd with lanes := Tab.put {} s.mnd.lanes g x } }
def State.sbond (s : State) (b : Nat) : SBond := Tab.get {} s.slr.bonds b
def State.setSbond (s : State) (b : Nat) (x : SBond) : State := { s with slr := { s.slr with bonds := Tab.put {} s.slr.bonds b x } }

/-! ## Bonds and lanes, R380 to R382 -/

def portsOf (v : BitVec 16) : List Nat := (List.range 16).filter fun p => v.getLsbD p

/-- Global lane numbers of a bond in the order of POS, R381. -/
def bondLanes (s : State) (b : Nat) : List Nat := (portsOf (s.bond b).ports).flatMap fun p => (List.range 8).map fun l => 8 * p + l

/-- Enabled bond of a lane. -/
def bondOfLane (s : State) (g : Nat) : Option Nat := (List.range 16).find? fun b => (s.bond b).en && (s.bond b).ports.getLsbD (g / 8)

def isV1 (s : State) (b : Nat) : Bool := (s.rport (bondPort s b)).v1

/-- Frame period of a bond in ns, R363. -/
def framePeriod (s : State) (b : Nat) : Nat := if isV1 s b then 2048 else 1024

/-- Whether a lane is in service, R382. -/
def RLane.inSvc (x : RLane) : Bool := x.inFrame && x.ranged && !x.skew && !x.lidMm && !x.ldi && !x.retired

/-- Active defects of a lane, highest first, R390. -/
def RLane.defects (x : RLane) : List Nat :=
  ([(1, x.los), (2, x.loa), (3, x.lof), (4, x.oof), (5, x.lidMm), (6, x.skew), (7, x.inFrame && !x.ranged), (8, x.ldi)].filter (·.2)).map (·.1)

def svcLanes (s : State) (b : Nat) : List Nat := (bondLanes s b).filter fun g => (s.lane g).inSvc

/-- A transmit slot that may still send: ACTIVE, and not stopped by R457. -/
def KeySlot.sends (x : KeySlot) : Bool := decide (x.st = 2) && decide (x.nctr < 2 ^ 40)

/-- Whether Sealer reports a bond keyed, R455. -/
def SBond.keyed (x : SBond) : Bool :=
  (x.tx0.sends || x.tx1.sends) && (decide (2 ≤ x.rx0.st.toNat) || decide (2 ≤ x.rx1.st.toNat))

/-- STATE of a bond, R382: 0 OFF, 1 DOWN, 2 DEGRADED, 3 UP. -/
def bondState (s : State) (b : Nat) : Nat :=
  let x := s.bond b
  let n := (svcLanes s b).length
  if !x.en then 0
  else if n < x.minLanes.toNat || !(s.sbond b).keyed then 1
  else if (bondLanes s b).any fun g => !(s.lane g).retired && !(s.lane g).inSvc then 2 else 3

/-- Messages in progress on the privileged channels are discarded and counted, R374 and R375. -/
def cutMessages (s : State) (b : Nat) : State :=
  let x := s.bond b
  let n := b2n (decide (0 < x.p0Left)) + b2n (decide (0 < x.p1Left)) + b2n (decide (0 < x.p2Left))
  s.setBond b { x with p0Left := 0, p0Got := [], p1Left := 0, p1Got := [], p2Left := 0, p2Got := [], pchTrunc := bump x.pchTrunc n }

/-- The pair link goes with its bond: LINK reads LOST after PAIRED, R283. -/
def pairDown (s : State) (ports : BitVec 16) : State :=
  if ports &&& s.se.ports = 0 ∨ s.se.link = 4 then s else { s with se := { s.se with link := if s.se.link = 2 then 4 else 0 } }

/-- Distance of a position from another, modulo 2^24, and whether it is that position or a later one. -/
def posAfter (a b : Nat) : Nat := (a + 2 ^ 24 - b) % 2 ^ 24
def posFrom (a b : Nat) : Bool := decide (posAfter a b < 2 ^ 23)

/-- A lane that goes out of service in step with its frames, by RANGING or SKEW_EXCESS: what it holds of earlier positions stands, R387 and R389. -/
def RLane.leavesInStep (x : RLane) : Bool := x.inFrame && !x.lidMm && !x.ldi && !x.retired

def RLane.dns (x : RLane) : Int := match x.d with | some v => v.toInt | none => 0

/-- Hold of a lane, R385. -/
def holdNs (s : State) (b : Nat) (x : RLane) : Int := (((s.bond b).dbond.toNat : Nat) : Int) - x.dns

/-- The reference lane follows the lanes in service, R375: when it goes or changes, messages in progress are cut, and a lane other than the last one suspends the time source, R304. -/
def settleRef (s : State) (b : Nat) : State :=
  let x := s.bond b
  let now := (svcLanes s b).head?
  if now = x.ref then s
  else
    let s := if x.ref.isSome then cutMessages s b else s
    let y := s.bond b
    match now with
    | none => s.setBond b { y with ref := none }
    | some g =>
      if y.lastRef.isNone || decide (y.lastRef = some g) then s.setBond b { y with ref := some g, lastRef := some g }
      else suspend (s.setBond b { y with ref := some g, lastRef := some g, err := setErr y.err 2 }) (b + 2)

/-- The bond is judged after a change: its lanes, its STATE, its flags, its reference lane, and the readiness of its ports. `old` is the state before. A disabled bond is OFF and touches no lane and no port. -/
def settle (old s : State) (b : Nat) : State :=
  let x := s.bond b
  if !x.en then s.setBond b { x with st := 0, ref := none }
  else
    let svc := svcLanes s b
    let was := svcLanes old b
    let left := was.filter fun g => !svc.contains g
    let s := left.foldl (fun s g => let y := s.lane g; s.setLane g { y with hold := 0, frames := if y.leavesInStep then y.frames else [] }) s
    let s := (svc.filter fun g => !was.contains g).foldl (fun s g => let y := s.lane g; s.setLane g { y with hold := (holdNs s b y).toNat }) s
    let st := bondState s b
    let err := if left.isEmpty then x.err else setErr x.err 1
    let err := if st = 1 ∧ x.st ≠ 1 then setErr err 0 else err
    let s := s.setBond b { x with st := BitVec.ofNat 2 st, err := err }
    let s := if st ≤ 1 ∧ 2 ≤ x.st.toNat then pairDown s x.ports else s
    let s := settleRef s b
    (portsOf x.ports).foldl (fun s p => setFarReady s p (decide (2 ≤ st))) s

/-- The judgement of the bond of a lane that has changed. -/
def settleLane (old s : State) (g : Nat) : State :=
  match bondOfLane s g with
  | some b => settle old s b
  | none => s

/-- A change of a lane, and the judgement of its bond. -/
def laneChange (s : State) (g : Nat) (x : RLane) : State := settleLane s (s.setLane g x) g

/-! ## Defects, R390 to R393 -/

def farPart (g : Nat) : BitVec 16 := partId 3 g

/-- The flags and the entry of a defect that has just been declared, R391 and R393: `x` is the lane with the defect. A RETIRED lane and a lane of no enabled bond raise nothing. -/
def declareDefect (s : State) (g code : Nat) (x : RLane) : State :=
  if x.retired || (bondOfLane s g).isNone then s.setLane g x
  else
    let top := decide (x.defects.head? = some code)
    let p := g / 8
    let allLos := decide (code = 1) && (List.range 8).all fun l => if 8 * p + l = g then true else (s.lane (8 * p + l)).los
    let x := if top && !allLos then { x with err := setErr x.err code } else x
    let x := if top && decide (code = 4) then { x with oofCount := bump x.oofCount 1 } else x
    let x := if top && decide (code = 7) then { x with rangeCount := bump x.rangeCount 1 } else x
    let s := if allLos then s.setRport p { s.rport p with err := setErr (s.rport p).err 0 } else s
    let s := journal (countDefect s (farPart g)) 0x01 (farPart g) [BitVec.ofNat 8 code, 1]
    s.setLane g x

/-- A defect is declared, and the bond is judged. -/
def raiseDefect (s : State) (g code : Nat) (x : RLane) : State := settleLane s (declareDefect s g code x) g

/-- The entry of a defect that has just cleared. -/
def withdrawDefect (s : State) (g code : Nat) (x : RLane) : State :=
  if x.retired || (bondOfLane s g).isNone then s.setLane g x
  else (journal s 0x01 (farPart g) [BitVec.ofNat 8 code, 0]).setLane g x

/-- A defect clears, and the bond is judged. -/
def clearDefect (s : State) (g code : Nat) (x : RLane) : State := settleLane s (withdrawDefect s g code x) g

/-- A lane that loses its alignment: it is in SEARCH. -/
def RLane.lost (x : RLane) : RLane := { x with inFrame := false, ranged := false, stable := 0, badFaw := 0, badSeq := 0, fn0s := [] }

/-- A lane that loses its signal or its inner alignment: the octets that have come are gone as well. -/
def RLane.cut (x : RLane) : RLane := { x.lost with stream := [], flags := [] }

/-- FAR_LOS_ASSERT. -/
def farLos (s : State) (g : Nat) : State :=
  let x := s.lane g
  if x.los then s else raiseDefect s g 1 { x.cut with los := true }
def execFarLosAssert (g : Fin 128) (s : State) : Host.Outcome State Fault Refusal := act s (farLos s g.val)

/-- LOS_CLEAR: SEARCH begins. -/
def losClear (s : State) (g : Nat) : State :=
  let x := s.lane g
  if x.los then clearDefect s g 1 { x with los := false } else s
def execLosClear (g : Fin 128) (s : State) : Host.Outcome State Fault Refusal := act s (losClear s g.val)

/-- LOF_DECLARE, R372. -/
def lofDeclare (s : State) (g : Nat) : State :=
  let x := s.lane g
  if x.oof && !x.lof then raiseDefect s g 3 { x with lof := true } else s
def execLofDeclare (g : Fin 128) (s : State) : Host.Outcome State Fault Refusal := act s (lofDeclare s g.val)

/-- LOF_CLEAR, R372. -/
def lofClear (s : State) (g : Nat) : State :=
  let x := s.lane g
  if x.lof && x.inFrame then clearDefect s g 3 { x with lof := false } else s
def execLofClear (g : Fin 128) (s : State) : Host.Outcome State Fault Refusal := act s (lofClear s g.val)

/-- LOA, R405: inner alignment lost, and gained again. -/
def loaDeclare (s : State) (g : Nat) : State :=
  let x := s.lane g
  if x.loa then s else raiseDefect s g 2 { x.cut with loa := true }
def loaClear (s : State) (g : Nat) : State :=
  let x := s.lane g
  if x.loa then clearDefect s g 2 { x with loa := false } else s

/-! ## The skew buffer, R385 and R386 -/

/-- Bytes of a bond's area of a kind, R348. -/
def areaBytes (s : State) (kind : Byte) (b : Nat) : Nat := max (planBudget s.stn.cur kind b) (planBudget s.stn.next kind b)

/-- SHARE: frame places per lane. -/
def share (s : State) (b : Nat) : Nat :=
  let n := (bondLanes s b).length
  if n = 0 then 0 else areaBytes s 0x05 b / (16384 * n)

/-- Guard in ns; values below 51 µs act as 51. -/
def guardNs (x : Bond) : Nat := max 51 x.guardUs.toNat * 1000

/-- Whether a lane's hold keeps the limits of R386; a lane that is slower than D_bond less the guard fails, R387. -/
def holdOk (s : State) (b : Nat) (maxD : Int) (x : RLane) : Bool :=
  let h := holdNs s b x
  let sh := share s b
  decide (((guardNs (s.bond b) : Nat) : Int) ≤ h) && (decide (sh = 0) || decide (h ≤ (((sh - 1) * framePeriod s b : Nat) : Int))) && decide (maxD - x.dns ≤ 4000000)

/-- The largest of some delays, or 0. -/
def maxInt (ds : List Int) : Int := match ds with | [] => 0 | d :: r => r.foldl max d

/-- D_bond is recomputed from the lanes that count in its target, R385. -/
def moveDbond (s : State) (b : Nat) (ds : List Int) : State :=
  if ds.isEmpty then s
  else
    let x := s.bond b
    let t := (maxInt ds + ((guardNs x : Nat) : Int)).toNat
    let v := x.dbond.toNat
    if v < t then s.setBond b { x with dbond := BitVec.ofNat 32 t, err := setErr x.err 3 }
    else s.setBond b { x with dbond := BitVec.ofNat 32 (v - min 1000 (v - t)) }

/-- Whether a lane has its measurements, R387. -/
def rangedEnough (s : State) (b : Nat) (x : RLane) : Bool := decide (max 1 (s.bond b).rangeStable.toNat ≤ x.stable)

/-- Whether a lane that is not in service may enter it at a boundary if its hold passes. -/
def mayEnter (s : State) (b : Nat) (x : RLane) : Bool :=
  x.inFrame && !x.inSvc && !x.retired && !x.lidMm && !x.ldi && x.d.isSome && (if x.ranged then x.skew else rangedEnough s b x)

/-- A lane at a boundary: its hold is tested, and it enters service at the multiframe's FN 0, stays, leaves, or is kept out, R386 and R387. -/
def holdLane (b mfn : Nat) (maxD : Int) (s : State) (g : Nat) : State :=
  let x := s.lane g
  if holdOk s b maxD x then
    let y := { x with ranged := true, skew := false, hold := (holdNs s b x).toNat, dSvc := x.d }
    if x.inSvc then s.setLane g y
    else
      let s := if x.skew then withdrawDefect s g 6 y else s
      let s := if x.ranged then s else withdrawDefect s g 7 y
      s.setLane g { y with svcFrom := mfn * 256 }
  else if x.skew then s
  else declareDefect s g 6 { x with skew := true, hold := 0 }

/-- The boundary of a multiframe: D_bond first, then the holds and the lanes that enter or leave service, judged once, R385 to R387 and R389. -/
def boundary (s : State) (b mfn : Nat) : State :=
  let lanes := bondLanes s b
  let svc := lanes.filter fun g => (s.lane g).inSvc
  let cands := lanes.filter fun g => mayEnter s b (s.lane g)
  let counted := (if (s.bond b).follow || svc.isEmpty then svc ++ cands else svc).map fun g => (s.lane g).dns
  let t := moveDbond s b counted
  let t := t.setBond b { t.bond b with mfAt := some mfn }
  settle s ((svc ++ cands).foldl (holdLane b mfn (maxInt counted)) t) b

/-! ## Ranging, R383, R384 and R387 -/

/-- The last 64 entries of a list. -/
def last64 {α : Type} (l : List α) : List α := l.drop (l.length - 64)

/-- A lane in service enters RANGING because its delay has stepped: its frames are erased from FN 0 of the multiframe that gave the measurement. -/
def enterRanging (s : State) (b g mfn : Nat) (x : RLane) (before after : BitVec 32) : State :=
  let s := journal s 0x02 (farPart g) (leBytes 4 before.toNat ++ leBytes 4 after.toNat)
  let s := raiseDefect s g 7 { x with ranged := false, stable := 0, d := some after, dSvc := some after, hold := 0, frames := x.frames.filter fun f => !posFrom f.pos (mfn * 256) }
  suspend s (b + 2)

/-- One lane's measurement. -/
def measureLane (s : State) (b g mfn : Nat) (new : BitVec 32) : State :=
  let x := s.lane g
  let far := fun o : BitVec 32 => decide (50000 < (new.toInt - o.toInt).natAbs)
  if x.ranged then
    match x.d with
    | some o => if far o then enterRanging s b g mfn x o new else s.setLane g { x with d := some new }
    | none => s.setLane g { x with d := some new }
  else
    let near := match x.d with | some o => decide ((new.toInt - o.toInt).natAbs ≤ 1000) | none => false
    let first := decide (x.stable = 0)
    let y := { x with d := some new, stable := if !first && near then x.stable + 1 else 1 }
    match first, x.dSvc with
    | true, some o =>
      if far o then suspend (journal (s.setLane g y) 0x02 (farPart g) (leBytes 4 o.toNat ++ leBytes 4 new.toNat)) (b + 2) else s.setLane g y
    | _, _ => s.setLane g y

/-- The lower median of some numbers. -/
def medianInt (l : List Int) : Option Int :=
  l.find? fun v => decide (2 * (l.filter (· < v)).length ≤ l.length) && decide (l.length ≤ 2 * (l.filter (· ≤ v)).length)

/-- The whole baseline moves by what most of the measured lanes have moved, and D_bond by the same, so that no hold changes, R384. -/
def moveBaseline (s : State) (b : Nat) (ms : List (Nat × BitVec 32)) : State :=
  let x := s.bond b
  match x.baseDue, medianInt (ms.filterMap fun m => (s.lane m.1).d.map fun o => m.2.toInt - o.toInt) with
  | true, some v =>
    let move := fun d : Option (BitVec 32) => d.map fun o => BitVec.ofInt 32 (o.toInt + v)
    (bondLanes s b).foldl (fun s g => let y := s.lane g; s.setLane g { y with d := move y.d, dSvc := move y.dSvc })
      (s.setBond b { x with baseDue := false, dbond := BitVec.ofInt 32 (((x.dbond.toNat : Nat) : Int) + v) })
  | _, _ => s

/-- Measurements of lanes from one multiframe: a new baseline where one is due, else each is judged, R384 and R387. -/
def takeMeasures (s : State) (b mfn : Nat) (ms : List (Nat × BitVec 32)) : State :=
  let s := moveBaseline s b (ms.filter fun m => (s.lane m.1).rebase)
  ms.foldl (fun s m =>
    let x := s.lane m.1
    if x.rebase then s.setLane m.1 { x with d := some m.2, rebase := false, dSvc := if x.ranged then some m.2 else x.dSvc, stable := if x.ranged then x.stable else 1 }
    else measureLane s b m.1 mfn m.2) s

/-- A step of either device's time: the next measurement of every lane is a new baseline, R384. -/
def newBaseline (s : State) (b : Nat) : State :=
  let s := s.setBond b { s.bond b with baseDue := true, times := [] }
  (bondLanes s b).foldl (fun s g => s.setLane g { s.lane g with rebase := true }) s

/-- A step of this device's own time is noticed: arrivals from before it no longer count. -/
def noteOwnStep (s : State) (b : Nat) : State :=
  let x := s.bond b
  if x.peerEpoch.isNone || decide (x.ownEpoch = s.plb.stepEpoch) then s
  else
    let s := newBaseline (s.setBond b { x with ownEpoch := s.plb.stepEpoch }) b
    (bondLanes s b).foldl (fun s g => s.setLane g { s.lane g with fn0s := [] }) s

/-- FN 0 of a multiframe arrives on a lane: its timestamp is kept, and measured if the multiframe's ranging message has come, R383. -/
def laneStart (s : State) (b g mfn : Nat) (a : PCount) : State :=
  let s := noteOwnStep s b
  let x := s.lane g
  let s := s.setLane g { x with fn0s := last64 (x.fn0s ++ [(mfn, a)]) }
  match (s.bond b).times.find? fun t => decide (t.1 = mfn) with
  | some t => takeMeasures s b mfn [(g, BitVec.ofInt 32 (signedDiff a t.2))]
  | none => s

/-- RANGING_MESSAGE: the message of P2 for a multiframe, R376 and R383. -/
def rangingMessage (s : State) (b : Nat) (bytes : List Byte) : State :=
  let ok := decide (bytes.length = 16) && decide (bytes.headD 0 = 1) && decide (crc32c (bytes.take 12) = BitVec.ofNat 32 (beAt bytes 12 4))
  if !ok || !(s.bond b).en then s
  else
    let epoch : Byte := BitVec.ofNat 8 (beAt bytes 1 1)
    let mfn := beAt bytes 2 2
    let tx : PCount := BitVec.ofNat 48 (beAt bytes 4 6)
    let s := noteOwnStep s b
    let x := s.bond b
    let s := match x.peerEpoch with
      | some e => if e = epoch then s else newBaseline s b
      | none => s
    let y := s.bond b
    let s := s.setBond b { y with peerEpoch := some epoch, ownEpoch := s.plb.stepEpoch, times := last64 (y.times ++ [(mfn, tx)]) }
    takeMeasures s b mfn ((bondLanes s b).filterMap fun g =>
      let x := s.lane g
      if x.inFrame && !x.retired then (x.fn0s.find? fun a => decide (a.1 = mfn)).map fun a => (g, BitVec.ofInt 32 (signedDiff a.2 tx)) else none)

def execRangingMessage (b : Fin 16) (bytes : List Byte) (s : State) : Host.Outcome State Fault Refusal := act s (rangingMessage s b.val bytes)

/-! ## Frames, R366 to R371 -/

/-- FAW of a framing version, R363. -/
def fawOf (v1 : Bool) : List Byte := if v1 then beBytes 6 0xC53A69A4F01E else beBytes 6 0x3AC5965B0FE1

/-- Number of 1 bits of a byte. -/
def popByte (b : Byte) : Nat := (List.range 8).foldl (fun n i => n + b2n (b.getLsbD i)) 0

def bitDiff (a b : List Byte) : Nat := (List.zip a b).foldl (fun n p => n + popByte (p.1 ^^^ p.2)) 0

/-- Whether the overhead of a frame passes OHCRC, R369. -/
def ohcrcOk (b : List Byte) : Bool := decide (crc32c (slice b 6 54) = BitVec.ofNat 32 (beAt b 60 4))

/-- KEY_READY: a P1 message of the peer, R453 and R454. -/
def keyReady (s : State) (b : Nat) (m : List Byte) : State :=
  let ok := decide (m.length = 16) && decide (beAt m 2 1 = 1) && decide (crc32c (m.take 12) = BitVec.ofNat 32 (beAt m 12 4))
  let x := s.sbond b
  if !ok then s
  else match ([0, 1] : List (Fin 2)).find? fun e => decide ((if e = 0 then x.tx0 else x.tx1).st = 1) && decide ((if e = 0 then x.tx0 else x.tx1).id = BitVec.ofNat 64 (beAt m 4 8)) with
    | some e => s.setSbond b { x with switchTo := some e }
    | none => s
def execKeyReady (b : Fin 16) (bytes : List Byte) (s : State) : Host.Outcome State Fault Refusal := act s (keyReady s b.val bytes)

/-- The time message that 48 bytes of P0 hold, R301. -/
def parseTime (m : List Byte) : TimeMsg :=
  let full := fun off : Nat => (beAt m off 6 * 1000000000 + beAt m (off + 6) 4) * 65536 + beAt m (off + 10) 2
  { version := BitVec.ofNat 8 (beAt m 0 1), locked := bitOf (beAt m 1 1) 0, usesYou := bitOf (beAt m 1 1) 1, hops := BitVec.ofNat 8 (beAt m 2 1), seq := BitVec.ofNat 8 (beAt m 3 1), tx := full 4, echoTx := full 16, echoRx := full 28, echoSeq := BitVec.ofNat 8 (beAt m 40 1), crcOk := decide (crc32c (m.take 44) = BitVec.ofNat 32 (beAt m 44 4)) }

/-- What a privileged channel comes to at a frame, R374: bytes still to come, bytes that have come, whether a message was cut, and the message that is complete. A start whose length is out of R373's range begins none. -/
def pchStep (left : Nat) (got slot : List Byte) (start : Bool) (len : Nat) : Nat × List Byte × Bool × Option (List Byte) :=
  if start then
    if slot.length < len ∧ len ≤ 2048 then (len - slot.length, slot, decide (0 < left), none) else (0, [], decide (0 < left), none)
  else if left = 0 then (0, [], false, none)
  else
    let now := got ++ slot.take left
    if left ≤ slot.length then (0, [], false, some now) else (left - slot.length, now, false, none)

/-- The octets of a tributary slot go into the drop FIFO, R379. -/
def tribSlot (s : State) (b : Nat) (bytes : List Byte) : State :=
  (List.range 4).foldl (fun s c =>
    let t := s.trib c
    if !(t.en && decide (t.bond.toNat = b)) then s
    else
      let jc := beAt bytes 14 1
      if 16 < jc then s.setTrib c { t with lost := bump t.lost 1, err := setErr t.err 2 }
      else
        let os := slice bytes 32 jc
        let room := 8192 - t.dropFifo.length
        let excess := os.length - room
        let t := { t with dropFifo := t.dropFifo ++ os.take room }
        s.setTrib c (if 0 < excess then { t with slip := bump t.slip excess, err := setErr t.err 1 } else t)) s

/-- The lane whose shared fields a bond takes: its reference lane, R375; while no lane is in service, the lowest one in frame, so that ranging and keys can begin. -/
def sharedLane (s : State) (b : Nat) : Option Nat :=
  match (s.bond b).ref with
  | some g => some g
  | none => (bondLanes s b).find? fun g => (s.lane g).inFrame && !(s.lane g).retired && !(s.lane g).lidMm

/-- The privileged channels and the tributary slot of a frame whose shared fields are taken; a message acts when its last byte has come, R374 to R379. -/
def sharedFields (s : State) (b g : Nat) (bytes : List Byte) (arrival : FullTime) : State :=
  let s := if (s.bond b).chanLane = some g then s else cutMessages s b
  let x := s.bond b
  let ps := beAt bytes 13 1
  let (l0, g0, c0, m0) := pchStep x.p0Left x.p0Got (slice bytes 16 4) (bitOf ps 0) 48
  let len1 := beAt bytes 20 2
  let (l1, g1, c1, m1) := pchStep x.p1Left x.p1Got (slice bytes 20 8) (bitOf ps 1) (if len1 < 16 then 0 else len1)
  let (l2, g2, c2, m2) := pchStep x.p2Left x.p2Got (slice bytes 28 4) (bitOf ps 2) 16
  let s := s.setBond b { x with chanLane := some g, p0Left := l0, p0Got := g0, p1Left := l1, p1Got := g1, p2Left := l2, p2Got := g2, p0At := if bitOf ps 0 then arrival else x.p0At, pchTrunc := bump x.pchTrunc (b2n c0 + b2n c1 + b2n c2) }
  let s := tribSlot s b bytes
  let s := match m0 with | some m => timeMessage s b (parseTime m) (s.bond b).p0At | none => s
  let s := match m1 with | some m => keyReady s b m | none => s
  match m2 with | some m => rangingMessage s b m | none => s

/-- The shared fields of a frame whose overhead fails on the reference lane are lost, R375 and R379. -/
def sharedLost (s : State) (b : Nat) : State :=
  (List.range 4).foldl (fun s c =>
    let t := s.trib c
    if t.en && decide (t.bond.toNat = b) then s.setTrib c { t with lost := bump t.lost 1, err := setErr t.err 2 } else s) (cutMessages s b)

/-- LID_MM, R381: each of its cases is judged over four frames of its own. -/
def judgeIdentity (s : State) (b g : Nat) : State :=
  let x := s.lane g
  let others := (bondLanes s b).filter fun h => decide (h ≠ g) && (s.lane h).inFrame && decide ((s.lane h).rxPos = x.rxPos)
  let run := fun (bad : Bool) (n : Nat) => if bad then n + 1 else 0
  let badBond := decide (x.rxBond ≠ (s.bond b).peerBond)
  let badPos := decide ((bondLanes s b).length ≤ x.rxPos.toNat)
  let x := { x with mmBond := run badBond x.mmBond, mmPos := run badPos x.mmPos, mmDup := run (!others.isEmpty) x.mmDup, mmGood := run (!badBond && !badPos && others.isEmpty) x.mmGood }
  if (4 ≤ x.mmBond ∨ 4 ≤ x.mmPos ∨ 4 ≤ x.mmDup) ∧ !x.lidMm then raiseDefect s g 5 { x with lidMm := true }
  else if 4 ≤ x.mmGood ∧ x.lidMm then clearDefect s g 5 { x with lidMm := false }
  else s.setLane g x

/-- Received RDI over four frames, R390 and R391. -/
def RLane.noteRdi (x : RLane) (v : Bool) : RLane :=
  let n := if v then x.rdiSet + 1 else 0
  let m := if v then 0 else x.rdiClr + 1
  let rise := decide (4 ≤ n) && !x.rdiRx
  { x with rdiSet := n, rdiClr := m, rdiRx := (x.rdiRx || rise) && decide (m < 4), err := if rise && x.defects.isEmpty then setErr x.err 9 else x.err }

/-- LDI counted over frames that pass OHCRC. -/
def RLane.noteLdi (x : RLane) (v : Bool) : RLane := { x with ldiSet := (if v then x.ldiSet + 1 else 0), ldiClr := (if v then 0 else x.ldiClr + 1) }

/-- LDI and received RDI, R390. -/
def judgeFlags (s : State) (g : Nat) (flags : Nat) : State :=
  let x := ((s.lane g).noteRdi (bitOf flags 0)).noteLdi (bitOf flags 1)
  if 4 ≤ x.ldiSet ∧ !x.ldi then raiseDefect s g 8 { x with ldi := true }
  else if 4 ≤ x.ldiClr ∧ x.ldi then clearDefect s g 8 { x with ldi := false }
  else s.setLane g x

/-- The overhead of a frame that passes OHCRC. -/
def overhead (s : State) (b g pos : Nat) (bytes : List Byte) (arrival : FullTime) : State :=
  let x := s.lane g
  let vb := beAt bytes 10 1
  let x := { x with rxLid := BitVec.ofNat 8 (beAt bytes 9 1), rxVer := BitVec.ofNat 4 (vb / 16), rxBond := BitVec.ofNat 4 (vb % 16), rxPos := BitVec.ofNat 8 (beAt bytes 11 1), erasedOh := bitOf (beAt bytes 48 1) 5 }
  let s := judgeIdentity (s.setLane g x) b g
  let s := judgeFlags s g (beAt bytes 12 1)
  let x := s.lane g
  let s := if x.inSvc && posFrom pos x.svcFrom then s.setLane g { x with svcPos := some x.rxPos } else s
  if sharedLane s b = some g then sharedFields s b g bytes arrival else s

/-- A lane in service holds the frame for its release, unless its position has been released or the bond has no skew area, R386 and R388. -/
def holdFrame (s : State) (b g pos : Nat) (bytes : List Byte) (flagged ohOk : Bool) : State :=
  let x := s.lane g
  let past := match (s.bond b).released with
    | some r => posFrom r pos
    | none => false
  let v1 := isV1 s b
  let f : HeldFrame := { pos := pos, lanePos := x.rxPos, payload := padTo 0 16320 (bytes.drop 64), flagged := flagged, ohOk := ohOk, erased := x.erasedOh, mstat := BitVec.ofNat 8 (beAt bytes 48 1), k := BitVec.ofNat 8 (beAt bytes 49 1), ack := BitVec.ofNat 32 (if v1 then beAt bytes 50 3 else beAt bytes 50 4), nack := BitVec.ofNat 32 (if v1 then beAt bytes 53 3 else beAt bytes 54 4), ncnt := BitVec.ofNat 8 (if v1 then beAt bytes 56 1 else beAt bytes 58 1), ntag := BitVec.ofNat 8 (if v1 then beAt bytes 57 1 else beAt bytes 59 1), ke := bitOf (beAt bytes 12 1) 2 }
  if x.inSvc && posFrom pos x.svcFrom && !past && decide (0 < share s b) then s.setLane g { x with frames := x.frames ++ [f] } else s

/-- Whether FN 0 on a lane is the boundary of a multiframe of its bond that has not come yet: the first of the lanes in service, or about to be, brings it; while there is none, any lane in frame, R385. -/
def bringsBoundary (s : State) (b g mfn : Nat) : Bool :=
  let x := s.lane g
  let news := match (s.bond b).mfAt with
    | none => true
    | some m => decide (mfn ≠ m) && decide ((mfn + 65536 - m) % 65536 < 32768)
  news && (x.inSvc || mayEnter s b x || ((svcLanes s b).isEmpty && !x.retired && !x.lidMm))

/-- FN 0 on a lane: the boundary of the multiframe, and the lane's timestamp. -/
def multiframeStart (s : State) (b g mfn : Nat) (a : PCount) : State :=
  let s := if bringsBoundary s b g mfn then boundary s b mfn else s
  laneStart s b g mfn a

/-- A frame of a lane that is in frame: FAW and count are judged, then the overhead and the payload are used, R369 and R371. -/
def inFrameReceive (s : State) (b g : Nat) (bytes : List Byte) (flagged : Bool) (arrival : FullTime) : State :=
  let x := s.lane g
  let ohOk := ohcrcOk bytes
  let here := beAt bytes 7 2 * 256 + beAt bytes 6 1
  let bad := decide (2 < bitDiff (bytes.take 6) (fawOf (isV1 s b)))
  let badFaw := if bad then x.badFaw + 1 else 0
  let badSeq := if ohOk then (if here = x.next then 0 else x.badSeq + 1) else x.badSeq
  let pos := x.next
  let x := { x with badFaw := badFaw, badSeq := badSeq, next := (x.next + 1) % 2 ^ 24 }
  let x := if ohOk then x else { x with ohcrcCount := bump x.ohcrcCount 1, err := setErr x.err 11 }
  if 4 ≤ badFaw ∨ 4 ≤ badSeq then raiseDefect s g 4 { x.lost with oof := true }
  else
    let s := s.setLane g x
    let s := if pos % 256 = 0 then multiframeStart s b g (pos / 256) (BitVec.ofNat 48 (arrival / 65536)) else s
    if ohOk then holdFrame (overhead s b g pos bytes arrival) b g pos bytes flagged true
    else holdFrame (if sharedLane s b = some g then sharedLost s b else s) b g pos bytes flagged false

/-- Octets leave the front of a lane's stream. -/
def RLane.consume (x : RLane) (n : Nat) : RLane :=
  { x with stream := x.stream.drop n, flags := (x.flags.filter fun f => decide (n < f.1 + f.2)).map fun f => (f.1 - n, f.1 + f.2 - n - (f.1 - n)) }

/-- Whether an octet of the payload of the frame at the front of the stream is flagged, R406 and R409. -/
def RLane.payloadFlagged (x : RLane) : Bool := x.flags.any fun f => decide (f.1 < 16384) && decide (64 < f.1 + f.2)

/-- MFN × 256 + FN of an overhead. -/
def overheadPos (b : List Byte) : Nat := beAt b 7 2 * 256 + beAt b 6 1

/-- SEARCH, R370: each octet position is tested in turn; a candidate is confirmed one frame on, or counted and passed over. The lane stops where octets are still to come. -/
def RLane.hunt (v1 : Bool) : (fuel : Nat) → RLane → RLane
  | 0, x => x
  | n + 1, x =>
    let head := x.stream.take 64
    let next := slice x.stream 16384 64
    if head.length < 64 then x
    else if head.take 6 ≠ fawOf v1 ∨ !ohcrcOk head ∨ beAt head 10 1 / 16 ≠ (if v1 then 1 else 2) then RLane.hunt v1 n (x.consume 1)
    else if next.length < 64 then x
    else if next.take 6 = fawOf v1 ∧ ohcrcOk next ∧ overheadPos next = (overheadPos head + 1) % 2 ^ 24 then
      { x.consume 16384 with inFrame := true, ranged := false, next := overheadPos next, badFaw := 0, badSeq := 0, stable := 0, mmBond := 0, mmPos := 0, mmDup := 0, mmGood := 0 }
    else RLane.hunt v1 n { x.consume 1 with falseCount := bump x.falseCount 1, err := setErr x.err 10 }

/-- A lane in SEARCH hunts in what has come; with alignment it goes to RANGING, R372. -/
def searchReceive (s : State) (b g : Nat) : State :=
  let x := s.lane g
  let y := x.hunt (isV1 s b) (x.stream.length + 1)
  if !y.inFrame then s.setLane g y
  else
    let s := if y.oof then clearDefect s g 4 { y with oof := false } else laneChange s g y
    raiseDefect s g 7 (s.lane g)

/-- The frame at the front of the stream of a lane that is in frame, if all its octets have come. -/
def takeOctets (s : State) (b g : Nat) (arrival : FullTime) : State :=
  let x := s.lane g
  let bytes := x.stream.take 16384
  if x.inFrame && decide (bytes.length = 16384) then inFrameReceive (s.setLane g (x.consume 16384)) b g bytes x.payloadFlagged arrival else s

/-- FRAME_RECEIVE: a far lane takes a frame from its octets; `arrival` is its first bit at the pins. -/
def frameReceive (s : State) (g : Nat) (arrival : FullTime) : State :=
  let x := s.lane g
  match bondOfLane s g with
  | none => s
  | some b =>
    if x.los || x.loa || x.retired then s
    else takeOctets (if x.inFrame then s else searchReceive s b g) b g arrival

def execFrameReceive (g : Fin 128) (arrival : FullTime) (s : State) : Host.Outcome State Fault Refusal :=
  act s (frameReceive s g.val arrival)

/-! ## Tributaries, R377 to R379 -/

/-- An octet from OS(c + 4) joins the add FIFO, R378. -/
def tribAdd (s : State) (c : Nat) (o : Byte) : State :=
  let t := s.trib c
  if 8192 ≤ t.addFifo.length then s.setTrib c { t with slip := bump t.slip 1, err := setErr t.err 0 }
  else s.setTrib c { t with addFifo := t.addFifo ++ [o] }

/-- TRIB_ADD_OCTET: a code group on OS(c + 4); K28.5 and what is no data character are discarded, R625. -/
def tribAddOctet (s : State) (c : Nat) (g : BitVec 10) : State :=
  let plus := (s.trib c).rxPlus
  let s := s.setTrib c { s.trib c with rxPlus := groupDisparity plus g }
  match groupOctet plus g with
  | some o => tribAdd s c o
  | none => s
def execTribAddOctet (c : Fin 4) (group : BitVec 10) (s : State) : Host.Outcome State Fault Refusal := act s (tribAddOctet s c.val group)

/-- DROP_FIFO_SEND: OSc sends the next octet of its drop FIFO, or the idle when it is empty; no level at all during reset, R627. -/
def dropFifoSend (s : State) (c : Nat) : State :=
  let t := s.trib c
  match t.dropFifo with
  | [] => if isUp s then let g := idleGroup t.txPlus; emit (s.setTrib c { t with txPlus := groupDisparity t.txPlus g }) (.os c none g) else s
  | o :: r => let g := dataGroup t.txPlus o; emit (s.setTrib c { t with dropFifo := r, txPlus := groupDisparity t.txPlus g }) (.os c (some o) g)
def execDropFifoSend (c : Fin 4) (s : State) : Host.Outcome State Fault Refusal := act s (dropFifoSend s c.val)

/-- TRIB_CFG_WRITE, R379 and R398. -/
def tribCfgWrite (s : State) (c : Nat) (v : BitVec 32) : State :=
  let t := s.trib c
  let en := v.getLsbD 31
  let b := bitsOf v.toNat 27 24
  let rate := bitsOf v.toNat 16 0
  let taken := (List.range 4).any fun d => decide (d ≠ c) && (s.trib d).en && decide ((s.trib d).bond.toNat = b)
  if (en && (!(s.bond b).en || taken)) || decide ((if isV1 s b then 60000 else 100000) < rate) then s.setTrib c { t with err := setErr t.err 3 }
  else s.setTrib c { t with en := en, bond := BitVec.ofNat 4 b, rate := BitVec.ofNat 17 rate }
def execTribCfgWrite (c : Fin 4) (value : BitVec 32) (s : State) : Host.Outcome State Fault Refusal := act s (tribCfgWrite s c.val value)

/-! ## Configuration of bonds and ports -/

/-- Data lanes k and parity lanes m of a bond, R407. -/
def parityLanes (x : MBond) : Nat := match x.m.toNat with | 0 => 0 | 1 => 1 | 2 => 2 | _ => 4
def dataLanes (s : State) (b : Nat) : Nat := (bondLanes s b).length - parityLanes (s.mbond b)

/-- MIN_LOW of R411 follows the settings. -/
def judgeMinLow (s : State) (b : Nat) : State :=
  let x := s.mbond b
  let low := (s.bond b).en && decide ((s.bond b).minLanes.toNat < dataLanes s b)
  s.setMbond b { x with minLow := low, err := if low && !x.minLow then setErr x.err 8 else x.err }

/-- A lane of a bond that has just been enabled or disabled starts afresh; its counters and flags stay. -/
def RLane.fresh (x : RLane) : RLane :=
  { retired := x.retired, err := x.err, oofCount := x.oofCount, ohcrcCount := x.ohcrcCount, lateCount := x.lateCount, rangeCount := x.rangeCount, falseCount := x.falseCount, los := x.los, loa := x.loa, rxLid := x.rxLid, rxVer := x.rxVer, rxBond := x.rxBond, rxPos := x.rxPos, d := x.d, dSvc := x.dSvc, svcPos := x.svcPos }

/-- What coding and replay keep of a bond ends when its EN changes: TXSEQ is 0 and the receiver re-bases, R419 and R425. -/
def MBond.fresh (x : MBond) : MBond :=
  { x with txSeq := 0, ackIn := 0, rxAck := 0, rebase := true, done := [], missing := [], requests := [], served := none, toServe := [], store := [], eNow := 0, eLast := 0, moved := [], cfgMm := false, mmBad := 0, mmGood := 0 }

/-- Whether R380 forbids an enabled bond to take or keep these settings. -/
def bondForbidden (s : State) (b : Nat) (ports : BitVec 16) (minLanes : Nat) : Bool :=
  let ps := portsOf ports
  let taken := (List.range 16).any fun c => decide (c ≠ b) && (s.bond c).en && decide ((s.bond c).ports &&& ports ≠ 0)
  let mixed := match ps with
    | [] => false
    | p :: r => r.any fun q => decide ((s.rport q).v1 ≠ (s.rport p).v1)
  taken || mixed || decide (minLanes = 0) || decide (8 * ps.length < minLanes) || hasBudget s 0x04 b || hasBudget s 0x05 b || hasBudget s 0x07 b

/-- BOND_CFG_WRITE: RND_BONDb_CFG, R380. A fall of EN empties the key slots, R454. -/
def bondCfgWrite (s : State) (b : Nat) (v : BitVec 32) : State :=
  let x := s.bond b
  let en := v.getLsbD 31
  let ports := v.setWidth 16
  let min_ := bitsOf v.toNat 23 16
  if (en || x.en) && bondForbidden s b ports min_ then s.setBond b { x with err := setErr x.err 4 }
  else
    let old := s
    let y := { x with en := en, follow := v.getLsbD 30, minLanes := BitVec.ofNat 8 min_, ports := ports }
    let lanes := if x.en then bondLanes s b else []
    let s := s.setBond b y
    if en ≠ x.en ∨ (en ∧ ports ≠ x.ports) then
      let s := s.setBond b { y with dbond := 0, ref := none, peerEpoch := none, p0Left := 0, p0Got := [], p1Left := 0, p1Got := [], p2Left := 0, p2Got := [], p0Tx := [], p1Tx := [], p2Tx := [], p1Queue := [], mfAt := none, times := [], baseDue := false, chanLane := none, released := none }
      let s := (lanes ++ (if en then bondLanes s b else [])).foldl (fun s g => s.setLane g (s.lane g).fresh) s
      let s := s.setMbond b (s.mbond b).fresh
      let s := if en then (if x.en then s else fairRestart s b) else
        (let z := s.sbond b; s.setSbond b { z with tx0 := {}, tx1 := {}, rx0 := {}, rx1 := {}, switchTo := none })
      let s := if x.en then (portsOf x.ports).foldl (fun s p => setFarReady s p false) s else s
      judgeMinLow (settle s s b) b
    else judgeMinLow (settle old s b) b

def execBondCfgWrite (b : Fin 16) (value : BitVec 32) (s : State) : Host.Outcome State Fault Refusal := act s (bondCfgWrite s b.val value)

/-- A write of RND_BONDb_CFG2, refused for an enabled bond under the conditions of R380. -/
def bondCfg2Write (s : State) (b : Nat) (v : BitVec 32) : State :=
  let x := s.bond b
  if x.en && bondForbidden s b x.ports x.minLanes.toNat then s.setBond b { x with err := setErr x.err 4 }
  else s.setBond b { x with peerBond := BitVec.ofNat 4 (bitsOf v.toNat 31 28), rangeStable := BitVec.ofNat 8 (bitsOf v.toNat 23 16), guardUs := v.setWidth 16 }

/-- RND_PORT_CFG.CLR_COUNTS. -/
def rndClrCounts (s : State) (p : Nat) : State :=
  let s := (List.range 8).foldl (fun s l =>
    let x := s.lane (8 * p + l)
    s.setLane (8 * p + l) { x with oofCount := 0, ohcrcCount := 0, lateCount := 0, rangeCount := 0, falseCount := 0 }) s
  let s := s.setBond p { s.bond p with pchTrunc := 0 }
  if p < 4 then s.setTrib p { s.trib p with slip := 0, lost := 0 } else s

/-- A write of RND_PORT_CFG.V1, R395. -/
def portV1Write (s : State) (p : Nat) (v : BitVec 32) : State :=
  let x := s.rport p
  let used := (List.range 16).any fun b => (s.bond b).en && (s.bond b).ports.getLsbD p
  if v.getLsbD 0 = x.v1 then s
  else if used then s.setRport p { x with err := setErr x.err 1 }
  else s.setRport p { x with v1 := v.getLsbD 0 }

/-- A lane is retired, or taken out of RETIRED and searches again, R572 and R574. -/
def setRetired (s : State) (g : Nat) (r : Bool) : State :=
  let x := s.lane g
  if r = x.retired then s
  else laneChange s g (if r then { x.cut with retired := true, hold := 0, frames := [] } else { x.cut with retired := false })

/-! ## Lane flags sent, R392 -/

/-- Transmit lanes of a bond that set RDI. -/
def sendsRdi (s : State) (b : Nat) (pos : Nat) : Bool :=
  let lanes := bondLanes s b
  ((List.range lanes.length).zip lanes).any fun p =>
    let x := s.lane p.2
    (x.los || x.loa || x.lof || x.lidMm) && decide ((match x.svcPos with | some q => q.toNat | none => p.1) = pos)

end Sys2Proof.Machine
end

