-- ==== Sys2Proof/Machine/Ledger.lean ====
section
/-! DEFINITION. What units write into the Snag ledger, and what the dialogue with the fault manager computes from it: part counts, caps, the pressure record, and the answers of FM_ACTION, R564 to R582. -/

namespace Sys2Proof.Machine

/-! ## Photonic engines by number -/

def State.phe (s : State) (n : Nat) : PEng := Tab.get {} s.phn.engines n
def State.setPhe (s : State) (n : Nat) (x : PEng) : State := { s with phn := { s.phn with engines := Tab.put {} s.phn.engines n x } }
def PEng.col (x : PEng) (c : Nat) : Colour := Tab.get {} x.colours c
def PEng.setCol (x : PEng) (c : Nat) (y : Colour) : PEng := { x with colours := Tab.put {} x.colours c y }
def PEng.spare (x : PEng) (o : Nat) : Spare := Tab.get {} x.spares o
def PEng.setSpare (x : PEng) (o : Nat) (y : Spare) : PEng := { x with spares := Tab.put {} x.spares o y }
def State.col (s : State) (n c : Nat) : Colour := (s.phe n).col c
def State.setCol (s : State) (n c : Nat) (y : Colour) : State := s.setPhe n ((s.phe n).setCol c y)
def State.spare (s : State) (n o : Nat) : Spare := (s.phe n).spare o
def State.setSpare (s : State) (n o : Nat) (y : Spare) : State := s.setPhe n ((s.phe n).setSpare o y)

/-! ## Caps and pressure, R575 and R578 -/

/-- Soft retirements that took effect within the last 86,400 s of LIFE_S. -/
def recentRetirements (s : State) : List JEntry :=
  (s.sng.journal ++ s.sng.pend).filter fun e => decide (e.type = 0x08) && decide ((s.sng.lifeS - e.lifeS).toNat ≤ 86400)

/-- Far-lane retirements of one port, and laser retirements of one photonic engine, in the window. -/
def portRetirements (s : State) (p : Nat) : Nat :=
  ((recentRetirements s).filter fun e => decide (e.part.toNat / 4096 = 3) && decide (e.part.toNat % 4096 / 8 = p)).length
def laserRetirements (s : State) (n : Nat) : Nat :=
  ((recentRetirements s).filter fun e => decide (e.part.toNat / 4096 = 6) && decide (e.part.toNat % 4096 / 36 = n)).length

def maxOf (l : List Nat) : Nat := l.foldl max 0
def capPortMax (s : State) : Nat := maxOf ((List.range 16).map (portRetirements s))
def capPnMax (s : State) : Nat := maxOf ((List.range 8).map (laserRetirements s))

/-- Lanes of a bond that are not RETIRED. -/
def lanesLeft (s : State) (b : Nat) : Nat := ((bondLanes s b).filter fun g => !(s.lane g).retired).length

/-- The smallest margin over enabled bonds and the bond that has it, the lowest-numbered on a tie. -/
def farMargin (s : State) : Nat × Nat :=
  (List.range 16).foldl (fun p b =>
    if (s.bond b).en then
      let m := lanesLeft s b - (s.bond b).minLanes.toNat
      if m < p.1 then (m, b) else p
    else p) (0xFF, 0)

/-- Spares of the device in one state. -/
def sparesIn (s : State) (st : SpareSt) : Nat :=
  ((List.range 32).filter fun i => decide ((s.spare (i / 4) (i % 4)).st = st)).length

/-- The pressure record of R578; OUTSTANDING is most significant byte first in a RESULT and least significant first in a journal entry. -/
def pressureRecord (s : State) (inResult : Bool) : List Byte :=
  let free := sparesIn s .idle
  let (fm, fb) := farMargin s
  let cp := capPortMax s
  let cn := capPnMax s
  let pNear := (32 - free) * 255 / 32
  let pFar := if fm = 0 then 255 else if fm = 1 then 128 else if fm = 2 then 64 else 0
  let pCap := if 4 ≤ cp ∨ 2 ≤ cn then 255 else max (64 * cp) (128 * cn)
  let tol := (s.sng.parts.filter fun p => p.2.st = 1).length
  let out := (s.sng.parts.filter fun p => p.2.recommended).length
  let b := fun n : Nat => BitVec.ofNat 8 (min 255 n)
  [b (max pNear (max pFar pCap)), b free, b (sparesIn s .bus), b (sparesIn s .failed), b fm, b fb, b (min 4 cp), b (min 2 cn), b tol, 0]
    ++ (if inResult then beBytes 2 out else leBytes 2 out) ++ [0, 0, 0, 0]

/-! ## Answers of FM_ACTION, R581 and R582 -/

def opFmAction : BitVec 16 := 0x0061

/-- OK: RESULT byte 1 is the new STATE, bytes 16 to 31 the pressure record. -/
def fmOk (s : State) (r : MboxRec) (part : BitVec 16) : State :=
  respond s r opFmAction stOk ([0, (s.part part.toNat).st] ++ List.replicate 14 0 ++ pressureRecord s true)

/-- REFUSED with a code of R582. -/
def fmRefuse (s : State) (r : MboxRec) (code : Nat) : State :=
  let s := { s with sng := { s.sng with refusedCount := bump s.sng.refusedCount 1 } }
  respond s r opFmAction stRefused [BitVec.ofNat 8 code]

/-- A soft retirement takes effect: STATE 2, the RETIRE_SOFT entry and its count, R573. -/
def softRetired (s : State) (part : BitVec 16) (seq : BitVec 64) (actor : Nat) : State :=
  let s := setPartSt s part 2
  let s := { s with sng := { s.sng with softCount := bump s.sng.softCount 1 } }
  journal s 0x08 part (leBytes 8 seq.toNat ++ [BitVec.ofNat 8 actor])

end Sys2Proof.Machine
end

