-- ==== Sys2Proof/Machine/Stripe.lean ====
section
/-! DEFINITION. The stripe code of R408 to R410 over lanes of payload: parity, syndromes and erasure decoding in GF(2^8). -/

namespace Sys2Proof.Machine

/-- Multiplies a polynomial, highest power first, by (x + a). -/
def polyMulRoot (p : List Nat) (a : Nat) : List Nat := List.zipWith (· ^^^ ·) (p ++ [0]) (0 :: p.map (gfMul a))

/-- g(x) of R408, highest power first. -/
def genPoly : Nat → List Nat
  | 0 => [1]
  | m + 1 => polyMulRoot (genPoly m) (gfPow2 m)

/-- One data lane enters the division by g(x). -/
def parityStep (g : List Nat) (len : Nat) (r : List (List Byte)) (d : List Byte) : List (List Byte) :=
  let fb := xorBytes d (r.headD (List.replicate len 0))
  List.zipWith (fun a c => xorBytes a (scaleBytes c fb)) (r.drop 1 ++ [List.replicate len 0]) (g.drop 1)

/-- The m parity lanes of k data lanes of `len` bytes. -/
def parityOf (m len : Nat) (data : List (List Byte)) : List (List Byte) :=
  if m = 0 then [] else data.foldl (parityStep (genPoly m) len) (List.replicate m (List.replicate len 0))

/-- Syndrome of c(x) at α^t over the lanes of a position. -/
def syndrome (t len : Nat) (lanes : List (List Byte)) : List Byte :=
  lanes.foldl (fun a c => xorBytes (scaleBytes (gfPow2 t) a) c) (List.replicate len 0)

/-- Power of an element. -/
def gfPow (a : Nat) : Nat → Nat
  | 0 => 1
  | n + 1 => gfMul a (gfPow a n)

/-- Solves a square system whose rows are coefficients and a vector of bytes. -/
def gfSolve : (fuel : Nat) → List (List Nat × List Byte) → List (List Byte)
  | 0, _ => []
  | n + 1, rows =>
    match rows.find? fun r => decide (r.1.headD 0 ≠ 0) with
    | none => []
    | some p =>
      let inv := gfInv (p.1.headD 0)
      let p : List Nat × List Byte := (p.1.map (gfMul inv), scaleBytes inv p.2)
      let rest := (rows.erase (rows.find? (fun r => decide (r.1.headD 0 ≠ 0)) |>.getD p)).map fun r =>
        let f := r.1.headD 0
        ((List.zipWith (fun a b => a ^^^ gfMul f b) r.1 p.1).drop 1, xorBytes r.2 (scaleBytes f p.2))
      let ys := if rest.isEmpty then [] else gfSolve n rest
      let y := (List.zip (p.1.drop 1) ys).foldl (fun v q => xorBytes v (scaleBytes q.1 q.2)) p.2
      y :: ys

/-- Recovers the erased lanes of a position, and checks the parity that was not used: the lanes, and whether the check holds. `lanes` carries anything at an erased place. -/
def stripeDecode (m len : Nat) (lanes : List (List Byte)) (erased : List Nat) : List (List Byte) × Bool :=
  let n := lanes.length
  let zeroed := ((List.range n).zip lanes).map fun p => if erased.contains p.1 then List.replicate len 0 else p.2
  let e := erased.length
  let xs := erased.map fun i => gfPow2 (n - 1 - i)
  let rows := (List.range e).map fun t => (xs.map fun x => gfPow x t, syndrome t len zeroed)
  let ys := gfSolve (e + 1) rows
  let full := ((List.range n).zip zeroed).map fun p =>
    match (List.zip erased ys).find? fun q => decide (q.1 = p.1) with
    | some q => q.2
    | none => p.2
  let good := (List.range (m - e)).all fun t => (syndrome (e + t) len full).all fun v => decide (v = 0)
  (full, good)

end Sys2Proof.Machine
end

