-- ==== Sys2Proof/Machine/Mnd.lean ====
section
/-! DEFINITION. The line side, chapters 11 and 12: the inner code's lanes, the stripe code at a released position, Sealer's key slots and checks, line frames, resend, lane moves, and the commands of those chapters that need no mailbox. -/

namespace Sys2Proof.Machine

/-! ## The inner code, R404 to R406 -/

def mndErr (s : State) (b i : Nat) : State := let x := s.mbond b; s.setMbond b { x with err := setErr x.err i }

/-- Marker of a codeword in SEARCH: the third in a row locks. -/
def MLane.search (x : MLane) (w : Codeword) : MLane :=
  if w.patternErrors ≠ 0 then { x with good := 0 }
  else
    let n := if x.good = 0 ∨ w.cwn ≠ x.lastCwn + 1 then 1 else x.good + 1
    if 3 ≤ n then { x with good := 0, lastCwn := w.cwn, locked := true, badMarks := 0, badWords := 0 } else { x with good := n, lastCwn := w.cwn }

/-- A codeword of a LOCKED lane is decoded and counted; `locked` falls after 4 bad markers or 8 uncorrectable codewords in a row. -/
def MLane.decode (x : MLane) (w : Codeword) : MLane :=
  let marks := if 2 < w.patternErrors then x.badMarks + 1 else 0
  match w.corrected with
  | some k =>
    let t := max 1 x.highT.toNat
    let x := { x with badMarks := marks, badWords := 0, locked := decide (marks < 4), corrSym := bump x.corrSym k.val }
    let x := if k.val = 0 then x else { x with corrCw := bump x.corrCw 1 }
    let x := if t ≤ k.val then { x with highSym := bump x.highSym 1, err := setErr x.err 2 } else x
    { x with maxSym := if x.maxSym.toNat < k.val then BitVec.ofNat 4 k.val else x.maxSym }
  | none =>
    { x with badMarks := marks, badWords := x.badWords + 1, locked := decide (marks < 4) && decide (x.badWords + 1 < 8), uncorrCw := bump x.uncorrCw 1, err := setErr x.err 1 }

/-- The codeword that 2,720 levels on a lane's pins stand for, R401 and R403. -/
def MLane.word (x : MLane) (levels : List (BitVec 2)) : Codeword := readCodeword (levelSymbols x.precode x.rxLast levels)

/-- The lane remembers the last level it received. -/
def MLane.heard (x : MLane) (levels : List (BitVec 2)) : MLane := { x with rxLast := levels.getLastD x.rxLast }

/-- The 640 octets of a codeword join the stream of a lane, flagged when it was uncorrectable, R364 and R406. -/
def RLane.gain (x : RLane) (w : Codeword) : RLane :=
  { x with stream := x.stream ++ w.octets, flags := if w.corrected.isSome then x.flags else x.flags ++ [(x.stream.length, w.octets.length)] }

/-- A codeword of a LOCKED lane is delivered to Render; a lane of no enabled bond or a RETIRED one takes none. -/
def deliverWord (s : State) (g : Nat) (w : Codeword) : State :=
  let x := s.lane g
  if x.retired || x.los || (bondOfLane s g).isNone then s else s.setLane g (x.gain w)

/-- A codeword arrives on a far lane. -/
def farCodeword (s : State) (g : Nat) (levels : List (BitVec 2)) : State :=
  let w := (s.mlane g).word levels
  let x := (s.mlane g).heard levels
  if x.locked then
    let y := x.decode w
    if y.locked then deliverWord (s.setMlane g y) g w
    else loaDeclare (s.setMlane g { y with loaCount := bump y.loaCount 1, err := setErr y.err 0, good := 0 }) g
  else
    let y := x.search w
    if y.locked then deliverWord (loaClear (s.setMlane g (y.decode w)) g) g w
    else s.setMlane g y

/-- The octets that a lane sends leave in codewords, R401 to R403: the levels on the pins, and what is left for the next codeword. -/
def MLane.send (x : MLane) (octets : List Byte) : List (BitVec 2) × MLane :=
  let all := x.txTail ++ octets
  let words := chunks 640 (all.length / 640) all
  let step := fun (p : List (List (BitVec 2)) × MLane) (w : List Byte) =>
    let (l, last) := sendLevels p.2.precode p.2.txLast (codewordOf p.2.txCwn w)
    (l :: p.1, { p.2 with txLast := last, txCwn := p.2.txCwn + 1 })
  let (out, y) := words.foldl step ([], x)
  (out.reverse.flatten, { y with txTail := all.drop (640 * words.length) })

/-! ## Key slots, R448 to R457 -/

def slrErr (s : State) (i : Nat) : State := { s with slr := { s.slr with err := setErr s.slr.err i } }

def SBond.tx (x : SBond) (e : Nat) : KeySlot := if e = 0 then x.tx0 else x.tx1
def SBond.rx (x : SBond) (e : Nat) : KeySlot := if e = 0 then x.rx0 else x.rx1
def SBond.setTx (x : SBond) (e : Nat) (k : KeySlot) : SBond := if e = 0 then { x with tx0 := k } else { x with tx1 := k }
def SBond.setRx (x : SBond) (e : Nat) (k : KeySlot) : SBond := if e = 0 then { x with rx0 := k } else { x with rx1 := k }

/-- The transmit slot that is ACTIVE. -/
def SBond.activeTx (x : SBond) : Option Nat := [0, 1].find? fun e => decide ((x.tx e).st = 2)

/-- A change of a bond's key slots, and the judgement of the bond, R455. -/
def keyChange (s : State) (b : Nat) (x : SBond) : State := settle s (s.setSbond b x) b

/-- TX_KEY_SWITCH: at FN 0 the slot becomes ACTIVE with NCTR 0, and the other is erased, R454. -/
def txKeySwitch (s : State) (b : Nat) : State :=
  let x := s.sbond b
  match x.switchTo with
  | none => s
  | some e =>
    let k := x.tx e.val
    if k.st ≠ 1 then s.setSbond b { x with switchTo := none }
    else
      let y := (x.setTx e.val { k with st := 2, nctr := 0 }).setTx (1 - e.val) {}
      keyChange s b { y with switchTo := none, switches := bump y.switches 1, err := setErr y.err 0 }
def execTxKeySwitch (b : Fin 16) (s : State) : Host.Outcome State Fault Refusal := act s (txKeySwitch s b.val)

/-- OVERLAP_EXPIRE: a DRAINING receive slot becomes EMPTY, R454. -/
def overlapExpire (s : State) (b e : Nat) : State :=
  let x := s.sbond b
  if (x.rx e).st = 3 then keyChange s b (x.setRx e {}) else s
def execOverlapExpire (b : Fin 16) (slot : Fin 2) (s : State) : Host.Outcome State Fault Refusal := act s (overlapExpire s b.val slot.val)

/-- TOP_READY.SLR, R439. -/
def slrReady (s : State) : State := setReady s rdySlr (s.slr.drbg && s.slr.idk.isSome && s.slr.ktk.isSome && decide (s.slr.xts = 0xF) && decide (s.slr.strip = 0))

/-- TRNG_FAIL: a die's TRNG fails its tests, R438. -/
def trngFail (s : State) (q : Nat) : State :=
  if s.slr.trngOk.getLsbD q then
    let k := s.slr
    let ok := putBit k.trngOk q false
    slrReady { s with slr := { k with trngOk := ok, drbg := k.drbg && decide (ok ≠ 0), trngFail := bump k.trngFail 1, err := setErr k.err 6 } }
  else s
def execTrngFail (q : Fin 4) (s : State) : Host.Outcome State Fault Refusal := act s (trngFail s q.val)

/-- SLR CLR_COUNTS: every SLR counter, R471. -/
def slrClrCounts (s : State) : State :=
  let s := { s with slr := { s.slr with sessFail := 0, recFail := 0, keyLoads := 0, trngFail := 0 } }
  (List.range 16).foldl (fun s b => s.setSbond b { s.sbond b with authFail := 0, replay := 0, noKey := 0, switches := 0 }) s
def execSlrClrCounts (s : State) : Host.Outcome State Fault Refusal := act s (slrClrCounts s)

/-- What the three checks of R449 come to: the slot states after an accepted frame, R454, or the rejection. A LOADED slot becomes ACTIVE only while the other is ACTIVE or EMPTY. -/
def authCheck (x : SBond) (e nctr kid : Nat) (tagOk : Bool) : Bool × SBond :=
  let k := x.rx e
  if k.st = 0 ∨ k.id.toNat % 2 ^ 32 ≠ kid then (false, { x with noKey := bump x.noKey 1, err := setErr x.err 3 })
  else if (match k.last with | some l => decide (nctr ≤ l) | none => false) then (false, { x with replay := bump x.replay 1, err := setErr x.err 2 })
  else if !tagOk then (false, { x with authFail := bump x.authFail 1, err := setErr x.err 1 })
  else
    let o := x.rx (1 - e)
    let x := if k.st = 1 ∧ o.st = 2 then x.setRx (1 - e) { o with st := 3 } else x
    (true, x.setRx e { k with last := some nctr, st := if k.st = 1 ∧ (o.st = 2 ∨ o.st = 0) then 2 else k.st })

/-! ## Delivery, R420 -/

/-- The message of a CLC segment, R215. -/
def clcParse (b : List Byte) : ClcMsg :=
  { type := BitVec.ofNat 8 (beAt b 0 1), flags := BitVec.ofNat 8 (beAt b 1 1), src := BitVec.ofNat 16 (beAt b 2 2), coll := BitVec.ofNat 8 (beAt b 4 1), outcome := BitVec.ofNat 8 (beAt b 5 1), code := BitVec.ofNat 8 (beAt b 6 1), job := BitVec.ofNat 64 (beAt b 8 8), plan := BitVec.ofNat 64 (beAt b 16 8), step := BitVec.ofNat 32 (beAt b 24 4), digest := BitVec.ofNat 64 (beAt b 28 8), asig := BitVec.ofNat 32 (beAt b 36 4), subj := BitVec.ofNat 16 (beAt b 40 2), nfPos := BitVec.ofNat 48 (beAt b 42 6), value := BitVec.ofNat 32 (beAt b 48 4), crc := BitVec.ofNat 32 (beAt b 60 4), rsv7 := BitVec.ofNat 8 (beAt b 7 1), rsv52 := BitVec.ofNat 64 (beAt b 52 8) }

/-- A CLC segment: one that is not a whole message fails its CRC as R215 places it. -/
def clcSegment (s : State) (b : List Byte) : State :=
  if s.se.role = 2 then s else if b.length = 64 then clcReceive s (clcParse b) else clcDrop s

/-- A pair record goes to Straightedge, R279. -/
def pairRecord (s : State) (r : List Byte) : State :=
  let n := beAt r 2 2
  let body := slice r 8 n
  let h : PairHdr := ⟨BitVec.ofNat 32 (beAt r 4 4), decide (r.length = 12 + n) && decide (crc32c (r.take (8 + n)) = BitVec.ofNat 32 (beAt r (8 + n) 4))⟩
  let step : BitVec 32 := BitVec.ofNat 32 (beAt body 0 4)
  let slot : BitVec 16 := BitVec.ofNat 16 (beAt body 4 2)
  let e : Fin 64 := Fin.ofNat 64 (beAt body 6 1)
  match beAt r 0 1 with
  | 1 => seHello s h (BitVec.ofNat 8 (beAt body 0 1)) (BitVec.ofNat 16 (beAt body 1 2)) (BitVec.ofNat 8 (beAt body 3 1)) (BitVec.ofNat 32 (beAt body 4 4)) (BitVec.ofNat 64 (beAt body 8 8))
  | 2 => seSlot s h step slot e (BitVec.ofNat 32 (beAt body 8 4)) (BitVec.ofNat 64 (beAt body 12 8))
  | 3 => seDestReq s h step slot e
  | 4 =>
    let k := beAt body 11 1
    let d : Option DestRec := if k = 0xFF then none else some ⟨BitVec.ofNat 4 k, BitVec.ofNat 16 (beAt body 12 2), BitVec.ofNat 40 (beAt body 14 5), BitVec.ofNat 64 (beAt body 19 8)⟩
    seDest s h step slot e (BitVec.ofNat 32 (beAt body 7 4)) d
  | 5 => seUnit s h (Fin.ofNat 16 (beAt body 0 1)) (body.drop 1)
  | 6 => seCtl s h (clcParse body)
  | _ => s

/-- Segments of a line frame: (TYPE, body), or none when they are malformed, R417 and R418. -/
def parseSegments : (count : Nat) → List Byte → Option (List (Nat × List Byte))
  | 0, b => if b.isEmpty then some [] else none
  | n + 1, b =>
    let len := beAt b 2 2
    if b.length < 4 + padded4 len then none
    else match parseSegments n (b.drop (4 + padded4 len)) with
      | none => none
      | some r => some ((beAt b 0 1, slice b 4 len) :: r)

structure LineHdr where
  seq : BitVec 48
  kind : Nat
  fill : Nat
  segs : Nat
deriving DecidableEq, Repr

def lineHdr (f : List Byte) : LineHdr := ⟨BitVec.ofNat 48 (beAt f 0 6), beAt f 6 1, beAt f 8 4, beAt f 12 2⟩

/-- Segments of a line frame with a known KIND that is well formed. -/
def lineSegments (f : List Byte) : Option (List (Nat × List Byte)) :=
  let h := lineHdr f
  if 3 < h.kind ∨ f.length < 16 + h.fill then none else parseSegments h.segs (slice f 16 h.fill)

/-- Each segment goes to its user: units to steering with the bond as source, CLC messages to CLC, pair records to Straightedge. -/
def deliver (s : State) (b : Nat) (segs : List (Nat × List Byte)) : State :=
  pump (segs.foldl (fun s g =>
    if g.1 = 1 then (if s.se.role = 2 then s else unitQueue s b g.2)
    else if g.1 = 2 then clcSegment s g.2
    else if g.1 = 3 then pairRecord s g.2 else s) s)

/-! ## Resend at the receiver, R422 to R426 -/

/-- Highest SEQ that a receiver has delivered, given up or requested. -/
def MBond.highest (x : MBond) : Nat :=
  (x.missing.map (·.seq)).foldl (fun n q => max n q.toNat) (x.done.foldl (fun n q => max n q.toNat) x.rxAck.toNat)

/-- RXACK moves over the SEQs that are done. -/
def MBond.advance : (fuel : Nat) → MBond → MBond
  | 0, x => x
  | n + 1, x => if x.done.contains (x.rxAck + 1) then MBond.advance n { x with rxAck := x.rxAck + 1, done := x.done.filter fun q => q ≠ x.rxAck + 1 } else x

/-- A SEQ is delivered or given up. -/
def MBond.finish (x : MBond) (q : BitVec 48) : MBond :=
  MBond.advance (x.done.length + 2) { x with done := x.done ++ [q], missing := x.missing.filter fun m => m.seq ≠ q }

/-- A SEQ is given up, R424. -/
def MBond.giveUp (x : MBond) (q : BitVec 48) : MBond :=
  let y := x.finish q
  { y with giveup := bump y.giveup 1, err := setErr y.err 3 }

/-- New requests for consecutive SEQs, up to 255 each, R423. -/
def MBond.ask : (fuel : Nat) → (first n : Nat) → MBond → MBond
  | 0, _, _, x => x
  | f + 1, first, n, x =>
    if n = 0 then x
    else
      let k := min n 255
      let t := x.nextTag
      let qs := (List.range k).map fun i => BitVec.ofNat 48 (first + i)
      let tries := fun q => (match x.missing.find? fun m => m.seq = q with | some m => m.tries | none => 0) + 1
      let ms := x.missing.filter fun m => !qs.contains m.seq
      let x := { x with nextTag := t + 1, req := bump x.req 1, requests := x.requests ++ [⟨BitVec.ofNat 48 first, BitVec.ofNat 8 k, t, 4⟩], missing := ms ++ qs.map fun q => { seq := q, tries := tries q, tag := t } }
      MBond.ask f (first + k) (n - k) x

/-- A receiver learns of a SEQ: what lies between it and the highest known is missing; a gap of more than 65,536 is given up at once. -/
def MBond.learn (x : MBond) (upTo : Nat) : MBond :=
  let h := x.highest
  let n := upTo - h
  if n = 0 then x
  else if 65536 < n then { x with rxAck := BitVec.ofNat 48 upTo, done := [], missing := [], giveup := bump x.giveup n, err := setErr x.err 3 }
  else MBond.ask (n + 1) (h + 1) n x

/-- Time from the first carrying of a request to its answer, R426. -/
def noteRtt (now : Nat) (x : MBond) (q : BitVec 48) : MBond :=
  match x.missing.find? fun m => m.seq = q with
  | some m => match m.since with
    | some t =>
      let us := (now - t) / (unitNs * 1000)
      let x := { x with rtt := if x.rtt.toNat < us then BitVec.ofNat 32 us else x.rtt }
      if max 1 x.rto.toNat < us then { x with err := setErr x.err 6 } else x
    | none => x
  | none => x

/-- A line frame that Sealer has accepted, R420 and R422 to R425. -/
def lineReceive (s : State) (b : Nat) (f : List Byte) : State :=
  match lineSegments f with
  | none => s
  | some segs =>
    let h := lineHdr f
    let q := h.seq
    let x := s.mbond b
    let data := decide (h.kind = 1) || decide (h.kind = 2)
    let x := if x.rebase || decide (q.toNat + 2 ^ 20 < x.rxAck.toNat) then
        { x with rebase := false, rxAck := if data then q - 1 else q, done := [], missing := [], requests := [] } else x
    let x := x.learn (if h.kind = 0 then q.toNat else q.toNat - 1)
    if h.kind = 0 then s.setMbond b x
    else if q.toNat ≤ x.rxAck.toNat ∨ x.done.contains q then s.setMbond b { x with dup := bump x.dup 1 }
    else
      let x := noteRtt s.plb.time x q
      if h.kind = 3 then s.setMbond b (x.giveUp q)
      else deliver (s.setMbond b (x.finish q)) b segs

/-- RESEND_TIMEOUT, R424. -/
def resendTimeout (s : State) (b : Nat) (q : BitVec 48) : State :=
  let x := s.mbond b
  match x.missing.find? fun m => m.seq = q with
  | none => s
  | some m =>
    if m.since.isNone then s
    else if max 1 x.retries.toNat ≤ m.tries then s.setMbond b (x.giveUp q)
    else s.setMbond b (MBond.ask 1 q.toNat 1 x)
def execResendTimeout (b : Fin 16) (seq : BitVec 48) (s : State) : Host.Outcome State Fault Refusal := act s (resendTimeout s b.val seq)

/-! ## What the peer asks for, R415 and R423 -/

/-- A low part of w bits extended to the value nearest to TXSEQ. -/
def extendSeq (w low tx : Nat) : BitVec 48 :=
  let base := tx / 2 ^ w * 2 ^ w + low
  let c := [base, base + 2 ^ w] ++ (if 2 ^ w ≤ base then [base - 2 ^ w] else [])
  let d := fun v : Nat => if v ≤ tx then tx - v else v - tx
  BitVec.ofNat 48 (c.foldl (fun b v => if d v < d b then v else b) base)

/-- ACK and NACK of a position: released places, and requests to serve. -/
def peerOverhead (s : State) (b : Nat) (f : HeldFrame) : State :=
  let x := s.mbond b
  let w := if isV1 s b then 24 else 32
  let a := extendSeq w f.ack.toNat x.txSeq.toNat
  let x := { x with ackIn := a, store := x.store.filter fun e => a.toNat < e.seq.toNat }
  if f.ncnt ≠ 0 ∧ x.served ≠ some f.ntag then
    let first := extendSeq w f.nack.toNat x.txSeq.toNat
    s.setMbond b { x with served := some f.ntag, toServe := x.toServe ++ (List.range f.ncnt.toNat).map fun i => first + BitVec.ofNat 48 i }
  else s.setMbond b x

/-- CFG_MM over four frames, R413. -/
def judgeCfg (s : State) (b : Nat) (f : HeldFrame) : State :=
  let x := s.mbond b
  let same := decide (f.mstat.toNat / 64 = x.m.toNat) && decide (f.k.toNat % 128 + 1 = dataLanes s b)
  let bad := if same then 0 else x.mmBad + 1
  let good := if same then x.mmGood + 1 else 0
  let mm := if 4 ≤ bad then true else if 4 ≤ good then false else x.cfgMm
  s.setMbond b { x with mmBad := bad, mmGood := good, cfgMm := mm, err := if mm && !x.cfgMm then setErr x.err 7 else x.err }

/-! ## Release of a position, R385, R388, R409, R410 -/

/-- The oldest position that a lane of the bond holds. -/
def oldestPos (s : State) (b : Nat) : Option Nat :=
  ((bondLanes s b).flatMap fun g => (s.lane g).frames.map (·.pos)).foldl (fun o p => match o with
    | none => some p
    | some q => if posAfter q p < 2 ^ 23 then some p else some q) none

/-- A lane in service that has no frame at the position is late, R388. -/
def noteLate (s : State) (g pos : Nat) : State :=
  let x := s.lane g
  if x.frames.any (fun f => decide (f.pos = pos)) || !x.defects.isEmpty || !posFrom pos x.svcFrom then s
  else s.setLane g { x with lateCount := bump x.lateCount 1, err := setErr x.err 0 }

/-- The frames of a position in the order of POS: each stands at the POS that it carries, R381. -/
def heldFrames (s : State) (b pos : Nat) : List (Option HeldFrame) :=
  let fs := (bondLanes s b).filterMap fun g => (s.lane g).frames.find? fun f => decide (f.pos = pos)
  (List.range (bondLanes s b).length).map fun i => fs.find? fun f => decide (f.lanePos.toNat = i)

/-- The line frame of stripe data under the key of a receive slot, R447: its ciphertext lies between the header and the tag. -/
def openLine (k : KeySlot) (data : List Byte) : Option (List Byte) :=
  let n := data.length - 32
  gcmOpen k.key (k.salt ++ slice data 0 8) (data.take 16) (slice data 16 n) (data.drop (16 + n))

/-- Stripe data of a position that Sealer and MND judge: checked, decrypted and received, R412 and R449. -/
def stripeData (s : State) (b : Nat) (data : List Byte) : State :=
  let e := beAt data 12 1 % 2
  let line := openLine ((s.sbond b).rx e) data
  let (ok, x) := authCheck (s.sbond b) e (beAt data 0 8) (beAt data 8 4) line.isSome
  let s := keyChange s b x
  if ok then lineReceive s b (line.getD []) else s

/-- FRAME_RELEASE: the oldest position held is released to MND and Sealer. -/
def frameRelease (s : State) (b : Nat) : State :=
  match oldestPos s b with
  | none => s
  | some pos =>
    let n := (bondLanes s b).length
    let got := heldFrames s b pos
    let s := (svcLanes s b).foldl (fun s g => noteLate s g pos) s
    let s := (bondLanes s b).foldl (fun s g => let x := s.lane g; s.setLane g { x with frames := x.frames.filter fun f => f.pos ≠ pos }) s
    let s := s.setBond b { s.bond b with released := some pos }
    let s := match (got.filterMap id).find? (·.ohOk) with
      | some f => peerOverhead (judgeCfg s b f) b f
      | none => s
    let erased := ((List.range n).zip got).filterMap fun p => match p.2 with
      | some f => if f.flagged || f.erased then some p.1 else none
      | none => some p.1
    let e := erased.length
    let x := s.mbond b
    let m := parityLanes x
    let top := max x.eNow e
    let x := { x with erasures := BitVec.ofNat 8 e, eNow := (if pos % 256 = 255 then 0 else top), eLast := if pos % 256 = 255 then top else x.eLast }
    let idle := !(got.filterMap id).isEmpty && (got.filterMap id).all (·.erased)
    if m < e then
      if idle then s.setMbond b x else s.setMbond b { x with lost := bump x.lost 1, err := setErr x.err 1 }
    else
      let lanes := got.map fun f => match f with | some f => f.payload | none => []
      let (full, good) := stripeDecode m 16320 lanes erased
      let x := if 1 ≤ e then { x with recovered := bump x.recovered 1 } else x
      if !good then s.setMbond b { x with synd := bump x.synd 1, err := setErr x.err 2 }
      else
        let s := s.setMbond b x
        if x.cfgMm then s else stripeData s b ((full.take (n - m)).flatten)

def execFrameRelease (b : Fin 16) (s : State) : Host.Outcome State Fault Refusal := act s (frameRelease s b.val)

/-! ## Transmission, R419, R421, R423 and R638 -/

/-- Buffers of a bond's area in order of their handles. -/
def areaBufs (s : State) (kind : Byte) (b : Nat) : List Nat :=
  (s.lth.owners.filter fun p => decide (p.2 = some (areaOwner kind b))).map fun p => handleDha s.lth p.1

/-- DHA of a tile of an area. -/
def areaTile (s : State) (kind : Byte) (b t : Nat) : Option Nat := ((areaBufs s kind b)[t / 16]?).map fun d => d + t % 16 * 4096

/-- Replay places of a bond, R421. -/
def places (s : State) (b : Nat) : Nat :=
  let k := dataLanes s b
  if k = 0 then 0 else areaBytes s 0x04 b / (16384 * k)

/-- Writes a frame to its place in HBM. -/
def storeFrame (s : State) (b : Nat) (q : BitVec 48) (bytes : List Byte) : State :=
  let k := dataLanes s b
  let base := q.toNat % places s b * (4 * k)
  ((List.range (4 * k)).zip (chunks 4096 (4 * k) (padTo 0 (16384 * k) bytes))).foldl (fun s p => match areaTile s 0x04 b (base + p.1) with
    | some d => writeTile s d 0 p.2
    | none => s) s

/-- Reads a stored frame; the flag says whether every tile passed its check. -/
def fetchFrame (s : State) (b : Nat) (q : BitVec 48) : Bool × List Byte × State :=
  let k := dataLanes s b
  let base := q.toNat % places s b * (4 * k)
  let (ok, bs, s) := (List.range (4 * k)).foldl (fun (r : Bool × List Byte × State) i => match areaTile r.2.2 0x04 b (base + i) with
    | some d => let (o, t, s) := readTile r.2.2 d; (r.1 && o, r.2.1 ++ t, s)
    | none => (false, r.2)) (true, [], s)
  (ok, bs.take (k * 16320 - 32), s)

/-- A line frame of C bytes, R417 and R418. -/
def buildLine (c : Nat) (q : BitVec 48) (kind : Nat) (items : List QItem) : List Byte :=
  let segs := items.flatMap fun i => match i with
    | .seg t b => [t, 0] ++ beBytes 2 b.length ++ padTo 0 (padded4 b.length) b
    | .tile _ _ _ _ _ => []
  padTo 0 c (beBytes 6 q.toNat ++ [BitVec.ofNat 8 kind, 0] ++ beBytes 4 segs.length ++ beBytes 2 items.length ++ [0, 0] ++ segs)

/-- Table-coded units of an epoch among unit bytes, R147. -/
def tableUnits (e : Nat) (us : List (List Byte)) : Nat :=
  (us.filter fun u => (unitHdr u).ll && (unitHdr u).tab && decide (unitEpoch u = e)).length

def itemUnits (items : List QItem) : List (List Byte) := items.filterMap fun i => match i with
  | .seg t b => if t = 1 then some b else none
  | _ => none

/-- A NEW frame enters the replay store; an unreleased frame in its place goes, R421. -/
def storeNew (s : State) (b : Nat) (q : BitVec 48) (items : List QItem) (bytes : List Byte) : State :=
  let p := places s b
  if p = 0 then s
  else
    let x := s.mbond b
    let same := fun e : Stored => decide (e.seq.toNat % p = q.toNat % p)
    let ev := (x.store.filter fun e => same e && !e.resent).length
    let us := itemUnits items
    let x := { x with store := (x.store.filter fun e => !same e) ++ [⟨q, false, tableUnits 0 us, tableUnits 1 us⟩], evict := bump x.evict ev, err := if ev = 0 then x.err else setErr x.err 4 }
    storeFrame (s.setMbond b x) b q bytes

/-- The line frame of a transmit position: a RESEND or GONE, a NEW frame, or an IDLE frame. -/
def nextLine (s : State) (b : Nat) : List Byte × State :=
  let c := dataLanes s b * 16320 - 32
  let x := s.mbond b
  match x.toServe with
  | q :: rest =>
    let s := s.setMbond b { x with toServe := rest }
    if x.store.any fun e => decide (e.seq = q) then
      let (ok, bytes, s) := fetchFrame s b q
      let x := s.mbond b
      if ok then
        (bytes.take 6 ++ [2] ++ bytes.drop 7, s.setMbond b { x with resent := bump x.resent 1, store := x.store.map fun e => if e.seq = q then { e with resent := true } else e })
      else (buildLine c q 3 [], s.setMbond b { x with gone := bump x.gone 1, err := setErr x.err 5 })
    else
      let x := s.mbond b
      (buildLine c q 3 [], s.setMbond b { x with gone := bump x.gone 1 })
  | [] =>
    let (items, s2) := if hasSegment s b then takeSegments s b (c - 16) else ([], s)
    if items.isEmpty then (buildLine c x.txSeq 0 [], s)
    else
      let q := x.txSeq + 1
      let bytes := buildLine c q 1 items
      (bytes, storeNew (s2.setMbond b { s2.mbond b with txSeq := q }) b q items bytes)

/-- The request that the next position carries, R423: it is carried in 4 positions. -/
def takeRequest (s : State) (b : Nat) : Option Request × State :=
  let x := s.mbond b
  match x.requests with
  | [] => (none, s)
  | r :: rest =>
    let ms := x.missing.map fun m => if m.tag = r.tag ∧ m.since.isNone then { m with since := some s.plb.time } else m
    (some r, s.setMbond b { x with missing := ms, requests := if r.left ≤ 1 then rest else { r with left := r.left - 1 } :: rest })

/-- Octets of the tributary that a bond carries, R378. -/
def takeTrib (s : State) (b : Nat) : List Byte × State :=
  match (List.range 4).find? fun c => (s.trib c).en && decide ((s.trib c).bond.toNat = b) with
  | none => ([], s)
  | some c => let t := s.trib c; (t.addFifo.take 16, s.setTrib c { t with addFifo := t.addFifo.drop 16 })

/-- The far time message of R301. -/
def timeMsgBytes (s : State) (b : Nat) : List Byte :=
  let x := s.src (b + 2)
  let (etx, erx, es) := match x.lastRx with | some (a, c, d) => (a, c, d) | none => (0, 0, 0)
  let flags := b2n (decide (s.plb.st = .locked)) + 2 * b2n (decide (s.plb.selected = some (b + 2)))
  let body := [1, BitVec.ofNat 8 flags, myHops s, x.txSeq + 1] ++ fullTimeBytes s.plb.time ++ fullTimeBytes etx ++ fullTimeBytes erx ++ [es, 0, 0, 0]
  body ++ beBytes 4 (crc32c body).toNat

/-- A far time message starts on P0; its SEQ and when it was sent are kept, R301 and R302. -/
def sendTime (s : State) (b : Nat) : State :=
  let x := s.src (b + 2)
  let q := x.txSeq + 1
  let s := s.setBond b { s.bond b with p0Tx := timeMsgBytes s b }
  s.setSrc (b + 2) { x with txSeq := q, sent := (x.sent.filter fun p => decide (s.plb.run ≤ p.2 + unitSec) && decide (p.1 ≠ q)) ++ [(q, s.plb.run)] }

/-- The ranging message of R376 starts on P2. -/
def sendRanging (s : State) (b mfn : Nat) : State :=
  let body := [1, s.plb.stepEpoch] ++ beBytes 2 mfn ++ beBytes 6 s.count.toNat ++ [0, 0]
  s.setBond b { s.bond b with p2Tx := body ++ beBytes 4 (crc32c body).toNat }

/-- KEY_READY for each LOADED receive slot waits for P1, R453. -/
def sendKeyReady (s : State) (b : Nat) : State :=
  let x := s.sbond b
  let ms := ([x.rx0, x.rx1].filter fun k => decide (k.st = 1)).map fun k =>
    let body := beBytes 2 16 ++ [1, 0] ++ beBytes 8 k.id.toNat
    body ++ beBytes 4 (crc32c body).toNat
  s.setBond b { s.bond b with p1Queue := (s.bond b).p1Queue ++ ms }

/-- The slots of P0, P1 and P2 in a frame and the PSTART bits of P1: one message after the other, and idle filler when there is none, R373 and R374. -/
def takeSlots (s : State) (b : Nat) : (List Byte × Bool) × State :=
  let x := s.bond b
  let start := x.p1Tx.isEmpty && !x.p1Queue.isEmpty
  let p1 := if start then x.p1Queue.headD [] else x.p1Tx
  ((padTo 0 4 x.p0Tx ++ padTo 0 8 p1 ++ padTo 0 4 x.p2Tx, start),
    s.setBond b { x with p0Tx := x.p0Tx.drop 4, p1Tx := p1.drop 8, p2Tx := x.p2Tx.drop 4, p1Queue := if start then x.p1Queue.drop 1 else x.p1Queue })

/-- MND's bytes 48 to 59 of the overhead, R414. -/
def mndBytes (v1 : Bool) (m : BitVec 2) (erased : Bool) (k ack nack : Nat) (ncnt ntag : Byte) : List Byte :=
  let w := if v1 then 3 else 4
  [BitVec.ofNat 8 (m.toNat * 64 + b2n erased * 32), BitVec.ofNat 8 (k - 1)] ++ beBytes w ack ++ beBytes w nack ++ [ncnt, ntag] ++ (if v1 then [0, 0] else [])

/-- The 16,384 octets of a frame, R366 and R367: `pos` is MFN × 256 + FN, `vb` the byte of VER and BOND, `slots` bytes 16 to 47, `mnd` bytes 48 to 59. -/
def frameOctets (v1 : Bool) (pos lid : Nat) (vb lanePos flags pstart jc : Byte) (slots mnd payload : List Byte) : List Byte :=
  let body := [BitVec.ofNat 8 pos] ++ beBytes 2 (pos / 256) ++ [BitVec.ofNat 8 lid, vb, lanePos, flags, pstart, jc, 0] ++ padTo 0 32 slots ++ padTo 0 12 mnd
  fawOf v1 ++ body ++ beBytes 4 (crc32c body).toNat ++ padTo 0 16320 payload

/-- Frames of several lanes leave by their inner encoders: the levels on the pins of each. -/
def sendFrames (s : State) (fs : List (Nat × List Byte)) : List (Nat × List (BitVec 2)) × State :=
  fs.foldl (fun p f => let (l, x) := (p.2.mlane f.1).send f.2; (p.1 ++ [(f.1, l)], p.2.setMlane f.1 x)) ([], s)

/-- The payloads of the lanes of a position, R408 and R416: k of stripe data and m of parity. -/
def stripePayloads (k m : Nat) (data : List Byte) : List (List Byte) :=
  let ds := chunks 16320 k data
  ds ++ parityOf m 16320 ds

/-- The stripe data of a position, R447: header, ciphertext and tag. -/
def sealLine (key : KeySlot) (ke : Bool) (line : List Byte) : List Byte :=
  let head := beBytes 8 key.nctr ++ beBytes 4 (key.id.toNat % 2 ^ 32) ++ [BitVec.ofNat 8 (b2n ke), 0, 0, 0]
  head ++ gcmSeal key.key (key.salt ++ beBytes 8 key.nctr) head line

/-- A key's NCTR rises, with the limits of R457. -/
def useKey (s : State) (b e : Nat) : State :=
  let x := s.sbond b
  let k := x.tx e
  let n := k.nctr + 1
  let x := x.setTx e { k with nctr := n }
  let s := if n = 2 ^ 39 then slrErr s 2 else s
  keyChange s b (if n = 2 ^ 39 then { x with err := setErr x.err 4 } else x)

/-- Whether a SHADOW keeps a bond silent: it sends nothing on far ports but the pair ports, R272. -/
def shadowQuiet (s : State) (b : Nat) : Bool := decide (s.se.role = 2) && decide ((s.bond b).ports &&& s.se.ports = 0)

/-- What a lane of a position sends: its flags, whether it is ERASED, and its payload, R392, R428, R429 and R638: a RETIRED lane, a lane moved out, and every lane without a line frame send zeros. -/
structure LaneSend where
  lane : Nat
  lanePos : Nat
  rdi : Bool
  ldi : Bool
  erased : Bool
  payload : List Byte
deriving DecidableEq, Repr

def laneSends (s : State) (b : Nat) (data : Option (List Byte)) : List LaneSend :=
  let z := s.mbond b
  let lanes := bondLanes s b
  let pays := match data with
    | some d => stripePayloads (dataLanes s b) (parityLanes z) d
    | none => []
  ((List.range lanes.length).zip lanes).map fun p =>
    let r := (s.lane p.2).retired
    let restoring := match s.mnd.move with | some v => v.restore && decide (v.bond = b) && decide (v.pos = p.1) | none => false
    let erased := z.moved.contains p.1 || data.isNone
    ⟨p.2, p.1, sendsRdi s b p.1, r, erased, if r || (z.moved.contains p.1 && !restoring) then [] else pays.getD p.1 []⟩

/-- A frame position of a port that is in no enabled bond: every lane carries POS 0xFF, LDI and a zero payload, R382 and R392. What its BOND and MND fields hold is left open. -/
def idlePosition (s : State) (p : Nat) : State :=
  let x := s.rport p
  let vb := (if x.v1 then 16 else 32) + freeNat s % 16
  let mnd := leBytes 12 (freeNat s / 16)
  let fs := (List.range 8).map fun l => (8 * p + l, frameOctets x.v1 x.txPos (8 * p + l) (BitVec.ofNat 8 vb) 0xFF 2 0 0 [] mnd [])
  let s := s.setRport p { x with txPos := (x.txPos + 1) % 2 ^ 24 }
  let (pins, s) := sendFrames { s with fresh := s.fresh + 1 } fs
  emit s (.idleFrames p fs pins)

/-- The positions that MND and the key slots act on at FN 0: time, ranging and key messages, and a lane that moves out, R301, R376, R428 and R453. -/
def frameStart (s : State) (b fn mfn : Nat) : State :=
  if fn ≠ 0 then s
  else
    let s := if mfn % 16 = 0 then sendTime s b else s
    let s := sendRanging (sendKeyReady s b) b mfn
    let y := s.mbond b
    match s.mnd.move with
    | some v => if v.bond = b ∧ !v.restore ∧ !y.moved.contains v.pos then s.setMbond b { y with moved := y.moved ++ [v.pos] } else s
    | none => s

/-- TRANSMIT_POSITION: a frame position of a bond is sent; of a bond that is not enabled, that of the port of the same number, if no enabled bond has it; during reset the lanes idle, R627. -/
def transmitPosition (s : State) (b : Nat) : State :=
  let x := s.bond b
  if !x.en then (if ((List.range 16).any fun c => (s.bond c).en && (s.bond c).ports.getLsbD b) || decide (s.se.role = 2) || !isUp s then s else idlePosition s b)
  else if decide (dataLanes s b = 0) || shadowQuiet s b then s
  else
    let pos := x.txPos
    let fn := pos % 256
    let mfn := pos / 256
    let s := frameStart s b fn mfn
    let ((slots, start1), s) := takeSlots s b
    let (trib, s) := takeTrib s b
    let (rq, s) := takeRequest s b
    let act_ := ((s.sbond b).activeTx).filter fun e => ((s.sbond b).tx e).sends
    let (line, s) := match act_ with
      | some _ => let (l, s) := nextLine s b; (some l, s)
      | none => (none, s)
    let k := match act_ with | some e => (s.sbond b).tx e | none => {}
    let ke := match act_ with | some e => decide (e = 1) | none => false
    let z := s.mbond b
    let v1 := isV1 s b
    let sends := laneSends s b (line.map (sealLine k ke))
    let pstart : Byte := BitVec.ofNat 8 ((if fn = 0 ∧ mfn % 16 = 0 then 1 else 0) + 2 * b2n start1 + (if fn = 0 then 4 else 0))
    let nack : BitVec 48 := match rq with | some r => r.first | none => 0
    let ncnt : Byte := match rq with | some r => r.count | none => 0
    let ntag : Byte := match rq with | some r => r.tag | none => z.nextTag - 1
    let slots := slots ++ padTo 0 16 trib
    let fs := sends.map fun l => (l.lane, frameOctets v1 pos l.lane (BitVec.ofNat 8 ((if v1 then 16 else 32) + b)) (BitVec.ofNat 8 l.lanePos) (BitVec.ofNat 8 (b2n l.rdi + 2 * b2n l.ldi + 4 * b2n ke)) pstart (BitVec.ofNat 8 trib.length) slots (mndBytes v1 z.m l.erased (dataLanes s b) z.rxAck.toNat nack.toNat ncnt ntag) l.payload)
    let (pins, s) := sendFrames s fs
    let f : TxFrame := { bond := b, mfn := mfn, fn := fn, ke := ke, pstart := pstart, jc := trib.length, slots := slots, m := z.m, k := dataLanes s b, ack := z.rxAck, nack := nack, ncnt := ncnt, ntag := ntag, lanes := sends.map fun l => (l.lane, l.lanePos, l.rdi, l.ldi, l.erased), line := line, nctr := k.nctr, keyId := k.id, octets := fs, pins := pins }
    let s := emit (s.setBond b { s.bond b with txPos := (pos + 1) % 2 ^ 24 }) (.line f)
    match act_ with
    | some e => pump (useKey s b e)
    | none => s

def execTransmitPosition (b : Fin 16) (s : State) : Host.Outcome State Fault Refusal := act s (transmitPosition s b.val)

/-! ## Lane moves, R428 and R429 -/

def moveResult (s : State) (r : Nat) : State := { s with mnd := { s.mnd with moveResult := BitVec.ofNat 3 r } }

/-- MND_CTRL.MOVE with an ACTION, and the FM_ACTION behind it, when there is one. -/
def moveStart (s : State) (action b pos : Nat) (fm : Option (MboxRec × BitVec 64)) : State :=
  let n := (bondLanes s b).length
  if s.mnd.move.isSome then moveResult s 3
  else if !(s.bond b).en || decide (n ≤ pos) || decide (1 < action) then moveResult s 2
  else if action = 0 then
    if (s.mbond b).eLast + 1 ≤ parityLanes (s.mbond b) then { s with mnd := { s.mnd with move := some ⟨b, pos, false, fm⟩ } } else moveResult s 1
  else
    let x := s.mbond b
    let s := s.setMbond b { x with moved := if x.moved.contains pos then x.moved else x.moved ++ [pos] }
    { s with mnd := { s.mnd with move := some ⟨b, pos, true, none⟩ } }

/-- MND_CTRL takes the fields of a command. -/
def moveFields (s : State) (action b pos : Nat) : State :=
  { s with mnd := { s.mnd with action := BitVec.ofNat 2 action, bondSel := BitVec.ofNat 4 b, posSel := BitVec.ofNat 8 pos } }

def execMoveRetire (b : Fin 16) (pos : BitVec 8) (s : State) : Host.Outcome State Fault Refusal := act s (moveStart (moveFields s 0 b.val pos.toNat) 0 b.val pos.toNat none)
def execMoveRestore (b : Fin 16) (pos : BitVec 8) (s : State) : Host.Outcome State Fault Refusal := act s (moveStart (moveFields s 1 b.val pos.toNat) 1 b.val pos.toNat none)

/-- A bond whose lanes have all been retired is a dead owner of its areas, R348 and R349. -/
def reclaimBond (s : State) (b : Nat) : State :=
  if (bondLanes s b).all fun g => (s.lane g).retired then proxyFree (proxyFree s (areaOwner 0x04 b)) (areaOwner 0x05 b) else s

/-- MOVE_DONE: the move's frames have been sent; a RESTORE also needs RDI_RX clear on the lane, R429. -/
def moveDone (s : State) : State :=
  match s.mnd.move with
  | none => s
  | some v =>
    let g := (bondLanes s v.bond).getD v.pos 0
    if v.restore ∧ (s.lane g).rdiRx then s
    else
      let x := s.mbond v.bond
      let moved := if v.restore then x.moved.filter (· ≠ v.pos) else if x.moved.contains v.pos then x.moved else x.moved ++ [v.pos]
      let s := s.setMbond v.bond { x with moved := moved, err := setErr x.err 10 }
      let s := { s with mnd := { s.mnd with move := none, moveResult := 0 } }
      match v.fm with
      | none => s
      | some (r, q) => fmOk (softRetired (reclaimBond (setRetired s g true) v.bond) (partId 3 g) q 0) r (partId 3 g)
def execMoveDone (s : State) : Host.Outcome State Fault Refusal := act s (moveDone s)

/-- MND CLR_COUNTS: every MND counter and every MAXSYM, R432. -/
def mndClrCounts (s : State) : State :=
  let s := (List.range 128).foldl (fun s g => s.setMlane g { s.mlane g with maxSym := 0, corrSym := 0, corrCw := 0, uncorrCw := 0, highSym := 0, loaCount := 0 }) s
  (List.range 16).foldl (fun s b => s.setMbond b { s.mbond b with recovered := 0, lost := 0, synd := 0, req := 0, resent := 0, gone := 0, giveup := 0, evict := 0, dup := 0 }) s

/-- A write of MND_CTRL, R432. -/
def mndCtrlWrite (s : State) (v : BitVec 32) : State :=
  let s := if v.getLsbD 0 then mndClrCounts s else s
  let a := bitsOf v.toNat 17 16
  let b := bitsOf v.toNat 15 12
  let p := bitsOf v.toNat 11 4
  let s := moveFields s a b p
  if v.getLsbD 1 then moveStart s a b p none else s

/-- STRIPE_CFG_WRITE: MND_Bb_CFG. A write that changes M is refused for an enabled bond, and M = 4 under v1; RETRIES and RTO_US take their values either way, R407 and R433. -/
def stripeCfgWrite (s : State) (b : Nat) (v : BitVec 32) : State :=
  let x := s.mbond b
  let m : BitVec 2 := BitVec.ofNat 2 (bitsOf v.toNat 31 30)
  let x := { x with retries := BitVec.ofNat 4 (bitsOf v.toNat 27 24), rto := v.setWidth 24 }
  if m = x.m then s.setMbond b x
  else if (s.bond b).en || (decide (m = 3) && isV1 s b) then s.setMbond b { x with err := setErr x.err 9 }
  else judgeMinLow (s.setMbond b { x with m := m }) b
def execStripeCfgWrite (b : Fin 16) (value : BitVec 32) (s : State) : Host.Outcome State Fault Refusal := act s (stripeCfgWrite s b.val value)

/-! ## Units in flight of a table slot, R147 -/

/-- Units of the positions that a bond's skew buffer holds and that the stripe code can give: data lanes that are erased are recovered, R410. They are protected as they stand there, so each is opened under the receive slot that it names. -/
def skewUnits (s : State) (b : Nat) : List (List Byte) :=
  let m := parityLanes (s.mbond b)
  let ps := ((bondLanes s b).flatMap fun g => (s.lane g).frames.map (·.pos)).eraseDups
  ps.flatMap fun p =>
    let got := heldFrames s b p
    let erased := ((List.range got.length).zip got).filterMap fun q => match q.2 with
      | some f => if f.flagged || f.erased then some q.1 else none
      | none => some q.1
    if m < erased.length then []
    else
      let full := (stripeDecode m 16320 (got.map fun f => match f with | some f => f.payload | none => []) erased).1
      let data := (full.take (got.length - m)).flatten
      match (openLine ((s.sbond b).rx (beAt data 12 1 % 2)) data).bind lineSegments with
      | some segs => (segs.filter fun g => decide (g.1 = 1)).map (·.2)
      | none => []

/-- SKM_INFLIGHTe, R147: units with TAB 1 and epoch e in output queues, replay stores, skew buffers and sub-stream queues. -/
def inflight (s : State) (e : Nat) : Nat :=
  let queues := s.sch.queues.foldl (fun n q => n + tableUnits e (itemUnits (q.2.items.map (·.item)))) 0
  let stores := s.mnd.bonds.foldl (fun n x => n + x.2.store.foldl (fun n f => n + if e = 0 then f.n0 else f.n1) 0) 0
  let skew := (List.range 16).foldl (fun n b => n + if (s.bond b).en then tableUnits e (skewUnits s b) else 0) 0
  let subs := s.skm.subq.foldl (fun n q => n + tableUnits e q.2) 0
  queues + stores + skew + subs

/-- SKM_SLOT_DRAINED: a DRAINING slot with nothing in flight becomes EMPTY, R146. -/
def slotDrained (s : State) (e : Nat) : State :=
  if (s.tslot e).st = .draining ∧ inflight s e = 0 then setTslot s e {} else s
def execSkmSlotDrained (slot : Fin 2) (s : State) : Host.Outcome State Fault Refusal := act s (slotDrained s slot.val)

end Sys2Proof.Machine
end

