-- ==== Sys2Proof/Machine/Throttle.lean ====
section
/-! DEFINITION. The throttle ladder, R611 and R612: the level in force, its changes, and the emergency level inside a step. -/

namespace Sys2Proof.Machine

/-- A plan is between its launch and its end or halt. -/
def planRunning (s : State) : Bool := decide (s.stn.place = .running)

/-- MIN_LEVEL as it acts: 3 acts as 2, R616. -/
def minLevelActs (s : State) : Nat := min 2 s.pwr.minLevel.toNat

/-- The level that is to be in force: the higher of MIN_LEVEL and the level applied. -/
def wantedLevel (s : State) : Nat := max (minLevelActs s) s.pwr.applied.toNat

/-- PWR_STATUS.PENDING: a level change waits for a seam. -/
def levelPending (s : State) : Bool := decide (wantedLevel s ≠ s.pwr.level.toNat)

/-- Code temperatures of the ladder: die and stack thresholds of levels 1 to 3. -/
def dieThreshold (l : Nat) : Nat := match l with | 1 => 95 | 2 => 100 | 3 => 103 | _ => 0
def stackThreshold (l : Nat) : Nat := match l with | 1 => 85 | 2 => 90 | 3 => 93 | _ => 0

/-- The level called for by the hottest die sensor and the hottest stack. -/
def calledLevel (die stack : Nat) : Nat :=
  if 103 ≤ die ∨ 93 ≤ stack then 3 else if 100 ≤ die ∨ 90 ≤ stack then 2 else if 95 ≤ die ∨ 85 ≤ stack then 1 else 0

/-- LEVEL changes: a THERMAL entry, the count and the flag. -/
def setLevel (s : State) (l : Nat) (emergency : Bool) : State :=
  if l = s.pwr.level.toNat then s
  else
    let p := s.pwr
    let p := { p with level := BitVec.ofNat 2 l, throttleCount := bump p.throttleCount 1, err := setErr p.err 0 }
    journal { s with pwr := p } 0x13 deviceId [BitVec.ofNat 8 l, BitVec.ofNat 8 (b2n emergency)]

/-- The core clock goes to 1.2 GHz or back. -/
def setSlowed (s : State) (b : Bool) : State :=
  { s with pwr := { s.pwr with slowed := b, slowFrom := if b then some (s.pwr.slowFrom.getD s.plb.run) else none } }

/-- The level to be in force takes effect; level 3 slows the clock, and leaving it with no plan RUNNING ends that. -/
def settleLevel (s : State) : State :=
  let s := setLevel s (wantedLevel s) false
  if s.pwr.level = 3 then setSlowed s true else if planRunning s then s else setSlowed s false

/-- The collective of the running step in which a LATE is sent: the lowest-numbered one. -/
def lateColl (s : State) : Option Nat :=
  match s.stn.cur with
  | some p => (bodyColls p s.stn.body).head?
  | none => none

/-- CLC sends LATE for the running step, at most once, R229. -/
def sendLate (s : State) (value : Nat) : State :=
  match lateColl s with
  | none => s
  | some c =>
    if s.clc.lateStep = some s.stn.step ∨ s.se.role = 2 then s
    else
      let k := s.clc
      let s := { s with clc := { k with lateStep := some s.stn.step, lateCount := bump k.lateCount 1, err := setErr k.err 6 } }
      clcOut (s, [(upRank s, sealMsg { baseMsg s tyLate c s.stn.step with value := BitVec.ofNat 32 value })])

/-- Level 3 inside a step, R612: the clock slows, and LATE carries ceil(r / 2.4) for the r cycles to the step's latest write. -/
def emergency (s : State) : State :=
  let r := (curBody s).latest - stepCycles s
  let s := { s with pwr := { s.pwr with applied := 3 } }
  let s := setLevel s 3 true
  let p := s.pwr
  let s := setSlowed { s with pwr := { p with emergencyCount := bump p.emergencyCount 1, err := setErr p.err 1 } } true
  sendLate s (ceilDiv (r * 5) 12)

/-- What the temperatures call for takes effect: at once when no plan is RUNNING; at a seam, where level 3 applies as level 2; inside a step only as level 3. -/
def callLevel (s : State) (l : Nat) : State :=
  let s := { s with pwr := { s.pwr with asked := BitVec.ofNat 2 l } }
  if !planRunning s then settleLevel { s with pwr := { s.pwr with applied := BitVec.ofNat 2 (max l s.pwr.applied.toNat) } }
  else if s.stn.stepRunning && !stepComplete s then
    if l = 3 then (if s.pwr.slowed then s else emergency s)
    else if s.pwr.applied.toNat < l then { s with pwr := { s.pwr with applied := BitVec.ofNat 2 l } } else s
  else
    let l := min l 2
    if s.pwr.applied.toNat < l then { s with pwr := { s.pwr with applied := BitVec.ofNat 2 l } } else s

/-- At a seam the level to be in force takes effect; after an emergency it is what the temperatures then call for, without the hold, and level 3 applies as level 2. -/
def seamLevel (s : State) : State :=
  let a := if s.pwr.level = 3 then min 2 s.pwr.asked.toNat else min 2 s.pwr.applied.toNat
  let s := { s with pwr := { s.pwr with applied := BitVec.ofNat 2 a } }
  setLevel s (wantedLevel s) false

end Sys2Proof.Machine
end

