-- ==== Sys2Proof/Machine/Photonics.lean ====
section
/-! DEFINITION. Near photonics, chapter 13: the colour stream and its credits, ring lock and identity, lasers and spares, eye safety, and the loops of Level. -/

namespace Sys2Proof.Machine

/-! ## Errors, events and readiness, R498 and R506 -/

def pbShutdown : Nat := 0
def pbInterlock : Nat := 1
def pbWrongLock : Nat := 2
def pbRingFailed : Nat := 3
def pbFenceSat : Nat := 4
def pbLaserWarn : Nat := 5
def pbSpareDue : Nat := 6
def pbSwapDone : Nat := 7
def pbSwapReverted : Nat := 8
def pbLaserRetired : Nat := 9
def pbDiscard : Nat := 10
def pbCidMm : Nat := 11
def pbCtrlIgnored : Nat := 12
def pbOverrun : Nat := 13

/-- An event of an engine: its PHN_ERR bit and PHN_EVENT, R506. -/
def phnErr (s : State) (n i c : Nat) (rx : Bool) : State :=
  let x := s.phe n
  s.setPhe n { x with err := setErr x.err i, evKind := BitVec.ofNat 8 i, evColour := BitVec.ofNat 5 c, evDir := rx }

/-- CID of a colour, R481. -/
def cidOf (n c : Nat) : Byte := BitVec.ofNat 8 (32 * n + c)

def rxPart (n c : Nat) : BitVec 16 := partId 4 (32 * n + c)
def txPart (n c : Nat) : BitVec 16 := partId 5 (32 * n + c)
def dfbPart (n c : Nat) : BitVec 16 := partId 6 (36 * n + c)
def sparePart (n o : Nat) : BitVec 16 := partId 6 (36 * n + 32 + o)

/-- The laser that drives a colour. -/
def laserPart (s : State) (n c : Nat) : BitVec 16 := if (s.col n c).spared then sparePart n (c / 8) else dfbPart n c

/-- EOL of the laser that drives a colour, R509. -/
def laserEolOf (s : State) (n c : Nat) : Nat := (Config.laserEol n (if (s.col n c).spared then 32 + c / 8 else c)).toNat

def RingSt.served : RingSt → Bool
  | .inService => true | .retired => true | _ => false

/-- TOP_NEAR_READY bit n, R498. -/
def nearSettle (s : State) (n : Nat) : State :=
  let x := s.phe n
  setNearReady s n (decide (x.safety = .normal) && (List.range 32).all fun c => (x.col c).tx.st.served && (x.col c).rx.st.served)

/-! ## Credits, R484 -/

def creditKey (n c q : Nat) : Nat := (32 * n + c) * 512 + q

/-- A colour leaves service: the credits held from the endpoint become 0, and what the endpoint held is to be returned afresh. -/
def dropCredits (s : State) (n c : Nat) : State :=
  let lo := creditKey n c 0
  let mine := s.phn.held.filter fun p => lo ≤ p.1 && p.1 < lo + 512
  let owed := mine.foldl (fun t p => Tab.put 0 t p.1 (Tab.get 0 t p.1 + p.2)) s.phn.owed
  let s := { s with phn := { s.phn with owed := owed, held := Tab.clearSeg s.phn.held lo 512 } }
  s.setCol n c { s.col n c with credits := 0 }

/-- The endpoint spends a credit that the device returned to it. -/
def spendHeld (s : State) (k : Nat) : State :=
  { s with phn := { s.phn with held := Tab.put 0 s.phn.held k (Tab.get 0 s.phn.held k - 1) } }

/-! ## Rings, R487 to R491 -/

def setTx (s : State) (n c : Nat) (r : Ring) : State := s.setCol n c { s.col n c with tx := r }
def setRx (s : State) (n c : Nat) (r : Ring) : State := s.setCol n c { s.col n c with rx := r }

def heatLo (s : State) (n : Nat) : Nat := 2 * (s.phe n).heatMin.toNat
def heatHi (s : State) (n : Nat) : Nat := 2 * (s.phe n).heatMax.toNat

/-- A ring that starts a sweep at HEAT_MIN. -/
def Ring.sweepFrom (r : Ring) (lo : Nat) : Ring := { r with st := .locking, locked := false, heat := lo, swept := 0, parked := false }

/-- A colour stops receiving: its octets go, and alignment and the runs of frames end. -/
def Colour.deaf (y : Colour) : Colour := { y with stream := [], aligned := false, syncBad := 0, ownRun := 0, otherRun := 0, echoRun := 0 }
def rxReset (s : State) (n c : Nat) : State := s.setCol n c (s.col n c).deaf

/-- Colours of a queue's MASK that have sent an entry, or that count as having sent every tile, R526. -/
def sentAll (s : State) (q : OutQ) (e : QEntry) : Bool :=
  (List.range 32).all fun c => !q.mask.getLsbD c || e.sent.getLsbD c ||
    (let t := (s.col q.neng c).tx.st; decide (t = .retired) || decide (t = .failed))

/-- Releases the tiles of one queue that every colour of its MASK has sent. -/
def releaseQueue (s : State) (qn : Nat) : State :=
  let q := s.queue qn
  let keep := q.items.filter fun e => !sentAll s q e
  if keep.length = q.items.length then s
  else s.setQueue qn { q with items := keep, sentCount := bump q.sentCount (q.items.length - keep.length) }

/-- The queues bound to a photonic engine. -/
def nearQueuesOf (s : State) (n : Nat) : List Nat :=
  (List.range 256).filter fun i => decide ((s.queue i).bind = 2) && decide ((s.queue i).neng = n) && (s.queue i).en

def releaseNear (s : State) (n : Nat) : State := (nearQueuesOf s n).foldl releaseQueue s

/-- A transmit ring whose receive colour is IN_SERVICE enters VERIFY, R489; what other colours have echoed so far does not count. -/
def txEnterVerify (s : State) (n c : Nat) : State :=
  let y := s.col n c
  if y.tx.st = .locking ∧ y.tx.locked ∧ y.rx.st = .inService then
    let x := s.phe n
    let x := (List.range 32).foldl (fun x d => if (x.col d).lastEcho = cidOf n c then x.setCol d { x.col d with echoRun := 0 } else x) x
    setTx (s.setPhe n x) n c { y.tx with st := .verify }
  else s

/-- A transmit colour returns to LOCKING with its ring as it stands. -/
def txLeave (s : State) (n c : Nat) (r : Ring) : State :=
  let s := partRetrain (dropCredits s n c) (txPart n c) 1
  setTx s n c { r with st := .locking }

/-- A receive colour returns to LOCKING, R491. -/
def rxLeave (s : State) (n c : Nat) (r : Ring) : State :=
  let s := partRetrain (dropCredits s n c) (rxPart n c) 1
  rxReset (setRx s n c { r with st := .locking }) n c

/-- A ring becomes FAILED, R490 and R572. -/
def ringFailed (s : State) (n c : Nat) (rx : Bool) : State :=
  let p := if rx then rxPart n c else txPart n c
  let s := phnErr s n pbRingFailed c rx
  let s := if rx then s else countDefect s p
  let s := journal s 0x01 p [BitVec.ofNat 8 (0x10 + pbRingFailed), 1]
  let s := stateHard s p 3 4
  if rx then s else releaseNear s n

/-- A failed attempt, R490: the ring goes 0.4 mW past its peak and sweeps again; the third sets FAILED. -/
def failAttempt (s : State) (n c : Nat) (rx : Bool) : State :=
  let y := s.col n c
  let r := if rx then y.rx else y.tx
  let was := decide (r.st = .inService)
  let r := { r with att := r.att + 1, locked := false, heat := r.heat + 8, swept := 0, parked := false, st := if r.att = 2 then .failed else .locking }
  let x := s.phe n
  let s := s.setPhe n { x with wrongLock := bump x.wrongLock 1 }
  let s := if was then dropCredits s n c else s
  let s := if rx then rxReset (setRx s n c r) n c else setTx s n c r
  let s := phnErr s n pbWrongLock c rx
  let s := if rx then s else partRetry s (txPart n c) 1
  if r.st = .failed then ringFailed s n c rx
  else partRetrain s (if rx then rxPart n c else txPart n c) 1

/-- A ring passes: IN_SERVICE with an attempt count of 0; a part that was OUT returns, R572. -/
def ringPass (s : State) (n c : Nat) (rx : Bool) : State :=
  let y := s.col n c
  let p := if rx then rxPart n c else txPart n c
  let s := if rx then setRx s n c { y.rx with st := .inService, att := 0 } else setTx s n c { y.tx with st := .inService, att := 0 }
  let s := if (s.part p.toNat).st = 4 then journal (stateMended s p 3) 0x01 p [BitVec.ofNat 8 (0x10 + pbRingFailed), 0] else s
  if rx then txEnterVerify s n c else s

/-! ## Spares, R493 to R495 -/

/-- Answers the FM_ACTION that asked for a substitution, when one did. -/
def spareAnswer (s : State) (n o : Nat) (f : State → MboxRec → State) : State :=
  let x := s.spare n o
  match x.fm with
  | none => s
  | some (r, _) => f (s.setSpare n o { x with fm := none }) r

/-- A colour without a laser: RETIRED until service, R495. -/
def colourRetired (s : State) (n c : Nat) : State :=
  let y := s.col n c
  let s := phnErr (setTx (dropCredits s n c) n c { y.tx with st := .retired }) n pbLaserRetired c false
  nearSettle (releaseNear s n) n

/-- A spare becomes FAILED, R493 and R572; a colour whose own laser is at STAGE 3 is then RETIRED. -/
def spareFailed (s : State) (n o : Nat) : State :=
  let x := s.spare n o
  let c := x.colour.toNat
  let s := s.setSpare n o { x with st := .failed, urgent := false }
  let s := journal s 0x06 (sparePart n o) [3, BitVec.ofNat 8 c]
  let s := stateHard s (sparePart n o) 2 3
  let s := if (s.col n c).stage = 3 ∧ !(s.col n c).spared ∧ (s.col n c).tx.st ≠ .retired then colourRetired s n c else s
  spareAnswer s n o fun s r => fmRefuse s r 9

/-- A substitution begins: the spare tunes to the colour; with no light from the DFB it stands at its calibrated setting at once. -/
def startMake (s : State) (n c : Nat) (urgent : Bool) (fm : Option (MboxRec × BitVec 64)) : State :=
  let st : SpareSt := if (s.col n c).light then .tuning else .locked
  s.setSpare n (c / 8) { s.spare n (c / 8) with st := st, colour := BitVec.ofNat 5 c, moves := 0, urgent := urgent, tried := none, fm := fm }

/-- AUTO_SWAP: in each octet whose spare is IDLE, the lowest colour at STAGE 2 is substituted, R493 and R503. -/
def autoSwaps (s : State) (n : Nat) : State :=
  if (s.phe n).safety = .normal ∧ (s.phe n).autoSwap then
    (List.range 4).foldl (fun s o =>
      if (s.spare n o).st = .idle then
        match ((List.range 8).map (8 * o + ·)).find? fun c => decide ((s.col n c).stage = 2) && !(s.col n c).spared && decide ((s.col n c).tx.st ≠ .retired) with
        | some c => startMake s n c false none
        | none => s
      else s) s
  else s

/-- A made spare may move at this frame boundary: inside a seam while a plan is RUNNING, at any boundary otherwise, and at once for a laser at STAGE 3. -/
def mayMove (s : State) (n c : Nat) : Bool :=
  let x := s.spare n (c / 8)
  let st := (s.col n c).tx.st
  decide (x.st = .locked) && decide (x.colour.toNat = c) && !(s.col n c).spared
    && (decide (st = .inService) || decide (st = .verify) || decide (st = .locking))
    && (x.urgent || !planRunning s || (s.stn.inSeam && decide (x.tried ≠ some s.stn.step)))

/-- The move: the DFB's shutter closes and the spare switches to BUS; the colour is SWAPPING. -/
def startMove (s : State) (n c : Nat) : State :=
  let y := s.col n c
  s.setCol n c { y with before := y.tx.st, tx := { y.tx with st := .swapping }, echoRun := 0 }

/-- The state that a colour returns to after a move. -/
def afterMove (s : State) (n c : Nat) (st : RingSt) : State :=
  let y := s.col n c
  setTx s n c { y.tx with st := if y.rx.st = .inService then st else .locking }

/-- A move passes: the spare drives the colour, and the DFB counts as retired. -/
def movePass (s : State) (n c : Nat) : State :=
  let o := c / 8
  let x := s.spare n o
  let fm := x.fm
  let s := s.setSpare n o { x with st := .bus, urgent := false }
  let y := s.col n c
  let s := s.setCol n c { y with spared := true, stage := 0, level := 0, light := true, bias := x.bias, tx := { y.tx with st := .inService, att := 0 } }
  let e := s.phe n
  let s := phnErr (s.setPhe n { e with swaps := bump e.swaps 1 }) n pbSwapDone c false
  let s := setPartSt (journal s 0x06 (dfbPart n c) [1, BitVec.ofNat 8 c]) (sparePart n o) 0
  match fm with
  | none => stateHard s (dfbPart n c) 6 3
  | some (_, q) =>
    let s := if (s.part (dfbPart n c).toNat).st = 3 then s else softRetired s (dfbPart n c) q 0
    spareAnswer s n o fun s r => fmOk s r (dfbPart n c)

/-- A move fails: the DFB's shutter reopens and the spare goes back to MONITOR; the third failure makes it FAILED. -/
def moveFail (s : State) (n c : Nat) : State :=
  let o := c / 8
  let x := s.spare n o
  let s := s.setSpare n o { x with moves := x.moves + 1, tried := some s.stn.step }
  let s := afterMove s n c (s.col n c).before
  let s := phnErr s n pbSwapReverted c false
  let s := partRetry (journal s 0x06 (dfbPart n c) [2, BitVec.ofNat 8 c]) (sparePart n o) 1
  let s := if (s.col n c).stage = 3 then spareAnswer (colourRetired s n c) n o (fun s r => fmOk s r (dfbPart n c)) else s
  if x.moves = 2 then spareFailed s n o else s

/-! ## Frames in, R480 to R484 -/

/-- A near frame of R481 as it is received: how many SYNC bits differ, the header fields, whether HCRC holds, and the payload. -/
structure NearFrame where
  syncErrors : Nat
  cid : BitVec 8
  echo : BitVec 8
  kind : BitVec 8
  dest : BitVec 16
  crCount : BitVec 16
  fmt : BitVec 8
  tileNo : BitVec 16
  tcrc : BitVec 32
  step : BitVec 32
  hcrcOk : Bool
  payload : List Byte
deriving DecidableEq, Repr

/-- SYNC of R481. -/
def nearSync : List Byte := beBytes 6 0x9E472BD16C38

/-- The frame that 4,128 octets at a frame position hold, R481. -/
def readNear (b : List Byte) : NearFrame :=
  { syncErrors := bitDiff (b.take 6) nearSync, cid := BitVec.ofNat 8 (beAt b 6 1), echo := BitVec.ofNat 8 (beAt b 7 1), kind := BitVec.ofNat 8 (beAt b 8 1), dest := BitVec.ofNat 16 (beAt b 10 2), crCount := BitVec.ofNat 16 (beAt b 14 2), fmt := BitVec.ofNat 8 (beAt b 16 1), tileNo := BitVec.ofNat 16 (beAt b 18 2), tcrc := BitVec.ofNat 32 (beAt b 20 4), step := BitVec.ofNat 32 (beAt b 24 4), hcrcOk := decide (crc32c (slice b 6 22) = BitVec.ofNat 32 (beAt b 28 4)), payload := slice b 32 4096 }

/-- A frame position of an aligned colour: the fourth in a row whose SYNC differs in more than 4 bits ends the alignment, R482. -/
def alignStep (y : Colour) (f : NearFrame) : Colour :=
  let bad := if 4 < f.syncErrors then y.syncBad + 1 else 0
  if 4 ≤ bad then { y with aligned := false, syncBad := 0, ownRun := 0, otherRun := 0, echoRun := 0 } else { y with syncBad := bad }

/-- Whether SYNC and a good HCRC stand at the front of these octets. -/
def frameHead (b : List Byte) : Bool := decide (b.take 6 = nearSync) && decide (crc32c (slice b 6 22) = BitVec.ofNat 32 (beAt b 28 4))

/-- A colour that is not aligned tests each octet position in turn for SYNC and HCRC there and one frame on, R482; the frame that completes the alignment is the first received. It stops where octets are still to come. -/
def Colour.hunt : (fuel : Nat) → Colour → Colour
  | 0, y => y
  | k + 1, y =>
    if y.stream.length < 32 then y
    else if !frameHead y.stream then Colour.hunt k { y with stream := y.stream.drop 1 }
    else if y.stream.length < 4160 then y
    else if frameHead (y.stream.drop 4128) then { y with stream := y.stream.drop 4128, aligned := true, syncBad := 0 }
    else Colour.hunt k { y with stream := y.stream.drop 1 }

/-- What a received frame tells: LAST_ECHO, LAST_CID and the runs of R488 and R489; a frame without a good HCRC breaks every run. -/
def noteFrame (y : Colour) (own : Byte) (f : NearFrame) : Colour :=
  if f.hcrcOk then
    let e := if f.echo = y.lastEcho then y.echoRun + 1 else 1
    let o := if f.cid = own then y.ownRun + 1 else 0
    let t := if f.cid = own then 0 else y.otherRun + 1
    { y with lastEcho := f.echo, lastCid := f.cid, echoRun := e, ownRun := o, otherRun := t }
  else { y with echoRun := 0, ownRun := 0, otherRun := 0 }

/-- A frame is discarded: counted, with the bits of R482. -/
def nearDiscard (s : State) (n c : Nat) (also : List Nat) : State :=
  let x := s.phe n
  let s := phnErr (s.setPhe n { x with discards := bump x.discards 1 }) n pbDiscard c true
  partRetry (also.foldl (fun s i => phnErr s n i c true) s) (rxPart n c) 1

/-- The frame's own content: discarded under R482, or its credits are added and its tile enters the input queue it names. -/
def takeFrame (s : State) (n : Fin 8) (c : Fin 32) (f : NearFrame) : State :=
  let e := bitsOf f.dest.toNat 8 3
  let q := bitsOf f.dest.toNat 2 0
  if !f.hcrcOk || decide (1 < f.kind.toNat) then nearDiscard s n.val c.val []
  else if f.cid ≠ cidOf n.val c.val then nearDiscard s n.val c.val [pbCidMm]
  else if f.kind = 1 ∧ !hasBudget s 0x01 (8 * e + q) then nearDiscard s n.val c.val []
  else if f.kind = 1 ∧ !iqRoom s e q then nearDiscard s n.val c.val [pbOverrun]
  else
    let y := s.col n.val c.val
    let s := s.setCol n.val c.val { y with credits := BitVec.ofNat 16 (min 0xFFFF (y.credits.toNat + f.crCount.toNat)) }
    if f.kind = 1 then
      pump (iqInsert (spendHeld s (creditKey n.val c.val (8 * e + q))) e q ⟨f.fmt, f.tcrc, f.tileNo, padTo 0 4096 f.payload, some (n, c), none⟩)
    else s

/-- What the runs of frames decide: R488 on this colour, R489 and the move of R493 on the colour that ECHO names. -/
def judgeRuns (s : State) (n c : Nat) : State :=
  let y := s.col n c
  let s :=
    if y.rx.st = .verify ∧ 4 ≤ y.ownRun then ringPass s n c true
    else if (y.rx.st = .verify ∨ y.rx.st = .inService) ∧ 4 ≤ y.otherRun then failAttempt s n c true
    else s
  let t := y.lastEcho.toNat % 32
  if y.echoRun < 2 ∨ y.lastEcho ≠ cidOf n t then s
  else if t = c then
    match (s.col n c).tx.st with
    | .verify => ringPass s n c false
    | .swapping => movePass s n c
    | _ => s
  else match (s.col n t).tx.st with
    | .verify => failAttempt s n t false
    | .swapping => moveFail s n t
    | _ => s

/-- A receive colour whose ring is locked in an engine that is NORMAL. -/
def listens (s : State) (n c : Nat) : Bool :=
  let r := (s.col n c).rx.st
  decide ((s.phe n).safety = .normal) && (decide (r = .verify) || decide (r = .inService))

/-- One frame of an aligned colour, read from the front of its octets. -/
def nearFrame (s : State) (n : Fin 8) (c : Fin 32) (f : NearFrame) : State :=
    let y := alignStep (s.col n.val c.val) f
    if !y.aligned then s.setCol n.val c.val y
    else
      let s := s.setCol n.val c.val (noteFrame y (cidOf n.val c.val) f)
      nearSettle (judgeRuns (takeFrame s n c f) n.val c.val) n.val

/-- NEAR_FRAME_RECEIVE: a receive colour whose ring is locked takes a frame from its octets. -/
def nearReceive (s : State) (n : Fin 8) (c : Fin 32) : State :=
  if !listens s n.val c.val then s
  else
    let x := s.col n.val c.val
    let y := if x.aligned then x else x.hunt (x.stream.length + 1)
    if y.aligned ∧ 4128 ≤ y.stream.length then nearFrame (s.setCol n.val c.val { y with stream := y.stream.drop 4128 }) n c (readNear (y.stream.take 4128))
    else s.setCol n.val c.val y
def execNearFrameReceive (n : Fin 8) (c : Fin 32) (s : State) : Host.Outcome State Fault Refusal := act s (nearReceive s n c)

/-! ## Frames out, R481 to R485, R525 and R526 -/

/-- The queue that feeds a transmit colour. -/
def queueOfColour (s : State) (n c : Nat) : Option Nat := (nearQueuesOf s n).find? fun i => (s.queue i).mask.getLsbD c

/-- Place of the oldest tile that a colour has not yet sent. -/
def oldestUnsent (q : OutQ) (c : Nat) : Option Nat := q.items.findIdx? fun e => !e.sent.getLsbD c

/-- The credit return that the next frame of a colour carries: an input queue and a number of credits. -/
def nextReturn (s : State) (n c : Nat) : Option (Nat × Nat) :=
  let lo := creditKey n c 0
  match s.phn.owed.find? fun p => lo ≤ p.1 && p.1 < lo + 512 with
  | some (k, v) => some (k - lo, min 0xFFFF v)
  | none => none

def takeReturn (s : State) (n c q v : Nat) : State :=
  let k := creditKey n c q
  { s with phn := { s.phn with owed := Tab.put 0 s.phn.owed k (Tab.get 0 s.phn.owed k - v), held := Tab.put 0 s.phn.held k (Tab.get 0 s.phn.held k + v) } }

/-- The 4,128 bytes of a near frame, R481. -/
def nearFrameBytes (n c : Nat) (echo : Byte) (kind tag count : Nat) (fmt : BitVec 4) (tileNo : BitVec 16) (crc step : BitVec 32) (payload : List Byte) : List Byte :=
  let body := [cidOf n c, echo, BitVec.ofNat 8 kind, 0, 0, 0] ++ beBytes 2 tag ++ beBytes 2 count ++ [fmt.setWidth 8, 0] ++ beBytes 2 tileNo.toNat
    ++ beBytes 4 crc.toNat ++ beBytes 4 step.toNat
  nearSync ++ body ++ beBytes 4 (crc32c body).toNat ++ padTo 0 4096 payload

/-- The tile that a colour may send at this boundary: its queue, its place in it, and the tile. In a SHADOW the tile is dropped at once, R272. -/
def sendable (s : State) (n c : Nat) : Option (Nat × Nat × QItem) :=
  let y := s.col n c
  match queueOfColour s n c with
  | none => none
  | some qn =>
    let q := s.queue qn
    match oldestUnsent q c with
    | none => none
    | some i =>
      let ok := s.se.role = 2 ∨ (y.tx.st = .inService ∧ y.credits ≠ 0 ∧ (gateOpen s s.count).getLsbD q.gclass)
      if ok then (match q.items[i]? with | some e => some (qn, i, e.item) | none => none) else none

/-- A colour has sent a tile. -/
def markSent (s : State) (n c qn i : Nat) : State :=
  let q := s.queue qn
  let items := match q.items[i]? with
    | some e => q.items.set i { e with sent := putBit e.sent c true }
    | none => q.items
  let s := s.setQueue qn { q with items := items }
  let s := if s.se.role = 2 then s else s.setCol n c { s.col n c with credits := (s.col n c).credits - 1 }
  pump (releaseQueue s qn)

/-- A near frame leaves on a colour by its inner encoder, R480. -/
def sendNear (s : State) (n c : Nat) (bytes : List Byte) : State :=
  let y := s.col n c
  let (pins, lane) := y.lane.send bytes
  emit (s.setCol n c { y with lane := lane }) (.near n c bytes pins)

/-- NEAR_TX_FRAME: a frame boundary of a transmit colour. A substitution that may move does so; then the colour sends its oldest tile, or an IDLE frame. -/
def nearTxFrame (s : State) (n c : Nat) : State :=
  if (s.phe n).safety ≠ .normal then s
  else
    let s := if mayMove s n c then nearSettle (startMove s n c) n else s
    let y := s.col n c
    let lit := decide (y.tx.st = .verify) || decide (y.tx.st = .inService) || decide (y.tx.st = .swapping)
    let up := decide (y.tx.st = .inService) && decide (y.rx.st = .inService)
    let ret := if up then nextReturn s n c else none
    let s := match ret with | some (q, v) => takeReturn s n c q v | none => s
    let tag := match ret with | some (q, _) => q | none => 0
    let cnt := match ret with | some (_, v) => v | none => 0
    let idle := nearFrameBytes n c y.lastCid 0 tag cnt 0 0 0 0 []
    match sendable s n c with
    | some (qn, i, .tile fmt crc no step data) =>
      let bytes := if s.se.role = 2 then idle else nearFrameBytes n c y.lastCid 1 tag cnt fmt no crc step data
      let s := markSent s n c qn i
      if lit then sendNear s n c bytes else s
    | _ => if lit then sendNear s n c idle else s
def execNearTxFrame (n : Fin 8) (c : Fin 32) (s : State) : Host.Outcome State Fault Refusal := act s (nearTxFrame s n.val c.val)

/-! ## Loss of a colour, R490 and R491 -/

/-- RING_PEAK_LOSS: a colour in IN_SERVICE whose ring has lost its peak sweeps again. -/
def ringPeakLoss (s : State) (n c : Nat) (rx : Bool) : State :=
  let y := s.col n c
  let lo := heatLo s n
  if rx ∧ y.rx.st = .inService then nearSettle (rxLeave s n c (y.rx.sweepFrom lo)) n
  else if !rx ∧ y.tx.st = .inService then nearSettle (txLeave s n c (y.tx.sweepFrom lo)) n
  else s
def execRingPeakLoss (n : Fin 8) (c : Fin 32) (rx : Bool) (s : State) : Host.Outcome State Fault Refusal := act s (ringPeakLoss s n.val c.val rx)

/-- RX_LOS: the receive colour leaves service, and the transmit colour with it, R479 and R491. -/
def rxLos (s : State) (n c : Nat) : State :=
  let y := s.col n c
  if y.los then s
  else
    let s := countDefect (s.setCol n c { y with los := true }) (rxPart n c)
    let s := if y.rx.st = .inService then rxLeave s n c (y.rx.sweepFrom (heatLo s n)) else s
    let s := if y.rx.st = .inService ∧ (y.tx.st = .inService ∨ y.tx.st = .verify) then txLeave s n c y.tx else s
    nearSettle s n
def execRxLos (n : Fin 8) (c : Fin 32) (s : State) : Host.Outcome State Fault Refusal := act s (rxLos s n.val c.val)

/-- RX_LOS_CLEAR, R479. -/
def rxLosClear (s : State) (n c : Nat) : State := s.setCol n c { s.col n c with los := false }
def execRxLosClear (n : Fin 8) (c : Fin 32) (s : State) : Host.Outcome State Fault Refusal := act s (rxLosClear s n.val c.val)

/-- VERIFY_TIMEOUT: 50 µs in VERIFY, or 2,500 ns in a move, without a pass. -/
def verifyTimeout (s : State) (n c : Nat) : State :=
  match (s.col n c).tx.st with
  | .verify => nearSettle (failAttempt s n c false) n
  | .swapping => nearSettle (moveFail s n c) n
  | _ => s
def execVerifyTimeout (n : Fin 8) (c : Fin 32) (s : State) : Host.Outcome State Fault Refusal := act s (verifyTimeout s n.val c.val)

/-- SPARE_MAKE_TIMEOUT: 50 ms without LOCKED. -/
def spareMakeTimeout (s : State) (n o : Nat) : State := if (s.spare n o).st = .tuning then spareFailed s n o else s
def execSpareMakeTimeout (n : Fin 8) (o : Fin 4) (s : State) : Host.Outcome State Fault Refusal := act s (spareMakeTimeout s n.val o.val)

/-- RX_SWEEP_RETRY: a receive ring that found no peak starts a new sweep, R488. -/
def rxSweepRetry (s : State) (n c : Nat) : State :=
  let y := s.col n c
  if y.rx.st = .locking ∧ y.rx.parked then setRx s n c (y.rx.sweepFrom (heatLo s n)) else s
def execRxSweepRetry (n : Fin 8) (c : Fin 32) (s : State) : Host.Outcome State Fault Refusal := act s (rxSweepRetry s n.val c.val)

/-- The octets of a codeword join the stream of a colour whose ring is locked. -/
def Colour.gain (y : Colour) (on : Bool) (w : Codeword) : Colour := if on then { y with stream := y.stream ++ w.octets } else y

/-- A codeword of a receive colour, counted as on a far lane, R480; LOA takes the colour out of service. -/
def nearCodeword (s : State) (n c : Nat) (levels : List (BitVec 2)) : State :=
  let y := s.col n c
  let w := y.lane.word levels
  let x := y.lane.heard levels
  if x.locked then
    let z := x.decode w
    if z.locked then s.setCol n c ({ y with lane := z }.gain (listens s n c) w)
    else
      let s := s.setCol n c { y.deaf with lane := { z with loaCount := bump z.loaCount 1, err := setErr z.err 0, good := 0 }, loa := true }
      if y.rx.st = .inService then nearSettle (rxLeave s n c (y.rx.sweepFrom (heatLo s n))) n else s
  else
    let z := x.search w
    if z.locked then s.setCol n c ({ y with lane := z.decode w, loa := false }.gain (listens s n c) w) else s.setCol n c { y with lane := z }

/-- CODEWORD_RECEIVE on a lane of the inner code. -/
def codewordReceive (s : State) (l : LaneRef) (levels : List (BitVec 2)) : State :=
  match l with
  | .far g => farCodeword s g.val levels
  | .near n c => nearCodeword s n.val c.val levels
def execCodewordReceive (l : LaneRef) (levels : List (BitVec 2)) (s : State) : Host.Outcome State Fault Refusal := act s (codewordReceive s l levels)

/-! ## Eye safety, R496 and R497 -/

/-- A colour becomes OFF with its heater held; RETIRED and FAILED stand. -/
def Ring.dark (r : Ring) : Ring := if r.st = .retired ∨ r.st = .failed then r else { r with st := .off }

/-- A substitution in progress reverts before the lasers go dark: a move fails, a make ends. -/
def revertSpares (s : State) (n : Nat) : State :=
  (List.range 4).foldl (fun s o =>
    let x := s.spare n o
    let c := x.colour.toNat
    if x.st = .locked ∧ (s.col n c).tx.st = .swapping then moveFail s n c
    else if x.st = .tuning then
      let s := spareAnswer s n o fun s r => fmRefuse s r 7
      s.setSpare n o { s.spare n o with st := .idle, colour := 0, moves := 0, urgent := false }
    else s) s

/-- Entry to SHUTDOWN, R497. -/
def enterShutdown (s : State) (n : Nat) (pin : Bool) : State :=
  let s := revertSpares s n
  let s := (List.range 32).foldl (fun s c => if (s.col n c).tx.st = .inService ∨ (s.col n c).rx.st = .inService then dropCredits s n c else s) s
  let x := s.phe n
  let x := (List.range 32).foldl (fun x c => let y := x.col c; x.setCol c { y.deaf with tx := y.tx.dark, rx := y.rx.dark }) x
  let s := phnErr (s.setPhe n { x with safety := .shutdown, eyes := bump x.eyes 1 }) n pbShutdown 0 false
  nearSettle (if pin then phnErr s n pbInterlock 0 false else s) n

/-- An EYE_SHUTDOWN entry, R585. -/
def eyeEntry (s : State) (cause : Byte) : State := journal s 0x12 deviceId [cause]

/-- EYE_INTERLOCK_HIGH: every engine that is not in SHUTDOWN enters it. -/
def interlockHigh (s : State) : State :=
  let s := { s with phn := { s.phn with interlock := true } }
  let hit := (List.range 8).filter fun n => decide ((s.phe n).safety ≠ .shutdown)
  let s := hit.foldl (fun s n => enterShutdown s n true) s
  if hit.isEmpty then s else eyeEntry s 1
def execEyeInterlockHigh (s : State) : Host.Outcome State Fault Refusal := act s (interlockHigh s)

/-- EYE_INTERLOCK_LOW: the 100 ms before any engine may probe begin. -/
def interlockLow (s : State) : State :=
  if s.phn.interlock then { s with phn := { s.phn with interlock := false, holdNs := 100000000 } } else s
def execEyeInterlockLow (s : State) : Host.Outcome State Fault Refusal := act s (interlockLow s)

/-- RX_LIGHT_LOSS: receive total power has been below -15.0 dBm for 50 µs. -/
def rxLightLoss (s : State) (n : Nat) : State :=
  if (s.phe n).safety = .normal then eyeEntry (enterShutdown s n false) 2 else s
def execRxLightLoss (n : Fin 8) (s : State) : Host.Outcome State Fault Refusal := act s (rxLightLoss s n.val)

/-- PROBE_ENTRY: not while the pin is high or its 100 ms run, nor under FORCE_OFF. -/
def probeEntry (s : State) (n : Nat) : State :=
  let x := s.phe n
  if x.safety = .shutdown ∧ !s.phn.interlock ∧ s.phn.holdNs = 0 ∧ !x.forceOff then s.setPhe n { x with safety := .probe } else s
def execProbeEntry (n : Fin 8) (s : State) : Host.Outcome State Fault Refusal := act s (probeEntry s n.val)

/-- A ring when its engine enters NORMAL: one that has held a peak verifies again, one that has not yet locked starts to sweep. -/
def Ring.restart (r : Ring) (rx : Bool) (lo : Nat) : Ring :=
  if r.st = .retired ∨ r.st = .failed then r
  else if r.locked then { r with st := if rx then .verify else .locking }
  else r.sweepFrom lo

/-- Entry to NORMAL, R497. -/
def enterNormal (s : State) (n : Nat) : State :=
  let x := s.phe n
  let lo := heatLo s n
  let x := (List.range 32).foldl (fun x c => let y := x.col c; x.setCol c { y with tx := y.tx.restart false lo, rx := y.rx.restart true lo }) { x with safety := .normal }
  autoSwaps (nearSettle (s.setPhe n x) n) n

/-- PROBE_TIMEOUT: the end of a probe, with 1 ms of light or after 2 ms without. -/
def probeTimeout (s : State) (n : Nat) (light : Bool) : State :=
  if (s.phe n).safety = .probe then (if light then enterNormal s n else enterShutdown s n false) else s
def execProbeTimeout (n : Fin 8) (light : Bool) (s : State) : Host.Outcome State Fault Refusal := act s (probeTimeout s n.val light)

/-- FORCE_OFF: 1 holds the engine in SHUTDOWN. -/
def forceOff (s : State) (n : Nat) (on : Bool) : State :=
  let s := s.setPhe n { s.phe n with forceOff := on }
  if on ∧ ((s.phe n).safety = .normal ∨ (s.phe n).safety = .probe) then enterShutdown s n false else s
def execForceOff (n : Fin 8) (on : Bool) (s : State) : Host.Outcome State Fault Refusal := act s (forceOff s n.val on)

/-- Level sets a trigger channel at whole multiples of its period in Plumb count, R309 and R500; one that runs keeps its TARGET. -/
def armLevel (c period : Nat) (s : State) : State :=
  if (s.trig c).en then s
  else s.setTrig c { s.trig c with target := BitVec.ofNat 48 ((s.count.toNat / period + 1) * period), period := BitVec.ofNat 32 period, en := true }

/-- Level starts an engine: OFF to SHUTDOWN, step 9 of R608. Its monitor samples come every 1 ms and its control cycles every 10 µs. -/
def phnStart (s : State) : State :=
  let s := (List.range 8).foldl (fun s n => armLevel (12 + n) 10000 (armLevel (4 + n) 1000000 s)) s
  (List.range 8).foldl (fun s n => if (s.phe n).safety = .off then enterShutdown s n false else s) s

/-! ## PHN_CTRL, R503 and R505 -/

/-- RELOCK restarts a FAILED ring; anything else is ignored. -/
def relock (s : State) (n c : Nat) (rx : Bool) : State :=
  let x := s.phe n
  let s := s.setPhe n { x with colour := BitVec.ofNat 5 c, rxSel := rx }
  let y := s.col n c
  let r := if rx then y.rx else y.tx
  if x.safety = .normal ∧ r.st = .failed then
    let r := { r.sweepFrom (heatLo s n) with att := 0 }
    nearSettle (partRetrain (if rx then setRx s n c r else setTx s n c r) (if rx then rxPart n c else txPart n c) 1) n
  else phnErr s n pbCtrlIgnored c rx
def execRelock (n : Fin 8) (c : Fin 32) (rx : Bool) (s : State) : Host.Outcome State Fault Refusal := act s (relock s n.val c.val rx)

/-- SWAP substitutes a colour at STAGE 1 or higher whose spare is IDLE. -/
def swap (s : State) (n c : Nat) : State :=
  let x := s.phe n
  let s := s.setPhe n { x with colour := BitVec.ofNat 5 c }
  if x.safety = .normal ∧ (s.spare n (c / 8)).st = .idle ∧ (s.col n c).stage ≠ 0 ∧ (s.col n c).tx.st ≠ .retired then startMake s n c false none
  else phnErr s n pbCtrlIgnored c false
def execSwap (n : Fin 8) (c : Fin 32) (s : State) : Host.Outcome State Fault Refusal := act s (swap s n.val c.val)

/-- PHN_CLR_COUNTS: the five counters at 0x020 to 0x030. -/
def phnClrCounts (s : State) (n : Nat) : State :=
  s.setPhe n { s.phe n with wrongLock := 0, swaps := 0, eyes := 0, discards := 0, fenceSat := 0 }
def execPhnClrCounts (n : Fin 8) (s : State) : Host.Outcome State Fault Refusal := act s (phnClrCounts s n.val)

/-- A write of PHN_CTRL: the RW fields take their values, then the triggers act. -/
def phnCtrlWrite (s : State) (n : Nat) (v : BitVec 32) : State :=
  let c := bitsOf v.toNat 12 8
  let rx := v.getLsbD 5
  let s := s.setPhe n { s.phe n with colour := BitVec.ofNat 5 c, rxSel := rx, autoSwap := v.getLsbD 1 }
  let s := if v.getLsbD 3 then phnClrCounts s n else s
  let s := if v.getLsbD 0 = (s.phe n).forceOff then s else forceOff s n (v.getLsbD 0)
  let s := if v.getLsbD 4 then relock s n c rx else s
  let s := if v.getLsbD 2 then swap s n c else s
  autoSwaps s n

/-- FENCE_WRITE: PHN_FENCE_LASER, RING or POWER; a minimum above its maximum changes nothing, R502. -/
def fenceWrite (s : State) (n reg : Nat) (v : BitVec 32) : State :=
  let x := s.phe n
  let hi := BitVec.ofNat 16 (v.toNat / 65536)
  let lo := BitVec.ofNat 16 v.toNat
  let b := fun k : Nat => BitVec.ofNat 8 (v.toNat / 2 ^ k)
  if reg = 0 then s.setPhe n { x with biasMax := hi, freqWin := lo }
  else if reg = 1 then (if lo.toNat ≤ hi.toNat then s.setPhe n { x with heatMax := hi, heatMin := lo } else phnErr s n pbCtrlIgnored 0 false)
  else if (b 16).toInt ≤ (b 24).toInt then s.setPhe n { x with pwrMax := b 24, pwrMin := b 16, pwrTgt := b 8 } else phnErr s n pbCtrlIgnored 0 false
def execFenceWrite (n : Fin 8) (reg : Fin 3) (value : BitVec 32) (s : State) : Host.Outcome State Fault Refusal := act s (fenceWrite s n.val reg.val value)

/-! ## The loops, R487, R500 to R502 -/

/-- The launch power that the power loops hold: PWR_TGT within PWR_MIN and PWR_MAX, and PWR_MIN while the throttle level is 1 or higher, R502 and R611. -/
def powerTarget (s : State) (n : Nat) : Int :=
  let x := s.phe n
  if s.pwr.level = 0 then clampInt x.pwrMin.toInt x.pwrMax.toInt x.pwrTgt.toInt else x.pwrMin.toInt

/-- A value kept within a fence, as a natural number. -/
def fenced (lo hi v : Nat) : Nat := max lo (min hi v)

def biasTop (x : PEng) : Nat := min 4095 x.biasMax.toNat

/-- Actuators outside their fences move to them, R502. -/
def applyFences (s : State) (n : Nat) : State :=
  let lo := heatLo s n
  let hi := heatHi s n
  let x := s.phe n
  let top := biasTop x
  let w : Int := x.freqWin.toNat
  let x := (List.range 32).foldl (fun x c =>
    let y := x.col c
    x.setCol c { y with bias := BitVec.ofNat 12 (min top y.bias.toNat), freq := clampInt (-w) w y.freq, tx := { y.tx with heat := fenced lo hi y.tx.heat }, rx := { y.rx with heat := fenced lo hi y.rx.heat } }) x
  s.setPhe n ((List.range 4).foldl (fun x o => let y := x.spare o; x.setSpare o { y with bias := BitVec.ofNat 12 (min top y.bias.toNat), heat := if y.st = .idle then y.heat else fenced lo hi y.heat }) x)

/-- One step of a sweep, R487: a peak stops the ring; otherwise the heater rises by 0.05 mW and returns from HEAT_MAX to HEAT_MIN. A whole free spectral range is 40.0 mW, 800 steps. -/
def Ring.sweep (r : Ring) (lo hi : Nat) (peak : Bool) : Ring :=
  if peak then { r with locked := true, swept := 0 }
  else { r with heat := if hi ≤ r.heat then lo else r.heat + 1, swept := r.swept + 1 }

/-- The receive ring whose turn it is, in colour order. -/
def sweepRx (s : State) (n : Nat) (peaks : List (Fin 32)) : State :=
  match (List.range 32).find? fun c => let r := (s.col n c).rx; decide (r.st = .locking) && !r.locked && !r.parked with
  | none => s
  | some c =>
    let r := (s.col n c).rx.sweep (heatLo s n) (heatHi s n) (peaks.any fun p => p.val = c)
    if r.locked then rxReset (setRx s n c { r with st := .verify }) n c
    else if 800 ≤ r.swept then s.setCol n c { s.col n c with rx := { r with parked := true }, los := true }
    else setRx s n c r

/-- The transmit ring whose turn it is; it enters VERIFY only while its receive colour is IN_SERVICE. -/
def sweepTx (s : State) (n : Nat) (peaks : List (Fin 32)) : State :=
  match (List.range 32).find? fun c => let r := (s.col n c).tx; decide (r.st = .locking) && !r.locked with
  | none => s
  | some c =>
    let r := (s.col n c).tx.sweep (heatLo s n) (heatHi s n) (peaks.any fun p => p.val = c)
    txEnterVerify (setTx s n c r) n c

/-- A loop puts what it acts on where it wishes, or holds it at its fence. -/
def loopAct (x : PEng) (lo hi : Nat) (target : Int) (l : Loop) (v : Int) : PEng :=
  let cur := v.toNat
  match l with
  | .laserPower c => let y := x.col c.val; x.setCol c.val { y with bias := BitVec.ofNat 12 (min (biasTop x) cur), aim := target }
  | .laserFreq c => let y := x.col c.val; x.setCol c.val { y with freq := clampInt (-(x.freqWin.toNat : Int)) x.freqWin.toNat v }
  | .txRing c => let y := x.col c.val; if y.tx.locked then x.setCol c.val { y with tx := { y.tx with heat := fenced lo hi cur } } else x
  | .rxRing c => let y := x.col c.val; if y.rx.locked then x.setCol c.val { y with rx := { y.rx with heat := fenced lo hi cur } } else x
  | .spareCurrent o => let y := x.spare o.val; if y.st = .idle ∨ y.st = .failed then x else x.setSpare o.val { y with bias := BitVec.ofNat 12 (min (biasTop x) cur) }
  | .spareHeater o => let y := x.spare o.val; if y.st = .idle ∨ y.st = .failed then x else x.setSpare o.val { y with heat := fenced lo hi cur }

/-- Whether a wish lies outside its loop's fence. -/
def beyondFence (x : PEng) (lo hi : Nat) (l : Loop) (v : Int) : Bool :=
  match l with
  | .laserPower _ => decide ((biasTop x : Int) < v) || decide (v < 0)
  | .spareCurrent _ => decide ((biasTop x : Int) < v) || decide (v < 0)
  | .laserFreq _ => decide ((x.freqWin.toNat : Int) < v.natAbs)
  | _ => decide ((hi : Int) < v) || decide (v < (lo : Int))

def loopColour : Loop → Nat
  | .laserPower c => c.val | .laserFreq c => c.val | .txRing c => c.val | .rxRing c => c.val
  | .spareCurrent _ => 0 | .spareHeater _ => 0
def loopRx : Loop → Bool
  | .rxRing _ => true | _ => false

/-- One loop of a control cycle, R500 and R501: held at its fence it counts, and flags its entry to saturation. -/
def runLoop (s : State) (n : Nat) (l : Loop) (v : Int) : State :=
  let x := s.phe n
  let lo := heatLo s n
  let hi := heatHi s n
  let held := beyondFence x lo hi l v
  let y := loopAct x lo hi (powerTarget s n) l v
  if held then
    let s := s.setPhe n { y with fenceSat := bump y.fenceSat 1, saturated := if y.saturated.contains l then y.saturated else y.saturated ++ [l] }
    if x.saturated.contains l then s else phnErr s n pbFenceSat (loopColour l) (loopRx l)
  else s.setPhe n { y with saturated := y.saturated.filter (· ≠ l) }

/-- CONTROL_CYCLE: fences written since the last cycle take effect, a tuned spare is LOCKED, the rings whose turn it is sweep, and every loop acts. The loops run in NORMAL only; otherwise settings are held. -/
def controlCycle (s : State) (n : Nat) (o : CycleObs) : State :=
  if (s.phe n).safety ≠ .normal then s
  else
    let s := applyFences s n
    let s := o.spareLocked.foldl (fun s k => if (s.spare n k.val).st = .tuning then s.setSpare n k.val { s.spare n k.val with st := .locked } else s) s
    let s := sweepTx (sweepRx s n o.rxPeak) n o.txPeak
    nearSettle (o.wishes.foldl (fun s w => runLoop s n w.1 w.2) s) n
def execControlCycle (n : Fin 8) (o : CycleObs) (s : State) : Host.Outcome State Fault Refusal := act s (controlCycle s n.val o)

/-! ## Monitor samples, R492, R495 and R500 -/

/-- The stage whose threshold a sample reaches. -/
def sampleLevel (x : PEng) (eol : Nat) (m : LaserSample) : Nat :=
  let b := m.bias.toNat
  if eol ≤ b ∨ (!m.light ∧ biasTop x ≤ b) then 3 else if 9 * eol ≤ 10 * b then 2 else if 4 * eol ≤ 5 * b then 1 else 0

/-- A laser at STAGE 3 is retired, R495 and R503. -/
def laserEnd (s : State) (n c : Nat) : State :=
  let o := c / 8
  let s := stateHard s (laserPart s n c) 1 3
  if (s.col n c).tx.st = .swapping then s
  else if !(s.col n c).spared ∧ (s.spare n o).st = .idle then startMake s n c true none
  else
    let s := colourRetired s n c
    if (s.spare n o).colour.toNat = c ∧ !(s.col n c).spared then spareAnswer s n o (fun s r => fmOk s r (dfbPart n c)) else s

/-- Entry to a stage, R492. -/
def enterStage (s : State) (n c k : Nat) : State :=
  let y := s.col n c
  let p := laserPart s n c
  let s := s.setCol n c { y with stage := BitVec.ofNat 2 k }
  let s := countDefect (journal s 0x05 p ([BitVec.ofNat 8 k, 0] ++ leBytes 2 y.bias.toNat ++ leBytes 2 (laserEolOf s n c))) p
  if k = 1 then phnErr s n pbLaserWarn c false
  else if k = 2 then phnErr s n pbSpareDue c false
  else laserEnd s n c

/-- One laser is judged: a stage is entered when this sample and the one before reach its threshold. -/
def judgeLaser (s : State) (n : Nat) (m : LaserSample) : State :=
  let c := m.colour.val
  let y := s.col n c
  if y.tx.st = .retired then s
  else
    let l := sampleLevel (s.phe n) (laserEolOf s n c) m
    let new := min l y.level
    let s := s.setCol n c { y with bias := m.bias, light := m.light, level := l }
    let s := partMargin s (laserPart s n c) ((laserEolOf s n c : Int) - (m.bias.toNat : Int))
    let s := if y.stage.toNat < 1 ∧ 1 ≤ new then enterStage s n c 1 else s
    let s := if y.stage.toNat < 2 ∧ 2 ≤ new then enterStage s n c 2 else s
    if y.stage.toNat < 3 ∧ 3 ≤ new then enterStage s n c 3 else s

/-- MONITOR_SAMPLE: powers are taken, every laser that drives a colour is judged in colour order, substitutions that fall due begin, and the margins go to the ledger. -/
def monitorSample (s : State) (n : Nat) (o : MonitorObs) : State :=
  let s := s.setPhe n { s.phe n with rxTotal := o.rxTotal }
  let s := o.rxPower.foldl (fun s p =>
    let s := s.setCol n p.1.val { s.col n p.1.val with rxPwr := p.2 }
    partMargin s (rxPart n p.1.val) (p.2.toInt + 80)) s
  let s := (List.range 32).foldl (fun s c => partMargin s (txPart n c) (((s.phe n).heatMax.toNat : Int) - (((s.col n c).tx.heat / 2 : Nat) : Int))) s
  if (s.phe n).safety ≠ .normal then s
  else
    let s := (List.range 32).foldl (fun s c => match o.lasers.find? fun m => decide (m.colour.val = c) with
      | some m => judgeLaser s n m
      | none => s) s
    nearSettle (autoSwaps s n) n
def execMonitorSample (n : Fin 8) (o : MonitorObs) (s : State) : Host.Outcome State Fault Refusal := act s (monitorSample s n.val o)

end Sys2Proof.Machine
end

