-- ==== Sys2Proof/Machine/Poll.lean ====
section
/-! DEFINITION. What Hawk reads into the Snag ledger, R565 and R566: the increases of the units' counters since their last read, and the clearing of counters, which Hawk reads first. -/

namespace Sys2Proof.Machine

/-- Increase of a counter since its last read, and the state with the value noted; `key` is the counter's CSR address, or a number of its own where it has none. A counter at its largest value marks the part SATURATED. -/
def readCounter (s : State) (part : BitVec 16) (key v : Nat) : Nat × State :=
  let last := Tab.get 0 s.sng.lastRead key
  let inc := if v < last then v else v - last
  let s := { s with sng := { s.sng with lastRead := Tab.put 0 s.sng.lastRead key v } }
  let s := if v = 0xFFFFFFFF ∧ 0 < inc then sngErr (s.setPart part.toNat { s.part part.toNat with saturated := true }) 4 else s
  (inc, s)

/-- A counter that counts corrected events, uncorrectable events, retries or re-trainings of a part. -/
inductive LedgerField where
  | corr | uncorr | retry | retrain
deriving DecidableEq, Repr

/-- Adds n events to a field of a part. -/
def addField (s : State) (part : BitVec 16) (f : LedgerField) (n : Nat) : State :=
  if n = 0 then s
  else match f with
    | .corr => partErrors s part n 0
    | .uncorr => partErrors s part 0 n
    | .retry => partRetry s part n
    | .retrain => partRetrain s part n

def pollOne (s : State) (part : BitVec 16) (key : Nat) (f : LedgerField) (c : Nat) : State :=
  let (n, s) := readCounter s part key c
  addField s part f n

/-- Counters of an engine, a stack, a far lane, a receive colour and the host port, R565. -/
def pollEngine (s : State) (e : Nat) : State :=
  let b := 0x40000 + e * 0x1000
  let s := pollOne s (partId 1 e) (b + 0x24) .corr (s.eng e).laCeCount.toNat
  pollOne s (partId 1 e) (b + 0x28) .retry (s.eng e).arriveCrcCount.toNat
def pollStack (s : State) (k : Nat) : State :=
  let b := 0xA0000 + k * 0x400
  let s := pollOne s (partId 2 k) (b + 0xC) .corr (s.stack k).ce.toNat
  let s := pollOne s (partId 2 k) (b + 0x14) .corr (s.stack k).odecc.toNat
  pollOne s (partId 2 k) (b + 0x10) .uncorr (s.stack k).ue.toNat
def pollLane (s : State) (g : Nat) : State :=
  let b := 0x1000000 + g * 16
  let p := partId 3 g
  let s := pollOne s p b .corr (s.mlane g).corrSym.toNat
  let s := pollOne s p (b + 1) .uncorr (s.mlane g).uncorrCw.toNat
  let s := pollOne s p (b + 2) .retry (s.lane g).lateCount.toNat
  let s := pollOne s p (b + 3) .retrain (s.mlane g).loaCount.toNat
  let s := pollOne s p (b + 4) .retrain (s.lane g).oofCount.toNat
  let s := pollOne s p (b + 5) .retrain (s.lane g).rangeCount.toNat
  let m := max (s.part p.toNat).hourMax (s.mlane g).maxSym.toNat
  partMargin (s.setPart p.toNat { s.part p.toNat with hourMax := m }) p (15 - (m : Int))
def pollColour (s : State) (i : Nat) : State :=
  let b := 0x2000000 + i * 16
  let y := s.col (i / 32) (i % 32)
  let s := pollOne s (partId 4 i) b .corr y.lane.corrSym.toNat
  pollOne s (partId 4 i) (b + 1) .uncorr y.lane.uncorrCw.toNat
def pollHost (s : State) : State := pollOne s (partId 7 0) 0x111018 .retry s.hwk.dropCount.toNat

/-- Every health counter of R565, read once. -/
def pollAll (s : State) : State :=
  let s := (List.range 64).foldl pollEngine s
  let s := (List.range 32).foldl pollStack s
  let s := (List.range 128).foldl pollLane s
  pollHost ((List.range 256).foldl pollColour s)

/-- LEDGER_POLL, with the corrected symbols and uncorrectable codewords of the host port since the last poll, which no register shows. -/
def ledgerPoll (s : State) (hostCorr hostUncorr : BitVec 32) : State := if s.hwk.running then partErrors (pollAll s) (partId 7 0) hostCorr.toNat hostUncorr.toNat else s
def execLedgerPoll (hostCorr hostUncorr : BitVec 32) (s : State) : Host.Outcome State Fault Refusal := act s (ledgerPoll s hostCorr hostUncorr)

/-! ## Clearing of counters that the ledger takes, R566: read, then cleared, and the cleared values noted -/

def clearEngine (s : State) (e : Nat) : State := pollEngine (engClrCounts (pollEngine s e) e) e
def execEngClrCounts (e : Fin 64) (s : State) : Host.Outcome State Fault Refusal := act s (clearEngine s e.val)

/-- The lanes of a port. -/
def portLanes (p : Nat) : List Nat := (List.range 8).map (8 * p + ·)
def clearRndPort (s : State) (p : Nat) : State :=
  let s := rndClrCounts ((portLanes p).foldl pollLane s) p
  (portLanes p).foldl pollLane s
def execRndClrCounts (p : Fin 16) (s : State) : Host.Outcome State Fault Refusal := act s (clearRndPort s p.val)

/-- PORT_CFG_WRITE, R395: CLR_COUNTS, then V1. -/
def portCfgWrite (s : State) (p : Nat) (v : BitVec 32) : State := portV1Write (if v.getLsbD 1 then clearRndPort s p else s) p v
def execPortCfgWrite (p : Fin 16) (value : BitVec 32) (s : State) : Host.Outcome State Fault Refusal := act s (portCfgWrite s p.val value)

def clearMnd (s : State) : State :=
  let s := mndClrCounts ((List.range 128).foldl pollLane s)
  (List.range 128).foldl pollLane s
def execMndClrCounts (s : State) : Host.Outcome State Fault Refusal := act s (clearMnd s)

/-- HBM CLR_COUNTS: the four counters of a stack, R353. -/
def hbmClrCounts (s : State) (k : Nat) : State := s.setStack k { s.stack k with ce := 0, ue := 0, odecc := 0, patrol := 0 }
def clearStack (s : State) (k : Nat) : State := pollStack (hbmClrCounts (pollStack s k) k) k
def execHbmClrCounts (k : Fin 32) (s : State) : Host.Outcome State Fault Refusal := act s (clearStack s k.val)

/-- HWK CLR_COUNTS: the three counters of Hawk, R559. -/
def hwkClrCounts (s : State) : State := { s with hwk := { s.hwk with cmdCount := 0, refusedCount := 0, dropCount := 0 } }
def clearHwk (s : State) : State := pollHost (hwkClrCounts (pollHost s))
def execHwkClrCounts (s : State) : Host.Outcome State Fault Refusal := act s (clearHwk s)

end Sys2Proof.Machine
end

