-- ==== Sys2Proof/Machine/Hbm.lean ====
section
/-! DEFINITION. The HBM stacks, R329 to R335 and R351 to R353: refresh holds and patrol, write-back, training, initialisation and failure. -/

namespace Sys2Proof.Machine

/-- DHA of a tile of a stack, R322. -/
def stackTileDha (k tile : Nat) : Nat := k / 8 * quadBytes + (tile * 8 + k % 8) * 4096

/-- A patrol read of one tile, R333. -/
def patrolRead (s : State) (k tile : Nat) (ups : List BurstUpset) : State :=
  let dha := stackTileDha k tile
  let (bad, s) := readBursts (addUpsets s dha ups) dha 128
  if bad then s.setStack k { s.stack k with err := setErr (s.stack k).err 3 } else s

/-- HBM_REFRESH: a refresh hold, with the patrol read made in it, if one was, and whether it completed a pass. Patrol reads pause while the throttle level is 1 or higher, R611. -/
def hbmRefresh (s : State) (k : Nat) (patrol : Option (Fin 6291456 × List BurstUpset)) (passDone : Bool) : State :=
  if (s.stack k).st ≠ 2 ∨ s.pwr.level ≠ 0 then s
  else
    let s := match patrol with
      | some (t, ups) => patrolRead s k t.val ups
      | none => s
    if passDone then s.setStack k { s.stack k with patrol := bump (s.stack k).patrol 1 } else s
def execHbmRefresh (k : Fin 32) (patrol : Option (Fin 6291456 × List BurstUpset)) (passDone : Bool) (s : State) : Host.Outcome State Fault Refusal :=
  act s (hbmRefresh s k.val patrol passDone)

/-- HBM_CE_WRITEBACK: a corrected burst, named by its DHA, is written back, R329; an uncorrectable one never is, R330. -/
def ceWriteback (s : State) (k : Nat) (dha : Nat) : State :=
  let b := dha / 32
  if stackOf dha = k ∧ (s.stack k).st = 2 ∧ s.hbm.writeback.contains b then
    { s with hbm := { s.hbm with writeback := s.hbm.writeback.filter (· ≠ b), soft := if s.hbm.hard.contains b then s.hbm.soft else s.hbm.soft.filter (· ≠ b) } }
  else s
def execHbmCeWriteback (k : Fin 32) (burst : BitVec 40) (s : State) : Host.Outcome State Fault Refusal := act s (ceWriteback s k.val burst.toNat)

/-- A stack enters FAILED, R353 and R572. -/
def stackFailed (s : State) (k : Nat) : State :=
  let x := s.stack k
  let s := setHbmReady (s.setStack k { x with st := 3, err := setErr x.err 4 }) k false
  stateHard (countDefect s (partId 2 k)) (partId 2 k) 4 4

/-- A strip ends when no stack is still to be initialised, R468 step 7. -/
def stripEnd (s : State) : State :=
  if s.slr.strip = 1 ∧ (List.range 32).all (fun k => (s.stack k).st = 2 || (s.stack k).st = 3) then { s with slr := { s.slr with strip := 2 } } else s

/-- HBM_TRAINING_DONE: a trained stack initialises; the quadrant's controllers take their key pair from the DRBG, R332 and R608. -/
def trainingDone (s : State) (k : Nat) (ok : Bool) (margin : BitVec 16) : State :=
  let x := s.stack k
  if x.st ≠ 0 ∨ !isUp s then s
  else if !ok then stripEnd (stackFailed s k)
  else
    let s := s.setStack k { x with st := 1, margin := some margin, trainings := x.trainings + 1 }
    let s := partMargin s (partId 2 k) margin.toInt
    let s := if 0 < x.trainings then partRetrain s (partId 2 k) 1 else s
    if s.slr.drbg ∧ s.slr.xts.getLsbD (k / 8) = false then slrReady (drawXts s (k / 8)) else s
def execHbmTrainingDone (k : Fin 32) (ok : Bool) (margin : BitVec 16) (s : State) : Host.Outcome State Fault Refusal := act s (trainingDone s k.val ok margin)

/-- A stack as its initialisation leaves it: encrypted zeros and tags of KIND 3, no errors, R332. -/
def clearStackContents (h : Hbm) (k : Nat) : Hbm :=
  { h with bytes := h.bytes.filter (fun p => stackOf p.1 ≠ k), tags := h.tags.filter (fun p => stackOf (p.1 * 4096) ≠ k), soft := h.soft.filter (fun b => stackOf (b * 32) ≠ k), hard := h.hard.filter (fun b => stackOf (b * 32) ≠ k), writeback := h.writeback.filter (fun b => stackOf (b * 32) ≠ k) }

/-- Quadrants join the pools once all their stacks are ready, and TOP_READY.LTH rises with the first, and stays, R351. -/
def lthReady (s : State) : State :=
  let t := joinPools s
  if t.top.ready.getLsbD rdyLth || decide (t.lth.joined = 0) then t else setReady t rdyLth true

/-- STACK_INIT_DONE, R332: it needs the quadrant's keys. -/
def stackInitDone (s : State) (k : Nat) : State :=
  let x := s.stack k
  if x.st ≠ 1 ∨ !s.slr.xts.getLsbD (k / 8) then s
  else
    let s := { s.setStack k { x with st := 2 } with hbm := clearStackContents (s.setStack k { x with st := 2 }).hbm k }
    let s := stateMended (setHbmReady s k true) (partId 2 k) 4
    stripEnd (lthReady s)
def execStackInitDone (k : Fin 32) (s : State) : Host.Outcome State Fault Refusal := act s (stackInitDone s k.val)

/-- HBM_LINK_LOSS, R353. -/
def linkLoss (s : State) (k : Nat) : State := if (s.stack k).st = 3 then s else stripEnd (stackFailed s k)
def execHbmLinkLoss (k : Fin 32) (s : State) : Host.Outcome State Fault Refusal := act s (linkLoss s k.val)

/-- CLR_UE_ADDR, R353. -/
def clrUeAddr (s : State) (k : Nat) : State := s.setStack k { s.stack k with ueAddr := none }
def execClrUeAddr (k : Fin 32) (s : State) : Host.Outcome State Fault Refusal := act s (clrUeAddr s k.val)

/-- A write of HBM_CTRL, R353; CLR_UE_ADDR and CLR_COUNTS. -/
def hbmCtrlWrite (s : State) (k : Nat) (v : BitVec 32) : State :=
  let s := if v.getLsbD 1 then clrUeAddr s k else s
  if v.getLsbD 0 then clearStack s k else s

end Sys2Proof.Machine
end

