-- ==== Sys2Proof/Machine/Rsa.lean ====
section
/-! DEFINITION. Signatures and key transport, R440 and R441: RSASSA-PSS and RSAES-OAEP of PKCS #1 v2.2 with RSA-3072, SHA-256 and MGF1 with SHA-256, the salt of 32 bytes. -/

namespace Sys2Proof

/-- b ^ e modulo n from bit k of e down, with what the bits above have given. -/
def powMod (n b e : Nat) : (k acc : Nat) → Nat
  | 0, acc => acc
  | k + 1, acc => powMod n b e k (if e.testBit k then acc * acc % n * b % n else acc * acc % n)

/-- MGF1: `len` mask bytes from a seed. -/
def maskBytes (seed : List Byte) (len : Nat) : List Byte :=
  ((List.range (ceilDiv len 32)).flatMap fun i => sha256 (seed ++ beBytes 4 i)).take len

/-- Modulus and public exponent of a key record of 388 bytes, R440. -/
def keyModulus (rec : List Byte) : Nat := beNat (slice rec 0 384)
def keyExponent (rec : List Byte) : Nat := beNat (slice rec 384 4)

/-- KEY_ID of a public key record, R440. -/
def keyIdOf (rec : List Byte) : List Byte := (sha256 rec).take 8

/-- Whether an encoded message of 384 bytes is that of a hash: EMSA-PSS-VERIFY for 3,071 bits. -/
def pssEncodes (hash em : List Byte) : Bool :=
  let masked : List Byte := em.take 351
  let h := slice em 351 32
  let plain := (List.zip masked (maskBytes h 351)).map fun x => x.1 ^^^ x.2
  let data : List Byte := match plain with | [] => [] | x :: r => (x &&& 0x7F) :: r
  let salt := slice data 319 32
  decide (em.length = 384) && decide (em.getLastD 0 = 0xBC) && !((masked.headD 0).getLsbD 7)
    && (data.take 318).all (fun x => decide (x = 0)) && decide (data.getD 318 0 = 1) && decide (sha256 (List.replicate 8 0 ++ hash ++ salt) = h)

/-- Whether a signature of 384 bytes over bytes with this SHA-256 hash checks under a key record. -/
def signatureOk (rec hash sig : List Byte) : Bool :=
  let n := keyModulus rec
  let x := beNat (slice sig 0 384)
  decide (x < n) && pssEncodes hash (beBytes 384 (powMod n x (keyExponent rec) 32 1))

/-- Exclusive or of two byte strings, as long as the first. -/
def maskedBy (bs mask : List Byte) : List Byte := List.zipWith (· ^^^ ·) bs mask

/-- EMSA-PSS-ENCODE of a hash for 3,071 bits. -/
def pssEncode (hash salt : List Byte) : List Byte :=
  let h := sha256 (List.replicate 8 0 ++ hash ++ salt)
  let masked := maskedBy (List.replicate 318 0 ++ [1] ++ salt) (maskBytes h 351)
  (match masked with | [] => [] | x :: r => (x &&& 0x7F) :: r) ++ h ++ [0xBC]

/-- The signature over bytes with this SHA-256 hash by the key with a record and a private exponent. -/
def rsaSign (rec : List Byte) (secret : Nat) (hash salt : List Byte) : List Byte :=
  beBytes 384 (powMod (keyModulus rec) (beNat (pssEncode hash salt)) secret 3072 1)

/-- RSAES-OAEP-ENCRYPT to a key record, with the seed drawn for it. -/
def oaepSeal (rec label msg seed : List Byte) : List Byte :=
  let data := sha256 label ++ List.replicate (318 - msg.length) 0 ++ [1] ++ msg
  let masked := maskedBy data (maskBytes seed 351)
  beBytes 384 (powMod (keyModulus rec) (beNat (maskedBy seed (maskBytes masked 32) ++ masked)) (keyExponent rec) 32 1)

/-- What stands behind zeros and a one. -/
def afterOne : List Byte → Option (List Byte)
  | [] => none
  | b :: r => if b = 0 then afterOne r else if b = 1 then some r else none

/-- RSAES-OAEP-DECRYPT of 384 bytes by the key with a record and a private exponent; none where it fails. -/
def oaepOpen (rec : List Byte) (secret : Nat) (label sealed : List Byte) : Option (List Byte) :=
  let n := keyModulus rec
  let c := beNat sealed
  if sealed.length ≠ 384 ∨ n ≤ c then none
  else
    let em := beBytes 384 (powMod n c secret 3072 1)
    let masked := em.drop 33
    let seed := maskedBy (slice em 1 32) (maskBytes masked 32)
    let data := maskedBy masked (maskBytes seed 351)
    if em.headD 1 = 0 ∧ data.take 32 = sha256 label then afterOne (data.drop 32) else none

end Sys2Proof
end

