-- ==== Sys2Proof/Machine/Mbox.lean ====
section
/-! DEFINITION. Sessions and mailbox records, R533 to R544: openings, the checks of a record, the course of a command, and the Lath commands that come this way. -/

namespace Sys2Proof.Machine

def hwkErr (s : State) (i : Nat) : State := { s with hwk := { s.hwk with err := setErr s.hwk.err i } }

/-- A datagram is discarded, R534, R541, R546. -/
def dropDatagram (s : State) : State := hwkErr { s with hwk := { s.hwk with dropCount := bump s.hwk.dropCount 1 } } 0

/-! ## Sessions -/

/-- The mailboxes that sessions hold. -/
def heldMboxes (s : State) : BitVec 16 :=
  (List.range 8).foldl (fun v i => match s.session i with | some x => v ||| x.mask | none => v) 0


/-- Mailboxes of a mask return to their first state. -/
def freeMboxes (s : State) (mask : BitVec 16) : State :=
  (List.range 16).foldl (fun s m => if mask.getLsbD m then s.setMbox m {} else s) s

/-- Staging areas that a session holds are released, R551. -/
def releaseStages (s : State) (num : BitVec 16) : State :=
  let h := s.hwk
  { s with hwk := { h with stage1 := if h.stage1 = some num then none else h.stage1, stage2 := if h.stage2 = some num then none else h.stage2 } }

/-- A session closes, R539: its mailboxes, area, key and staging areas go, and its class 2 owner is reclaimed. -/
def closeSession (s : State) (i : Nat) (byClose : Bool) : State :=
  match s.session i with
  | none => s
  | some x =>
    let s := releaseStages (freeMboxes (s.setSession i none) x.mask) x.num
    let s := if x.isOpen ∧ !byClose then hwkErr s 1 else s
    if x.isOpen then proxyFree s (sessionOwner x.num) else s

/-- A host record that fails its tag or its SEQ: counted, and the sixteenth closes the session, R464. -/
def recFail (s : State) (i : Nat) (x : Session) : State :=
  let k := s.slr
  let s := { s with slr := { k with recFail := bump k.recFail 1, err := setErr k.err 4 } }
  let s := dropDatagram s
  if 16 ≤ x.discards + 1 then closeSession s i false
  else s.setSession i (some { x with discards := x.discards + 1 })

/-- Next session number, R538. -/
def nextNum (s : State) : (fuel : Nat) → BitVec 16 → BitVec 16
  | 0, n => n
  | f + 1, n =>
    let bad := decide (n = 0) || holdsAny s.lth (sessionOwner n) || isDead s.lth (sessionOwner n)
      || (s.lth.queue.any fun c => decide (c.op = .proxyFree) && decide (c.owner = sessionOwner n)) || (sessionSlot s n).isSome
    if bad then nextNum s f (n + 1) else n

/-- OPEN4, R537. -/
def open4 (s : State) (hcs : BitVec 8) (num : BitVec 16) (status : Byte) (body : List Byte) : State :=
  emit s (.host ([4, hcs] ++ beBytes 2 num.toNat ++ [status, 0, 0, 0] ++ body))

/-- Why an OPEN1 is refused, R538: the first case that applies. -/
def openRefusal (s : State) (m : Open1) : Option Byte :=
  let free := m.mboxMask &&& ~~~heldMboxes s
  let slots := (List.range 8).filter fun i => (s.session i).isNone
  let enrolled := match s.slr.store with | some o => o.sessHash.contains (sha256 m.key) | none => false
  let verifier := match s.slr.store with | some o => o.pw | none => false
  if s.slr.lockout ≠ 0 then some 1
  else if slots.isEmpty then some 3
  else if free = 0 then some 2
  else if (m.method = 2 ∧ (!verifier ∨ m.hcs = 2)) ∨ (m.method = 1 ∧ m.hcs = 2 ∧ !enrolled) ∨ (m.method = 1 ∧ s.slr.strip ≠ 0) then some 4
  else none

/-- OPEN1, R537 and R538. A datagram whose HCS or METHOD is none of those listed is no opening message. -/
def open1 (s : State) (m : Open1) : State :=
  if !s.hwk.running then s
  else if (m.hcs ≠ 2 ∧ m.hcs ≠ 3) ∨ (m.method ≠ 1 ∧ m.method ≠ 2) then dropDatagram s
  else match openRefusal s m with
    | some st => open4 s m.hcs 0 st []
    | none =>
      let i := ((List.range 8).find? fun i => (s.session i).isNone).getD 0
      let num := nextNum s 65536 (s.hwk.lastNum + 1)
      let mask := m.mboxMask &&& ~~~heldMboxes s
      let (nonce, s) := draw s 32
      let s := { s with hwk := { s.hwk with lastNum := num } }
      let host := padTo 0 32 m.hostNonce
      let s := s.setSession i (some { num := num, hcs := m.hcs, method := m.method, mask := mask, hostNonce := host, devNonce := nonce, hostKey := m.key })
      emit s (.host ([2, m.hcs] ++ beBytes 2 num.toNat ++ beBytes 2 mask.toNat ++ [0, 0] ++ host ++ nonce))
def execOpen1 (m : Open1) (s : State) : Host.Outcome State Fault Refusal := act s (open1 s m)

/-- A failed opening and its lockout, R465: 60 s at the fifth, doubled by each further one up to 3,600 s. -/
def openFailed (s : State) : State :=
  let k := s.slr
  let fails : BitVec 16 := if k.fails = 0xFFFF then k.fails else k.fails + 1
  let k := { k with sessFail := bump k.sessFail 1, fails := fails, err := setErr k.err 3 }
  if fails.toNat < 5 then { s with slr := k }
  else
    let sec := min 3600 (60 * 2 ^ (min 6 (fails.toNat - 5)))
    journal { s with slr := { k with lockout := BitVec.ofNat 16 sec, err := setErr k.err 5 } } 0x14 deviceId (leBytes 4 sec)

/-- The bytes that T of R463 hashes. -/
def transcript (x : Session) : List Byte :=
  leBytes 16 Config.deviceId.toNat ++ beBytes 2 x.num.toNat ++ [x.method] ++ x.hostNonce ++ x.devNonce
    ++ (if x.method = 1 then sha256 x.hostKey else List.replicate 32 0)

/-- T of R463. -/
def transcriptHash (x : Session) : List Byte := sha256 (transcript x)

/-- Labels of R463. -/
def labelProof : List Byte := exLabel [0x50, 0x52, 0x4F, 0x4F, 0x46]
def labelSession : List Byte := exLabel [0x53, 0x45, 0x53, 0x53, 0x49, 0x4F, 0x4E]
def labelDevice : List Byte := exLabel [0x44, 0x45, 0x56, 0x49, 0x43, 0x45]

/-- VERIFIER of the owner store held, R444. -/
def passwordVerifier (s : State) : Option (List Byte) :=
  match s.slr.store with | some o => if o.pw then some (slice o.bytes 56 32) else none | none => none

/-- What the host has to prove, R463: by key, a signature over T with a key that is enrolled, or any on an unclaimed device, while IDK can sign; by password, the HMAC under the verifier. -/
def proofOk (s : State) (x : Session) (proof : List Byte) : Bool :=
  let t := transcriptHash x
  if x.method = 1 then
    decide (proof.length = 384) && signatureOk x.hostKey (sha256 t) proof && (match s.slr.store with | some o => o.sessHash.contains (sha256 x.hostKey) | none => true)
      && decide (s.slr.strip = 0) && s.slr.idk.isSome
  else match passwordVerifier s with
    | some v => decide (proof = hmac v (labelProof ++ t))
    | none => false

/-- A signature with IDK over bytes, under a salt drawn for it, R441. -/
def signIdk (s : State) (bs : List Byte) : List Byte × State :=
  match s.slr.idk with
  | none => ([], s)
  | some k => let (salt, s) := draw s 32; (rsaSign k.record k.secret (sha256 bs) salt, s)

/-- SK and what OPEN4 carries from byte 8, R463 and R537: by key, SK drawn and sealed to the host's key, then the signature over T and the hash of the sealed key; by password, both from the verifier. -/
def openKeys (s : State) (x : Session) : List Byte × List Byte × State :=
  let t := transcriptHash x
  if x.method = 1 then
    let (sk, s) := draw s 32
    let (seed, s) := draw s 32
    let sealed := oaepSeal x.hostKey labelSession sk seed
    let (sig, s) := signIdk s (t ++ sha256 sealed)
    (sk, sealed ++ sig, s)
  else
    let sk := hmac ((passwordVerifier s).getD []) (labelSession ++ t)
    (sk, hmac sk (labelDevice ++ t), s)

/-- OPEN3, R463: a good proof opens the session. -/
def open3 (s : State) (num : BitVec 16) (hcs : BitVec 8) (proof : List Byte) : State :=
  if !s.hwk.running then s
  else match sessionSlot s num with
    | none => dropDatagram s
    | some i => match s.session i with
      | none => dropDatagram s
      | some x =>
        if x.isOpen ∨ x.hcs ≠ hcs then dropDatagram s
        else if s.slr.lockout ≠ 0 then open4 (closeSession s i true) hcs num 1 []
        else
          let claimed := s.slr.store.isSome
          if !proofOk s x proof then open4 (openFailed (closeSession s i true)) hcs num 4 []
          else
            let (sk, proof, s) := openKeys s x
            let s := s.setSession i (some { x with isOpen := true, level := if x.method = 1 then 2 else 1, sk := sk, claiming := decide (x.method = 1) && !claimed })
            open4 { s with slr := { s.slr with fails := 0 } } hcs num 0 proof
def execOpen3 (session : BitVec 16) (hcs : BitVec 8) (proof : List Byte) (s : State) : Host.Outcome State Fault Refusal := act s (open3 s session hcs proof)

/-- OPEN_LAPSE: no OPEN3 within 5 s, R538. -/
def openLapse (s : State) (num : BitVec 16) : State :=
  match sessionSlot s num with
  | none => s
  | some i => match s.session i with
    | some x => if x.isOpen then s else closeSession s i true
    | none => s
def execOpenLapse (session : BitVec 16) (s : State) : Host.Outcome State Fault Refusal := act s (openLapse s session)

/-- SESSION_IDLE_TIMEOUT: 60 s without an accepted record, R539. -/
def sessionIdle (s : State) (num : BitVec 16) : State :=
  match sessionSlot s num with
  | none => s
  | some i => match s.session i with
    | some x => if x.isOpen then closeSession s i false else s
    | none => s
def execSessionIdleTimeout (session : BitVec 16) (s : State) : Host.Outcome State Fault Refusal := act s (sessionIdle s session)

/-- LOCKOUT_EXPIRE, R465. -/
def lockoutExpire (s : State) : State := { s with slr := { s.slr with lockout := 0 } }
def execLockoutExpire (s : State) : Host.Outcome State Fault Refusal := act s (lockoutExpire s)

/-! ## Records, R541 and R542 -/

/-- Checks 2 to 5 of R541 on a record of a session: the slot and session of an accepted record, or the state after its discard. -/
def acceptRecord (s : State) (num : BitVec 16) (hcs : BitVec 8) (seq : BitVec 64) (tagOk mboxOk : Session → Bool) : Option (Nat × Session) × State :=
  match sessionSlot s num with
  | none => (none, dropDatagram s)
  | some i => match s.session i with
    | none => (none, dropDatagram s)
    | some x =>
      if !x.isOpen ∨ !mboxOk x then (none, dropDatagram s)
      else if !tagOk x then (none, recFail s i x)
      else if (match x.lastSeq with | some l => decide (seq.toNat ≤ l.toNat) | none => decide (seq = 0)) then (none, recFail s i x)
      else if x.hcs ≠ hcs then (none, dropDatagram s)
      else
        let x := { x with lastSeq := some seq }
        (some (i, x), s.setSession i (some x))

/-- A response that leaves the mailbox's command running, or that answers a record which starts none. -/
def answerOnly (s : State) (r : MboxRec) (op : BitVec 16) (status : Byte) (counts : Bool) : State :=
  let resp := mboxRecord 0x11 r op status []
  let s := s.setMbox r.mbox.val { s.mbox r.mbox.val with respRec := resp }
  let s := if counts then { s with hwk := { s.hwk with refusedCount := bump s.hwk.refusedCount 1 } } else s
  sendRecord s r.session resp

/-- The readiness bits of TOP_READY that a command needs; the first at 0, R31 and R547. -/
def notReadyBit (s : State) (need : List Nat) : Option Nat := (need.filter fun i => !s.top.ready.getLsbD i).foldl (fun m i => match m with | none => some i | some k => some (min k i)) none

/-- What a command of R547 needs before its own checks: its level, whether HCS 2 has it, and its readiness bits. -/
structure CmdNeeds where
  op : BitVec 16
  operate : Bool
  hcs2 : Bool
  ready : List Nat
deriving DecidableEq, Repr

/-- An accepted command starts, R547: refusals of the session's HCS, level and of readiness, then the command itself. -/
def startCommand (s : State) (x : Session) (r : MboxRec) (n : CmdNeeds) (f : State → State) : State :=
  let s := { s with hwk := { s.hwk with cmdCount := bump s.hwk.cmdCount 1 } }
  let s := s.setMbox r.mbox.val { s.mbox r.mbox.val with running := some (r.cmdId, r.session, n.op) }
  if x.hcs = 2 ∧ !n.hcs2 then respond s r n.op stBadOpcode []
  else if n.operate ∧ (x.level ≠ 2 ∨ (x.claiming ∧ n.op ≠ 0x0052)) then respond s r n.op stNotPermitted []
  else match notReadyBit s n.ready with
    | some i => respond s r n.op stNotReady [0, BitVec.ofNat 8 i]
    | none => f s

/-- A command record as its mailbox stores it, SEQ and TAG as zeros, R540. -/
def cmdRecord (r : MboxRec) (op : BitVec 16) (args : List Byte) : List Byte :=
  [0x10, r.hcs] ++ beBytes 2 r.session.toNat ++ [BitVec.ofNat 8 r.mbox.val, 0] ++ beBytes 2 op.toNat ++ beBytes 2 r.cmdId.toNat
    ++ [0, 0] ++ padTo 0 32 args ++ List.replicate 20 0

/-- The tag that the host owes a command record under a session key. -/
def commandTag (sk : List Byte) (r : MboxRec) (op : BitVec 16) (args : List Byte) : List Byte := recordTag sk 0 r.seq (underSeq (cmdRecord r op args) r.seq)

/-- A mailbox command: the checks of R541, then R542. -/
def mboxCmd (s : State) (r : MboxRec) (n : CmdNeeds) (args : List Byte) (f : State → State) : State :=
  if !s.hwk.running then s
  else if !r.formOk then dropDatagram s
  else match acceptRecord s r.session r.hcs r.seq (fun x => decide (r.tag = commandTag x.sk r n.op args)) (fun x => x.mask.getLsbD r.mbox.val) with
    | (none, s) => s
    | (some (_, x), s) =>
      let m := s.mbox r.mbox.val
      let s := s.setMbox r.mbox.val { m with cmdRec := cmdRecord r n.op args }
      match m.running with
      | some (c, _, _) =>
        if c = r.cmdId then answerOnly s r n.op (if x.hcs = 2 then stMboxBusy else stInProgress) false
        else answerOnly s r n.op stMboxBusy true
      | none =>
        if m.lastCmd = some r.cmdId then sendRecord s r.session m.respRec
        else startCommand s x r n f

/-- Hawk's bit of TOP_READY and those named. -/
def needs (op : BitVec 16) (operate hcs2 : Bool) (ready : List Nat) : CmdNeeds := ⟨op, operate, hcs2, rdyHwk :: ready⟩

/-- BAD_ARG with the offset of the first bad field. -/
def badArg (s : State) (r : MboxRec) (op : BitVec 16) (off : Nat) : State := respond s r op stBadArg [BitVec.ofNat 8 off]

/-- The session of a record. -/
def recSession (s : State) (r : MboxRec) : Option (Nat × Session) :=
  match sessionSlot s r.session with
  | none => none
  | some i => match s.session i with | some x => some (i, x) | none => none

/-- Bytes of the session area that a command names, R551: none beyond the area. -/
def area3Bytes (s : State) (r : MboxRec) (off len : Nat) : Option (List Byte) :=
  match recSession s r with
  | none => none
  | some (_, x) => if off + len ≤ 8192 then some (Mem.read x.area3 off len) else none

/-- Places bytes at offset 0 of the session area. -/
def putArea3 (s : State) (r : MboxRec) (bs : List Byte) : State :=
  match recSession s r with
  | none => s
  | some (i, x) => s.setSession i (some { x with area3 := Mem.write x.area3 0 bs })

/-- The check of R551 on an object in AREA 3: its bytes, or the answer BAD_OBJECT with the CRC that Hawk computed. -/
def withObject (s : State) (r : MboxRec) (op : BitVec 16) (off len : Nat) (crc : BitVec 32) (f : State → List Byte → State) : State :=
  match area3Bytes s r off len with
  | none => respond s r op 9 [0, 0, 0, 0]
  | some bs => if crc32c bs = crc then f s bs else respond s r op 9 (beBytes 4 (crc32c bs).toNat)

/-! ## Lath commands, R347, R359 and R547 -/

def lathArgs (op pool quad : Nat) (handle name : BitVec 32) : List Byte :=
  [BitVec.ofNat 8 op, BitVec.ofNat 8 pool, BitVec.ofNat 8 quad, 0] ++ beBytes 4 handle.toNat ++ beBytes 4 name.toNat

/-- A Lath command of the host by its mailbox, or of Hawk by the command registers; the host's is served under the owners that R347 and R547 allow it. -/
def lathFrom (s : State) (src : LathSrc) (n : CmdNeeds) (args : List Byte) (argBad : Bool) (op : LathOp) (hawk : Nat → State → State) (hostOwner : MboxRec → Option Owner) : State :=
  match src with
  | .hawk cls => hawk cls.toNat s
  | .host r => mboxCmd s r n args fun s =>
      if argBad ∧ r.hcs = 2 then badArg s r n.op 1
      else match hostOwner r with
        | some o => lathCommand s true op o (some r)
        | none => lathCommand s true .bad ⟨2, 0⟩ (some r)

def lathNeeds (operate : Bool) : CmdNeeds := needs 0x0040 operate true [rdyLth]

/-- The owner that FREE_OWNER of the host names, R547: its own session by that session's number, or else a region of class 0. The record carries no class; GRANT, FREE and QUERY of the host are for its own session. -/
def freeOwnerOf (name : BitVec 32) (r : MboxRec) : Owner := if name = r.session.setWidth 32 then sessionOwner r.session else ⟨0, name⟩

/-- GRANT; POOL 0 is a bad argument in HCS 2. -/
def execGrant (src : LathSrc) (owner : BitVec 32) (pool : BitVec 3) (quad : Fin 4) (s : State) : Host.Outcome State Fault Refusal :=
  act s (lathFrom s src (lathNeeds true) (lathArgs 1 pool.toNat quad.val 0 owner) (decide (pool = 0)) (.grant pool.toNat quad.val) (fun c s => lathByHawk s 1 c pool.toNat quad.val none (some owner) none) (fun r => some (sessionOwner r.session)))
/-- FREE. -/
def execFree (src : LathSrc) (owner : BitVec 32) (handle : BitVec 32) (s : State) : Host.Outcome State Fault Refusal :=
  act s (lathFrom s src (lathNeeds true) (lathArgs 2 0 0 handle owner) false (.free handle) (fun c s => lathByHawk s 2 c 0 0 (some handle) (some owner) none) (fun r => some (sessionOwner r.session)))
/-- FREE_OWNER: the host's own session, or a region of class 0. -/
def execFreeOwner (src : LathSrc) (owner : BitVec 32) (s : State) : Host.Outcome State Fault Refusal :=
  act s (lathFrom s src (lathNeeds true) (lathArgs 3 0 0 0 owner) false .freeOwner (fun c s => lathByHawk s 3 c 0 0 none (some owner) none) (fun r => some (freeOwnerOf owner r)))
/-- HANDOVER: Hawk only. -/
def execHandover (src : LathSrc) (owner : BitVec 32) (newCls : BitVec 2) (newOwner : BitVec 32) (s : State) : Host.Outcome State Fault Refusal :=
  act s (lathFrom s src (lathNeeds true) (lathArgs 4 0 0 newOwner owner) false (.handover ⟨newCls, newOwner⟩) (fun c s => lathByHawk s 4 c 0 0 (some newOwner) (some owner) (some (newCls.setWidth 32 <<< 30))) (fun _ => none))
/-- PROXY_FREE: Hawk only. -/
def execProxyFree (src : LathSrc) (owner : BitVec 32) (s : State) : Host.Outcome State Fault Refusal :=
  act s (lathFrom s src (lathNeeds true) (lathArgs 5 0 0 0 owner) false .proxyFree (fun c s => lathByHawk s 5 c 0 0 none (some owner) none) (fun _ => none))
/-- QUERY. -/
def execQuery (src : LathSrc) (handle : BitVec 32) (s : State) : Host.Outcome State Fault Refusal :=
  act s (lathFrom s src (lathNeeds false) (lathArgs 6 0 0 handle 0) false (.query handle) (fun c s => lathByHawk s 6 c 0 0 (some handle) none none) (fun r => some (sessionOwner r.session)))

def execFenceConfirm (u : FenceUser) (epoch : BitVec 16) (s : State) : Host.Outcome State Fault Refusal := act s (fenceConfirm s u epoch)
def execFenceStuck (s : State) : Host.Outcome State Fault Refusal := act s (fenceStuck s)
def execLegFramesWrite (p : Fin 4) (value : BitVec 32) (s : State) : Host.Outcome State Fault Refusal := act s (legFramesWrite s (p.val + 1) value)

/-- LTH CLR_COUNTS, R357. -/
def lthClrCounts (s : State) : State := { s with lth := { s.lth with doubleFree := 0, notOwner := 0, fallback := 0, reclaim := 0 } }
def execLthClrCounts (s : State) : Host.Outcome State Fault Refusal := act s (lthClrCounts s)

end Sys2Proof.Machine
end

