-- ==== Sys2Proof/Machine/Stencil.lean ====
section
/-! DEFINITION. Stencil, chapter 05: the readiness of a plan's units, launch, step starts, slots, deadlines, seams, plan ends, and the commands of STN_CTRL. -/

namespace Sys2Proof.Machine

/-! ## Units that a plan names, R636 -/

/-- Every stroke word of a plan. -/
def Plan.words (p : Plan) : List (BitVec 128) := p.bodies.flatMap fun b => b.strokes.flatMap (·.2)

/-- Quadrants that hold a piece of region r. -/
def regionQuads (r : Nat) (g : Region) : List Nat :=
  let size := pieceSize g.pool
  let pieces := ceilDiv (g.tiles * 4096) size
  let frames := ceilDiv (pieces * size) (max size 65536)
  (List.range (min frames 4)).map fun i => (r + i) % 4

/-- Far bonds that a plan budgets under some kinds. -/
def Plan.budgetBonds (p : Plan) (kinds : List Byte) : List Nat :=
  (p.budgets.filter fun b => kinds.contains b.kind && decide (b.index < 16)).map (·.index)

/-- Output queues that a plan's Skim channels and SEND strokes name. -/
def Plan.namedQueues (p : Plan) : List Nat :=
  ((List.range 256).filterMap fun c => let x := chanOf p.skim c; if x.valid then some x.destQ else none)
    ++ p.words.filterMap fun w => if wOp w = opSend ∧ 0x200 ≤ wSb w ∧ wSb w < 0x300 then some (wSb w - 0x200) else none

/-- Output queues that a SEND of the plan names, or that it budgets. -/
def Plan.nearQueues (p : Plan) : List Nat :=
  (p.words.filterMap fun w => if wOp w = opSend ∧ 0x200 ≤ wSb w ∧ wSb w < 0x300 then some (wSb w - 0x200) else none)
    ++ (p.budgets.filter fun b => decide (b.kind = 2) && decide (b.index < 256)).map (·.index)

/-- Bonds that a plan uses: budgeted, or bound by a queue that it names. -/
def planBonds (s : State) (p : Plan) : List Nat :=
  p.budgetBonds [0x04, 0x05, 0x07]
    ++ p.namedQueues.filterMap fun q => let x := s.queue q; if x.bind = 1 then some x.bond else none

/-- The first unit of a plan that is not ready: (register offset of its TOP_READY register, bit). -/
def planNotReady (s : State) (p : Plan) : Option (Nat × Nat) :=
  let eng := (List.range 64).filter fun e => p.engines.getLsbD e && !s.top.trw.getLsbD e
  let quads := ((List.range p.regions.length).zip p.regions).flatMap (fun r => regionQuads r.1 r.2) ++ (p.budgetBonds [0x04, 0x05]).map (bondQuad s)
  let stackTab := (List.range 32).filter fun k => quads.contains (k / 8) && !s.top.hbm.getLsbD k
  let bonds := planBonds s p
  let dark := bonds.any fun b => !(s.bond b).en
  let ports := (List.range 16).filter fun i => (bonds.any fun b => (s.bond b).ports.getLsbD i) && !s.top.far.getLsbD i
  let near := p.nearQueues.filterMap fun q => let x := s.queue q; if x.bind = 2 ∧ !s.top.near.getLsbD x.neng then some x.neng else none
  match eng, stackTab, dark, ports, near with
  | e :: _, _, _, _, _ => some (0x20 + 4 * (e / 32), e % 32)
  | _, k :: _, _, _, _ => some (0x28, k)
  | _, _, true, _, _ => some (0x2C, 0)
  | _, _, _, i :: _, _ => some (0x2C, i)
  | _, _, _, _, n :: _ => some (0x30, n)
  | _, _, _, _, _ => none

/-- Whether a plan may launch now, R184: its units are ready, a SHADOW has its LEAD, and the throttle is below level 2, R271 and R611. -/
def launchReady (s : State) (p : Plan) : Bool :=
  (planNotReady s p).isNone && !(decide (s.se.role = 2) && decide (s.se.link ≠ 2)) && decide (s.pwr.level.toNat < 2)

/-! ## Patches, R171 -/

/-- Patched words of a step: (engine, stroke, word). -/
def patchesFor (p : Plan) (step : BitVec 32) : List (Nat × Nat × BitVec 32) :=
  let k := (step - p.step0).toNat * p.w
  (p.body (p.bodyOf step)).patches.map fun x => (x.engine, x.stroke, p.params.getD (k + x.word) 0)

/-! ## Launch, R181 to R184 -/

/-- A launch that does not run: HALTED with its cause and STN_ERR bit. -/
def launchFails (s : State) (cause : BitVec 4) (bit : Nat) : State :=
  let s := { s with stn := { s.stn with err := setErr s.stn.err bit } }
  toHalted s cause s.stn.launchStep

/-- The instances that a spare which has taken rank 0 finds undecided: those that it holds, and those of earlier steps that a free value names. -/
def lostInsts (s : State) : List (Nat × BitVec 32) :=
  let earlier := fun n : BitVec 32 => decide (1 ≤ (s.stn.launchStep - n).toNat) && decide ((s.stn.launchStep - n).toNat < 2 ^ 31)
  let held := (s.clc.insts.filter fun i => i.decision.isNone && !i.recorded && earlier i.step).map fun i => (i.coll, i.step)
  held ++ (Config.undecidedAt s.fresh).filter fun q => (curDesc s q.1).isSome && earlier q.2 && !held.contains q

/-- A spare that has taken rank 0 decides as ABORT, at its launch, what is still undecided of the steps before, R245. -/
def decideLost (s : State) : State :=
  if isRoot s ∧ s.clc.spareNew then
    (lostInsts s).foldl (fun s q => clcOut (decideInst s (getInst s q.1 q.2) { abort := true, code := ceMemberLost, subj := some 0, nf := none, repro := false })) { s with fresh := s.fresh + 1 }
  else s

/-- The first of two steps of CURRENT comes before the second. -/
def beforeStep (s : State) (n step : BitVec 32) : Bool :=
  let z := match s.stn.cur with | some p => p.step0 | none => 0
  decide ((n - z).toNat < (step - z).toNat)

/-- What an instance keeps of the launch that is left: whether its SITE_JOINs had matched, and whether a JOIN named a break. -/
def keepLaunch (s : State) (i : Inst) : Inst :=
  { i with joined := i.joined || (match curDesc s i.coll with | some c => joinsMatched s c i.coll | none => false), broke := i.broke || s.clc.breaks.contains i.coll }

/-- A relaunch joins again, R218, and runs again the instances from its step on: what CLC holds of them is dropped, but for a decision whose RING has not returned, R223; the instances of earlier steps stay as they are, decided or not. -/
def forgetFrom (s : State) (step : BitVec 32) : State :=
  let before := fun n : BitVec 32 => beforeStep s n step
  let c := s.clc
  { s with clc := { c with insts := (c.insts.filter fun i => before i.step).map (keepLaunch s), rings := c.rings ++ c.insts.filter (fun i => !before i.step && i.decision.isSome && isRoot s && !i.ringBack), joins := [], siteJoins := [], siteJoinSent := [], breaks := [], seen := c.seen.filter (fun e => before e.2.2.2), lates := c.lates.filter (fun p => before p.1), grants := c.grants.filter (fun p => before p.1), exts := c.exts.filter (fun p => before p.1), applied := c.applied.filter (fun p => before p.1), nfs := c.nfs.filter (fun p => before p.1), lateStep := none, words := [] } }

/-- CATCHUP_REDELIVER, R236: units of undecided instances that an SKDEC of the halted step consumed go ahead of the units still queued, in unit order. In a spare the units copied from its twin count as consumed, and those of the launch step and of every later one are delivered. -/
def redeliver (s : State) : State :=
  match s.stn.cur with
  | none => s
  | some p =>
    let later := fun u : CatchUnit => match p.descs[u.coll]? with
      | some d => (u.step + BitVec.ofNat 32 d.d - s.stn.launchStep).toNat
      | none => 2 ^ 31
    let again := fun u : CatchUnit => u.consumed && (decide (later u = 0) || (s.clc.spareNew && decide (later u < 2 ^ 31)))
    let key := fun u : CatchUnit => later u * 2 ^ 32 + (unitHdr u.bytes).unit
    let us := s.clc.catchup.filter again
    let sorted := us.foldl (fun acc u =>
      (acc.filter fun v => key v ≤ key u) ++ [u] ++ acc.filter fun v => key u < key v) []
    let s := sorted.reverse.foldl (fun s u => match steerOf s.skm.tables u.source (unitHdr u.bytes).chan with
      | some n => setSubQ s n (u.bytes :: s.subQ n)
      | none => s) s
    { s with clc := { s.clc with catchup := s.clc.catchup.map fun u => if again u then { u with consumed := false } else u } }

/-- Moves every ARMED engine of a plan to RUNNING, R184. -/
def runEngines (s : State) (p : Plan) : State :=
  (List.range 64).foldl (fun s e =>
    if p.engines.getLsbD e ∧ (s.eng e).st = .armed then setEngSt s e .running else s) s

/-- LAUNCH: the launch trigger fires, R182 and R184. -/
def launch (s : State) : State :=
  match s.stn.cur with
  | none => s
  | some p =>
    if s.stn.place ≠ .armed || !due s.count s.stn.launchAt then s
    else
      let s := s.setTrig 0 { s.trig 0 with en := false }
      if 1000 < signedDiff s.count s.stn.launchAt then launchFails s 4 1
      else if !launchReady s p then launchFails s 5 0
      else
        let s := redeliver (decideLost s)
        let s := runEngines { s with clc := { s.clc with spareNew := false } } p
        let s := { s with stn := { s.stn with place := .running, haltCause := 0, launching := true, joined := [], haltReq := false, patched := patchesFor p s.stn.launchStep } }
        armTrig s 1 s.stn.launchAt

def execLaunch (s : State) : Host.Outcome State Fault Refusal := act s (launch s)

/-! ## Step starts, R161 and R162 -/

/-- Start time of the step that begins next. -/
def nextStart (s : State) (p : Plan) : PCount :=
  if s.stn.launching then s.stn.launchAt else s.stn.stepStart + BitVec.ofNat 48 (p.stepNs + s.stn.ext.toNat)

/-- Plb.run at the tick of a count that has passed. -/
def runAt (s : State) (t : PCount) : Nat := s.plb.run - (max 0 (signedDiff s.count t)).toNat * 65536

/-- JOIN of this member for the collectives that run for the first time in this launch, R218. A spare that has not been rebuilt sends none, R241. -/
def sendJoins (s : State) (p : Plan) : State :=
  if s.clc.rebuild = 1 ∨ s.clc.rebuild = 3 ∨ s.se.role = 2 then s
  else
    let cs := (bodyColls p s.stn.body).filter fun c => !s.stn.joined.contains c
    let s := { s with stn := { s.stn with joined := s.stn.joined ++ cs } }
    cs.foldl (fun s c =>
      let m := withFlag (withFlag (baseMsg s tyJoin c s.stn.step) 0 (decide (s.clc.rebuild = 2))) 1 p.isBreak
      clcOut (s, [(siteHead (myRank s), sealMsg m)])) s

/-- The instances whose step begins are tracked, R227. -/
def trackInsts (s : State) (p : Plan) : State :=
  (bodyColls p s.stn.body).foldl (fun s c => putInst s { getInst s c s.stn.step with tracked := true }) s

/-- The oldest undecided instance of a collective that this member tracks. -/
def oldestUndecided (s : State) (p : Plan) (c : Nat) : Option Inst :=
  (s.clc.insts.filter fun i => decide (i.coll = c) && i.tracked && !i.recorded).foldl (fun b i => match b with
    | none => some i
    | some j => if (i.step - p.step0).toNat < (j.step - p.step0).toNat then some i else some j) none

/-- Collectives that already have 16 undecided instances, R227. -/
def fullColls (s : State) (p : Plan) : List Nat := (List.range p.descs.length).filter fun c => decide (16 ≤ undecided s c)

/-- The requests of R227: CE_TIMEOUT for the oldest undecided instance of each of these collectives. -/
def raiseFull (s : State) (p : Plan) (cs : List Nat) : State :=
  cs.foldl (fun s c => match oldestUndecided s p c with
    | some i => clcOut (s, abortReq s c i.step ceTimeout (some ((curRank s).setWidth 16)) none)
    | none => s) s

/-- STEP_START, R161 and R162: also the launch trigger of a plan that launches at a seam, R183 and R184. -/
def stepStart (s : State) : State :=
  match s.stn.cur with
  | none => s
  | some p =>
    let start := nextStart s p
    if s.stn.place ≠ .running || s.stn.stepRunning || !(s.stn.launching || s.stn.inSeam) || !due s.count start then s
    else if s.stn.launching && p.seamLaunch && decide (s.stn.launchStep = p.step0) && !launchReady s p then launchFails s 5 0
    else if s.stn.launching && !(fullColls s p).isEmpty then haltNow (raiseFull s p (fullColls s p)) 1
    else
      let n := if s.stn.launching then s.stn.launchStep else s.stn.step + 1
      let s := (List.range 64).foldl (fun s e =>
        if p.engines.getLsbD e then s.setEng e { s.eng e with issued := 0, gate := 0, toIssue := [] } else s) s
      let s := if s.stn.launching then runEngines s p else s
      let s := { s with stn := { s.stn with step := n, begunTo := (if stepBegun s p n then s.stn.begunTo else some n), stepStart := start, startedAt := runAt s start, ext := 0, body := p.bodyOf n, stepRunning := true, inSeam := false, launching := false, deadlineDone := false, slotsStarted := 0, lateSlots := [], closed := [], resFailed := false }, skm := { s.skm with resNext := [] } }
      let s := setSlowed s false
      let s := trackInsts s p
      let s := sendJoins s p
      let s := s.setTrig 1 { s.trig 1 with en := false }
      armTrig s 2 (start + BitVec.ofNat 48 p.deadlineNs)

def execStepStart (s : State) : Host.Outcome State Fault Refusal := act s (stepStart s)

/-- START of a slot. -/
def slotStartsAt (b : Body) (k : Nat) : Nat := match b.slots[k]? with | some p => p.start | none => 0

/-- SLOT_START: the next slot of the body starts once START core cycles of the step have passed, and its strokes may issue, R162. -/
def slotStart (s : State) (k : Nat) : State :=
  let b := curBody s
  if s.stn.stepRunning ∧ k = s.stn.slotsStarted ∧ k < b.slots.length ∧ slotStartsAt b k ≤ stepCycles s then
    let s := { s with stn := { s.stn with slotsStarted := k + 1 } }
    let s := (List.range 64).foldl (fun s e =>
      if b.engines.getLsbD e then s.setEng e { s.eng e with gate := b.gateFor e (k + 1) } else s) s
    pump s
  else s

def execSlotStart (k : Fin 4096) (s : State) : Host.Outcome State Fault Refusal := act s (slotStart s k.val)

/-! ## Deadlines, R164 -/

/-- Received units of the step that a collective's receivers add in the running step, R235. -/
def staleUnits (s : State) (c : Nat) (d : Desc) : Nat :=
  (s.clc.catchup.filter fun u => decide (u.coll = c) && u.received && decide (u.step = s.stn.step - BitVec.ofNat 32 d.d)).length

/-- Code of the abort request that a missed deadline raises for a collective: R136, R232 and R235. -/
def lateCode (s : State) (c : Nat) (d : Desc) : Byte :=
  let z := match s.stn.cur with | some p => p.step0 | none => 0
  if d.topLevel = 7 ∧ d.d ≤ (s.stn.step - z).toNat ∧ staleUnits s c d < d.fedUnits * (d.m7 - 1) then ceStaleLimit
  else if s.stn.resFailed then ceIntegrity else ceTimeout

/-- The abort requests of a missed deadline, one for each collective of the step. -/
def raiseLate (s : State) (p : Plan) : State :=
  (bodyColls p s.stn.body).foldl (fun s c => match p.descs[c]? with
    | some d => clcOut (s, abortReq s c (instOfStep p d s.stn.step) (lateCode s c d) (some ((curRank s).setWidth 16)) none)
    | none => s) s

/-- STEP_DEADLINE: the step is judged, R164, R193 and R232. -/
def stepDeadline (s : State) : State :=
  match s.stn.cur with
  | none => s
  | some p =>
    let t := s.stn.stepStart + BitVec.ofNat 48 (p.deadlineNs + s.stn.ext.toNat)
    if s.stn.place ≠ .running || !(s.stn.stepRunning || s.stn.inSeam) || s.stn.deadlineDone || !due s.count t then s
    else
      let s := s.setTrig 2 { s.trig 2 with en := false }
      let s := { s with stn := { s.stn with deadlineDone := true } }
      if s.stn.inSeam || stepComplete s then s
      else
        let s := { s with stn := { s.stn with stepLate := bump s.stn.stepLate 1, err := setErr s.stn.err 3 } }
        haltNow (raiseLate s p) 1

def execStepDeadline (s : State) : Host.Outcome State Fault Refusal := act s (stepDeadline s)

/-! ## Seams, R190 to R192 -/

/-- The engines of a plan hand their non-finite records to CLC and clear them, R114. -/
def nfHandOff (s : State) (p : Plan) : State :=
  (List.range 64).foldl (fun s e =>
    if p.engines.getLsbD e then
      let x := s.eng e
      let s := match x.nf with
        | some (stroke, pos) => { s with clc := { s.clc with nfs := s.clc.nfs ++ [(s.stn.step, stroke, pos)] } }
        | none => s
      s.setEng e { x with nf := none, nfStroke := 0 }
    else s) s

/-- Whether a position lies in a collective's index range, R207. -/
def Desc.covers (d : Desc) (pos : BitVec 48) : Bool := decide (d.idxBase ≤ pos.toNat) && decide (pos.toNat < d.idxBase + d.count)

/-- Whether a position is one of a collective's padding elements: from element COUNT to the end of the last chunk, R210. -/
def Desc.pads (d : Desc) (pos : BitVec 48) : Bool :=
  decide (d.idxBase + d.count ≤ pos.toNat) && decide (pos.toNat < d.idxBase + ceilDiv d.count d.chunk * d.chunk)

/-- Lowest position that the READY of instance (c, n) carries, R222; a padding element counts in none, R210. -/
def readyNf (s : State) (p : Plan) (d : Desc) (n : BitVec 32) : Option (BitVec 48) :=
  let z := p.step0
  let within := fun m : BitVec 32 => decide ((n - z).toNat ≤ (m - z).toNat) && decide ((m - z).toNat ≤ (n - z).toNat + d.d)
  let stray := fun v : BitVec 48 => !p.descs.any fun x => x.covers v || x.pads v
  let mine := (s.clc.nfs.filter fun q => (within q.1 && d.covers q.2.2) || (decide (q.1 = s.stn.step) && stray q.2.2)).map (·.2.2)
  mine.foldl (fun b v => match b with | none => some v | some u => if v.toNat < u.toNat then some v else some u) none

/-- READY, or CE_NONFINITE in its place, for every instance whose step n + D has completed, R222 and R237. -/
def sendReadies (s : State) (p : Plan) : State :=
  if s.se.role = 2 then s
  else
    (List.range p.descs.length).foldl (fun s c => match p.descs[c]? with
      | none => s
      | some d =>
        if (s.stn.step - p.step0).toNat < d.d then s
        else
          let n := s.stn.step - BitVec.ofNat 32 d.d
          if !Nat.testBit d.bodies (p.bodyOf n) then s
          else
            let nf := readyNf s p d n
            if p.nfAbort ∧ nf.isSome then clcOut (s, abortReq s c n ceNonfinite (some ((curRank s).setWidth 16)) nf)
            else
              let m := withFlag (withNf { baseMsg s tyReady c n with value := s.stn.ext } nf) 1 p.isBreak
              clcOut (s, [(siteHead (myRank s), sealMsg m)])) s

/-- PERSIST regions of a plan that ends stay held unless the next plan inherits them, R192 and R196. -/
def keepRegions (s : State) (p : Plan) (next : Option Plan) : State :=
  let taken := fun n : BitVec 32 => match next with
    | some q => q.regions.any fun r => r.inherit && decide (r.name = n)
    | none => false
  ((List.range p.regions.length).zip p.regions).foldl (fun s r =>
    if r.2.persist && !taken r.2.name then { s with stn := { s.stn with held := s.stn.held ++ [⟨r.2.name, r.2.tiles, r.2.pool, r.1, r.2.bufs, r.2.images⟩] } } else s) s

/-- The other regions of a plan that ends return to Lath. -/
def freeRegions (s : State) (p : Plan) : State :=
  (p.regions.filter fun g => !g.persist).foldl (fun s g => releaseOwner s (regionOwner g.name) none) s

/-- Regions of a plan that ends, R192. -/
def passRegions (s : State) (p : Plan) (next : Option Plan) : State := freeRegions (keepRegions s p next) p

/-- The regions that a plan inherits are no longer regions that the device holds for itself. -/
def claimHeld (s : State) (p : Plan) : State :=
  { s with stn := { s.stn with held := s.stn.held.filter fun h => !p.regions.any fun r => r.inherit && decide (r.name = h.name) } }

/-- What CLC keeps of a plan ends with it. -/
def clcReset (c : Clc) : Clc :=
  { c with insts := [], joins := [], siteJoinSent := [], siteJoins := [], seen := [], lates := [], grants := [], exts := [], applied := [], nfs := [], catchup := [], lateStep := none, breaks := [], rings := [], spareNew := false, rebuild := 0, words := [], lostPeers := [], copied := false }

/-- IDXB of every engine that a plan uses becomes 0, R96; so do the non-finite records, which are of the current step, R114. -/
def readyEngines (s : State) (p : Plan) : State :=
  (List.range 64).foldl (fun s e => if p.engines.getLsbD e then s.setEng e { s.eng e with idxb := 0, nf := none, nfStroke := 0 } else s) s

/-- CURRENT becomes NONE, and its engines return to IDLE. -/
def leavePlan (s : State) (p : Plan) : State :=
  let s := (List.range 64).foldl (fun s e =>
    if p.engines.getLsbD e && (decide ((s.eng e).st = .armed) || decide ((s.eng e).st = .running)) then setEngSt (cancelEngine s e) e .idle else s) s
  let s := { s with stn := { s.stn with cur := none, place := .none, haltCause := 0, inSeam := false, stepRunning := false, launching := false, haltReq := false, begunTo := none, patched := [] }, skm := { s.skm with tables := [] }, clc := clcReset s.clc }
  trimAreas (s.setTrig 0 { s.trig 0 with en := false })

/-- CURRENT ends with no plan to follow. -/
def endToNone (s : State) (p : Plan) : State := leavePlan (passRegions s p none) p

/-- NEXT becomes CURRENT in the seam of CURRENT's last step, R192 and R637. Engines that CURRENT used stay RUNNING, and the others of NEXT wait ARMED for its launch trigger, R184. -/
def endToNext (s : State) (p q : Plan) : State :=
  let at_ := nextStart s p
  let s := passRegions s p (some q)
  let s := (List.range 64).foldl (fun s e =>
    if q.engines.getLsbD e then
      (if (s.eng e).st = .idle then setEngSt s e .armed else s)
    else if p.engines.getLsbD e && decide ((s.eng e).st = .running) then setEngSt s e .idle else s) s
  let early := s.clc.early
  let s := { s with stn := { s.stn with cur := some q, next := none, launching := true, launchAt := at_, launchStep := q.step0, joined := [], begunTo := none, patched := patchesFor q q.step0 }, skm := { s.skm with tables := s.skm.nextTables, nextTables := [] }, clc := { clcReset s.clc with early := [] } }
  let s := trimAreas (claimHeld s q)
  let s := seForget (fun n => decide ((n - q.step0).toNat < q.steps)) s
  early.foldl clcTake (armTrig (readyEngines s q) 1 at_)

/-- Whether a halt takes effect at this seam: HALT_AT_SEAM, or the level 2 halt of the throttle, R191 and R611. -/
def seamHalts (s : State) : Bool := s.stn.haltReq || decide (2 ≤ s.pwr.level.toNat)

/-- The seam goes on to the next step: the limit of R227, then the patches and the start trigger. -/
def seamGoesOn (s : State) (p : Plan) : State :=
  let n := s.stn.step + 1
  match fullColls s p with
  | [] => armTrig (readyEngines { s with stn := { s.stn with patched := patchesFor p n } } p) 1 (nextStart s p)
  | cs => haltNow (raiseFull s p cs) 1

/-- What CLC, Straightedge, the throttle and Stencil do in the seam, in the order of R190's timeline. -/
def seamActions (s : State) (p : Plan) : State :=
  let s := nfHandOff s p
  let s := { s with clc := { s.clc with applied := setStepVal s.clc.applied s.stn.step s.stn.ext, words := s.clc.words.filter fun w => decide ((s.stn.step - p.step0).toNat < (w.step - p.step0).toNat) } }
  let s := sendReadies s p
  if s.stn.place ≠ .running then s
  else
    let s := seamLevel (seSeam s)
    let last := decide ((s.stn.step - p.step0).toNat + 1 = p.steps)
    if last then
      match s.stn.next with
      | none => endToNone s p
      | some q =>
        let halts := seamHalts s
        let s := endToNext s p q
        if halts then toHalted s 3 q.step0 else s
    else if seamHalts s then toHalted s 3 (s.stn.step + 1)
    else seamGoesOn s p

/-- STEP_SEAM: the running step has completed, R164, and its seam begins. -/
def stepSeam (s : State) : State :=
  match s.stn.cur with
  | none => s
  | some p =>
    if s.stn.place = .running ∧ stepComplete s then
      seamActions { s with stn := { s.stn with stepRunning := false, inSeam := true } } p
    else s

def execStepSeam (s : State) : Host.Outcome State Fault Refusal := act s (stepSeam s)

/-! ## STN_CTRL, R198 -/

/-- HALT_AT_SEAM. -/
def haltAtSeam (s : State) : State := if s.stn.place = .running then { s with stn := { s.stn with haltReq := true } } else s
def execHaltAtSeam (s : State) : Host.Outcome State Fault Refusal := act s (haltAtSeam s)

/-- DISCARD_NEXT; R193's flag is for a NEXT dropped by a halt. -/
def discardNext (s : State) : State := dropNext s false
def execDiscardNext (s : State) : Host.Outcome State Fault Refusal := act s (discardNext s)

def stnClrCounts (s : State) : State := { s with stn := { s.stn with slotLate := 0, stepLate := 0 } }
def execStnClrCounts (s : State) : Host.Outcome State Fault Refusal := act s (stnClrCounts s)

/-- A write of STN_CTRL. -/
def stnCtrlWrite (s : State) (v : BitVec 32) : State :=
  let s := if v.getLsbD 0 then haltAtSeam s else s
  let s := if v.getLsbD 1 then discardNext s else s
  if v.getLsbD 2 then stnClrCounts s else s

end Sys2Proof.Machine
end

