-- ==== Sys2Proof/Machine/PlanImage.lean ====
section
/-! DEFINITION. The plan image, R166 to R175 and R206: reading it, and check 2 of R176 on its form. -/

namespace Sys2Proof.Machine

/-! ## Places of a failure, R200 -/

/-- A value of STN_ADMIT_WHERE: its bits, and those of its bits that the manual leaves open for the failure. -/
structure Spot where
  word : BitVec 32
  free : BitVec 32
deriving DecidableEq, Repr

/-- STN_ADMIT_WHERE: SECTION, BODY, ENGINE and INDEX. -/
def placeWord (sec body eng idx : Nat) : BitVec 32 :=
  BitVec.ofNat 32 (sec % 16 * 2 ^ 28 + body % 8 * 2 ^ 25 + eng % 64 * 2 ^ 18 + idx % 65536)

/-- The place of an entry or a stroke. -/
def placeOf (sec body eng idx : Nat) : Spot := ⟨placeWord sec body eng idx, 0⟩

/-- A place that is no entry of a section: its INDEX is open. In the header and the signature no entries are numbered. -/
def placeIn (sec body eng : Nat) : Spot := ⟨placeWord sec body eng 0, 0xFFFF⟩

/-- A failure that is not one of a place in the image: every field is open. -/
def placeOpen : Spot := ⟨0, 0xFEFCFFFF⟩

/-- A test that must not hold, and the place that it speaks of. -/
abbrev Check := Bool × Spot

/-- The place of the first test that holds. -/
def firstBad (l : List Check) : Option Spot := (l.find? fun c => c.1).map (·.2)

/-! ## Header and sections, R166 and R167 -/

def imgLen (bs : List Byte) : Nat := leAt bs 8 4
def imgFlags (bs : List Byte) : Nat := leAt bs 6 2
def secOff (bs : List Byte) (i : Nat) : Nat := leAt bs (128 + 8 * i) 4
def secLen (bs : List Byte) (i : Nat) : Nat := leAt bs (132 + 8 * i) 4
def secBytes (bs : List Byte) (i : Nat) : List Byte := slice bs (secOff bs i) (secLen bs i)
def allZero (bs : List Byte) : Bool := bs.all fun b => decide (b = 0)
def imgSteps (bs : List Byte) : Nat := leAt bs 52 4
def imgBodies (bs : List Byte) : Nat := leAt bs 76 2
def imgSched (bs : List Byte) : Nat := leAt bs 78 2
def imgW (bs : List Byte) : Nat := leAt bs 80 4
def imgStep0 (bs : List Byte) : BitVec 32 := BitVec.ofNat 32 (leAt bs 48 4)
/-- SEAM_LAUNCH. -/
def imgSeam (bs : List Byte) : Bool := (imgFlags bs).testBit 2

/-- Fields of the header that are outside their ranges, and reserved fields that are not 0. -/
def headerChecks (bs : List Byte) (len : Nat) : List Check :=
  let at_ := placeIn 0xF 0 0
  [ (decide (len < 256), at_),
    (decide (slice bs 0 4 ≠ [0x53, 0x54, 0x4E, 0x50]), at_),
    (decide (leAt bs 4 2 ≠ 2 ∧ leAt bs 4 2 ≠ 3), at_),
    (decide (16 ≤ imgFlags bs), at_),
    (decide (imgLen bs % 64 ≠ 0 ∨ imgLen bs < 256 ∨ 67108864 < imgLen bs ∨ imgLen bs + 512 ≠ len), at_),
    (!allZero (slice bs 15 1) || decide (32768 ≤ leAt bs 20 2) || !allZero (slice bs 22 2), at_),
    (decide (imgSteps bs = 0), at_),
    (!allZero (slice bs 62 2) || (imgSeam bs && !allZero (slice bs 56 8)), at_),
    (decide (imgBodies bs = 0 ∨ 8 < imgBodies bs ∨ imgSched bs = 0 ∨ 16 < imgSched bs ∨ 256 < imgW bs), at_),
    (!allZero (slice bs 84 44) || !allZero (slice bs 224 32), at_) ]

/-- The layout of the sections: offsets, bounds, overlap, the absent section 11, and the lengths that the header fixes. -/
def layoutChecks (bs : List Byte) : List Check :=
  let ix := List.range 12
  let here := fun i => decide (0 < secLen bs i)
  let out := ix.map fun i => (here i && (decide (secOff bs i % 64 ≠ 0) || decide (secOff bs i < 256) || decide (imgLen bs < secOff bs i + secLen bs i)), placeIn 0xF 0 0)
  let excess := ix.flatMap fun i => (List.range i).map fun j => (here i && here j && decide (secOff bs i < secOff bs j + secLen bs j) && decide (secOff bs j < secOff bs i + secLen bs i), placeIn 0xF 0 0)
  let size := fun i n => (decide (secLen bs i % n ≠ 0), placeOf i 0 0 (secLen bs i / n))
  out ++ excess ++ [ (here 11, placeIn 0xF 0 0),
    (decide (secLen bs 0 ≠ 160 * imgBodies bs), placeIn 0 0 0), size 1 32, size 2 2, size 3 16,
    (decide (secLen bs 4 ≠ 8 * imgSched bs), placeIn 4 0 0), size 5 8,
    (decide (secLen bs 6 ≠ 4 * imgSteps bs * imgW bs), placeIn 6 0 0),
    size 7 16, (decide (4096 < secLen bs 7), placeOf 7 0 0 256), size 8 8, size 9 8, size 10 64, (decide (4096 < secLen bs 10), placeOf 10 0 0 64) ]

/-! ## Bodies, slots and strokes, R163, R168 and R169 -/

def bodyEntry (bs : List Byte) (b : Nat) : List Byte := slice (secBytes bs 0) (160 * b) 160

/-- Slot k of a body. -/
def slotEntry (bs : List Byte) (body : List Byte) (k : Nat) : List Byte := slice (secBytes bs 1) (leAt body 4 4 + 32 * k) 32

/-- Engines of a mask in increasing order. -/
def maskEngines (m : BitVec 64) : List Nat := (List.range 64).filter fun e => m.getLsbD e

def parseSlot (bs : List Byte) (e : List Byte) : PSlot :=
  let mask := BitVec.ofNat 64 (leAt e 8 8)
  let es := maskEngines mask
  let firsts := (List.range es.length).zip es |>.foldl (fun t p => Tab.put 0 t p.2 (leAt (secBytes bs 2) (leAt e 16 4 + 2 * p.1) 2)) []
  ⟨leAt e 0 4, leAt e 4 4, mask, firsts, leAt e 16 4 / 2⟩

def parseSlots (bs body : List Byte) : List PSlot := (List.range (leAt body 0 2)).map fun k => parseSlot bs (slotEntry bs body k)

/-- COUNT[e]: 0 stands for 32,768 when the engine appears in some slot mask. -/
def strokeCount (body : List Byte) (used : BitVec 64) (e : Nat) : Nat :=
  let c := leAt body (32 + 2 * e) 2
  if c = 0 ∧ used.getLsbD e then 32768 else c

/-- Each engine's list, one after another from STROKE_OFF: from engine e on, at an offset. -/
def parseStrokes (bs body : List Byte) (used : BitVec 64) : (n e off : Nat) → List (Nat × List (BitVec 128))
  | 0, _, _ => []
  | n + 1, e, off =>
    let c := strokeCount body used e
    let rest := parseStrokes bs body used n (e + 1) (off + 16 * c)
    if c = 0 then rest
    else (e, (List.range c).map fun i => BitVec.ofNat 128 (leAt (secBytes bs 3) (off + 16 * i) 16)) :: rest

def parsePatches (bs body : List Byte) : List Patch :=
  (List.range (leAt body 16 4)).map fun k =>
    let p := slice (secBytes bs 5) (leAt body 12 4 + 8 * k) 8
    ⟨leAt p 0 1, leAt p 2 2, leAt p 4 2⟩

def parseBody (bs : List Byte) (b : Nat) : Body :=
  let e := bodyEntry bs b
  let slots := parseSlots bs e
  let used := slots.foldl (fun v p => v ||| p.engines) 0
  let counts := (List.range 64).foldl (fun t i => Tab.put 0 t i (strokeCount e used i)) []
  { alt := BitVec.ofNat 8 (leAt e 2 1), slots := slots, patches := parsePatches bs e, counts := counts, strokes := parseStrokes bs e used 64 0 (leAt e 8 4) }

/-- The fields of a body and of its slots and patches. -/
def bodyChecks (bs : List Byte) (b : Nat) : List Check :=
  let e := bodyEntry bs b
  let n := leAt e 0 2
  let slots := parseSlots bs e
  let used := slots.foldl (fun v p => v ||| p.engines) 0
  let total := (List.range 64).foldl (fun t i => t + strokeCount e used i) 0
  let ks := List.range n
  [ (decide (n = 0 ∨ 4096 < n) || decide (leAt e 2 1 ≠ 0xFF ∧ imgBodies bs ≤ leAt e 2 1) || !allZero (slice e 3 1) || !allZero (slice e 20 12), placeOf 0 b 0 b),
    (decide (secLen bs 1 < leAt e 4 4 + 32 * n), placeOf 0 b 0 b),
    (decide (secLen bs 5 < leAt e 12 4 + 8 * leAt e 16 4), placeOf 0 b 0 b),
    ((List.range 64).any fun i => decide (32768 < leAt e (32 + 2 * i) 2), placeOf 0 b 0 b),
    (decide (secLen bs 3 < leAt e 8 4 + 16 * total), placeOf 0 b 0 b) ]
  ++ ks.map (fun k => (!allZero (slice (slotEntry bs e k) 20 12) || decide (secLen bs 2 < leAt (slotEntry bs e k) 16 4 + 2 * (maskEngines (BitVec.ofNat 64 (leAt (slotEntry bs e k) 8 8))).length), placeOf 1 b 0 k))
  ++ ks.map (fun k => (decide (0 < k) && decide (leAt (slotEntry bs e k) 0 4 ≤ leAt (slotEntry bs e (k - 1)) 0 4), placeOf 1 b 0 k))
  ++ (List.range (leAt e 16 4)).map (fun k =>
      let p := slice (secBytes bs 5) (leAt e 12 4 + 8 * k) 8
      (decide (64 ≤ leAt p 0 1) || !allZero (slice p 1 1) || decide (imgW bs ≤ leAt p 4 2) || !allZero (slice p 6 2), placeOf 5 b 0 k))

/-! ## Schedule, regions, budgets, Skim tables and descriptors -/

def schedEntry (bs : List Byte) (k : Nat) : List Byte := slice (secBytes bs 4) (8 * k) 8
/-- (FIRST_STEP − STEP0) modulo 2^32. -/
def schedFrom (bs : List Byte) (k : Nat) : Nat := (BitVec.ofNat 32 (leAt (schedEntry bs k) 0 4) - imgStep0 bs).toNat

def schedChecks (bs : List Byte) : List Check :=
  (List.range (imgSched bs)).map fun k =>
    (decide (imgBodies bs ≤ leAt (schedEntry bs k) 4 1) || !allZero (slice (schedEntry bs k) 5 3)
      || (if k = 0 then decide (schedFrom bs 0 ≠ 0) else decide (schedFrom bs k ≤ schedFrom bs (k - 1))), placeOf 4 0 0 k)

def regionEntry (bs : List Byte) (k : Nat) : List Byte := slice (secBytes bs 7) (16 * k) 16
def regionCount (bs : List Byte) : Nat := secLen bs 7 / 16
def regionName (bs : List Byte) (k : Nat) : Nat := leAt (regionEntry bs k) 0 4

def regionChecks (bs : List Byte) : List Check :=
  (List.range (regionCount bs)).map fun k =>
    let r := regionEntry bs k
    (decide (leAt r 4 3 = 0) || decide (4 < leAt r 7 1) || decide (4 ≤ leAt r 8 1) || !allZero (slice r 9 7)
      || ((List.range k).any fun j => decide (regionName bs j = regionName bs k)), placeOf 7 0 0 k)

def parseRegion (bs : List Byte) (k : Nat) : Region :=
  let r := regionEntry bs k
  { name := BitVec.ofNat 32 (leAt r 0 4), tiles := leAt r 4 3, pool := leAt r 7 1, persist := (leAt r 8 1).testBit 0, inherit := (leAt r 8 1).testBit 1 }

def budgetEntry (bs : List Byte) (k : Nat) : List Byte := slice (secBytes bs 8) (8 * k) 8
def parseBudget (bs : List Byte) (k : Nat) : Budget :=
  let r := budgetEntry bs k
  ⟨BitVec.ofNat 8 (leAt r 0 1), leAt r 2 2, leAt r 4 4⟩
def budgetChecks (bs : List Byte) : List Check := (List.range (secLen bs 8 / 8)).map fun k => (!allZero (slice (budgetEntry bs k) 1 1), placeOf 8 0 0 k)

/-- Reserved bits of the register words that section 9 may set, by offset from the SKM base; none for an offset that it may not set. -/
def skimReserved (off : Nat) : Option Nat :=
  if off % 4 ≠ 0 then none
  else if 0x4000 ≤ off ∧ off < 0x6000 then
    match off % 0x20 with
    | 0x00 => some 0x3007FF00 | 0x04 => some 0 | 0x08 => some 0xFF000000 | 0x0C => some 0 | 0x10 => some 0xFFFF0000 | _ => none
  else if 0x8000 ≤ off ∧ off < 0x9000 then
    match off % 0x10 with
    | 0x0 => some 0x1000FFFF | 0x4 => some 0x001FFFFF | 0x8 => some 0 | _ => none
  else if 0xA000 ≤ off ∧ off < 0xC200 then some 0x7F007F00
  else none

/-- Section 9: entries of a register offset and its word. -/
def skimEntry (bs : List Byte) (k : Nat) : Nat × Nat := (leAt (secBytes bs 9) (8 * k) 4, leAt (secBytes bs 9) (8 * k + 4) 4)
def skimChecks (bs : List Byte) : List Check :=
  (List.range (secLen bs 9 / 8)).map fun k =>
    (match skimReserved (skimEntry bs k).1 with | none => true | some m => decide (m &&& (skimEntry bs k).2 ≠ 0), placeOf 9 0 0 k)
def parseSkim (bs : List Byte) : SkmTables :=
  (List.range (secLen bs 9 / 8)).foldl (fun t k => Tab.put 0 t (skimEntry bs k).1 (BitVec.ofNat 32 (skimEntry bs k).2)) []

def descEntry (bs : List Byte) (k : Nat) : List Byte := slice (secBytes bs 10) (64 * k) 64
def descChecks (bs : List Byte) : List Check :=
  (List.range (secLen bs 10 / 64)).map fun k => (decide (2 ≤ leAt (descEntry bs k) 5 1) || !allZero (slice (descEntry bs k) 55 1), placeOf 10 0 0 k)

def parseDesc (bs : List Byte) (k : Nat) : Desc :=
  let d := descEntry bs k
  let g := fun o n => leAt d o n
  { op := g 0 1, topLevel := g 1 1, fmt := g 2 1, wireFmt := g 3 1, d := g 4 1, mirror := (g 5 1).testBit 0, resFmt := g 6 1, rm := g 7 1, count := g 8 8,
    idxBase := g 16 6, bodies := g 22 1, catchup := g 23 1, chunk := g 24 4, ctlNs := g 28 4, lostNs := g 32 4, ringNs := g 36 4,
    m4 := g 40 1, m5 := g 41 1, m6 := g 42 1, m7 := g 43 1, mirrorRegions := (List.range 4).map fun i => g (44 + i) 1,
    parityRegions := (List.range 4).map fun i => g (48 + i) 1, fedUnits := g 52 2, fedChan := g 54 1, digest := BitVec.ofNat 64 (g 56 8), reservedOk := decide (g 5 1 < 2 ∧ g 55 1 = 0) }

/-- The reserved bytes of the signature block, R175. -/
def blockChecks (bs : List Byte) : List Check := [(!allZero (slice bs (imgLen bs + 12) 116), placeIn 0xF 0 0)]

/-- Check 2 of R176: the first place at which the image breaks its form. -/
def formatFault (bs : List Byte) (len : Nat) : Option Spot :=
  match firstBad (headerChecks bs len) with
  | some p => some p
  | none => match firstBad (layoutChecks bs) with
    | some p => some p
    | none => firstBad ((List.range (imgBodies bs)).flatMap (bodyChecks bs) ++ schedChecks bs ++ regionChecks bs ++ budgetChecks bs ++ skimChecks bs ++ descChecks bs ++ blockChecks bs)

/-! ## The plan that an image gives -/

def parsePlan (bs : List Byte) : Plan :=
  let g := fun o n => leAt bs o n
  let f := imgFlags bs
  { version := g 4 2, eagerMode := f.testBit 0, fallback := f.testBit 1, seamLaunch := f.testBit 2, nfAbort := f.testBit 3, asig := BitVec.ofNat 32 (g 16 4),
    rank := BitVec.ofNat 15 (g 20 2), job := BitVec.ofNat 64 (g 24 8), planId := BitVec.ofNat 64 (g 32 8), seed := BitVec.ofNat 64 (g 40 8), step0 := imgStep0 bs,
    steps := imgSteps bs, launchNs := BitVec.ofNat 48 (g 56 6), stepNs := g 64 4, deadlineNs := g 68 4, extCap := g 72 4, w := imgW bs,
    bodies := (List.range (imgBodies bs)).map (parseBody bs),
    sched := (List.range (imgSched bs)).map fun k => (BitVec.ofNat 32 (leAt (schedEntry bs k) 0 4), leAt (schedEntry bs k) 4 1),
    params := (List.range (secLen bs 6 / 4)).map fun k => BitVec.ofNat 32 (leAt (secBytes bs 6) (4 * k) 4),
    regions := (List.range (regionCount bs)).map (parseRegion bs), budgets := (List.range (secLen bs 8 / 8)).map (parseBudget bs), skim := parseSkim bs,
    descs := (List.range (secLen bs 10 / 64)).map (parseDesc bs), imageHash := BitVec.ofNat 64 (beNat ((sha256 (bs.take (imgLen bs))).take 8)), imageDigest := sha256 (bs.take (imgLen bs)), isBreak := false, skimOffs := (List.range (secLen bs 9 / 8)).map fun k => (skimEntry bs k).1 }

/-- PART and STEPPING of an image. -/
def imgPart (bs : List Byte) : Nat := leAt bs 12 2
def imgStepping (bs : List Byte) : Nat := leAt bs 14 1
/-- KEY_ID of the signature block, in hash order. -/
def imgKeyId (bs : List Byte) : List Byte := slice bs (imgLen bs) 8
/-- The signature of the signature block, R175. -/
def imgSignature (bs : List Byte) : List Byte := slice bs (imgLen bs + 128) 384
/-- ALG of the signature block, R175. -/
def imgAlg (bs : List Byte) : Nat := leAt bs (imgLen bs + 8) 4

end Sys2Proof.Machine
end

