-- ==== Sys2Proof/Machine/Admission.lean ====
section
/-! DEFINITION. Admission, R174 to R183, R636 and R637: checks 1 to 12 of R176, what a success does, and the plan commands of R547. -/

namespace Sys2Proof.Machine

/-- Why an admission fails: its result and the place in the image. -/
structure Refused where
  code : Byte
  place : Spot
deriving DecidableEq, Repr

/-! Result codes of R177. -/
def arAdmitted : Byte := 0x00
def arEager : Byte := 0x01
def arFormat : Byte := 0x02
def arSignature : Byte := 0x03
def arTarget : Byte := 0x04
def arAsig : Byte := 0x05
def arNotReady : Byte := 0x06
def arRule : Byte := 0x07
def arTiming : Byte := 0x08
def arBudget : Byte := 0x09
def arInherit : Byte := 0x0A
def arNoBuffers : Byte := 0x0B
def arWindow : Byte := 0x0C
def arSlotBusy : Byte := 0x0D

/-- The place of the header. -/
def headerPlace : Spot := placeIn 0xF 0 0

/-- A check that answers with a result at the first test that holds. -/
def failAt (code : Byte) (l : List Check) : Option Refused := (firstBad l).map fun p => ⟨code, p⟩

/-- The first failure of two checks in order. -/
def orElse_ (a b : Option Refused) : Option Refused := match a with | some r => some r | none => b

/-! ## Bodies that the checks go over -/

def Plan.scheduled (p : Plan) (b : Nat) : Bool := p.sched.any fun e => decide (e.2 = b)

/-- Bodies with the mode they are judged in: an Eager alternate that no step runs is judged in Eager mode; under R178 only the scheduled alternates are judged. -/
def Plan.judged (p : Plan) : List (Nat × Body × Bool) :=
  ((List.range p.bodies.length).zip p.bodies).filterMap fun x =>
    if p.isBreak then (if p.scheduled x.1 then some (x.1, x.2, true) else none)
    else some (x.1, x.2, p.eagerMode || (!p.scheduled x.1 && p.bodies.any fun b => decide (b.alt.toNat = x.1)))

/-- R178: MODE 1, with each body replaced by its alternate. -/
def Plan.fallenBack (p : Plan) : Plan :=
  { p with eagerMode := true, isBreak := true, bodies := p.bodies.map fun b => if b.alt = 0xFF then b else { p.body b.alt.toNat with alt := b.alt } }

/-- Whether R178 applies. -/
def Plan.mayFallBack (p : Plan) : Bool := !p.eagerMode && p.fallback && p.sched.all fun e => decide ((p.body e.2).alt ≠ 0xFF)

/-! ## Check 7: rules over strokes -/

/-- What the pass over an engine's list knows: the form of each row (1 LA, 2 FP32), IDXB, the format of each slot that the list has written (format + 1), and the addends of R60 and R65: the most that an entry of each half row holds since its clear, those of the images in each tile slot, and those of the images in HBM, by region × 2^24 + tile. -/
structure RuleSt where
  forms : Tab Nat := []
  idxb : Nat := 0
  adds : Tab Nat := []
  imgs : Tab Nat := []
  stored : Tab Nat := []
  fmts : Tab Nat := []
deriving DecidableEq, Repr

/-- First element index of a stroke, R96. -/
def firstIndex (x : RuleSt) (w : BitVec 128) : Nat := (x.idxb + 256 * wIdxOff w) % 2 ^ 48

/-- Elements to a residual tile place, R133. -/
def resElems (resFmt : Nat) : Nat := if resFmt = 2 then 2048 else 1024

/-- A run of residual tile places that a stroke of an engine's list writes: the first tile of bank 0 in its region, their number, and the channel's BANK_TILES, R133. -/
structure ResRun where
  engine : Nat
  stroke : Nat
  region : Nat
  tile : Nat
  number : Nat
  bankTiles : Nat
deriving DecidableEq, Repr

/-- Residual tile places that an SKENC writes. -/
def skencPlaces (t : SkmTables) (x : RuleSt) (e i : Nat) (w : BitVec 128) : Option ResRun :=
  let c := chanOf t (wDst w % 256)
  if wOp w = opSkenc ∧ c.resFmt ≠ 0 then
    some ⟨e, i, c.region, c.tile0 + (firstIndex x w - c.origin) / resElems c.resFmt, 1024 * wCount w / resElems c.resFmt, c.bankTiles⟩
  else none

/-- R103, R122, R133, R134, R140 and R158 on an SKENC. -/
def skencBad (t : SkmTables) (x : RuleSt) (w : BitVec 128) : Bool :=
  let c := chanOf t (wDst w % 256)
  let i := firstIndex x w
  let n := 1024 * wCount w
  let p := resElems c.resFmt
  !c.valid || c.ll || decide (i % 1024 ≠ 0)
    || (decide (c.resFmt ≠ 0) && (decide (i < c.origin) || decide ((i - c.origin) % p ≠ 0) || decide (n % p ≠ 0) || decide (c.bankTiles ≤ (i - c.origin + n - 1) / p)))

/-- Whether the rows of a stroke have a form that suits it, R57 and R78. -/
def formsBad (x : RuleSt) (w : BitVec 128) : Bool :=
  let op := wOp w
  let r := rowsOf w
  let need := op = opSvla ∨ op = opAddla ∨ op = opDot ∨ (op = opAcc ∧ 9 ≤ (wFmt w).toNat)
  decide (op ≠ opClra) && (List.range r.2).any fun k =>
    let f := Tab.get 0 x.forms (r.1 + k)
    decide (f = 0) || (decide need && decide (f ≠ 1))

/-- A SEND to an output queue, R514. -/
def sendBad (s : State) (p : Plan) (w : BitVec 128) : Bool :=
  if wOp w = opSend ∧ 0x200 ≤ wSb w then
    let q := wSb w - 0x200
    let x := s.queue q
    if x.bind = 1 then decide (((List.range 256).filter fun c => (chanOf p.skim c).valid && (chanOf p.skim c).ll && decide ((chanOf p.skim c).destQ = q)).length ≠ 1)
    else decide (x.bind = 2) && decide (x.mask = 0)
  else false

/-- Half rows that a stroke adds into, with the addends that an entry there gains: each position of a span takes its share of the counts, tiles of a queue and units of a sub-stream may all take one place, and an image brings its own addends, R65. -/
def addsOf (x : RuleSt) (w : BitVec 128) : List (Nat × Nat) :=
  let op := wOp w
  let r := rowsOf w
  let n := if op = opSkdec ∨ isIq (wSa w) then wCount w else ceilDiv (wCount w) (max 1 (wSpan w))
  if op = opAddla then (List.range (wCount w)).map fun k => (2 * wLaBase w + k, Tab.get 0 x.imgs (wSa w + k))
  else if op = opAcc ∨ op = opDot ∨ op = opSkdec then (List.range (2 * r.2)).map fun k => (2 * r.1 + k, n)
  else []

/-- Addends of each half row once the stroke has run. -/
def addsAfter (x : RuleSt) (w : BitVec 128) : Tab Nat :=
  let r := rowsOf w
  if wOp w = opClra then (List.range (2 * r.2)).foldl (fun t k => Tab.put 0 t (2 * r.1 + k) 0) x.adds
  else (addsOf x w).foldl (fun t p => Tab.put 0 t p.1 (Tab.get 0 t p.1 + p.2)) x.adds

/-- Key of a tile of a region. -/
def tileKey (region tile : Nat) : Nat := region * 2 ^ 24 + tile

/-- Addends of the images of each tile slot once the stroke has run. A LOAD brings those of the tile in HBM, and one addend where the plan has stored no image there. -/
def imgsAfter (x : RuleSt) (w : BitVec 128) : Tab Nat :=
  if wOp w = opSvla then (List.range (wCount w)).foldl (fun t k => Tab.put 0 t (wDst w + k) (Tab.get 0 x.adds (2 * wLaBase w + k))) x.imgs
  else if wOp w = opLoad then (List.range (wCountM w)).foldl (fun t k => Tab.put 0 t (wTs w + k) (max 1 (Tab.get 0 x.stored (tileKey (wRegion w) (wToff w + k))))) x.imgs
  else x.imgs

/-- Raises an entry of a table to a value. -/
def raiseTo (t : Tab Nat) (k v : Nat) : Tab Nat := Tab.put 0 t k (max v (Tab.get 0 t k))

/-- Addends of the images in HBM once the stroke has run: a tile counts the most that any STORE has brought. -/
def storedAfter (x : RuleSt) (w : BitVec 128) : Tab Nat :=
  if wOp w = opStore then (List.range (wCountM w)).foldl (fun t k => raiseTo t (tileKey (wRegion w) (wToff w + k)) (Tab.get 0 x.imgs (wTs w + k))) x.stored
  else x.stored

/-- Format that a stroke gives the tiles it writes; none for images. -/
def outFmt (w : BitVec 128) : Option (BitVec 4) :=
  let op := wOp w
  if op = opSvla then none
  else if op = opRdla ∨ op = opCvt then some (wFmtD w)
  else if op = opSkdec then some fp32
  else if op = opSum64 then some fp64
  else some (wFmt w)

/-- Formats of the slots once the stroke has run. -/
def fmtsAfter (x : RuleSt) (w : BitVec 128) : Tab Nat :=
  let v := match outFmt w with | some f => f.toNat + 1 | none => 0
  (slotWrites w).foldl (fun t r => (List.range r.2).foldl (fun t k => Tab.put 0 t (r.1 + k) v) t) x.fmts

/-- R35: the tiles that an operation reads are known to differ in format. STORE, SEND and ADDLA take a tile as it is. -/
def formatsMix (x : RuleSt) (w : BitVec 128) : Bool :=
  let fs := ((slotReads w).flatMap fun r => (List.range r.2).map fun k => Tab.get 0 x.fmts (r.1 + k)).filter fun f => decide (f ≠ 0)
  !([opStore, opSend, opAddla].contains (wOp w)) && fs.any fun f => decide (fs.head? ≠ some f)

/-- R60: more than 2^42 addends would reach one entry between two clears. -/
def addsBad (x : RuleSt) (w : BitVec 128) : Bool := (addsAfter x w).any fun p => decide (2 ^ 42 < p.2)

/-- The rules that one stroke can break. -/
def strokeBad (s : State) (p : Plan) (eager : Bool) (x : RuleSt) (w : BitVec 128) : Bool :=
  let op := wOp w
  !strokeOk w || (decide (op = opClra) && wOpt w && !eager) || ((decide (op = opSvla) || decide (op = opAddla)) && eager)
    || (decide (op = opSum64) && !wOpt w && decide (wCount w % wSpan w ≠ 0))
    || (decide (op = opSkdec) && isTile (wDst w) && decide (wSpan w < wCount w))
    || formsBad x w || formatsMix x w || addsBad x w || (decide (op = opSkenc) && skencBad p.skim x w) || sendBad s p w

/-- The pass goes on over a stroke. -/
def RuleSt.next (x : RuleSt) (w : BitVec 128) : RuleSt :=
  let x := { x with adds := addsAfter x w, imgs := imgsAfter x w, stored := storedAfter x w, fmts := fmtsAfter x w }
  if wOp w = opSetx then { x with idxb := wField w 47 0 }
  else if wOp w = opClra then { x with forms := (List.range (rowsOf w).2).foldl (fun t k => Tab.put 0 t ((rowsOf w).1 + k) (if wOpt w then 2 else 1)) x.forms }
  else x

/-- First stroke of an engine's list that breaks a rule. -/
def listBad (s : State) (p : Plan) (eager : Bool) (b e : Nat) : (i : Nat) → RuleSt → List (BitVec 128) → Option Spot
  | _, _, [] => none
  | i, x, w :: ws => if strokeBad s p eager x w then some (placeOf 3 b e i) else listBad s p eager b e (i + 1) (x.next w) ws

/-- Residual places that the SKENCs of a list write. -/
def listPlaces (t : SkmTables) (e : Nat) : (i : Nat) → RuleSt → List (BitVec 128) → List ResRun
  | _, _, [] => []
  | i, x, w :: ws =>
    let rest := listPlaces t e (i + 1) (x.next w) ws
    match skencPlaces t x e i w with
    | some r => r :: rest
    | none => rest

def Body.places (b : Body) (t : SkmTables) : List ResRun := b.strokes.flatMap fun l => listPlaces t l.1 0 {} l.2

/-- Whether two runs share a place of bank 0 or of bank 1; a step writes one of the two. -/
def ResRun.meets (a b : ResRun) : Bool :=
  decide (a.region = b.region) && [0, 1].any fun k =>
    decide (a.tile + k * a.bankTiles < b.tile + k * b.bankTiles + b.number) && decide (b.tile + k * b.bankTiles < a.tile + k * a.bankTiles + a.number)

/-- Two SKENC strokes of one step that write the same residual element, R133. -/
def samePlace (b : Nat) : List ResRun → Option Spot
  | [] => none
  | r :: rest =>
    match rest.find? r.meets with
    | some y => some (placeOf 3 b y.engine y.stroke)
    | none => samePlace b rest

/-! R60 over the steps of a plan: what images hold passes from step to step in tile slots and in HBM. -/

/-- Addends of the images in the tile slots of each engine, and in HBM as in RuleSt. -/
structure ImgSt where
  imgs : Tab (Tab Nat) := []
  stored : Tab Nat := []
deriving DecidableEq, Repr

/-- A pass over a list for R60 alone: the first stroke that brings too many addends to an entry. -/
def listAddends : (i : Nat) → RuleSt → List (BitVec 128) → Option Nat × RuleSt
  | _, x, [] => (none, x)
  | i, x, w :: ws => if addsBad x w then (some i, x) else listAddends (i + 1) (x.next w) ws

/-- The lists of a body, one engine after another. -/
def bodyAddends (b : Nat) (body : Body) (x : ImgSt) : Option Spot × ImgSt :=
  body.strokes.foldl (fun (a : Option Spot × ImgSt) l =>
    let r := listAddends 0 { imgs := Tab.get [] a.2.imgs l.1, stored := a.2.stored } l.2
    let bad := match a.1, r.1 with
      | some y, _ => some y
      | none, some i => some (placeOf 3 b l.1 i)
      | none, none => none
    (bad, ⟨Tab.put [] a.2.imgs l.1 r.2.imgs, r.2.stored⟩)) (none, x)

/-- The steps of a plan from step n on, until one brings too many addends or no body changes what images hold any more. -/
def stepsAddends (p : Plan) : (steps : Nat) → (n : BitVec 32) → ImgSt → Option Spot × ImgSt
  | 0, _, x => (none, x)
  | k + 1, n, x =>
    if p.sched.all fun e => decide (bodyAddends e.2 (p.body e.2) x = (none, x)) then (none, x)
    else match bodyAddends (p.bodyOf n) (p.body (p.bodyOf n)) x with
      | (none, x) => stepsAddends p k (n + 1) x
      | r => r

/-- Index in section 2 of slot k's entry for engine e. -/
def mapEntry (b : Body) (e k : Nat) : Nat :=
  match b.slots[k]? with
  | some p => p.mapAt + ((maskEngines p.engines).filter fun i => decide (i < e)).length
  | none => 0

/-- R163 on an engine's slots and list: the place of the entry that breaks it, or of the first stroke of a list that belongs to no slot. -/
def mapFault (b : Body) (j e : Nat) : Option Spot :=
  let fs := b.slotsOf e
  let falls := ((fs.zip (fs.drop 1)).find? fun p => decide (p.2.2 ≤ p.1.2)).map (·.2.1)
  let spot := fun k => some (placeOf 2 j e (mapEntry b e k))
  match fs.head?, falls, fs.getLast? with
  | none, _, _ => if b.count e = 0 then none else some (placeOf 3 j e 0)
  | some h, f, l =>
    if h.2 ≠ 0 then spot h.1
    else match f with
      | some k => spot k
      | none => match l with
        | some z => if b.count e ≤ z.2 then spot z.1 else none
        | none => none

/-- R171 on a patch: it names a SETP stroke. -/
def patchBad (b : Body) (x : Patch) : Bool :=
  match (b.strokes.find? fun l => decide (l.1 = x.engine)) with
  | some l => match l.2[x.stroke]? with
    | some w => decide (wOp w ≠ opSetp)
    | none => true
  | none => true

/-! ## Check 7: regions, Skim tables, queues and descriptors -/

/-- R173 and R346 on region k. -/
def regionBad (p : Plan) (k : Nat) (g : Region) (held : Option Nat) : Bool :=
  (decide (p.version = 3) && decide (g.pool ≠ 0)) || (decide (p.version = 2) && (decide (g.pool = 0) || g.inherit))
    || (g.inherit && (match held with | some n => decide (n % 4 ≠ k % 4) | none => false))

/-- R140 and R158 on a channel. -/
def chanBad (c : Chan) : Bool :=
  c.valid && (if c.ll then decide (3 < c.fmt.toNat) || decide (c.resFmt ≠ 0) || decide (c.resRm ≠ 0) || decide (c.region ≠ 0) || decide (c.tile0 ≠ 0) || decide (c.bankTiles ≠ 0) || decide (c.origin ≠ 0)
    else decide (c.fmt.toNat < 12) || decide (c.fmt.toNat = 15) || decide (c.resRm = 1) || decide (c.resRm = 3))

/-- R159 on a sub-stream; KIND 3 does not occur. -/
def subBad (x : SubS) : Bool := x.valid && (if x.ll then decide (x.kind = 0) || decide (x.kind = 3) else decide (x.kind ≠ 0))

/-- Pairs of source and channel that are steered, with their sub-stream. -/
def steers (t : SkmTables) : List (Nat × Nat × Nat) :=
  (List.range 17).flatMap fun src => (List.range 256).filterMap fun ch => (steerOf t src ch).map fun n => (src, ch, n)

/-- R159 on a steering entry. -/
def steerBad (t : SkmTables) (n : Nat) : Bool := !(subOf t n).valid || (subOf t n).resid

/-- Least depth of a budgeted queue, R514. -/
def leastDepth (s : State) (p : Plan) (q : Nat) : Nat :=
  let cs := (List.range 256).filter fun c => (chanOf p.skim c).valid && decide ((chanOf p.skim c).destQ = q)
  if (s.queue q).bind = 2 then 4096
  else if cs.any fun c => (chanOf p.skim c).ll then 4180 else if cs.isEmpty then 0 else 1076

/-- R514 on a budget of an output queue. -/
def queueBad (s : State) (p : Plan) (b : Budget) : Bool :=
  let x := s.queue b.index
  decide (b.kind = 2) && decide (b.index < 256) && (decide (x.bind = 0) || !x.en || decide (b.value < leastDepth s p b.index)
    || (x.shapeEn && decide (x.srate = 0)) || (decide (x.polAct ≠ 0) && decide (x.prate = 0)))

/-- Queues with BIND 2 that a plan names and that share a colour of one engine, R514. -/
def colourClash (s : State) (p : Plan) : Bool :=
  let qs := (p.nearQueues.filter fun q => decide ((s.queue q).bind = 2)).eraseDups
  qs.any fun a => qs.any fun b => decide (a < b) && decide ((s.queue a).neng = (s.queue b).neng) && decide ((s.queue a).mask &&& (s.queue b).mask ≠ 0)

/-- The record of R208. -/
def digestRecord (p : Plan) (d : Desc) (mode : Bool) : List Byte :=
  [BitVec.ofNat 8 d.op, BitVec.ofNat 8 d.fmt, BitVec.ofNat 8 d.wireFmt, BitVec.ofNat 8 (b2n mode), BitVec.ofNat 8 d.d, BitVec.ofNat 8 d.topLevel, 0, 0]
    ++ leBytes 8 d.count ++ leBytes 4 d.chunk ++ leBytes 4 p.asig.toNat ++ leBytes 8 p.planId.toNat
    ++ [BitVec.ofNat 8 d.m4, BitVec.ofNat 8 d.m5, BitVec.ofNat 8 d.m6, BitVec.ofNat 8 d.m7, 0, 0, 0, 0]

/-- The digest of R208; MODE is the header's. -/
def descDigest (p : Plan) (d : Desc) : BitVec 64 := BitVec.ofNat 64 (beNat ((sha256 (digestRecord p d (p.eagerMode && !p.isBreak))).take 8))

/-- R207 on mirrored and parity regions. -/
def mirrorBad (p : Plan) (d : Desc) : Bool :=
  d.mirror && (decide (d.m4 ≠ 16) || ((d.mirrorRegions.zip d.parityRegions).any fun x =>
    decide (x.1 ≠ 0xFF) && (match p.regions[x.1]?, p.regions[x.2]? with
      | some a, some b => decide (a.tiles % 7 ≠ 0) || decide (b.tiles ≠ a.tiles / 7)
      | _, _ => true)))

/-- Sources steered to sub-stream n with a channel. -/
def steeredWith (t : SkmTables) (ch n : Nat) : Nat := ((List.range 17).filter fun src => decide (steerOf t src ch = some n)).length

/-- R233 and R234 on a descriptor. -/
def fedBad (p : Plan) (d : Desc) : Bool :=
  decide (d.topLevel = 7) && ((match p.regions[d.catchup]? with | some g => decide (g.tiles < 2 * (d.d + 1) * d.fedUnits * d.m7) | none => true)
    || (decide (0 < d.d) && (List.range 256).any fun n =>
      let k := steeredWith p.skim d.fedChan n
      decide (0 < k) && decide (planBudget (some p) 0x03 n < (d.d + 1) * d.fedUnits * k)))

/-- R14 and R207 on descriptor k, with the formats and the rounding that R206 allows. -/
def descBad (p : Plan) (k : Nat) (d : Desc) : Bool :=
  let counts := [(5, d.m5), (6, d.m6), (7, d.m7)]
  let least := if d.m4 * d.m5 = 0 then 1 else d.m4 * d.m5 * 1024
  decide (d.op = 0 ∨ 3 < d.op) || decide (d.topLevel < 4 ∨ 7 < d.topLevel)
    || decide (d.m4 = 0 ∨ 16 < d.m4 ∨ d.m5 = 0 ∨ 16 < d.m5 ∨ d.m6 = 0 ∨ 16 < d.m6 ∨ d.m7 = 0 ∨ 8 < d.m7)
    || (counts.any fun c => decide (d.topLevel < c.1) && decide (c.2 ≠ 1))
    || !d.isMember p.rank.toNat
    || decide (d.chunk = 0) || decide (d.chunk % least ≠ 0) || decide (2097152 < d.chunk / d.m4)
    || decide (d.count = 0 ∨ 2 ^ 48 ≤ d.count) || decide (2 ^ 48 < d.idxBase + d.count)
    || (((List.range p.descs.length).zip p.descs).any fun x => decide (x.1 < k) && decide (x.2.idxBase < d.idxBase + d.count) && decide (d.idxBase < x.2.idxBase + x.2.count))
    || decide (8 < d.d) || (decide (d.d ≠ 0) && decide (d.topLevel < 7))
    || (decide (d.topLevel = 7) && (decide (d.catchup = 0xFF) || decide (d.fedUnits = 0)))
    || decide (11 < d.fmt) || !([0, 1, 12, 13, 14].contains d.wireFmt) || decide ((d.wireFmt = 0) ≠ (d.fmt = 0)) || decide (3 < d.resFmt) || decide (d.rm ≠ 0 ∧ d.rm ≠ 2)
    || decide (d.ctlNs < 1000) || decide (d.lostNs < 2 * d.ctlNs) || decide (d.ringNs < d.ctlNs)
    || decide (d.bodies = 0) || decide (2 ^ p.bodies.length ≤ d.bodies)
    || mirrorBad p d || fedBad p d || decide (d.digest ≠ descDigest p d)

/-! ## INHERIT, check 8 -/

/-- The PERSIST region that a name stands for: its number in its plan, size, pool and pieces. A plan that follows CURRENT takes over CURRENT's regions. -/
def heldRegion (s : State) (name : BitVec 32) : Option Held :=
  match s.stn.held.find? fun h => decide (h.name = name) with
  | some h => some h
  | none => match s.stn.cur with
    | none => none
    | some p => (((List.range p.regions.length).zip p.regions).find? fun r => decide (r.2.name = name) && r.2.persist).map fun r => ⟨name, r.2.tiles, r.2.pool, r.1, r.2.bufs, r.2.images⟩

/-- Whether a name is that of a region held or of an owner that is dead or waits for PROXY_FREE. -/
def nameTaken (s : State) (name : BitVec 32) : Bool :=
  (heldRegion s name).isSome || (planNames s).contains name || holdsAny s.lth (regionOwner name) || isDead s.lth (regionOwner name)
    || s.lth.queue.any fun c => decide (c.op = .proxyFree) && decide (c.owner = regionOwner name)

/-- Check 8 on a region. -/
def inheritBad (s : State) (g : Region) : Bool :=
  if g.inherit then
    match heldRegion s g.name with
    | some h => decide (h.tiles ≠ g.tiles) || decide (h.pool ≠ g.pool) || isDead s.lth (regionOwner g.name)
    | none => true
  else nameTaken s g.name

/-- What the images in the regions that a plan inherits hold, R60. -/
def heldImages (s : State) (p : Plan) : Tab Nat :=
  ((List.range p.regions.length).zip p.regions).foldl (fun t r =>
    if r.2.inherit then (match heldRegion s r.2.name with
      | some h => h.images.foldl (fun t x => Tab.put 0 t (tileKey r.1 x.1) x.2) t
      | none => t)
    else t) []

/-- R60 over every step of the plan. -/
def planAddends (s : State) (p : Plan) : Option Spot × ImgSt := stepsAddends p p.steps p.step0 { stored := heldImages s p }

/-- The plan with what the images in its regions may hold once it has run. -/
def withImages (s : State) (p : Plan) : Plan :=
  let t := (planAddends s p).2.stored
  { p with regions := ((List.range p.regions.length).zip p.regions).map fun r =>
      { r.2 with images := t.filterMap fun x => if x.1 / 2 ^ 24 = r.1 then some (x.1 % 2 ^ 24, x.2) else none } }

/-- Place of the first entry of section 9 that sets a register from an offset, of some bytes. -/
def skimPlace (p : Plan) (off size : Nat) : Spot :=
  match p.skimOffs.findIdx? fun o => decide (off ≤ o) && decide (o < off + size) with
  | some k => placeOf 9 0 0 k
  | none => placeIn 9 0 0

/-- Check 7 of R176, in the order of the sections. -/
def ruleFault (s : State) (p : Plan) : Option Spot :=
  let js := p.judged
  let regs := (List.range p.regions.length).zip p.regions
  let maps := js.findSome? fun j => (List.range 64).findSome? fun e => mapFault j.2.1 j.1 e
  let old := decide (p.version = 2) && (decide (p.bodies.length ≠ 1) || decide (p.sched.length ≠ 1) || decide (p.w ≠ 0) || p.seamLaunch)
  let v1 := decide (p.version = 2) && ((planBonds s p).any fun b => (List.range 16).any fun i => (s.bond b).ports.getLsbD i && !(Tab.get {} s.rnd.ports i).v1)
  let strokes := js.findSome? fun j => j.2.1.strokes.findSome? fun l => listBad s p j.2.2 j.1 l.1 0 {} l.2
  let places := js.findSome? fun j => samePlace j.1 (j.2.1.places p.skim)
  let patches := js.flatMap fun j => ((List.range j.2.1.patches.length).zip j.2.1.patches).map fun x => (patchBad j.2.1 x.2, placeOf 5 j.1 0 x.1)
  let rest : List Check := [(decide (4194304 < p.steps * p.w), placeIn 6 0 0)]
    ++ regs.map (fun r => (regionBad p r.1 r.2 ((heldRegion s r.2.name).map (·.regNo)), placeOf 7 0 0 r.1))
    ++ ((List.range p.budgets.length).zip p.budgets).map (fun b => (queueBad s p b.2, placeOf 8 0 0 b.1))
    ++ [(v1 || colourClash s p, placeIn 8 0 0)]
    ++ (List.range 256).map (fun c => (chanBad (chanOf p.skim c) || ((chanOf p.skim c).valid && decide ((s.queue (chanOf p.skim c).destQ).bind ≠ 1)), skimPlace p (0x4000 + 0x20 * c) 0x20))
    ++ (List.range 256).map (fun n => (subBad (subOf p.skim n), skimPlace p (0x8000 + 0x10 * n) 0x10))
    ++ (steers p.skim).map (fun x => (steerBad p.skim x.2.2, skimPlace p (0xA000 + 4 * ((256 * x.1 + x.2.1) / 2)) 4))
    ++ ((List.range p.descs.length).zip p.descs).map (fun d => (descBad p d.1 d.2, placeOf 10 0 0 d.1))
  match [firstBad [(old, placeIn 0xF 0 0)], maps, strokes, (planAddends s p).1, places].findSome? id with
  | some x => some x
  | none => firstBad (patches ++ rest)

/-! ## Grants, check 9 -/

/-- Pieces of a region, R173. -/
def piecesOf (g : Region) : Nat := ceilDiv (g.tiles * 4096) (pieceSize g.pool)

/-- Grants the regions in order; an INHERIT region takes the pieces it names. The region at which a grant fails, or the regions as granted. -/
def grantRegions : List (Nat × Region) → State → (List Region ⊕ Nat) × State
  | [], s => (.inl [], s)
  | (k, g) :: rest, s =>
    let got := if g.inherit then ((heldRegion s g.name).map (·.bufs), s) else grantPieces (regionOwner g.name) k g.pool (piecesOf g) 0 s
    match got.1 with
    | none => (.inr k, got.2)
    | some bufs => match grantRegions rest got.2 with
      | (.inl gs, s) => (.inl ({ g with bufs := bufs } :: gs), s)
      | (.inr j, s) => (.inr j, s)

/-- Grants the bond areas that the plan budgets, R348: the record at which a grant fails. -/
def grantAreas (p : Plan) : List (Nat × Budget) → State → Option Nat × State
  | [], s => (none, s)
  | (k, b) :: rest, s =>
    if (b.kind = 4 ∨ b.kind = 5) ∧ b.index < 16 then
      match fitArea s b.kind b.index (some p) with
      | (true, s) => grantAreas p rest s
      | (false, s) => (some k, s)
    else grantAreas p rest s

/-- Handles that bond areas hold. -/
def areaHandles (s : State) : List Nat := (List.range 16).flatMap fun b => [0x04, 0x05].flatMap fun k => heldBy s.lth (areaOwner k b)

/-- The plan with every buffer granted, and the state that holds the grants; or the place of the failure. -/
def grantPlan (s : State) (p : Plan) : (Plan × State) ⊕ Spot :=
  match grantRegions ((List.range p.regions.length).zip p.regions) s with
  | (.inr k, _) => .inr (placeOf 7 0 0 k)
  | (.inl gs, s) => match grantAreas p ((List.range p.budgets.length).zip p.budgets) s with
    | (some k, _) => .inr (placeOf 8 0 0 k)
    | (none, t) => .inl ({ p with regions := gs, areas := areaHandles t |>.filter fun h => !(areaHandles s).contains h }, t)

/-! ## The timing check, R85 to R87, R180, R187 and R336 -/

/-- Storage bits of a format. -/
def tileBits (f : BitVec 4) : Nat := 32768 / elemsPerTile f

/-- Occupancy per count, R95; ACC in LA form and in FP32 form. -/
def occOf (w : BitVec 128) (fp32 : Bool) : Nat :=
  let op := wOp w
  let e := elemsPerTile (wFmt w)
  if op ≤ 2 ∨ op = opClra then 1
  else if op = opLoad ∨ op = opStore ∨ op = opSend ∨ op = opSvla ∨ op = opAddla then 8
  else if op = opAcc then e / (if fp32 then 128 else 64)
  else if op = opRdla then elemsPerTile (wFmtD w) / 64
  else if op = opAdd then (if wFmt w = 1 then 16 else 32)
  else if op = opFma then 16
  else if op = opDot then e / 64
  else if op = opCvt then max (e / 128) (8 * tileBits (wFmtD w) / tileBits (wFmt w))
  else if op = opSkdec then 16
  else if op = opUpdm then 48
  else if op = opUpda then 160
  else 32

/-- ceil(log2 n). -/
def clog2 (n : Nat) : Nat := if n ≤ 1 then 0 else (n - 1).log2 + 1

/-- Latency, R95; a SEND's is the crossbar's, R90. -/
def latOf (w : BitVec 128) (hops : Nat) : Nat :=
  let op := wOp w
  if op = opNop ∨ op = opLoad ∨ op = opStore then 0
  else if op ≤ 2 then 1
  else if op = opSend then 24 + 32 * hops
  else if op = opClra then 2
  else if op = opAcc then 12
  else if op = opRdla then 14
  else if op = opSvla then 6
  else if op = opAddla then 10
  else if op = opAdd then (if wFmt w = 0 then 10 else 6)
  else if op = opFma then 8
  else if op = opDot then (if wFmt w = 2 then 16 else 12)
  else if op = opCvt then 6
  else if op = opSum64 then 10 * clog2 (if wOpt w then 512 * wCount w else wCount w / wSpan w) + 4
  else if op = opSkenc then 20
  else if op = opSkdec then 12
  else if op = opUpds then 14
  else if op = opUpdm then 22
  else 56

/-- Die-to-die hops between two quadrants, R13. -/
def hopsOf (a b : Nat) : Nat := match (a + 4 - b) % 4 with | 0 => 0 | 2 => 2 | _ => 1

/-- Quadrant that holds an output queue's bytes, R513. -/
def queueQuad (s : State) (q : Nat) : Nat := let x := s.queue q; if x.bind = 2 then x.neng / 2 else bondQuad s x.bond

/-- Hops of a SEND of engine e. -/
def sendHops (s : State) (e : Nat) (w : BitVec 128) : Nat :=
  if wSb w < 0x200 then hopsOf (e / 16) (wSb w / 8 / 16) else hopsOf (e / 16) (queueQuad s (wSb w - 0x200))

/-- Stacks that a run of tiles of a region touches. -/
def stacksOf (p : Plan) (r t n : Nat) : List Nat :=
  match p.regions[r]? with
  | none => []
  | some g => (List.range (min n (g.tiles - t))).foldl (fun l i => match tileDha g.bufs g.pool (t + i) with
      | some d => if l.contains (stackOf d) then l else stackOf d :: l
      | none => l) []

/-- Refresh holds of a transfer of t cycles on k stacks, R336. -/
def holdCycles (t k : Nat) : Nat := k * (t / 4680 + 1) * 384

/-- Nanoseconds in core cycles, rounded up. -/
def nsCycles (n : Nat) : Nat := ceilDiv (n * 12) 5

/-- The pass over an engine's list: next issue cycle, cycle at which each unit is free, earlier strokes with the cycle of their last write or read, the cycles from which SETX and SETP let strokes issue, forms of rows, slots on their way with the cycle at which they are VALID, and IDXB. -/
structure TimeSt where
  next : Nat := 0
  free : List Nat := [0, 0, 0, 0, 0, 0]
  prior : List (BitVec 128 × Nat) := []
  setx : Nat := 0
  setp : Nat := 0
  loads : List (Nat × Nat × Nat) := []
  rule : RuleSt := {}
  /-- latest write of each slot of the body, and of each send: (sink, cycle), sinks as in iqKey -/
  latest : Tab Nat := []
  sends : Tab Nat := []
deriving DecidableEq, Repr

/-- Cycles by which the slots that are PENDING hold a stroke that issues at c back: the k-th tile of a run is reached at c + k × o. -/
def loadWait (x : TimeSt) (w : BitVec 128) (c o : Nat) : Nat :=
  x.loads.foldl (fun m l =>
    (slotReads w ++ slotWrites w).foldl (fun m r =>
      if runsMeet [r] [(l.1, l.2.1)] then max m (l.2.2 + 1 - (c + (l.1 - r.1) * o)) else m) m) 0

/-- Key of an input queue beside output queues (0 to 255) and channels (256 + c) or sub-streams. -/
def iqKey (e q : Nat) : Nat := 512 + 8 * e + q

/-- Cycles by which the data that a stroke awaits from an input queue or a sub-stream holds it back: what the plan itself brings to the queue, by SEND or a lossless sub-stream, and else a near window, R180 and R188. -/
def arriveWait (p : Plan) (arr : Tab Nat) (e : Nat) (w : BitVec 128) (c : Nat) : Nat :=
  if wOp w = opAcc ∧ isIq (wSa w) then
    let k := iqKey e (wSa w - 0x400)
    (if arr.any fun x => decide (x.1 = k) then Tab.get 0 arr k else Config.nearWindow p.planId e (wSa w - 0x400) + 1) - c
  else if wOp w = opSkdec ∧ !(subOf p.skim (wSa w - 0x500)).resid then Tab.get 0 arr (wSa w - 0x500) - c
  else 0

/-- Lossless channels whose queue a SEND names. -/
def sendChans (p : Plan) (w : BitVec 128) : List Nat :=
  if wOp w = opSend ∧ 0x200 ≤ wSb w then (List.range 256).filter fun c => (chanOf p.skim c).valid && (chanOf p.skim c).ll && decide ((chanOf p.skim c).destQ = wSb w - 0x200) else []

/-- Channels whose units a stroke of engine e sends or takes. -/
def unitChans (p : Plan) (e : Nat) (w : BitVec 128) : List Nat :=
  let into := fun t : Nat → Bool => ((steers p.skim).filter fun x => t x.2.2).map (·.2.1)
  if wOp w = opSkenc then [wDst w % 256]
  else if wOp w = opSkdec then into fun n => decide (n = wSa w - 0x500)
  else if wOp w = opAcc ∧ isIq (wSa w) then into fun n => let x := subOf p.skim n; x.ll && decide (x.kind = 1) && decide (x.engine = e) && decide (x.iq = wSa w - 0x400)
  else sendChans p w

/-- Refresh holds of the catch-up writes of a stroke's units, R234 and R336: each is a tile place of the collective's area. -/
def catchHolds (p : Plan) (e : Nat) (w : BitVec 128) : Nat :=
  p.descs.foldl (fun h d =>
    if d.topLevel = 7 ∧ (unitChans p e w).contains d.fedChan then
      max h (holdCycles 640 (min (wCount w) (stacksOf p d.catchup 0 (2 * (d.d + 1) * d.fedUnits * d.m7)).length))
    else h) 0

/-- One stroke of slot k, which starts at a cycle: R85 to R87 with the bounds of R187. -/
def TimeSt.stroke (s : State) (p : Plan) (arr : Tab Nat) (e k start : Nat) (x : TimeSt) (w : BitVec 128) : TimeSt :=
  let op := wOp w
  let u := unitOf op
  let n := wCount w
  let fp32 := decide (Tab.get 0 x.rule.forms (wLaBase w) = 2)
  let o := occOf w fp32
  let c := max (max x.next (x.free.getD u 0)) start
  let c := if 1 ≤ u ∧ u ≤ 4 then max c x.setx else c
  let c := if 0x28 ≤ op then max c x.setp else c
  let c := x.prior.foldl (fun c v => if mustWait v.1 w then max c (v.2 + 1) else c) c
  let wait := max (loadWait x w c o) (arriveWait p arr e w c)
  let t := 640 + 8 * n
  let holds := if op = opLoad ∨ op = opStore then holdCycles t (stacksOf p (wRegion w) (wToff w) n).length else 0
  let held := if op = opStore then holds else 0
  let stop := c + wait + held + n * o
  let done := stop - 1 + latOf w (sendHops s e w)
  let resid := match skencPlaces p.skim x.rule e 0 w with
    | some r => 640 + holdCycles 640 (max (stacksOf p r.region r.tile r.number).length (stacksOf p r.region (r.tile + r.bankTiles) r.number).length)
    | none => 0
  let hbm := if op = opLoad ∨ op = opStore then max done (c + wait + t + holds) else done + resid + catchHolds p e w
  let sends := if op = opSkenc then raiseTo x.sends (256 + wDst w % 256) done
    else if op = opSend ∧ 0x200 ≤ wSb w then (sendChans p w).foldl (fun t c => raiseTo t (256 + c) done) (raiseTo x.sends (wSb w - 0x200) done)
    else if op = opSend then raiseTo x.sends (iqKey (wSb w / 8) (wSb w % 8)) done
    else x.sends
  { next := c + 1, free := x.free.set u stop, prior := x.prior ++ [(w, done)], setx := if op = opSetx then done + 1 else x.setx, setp := if op = opSetp ∧ wPreg w < 8 then max x.setp (done + 1) else x.setp, loads := if op = opLoad then x.loads ++ [(wTs w, n, hbm)] else x.loads, rule := x.rule.next w, latest := raiseTo x.latest k hbm, sends := sends }

/-- An engine's list. -/
def timeList (s : State) (p : Plan) (arr : Tab Nat) (b : Body) (e : Nat) : (i : Nat) → TimeSt → List (BitVec 128) → TimeSt
  | _, x, [] => x
  | i, x, w :: ws =>
    let k := b.slotOf e i
    timeList s p arr b e (i + 1) (TimeSt.stroke s p arr e k ((b.slots[k]?).map (·.start) |>.getD 0) x w) ws

/-- A body under given arrivals: latest write of each slot, and of each send. -/
def timeBody (s : State) (p : Plan) (arr : Tab Nat) (b : Body) : Tab Nat × Tab Nat :=
  b.strokes.foldl (fun a l =>
    let x := timeList s p arr b l.1 0 {} l.2
    (x.latest.foldl (fun t q => raiseTo t q.1 q.2) a.1, x.sends.foldl (fun t q => raiseTo t q.1 q.2) a.2)) ([], [])

/-- Latest send on a bond, or the step-start edge, R180. -/
def bondSend (s : State) (p : Plan) (sends : Tab Nat) (b : Nat) : Nat :=
  sends.foldl (fun m q =>
    let qn := if q.1 < 256 then q.1 else (chanOf p.skim (q.1 - 256)).destQ
    if q.1 < 512 ∧ (s.queue qn).bind = 1 ∧ (s.queue qn).bond = b then max m q.2 else m) 0

/-- Latest arrival on each sub-stream, R180: a unit of a bond at the peer's send plus the bound and the slack, a unit that loops back when it is coded. Of an input queue that the plan feeds, the cycle after the latest arrival. -/
def arrivals (s : State) (p : Plan) (sends : Tab Nat) : Tab Nat :=
  let slack := planBudget (some p) 0x08 0
  let subs := (steers p.skim).foldl (fun t x =>
    let c := if x.1 < 16 then bondSend s p sends x.1 + nsCycles (planBudget (some p) 0x07 x.1 + slack) else Tab.get 0 sends (256 + x.2.1)
    raiseTo t x.2.2 c) []
  let fed := (List.range 256).foldl (fun t n =>
    let x := subOf p.skim n
    if x.valid && x.ll && decide (x.kind = 1) then raiseTo t (iqKey x.engine x.iq) (Tab.get 0 subs n + 1) else t) subs
  sends.foldl (fun t q => if 512 ≤ q.1 then raiseTo t q.1 (q.2 + 1) else t) fed

/-- Arrivals and sends settle, since a send that waits for an arrival can set another's time. No chain of arrivals is longer than the 256 sub-streams and 512 input queues: none where strokes await each other in a ring. -/
def settleTimes (s : State) (p : Plan) (b : Body) : (fuel : Nat) → Tab Nat → Option (Tab Nat)
  | 0, _ => none
  | n + 1, arr =>
    let r := timeBody s p arr b
    let a := arrivals s p r.2
    if a = arr then some r.1 else settleTimes s p b n a

/-- The latest write of a body and the first test that fails: a slot past its LIMIT, or the step past its deadline. -/
def bodyTiming (s : State) (p : Plan) (i : Nat) (b : Body) : Option Spot × Nat :=
  match settleTimes s p b 770 [] with
  | none => (some (placeIn 1 i 0), 0)
  | some t =>
    let top := maxOf (t.map (·.2))
    let late := ((List.range b.slots.length).zip b.slots).map fun k => (decide (k.2.limit < Tab.get 0 t k.1), placeOf 1 i 0 k.1)
    (firstBad (late ++ [(decide (p.deadlineNs * 24 < (top + 25) * 10), placeIn 0xF i 0)]), top)

/-- Check 10: the plan with the latest write of each body, or the place of the failure. -/
def timePlan (s : State) (p : Plan) : Plan ⊕ Spot :=
  if p.stepNs < p.deadlineNs + 4000 then .inr (placeIn 0xF 0 0)
  else
    let rs := p.judged.map fun j => (j.1, bodyTiming s p j.1 j.2.1)
    match rs.findSome? fun r => r.2.1 with
    | some x => .inr x
    | none => .inl { p with bodies := ((List.range p.bodies.length).zip p.bodies).map fun b => { b.2 with latest := maxOf ((rs.filter fun r => decide (r.1 = b.1)).map fun r => r.2.2) } }

/-! ## Budgets, check 11 -/

/-- The larger of the budgets that the plan and CURRENT give a resource, R637. -/
def bigger (s : State) (p : Plan) (kind : Byte) (i : Nat) : Nat := max (planBudget (some p) kind i) (planBudget s.stn.cur kind i)

/-- Number of resources of a KIND, R174. -/
def kindSize (k : Byte) : Nat :=
  match k.toNat with | 1 => 512 | 2 => 256 | 3 => 256 | 4 => 16 | 5 => 16 | 6 => 32 | 7 => 16 | 8 => 1 | _ => 0

/-- R174 on record k: its KIND, its INDEX, and that no earlier record names the same resource. -/
def recordBad (p : Plan) (k : Nat) (b : Budget) : Bool :=
  decide (kindSize b.kind ≤ b.index) || ((p.budgets.take k).any fun x => decide (x.kind = b.kind) && decide (x.index = b.index))

/-- Bytes per ns of a bond at its full line rate: 16 to a v2 lane, 8 to a v1 lane. -/
def lineRate (s : State) (b : Nat) : Nat :=
  ((List.range 16).filter fun i => (s.bond b).ports.getLsbD i).foldl (fun r i => r + 8 * (if (Tab.get {} s.rnd.ports i).v1 then 8 else 16)) 0

/-- Bytes that a run of tiles moves to each stack, n bytes to a tile. -/
def addTiles (p : Plan) (n : Nat) (acc : Tab Nat) (r t m : Nat) : Tab Nat :=
  match p.regions[r]? with
  | none => acc
  | some g => (List.range (min m (g.tiles - t))).foldl (fun a i => match tileDha g.bufs g.pool (t + i) with
      | some d => Tab.put 0 a (stackOf d) (Tab.get 0 a (stackOf d) + n)
      | none => a) acc

/-- Units that the strokes of a body take from a sub-stream. -/
def unitsTaken (b : Body) (n : Nat) : Nat :=
  (b.strokes.flatMap (·.2)).foldl (fun k w => if wOp w = opSkdec ∧ wSa w = 0x500 + n then k + wCount w else k) 0

/-- Parity tiles that this device forms as a holder for the groups that a STORE writes in a mirrored region, R242: (parity region, first tile, tiles). -/
def parityRuns (p : Plan) (w : BitVec 128) : List (Nat × Nat × Nat) :=
  if wOp w = opStore then
    p.descs.flatMap fun d => if d.mirror then (d.mirrorRegions.zip d.parityRegions).filterMap fun x =>
      if x.1 = wRegion w ∧ x.1 ≠ 0xFF then some (x.2, wToff w / 7, ceilDiv (wToff w + wCount w) 7 - wToff w / 7) else none
    else []
  else []

/-- Bytes that catch-up writes move in a step to each stack, R234: one unit of the wire format for each region, spread as the area's tiles are. -/
def catchBytes (p : Plan) (i : Nat) (acc : Tab Nat) : Tab Nat :=
  p.descs.foldl (fun a d =>
    if d.topLevel = 7 ∧ Nat.testBit d.bodies i then
      match p.regions[d.catchup]? with
      | none => a
      | some g =>
        let len := if 12 ≤ d.wireFmt then skLen (BitVec.ofNat 4 d.wireFmt) else 4096
        let share := addTiles p 1 [] d.catchup 0 g.tiles
        share.foldl (fun a k => Tab.put 0 a k.1 (Tab.get 0 a k.1 + ceilDiv (d.fedUnits * d.m7 * len * k.2) g.tiles)) a
    else a) acc

/-- Bytes of a step of a body to each stack when the step writes bank b of its residuals, R337. -/
def stepBytes (p : Plan) (i : Nat) (body : Body) (bank : Nat) : Tab Nat :=
  let acc := (body.strokes.flatMap (·.2)).foldl (fun a w =>
    let a := if wOp w = opLoad ∨ wOp w = opStore then addTiles p 4096 a (wRegion w) (wToff w) (wCount w) else a
    (parityRuns p w).foldl (fun a x => addTiles p 4096 a x.1 x.2.1 x.2.2) a) []
  let acc := body.strokes.foldl (fun a l => (listPlaces p.skim l.1 0 {} l.2).foldl (fun a x =>
    let w := l.2.getD x.stroke 0
    let c := chanOf p.skim (wDst w % 256)
    addTiles p (if c.resFmt = 3 then 1056 else 4096) a x.region (x.tile + bank * x.bankTiles) x.number) a) acc
  let acc := (List.range 256).foldl (fun a n =>
    let x := subOf p.skim n
    let c := chanOf p.skim x.rchan
    if x.valid ∧ x.resid then addTiles p 1056 a c.region (c.tile0 + (1 - bank) * c.bankTiles) (unitsTaken body n) else a) acc
  catchBytes p i acc

/-- Bytes per ns that the bond areas in a stack's quadrant put on it: an eighth of each. -/
def areaRate8 (s : State) (p : Plan) (k : Nat) : Nat :=
  (List.range 16).foldl (fun r b =>
    if bondQuad s b = k / 8 then
      r + (if planBudget (some p) 4 b = 0 then 0 else lineRate s b) + (if planBudget (some p) 5 b = 0 then 0 else 2 * lineRate s b)
    else r) 0

/-- Whether a stack's declared traffic falls short of what Hawk computes, R337. -/
def stackShort (s : State) (p : Plan) (k : Nat) : Bool :=
  let need := maxOf (p.judged.flatMap fun j => [0, 1].map fun b => Tab.get 0 (stepBytes p j.1 j.2.1 b) k)
  decide (8 * planBudget (some p) 6 k * p.stepNs < 8 * need + areaRate8 s p k * p.stepNs)

/-- Tiles of input queues and bytes of output queues in a quadrant, R88 and R513. -/
def quadTiles (s : State) (p : Plan) (q : Nat) : Nat := (List.range 128).foldl (fun t i => t + bigger s p 1 (128 * q + i)) 0
def quadBytesQ (s : State) (p : Plan) (q : Nat) : Nat :=
  (List.range 256).foldl (fun t i => if (s.queue i).bind ≠ 0 ∧ queueQuad s i = q then t + bigger s p 2 i else t) 0

/-- R386 on a bond's skew budget. -/
def shareBad (s : State) (p : Plan) (b : Nat) : Bool :=
  let lanes := bondLanes s b
  let share := planBudget (some p) 5 b / (16384 * max 1 lanes.length)
  let period := if (List.range 16).any fun i => (s.bond b).ports.getLsbD i && (Tab.get {} s.rnd.ports i).v1 then 2048 else 1024
  decide (planBudget (some p) 5 b ≠ 0) && decide (share * period < maxOf (lanes.map fun g => (s.lane g).hold) + period)

/-- Units that a sub-stream delivers in a step of a body: those that SKDECs take, and of a lossless one those that ACCs take from its input queue or LOADs from its region. -/
def unitsIn (p : Plan) (body : Body) (n : Nat) : Nat :=
  let x := subOf p.skim n
  let counts := fun (l : List (BitVec 128)) (f : BitVec 128 → Bool) => (l.filter f).foldl (fun k w => k + wCount w) 0
  if !x.ll then unitsTaken body n
  else if x.kind = 1 then counts ((body.strokes.filter fun l => decide (l.1 = x.engine)).flatMap (·.2)) fun w => decide (wOp w = opAcc) && decide (wSa w = 0x400 + x.iq)
  else counts (body.strokes.flatMap (·.2)) fun w => decide (wOp w = opLoad) && decide (wRegion w = x.region) && decide (x.tile0 ≤ wToff w)

/-- Bytes that arrive from a bond in a step of a body, R150 and R270: its share of the units of every sub-stream that is steered from it, each unit at its largest LEN. -/
def bondBytes (p : Plan) (body : Body) (b : Nat) : Nat :=
  ((steers p.skim).filter fun x => decide (x.1 = b)).map (·.2.2) |>.eraseDups |>.foldl (fun t n =>
    let x := subOf p.skim n
    let sources := (((steers p.skim).filter fun y => decide (y.2.2 = n)).map (·.1)).eraseDups.length
    t + (16 + if x.ll then llMaxLen x.fmt else skLen x.fmt) * ceilDiv (unitsIn p body n) (max 1 sources)) 0

/-- Bytes that the strokes of a body send on a bond, each unit as a segment of R418 and each lossless one at its largest LEN, R150. -/
def sentBytes (s : State) (p : Plan) (body : Body) (b : Nat) : Nat :=
  let onBond := fun c => let q := s.queue (chanOf p.skim c).destQ; decide (q.bind = 1) && decide (q.bond = b)
  (body.strokes.flatMap (·.2)).foldl (fun t w =>
    let cs := if wOp w = opSkenc then [wDst w % 256] else (sendChans p w).filter fun c => decide ((chanOf p.skim c).fmt = wFmt w)
    (cs.filter onBond).foldl (fun t c =>
      let x := chanOf p.skim c
      t + wCount w * (4 + padded4 (16 + if x.ll then llMaxLen x.fmt else skLen x.fmt))) t) 0

/-- R150 on a bond: what a step sends on it and what it brings fit its full line rate. -/
def linkBad (s : State) (p : Plan) (b : Nat) : Bool :=
  p.judged.any fun j => decide (lineRate s b * p.stepNs < sentBytes s p j.2.1 b)
    || ((p.budgetBonds [7]).contains b && decide (lineRate s b * p.stepNs < bondBytes p j.2.1 b))

/-- R150 on a decoder: a sub-stream from which strokes take units, or which feeds an input queue or HBM, has a depth. -/
def decoderBad (p : Plan) (n : Nat) : Bool :=
  let x := subOf p.skim n
  x.valid && !x.resid && decide (planBudget (some p) 3 n = 0)
    && ((p.judged.any fun j => decide (0 < unitsTaken j.2.1 n)) || (x.ll && (steers p.skim).any fun y => decide (y.2.2 = n)))

/-- R270: a plan on a paired device that names a pair port, or whose far arrivals exceed 90% of the pair ports' capacity in a step. -/
def pairBad (s : State) (p : Plan) : Bool :=
  let ports := (List.range 16).filter fun i => s.se.ports.getLsbD i
  let named := (planBonds s p).any fun b => decide ((s.bond b).ports &&& s.se.ports ≠ 0)
  let most := maxOf (p.judged.map fun j => (p.budgetBonds [7]).foldl (fun t b => t + bondBytes p j.2.1 b) 0)
  decide (s.se.role ≠ 0) && (named || decide (ports.length * 8 * 16 * p.stepNs * 9 < most * 10))

/-- Strokes of an engine in all bodies of a plan. -/
def Plan.strokesOf (p : Plan) (e : Nat) : Nat := p.bodies.foldl (fun n b => n + b.count e) 0

/-- Check 11 of R176. -/
def budgetFault (s : State) (p : Plan) : Option Spot :=
  let recs := (List.range p.budgets.length).zip p.budgets
  let recOf := fun (k : Byte) (i : Nat) => match recs.find? fun r => decide (r.2.kind = k) && decide (r.2.index = i) with
    | some r => placeOf 8 0 0 r.1
    | none => placeIn 8 0 0
  let both := fun e => p.strokesOf e + (match s.stn.cur with | some c => c.strokesOf e | none => 0)
  firstBad (recs.map (fun r => (recordBad p r.1 r.2 || (decide (r.2.kind = 6) && decide (737 < r.2.value)), placeOf 8 0 0 r.1))
    ++ (List.range 4).map (fun q => (decide (4096 < quadTiles s p q) || decide (15728640 < 4096 * quadTiles s p q + quadBytesQ s p q), placeIn 8 0 0))
    ++ (List.range 32).map (fun k => (stackShort s p k, recOf 6 k))
    ++ (List.range 16).map (fun b => (shareBad s p b, recOf 5 b))
    ++ (List.range 16).map (fun b => (linkBad s p b, placeIn 8 0 0))
    ++ (List.range 256).map (fun n => (decoderBad p n, placeIn 8 0 0))
    ++ [(pairBad s p, placeIn 8 0 0)]
    ++ (List.range 64).map (fun e => (decide (32768 < both e), ⟨placeWord 3 0 e 0, 0x0E00FFFF⟩)))

/-! ## The launch window, R181 and R183 -/

/-- Whether the start of CURRENT's last step has come. -/
def lastStarted (s : State) (c : Plan) : Bool :=
  decide (s.stn.place = .running) && !s.stn.launching && decide (c.steps ≤ (s.stn.step - c.step0).toNat + 1)

/-- Check 12 for a launch time. -/
def windowOk (s : State) (t : PCount) : Bool := decide (1000000 ≤ signedDiff t s.count) && decide (signedDiff t s.count ≤ 2 ^ 46)

def windowBad (s : State) (p : Plan) : Bool :=
  if p.seamLaunch then (match s.stn.cur with | some c => lastStarted s c | none => true) else !windowOk s p.launchNs

/-! ## R176: the twelve checks -/

/-- TOP_READY bits that a plan needs, check 6. -/
def planReady (s : State) : Bool := [rdyPlb, rdyLth, rdySkm, rdySlr, rdySch, rdyClc].all fun i => s.top.ready.getLsbD i

/-- Check 1: the place is free. -/
def placeFree (s : State) (seam : Bool) : Bool :=
  decide (s.stn.place = .none) || (seam && (decide (s.stn.place = .armed) || decide (s.stn.place = .running)) && s.stn.next.isNone)

/-- Check 4. -/
def targetBad (s : State) (bs : List Byte) (p : Plan) : Bool :=
  decide (imgPart bs ≠ 0x9640) || decide (imgStepping bs ≠ 0xB1) || (match s.stn.cur with | some c => decide (c.job ≠ p.job) || decide (c.rank ≠ p.rank) | none => false)

/-- Check 3, R446: the signature over the signed part, with ALG 1, checks under the plan key of the owner store that KEY_ID names. -/
def signatureBad (s : State) (bs : List Byte) : Bool :=
  let keys := match s.slr.store with | some o => o.planKeys.filter fun k => decide (keyIdOf k = imgKeyId bs) | none => []
  decide (imgAlg bs ≠ 1) || !keys.any fun k => signatureOk k (sha256 (bs.take (imgLen bs))) (imgSignature bs)

/-- Checks 6 to 8 on a plan. -/
def checksToInherit (s : State) (p : Plan) : Option Refused :=
  if !planReady s || (planNotReady s p).isSome then some ⟨arNotReady, placeOpen⟩
  else orElse_ ((ruleFault s p).map fun x => ⟨arRule, x⟩)
    (failAt arInherit (((List.range p.regions.length).zip p.regions).map fun r => (inheritBad s r.2, placeOf 7 0 0 r.1)))

/-- Checks 6 to 12: the plan with its grants, or the failure. -/
def checksFrom6 (s : State) (p : Plan) : (Plan × State) ⊕ Refused :=
  match checksToInherit s p with
  | some r => .inr r
  | none => match grantPlan s p with
    | .inr x => .inr ⟨arNoBuffers, x⟩
    | .inl (p, s') => match timePlan s' p with
      | .inr x => .inr ⟨arTiming, x⟩
      | .inl p => match budgetFault s' p with
        | some x => .inr ⟨arBudget, x⟩
        | none => if windowBad s' p then .inr ⟨arWindow, headerPlace⟩ else .inl (p, s')

/-- All the checks of R176 on the staged image. -/
def admitChecks (s : State) (bs : List Byte) (len : Nat) : (Plan × State) ⊕ Refused :=
  if !placeFree s (imgSeam bs) then .inr ⟨arSlotBusy, placeOpen⟩
  else match formatFault bs len with
    | some x => .inr ⟨arFormat, x⟩
    | none =>
      let p := parsePlan bs
      if signatureBad s bs then .inr ⟨arSignature, headerPlace⟩
      else if targetBad s bs p then .inr ⟨arTarget, headerPlace⟩
      else if s.top.asig = some p.asig then checksFrom6 s p
      else if p.mayFallBack then checksFrom6 s p.fallenBack
      else .inr ⟨arAsig, headerPlace⟩

/-! ## Success and failure, R179 and R637 -/

/-- Engines that the plan uses go from IDLE to ARMED, R110; arming sets their IDXB to 0, R96, and leaves no record of another step in ENG_NF, R114. -/
def armEngines (s : State) (p : Plan) : State :=
  (List.range 64).foldl (fun s e =>
    if p.engines.getLsbD e ∧ (s.eng e).st = .idle then setEngSt (s.setEng e { s.eng e with idxb := 0, nf := none, nfStroke := 0 }) e .armed else s) s

/-- The break entry of R265. -/
def breakEntry (s : State) (p : Plan) : State :=
  if p.isBreak then
    journal s 0x0C deviceId (leBytes 8 p.planId.toNat ++ leBytes 2 p.rank.toNat ++ leBytes 4 p.asig.toNat ++ leBytes 4 (topAsig s).toNat ++ leBytes 4 p.step0.toNat)
  else s

/-- An admitted plan takes its place: CURRENT, armed for its launch time, or NEXT. -/
def placePlan (s : State) (p : Plan) : State :=
  let p := withImages s p
  let s := breakEntry s p
  if s.stn.place = .none then
    let s := seForget (fun _ => true) s
    let s := { s with stn := { s.stn with cur := some p, place := .armed, haltCause := 0, launchAt := p.launchNs, launchStep := p.step0, begunTo := none, patched := patchesFor p p.step0 }, skm := { s.skm with tables := p.skim } }
    bindSpare (armTrig (armEngines (claimHeld s p) p) 0 p.launchNs)
  else armEngines { s with stn := { s.stn with next := some p }, skm := { s.skm with nextTables := p.skim } } p

/-- The result of an admission is written, and the place of a failure, R176. -/
def admitResult (s : State) (code : Byte) (place : Option Spot) : State :=
  match place with
  | some x => { s with stn := { s.stn with admitResult := code, admitWhere := x.word ||| (BitVec.ofNat 32 (freeNat s) &&& x.free) }, fresh := s.fresh + 1 }
  | none => { s with stn := { s.stn with admitResult := code } }

/-- The response to PLAN_ADMIT, R547. -/
def admitAnswer (s : State) (r : MboxRec) : State :=
  respond s r 0x0030 stOk ([s.stn.admitResult, 0, 0, 0] ++ beBytes 4 s.stn.admitWhere.toNat)

/-- PLAN_ADMIT_DONE: the admission completes, R176. Its grants take their turn in Lath's queue, R341: while commands wait there the admission goes on. -/
def planAdmitDone (s : State) : State :=
  match s.stn.admitting with
  | none => s
  | some a =>
    let s := { s with stn := { s.stn with admitting := none } }
    match admitChecks s (Mem.read s.hwk.area1 0 a.len) a.len with
    | .inr f => admitAnswer (admitResult s f.code (some f.place)) a.req
    | .inl (p, t) =>
      if !s.lth.queue.isEmpty then { s with stn := { s.stn with admitting := some a } }
      else admitAnswer (admitResult (placePlan t p) (if p.isBreak then arEager else arAdmitted) none) a.req

def execPlanAdmitDone (s : State) : Host.Outcome State Fault Refusal := act s (planAdmitDone s)

/-! ## The plan commands, R194, R543, R547 and R551 -/

/-- PLAN_ADMIT: NOT_OWNER, MBOX_BUSY and BAD_OBJECT come before the checks of R176; in HCS 2 only images with VERSION 2. -/
def planAdmit (s : State) (r : MboxRec) (len crc : BitVec 32) : State :=
  mboxCmd s r (needs 0x0030 true true [rdyStn]) (beBytes 4 len.toNat ++ beBytes 4 crc.toNat) fun s =>
    if s.stn.admitting.isSome then respond s r 0x0030 stMboxBusy []
    else if s.hwk.stage1 ≠ some r.session then respond s r 0x0030 stNotOwner []
    else if 67109376 < len.toNat then respond s r 0x0030 stBadObject [0, 0, 0, 0]
    else
      let bs := Mem.read s.hwk.area1 0 len.toNat
      if crc32c bs ≠ crc then respond s r 0x0030 stBadObject (beBytes 4 (crc32c bs).toNat)
      else if r.hcs = 2 ∧ leAt bs 4 2 ≠ 2 then badArg s r 0x0030 0
      else { s with stn := { s.stn with admitting := some ⟨r, len.toNat, crc⟩ } }

def execPlanAdmit (r : MboxRec) (len crc : BitVec 32) (s : State) : Host.Outcome State Fault Refusal := act s (planAdmit s r len crc)

/-- REFUSED with STN_STATUS.CUR, R194. -/
def placeCode : Place → Byte
  | .none => 0 | .armed => 1 | .running => 2 | .halted => 3

/-- A relaunch of CURRENT from STN_HALT_STEP at a new launch time: checks 6 and 12 only, R194. -/
def relaunch (s : State) (p : Plan) (t : PCount) : State :=
  if !planReady s || (planNotReady s p).isSome then { s with stn := { s.stn with admitResult := arNotReady } }
  else if !windowOk s t then { s with stn := { s.stn with admitResult := arWindow } }
  else
    let s := forgetFrom (readyEngines (armEngines s p) p) s.stn.haltStep
    let s := seForget (fun n => !beforeStep s n s.stn.haltStep) s
    let s := { s with stn := { s.stn with place := .armed, haltCause := 0, launchAt := t, launchStep := s.stn.haltStep, admitResult := arAdmitted, patched := patchesFor p s.stn.haltStep } }
    armTrig s 0 t

/-- PLAN_RELAUNCH. -/
def planRelaunch (s : State) (r : MboxRec) (t : BitVec 64) : State :=
  mboxCmd s r (needs 0x0031 true false [rdyStn]) (beBytes 8 t.toNat) fun s =>
    match s.stn.cur with
    | some p =>
      if s.stn.place = .halted then
        if 2 ^ 48 ≤ t.toNat then badArg s r 0x0031 0
        else let s := relaunch s p (t.setWidth 48); respond s r 0x0031 stOk [s.stn.admitResult]
      else respond s r 0x0031 stRefused [placeCode s.stn.place]
    | none => respond s r 0x0031 stRefused [placeCode s.stn.place]

def execPlanRelaunch (r : MboxRec) (launchNs : BitVec 64) (s : State) : Host.Outcome State Fault Refusal := act s (planRelaunch s r launchNs)

/-- A discard of CURRENT, R194 and R349: NEXT goes with it, and non-PERSIST regions return to Lath, after a halt with cause 1 or 2 by PROXY_FREE. -/
def discardCurrent (s : State) (p : Plan) : State :=
  let dead := decide (s.stn.place = .halted) && (decide (s.stn.haltCause = 1) || decide (s.stn.haltCause = 2))
  let s := dropNext s true
  if dead then
    (p.regions.filter fun g => !g.persist).foldl (fun s g => proxyFree s (regionOwner g.name)) (leavePlan (keepRegions s p none) p)
  else endToNone s p

/-- PLAN_DISCARD. -/
def planDiscard (s : State) (r : MboxRec) (which : BitVec 8) : State :=
  mboxCmd s r (needs 0x0032 true true [rdyStn]) [which] fun s =>
    if which = 1 then respond (discardNext s) r 0x0032 stOk []
    else if which ≠ 0 then badArg s r 0x0032 0
    else match s.stn.cur with
      | some p =>
        if s.stn.place = .armed ∨ s.stn.place = .halted then respond (discardCurrent s p) r 0x0032 stOk []
        else respond s r 0x0032 stRefused [placeCode s.stn.place]
      | none => respond s r 0x0032 stRefused [placeCode s.stn.place]

def execPlanDiscard (r : MboxRec) (which : BitVec 8) (s : State) : Host.Outcome State Fault Refusal := act s (planDiscard s r which)

/-- PLAN_HALT is STN_CTRL.HALT_AT_SEAM. -/
def planHalt (s : State) (r : MboxRec) : State :=
  mboxCmd s r (needs 0x0033 true false [rdyStn]) [] fun s => respond (haltAtSeam s) r 0x0033 stOk []

def execPlanHalt (r : MboxRec) (s : State) : Host.Outcome State Fault Refusal := act s (planHalt s r)

/-- COLL_ABORT: its response is sent when CLC_ABORT_RESULT leaves PENDING; while it is PENDING a second one is refused with it, R228. -/
def collAbort (s : State) (r : MboxRec) (coll : BitVec 8) (step : BitVec 32) : State :=
  mboxCmd s r (needs 0x0041 true false [rdyClc]) ([coll, 0, 0, 0] ++ beBytes 4 step.toNat) fun s =>
    if 64 ≤ coll.toNat then badArg s r 0x0041 0
    else if s.clc.abortResult = 0 then respond s r 0x0041 stRefused [0]
    else clcAbort { s with clc := { s.clc with abortStep := step, collSel := coll.setWidth 6 } } coll.toNat step (some r)

def execCollAbort (r : MboxRec) (coll : BitVec 8) (step : BitVec 32) (s : State) : Host.Outcome State Fault Refusal := act s (collAbort s r coll step)

end Sys2Proof.Machine
end

