-- ==== Sys2Proof/Machine/Security.lean ====
section
/-! DEFINITION. Sealer's commands of the host, chapter 12: key loads, attestation, the owner store, the strip challenge and strip unlock. -/

namespace Sys2Proof.Machine

/-- REFUSED with a code of the owning block that the manual does not give. -/
def refuseFree (s : State) (r : MboxRec) (op : BitVec 16) : State :=
  respond { s with fresh := s.fresh + 1 } r op stRefused [BitVec.ofNat 8 (freeNat s)]

def deviceIdBytes : List Byte := leBytes 16 Config.deviceId.toNat

/-! ## KEY_LOAD, R451 and R452 -/

/-- The result of R452 for a decrypted blob, the first condition in the order of the table; on OK the bond, direction and slot. -/
def keyLoadResult (s : State) (operate : Bool) (plain : Option (List Byte)) : Byte × Nat × Bool × Nat :=
  match plain with
  | none => (1, 0, false, 0)
  | some p =>
    let b := leAt p 8 1
    let rx := decide (leAt p 9 1 = 1)
    let id := BitVec.ofNat 64 (leAt p 0 8)
    let x := s.sbond b
    let slot := fun e => if rx then x.rx e else x.tx e
    let empty := [0, 1].find? fun e => decide ((slot e).st = 0)
    if p.length ≠ 64 ∨ id = 0 ∨ 16 ≤ b ∨ 2 ≤ leAt p 9 1 ∨ !allZero (slice p 10 2) then (1, 0, false, 0)
    else if slice p 48 16 ≠ deviceIdBytes then (2, 0, false, 0)
    else match empty with
      | none => (3, 0, false, 0)
      | some e =>
        if !(s.bond b).en then (4, 0, false, 0)
        else if !operate then (5, 0, false, 0)
        else if s.slr.strip ≠ 0 then (6, 0, false, 0)
        else if [0, 1].any fun e => decide ((slot e).st ≠ 0) && decide ((slot e).id = id) then (7, 0, false, 0)
        else (0, b, rx, e)

/-- The key goes into its slot, which becomes LOADED. -/
def placeKey (s : State) (p : List Byte) (b : Nat) (rx : Bool) (e : Nat) : State :=
  let k : KeySlot := { st := 1, id := BitVec.ofNat 64 (leAt p 0 8), salt := slice p 12 4, key := slice p 16 32 }
  keyChange s b (if rx then (s.sbond b).setRx e k else (s.sbond b).setTx e k)

/-- The label of key delivery, R451. -/
def labelKey : List Byte := exLabel [0x4B, 0x45, 0x59]

/-- What OAEP decryption under KTK gives of a blob, none where it fails. -/
def openBlob (s : State) (blob : List Byte) : Option (List Byte) := match s.slr.ktk with | some k => oaepOpen k.record k.secret labelKey blob | none => none

/-- A load of a key: counted whatever its result. -/
def keyLoadDo (s : State) (r : MboxRec) (plain : Option (List Byte)) : State :=
  let operate := match recSession s r with | some (_, x) => decide (x.level = 2) | none => false
  let (code, b, rx, e) := keyLoadResult s operate plain
  let s := { s with slr := { s.slr with keyLoads := bump s.slr.keyLoads 1 } }
  if code = 0 then respond (placeKey s (plain.getD []) b rx e) r 0x0051 stOk [0]
  else respond (slrErr s 1) r 0x0051 stRefused [code]

/-- KEY_LOAD. -/
def keyLoad (s : State) (r : MboxRec) (off crc : BitVec 32) : State :=
  mboxCmd s r (needs 0x0051 true true [rdySlr]) (beBytes 4 off.toNat ++ beBytes 4 crc.toNat) fun s =>
    withObject s r 0x0051 off.toNat 384 crc fun s blob => keyLoadDo s r (openBlob s blob)
def execKeyLoad (r : MboxRec) (offset crc : BitVec 32) (s : State) : Host.Outcome State Fault Refusal :=
  act s (keyLoad s r offset crc)

/-! ## ATTEST, R460 -/

def fwSvnNow (s : State) : BitVec 8 := s.hwk.fwSvn.getD Config.fwSvn
def fwVersionNow (s : State) : BitVec 32 := s.hwk.fwVersion.getD Config.fwVersion
def fwArithNow (s : State) : BitVec 32 := s.hwk.fwArith.getD Config.fwArith
def minSvnNow (s : State) : BitVec 8 := s.slr.minSvn.getD Config.minSvn

def planIdOf (p : Option Plan) : Nat := match p with | some p => p.planId.toNat | none => 0
def planBreak (p : Option Plan) : Bool := match p with | some p => p.isBreak | none => false

/-- Bytes 0 to 255 of the report. -/
def reportBytes (s : State) (nonce : List Byte) : List Byte :=
  let flags := b2n s.slr.ownerHash.isSome + 2 * b2n (planBreak s.stn.cur) + 4 * b2n (planBreak s.stn.next)
  ([0x45, 0x58, 0x41, 0x54] : List Byte) ++ leBytes 2 1 ++ leBytes 2 0x9640 ++ [0xB1, BitVec.ofNat 8 flags, 0, 0] ++ leBytes 4 (topAsig s).toNat
    ++ deviceIdBytes ++ padTo 0 32 nonce ++ padTo 0 32 s.hwk.fwDigest ++ leBytes 4 (fwSvnNow s).toNat ++ leBytes 4 (fwArithNow s).toNat
    ++ leBytes 4 Config.primerVersion.toNat ++ leBytes 4 (minSvnNow s).toNat ++ padTo 0 32 (s.slr.ownerHash.getD [])
    ++ leBytes 4 (match s.slr.store with | some o => o.version.toNat | none => 0) ++ leBytes 4 0
    ++ leBytes 8 (planIdOf s.stn.cur) ++ leBytes 8 (planIdOf s.stn.next)
    ++ padTo 0 32 (match s.stn.cur with | some p => p.imageDigest | none => []) ++ leBytes 8 s.count.toNat ++ List.replicate 48 0

/-- ATTEST: the signed report goes to offset 0 of the session area. -/
def attest (s : State) (r : MboxRec) (nonce : List Byte) : State :=
  let n := padTo 0 32 nonce
  mboxCmd s r (needs 0x0050 false false [rdySlr]) n fun s =>
    let body := reportBytes s n
    let (sig, s) := signIdk s body
    let rep := body ++ padTo 0 384 sig
    respond (putArea3 s r rep) r 0x0050 stOk (beBytes 4 640 ++ beBytes 4 (crc32c rep).toNat)
def execAttest (r : MboxRec) (nonce : List Byte) (s : State) : Host.Outcome State Fault Refusal := act s (attest s r nonce)

/-! ## OWNER_UPLOAD, R443 and R444 -/

/-- Whether the fields of an owner store hold what R444 allows. -/
def ownerForm (b : List Byte) : Bool :=
  decide (slice b 0 4 = [0x45, 0x58, 0x4F, 0x57]) && decide (0 < leAt b 4 4) && allZero (slice b 24 8) && decide (leAt b 32 1 ≤ 8) && decide (leAt b 33 1 ≤ 8)
    && decide (leAt b 34 1 ≤ 1) && allZero (slice b 35 1) && decide (100000 ≤ leAt b 36 4) && allZero (slice b 3448 8) && allZero (slice b 3844 4)

/-- Hash of the OWNER_ROOT of an owner store. -/
def ownerRootHash (b : List Byte) : List Byte := sha256 (slice b 3456 388)

/-- The acceptance of R444; the signature checks under the store's own OWNER_ROOT. -/
def ownerAccepted (s : State) (b : List Byte) : Bool :=
  let held := match s.slr.store with | some o => o.version.toNat | none => 0
  ownerForm b && signatureOk (slice b 3456 388) (sha256 (b.take 3848)) (slice b 3848 384) && (match s.slr.ownerHash with | some h => decide (h = ownerRootHash b) | none => true)
    && (allZero (slice b 8 16) || decide (slice b 8 16 = deviceIdBytes)) && decide (held < leAt b 4 4)

def parseStore (b : List Byte) : OwnerStore :=
  { version := BitVec.ofNat 32 (leAt b 4 4), planKeys := (List.range (leAt b 32 1)).map fun i => slice b (344 + 388 * i) 388,
    sessHash := (List.range (leAt b 33 1)).map fun i => slice b (88 + 32 * i) 32, pw := decide (leAt b 34 1 = 1), bytes := b }

/-- OWNER_UPLOAD: the first store that an unclaimed device accepts claims it; the opening on an unclaimed device serves for that one upload, R462. -/
def ownerUpload (s : State) (r : MboxRec) (off crc : BitVec 32) : State :=
  mboxCmd s r (needs 0x0052 true false [rdySlr]) (beBytes 4 off.toNat ++ beBytes 4 crc.toNat) fun s =>
    withObject s r 0x0052 off.toNat 4232 crc fun s b =>
      let spent := match recSession s r with | some (_, x) => x.claiming && s.slr.ownerHash.isSome | none => false
      if spent then respond s r 0x0052 stNotPermitted []
      else if ownerAccepted s b then
        let s := { s with slr := { s.slr with store := some (parseStore b), ownerHash := some (s.slr.ownerHash.getD (ownerRootHash b)) } }
        respond s r 0x0052 stOk (beBytes 4 (leAt b 4 4))
      else refuseFree s r 0x0052
def execOwnerUpload (r : MboxRec) (offset crc : BitVec 32) (s : State) : Host.Outcome State Fault Refusal :=
  act s (ownerUpload s r offset crc)

/-! ## Strip unlock, R467 to R469 -/

/-- STRIP_CHALLENGE: a new challenge takes the place of the one before. -/
def stripChallenge (s : State) (r : MboxRec) : State :=
  mboxCmd s r (needs 0x0053 true false [rdySlr]) [] fun s =>
    let (c, s) := draw s 32
    respond { s with slr := { s.slr with challenge := some c } } r 0x0053 stOk c
def execStripChallenge (r : MboxRec) (s : State) : Host.Outcome State Fault Refusal := act s (stripChallenge s r)

/-- STRIP_CHALLENGE_EXPIRE: 300 s have passed. -/
def stripChallengeExpire (s : State) : State := { s with slr := { s.slr with challenge := none } }
def execStripChallengeExpire (s : State) : Host.Outcome State Fault Refusal := act s (stripChallengeExpire s)

/-- The owner root's key record, as the owner store held has it. -/
def ownerRoot (s : State) : List Byte := match s.slr.store with | some o => slice o.bytes 3456 388 | none => []

/-- Whether a token of R467 passes: its fields, and its signature by the owner root key. -/
def tokenOk (s : State) (b : List Byte) : Bool :=
  signatureOk (ownerRoot s) (sha256 (b.take 64)) (slice b 64 384) && decide (slice b 0 4 = [0x45, 0x58, 0x53, 0x54]) && allZero (slice b 4 4) && decide (slice b 8 16 = deviceIdBytes)
    && (match s.slr.challenge with | some c => decide (slice b 24 32 = c) | none => false) && allZero (slice b 56 8)

/-- Every session closes. -/
def closeAll (s : State) : State := (List.range 8).foldl (fun s i => closeSession s i false) s

/-- Every key slot of a bond is erased. -/
def eraseKeys (s : State) (b : Nat) : State :=
  keyChange s b { s.sbond b with tx0 := {}, tx1 := {}, rx0 := {}, rx1 := {}, switchTo := none }

/-- An engine enters SCRUBBING, R118: what it has in flight goes, and its contents are undefined. -/
def scrubEngine (s : State) (e : Nat) : State :=
  let s := cancelEngine s e
  setEngSt (s.setEng e { s.eng e with undef := true }) e .scrubbing

/-- A stack is initialised again under a new key pair. -/
def reinitStack (s : State) (k : Nat) : State :=
  let x := s.stack k
  if x.st = 3 ∨ x.st = 0 then s else setHbmReady (s.setStack k { x with st := 1 }) k false

/-- Steps 3 to 6 of R468. -/
def stripErase (s : State) : State :=
  let s := (List.range 16).foldl eraseKeys s
  let s := closeAll s
  let s := (List.range 32).foldl reinitStack s
  let s := { s with lth := { s.lth with owners := [] }, stn := { s.stn with held := [] } }
  let s := (List.range 64).foldl scrubEngine s
  let s := (List.range 4).foldl (fun s q => if s.slr.xts.getLsbD q then drawXts s q else s) s
  { s with slr := { s.slr with idk := none, ktk := none, gateClosed := true } }

/-- STRIP. -/
def strip (s : State) (r : MboxRec) (off crc : BitVec 32) : State :=
  mboxCmd s r (needs 0x0054 true false [rdySlr]) (beBytes 4 off.toNat ++ beBytes 4 crc.toNat) fun s =>
    withObject s r 0x0054 off.toNat 448 crc fun s b =>
      if !tokenOk s b ∨ s.slr.ownerHash.isNone ∨ s.stn.place ≠ .none ∨ s.stn.next.isSome ∨ s.slr.strip ≠ 0 then refuseFree s r 0x0054
      else
        let s := slrReady (slrErr { s with slr := { s.slr with strip := 1, challenge := none } } 0)
        let s := journal s 0x0D deviceId (slice b 24 32)
        stripEnd (stripErase (respond s r 0x0054 stOk []))
def execStrip (r : MboxRec) (offset crc : BitVec 32) (s : State) : Host.Outcome State Fault Refusal :=
  act s (strip s r offset crc)

end Sys2Proof.Machine
end

