-- ==== Sys2Proof/Machine/Snag.lean ====
section
/-! DEFINITION. The Snag ledger, chapter 16: LIFE_S, writing to flash, scores and recommendations, LEDGER_READ and FM_ACTION; and ENG_CTRL, whose OFFLINE the ledger records. -/

namespace Sys2Proof.Machine

/-! ## Parts, R562 -/

/-- Parts of each kind. -/
def partKinds : List (Nat × Nat) := [(0, 4), (1, 64), (2, 32), (3, 128), (4, 256), (5, 256), (6, 288), (7, 1)]

/-- Every PART_ID in increasing order. -/
def allParts : List Nat := partKinds.flatMap fun k => (List.range k.2).map fun i => 4096 * k.1 + i

def partExists (p : Nat) : Bool := partKinds.any fun k => decide (p / 4096 = k.1) && decide (p % 4096 < k.2)

/-- The DFB of a laser's PART_ID: its photonic engine and colour; none for a spare laser. -/
def dfbOf (p : Nat) : Option (Nat × Nat) := if p / 4096 = 6 ∧ p % 4096 % 36 < 32 then some (p % 4096 / 36, p % 4096 % 36) else none

/-- End-of-life bias of a laser part. -/
def partEol (p : Nat) : Nat := (Config.laserEol (p % 4096 / 36) (p % 4096 % 36)).toNat

/-! ## Records and entries as bytes, R564 and R567 -/

/-- A record of R564; spare bits of FLAGS are 0. -/
def recordOf (s : State) (p : Nat) : List Byte :=
  let x := s.part p
  let body := leBytes 2 p ++ [x.st, x.score] ++ leBytes 4 (x.inService s.sng.lifeS / 3600) ++ leBytes 8 x.corr.toNat ++ leBytes 8 x.uncorr.toNat ++ leBytes 4 x.retry.toNat
    ++ leBytes 4 x.retrain.toNat ++ leBytes 4 x.defect.toNat ++ leBytes 2 x.margin.toNat ++ leBytes 2 x.marginWorst.toNat
    ++ [x.tempMax, BitVec.ofNat 8 (b2n x.damaged + 2 * b2n x.saturated + 4 * b2n x.recommended), x.cause, 0] ++ leBytes 4 x.changedS.toNat ++ leBytes 8 x.lastSeq.toNat ++ leBytes 4 x.recoCount.toNat
  body ++ leBytes 4 (crc32c body).toNat

/-- An entry of R567. -/
def entryBytes (e : JEntry) : List Byte :=
  let body := leBytes 8 e.seq.toNat ++ leBytes 4 e.lifeS.toNat ++ leBytes 6 e.count.toNat ++ [e.plbState, e.type] ++ leBytes 2 e.part.toNat ++ [0, 0] ++ e.body
  body ++ leBytes 4 (crc32c body).toNat

/-! ## Time and flash, R563 and R568 -/

/-- A new hour of LIFE_S begins for the counts of R570. -/
def Summary.newHour (x : Summary) : Summary := { x with hours := if x.hours.isEmpty then [] else ((0, 0, 0) :: x.hours).take 24, hourMax := 0 }

def newHour (s : State) : State := s.sng.parts.foldl (fun s p => s.setPart p.1 (s.part p.1).newHour) s

/-- LIFE_S_TICK: a second of powered time passes, also for a lockout, R465. -/
def lifeTick (s : State) : State :=
  if !s.hwk.running then s
  else
    let s := { s with sng := { s.sng with lifeS := s.sng.lifeS + 1 }, slr := { s.slr with lockout := if s.slr.lockout = 0 then 0 else s.slr.lockout - 1 } }
    if s.sng.lifeS.toNat % 3600 = 0 then newHour s else s
def execLifeSTick (s : State) : Host.Outcome State Fault Refusal := act s (lifeTick s)

/-- The oldest 4,096 entries are erased together when the journal needs room, R568. -/
def trimJournal (l : List JEntry) : List JEntry := if 3674112 < l.length then l.drop 4096 else l

/-- The pending buffer goes to the journal; a write that fails its read-back stays pending for the next block, R569. -/
def flushJournal (s : State) (ok : Bool) : State :=
  if s.sng.pend.isEmpty then s
  else if ok then { s with sng := { s.sng with journal := trimJournal (s.sng.journal ++ s.sng.pend), pend := [] } }
  else sngErr s 6

/-- Hawk may write the journal: while the supply warns, only to end the flush of R568 that still runs. -/
def mayFlush (s : State) : Bool := s.hwk.running && (!s.pwr.supplyWarn || s.sng.flushing)

/-- A write of the journal that Hawk makes; it ends a flush that ran late. -/
def writeJournal (s : State) (ok : Bool) : State :=
  if mayFlush s then let s := flushJournal s ok; { s with sng := { s.sng with flushing := false } } else s

/-- JOURNAL_FLUSH. -/
def journalFlush (s : State) (ok : Bool) : State := writeJournal s ok
def execJournalFlush (readBackOk : Bool) (s : State) : Host.Outcome State Fault Refusal := act s (journalFlush s readBackOk)

/-- SUMMARY_WRITE. -/
def summaryWrite (s : State) (ok : Bool) : State :=
  if !s.hwk.running || s.pwr.supplyWarn || s.sng.flushing then s
  else if ok then { s with sng := { s.sng with saved := s.sng.parts, savedS := s.sng.lifeS } }
  else sngErr s 6
def execSummaryWrite (readBackOk : Bool) (s : State) : Host.Outcome State Fault Refusal := act s (summaryWrite s readBackOk)

/-- SNG_CTRL.FLUSH, R593. -/
def sngFlush (s : State) (ok : Bool) : State := writeJournal s ok
def execFlush (readBackOk : Bool) (s : State) : Host.Outcome State Fault Refusal := act s (sngFlush s readBackOk)

/-- SNG CLR_COUNTS, R593. -/
def sngClrCounts (s : State) : State := { s with sng := { s.sng with recoCount := 0, softCount := 0, hardCount := 0, refusedCount := 0 } }
def execSngClrCounts (s : State) : Host.Outcome State Fault Refusal := act s (sngClrCounts s)

/-! ## Scores and recommendations, R565, R570 and R571 -/

/-- WARN and FLOOR of a part, R565. -/
def marginLimits (p : Nat) : Option (Int × Int) :=
  match p / 4096 with
  | 0 => some (20, 5) | 2 => some (12, 4) | 3 => some (6, 2) | 4 => some (20, 0) | 5 => some (40, 5)
  | 6 => some ((partEol p / 5 : Nat), (partEol p / 10 : Nat)) | _ => none

/-- CORR_SHIFT of a part. -/
def corrShift (p : Nat) : Option Nat := match p / 4096 with | 1 => some 4 | 2 => some 10 | 3 => some 20 | 4 => some 20 | 7 => some 20 | _ => none

/-- Penalty for the margin. -/
def marginPenalty (p : Nat) (m : Int) : Nat :=
  match marginLimits p with
  | none => 0
  | some (warn, floor) => if warn ≤ m then 0 else if m ≤ floor then 96 else ((warn - m) * 96 / (warn - floor)).toNat

/-- `score` of R570 over the ledger's own counts. -/
def Summary.scoreOf (x : Summary) (p : Nat) : Nat :=
  let sum := fun f : Nat × Nat × Nat → Nat => x.hours.foldl (fun n h => n + f h) 0
  let corr := sum (·.1)
  let pen := min 128 (32 * sum (·.2.1))
  let pen := match corrShift p with
    | some k => if corr = 0 then pen else pen + min 64 (8 * (msbIndex corr + 1 - k))
    | none => pen
  let pen := pen + min 64 (16 * sum (·.2.2))
  let pen := if x.margin = 0x7FFF then pen else pen + marginPenalty p x.margin.toInt
  255 - pen

/-- Score of a part: 0 in STATE 3 and 4 and for a laser at STAGE 3. -/
def partScore (s : State) (p : Nat) : Nat :=
  let x := s.part p
  let spent : Bool := match dfbOf p with | some (n, c) => decide ((s.col n c).stage = 3) | none => false
  if decide (x.st = 3) || decide (x.st = 4) || spent then 0 else x.scoreOf p

/-- Lane and bond of a far-lane part, when the bond is enabled: the bond and the position of the lane in it. -/
def laneBond (s : State) (g : Nat) : Option (Nat × Nat) :=
  (List.range 16).findSome? fun b =>
    if (s.bond b).en then ((bondLanes s b).findIdx? fun x => x = g).map fun i => (b, i) else none

/-- The spare floor of R574 refuses the part's retirement. -/
def floorHolds (s : State) (p : Nat) : Bool :=
  if p / 4096 = 3 then match laneBond s (p % 4096) with
    | some (b, _) => decide (lanesLeft s b - 1 < (s.bond b).minLanes.toNat)
    | none => false
  else match dfbOf p with
    | some (n, c) => decide ((s.spare n (c / 8)).st ≠ .idle)
    | none => false

/-- A cap of R575 refuses it. -/
def capHolds (s : State) (p : Nat) : Bool :=
  if p / 4096 = 3 then decide (4 ≤ portRetirements s (p % 4096 / 8))
  else match dfbOf p with
    | some (n, _) => decide (2 ≤ laserRetirements s n)
    | none => false

/-- Whether a part is to be recommended at an evaluation, R571. -/
def recommends (s : State) (p score : Nat) : Bool :=
  let x := s.part p
  let due := decide (score < s.sng.softT.toNat) && !x.recommended
  if x.st = 0 then due
  else if x.st = 1 then
    due && (decide (s.sng.retol.toNat ≤ x.tolScore.toNat - score ∧ score ≤ x.tolScore.toNat) || (decide (x.tolCode = 1) && !floorHolds s p) || (decide (x.tolCode = 2) && !capHolds s p))
  else false

/-- A RECOMMEND for a part: the entry, then the marks. -/
def recommend (s : State) (p score : Nat) : State :=
  let reason : Byte := if p / 4096 = 1 ∨ p / 4096 = 3 ∨ p / 4096 = 6 then 1 else 2
  let s := journal s 0x07 (BitVec.ofNat 16 p) ([BitVec.ofNat 8 score, reason, 0, 0] ++ pressureRecord s false)
  let x := s.part p
  let s := s.setPart p { x with recommended := true, recoSeq := s.sng.seq, recoCount := bump x.recoCount 1 }
  sngErr { s with sng := { s.sng with recoCount := bump s.sng.recoCount 1 } } 0

/-- The evaluation of one part. -/
def evalPart (s : State) (p : Nat) : State :=
  let k := partScore s p
  let x := s.part p
  let s := s.setPart p { x with score := BitVec.ofNat 8 k, recommended := x.recommended && decide (k < s.sng.softT.toNat) }
  if recommends s p k then recommend s p k else s

/-- SCORE_EVAL. -/
def scoreEval (s : State) : State := if s.hwk.running then allParts.foldl evalPart s else s
def execScoreEval (s : State) : Host.Outcome State Fault Refusal := act s (scoreEval s)

/-! ## ENG_CTRL, R111 and R573 -/

/-- ENG_CTRL.OFFLINE written by the host: where it acts, Hawk records a soft retirement with actor 1. -/
def offlineWrite (s : State) (e : Nat) : State :=
  if (s.eng e).st = .idle ∨ (s.eng e).st = .fault then softRetired (engOffline s e) (partId 1 e) 0 1 else engOffline s e

/-- A write of ENG_CTRL. -/
def engCtrlWrite (s : State) (e : Nat) (v : BitVec 32) : State :=
  let s := if v.getLsbD 3 then clearEngine s e else s
  let n := b2n (v.getLsbD 0) + b2n (v.getLsbD 1) + b2n (v.getLsbD 2)
  if n = 0 then s
  else if 1 < n then ctrlIgnored s e
  else if v.getLsbD 0 then engScrub s e
  else if v.getLsbD 1 then offlineWrite s e
  else engOnline s e

def execScrub (e : Fin 64) (s : State) : Host.Outcome State Fault Refusal := act s (engScrub s e.val)
def execOnline (e : Fin 64) (s : State) : Host.Outcome State Fault Refusal := act s (engOnline s e.val)
def execOffline (e : Fin 64) (s : State) : Host.Outcome State Fault Refusal := act s (offlineWrite s e.val)

/-! ## LEDGER_READ, R580 -/

/-- Summary records of up to n parts from PART_ID p on. -/
def recordsFrom (s : State) (p n : Nat) : List Byte := ((allParts.filter fun q => p ≤ q).take n).flatMap (recordOf s)

/-- Entries held, the pending ones among them. -/
def entriesHeld (s : State) : List JEntry := s.sng.journal ++ s.sng.pend

def entriesFrom (s : State) (q : BitVec 64) (n : Nat) : List Byte := ((entriesHeld s).filter fun e => decide (q.toNat ≤ e.seq.toNat)).take n |>.flatMap entryBytes

/-- What LEDGER_READ answers: the data, and RESULT bytes 8 to 15. -/
def ledgerData (s : State) (sel : BitVec 8) (part count : BitVec 16) (q : BitVec 64) : List Byte × BitVec 64 :=
  if sel = 0 then (recordsFrom s part.toNat count.toNat, s.sng.seq)
  else if sel = 1 then (entriesFrom s q count.toNat, match entriesHeld s with | e :: _ => e.seq | [] => BitVec.ofNat 64 (freeNat s))
  else ([], s.sng.seq)

/-- LEDGER_READ. -/
def ledgerRead (s : State) (r : MboxRec) (sel : BitVec 8) (part count : BitVec 16) (q : BitVec 64) : State :=
  mboxCmd s r (needs 0x0060 false true [rdySng]) ([sel, 0] ++ beBytes 2 part.toNat ++ beBytes 2 count.toNat ++ [0, 0] ++ beBytes 8 q.toNat) fun s =>
    if 2 < sel.toNat then badArg s r 0x0060 0
    else if count = 0 ∨ 128 < count.toNat then badArg s r 0x0060 4
    else
      let d := ledgerData s sel part count q
      let s := if sel = 1 ∧ (entriesHeld s).isEmpty then { s with fresh := s.fresh + 1 } else s
      respond (putArea3 s r d.1) r 0x0060 stOk (beBytes 4 d.1.length ++ beBytes 4 (crc32c d.1).toNat ++ beBytes 8 d.2.toNat ++ pressureRecord s true)
def execLedgerRead (r : MboxRec) (sel : BitVec 8) (firstPart count : BitVec 16) (firstSeq : BitVec 64) (s : State) : Host.Outcome State Fault Refusal :=
  act s (ledgerRead s r sel firstPart count firstSeq)

/-! ## FM_ACTION, R573 to R582 -/

/-- The recommendation that an action answers: a SEQ that names no RECOMMEND entry of the part is ignored. -/
def answeredReco (s : State) (part : BitVec 16) (q : BitVec 64) : BitVec 64 :=
  if (entriesHeld s).any fun e => decide (e.seq = q) && decide (e.type = 7) && decide (e.part = part) then q else 0

/-- A part becomes TOLERATED with the code that refused its retirement, R576. -/
def tolerate (s : State) (part : BitVec 16) (code : Byte) : State :=
  let x := s.part part.toNat
  let was := decide (x.st = 1)
  let s := setPartSt s part 1
  let y := s.part part.toNat
  let s := s.setPart part.toNat { y with tolCode := code, tolScore := if was then x.tolScore else x.score }
  sngErr (journal s 0x0A part [code]) 2

/-- Refusals of R582 that leave the part as it is, and FLOOR and CAP, which make it TOLERATED. -/
def retireRefusal (s : State) (p : Nat) : Option Byte := if floorHolds s p then some 1 else if capHolds s p then some 2 else none

/-- A refused retirement. -/
def refuseRetire (s : State) (r : MboxRec) (part : BitVec 16) (code : Byte) : State := fmRefuse (tolerate s part code) r code.toNat

/-- Soft retirement of a part that can take one and is in STATE 0 or 1, R573. An engine in a state in which ENG_CTRL.OFFLINE does not act is in use. -/
def retirePart (s : State) (r : MboxRec) (part : BitVec 16) (q : BitVec 64) : State :=
  let p := part.toNat
  let i := p % 4096
  if p / 4096 = 1 then
    (if (s.eng i).st = .idle ∨ (s.eng i).st = .fault then fmOk (softRetired (engOffline s i) part q 0) r part else fmRefuse s r 3)
  else if p / 4096 = 3 then
    match laneBond s i with
    | none => fmRefuse s r 4
    | some (b, pos) =>
      if s.mnd.move.isSome then fmRefuse s r 7
      else match retireRefusal s p with
        | some c => refuseRetire s r part c
        | none =>
          let t := moveStart s 0 b pos (some (r, q))
          if t.mnd.move.isSome then t else fmRefuse t r 6
  else match dfbOf p with
    | none => fmRefuse s r 4
    | some (n, c) =>
      let o := (s.spare n (c / 8)).st
      if o = .tuning ∨ o = .locked ∨ (s.col n c).tx.st = .swapping then fmRefuse s r 7
      else match retireRefusal s p with
        | some k => refuseRetire s r part k
        | none => startMake s n c false (some (r, q))

/-- Arguments of FM_ACTION. -/
def fmArgs (a : Nat) (part : BitVec 16) (q : BitVec 64) : List Byte := [BitVec.ofNat 8 a, 0] ++ beBytes 2 part.toNat ++ beBytes 8 q.toNat

def fmNeeds : CmdNeeds := needs 0x0061 true false [rdySng]

/-- Kinds that can be soft-retired. -/
def retirable (p : Nat) : Bool := partExists p && (decide (p / 4096 = 1) || decide (p / 4096 = 3) || (dfbOf p).isSome)

/-- FM_ACTION RETIRE. -/
def fmRetire (s : State) (r : MboxRec) (part : BitVec 16) (q : BitVec 64) : State :=
  mboxCmd s r fmNeeds (fmArgs 1 part q) fun s =>
    if !retirable part.toNat then fmRefuse s r 4
    else if 2 ≤ (s.part part.toNat).st.toNat then fmRefuse s r 8
    else retirePart s r part (answeredReco s part q)
def execFmRetire (r : MboxRec) (part : BitVec 16) (seq : BitVec 64) (s : State) : Host.Outcome State Fault Refusal := act s (fmRetire s r part seq)

/-- FM_ACTION TOLERATE. -/
def fmTolerate (s : State) (r : MboxRec) (part : BitVec 16) (q : BitVec 64) : State :=
  mboxCmd s r fmNeeds (fmArgs 2 part q) fun s =>
    if !partExists part.toNat then fmRefuse s r 4
    else if (s.part part.toNat).st ≠ 0 then fmRefuse s r 8
    else fmOk (tolerate s part 0) r part
def execFmTolerate (r : MboxRec) (part : BitVec 16) (seq : BitVec 64) (s : State) : Host.Outcome State Fault Refusal := act s (fmTolerate s r part seq)

/-- A part in STATE 2 returns to STATE 0, R577. -/
def restorePart (s : State) (part : BitVec 16) : State :=
  let i := part.toNat % 4096
  let s := journal (setPartSt s part 0) 0x0B part [2]
  if part.toNat / 4096 = 1 then engOnline s i
  else if part.toNat / 4096 = 3 then
    let s := setRetired s i false
    match laneBond s i with
    | some (b, pos) => moveStart s 1 b pos none
    | none => s
  else s

/-- FM_ACTION RESTORE. -/
def fmRestore (s : State) (r : MboxRec) (part : BitVec 16) (q : BitVec 64) : State :=
  mboxCmd s r fmNeeds (fmArgs 3 part q) fun s =>
    let st := (s.part part.toNat).st
    if !partExists part.toNat then fmRefuse s r 4
    else if st = 3 ∨ st = 4 ∨ (st = 2 ∧ (dfbOf part.toNat).isSome) then fmRefuse s r 5
    else if st ≠ 2 then fmRefuse s r 8
    else if part.toNat / 4096 = 3 ∧ s.mnd.move.isSome then fmRefuse s r 7
    else fmOk (restorePart s part) r part
def execFmRestore (r : MboxRec) (part : BitVec 16) (seq : BitVec 64) (s : State) : Host.Outcome State Fault Refusal := act s (fmRestore s r part seq)

/-! ## SNG registers, R593 -/

/-- A write of SNG_CTRL; the flush's read-back is taken as good. -/
def sngCtrlWrite (s : State) (v : BitVec 32) : State :=
  let s := if v.getLsbD 0 then sngClrCounts s else s
  if v.getLsbD 1 then sngFlush s true else s

end Sys2Proof.Machine
end

