-- ==== Sys2Proof/Machine/Power.lean ====
section
/-! DEFINITION. Power, reset and bring-up, chapter 17: the reset kinds, brown-out, supply warning, temperatures and the thermal trip; and the start of Hawk firmware, R260, R445, R569 and R608. -/

namespace Sys2Proof.Machine

/-! ## What a reset keeps, R604 -/

/-- The ledger as the SPI NOR holds it, R569: what has not been written is lost, and the registers take their Reset values. -/
def ledgerFromFlash (g : Sng) : Sng :=
  let last := g.journal.getLast?
  let lifeS := match last with | some e => if g.savedS.toNat < e.lifeS.toNat then e.lifeS else g.savedS | none => g.savedS
  { lifeS := lifeS, seq := (match last with | some e => e.seq | none => 0), journal := g.journal, parts := g.saved, saved := g.saved, savedS := g.savedS, retol := g.retol, softT := g.softT, flushLate := g.flushLate }

/-- Sealer after a reset that clears HBM: fuses and the SPI NOR remain. -/
def slrFused (k : Slr) : Slr := { ownerHash := k.ownerHash, minSvn := k.minSvn, store := k.store, makerKey := k.makerKey }

/-- Hawk after a reset that restarts its firmware: the SPI NOR remains, and the host port link where it is kept. A firmware write that the reset cuts leaves no valid image. -/
def hwkFromFlash (h : Hwk) (link : Bool) : Hwk :=
  { addrs := h.addrs, mboxPort := h.mboxPort, bulkPort := h.bulkPort, nor := if h.updating.isSome then some none else h.nor, recoverBuf := h.recoverBuf, linkUp := link && h.linkUp, recovery := none, romKeys := h.romKeys }

/-- The device as a POWER_ON or DEVICE reset leaves it; pins and PWR are as given. -/
def coldState (s : State) (p : Pwr) (link : Bool) : State :=
  { pending := s.pending, out := s.out, fresh := s.fresh, pwr := p, hwk := hwkFromFlash s.hwk link, sng := ledgerFromFlash s.sng, slr := slrFused s.slr, phn := { interlock := s.phn.interlock }, tap := s.tap }

/-! ## Bring-up, R608 -/

/-- The first step of bring-up: Sealer seeds its DRBG from the four TRNGs, R438. -/
def bringUp (s : State) : State := slrReady { s with slr := { s.slr with trngOk := 0xF, drbg := true } }

/-- PWR after a POWER_ON: the reset itself is counted and its cause noted. -/
def pwrAfter (s : State) (source : Nat) : Pwr := { supplyWarn := s.pwr.supplyWarn, causeSource := BitVec.ofNat 2 source, resetCount := 1 }

/-- POWER_ON: power-up, or RESET_N low for 10 µs. Bring-up follows when RESET_N rises. -/
def powerOn (s : State) (byPin : Bool) : State :=
  let p := pwrAfter s (b2n byPin)
  if byPin then coldState s { p with railsGood := s.pwr.railsGood, brownHold := s.pwr.brownHold } false
  else { coldState s { p with railsGood := true } false with tap := {} }
def execPowerOn (byPin : Bool) (s : State) : Host.Outcome State Fault Refusal := act s (powerOn s byPin)

/-- RESET_N_RISE. -/
def resetNRise (s : State) : State :=
  if s.pwr.resetN || !(s.pwr.railsGood || s.pwr.brownHold) then s
  else
    let s := { s with pwr := { s.pwr with resetN := true } }
    if s.pwr.brownHold then s else bringUp s
def execResetNRise (s : State) : Host.Outcome State Fault Refusal := act s (resetNRise s)

/-- BROWN_OUT, R599: a POWER_ON that is held. -/
def brownOut (s : State) : State :=
  if s.pwr.resetN then coldState s { pwrAfter s 2 with resetN := true, brownHold := true } false else s
def execBrownOut (s : State) : Host.Outcome State Fault Refusal := act s (brownOut s)

/-- BROWN_OUT_END: every rail has been within its limits for 1 ms. -/
def brownOutEnd (s : State) : State :=
  if s.pwr.brownHold then
    let s := { s with pwr := { s.pwr with brownHold := false, railsGood := true } }
    if s.pwr.resetN then bringUp s else s
  else s
def execBrownOutEnd (s : State) : Host.Outcome State Fault Refusal := act s (brownOutEnd s)

/-- POWER_REMOVED: the one way out of a trip, R613 and R628. -/
def powerRemoved (s : State) : State := { coldState s {} false with tap := {} }
def execPowerRemoved (s : State) : Host.Outcome State Fault Refusal := .next (powerRemoved s)

/-! ## Supply warning, R568 and R600 to R602 -/

/-- A firmware write in progress is abandoned, R556. -/
def abandonUpdate (s : State) : State :=
  match s.hwk.updating with
  | none => s
  | some (r, _) => refuseFree { s with hwk := { s.hwk with updating := none, nor := some none, fwState := 3, err := setErr s.hwk.err 2 } } r 0x0070

/-- The flush of R568: every pending entry and a SUPPLY_WARN entry are written; one that does not end within 2 ms runs on. -/
def warnFlush (s : State) (inTime : Bool) : State :=
  if !s.hwk.running || s.sng.flushing then s
  else
    let s := abandonUpdate s
    let s := journal s 0x10 deviceId (leBytes 2 s.sng.pend.length)
    if inTime then flushJournal s true else { s with sng := { s.sng with flushing := true, flushLate := true } }

/-- SUPPLY_WARN_ASSERT. -/
def supplyWarnAssert (s : State) (inTime : Bool) : State :=
  if s.pwr.supplyWarn then s
  else
    let p := s.pwr
    warnFlush { s with pwr := { p with supplyWarn := true, err := setErr p.err 2, supplyWarnCount := bump p.supplyWarnCount 1 } } inTime
def execSupplyWarnAssert (inTime : Bool) (s : State) : Host.Outcome State Fault Refusal := act s (supplyWarnAssert s inTime)

/-- SUPPLY_WARN_RELEASE. -/
def supplyWarnRelease (s : State) : State := { s with pwr := { s.pwr with supplyWarn := false } }
def execSupplyWarnRelease (s : State) : Host.Outcome State Fault Refusal := act s (supplyWarnRelease s)

/-! ## Temperature, R610 to R613 -/

/-- Readings of a die's sensors that are in use, with their index. -/
def dieReadings (s : State) (q : Nat) (l : List (Option Nat)) : List (Nat × Option Nat) :=
  (((List.range 24).zip (padTo none 24 l))).filter fun x => !Tab.get false s.pwr.badSensors (24 * q + x.1)

/-- Whether a reading lies more than 20 °C away from the mean of the others. -/
def strays (l : List (Nat × Option Nat)) (i v : Nat) : Bool :=
  let others := l.filterMap fun x => if x.1 = i then none else x.2
  let n := others.length
  let sum := others.foldl (· + ·) 0
  decide (0 < n) && (decide (sum + 20 * n < v * n) || decide (v * n + 20 * n < sum))

/-- A sensor is left out, R610. The manual gives the DEFECT entry of a die no defect code. -/
def dropSensor (s : State) (q i : Nat) : State :=
  let p := s.pwr
  let code := BitVec.ofNat 8 (freeNat s)
  journal { s with fresh := s.fresh + 1, pwr := { p with badSensors := Tab.put false p.badSensors (24 * q + i) true, err := setErr p.err 3 } } 0x01 (partId 0 q) [code, 1]

/-- One sensor's reading is judged: none, or a stray one for 1 ms (100 readings), leaves it out. -/
def judgeSensor (l : List (Nat × Option Nat)) (q : Nat) (s : State) (x : Nat × Option Nat) : State :=
  match x.2 with
  | none => dropSensor s q x.1
  | some v =>
    let k := 24 * q + x.1
    let n := if strays l x.1 v then Tab.get 0 s.pwr.strayRuns k + 1 else 0
    let s := { s with pwr := { s.pwr with strayRuns := Tab.put 0 s.pwr.strayRuns k n } }
    if 100 ≤ n then dropSensor s q x.1 else s

def maxList (l : List Nat) : Nat := l.foldl max 0

/-- Hottest sensor of a die among those in use, and how many are. -/
def dieHottest (s : State) (q : Nat) (l : List (Option Nat)) : Nat × Nat :=
  let r := dieReadings s q l
  (maxList (r.filterMap (·.2)), r.length)

def byteOf (n : Nat) : Nat := min 255 n

/-- Hottest die, stack and photonic engine of a quadrant, and its sensors in use. -/
def quadTemps (s : State) (o : TempObs) (q : Nat) : Nat × Nat × Nat × Nat :=
  let d := dieHottest s q ((o.die[q]?).getD [])
  (d.1, maxList (slice (padTo 0 32 o.stack) (8 * q) 8), maxList (slice (padTo 0 8 o.pho) (2 * q) 2), d.2)

def tempWord (t : Nat × Nat × Nat × Nat) : BitVec 32 := BitVec.ofNat 32 (byteOf t.1 * 2 ^ 24 + byteOf t.2.1 * 2 ^ 16 + byteOf t.2.2.1 * 256 + t.2.2.2)

/-- The temperature of a part's die, stack or photonic engine, R564. -/
def tempOfPart (o : TempObs) (ts : List (Nat × Nat × Nat × Nat)) (p : Nat) : Nat :=
  let i := p % 4096
  let die := fun q : Nat => match ts[q]? with | some t => t.1 | none => 0
  let pho := fun n : Nat => (o.pho[n]?).getD 0
  match p / 4096 with
  | 0 => die i
  | 1 => die (i / 16)
  | 2 => (o.stack[i]?).getD 0
  | 3 => die (i / 32)
  | 4 => pho (i / 32)
  | 5 => pho (i / 32)
  | 6 => pho (i / 36)
  | _ => die 0

/-- Whether the sample lies 3 °C below the thresholds of the level in force, R611. -/
def isCool (s : State) (die stack : Nat) : Bool :=
  let l := s.pwr.level.toNat
  decide (0 < l) && decide (die + 3 ≤ dieThreshold l) && decide (stack + 3 ≤ stackThreshold l)

/-- THERMAL_TRIP, R613: nothing is flushed. A die's trips count as its defects. -/
def thermalTrip (s : State) (dies : List Nat) : State :=
  let s := dies.foldl (fun s q => countDefect s (partId 0 q)) s
  { s with pwr := { s.pwr with tripped := true } }

/-- The readings enter the registers and the ledger. -/
def noteTemps (s : State) (o : TempObs) (ts : List (Nat × Nat × Nat × Nat)) : State :=
  let s := { s with pwr := { s.pwr with temps := ((List.range 4).zip ts).foldl (fun t x => Tab.put 24 t x.1 (tempWord x.2)) s.pwr.temps, tjMax := BitVec.ofNat 8 (byteOf (maxList (ts.map (·.1)))) } }
  let s := ((List.range 32).zip (padTo 0 32 o.stack)).foldl (fun s x => s.setStack x.1 { s.stack x.1 with temp := BitVec.ofNat 8 (byteOf x.2) }) s
  if s.hwk.running then allParts.foldl (fun s p => partTemp s (BitVec.ofNat 16 p) (BitVec.ofNat 8 (byteOf (tempOfPart o ts p)))) s else s

/-- TEMP_SAMPLE. -/
def tempSample (s : State) (o : TempObs) : State :=
  let s := (List.range 4).foldl (fun s q => let l := dieReadings s q ((o.die[q]?).getD []); l.foldl (judgeSensor l q) s) s
  let ts := (List.range 4).map (quadTemps s o)
  let s := noteTemps s o ts
  let die := maxList (ts.map (·.1))
  let stack := maxList (ts.map (·.2.1))
  let hot := (List.range 4).filter fun q => match ts[q]? with
    | some t => decide (110 ≤ t.1) || decide (97 ≤ t.2.1) || decide (t.2.2.2 < 12)
    | none => false
  if hot.isEmpty then
    let s := callLevel s (calledLevel die stack)
    { s with pwr := { s.pwr with cool := isCool s die stack } }
  else thermalTrip s hot
def execTempSample (o : TempObs) (s : State) : Host.Outcome State Fault Refusal := act s (tempSample s o)

/-- THROTTLE_HOLD_EXPIRE: every sensor has stayed 3 °C below the level in force for 1 s; level 3 is left so only while no plan is RUNNING. -/
def holdExpire (s : State) : State :=
  if !s.pwr.cool ∨ (planRunning s ∧ s.pwr.level = 3) then s
  else
    let s := { s with pwr := { s.pwr with applied := s.pwr.asked } }
    if planRunning s then s else settleLevel s
def execThrottleHoldExpire (s : State) : Host.Outcome State Fault Refusal := act s (holdExpire s)

/-- MIN_LEVEL_WRITE. -/
def minLevelWrite (s : State) (v : BitVec 32) : State :=
  let s := { s with pwr := { s.pwr with minLevel := BitVec.ofNat 2 (v.toNat / 4) } }
  if planRunning s then s else settleLevel s
def execMinLevelWrite (value : BitVec 32) (s : State) : Host.Outcome State Fault Refusal := act s (minLevelWrite s value)

/-- PWR_CLR_COUNTS. -/
def pwrClrCounts (s : State) : State := { s with pwr := { s.pwr with throttleCount := 0, emergencyCount := 0, supplyWarnCount := 0, resetCount := 0 } }
def execPwrClrCounts (s : State) : Host.Outcome State Fault Refusal := act s (pwrClrCounts s)

/-- A write of PWR_CTRL. -/
def pwrCtrlWrite (s : State) (v : BitVec 32) : State := let s := minLevelWrite s v; if v.getLsbD 0 then pwrClrCounts s else s

/-! ## FIRMWARE and DATAPATH, R604, R605 and R607 -/

/-- PERSIST regions of a plan with the number each has in it; those it inherits from a plan still present count with that plan. -/
def persistOf (p : Plan) (inherited : Bool) : List Held :=
  ((List.range p.regions.length).zip p.regions).filterMap fun r =>
    if r.2.persist && (inherited || !r.2.inherit) then some ⟨r.2.name, r.2.tiles, r.2.pool, r.1, r.2.bufs, r.2.images⟩ else none

/-- Regions that the device holds after the reset. -/
def heldAfter (s : State) : List Held :=
  s.stn.held ++ (match s.stn.cur with | some p => persistOf p true | none => []) ++ (match s.stn.next with | some p => persistOf p false | none => [])

/-- Owners that Hawk reclaims after the reset, R605. -/
def reclaimOwners (s : State) : List Owner :=
  let kept := (heldAfter s).map (·.name)
  let dead := match s.lth.fence with | some f => [f.owner] | none => []
  let queued := (s.lth.queue.filter fun c => decide (c.op = .proxyFree)).map (·.owner)
  let users := (s.lth.owners.filterMap (·.2)).filter fun o => o.cls ≠ 0 || !kept.contains o.name
  (dead ++ queued ++ users).eraseDups

/-- One reclaim: every user confirms at once, since the reset has cancelled every transfer. -/
def reclaimNow (s : State) (o : Owner) : State :=
  let s := openFence s o
  match s.lth.fence with
  | some f => closeFence s f
  | none => s

/-- Hawk queues the PROXY_FREEs of R605. -/
def reclaimAll (s : State) : State :=
  let l := s.hwk.reclaim
  l.foldl reclaimNow { s with hwk := { s.hwk with reclaim := [] } }

/-- Sealer: registers reset, keys erased, lockout and strip state kept. -/
def slrAfter (k : Slr) : Slr :=
  { k with bonds := [], err := 0, overlap := 28, sessFail := 0, recFail := 0, keyLoads := 0, trngFail := 0, challenge := none, trngOk := 0xF, drbg := true, idk := none, ktk := none }

/-- CSR spans of blocks that a FIRMWARE or DATAPATH reset resets, R22. -/
def inResetSpan (firmware : Bool) (a : Nat) : Bool :=
  (decide (0x20000 ≤ a) && decide (a < 0xA0000)) || (decide (0xB0000 ≤ a) && decide (a < 0xE0000)) || (decide (0xF0000 ≤ a) && decide (a < 0x100000))
    || (decide (0x130000 ≤ a) && decide (a < 0x140000)) || (firmware && decide (0x110000 ≤ a) && decide (a < 0x120000))

/-- Counters that the reset clears begin anew in the ledger's reading. -/
def keepRead (firmware : Bool) (k : Nat) : Bool := if 0x1000000 ≤ k then decide (0x2000000 ≤ k) else !inResetSpan firmware k

/-- Readiness bits that fall. -/
def dropReady (s : State) (bits : List Nat) : State := bits.foldl (fun s i => setReady s i false) s

/-- Sessions close and the staging areas are erased. -/
def dropSessions (h : Hwk) : Hwk :=
  let err := if h.sessions.any fun x => match x.2 with | some y => y.isOpen | none => false then setErr h.err 1 else h.err
  { h with sessions := [], mboxes := [], stage1 := none, stage2 := none, area1 := [], area2 := [], err := err }

/-- The part that FIRMWARE and DATAPATH share. -/
def datapathReset (s : State) (firmware : Bool) : State :=
  let owners := reclaimOwners s
  let t := { s with engines := [], skm := {}, stn := { held := heldAfter s }, clc := {}, se := {}, lth := { leg := s.lth.leg, owners := s.lth.owners }, sch := {}, rnd := {}, mnd := {} }
  let t := { t with slr := slrAfter s.slr, hwk := { dropSessions s.hwk with reclaim := owners }, captures := s.captures.filter fun x => !inResetSpan firmware x.1, wstage := s.wstage.filter fun x => !inResetSpan firmware x.1 }
  let t := { t with sng := { t.sng with lastRead := t.sng.lastRead.filter fun x => keepRead firmware x.1 } }
  let t := (List.range 64).foldl (fun t e => setTrwReady t e false) t
  let t := (List.range 16).foldl (fun t p => setFarReady t p false) t
  let t := dropReady t [rdyStn, rdySkm, rdySch, rdyClc, rdySlr]
  let t := joinPools t
  let t := setReady t rdyLth (decide (t.lth.joined ≠ 0))
  settleLevel (requalify t)

/-! ## RESET commands, R603 to R606 -/

/-- R606: the counters enter the ledger, and all of it is written. The RESET entry is made first. -/
def saveLedger (s : State) (kind : Nat) : State :=
  let s := pollAll s
  let s := journal s 0x0F deviceId [BitVec.ofNat 8 kind]
  let s := { s with sng := { s.sng with journal := trimJournal (s.sng.journal ++ s.sng.pend), pend := [], flushing := false } }
  { s with sng := { s.sng with saved := s.sng.parts, savedS := s.sng.lifeS } }

/-- PWR keeps its registers, counts the reset and notes its cause. -/
def noteReset (s : State) (kind : Nat) : State :=
  let p := s.pwr
  { s with pwr := { p with resetCount := bump p.resetCount 1, causeSource := 3, causeKind := BitVec.ofNat 2 kind } }

/-- An accepted RESET command; not while a firmware update runs. -/
def resetCmd (s : State) (r : MboxRec) (kind : Nat) (f : State → State) : State :=
  mboxCmd s r (needs 0x0071 true false []) [BitVec.ofNat 8 kind] fun s =>
    if s.hwk.updating.isSome then respond s r 0x0071 stMboxBusy []
    else f (noteReset (saveLedger (respond s r 0x0071 stOk []) kind) kind)

/-- RESET_DEVICE. -/
def resetDevice (s : State) (r : MboxRec) : State :=
  resetCmd s r 1 fun s => bringUp (settleLevel (coldState s s.pwr true))
def execResetDevice (r : MboxRec) (s : State) : Host.Outcome State Fault Refusal := act s (resetDevice s r)

/-- Hawk firmware stops: its registers are reset, and the bits of Hawk and of the ledger fall. -/
def stopHawk (s : State) : State :=
  let h := hwkFromFlash s.hwk true
  let s := dropReady { s with hwk := { h with reclaim := s.hwk.reclaim } } [rdyHwk, rdySng]
  { s with sng := { s.sng with summaryOk := false, journalOk := false } }

/-- RESET_FIRMWARE. -/
def resetFirmware (s : State) (r : MboxRec) : State := resetCmd s r 2 fun s => stopHawk (datapathReset s true)
def execResetFirmware (r : MboxRec) (s : State) : Host.Outcome State Fault Refusal := act s (resetFirmware s r)

/-- STN, SKM, SCH and CLC rise, and Sealer once IDK and KTK are unwrapped, steps 7 and 8 of R608. -/
def raiseReady (s : State) (idk ktk : Option KeyPair) : State :=
  let s := [rdyStn, rdySkm, rdySch, rdyClc].foldl (fun s i => setReady s i true) s
  slrReady { s with slr := { s.slr with idk := if s.slr.gateClosed then none else idk, ktk := if s.slr.gateClosed then none else ktk } }

/-- RESET_DATAPATH. -/
def resetDatapath (s : State) (r : MboxRec) : State :=
  resetCmd s r 3 fun s => let (i, k) := (s.slr.idk, s.slr.ktk); reclaimAll (raiseReady (datapathReset s false) i k)
def execResetDatapath (r : MboxRec) (s : State) : Host.Outcome State Fault Refusal := act s (resetDatapath s r)

/-! ## The start of Hawk, R260, R445, R557, R569 and R608 -/

def noImage : FwImage := ⟨false, [], 0, 0, 0, 0, 0, []⟩

/-- Whether the signature block of an image names a firmware key of the primer ROM and its signature checks, R445. -/
def imageSigned (s : State) (im : FwImage) : Bool :=
  decide (leAt im.block 8 4 = 1)
    && (s.hwk.romKeys.getD Config.firmwareKeys).any fun k => decide (keyIdOf k = im.block.take 8) && signatureOk k im.digest (slice im.block 128 384)

/-- Whether an identity record stands, R442: its fixed fields, this device's DEVICE_ID, and its signature under the manufacturing key that it names. -/
def identityOk (s : State) (b : List Byte) : Bool :=
  let maker := s.slr.makerKey.getD Config.makerKey
  decide (b.length = 1216) && decide (slice b 0 16 = [0x45, 0x58, 0x49, 0x44, 1, 0, 0x40, 0x96, 0xB1, 0, 0, 0, 0, 0, 0, 0]) && decide (slice b 16 16 = leBytes 16 Config.deviceId.toNat)
    && decide (slice b 32 8 = keyIdOf maker) && allZero (slice b 40 8) && allZero (slice b 824 8) && signatureOk maker (sha256 (b.take 832)) (slice b 832 384)

/-- IDK and KTK as the identity record gives them, unwrapped. -/
def unwrapped (s : State) (b : List Byte) : Option KeyPair × Option KeyPair :=
  if identityOk s b then (some ⟨slice b 48 388, Config.idkSecret⟩, some ⟨slice b 436 388, Config.ktkSecret⟩) else (none, none)

/-- What the primer ROM finds against an image: the reasons of R557. -/
def imageRefusal (s : State) (im : FwImage) : Option Byte :=
  if !im.present then some 1
  else if !imageSigned s im then some 2
  else if im.svn.toNat < (minSvnNow s).toNat then some 3
  else if im.part ≠ 0x9640 then some 4
  else none

/-- ASIG of R260. -/
def asigOf (arith : BitVec 32) : BitVec 32 := BitVec.ofNat 32 (beNat ((sha256 (leBytes 2 0x9640 ++ [3, 1] ++ leBytes 4 arith.toNat)).take 4))

/-- A summary record that fails its CRC in both copies restarts as that of a part on which nothing has been recorded, with DAMAGED set, R569. -/
def restartPart (s : State) (p : BitVec 16) : State :=
  if partExists p.toNat then sngErr (s.setPart p.toNat { freshPart p.toNat with damaged := true }) 3 else s

/-- The ledger is loaded, R569; a flush that ran late shows now. -/
def loadLedger (s : State) (damaged : List (BitVec 16)) : State :=
  let s := damaged.foldl restartPart s
  let s := if s.sng.flushLate then sngErr s 5 else s
  setReady { s with sng := { s.sng with flushLate := false, summaryOk := true, journalOk := true } } rdySng true

/-- Hawk firmware starts: ASIG before HWK, then MIN_SVN, the FW_START entry, the ledger and the other functions, the reclaims of R605, and the photonic engines. -/
def startHawk (s : State) (im : FwImage) (found : StartFinds) : State :=
  let a := asigOf im.arith
  let h := { s.hwk with running := true, recovery := none, fwVersion := some im.version, fwArith := some im.arith }
  let s := { s with top := { s.top with asig := some a }, hwk := { h with fwSvn := some im.svn, fwDigest := im.digest } }
  let s := setReady s rdyHwk true
  let s := if (minSvnNow s).toNat < im.floor.toNat then { s with slr := { s.slr with minSvn := some (BitVec.ofNat 8 (min 63 im.floor.toNat)) } } else s
  let s := journal s 0x0E deviceId (leBytes 4 im.version.toNat ++ [im.svn, 0, 0, 0] ++ leBytes 4 im.arith.toNat ++ leBytes 4 a.toNat)
  let (idk, ktk) := unwrapped s found.idRecord
  phnStart (reclaimAll (raiseReady (loadLedger s found.damaged) idk ktk))

/-- HAWK_START: the primer ROM checks the image, and either Hawk starts or recovery begins. -/
def hawkStart (s : State) (im : FwImage) (found : StartFinds) : State :=
  if !isUp s || s.hwk.running then s
  else
    let x := match s.hwk.nor with | some y => y.getD noImage | none => im
    match imageRefusal s x with
    | some c => { s with hwk := { s.hwk with recovery := some c } }
    | none => startHawk s x found
def execHawkStart (im : FwImage) (found : StartFinds) (s : State) : Host.Outcome State Fault Refusal := act s (hawkStart s im found)

end Sys2Proof.Machine
end

