-- ==== Sys2Proof/Machine/Csr.lean ====
section
/-! DEFINITION. The CSR space, R5 to R8 and R22 to R23: where an address lies, what a word of each block reads, what a write of it does, and the captures of registers wider than 32 bits. -/

namespace Sys2Proof.Machine

/-! ## The space, R22 and R23 -/

inductive Blk where
  | top | plb | stn | trw | skm | lth | hbm | rnd | mnd | slr | phn | sch | sng | hwk | pwr | clc
deriving DecidableEq, Repr

/-- Block, base and span. -/
def spans : List (Blk × Nat × Nat) :=
  [(.top, 0, 0x10000), (.plb, 0x10000, 0x10000), (.stn, 0x20000, 0x20000), (.trw, 0x40000, 0x40000), (.skm, 0x80000, 0x10000), (.lth, 0x90000, 0x10000),
   (.hbm, 0xA0000, 0x8000), (.rnd, 0xB0000, 0x8000), (.mnd, 0xC0000, 0x10000), (.slr, 0xD0000, 0x10000), (.phn, 0xE0000, 0x8000), (.sch, 0xF0000, 0x10000),
   (.sng, 0x100000, 0x10000), (.hwk, 0x110000, 0x10000), (.pwr, 0x120000, 0x10000), (.clc, 0x130000, 0x10000)]

/-- Block and offset of an address; none where an access is refused. -/
def locate (a : BitVec 32) : Option (Blk × Nat) :=
  if a.toNat % 4 ≠ 0 then none
  else (spans.find? fun p => decide (p.2.1 ≤ a.toNat) && decide (a.toNat < p.2.1 + p.2.2)).map fun p => (p.1, a.toNat - p.2.1)

/-- A word from its fields: (value, lowest bit). -/
def fields (l : List (Nat × Nat)) : Nat := l.foldl (fun n p => n + p.1 * 2 ^ p.2) 0

/-- Bits of a word that number true places. -/
def bitsWhere (n : Nat) (f : Nat → Bool) : Nat := (List.range n).foldl (fun v i => v + b2n (f i) * 2 ^ i) 0

/-- Whether an offset lies in an array of n entries of a stride from a base. -/
def inArray (off base stride n : Nat) : Bool := decide (base ≤ off) && decide (off < base + stride * n)

/-! ## Registers of 32 bits, block by block -/

def readTop (s : State) (off : Nat) : Nat :=
  match off with
  | 0x00 => 0x9640B100
  | 0x04 => (topAsig s).toNat
  | 0x10 => s.top.ready.toNat
  | 0x14 => s.top.drop.toNat
  | 0x28 => s.top.hbm.toNat
  | 0x2C => s.top.far.toNat
  | 0x30 => s.top.near.toNat
  | _ => 0

def engStCode : EngSt → Nat
  | .idle => 0 | .armed => 1 | .running => 2 | .fault => 3 | .scrubbing => 4 | .offline => 5

/-- MODE of ENG_STATE, R110: that of the armed plan that uses the engine, CURRENT before NEXT; 0 for an engine that is not armed for one. -/
def engMode (s : State) (e : Nat) : Bool :=
  let uses := fun p : Option Plan => match p with | some p => p.engines.getLsbD e | none => false
  let mode := fun p : Option Plan => match p with | some p => p.eagerMode | none => false
  match (s.eng e).st with
  | .armed => if uses s.stn.cur then mode s.stn.cur else if uses s.stn.next then mode s.stn.next else false
  | .running => uses s.stn.cur && mode s.stn.cur
  | .fault => uses s.stn.cur && mode s.stn.cur
  | _ => false

/-- An engine's registers, R110 to R116. -/
def readTrw (s : State) (off : Nat) : Nat :=
  let x := s.eng (off / 0x1000)
  let r := off % 0x1000
  if inArray r 0x80 4 16 then (x.param ((r - 0x80) / 4)).toNat
  else match r with
    | 0x00 => fields [(engStCode x.st, 0), (b2n (engMode s (off / 0x1000)), 3)]
    | 0x08 => x.err.toNat
    | 0x0C => x.fault.toNat
    | 0x18 => x.nfStroke.toNat
    | 0x20 => x.satCount.toNat
    | 0x24 => x.laCeCount.toNat
    | 0x28 => x.arriveCrcCount.toNat
    | 0x2C => x.waitCount.toNat
    | 0x30 => (waitCyclesNow s x).toNat
    | 0x40 => x.pc.toNat
    | _ => 0

def tblStCode : TblSt → Nat
  | .empty => 0 | .loaded => 1 | .active => 2 | .draining => 3

/-- Skim's registers, R152 to R159. -/
def readSkm (s : State) (off : Nat) : Nat :=
  let k := s.skm
  if inArray off 0x1000 4 35 then (Tab.get 0 k.stage ((off - 0x1000) / 4)).toNat
  else if inArray off 0x8000 0x10 256 ∧ off % 16 = 0xC then (s.subQ ((off - 0x8000) / 16)).length
  else if 0x4000 ≤ off then skmWord k.tables off
  else match off with
    | 0x04 => fields [(tblStCode (s.tslot 0).st, 0), (tblStCode (s.tslot 1).st, 2), (k.result.toNat, 4), (b2n k.busy, 8)]
    | 0x08 => k.err.toNat
    | 0x10 => inflight s 0
    | 0x14 => inflight s 1
    | 0x18 => (s.tslot 0).id.toNat
    | 0x1C => (s.tslot 1).id.toNat
    | 0x20 => k.dropCount.toNat
    | 0x24 => k.epochDropCount.toNat
    | 0x28 => k.clampCount.toNat
    | 0x2C => k.rawCount.toNat
    | 0x30 => k.poisonCount.toNat
    | _ => 0

def placeNum : Place → Nat
  | .none => 0 | .armed => 1 | .running => 2 | .halted => 3

/-- STN_STATUS, R199. -/
def stnStatus (s : State) : Nat :=
  let x := s.stn
  fields [(placeNum x.place, 0), (b2n x.inSeam, 3), (b2n x.next.isSome, 4), (b2n x.admitting.isSome, 8), (x.haltCause.toNat, 12),
    (b2n (match x.cur with | some p => p.eagerMode | none => false), 16), (x.body % 8, 17)]

/-- SE_STATUS and SE_DIV_WHERE, R283 and R284. -/
def seStatus (x : Se) : Nat :=
  let c := x.cap
  fields [(x.link.toNat, 4), (x.refuse.toNat, 8), (b2n (match c with | some c => c.addr.isSome | none => false), 13), (b2n c.isSome, 14), (b2n (match c with | some c => c.final | none => false), 15)]
def seWhere (x : Se) : Nat :=
  match x.cap with
  | none => 0
  | some c => fields [((match c.addr with | some a => a.1.toNat | none => 0), 0), (c.engine, 8), (c.slot, 20)]

/-- Stencil's and Straightedge's registers, R197 to R203 and R280 to R285. -/
def readStn (s : State) (off : Nat) : Nat :=
  let x := s.stn
  let e := s.se
  match off with
  | 0x04 => stnStatus s
  | 0x08 => x.admitResult.toNat
  | 0x0C => x.admitWhere.toNat
  | 0x20 => x.step.toNat
  | 0x24 => x.haltStep.toNat
  | 0x30 => x.ext.toNat
  | 0x34 => x.err.toNat
  | 0x38 => x.slotLate.toNat
  | 0x3C => x.stepLate.toNat
  | 0x100 => fields [(b2n (planBreak x.cur), 0), (b2n (planBreak x.next), 1)]
  | 0x104 => 0x01000003
  | 0x108 => (fwArithNow s).toNat
  | 0x110 => fields [(e.role.toNat, 4), (e.action.toNat, 6), (e.ports.toNat, 16)]
  | 0x114 => seStatus e
  | 0x118 => match e.cap with | some c => c.step.toNat | none => 0
  | 0x11C => seWhere e
  | 0x138 => e.slotCount.toNat
  | 0x13C => e.unchecked.toNat
  | 0x140 => e.addrLost.toNat
  | _ => 0

/-- ROLE of CLC_STATUS: from the rank of CURRENT. -/
def clcRole (s : State) : Nat := if s.stn.cur.isNone then 0 else if isRoot s then 2 else if isHead s then 1 else 0

/-- The CLC registers, R250 to R254. -/
def readClc (s : State) (off : Nat) : Nat :=
  let k := s.clc
  if inArray off 0x1000 0x20 256 then leNat (Mem.read k.recs (off - 0x1000) 4)
  else match off with
    | 0x00 => fields [(k.collSel.toNat, 8)]
    | 0x04 => fields [(min 16 (maxUndecided s), 0), (k.rebuild.toNat, 8), (clcRole s, 10)]
    | 0x08 => k.err.toNat
    | 0x0C => k.abortStep.toNat
    | 0x10 => k.abortResult.toNat
    | 0x14 => k.recCount.toNat
    | 0x20 => k.sealCount.toNat
    | 0x24 => k.abortCount.toNat
    | 0x28 => k.lateCount.toNat
    | 0x2C => k.ctlDrop.toNat
    | _ => 0

/-- PLB_STATUS, R315. -/
def plbStatus (s : State) : Nat :=
  let p := s.plb
  fields [(plbCode p.st, 0), (b2n p.freqHold, 3), ((match p.selected with | some n => n | none => 0x1F), 8), ((myHops s).toNat, 16), (p.stepEpoch.toNat, 24)]

/-- Plumb's registers, R313 to R320. -/
def readPlb (s : State) (off : Nat) : Nat :=
  let p := s.plb
  if inArray off 0x100 0x20 19 then
    let x := s.src ((off - 0x100) / 0x20)
    match off % 0x20 with
    | 0 => fields [(x.prio.toNat, 24), (b2n x.en, 31)]
    | 4 => fields [(b2n x.qualified, 0), (b2n x.suspended, 1), (b2n x.calibrating, 2), (x.peerHops.toNat, 8)]
    | _ => 0
  else if inArray off 0x1000 0x10 32 then
    let t := s.trig ((off - 0x1000) / 0x10)
    match off % 0x10 with
    | 8 => t.period.toNat
    | 0xC => fields [(t.lastLate.toNat, 0), (b2n t.en, 31)]
    | _ => 0
  else match off with
    | 0x00 => fields [(b2n p.swMode, 1), (b2n p.swLock, 2), (b2n p.ppsOutEn, 3)]
    | 0x04 => plbStatus s
    | 0x08 => p.err.toNat
    | 0x0C => fields [(p.bw.toNat, 0), (p.outlierNs.toNat, 8), (p.calS.toNat, 24)]
    | 0x40 => p.ptpCfg.toNat
    | 0x44 => p.ppsInAdj.toNat
    | 0x48 => p.ppsOutAdj.toNat
    | 0x4C => (holdSeconds s).toNat
    | 0x60 => p.stepCount.toNat
    | 0x64 => p.switchCount.toNat
    | 0x68 => p.outlierCount.toNat
    | 0x6C => p.trigSkip.toNat
    | _ => 0

/-- A stack's registers, R352 to R355. -/
def readHbm (s : State) (off : Nat) : Nat :=
  let x := s.stack (off / 0x400)
  match off % 0x400 with
  | 0x00 => fields [(x.st.toNat, 0), (x.temp.toNat, 8)]
  | 0x08 => x.err.toNat
  | 0x0C => x.ce.toNat
  | 0x10 => x.ue.toNat
  | 0x14 => x.odecc.toNat
  | 0x18 => x.patrol.toNat
  | _ => 0

/-- Lath's registers, R356 to R361. -/
def readLth (s : State) (off : Nat) : Nat :=
  let l := s.lth
  if inArray off 0x30 4 4 then legFrames l ((off - 0x30) / 4 + 1)
  else if inArray off 0x100 0x20 4 then (if off % 0x20 / 4 < 5 then freeCount s ((off - 0x100) / 0x20) (off % 0x20 / 4) else 0)
  else match off with
    | 0x04 => fields [(b2n l.busy, 0), (b2n (!l.queue.isEmpty), 1), (b2n l.fence.isSome, 2), (l.epoch.toNat, 16)]
    | 0x08 => l.err.toNat
    | 0x0C => l.cmd.toNat
    | 0x10 => l.argHandle.toNat
    | 0x14 => l.argOwner.toNat
    | 0x18 => l.argNew.toNat
    | 0x1C => l.result.toNat
    | 0x20 => l.resultHandle.toNat
    | 0x24 => match l.fence with | some f => fenceWait f | none => 0
    | 0x60 => l.doubleFree.toNat
    | 0x64 => l.notOwner.toNat
    | 0x68 => l.fallback.toNat
    | 0x6C => l.reclaim.toNat
    | _ => 0

/-- STATE of a receive lane, R396. A lane in frame that a defect keeps out of service shows RANGING. -/
def laneState (s : State) (g : Nat) : Nat :=
  let x := s.lane g
  if x.retired then 4
  else if (bondOfLane s g).isNone then 0
  else if x.inSvc then 3
  else if x.inFrame then 2 else 1

def laneInSvc (s : State) (g : Nat) : Bool := (bondOfLane s g).isSome && (s.lane g).inSvc

/-- A lane's registers, R396. -/
def readLane (s : State) (g r : Nat) : Nat :=
  let x := s.lane g
  match r with
  | 0x00 => fields [(laneState s g, 0), (b2n (match bondOfLane s g with | some b => decide ((s.bond b).ref = some g) | none => false), 7), (b2n x.rdiRx, 11), (x.defects.headD 0, 12)]
  | 0x04 => x.err.toNat
  | 0x08 => (x.d.getD 0xFFFFFFFF).toNat
  | 0x0C => if laneInSvc s g then x.hold else 0
  | 0x10 => fields [(x.rxPos.toNat, 0), (x.rxBond.toNat, 8), (x.rxVer.toNat, 12), (x.rxLid.toNat, 16)]
  | 0x14 => x.oofCount.toNat
  | 0x18 => x.ohcrcCount.toNat
  | 0x1C => x.lateCount.toNat
  | 0x20 => x.rangeCount.toNat
  | 0x24 => x.falseCount.toNat
  | _ => 0

/-- A bond's registers, R397. -/
def readBond (s : State) (b r : Nat) : Nat :=
  let x := s.bond b
  match r with
  | 0x00 => fields [(x.ports.toNat, 0), (x.minLanes.toNat, 16), (b2n x.follow, 30), (b2n x.en, 31)]
  | 0x04 => fields [(x.guardUs.toNat, 0), (x.rangeStable.toNat, 16), (x.peerBond.toNat, 28)]
  | 0x08 => fields [(x.ref.getD 0, 0), (b2n (s.sbond b).keyed, 7), ((bondLanes s b).length, 8), (if x.en then (svcLanes s b).length else 0, 16), (x.st.toNat, 30)]
  | 0x0C => x.err.toNat
  | 0x10 => x.dbond.toNat
  | 0x14 => share s b
  | 0x28 => x.pchTrunc.toNat
  | _ => 0

/-- A tributary's registers, R398. -/
def readTrib (s : State) (c r : Nat) : Nat :=
  let x := s.trib c
  match r with
  | 0x00 => fields [(x.rate.toNat, 0), (x.bond.toNat, 24), (b2n x.en, 31)]
  | 0x04 => fields [(x.addFifo.length, 0), (x.dropFifo.length, 16)]
  | 0x08 => x.err.toNat
  | 0x0C => x.slip.toNat
  | 0x10 => x.lost.toNat
  | _ => 0

/-- Render's registers, R394 to R399. -/
def readRnd (s : State) (off : Nat) : Nat :=
  let p := off / 0x800
  let r := off % 0x800
  let lanes := (List.range 8).map fun l => 8 * p + l
  if inArray r 0x100 0x40 8 then readLane s (8 * p + (r - 0x100) / 0x40) (r % 0x40)
  else if inArray r 0x400 4 11 then readBond s p (r - 0x400)
  else if inArray r 0x600 4 5 ∧ p < 4 then readTrib s p (r - 0x600)
  else match r with
    | 0x00 => b2n (s.rport p).v1
    | 0x04 => bitsWhere 8 (fun l => laneInSvc s (8 * p + l)) + 256 * b2n (lanes.all fun g => (s.lane g).los)
    | 0x08 => (s.rport p).err.toNat
    | _ => 0

/-- A bond's MND registers, R433. -/
def readMbond (s : State) (b r : Nat) : Nat :=
  let x := s.mbond b
  match r with
  | 0x00 => fields [(x.rto.toNat, 0), (x.retries.toNat, 24), (x.m.toNat, 30)]
  | 0x04 => fields [(b2n x.minLow, 14), (b2n x.cfgMm, 15), (x.erasures.toNat, 16), (dataLanes s b - 1, 24)]
  | 0x08 => x.err.toNat
  | 0x0C => places s b
  | 0x28 => x.rtt.toNat
  | 0x40 => x.recovered.toNat
  | 0x44 => x.lost.toNat
  | 0x48 => x.synd.toNat
  | 0x4C => x.req.toNat
  | 0x50 => x.resent.toNat
  | 0x54 => x.gone.toNat
  | 0x58 => x.giveup.toNat
  | 0x5C => x.evict.toNat
  | 0x60 => x.dup.toNat
  | _ => 0

/-- A lane's MND registers, R435. -/
def readMlane (s : State) (g r : Nat) : Nat :=
  let x := s.mlane g
  match r with
  | 0x00 => fields [(x.highT.toNat, 0), (b2n x.precode, 8)]
  | 0x04 => fields [(b2n x.locked, 0), (x.maxSym.toNat, 8)]
  | 0x08 => x.err.toNat
  | 0x0C => x.corrSym.toNat
  | 0x10 => x.corrCw.toNat
  | 0x14 => x.uncorrCw.toNat
  | 0x18 => x.highSym.toNat
  | 0x1C => x.loaCount.toNat
  | _ => 0

/-- The MND registers, R431 to R436. -/
def readMnd (s : State) (off : Nat) : Nat :=
  if inArray off 0x100 0x80 16 then readMbond s ((off - 0x100) / 0x80) (off % 0x80)
  else if inArray off 0x1000 0x40 128 then readMlane s ((off - 0x1000) / 0x40) (off % 0x40)
  else match off with
    | 0x00 => fields [(s.mnd.posSel.toNat, 4), (s.mnd.bondSel.toNat, 12), (s.mnd.action.toNat, 16)]
    | 0x04 => fields [(b2n s.mnd.move.isSome, 0), (s.mnd.moveResult.toNat, 1)]
    | _ => 0

/-- A bond's Sealer registers, R474. -/
def readSbond (s : State) (b r : Nat) : Nat :=
  let x := s.sbond b
  match r with
  | 0x00 => fields [(x.tx0.st.toNat, 0), (x.tx1.st.toNat, 2), (x.rx0.st.toNat, 4), (x.rx1.st.toNat, 6), (b2n x.keyed, 8)]
  | 0x04 => x.err.toNat
  | 0x30 => x.authFail.toNat
  | 0x34 => x.replay.toNat
  | 0x38 => x.noKey.toNat
  | 0x3C => x.switches.toNat
  | _ => 0

/-- Sealer's registers, R470 to R475. -/
def readSlr (s : State) (off : Nat) : Nat :=
  let k := s.slr
  if inArray off 0x100 0x40 16 then readSbond s ((off - 0x100) / 0x40) (off % 0x40)
  else match off with
    | 0x00 => fields [(k.strip.toNat, 0), (b2n k.drbg, 2), (b2n k.ownerHash.isSome, 3), (k.trngOk.toNat, 4)]
    | 0x04 => k.err.toNat
    | 0x0C => k.overlap.toNat
    | 0x20 => fields [((fwSvnNow s).toNat, 0), ((minSvnNow s).toNat, 8)]
    | 0x24 => match k.store with | some o => o.version.toNat | none => 0
    | 0x28 => fields [(k.lockout.toNat, 0), (k.fails.toNat, 16)]
    | 0x40 => k.sessFail.toNat
    | 0x44 => k.recFail.toNat
    | 0x48 => k.keyLoads.toNat
    | 0x4C => k.trngFail.toNat
    | _ => 0

def safetyCode : Safety → Nat
  | .off => 0 | .normal => 1 | .shutdown => 2 | .probe => 3

def ringCode : RingSt → Nat
  | .off => 0 | .locking => 1 | .verify => 2 | .inService => 3 | .swapping => 4 | .retired => 5 | .failed => 6

def spareCode : SpareSt → Nat
  | .idle => 0 | .tuning => 1 | .locked => 2 | .bus => 3 | .failed => 4

/-- A colour's registers, R509; a heater's step is half of 0.1 mW. -/
def readColour (s : State) (n c r : Nat) : Nat :=
  let y := s.col n c
  match r with
  | 0x00 => fields [(y.lastCid.toNat, 0), (y.lastEcho.toNat, 8), (b2n y.los, 18), (b2n y.spared, 19), (y.rx.att.toNat, 20), (y.tx.att.toNat, 22), (ringCode y.rx.st, 24), (ringCode y.tx.st, 28)]
  | 0x04 => fields [(y.bias.toNat, 0), (laserEolOf s n c, 16), (y.stage.toNat, 28)]
  | 0x08 => fields [(y.rx.heat / 2, 0), (y.tx.heat / 2, 16)]
  | 0x0C => y.rxPwr.toNat
  | 0x10 => y.credits.toNat
  | _ => 0

/-- A photonic engine's registers, R504 to R510. -/
def readPhn (s : State) (off : Nat) : Nat :=
  let n := off / 0x1000
  let r := off % 0x1000
  let x := s.phe n
  if inArray r 0x100 0x20 32 then readColour s n ((r - 0x100) / 0x20) (r % 0x20)
  else if inArray r 0x40 4 4 then
    let o := x.spare ((r - 0x40) / 4)
    fields [(spareCode o.st, 0), (o.moves.toNat, 3), (o.colour.toNat, 8), (o.bias.toNat, 20)]
  else match r with
    | 0x00 => fields [(safetyCode x.safety, 0), (b2n s.phn.interlock, 3)]
    | 0x04 => fields [(b2n x.forceOff, 0), (b2n x.autoSwap, 1), (b2n x.rxSel, 5), (x.colour.toNat, 8)]
    | 0x08 => x.err.toNat
    | 0x0C => fields [(b2n x.evDir, 0), (x.evColour.toNat, 8), (x.evKind.toNat, 16)]
    | 0x10 => fields [(x.freqWin.toNat, 0), (x.biasMax.toNat, 16)]
    | 0x14 => fields [(x.heatMin.toNat, 0), (x.heatMax.toNat, 16)]
    | 0x18 => fields [(x.pwrTgt.toNat, 8), (x.pwrMin.toNat, 16), (x.pwrMax.toNat, 24)]
    | 0x1C => x.rxTotal.toNat
    | 0x20 => x.wrongLock.toNat
    | 0x24 => x.swaps.toNat
    | 0x28 => x.eyes.toNat
    | 0x2C => x.discards.toNat
    | 0x30 => x.fenceSat.toNat
    | _ => 0

/-- A queue's registers, R531 and R532. -/
def readQueue (s : State) (qn r : Nat) : Nat :=
  let q := s.queue qn
  match r with
  | 0x00 => q.cfg.toNat
  | 0x04 => q.mask.toNat
  | 0x08 => q.weight.toNat
  | 0x0C => q.srate.toNat
  | 0x10 => q.sburst.toNat
  | 0x14 => q.prate.toNat
  | 0x18 => q.pburst.toNat
  | 0x1C => q.depth
  | 0x20 => q.sampleDepth.toNat
  | 0x24 => q.sampleDelay.toNat
  | 0x28 => q.maxDelay.toNat
  | 0x2C => q.sentCount.toNat
  | 0x30 => q.dropCount.toNat
  | 0x34 => q.polCount.toNat
  | _ => 0

/-- The SCH registers, R529 to R532. -/
def readSch (s : State) (off : Nat) : Nat :=
  let h := s.sch
  if inArray off 0x1000 0x40 256 then readQueue s ((off - 0x1000) / 0x40) (off % 0x40)
  else if inArray off 0x8000 4 256 then (gateEntry s false ((off - 0x8000) / 4)).toNat
  else if inArray off 0x8400 4 256 then (gateEntry s true ((off - 0x8400) / 4)).toNat
  else match off with
    | 0x04 => fields [((gateOpen s s.count).toNat, 0), (gateIndex s s.count, 8), (b2n h.swapPending, 16)]
    | 0x08 => h.err.toNat
    | 0x18 => h.gateCycle.toNat
    | 0x1C => fields [(b2n h.gateEn, 0), (b2n h.active, 8)]
    | 0x20 => fields [(h.len0.toNat, 0), (h.len1.toNat, 16)]
    | 0x24 => h.samplePeriod.toNat
    | 0x28 => h.sampleSeq.toNat
    | 0x2C => h.ctlDrop.toNat
    | _ => 0

/-- Recommendations outstanding, R593. -/
def outstanding (s : State) : Nat := (s.sng.parts.filter fun p => p.2.recommended).length

/-- SNG_PRESSURE, R593, from the pressure record. -/
def pressureWord (s : State) : Nat :=
  let p := pressureRecord s true
  let b := fun i : Nat => (p.getD i 0).toNat
  if s.top.ready.getLsbD rdySng then fields [(b 8, 0), (b 4, 8), (b 1, 16), (b 0, 24)] else fields [(0xFF, 8)]

/-- The ledger's registers, R592 to R595. -/
def readSng (s : State) (off : Nat) : Nat :=
  let g := s.sng
  match off with
  | 0x00 => fields [(b2n g.summaryOk, 0), (b2n g.journalOk, 1), (b2n g.flushing, 2), (outstanding s, 16)]
  | 0x04 => g.err.toNat
  | 0x0C => fields [(g.softT.toNat, 0), (g.retol.toNat, 8)]
  | 0x18 => g.lifeS.toNat
  | 0x1C => pressureWord s
  | 0x20 => g.recoCount.toNat
  | 0x24 => g.softCount.toNat
  | 0x28 => g.hardCount.toNat
  | 0x2C => g.refusedCount.toNat
  | _ => 0

/-- HWK_SESSi, R560. -/
def sessWord (s : State) (i : Nat) : Nat :=
  match s.session i with
  | none => 0
  | some x => if x.isOpen then fields [(x.num.toNat, 0), (b2n (decide (x.hcs = 3)), 28), (x.level.toNat, 29), (1, 31)] else 0

/-- Hawk's registers and the mailbox windows, R558 to R561. -/
def readHwk (s : State) (off : Nat) : Nat :=
  let h := s.hwk
  if off < 0x800 then
    let m := s.mbox (off / 0x80)
    leNat (slice (if off % 0x80 < 0x40 then m.cmdRec else m.respRec) (off % 0x40) 4)
  else if inArray off 0x1100 4 8 then sessWord s ((off - 0x1100) / 4)
  else match off with
    | 0x1000 => bitsWhere 16 (fun m => (s.mbox m).running.isSome) + h.fwState.toNat * 2 ^ 16
    | 0x1004 => h.err.toNat
    | 0x100C => (fwVersionNow s).toNat
    | 0x1010 => h.cmdCount.toNat
    | 0x1014 => h.refusedCount.toNat
    | 0x1018 => h.dropCount.toNat
    | _ => 0

/-- The PWR registers, R615 to R618. -/
def readPwr (s : State) (off : Nat) : Nat :=
  let p := s.pwr
  if inArray off 0x10 4 4 then (Tab.get 24 p.temps ((off - 0x10) / 4)).toNat
  else match off with
    | 0x00 => fields [(p.level.toNat, 0), (b2n (levelPending s), 3), (b2n p.slowed, 6), (b2n p.supplyWarn, 7), (p.tjMax.toNat, 8)]
    | 0x04 => p.err.toNat
    | 0x08 => fields [(p.minLevel.toNat, 2)]
    | 0x0C => fields [(p.causeKind.toNat, 0), (p.causeSource.toNat, 4)]
    | 0x20 => p.throttleCount.toNat
    | 0x24 => p.emergencyCount.toNat
    | 0x28 => p.supplyWarnCount.toNat
    | 0x2C => p.resetCount.toNat
    | _ => 0

/-- A word of a register of 32 bits; a word that no register defines reads 0, R23. -/
def plainRead (s : State) (b : Blk) (off : Nat) : Nat :=
  match b with
  | .top => readTop s off
  | .plb => readPlb s off
  | .stn => readStn s off
  | .trw => readTrw s off
  | .skm => readSkm s off
  | .lth => readLth s off
  | .hbm => readHbm s off
  | .rnd => readRnd s off
  | .mnd => readMnd s off
  | .slr => readSlr s off
  | .phn => readPhn s off
  | .sch => readSch s off
  | .sng => readSng s off
  | .hwk => readHwk s off
  | .pwr => readPwr s off
  | .clc => readClc s off

/-! ## Registers wider than 32 bits, R6 -/

/-- A wide register: its offset in a window, its number of words, its value and its Reset value. -/
structure Wide where
  base : Nat
  words : Nat
  value : Nat
  reset : Nat := 0
deriving DecidableEq, Repr

/-- PLB_TIME: SEC, NS and FRAC. -/
def plbTimeWord (t : FullTime) : Nat :=
  let ns := t / 65536
  ns / 1000000000 * 2 ^ 48 + ns % 1000000000 * 2 ^ 16 + t % 65536

/-- The wide registers of the window that an offset lies in, and the offset in that window. -/
def wides (s : State) (b : Blk) (off : Nat) : Nat × List Wide :=
  match b with
  | .top => (off, [⟨0x20, 2, s.top.trw.toNat, 0⟩])
  | .stn =>
    let c := s.se.cap
    (off, [⟨0x10, 2, planIdOf s.stn.cur, 0⟩, ⟨0x18, 2, planIdOf s.stn.next, 0⟩, ⟨0x28, 2, s.stn.stepStart.toNat, 0⟩,
      ⟨0x120, 2, (match c with | some x => (match x.addr with | some a => fields [(a.2.2.toNat, 0), (a.2.1.toNat, 48)] | none => 0) | none => 0), 0⟩,
      ⟨0x128, 2, (match c with | some x => x.loc.toNat | none => 0), 0⟩, ⟨0x130, 2, (match c with | some x => x.peer.toNat | none => 0), 0⟩])
  | .trw =>
    let x := s.eng (off / 0x1000)
    (off % 0x1000, [⟨0x10, 2, (match x.nf with | some n => fields [(n.2.toNat, 0), (1, 63)] | none => 0), 0⟩, ⟨0x38, 2, x.idxb.toNat, 0⟩])
  | .plb =>
    if inArray off 0x100 0x20 19 then
      let i := (off - 0x100) / 0x20
      let x := s.src i
      (off % 0x20, [⟨0x08, 2, fields [(x.asym.toNat, 0), (b2n x.asymValid, 63)], if i = 0 then 2 ^ 63 else 0⟩, ⟨0x10, 2, x.offset.toNat, 0⟩, ⟨0x18, 2, x.delay.toNat, 0⟩])
    else if inArray off 0x1000 0x10 32 then (off % 0x10, [⟨0, 2, (s.trig ((off - 0x1000) / 0x10)).target.toNat, 0⟩])
    else (off, [⟨0x10, 3, plbTimeWord s.plb.time, 0⟩, ⟨0x20, 2, s.count.toNat, 0⟩, ⟨0x28, 2, s.plb.inc.toNat, 0x6400000000⟩, ⟨0x30, 2, s.plb.stepVal.toNat, 0⟩,
      ⟨0x38, 2, s.plb.offset.toNat, 0⟩, ⟨0x50, 2, fields [(s.plb.ppsTod.toNat, 0), (b2n s.plb.ppsTodValid, 63)], 0⟩])
  | .skm =>
    if inArray off 0x4000 0x20 256 then
      let lo := off / 0x20 * 0x20 + 0x0C
      (off % 0x20, [⟨0x0C, 2, skmWord s.skm.tables lo + 2 ^ 32 * skmWord s.skm.tables (lo + 4), 0⟩])
    else (off, [])
  | .hbm => (off % 0x400, [⟨0x20, 2, (match (s.stack (off / 0x400)).ueAddr with | some a => fields [(a.toNat, 0), (1, 63)] | none => 0), 0⟩])
  | .rnd =>
    let p := off / 0x800
    (off % 0x800, [⟨0x418, 4, bitsWhere 128 (fun i => (s.bond p).en && (svcLanes s p).any fun g => decide ((s.lane g).rxPos.toNat = i)), 0⟩])
  | .mnd =>
    if inArray off 0x100 0x80 16 then
      let x := s.mbond ((off - 0x100) / 0x80)
      (off % 0x80, [⟨0x10, 2, x.txSeq.toNat, 0⟩, ⟨0x18, 2, x.ackIn.toNat, 0⟩, ⟨0x20, 2, x.rxAck.toNat, 0⟩])
    else (off, [])
  | .slr =>
    if inArray off 0x100 0x40 16 then
      let x := s.sbond ((off - 0x100) / 0x40)
      let n := match x.activeTx with | some e => (x.tx e).nctr | none => 0
      (off % 0x40, [⟨0x08, 2, n, 0⟩, ⟨0x10, 2, x.tx0.id.toNat, 0⟩, ⟨0x18, 2, x.tx1.id.toNat, 0⟩, ⟨0x20, 2, x.rx0.id.toNat, 0⟩, ⟨0x28, 2, x.rx1.id.toNat, 0⟩])
    else (off, [⟨0x10, 4, Config.deviceId.toNat, Config.deviceId.toNat⟩])
  | .sch => (off, [⟨0x10, 2, s.sch.gateBase.toNat, 0⟩])
  | .sng => (off, [⟨0x10, 2, s.sng.seq.toNat + 1, s.sng.seq.toNat + 1⟩])
  | .lth => (off, [])
  | .phn => (off, [])
  | .hwk => (off, [])
  | .pwr => (off, [])
  | .clc => (off, [])

/-- The wide register that an offset lies in, and which of its words. -/
def wideOf (s : State) (b : Blk) (off : Nat) : Option (Wide × Nat) :=
  let (r, l) := wides s b off
  (l.find? fun w => decide (w.base ≤ r) && decide (r < w.base + 4 * w.words)).map fun w => (w, (r - w.base) / 4)

def word32 (v i : Nat) : BitVec 32 := BitVec.ofNat 32 (v / 2 ^ (32 * i))

/-- A read of the low word captures the higher words; one of PLB_TIME also those of PLB_COUNT, R313. -/
def capture (s : State) (a : Nat) (w : Wide) : State :=
  let c := (List.range (w.words - 1)).foldl (fun c i => Tab.put none c (a + 4 * (i + 1)) (some (word32 w.value (i + 1)))) s.captures
  { s with captures := if a = 0x10010 then Tab.put none c 0x10024 (some (word32 s.count.toNat 1)) else c }

/-- A read of one aligned word: its value and the state after it, or none where the access is refused. -/
def readWord (s : State) (a : BitVec 32) : Option (BitVec 32 × State) :=
  match locate a with
  | none => none
  | some (b, off) =>
    match wideOf s b off with
    | none => some (BitVec.ofNat 32 (plainRead s b off), s)
    | some (w, i) =>
      if i = 0 then some (word32 w.value 0, capture s a.toNat w)
      else some ((Tab.get none s.captures a.toNat).getD (word32 w.reset i), s)

/-! ## Writes, R7, R8 and the registers' own rules -/

def writeTop (s : State) (off : Nat) (v : BitVec 32) : State :=
  if off = 0x14 then { s with top := { s.top with drop := s.top.drop &&& ~~~(v.setWidth 13) } } else s

def writeTrw (s : State) (off : Nat) (v : BitVec 32) : State :=
  let e := off / 0x1000
  match off % 0x1000 with
  | 0x04 => engCtrlWrite s e v
  | 0x08 => s.setEng e { s.eng e with err := clearErr (s.eng e).err v }
  | _ => s

def writeSkm (s : State) (off : Nat) (v : BitVec 32) : State :=
  if inArray off 0x1000 4 35 then { s with skm := { s.skm with stage := Tab.put 0 s.skm.stage ((off - 0x1000) / 4) v } }
  else match off with
    | 0x00 => skmCtrlWrite s v
    | 0x08 => { s with skm := { s.skm with err := clearErr s.skm.err v } }
    | _ => s

/-- A write of SE_CTRL, R282. -/
def seCtrlWrite (s : State) (v : BitVec 32) : State :=
  let s := seRoleWrite s v
  let s := if v.getLsbD 1 then clrCapture s else s
  if v.getLsbD 2 then seClrCounts s else s

def writeStn (s : State) (off : Nat) (v : BitVec 32) : State :=
  match off with
  | 0x00 => stnCtrlWrite s v
  | 0x34 => { s with stn := { s.stn with err := clearErr s.stn.err v } }
  | 0x110 => seCtrlWrite s v
  | _ => s

/-- A write of CLC_CTRL, R251: an ABORT is ignored while one is PENDING. -/
def clcCtrlWrite (s : State) (v : BitVec 32) : State :=
  let c := bitsOf v.toNat 13 8
  if v.getLsbD 1 ∧ s.clc.abortResult = 0 then s
  else
    let s := { s with clc := { s.clc with collSel := BitVec.ofNat 6 c } }
    let s := if v.getLsbD 2 then clcClrCounts s else s
    if v.getLsbD 1 then clcAbort s c s.clc.abortStep none else s

def writeClc (s : State) (off : Nat) (v : BitVec 32) : State :=
  match off with
  | 0x00 => clcCtrlWrite s v
  | 0x08 => { s with clc := { s.clc with err := clearErr s.clc.err v } }
  | 0x0C => { s with clc := { s.clc with abortStep := v } }
  | _ => s

/-- PLB_SRCs_CFG, R318. -/
def srcCfgWrite (s : State) (i : Nat) (v : BitVec 32) : State :=
  requalify (s.setSrc i { s.src i with en := v.getLsbD 31, prio := BitVec.ofNat 4 (bitsOf v.toNat 27 24) })

def writePlb (s : State) (off : Nat) (v : BitVec 32) : State :=
  let p := s.plb
  if inArray off 0x100 0x20 19 ∧ off % 0x20 = 0 then srcCfgWrite s ((off - 0x100) / 0x20) v
  else match off with
    | 0x00 => plbCtrlWrite s v
    | 0x08 => { s with plb := { p with err := clearErr p.err v } }
    | 0x0C => { s with plb := { p with bw := BitVec.ofNat 3 v.toNat, outlierNs := BitVec.ofNat 16 (v.toNat / 256), calS := BitVec.ofNat 8 (v.toNat / 2 ^ 24) } }
    | 0x40 => { s with plb := { p with ptpCfg := v &&& 0xFF07 } }
    | 0x44 => { s with plb := { p with ppsInAdj := v } }
    | 0x48 => armPps { s with plb := { p with ppsOutAdj := v } }
    | _ => s

def writeHbm (s : State) (off : Nat) (v : BitVec 32) : State :=
  let k := off / 0x400
  match off % 0x400 with
  | 0x04 => hbmCtrlWrite s k v
  | 0x08 => s.setStack k { s.stack k with err := clearErr (s.stack k).err v }
  | _ => s

def writeLth (s : State) (off : Nat) (v : BitVec 32) : State :=
  if inArray off 0x30 4 4 then legFramesWrite s ((off - 0x30) / 4 + 1) v
  else match off with
    | 0x00 => if v.getLsbD 0 then lthClrCounts s else s
    | 0x08 => { s with lth := { s.lth with err := clearErr s.lth.err v } }
    | 0x0C => lathCmdWrite s v
    | 0x10 => { s with lth := { s.lth with argHandle := v } }
    | 0x14 => { s with lth := { s.lth with argOwner := v } }
    | 0x18 => { s with lth := { s.lth with argNew := v &&& 0xC0000000 } }
    | _ => s

def writeRnd (s : State) (off : Nat) (v : BitVec 32) : State :=
  let p := off / 0x800
  let r := off % 0x800
  if inArray r 0x100 0x40 8 then
    let g := 8 * p + (r - 0x100) / 0x40
    if r % 0x40 = 4 then s.setLane g { s.lane g with err := clearErr (s.lane g).err v } else s
  else match r with
    | 0x00 => portCfgWrite s p v
    | 0x08 => s.setRport p { s.rport p with err := clearErr (s.rport p).err v }
    | 0x400 => bondCfgWrite s p v
    | 0x404 => bondCfg2Write s p v
    | 0x40C => s.setBond p { s.bond p with err := clearErr (s.bond p).err v }
    | 0x600 => if p < 4 then tribCfgWrite s p v else s
    | 0x608 => if p < 4 then s.setTrib p { s.trib p with err := clearErr (s.trib p).err v } else s
    | _ => s

/-- A write of MND_CTRL; Hawk reads the lanes' counters before they are cleared, R566. -/
def mndCtrlCsr (s : State) (v : BitVec 32) : State := mndCtrlWrite (if v.getLsbD 0 then clearMnd s else s) (v &&& 0xFFFFFFFE)

def writeMnd (s : State) (off : Nat) (v : BitVec 32) : State :=
  if inArray off 0x100 0x80 16 then
    let b := (off - 0x100) / 0x80
    match off % 0x80 with
    | 0x00 => stripeCfgWrite s b v
    | 0x08 => s.setMbond b { s.mbond b with err := clearErr (s.mbond b).err v }
    | _ => s
  else if inArray off 0x1000 0x40 128 then
    let g := (off - 0x1000) / 0x40
    match off % 0x40 with
    | 0x00 => s.setMlane g { s.mlane g with highT := BitVec.ofNat 4 v.toNat, precode := v.getLsbD 8 }
    | 0x08 => s.setMlane g { s.mlane g with err := clearErr (s.mlane g).err v }
    | _ => s
  else if off = 0 then mndCtrlCsr s v else s

def writeSlr (s : State) (off : Nat) (v : BitVec 32) : State :=
  if inArray off 0x100 0x40 16 then
    let b := (off - 0x100) / 0x40
    if off % 0x40 = 4 then s.setSbond b { s.sbond b with err := clearErr (s.sbond b).err v } else s
  else match off with
    | 0x04 => { s with slr := { s.slr with err := clearErr s.slr.err v } }
    | 0x08 => if v.getLsbD 0 then slrClrCounts s else s
    | 0x0C => { s with slr := { s.slr with overlap := v.setWidth 16 } }
    | _ => s

def writePhn (s : State) (off : Nat) (v : BitVec 32) : State :=
  let n := off / 0x1000
  match off % 0x1000 with
  | 0x04 => phnCtrlWrite s n v
  | 0x08 => s.setPhe n { s.phe n with err := clearErr (s.phe n).err v }
  | 0x10 => fenceWrite s n 0 v
  | 0x14 => fenceWrite s n 1 v
  | 0x18 => fenceWrite s n 2 v
  | _ => s

/-- CFG_REFUSED of SCH_ERR, R515 and R524. -/
def schRefused (s : State) : State := { s with sch := { s.sch with err := setErr s.sch.err 0 } }

/-- A gate list entry: those of the active bank are refused, R524. -/
def gateEntryWrite (s : State) (bank : Bool) (i : Nat) (v : BitVec 32) : State :=
  if bank = s.sch.active then schRefused s
  else if bank then { s with sch := { s.sch with bank1 := Tab.put 0xFF000000 s.sch.bank1 i v } }
  else { s with sch := { s.sch with bank0 := Tab.put 0xFF000000 s.sch.bank0 i v } }

/-- A write of SCH_GATE_LEN: one that would change the field of the active bank is refused, R524. -/
def gateLenWrite (s : State) (v : BitVec 32) : State :=
  let l0 := BitVec.ofNat 9 v.toNat
  let l1 := BitVec.ofNat 9 (v.toNat / 65536)
  if (if s.sch.active then decide (l1 ≠ s.sch.len1) else decide (l0 ≠ s.sch.len0)) then schRefused s
  else { s with sch := { s.sch with len0 := l0, len1 := l1 } }

/-- A write of SCH_GATE_CTRL. -/
def gateCtrlWrite (s : State) (v : BitVec 32) : State := gateEnable (if v.getLsbD 1 then gateSwap s else s) (v.getLsbD 0)

def schCtrlWrite (s : State) (v : BitVec 32) : State :=
  let s := if v.getLsbD 1 then schClrCounts s else s
  if v.getLsbD 2 then clrMax s else s

/-- The settings register of a queue at an offset of its window. -/
def queueReg (r : Nat) : Option QueueReg :=
  match r with
  | 0x00 => some .cfg
  | 0x04 => some .mask
  | 0x08 => some .weight
  | 0x0C => some .srate
  | 0x10 => some .sburst
  | 0x14 => some .prate
  | 0x18 => some .pburst
  | _ => none

def writeSch (s : State) (off : Nat) (v : BitVec 32) : State :=
  if inArray off 0x1000 0x40 256 then
    match queueReg (off % 0x40) with
    | some r => queueCfgWrite s ((off - 0x1000) / 0x40) r v
    | none => s
  else if inArray off 0x8000 4 256 then gateEntryWrite s false ((off - 0x8000) / 4) v
  else if inArray off 0x8400 4 256 then gateEntryWrite s true ((off - 0x8400) / 4) v
  else match off with
    | 0x00 => schCtrlWrite s v
    | 0x08 => { s with sch := { s.sch with err := clearErr s.sch.err v } }
    | 0x18 => if s.sch.gateEn then schRefused s else { s with sch := { s.sch with gateCycle := v } }
    | 0x1C => gateCtrlWrite s v
    | 0x20 => gateLenWrite s v
    | 0x24 => armSampling s v
    | _ => s

def writeSng (s : State) (off : Nat) (v : BitVec 32) : State :=
  match off with
  | 0x04 => { s with sng := { s.sng with err := clearErr s.sng.err v } }
  | 0x08 => sngCtrlWrite s v
  | 0x0C => { s with sng := { s.sng with softT := BitVec.ofNat 8 v.toNat, retol := BitVec.ofNat 8 (v.toNat / 256) } }
  | _ => s

def writeHwk (s : State) (off : Nat) (v : BitVec 32) : State :=
  match off with
  | 0x1004 => { s with hwk := { s.hwk with err := clearErr s.hwk.err v } }
  | 0x1008 => if v.getLsbD 0 then clearHwk s else s
  | _ => s

def writePwr (s : State) (off : Nat) (v : BitVec 32) : State :=
  match off with
  | 0x04 => { s with pwr := { s.pwr with err := clearErr s.pwr.err v } }
  | 0x08 => pwrCtrlWrite s v
  | _ => s

/-- A write to a word of a register of 32 bits; every other word ignores it. -/
def plainWrite (s : State) (b : Blk) (off : Nat) (v : BitVec 32) : State :=
  match b with
  | .top => writeTop s off v
  | .plb => writePlb s off v
  | .stn => writeStn s off v
  | .trw => writeTrw s off v
  | .skm => writeSkm s off v
  | .lth => writeLth s off v
  | .hbm => writeHbm s off v
  | .rnd => writeRnd s off v
  | .mnd => writeMnd s off v
  | .slr => writeSlr s off v
  | .phn => writePhn s off v
  | .sch => writeSch s off v
  | .sng => writeSng s off v
  | .hwk => writeHwk s off v
  | .pwr => writePwr s off v
  | .clc => writeClc s off v

/-- A writable wide register takes a value, R313; every other one ignores it. -/
def wideWrite (s : State) (b : Blk) (off : Nat) (v : Nat) : State :=
  match b with
  | .plb =>
    if inArray off 0x100 0x20 19 then (if off % 0x20 = 8 then asymWrite s ((off - 0x100) / 0x20) (v.testBit 63) (BitVec.ofNat 48 v) else s)
    else match off with
      | 0x28 => incWrite s (BitVec.ofNat 40 v)
      | 0x30 => { s with plb := { s.plb with stepVal := BitVec.ofNat 64 v } }
      | 0x50 => requalify { s with plb := { s.plb with ppsTod := BitVec.ofNat 48 v, ppsTodValid := v.testBit 63 } }
      | _ => s
  | .sch => if off = 0x10 then (if s.sch.gateEn then schRefused s else { s with sch := { s.sch with gateBase := BitVec.ofNat 48 v } }) else s
  | _ => s

/-- Low words of the wide registers that are RW, R317, R318 and R530. -/
def wideRw (b : Blk) (off : Nat) : Bool :=
  (decide (b = .plb) && (decide (off = 0x28) || decide (off = 0x30) || decide (off = 0x50) || (inArray off 0x100 0x20 19 && decide (off % 0x20 = 8)))) || (decide (b = .sch) && decide (off = 0x10))

/-- A write of one aligned word, or none where the access is refused. A word of a wide register waits until the highest is written, R313; the low word written last counts, or that of the register where none was. -/
def writeWord (s : State) (a v : BitVec 32) : Option State :=
  match locate a with
  | none => none
  | some (b, off) =>
    match wideOf s b off with
    | none => some (plainWrite s b off v)
    | some (w, i) =>
      if i + 1 < w.words then some (if wideRw b off then { s with wstage := Tab.put none s.wstage a.toNat (some v) } else s)
      else if w.words = 2 then
        let lo := (Tab.get none s.wstage (a.toNat - 4)).getD (word32 w.value 0)
        some (wideWrite { s with wstage := Tab.put none s.wstage (a.toNat - 4) none } b (off - 4) (lo.toNat + 2 ^ 32 * v.toNat))
      else some s

/-! ## CSR_WRITE and WIDE_REGISTER_LOW_READ -/

/-- A write by Hawk, which reaches the space directly, R24; a refused access changes nothing, R5. -/
def csrWrite (s : State) (a v : BitVec 32) : State := (writeWord s a v).getD s
def execCsrWrite (addr value : BitVec 32) (s : State) : Host.Outcome State Fault Refusal := act s (csrWrite s addr value)

/-- A read by Hawk: only the low word of a wide register leaves a trace, R6. -/
def csrRead (s : State) (a : BitVec 32) : State := match readWord s a with | some (_, t) => t | none => s
def execWideRegisterLowRead (addr : BitVec 32) (s : State) : Host.Outcome State Fault Refusal := act s (csrRead s addr)

end Sys2Proof.Machine
end

