-- ==== Sys2Proof/Machine/Hawk.lean ====
section
/-! DEFINITION. Hawk's own commands, chapter 15: sessions and information, PEEK and POKE, staging areas and bulk data, firmware update and recovery, and the addresses of the host port. -/

namespace Sys2Proof.Machine

/-! ## NOP, CLOSE, INFO and READY, R547 to R549 -/

def nopCmd (s : State) (r : MboxRec) : State := mboxCmd s r (needs 0x0001 false true []) [] fun s => respond s r 0x0001 stOk []
def execNop (r : MboxRec) (s : State) : Host.Outcome State Fault Refusal := act s (nopCmd s r)

/-- CLOSE: the session closes after the response. -/
def closeCmd (s : State) (r : MboxRec) : State :=
  mboxCmd s r (needs 0x0002 false true []) [] fun s =>
    let t := respond s r 0x0002 stOk []
    match sessionSlot t r.session with
    | some i => closeSession t i true
    | none => t
def execClose (r : MboxRec) (s : State) : Host.Outcome State Fault Refusal := act s (closeCmd s r)

def topIdBytes : List Byte := beBytes 4 0x9640B100

/-- Sessions that are open. -/
def openCount (s : State) : Nat := ((List.range 8).filter fun i => match s.session i with | some x => x.isOpen | none => false).length

/-- RESULT of INFO, R548; bytes 16 to 31 are 0 in HCS 2, R552. -/
def infoResult (s : State) (x : Session) : List Byte :=
  topIdBytes ++ beBytes 4 (topAsig s).toNat ++ beBytes 4 (fwVersionNow s).toNat ++ beBytes 4 (fwSvnNow s).toNat
    ++ (if x.hcs = 2 then [] else ([0x0C, x.level.setWidth 8] : List Byte) ++ beBytes 2 x.mask.toNat ++ beBytes 2 x.num.toNat ++ [BitVec.ofNat 8 (openCount s)])

def infoCmd (s : State) (r : MboxRec) : State :=
  mboxCmd s r (needs 0x0003 false true []) [] fun s => match recSession s r with
    | some (_, x) => respond s r 0x0003 stOk (infoResult s x)
    | none => s
def execInfo (r : MboxRec) (s : State) : Host.Outcome State Fault Refusal := act s (infoCmd s r)

/-- RESULT of READY, R549. -/
def readyResult (s : State) : List Byte :=
  beBytes 4 s.top.ready.toNat ++ beBytes 4 s.top.drop.toNat ++ beBytes 8 s.top.trw.toNat ++ beBytes 4 s.top.hbm.toNat ++ beBytes 2 s.top.far.toNat ++ [s.top.near]

def readyCmd (s : State) (r : MboxRec) : State := mboxCmd s r (needs 0x0004 false false []) [] fun s => respond s r 0x0004 stOk (readyResult s)
def execReady (r : MboxRec) (s : State) : Host.Outcome State Fault Refusal := act s (readyCmd s r)

/-! ## PEEK and POKE, R550 -/

/-- Up to n words in increasing address order: the words, the address that was refused if one was, and the state after the reads. -/
def peekWords : (n : Nat) → BitVec 32 → State → List (BitVec 32) × Option (BitVec 32) × State
  | 0, _, s => ([], none, s)
  | n + 1, a, s =>
    match readWord s a with
    | none => ([], some a, s)
    | some (w, s) =>
      let (ws, bad, s) := peekWords n (a + 4) s
      (w :: ws, bad, s)

/-- PEEK: N is 1 to 8, and 1 in HCS 2. A refusal carries the address refused and the words read before it. -/
def peekCmd (s : State) (r : MboxRec) (addr : BitVec 32) (n : BitVec 8) : State :=
  mboxCmd s r (needs 0x0010 false true []) (beBytes 4 addr.toNat ++ [n]) fun s =>
    if n = 0 ∨ 8 < n.toNat ∨ (r.hcs = 2 ∧ n ≠ 1) then badArg s r 0x0010 4
    else
      let (ws, bad, s) := peekWords n.toNat addr s
      let bytes := ws.flatMap fun w => beBytes 4 w.toNat
      match bad with
      | none => respond s r 0x0010 stOk bytes
      | some a => respond s r 0x0010 stAccessError (beBytes 4 a.toNat ++ bytes.take 28)
def execPeek (r : MboxRec) (addr : BitVec 32) (n : BitVec 8) (s : State) : Host.Outcome State Fault Refusal := act s (peekCmd s r addr n)

/-- Whether a POKE may reach an address of the HWK span: HWK_ERR and HWK_CTRL only. -/
def pokeAllowed (a : BitVec 32) : Bool := !(decide (0x110000 ≤ a.toNat) && decide (a.toNat < 0x120000)) || decide (a = 0x111004) || decide (a = 0x111008)

/-- POKE; a write to LTH_CMD is a Lath command of the host. -/
def pokeCmd (s : State) (r : MboxRec) (addr value : BitVec 32) : State :=
  mboxCmd s r (needs 0x0011 true true []) (beBytes 4 addr.toNat ++ beBytes 4 value.toNat) fun s =>
    match (if pokeAllowed addr then writeWord s addr value else none) with
    | some t => respond (if addr = 0x9000C then lathCmdPoke r.session s value else t) r 0x0011 stOk []
    | none => respond s r 0x0011 stAccessError (beBytes 4 addr.toNat)
def execPoke (r : MboxRec) (addr value : BitVec 32) (s : State) : Host.Outcome State Fault Refusal := act s (pokeCmd s r addr value)

/-! ## Staging areas, R546 and R551 -/

def stageHolder (s : State) (area : Nat) : Option (BitVec 16) := if area = 1 then s.hwk.stage1 else s.hwk.stage2
def setStage (s : State) (area : Nat) (v : Option (BitVec 16)) : State :=
  if area = 1 then { s with hwk := { s.hwk with stage1 := v } } else { s with hwk := { s.hwk with stage2 := v } }

/-- First stack of a quadrant whose readiness bit is 0. -/
def firstStackDown (s : State) (q : Nat) : Option Nat := ((List.range 8).map (8 * q + ·)).find? fun k => !s.top.hbm.getLsbD k

def areaOk (r : MboxRec) (area : BitVec 8) : Bool := decide (area = 1) || (decide (area = 2) && decide (r.hcs ≠ 2))

/-- STAGE_CLAIM. -/
def stageClaim (s : State) (r : MboxRec) (area : BitVec 8) : State :=
  mboxCmd s r (needs 0x0020 true true []) [area] fun s =>
    if !areaOk r area then badArg s r 0x0020 0
    else match firstStackDown s (area.toNat - 1) with
      | some k => respond s r 0x0020 stNotReady [2, BitVec.ofNat 8 k]
      | none =>
        match stageHolder s area.toNat with
        | some n => if n = r.session then respond s r 0x0020 stOk [] else respond s r 0x0020 stMboxBusy []
        | none => respond (setStage s area.toNat (some r.session)) r 0x0020 stOk []
def execStageClaim (r : MboxRec) (area : BitVec 8) (s : State) : Host.Outcome State Fault Refusal := act s (stageClaim s r area)

/-- STAGE_RELEASE. -/
def stageRelease (s : State) (r : MboxRec) (area : BitVec 8) : State :=
  mboxCmd s r (needs 0x0021 true true []) [area] fun s =>
    if !areaOk r area then badArg s r 0x0021 0
    else if stageHolder s area.toNat = some r.session then respond (setStage s area.toNat none) r 0x0021 stOk []
    else respond s r 0x0021 stNotOwner []
def execStageRelease (r : MboxRec) (area : BitVec 8) (s : State) : Host.Outcome State Fault Refusal := act s (stageRelease s r area)

/-! ## Bulk data, R545 and R546 -/

def area1Size : Nat := 67109376
def area2Size : Nat := 100663296
def area3Size : Nat := 8192

/-- Whether a session owns the buffer of a handle as class 2 and is not dead, R349 and R546. -/
def ownsBuffer (s : State) (num : BitVec 16) (h : BitVec 32) : Bool :=
  handleOk s.lth h.toNat && decide (ownerOf s.lth h.toNat = some (sessionOwner num)) && !isDead s.lth (sessionOwner num)

/-- Size of the area that a bulk transfer names, if the session may use it. -/
def bulkArea (s : State) (num : BitVec 16) (area : Nat) (h : BitVec 32) : Option Nat :=
  match area with
  | 1 => if s.hwk.stage1 = some num then some area1Size else none
  | 2 => if s.hwk.stage2 = some num then some area2Size else none
  | 3 => some area3Size
  | 4 => if ownsBuffer s num h then some (poolSize (handlePool h.toNat)) else none
  | _ => none

/-- Whole tiles written from a tile boundary on, with KIND 0. -/
def writeTiles (s : State) (dha : Nat) (bs : List Byte) : State :=
  ((List.range (bs.length / 4096)).zip (chunks 4096 (bs.length / 4096) bs)).foldl (fun s p => writeTile s (dha + 4096 * p.1) 0 p.2) s

/-- The bytes of a write record go to their place, or the record is discarded. -/
def bulkStore (s : State) (i : Nat) (x : Session) (b : BulkRec) : State :=
  let off := b.offset.toNat
  let n := b.payload.length
  let area := b.area.toNat
  match bulkArea s x.num area b.handle with
  | none => dropDatagram s
  | some size =>
    if size < off + n ∨ (area = 1 ∧ s.stn.admitting.isSome) ∨ (area = 4 ∧ (off % 4096 ≠ 0 ∨ (n ≠ 4096 ∧ n ≠ 8192))) then dropDatagram s
    else match area with
      | 1 => { s with hwk := { s.hwk with area1 := Mem.write s.hwk.area1 off b.payload } }
      | 2 => { s with hwk := { s.hwk with area2 := Mem.write s.hwk.area2 off b.payload } }
      | 3 => s.setSession i (some { x with area3 := Mem.write x.area3 off b.payload })
      | _ => writeTiles s (handleDha s.lth b.handle.toNat + off) b.payload

/-- The tag that the host owes a write record under a session key, R545. -/
def bulkTag (sk : List Byte) (b : BulkRec) : List Byte :=
  recordTag sk 0 b.seq (([0x20, b.hcs] : List Byte) ++ beBytes 2 b.session.toNat ++ [b.area, 0] ++ beBytes 2 b.payload.length ++ beBytes 4 b.handle.toNat
    ++ beBytes 8 b.offset.toNat ++ beBytes 8 b.seq.toNat ++ List.replicate 12 0 ++ b.payload)

/-- BULK_WRITE: a write record, after the checks of R541 that concern it. -/
def bulkWrite (s : State) (b : BulkRec) : State :=
  if !s.hwk.running then s
  else match acceptRecord s b.session b.hcs b.seq (fun x => decide (b.tag = bulkTag x.sk b)) (fun _ => true) with
    | (none, s) => s
    | (some (i, x), s) => bulkStore s i x b
def execBulkWrite (r : BulkRec) (s : State) : Host.Outcome State Fault Refusal := act s (bulkWrite s r)

/-- Sends a read-data record of R545 in a session under its next SEQ. -/
def sendBulk (s : State) (r : MboxRec) (area : BitVec 8) (handle : BitVec 32) (off : Nat) (bs : List Byte) : State :=
  match recSession s r with
  | none => s
  | some (i, x) =>
    let q := x.txSeq + 1
    let hdr := ([0x21, x.hcs] : List Byte) ++ beBytes 2 x.num.toNat ++ [area, 0] ++ beBytes 2 bs.length ++ beBytes 4 handle.toNat ++ beBytes 8 off ++ beBytes 8 q.toNat
    let tag := recordTag x.sk 1 q (hdr ++ List.replicate 12 0 ++ bs)
    emit (s.setSession i (some { x with txSeq := q })) (.host (hdr ++ tag ++ bs))

/-- Places and lengths of the records that carry n bytes from an offset: none crosses a multiple of the unit. -/
def bulkPieces (unit : Nat) : (fuel : Nat) → (off n : Nat) → List (Nat × Nat)
  | 0, _, _ => []
  | f + 1, off, n =>
    if n = 0 then []
    else
      let k := min n (unit - off % unit)
      (off, k) :: bulkPieces unit f (off + k) (n - k)

/-- One piece is read and sent; a tile that fails its check is not sent, R330, and of a coded tile no byte beyond USED, R326. The answer adds the bytes sent. -/
def bulkPiece (r : MboxRec) (area : BitVec 8) (handle : BitVec 32) (acc : List Byte × State) (p : Nat × Nat) : List Byte × State :=
  let s := acc.2
  let off := p.1
  let send := fun (s : State) (bs : List Byte) => (acc.1 ++ bs, sendBulk s r area handle off bs)
  match area.toNat with
  | 1 => send s (Mem.read s.hwk.area1 off p.2)
  | 2 => send s (Mem.read s.hwk.area2 off p.2)
  | 3 => match recSession s r with
    | some (_, x) => send s (Mem.read x.area3 off p.2)
    | none => (acc.1, s)
  | _ =>
    let dha := handleDha s.lth handle.toNat + off
    let (ok, used, s) := readTile s dha
    let bs := slice used (dha % 4096) p.2
    if ok && !bs.isEmpty then send s bs else (acc.1, s)

/-- BULK_READ: the bytes leave in records of at most 8,192 bytes, tile by tile for AREA 4; then the answer with their CRC. -/
def bulkRead (s : State) (r : MboxRec) (area : BitVec 8) (handle : BitVec 32) (off : BitVec 64) (len : BitVec 32) : State :=
  mboxCmd s r (needs 0x0022 (decide (area ≠ 3)) false []) ([area, 0, 0, 0] ++ beBytes 4 handle.toNat ++ beBytes 8 off.toNat ++ beBytes 4 len.toNat) fun s =>
    if area = 0 ∨ 4 < area.toNat then badArg s r 0x0022 0
    else match bulkArea s r.session area.toNat handle with
      | none => respond s r 0x0022 stNotOwner []
      | some size =>
        if size < off.toNat + len.toNat then badArg s r 0x0022 8
        else if len = 0 ∨ 1048576 < len.toNat ∨ len.toNat % 4 ≠ 0 then badArg s r 0x0022 16
        else
          let ps := bulkPieces (if area = 4 then 4096 else 8192) 258 off.toNat len.toNat
          let (bs, s) := ps.foldl (bulkPiece r area handle) ([], s)
          respond s r 0x0022 stOk (beBytes 4 (crc32c bs).toNat)
def execBulkRead (r : MboxRec) (area : BitVec 8) (handle : BitVec 32) (offset : BitVec 64) (len : BitVec 32) (s : State) : Host.Outcome State Fault Refusal :=
  act s (bulkRead s r area handle offset len)

/-! ## Firmware update, R555 and R556 -/

def fwRefuse (s : State) (r : MboxRec) (code : Byte) : State := respond (hwkErr s 2) r 0x0070 stRefused [code]

/-- What an object's bytes say of its image: the signature block is its last 512 bytes, as in R166 and R175, and the rest is the signed part. -/
def imageIn (bs : List Byte) (im : FwImage) : FwImage := { im with digest := sha256 (bs.take (bs.length - 512)), block := bs.drop (bs.length - 512) }

/-- Why an image is refused, R555: the code of the first check that fails. -/
def fwRefusal (s : State) (im : FwImage) : Option Byte :=
  if !im.present || !imageSigned s im then some 1
  else if im.svn.toNat < (minSvnNow s).toNat then some 2
  else if im.part ≠ 0x9640 then some 3
  else none

/-- FW_UPDATE: the image in AREA 2 is checked; the region is then erased and written. -/
def fwUpdate (s : State) (r : MboxRec) (len crc : BitVec 32) (im : FwImage) : State :=
  mboxCmd s r (needs 0x0070 true false []) (beBytes 4 len.toNat ++ beBytes 4 crc.toNat) fun s =>
    if s.hwk.updating.isSome then respond s r 0x0070 stMboxBusy []
    else if s.hwk.stage2 ≠ some r.session then respond s r 0x0070 stNotOwner []
    else if area2Size < len.toNat then respond s r 0x0070 stBadObject [0, 0, 0, 0]
    else
      let bs := Mem.read s.hwk.area2 0 len.toNat
      if crc32c bs ≠ crc then respond s r 0x0070 stBadObject (beBytes 4 (crc32c bs).toNat)
      else
       let im := imageIn bs im
       match fwRefusal s im with
        | some c => fwRefuse s r c
        | none => { s with hwk := { s.hwk with updating := some (r, im), nor := some none, fwState := 2, recoverBuf := Mem.write [] 0 bs } }
def execFwUpdate (r : MboxRec) (len crc : BitVec 32) (im : FwImage) (s : State) : Host.Outcome State Fault Refusal := act s (fwUpdate s r len crc im)

/-- FW_UPDATE_DONE: the read-back agrees, or the region holds no valid image. Flash is not written while SUPPLY_WARN_N is low. -/
def fwUpdateDone (s : State) (readBackOk : Bool) : State :=
  match s.hwk.updating with
  | none => s
  | some (r, im) =>
    if s.pwr.supplyWarn then s
    else if readBackOk then
      respond { s with hwk := { s.hwk with updating := none, nor := some (some im), fwState := 0 } } r 0x0070 stOk (beBytes 4 im.svn.toNat ++ beBytes 4 im.arith.toNat)
    else fwRefuse { s with hwk := { s.hwk with updating := none, nor := some none, fwState := 3 } } r 4
def execFwUpdateDone (readBackOk : Bool) (s : State) : Host.Outcome State Fault Refusal := act s (fwUpdateDone s readBackOk)

/-! ## Addresses, R534 and R535 -/

/-- NET_SET takes effect when its response has been sent; a prefix length of 0 clears the slot. -/
def netSet (s : State) (r : MboxRec) (slot len : BitVec 8) (mp bp : BitVec 16) (addr : BitVec 128) : State :=
  mboxCmd s r (needs 0x0080 true false []) ([slot, len] ++ beBytes 2 mp.toNat ++ beBytes 2 bp.toNat ++ List.replicate 10 0 ++ beBytes 16 addr.toNat) fun s =>
    if 3 < slot.toNat then badArg s r 0x0080 0
    else if 128 < len.toNat then badArg s r 0x0080 1
    else
      let s := respond s r 0x0080 stOk []
      let h := s.hwk
      { s with hwk := { h with addrs := Tab.put (0, 0) h.addrs slot.toNat (if len = 0 then (0, 0) else (len, addr)), mboxPort := mp, bulkPort := bp } }
def execNetSet (r : MboxRec) (slot len : BitVec 8) (mboxPort bulkPort : BitVec 16) (addr : BitVec 128) (s : State) : Host.Outcome State Fault Refusal :=
  act s (netSet s r slot len mboxPort bulkPort addr)

/-- Link-local address from the MAC address by the modified EUI-64 rule. -/
def linkLocal : BitVec 128 :=
  let m := Config.macAddress.toNat
  BitVec.ofNat 128 (0xFE80 * 2 ^ 112 + ((m / 2 ^ 24) ^^^ 0x020000) * 2 ^ 40 + 0xFFFE * 2 ^ 24 + m % 2 ^ 24)

def ownAddress (s : State) (a : BitVec 128) : Bool := decide (a = linkLocal) || s.hwk.addrs.any fun p => decide (p.2.1 ≠ 0) && decide (p.2.2 = a)

/-- NEIGHBOR_DISCOVERY: a solicitation of one of the device's addresses, or an echo request to one, is answered; anything else is discarded. -/
def neighborDiscovery (s : State) (m : NdMsg) : State :=
  if !s.hwk.running then s
  else match m with
    | .solicit target src => if ownAddress s target then emit s (.neighborAdvert target src Config.macAddress) else dropDatagram s
    | .echo src data => emit s (.echoReply src data)
    | .other => dropDatagram s
def execNeighborDiscovery (m : NdMsg) (s : State) : Host.Outcome State Fault Refusal := act s (neighborDiscovery s m)

/-- HOST_PORT_LINK_CHANGE, R565: a loss is a defect of the host port, a training a re-training. -/
def hostLink (s : State) (lost : Bool) : State :=
  let s := { s with hwk := { s.hwk with linkUp := !lost } }
  if lost then countDefect s (partId 7 0) else partRetrain s (partId 7 0) 1
def execHostPortLinkChange (lost : Bool) (s : State) : Host.Outcome State Fault Refusal := act s (hostLink s lost)

/-! ## Recovery, R557 -/

/-- The primer ROM is in recovery. -/
def inRecovery (s : State) : Bool := isUp s && !s.hwk.running && s.hwk.recovery.isSome

/-- RECOVER_INFO. -/
def recoverInfo (s : State) : State :=
  if inRecovery s then
    emit s (.host (([0x31, 0, 0, 0] : List Byte) ++ topIdBytes ++ beBytes 16 Config.deviceId.toNat ++ [minSvnNow s, s.hwk.recovery.getD 0]))
  else s
def execRecoverInfo (s : State) : Host.Outcome State Fault Refusal := act s (recoverInfo s)

/-- RECOVER_WRITE: what the region then holds is for the next check to find. -/
def recoverWrite (s : State) (off : BitVec 32) (bs : List Byte) : State :=
  if inRecovery s ∧ 4 ≤ bs.length ∧ bs.length ≤ 8192 then
    { s with hwk := { s.hwk with recoverBuf := Mem.write s.hwk.recoverBuf off.toNat bs, nor := none } }
  else s
def execRecoverWrite (offset : BitVec 32) (bytes : List Byte) (s : State) : Host.Outcome State Fault Refusal := act s (recoverWrite s offset bytes)

def recoverResult (s : State) (code : Byte) : State := emit s (.host ([0x34, 0, 0, 0, code] : List Byte))

/-- RECOVER_DONE: the CRC, then the image under R445; an accepted image is started at once. -/
def recoverDone (s : State) (len crc : BitVec 32) (im : FwImage) (found : StartFinds) : State :=
  if !inRecovery s then s
  else if crc32c (Mem.read s.hwk.recoverBuf 0 len.toNat) ≠ crc then recoverResult s 1
  else
    let im := imageIn (Mem.read s.hwk.recoverBuf 0 len.toNat) im
    let s := { s with hwk := { s.hwk with nor := some (some im) } }
    match imageRefusal s im with
    | some c => recoverResult s (if c = 1 then 2 else c)
    | none => startHawk (recoverResult s 0) im found
def execRecoverDone (len crc : BitVec 32) (im : FwImage) (found : StartFinds) (s : State) : Host.Outcome State Fault Refusal :=
  act s (recoverDone s len crc im found)

end Sys2Proof.Machine
end

