-- ==== Sys2Proof/Machine/Tap.lean ====
section
/-! DEFINITION. The test access port, R626 and R628. It runs from TCK and serves at all times. -/

namespace Sys2Proof.Machine

/-- IDCODE of B1, R626. -/
def idcodeWord : BitVec 32 := 0x196404B7

/-- TAP_RESET: TRST_N low resets the port alone. -/
def tapReset (s : State) : State := { s with tap := {} }
def execTapReset (s : State) : Host.Outcome State Fault Refusal := .next (tapReset s)

/-- IDCODE is selected and its 32 bits are shifted out, bit 0 first. -/
def idcode (s : State) : State :=
  { s with tap := { s.tap with instr := .idcode, drive := none, tdo := (List.range 32).map fun i => idcodeWord.getLsbD i } }
def execIdcode (s : State) : Host.Outcome State Fault Refusal := .next (idcode s)

/-- Bits shifted through the one-bit bypass register, which captures 0: each leaves one bit later. -/
def bypassShift (t : Tap) (tdi : List Bool) : Tap := { t with tdo := (false :: tdi).take tdi.length, bypassBit := tdi.getLast?.getD false }

/-- BYPASS. -/
def bypass (s : State) (tdi : List Bool) : State := { s with tap := { bypassShift s.tap tdi with instr := .bypass, drive := none } }
def execBypass (tdi : List Bool) (s : State) : Host.Outcome State Fault Refusal := .next (bypass s tdi)

/-- The mandatory boundary-scan instructions: the register drives the balls, or only samples them; the levels that it captures and shifts out are not given. -/
def boundaryScan (s : State) (cells : Nat) (drive : Option (List Bool)) : State :=
  { s with fresh := s.fresh + 1, tap := { s.tap with instr := .boundary, drive := drive, tdo := (List.range cells).map fun i => (freeNat s).testBit i } }
def execJtagBoundaryScan (cells : Nat) (drive : Option (List Bool)) (s : State) : Host.Outcome State Fault Refusal := .next (boundaryScan s cells drive)

/-- A private instruction: BYPASS unless STRIP reads OPEN; then it is selected, and the manual does not say what it shifts out. -/
def jtagPrivate (s : State) (tdi : List Bool) : State :=
  if s.slr.strip = 2 then
    { s with fresh := s.fresh + 1, tap := { s.tap with instr := .priv, drive := none, tdo := (List.range tdi.length).map fun i => (freeNat s).testBit i } }
  else bypass s tdi
def execJtagPrivate (tdi : List Bool) (s : State) : Host.Outcome State Fault Refusal := .next (jtagPrivate s tdi)

end Sys2Proof.Machine
end

