-- ==== Sys2Proof/Machine/Dispatch.lean ====
section
/-! DEFINITION. The meaning of every command: one arm per constructor of Instr, in the order of the opcode table. -/

namespace Sys2Proof.Machine

def exec (i : Instr) (s : State) : Host.Outcome State Fault Refusal :=
  match i with
  | .csrWrite addr value => Sys2Proof.Machine.execCsrWrite addr value s
  | .wideRegisterLowRead addr => Sys2Proof.Machine.execWideRegisterLowRead addr s
  | .strokeNop e idx w => Sys2Proof.Machine.execStrokeNop e idx w s
  | .setx e idx w => Sys2Proof.Machine.execSetx e idx w s
  | .setp e idx w => Sys2Proof.Machine.execSetp e idx w s
  | .load e idx w => Sys2Proof.Machine.execLoad e idx w s
  | .loadTileArrive e slot ups => Sys2Proof.Machine.execLoadTileArrive e slot ups s
  | .store e idx w => Sys2Proof.Machine.execStore e idx w s
  | .send e idx w => Sys2Proof.Machine.execSend e idx w s
  | .clra e idx w => Sys2Proof.Machine.execClra e idx w s
  | .acc e idx w ups => Sys2Proof.Machine.execAcc e idx w ups s
  | .rdla e idx w ups => Sys2Proof.Machine.execRdla e idx w ups s
  | .svla e idx w ups => Sys2Proof.Machine.execSvla e idx w ups s
  | .addla e idx w ups => Sys2Proof.Machine.execAddla e idx w ups s
  | .add e idx w => Sys2Proof.Machine.execAdd e idx w s
  | .fma e idx w => Sys2Proof.Machine.execFma e idx w s
  | .dot e idx w ups => Sys2Proof.Machine.execDot e idx w ups s
  | .cvt e idx w => Sys2Proof.Machine.execCvt e idx w s
  | .sum64 e idx w => Sys2Proof.Machine.execSum64 e idx w s
  | .skenc e idx w => Sys2Proof.Machine.execSkenc e idx w s
  | .skdec e idx w ups => Sys2Proof.Machine.execSkdec e idx w ups s
  | .upds e idx w => Sys2Proof.Machine.execUpds e idx w s
  | .updm e idx w => Sys2Proof.Machine.execUpdm e idx w s
  | .upda e idx w => Sys2Proof.Machine.execUpda e idx w s
  | .iqTileArrive e q t => Sys2Proof.Machine.execIqTileArrive e q t s
  | .scrub e => Sys2Proof.Machine.execScrub e s
  | .online e => Sys2Proof.Machine.execOnline e s
  | .offline e => Sys2Proof.Machine.execOffline e s
  | .engClrCounts e => Sys2Proof.Machine.execEngClrCounts e s
  | .scrubEnd e => Sys2Proof.Machine.execScrubEnd e s
  | .skmTblLoad => Sys2Proof.Machine.execSkmTblLoad s
  | .skmTblLoadDone => Sys2Proof.Machine.execSkmTblLoadDone s
  | .skmActivate slot => Sys2Proof.Machine.execSkmActivate slot s
  | .skmRetire slot => Sys2Proof.Machine.execSkmRetire slot s
  | .skmClrCounts => Sys2Proof.Machine.execSkmClrCounts s
  | .skmSlotDrained slot => Sys2Proof.Machine.execSkmSlotDrained slot s
  | .unitArrive src copied bytes => Sys2Proof.Machine.execUnitArrive src copied bytes s
  | .planAdmit r len crc => Sys2Proof.Machine.execPlanAdmit r len crc s
  | .planAdmitDone => Sys2Proof.Machine.execPlanAdmitDone s
  | .planRelaunch r launchNs => Sys2Proof.Machine.execPlanRelaunch r launchNs s
  | .planDiscard r which => Sys2Proof.Machine.execPlanDiscard r which s
  | .planHalt r => Sys2Proof.Machine.execPlanHalt r s
  | .haltAtSeam => Sys2Proof.Machine.execHaltAtSeam s
  | .discardNext => Sys2Proof.Machine.execDiscardNext s
  | .stnClrCounts => Sys2Proof.Machine.execStnClrCounts s
  | .launch => Sys2Proof.Machine.execLaunch s
  | .stepStart => Sys2Proof.Machine.execStepStart s
  | .slotStart k => Sys2Proof.Machine.execSlotStart k s
  | .stepDeadline => Sys2Proof.Machine.execStepDeadline s
  | .stepSeam => Sys2Proof.Machine.execStepSeam s
  | .join m => Sys2Proof.Machine.execJoin m s
  | .siteJoin m => Sys2Proof.Machine.execSiteJoin m s
  | .clcReady m => Sys2Proof.Machine.execClcReady m s
  | .siteReady m => Sys2Proof.Machine.execSiteReady m s
  | .abortReq m => Sys2Proof.Machine.execAbortReq m s
  | .late m => Sys2Proof.Machine.execLate m s
  | .ext m => Sys2Proof.Machine.execExt m s
  | .ring m => Sys2Proof.Machine.execRing m s
  | .notify m => Sys2Proof.Machine.execNotify m s
  | .abortReply m => Sys2Proof.Machine.execAbortReply m s
  | .rebuildReq m => Sys2Proof.Machine.execRebuildReq m s
  | .rebuilt m => Sys2Proof.Machine.execRebuilt m s
  | .memberLostTimeout coll step rank => Sys2Proof.Machine.execMemberLostTimeout coll step rank s
  | .abortHoldEnd coll step => Sys2Proof.Machine.execAbortHoldEnd coll step s
  | .ringResend coll step => Sys2Proof.Machine.execRingResend coll step s
  | .clcAbort coll => Sys2Proof.Machine.execClcAbort coll s
  | .clcClrCounts => Sys2Proof.Machine.execClcClrCounts s
  | .collAbort r coll step => Sys2Proof.Machine.execCollAbort r coll step s
  | .pairLinkUp => Sys2Proof.Machine.execPairLinkUp s
  | .seHello h role part stepping asig hash => Sys2Proof.Machine.execSeHello h role part stepping asig hash s
  | .seSlot h step slot e count digest => Sys2Proof.Machine.execSeSlot h step slot e count digest s
  | .seDestReq h step slot e => Sys2Proof.Machine.execSeDestReq h step slot e s
  | .seDest h step slot e idx d => Sys2Proof.Machine.execSeDest h step slot e idx d s
  | .seUnit h bond bytes => Sys2Proof.Machine.execSeUnit h bond bytes s
  | .seCtl h m => Sys2Proof.Machine.execSeCtl h m s
  | .seRoleWrite value => Sys2Proof.Machine.execSeRoleWrite value s
  | .clrCapture => Sys2Proof.Machine.execClrCapture s
  | .seClrCounts => Sys2Proof.Machine.execSeClrCounts s
  | .ptpMessage m => Sys2Proof.Machine.execPtpMessage m s
  | .ptpAnnounceTimeout => Sys2Proof.Machine.execPtpAnnounceTimeout s
  | .timeMessage b m rx => Sys2Proof.Machine.execTimeMessage b m rx s
  | .ppsInEdge t => Sys2Proof.Machine.execPpsInEdge t s
  | .stepNow => Sys2Proof.Machine.execStepNow s
  | .plbClrCounts => Sys2Proof.Machine.execPlbClrCounts s
  | .incWrite inc => Sys2Proof.Machine.execIncWrite inc s
  | .swStale => Sys2Proof.Machine.execSwStale s
  | .asymWrite src valid asym => Sys2Proof.Machine.execAsymWrite src valid asym s
  | .calibrationDone src => Sys2Proof.Machine.execCalibrationDone src s
  | .ppsOutPulse => Sys2Proof.Machine.execPpsOutPulse s
  | .hbmRefresh k patrol passDone => Sys2Proof.Machine.execHbmRefresh k patrol passDone s
  | .hbmCeWriteback k burst => Sys2Proof.Machine.execHbmCeWriteback k burst s
  | .hbmTrainingDone k ok margin => Sys2Proof.Machine.execHbmTrainingDone k ok margin s
  | .stackInitDone k => Sys2Proof.Machine.execStackInitDone k s
  | .hbmLinkLoss k => Sys2Proof.Machine.execHbmLinkLoss k s
  | .clrUeAddr k => Sys2Proof.Machine.execClrUeAddr k s
  | .hbmClrCounts k => Sys2Proof.Machine.execHbmClrCounts k s
  | .grant src owner pool quad => Sys2Proof.Machine.execGrant src owner pool quad s
  | .free src owner handle => Sys2Proof.Machine.execFree src owner handle s
  | .freeOwner src owner => Sys2Proof.Machine.execFreeOwner src owner s
  | .handover src owner newCls newOwner => Sys2Proof.Machine.execHandover src owner newCls newOwner s
  | .proxyFree src owner => Sys2Proof.Machine.execProxyFree src owner s
  | .query src handle => Sys2Proof.Machine.execQuery src handle s
  | .fenceConfirm u epoch => Sys2Proof.Machine.execFenceConfirm u epoch s
  | .fenceStuck => Sys2Proof.Machine.execFenceStuck s
  | .legFramesWrite p value => Sys2Proof.Machine.execLegFramesWrite p value s
  | .lthClrCounts => Sys2Proof.Machine.execLthClrCounts s
  | .frameReceive g arrival => Sys2Proof.Machine.execFrameReceive g arrival s
  | .lofDeclare g => Sys2Proof.Machine.execLofDeclare g s
  | .lofClear g => Sys2Proof.Machine.execLofClear g s
  | .farLosAssert g => Sys2Proof.Machine.execFarLosAssert g s
  | .losClear g => Sys2Proof.Machine.execLosClear g s
  | .rangingMessage b bytes => Sys2Proof.Machine.execRangingMessage b bytes s
  | .frameRelease b => Sys2Proof.Machine.execFrameRelease b s
  | .tribAddOctet c group => Sys2Proof.Machine.execTribAddOctet c group s
  | .bondCfgWrite b value => Sys2Proof.Machine.execBondCfgWrite b value s
  | .portCfgWrite p value => Sys2Proof.Machine.execPortCfgWrite p value s
  | .tribCfgWrite c value => Sys2Proof.Machine.execTribCfgWrite c value s
  | .rndClrCounts p => Sys2Proof.Machine.execRndClrCounts p s
  | .codewordReceive l levels => Sys2Proof.Machine.execCodewordReceive l levels s
  | .transmitPosition b => Sys2Proof.Machine.execTransmitPosition b s
  | .resendTimeout b seq => Sys2Proof.Machine.execResendTimeout b seq s
  | .moveRetire b pos => Sys2Proof.Machine.execMoveRetire b pos s
  | .moveRestore b pos => Sys2Proof.Machine.execMoveRestore b pos s
  | .moveDone => Sys2Proof.Machine.execMoveDone s
  | .mndClrCounts => Sys2Proof.Machine.execMndClrCounts s
  | .stripeCfgWrite b value => Sys2Proof.Machine.execStripeCfgWrite b value s
  | .keyLoad r offset crc => Sys2Proof.Machine.execKeyLoad r offset crc s
  | .keyReady b bytes => Sys2Proof.Machine.execKeyReady b bytes s
  | .txKeySwitch b => Sys2Proof.Machine.execTxKeySwitch b s
  | .overlapExpire b slot => Sys2Proof.Machine.execOverlapExpire b slot s
  | .trngFail q => Sys2Proof.Machine.execTrngFail q s
  | .slrClrCounts => Sys2Proof.Machine.execSlrClrCounts s
  | .attest r nonce => Sys2Proof.Machine.execAttest r nonce s
  | .ownerUpload r offset crc => Sys2Proof.Machine.execOwnerUpload r offset crc s
  | .stripChallenge r => Sys2Proof.Machine.execStripChallenge r s
  | .strip r offset crc => Sys2Proof.Machine.execStrip r offset crc s
  | .nearFrameReceive n c => Sys2Proof.Machine.execNearFrameReceive n c s
  | .nearTxFrame n c => Sys2Proof.Machine.execNearTxFrame n c s
  | .controlCycle n o => Sys2Proof.Machine.execControlCycle n o s
  | .monitorSample n o => Sys2Proof.Machine.execMonitorSample n o s
  | .ringPeakLoss n c rx => Sys2Proof.Machine.execRingPeakLoss n c rx s
  | .rxLos n c => Sys2Proof.Machine.execRxLos n c s
  | .verifyTimeout n c => Sys2Proof.Machine.execVerifyTimeout n c s
  | .spareMakeTimeout n o => Sys2Proof.Machine.execSpareMakeTimeout n o s
  | .rxSweepRetry n c => Sys2Proof.Machine.execRxSweepRetry n c s
  | .eyeInterlockHigh => Sys2Proof.Machine.execEyeInterlockHigh s
  | .eyeInterlockLow => Sys2Proof.Machine.execEyeInterlockLow s
  | .rxLightLoss n => Sys2Proof.Machine.execRxLightLoss n s
  | .probeEntry n => Sys2Proof.Machine.execProbeEntry n s
  | .probeTimeout n light => Sys2Proof.Machine.execProbeTimeout n light s
  | .relock n c rx => Sys2Proof.Machine.execRelock n c rx s
  | .swap n c => Sys2Proof.Machine.execSwap n c s
  | .forceOff n on => Sys2Proof.Machine.execForceOff n on s
  | .phnClrCounts n => Sys2Proof.Machine.execPhnClrCounts n s
  | .fenceWrite n reg value => Sys2Proof.Machine.execFenceWrite n reg value s
  | .queueItemArrive q it => Sys2Proof.Machine.execQueueItemArrive q it s
  | .gateCycleStart => Sys2Proof.Machine.execGateCycleStart s
  | .gateSwap => Sys2Proof.Machine.execGateSwap s
  | .queueSample => Sys2Proof.Machine.execQueueSample s
  | .clrMax => Sys2Proof.Machine.execClrMax s
  | .schClrCounts => Sys2Proof.Machine.execSchClrCounts s
  | .queueCfgWrite q reg value => Sys2Proof.Machine.execQueueCfgWrite q reg value s
  | .open1 m => Sys2Proof.Machine.execOpen1 m s
  | .open3 session hcs proof => Sys2Proof.Machine.execOpen3 session hcs proof s
  | .openLapse session => Sys2Proof.Machine.execOpenLapse session s
  | .sessionIdleTimeout session => Sys2Proof.Machine.execSessionIdleTimeout session s
  | .lockoutExpire => Sys2Proof.Machine.execLockoutExpire s
  | .nop r => Sys2Proof.Machine.execNop r s
  | .close r => Sys2Proof.Machine.execClose r s
  | .info r => Sys2Proof.Machine.execInfo r s
  | .ready r => Sys2Proof.Machine.execReady r s
  | .peek r addr n => Sys2Proof.Machine.execPeek r addr n s
  | .poke r addr value => Sys2Proof.Machine.execPoke r addr value s
  | .stageClaim r area => Sys2Proof.Machine.execStageClaim r area s
  | .stageRelease r area => Sys2Proof.Machine.execStageRelease r area s
  | .bulkRead r area handle offset len => Sys2Proof.Machine.execBulkRead r area handle offset len s
  | .bulkWrite r => Sys2Proof.Machine.execBulkWrite r s
  | .ledgerRead r sel firstPart count firstSeq => Sys2Proof.Machine.execLedgerRead r sel firstPart count firstSeq s
  | .fmRetire r part seq => Sys2Proof.Machine.execFmRetire r part seq s
  | .fmTolerate r part seq => Sys2Proof.Machine.execFmTolerate r part seq s
  | .fmRestore r part seq => Sys2Proof.Machine.execFmRestore r part seq s
  | .fwUpdate r len crc im => Sys2Proof.Machine.execFwUpdate r len crc im s
  | .fwUpdateDone readBackOk => Sys2Proof.Machine.execFwUpdateDone readBackOk s
  | .resetDevice r => Sys2Proof.Machine.execResetDevice r s
  | .resetFirmware r => Sys2Proof.Machine.execResetFirmware r s
  | .resetDatapath r => Sys2Proof.Machine.execResetDatapath r s
  | .netSet r slot len mboxPort bulkPort addr => Sys2Proof.Machine.execNetSet r slot len mboxPort bulkPort addr s
  | .neighborDiscovery m => Sys2Proof.Machine.execNeighborDiscovery m s
  | .recoverInfo => Sys2Proof.Machine.execRecoverInfo s
  | .recoverWrite offset bytes => Sys2Proof.Machine.execRecoverWrite offset bytes s
  | .recoverDone len crc im found => Sys2Proof.Machine.execRecoverDone len crc im found s
  | .hwkClrCounts => Sys2Proof.Machine.execHwkClrCounts s
  | .hawkStart im found => Sys2Proof.Machine.execHawkStart im found s
  | .lifeSTick => Sys2Proof.Machine.execLifeSTick s
  | .ledgerPoll hostCorr hostUncorr => Sys2Proof.Machine.execLedgerPoll hostCorr hostUncorr s
  | .journalFlush readBackOk => Sys2Proof.Machine.execJournalFlush readBackOk s
  | .summaryWrite readBackOk => Sys2Proof.Machine.execSummaryWrite readBackOk s
  | .scoreEval => Sys2Proof.Machine.execScoreEval s
  | .flush readBackOk => Sys2Proof.Machine.execFlush readBackOk s
  | .sngClrCounts => Sys2Proof.Machine.execSngClrCounts s
  | .powerOn byPin => Sys2Proof.Machine.execPowerOn byPin s
  | .brownOut => Sys2Proof.Machine.execBrownOut s
  | .supplyWarnAssert inTime => Sys2Proof.Machine.execSupplyWarnAssert inTime s
  | .supplyWarnRelease => Sys2Proof.Machine.execSupplyWarnRelease s
  | .tempSample o => Sys2Proof.Machine.execTempSample o s
  | .throttleHoldExpire => Sys2Proof.Machine.execThrottleHoldExpire s
  | .powerRemoved => Sys2Proof.Machine.execPowerRemoved s
  | .minLevelWrite value => Sys2Proof.Machine.execMinLevelWrite value s
  | .pwrClrCounts => Sys2Proof.Machine.execPwrClrCounts s
  | .tapReset => Sys2Proof.Machine.execTapReset s
  | .idcode => Sys2Proof.Machine.execIdcode s
  | .bypass tdi => Sys2Proof.Machine.execBypass tdi s
  | .jtagBoundaryScan cells drive => Sys2Proof.Machine.execJtagBoundaryScan cells drive s
  | .jtagPrivate tdi => Sys2Proof.Machine.execJtagPrivate tdi s
  | .dropFifoSend c => Sys2Proof.Machine.execDropFifoSend c s
  | .rxLosClear n c => Sys2Proof.Machine.execRxLosClear n c s
  | .resetNRise => Sys2Proof.Machine.execResetNRise s
  | .brownOutEnd => Sys2Proof.Machine.execBrownOutEnd s
  | .ppsInEdgeMissing => Sys2Proof.Machine.execPpsInEdgeMissing s
  | .ref10mInMeasure rate => Sys2Proof.Machine.execRef10mInMeasure rate s
  | .delayReqSend departure => Sys2Proof.Machine.execDelayReqSend departure s
  | .stripChallengeExpire => Sys2Proof.Machine.execStripChallengeExpire s
  | .hostPortLinkChange lost => Sys2Proof.Machine.execHostPortLinkChange lost s

end Sys2Proof.Machine
end

