-- ==== Sys2Proof/Safety.lean ====
section
/-! DEFINITION. What the statements speak in: when the device takes commands, what a command answers, and which parts of the state a command may touch. -/

namespace Sys2Proof.Machine

/-! ## Answers -/

/-- The device carries out commands: no thermal trip holds its clocks, R613. -/
def Live (s : State) : Prop := s.pwr.tripped = false

/-- The command answers a next state, and that state has the property. -/
def Answers (c : Instr) (s : State) (p : State → Prop) : Prop := ∃ t, exec c s = .next t ∧ p t

/-! ## A stroke alone in the device -/

/-- No stroke of any engine is under way, no lossless tile awaits its delivery, and the device is not paired. -/
structure Quiet (s : State) : Prop where
  free : busyEngines s = []
  noTiles : ∀ q ∈ s.skm.subq, (s.sub q.1).ll = false
  unpaired : s.se.role = 0

/-- Engine `e` runs, the slot of stroke `i` has started, and nothing else is under way: what the stroke then does is its own effect, R85 to R87. -/
structure Lone (s : State) (e : Fin 64) (i : BitVec 16) : Prop where
  live : Live s
  running : (s.eng e.val).st = .running
  started : i.toNat < (s.eng e.val).gate
  quiet : Quiet s

/-- The flight of a stroke that has just issued: it holds the index base and the parameters of its issue, R85. -/
def issued (x : Engine) (i : BitVec 16) (w : BitVec 128) : Flight := { idx := i, word := w, idxb := x.idxb, params := x.params }

/-- An engine once a stroke has issued: ENG_PC names the stroke, R111. -/
def afterIssue (x : Engine) (i : BitVec 16) (ups : List LaUpset) : Engine := { x with pc := i, issued := x.issued + 1, marks := x.marks ++ ups, toIssue := [], flights := [] }

/-- State `t` is state `u` but for what Stencil notes of the slots that are done, R164 and R165. -/
def ButSlots (u t : State) : Prop :=
  { t with stn := { t.stn with closed := u.stn.closed, lateSlots := u.stn.lateSlots, slotLate := u.stn.slotLate, err := u.stn.err } } = u

/-! ## Tiles and rows that a stroke meets, R81 and R119 -/

/-- The slot is VALID and its bytes match the stored CRC-32C. -/
def Intact (x : Engine) (k : Nat) : Prop := (x.tag k).st = .valid ∧ crc32c (x.bytes k) = (x.tag k).crc

/-- The slot holds an intact tile of a format. -/
def HasTile (x : Engine) (f : BitVec 4) (k : Nat) : Prop := Intact x k ∧ (x.tag k).img = false ∧ (x.tag k).fmt = f

/-- The slot holds an intact tile of 64 accumulator images. -/
def HasImages (x : Engine) (k : Nat) : Prop := Intact x k ∧ (x.tag k).img = true

/-- The slots that count k of a stroke writes await no LOAD, R87. -/
def Landed (x : Engine) (w : BitVec 128) (k : Nat) : Prop := ∀ r ∈ countWrites w k, ∀ j, j < r.2 → (x.tag (r.1 + j)).st ≠ .pending

/-- None of n LA entries from a linear index has an uncorrectable error, R119. -/
def RowsSound (x : Engine) (start n : Nat) : Prop := (x.readRows start n).1 = none

/-- The engine once the corrected errors of the entries that a count reads are counted. -/
def afterRows (x : Engine) (start n : Nat) : Engine := (x.readRows start n).2

/-! ## What one count of a stroke does to its engine, R95 -/

/-- An engine after k counts, each of which does `f`. -/
def afterCounts (f : Nat → Engine → Engine) (x : Engine) : Nat → Engine
  | 0 => x
  | k + 1 => f k (afterCounts f x k)

/-- Writes the rounded results of a count to destination tile k, with their flags. -/
def putResults (x : Engine) (fl : Flight) (f : BitVec 4) (k : Nat) (rs : List Res) : Engine :=
  (x.noteRes fl (k * elemsPerTile f) rs).putTile (wDst fl.word + k) f false (elemBytes f (rs.map (·.code)))

/-- Elements of the tile in a slot. -/
def elems (x : Engine) (f : BitVec 4) (k : Nat) : List Nat := elemsOf f (x.bytes k)

/-- ADD of tile pair k: element by element, R68. -/
def addTile (s : State) (fl : Flight) (k : Nat) (x : Engine) : Engine :=
  let f := wFmt fl.word
  let n := elemsPerTile f
  putResults x fl f k (((List.range n).zip ((elems x f (wSa fl.word + k)).zip (elems x f (wSb fl.word + k)))).map fun p =>
    addElem f p.2.1 p.2.2 (rmOf (wRm fl.word)) (fl.r32 s 0 (k * n + p.1)) (wSat fl.word))

/-- FMA of tile k: SA × SB + SC, R69. -/
def fmaTile (s : State) (fl : Flight) (k : Nat) (x : Engine) : Engine :=
  putResults x fl fp32 k (((List.range 1024).zip ((elems x fp32 (wSa fl.word + k)).zip ((elems x fp32 (wSb fl.word + k)).zip (elems x fp32 (wSc fl.word + k))))).map fun p =>
    fmaElem p.2.1 p.2.2.1 p.2.2.2 (rmOf (wRm fl.word)) (fl.r32 s 0 (k * 1024 + p.1)) (wSat fl.word))

/-- Adds values to the LA entries from element j0 of the stroke's rows, with the flags of those that are not finite, R59 and R66. -/
def addValues (x : Engine) (fl : Flight) (j0 : Nat) (vs : List Num) : Engine :=
  let start := wLaBase fl.word * 128 + j0
  let x := afterRows x start vs.length
  ((x.accumulate start vs).1).noteNfs fl.idx (fl.base + j0) (x.accumulate start vs).2

/-- The rows that count k of an ACC or a DOT adds to are sound. -/
def SpanSound (x : Engine) (fl : Flight) (k : Nat) : Prop :=
  let n := elemsPerTile (wFmt fl.word)
  let start := wLaBase fl.word * 128 + k % wSpan fl.word * n
  RowsSound x start n

/-- ACC of tile k from the tile area: its place in the span decides its rows, R98. -/
def accTile (fl : Flight) (k : Nat) (x : Engine) : Engine :=
  let f := wFmt fl.word
  addValues x fl (k % wSpan fl.word * elemsPerTile f) (tileNums f (x.bytes (wSa fl.word + k)))

/-- DOT of tile pair k: exact products into the rows of the span, R101. -/
def dotTile (fl : Flight) (k : Nat) (x : Engine) : Engine :=
  let f := wFmt fl.word
  addValues x fl (k % wSpan fl.word * elemsPerTile f) (((elems x f (wSa fl.word + k)).zip (elems x f (wSb fl.word + k))).map fun p => dotNum f p.1 p.2)

/-- CLRA of row k: cleared accumulators, or FP32 running sums of -0, R97 and R78. -/
def clraRow (fl : Flight) (k : Nat) (x : Engine) : Engine :=
  let row := wLaBase fl.word + k
  let y := x.putEntries (row * 128) (List.replicate 128 (if wOpt fl.word then LaEntry.negZero32 else LaEntry.cleared))
  { y with form32 := Tab.put false y.form32 row (wOpt fl.word), marks := y.marks.filter fun m => m.row.val ≠ row }

/-- Entries that destination tile k of an RDLA reads: the linear index of the first, and their number. -/
def rdlaRows (fl : Flight) (k : Nat) : Nat × Nat :=
  let n := elemsPerTile (wFmtD fl.word)
  (wLaBase fl.word * 128 + k * n, n)

/-- RDLA of destination tile k: each entry rounded once, or a running sum converted, R99. -/
def rdlaTile (s : State) (fl : Flight) (k : Nat) (x : Engine) : Engine :=
  let d := wFmtD fl.word
  let n := elemsPerTile d
  let start := wLaBase fl.word * 128 + k * n
  let y := afterRows x (rdlaRows fl k).1 (rdlaRows fl k).2
  putResults y fl d k (((List.range n).zip (y.entries start n)).map fun p =>
    let r := fl.r32 s 0 (k * n + p.1)
    if y.isForm32 ((start + p.1) / 128) then convert fp32 d (p.2.value.toNat % 2 ^ 32) (rmOf (wRm fl.word)) r (wSat fl.word)
    else p.2.read d (rmOf (wRm fl.word)) r (wSat fl.word))

/-- SVLA of destination tile k: the images of 64 entries, R100. -/
def svlaTile (fl : Flight) (k : Nat) (x : Engine) : Engine :=
  let start := wLaBase fl.word * 128 + 64 * k
  let y := afterRows x start 64
  y.putTile (wDst fl.word + k) 0 true ((y.entries start 64).flatMap fun z => z.image ++ List.replicate 16 0)

/-- ADDLA of source tile k: 64 images merged into the entries, R100 and R65. -/
def addlaTile (fl : Flight) (k : Nat) (x : Engine) : Engine :=
  let start := wLaBase fl.word * 128 + 64 * k
  let y := afterRows x start 64
  y.putEntries start ((List.zip (y.entries start 64) (chunks 64 64 (x.bytes (wSa fl.word + k)))).map fun p => p.1.merge (LaEntry.ofImage p.2))

/-- SUM64 of tile k: the last count writes the tree sums of the whole run, R102. -/
def sum64Tile (fl : Flight) (k : Nat) (x : Engine) : Engine :=
  if k + 1 < wCount fl.word then x
  else
    let cs := sum64Results x fl
    let tiles := chunks 4096 1024 (elemBytes fp64 cs)
    ((List.range tiles.length).zip tiles).foldl (fun x p => x.putTile (wDst fl.word + p.1) fp64 false p.2)
      (x.noteRes fl 0 (cs.map fun c => (⟨c, false, !(decodeNum fp64 c).isFinite⟩ : Res)))

/-- UPDS, UPDM or UPDA of tile k: the kernel of each element position, written over every operand but g, R105 to R108. -/
def kernelTile (s : State) (fl : Flight) (k : Nat) (x : Engine) : Engine :=
  let slots := kernelSlots fl.word
  let out := (List.range 1024).map fun j =>
    kernel (wOp fl.word) ⟨fun i => (Tab.get 0 fl.params i).toNat, rmOf (wRm fl.word), wSat fl.word, fun n => fl.r32 s n (k * 1024 + j)⟩
      (slots.map fun c => (elems x fp32 (c + k)).getD j 0)
  let x := x.noteSat (out.foldl (fun n o => n + (o.2.filter (·.sat)).length) 0)
  let x := x.noteNfs fl.idx (fl.base + k * 1024) (((List.range 1024).zip out).filterMap fun o => if o.2.2.any (·.nf) then some o.1 else none)
  let dsts := (slots.drop 1).map (· + k)
  ((List.range dsts.length).zip dsts).foldl (fun x d => x.putTile d.2 fp32 false (elemBytes fp32 (out.map fun o => o.1.getD d.1 0))) x

/-- The slot holds an intact tile that a STORE or a SEND may carry: an image, or a tile of the stroke's format. -/
def Carries (x : Engine) (f : BitVec 4) (k : Nat) : Prop := Intact x k ∧ ((x.tag k).img = true ∨ (x.tag k).fmt = f)

/-- The stroke as it stands when it has issued. -/
def strokeOf (s : State) (e : Fin 64) (i : BitVec 16) (op : Nat) (w : BitVec 120) : Flight := issued (s.eng e.val) i (strokeWord op w)

/-- The engine after k counts of a stroke. -/
def engineAfter (s : State) (e : Fin 64) (i : BitVec 16) (ups : List LaUpset) (f : Nat → Engine → Engine) (k : Nat) : Engine :=
  afterCounts f (afterIssue (s.eng e.val) i ups) k

/-- A stroke whose counts, each made where `ready` holds, change nothing but its engine: the command answers the state after all of them. -/
def StrokeRuns (c : Instr) (s : State) (e : Fin 64) (i : BitVec 16) (op : Nat) (w : BitVec 120) (ups : List LaUpset)
    (ready : Nat → Engine → Prop) (f : Nat → Engine → Engine) : Prop :=
  Lone s e i → strokeOk (strokeWord op w) = true →
  (∀ k, k < wCount (strokeWord op w) → Landed (engineAfter s e i ups f k) (strokeWord op w) k ∧ ready k (engineAfter s e i ups f k)) →
  Answers c s (ButSlots (s.setEng e.val (engineAfter s e i ups f (wCount (strokeWord op w)))))

/-! ## What one count of a stroke does to the device -/

/-- The state after k counts, each of which does `f`, with what the stroke has formed of a tile that is not yet whole. -/
def stateAfter (f : Nat → State × List Byte → State × List Byte) (s : State) : Nat → State × List Byte
  | 0 => (s, [])
  | k + 1 => f k (stateAfter f s k)

/-- The device after k counts of a stroke, with what it has formed. -/
def deviceAfter (s : State) (e : Fin 64) (i : BitVec 16) (ups : List LaUpset) (f : Nat → State × List Byte → State × List Byte) (k : Nat) : State × List Byte :=
  stateAfter f (s.setEng e.val (afterIssue (s.eng e.val) i ups)) k

/-- STORE of tile k: all 4,096 bytes go to the place that the region gives it, KIND 1 for an image, and to the holders of a mirrored region, R104, R326 and R242. -/
def storeTile (e : Nat) (fl : Flight) (k : Nat) (p : State × List Byte) : State × List Byte :=
  let x := p.1.eng e
  let slot := wTs fl.word + k
  (match regionTile p.1 (wRegion fl.word) (wToff fl.word + k) with
    | some dha => mirrorOut (writeTile p.1 dha (if (x.tag slot).img then 1 else 0) (x.bytes slot)) (wRegion fl.word) (wToff fl.word + k) (if (x.tag slot).img then 1 else 0) (x.bytes slot)
    | none => p.1, p.2)

/-- SEND of tile k to an input queue: the tile joins the queue with its tag and number k, R104 and R88. -/
def sendIqTile (e : Nat) (fl : Flight) (k : Nat) (p : State × List Byte) : State × List Byte :=
  let x := p.1.eng e
  let slot := wSa fl.word + k
  let te := wSb fl.word / 8
  let q := wSb fl.word % 8
  let y := p.1.eng te
  (p.1.setEng te (y.setIq q (y.iq q ++ [⟨(x.tag slot).fmt.setWidth 8, (x.tag slot).crc, BitVec.ofNat 16 k, x.bytes slot, none, none⟩])), p.2)

/-- A tile of a SEND as an output queue takes it. -/
def sentItem (s : State) (x : Engine) (fl : Flight) (k : Nat) : QItem :=
  .tile (x.tag (wSa fl.word + k)).fmt (x.tag (wSa fl.word + k)).crc (BitVec.ofNat 16 k) s.stn.step (x.bytes (wSa fl.word + k))

/-- SEND of tile k to an output queue that no lossless channel feeds. -/
def sendQueueTile (e : Nat) (fl : Flight) (k : Nat) (p : State × List Byte) : State × List Byte :=
  ((arrive p.1 (wSb fl.word - 0x200) (sentItem p.1 (p.1.eng e) fl k) true).2, p.2)

/-- ACC of one tile from an input queue: the oldest tile is taken, its number decides its rows, and its credit returns, R88 and R98. -/
def accQueueTile (e : Nat) (fl : Flight) (p : State × List Byte) : State × List Byte :=
  let x := p.1.eng e
  let q := wSa fl.word - 0x400
  let f := wFmt fl.word
  match x.iq q with
  | [] => (p.1, p.2)
  | t :: rest =>
    (returnCredit (p.1.setEng e ((addValues x fl (t.tileNo.toNat * elemsPerTile f) (tileNums f t.data)).setIq q rest)) e q t, p.2)

/-- CVT of source tile k: its results join what is formed, and whole destination tiles are written, R53 and R82. -/
def cvtTile (e : Nat) (fl : Flight) (k : Nat) (p : State × List Byte) : State × List Byte :=
  let x := p.1.eng e
  let f := wFmt fl.word
  let d := wFmtD fl.word
  let n := elemsPerTile f
  let rs := ((List.range n).zip (elems x f (wSa fl.word + k))).map fun q => convert f d q.2 (rmOf (wRm fl.word)) (fl.r32 p.1 0 (k * n + q.1)) (wSat fl.word)
  let o := flushPart (x.noteRes fl (k * n) rs) { fl with done := k } d (wDst fl.word + (k * n * storeBits d / 8) / 4096) 32 (p.2 ++ elemBytes d (rs.map (·.code)))
  (p.1.setEng e o.1, o.2)

/-- What coding tile k of an SKENC gives, chapter 04. -/
def skencOut (s : State) (e : Nat) (fl : Flight) (k : Nat) : EncOut :=
  let c := wDst fl.word - 0x600
  encodeUnit s c (s.chan c) (s.chan c).fmt (rmOf (wRm fl.word)) (wRksel fl.word) (wStream fl.word) (fl.base + 1024 * k) (elems (s.eng e) fp32 (wSa fl.word + k))

/-- SKENC of tile k: the unit goes to the channel's output queue, R103 and R125 to R131, and one of a federation channel also to the catch-up area, R234; a residual joins what is formed, and a whole tile place goes to the next bank, R132 to R135. -/
def skencTile (e : Nat) (fl : Flight) (k : Nat) (p : State × List Byte) : State × List Byte :=
  let x := p.1.chan (wDst fl.word - 0x600)
  let idx := fl.base + 1024 * k
  let o := skencOut p.1 e fl k
  let u := (arrive (catchupWrite (countEnc p.1 o) 16 false o.unit).2 x.destQ (.seg 1 o.unit) false).2
  let u := u.setEng e (((p.1.eng e).noteSat ((if x.resFmt = 0 then o.clamps else 0) + o.resClamps + o.sats)).noteNfs fl.idx idx o.nf)
  let part := p.2 ++ o.resid
  if x.resFmt = 0 then (u, p.2)
  else if x.resFmt = 2 ∧ part.length < 4096 then (u, part)
  else (writeResidual u x ((idx - x.origin) / resPlace x.resFmt) (if x.resFmt = 3 then 2 else 0) part, [])

/-- The catch-up area has a place for the unit of tile k, if it takes one, R234. -/
def CatchupRoom (s : State) (e : Nat) (fl : Flight) (k : Nat) : Prop := (catchupWrite (countEnc s (skencOut s e fl k)) 16 false (skencOut s e fl k).unit).1 = true

/-- SKDEC of one unit: the unit that the sub-stream gives is decoded into the rows or the tile of its place in the span, R103 and R130. -/
def skdecUnit (e : Nat) (fl : Flight) (p : State × List Byte) : State × List Byte :=
  match takeUnit p.1 (wSa fl.word - 0x500) with
  | (none, _) => (p.1, p.2)
  | (some b, s) =>
    let x := s.eng e
    let pos := (unitHdr b).unit % wSpan fl.word
    let vs := decPayload (wFmtD fl.word) (unitPayload b)
    (s.setEng e (if isNone (wDst fl.word) then addValues x fl (1024 * pos) vs
      else (x.noteNfs fl.idx (fl.base + 1024 * pos) (poisonedAt (unitPayload b))).putTile (wDst fl.word + pos) fp32 false (elemBytes fp32 (vs.map toFp32))), p.2)

/-- The rows that SKDEC adds a unit to are sound. -/
def UnitRowsSound (x : Engine) (fl : Flight) (b : List Byte) : Prop :=
  let start := wLaBase fl.word * 128 + 1024 * ((unitHdr b).unit % wSpan fl.word)
  RowsSound x start (decPayload (wFmtD fl.word) (unitPayload b)).length

/-- A stroke whose counts, each made where `ready` holds, change the device as `f` says: the command answers the state after all of them. -/
def StrokeDoes (c : Instr) (s : State) (e : Fin 64) (i : BitVec 16) (op : Nat) (w : BitVec 120) (ups : List LaUpset)
    (ready : Nat → State × List Byte → Prop) (f : Nat → State × List Byte → State × List Byte) : Prop :=
  Lone s e i → strokeOk (strokeWord op w) = true →
  (∀ k, k < wCount (strokeWord op w) → Landed ((deviceAfter s e i ups f k).1.eng e.val) (strokeWord op w) k ∧ ready k (deviceAfter s e i ups f k)) →
  Answers c s (ButSlots (deviceAfter s e i ups f (wCount (strokeWord op w))).1)

/-! ## LOAD, R104 -/

/-- The tile slots of a LOAD, and its place in HBM for each. -/
def loadSlots (w : BitVec 128) : List Nat := (List.range (wCountM w)).map fun k => wTs w + k
def loadPlaces (s : State) (w : BitVec 128) : List (Option Nat) := (List.range (wCountM w)).map fun k => regionTile s (wRegion w) (wToff w + k)

/-- An engine once a LOAD has issued and requested its tiles: every slot is PENDING, R79 and R104. -/
def afterLoad (s : State) (e : Fin 64) (i : BitVec 16) (w : BitVec 120) : Engine :=
  let v := strokeWord opLoad w
  let x := afterIssue (s.eng e.val) i []
  { x with tags := (loadSlots v).foldl (fun t k => Tab.put ({} : TileTag) t k ⟨0, wFmt v, false, .pending⟩) x.tags, loads := x.loads ++ ((loadSlots v).zip (loadPlaces s v)).map (fun p => ⟨p.1, p.2.getD 0, i, wFmt v⟩), flights := [{ strokeOf s e i opLoad w with done := wCountM v }] }

/-- Engine `e` awaits a tile for `slot` by the request `req` of its only stroke in flight, and every other engine is idle. -/
structure Awaits (s : State) (e : Fin 64) (slot : Fin 1024) (fl : Flight) (req : LoadReq) : Prop where
  live : Live s
  request : (s.eng e.val).loads.find? (fun l => decide (l.slot = slot.val)) = some req
  slotIs : req.slot = slot.val
  flight : (s.eng e.val).flights = [fl] ∧ (s.eng e.val).toIssue = []
  stroke : fl.idx = req.stroke ∧ fl.awaitsTiles = true
  rest : busyEngines s = [e.val]
  noTiles : ∀ q ∈ s.skm.subq, (s.sub q.1).ll = false
  unpaired : s.se.role = 0

/-- What reading the tile of a request comes to, with the bit errors met on the way, R328. -/
def loadRead (s : State) (req : LoadReq) (ups : List BurstUpset) : Bool × List Byte × State := readTile (addUpsets s req.dha ups) req.dha

/-- The engine once a requested tile has reached its slot. -/
def afterTile (s : State) (x : Engine) (req : LoadReq) (bs : List Byte) : Engine :=
  { loadInto x req (s.htag req.dha).kind bs with loads := x.loads.filter fun l => decide (l.slot ≠ req.slot) }

/-- No engine has a stroke under way or to issue, and no sub-stream holds a lossless tile. -/
structure Still (s : State) : Prop where
  free : busyEngines s = []
  noTiles : ∀ q ∈ s.skm.subq, (s.sub q.1).ll = false

/-! ## A mailbox command that starts, R541, R542 and R547 -/

/-- A SEQ above the last that the session has accepted; the first is not 0, R541. -/
def SeqNew (x : Session) (q : BitVec 64) : Prop := match x.lastSeq with | some l => l.toNat < q.toNat | none => q ≠ 0

/-- The record passes every check with these ARGS, its mailbox is idle and waits for no repeat, and its session, `x` in slot `i`, may give a command that needs `n`. -/
structure Accepted (s : State) (r : MboxRec) (n : CmdNeeds) (args : List Byte) (i : Nat) (x : Session) : Prop where
  live : Live s
  hawk : s.hwk.running = true
  form : r.formOk = true
  slot : sessionSlot s r.session = some i
  session : s.session i = some x
  isOpen : x.isOpen = true
  holds : x.mask.getLsbD r.mbox.val = true
  tag : r.tag = commandTag x.sk r n.op args
  seq : SeqNew x r.seq
  hcs : x.hcs = r.hcs
  idle : (s.mbox r.mbox.val).running = none
  new : (s.mbox r.mbox.val).lastCmd ≠ some r.cmdId
  known : x.hcs = 2 → n.hcs2 = true
  level : n.operate = true → x.level = 2 ∧ (x.claiming = true → n.op = 0x0052)
  ready : ∀ k ∈ n.ready, s.top.ready.getLsbD k = true

/-- The device once a command has started: the session's SEQ, the mailbox's record and its command, and the count of commands, R542 and R559. -/
def begun (s : State) (r : MboxRec) (op : BitVec 16) (args : List Byte) (i : Nat) (x : Session) : State :=
  let u := s.setSession i (some { x with lastSeq := some r.seq })
  let u := u.setMbox r.mbox.val { u.mbox r.mbox.val with cmdRec := cmdRecord r op args }
  let u := { u with hwk := { u.hwk with cmdCount := bump u.hwk.cmdCount 1 } }
  u.setMbox r.mbox.val { u.mbox r.mbox.val with running := some (r.cmdId, r.session, op) }

/-! ## A plan on its way, chapter 05 -/

/-- A trigger channel that no longer waits. -/
def disarm (s : State) (c : Nat) : State := s.setTrig c { s.trig c with en := false }

/-- The device once a plan's launch trigger has fired and nothing stands against it, R184. -/
def launched (s : State) (p : Plan) : State :=
  let d := redeliver (decideLost (disarm s 0))
  let u := runEngines { d with clc := { d.clc with spareNew := false } } p
  armTrig { u with stn := { u.stn with place := .running, haltCause := 0, launching := true, joined := [], haltReq := false, patched := patchesFor p u.stn.launchStep } } 1 u.stn.launchAt

/-- The step that begins at the next start edge. -/
def nextStep (s : State) : BitVec 32 := if s.stn.launching then s.stn.launchStep else s.stn.step + 1

/-- The device at the start edge of a step, before CLC acts on it, R161 and R162. -/
def atStart (s : State) (p : Plan) : State :=
  let u := (List.range 64).foldl (fun u e => if p.engines.getLsbD e then u.setEng e { u.eng e with issued := 0, gate := 0, toIssue := [] } else u) s
  let u := if s.stn.launching then runEngines u p else u
  setSlowed { u with stn := { u.stn with step := nextStep s, begunTo := (if stepBegun s p (nextStep s) then s.stn.begunTo else some (nextStep s)), stepStart := nextStart s p, startedAt := runAt s (nextStart s p), ext := 0, body := p.bodyOf (nextStep s), stepRunning := true, inSeam := false, launching := false, deadlineDone := false, slotsStarted := 0, lateSlots := [], closed := [], resFailed := false }, skm := { u.skm with resNext := [] } } false

/-- The device once slot k of the body has started: its engines' strokes may issue up to the next slot, R162. -/
def slotOpen (s : State) (k : Nat) : State :=
  let u := { s with stn := { s.stn with slotsStarted := k + 1 } }
  (List.range 64).foldl (fun u e => if (curBody s).engines.getLsbD e then u.setEng e { u.eng e with gate := (curBody s).gateFor e (k + 1) } else u) u

/-- The deadline of the running step, with the extension that CLC has granted, R164. -/
def deadlineAt (s : State) (p : Plan) : PCount := s.stn.stepStart + BitVec.ofNat 48 (p.deadlineNs + s.stn.ext.toNat)

/-! ## Collectives, chapter 06 -/

/-- Messages have left the device for other ranks, in order: inside the site at once, to another site by a control queue, R215 and R511. -/
def sentTo (s : State) (o : Sends) : State := o.foldl (fun s p => sendMsg s p.1 p.2) s

/-- An unpaired device takes the message: it passes its checks, names CURRENT and is no second copy, R217. -/
structure Heard (s : State) (m : ClcMsg) : Prop where
  live : Live s
  unpaired : s.se.role = 0
  accepted : clcAccepts s m = true
  cur : names s.stn.cur m = true
  first : secondCopy s m = false

/-- The device once it has noted a message as handled. -/
def heard (s : State) (m : ClcMsg) : State := { s with clc := { s.clc with seen := s.clc.seen ++ [(m.type, m.src, m.coll, m.step)] } }

/-- This device is the head of the site that the sender belongs to, and is not the root. -/
def HeadOf (s : State) (m : ClcMsg) : Prop := isHead s = true ∧ myRank s ≠ 0 ∧ siteHead m.src.toNat = myRank s

/-- The instance that a message speaks of. -/
def instOf (s : State) (m : ClcMsg) : Inst := getInst s m.coll.toNat m.step

/-- The root, or a site head that is not the root, once a JOIN or SITE_JOIN is noted: what it says of a break is kept, R249. -/
def breaksWith (s : State) (m : ClcMsg) : List Nat := if flagRepro m then s.clc.breaks ++ [m.coll.toNat] else s.clc.breaks

/-- JOINs at a site head with that of a message, and whether they are complete. -/
def joinsWith (s : State) (m : ClcMsg) : List (Nat × BitVec 16 × BitVec 64) := s.clc.joins ++ [(m.coll.toNat, m.src, m.digest)]
def allJoined (s : State) (c : Desc) (m : ClcMsg) : Bool := (c.siteMembers (myRank s)).all fun r => ((joinsWith s m).filter fun j => decide (j.1 = m.coll.toNat)).any fun j => decide (j.2.1.toNat = r)

/-- Whether a site head has the READYs of its whole site with that of a message. -/
def allReady (s : State) (c : Desc) (m : ClcMsg) : Bool := (c.siteMembers (myRank s)).all fun r => ((instOf s m).readies ++ [m]).any fun j => decide (j.src.toNat = r)

/-- The site head's part of the command's effect on one more READY. -/
def withReady (s : State) (m : ClcMsg) : Inst := { instOf s m with readies := (instOf s m).readies ++ [m] }

end Sys2Proof.Machine
end

