-- ==== Sys2Proof/WellFormed.lean ====
section
/-! DEFINITION. Well-formed commands: the lengths that the types of Syntax.lean leave open, where the manual fixes them. A command that is not well-formed describes no event of this device. -/

namespace Sys2Proof

/-- A tile is 4,096 bytes, R75, R79 and R89. -/
def IqTile.wf (t : IqTile) : Bool := decide (t.data.length = 4096)

/-- A unit has its header of 16 bytes, R123, and no segment is longer than 65,535 bytes, R418. -/
def unitWf (b : List Byte) : Bool := decide (16 ≤ b.length) && decide (b.length ≤ 65535)

/-- What arrives at a numbered queue is a unit or a tile, and at a control queue a message or a pair record, R511. -/
def ArriveItem.wf (it : ArriveItem) (q : QueueRef) : Bool :=
  match q, it with
  | .num _, .unit b => unitWf b
  | .num _, .tile _ _ d => decide (d.length = 4096)
  | .ctl _, .pair b => decide (0 < b.length) && decide (b.length ≤ 65535)
  | .ctl _, .clc _ => true
  | .num _, .pair _ => false
  | .num _, .clc _ => false
  | .ctl _, .unit _ => false
  | .ctl _, .tile _ _ _ => false

/-- 24 sensors on each of 4 dies, 32 stacks, 8 photonic engines, R610. -/
def TempObs.wf (o : TempObs) : Bool :=
  decide (o.die.length = 4) && (o.die.all fun l => decide (l.length = 24)) && decide (o.stack.length = 32) && decide (o.pho.length = 8)

/-- At most one sample for each colour, R492. -/
def MonitorObs.wf (o : MonitorObs) : Bool := decide ((o.lasers.map (·.colour)).Nodup) && decide ((o.rxPower.map (·.1)).Nodup)

/-- A SHA-256 is 32 bytes, and a signature block 512, R175. -/
def FwImage.wf (im : FwImage) : Bool := decide (im.digest.length = 32) && decide (im.block.length = 512)

/-- Whether a command is well-formed. -/
def Instr.wf (i : Instr) : Bool :=
  match i with
  | .csrWrite _ _ => true
  | .wideRegisterLowRead _ => true
  | .strokeNop _ _ _ => true
  | .setx _ _ _ => true
  | .setp _ _ _ => true
  | .load _ _ _ => true
  | .loadTileArrive _ _ _ => true
  | .store _ _ _ => true
  | .send _ _ _ => true
  | .clra _ _ _ => true
  | .acc _ _ _ _ => true
  | .rdla _ _ _ _ => true
  | .svla _ _ _ _ => true
  | .addla _ _ _ _ => true
  | .add _ _ _ => true
  | .fma _ _ _ => true
  | .dot _ _ _ _ => true
  | .cvt _ _ _ => true
  | .sum64 _ _ _ => true
  | .skenc _ _ _ => true
  | .skdec _ _ _ _ => true
  | .upds _ _ _ => true
  | .updm _ _ _ => true
  | .upda _ _ _ => true
  | .iqTileArrive _ _ t => t.wf
  | .scrub _ => true
  | .online _ => true
  | .offline _ => true
  | .engClrCounts _ => true
  | .scrubEnd _ => true
  | .skmTblLoad => true
  | .skmTblLoadDone => true
  | .skmActivate _ => true
  | .skmRetire _ => true
  | .skmClrCounts => true
  | .skmSlotDrained _ => true
  | .unitArrive _ _ bytes => unitWf bytes
  | .planAdmit _ _ _ => true
  | .planAdmitDone => true
  | .planRelaunch _ _ => true
  | .planDiscard _ _ => true
  | .planHalt _ => true
  | .haltAtSeam => true
  | .discardNext => true
  | .stnClrCounts => true
  | .launch => true
  | .stepStart => true
  | .slotStart _ => true
  | .stepDeadline => true
  | .stepSeam => true
  | .join _ => true
  | .siteJoin _ => true
  | .clcReady _ => true
  | .siteReady _ => true
  | .abortReq _ => true
  | .late _ => true
  | .ext _ => true
  | .ring _ => true
  | .notify _ => true
  | .abortReply _ => true
  | .rebuildReq _ => true
  | .rebuilt _ => true
  | .memberLostTimeout _ _ _ => true
  | .abortHoldEnd _ _ => true
  | .ringResend _ _ => true
  | .clcAbort _ => true
  | .clcClrCounts => true
  | .collAbort _ _ _ => true
  | .pairLinkUp => true
  | .seHello _ _ _ _ _ _ => true
  | .seSlot _ _ _ _ _ _ => true
  | .seDestReq _ _ _ _ => true
  | .seDest _ _ _ _ _ _ => true
  | .seUnit _ _ bytes => unitWf bytes
  | .seCtl _ _ => true
  | .seRoleWrite _ => true
  | .clrCapture => true
  | .seClrCounts => true
  | .ptpMessage _ => true
  | .ptpAnnounceTimeout => true
  | .timeMessage _ _ _ => true
  | .ppsInEdge _ => true
  | .stepNow => true
  | .plbClrCounts => true
  | .incWrite _ => true
  | .swStale => true
  | .asymWrite _ _ _ => true
  | .calibrationDone _ => true
  | .ppsOutPulse => true
  | .hbmRefresh _ _ _ => true
  | .hbmCeWriteback _ _ => true
  | .hbmTrainingDone _ _ _ => true
  | .stackInitDone _ => true
  | .hbmLinkLoss _ => true
  | .clrUeAddr _ => true
  | .hbmClrCounts _ => true
  | .grant _ _ _ _ => true
  | .free _ _ _ => true
  | .freeOwner _ _ => true
  | .handover _ _ _ _ => true
  | .proxyFree _ _ => true
  | .query _ _ => true
  | .fenceConfirm _ _ => true
  | .fenceStuck => true
  | .legFramesWrite _ _ => true
  | .lthClrCounts => true
  | .frameReceive _ _ => true
  | .lofDeclare _ => true
  | .lofClear _ => true
  | .farLosAssert _ => true
  | .losClear _ => true
  | .rangingMessage _ bytes => decide (bytes.length = 16)
  | .frameRelease _ => true
  | .tribAddOctet _ _ => true
  | .bondCfgWrite _ _ => true
  | .portCfgWrite _ _ => true
  | .tribCfgWrite _ _ => true
  | .rndClrCounts _ => true
  | .codewordReceive _ levels => decide (levels.length = 2720)
  | .transmitPosition _ => true
  | .resendTimeout _ _ => true
  | .moveRetire _ _ => true
  | .moveRestore _ _ => true
  | .moveDone => true
  | .mndClrCounts => true
  | .stripeCfgWrite _ _ => true
  | .keyLoad _ _ _ => true
  | .keyReady _ bytes => decide (bytes.length = 16)
  | .txKeySwitch _ => true
  | .overlapExpire _ _ => true
  | .trngFail _ => true
  | .slrClrCounts => true
  | .attest _ nonce => decide (nonce.length = 32)
  | .ownerUpload _ _ _ => true
  | .stripChallenge _ => true
  | .strip _ _ _ => true
  | .nearFrameReceive _ _ => true
  | .nearTxFrame _ _ => true
  | .controlCycle _ _ => true
  | .monitorSample _ o => o.wf
  | .ringPeakLoss _ _ _ => true
  | .rxLos _ _ => true
  | .verifyTimeout _ _ => true
  | .spareMakeTimeout _ _ => true
  | .rxSweepRetry _ _ => true
  | .eyeInterlockHigh => true
  | .eyeInterlockLow => true
  | .rxLightLoss _ => true
  | .probeEntry _ => true
  | .probeTimeout _ _ => true
  | .relock _ _ _ => true
  | .swap _ _ => true
  | .forceOff _ _ => true
  | .phnClrCounts _ => true
  | .fenceWrite _ _ _ => true
  | .queueItemArrive q it => it.wf q
  | .gateCycleStart => true
  | .gateSwap => true
  | .queueSample => true
  | .clrMax => true
  | .schClrCounts => true
  | .queueCfgWrite _ _ _ => true
  | .open1 m => decide (m.hostNonce.length = 32) && decide (m.key.length = if m.method = 1 then 388 else 0)
  | .open3 _ _ _ => true
  | .openLapse _ => true
  | .sessionIdleTimeout _ => true
  | .lockoutExpire => true
  | .nop _ => true
  | .close _ => true
  | .info _ => true
  | .ready _ => true
  | .peek _ _ _ => true
  | .poke _ _ _ => true
  | .stageClaim _ _ => true
  | .stageRelease _ _ => true
  | .bulkRead _ _ _ _ _ => true
  | .bulkWrite r => decide (4 ≤ r.payload.length) && decide (r.payload.length ≤ 8192) && decide (r.payload.length % 4 = 0)
  | .ledgerRead _ _ _ _ _ => true
  | .fmRetire _ _ _ => true
  | .fmTolerate _ _ _ => true
  | .fmRestore _ _ _ => true
  | .fwUpdate _ _ _ im => im.wf
  | .fwUpdateDone _ => true
  | .resetDevice _ => true
  | .resetFirmware _ => true
  | .resetDatapath _ => true
  | .netSet _ _ _ _ _ _ => true
  | .neighborDiscovery _ => true
  | .recoverInfo => true
  | .recoverWrite _ bytes => decide (4 ≤ bytes.length) && decide (bytes.length ≤ 8192)
  | .recoverDone _ _ im _ => im.wf
  | .hwkClrCounts => true
  | .hawkStart im _ => im.wf
  | .lifeSTick => true
  | .ledgerPoll _ _ => true
  | .journalFlush _ => true
  | .summaryWrite _ => true
  | .scoreEval => true
  | .flush _ => true
  | .sngClrCounts => true
  | .powerOn _ => true
  | .brownOut => true
  | .supplyWarnAssert _ => true
  | .supplyWarnRelease => true
  | .tempSample o => o.wf
  | .throttleHoldExpire => true
  | .powerRemoved => true
  | .minLevelWrite _ => true
  | .pwrClrCounts => true
  | .tapReset => true
  | .idcode => true
  | .bypass _ => true
  | .jtagBoundaryScan _ _ => true
  | .jtagPrivate _ => true
  | .dropFifoSend _ => true
  | .rxLosClear _ _ => true
  | .resetNRise => true
  | .brownOutEnd => true
  | .ppsInEdgeMissing => true
  | .ref10mInMeasure _ => true
  | .delayReqSend _ => true
  | .stripChallengeExpire => true
  | .hostPortLinkChange _ => true

end Sys2Proof
end

