-- ==== Sys2Proof/Certificates/Slice0/Obligations.lean ====
section
/-! DEFINITION. The statements of this model: what each command does, rule by rule of the manual, and what holds of every step. -/

open Sys2Proof Sys2Proof.Machine

/-! ## Engines, chapter 03 -/

/-- R95 and R96: NOP changes nothing but ENG_PC, SETX sets the index base to its 48-bit operand, SETP one parameter register, to the word that a patch gives where the plan patches the stroke. Rests on the model's choices in assumptions 22, 25, 143, 149. -/
def Obligations.ControlStrokes : Prop :=
  ∀ (s : State) (e : Fin 64) (i : BitVec 16) (w : BitVec 120),
    StrokeRuns (.strokeNop e i w) s e i opNop w [] (fun _ _ => True) (fun _ x => x)
      ∧ StrokeRuns (.setx e i w) s e i opSetx w [] (fun _ _ => True) (fun _ x => { x with idxb := w.setWidth 48 })
      ∧ StrokeRuns (.setp e i w) s e i opSetp w [] (fun _ _ => True)
          (fun _ x => { x with params := Tab.put 0 x.params (wPreg (strokeWord opSetp w)) (setpValue s e.val (strokeOf s e i opSetp w)) })

/-- R68 and R69: ADD and FMA write each destination tile from their source tiles, element by element, in order of the counts, with the flags of each rounding. Rests on the model's choices in assumptions 22, 25. -/
def Obligations.PairwiseStrokes : Prop :=
  ∀ (s : State) (e : Fin 64) (i : BitVec 16) (w : BitVec 120),
    StrokeRuns (.add e i w) s e i opAdd w []
        (fun k x => HasTile x (wFmt (strokeWord opAdd w)) (wSa (strokeWord opAdd w) + k) ∧ HasTile x (wFmt (strokeWord opAdd w)) (wSb (strokeWord opAdd w) + k))
        (addTile s (strokeOf s e i opAdd w))
      ∧ StrokeRuns (.fma e i w) s e i opFma w []
        (fun k x => HasTile x fp32 (wSa (strokeWord opFma w) + k) ∧ HasTile x fp32 (wSb (strokeWord opFma w) + k) ∧ HasTile x fp32 (wSc (strokeWord opFma w) + k))
        (fmaTile s (strokeOf s e i opFma w))

/-- R105 to R108: UPDS, UPDM and UPDA read every operand and write back all of them but the gradient. Rests on the model's choices in assumptions 22, 25, 139. -/
def Obligations.OptimiserStrokes : Prop :=
  ∀ (s : State) (e : Fin 64) (i : BitVec 16) (w : BitVec 120),
    StrokeRuns (.upds e i w) s e i opUpds w [] (fun k x => ∀ c ∈ kernelSlots (strokeWord opUpds w), HasTile x fp32 (c + k)) (kernelTile s (strokeOf s e i opUpds w))
      ∧ StrokeRuns (.updm e i w) s e i opUpdm w [] (fun k x => ∀ c ∈ kernelSlots (strokeWord opUpdm w), HasTile x fp32 (c + k)) (kernelTile s (strokeOf s e i opUpdm w))
      ∧ StrokeRuns (.upda e i w) s e i opUpda w [] (fun k x => ∀ c ∈ kernelSlots (strokeWord opUpda w), HasTile x fp32 (c + k)) (kernelTile s (strokeOf s e i opUpda w))

/-- R97, R98 and R101: CLRA clears its rows; ACC from the tile area and DOT add every value exactly to the entry that its place in the span names. Rests on the model's choices in assumptions 22, 25, 140. -/
def Obligations.AccumulateStrokes : Prop :=
  ∀ (s : State) (e : Fin 64) (i : BitVec 16) (w : BitVec 120) (ups : List LaUpset),
    StrokeRuns (.clra e i w) s e i opClra w [] (fun _ _ => True) (clraRow (strokeOf s e i opClra w))
      ∧ (isTile (wSa (strokeWord opAcc w)) = true → StrokeRuns (.acc e i w ups) s e i opAcc w ups
        (fun k x => HasTile x (wFmt (strokeWord opAcc w)) (wSa (strokeWord opAcc w) + k) ∧ SpanSound x (strokeOf s e i opAcc w) k)
        (accTile (strokeOf s e i opAcc w)))
      ∧ StrokeRuns (.dot e i w ups) s e i opDot w ups
        (fun k x => HasTile x (wFmt (strokeWord opDot w)) (wSa (strokeWord opDot w) + k) ∧ HasTile x (wFmt (strokeWord opDot w)) (wSb (strokeWord opDot w) + k)
          ∧ SpanSound x (strokeOf s e i opDot w) k)
        (dotTile (strokeOf s e i opDot w))

/-- R99 and R100: RDLA rounds the entries of its rows once into destination tiles, SVLA writes their images, ADDLA merges images into them. Rests on the model's choices in assumptions 22, 25, 139. -/
def Obligations.ReadOutStrokes : Prop :=
  ∀ (s : State) (e : Fin 64) (i : BitVec 16) (w : BitVec 120) (ups : List LaUpset),
    StrokeRuns (.rdla e i w ups) s e i opRdla w ups
        (fun k x => RowsSound x (rdlaRows (strokeOf s e i opRdla w) k).1 (rdlaRows (strokeOf s e i opRdla w) k).2) (rdlaTile s (strokeOf s e i opRdla w))
      ∧ StrokeRuns (.svla e i w ups) s e i opSvla w ups
        (fun k x => RowsSound x (wLaBase (strokeWord opSvla w) * 128 + 64 * k) 64) (svlaTile (strokeOf s e i opSvla w))
      ∧ StrokeRuns (.addla e i w ups) s e i opAddla w ups
        (fun k x => HasImages x (wSa (strokeWord opAddla w) + k) ∧ RowsSound x (wLaBase (strokeWord opAddla w) * 128 + 64 * k) 64)
        (addlaTile (strokeOf s e i opAddla w))

/-- R102: SUM64 writes the tree sums of its run, element by element or as one sum. Rests on the model's choices in assumptions 22, 25, 27, 139. -/
def Obligations.Sum64Stroke : Prop :=
  ∀ (s : State) (e : Fin 64) (i : BitVec 16) (w : BitVec 120),
    StrokeRuns (.sum64 e i w) s e i opSum64 w [] (fun k x => HasTile x (wFmt (strokeWord opSum64 w)) (wSa (strokeWord opSum64 w) + k)) (sum64Tile (strokeOf s e i opSum64 w))

/-- R53 and R82: CVT rounds every element of its source tiles into destination tiles that it writes as they become whole. Rests on the model's choices in assumptions 22, 25, 139. -/
def Obligations.ConvertStroke : Prop :=
  ∀ (s : State) (e : Fin 64) (i : BitVec 16) (w : BitVec 120),
    StrokeDoes (.cvt e i w) s e i opCvt w [] (fun k p => HasTile (p.1.eng e.val) (wFmt (strokeWord opCvt w)) (wSa (strokeWord opCvt w) + k))
      (cvtTile e.val (strokeOf s e i opCvt w))

/-- R88 and R98: ACC from an input queue takes its tiles oldest first, adds each where the tile's own number says, and returns its credit. Rests on the model's choices in assumptions 22, 25. -/
def Obligations.AccumulateFromQueue : Prop :=
  ∀ (s : State) (e : Fin 64) (i : BitVec 16) (w : BitVec 120) (ups : List LaUpset), isIq (wSa (strokeWord opAcc w)) = true →
    StrokeDoes (.acc e i w ups) s e i opAcc w ups
      (fun _ p => ∃ t r, (p.1.eng e.val).iq (wSa (strokeWord opAcc w) - 0x400) = t :: r ∧ t.fmt = (wFmt (strokeWord opAcc w)).setWidth 8
        ∧ t.tileNo.toNat < wSpan (strokeWord opAcc w) ∧ t.data.length = 4096
        ∧ SpanSound (p.1.eng e.val) (strokeOf s e i opAcc w) t.tileNo.toNat)
      (fun _ => accQueueTile e.val (strokeOf s e i opAcc w))

/-- R104 and R326: STORE writes each tile whole to its place in HBM, and no other byte of HBM changes; SEND adds each tile to an input queue that has a free place, or gives it to an output queue that does not hold it off. Rests on the model's choices in assumptions 22, 24, 28, 39. -/
def Obligations.TransferStrokes : Prop :=
  ∀ (s : State) (e : Fin 64) (i : BitVec 16) (w : BitVec 120),
    StrokeDoes (.store e i w) s e i opStore w []
        (fun k p => Carries (p.1.eng e.val) (wFmt (strokeWord opStore w)) (wTs (strokeWord opStore w) + k)
          ∧ (regionTile p.1 (wRegion (strokeWord opStore w)) (wToff (strokeWord opStore w) + k)).isSome)
        (storeTile e.val (strokeOf s e i opStore w))
      ∧ (∀ (fl : Flight) (k a : Nat) (p : State × List Byte),
          (∀ dha, regionTile p.1 (wRegion fl.word) (wToff fl.word + k) = some dha → a < dha / 4096 * 4096 ∨ dha / 4096 * 4096 + 4096 ≤ a) →
          Mem.get (storeTile e.val fl k p).1.hbm.bytes a = Mem.get p.1.hbm.bytes a)
      ∧ (wSb (strokeWord opSend w) < 0x200 → StrokeDoes (.send e i w) s e i opSend w []
        (fun k p => Carries (p.1.eng e.val) (wFmt (strokeWord opSend w)) (wSa (strokeWord opSend w) + k)
          ∧ iqRoom p.1 (wSb (strokeWord opSend w) / 8) (wSb (strokeWord opSend w) % 8) = true)
        (sendIqTile e.val (strokeOf s e i opSend w)))
      ∧ (0x200 ≤ wSb (strokeWord opSend w) → StrokeDoes (.send e i w) s e i opSend w []
        (fun k p => Carries (p.1.eng e.val) (wFmt (strokeWord opSend w)) (wSa (strokeWord opSend w) + k)
          ∧ losslessChan p.1 (wSb (strokeWord opSend w) - 0x200) ((p.1.eng e.val).tag (wSa (strokeWord opSend w) + k)).fmt = none
          ∧ (arrive p.1 (wSb (strokeWord opSend w) - 0x200) (sentItem p.1 (p.1.eng e.val) (strokeOf s e i opSend w) k) true).1 ≠ .held)
        (sendQueueTile e.val (strokeOf s e i opSend w)))

/-- R103, R125 to R135: SKENC on a channel without LOOP codes each tile into one unit for the channel's output queue, and where the channel is a federation's also for the catch-up area, R234, with its residual; SKDEC decodes each unit that its sub-stream gives into the rows or the tile of its place in the span. Rests on the model's choices in assumptions 22, 25, 27, 36, 40, 139, 141. -/
def Obligations.SkimStrokes : Prop :=
  ∀ (s : State) (e : Fin 64) (i : BitVec 16) (w : BitVec 120) (ups : List LaUpset),
    StrokeDoes (.skenc e i w) s e i opSkenc w []
        (fun k p => HasTile (p.1.eng e.val) fp32 (wSa (strokeWord opSkenc w) + k) ∧ (p.1.chan (wDst (strokeWord opSkenc w) - 0x600)).loop = false ∧ CatchupRoom p.1 e.val (strokeOf s e i opSkenc w) k)
        (skencTile e.val (strokeOf s e i opSkenc w))
      ∧ StrokeDoes (.skdec e i w ups) s e i opSkdec w ups
        (fun _ p => ∃ b, (takeUnit p.1 (wSa (strokeWord opSkdec w) - 0x500)).1 = some b
          ∧ (takeUnit p.1 (wSa (strokeWord opSkdec w) - 0x500)).2.stn.resFailed = p.1.stn.resFailed
          ∧ (isNone (wDst (strokeWord opSkdec w)) = true → UnitRowsSound ((takeUnit p.1 (wSa (strokeWord opSkdec w) - 0x500)).2.eng e.val) (strokeOf s e i opSkdec w) b))
        (fun _ => skdecUnit e.val (strokeOf s e i opSkdec w))

/-- R79, R104 and R328: LOAD makes its slots PENDING and requests their tiles; a tile that arrives and passes its check makes its slot VALID, and the last one completes the stroke. Rests on the model's choices in assumptions 22, 24, 26. -/
def Obligations.LoadStroke : Prop :=
  ∀ (s : State) (e : Fin 64),
    (∀ (i : BitVec 16) (w : BitVec 120), Lone s e i → strokeOk (strokeWord opLoad w) = true →
      (∀ k ∈ loadSlots (strokeWord opLoad w), ((s.eng e.val).tag k).st ≠ .pending) → (∀ p ∈ loadPlaces s (strokeWord opLoad w), p.isSome) →
      exec (.load e i w) s = .next (s.setEng e.val (afterLoad s e i w)))
      ∧ (∀ (slot : Fin 1024) (ups : List BurstUpset) (fl : Flight) (req : LoadReq), Awaits s e slot fl req →
        (loadRead s req ups).1 = true → (s.htag req.dha).kind ≠ 2 →
        Answers (.loadTileArrive e slot ups) s fun t =>
          let u := (loadRead s req ups).2.2
          let x := afterTile s (s.eng e.val) req (loadRead s req ups).2.1
          if x.loads.any (fun l => decide (l.stroke = req.stroke)) then t = u.setEng e.val x
          else ButSlots (u.setEng e.val (x.withFlights [])) t)

/-- R110, R111, R118, R349 and R573: SCRUB and ONLINE start a scrub, OFFLINE takes the engine out and the ledger records a soft retirement, and an engine that stops so confirms an open fence; from any other state each sets CTRL_IGNORED and changes nothing else. The end of a scrub leaves tiles, tags, LA entries and registers cleared, keeps counters and input queues, and counts as a re-training. Rests on the model's choices in assumptions 35, 113, 133, 145. -/
def Obligations.EngineControl : Prop :=
  ∀ (s : State) (e : Fin 64), Live s →
    let st := (s.eng e.val).st
    (st = .idle ∨ st = .fault → exec (.scrub e) s = .next (engConfirm (setEngSt s e.val .scrubbing) e.val)
        ∧ exec (.offline e) s = .next (softRetired (engConfirm (setEngSt s e.val .offline) e.val) (partId 1 e.val) 0 1))
      ∧ (¬(st = .idle ∨ st = .fault) → exec (.scrub e) s = .next (engErr s e.val ebCtrlIgnored) ∧ exec (.offline e) s = .next (engErr s e.val ebCtrlIgnored))
      ∧ (st = .offline → exec (.online e) s = .next (engConfirm (setEngSt s e.val .scrubbing) e.val))
      ∧ (∀ u : State, u.lth.fence = none → engConfirm u e.val = u)
      ∧ (∀ (u : State) f, u.lth.fence = some f → f.engines.getLsbD e.val = false → engConfirm u e.val = u)
      ∧ (st ≠ .offline → exec (.online e) s = .next (engErr s e.val ebCtrlIgnored))
      ∧ (st = .scrubbing → isUp s = true →
        exec (.scrubEnd e) s = .next (stateMended (partRetrain (setEngSt (s.setEng e.val (scrubbed (s.eng e.val))) e.val .idle) (partId 1 e.val) 1) (partId 1 e.val) 5))
      ∧ (∀ k row lane q, let x := scrubbed (s.eng e.val)
        x.tag k = {} ∧ Mem.get x.tiles k = 0 ∧ x.entry row lane = LaEntry.zero ∧ x.err = 0 ∧ x.fault = 0 ∧ x.nf = none ∧ x.nfStroke = 0 ∧ x.idxb = 0 ∧ x.pc = 0 ∧ x.param k = 0
          ∧ x.iq q = (s.eng e.val).iq q ∧ x.satCount = (s.eng e.val).satCount ∧ x.waitCount = (s.eng e.val).waitCount)

/-- R110: an engine's state changes alone; its readiness bit says whether it is IDLE, ARMED or RUNNING, and TOP_READY_DROP notes a fall. -/
def Obligations.EngineReadiness : Prop :=
  ∀ (s : State) (e : Fin 64) (st : EngSt),
    (setEngSt s e.val st).eng e.val = { s.eng e.val with st := st }
      ∧ (∀ j, j ≠ e.val → (setEngSt s e.val st).eng j = s.eng j)
      ∧ (setEngSt s e.val st).top.trw.getLsbD e.val = st.ready
      ∧ (∀ j, j ≠ e.val → (setEngSt s e.val st).top.trw.getLsbD j = s.top.trw.getLsbD j)
      ∧ (setEngSt s e.val st).top.drop.getLsbD 9 = (s.top.drop.getLsbD 9 || (s.top.trw.getLsbD e.val && !st.ready))
      ∧ (∀ j, j ≠ 9 → (setEngSt s e.val st).top.drop.getLsbD j = s.top.drop.getLsbD j)
      ∧ { setEngSt s e.val st with engines := s.engines, top := s.top } = s

/-- R81 and R88: a tile that comes against a credit joins its input queue, or is discarded with its credit returned where its CRC does not match; one that no place awaits changes nothing. R137 and R138: a unit that no sub-stream takes is counted as dropped; R149: one coded under a table that its slot does not hold is counted apart; any other joins the sub-stream that its source and channel are steered to, and a lossless one goes on to its destination; R233: one of a federation channel that is not of step n − D waits there. R242: a data tile of another member that reaches a holder of parity is gathered, and the last one forms the parity tile, P as the XOR of the 14 data tiles and Q as their weighted XOR; R238: a damaged one asks for an abort; R243: a lost data tile is P XOR the other 13, and the units of the twin fill the catch-up area of a spare. Rests on the model's choices in assumptions 29, 30, 36, 38, 39, 135, 136, 147, 159, 161. -/
def Obligations.QueueArrivals : Prop :=
  ∀ (s : State), Live s → Quiet s →
    (∀ (e : Fin 64) (q : Fin 8) (t : IqTile), t.mirror = none → t.wf = true → iqRoom s e.val q.val = true → exec (.iqTileArrive e q t) s = .next (iqInsert s e.val q.val t))
      ∧ (∀ (e : Fin 64) (q : Fin 8) (t : IqTile), t.mirror = none → iqRoom s e.val q.val = false → exec (.iqTileArrive e q t) s = .next s)
      ∧ (∀ (src : Fin 17) (b : List Byte), b ≠ [] →
        match steerOf s.skm.tables src.val (unitHdr b).chan with
        | none => exec (.unitArrive src false b) s = .next (unitDrop s)
        | some n =>
          ((s.sub n).valid = false ∨ (s.sub n).resid = true ∨ unitOk (s.sub n) b = false → exec (.unitArrive src false b) s = .next (unitDrop s))
            ∧ ((s.sub n).valid = true → (s.sub n).resid = false → unitOk (s.sub n) b = true → b.length = 16 + (unitHdr b).len →
              (epochOk s b = false →
                exec (.unitArrive src false b) s = .next { s with skm := { s.skm with epochDropCount := bump s.skm.epochDropCount 1, err := setErr s.skm.err 3 } })
              ∧ (epochOk s b = true → (s.subQ n).length < subRoom s n → ∀ u, (if src.val < 16 then catchupWrite s src.val true b else (true, s)) = (true, u) →
                ((s.sub n).ll = false → exec (.unitArrive src false b) s = .next (setSubQ u n (u.subQ n ++ [b])))
                ∧ ((s.sub n).ll = true → (s.sub n).kind = 2 → exec (.unitArrive src false b) s = .next (drainHbm n 1 (setSubQ u n [b])))
                ∧ ((s.sub n).ll = true → pickUnit (setSubQ u n [b]) n = none → exec (.unitArrive src false b) s = .next (setSubQ u n [b]))
                ∧ ((s.sub n).ll = true → (s.sub n).kind = 1 → iqRoom u (s.sub n).engine (s.sub n).iq = true → pickUnit (setSubQ u n [b]) n = some b →
                  exec (.unitArrive src false b) s = .next (iqInsert (decodeLossless (setSubQ u n []) b).2 (s.sub n).engine (s.sub n).iq
                    ⟨(unitHdr b).fmt.setWidth 8, (unitHdr b).crc, BitVec.ofNat 16 (unitHdr b).unit, (decodeLossless (setSubQ u n []) b).1, none, none⟩)))))
      ∧ (∀ (src : Fin 17) (b : List Byte), s.clc.rebuild ≠ 1 → exec (.unitArrive src true b) s = .next s)
      ∧ (∀ (src : Fin 17) (b : List Byte) u, s.clc.rebuild = 1 → b ≠ [] → catchupWrite s src.val (decide (src.val < 16)) b = (true, u) →
        exec (.unitArrive src true b) s = .next { u with clc := { u.clc with catchup := markConsumed (fun v => !v.consumed && decide (v.bytes = b) && decide (v.source = src.val)) u.clc.catchup } })
      ∧ (∀ (e : Fin 64) (q : Fin 8) (t : IqTile) h coll w v, t.mirror = some h → t.wf = true → s.stn.place = .running → s.clc.rebuild ≠ 1 → h.src.toNat / 16 = myRank s / 16 → h.src.toNat ≠ myRank s →
        wordAt s (rankMember h.src.toNat) h.step h.region.toNat h.tile.toNat = some (coll, w) →
        (rankMember (myRank s) / 2 ≠ w.word → exec (.iqTileArrive e q t) s = .next s)
          ∧ (rankMember (myRank s) / 2 = w.word → crc32c t.data ≠ t.crc → exec (.iqTileArrive e q t) s = .next (mirrorIntegrity s coll))
          ∧ (rankMember (myRank s) / 2 = w.word → crc32c t.data = t.crc → (s.clc.words.find? w.same).getD w = v → v.formed = false → v.tile (rankMember h.src.toNat) = none →
            let x := { v with got := v.got ++ [(rankMember h.src.toNat, h.kind, t.data)] }
            (x.mine (rankMember (myRank s)) s.clc.lostPeers = none → exec (.iqTileArrive e q t) s = .next (putWord s x))
              ∧ (∀ b, x.mine (rankMember (myRank s)) s.clc.lostPeers = some b → exec (.iqTileArrive e q t) s = .next (storeWord (putWord s { x with formed := true, got := [] }) x b))))
      ∧ (∀ (w : MWord) (f : Nat → List Byte) lost me, me < 16 → me / 2 = w.word → (∀ m ∈ dataMembers w.word, w.tile m = some (f m)) →
        w.mine me lost = some (if me % 2 = 0 then parityP ((dataMembers w.word).map fun m => (m, f m)) else parityQ ((dataMembers w.word).map fun m => (m, f m))))
      ∧ (∀ (w : MWord) (f : Nat → List Byte) p lost me, me / 2 ≠ w.word → me < 16 → w.word < 8 → (∀ m ∈ dataMembers w.word, m ≠ me → w.tile m = some (f m)) → w.tile (2 * w.word) = some p →
        w.mine me lost = some (xorBytes p (parityP (((dataMembers w.word).filter fun m => decide (m ≠ me)).map fun m => (m, f m)))))

/-- R145, R146 and R153: the two table slots of Skim change state only as the table of R146 says, and a command whose required state does not hold changes nothing but the result it reports; only the ACTIVE slot codes, and every slot that is not EMPTY decodes. Rests on the model's choices in assumption 146. -/
def Obligations.TableSlots : Prop :=
  ∀ (s : State), Live s →
    (s.skm.busy = true → ∀ e : Fin 2, exec .skmTblLoad s = .next (tblResult s 5) ∧ exec (.skmActivate e) s = .next (tblResult s 5) ∧ exec (.skmRetire e) s = .next (tblResult s 5))
      ∧ (s.skm.busy = false →
        ((s.tslot 0).st = .empty → exec .skmTblLoad s = .next { s with skm := { s.skm with busy := true, loadSlot := 0 } })
          ∧ ((s.tslot 0).st ≠ .empty → (s.tslot 1).st = .empty → exec .skmTblLoad s = .next { s with skm := { s.skm with busy := true, loadSlot := 1 } })
          ∧ ((s.tslot 0).st ≠ .empty → (s.tslot 1).st ≠ .empty → exec .skmTblLoad s = .next (tblResult s 1))
          ∧ (∀ e : Fin 2, (s.tslot e.val).st ≠ .loaded → exec (.skmActivate e) s = .next (tblResult s 4) ∧ exec (.skmRetire e) s = .next (tblResult s 4))
          ∧ (∀ e : Fin 2, (s.tslot e.val).st = .loaded → exec (.skmRetire e) s = .next (tblResult (setTslot s e.val { s.tslot e.val with st := .draining }) 0))
          ∧ (∀ e : Fin 2, (s.tslot e.val).st = .loaded → (s.tslot (1 - e.val)).st ≠ .active →
            exec (.skmActivate e) s = .next (tblResult (setTslot s e.val { s.tslot e.val with st := .active }) 0))
          ∧ (∀ e : Fin 2, (s.tslot e.val).st = .loaded → (s.tslot (1 - e.val)).st = .active →
            exec (.skmActivate e) s = .next (tblResult (setTslot (setTslot s (1 - e.val) { s.tslot (1 - e.val) with st := .loaded }) e.val { s.tslot e.val with st := .active }) 0)))
      ∧ (s.skm.busy = true →
        let b := stageBytes s
        let lens := (slice b 8 128).flatMap fun x => [BitVec.ofNat 4 (x.toNat % 16), BitVec.ofNat 4 (x.toNat / 16)]
        let u := { s with skm := { s.skm with busy := false } }
        (crc32c (b.take 136) ≠ BitVec.ofNat 32 (leAt b 136 4) → exec .skmTblLoadDone s = .next (tblResult u 2))
          ∧ (crc32c (b.take 136) = BitVec.ofNat 32 (leAt b 136 4) → oversubscribed lens = true → exec .skmTblLoadDone s = .next (tblResult u 3))
          ∧ (crc32c (b.take 136) = BitVec.ofNat 32 (leAt b 136 4) → oversubscribed lens = false →
            exec .skmTblLoadDone s = .next (tblResult (setTslot u s.skm.loadSlot ⟨.loaded, BitVec.ofNat 32 (leAt b 0 4), lens⟩) 0)))
      ∧ (∀ e : Fin 2, (s.tslot e.val).st = .draining → inflight s e.val = 0 → Answers (.skmSlotDrained e) s fun t =>
        (t.tslot e.val).st = .empty ∧ t.tslot (1 - e.val) = s.tslot (1 - e.val) ∧ { t with skm := { t.skm with slots := s.skm.slots } } = s)
      ∧ (∀ e : Fin 2, ¬((s.tslot e.val).st = .draining ∧ inflight s e.val = 0) → exec (.skmSlotDrained e) s = .next s)
      ∧ (∀ e l, activeTable s = some (e, l) → (s.tslot e).st = .active ∧ l = (s.tslot e).lens)
      ∧ (∀ e : Fin 2, (s.tslot e.val).st = .active → (activeTable s).isSome = true)
      ∧ (∀ e : Fin 2, slotLens s e.val = none ↔ (s.tslot e.val).st = .empty)
      ∧ (∀ n, tblResult s n = { s with skm := { s.skm with result := BitVec.ofNat 4 n, err := if n = 0 then s.skm.err else setErr s.skm.err 5 } })

/-! ## The mailbox, chapter 15 -/

/-- R540, R542, R544 and R464: the answer to a command makes its mailbox idle again, stores the record, leaves in the session under its next SEQ with its tag, and counts as refused unless STATUS is OK; nothing else changes. Rests on the model's choices in assumptions 9, 12. -/
def Obligations.MailboxAnswer : Prop :=
  ∀ (s : State) (r : MboxRec) (n : CmdNeeds) (i : Nat) (x : Session) (args : List Byte) (status : Byte) (result : List Byte), Accepted s r n args i x →
    let t := respond (begun s r n.op args i x) r n.op status result
    let rec_ := mboxRecord 0x11 r n.op status result
    let q := x.txSeq + 1
    t.mbox r.mbox.val = { s.mbox r.mbox.val with cmdRec := cmdRecord r n.op args, respRec := rec_, running := none, lastCmd := some r.cmdId }
      ∧ (∀ k, k ≠ r.mbox.val → t.mbox k = s.mbox k)
      ∧ t.session i = some { x with lastSeq := some r.seq, txSeq := q }
      ∧ (∀ k, k ≠ i → t.session k = s.session k)
      ∧ t.hwk.cmdCount = bump s.hwk.cmdCount 1
      ∧ t.hwk.refusedCount = (if status = 0 then s.hwk.refusedCount else bump s.hwk.refusedCount 1)
      ∧ t.out = s.out ++ [.host (rec_.take 44 ++ beBytes 8 q.toNat ++ (hmac x.sk (1 :: beBytes 8 q.toNat ++ (rec_.take 44 ++ beBytes 8 q.toNat ++ List.replicate 12 0))).take 12)]
      ∧ { t with hwk := { t.hwk with sessions := s.hwk.sessions, mboxes := s.hwk.mboxes, cmdCount := s.hwk.cmdCount, refusedCount := s.hwk.refusedCount }, out := s.out } = s

/-- R541 and R542: which records a mailbox command discards and counts, and what it answers while its mailbox runs another command or the same one. Rests on the model's choices in assumption 11. -/
def Obligations.MailboxChecks : Prop :=
  ∀ (s : State) (r : MboxRec) (n : CmdNeeds) (args : List Byte) (f : State → State),
    (s.hwk.running = false → mboxCmd s r n args f = s)
      ∧ (s.hwk.running = true → r.formOk = false → mboxCmd s r n args f = dropDatagram s)
      ∧ (s.hwk.running = true → r.formOk = true →
        (sessionSlot s r.session = none → mboxCmd s r n args f = dropDatagram s)
          ∧ (∀ i x, sessionSlot s r.session = some i → s.session i = some x →
            (x.isOpen = false ∨ x.mask.getLsbD r.mbox.val = false → mboxCmd s r n args f = dropDatagram s)
              ∧ (x.isOpen = true → x.mask.getLsbD r.mbox.val = true → r.tag ≠ commandTag x.sk r n.op args → mboxCmd s r n args f = recFail s i x)
              ∧ (x.isOpen = true → x.mask.getLsbD r.mbox.val = true → r.tag = commandTag x.sk r n.op args → ¬SeqNew x r.seq → mboxCmd s r n args f = recFail s i x)
              ∧ (x.isOpen = true → x.mask.getLsbD r.mbox.val = true → r.tag = commandTag x.sk r n.op args → SeqNew x r.seq → x.hcs ≠ r.hcs → mboxCmd s r n args f = dropDatagram s)
              ∧ (x.isOpen = true → x.mask.getLsbD r.mbox.val = true → r.tag = commandTag x.sk r n.op args → SeqNew x r.seq → x.hcs = r.hcs →
                let u := s.setSession i (some { x with lastSeq := some r.seq })
                let u := u.setMbox r.mbox.val { u.mbox r.mbox.val with cmdRec := cmdRecord r n.op args }
                (∀ c a b, (s.mbox r.mbox.val).running = some (c, a, b) → c ≠ r.cmdId → mboxCmd s r n args f = answerOnly u r n.op stMboxBusy true)
                ∧ (∀ a b, (s.mbox r.mbox.val).running = some (r.cmdId, a, b) → mboxCmd s r n args f = answerOnly u r n.op (if x.hcs = 2 then stMboxBusy else stInProgress) false)
                ∧ ((s.mbox r.mbox.val).running = none → (s.mbox r.mbox.val).lastCmd = some r.cmdId →
                  mboxCmd s r n args f = sendRecord u r.session (s.mbox r.mbox.val).respRec))))

/-- R547 to R550: NOP, CLOSE, INFO and READY answer OK with their results; PEEK reads its words in order and answers them, or stops at the first address that is refused. Rests on the model's choices in assumptions 91, 98. -/
def Obligations.MailboxQueries : Prop :=
  ∀ (s : State) (r : MboxRec) (i : Nat) (x : Session),
    (Accepted s r (needs 0x0001 false true []) [] i x → exec (.nop r) s = .next (respond (begun s r 0x0001 [] i x) r 0x0001 stOk []))
      ∧ (Accepted s r (needs 0x0002 false true []) [] i x → exec (.close r) s = .next (closeSession (respond (begun s r 0x0002 [] i x) r 0x0002 stOk []) i true))
      ∧ (Accepted s r (needs 0x0003 false true []) [] i x → exec (.info r) s = .next (respond (begun s r 0x0003 [] i x) r 0x0003 stOk (infoResult s x)))
      ∧ (Accepted s r (needs 0x0004 false false []) [] i x → exec (.ready r) s = .next (respond (begun s r 0x0004 [] i x) r 0x0004 stOk (readyResult s)))
      ∧ (∀ (addr : BitVec 32) (n : BitVec 8), Accepted s r (needs 0x0010 false true []) (beBytes 4 addr.toNat ++ [n]) i x →
        let u := begun s r 0x0010 (beBytes 4 addr.toNat ++ [n]) i x
        (n = 0 ∨ 8 < n.toNat ∨ (r.hcs = 2 ∧ n ≠ 1) → exec (.peek r addr n) s = .next (respond u r 0x0010 stBadArg [4]))
          ∧ (¬(n = 0 ∨ 8 < n.toNat ∨ (r.hcs = 2 ∧ n ≠ 1)) →
            (∀ ws v, peekWords n.toNat addr u = (ws, none, v) → exec (.peek r addr n) s = .next (respond v r 0x0010 stOk (ws.flatMap fun w => beBytes 4 w.toNat)))
            ∧ (∀ ws a v, peekWords n.toNat addr u = (ws, some a, v) →
              exec (.peek r addr n) s = .next (respond v r 0x0010 stAccessError (beBytes 4 a.toNat ++ (ws.flatMap fun w => beBytes 4 w.toNat).take 28)))))

/-- R550, R534 and R535: POKE writes one register that it may reach, or is answered with the address; a POKE of LTH_CMD is a Lath command of the host. NET_SET sets a slot of the device's addresses and its two ports once its answer has gone. Rests on the model's choices in assumptions 98, 103, 129. -/
def Obligations.MailboxWrites : Prop :=
  ∀ (s : State) (r : MboxRec) (i : Nat) (x : Session),
    (∀ addr value, Accepted s r (needs 0x0011 true true []) (beBytes 4 addr.toNat ++ beBytes 4 value.toNat) i x →
      let u := begun s r 0x0011 (beBytes 4 addr.toNat ++ beBytes 4 value.toNat) i x
      (∀ t, pokeAllowed addr = true → writeWord u addr value = some t → addr ≠ 0x9000C → exec (.poke r addr value) s = .next (respond t r 0x0011 stOk []))
        ∧ (∀ t, writeWord u 0x9000C value = some t → addr = 0x9000C → exec (.poke r addr value) s = .next (respond (lathCmdPoke r.session u value) r 0x0011 stOk []))
        ∧ (pokeAllowed addr = false ∨ writeWord u addr value = none → exec (.poke r addr value) s = .next (respond u r 0x0011 stAccessError (beBytes 4 addr.toNat))))
      ∧ (∀ slot len mp bp addr, Accepted s r (needs 0x0080 true false []) ([slot, len] ++ beBytes 2 mp.toNat ++ beBytes 2 bp.toNat ++ List.replicate 10 0 ++ beBytes 16 addr.toNat) i x →
        let u := begun s r 0x0080 ([slot, len] ++ beBytes 2 mp.toNat ++ beBytes 2 bp.toNat ++ List.replicate 10 0 ++ beBytes 16 addr.toNat) i x
        let t := respond u r 0x0080 stOk []
        (3 < slot.toNat → exec (.netSet r slot len mp bp addr) s = .next (respond u r 0x0080 stBadArg [0]))
          ∧ (slot.toNat ≤ 3 → 128 < len.toNat → exec (.netSet r slot len mp bp addr) s = .next (respond u r 0x0080 stBadArg [1]))
          ∧ (slot.toNat ≤ 3 → len.toNat ≤ 128 → exec (.netSet r slot len mp bp addr) s
            = .next { t with hwk := { t.hwk with addrs := Tab.put (0, 0) t.hwk.addrs slot.toNat (if len = 0 then (0, 0) else (len, addr)), mboxPort := mp, bulkPort := bp } }))

/-- R546 and R551: a staging area is claimed by one session at a time and only when its quadrant's stacks are ready, and released by its holder. Rests on the model's choices in assumption 99. -/
def Obligations.StagingAreas : Prop :=
  ∀ (s : State) (r : MboxRec) (i : Nat) (x : Session) (area : BitVec 8),
    (Accepted s r (needs 0x0020 true true []) [area] i x →
      let u := begun s r 0x0020 [area] i x
      (areaOk r area = false → exec (.stageClaim r area) s = .next (respond u r 0x0020 stBadArg [0]))
        ∧ (∀ k, areaOk r area = true → firstStackDown s (area.toNat - 1) = some k → exec (.stageClaim r area) s = .next (respond u r 0x0020 stNotReady [2, BitVec.ofNat 8 k]))
        ∧ (areaOk r area = true → firstStackDown s (area.toNat - 1) = none →
          (stageHolder s area.toNat = none → exec (.stageClaim r area) s = .next (respond (setStage u area.toNat (some r.session)) r 0x0020 stOk []))
          ∧ (stageHolder s area.toNat = some r.session → exec (.stageClaim r area) s = .next (respond u r 0x0020 stOk []))
          ∧ (∀ m, stageHolder s area.toNat = some m → m ≠ r.session → exec (.stageClaim r area) s = .next (respond u r 0x0020 stMboxBusy []))))
      ∧ (Accepted s r (needs 0x0021 true true []) [area] i x →
        let u := begun s r 0x0021 [area] i x
        (areaOk r area = false → exec (.stageRelease r area) s = .next (respond u r 0x0021 stBadArg [0]))
          ∧ (areaOk r area = true → stageHolder s area.toNat = some r.session → exec (.stageRelease r area) s = .next (respond (setStage u area.toNat none) r 0x0021 stOk []))
          ∧ (areaOk r area = true → stageHolder s area.toNat ≠ some r.session → exec (.stageRelease r area) s = .next (respond u r 0x0021 stNotOwner [])))

/-- R545 and R546: a bulk write record of a session puts its bytes, and no others, into the area that the session may use, or is discarded; BULK_READ sends the bytes of its range in pieces and answers their CRC. Rests on the model's choices in assumptions 94, 95. -/
def Obligations.BulkData : Prop :=
  ∀ (s : State) (i : Nat) (x : Session), Live s → s.hwk.running = true → s.session i = some x → x.isOpen = true →
    (∀ (b : BulkRec), sessionSlot s b.session = some i → b.tag = bulkTag x.sk b → SeqNew x b.seq → x.hcs = b.hcs → x.num = b.session →
      let y := { x with lastSeq := some b.seq }
      let u := s.setSession i (some y)
      let off := b.offset.toNat
      (bulkArea u x.num b.area.toNat b.handle = none → exec (.bulkWrite b) s = .next (dropDatagram u))
        ∧ (∀ size, bulkArea u x.num b.area.toNat b.handle = some size → size < off + b.payload.length → exec (.bulkWrite b) s = .next (dropDatagram u))
        ∧ (b.area = 1 → s.hwk.stage1 = some x.num → off + b.payload.length ≤ area1Size → s.stn.admitting = none →
          exec (.bulkWrite b) s = .next { u with hwk := { u.hwk with area1 := Mem.write s.hwk.area1 off b.payload } })
        ∧ (b.area = 1 → s.stn.admitting.isSome → exec (.bulkWrite b) s = .next (dropDatagram u))
        ∧ (b.area = 2 → s.hwk.stage2 = some x.num → off + b.payload.length ≤ area2Size →
          exec (.bulkWrite b) s = .next { u with hwk := { u.hwk with area2 := Mem.write s.hwk.area2 off b.payload } })
        ∧ (b.area = 3 → off + b.payload.length ≤ area3Size → exec (.bulkWrite b) s = .next (u.setSession i (some { y with area3 := Mem.write x.area3 off b.payload })))
        ∧ (b.area = 4 → (off % 4096 ≠ 0 ∨ (b.payload.length ≠ 4096 ∧ b.payload.length ≠ 8192)) → exec (.bulkWrite b) s = .next (dropDatagram u))
        ∧ (b.area = 4 → ownsBuffer s x.num b.handle = true → off + b.payload.length ≤ poolSize (handlePool b.handle.toNat) → off % 4096 = 0 → (b.payload.length = 4096 ∨ b.payload.length = 8192) →
          exec (.bulkWrite b) s = .next (writeTiles u (handleDha s.lth b.handle.toNat + off) b.payload)))
      ∧ (∀ (r : MboxRec) (area : BitVec 8) (handle : BitVec 32) (off : BitVec 64) (len : BitVec 32), Accepted s r (needs 0x0022 (decide (area ≠ 3)) false []) ([area, 0, 0, 0] ++ beBytes 4 handle.toNat ++ beBytes 8 off.toNat ++ beBytes 4 len.toNat) i x →
        let u := begun s r 0x0022 ([area, 0, 0, 0] ++ beBytes 4 handle.toNat ++ beBytes 8 off.toNat ++ beBytes 4 len.toNat) i x
        (area = 0 ∨ 4 < area.toNat → exec (.bulkRead r area handle off len) s = .next (respond u r 0x0022 stBadArg [0]))
          ∧ (¬(area = 0 ∨ 4 < area.toNat) → bulkArea u r.session area.toNat handle = none → exec (.bulkRead r area handle off len) s = .next (respond u r 0x0022 stNotOwner []))
          ∧ (∀ size, ¬(area = 0 ∨ 4 < area.toNat) → bulkArea u r.session area.toNat handle = some size →
            (size < off.toNat + len.toNat → exec (.bulkRead r area handle off len) s = .next (respond u r 0x0022 stBadArg [8]))
            ∧ (off.toNat + len.toNat ≤ size → len = 0 ∨ 1048576 < len.toNat ∨ len.toNat % 4 ≠ 0 → exec (.bulkRead r area handle off len) s = .next (respond u r 0x0022 stBadArg [16]))
            ∧ (off.toNat + len.toNat ≤ size → ¬(len = 0 ∨ 1048576 < len.toNat ∨ len.toNat % 4 ≠ 0) →
              let p := (bulkPieces (if area = 4 then 4096 else 8192) 258 off.toNat len.toNat).foldl (bulkPiece r area handle) ([], u)
              exec (.bulkRead r area handle off len) s = .next (respond p.2 r 0x0022 stOk (beBytes 4 (crc32c p.1).toNat)))))

/-- R553, R555 and R556: FW_UPDATE checks the staged image and starts to write it; its end answers with the image's versions, or reports that the region holds no valid image. Rests on the model's choices in assumption 98. -/
def Obligations.FirmwareUpdate : Prop :=
  ∀ (s : State),
    (∀ (r : MboxRec) (i : Nat) (x : Session) (len crc : BitVec 32) (im : FwImage), Accepted s r (needs 0x0070 true false []) (beBytes 4 len.toNat ++ beBytes 4 crc.toNat) i x →
      let u := begun s r 0x0070 (beBytes 4 len.toNat ++ beBytes 4 crc.toNat) i x
      let bs := Mem.read s.hwk.area2 0 len.toNat
      (s.hwk.updating.isSome → exec (.fwUpdate r len crc im) s = .next (respond u r 0x0070 stMboxBusy []))
        ∧ (s.hwk.updating = none → s.hwk.stage2 ≠ some r.session → exec (.fwUpdate r len crc im) s = .next (respond u r 0x0070 stNotOwner []))
        ∧ (s.hwk.updating = none → s.hwk.stage2 = some r.session → len.toNat ≤ area2Size →
          (crc32c bs ≠ crc → exec (.fwUpdate r len crc im) s = .next (respond u r 0x0070 stBadObject (beBytes 4 (crc32c bs).toNat)))
          ∧ (∀ c, crc32c bs = crc → fwRefusal s (imageIn bs im) = some c → exec (.fwUpdate r len crc im) s = .next (respond (hwkErr u 2) r 0x0070 stRefused [c]))
          ∧ (crc32c bs = crc → fwRefusal s (imageIn bs im) = none →
            exec (.fwUpdate r len crc im) s = .next { u with hwk := { u.hwk with updating := some (r, imageIn bs im), nor := some none, fwState := 2, recoverBuf := Mem.write [] 0 bs } })))
      ∧ (∀ r im, Live s → s.hwk.updating = some (r, im) → s.pwr.supplyWarn = false →
        exec (.fwUpdateDone true) s = .next (respond { s with hwk := { s.hwk with updating := none, nor := some (some im), fwState := 0 } } r 0x0070 stOk (beBytes 4 im.svn.toNat ++ beBytes 4 im.arith.toNat))
          ∧ exec (.fwUpdateDone false) s = .next (respond (hwkErr { s with hwk := { s.hwk with updating := none, nor := some none, fwState := 3 } } 2) r 0x0070 stRefused [4]))

/-! ## Stencil, chapter 05 -/

/-- R176, R194, R543 and R547: PLAN_ADMIT takes the staged image of the session that holds AREA 1 for its checks; PLAN_RELAUNCH arms a HALTED plan again where checks 6 and 12 hold; PLAN_DISCARD drops NEXT, or an armed or halted CURRENT; PLAN_HALT and STN_CTRL ask for a halt at the seam. Rests on the model's choices in assumptions 48, 49, 50. -/
def Obligations.PlanCommands : Prop :=
  ∀ (s : State) (r : MboxRec) (i : Nat) (x : Session),
    (∀ len crc, Accepted s r (needs 0x0030 true true [rdyStn]) (beBytes 4 len.toNat ++ beBytes 4 crc.toNat) i x →
      let u := begun s r 0x0030 (beBytes 4 len.toNat ++ beBytes 4 crc.toNat) i x
      let bs := Mem.read s.hwk.area1 0 len.toNat
      (s.stn.admitting.isSome → exec (.planAdmit r len crc) s = .next (respond u r 0x0030 stMboxBusy []))
        ∧ (s.stn.admitting = none → s.hwk.stage1 ≠ some r.session → exec (.planAdmit r len crc) s = .next (respond u r 0x0030 stNotOwner []))
        ∧ (s.stn.admitting = none → s.hwk.stage1 = some r.session → len.toNat ≤ 67109376 →
          (crc32c bs ≠ crc → exec (.planAdmit r len crc) s = .next (respond u r 0x0030 stBadObject (beBytes 4 (crc32c bs).toNat)))
          ∧ (crc32c bs = crc → r.hcs = 2 → leAt bs 4 2 ≠ 2 → exec (.planAdmit r len crc) s = .next (respond u r 0x0030 stBadArg [0]))
          ∧ (crc32c bs = crc → (r.hcs = 2 → leAt bs 4 2 = 2) → exec (.planAdmit r len crc) s = .next { u with stn := { u.stn with admitting := some ⟨r, len.toNat, crc⟩ } })))
      ∧ (∀ at_, Accepted s r (needs 0x0031 true false [rdyStn]) (beBytes 8 at_.toNat) i x →
        let u := begun s r 0x0031 (beBytes 8 at_.toNat) i x
        let v := fun code => { u with stn := { u.stn with admitResult := code } }
        (s.stn.cur = none ∨ s.stn.place ≠ .halted → exec (.planRelaunch r at_) s = .next (respond u r 0x0031 stRefused [placeCode s.stn.place]))
          ∧ (∀ p, s.stn.cur = some p → s.stn.place = .halted →
            (2 ^ 48 ≤ at_.toNat → exec (.planRelaunch r at_) s = .next (respond u r 0x0031 stBadArg [0]))
            ∧ (at_.toNat < 2 ^ 48 →
              let t := at_.setWidth 48
              let w := readyEngines (armEngines u p) p
              (planReady s = false ∨ (planNotReady s p).isSome → exec (.planRelaunch r at_) s = .next (respond (v arNotReady) r 0x0031 stOk [arNotReady]))
              ∧ (planReady s = true → planNotReady s p = none → windowOk s t = false → exec (.planRelaunch r at_) s = .next (respond (v arWindow) r 0x0031 stOk [arWindow]))
              ∧ (planReady s = true → planNotReady s p = none → windowOk s t = true →
                let w := seForget (fun n => !beforeStep s n s.stn.haltStep) (forgetFrom w s.stn.haltStep)
                exec (.planRelaunch r at_) s = .next (respond (armTrig { w with stn := { w.stn with place := .armed, haltCause := 0, launchAt := t, launchStep := w.stn.haltStep, admitResult := arAdmitted, patched := patchesFor p w.stn.haltStep } } 0 t) r 0x0031 stOk [arAdmitted])))))
      ∧ (∀ which, Accepted s r (needs 0x0032 true true [rdyStn]) [which] i x →
        let u := begun s r 0x0032 [which] i x
        (which = 1 → exec (.planDiscard r which) s = .next (respond (dropNext u false) r 0x0032 stOk []))
          ∧ (which ≠ 0 → which ≠ 1 → exec (.planDiscard r which) s = .next (respond u r 0x0032 stBadArg [0]))
          ∧ (∀ p, which = 0 → s.stn.cur = some p → s.stn.place = .armed ∨ s.stn.place = .halted → exec (.planDiscard r which) s = .next (respond (discardCurrent u p) r 0x0032 stOk []))
          ∧ (which = 0 → s.stn.cur = none ∨ ¬(s.stn.place = .armed ∨ s.stn.place = .halted) → exec (.planDiscard r which) s = .next (respond u r 0x0032 stRefused [placeCode s.stn.place])))
      ∧ (Accepted s r (needs 0x0033 true false [rdyStn]) [] i x → s.stn.place = .running →
        let u := begun s r 0x0033 [] i x
        exec (.planHalt r) s = .next (respond { u with stn := { u.stn with haltReq := true } } r 0x0033 stOk []))
      ∧ (Live s → s.stn.place = .running → exec .haltAtSeam s = .next { s with stn := { s.stn with haltReq := true } })
      ∧ (Live s → s.stn.place ≠ .running → exec .haltAtSeam s = .next s)
      ∧ (Live s → s.stn.next = none → exec .discardNext s = .next s)
      ∧ (∀ p, Live s → s.stn.next = some p → s.lth.queue = [] → s.lth.fence = none → Answers .discardNext s fun t =>
        t.stn = { s.stn with next := none } ∧ t.skm = { s.skm with nextTables := [] } ∧ t.clc = { s.clc with early := [] }
          ∧ (∀ g ∈ p.regions, g.inherit = false → holdsAny t.lth (regionOwner g.name) = false)
          ∧ (∀ h ∈ p.areas, ∀ a ∈ bondAreas, ownerOf t.lth h ≠ some (areaOwner a.1 a.2))
          ∧ (∀ e, e < 64 → t.eng e = if p.engines.getLsbD e ∧ !(match s.stn.cur with | some c => c.engines | none => 0).getLsbD e ∧ (s.eng e).st = .armed then { s.eng e with st := .idle } else s.eng e)
          ∧ { t with stn := s.stn, skm := s.skm, clc := s.clc, lth := s.lth, engines := s.engines, top := s.top } = s)

/-- R176 to R180 and R341: an admission ends with the result of the first of its twelve checks that fails, in their order: it writes the result and its place and changes nothing else but the answer. A success gives the plan its place once Lath's queue is empty, and until then nothing changes. Rests on the model's choices in assumptions 31, 32, 43, 44, 52, 132, 140, 143, 144, 150, 171. -/
def Obligations.PlanAdmission : Prop :=
  ∀ (s : State) (a : Admitting), Live s → s.stn.admitting = some a →
    let u := { s with stn := { s.stn with admitting := none } }
    let bs := Mem.read s.hwk.area1 0 a.len
    let p := parsePlan bs
    (∀ f, admitChecks u bs a.len = .inr f → exec .planAdmitDone s = .next (admitAnswer (admitResult u f.code (some f.place)) a.req))
      ∧ (∀ p v, admitChecks u bs a.len = .inl (p, v) → s.lth.queue = [] → exec .planAdmitDone s = .next (admitAnswer (admitResult (placePlan v p) (if p.isBreak then arEager else arAdmitted) none) a.req))
      ∧ (∀ p v, admitChecks u bs a.len = .inl (p, v) → s.lth.queue ≠ [] → exec .planAdmitDone s = .next s)
      ∧ (placeFree u (imgSeam bs) = false → admitChecks u bs a.len = .inr ⟨arSlotBusy, placeOpen⟩)
      ∧ (placeFree u (imgSeam bs) = true →
        (∀ f, formatFault bs a.len = some f → admitChecks u bs a.len = .inr ⟨arFormat, f⟩)
        ∧ (formatFault bs a.len = none → signatureBad u bs = true → admitChecks u bs a.len = .inr ⟨arSignature, headerPlace⟩)
        ∧ (formatFault bs a.len = none → signatureBad u bs = false → targetBad u bs p = true → admitChecks u bs a.len = .inr ⟨arTarget, headerPlace⟩)
        ∧ (formatFault bs a.len = none → signatureBad u bs = false → targetBad u bs p = false →
          (s.top.asig = some p.asig → admitChecks u bs a.len = checksFrom6 u p)
          ∧ (s.top.asig ≠ some p.asig → p.mayFallBack = true → admitChecks u bs a.len = checksFrom6 u p.fallenBack)
          ∧ (s.top.asig ≠ some p.asig → p.mayFallBack = false → admitChecks u bs a.len = .inr ⟨arAsig, headerPlace⟩)))
      ∧ (∀ q : Plan, (planReady u = false ∨ (planNotReady u q).isSome → checksFrom6 u q = .inr ⟨arNotReady, placeOpen⟩)
        ∧ (planReady u = true → planNotReady u q = none →
          (∀ f, ruleFault u q = some f → checksFrom6 u q = .inr ⟨arRule, f⟩)
          ∧ (ruleFault u q = none → (∃ g ∈ q.regions, inheritBad u g = true) → ∃ f, checksFrom6 u q = .inr ⟨arInherit, f⟩)
          ∧ (ruleFault u q = none → (∀ g ∈ q.regions, inheritBad u g = false) →
            (∀ f, grantPlan u q = .inr f → checksFrom6 u q = .inr ⟨arNoBuffers, f⟩)
            ∧ (∀ g v, grantPlan u q = .inl (g, v) →
              (∀ f, timePlan v g = .inr f → checksFrom6 u q = .inr ⟨arTiming, f⟩)
              ∧ (∀ h, timePlan v g = .inl h →
                (∀ f, budgetFault v h = some f → checksFrom6 u q = .inr ⟨arBudget, f⟩)
                ∧ (budgetFault v h = none → windowBad v h = true → checksFrom6 u q = .inr ⟨arWindow, headerPlace⟩)
                ∧ (budgetFault v h = none → windowBad v h = false → checksFrom6 u q = .inl (h, v)))))))
      ∧ (∀ v p, v.stn.place = .none → p.isBreak = false → (placePlan v p).stn.cur = some (withImages v p) ∧ (placePlan v p).stn.place = .armed ∧ (placePlan v p).stn.launchAt = p.launchNs
        ∧ (placePlan v p).trig 0 = { v.trig 0 with target := p.launchNs, period := 0, en := true } ∧ (placePlan v p).skm.tables = p.skim)

/-- R182 to R184: the launch trigger starts an armed plan on the first tick at which it is due; more than 1,000 ns late, or with a unit that is not ready, the plan goes to HALTED with cause 4 or 5. Rests on the model's choices in assumptions 3, 4, 156. -/
def Obligations.LaunchTrigger : Prop :=
  ∀ (s : State) (p : Plan), Live s → s.stn.cur = some p → s.stn.place = .armed →
    (due s.count s.stn.launchAt = false → exec .launch s = .next s)
      ∧ (due s.count s.stn.launchAt = true →
        (1000 < signedDiff s.count s.stn.launchAt → exec .launch s = .next (launchFails (disarm s 0) 4 1))
        ∧ (signedDiff s.count s.stn.launchAt ≤ 1000 → launchReady s p = false → exec .launch s = .next (launchFails (disarm s 0) 5 0))
        ∧ (signedDiff s.count s.stn.launchAt ≤ 1000 → launchReady s p = true → exec .launch s = .next (launched s p)))
      ∧ (∀ cause bit, bit < 32 → let t := launchFails s cause bit
        t.stn.place = .halted ∧ t.stn.haltCause = cause ∧ t.stn.haltStep = s.stn.launchStep ∧ t.stn.err.getLsbD bit = true ∧ t.stn.err.getLsbD 4 = true
          ∧ (t.trig 0).en = false ∧ (t.trig 1).en = false ∧ (t.trig 2).en = false)
      ∧ (∀ e, e < 64 → (runEngines s p).eng e = if p.engines.getLsbD e ∧ (s.eng e).st = .armed then { s.eng e with st := .running } else s.eng e)

/-- R161 to R164 and R227: a step begins at its start edge with its own clean record, unless a launch finds a collective with 16 undecided instances; each slot opens its engines' next strokes once START core cycles of the step have passed, and at the deadline a step that has not completed halts the plan and asks for aborts. Rests on the model's choices in assumptions 4, 34, 151, 156. -/
def Obligations.StepTimers : Prop :=
  ∀ (s : State) (p : Plan), Live s → s.stn.cur = some p → s.stn.place = .running →
    (s.stn.stepRunning = false → (s.stn.launching || s.stn.inSeam) = true → due s.count (nextStart s p) = true →
      (s.stn.launching = true → p.seamLaunch = true → s.stn.launchStep = p.step0 → launchReady s p = false → exec .stepStart s = .next (launchFails s 5 0))
        ∧ (¬(s.stn.launching = true ∧ p.seamLaunch = true ∧ s.stn.launchStep = p.step0 ∧ launchReady s p = false) → s.stn.launching = true → fullColls s p ≠ [] →
          exec .stepStart s = .next (haltNow (raiseFull s p (fullColls s p)) 1))
        ∧ (¬(s.stn.launching = true ∧ p.seamLaunch = true ∧ s.stn.launchStep = p.step0 ∧ launchReady s p = false) → (s.stn.launching = true → fullColls s p = []) →
          exec .stepStart s = .next (armTrig (disarm (sendJoins (trackInsts (atStart s p) p) p) 1) 2 (nextStart s p + BitVec.ofNat 48 p.deadlineNs))))
      ∧ (∀ k : Fin 4096, s.stn.stepRunning = true → k.val = s.stn.slotsStarted → k.val < (curBody s).slots.length →
        (stepCycles s < slotStartsAt (curBody s) k.val → exec (.slotStart k) s = .next s)
          ∧ (slotStartsAt (curBody s) k.val ≤ stepCycles s → exec (.slotStart k) s = .next (pump (slotOpen s k.val))
            ∧ (Still (slotOpen s k.val) → exec (.slotStart k) s = .next (slotOpen s k.val))))
      ∧ ((s.stn.stepRunning || s.stn.inSeam) = true → s.stn.deadlineDone = false → due s.count (deadlineAt s p) = true →
        let u := { disarm s 2 with stn := { s.stn with deadlineDone := true } }
        (s.stn.inSeam = true ∨ stepComplete s = true → exec .stepDeadline s = .next u)
          ∧ (s.stn.inSeam = false → stepComplete s = false →
            exec .stepDeadline s = .next (haltNow (raiseLate { u with stn := { u.stn with stepLate := bump u.stn.stepLate 1, err := setErr u.stn.err 3 } } p) 1)))
      ∧ (due s.count (deadlineAt s p) = false → exec .stepDeadline s = .next s)
      ∧ (∀ e, (atStart s p).eng e = if e < 64 ∧ p.engines.getLsbD e then { s.eng e with issued := 0, gate := 0, toIssue := [], st := if s.stn.launching = true ∧ (s.eng e).st = .armed then .running else (s.eng e).st } else s.eng e)

/-- R190 to R192: at the end of a step its seam begins; a requested halt takes effect there, a plan with no steps left ends, and any other goes on to its next start. Stated in full for a plan without collectives on an unpaired device at level 0. Rests on the model's choices in assumptions 34, 37, 148, 156. -/
def Obligations.StepSeams : Prop :=
  ∀ (s : State) (p : Plan), Live s → s.stn.cur = some p → s.stn.place = .running →
    (stepComplete s = false → exec .stepSeam s = .next s)
      ∧ (stepComplete s = true → exec .stepSeam s = .next (seamActions { s with stn := { s.stn with stepRunning := false, inSeam := true } } p))
      ∧ (stepComplete s = true → p.descs = [] → s.se.role = 0 → s.pwr.level = 0 → s.pwr.applied = 0 → s.pwr.minLevel = 0 →
        ((s.stn.step - p.step0).toNat + 1 ≠ p.steps → s.stn.haltReq = false → Answers .stepSeam s fun t =>
          t.stn.place = .running ∧ t.stn.inSeam = true ∧ t.stn.stepRunning = false ∧ t.stn.step = s.stn.step
            ∧ t.trig 1 = { s.trig 1 with target := nextStart s p, period := 0, en := true }
            ∧ (∀ e, e < 64 → p.engines.getLsbD e = true → t.eng e = { s.eng e with idxb := 0, nf := none, nfStroke := 0 })
            ∧ (∀ e, e < 64 → p.engines.getLsbD e = false → t.eng e = s.eng e))
        ∧ ((s.stn.step - p.step0).toNat + 1 ≠ p.steps → s.stn.haltReq = true → Answers .stepSeam s fun t =>
          t.stn.place = .halted ∧ t.stn.haltCause = 3 ∧ t.stn.haltStep = s.stn.step + 1 ∧ t.stn.haltReq = false
            ∧ (∀ e, e < 64 → p.engines.getLsbD e = true → (s.eng e).st = .running → (t.eng e).st = .armed))
        ∧ ((s.stn.step - p.step0).toNat + 1 = p.steps → s.stn.next = none → Answers .stepSeam s fun t =>
          t.stn.cur = none ∧ t.stn.place = .none ∧ t.stn.haltCause = 0 ∧ t.skm.tables = []
            ∧ (∀ e, e < 64 → p.engines.getLsbD e = true → (s.eng e).st = .running → (t.eng e).st = .idle)))

/-! ## Collectives, chapter 06 -/

/-- R216, R217: a message that fails its checks is discarded and counted; one that names NEXT waits for it; a second copy changes nothing; and any other is handled by its TYPE, on which its command and no other acts. Rests on the model's choices in assumptions 20, 153, 154. -/
def Obligations.ClcMessages : Prop :=
  ∀ (s : State) (m : ClcMsg), Live s → s.se.role = 0 →
    (∀ c ∈ ([(tyJoin, .join m), (tySiteJoin, .siteJoin m), (tyReady, .clcReady m), (tySiteReady, .siteReady m), (tyAbortReq, .abortReq m), (tyLate, .late m), (tyExt, .ext m), (tyRing, .ring m), (tyNotify, .notify m), (tyAbortReply, .abortReply m), (tyRebuildReq, .rebuildReq m), (tyRebuilt, .rebuilt m)] : List (Byte × Instr)),
      (m.type = c.1 → clcAccepts s m = false → exec c.2 s = .next (clcDrop s))
        ∧ (m.type = c.1 → clcAccepts s m = true → names s.stn.cur m = true → secondCopy s m = true → exec c.2 s = .next s)
        ∧ (m.type = c.1 → clcAccepts s m = true → names s.stn.cur m = false → exec c.2 s = .next { s with clc := { s.clc with early := s.clc.early ++ [m] } })
        ∧ (m.type = 0 ∨ 12 < m.type.toNat → exec c.2 s = .next (clcDrop s)))
      ∧ (clcAccepts s m = true → names s.stn.cur m = true → secondCopy s m = false →
        let u := heard s m
        (m.type = tyJoin → exec (.join m) s = .next (clcOut (onJoin u m)))
          ∧ (m.type = tySiteJoin → exec (.siteJoin m) s = .next (clcOut (onSiteJoin u m)))
          ∧ (m.type = tyReady → exec (.clcReady m) s = .next (clcOut (onReady u m)))
          ∧ (m.type = tySiteReady → exec (.siteReady m) s = .next (clcOut (onSiteReady u m)))
          ∧ (m.type = tyAbortReq → exec (.abortReq m) s = .next (clcOut (onAbortReq u m)))
          ∧ (m.type = tyLate → exec (.late m) s = .next (clcOut (onLate u m)))
          ∧ (m.type = tyExt → exec (.ext m) s = .next (clcOut (onExt u m)))
          ∧ (m.type = tyRing → exec (.ring m) s = .next (clcOut (onRing u m)))
          ∧ (m.type = tyNotify → exec (.notify m) s = .next (clcOut (onNotify u m)))
          ∧ (m.type = tyAbortReply → exec (.abortReply m) s = .next (clcOut (onAbortReply u m)))
          ∧ (m.type = tyRebuildReq → exec (.rebuildReq m) s = .next (clcOut (onRebuildReq u m)))
          ∧ (m.type = tyRebuilt → exec (.rebuilt m) s = .next (clcOut (onRebuilt u m))))

/-- R215, R216, R272 and R511: messages for other ranks leave in order, those inside the site at once and those for another site by a bond's control queue, and nothing else changes; a SHADOW sends none. Rests on the model's choices in assumptions 9, 152. -/
def Obligations.ClcSends : Prop :=
  ∀ (s : State) (o : Sends),
    (s.se.role ≠ 2 → o.length < 100000 → (∀ p ∈ o, p.1 ≠ myRank s) → clcOut (s, o) = sentTo s o) ∧ (s.se.role = 2 → clcOut (s, o) = s)
      ∧ ((∀ p ∈ o, siteHead p.1 = siteHead (myRank s)) → sentTo s o = { s with out := s.out ++ o.map fun p => .clc (BitVec.ofNat 15 p.1) p.2 })
      ∧ (∀ (d : Nat) (m : ClcMsg), siteHead d ≠ siteHead (myRank s) → let b := (Config.ctlRoute m.plan (myRank s) d).val
        let t := sentTo s [(d, m)]
        (itemsLen (s.ctlQ b) + 68 ≤ 262144 → t.ctlQ b = s.ctlQ b ++ [⟨.seg 2 (clcBytes m), s.count, 0⟩] ∧ t.sch.ctlDrop = s.sch.ctlDrop)
          ∧ (262144 < itemsLen (s.ctlQ b) + 68 → t.ctlQ b = s.ctlQ b ∧ t.sch.ctlDrop = bump s.sch.ctlDrop 1)
          ∧ (∀ j, j ≠ b → t.ctlQ j = s.ctlQ j) ∧ { t with sch := s.sch } = s)

/-- R219 to R226: a site head keeps each JOIN and READY of its site, answers a differing digest or signature with an abort request, and sends the root one SITE_JOIN and one SITE_READY when its site is complete; it passes on requests, LATEs, replies and the RING, whose outcome it records once and tells its site. Rests on the model's choices in assumptions 56, 152, 154. -/
def Obligations.ClcSiteHead : Prop :=
  ∀ (s : State) (m : ClcMsg) (c : Desc) (p : Plan), Heard s m → HeadOf s m → s.stn.cur = some p → curDesc s m.coll.toNat = some c →
    let u := heard s m
    let v := { u with clc := { u.clc with joins := joinsWith s m, breaks := breaksWith s m } }
    let sigOk := m.asig = p.asig ∨ flagRepro m = true
    (m.type = tyJoin → m.digest = c.digest → sigOk → allJoined s c m = false → exec (.join m) s = .next v)
      ∧ (m.type = tyJoin → sigOk → allJoined s c m = true → s.clc.siteJoinSent.contains m.coll.toNat = false → (∀ j ∈ joinsWith s m, j.1 = m.coll.toNat → j.2.2 = c.digest) →
        exec (.join m) s = .next (sentTo { v with clc := { v.clc with siteJoinSent := s.clc.siteJoinSent ++ [m.coll.toNat] } } [(0, sealMsg (withFlag (baseMsg s tySiteJoin m.coll.toNat m.step) 1 (knowsBreak v m.coll.toNat)))]))
      ∧ (m.type = tyJoin → m.digest ≠ c.digest → sigOk → allJoined s c m = false →
        exec (.join m) s = .next (sentTo (markMismatch v) (abortReq v m.coll.toNat m.step ceDescMismatch (some m.src) none)))
      ∧ (m.type = tyJoin → m.digest = c.digest → ¬sigOk → allJoined s c m = false →
        exec (.join m) s = .next (sentTo (markMismatch v) (abortReq v m.coll.toNat m.step ceSignatureMismatch (some m.src) none)))
      ∧ (m.type = tyReady → allReady s c m = false → exec (.clcReady m) s = .next (putInst u (withReady s m)))
      ∧ (m.type = tyReady → allReady s c m = true → (instOf s m).siteReadySent = false →
        (∀ j ∈ (withReady s m).readies, j.value = stepVal s.clc.exts (m.step + BitVec.ofNat 32 c.d)) → (∀ j ∈ (withReady s m).readies, flagNf j = false ∧ flagRepro j = false) →
        exec (.clcReady m) s = .next (sentTo (putInst u { withReady s m with siteReadySent := true })
          [(0, sealMsg (withFlag { baseMsg s tySiteReady m.coll.toNat m.step with value := stepVal s.clc.exts (m.step + BitVec.ofNat 32 c.d) } 1 false))]))
      ∧ (m.type = tyAbortReq → exec (.abortReq m) s = .next (sentTo u [(0, m)]))
      ∧ (m.type = tyLate → exec (.late m) s = .next (sentTo u [(0, m)]))
      ∧ (m.type = tyRing → m.outcome = 1 → (instOf s m).recorded = false → c.m4 * c.m5 < 99999 → Answers (.ring m) s fun t =>
        t.clc.recCount = s.clc.recCount + 1 ∧ t.clc.sealCount = bump s.clc.sealCount 1 ∧ t.stn = s.stn ∧ t.hbm = s.hbm
          ∧ t = sentTo (recordOutcome u (instOf s m) (decisionOf m)) (notifySite s c m ++ [(nextHead c (myRank s) m, m)]))
      ∧ (m.type = tyRing → (instOf s m).recorded = true → exec (.ring m) s = .next (sentTo u [(nextHead c (myRank s) m, m)]))
      ∧ (m.type = tyAbortReply → m.subj.toNat ≠ myRank s → exec (.abortReply m) s = .next (sentTo u [(m.subj.toNat, m)]))

/-- R220, R223 to R225, R231 and R243: the root seals an instance when every site has joined with its digest and every SITE_READY has come and no abort is asked for; an abort request opens its hold, and at the end of the hold the request of highest precedence decides. SITE_JOIN and SITE_READY bring what a seal needs, or a request where they differ; a RING that returns ends its lap; and a REBUILT takes a rank from those that are lost. Rests on the model's choices in assumptions 56, 58, 154, 155, 157, 161. -/
def Obligations.ClcRoot : Prop :=
  ∀ (s : State) (coll : Nat) (step : BitVec 32) (c : Desc) (x : Inst), curDesc s coll = some c → findInst s coll step = some x →
    let ready := x.decision = none ∧ x.reqs = [] ∧ (x.joined = true ∨ joinsMatched s c coll = true) ∧ ∀ h ∈ c.heads, ∃ m ∈ x.siteReadies, m.src.toNat = h
    (ready → trySeal s coll step = decideInst s x { abort := false, code := 0, subj := (lowestNf (x.siteReadies.map fun m => (m.subj, m))).map (·.2), nf := (lowestNf (x.siteReadies.map fun m => (m.subj, m))).map (·.1), repro := breakSeen s x })
      ∧ (¬ready → trySeal s coll step = (s, []))
      ∧ (∀ m : ClcMsg, m.coll.toNat = coll → m.step = step → x.decision = none → rootAbort s m = (putInst s { x with reqs := x.reqs ++ [m], hold := true }, []))
      ∧ (∀ m : ClcMsg, x.reqs = [m] → x.hold = true → x.decision = none → m.code ≠ ceDescMismatch →
        holdEnd s coll step = decideInst s x { abort := true, code := m.code, subj := if flagSubj m then some m.subj else none, nf := if m.code = ceNonfinite then some m.nfPos else none, repro := breakSeen s x })
      ∧ (∀ m q : ClcMsg, x.reqs = [m, q] → x.hold = true → x.decision = none → precedence q.code < precedence m.code → q.code ≠ ceDescMismatch →
        holdEnd s coll step = decideInst s x { abort := true, code := q.code, subj := if flagSubj q then some q.subj else none, nf := if q.code = ceNonfinite then some q.nfPos else none, repro := breakSeen s x })
      ∧ (∀ m : ClcMsg, Heard s m → isRoot s = true → m.coll.toNat = coll → m.step = step →
        let u := heard s m
        let v := { u with clc := { u.clc with siteJoins := s.clc.siteJoins ++ [m], breaks := breaksWith s m } }
        let y := { x with siteReadies := x.siteReadies ++ [m] }
        let all := (x.joined = true ∨ joinsMatched s c coll = true) ∧ ∀ h ∈ c.heads, ∃ j ∈ y.siteReadies, j.src.toNat = h
        let want := stepVal s.clc.grants (step + BitVec.ofNat 32 c.d)
        (m.type = tySiteJoin → m.digest = c.digest → c.heads ≠ [] → (∀ i ∈ s.clc.insts, i.coll = coll → i.siteReadies = []) → exec (.siteJoin m) s = .next v)
          ∧ (m.type = tySiteJoin → m.digest ≠ c.digest → x.decision = none → c.heads ≠ [] → (∀ i ∈ s.clc.insts, i.coll = coll → i.siteReadies = []) →
            exec (.siteJoin m) s = .next (putInst (markMismatch v) { x with reqs := x.reqs ++ [sealMsg (withSubj { baseMsg s tyAbortReq coll step with code := ceDescMismatch } (some m.src))], hold := true }))
          ∧ (m.type = tySiteReady → m.value = want → ¬all → exec (.siteReady m) s = .next (putInst u y))
          ∧ (m.type = tySiteReady → m.value = want → all → x.decision = none → x.reqs = [] → x.recorded = false → Answers (.siteReady m) s fun t =>
            t.clc.sealCount = bump s.clc.sealCount 1 ∧ t.clc.recCount = s.clc.recCount + 1 ∧ t.stn = s.stn ∧ ∃ z, findInst t coll step = some z ∧ z.recorded = true ∧ z.decision.isSome)
          ∧ (m.type = tySiteReady → m.value ≠ want → x.decision = none →
            exec (.siteReady m) s = .next (putInst u { y with reqs := x.reqs ++ [sealMsg (withSubj { baseMsg s tyAbortReq coll step with code := ceTimeout } (some m.src))], hold := true }))
          ∧ (m.type = tyRing → x.decision.isSome → exec (.ring m) s
            = .next (putInst { u with clc := { u.clc with rings := s.clc.rings.filter fun i => !(decide (i.coll = coll) && decide (i.step = step)) } } { x with ringBack := true }))
          ∧ (m.type = tyRebuilt → exec (.rebuilt m) s = .next { u with clc := { u.clc with lost := s.clc.lost.filter fun r => r.toNat ≠ m.src.toNat } }))

/-- R224 to R226, R230, R243 and R249: an outcome is recorded once: one 32-byte record at the next place of the ring and no other byte of it, one more SEAL or ABORT counted, and an ABORT halts a running plan with cause 1. A NOTIFY brings it to a member; an EXT moves the deadline of the running step, an ABORT_REPLY ends the wait for a result, and a REBUILD_REQ has a halted twin send its catch-up area. Rests on the model's choices in assumptions 56, 154, 155, 161. -/
def Obligations.ClcOutcome : Prop :=
  ∀ (s : State) (x : Inst) (d : Decision),
    (x.recorded = true → recordOutcome s x d = s)
      ∧ (x.recorded = false → d.abort = false →
        let t := recordOutcome s x d
        t.clc.recCount = s.clc.recCount + 1 ∧ t.clc.sealCount = bump s.clc.sealCount 1 ∧ t.clc.abortCount = s.clc.abortCount
          ∧ (∀ a, (a < 32 * (s.clc.recCount.toNat % 256) ∨ 32 * (s.clc.recCount.toNat % 256) + 32 ≤ a) → Mem.get t.clc.recs a = Mem.get s.clc.recs a)
          ∧ Mem.get t.clc.recs (32 * (s.clc.recCount.toNat % 256)) = BitVec.ofNat 8 x.coll ∧ Mem.get t.clc.recs (32 * (s.clc.recCount.toNat % 256) + 1) = 1
          ∧ { t with clc := s.clc } = s)
      ∧ (x.recorded = false → d.abort = true → s.stn.place = .running → s.stn.cur.isSome → s.clc.abortInst = none →
        let t := recordOutcome s x d
        t.clc.recCount = s.clc.recCount + 1 ∧ t.clc.abortCount = bump s.clc.abortCount 1 ∧ t.clc.sealCount = s.clc.sealCount
          ∧ Mem.get t.clc.recs (32 * (s.clc.recCount.toNat % 256) + 1) = 2
          ∧ t.stn.place = .halted ∧ t.stn.haltCause = 1 ∧ t.stn.next = none)
      ∧ (∀ (m : ClcMsg) (p : Plan) (c : Desc), Heard s m → s.stn.cur = some p → curDesc s m.coll.toNat = some c →
        let u := heard s m
        let v := { u with clc := { u.clc with exts := setStepVal s.clc.exts m.step m.value, err := setErr s.clc.err 5 } }
        (m.type = tyNotify → exec (.notify m) s = .next (recordOutcome u (instOf s m) (decisionOf m)))
          ∧ (m.type = tyExt → isHead s = false → s.stn.place = .running → s.stn.step = m.step → s.stn.stepRunning = true → s.stn.inSeam = false → s.stn.deadlineDone = false →
            exec (.ext m) s = .next (armTrig { v with stn := { s.stn with ext := m.value } } 2 (s.stn.stepStart + BitVec.ofNat 48 (p.deadlineNs + m.value.toNat))))
          ∧ (m.type = tyExt → isHead s = false → s.stn.place ≠ .running ∨ s.stn.step ≠ m.step ∨ s.stn.deadlineDone = true → exec (.ext m) s = .next v)
          ∧ (m.type = tyExt → isHead s = true → c.m4 * c.m5 < 99999 → s.stn.place ≠ .running ∨ s.stn.step ≠ m.step ∨ s.stn.deadlineDone = true →
            exec (.ext m) s = .next (sentTo v (((c.siteMembers (myRank s)).filter fun r => r ≠ myRank s).map fun r => (r, m))))
          ∧ (m.type = tyAbortReply → m.subj.toNat = myRank s → s.clc.abortInst = some (m.coll.toNat, m.step) → s.clc.abortMbox = none →
            exec (.abortReply m) s = .next { u with clc := { u.clc with abortResult := if m.outcome = 2 then 1 else 2, abortInst := none } })
          ∧ (m.type = tyAbortReply → m.subj.toNat = myRank s → s.clc.abortInst ≠ some (m.coll.toNat, m.step) → exec (.abortReply m) s = .next u)
          ∧ (m.type = tyRebuildReq → s.stn.place ≠ .halted → s.clc.spareNew = false → exec (.rebuildReq m) s = .next u)
          ∧ (m.type = tyRebuildReq → s.stn.place = .halted → c.mirror = false → 0 < c.d → twinOf c m.src.toNat = some (myRank s) → exec (.rebuildReq m) s
            = .next { u with out := s.out ++ ((s.clc.catchup.filter fun x => decide (x.coll = m.coll.toNat)).map fun x => Out.catchup (BitVec.ofNat 15 m.src.toNat) x.source x.bytes) ++ [Out.catchup (BitVec.ofNat 15 m.src.toNat) 16 []] })
          ∧ (m.type = tyRebuilt → isRoot s = false → exec (.rebuilt m) s = .next u)
          ∧ (m.type = tySiteJoin → isRoot s = false → exec (.siteJoin m) s = .next u)
          ∧ (m.type = tySiteReady → isRoot s = false → exec (.siteReady m) s = .next u))

/-- R223, R225, R228, R240 and R547: the timers of the root and of a site head, and the aborts that are asked for here. Rests on the model's choices in assumptions 4, 53, 57, 152, 154, 160. -/
def Obligations.ClcTimers : Prop :=
  ∀ (s : State) (coll : Fin 64) (step : BitVec 32), Live s → s.se.role = 0 →
    (∀ rank : BitVec 15, awaits s coll.val step rank.toNat = true →
      exec (.memberLostTimeout coll step rank) s
        = .next (clcOut ({ s with clc := { s.clc with lost := s.clc.lost ++ [rank], err := setErr s.clc.err 1 } }, abortReq s coll.val step ceMemberLost (some (rank.setWidth 16)) none)))
      ∧ (∀ rank : BitVec 15, awaits s coll.val step rank.toNat = false → exec (.memberLostTimeout coll step rank) s = .next s)
      ∧ (isRoot s = true → exec (.abortHoldEnd coll step) s = .next (clcOut (holdEnd s coll.val step)))
      ∧ (isRoot s = false → exec (.abortHoldEnd coll step) s = .next s)
      ∧ (∀ c x m, isRoot s = true → curDesc s coll.val = some c → findInst s coll.val step = some x → x.reqs = [m] → x.hold = true → x.decision = none → x.recorded = false → m.code ≠ ceDescMismatch → s.stn.place = .running → s.clc.abortInst = none →
        Answers (.abortHoldEnd coll step) s fun t => t.clc.abortCount = bump s.clc.abortCount 1 ∧ t.clc.recCount = s.clc.recCount + 1 ∧ t.stn.place = .halted ∧ t.stn.haltCause = 1)
      ∧ (∀ c x d, isRoot s = true → curDesc s coll.val = some c → (s.clc.rings ++ s.clc.insts).find? (fun i => decide (i.coll = coll.val) && decide (i.step = step)) = some x → x.decision = some d → x.ringBack = false → nextHead c 0 (ringMsg s x d) ≠ 0 →
        exec (.ringResend coll step) s = .next (sentTo s [(nextHead c 0 (ringMsg s x d), ringMsg s x d)]))
      ∧ (∀ x, (s.clc.rings ++ s.clc.insts).find? (fun i => decide (i.coll = coll.val) && decide (i.step = step)) = some x → x.ringBack = true → exec (.ringResend coll step) s = .next s)
      ∧ (s.clc.abortResult = 0 → exec (.clcAbort coll) s = .next s)
      ∧ (s.clc.abortResult ≠ 0 →
        let u := { s with clc := { s.clc with collSel := BitVec.ofNat 6 coll.val, abortMbox := none } }
        (hasInstance s coll.val s.clc.abortStep = false → exec (.clcAbort coll) s = .next { u with clc := { u.clc with abortResult := 3, abortInst := none } })
          ∧ (hasInstance s coll.val s.clc.abortStep = true → exec (.clcAbort coll) s
            = .next (clcOut ({ u with clc := { u.clc with abortResult := 0, abortInst := some (coll.val, s.clc.abortStep) } }, abortReq s coll.val s.clc.abortStep ceAborted (some ((curRank s).setWidth 16)) none))))
      ∧ (∀ (r : MboxRec) (i : Nat) (x : Session) (k : BitVec 8), Accepted s r (needs 0x0041 true false [rdyClc]) ([k, 0, 0, 0] ++ beBytes 4 step.toNat) i x →
        let u := begun s r 0x0041 ([k, 0, 0, 0] ++ beBytes 4 step.toNat) i x
        (64 ≤ k.toNat → exec (.collAbort r k step) s = .next (respond u r 0x0041 stBadArg [0]))
          ∧ (k.toNat < 64 → s.clc.abortResult = 0 → exec (.collAbort r k step) s = .next (respond u r 0x0041 stRefused [0]))
          ∧ (k.toNat < 64 → s.clc.abortResult ≠ 0 → exec (.collAbort r k step) s = .next (clcAbort { u with clc := { u.clc with abortStep := step, collSel := k.setWidth 6 } } k.toNat step (some r))))

/-! ## Straightedge, chapter 07 -/

/-- R271, R272 and R282: a pair link sends HELLO and is PAIRED or REFUSED by the first item that fails; ROLE and PAIR_PORTS take a value only while no plan is held; a SHADOW takes units and messages from its LEAD; a record whose CRC fails has no effect. Rests on the model's choices in assumptions 59, 162. -/
def Obligations.PairLink : Prop :=
  ∀ (s : State) (h : PairHdr), Live s →
    (s.se.role ≠ 0 → exec .pairLinkUp s = .next (sendPair { s with se := { s.se with link := 1, refuse := 0, rxSeq := none } } 0x01
        ([BitVec.ofNat 8 s.se.role.toNat] ++ beBytes 2 0x9640 ++ [0xB1] ++ beBytes 4 (topAsig s).toNat ++ beBytes 8 (imageHash s).toNat)))
      ∧ (s.se.role = 0 → exec .pairLinkUp s = .next s)
      ∧ (h.crcOk = false ∨ s.se.role = 0 → ∀ role part stepping asig hash step slot e count dg idx d bond bytes m,
        exec (.seHello h role part stepping asig hash) s = .next s ∧ exec (.seSlot h step slot e count dg) s = .next s ∧ exec (.seDestReq h step slot e) s = .next s
          ∧ exec (.seDest h step slot e idx d) s = .next s ∧ exec (.seUnit h bond bytes) s = .next s ∧ exec (.seCtl h m) s = .next s)
      ∧ (h.crcOk = true → s.se.role ≠ 0 → ∀ role part stepping asig hash,
        let u := { s with se := { s.se with rxSeq := some h.seq } }
        let refused := fun n : BitVec 4 => { u with se := { u.se with refuse := n, link := 3 } }
        (role.toNat = s.se.role.toNat → exec (.seHello h role part stepping asig hash) s = .next (refused 1))
          ∧ (role.toNat ≠ s.se.role.toNat → part ≠ 0x9640 ∨ stepping ≠ 0xB1 → exec (.seHello h role part stepping asig hash) s = .next (refused 2))
          ∧ (role.toNat ≠ s.se.role.toNat → asig ≠ topAsig s → exec (.seHello h role 0x9640 0xB1 asig hash) s = .next (refused 3))
          ∧ (role.toNat ≠ s.se.role.toNat → hash ≠ imageHash s → exec (.seHello h role 0x9640 0xB1 (topAsig s) hash) s = .next (refused 4))
          ∧ (role.toNat ≠ s.se.role.toNat → exec (.seHello h role 0x9640 0xB1 (topAsig s) (imageHash s)) s = .next { u with se := { u.se with refuse := 0, link := 2 } }))
      ∧ (h.crcOk = true → s.se.role = 2 →
        let u := { s with se := { s.se with rxSeq := some h.seq } }
        (∀ bond bytes, exec (.seUnit h bond bytes) s = .next (pump (unitQueue u bond.val bytes)) ∧ (Still (unitQueue u bond.val bytes) → exec (.seUnit h bond bytes) s = .next (unitQueue u bond.val bytes)))
          ∧ (∀ m, exec (.seCtl h m) s = .next (clcReceive u m)))
      ∧ (∀ v, let u := { s with se := { s.se with action := BitVec.ofNat 2 (bitsOf v.toNat 7 6) } }
        (s.stn.place ≠ .none ∨ s.stn.next.isSome → exec (.seRoleWrite v) s = .next u)
          ∧ (s.stn.place = .none → s.stn.next = none →
            exec (.seRoleWrite v) s = .next { u with se := { u.se with ports := BitVec.ofNat 16 (v.toNat / 65536), role := BitVec.ofNat 2 (bitsOf v.toNat 5 4), stopFwd := false, stopAsked := false } }))

/-- R275 to R278: a peer's slot is compared as soon as this device has closed its own; slots that agree are counted and forgotten; of those that differ the lowest is captured, its records are asked for, and the first record that differs gives the captured address. Rests on the model's choices in assumptions 59, 163, 164. -/
def Obligations.PairSlots : Prop :=
  ∀ (s : State) (h : PairHdr) (step : BitVec 32) (slot : BitVec 16) (e : Fin 64), Live s → h.crcOk = true → s.se.role ≠ 0 →
    let u := { s with se := { s.se with rxSeq := some h.seq } }
    let counted := { u with se := { u.se with slotCount := bump u.se.slotCount 1 } }
    (∀ count dg, findSlot s step slot.toNat e.val = none →
      exec (.seSlot h step slot e count dg) s = .next { u with se := { u.se with peer := u.se.peer ++ [(step, slot.toNat, e.val, dg, count.toNat)] } })
      ∧ (∀ r count dg d, findSlot s step slot.toNat e.val = some r → r.compared = false → r.unchecked = false → r.digest = some d →
        (dg = d → exec (.seSlot h step slot e count dg) s = .next (seFinal (dropSlot counted r)))
        ∧ (dg ≠ d → exec (.seSlot h step slot e count dg) s = .next (seDiverge counted r d dg count.toNat)))
      ∧ (∀ r d dg n, s.se.cap = none → n ≠ 0 → ∃ c, (seDiverge s r d dg n).se.cap = some c ∧ c.step = r.step ∧ c.slot = r.slot ∧ c.engine = r.engine ∧ c.loc = d ∧ c.peer = dg)
      ∧ (∀ r d dg n c, s.se.cap = some c → n ≠ 0 → seBefore s (r.step, r.slot, r.engine) (c.step, c.slot, c.engine) = false →
        ∃ b, (seDiverge s r d dg n).se.cap = some b ∧ b.step = c.step ∧ b.slot = c.slot ∧ b.engine = c.engine)
      ∧ (findSlot s step slot.toNat e.val = none → exec (.seDestReq h step slot e) s = .next (sendPair u 0x04 (destBody step slot.toNat e.val 0 none)))
      ∧ (∀ r, findSlot s step slot.toNat e.val = some r → r.lost = true → exec (.seDestReq h step slot e) s = .next (sendPair u 0x04 (destBody step slot.toNat e.val 0 none)))
      ∧ (∀ r, findSlot s step slot.toNat e.val = some r → r.lost = false → exec (.seDestReq h step slot e) s
        = .next (((List.range r.dests.length).zip r.dests).foldl (fun s p => sendPair s 0x04 (destBody step slot.toNat e.val p.1 (some p.2))) u))
      ∧ (∀ r idx p own, findSlot s step slot.toNat e.val = some r → r.diverged = true → r.lost = false → r.agree = idx.toNat → r.dests[idx.toNat]? = some own →
        (¬(own.kind = p.kind ∧ own.stroke = p.stroke ∧ own.addr = p.addr ∧ own.digest = p.digest) →
          exec (.seDest h step slot e idx (some p)) s = .next (seAddr u r own own.digest p.digest))
        ∧ (own.kind = p.kind ∧ own.stroke = p.stroke ∧ own.addr = p.addr ∧ own.digest = p.digest → r.agree + 1 ≠ r.peerCount →
          exec (.seDest h step slot e idx (some p)) s = .next (putSlot u { r with agree := r.agree + 1 })))

/-! ## Plumb, chapter 08 -/

/-- R292, R293 and R303: after every change the selected source is the qualified phase source with the lowest PRIO, the lower number on a tie, and none where none is qualified. Rests on the model's choices in assumptions 60, 61, 165, 168. -/
def Obligations.SourceSelection : Prop :=
  (∀ (s : State) (i : Nat), bestSource s = some i → i < 18 ∧ (s.src i).qualified = true
      ∧ ∀ j, j < 18 → (s.src j).qualified = true → (s.src i).prio.toNat < (s.src j).prio.toNat ∨ ((s.src i).prio = (s.src j).prio ∧ i ≤ j))
    ∧ (∀ (s : State), bestSource s = none → ∀ j, j < 18 → (s.src j).qualified = false)
    ∧ (∀ (s : State), (requalify s).plb.selected = bestSource (requalify s))
    ∧ (∀ (s : State) (i : Nat), i < 19 → (s.src i).en = false → ((requalify s).src i).qualified = false)
    ∧ (∀ (s : State) (i : Nat), (reselect s).plb.selected = some i → s.plb.selected ≠ some i → (reselect s).plb.switchCount = bump s.plb.switchCount 1)

/-- R288, R296, R297, R304, R307 and R310: STEP_NOW asks for a step, which the next tick takes unless a plan runs or launches; INC is kept within 200 ppm of nominal and taken in mode 1 only, and a stale INC ends the software lock. Rests on the model's choices in assumptions 166, 167, 170. -/
def Obligations.TimeSteering : Prop :=
  ∀ (s : State), Live s →
    (s.stn.place ≠ .running → s.plb.launchTick = false → exec .stepNow s = .next { s with plb := { s.plb with stepAsked := true } })
      ∧ (s.stn.place = .running ∨ s.plb.launchTick = true → exec .stepNow s = .next { s with plb := { s.plb with err := setErr s.plb.err 6 } })
      ∧ (s.plb.stepAsked = true → s.stn.place ≠ .running → let t := stepDue s false
        (t.plb.time : Int) = ((s.plb.time : Int) + s.plb.stepVal.toInt) % ((2 ^ 48 * unitSec : Nat) : Int) ∧ t.plb.stepCount = bump s.plb.stepCount 1 ∧ t.plb.stepEpoch = s.plb.stepEpoch + 1 ∧ t.plb.stepAsked = false
          ∧ t.plb.err = setErr s.plb.err 5 ∧ t.plb.delayReq = none ∧ t.plb.inc = s.plb.inc ∧ t.plb.st = s.plb.st ∧ { t with plb := s.plb } = s)
      ∧ (∀ launching, s.plb.stepAsked = true → s.stn.place = .running ∨ launching = true → stepDue s launching = { s with plb := { s.plb with stepAsked := false, err := setErr s.plb.err 6 } })
      ∧ (∀ launching, s.plb.stepAsked = false → stepDue s launching = s)
      ∧ (s.plb.stepAsked = true → let u := { s with plb := { s.plb with time := (s.plb.time + unitNs) % (2 ^ 48 * unitSec) } }
        (s.stn.place ≠ .running → (s.trig 0).en = false ∨ due u.count (s.trig 0).target = false →
          ((plumbTick s).plb.time : Int) = ((s.plb.time : Int) + unitNs + s.plb.stepVal.toInt) % ((2 ^ 48 * unitSec : Nat) : Int) ∧ (plumbTick s).plb.stepCount = bump s.plb.stepCount 1 ∧ (plumbTick s).plb.stepEpoch = s.plb.stepEpoch + 1
            ∧ (plumbTick s).plb.stepAsked = false ∧ (plumbTick s).plb.err.getLsbD 5 = true)
          ∧ (s.stn.place = .running ∨ ((s.trig 0).en = true ∧ due u.count (s.trig 0).target = true) →
            (plumbTick s).plb.time = u.plb.time ∧ (plumbTick s).plb.stepCount = s.plb.stepCount ∧ (plumbTick s).plb.stepEpoch = s.plb.stepEpoch ∧ (plumbTick s).plb.stepAsked = false ∧ (plumbTick s).plb.err.getLsbD 6 = true))
      ∧ (s.plb.swMode = false → ∀ inc, exec (.incWrite inc) s = .next s)
      ∧ (s.plb.swMode = true → ∀ inc, Answers (.incWrite inc) s fun t =>
        nominalInc - nominalInc / 5000 ≤ t.plb.inc.toNat ∧ t.plb.inc.toNat ≤ nominalInc + nominalInc / 5000 ∧ t.plb.swFresh = true
          ∧ (nominalInc - nominalInc / 5000 ≤ inc.toNat → inc.toNat ≤ nominalInc + nominalInc / 5000 → t.plb.inc = inc)
          ∧ (s.plb.swLock = true → t.plb.st = .locked) ∧ (s.plb.swLock = false → t.plb.st = .acquiring) ∧ t.plb.time = s.plb.time)
      ∧ (s.plb.swMode = true → s.plb.swLock = true → Answers .swStale s fun t => t.plb.st = .holdover ∧ t.plb.swFresh = false ∧ t.plb.err.getLsbD 8 = true ∧ t.plb.inc = s.plb.inc)
      ∧ (s.plb.swMode = true → s.plb.swLock = false → exec .swStale s = .next { s with plb := { s.plb with swFresh := false } })
      ∧ (s.plb.swMode = false → exec .swStale s = .next s)
      ∧ (s.plb.ppsOutEn = true → s.plb.st ≠ .freerun → Answers .ppsOutPulse s fun t =>
        t.plb.ppsPulses = s.plb.ppsPulses + 1 ∧ t.plb.ppsUntil = s.plb.run + 100000 * unitNs ∧ t.out = s.out ++ [.pps s.count] ∧ (t.trig 3).en = true ∧ (t.trig 3).period = 1000000000
          ∧ ∃ due : Int, (t.trig 3).target = BitVec.ofInt 48 due ∧ ((s.plb.time / unitNs : Nat) : Int) < due ∧ due ≤ ((s.plb.time / unitNs : Nat) : Int) + 1000000000 ∧ (due + s.plb.ppsOutAdj.toInt) % 1000000000 = 0)
      ∧ (s.plb.ppsOutEn = false ∨ s.plb.st = .freerun → exec .ppsOutPulse s = .next s)

/-- R300 to R308: what each source tells of time. A measurement of PTP or of a far bond comes from its exchange; a pulse of PPS_IN marks the second that PTP or the host names; a source whose signal ends, or whose asymmetry is withdrawn, is judged afresh. Rests on the model's choices in assumptions 16, 63, 65, 165, 167, 168, 169. -/
def Obligations.TimeSources : Prop :=
  ∀ (s : State), Live s →
    let u := fun (master : Option (BitVec 64)) (l : List (BitVec 64 × AnnounceSet)) => { s with plb := { s.plb with foreign := l, master := master, syncDiff := none, pathDelay := none, syncWait := none, delayReq := none } }
    exec .ptpAnnounceTimeout s = .next (requalify (u none []))
      ∧ (∀ (dom : BitVec 8) master set, (s.src 0).en = true → dom.toNat = ptpDomain s →
        let l := (s.plb.foreign.filter fun q => decide (q.1 ≠ master)) ++ (if set.steps.toNat < 255 then [(master, set)] else [])
        (bestMaster l ≠ s.plb.master → exec (.ptpMessage (.announce dom master set)) s = .next (requalify (u (bestMaster l) l)))
          ∧ (bestMaster l = s.plb.master → exec (.ptpMessage (.announce dom master set)) s = .next (requalify { s with plb := { s.plb with foreign := l } })))
      ∧ (∀ l m, bestMaster l = some m → ∃ q ∈ l, q.1 = m ∧ ∀ p ∈ l, listLess (announceKey p) (announceKey q) = false)
      ∧ (∀ (dom : BitVec 8) master set origin corr rx seq, dom.toNat ≠ ptpDomain s → exec (.ptpMessage (.announce dom master set)) s = .next s ∧ exec (.ptpMessage (.syncOneStep dom master origin corr rx)) s = .next s
        ∧ exec (.ptpMessage (.syncTwoStep dom master seq corr rx)) s = .next s ∧ exec (.ptpMessage (.followUp dom master seq origin corr)) s = .next s ∧ exec (.ptpMessage (.delayResp dom master seq rx corr)) s = .next s)
      ∧ (∀ (dom : BitVec 8) master origin corr rx d, (s.src 0).en = true → dom.toNat = ptpDomain s → s.plb.master = some master → s.plb.pathDelay = some d →
        let diff := ((rx : Nat) : Int) - ((origin : Nat) : Int) - ((corr : Nat) : Int)
        exec (.ptpMessage (.syncOneStep dom master origin corr rx)) s = .next (measure { s with plb := { s.plb with syncDiff := some diff } } 0 ((2 * (d - diff) - (s.src 0).asym.toInt) / 2) d))
      ∧ (∀ (dom : BitVec 8) master seq receipt corr t1 d, (s.src 0).en = true → dom.toNat = ptpDomain s → s.plb.master = some master → s.plb.delayReq = some (seq, t1) → s.plb.syncDiff = some d →
        exec (.ptpMessage (.delayResp dom master seq receipt corr)) s
          = .next { s with plb := { s.plb with pathDelay := some ((((receipt : Nat) : Int) - ((corr : Nat) : Int) - ((t1 : Nat) : Int) + d) / 2), delayReq := none } })
      ∧ ((s.src 0).en = false → ∀ m, exec (.ptpMessage m) s = .next s)
      ∧ (∀ departure, (s.src 0).en = true → s.plb.master.isSome →
        exec (.delayReqSend departure) s = .next { s with plb := { s.plb with delaySeq := s.plb.delaySeq + 1, delayReq := some (s.plb.delaySeq + 1, departure) }, out := s.out ++ [.delayReq (ptpDomain s) (s.plb.delaySeq + 1) departure] })
      ∧ (∀ (b : Fin 16) m rx, m.crcOk = false → exec (.timeMessage b m rx) s = .next (requalify (s.setSrc (b.val + 2) { s.src (b.val + 2) with crcOk := false })))
      ∧ (∀ (b : Fin 16) m rx, m.crcOk = true → m.version = 1 → (s.src (b.val + 2)).suspended = false → (s.src (b.val + 2)).sent.any (fun p => decide (p.1 = m.echoSeq) && decide (s.plb.run ≤ p.2 + unitSec)) = true →
        let x := s.src (b.val + 2)
        let u := s.setSrc (b.val + 2) { x with crcOk := true, heardAt := some s.plb.run, peerLocked := m.locked, peerUses := m.usesYou, peerHops := m.hops, lastRx := some (m.tx, rx, m.seq) }
        let up : Int := ((m.echoRx : Nat) : Int) - ((m.echoTx : Nat) : Int)
        let down : Int := ((rx : Nat) : Int) - ((m.tx : Nat) : Int)
        exec (.timeMessage b m rx) s = .next (measure u (b.val + 2) ((up - down - x.asym.toInt) / 2) ((down + up) / 2)))
      ∧ (∀ (b : Fin 16) m rx, m.crcOk = true → m.version = 1 → (s.src (b.val + 2)).sent.any (fun p => decide (p.1 = m.echoSeq) && decide (s.plb.run ≤ p.2 + unitSec)) = false →
        exec (.timeMessage b m rx) s = .next (requalify (s.setSrc (b.val + 2) { s.src (b.val + 2) with crcOk := true, heardAt := some s.plb.run, lastRx := some (m.tx, rx, m.seq) })))
      ∧ (∀ (t : FullTime) (l : FullTime), (s.src 0).qualified = false → s.plb.ppsTodValid = true → s.plb.lastEdge = some l →
        let te := ((t : Nat) : Int) - s.plb.ppsInAdj.toInt * unitNs
        (te - ((l : Nat) : Int) - ((unitSec : Nat) : Int)).natAbs ≤ 1000 * unitNs → (s.src 1).en = true → inWindow s 1 (((s.plb.ppsTod.toNat : Nat) : Int) * ((unitSec : Nat) : Int) - te) = true →
        Answers (.ppsInEdge t) s fun v => v.plb.ppsTod = s.plb.ppsTod + 1 ∧ v.plb.ppsGood = true ∧ v.plb.selected = bestSource v)
      ∧ (∀ t, (s.src 0).qualified = false → s.plb.ppsTodValid = false → Answers (.ppsInEdge t) s fun v =>
        v.plb.lastEdge = some (((t : Nat) : Int) - s.plb.ppsInAdj.toInt * unitNs).toNat ∧ v.plb.ppsTod = s.plb.ppsTod ∧ v.plb.selected = bestSource v)
      ∧ exec .ppsInEdgeMissing s = .next (requalify (State.setSrc { s with plb := { s.plb with ppsGood := false, lastEdge := none } } 1 { s.src 1 with good := 0 }))
      ∧ (∀ rate, let l := refWindow s.plb.run ((s.plb.run, rate.toInt) :: s.plb.refHist)
        let u := requalify { s with plb := { s.plb with refHist := l, refGood := refMeets s.plb.run l } }
        exec (.ref10mInMeasure rate) s = .next (if s.plb.freqHold = true ∧ u.plb.freqHold = true ∧ s.plb.swMode = false then holdSteer u else u))
      ∧ (∀ now l, refMeets now l = true → (∀ q ∈ l.head?, q.2.natAbs ≤ 50000000) ∧ (∃ p ∈ l, p.1 + 16 * unitSec ≤ now) ∧ ∀ p ∈ l, ∀ q ∈ l, p.2 - q.2 ≤ 1000)
      ∧ (∀ (i : Fin 19) asym, 2 ≤ i.val → i.val ≤ 17 → Answers (.asymWrite i false asym) s fun t =>
        (t.src i.val).asym = asym ∧ (t.src i.val).asymValid = false ∧ (t.src i.val).suspended = true ∧ (t.src i.val).qualified = false ∧ t.plb.selected ≠ some i.val)
      ∧ (∀ (i : Fin 19) asym, exec (.asymWrite i true asym) s = .next (requalify (s.setSrc i.val { s.src i.val with asym := asym, asymValid := true, suspended := false, calibrating := false, calSum := 0, calCount := 0 })))
      ∧ (∀ i : Fin 19, (s.src i.val).calibrating = true → 0 < (s.src i.val).calCount → Answers (.calibrationDone i) s fun t =>
        (t.src i.val).asym = BitVec.ofInt 48 ((s.src i.val).calSum / (((s.src i.val).calCount : Nat) : Int)) ∧ (t.src i.val).asymValid = true ∧ (t.src i.val).suspended = false
          ∧ (t.src i.val).calibrating = false ∧ t.plb.err.getLsbD 3 = true)
      ∧ (∀ i : Fin 19, (s.src i.val).calibrating = false → exec (.calibrationDone i) s = .next s)

/-! ## HBM and Lath, chapter 09 -/

/-- R325, R326, R328 and R330: a tile that is written reads back as it was written, filled with zeros to its last burst, and passes its check; no byte and no tag of another tile changes; a read that meets an uncorrectable burst fails, is counted and recorded, and changes no byte. Rests on the model's choices in assumptions 13, 18. -/
def Obligations.TileStore : Prop :=
  ∀ (s : State) (dha : Nat) (kind : BitVec 2) (bs : List Byte), Mem.wf s.hbm.bytes = true → bs.length ≤ 4096 → kind ≠ 3 →
    let t := writeTile s dha kind bs
    let n := if kind = 2 then usedBursts bs.length else 128
    (readTile t dha).1 = true ∧ (readTile t dha).2.1 = padTo 0 (32 * n) bs
      ∧ (∀ a, a / 4096 ≠ dha / 4096 → Mem.get t.hbm.bytes a = Mem.get s.hbm.bytes a)
      ∧ (∀ d, d / 4096 ≠ dha / 4096 → t.htag d = s.htag d)
      ∧ (t.htag dha).kind = kind ∧ Mem.wf t.hbm.bytes = true
      ∧ { t with hbm := s.hbm } = s
      ∧ (∀ b ∈ s.hbm.hard, dha / 4096 * 128 ≤ b → b < dha / 4096 * 128 + (s.htag dha).bursts →
        (readTile s dha).1 = false ∧ (readTile s dha).2.2.hbm.bytes = s.hbm.bytes
          ∧ ((readTile s dha).2.2.stack (stackOf (dha / 4096 * 4096))).err.getLsbD 1 = true
          ∧ ((readTile s dha).2.2.stack (stackOf (dha / 4096 * 4096))).ueAddr.isSome)

/-- R329, R332, R333, R351, R353 and R572: what the events of a stack's controller do: refresh holds and patrol passes, the write-back of a corrected burst, training, initialisation, and the loss of its link. Rests on the model's choices in assumptions 16, 133. -/
def Obligations.StackEvents : Prop :=
  ∀ (s : State) (k : Fin 32), Live s →
    let x := s.stack k.val
    (x.st ≠ 2 ∨ s.pwr.level ≠ 0 → ∀ patrol done, exec (.hbmRefresh k patrol done) s = .next s)
      ∧ (x.st = 2 → s.pwr.level = 0 →
        exec (.hbmRefresh k none false) s = .next s
        ∧ exec (.hbmRefresh k none true) s = .next (s.setStack k.val { x with patrol := bump x.patrol 1 })
        ∧ (∀ t ups, exec (.hbmRefresh k (some (t, ups)) false) s = .next (patrolRead s k.val t.val ups)))
      ∧ (∀ burst : BitVec 40, stackOf burst.toNat = k.val → x.st = 2 → s.hbm.writeback.contains (burst.toNat / 32) = true →
        Answers (.hbmCeWriteback k burst) s fun t =>
          t.hbm.writeback = s.hbm.writeback.filter (· ≠ burst.toNat / 32) ∧ t.hbm.hard = s.hbm.hard ∧ t.hbm.bytes = s.hbm.bytes ∧ t.hbm.tags = s.hbm.tags ∧ t.hbm.stackTab = s.hbm.stackTab
            ∧ (burst.toNat / 32 ∈ s.hbm.hard → t.hbm.soft = s.hbm.soft) ∧ (burst.toNat / 32 ∉ s.hbm.hard → t.hbm.soft = s.hbm.soft.filter (· ≠ burst.toNat / 32)) ∧ { t with hbm := s.hbm } = s)
      ∧ (∀ burst : BitVec 40, stackOf burst.toNat ≠ k.val ∨ x.st ≠ 2 ∨ s.hbm.writeback.contains (burst.toNat / 32) = false → exec (.hbmCeWriteback k burst) s = .next s)
      ∧ (∀ margin, x.st = 0 → isUp s = true → Answers (.hbmTrainingDone k true margin) s fun t =>
        t.stack k.val = { x with st := 1, margin := some margin, trainings := x.trainings + 1 } ∧ (∀ j, j ≠ k.val → t.stack j = s.stack j)
          ∧ (t.part (2 * 4096 + k.val)).margin = BitVec.ofInt 16 (clampInt (-32768) 32766 margin.toInt)
          ∧ (s.slr.drbg = true → t.slr.xts.getLsbD (k.val / 8) = true) ∧ t.hbm.bytes = s.hbm.bytes)
      ∧ (∀ margin, x.st = 0 → isUp s = true → exec (.hbmTrainingDone k false margin) s = .next (stripEnd (stackFailed s k.val)))
      ∧ (x.st ≠ 3 → exec (.hbmLinkLoss k) s = .next (stripEnd (stackFailed s k.val)))
      ∧ (x.st = 3 → exec (.hbmLinkLoss k) s = .next s)
      ∧ ((stackFailed s k.val).stack k.val = { x with st := 3, err := setErr x.err 4 } ∧ (stackFailed s k.val).top.hbm.getLsbD k.val = false
          ∧ ((stackFailed s k.val).part (2 * 4096 + k.val)).st = 4 ∧ ((stackFailed s k.val).part (2 * 4096 + k.val)).defect = bump (s.part (2 * 4096 + k.val)).defect 1)
      ∧ (x.st = 1 → s.slr.xts.getLsbD (k.val / 8) = true → Answers (.stackInitDone k) s fun t =>
        (t.stack k.val).st = 2 ∧ t.top.hbm.getLsbD k.val = true ∧ (∀ a, stackOf a = k.val → Mem.get t.hbm.bytes a = 0) ∧ (∀ a, stackOf a = k.val → a % 4096 = 0 → t.htag a = initTag)
          ∧ (∀ a, stackOf a ≠ k.val → Mem.get t.hbm.bytes a = Mem.get s.hbm.bytes a)
          ∧ (∀ j, j ≠ k.val → t.stack j = s.stack j))
      ∧ (x.st ≠ 1 ∨ s.slr.xts.getLsbD (k.val / 8) = false → exec (.stackInitDone k) s = .next s)

/-- R339, R341 to R347: on an idle queue a command of Hawk or of the host is served at once: GRANT gives the owner a free buffer of the pool or of a larger one, FREE and FREE_OWNER take back what the owner holds, HANDOVER renames, QUERY tells, and PROXY_FREE opens a fence. Rests on the model's choices in assumptions 171, 172. -/
def Obligations.LathCommands : Prop :=
  ∀ (s : State) (owner : BitVec 32) (cls : BitVec 2), Live s → s.lth.busy = false → s.lth.queue = [] → s.lth.fence = none →
    let o : Owner := ⟨cls, owner⟩
    let regs := fun (op pool quad : Nat) (handle : BitVec 32) (new : BitVec 32) => { s with lth := { s.lth with argHandle := handle, argOwner := owner, argNew := new, cmd := BitVec.ofNat 32 ((op + 16 * cls.toNat + 64 * pool + 512 * quad) % 2048) } }
    let ask : LathOp → LathCmd := fun op => ⟨op, o, none, false, false⟩
    (∀ (pool : BitVec 3) (quad : Fin 4), exec (.grant (.hawk cls) owner pool quad) s = .next (lathDo (regs 1 pool.toNat quad.val s.lth.argHandle s.lth.argNew) (ask (.grant pool.toNat quad.val))))
      ∧ (∀ handle, exec (.free (.hawk cls) owner handle) s = .next (lathDo (regs 2 0 0 handle s.lth.argNew) (ask (.free handle))))
      ∧ exec (.freeOwner (.hawk cls) owner) s = .next (lathDo (regs 3 0 0 s.lth.argHandle s.lth.argNew) (ask .freeOwner))
      ∧ (∀ newCls newOwner, exec (.handover (.hawk cls) owner newCls newOwner) s = .next (lathDo (regs 4 0 0 newOwner (newCls.setWidth 32 <<< 30)) (ask (.handover ⟨newCls, newOwner⟩))))
      ∧ exec (.proxyFree (.hawk cls) owner) s = .next (lathDo (regs 5 0 0 s.lth.argHandle s.lth.argNew) (ask .proxyFree))
      ∧ (∀ handle, Answers (.query (.hawk cls) handle) s fun t => t.lth.busy = false ∧ t.lth.owners = s.lth.owners
        ∧ (handleOk s.lth handle.toNat = false → t.lth.result = lrBadHandle ∧ t.lth.resultHandle = 0)
        ∧ (handleOk s.lth handle.toNat = true → ownerOf s.lth handle.toNat = none → t.lth.result = lrOk ∧ t.lth.resultHandle = 0)
        ∧ (∀ p, handleOk s.lth handle.toNat = true → ownerOf s.lth handle.toNat = some p → t.lth.result = lrOk ∧ t.lth.resultHandle = (0x80000000#32 ||| (p.cls.setWidth 32 <<< 28) ||| (p.name &&& 0x0FFFFFFF))))

/-- R340 to R347: what each Lath command does when it is served: who owns which buffer afterwards, and the result that it reports. Rests on the model's choices in assumptions 130, 172. -/
def Obligations.LathEffects : Prop :=
  ∀ (s : State) (o : Owner), s.lth.fence = none →
    let ask : LathOp → LathCmd := fun op => ⟨op, o, none, false, false⟩
    (∀ pool quad h t, pool < 5 → quad < 4 → legFrames s.lth 1 + legFrames s.lth 2 + legFrames s.lth 3 + legFrames s.lth 4 ≤ 3137536 → Tab.wf none s.lth.owners = true →
      grantBuffer s o quad pool = (some h, t) →
      let v := lathDo s (ask (.grant pool quad))
      ownerOf s.lth h = none ∧ ownerOf v.lth h = some o ∧ (∀ j, j ≠ h → ownerOf v.lth j = ownerOf s.lth j) ∧ v.lth.result = lrOk ∧ v.lth.resultHandle = BitVec.ofNat 32 h
        ∧ handleQuad h = quad ∧ handlePool h ∈ poolOrder pool ∧ handleOk s.lth h = true)
      ∧ (∀ pool quad, pool < 5 → quadReady s quad = false → (lathDo s (ask (.grant pool quad))).lth.result = lrNoBuffers ∧ (lathDo s (ask (.grant pool quad))).lth.owners = s.lth.owners)
      ∧ (∀ h : BitVec 32, handleOk s.lth h.toNat = true → ownerOf s.lth h.toNat = some o → handlePool h.toNat ≠ 1 ∨ o.cls ≠ 0 →
        let v := lathDo s (ask (.free h))
        ownerOf v.lth h.toNat = none ∧ (∀ j, j ≠ h.toNat → ownerOf v.lth j = ownerOf s.lth j) ∧ v.lth.result = lrOk)
      ∧ (∀ h : BitVec 32, handleOk s.lth h.toNat = true → ownerOf s.lth h.toNat = none →
        let v := lathDo s (ask (.free h))
        v.lth.owners = s.lth.owners ∧ v.lth.result = lrDoubleFree ∧ v.lth.doubleFree = bump s.lth.doubleFree 1 ∧ v.lth.err.getLsbD 1 = true)
      ∧ (∀ (h : BitVec 32) p, handleOk s.lth h.toNat = true → ownerOf s.lth h.toNat = some p → p ≠ o →
        let v := lathDo s (ask (.free h))
        v.lth.owners = s.lth.owners ∧ v.lth.result = lrNotOwner ∧ v.lth.notOwner = bump s.lth.notOwner 1 ∧ v.lth.err.getLsbD 2 = true)
      ∧ (inUse s o = false → holdsAny (lathDo s (ask .freeOwner)).lth o = false ∧ (lathDo s (ask .freeOwner)).lth.result = lrOk)
      ∧ (inUse s o = true → (lathDo s (ask .freeOwner)).lth.owners = s.lth.owners ∧ (lathDo s (ask .freeOwner)).lth.result = lrInUse)
      ∧ (∀ n, n ≠ o → holdsAny s.lth n = false → holdsAny (lathDo s (ask (.handover n))).lth o = false ∧ (lathDo s (ask (.handover n))).lth.result = lrOk
        ∧ holdCount (lathDo s (ask (.handover n))).lth n = holdCount s.lth o)
      ∧ (let v := lathDo s (ask .proxyFree)
        v.lth.epoch = s.lth.epoch + 1 ∧ v.lth.fence = some ⟨o, s.lth.epoch + 1, fenceEngines s, true, true, true, true⟩ ∧ v.lth.owners = s.lth.owners)

/-- R338, R347, R349, R350 and R547: the host's Lath commands start like every mailbox command and act for its own session; a command while BUSY is refused; the users of an open fence confirm its epoch, and the last confirmation frees every buffer of the dead owner. Rests on the model's choices in assumptions 128, 129, 172. -/
def Obligations.LathFence : Prop :=
  ∀ (s : State), Live s →
    (∀ (r : MboxRec) (i : Nat) (x : Session) (owner : BitVec 32) (pool : BitVec 3) (quad : Fin 4) (handle : BitVec 32) (newCls : BitVec 2),
      (Accepted s r (lathNeeds true) (lathArgs 1 pool.toNat quad.val 0 owner) i x → pool ≠ 0 ∨ r.hcs ≠ 2 → exec (.grant (.host r) owner pool quad) s
          = .next (lathCommand (begun s r 0x0040 (lathArgs 1 pool.toNat quad.val 0 owner) i x) true (.grant pool.toNat quad.val) (sessionOwner r.session) (some r)))
        ∧ (Accepted s r (lathNeeds true) (lathArgs 2 0 0 handle owner) i x → exec (.free (.host r) owner handle) s
          = .next (lathCommand (begun s r 0x0040 (lathArgs 2 0 0 handle owner) i x) true (.free handle) (sessionOwner r.session) (some r)))
        ∧ (Accepted s r (lathNeeds true) (lathArgs 3 0 0 0 owner) i x → exec (.freeOwner (.host r) owner) s
          = .next (lathCommand (begun s r 0x0040 (lathArgs 3 0 0 0 owner) i x) true .freeOwner (freeOwnerOf owner r) (some r)))
        ∧ (Accepted s r (lathNeeds true) (lathArgs 4 0 0 handle owner) i x → exec (.handover (.host r) owner newCls handle) s
          = .next (lathCommand (begun s r 0x0040 (lathArgs 4 0 0 handle owner) i x) true .bad ⟨2, 0⟩ (some r)))
        ∧ (Accepted s r (lathNeeds true) (lathArgs 5 0 0 0 owner) i x → exec (.proxyFree (.host r) owner) s
          = .next (lathCommand (begun s r 0x0040 (lathArgs 5 0 0 0 owner) i x) true .bad ⟨2, 0⟩ (some r)))
        ∧ (Accepted s r (lathNeeds false) (lathArgs 6 0 0 handle 0) i x → exec (.query (.host r) handle) s
          = .next (lathCommand (begun s r 0x0040 (lathArgs 6 0 0 handle 0) i x) true (.query handle) (sessionOwner r.session) (some r))))
      ∧ (∀ u op o mb, s.lth.busy = true → lathCommand s u op o mb = (match mb with
        | none => { s with lth := { s.lth with result := lrBusy, err := setErr s.lth.err 0 } }
        | some r => respond { s with lth := { s.lth with result := lrBusy, err := setErr s.lth.err 0 } } r 0x0040 stRefused [lrBusy, 0, 0, 0]))
      ∧ (∀ op o, s.lth.busy = false → s.lth.queue = [] → s.lth.fence = none → op ≠ .proxyFree → lathCommand s true op o none = lathDo { s with lth := { s.lth with busy := true } } ⟨op, o, none, false, true⟩)
      ∧ (∀ f, s.lth.fence = some f →
        (∀ h, let v := lathDo s ⟨.free h, f.owner, none, false, true⟩
          v.lth.result = lrNotOwner ∧ v.lth.notOwner = s.lth.notOwner ∧ v.lth.doubleFree = s.lth.doubleFree ∧ v.lth.owners = s.lth.owners) ∧
        (∀ u ep, ep ≠ f.epoch → exec (.fenceConfirm u ep) s = .next s)
        ∧ (∀ e : Fin 64, f.skm = true → exec (.fenceConfirm (.engine e) f.epoch) s = .next { s with lth := { s.lth with fence := some { f with engines := putBit f.engines e.val false } } })
        ∧ (f.engines = 0 → f.mnd = false → f.rnd = false → f.host = false → s.lth.queue = [] → Answers (.fenceConfirm .skm f.epoch) s fun t =>
          t.lth.fence = none ∧ holdsAny t.lth f.owner = false ∧ t.lth.reclaim = bump s.lth.reclaim (holdCount s.lth f.owner) ∧ t.lth.err.getLsbD 4 = true
            ∧ (∀ h, ownerOf s.lth h ≠ some f.owner → Tab.wf none s.lth.owners = true → ownerOf t.lth h = ownerOf s.lth h))
        ∧ (f.done = false → exec .fenceStuck s = .next (journal { s with lth := { s.lth with err := setErr s.lth.err 5 } } 0x11 deviceId (leBytes 2 s.lth.epoch.toNat ++ [0, 0] ++ leBytes 4 (fenceWait f)))))
      ∧ (s.lth.fence = none → ∀ u ep, exec (.fenceConfirm u ep) s = .next s ∧ exec .fenceStuck s = .next s)
      ∧ (∀ (p : Fin 4) value, let n := value.toNat % 2 ^ 22
        let n := if p.val + 1 = 4 then n - n % 2 else n
        let l := { s.lth with leg := Tab.put 0 s.lth.leg (p.val + 1) n }
        let sum := legFrames l 1 + legFrames l 2 + legFrames l 3 + legFrames l 4
        (s.lth.owners = [] → sum + 1048576 ≤ 3137536 → exec (.legFramesWrite p value) s = .next { s with lth := l })
          ∧ (s.lth.owners ≠ [] ∨ 3137536 < sum + 1048576 → exec (.legFramesWrite p value) s = .next { s with lth := { s.lth with result := lrBusy, err := setErr s.lth.err 0 } }))

/-! ## Render, chapter 10 -/

/-- R370 to R372, R376, R383 to R386, R390, R391 and R393: a lane that loses its signal leaves its frame and is counted and recorded; it tests each octet position for a frame, is confirmed one frame on, and loses its frame on the fourth bad frame alignment word or count; a delay that steps by more than 50,000 ns takes a lane out of service; at the boundary of a multiframe every lane in service holds frames by the bond's delay less its own, with the guard kept. Rests on the model's choices in assumptions 17, 67, 69, 70, 72, 174, 175, 176, 177. -/
def Obligations.FarLanes : Prop :=
  ∀ (s : State) (g : Fin 128), Live s →
    let x := s.lane g.val
    (x.los = true → exec (.farLosAssert g) s = .next s)
      ∧ (x.los = false → exec (.farLosAssert g) s = .next (raiseDefect s g.val 1 { x.cut with los := true }))
      ∧ (x.los = false → exec (.losClear g) s = .next s)
      ∧ (x.los = true → exec (.losClear g) s = .next (clearDefect s g.val 1 { x with los := false }))
      ∧ (x.oof = false ∨ x.lof = true → exec (.lofDeclare g) s = .next s)
      ∧ (x.oof = true → x.lof = false → exec (.lofDeclare g) s = .next (raiseDefect s g.val 3 { x with lof := true }))
      ∧ (x.lof = false ∨ x.inFrame = false → exec (.lofClear g) s = .next s)
      ∧ (x.lof = true → x.inFrame = true → exec (.lofClear g) s = .next (clearDefect s g.val 3 { x with lof := false }))
      ∧ (∀ b code y, bondOfLane s g.val = some b → y.retired = false →
        let t := raiseDefect s g.val code y
        (t.lane g.val).los = y.los ∧ (t.lane g.val).lof = y.lof ∧ (t.lane g.val).oof = y.oof ∧ (t.lane g.val).inFrame = y.inFrame ∧ (t.lane g.val).inSvc = y.inSvc
          ∧ (t.part (farPart g.val).toNat).defect = bump (s.part (farPart g.val).toNat).defect 1
          ∧ (∃ e, t.sng.pend = s.sng.pend ++ [e] ∧ e.type = 1 ∧ e.part = farPart g.val ∧ e.body = padTo 0 36 [BitVec.ofNat 8 code, 1]))
      ∧ (∀ code y, bondOfLane s g.val = none → raiseDefect s g.val code y = s.setLane g.val y ∧ clearDefect s g.val code y = s.setLane g.val y)
      ∧ (∀ arrival, bondOfLane s g.val = none ∨ x.los = true ∨ x.loa = true ∨ x.retired = true → exec (.frameReceive g arrival) s = .next s)
      ∧ (∀ arrival b, bondOfLane s g.val = some b → x.los = false → x.loa = false → x.retired = false → x.inFrame = false →
        let v1 := isV1 s b
        let head := x.stream.take 64
        let next := slice x.stream 16384 64
        let starts := head.take 6 = fawOf v1 ∧ ohcrcOk head = true ∧ beAt head 10 1 / 16 = (if v1 then 1 else 2)
        let confirmed := next.take 6 = fawOf v1 ∧ ohcrcOk next = true ∧ overheadPos next = (overheadPos head + 1) % 2 ^ 24
        let y := x.hunt v1 (x.stream.length + 1)
        (y.inFrame = false → exec (.frameReceive g arrival) s = .next (s.setLane g.val y))
          ∧ (x.stream.length < 64 → y = x)
          ∧ (64 ≤ x.stream.length → ¬ starts → y = (x.consume 1).hunt v1 x.stream.length)
          ∧ (starts → 64 ≤ x.stream.length → x.stream.length < 16448 → y = x)
          ∧ (starts → 16448 ≤ x.stream.length → ¬ confirmed → y = RLane.hunt v1 x.stream.length { x.consume 1 with falseCount := bump x.falseCount 1, err := setErr x.err 10 })
          ∧ (starts → 16448 ≤ x.stream.length → confirmed → x.stream.length < 32768 → Answers (.frameReceive g arrival) s fun t =>
            (t.lane g.val).inFrame = true ∧ (t.lane g.val).oof = false ∧ (t.lane g.val).ranged = false ∧ (t.lane g.val).next = overheadPos next ∧ (t.lane g.val).stream = x.stream.drop 16384))
      ∧ (∀ arrival b, bondOfLane s g.val = some b → x.los = false → x.loa = false → x.retired = false → x.inFrame = true →
        let bytes := x.stream.take 16384
        let here := overheadPos bytes
        let wrong := bitDiff (bytes.take 6) (fawOf (isV1 s b))
        (x.stream.length < 16384 → exec (.frameReceive g arrival) s = .next s)
          ∧ (16384 ≤ x.stream.length → (2 < wrong ∧ 3 ≤ x.badFaw) ∨ (ohcrcOk bytes = true ∧ here ≠ x.next ∧ 3 ≤ x.badSeq) → Answers (.frameReceive g arrival) s fun t =>
            (t.lane g.val).inFrame = false ∧ (t.lane g.val).oof = true ∧ (t.lane g.val).inSvc = false ∧ (t.lane g.val).stream = x.stream.drop 16384
              ∧ (ohcrcOk bytes = false → (t.lane g.val).ohcrcCount = bump x.ohcrcCount 1))
          ∧ (16384 ≤ x.stream.length → wrong ≤ 2 → (ohcrcOk bytes = true → here = x.next) → (ohcrcOk bytes = false → x.badSeq < 4) → Answers (.frameReceive g arrival) s fun t =>
            (t.lane g.val).inFrame = true ∧ (t.lane g.val).badFaw = 0 ∧ (t.lane g.val).next = (x.next + 1) % 2 ^ 24 ∧ (t.lane g.val).stream = x.stream.drop 16384
              ∧ (ohcrcOk bytes = false → (t.lane g.val).ohcrcCount = bump x.ohcrcCount 1)))
      ∧ (∀ (b : Fin 16) (mfn : Nat), let t := boundary s b.val mfn
        ∀ l ∈ bondLanes t b.val, (t.lane l).inSvc = true →
          let h : Int := (((t.bond b.val).dbond.toNat : Nat) : Int) - (t.lane l).dns
          ((guardNs (t.bond b.val) : Nat) : Int) ≤ h ∧ (t.lane l).hold = h.toNat)
      ∧ (∀ b mfn new o, x.ranged = true → x.d = some o → 50000 < (new.toInt - o.toInt).natAbs →
        let t := (measureLane s b g.val mfn new).lane g.val
        t.ranged = false ∧ t.d = some new ∧ t.stable = 0 ∧ t.inSvc = false)
      ∧ (∀ (b : Fin 16) (bytes : List Byte),
        let ok := decide (bytes.length = 16) && decide (bytes.headD 0 = 1) && decide (crc32c (bytes.take 12) = BitVec.ofNat 32 (beAt bytes 12 4))
        (ok = false ∨ (s.bond b.val).en = false → exec (.rangingMessage b bytes) s = .next s)
          ∧ (ok = true → (s.bond b.val).en = true → Answers (.rangingMessage b bytes) s fun t =>
            (t.bond b.val).peerEpoch = some (BitVec.ofNat 8 (beAt bytes 1 1)) ∧ (t.bond b.val).ownEpoch = s.plb.stepEpoch
              ∧ (beAt bytes 2 2, BitVec.ofNat 48 (beAt bytes 4 6)) ∈ (t.bond b.val).times))

/-- R378 to R380 and R395: tributary octets enter a FIFO of 8,192 and leave in order; settings of a tributary, a bond or a port that the rules forbid change nothing but the error bit; a bond that is switched off is OFF, and its keys are gone. Rests on the model's choices in assumptions 72, 180, 184. -/
def Obligations.FarSettings : Prop :=
  ∀ (s : State), Live s →
    (∀ (c : Fin 4) (grp : BitVec 10),
      let x := s.trib c.val
      let t := { x with rxPlus := groupDisparity x.rxPlus grp }
      (groupOctet x.rxPlus grp = none → exec (.tribAddOctet c grp) s = .next (s.setTrib c.val t))
        ∧ (∀ o, groupOctet x.rxPlus grp = some o →
          (t.addFifo.length < 8192 → Answers (.tribAddOctet c grp) s fun u => u.trib c.val = { t with addFifo := t.addFifo ++ [o] } ∧ ∀ d, d ≠ c.val → u.trib d = s.trib d)
            ∧ (8192 ≤ t.addFifo.length → Answers (.tribAddOctet c grp) s fun u => u.trib c.val = { t with slip := bump t.slip 1, err := setErr t.err 0 } ∧ ∀ d, d ≠ c.val → u.trib d = s.trib d)))
      ∧ (∀ o : Byte, groupOctet false (dataGroup false o) = some o ∧ groupOctet true (dataGroup true o) = some o ∧ dataGroup false o ≠ idleGroup false ∧ dataGroup true o ≠ idleGroup true)
      ∧ (∀ c : Fin 4, (s.trib c.val).dropFifo = [] →
        let x := s.trib c.val
        let k := idleGroup x.txPlus
        (isUp s = false → exec (.dropFifoSend c) s = .next s)
          ∧ (isUp s = true → exec (.dropFifoSend c) s = .next (emit (s.setTrib c.val { x with txPlus := groupDisparity x.txPlus k }) (.os c.val none k))))
      ∧ (∀ (c : Fin 4) o r, (s.trib c.val).dropFifo = o :: r →
        let x := s.trib c.val
        let k := dataGroup x.txPlus o
        exec (.dropFifoSend c) s = .next (emit (s.setTrib c.val { x with dropFifo := r, txPlus := groupDisparity x.txPlus k }) (.os c.val (some o) k)))
      ∧ (∀ (c : Fin 4) (v : BitVec 32),
        let t := s.trib c.val
        let b := bitsOf v.toNat 27 24
        let most := if isV1 s b then 60000 else 100000
        let taken := ∃ d, d < 4 ∧ d ≠ c.val ∧ (s.trib d).en = true ∧ (s.trib d).bond.toNat = b
        ((v.getLsbD 31 = true ∧ ((s.bond b).en = false ∨ taken)) ∨ most < bitsOf v.toNat 16 0 → exec (.tribCfgWrite c v) s = .next (s.setTrib c.val { t with err := setErr t.err 3 }))
          ∧ (v.getLsbD 31 = false ∨ ((s.bond b).en = true ∧ ¬ taken) → bitsOf v.toNat 16 0 ≤ most →
            exec (.tribCfgWrite c v) s = .next (s.setTrib c.val { t with en := v.getLsbD 31, bond := BitVec.ofNat 4 b, rate := BitVec.ofNat 17 (bitsOf v.toNat 16 0) })))
      ∧ (∀ (p : Fin 16) (v : BitVec 32),
        let u := if v.getLsbD 1 then clearRndPort s p.val else s
        let used := ∃ b, b < 16 ∧ (u.bond b).en = true ∧ (u.bond b).ports.getLsbD p.val = true
        (v.getLsbD 0 = (u.rport p.val).v1 → exec (.portCfgWrite p v) s = .next u)
          ∧ (v.getLsbD 0 ≠ (u.rport p.val).v1 → used → exec (.portCfgWrite p v) s = .next (u.setRport p.val { u.rport p.val with err := setErr (u.rport p.val).err 1 }))
          ∧ (v.getLsbD 0 ≠ (u.rport p.val).v1 → ¬ used → exec (.portCfgWrite p v) s = .next (u.setRport p.val { u.rport p.val with v1 := v.getLsbD 0 })))
      ∧ (∀ (b : Fin 16) (v : BitVec 32),
        let x := s.bond b.val
        let ports : BitVec 16 := v.setWidth 16
        let low := bitsOf v.toNat 23 16
        let taken := ∃ c, c < 16 ∧ c ≠ b.val ∧ (s.bond c).en = true ∧ (s.bond c).ports &&& ports ≠ 0
        let mixed := ∃ p q, p < 16 ∧ q < 16 ∧ ports.getLsbD p = true ∧ ports.getLsbD q = true ∧ (s.rport p).v1 ≠ (s.rport q).v1
        let held := hasBudget s 0x04 b.val = true ∨ hasBudget s 0x05 b.val = true ∨ hasBudget s 0x07 b.val = true
        let forbidden := taken ∨ mixed ∨ low = 0 ∨ 8 * (portsOf ports).length < low ∨ held
        (v.getLsbD 31 = true ∨ x.en = true → forbidden → exec (.bondCfgWrite b v) s = .next (s.setBond b.val { x with err := setErr x.err 4 }))
          ∧ ((v.getLsbD 31 = false ∧ x.en = false) ∨ ¬ forbidden → Answers (.bondCfgWrite b v) s fun t =>
            (t.bond b.val).en = v.getLsbD 31 ∧ (t.bond b.val).ports = ports ∧ (t.bond b.val).minLanes = BitVec.ofNat 8 low ∧ (t.bond b.val).follow = v.getLsbD 30
              ∧ (v.getLsbD 31 = false → (t.bond b.val).st = 0)
              ∧ (x.en = true → v.getLsbD 31 = false → (t.sbond b.val).tx0 = {} ∧ (t.sbond b.val).tx1 = {} ∧ (t.sbond b.val).rx0 = {} ∧ (t.sbond b.val).rx1 = {})
              ∧ (∀ c, c ≠ b.val → (t.bond c).en = (s.bond c).en ∧ (t.bond c).ports = (s.bond c).ports))
          ∧ (x.en = true → bondForbidden s b.val x.ports x.minLanes.toNat = true → bondCfg2Write s b.val v = s.setBond b.val { x with err := setErr x.err 4 }))

/-! ## MND, chapter 11 -/

/-- R404 to R406, R410, R419, R423, R424, R428, R429, R433 and R638: codewords lock and lose a lane, positions are sent and released, requests are repeated and given up, and lanes are moved. Rests on the model's choices in assumptions 11, 13, 14, 17, 70, 73, 77, 162, 178. -/
def Obligations.LineSide : Prop :=
  ∀ (s : State), Live s →
    (∀ (g : Fin 128) (levels : List (BitVec 2)),
      let w := (s.mlane g.val).word levels
      let x := (s.mlane g.val).heard levels
      let takes := (s.lane g.val).retired = false ∧ (s.lane g.val).los = false ∧ (bondOfLane s g.val).isSome = true
      (x.locked = false → (x.search w).locked = false → exec (.codewordReceive (.far g) levels) s = .next (s.setMlane g.val (x.search w)))
        ∧ (x.locked = false → 2 ≤ x.good → w.cwn = x.lastCwn + 1 → w.patternErrors = 0 →
          Answers (.codewordReceive (.far g) levels) s fun t => (t.mlane g.val).locked = true ∧ (t.lane g.val).loa = false
            ∧ (takes → (t.lane g.val).stream = (s.lane g.val).stream ++ w.octets))
        ∧ (∀ k, x.locked = true → w.corrected = some k → w.patternErrors ≤ 2 →
          exec (.codewordReceive (.far g) levels) s = .next (deliverWord (s.setMlane g.val (x.decode w)) g.val w)
            ∧ (x.decode w).locked = true ∧ (x.decode w).corrSym = bump x.corrSym k.val ∧ (x.decode w).badWords = 0 ∧ (x.decode w).badMarks = 0)
        ∧ (x.locked = true → w.corrected = none → x.badWords < 7 → w.patternErrors ≤ 2 →
          Answers (.codewordReceive (.far g) levels) s fun t => (t.mlane g.val).locked = true ∧ (t.mlane g.val).uncorrCw = bump x.uncorrCw 1 ∧ (t.mlane g.val).badWords = x.badWords + 1
            ∧ (takes → (t.lane g.val).stream = (s.lane g.val).stream ++ w.octets ∧ ((s.lane g.val).stream.length, w.octets.length) ∈ (t.lane g.val).flags))
        ∧ (x.locked = true → (w.corrected = none ∧ 7 ≤ x.badWords) ∨ (2 < w.patternErrors ∧ 3 ≤ x.badMarks) →
          Answers (.codewordReceive (.far g) levels) s fun t => (t.mlane g.val).locked = false ∧ (t.mlane g.val).loaCount = bump x.loaCount 1 ∧ (t.lane g.val).loa = true))
      ∧ (∀ (n : Fin 8) (c : Fin 32) (levels : List (BitVec 2)),
        let y := s.col n.val c.val
        let w := y.lane.word levels
        let x := y.lane.heard levels
        let stream := if listens s n.val c.val then y.stream ++ w.octets else y.stream
        (x.locked = true → (x.decode w).locked = true → exec (.codewordReceive (.near n c) levels) s = .next (s.setCol n.val c.val { y with lane := x.decode w, stream := stream }))
          ∧ (x.locked = true → (x.decode w).locked = false → Answers (.codewordReceive (.near n c) levels) s fun t =>
            (t.col n.val c.val).loa = true ∧ (t.col n.val c.val).lane.locked = false ∧ (t.col n.val c.val).rx.st ≠ .inService)
          ∧ (x.locked = false → (x.search w).locked = true → exec (.codewordReceive (.near n c) levels) s = .next (s.setCol n.val c.val { y with lane := (x.search w).decode w, loa := false, stream := stream }))
          ∧ (x.locked = false → (x.search w).locked = false → exec (.codewordReceive (.near n c) levels) s = .next (s.setCol n.val c.val { y with lane := x.search w })))
      ∧ (∀ (b : Fin 16) (q : BitVec 48),
        let x := s.mbond b.val
        (x.missing.find? (fun m => decide (m.seq = q)) = none → exec (.resendTimeout b q) s = .next s)
          ∧ (∀ m, x.missing.find? (fun m => decide (m.seq = q)) = some m →
            (m.since = none → exec (.resendTimeout b q) s = .next s)
              ∧ (m.since ≠ none → max 1 x.retries.toNat ≤ m.tries → exec (.resendTimeout b q) s = .next (s.setMbond b.val (x.giveUp q)))
              ∧ (m.since ≠ none → m.tries < max 1 x.retries.toNat → Answers (.resendTimeout b q) s fun t =>
                (t.mbond b.val).requests = x.requests ++ [⟨BitVec.ofNat 48 q.toNat, 1, x.nextTag, 4⟩] ∧ (t.mbond b.val).req = bump x.req 1
                  ∧ (∃ n ∈ (t.mbond b.val).missing, n.seq = q ∧ n.tries = m.tries + 1 ∧ n.since = none))))
      ∧ (∀ (b : Fin 16), (s.bond b.val).en = false → (∃ c, c < 16 ∧ (s.bond c).en = true ∧ (s.bond c).ports.getLsbD b.val = true) ∨ s.se.role = 2 ∨ isUp s = false → exec (.transmitPosition b) s = .next s)
      ∧ (∀ (b : Fin 16), (s.bond b.val).en = false → (∀ c, c < 16 → (s.bond c).en = true → (s.bond c).ports.getLsbD b.val = false) → s.se.role ≠ 2 → isUp s = true →
        Answers (.transmitPosition b) s fun t => (t.rport b.val).txPos = ((s.rport b.val).txPos + 1) % 2 ^ 24 ∧ t.slr = s.slr
          ∧ ∃ fs pins, t.out = s.out ++ [.idleFrames b.val fs pins] ∧ fs.length = 8 ∧ ∀ p ∈ fs, beAt p.2 11 1 = 0xFF ∧ bitOf (beAt p.2 12 1) 1 = true ∧ p.2.drop 64 = List.replicate 16320 0)
      ∧ (∀ (b : Fin 16), (s.bond b.val).en = true → dataLanes s b.val = 0 ∨ shadowQuiet s b.val = true → exec (.transmitPosition b) s = .next s)
      ∧ (∀ (b : Fin 16), (s.bond b.val).en = true → dataLanes s b.val ≠ 0 → shadowQuiet s b.val = false → ((s.sbond b.val).activeTx).filter (fun e => ((s.sbond b.val).tx e).sends) = none →
        Answers (.transmitPosition b) s fun t => (t.bond b.val).txPos = ((s.bond b.val).txPos + 1) % 2 ^ 24 ∧ t.slr = s.slr ∧ (t.mbond b.val).txSeq = (s.mbond b.val).txSeq
          ∧ ∃ f, t.out = s.out ++ [.line f] ∧ f.bond = b.val ∧ f.line = none ∧ (∀ l ∈ f.lanes, l.2.2.2.2 = true) ∧ ∀ p ∈ f.octets, p.2.drop 64 = List.replicate 16320 0)
      ∧ (∀ (b : Fin 16) e, (s.bond b.val).en = true → dataLanes s b.val ≠ 0 → shadowQuiet s b.val = false → ((s.sbond b.val).activeTx).filter (fun e => ((s.sbond b.val).tx e).sends) = some e →
        Answers (.transmitPosition b) s fun t => ∃ u f o, t = pump (useKey u b.val e) ∧ (u.bond b.val).txPos = ((s.bond b.val).txPos + 1) % 2 ^ 24 ∧ u.slr = s.slr
          ∧ u.out = o ++ [.line f] ∧ f.bond = b.val ∧ f.line.isSome ∧ f.nctr = ((s.sbond b.val).tx e).nctr ∧ f.keyId = ((s.sbond b.val).tx e).id
          ∧ (((useKey u b.val e).sbond b.val).tx e).nctr = ((s.sbond b.val).tx e).nctr + 1)
      ∧ (∀ (b : Fin 16), oldestPos s b.val = none → exec (.frameRelease b) s = .next s)
      ∧ (∀ (b : Fin 16) pos,
        let n := (bondLanes s b.val).length
        let held : Nat → Option HeldFrame := fun i => (heldFrames s b.val pos).getD i none
        let x := s.mbond b.val
        oldestPos s b.val = some pos →
        let gone := ((List.range n).filter fun i => match held i with | some f => f.flagged || f.erased | none => true).length
        parityLanes x < gone → (∃ i f, i < n ∧ held i = some f ∧ f.erased = false) →
          Answers (.frameRelease b) s fun t => (t.bond b.val).released = some pos ∧ (t.mbond b.val).lost = bump x.lost 1 ∧ (t.mbond b.val).erasures = BitVec.ofNat 8 gone ∧ t.slr = s.slr)
      ∧ (∀ (b : Fin 16) pos,
        let n := (bondLanes s b.val).length
        let held : Nat → Option HeldFrame := fun i => (heldFrames s b.val pos).getD i none
        let x := s.mbond b.val
        oldestPos s b.val = some pos → (∀ i, i < n → ∃ f, held i = some f ∧ f.flagged = false ∧ f.erased = false) → x.cfgMm = false → x.mmBad < 3 →
        let dec := stripeDecode (parityLanes x) 16320 ((List.range n).map fun i => match held i with | some f => f.payload | none => []) []
        (dec.2 = true → Answers (.frameRelease b) s fun t => ∃ u, t = stripeData u b.val ((dec.1.take (n - parityLanes x)).flatten) ∧ u.slr = s.slr ∧ (u.bond b.val).released = some pos)
          ∧ (dec.2 = false → Answers (.frameRelease b) s fun t => (t.mbond b.val).synd = bump x.synd 1 ∧ t.slr = s.slr ∧ (t.bond b.val).released = some pos))
      ∧ (∀ (b : Fin 16) (data : List Byte),
        let e := beAt data 12 1 % 2
        let line := openLine ((s.sbond b.val).rx e) data
        let c := authCheck (s.sbond b.val) e (beAt data 0 8) (beAt data 8 4) line.isSome
        stripeData s b.val data = if c.1 then lineReceive (keyChange s b.val c.2) b.val (line.getD []) else keyChange s b.val c.2)
      ∧ (∀ (b : Fin 16) (pos : BitVec 8),
        let u := moveFields s 0 b.val pos.toNat
        let v := moveFields s 1 b.val pos.toNat
        let bad := (s.bond b.val).en = false ∨ (bondLanes s b.val).length ≤ pos.toNat
        (s.mnd.move.isSome = true → exec (.moveRetire b pos) s = .next (moveResult u 3) ∧ exec (.moveRestore b pos) s = .next (moveResult v 3))
          ∧ (s.mnd.move = none → bad → exec (.moveRetire b pos) s = .next (moveResult u 2) ∧ exec (.moveRestore b pos) s = .next (moveResult v 2))
          ∧ (s.mnd.move = none → ¬ bad → parityLanes (s.mbond b.val) < (s.mbond b.val).eLast + 1 → exec (.moveRetire b pos) s = .next (moveResult u 1))
          ∧ (s.mnd.move = none → ¬ bad → (s.mbond b.val).eLast + 1 ≤ parityLanes (s.mbond b.val) → exec (.moveRetire b pos) s = .next { u with mnd := { u.mnd with move := some ⟨b.val, pos.toNat, false, none⟩ } })
          ∧ (s.mnd.move = none → ¬ bad → Answers (.moveRestore b pos) s fun t =>
            t.mnd.move = some ⟨b.val, pos.toNat, true, none⟩ ∧ pos.toNat ∈ (t.mbond b.val).moved ∧ (∀ p ∈ (s.mbond b.val).moved, p ∈ (t.mbond b.val).moved)))
      ∧ (s.mnd.move = none → exec .moveDone s = .next s)
      ∧ (∀ v, s.mnd.move = some v →
        let g := (bondLanes s v.bond).getD v.pos 0
        (v.restore = true → (s.lane g).rdiRx = true → exec .moveDone s = .next s)
          ∧ (v.restore = true → (s.lane g).rdiRx = false → v.fm = none → Answers .moveDone s fun t => t.mnd.move = none ∧ t.mnd.moveResult = 0 ∧ v.pos ∉ (t.mbond v.bond).moved)
          ∧ (v.restore = false → v.fm = none → Answers .moveDone s fun t => t.mnd.move = none ∧ t.mnd.moveResult = 0 ∧ v.pos ∈ (t.mbond v.bond).moved)
          ∧ (∀ r q, v.restore = false → v.fm = some (r, q) → (s.lane g).retired = false → Answers .moveDone s fun t => t.mnd.move = none ∧ (t.lane g).retired = true ∧ (t.part (partId 3 g).toNat).st = 2))
      ∧ (∀ (b : Fin 16) (v : BitVec 32),
        let x := { s.mbond b.val with retries := BitVec.ofNat 4 (bitsOf v.toNat 27 24), rto := v.setWidth 24 }
        let m : BitVec 2 := BitVec.ofNat 2 (bitsOf v.toNat 31 30)
        (m = x.m → exec (.stripeCfgWrite b v) s = .next (s.setMbond b.val x))
          ∧ (m ≠ x.m → (s.bond b.val).en = true ∨ (m = 3 ∧ isV1 s b.val = true) → exec (.stripeCfgWrite b v) s = .next (s.setMbond b.val { x with err := setErr x.err 9 }))
          ∧ (m ≠ x.m → (s.bond b.val).en = false → ¬ (m = 3 ∧ isV1 s b.val = true) → exec (.stripeCfgWrite b v) s = .next (judgeMinLow (s.setMbond b.val { x with m := m }) b.val)))

/-! ## Sealer, chapter 12 -/

/-- R438, R448 to R450 and R454: a LOADED key becomes ACTIVE by KEY_READY and the next multiframe on the sending side, and by a frame that passes on the receiving side; a frame passes only when its key is present, its NCTR is above the last accepted and its tag verifies, and only then is its NCTR kept. Rests on the model's choices in assumptions 11, 12, 181. -/
def Obligations.KeySlots : Prop :=
  ∀ (s : State), Live s →
    (∀ (b : Fin 16) (m : List Byte),
      let x := s.sbond b.val
      let ok := decide (m.length = 16) && decide (beAt m 2 1 = 1) && decide (crc32c (m.take 12) = BitVec.ofNat 32 (beAt m 12 4))
      let names : Fin 2 → Prop := fun e => (x.tx e.val).st = 1 ∧ (x.tx e.val).id = BitVec.ofNat 64 (beAt m 4 8)
      (ok = false ∨ (¬ names 0 ∧ ¬ names 1) → exec (.keyReady b m) s = .next s)
        ∧ (∀ e, ok = true → names e → (∀ f, f < e → ¬ names f) → exec (.keyReady b m) s = .next (s.setSbond b.val { x with switchTo := some e })))
      ∧ (∀ b : Fin 16, (s.sbond b.val).switchTo = none → exec (.txKeySwitch b) s = .next s)
      ∧ (∀ (b : Fin 16) (e : Fin 2), (s.sbond b.val).switchTo = some e →
        let x := s.sbond b.val
        ((x.tx e.val).st ≠ 1 → exec (.txKeySwitch b) s = .next (s.setSbond b.val { x with switchTo := none }))
          ∧ ((x.tx e.val).st = 1 → Answers (.txKeySwitch b) s fun t =>
            let y := t.sbond b.val
            y.tx e.val = { x.tx e.val with st := 2, nctr := 0 } ∧ y.tx (1 - e.val) = {} ∧ y.rx0 = x.rx0 ∧ y.rx1 = x.rx1 ∧ y.switchTo = none ∧ y.switches = bump x.switches 1
              ∧ y.err = setErr x.err 0 ∧ (∀ c, c ≠ b.val → t.sbond c = s.sbond c)))
      ∧ (∀ (b : Fin 16) (e : Fin 2),
        ((s.sbond b.val).rx e.val).st ≠ 3 → exec (.overlapExpire b e) s = .next s)
      ∧ (∀ (b : Fin 16) (e : Fin 2), ((s.sbond b.val).rx e.val).st = 3 → Answers (.overlapExpire b e) s fun t =>
        (t.sbond b.val).rx e.val = {} ∧ (t.sbond b.val).rx (1 - e.val) = (s.sbond b.val).rx (1 - e.val) ∧ (∀ c, c ≠ b.val → t.sbond c = s.sbond c))
      ∧ (∀ q : Fin 4, s.slr.trngOk.getLsbD q.val = false → exec (.trngFail q) s = .next s)
      ∧ (∀ q : Fin 4, s.slr.trngOk.getLsbD q.val = true → Answers (.trngFail q) s fun t =>
        t.slr.trngOk = putBit s.slr.trngOk q.val false ∧ t.slr.trngFail = bump s.slr.trngFail 1 ∧ t.slr.err = setErr s.slr.err 6
          ∧ (t.slr.trngOk = 0 → t.slr.drbg = false ∧ t.top.ready.getLsbD rdySlr = false) ∧ (t.slr.trngOk ≠ 0 → t.slr.drbg = s.slr.drbg))
      ∧ (∀ p b (e : Fin 2), ((placeKey s p b true e.val).sbond b).rx e.val = { st := 1, id := BitVec.ofNat 64 (leAt p 0 8), salt := slice p 12 4, key := slice p 16 32, last := none })
      ∧ (∀ (x : SBond) (e : Fin 2) (nctr kid : Nat) (tagOk : Bool),
        let k := x.rx e.val
        let c := authCheck x e.val nctr kid tagOk
        (k.st = 0 ∨ k.id.toNat % 2 ^ 32 ≠ kid → c = (false, { x with noKey := bump x.noKey 1, err := setErr x.err 3 }))
          ∧ (k.st ≠ 0 → k.id.toNat % 2 ^ 32 = kid →
            (∀ l, k.last = some l → nctr ≤ l → c = (false, { x with replay := bump x.replay 1, err := setErr x.err 2 }))
              ∧ ((∀ l, k.last = some l → l < nctr) → tagOk = false → c = (false, { x with authFail := bump x.authFail 1, err := setErr x.err 1 }))
              ∧ ((∀ l, k.last = some l → l < nctr) → tagOk = true →
                c.1 = true ∧ (c.2.rx e.val).last = some nctr ∧ (c.2.rx e.val).st = (if k.st = 1 ∧ ((x.rx (1 - e.val)).st = 2 ∨ (x.rx (1 - e.val)).st = 0) then 2 else k.st)
                  ∧ (k.st = 1 → (x.rx (1 - e.val)).st = 2 → (c.2.rx (1 - e.val)).st = 3) ∧ (k.st ≠ 1 ∨ (x.rx (1 - e.val)).st ≠ 2 → c.2.rx (1 - e.val) = x.rx (1 - e.val)))))
      ∧ (∀ (r : MboxRec) (i : Nat) (x : Session) (off crc : BitVec 32), Accepted s r (needs 0x0051 true true [rdySlr]) (beBytes 4 off.toNat ++ beBytes 4 crc.toNat) i x →
        let u := begun s r 0x0051 (beBytes 4 off.toNat ++ beBytes 4 crc.toNat) i x
        let bs := Mem.read x.area3 off.toNat 384
        let counted := { u with slr := { u.slr with keyLoads := bump u.slr.keyLoads 1 } }
        let plain := openBlob s bs
        let k := keyLoadResult s true plain
        (8192 < off.toNat + 384 → exec (.keyLoad r off crc) s = .next (respond u r 0x0051 stBadObject [0, 0, 0, 0]))
          ∧ (off.toNat + 384 ≤ 8192 → crc32c bs ≠ crc → exec (.keyLoad r off crc) s = .next (respond u r 0x0051 stBadObject (beBytes 4 (crc32c bs).toNat)))
          ∧ (off.toNat + 384 ≤ 8192 → crc32c bs = crc → k.1 = 0 → exec (.keyLoad r off crc) s = .next (respond (placeKey counted (plain.getD []) k.2.1 k.2.2.1 k.2.2.2) r 0x0051 stOk [0]))
          ∧ (off.toNat + 384 ≤ 8192 → crc32c bs = crc → k.1 ≠ 0 → exec (.keyLoad r off crc) s = .next (respond (slrErr counted 1) r 0x0051 stRefused [k.1])))
      ∧ (∀ p b rx e, keyLoadResult s true (some p) = (0, b, rx, e) →
        b < 16 ∧ e < 2 ∧ (s.bond b).en = true ∧ s.slr.strip = 0 ∧ slice p 48 16 = deviceIdBytes
          ∧ (let slot := fun j => if rx then (s.sbond b).rx j else (s.sbond b).tx j
            (slot e).st = 0 ∧ (e = 1 → (slot 0).st ≠ 0) ∧ ∀ j, j < 2 → (slot j).st ≠ 0 → (slot j).id ≠ BitVec.ofNat 64 (leAt p 0 8)))
      ∧ (keyLoadResult s true none).1 = 1
      ∧ (s.slr.ktk = none → ∀ bs, openBlob s bs = none)
      ∧ (∀ k bs, s.slr.ktk = some k → openBlob s bs = oaepOpen k.record k.secret labelKey bs)

/-- R443, R444, R451, R452, R460 and R465 to R469: KEY_LOAD places a key in the lower EMPTY slot or answers why it does not; attestation answers a signed report; an owner store that passes is kept, and the first one claims the device; a strip challenge serves once and for 300 s; an accepted STRIP erases every key, closes every session, scrubs every engine and initialises every stack again. Rests on the model's choices in assumptions 11, 12, 107, 108, 109. -/
def Obligations.OwnerAndStrip : Prop :=
  ∀ (s : State), Live s →
    exec .stripChallengeExpire s = .next { s with slr := { s.slr with challenge := none } }
      ∧ exec .lockoutExpire s = .next { s with slr := { s.slr with lockout := 0 } }
      ∧ ∀ (r : MboxRec) (i : Nat) (x : Session),
        (∀ nonce,
          let n := padTo 0 32 nonce
          Accepted s r (needs 0x0050 false false [rdySlr]) n i x →
          let u := begun s r 0x0050 n i x
          let g := signIdk u (reportBytes u n)
          let report := reportBytes u n ++ padTo 0 384 g.1
          exec (.attest r nonce) s = .next (respond (g.2.setSession i (some { x with lastSeq := some r.seq, area3 := Mem.write x.area3 0 report })) r 0x0050 stOk (beBytes 4 640 ++ beBytes 4 (crc32c report).toNat))
            ∧ (∀ k, s.slr.idk = some k → ∃ salt, salt.length = 32 ∧ g.1 = rsaSign k.record k.secret (sha256 (reportBytes u n)) salt))
          ∧ (∀ off crc, Accepted s r (needs 0x0052 true false [rdySlr]) (beBytes 4 off.toNat ++ beBytes 4 crc.toNat) i x →
            let u := begun s r 0x0052 (beBytes 4 off.toNat ++ beBytes 4 crc.toNat) i x
            let bs := Mem.read x.area3 off.toNat 4232
            (8192 < off.toNat + 4232 → exec (.ownerUpload r off crc) s = .next (respond u r 0x0052 stBadObject [0, 0, 0, 0]))
              ∧ (off.toNat + 4232 ≤ 8192 → crc32c bs ≠ crc → exec (.ownerUpload r off crc) s = .next (respond u r 0x0052 stBadObject (beBytes 4 (crc32c bs).toNat)))
              ∧ (off.toNat + 4232 ≤ 8192 → crc32c bs = crc →
                (x.claiming = true → s.slr.ownerHash.isSome = true → exec (.ownerUpload r off crc) s = .next (respond u r 0x0052 stNotPermitted []))
                  ∧ (x.claiming = false ∨ s.slr.ownerHash = none →
                    (ownerAccepted s bs = true →
                      exec (.ownerUpload r off crc) s = .next (respond { u with slr := { u.slr with store := some (parseStore bs), ownerHash := some (s.slr.ownerHash.getD (ownerRootHash bs)) } } r 0x0052 stOk (beBytes 4 (leAt bs 4 4))))
                      ∧ (ownerAccepted s bs = false → Answers (.ownerUpload r off crc) s fun t => t.slr = s.slr ∧ (t.mbox r.mbox.val).running = none ∧ t.hwk.refusedCount = bump s.hwk.refusedCount 1))))
          ∧ (Accepted s r (needs 0x0053 true false [rdySlr]) [] i x → Answers (.stripChallenge r) s fun t =>
            ∃ c, c.length = 32 ∧ t = respond { begun s r 0x0053 [] i x with slr := { s.slr with challenge := some c }, fresh := s.fresh + 1 } r 0x0053 stOk c)
          ∧ (∀ off crc, Accepted s r (needs 0x0054 true false [rdySlr]) (beBytes 4 off.toNat ++ beBytes 4 crc.toNat) i x →
            let u := begun s r 0x0054 (beBytes 4 off.toNat ++ beBytes 4 crc.toNat) i x
            let bs := Mem.read x.area3 off.toNat 448
            let stands := tokenOk s bs = true ∧ s.slr.ownerHash.isSome = true ∧ s.stn.place = .none ∧ s.stn.next = none ∧ s.slr.strip = 0
            (8192 < off.toNat + 448 → exec (.strip r off crc) s = .next (respond u r 0x0054 stBadObject [0, 0, 0, 0]))
              ∧ (off.toNat + 448 ≤ 8192 → crc32c bs ≠ crc → exec (.strip r off crc) s = .next (respond u r 0x0054 stBadObject (beBytes 4 (crc32c bs).toNat)))
              ∧ (off.toNat + 448 ≤ 8192 → crc32c bs = crc → ¬ stands → Answers (.strip r off crc) s fun t => t.slr = s.slr ∧ (t.mbox r.mbox.val).running = none ∧ t.hwk.refusedCount = bump s.hwk.refusedCount 1)
              ∧ (off.toNat + 448 ≤ 8192 → crc32c bs = crc → stands → Answers (.strip r off crc) s fun t =>
                t.slr.strip ≠ 0 ∧ t.slr.challenge = none ∧ t.slr.idk = none ∧ t.slr.ktk = none ∧ t.slr.gateClosed = true ∧ t.slr.err.getLsbD 0 = true
                  ∧ (∀ b, b < 16 → (t.sbond b).tx0 = {} ∧ (t.sbond b).tx1 = {} ∧ (t.sbond b).rx0 = {} ∧ (t.sbond b).rx1 = {})
                  ∧ (∀ k, k < 8 → t.session k = none) ∧ (∀ e, e < 64 → (t.eng e).st = .scrubbing)
                  ∧ (∀ k, k < 32 → (t.stack k).st = (if (s.stack k).st = 0 ∨ (s.stack k).st = 3 then (s.stack k).st else 1))))

/-! ## Near photonics, chapter 13 -/

/-- R481 to R484, R488, R489, R525 and R526: a receive colour takes frames only in NORMAL and in VERIFY or IN_SERVICE, tests each octet position for two good frames in a row and falls out on four bad ones; a frame is discarded, or its credits are added and its tile enters the queue it names; a transmit colour sends its oldest unsent tile while it holds a credit, or an IDLE frame. Rests on the model's choices in assumptions 17, 80, 82, 88, 89. -/
def Obligations.NearFrames : Prop :=
  ∀ (s : State) (n : Fin 8) (c : Fin 32), Live s →
    let y := s.col n.val c.val
    (listens s n.val c.val = false → exec (.nearFrameReceive n c) s = .next s)
      ∧ (listens s n.val c.val = true ↔ ((s.phe n.val).safety = .normal ∧ (y.rx.st = .verify ∨ y.rx.st = .inService)))
      ∧ (let len := y.stream.length
        let h := y.hunt (len + 1)
        let on := { y with stream := y.stream.drop 1 }
        (len < 32 → h = y) ∧ (32 ≤ len → frameHead y.stream = false → h = on.hunt len) ∧ (32 ≤ len → len < 4160 → frameHead y.stream = true → h = y)
          ∧ (4160 ≤ len → frameHead y.stream = true → frameHead (y.stream.drop 4128) = true → h = { y with stream := y.stream.drop 4128, aligned := true, syncBad := 0 })
          ∧ (4160 ≤ len → frameHead y.stream = true → frameHead (y.stream.drop 4128) = false → h = on.hunt len))
      ∧ (listens s n.val c.val = true →
        let h := if y.aligned then y else y.hunt (y.stream.length + 1)
        let rest := { h with stream := h.stream.drop 4128 }
        let f := readNear (h.stream.take 4128)
        let z := alignStep rest f
        (h.aligned = false ∨ h.stream.length < 4128 → exec (.nearFrameReceive n c) s = .next (s.setCol n.val c.val h))
          ∧ (h.aligned = true → 4128 ≤ h.stream.length → z.aligned = false → Answers (.nearFrameReceive n c) s fun t => t.col n.val c.val = z ∧ t.engines = s.engines ∧ t.sch = s.sch)
          ∧ (h.aligned = true → 4128 ≤ h.stream.length → z.aligned = true → Answers (.nearFrameReceive n c) s fun t =>
            ∃ u, u.col n.val c.val = noteFrame z (cidOf n.val c.val) f ∧ u.engines = s.engines ∧ t = nearSettle (judgeRuns (takeFrame u n c f) n.val c.val) n.val)
          ∧ (h.aligned = true → (z.aligned = false ↔ (4 < f.syncErrors ∧ 3 ≤ h.syncBad))))
      ∧ (∀ f,
        let e := bitsOf f.dest.toNat 8 3
        let q := bitsOf f.dest.toNat 2 0
        let bad := f.hcrcOk = false ∨ 1 < f.kind.toNat ∨ f.cid ≠ cidOf n.val c.val ∨ (f.kind = 1 ∧ (hasBudget s 0x01 (8 * e + q) = false ∨ iqRoom s e q = false))
        (bad → ((takeFrame s n c f).phe n.val).discards = bump (s.phe n.val).discards 1 ∧ (takeFrame s n c f).engines = s.engines ∧ ((takeFrame s n c f).col n.val c.val).credits = y.credits)
          ∧ (¬ bad → f.kind = 0 → takeFrame s n c f = s.setCol n.val c.val { y with credits := BitVec.ofNat 16 (min 0xFFFF (y.credits.toNat + f.crCount.toNat)) })
          ∧ (¬ bad → f.kind = 1 → takeFrame s n c f
            = pump (iqInsert (spendHeld (s.setCol n.val c.val { y with credits := BitVec.ofNat 16 (min 0xFFFF (y.credits.toNat + f.crCount.toNat)) }) (creditKey n.val c.val (8 * e + q))) e q ⟨f.fmt, f.tcrc, f.tileNo, padTo 0 4096 f.payload, some (n, c), none⟩)))
      ∧ ((s.phe n.val).safety ≠ .normal → exec (.nearTxFrame n c) s = .next s)
      ∧ ((s.phe n.val).safety = .normal → mayMove s n.val c.val = false → sendable s n.val c.val = none → nextReturn s n.val c.val = none →
        let idle := nearFrameBytes n.val c.val y.lastCid 0 0 0 0 0 0 0 []
        (y.tx.st = .verify ∨ y.tx.st = .inService ∨ y.tx.st = .swapping → exec (.nearTxFrame n c) s = .next (sendNear s n.val c.val idle))
          ∧ (y.tx.st ≠ .verify → y.tx.st ≠ .inService → y.tx.st ≠ .swapping → exec (.nearTxFrame n c) s = .next s))
      ∧ (∀ q k fmt crc no stp data, (s.phe n.val).safety = .normal → mayMove s n.val c.val = false → nextReturn s n.val c.val = none → s.se.role ≠ 2 →
        sendable s n.val c.val = some (q, k, .tile fmt crc no stp data) →
        y.tx.st = .inService ∧ y.credits ≠ 0
          ∧ exec (.nearTxFrame n c) s = .next (sendNear (markSent s n.val c.val q k) n.val c.val (nearFrameBytes n.val c.val y.lastCid 1 0 0 fmt no crc stp data)))

/-- R487 to R497 and R500 to R503: rings sweep, verify, pass and fail; a lost peak, signal or light takes a colour or an engine out; in SHUTDOWN no colour is lit; the interlock pin, FORCE_OFF and lost light each shut an engine down, and a probe that finds light brings it back; the fences hold what the loops act on. Rests on the model's choices in assumptions 78, 81, 83, 84, 85, 86, 90. -/
def Obligations.NearRings : Prop :=
  ∀ (s : State) (n : Fin 8) (c : Fin 32), Live s →
    let y := s.col n.val c.val
    let x := s.phe n.val
    (∀ rx, (rx = true → y.rx.st ≠ .inService) → (rx = false → y.tx.st ≠ .inService) → exec (.ringPeakLoss n c rx) s = .next s)
      ∧ (y.rx.st = .inService → Answers (.ringPeakLoss n c true) s fun t => (t.col n.val c.val).rx.st = .locking ∧ (t.col n.val c.val).rx.att = y.rx.att ∧ (t.col n.val c.val).credits = 0 ∧ t.top.near.getLsbD n.val = false)
      ∧ (y.tx.st = .inService → Answers (.ringPeakLoss n c false) s fun t => (t.col n.val c.val).tx.st = .locking ∧ (t.col n.val c.val).tx.att = y.tx.att ∧ (t.col n.val c.val).credits = 0 ∧ t.top.near.getLsbD n.val = false)
      ∧ (y.los = true → exec (.rxLos n c) s = .next s)
      ∧ (y.los = false → Answers (.rxLos n c) s fun t => (t.col n.val c.val).los = true ∧ (t.part (rxPart n.val c.val).toNat).defect = bump (s.part (rxPart n.val c.val).toNat).defect 1
        ∧ (y.rx.st = .inService → (t.col n.val c.val).rx.st = .locking ∧ (y.tx.st = .inService → (t.col n.val c.val).tx.st = .locking)))
      ∧ exec (.rxLosClear n c) s = .next (s.setCol n.val c.val { y with los := false })
      ∧ (y.tx.st ≠ .verify → y.tx.st ≠ .swapping → exec (.verifyTimeout n c) s = .next s)
      ∧ (y.tx.st = .verify → Answers (.verifyTimeout n c) s fun t => (t.phe n.val).wrongLock = bump x.wrongLock 1 ∧ (t.col n.val c.val).tx.att = y.tx.att + 1
        ∧ (t.col n.val c.val).tx.st = (if y.tx.att = 2 then .failed else .locking))
      ∧ (y.tx.st = .swapping → exec (.verifyTimeout n c) s = .next (nearSettle (moveFail s n.val c.val) n.val))
      ∧ (y.rx.st = .locking → y.rx.parked = true → exec (.rxSweepRetry n c) s = .next (setRx s n.val c.val (y.rx.sweepFrom (heatLo s n.val))))
      ∧ (y.rx.st ≠ .locking ∨ y.rx.parked = false → exec (.rxSweepRetry n c) s = .next s)
      ∧ (∀ o : Fin 4, (s.spare n.val o.val).st ≠ .tuning → exec (.spareMakeTimeout n o) s = .next s)
      ∧ (∀ o : Fin 4, (s.spare n.val o.val).st = .tuning → Answers (.spareMakeTimeout n o) s fun t => (t.spare n.val o.val).st = .failed)
      ∧ (∀ rx, let r := if rx then y.rx else y.tx
        (x.safety ≠ .normal ∨ r.st ≠ .failed → Answers (.relock n c rx) s fun t => (t.phe n.val).err = setErr x.err pbCtrlIgnored ∧ (t.col n.val c.val).rx = y.rx ∧ (t.col n.val c.val).tx = y.tx)
          ∧ (x.safety = .normal → r.st = .failed → Answers (.relock n c rx) s fun t => (if rx then (t.col n.val c.val).rx else (t.col n.val c.val).tx) = { r.sweepFrom (heatLo s n.val) with att := 0 }))
      ∧ (let able := x.safety = .normal ∧ (s.spare n.val (c.val / 8)).st = .idle ∧ y.stage ≠ 0 ∧ y.tx.st ≠ .retired
        let u := s.setPhe n.val { x with colour := BitVec.ofNat 5 c.val }
        (¬ able → exec (.swap n c) s = .next (phnErr u n.val pbCtrlIgnored c.val false)) ∧ (able → exec (.swap n c) s = .next (startMake u n.val c.val false none)))
      ∧ (∀ v : BitVec 32,
        let hi := BitVec.ofNat 16 (v.toNat / 65536)
        let lo := BitVec.ofNat 16 v.toNat
        let b := fun k : Nat => BitVec.ofNat 8 (v.toNat / 2 ^ k)
        exec (.fenceWrite n 0 v) s = .next (s.setPhe n.val { x with biasMax := hi, freqWin := lo })
          ∧ (lo.toNat ≤ hi.toNat → exec (.fenceWrite n 1 v) s = .next (s.setPhe n.val { x with heatMax := hi, heatMin := lo }))
          ∧ (hi.toNat < lo.toNat → exec (.fenceWrite n 1 v) s = .next (phnErr s n.val pbCtrlIgnored 0 false))
          ∧ ((b 16).toInt ≤ (b 24).toInt → exec (.fenceWrite n 2 v) s = .next (s.setPhe n.val { x with pwrMax := b 24, pwrMin := b 16, pwrTgt := b 8 }))
          ∧ ((b 24).toInt < (b 16).toInt → exec (.fenceWrite n 2 v) s = .next (phnErr s n.val pbCtrlIgnored 0 false)))
      ∧ (∀ o, x.safety ≠ .normal → exec (.controlCycle n o) s = .next s)
      ∧ (∀ o, x.safety = .normal → Answers (.controlCycle n o) s fun t => ∀ d, d < 32 →
        (t.col n.val d).bias.toNat ≤ biasTop x ∧ (t.col n.val d).freq.natAbs ≤ x.freqWin.toNat)
      ∧ (∀ o, x.safety = .normal →
        let a := applyFences s n.val
        let u := o.spareLocked.foldl (fun v k => if (v.spare n.val k.val).st = .tuning then v.setSpare n.val k.val { v.spare n.val k.val with st := .locked } else v) a
        exec (.controlCycle n o) s = .next (nearSettle (o.wishes.foldl (fun v w => runLoop v n.val w.1 w.2) (sweepTx (sweepRx u n.val o.rxPeak) n.val o.txPeak)) n.val))
      ∧ (∀ (l : Loop) (v : Int),
        let held := beyondFence x (heatLo s n.val) (heatHi s n.val) l v
        let t := (runLoop s n.val l v).phe n.val
        (held = true → t.fenceSat = bump x.fenceSat 1 ∧ l ∈ t.saturated ∧ (l ∉ x.saturated → t.err = setErr x.err pbFenceSat) ∧ (l ∈ x.saturated → t.err = x.err))
          ∧ (held = false → t.fenceSat = x.fenceSat ∧ l ∉ t.saturated ∧ t.err = x.err))
      ∧ (∀ (d : Fin 32) (v : Int), beyondFence x (heatLo s n.val) (heatHi s n.val) (.laserPower d) v = false →
        let z := ((runLoop s n.val (.laserPower d) v).phe n.val).col d.val
        (z.bias.toNat : Int) = v ∧ z.aim = powerTarget s n.val)
      ∧ (let z := y.rx.sweep (heatLo s n.val) (heatHi s n.val) true
        z.locked = true ∧ z.heat = y.rx.heat)
      ∧ (let z := y.rx.sweep (heatLo s n.val) (heatHi s n.val) false
        z.heat = (if heatHi s n.val ≤ y.rx.heat then heatLo s n.val else y.rx.heat + 1) ∧ z.swept = y.rx.swept + 1)
      ∧ (∀ o, x.safety ≠ .normal → Answers (.monitorSample n o) s fun t => (t.phe n.val).rxTotal = o.rxTotal ∧ (t.phe n.val).safety = x.safety ∧ ∀ d, d < 32 → (t.col n.val d).stage = (s.col n.val d).stage ∧ (t.col n.val d).tx = (s.col n.val d).tx)
      ∧ (∀ o, x.safety = .normal → o.lasers = [] → x.autoSwap = false → Answers (.monitorSample n o) s fun t => (t.phe n.val).rxTotal = o.rxTotal ∧ ∀ d, d < 32 → (t.col n.val d).stage = (s.col n.val d).stage)
      ∧ (∀ o : MonitorObs, x.safety = .normal → o.rxPower = [] → Answers (.monitorSample n o) s fun t => ∃ u, (u.phe n.val).rxTotal = o.rxTotal ∧ (∀ d, d < 32 → u.col n.val d = s.col n.val d)
        ∧ t = nearSettle (autoSwaps ((List.range 32).foldl (fun v d => match o.lasers.find? (fun m => decide (m.colour.val = d)) with | some m => judgeLaser v n.val m | none => v) u) n.val) n.val)
      ∧ (∀ m : LaserSample, m.colour = c → y.tx.st ≠ .retired → y.stage = 0 →
        let l := sampleLevel x (laserEolOf s n.val c.val) m
        let t := judgeLaser s n.val m
        (l = 0 ∨ y.level = 0 → (t.col n.val c.val).stage = 0 ∧ (t.col n.val c.val).level = l)
          ∧ (l = 1 → 1 ≤ y.level → (t.col n.val c.val).stage = 1 ∧ (t.phe n.val).err = setErr x.err pbLaserWarn)
          ∧ (l = 2 → 2 ≤ y.level → (t.col n.val c.val).stage = 2 ∧ (t.phe n.val).err = setErr (setErr x.err pbLaserWarn) pbSpareDue))
      ∧ (x.safety ≠ .normal → exec (.rxLightLoss n) s = .next s)
      ∧ (x.safety = .normal → exec (.rxLightLoss n) s = .next (eyeEntry (enterShutdown s n.val false) 2))
      ∧ (∀ pin, let t := enterShutdown s n.val pin
        (t.phe n.val).safety = .shutdown ∧ (t.phe n.val).eyes = bump x.eyes 1 ∧ t.top.near.getLsbD n.val = false
          ∧ ∀ d, d < 32 → (t.col n.val d).tx.st ≠ .verify ∧ (t.col n.val d).tx.st ≠ .inService ∧ (t.col n.val d).tx.st ≠ .swapping)
      ∧ ((∀ k, k < 8 → (s.phe k).safety = .shutdown) → exec .eyeInterlockHigh s = .next { s with phn := { s.phn with interlock := true } })
      ∧ ((∃ k, k < 8 ∧ (s.phe k).safety ≠ .shutdown) → Answers .eyeInterlockHigh s fun t => t.phn.interlock = true ∧ (∀ k, k < 8 → (t.phe k).safety = .shutdown)
        ∧ ∃ e, t.sng.pend.getLast? = some e ∧ e.type = 0x12 ∧ e.body = padTo 0 36 [1])
      ∧ (s.phn.interlock = true → exec .eyeInterlockLow s = .next { s with phn := { s.phn with interlock := false, holdNs := 100000000 } })
      ∧ (s.phn.interlock = false → exec .eyeInterlockLow s = .next s)
      ∧ (let free := x.safety = .shutdown ∧ s.phn.interlock = false ∧ s.phn.holdNs = 0 ∧ x.forceOff = false
        (free → exec (.probeEntry n) s = .next (s.setPhe n.val { x with safety := .probe })) ∧ (¬ free → exec (.probeEntry n) s = .next s))
      ∧ (∀ light, x.safety ≠ .probe → exec (.probeTimeout n light) s = .next s)
      ∧ (x.safety = .probe → exec (.probeTimeout n false) s = .next (enterShutdown s n.val false) ∧ exec (.probeTimeout n true) s = .next (enterNormal s n.val))
      ∧ ((enterNormal s n.val).phe n.val).safety = .normal
      ∧ (∀ on, let u := s.setPhe n.val { x with forceOff := on }
        (on = true → x.safety = .normal ∨ x.safety = .probe → exec (.forceOff n on) s = .next (enterShutdown u n.val false))
          ∧ (on = false ∨ (x.safety ≠ .normal ∧ x.safety ≠ .probe) → exec (.forceOff n on) s = .next u))

/-! ## Output queues and gates, chapter 14 -/

/-- R515, R516, R521 to R524, R527 and R528: an item enters its queue when the policer passes it and there is room, waits when it is a SEND that finds none, and is discarded and counted otherwise; the control queue of a bond holds 262,144 bytes; the gate list starts over at each cycle start with a pending swap; a sample notes the depth and the head's age of every queue; settings of a queue that a plan uses are refused. Rests on the model's choices in assumption 131. -/
def Obligations.OutputQueues : Prop :=
  ∀ (s : State), Live s →
    (∀ (k : Fin 256) (it : ArriveItem),
      let q := s.queue k.val
      let i := itemOf it s.stn.step
      let tile := match it with | .tile _ _ _ => true | _ => false
      let fits := q.en = true ∧ q.bind = (if tile then 2 else 1) ∧ q.depth + i.len ≤ queueRoom s k.val
      (exec (.queueItemArrive (.num k) it) s = .next (arrive s k.val i tile).2)
        ∧ (q.polAct = 0 → fits → exec (.queueItemArrive (.num k) it) s = .next (enqueue (s.setQueue k.val q) k.val ⟨i, s.count, 0⟩))
        ∧ (q.polAct = 0 → ¬ fits → tile = true → exec (.queueItemArrive (.num k) it) s = .next s)
        ∧ (q.polAct = 0 → ¬ fits → tile = false → Answers (.queueItemArrive (.num k) it) s fun t =>
          t.queue k.val = { q with dropCount := bump q.dropCount 1 } ∧ t.sch.err = setErr s.sch.err 1 ∧ ∀ j, j ≠ k.val → t.queue j = s.queue j)
        ∧ (q.polAct = 2 → conforms (refill q.ptk q.pLast q.prate.toNat q.pburst.toNat s.count).1 (q.charge i.len) q.pburst.toNat = false →
          Answers (.queueItemArrive (.num k) it) s fun t => (t.queue k.val).items = q.items ∧ (t.queue k.val).polCount = bump q.polCount 1 ∧ t.sch.err = setErr s.sch.err 2))
      ∧ (∀ (b : Fin 16) (it : ArriveItem),
        let i := itemOf it s.stn.step
        (∀ f n d, it = .tile f n d → exec (.queueItemArrive (.ctl b) it) s = .next s)
          ∧ ((∀ f n d, it ≠ .tile f n d) → itemsLen (s.ctlQ b.val) + i.len ≤ 262144 → Answers (.queueItemArrive (.ctl b) it) s fun t =>
            t.ctlQ b.val = s.ctlQ b.val ++ [⟨i, s.count, 0⟩] ∧ (∀ c, c ≠ b.val → t.ctlQ c = s.ctlQ c))
          ∧ ((∀ f n d, it ≠ .tile f n d) → 262144 < itemsLen (s.ctlQ b.val) + i.len →
            exec (.queueItemArrive (.ctl b) it) s = .next { s with sch := { s.sch with ctlDrop := bump s.sch.ctlDrop 1, err := setErr s.sch.err 3 } }))
      ∧ (s.sch.gateEn = false → exec .gateCycleStart s = .next s)
      ∧ (s.sch.gateEn = true →
        let late := (s.trig 20).lastLate.toNat
        let fire := if late < max 1000 s.sch.gateCycle.toNat ∧ late < 0xFFFF then s.count - BitVec.ofNat 48 late else s.count
        exec .gateCycleStart s = .next { s with sch := { s.sch with lastFire := some fire, active := s.sch.active != s.sch.swapPending, swapPending := false } })
      ∧ (s.sch.swapPending = false → exec .gateSwap s = .next { s with sch := { s.sch with swapPending := true } })
      ∧ (s.sch.swapPending = true → exec .gateSwap s = .next { s with sch := { s.sch with err := setErr s.sch.err 0 } })
      ∧ (s.sch.gateEn = true → s.sch.lastFire = some s.count → gateOpen s s.count = BitVec.ofNat 8 ((gateEntry s s.sch.active 0).toNat >>> 24) ∨ (gateEntry s s.sch.active 0).toNat % 2 ^ 24 = 0)
      ∧ (s.sch.samplePeriod = 0 → exec .queueSample s = .next s)
      ∧ (s.sch.samplePeriod ≠ 0 → Answers .queueSample s fun t => t.sch.sampleSeq = s.sch.sampleSeq + 1
        ∧ (∀ j, j < 256 →
          let q := s.queue j
          let age := headAge s q
          t.queue j = { q with sampleDepth := BitVec.ofNat 32 q.depth, sampleDelay := age, maxDelay := if age.toNat < q.maxDelay.toNat then q.maxDelay else age }))
      ∧ (∀ (k : Fin 256) reg v, hasBudget s 0x02 k.val = true ∨ s.stn.admitting.isSome = true → exec (.queueCfgWrite k reg v) s = .next { s with sch := { s.sch with err := setErr s.sch.err 0 } })
      ∧ (∀ (k : Fin 256) (v : BitVec 32), hasBudget s 0x02 k.val = false → s.stn.admitting = none →
        let q := s.queue k.val
        exec (.queueCfgWrite k .mask v) s = .next (s.setQueue k.val { q with mask := v })
          ∧ exec (.queueCfgWrite k .weight v) s = .next (s.setQueue k.val { q with weight := v.setWidth 16 })
          ∧ exec (.queueCfgWrite k .srate v) s = .next (s.setQueue k.val { q with srate := v })
          ∧ exec (.queueCfgWrite k .sburst v) s = .next (s.setQueue k.val { q with sburst := v.setWidth 24 })
          ∧ exec (.queueCfgWrite k .prate v) s = .next (s.setQueue k.val { q with prate := v })
          ∧ exec (.queueCfgWrite k .pburst v) s = .next (s.setQueue k.val { q with pburst := v.setWidth 24 })
          ∧ Answers (.queueCfgWrite k .cfg v) s fun t => (t.queue k.val).cfg = v &&& queueCfgMask
            ∧ (v.getLsbD 31 = false → (t.queue k.val).items = [] ∧ (t.queue k.val).dropCount = bump q.dropCount q.items.length)
            ∧ (v.getLsbD 31 = true → (t.queue k.val).items = q.items)
            ∧ (v.getLsbD 31 = true → q.en = false → (t.queue k.val).stk = ((q.sburst.toNat <<< 16 : Nat) : Int) ∧ (t.queue k.val).ptk = ((q.pburst.toNat <<< 16 : Nat) : Int)))

/-! ## Sessions, chapter 15 -/

/-- R534, R537 to R539, R463, R465 and R565: an opening is refused for the first reason that applies or draws a nonce; a good proof opens the session at its level and clears the count of failures, a bad one is counted; an opening lapses, an idle session closes, and a closed session's mailboxes and areas are free; the host port answers for its own addresses and counts its link. Rests on the model's choices in assumptions 11, 91, 92, 93, 96. -/
def Obligations.Sessions : Prop :=
  ∀ (s : State), Live s →
    (s.hwk.running = false → ∀ m num hcs proof, exec (.open1 m) s = .next s ∧ exec (.open3 num hcs proof) s = .next s)
      ∧ (s.hwk.running = true → ∀ m : Open1,
        ((m.hcs ≠ 2 ∧ m.hcs ≠ 3) ∨ (m.method ≠ 1 ∧ m.method ≠ 2) → exec (.open1 m) s = .next (dropDatagram s))
          ∧ ((m.hcs = 2 ∨ m.hcs = 3) → (m.method = 1 ∨ m.method = 2) →
            (∀ st, openRefusal s m = some st → exec (.open1 m) s = .next (open4 s m.hcs 0 st []))
              ∧ (openRefusal s m = none → Answers (.open1 m) s fun t => ∃ k x, k < 8 ∧ s.session k = none ∧ t.session k = some x ∧ x.isOpen = false ∧ x.hcs = m.hcs ∧ x.method = m.method
                ∧ x.mask = m.mboxMask &&& ~~~heldMboxes s ∧ x.mask ≠ 0 ∧ x.num = t.hwk.lastNum ∧ x.hostKey = m.key ∧ x.hostNonce = padTo 0 32 m.hostNonce ∧ x.devNonce.length = 32 ∧ (∀ j, j ≠ k → t.session j = s.session j)
                ∧ t.out = s.out ++ [.host ([2, m.hcs] ++ beBytes 2 x.num.toNat ++ beBytes 2 x.mask.toNat ++ [0, 0] ++ padTo 0 32 m.hostNonce ++ x.devNonce)])))
      ∧ (∀ m : Open1, (s.slr.lockout ≠ 0 → openRefusal s m = some 1)
        ∧ (s.slr.lockout = 0 → (∀ k, k < 8 → s.session k ≠ none) → openRefusal s m = some 3)
        ∧ (s.slr.lockout = 0 → (∃ k, k < 8 ∧ s.session k = none) → m.mboxMask &&& ~~~heldMboxes s = 0 → openRefusal s m = some 2)
        ∧ (openRefusal s m = none → s.slr.lockout = 0 ∧ (m.method = 1 → s.slr.strip = 0) ∧ (m.hcs = 2 → m.method ≠ 2)))
      ∧ (s.hwk.running = true → ∀ num hcs proof,
        (sessionSlot s num = none → exec (.open3 num hcs proof) s = .next (dropDatagram s))
          ∧ (∀ k x, sessionSlot s num = some k → s.session k = some x →
            (x.isOpen = true ∨ x.hcs ≠ hcs → exec (.open3 num hcs proof) s = .next (dropDatagram s))
              ∧ (x.isOpen = false → x.hcs = hcs → s.slr.lockout ≠ 0 → exec (.open3 num hcs proof) s = .next (open4 (closeSession s k true) hcs num 1 []))
              ∧ (x.isOpen = false → x.hcs = hcs → s.slr.lockout = 0 → proofOk s x proof = false → exec (.open3 num hcs proof) s = .next (open4 (openFailed (closeSession s k true)) hcs num 4 []))
              ∧ (x.isOpen = false → x.hcs = hcs → s.slr.lockout = 0 → proofOk s x proof = true → x.method = 2 → Answers (.open3 num hcs proof) s fun t =>
                t.session k = some { x with isOpen := true, level := 1, sk := hmac ((passwordVerifier s).getD []) (labelSession ++ transcriptHash x), claiming := false } ∧ t.slr = { s.slr with fails := 0 })
              ∧ (x.isOpen = false → x.hcs = hcs → s.slr.lockout = 0 → proofOk s x proof = true → x.method = 1 →
                Answers (.open3 num hcs proof) s fun t => ∃ sk, sk.length = 32 ∧ t.session k = some { x with isOpen := true, level := 2, sk := sk, claiming := s.slr.store.isNone } ∧ t.slr = { s.slr with fails := 0 })))
      ∧ (∀ (x : Session) proof,
        (x.method = 1 → (proofOk s x proof = true ↔ proof.length = 384 ∧ signatureOk x.hostKey (sha256 (transcriptHash x)) proof = true
            ∧ (∀ o, s.slr.store = some o → o.sessHash.contains (sha256 x.hostKey) = true) ∧ s.slr.strip = 0 ∧ s.slr.idk.isSome = true))
          ∧ (x.method ≠ 1 → (proofOk s x proof = true ↔ ∃ v, passwordVerifier s = some v ∧ proof = hmac v (labelProof ++ transcriptHash x))))
      ∧ (let u := openFailed s
        u.slr.sessFail = bump s.slr.sessFail 1 ∧ (s.slr.fails ≠ 0xFFFF → u.slr.fails = s.slr.fails + 1) ∧ u.slr.err.getLsbD 3 = true
          ∧ (s.slr.fails.toNat < 4 → u.slr.lockout = s.slr.lockout) ∧ (s.slr.fails = 4 → u.slr.lockout = 60 ∧ u.slr.err.getLsbD 5 = true) ∧ (s.slr.fails = 5 → u.slr.lockout = 120)
          ∧ (11 ≤ s.slr.fails.toNat → u.slr.lockout = 3600))
      ∧ (∀ num, sessionSlot s num = none → exec (.openLapse num) s = .next s ∧ exec (.sessionIdleTimeout num) s = .next s)
      ∧ (∀ num k x, sessionSlot s num = some k → s.session k = some x →
        (x.isOpen = false → exec (.openLapse num) s = .next (closeSession s k true) ∧ exec (.sessionIdleTimeout num) s = .next s)
          ∧ (x.isOpen = true → exec (.openLapse num) s = .next s ∧ exec (.sessionIdleTimeout num) s = .next (closeSession s k false)))
      ∧ (∀ k x by_, s.session k = some x → x.isOpen = false → let t := closeSession s k by_
        t.session k = none ∧ (∀ j, j ≠ k → t.session j = s.session j) ∧ (∀ m, m < 16 → x.mask.getLsbD m = true → t.mbox m = {}) ∧ t.hwk.stage1 ≠ some x.num ∧ t.hwk.stage2 ≠ some x.num ∧ t.lth = s.lth)
      ∧ (∀ m, s.hwk.running = false → exec (.neighborDiscovery m) s = .next s)
      ∧ (∀ target src, s.hwk.running = true → exec (.neighborDiscovery (.solicit target src)) s = .next (if ownAddress s target then emit s (.neighborAdvert target src Config.macAddress) else dropDatagram s))
      ∧ (∀ src data, s.hwk.running = true → exec (.neighborDiscovery (.echo src data)) s = .next (emit s (.echoReply src data)))
      ∧ (s.hwk.running = true → exec (.neighborDiscovery .other) s = .next (dropDatagram s))
      ∧ (∀ lost, Answers (.hostPortLinkChange lost) s fun t => t.hwk.linkUp = !lost
        ∧ (lost = true → (t.part 0x7000).defect = bump (s.part 0x7000).defect 1) ∧ (lost = false → (t.part 0x7000).retrain = bump (s.part 0x7000).retrain 1))

/-! ## The ledger and the fault manager, chapter 16 -/

/-- R563 to R582: LIFE_S counts seconds of running firmware; counters enter the ledger by their increase; entries and records go to flash when their write reads back, and not while the supply warns; an evaluation gives every part its score; RETIRE, TOLERATE and RESTORE are refused for the reasons listed, and act otherwise. Rests on the model's choices in assumptions 35, 110, 111, 112, 113. -/
def Obligations.LedgerAndFaults : Prop :=
  ∀ (s : State), Live s →
    (s.hwk.running = false → exec .lifeSTick s = .next s ∧ (∀ c u, exec (.ledgerPoll c u) s = .next s) ∧ exec .scoreEval s = .next s ∧ ∀ ok, exec (.journalFlush ok) s = .next s ∧ exec (.flush ok) s = .next s ∧ exec (.summaryWrite ok) s = .next s)
      ∧ (s.hwk.running = true → Answers .lifeSTick s fun t => t.sng.lifeS = s.sng.lifeS + 1 ∧ t.slr.lockout = (if s.slr.lockout = 0 then 0 else s.slr.lockout - 1)
        ∧ ((s.sng.lifeS + 1).toNat % 3600 ≠ 0 → t.sng.parts = s.sng.parts))
      ∧ (s.hwk.running = true → (∀ c u, exec (.ledgerPoll c u) s = .next (partErrors (pollAll s) (partId 7 0) c.toNat u.toNat)) ∧ exec .scoreEval s = .next (allParts.foldl evalPart s))
      ∧ (∀ part key v, let c := readCounter s part key v
        c.1 = (if v < Tab.get 0 s.sng.lastRead key then v else v - Tab.get 0 s.sng.lastRead key) ∧ Tab.get 0 c.2.sng.lastRead key = v
          ∧ (v = 0xFFFFFFFF → 0 < c.1 → (c.2.part part.toNat).saturated = true ∧ c.2.sng.err.getLsbD 4 = true))
      ∧ (∀ p, p < 0x8000 → ((evalPart s p).part p).score = BitVec.ofNat 8 (partScore s p) ∧ (recommends (s.setPart p { s.part p with score := BitVec.ofNat 8 (partScore s p), recommended := (s.part p).recommended && decide (partScore s p < s.sng.softT.toNat) }) p (partScore s p) = true →
        ((evalPart s p).part p).recommended = true ∧ (evalPart s p).sng.recoCount = bump s.sng.recoCount 1))
      ∧ (s.hwk.running = true → s.pwr.supplyWarn = false →
        (s.sng.pend ≠ [] → exec (.journalFlush true) s = .next { s with sng := { s.sng with journal := trimJournal (s.sng.journal ++ s.sng.pend), pend := [], flushing := false } }
            ∧ exec (.flush true) s = exec (.journalFlush true) s)
          ∧ (s.sng.pend ≠ [] → exec (.journalFlush false) s = .next { s with sng := { s.sng with err := setErr s.sng.err 6, flushing := false } } ∧ exec (.flush false) s = exec (.journalFlush false) s)
          ∧ (s.sng.flushing = false → exec (.summaryWrite true) s = .next { s with sng := { s.sng with saved := s.sng.parts, savedS := s.sng.lifeS } }
            ∧ exec (.summaryWrite false) s = .next { s with sng := { s.sng with err := setErr s.sng.err 6 } }))
      ∧ (s.pwr.supplyWarn = true → s.sng.flushing = false → ∀ ok, exec (.journalFlush ok) s = .next s ∧ exec (.flush ok) s = .next s ∧ exec (.summaryWrite ok) s = .next s)
      ∧ (∀ (r : MboxRec) (i : Nat) (x : Session) (sel : BitVec 8) (part count : BitVec 16) (q : BitVec 64), Accepted s r (needs 0x0060 false true [rdySng]) ([sel, 0] ++ beBytes 2 part.toNat ++ beBytes 2 count.toNat ++ [0, 0] ++ beBytes 8 q.toNat) i x →
        let u := begun s r 0x0060 ([sel, 0] ++ beBytes 2 part.toNat ++ beBytes 2 count.toNat ++ [0, 0] ++ beBytes 8 q.toNat) i x
        (2 < sel.toNat → exec (.ledgerRead r sel part count q) s = .next (respond u r 0x0060 stBadArg [0]))
          ∧ (sel.toNat ≤ 2 → count = 0 ∨ 128 < count.toNat → exec (.ledgerRead r sel part count q) s = .next (respond u r 0x0060 stBadArg [4]))
          ∧ (sel.toNat ≤ 2 → count ≠ 0 → count.toNat ≤ 128 → sel ≠ 1 ∨ entriesHeld s ≠ [] →
            let d := ledgerData u sel part count q
            exec (.ledgerRead r sel part count q) s
              = .next (respond (u.setSession i (some { x with lastSeq := some r.seq, area3 := Mem.write x.area3 0 d.1 })) r 0x0060 stOk (beBytes 4 d.1.length ++ beBytes 4 (crc32c d.1).toNat ++ beBytes 8 d.2.toNat ++ pressureRecord u true)))
          ∧ (sel = 1 → count ≠ 0 → count.toNat ≤ 128 → entriesHeld s = [] → Answers (.ledgerRead r sel part count q) s fun t => t.fresh = s.fresh + 1 ∧ (t.mbox r.mbox.val).running = none))
      ∧ (∀ (r : MboxRec) (i : Nat) (x : Session) (part : BitVec 16) (q : BitVec 64) (kind : Nat), Accepted s r fmNeeds (fmArgs kind part q) i x →
        let p := part.toNat
        let st := (s.part p).st
        let u := begun s r 0x0061 (fmArgs kind part q) i x
        (kind = 1 → (retirable p = false → exec (.fmRetire r part q) s = .next (fmRefuse u r 4))
          ∧ (retirable p = true → 2 ≤ st.toNat → exec (.fmRetire r part q) s = .next (fmRefuse u r 8))
          ∧ (retirable p = true → st.toNat < 2 → p / 4096 = 1 → (s.eng (p % 4096)).st ≠ .idle → (s.eng (p % 4096)).st ≠ .fault → exec (.fmRetire r part q) s = .next (fmRefuse u r 3))
          ∧ (retirable p = true → st.toNat < 2 → p / 4096 = 1 → (s.eng (p % 4096)).st = .idle ∨ (s.eng (p % 4096)).st = .fault → Answers (.fmRetire r part q) s fun t =>
            (t.part p).st = 2 ∧ (t.eng (p % 4096)).st = .offline ∧ t.sng.softCount = bump s.sng.softCount 1 ∧ (t.mbox r.mbox.val).running = none)
          ∧ (∀ b pos, retirable p = true → st.toNat < 2 → p / 4096 = 3 → laneBond s (p % 4096) = some (b, pos) →
            (s.mnd.move.isSome = true → exec (.fmRetire r part q) s = .next (fmRefuse u r 7))
              ∧ (s.mnd.move = none → floorHolds s p = true → Answers (.fmRetire r part q) s fun t => (t.part p).st = 1 ∧ (t.part p).tolCode = 1 ∧ t.sng.refusedCount = bump s.sng.refusedCount 1)
              ∧ (s.mnd.move = none → floorHolds s p = false → capHolds s p = true → Answers (.fmRetire r part q) s fun t => (t.part p).st = 1 ∧ (t.part p).tolCode = 2 ∧ t.sng.refusedCount = bump s.sng.refusedCount 1)))
          ∧ (kind = 2 → (partExists p = false → exec (.fmTolerate r part q) s = .next (fmRefuse u r 4))
          ∧ (partExists p = true → st ≠ 0 → exec (.fmTolerate r part q) s = .next (fmRefuse u r 8))
          ∧ (partExists p = true → st = 0 → Answers (.fmTolerate r part q) s fun t => (t.part p).st = 1 ∧ (t.part p).tolCode = 0 ∧ t.sng.err.getLsbD 2 = true ∧ (t.mbox r.mbox.val).running = none))
          ∧ (kind = 3 → (partExists p = false → exec (.fmRestore r part q) s = .next (fmRefuse u r 4))
          ∧ (partExists p = true → st = 3 ∨ st = 4 ∨ (st = 2 ∧ (dfbOf p).isSome = true) → exec (.fmRestore r part q) s = .next (fmRefuse u r 5))
          ∧ (partExists p = true → st = 0 ∨ st = 1 ∨ st = 5 → exec (.fmRestore r part q) s = .next (fmRefuse u r 8))
          ∧ (st = 2 → p / 4096 = 1 → partExists p = true → exec (.fmRestore r part q) s = .next (fmOk (engOnline (journal (setPartSt u part 0) 0x0B part [2]) (p % 4096)) r part))
          ∧ (st = 2 → p / 4096 = 3 → partExists p = true → s.mnd.move.isSome = true → exec (.fmRestore r part q) s = .next (fmRefuse u r 7))))

/-! ## Resets, recovery and power, chapters 15 and 17 -/

/-- R445, R556, R557 and R603 to R608: a RESET command is answered, saves the ledger and resets what its kind resets; firmware starts from an image that passes and brings the other functions up, or the primer ROM is in recovery, where it tells of itself and takes an image. Rests on the model's choices in assumptions 11, 98, 100, 115, 116, 117, 118, 119, 138, 182, 183. -/
def Obligations.ResetsAndStart : Prop :=
  ∀ (s : State), Live s →
    (∀ (r : MboxRec) (i : Nat) (x : Session) (kind : Nat), Accepted s r (needs 0x0071 true false []) [BitVec.ofNat 8 kind] i x →
      let u := begun s r 0x0071 [BitVec.ofNat 8 kind] i x
      let saved := noteReset (saveLedger (respond u r 0x0071 stOk []) kind) kind
      (s.hwk.updating.isSome = true → (kind = 1 → exec (.resetDevice r) s = .next (respond u r 0x0071 stMboxBusy [])) ∧ (kind = 2 → exec (.resetFirmware r) s = .next (respond u r 0x0071 stMboxBusy []))
          ∧ (kind = 3 → exec (.resetDatapath r) s = .next (respond u r 0x0071 stMboxBusy [])))
        ∧ (s.hwk.updating = none → (kind = 1 → exec (.resetDevice r) s = .next (bringUp (settleLevel (coldState saved saved.pwr true))))
          ∧ (kind = 2 → exec (.resetFirmware r) s = .next (stopHawk (datapathReset saved true)))
          ∧ (kind = 3 → exec (.resetDatapath r) s = .next (reclaimAll (raiseReady (datapathReset saved false) s.slr.idk s.slr.ktk))))
        ∧ (saved.sng.pend = [] ∧ saved.sng.saved = saved.sng.parts ∧ saved.pwr.causeSource = 3 ∧ saved.pwr.resetCount = bump s.pwr.resetCount 1))
      ∧ (∀ fw, let t := datapathReset s fw
        t.engines = [] ∧ t.skm = {} ∧ t.clc = {} ∧ t.se = {} ∧ t.sch = {} ∧ t.mnd = {} ∧ t.stn.cur = none ∧ t.stn.next = none ∧ t.lth.owners = s.lth.owners ∧ t.lth.leg = s.lth.leg ∧ t.lth.fence = none
          ∧ t.hbm = s.hbm ∧ t.phn = s.phn ∧ t.plb.time = s.plb.time ∧ t.slr.lockout = s.slr.lockout ∧ t.slr.strip = s.slr.strip ∧ t.slr.xts = s.slr.xts ∧ t.slr.idk = none ∧ t.slr.ktk = none ∧ t.slr.bonds = []
          ∧ t.sng.parts = s.sng.parts ∧ t.sng.lifeS = s.sng.lifeS ∧ t.hwk.sessions = [] ∧ t.hwk.stage1 = none ∧ t.hwk.stage2 = none ∧ t.top.trw = 0 ∧ t.top.far = 0)
      ∧ (∀ p link, let t := coldState s p link
        t.hbm = {} ∧ t.lth = {} ∧ t.plb = {} ∧ t.engines = [] ∧ t.stn = {} ∧ t.slr.lockout = 0 ∧ t.slr.fails = 0 ∧ t.slr.strip = 0 ∧ t.slr.ownerHash = s.slr.ownerHash ∧ t.slr.minSvn = s.slr.minSvn ∧ t.slr.store = s.slr.store
          ∧ t.sng.journal = s.sng.journal ∧ t.sng.saved = s.sng.saved ∧ t.sng.retol = s.sng.retol ∧ t.sng.softT = s.sng.softT ∧ t.hwk.sessions = [] ∧ t.hwk.running = false ∧ t.top = {} ∧ t.hwk.addrs = s.hwk.addrs ∧ t.pwr = p)
      ∧ (∀ im ok, isUp s = false ∨ s.hwk.running = true → exec (.hawkStart im ok) s = .next s)
      ∧ (∀ im ok, isUp s = true → s.hwk.running = false →
        let y := match s.hwk.nor with | some z => z.getD noImage | none => im
        (∀ c, imageRefusal s y = some c → exec (.hawkStart im ok) s = .next { s with hwk := { s.hwk with recovery := some c } })
          ∧ (imageRefusal s y = none → exec (.hawkStart im ok) s = .next (startHawk s y ok)))
      ∧ (∀ im ok, let t := startHawk s im ok
        t.hwk.running = true ∧ t.hwk.recovery = none ∧ t.hwk.fwVersion = some im.version ∧ t.hwk.fwArith = some im.arith ∧ t.top.asig = some (asigOf im.arith) ∧ t.top.ready.getLsbD rdyHwk = true ∧ t.top.ready.getLsbD rdySng = true
          ∧ (∀ p ∈ ok.damaged, partExists p.toNat = true → ((t.part p.toNat).damaged = true ∧ t.sng.err.getLsbD 3 = true))
          ∧ (s.slr.gateClosed = false → identityOk s ok.idRecord = true → t.slr.idk = some ⟨slice ok.idRecord 48 388, Config.idkSecret⟩ ∧ t.slr.ktk = some ⟨slice ok.idRecord 436 388, Config.ktkSecret⟩)
          ∧ (identityOk s ok.idRecord = false → t.slr.idk = none ∧ t.slr.ktk = none ∧ t.top.ready.getLsbD rdySlr = false)
          ∧ ((minSvnNow s).toNat < im.floor.toNat → t.slr.minSvn = some (BitVec.ofNat 8 (min 63 im.floor.toNat)))
          ∧ ∀ n, n < 8 → (t.phe n).safety = (if (s.phe n).safety = .off then .shutdown else (s.phe n).safety))
      ∧ (∀ im, (imageRefusal s im = none ↔ im.present = true ∧ imageSigned s im = true ∧ (minSvnNow s).toNat ≤ im.svn.toNat ∧ im.part = 0x9640))
      ∧ (inRecovery s = false → ∀ off bs len crc im ok, exec .recoverInfo s = .next s ∧ exec (.recoverWrite off bs) s = .next s ∧ exec (.recoverDone len crc im ok) s = .next s)
      ∧ (inRecovery s = true →
        exec .recoverInfo s = .next (emit s (.host (([0x31, 0, 0, 0] : List Byte) ++ topIdBytes ++ beBytes 16 Config.deviceId.toNat ++ [minSvnNow s, s.hwk.recovery.getD 0])))
          ∧ (∀ off bs, 4 ≤ bs.length → bs.length ≤ 8192 → exec (.recoverWrite off bs) s = .next { s with hwk := { s.hwk with recoverBuf := Mem.write s.hwk.recoverBuf off.toNat bs, nor := none } })
          ∧ (∀ off bs, bs.length < 4 ∨ 8192 < bs.length → exec (.recoverWrite off bs) s = .next s)
          ∧ (∀ len crc given ok,
            let im := imageIn (Mem.read s.hwk.recoverBuf 0 len.toNat) given
            let good := crc32c (Mem.read s.hwk.recoverBuf 0 len.toNat) = crc
            let u := { s with hwk := { s.hwk with nor := some (some im) } }
            (¬ good → exec (.recoverDone len crc given ok) s = .next (recoverResult s 1))
              ∧ (∀ c, good → imageRefusal s im = some c → exec (.recoverDone len crc given ok) s = .next (recoverResult u (if c = 1 then 2 else c)))
              ∧ (good → imageRefusal s im = none → exec (.recoverDone len crc given ok) s = .next (startHawk (recoverResult u 0) im ok))))

/-- R598 to R602, R606, R610 to R613 and R616: power-up, the reset pin and a brown-out leave the same cold device; a supply warning flushes the ledger once; temperatures call for levels, which act at once while no plan runs, and trip the device when a stack reaches 97 °C. R626: the test access port serves at all times: IDCODE gives the device's identity, bit 0 first; BYPASS delays by one bit; a private instruction acts as BYPASS unless the device has been stripped; none of them touches anything but the port. Rests on the model's choices in assumptions 114, 120, 121, 122, 123, 124, 127, 133, 134. -/
def Obligations.PowerAndTestPort : Prop :=
  (∀ (s : State), Live s →
    let cause := fun (n : Nat) (p : Pwr) => { p with supplyWarn := s.pwr.supplyWarn, causeSource := BitVec.ofNat 2 n, resetCount := 1 }
    exec (.powerOn false) s = .next { coldState s (cause 0 { railsGood := true }) false with tap := {} }
      ∧ exec (.powerOn true) s = .next (coldState s (cause 1 { railsGood := s.pwr.railsGood, brownHold := s.pwr.brownHold }) false)
      ∧ (s.pwr.resetN = false → exec .brownOut s = .next s)
      ∧ (s.pwr.resetN = true → exec .brownOut s = .next (coldState s (cause 2 { resetN := true, brownHold := true }) false))
      ∧ (s.pwr.brownHold = false → exec .brownOutEnd s = .next s)
      ∧ (s.pwr.brownHold = true → Answers .brownOutEnd s fun t => t.pwr = { s.pwr with brownHold := false, railsGood := true } ∧ (s.pwr.resetN = true → t.slr.drbg = true ∧ t.slr.trngOk = 0xF))
      ∧ (s.pwr.resetN = true ∨ (s.pwr.railsGood = false ∧ s.pwr.brownHold = false) → exec .resetNRise s = .next s)
      ∧ (s.pwr.resetN = false → s.pwr.railsGood = true ∨ s.pwr.brownHold = true → Answers .resetNRise s fun t => t.pwr = { s.pwr with resetN := true } ∧ (s.pwr.brownHold = false → t.slr.drbg = true ∧ t.slr.trngOk = 0xF))
      ∧ exec .powerRemoved s = .next { coldState s {} false with tap := {} }
      ∧ (∀ inTime, s.pwr.supplyWarn = true → exec (.supplyWarnAssert inTime) s = .next s)
      ∧ (∀ inTime, s.pwr.supplyWarn = false → Answers (.supplyWarnAssert inTime) s fun t => t.pwr.supplyWarn = true ∧ t.pwr.err = setErr s.pwr.err 2 ∧ t.pwr.supplyWarnCount = bump s.pwr.supplyWarnCount 1
        ∧ (s.hwk.running = false → t.sng = s.sng)
        ∧ (s.hwk.running = true → s.sng.flushing = false → inTime = true → t.sng.pend = [] ∧ (s.sng.journal.length + s.sng.pend.length < 3674112 → ∃ e, t.sng.journal = s.sng.journal ++ s.sng.pend ++ [e] ∧ e.type = 0x10))
        ∧ (s.hwk.running = true → s.sng.flushing = false → inTime = false → t.sng.journal = s.sng.journal ∧ t.sng.flushing = true ∧ t.sng.flushLate = true)
        ∧ (s.hwk.running = true → s.sng.flushing = false → s.hwk.updating.isSome = true → t.hwk.updating = none ∧ t.hwk.nor = some none))
      ∧ exec .supplyWarnRelease s = .next { s with pwr := { s.pwr with supplyWarn := false } }
      ∧ (∀ o, (∃ k, k < 32 ∧ 97 ≤ o.stack.getD k 0) → Answers (.tempSample o) s fun t => t.pwr.tripped = true)
      ∧ (∀ o, Answers (.tempSample o) s fun t => t.pwr.tripped = false → ∀ k, k < 32 → (t.stack k).temp = BitVec.ofNat 8 (byteOf (o.stack.getD k 0)) ∧ o.stack.getD k 0 < 97)
      ∧ (∀ die stack, (calledLevel die stack = 3 ↔ 103 ≤ die ∨ 93 ≤ stack) ∧ (2 ≤ calledLevel die stack ↔ 100 ≤ die ∨ 90 ≤ stack) ∧ (1 ≤ calledLevel die stack ↔ 95 ≤ die ∨ 85 ≤ stack))
      ∧ (∀ l, l ≤ 3 → s.stn.place ≠ .running → (callLevel s l).pwr.level.toNat = max (minLevelActs s) (max l s.pwr.applied.toNat))
      ∧ (s.pwr.cool = false ∨ (s.stn.place = .running ∧ s.pwr.level = 3) → exec .throttleHoldExpire s = .next s)
      ∧ (s.pwr.cool = true → s.stn.place = .running → s.pwr.level ≠ 3 → exec .throttleHoldExpire s = .next { s with pwr := { s.pwr with applied := s.pwr.asked } })
      ∧ (s.pwr.cool = true → s.stn.place ≠ .running → Answers .throttleHoldExpire s fun t => t.pwr.applied = s.pwr.asked ∧ t.pwr.level.toNat = max (minLevelActs s) s.pwr.asked.toNat)
      ∧ (∀ v : BitVec 32, s.stn.place = .running → exec (.minLevelWrite v) s = .next { s with pwr := { s.pwr with minLevel := BitVec.ofNat 2 (v.toNat / 4) } })
      ∧ (∀ v : BitVec 32, s.stn.place ≠ .running → Answers (.minLevelWrite v) s fun t => t.pwr.level.toNat = max (min 2 (v.toNat / 4 % 4)) s.pwr.applied.toNat))
    ∧ (∀ (s : State),
      (Answers .idcode s fun t => t.tap.tdo.length = 32 ∧ (∀ k, k < 32 → t.tap.tdo.getD k false = (0x196404B7#32).getLsbD k) ∧ t.tap.instr = .idcode ∧ { t with tap := s.tap } = s)
        ∧ (∀ tdi, Answers (.bypass tdi) s fun t => t.tap.tdo.length = tdi.length ∧ (0 < tdi.length → t.tap.tdo.getD 0 true = false) ∧ (∀ k, k + 1 < tdi.length → t.tap.tdo.getD (k + 1) true = tdi.getD k true)
          ∧ t.tap.instr = .bypass ∧ { t with tap := s.tap } = s)
        ∧ (∀ cells drive, exec (.jtagBoundaryScan cells drive) s = .next { s with fresh := s.fresh + 1, tap := { s.tap with instr := .boundary, drive := drive, tdo := (List.range cells).map fun i => (freeNat s).testBit i } })
        ∧ (∀ tdi, s.slr.strip ≠ 2 → exec (.jtagPrivate tdi) s = exec (.bypass tdi) s)
        ∧ (∀ tdi, s.slr.strip = 2 → Answers (.jtagPrivate tdi) s fun t => t.tap.instr = .priv ∧ t.tap.tdo.length = tdi.length ∧ { t with tap := s.tap, fresh := s.fresh } = s))

/-! ## Registers, and the machine as a whole -/

/-- R5, R6, R115, R146, R313 and R566: a refused access changes nothing; a low word that is read holds the register's higher words; CLR_COUNTS of each block sets its counters to 0 and changes nothing else of the block, and the ledger takes what it counts before they go. Rests on the model's choices in assumptions 102, 103. -/
def Obligations.Registers : Prop :=
  ∀ (s : State), Live s →
    (∀ a v : BitVec 32, (locate a = none → exec (.csrWrite a v) s = .next s ∧ exec (.wideRegisterLowRead a) s = .next s) ∧ (locate a = none ↔ writeWord s a v = none))
      ∧ (∀ (a v : BitVec 32) b off, locate a = some (b, off) → wideOf s b off = none → exec (.csrWrite a v) s = .next (plainWrite s b off v) ∧ exec (.wideRegisterLowRead a) s = .next s)
      ∧ (∀ (a v : BitVec 32) b off w i, locate a = some (b, off) → wideOf s b off = some (w, i) →
        (i + 1 < w.words → exec (.csrWrite a v) s = .next (if wideRw b off then { s with wstage := Tab.put none s.wstage a.toNat (some v) } else s))
          ∧ (i + 1 = 2 → w.words = 2 → exec (.csrWrite a v) s = .next (wideWrite { s with wstage := Tab.put none s.wstage (a.toNat - 4) none } b (off - 4)
            (((Tab.get none s.wstage (a.toNat - 4)).getD (word32 w.value 0)).toNat + 2 ^ 32 * v.toNat)))
          ∧ (i ≠ 0 → exec (.wideRegisterLowRead a) s = .next s)
          ∧ (i = 0 → a ≠ 0x10010 → Answers (.wideRegisterLowRead a) s fun t => { t with captures := s.captures } = s ∧ (∀ k, 1 ≤ k → k < w.words → Tab.get none t.captures (a.toNat + 4 * k) = some (word32 w.value k))))
      ∧ exec .skmClrCounts s = .next { s with skm := { s.skm with dropCount := 0, epochDropCount := 0, clampCount := 0, rawCount := 0, poisonCount := 0 } }
      ∧ exec .stnClrCounts s = .next { s with stn := { s.stn with slotLate := 0, stepLate := 0 } }
      ∧ exec .clcClrCounts s = .next { s with clc := { s.clc with sealCount := 0, abortCount := 0, lateCount := 0, ctlDrop := 0 } }
      ∧ exec .seClrCounts s = .next { s with se := { s.se with slotCount := 0, unchecked := 0, addrLost := 0 } }
      ∧ exec .clrCapture s = .next { s with se := { s.se with cap := none } }
      ∧ exec .plbClrCounts s = .next { s with plb := { s.plb with stepCount := 0, switchCount := 0, outlierCount := 0, trigSkip := 0 } }
      ∧ exec .lthClrCounts s = .next { s with lth := { s.lth with doubleFree := 0, notOwner := 0, fallback := 0, reclaim := 0 } }
      ∧ exec .sngClrCounts s = .next { s with sng := { s.sng with recoCount := 0, softCount := 0, hardCount := 0, refusedCount := 0 } }
      ∧ exec .pwrClrCounts s = .next { s with pwr := { s.pwr with throttleCount := 0, emergencyCount := 0, supplyWarnCount := 0, resetCount := 0 } }
      ∧ (∀ n : Fin 8, exec (.phnClrCounts n) s = .next (s.setPhe n.val { s.phe n.val with wrongLock := 0, swaps := 0, eyes := 0, discards := 0, fenceSat := 0 }))
      ∧ (∀ k : Fin 32, exec (.clrUeAddr k) s = .next (s.setStack k.val { s.stack k.val with ueAddr := none }))
      ∧ (Answers .slrClrCounts s fun t => t.slr.sessFail = 0 ∧ t.slr.recFail = 0 ∧ t.slr.keyLoads = 0 ∧ t.slr.trngFail = 0 ∧ (∀ b, b < 16 → t.sbond b = { s.sbond b with authFail := 0, replay := 0, noKey := 0, switches := 0 })
        ∧ { t with slr := s.slr } = s ∧ t.slr.lockout = s.slr.lockout ∧ t.slr.strip = s.slr.strip)
      ∧ (Answers .clrMax s fun t => (∀ q, q < 256 → t.queue q = { s.queue q with maxDelay := 0 }) ∧ { t with sch := s.sch } = s)
      ∧ (Answers .schClrCounts s fun t => t.sch.ctlDrop = 0 ∧ (∀ q, q < 256 → t.queue q = { s.queue q with sentCount := 0, dropCount := 0, polCount := 0 }) ∧ { t with sch := s.sch } = s)
      ∧ (Answers .mndClrCounts s fun t => (∀ g, g < 128 → t.mlane g = { s.mlane g with maxSym := 0, corrSym := 0, corrCw := 0, uncorrCw := 0, highSym := 0, loaCount := 0 })
        ∧ (∀ b, b < 16 → t.mbond b = { s.mbond b with recovered := 0, lost := 0, synd := 0, req := 0, resent := 0, gone := 0, giveup := 0, evict := 0, dup := 0 }) ∧ { t with mnd := s.mnd, sng := s.sng } = s)
      ∧ (∀ p : Fin 16, Answers (.rndClrCounts p) s fun t =>
        (∀ l, l < 8 → t.lane (8 * p.val + l) = { s.lane (8 * p.val + l) with oofCount := 0, ohcrcCount := 0, lateCount := 0, rangeCount := 0, falseCount := 0 })
          ∧ t.bond p.val = { s.bond p.val with pchTrunc := 0 } ∧ (∀ g, g / 8 ≠ p.val → t.lane g = s.lane g) ∧ { t with rnd := s.rnd, sng := s.sng } = s)
      ∧ (∀ e : Fin 64, Answers (.engClrCounts e) s fun t =>
        t.eng e.val = { (s.eng e.val).countWaits s with satCount := 0, laCeCount := 0, arriveCrcCount := 0, waitCount := 0, waitCycles := 0 } ∧ (∀ d, d ≠ e.val → t.eng d = s.eng d) ∧ { t with engines := s.engines, sng := s.sng } = s
          ∧ (Tab.get 0 s.sng.lastRead (0x40000 + e.val * 0x1000 + 0x28) = 0 → Tab.get 0 s.sng.lastRead (0x40000 + e.val * 0x1000 + 0x24) = 0 →
            (t.part (0x1000 + e.val)).corr.toNat = min (2 ^ 64 - 1) ((s.part (0x1000 + e.val)).corr.toNat + (s.eng e.val).laCeCount.toNat)
              ∧ (t.part (0x1000 + e.val)).retry = bump (s.part (0x1000 + e.val)).retry (s.eng e.val).arriveCrcCount.toNat))
      ∧ (∀ k : Fin 32, Answers (.hbmClrCounts k) s fun t => t.stack k.val = { s.stack k.val with ce := 0, ue := 0, odecc := 0, patrol := 0 } ∧ (∀ d, d ≠ k.val → t.stack d = s.stack d) ∧ t.hbm.bytes = s.hbm.bytes ∧ { t with hbm := s.hbm, sng := s.sng } = s)
      ∧ (Answers .hwkClrCounts s fun t => t.hwk = { s.hwk with cmdCount := 0, refusedCount := 0, dropCount := 0 } ∧ { t with hwk := s.hwk, sng := s.sng } = s)

/-- One step takes the command at the front of the queue and is that command's effect on the state with the rest of the queue; on an empty queue one nanosecond of Plumb time passes unless a reset holds it. Rests on the model's choices in assumptions 1, 3. -/
def Obligations.StepRunsFront : Prop :=
  (∀ (c : Instr) (rest : List Instr) (s : State), s.pending = c :: rest → step s = exec c { s with pending := rest })
    ∧ (∀ (s : State), s.pending = [] → step s = .next (plumbTick s))
    ∧ (∀ (s : State), isUp s = false → plumbTick s = s)
    ∧ (∀ (s : State), isUp s = true → s.plb.stepAsked = false → (plumbTick s).plb.time = (s.plb.time + 65536) % (2 ^ 48 * 65536000000000))

/-- R613 and R628: once the device has tripped it stays tripped whatever it is sent, until power is removed: no step changes anything but Plumb's time and triggers, the queue of commands and the test access port; the removal of power ends the trip, and TRST_N touches the port alone. Rests on the model's choices in assumption 20. -/
def Obligations.TripLatch : Prop :=
  let Inv : State → Prop := fun s => s.pwr.tripped = true ∧ .powerRemoved ∉ s.pending
  (∀ s t : State, Inv s → step s = .next t → Inv t ∧ { t with pending := s.pending, plb := s.plb, tap := s.tap, fresh := s.fresh, phn := { t.phn with holdNs := s.phn.holdNs } } = s)
    ∧ (∀ s : State, Inv s → ∃ t, step s = .next t)
    ∧ (∀ s : State, Answers .powerRemoved s fun t => t.pwr = {} ∧ t.pwr.tripped = false)
    ∧ (∀ s : State, exec .tapReset s = .next { s with tap := {} })

/-- R496 and R497: while EYE_INTERLOCK_N is high no photonic engine is lit. Every step keeps this, from every state in which it holds, and it holds after reset. -/
def Obligations.EyeSafety : Prop :=
  let Inv : State → Prop := fun s => s.phn.interlock = true → ∀ n, n < 8 → (s.phe n).safety = .off ∨ (s.phe n).safety = .shutdown
  (∀ s t : State, Inv s → step s = .next t → Inv t) ∧ Inv State.reset

/-- R9 and the Reset columns of the register tables: what the device holds right after reset. Rests on the model's choices in assumptions 7, 8, 173. -/
def Obligations.AfterReset : Prop :=
  let s := State.reset
  s.pending = [] ∧ s.stn.place = .none ∧ s.stn.cur = none ∧ s.stn.next = none ∧ (∀ e, e < 64 → (s.eng e).idxb = 0 ∧ (s.eng e).err = 0 ∧ (s.eng e).pc = 0)
    ∧ s.top.ready = 0 ∧ s.top.drop = 0 ∧ s.plb.st = .freerun ∧ (∀ k, k < 32 → (s.stack k).st = 0 ∧ (s.stack k).err = 0) ∧ s.lth.owners = [] ∧ (∀ b, b < 16 → (s.bond b).en = false ∧ (s.mbond b).txSeq = 0)
    ∧ s.slr.overlap = 28 ∧ s.slr.strip = 0 ∧ (∀ n, n < 8 → (s.phe n).safety = .off) ∧ s.hwk.mboxPort = 50960 ∧ s.hwk.bulkPort = 50961 ∧ s.sng.retol = 32 ∧ s.sng.softT = 96 ∧ s.pwr.level = 0 ∧ s.pwr.tripped = false
    ∧ Mem.wf s.hbm.bytes = true
end

