-- ==== Sys2Proof/Laws/Tab.lean ====
section
/-! SUPPORT. Laws of the sparse arrays and memories of Machine/Tab.lean: a read after a write, writes elsewhere, and the canonical form. -/

namespace Sys2Proof

variable {α : Type}

/-! ## Reading -/

theorem Tab.get_append (d : α) (a b : Tab α) (k : Nat) (h : ∀ p ∈ a, p.1 ≠ k) : Tab.get d (a ++ b) k = Tab.get d b k := by
  induction a with
  | nil => rfl
  | cons p r ih =>
    obtain ⟨j, v⟩ := p
    have hj : j ≠ k := h (j, v) (by simp)
    simp only [List.cons_append, Tab.get, hj, if_false]
    exact ih fun p hp => h p (by simp [hp])

theorem Tab.get_absent (d : α) (t : Tab α) (k : Nat) (h : ∀ p ∈ t, p.1 ≠ k) : Tab.get d t k = d := by
  have := Tab.get_append d t [] k h
  simpa [Tab.get] using this

theorem Tab.get_filter (d : α) (t : Tab α) (k : Nat) (f : Nat → Bool) (h : f k = true) :
    Tab.get d (t.filter fun p => f p.1) k = Tab.get d t k := by
  induction t with
  | nil => rfl
  | cons p r ih =>
    obtain ⟨j, v⟩ := p
    by_cases hj : j = k
    · subst hj; simp [h, Tab.get]
    · by_cases hf : f j
      · simp [hf, Tab.get, hj, ih]
      · simp [hf, Tab.get, hj, ih]

theorem Tab.below_lt (t : Tab α) (k : Nat) (p : Nat × α) (h : p ∈ Tab.below t k) : p.1 < k := by
  simpa [Tab.below] using (List.mem_filter.1 h).2

theorem Tab.from_ge (t : Tab α) (k : Nat) (p : Nat × α) (h : p ∈ Tab.from t k) : k ≤ p.1 := by
  simpa [Tab.from] using (List.mem_filter.1 h).2

theorem Tab.get_below (d : α) (t : Tab α) (k j : Nat) (h : j < k) : Tab.get d (Tab.below t k) j = Tab.get d t j :=
  Tab.get_filter d t j (fun i => decide (i < k)) (by simpa using h)

theorem Tab.get_from (d : α) (t : Tab α) (k j : Nat) (h : k ≤ j) : Tab.get d (Tab.from t k) j = Tab.get d t j :=
  Tab.get_filter d t j (fun i => decide (k ≤ i)) (by simpa using h)

theorem Tab.get_below_append (d : α) (t b : Tab α) (k j : Nat) (h : k ≤ j) : Tab.get d (Tab.below t k ++ b) j = Tab.get d b j :=
  Tab.get_append d _ b j fun p hp => by have := Tab.below_lt t k p hp; omega

theorem Tab.get_append_left (d : α) (a b : Tab α) (k : Nat) (h : ∀ p ∈ b, p.1 ≠ k) : Tab.get d (a ++ b) k = Tab.get d a k := by
  induction a with
  | nil => simpa [Tab.get] using Tab.get_absent d b k h
  | cons p r ih =>
    obtain ⟨j, v⟩ := p
    simp only [List.cons_append, Tab.get, ih]

/-- A read of the index just written. -/
@[simp] theorem Tab.get_put [DecidableEq α] (d : α) (t : Tab α) (k : Nat) (v : α) : Tab.get d (Tab.put d t k v) k = v := by
  unfold Tab.put
  rw [List.append_assoc, Tab.get_below_append d t _ k k (Nat.le_refl k)]
  by_cases hv : v = d
  · subst hv
    simp only [if_true, List.nil_append]
    exact Tab.get_absent v _ k fun p hp => by have := Tab.from_ge t (k + 1) p hp; omega
  · simp [hv, Tab.get]

/-- A read of another index, whatever it reads as when unlisted. -/
theorem Tab.get_put_ne [DecidableEq α] (c d : α) (t : Tab α) (k j : Nat) (v : α) (h : j ≠ k) : Tab.get d (Tab.put c t k v) j = Tab.get d t j := by
  unfold Tab.put
  have hm : ∀ p ∈ (if v = c then ([] : Tab α) else [(k, v)]), p.1 ≠ j := by
    intro p hp
    split at hp
    · simp at hp
    · simp at hp; subst hp; exact fun e => h e.symm
  rcases Nat.lt_or_ge j k with hlt | hge
  · rw [List.append_assoc, Tab.get_append_left d _ _ j, Tab.get_below d t k j hlt]
    intro p hp
    rcases List.mem_append.1 hp with hp | hp
    · exact hm p hp
    · have := Tab.from_ge t (k + 1) p hp; omega
  · rw [List.append_assoc, Tab.get_below_append d t _ k j hge, Tab.get_append d _ _ j hm, Tab.get_from d t (k + 1) j (by omega)]

/-- A read after a write, both cases. -/
theorem Tab.get_put_ite [DecidableEq α] (d : α) (t : Tab α) (k j : Nat) (v : α) :
    Tab.get d (Tab.put d t k v) j = if j = k then v else Tab.get d t j := by
  by_cases h : j = k
  · subst h; simp
  · simp [h, Tab.get_put_ne d d t k j v h]

/-- Of two writes to one index the second stands. -/
theorem Tab.put_put [DecidableEq α] (d : α) (t : Tab α) (k : Nat) (v w : α) : Tab.put d (Tab.put d t k v) k w = Tab.put d t k w := by
  have hm : ∀ (f : Nat → Bool), f k = false → (if v = d then ([] : Tab α) else [(k, v)]).filter (fun p => f p.1) = [] := by
    intro f hf; split <;> simp [hf]
  have h1 : Tab.below (Tab.put d t k v) k = Tab.below t k := by
    unfold Tab.put Tab.below Tab.from
    rw [List.filter_append, List.filter_append, hm (fun i => decide (i < k)) (by simp), List.filter_filter, List.append_nil]
    rw [List.filter_filter]
    have hz : List.filter (fun a : Nat × α => decide (a.1 < k) && decide (k + 1 ≤ a.1)) t = [] := by
      rw [List.filter_eq_nil_iff]; intro p _; simp; omega
    rw [hz, List.append_nil]; congr 1; funext a; simp
  have h2 : Tab.from (Tab.put d t k v) (k + 1) = Tab.from t (k + 1) := by
    unfold Tab.put Tab.below Tab.from
    rw [List.filter_append, List.filter_append, hm (fun i => decide (k + 1 ≤ i)) (by simp), List.filter_filter, List.append_nil]
    rw [List.filter_filter]
    have hz : List.filter (fun a : Nat × α => decide (k + 1 ≤ a.1) && decide (a.1 < k)) t = [] := by
      rw [List.filter_eq_nil_iff]; intro p _; simp; omega
    rw [hz, List.nil_append]; congr 1; funext a; simp
  calc Tab.put d (Tab.put d t k v) k w = Tab.below (Tab.put d t k v) k ++ (if w = d then [] else [(k, w)]) ++ Tab.from (Tab.put d t k v) (k + 1) := rfl
    _ = Tab.put d t k w := by rw [h1, h2]; rfl

/-! ## Runs of indices -/

theorem Tab.seg_bounds [DecidableEq α] (d : α) (k : Nat) (vs : List α) (p : Nat × α) (h : p ∈ Tab.seg d k vs) : k ≤ p.1 ∧ p.1 < k + vs.length := by
  induction vs generalizing k with
  | nil => simp [Tab.seg] at h
  | cons v r ih =>
    simp only [Tab.seg] at h
    split at h
    · have := ih (k + 1) h; simp only [List.length_cons]; omega
    · rcases List.mem_cons.1 h with h | h
      · subst h; simp only [List.length_cons]; omega
      · have := ih (k + 1) h; simp only [List.length_cons]; omega

theorem Tab.get_seg [DecidableEq α] (d : α) (k : Nat) (vs : List α) (j : Nat) : Tab.get d (Tab.seg d k vs) j = if k ≤ j then vs.getD (j - k) d else d := by
  induction vs generalizing k with
  | nil => simp [Tab.seg, Tab.get]
  | cons v r ih =>
    simp only [Tab.seg]
    by_cases hj : j = k
    · subst hj
      split
      · next hv =>
        rw [Tab.get_absent]
        · simp [hv]
        · intro p hp; have := Tab.seg_bounds d (j + 1) r p hp; omega
      · simp [Tab.get]
    · have hget : Tab.get d (if v = d then Tab.seg d (k + 1) r else (k, v) :: Tab.seg d (k + 1) r) j = Tab.get d (Tab.seg d (k + 1) r) j := by
        split
        · rfl
        · simp only [Tab.get]; rw [if_neg (by omega)]
      rw [hget, ih]
      by_cases hk : k ≤ j
      · have h1 : k + 1 ≤ j := by omega
        have h2 : j - k = (j - (k + 1)) + 1 := by omega
        simp [hk, h1, h2]
      · have h1 : ¬ k + 1 ≤ j := by omega
        simp [hk, h1]

/-- Reading one index after a run has been written. -/
theorem Tab.get_putSeg [DecidableEq α] (d : α) (t : Tab α) (k j : Nat) (vs : List α) :
    Tab.get d (Tab.putSeg d t k vs) j = if k ≤ j ∧ j < k + vs.length then vs.getD (j - k) d else Tab.get d t j := by
  unfold Tab.putSeg
  by_cases h1 : j < k
  · rw [List.append_assoc, Tab.get_append_left, Tab.get_below d t k j h1, if_neg (by omega)]
    intro p hp
    rcases List.mem_append.1 hp with hp | hp
    · have := Tab.seg_bounds d k vs p hp; omega
    · have := Tab.from_ge t (k + vs.length) p hp; omega
  · by_cases h2 : j < k + vs.length
    · rw [List.append_assoc, Tab.get_below_append d t _ k j (by omega), Tab.get_append_left, Tab.get_seg, if_pos (by omega), if_pos (by omega)]
      intro p hp; have := Tab.from_ge t (k + vs.length) p hp; omega
    · rw [List.append_assoc, Tab.get_below_append d t _ k j (by omega), Tab.get_append, Tab.get_from d t _ j (by omega), if_neg (by omega)]
      intro p hp; have := Tab.seg_bounds d k vs p hp; omega

/-! ## The canonical form -/

theorem Tab.wfFrom_mono [DecidableEq α] (d : α) (lo lo' : Nat) (t : Tab α) (h : Tab.wfFrom d lo t = true) (hl : lo' ≤ lo) : Tab.wfFrom d lo' t = true := by
  cases t with
  | nil => rfl
  | cons p r =>
    obtain ⟨j, v⟩ := p
    simp only [Tab.wfFrom, Bool.and_eq_true, decide_eq_true_eq] at h ⊢
    exact ⟨⟨by omega, h.1.2⟩, h.2⟩

theorem Tab.wfFrom_ge [DecidableEq α] (d : α) (lo : Nat) (t : Tab α) (h : Tab.wfFrom d lo t = true) (p : Nat × α) (hp : p ∈ t) : lo ≤ p.1 := by
  induction t generalizing lo with
  | nil => simp at hp
  | cons q r ih =>
    obtain ⟨j, v⟩ := q
    simp only [Tab.wfFrom, Bool.and_eq_true, decide_eq_true_eq] at h
    rcases List.mem_cons.1 hp with hp | hp
    · subst hp; exact h.1.1
    · have := ih (j + 1) h.2 hp; omega

theorem Tab.wfFrom_append [DecidableEq α] (d : α) (lo mid : Nat) (a b : Tab α) (ha : Tab.wfFrom d lo a = true) (hb : Tab.wfFrom d mid b = true)
    (hlt : ∀ p ∈ a, p.1 < mid) (hlo : lo ≤ mid) : Tab.wfFrom d lo (a ++ b) = true := by
  induction a generalizing lo with
  | nil => exact Tab.wfFrom_mono d mid lo b hb hlo
  | cons p r ih =>
    obtain ⟨j, v⟩ := p
    simp only [Tab.wfFrom, List.cons_append, Bool.and_eq_true, decide_eq_true_eq] at ha ⊢
    refine ⟨ha.1, ih (j + 1) ha.2 (fun q hq => hlt q (by simp [hq])) ?_⟩
    exact hlt (j, v) (by simp)

theorem Tab.wfFrom_filter [DecidableEq α] (d : α) (lo : Nat) (t : Tab α) (f : Nat × α → Bool) (h : Tab.wfFrom d lo t = true) : Tab.wfFrom d lo (t.filter f) = true := by
  induction t generalizing lo with
  | nil => rfl
  | cons p r ih =>
    obtain ⟨j, v⟩ := p
    simp only [Tab.wfFrom, Bool.and_eq_true, decide_eq_true_eq] at h
    simp only [List.filter_cons]
    split
    · simp only [Tab.wfFrom, Bool.and_eq_true, decide_eq_true_eq]; exact ⟨h.1, ih (j + 1) h.2⟩
    · exact Tab.wfFrom_mono d (j + 1) lo _ (ih (j + 1) h.2) (by omega)

theorem Tab.wfFrom_from [DecidableEq α] (d : α) (k : Nat) (t : Tab α) (h : Tab.wf d t = true) : Tab.wfFrom d k (Tab.from t k) = true := by
  have aux : ∀ (lo : Nat) (t : Tab α), Tab.wfFrom d lo t = true → Tab.wfFrom d k (Tab.from t k) = true := by
    intro lo t
    induction t generalizing lo with
    | nil => intro _; rfl
    | cons p r ih =>
      obtain ⟨j, v⟩ := p
      intro h
      simp only [Tab.wfFrom, Bool.and_eq_true, decide_eq_true_eq] at h
      by_cases hk : k ≤ j
      · have hr : Tab.from ((j, v) :: r) k = (j, v) :: r.filter (fun p => decide (k ≤ p.1)) := by simp [Tab.from, hk]
        rw [hr]
        simp only [Tab.wfFrom, Bool.and_eq_true, decide_eq_true_eq]
        exact ⟨⟨hk, h.1.2⟩, Tab.wfFrom_filter d (j + 1) r _ h.2⟩
      · have hr : Tab.from ((j, v) :: r) k = Tab.from r k := by simp [Tab.from, hk]
        rw [hr]; exact ih (j + 1) h.2
  exact aux 0 t h

theorem Tab.wf_seg [DecidableEq α] (d : α) (k : Nat) (vs : List α) : Tab.wfFrom d k (Tab.seg d k vs) = true := by
  induction vs generalizing k with
  | nil => rfl
  | cons v r ih =>
    simp only [Tab.seg]
    split
    · exact Tab.wfFrom_mono d (k + 1) k _ (ih (k + 1)) (by omega)
    · next h =>
      simp only [Tab.wfFrom, Bool.and_eq_true, decide_eq_true_eq]
      exact ⟨⟨Nat.le_refl k, h⟩, ih (k + 1)⟩

/-- Writing a run keeps the canonical form. -/
theorem Tab.wf_putSeg [DecidableEq α] (d : α) (t : Tab α) (k : Nat) (vs : List α) (h : Tab.wf d t = true) : Tab.wf d (Tab.putSeg d t k vs) = true := by
  unfold Tab.wf Tab.putSeg
  rw [List.append_assoc]
  refine Tab.wfFrom_append d 0 k _ _ (Tab.wfFrom_filter d 0 t _ h) ?_ (fun p hp => Tab.below_lt t k p hp) (Nat.zero_le k)
  exact Tab.wfFrom_append d k (k + vs.length) _ _ (Tab.wf_seg d k vs) (Tab.wfFrom_from d _ t h) (fun p hp => (Tab.seg_bounds d k vs p hp).2) (by omega)

/-- Writing an index keeps the canonical form. -/
theorem Tab.wf_put [DecidableEq α] (d : α) (t : Tab α) (k : Nat) (v : α) (h : Tab.wf d t = true) : Tab.wf d (Tab.put d t k v) = true := by
  have : Tab.put d t k v = Tab.putSeg d t k [v] := by simp [Tab.put, Tab.putSeg, Tab.seg]
  rw [this]; exact Tab.wf_putSeg d t k [v] h

/-- Clearing a run keeps the canonical form. -/
theorem Tab.wf_clearSeg [DecidableEq α] (d : α) (t : Tab α) (k n : Nat) (h : Tab.wf d t = true) : Tab.wf d (Tab.clearSeg t k n) = true := by
  unfold Tab.wf Tab.clearSeg
  exact Tab.wfFrom_append d 0 (k + n) _ _ (Tab.wfFrom_filter d 0 t _ h) (Tab.wfFrom_from d _ t h) (fun p hp => by have := Tab.below_lt t k p hp; omega) (Nat.zero_le _)

/-! ## Memories -/

theorem Mem.wf_write (m : Mem) (a : Nat) (bs : List Byte) (h : m.wf = true) : (m.write a bs).wf = true := Tab.wf_putSeg 0 m a bs h

theorem Mem.get_write (m : Mem) (a b : Nat) (bs : List Byte) :
    (m.write a bs).get b = if a ≤ b ∧ b < a + bs.length then bs.getD (b - a) 0 else m.get b := Tab.get_putSeg 0 m a b bs

/-! ## Writes at two indices -/

theorem Tab.below_append (a b : Tab α) (k : Nat) : Tab.below (a ++ b) k = Tab.below a k ++ Tab.below b k := List.filter_append ..
theorem Tab.from_append (a b : Tab α) (k : Nat) : Tab.from (a ++ b) k = Tab.from a k ++ Tab.from b k := List.filter_append ..

theorem Tab.put_comm_lt [DecidableEq α] (d : α) (t : Tab α) (j k : Nat) (v w : α) (h : j < k) :
    Tab.put d (Tab.put d t j v) k w = Tab.put d (Tab.put d t k w) j v := by
  have b1 : Tab.below (if v = d then [] else [(j, v)]) k = if v = d then [] else [(j, v)] := by split <;> simp [Tab.below, h]
  have b2 : Tab.from (if v = d then [] else [(j, v)]) (k + 1) = [] := by split <;> simp [Tab.from]; omega
  have b3 : Tab.below (if w = d then [] else [(k, w)]) j = [] := by split <;> simp [Tab.below]; omega
  have b4 : Tab.from (if w = d then [] else [(k, w)]) (j + 1) = if w = d then [] else [(k, w)] := by split <;> simp [Tab.from]; omega
  have c1 : Tab.below (Tab.below t j) k = Tab.below t j := by
    unfold Tab.below; rw [List.filter_filter]; congr 1; funext p; simp; omega
  have c2 : Tab.below (Tab.below t k) j = Tab.below t j := by
    unfold Tab.below; rw [List.filter_filter]; congr 1; funext p; simp; omega
  have c3 : Tab.from (Tab.from t (j + 1)) (k + 1) = Tab.from t (k + 1) := by
    unfold Tab.from; rw [List.filter_filter]; congr 1; funext p; simp; omega
  have c4 : Tab.from (Tab.from t (k + 1)) (j + 1) = Tab.from t (k + 1) := by
    unfold Tab.from; rw [List.filter_filter]; congr 1; funext p; simp; omega
  have c5 : Tab.from (Tab.below t j) (k + 1) = [] := by
    unfold Tab.below Tab.from; rw [List.filter_filter, List.filter_eq_nil_iff]; intro p _; simp; omega
  have c6 : Tab.below (Tab.from t (k + 1)) j = [] := by
    unfold Tab.below Tab.from; rw [List.filter_filter, List.filter_eq_nil_iff]; intro p _; simp; omega
  have c7 : Tab.from (Tab.below t k) (j + 1) = Tab.below (Tab.from t (j + 1)) k := by
    unfold Tab.below Tab.from; rw [List.filter_filter, List.filter_filter]; congr 1; funext p; exact Bool.and_comm _ _
  unfold Tab.put
  simp only [Tab.below_append, Tab.from_append, b1, b2, b3, b4, c1, c2, c3, c4, c5, c6, c7, List.append_nil, List.nil_append, List.append_assoc]

/-- Writes at two indices may change places. -/
theorem Tab.put_comm [DecidableEq α] (d : α) (t : Tab α) (j k : Nat) (v w : α) (h : j ≠ k) :
    Tab.put d (Tab.put d t j v) k w = Tab.put d (Tab.put d t k w) j v := by
  rcases Nat.lt_or_gt_of_ne h with h | h
  · exact Tab.put_comm_lt d t j k v w h
  · exact (Tab.put_comm_lt d t k j w v h).symm

/-! ## Reading runs -/

theorem Tab.fill_eq [DecidableEq α] (d : α) (k n : Nat) (t : Tab α) (h : Tab.wfFrom d k t = true) :
    Tab.fill d k n t = (List.range n).map fun i => Tab.get d t (k + i) := by
  induction n generalizing k t with
  | zero => cases t <;> rfl
  | succ n ih =>
    have split0 : ∀ f : Nat → α, (List.range (n + 1)).map f = f 0 :: (List.range n).map fun i => f (i + 1) := by
      intro f; rw [List.range_succ_eq_map]; simp [Function.comp_def]
    rw [split0]
    cases t with
    | nil =>
      simp only [Tab.fill, Tab.get]
      rw [ih (k + 1) [] rfl]; simp [Tab.get]
    | cons p r =>
      obtain ⟨j, v⟩ := p
      have h' := h
      simp only [Tab.wfFrom, Bool.and_eq_true, decide_eq_true_eq] at h'
      by_cases hj : j = k
      · subst hj
        simp only [Tab.fill, if_true]
        rw [ih (j + 1) r h'.2]
        congr 1
        · simp [Tab.get]
        · apply List.map_congr_left
          intro i _
          have : ¬ j = j + (i + 1) := by omega
          simp only [Tab.get, this, if_false]; congr 1; omega
      · have hw : Tab.wfFrom d (k + 1) ((j, v) :: r) = true := by
          simp only [Tab.wfFrom, Bool.and_eq_true, decide_eq_true_eq]; exact ⟨⟨by omega, h'.1.2⟩, h'.2⟩
        simp only [Tab.fill, hj, if_false]
        rw [ih (k + 1) _ hw]
        congr 1
        · rw [Tab.get_absent]
          intro p hp; have := Tab.wfFrom_ge d (k + 1) _ hw p hp; omega
        · apply List.map_congr_left
          intro i _; congr 1; omega

/-- A run of a canonical array is its values one by one. -/
theorem Tab.getSeg_eq [DecidableEq α] (d : α) (t : Tab α) (k n : Nat) (h : Tab.wf d t = true) :
    Tab.getSeg d t k n = (List.range n).map fun i => Tab.get d t (k + i) := by
  unfold Tab.getSeg
  rw [Tab.fill_eq d k n _ (Tab.wfFrom_from d k t h)]
  apply List.map_congr_left
  intro i _; exact Tab.get_from d t k (k + i) (by omega)

theorem Mem.read_eq (m : Mem) (a n : Nat) (h : m.wf = true) : m.read a n = (List.range n).map fun i => m.get (a + i) := Tab.getSeg_eq 0 m a n h

/-- A read of exactly what was written. -/
theorem Mem.read_write (m : Mem) (a : Nat) (bs : List Byte) (h : m.wf = true) : (m.write a bs).read a bs.length = bs := by
  rw [Mem.read_eq _ _ _ (Mem.wf_write m a bs h)]
  apply List.ext_getElem
  · simp
  · intro i h1 h2
    simp only [List.getElem_map, List.getElem_range, Mem.get_write]
    rw [if_pos (by omega)]
    simp [List.getD, List.getElem?_eq_getElem h2]

/-- A read of bytes that a write leaves alone. -/
theorem Mem.read_write_ne (m : Mem) (a b n : Nat) (bs : List Byte) (h : m.wf = true) (hd : b + n ≤ a ∨ a + bs.length ≤ b) :
    (m.write a bs).read b n = m.read b n := by
  rw [Mem.read_eq _ _ _ (Mem.wf_write m a bs h), Mem.read_eq _ _ _ h]
  apply List.map_congr_left
  intro i hi
  have := List.mem_range.1 hi
  rw [Mem.get_write, if_neg (by omega)]

theorem Tab.length_fill {α : Type} (d : α) : ∀ (n k : Nat) (t : Tab α), (Tab.fill d k n t).length = n := by
  intro n
  induction n with
  | zero => intro k t; cases t <;> rfl
  | succ n ih =>
    intro k t
    cases t with
    | nil => simp [Tab.fill, ih]
    | cons p r =>
      obtain ⟨j, v⟩ := p
      simp only [Tab.fill]
      split <;> simp [ih]

theorem Mem.length_read (m : Mem) (a n : Nat) : (m.read a n).length = n := Tab.length_fill _ _ _ _

end Sys2Proof
end

