-- ==== Sys2Proof/Laws/State.lean ====
section
/-! SUPPORT. Laws of the updates of State: what each leaves alone, field by field, and what it sets, so that no proof unfolds a record update. -/

namespace Sys2Proof.Machine

/-! ## setEng -/

@[simp] theorem State.setEng_pending (s : State) (k : Nat) (x : Engine) : (s.setEng k x).pending = s.pending := rfl
@[simp] theorem State.setEng_top (s : State) (k : Nat) (x : Engine) : (s.setEng k x).top = s.top := rfl
@[simp] theorem State.setEng_captures (s : State) (k : Nat) (x : Engine) : (s.setEng k x).captures = s.captures := rfl
@[simp] theorem State.setEng_wstage (s : State) (k : Nat) (x : Engine) : (s.setEng k x).wstage = s.wstage := rfl
@[simp] theorem State.setEng_skm (s : State) (k : Nat) (x : Engine) : (s.setEng k x).skm = s.skm := rfl
@[simp] theorem State.setEng_stn (s : State) (k : Nat) (x : Engine) : (s.setEng k x).stn = s.stn := rfl
@[simp] theorem State.setEng_clc (s : State) (k : Nat) (x : Engine) : (s.setEng k x).clc = s.clc := rfl
@[simp] theorem State.setEng_se (s : State) (k : Nat) (x : Engine) : (s.setEng k x).se = s.se := rfl
@[simp] theorem State.setEng_plb (s : State) (k : Nat) (x : Engine) : (s.setEng k x).plb = s.plb := rfl
@[simp] theorem State.setEng_hbm (s : State) (k : Nat) (x : Engine) : (s.setEng k x).hbm = s.hbm := rfl
@[simp] theorem State.setEng_lth (s : State) (k : Nat) (x : Engine) : (s.setEng k x).lth = s.lth := rfl
@[simp] theorem State.setEng_sch (s : State) (k : Nat) (x : Engine) : (s.setEng k x).sch = s.sch := rfl
@[simp] theorem State.setEng_rnd (s : State) (k : Nat) (x : Engine) : (s.setEng k x).rnd = s.rnd := rfl
@[simp] theorem State.setEng_mnd (s : State) (k : Nat) (x : Engine) : (s.setEng k x).mnd = s.mnd := rfl
@[simp] theorem State.setEng_slr (s : State) (k : Nat) (x : Engine) : (s.setEng k x).slr = s.slr := rfl
@[simp] theorem State.setEng_phn (s : State) (k : Nat) (x : Engine) : (s.setEng k x).phn = s.phn := rfl
@[simp] theorem State.setEng_hwk (s : State) (k : Nat) (x : Engine) : (s.setEng k x).hwk = s.hwk := rfl
@[simp] theorem State.setEng_sng (s : State) (k : Nat) (x : Engine) : (s.setEng k x).sng = s.sng := rfl
@[simp] theorem State.setEng_pwr (s : State) (k : Nat) (x : Engine) : (s.setEng k x).pwr = s.pwr := rfl
@[simp] theorem State.setEng_tap (s : State) (k : Nat) (x : Engine) : (s.setEng k x).tap = s.tap := rfl
@[simp] theorem State.setEng_out (s : State) (k : Nat) (x : Engine) : (s.setEng k x).out = s.out := rfl
@[simp] theorem State.setEng_fresh (s : State) (k : Nat) (x : Engine) : (s.setEng k x).fresh = s.fresh := rfl
@[simp] theorem State.setEng_eng (s : State) (k : Nat) (x : Engine) : (s.setEng k x).eng k = x := Tab.get_put _ _ k x
theorem State.setEng_eng_ne (s : State) (k j : Nat) (x : Engine) (h : j ≠ k) : (s.setEng k x).eng j = s.eng j := Tab.get_put_ne _ _ _ k j x h
@[simp] theorem State.setEng_src (s : State) (k j : Nat) (x : Engine) : (s.setEng k x).src j = s.src j := rfl
@[simp] theorem State.setEng_trig (s : State) (k j : Nat) (x : Engine) : (s.setEng k x).trig j = s.trig j := rfl
@[simp] theorem State.setEng_stack (s : State) (k j : Nat) (x : Engine) : (s.setEng k x).stack j = s.stack j := rfl
@[simp] theorem State.setEng_queue (s : State) (k j : Nat) (x : Engine) : (s.setEng k x).queue j = s.queue j := rfl
@[simp] theorem State.setEng_bond (s : State) (k j : Nat) (x : Engine) : (s.setEng k x).bond j = s.bond j := rfl
@[simp] theorem State.setEng_lane (s : State) (k j : Nat) (x : Engine) : (s.setEng k x).lane j = s.lane j := rfl
@[simp] theorem State.setEng_rport (s : State) (k j : Nat) (x : Engine) : (s.setEng k x).rport j = s.rport j := rfl
@[simp] theorem State.setEng_trib (s : State) (k j : Nat) (x : Engine) : (s.setEng k x).trib j = s.trib j := rfl
@[simp] theorem State.setEng_mbond (s : State) (k j : Nat) (x : Engine) : (s.setEng k x).mbond j = s.mbond j := rfl
@[simp] theorem State.setEng_mlane (s : State) (k j : Nat) (x : Engine) : (s.setEng k x).mlane j = s.mlane j := rfl
@[simp] theorem State.setEng_sbond (s : State) (k j : Nat) (x : Engine) : (s.setEng k x).sbond j = s.sbond j := rfl
@[simp] theorem State.setEng_phe (s : State) (k j : Nat) (x : Engine) : (s.setEng k x).phe j = s.phe j := rfl
@[simp] theorem State.setEng_session (s : State) (k j : Nat) (x : Engine) : (s.setEng k x).session j = s.session j := rfl
@[simp] theorem State.setEng_mbox (s : State) (k j : Nat) (x : Engine) : (s.setEng k x).mbox j = s.mbox j := rfl
@[simp] theorem State.setEng_part (s : State) (k j : Nat) (x : Engine) : (s.setEng k x).part j = s.part j := rfl

/-! ## withFlights -/

@[simp] theorem Engine.withFlights_tiles (x : Engine) (l : List Flight) : (x.withFlights l).tiles = x.tiles := rfl
@[simp] theorem Engine.withFlights_tags (x : Engine) (l : List Flight) : (x.withFlights l).tags = x.tags := rfl
@[simp] theorem Engine.withFlights_la (x : Engine) (l : List Flight) : (x.withFlights l).la = x.la := rfl
@[simp] theorem Engine.withFlights_form32 (x : Engine) (l : List Flight) : (x.withFlights l).form32 = x.form32 := rfl
@[simp] theorem Engine.withFlights_marks (x : Engine) (l : List Flight) : (x.withFlights l).marks = x.marks := rfl
@[simp] theorem Engine.withFlights_iqs (x : Engine) (l : List Flight) : (x.withFlights l).iqs = x.iqs := rfl
@[simp] theorem Engine.withFlights_params (x : Engine) (l : List Flight) : (x.withFlights l).params = x.params := rfl
@[simp] theorem Engine.withFlights_idxb (x : Engine) (l : List Flight) : (x.withFlights l).idxb = x.idxb := rfl
@[simp] theorem Engine.withFlights_st (x : Engine) (l : List Flight) : (x.withFlights l).st = x.st := rfl
@[simp] theorem Engine.withFlights_err (x : Engine) (l : List Flight) : (x.withFlights l).err = x.err := rfl
@[simp] theorem Engine.withFlights_fault (x : Engine) (l : List Flight) : (x.withFlights l).fault = x.fault := rfl
@[simp] theorem Engine.withFlights_nf (x : Engine) (l : List Flight) : (x.withFlights l).nf = x.nf := rfl
@[simp] theorem Engine.withFlights_nfStroke (x : Engine) (l : List Flight) : (x.withFlights l).nfStroke = x.nfStroke := rfl
@[simp] theorem Engine.withFlights_satCount (x : Engine) (l : List Flight) : (x.withFlights l).satCount = x.satCount := rfl
@[simp] theorem Engine.withFlights_laCeCount (x : Engine) (l : List Flight) : (x.withFlights l).laCeCount = x.laCeCount := rfl
@[simp] theorem Engine.withFlights_arriveCrcCount (x : Engine) (l : List Flight) : (x.withFlights l).arriveCrcCount = x.arriveCrcCount := rfl
@[simp] theorem Engine.withFlights_waitCount (x : Engine) (l : List Flight) : (x.withFlights l).waitCount = x.waitCount := rfl
@[simp] theorem Engine.withFlights_waitCycles (x : Engine) (l : List Flight) : (x.withFlights l).waitCycles = x.waitCycles := rfl
@[simp] theorem Engine.withFlights_pc (x : Engine) (l : List Flight) : (x.withFlights l).pc = x.pc := rfl
@[simp] theorem Engine.withFlights_issued (x : Engine) (l : List Flight) : (x.withFlights l).issued = x.issued := rfl
@[simp] theorem Engine.withFlights_gate (x : Engine) (l : List Flight) : (x.withFlights l).gate = x.gate := rfl
@[simp] theorem Engine.withFlights_toIssue (x : Engine) (l : List Flight) : (x.withFlights l).toIssue = x.toIssue := rfl
@[simp] theorem Engine.withFlights_loads (x : Engine) (l : List Flight) : (x.withFlights l).loads = x.loads := rfl
@[simp] theorem Engine.withFlights_undef (x : Engine) (l : List Flight) : (x.withFlights l).undef = x.undef := rfl
@[simp] theorem Engine.withFlights_flights (x : Engine) (l : List Flight) : (x.withFlights l).flights = l := rfl
@[simp] theorem Engine.withFlights_twice (x : Engine) (l m : List Flight) : (x.withFlights l).withFlights m = x.withFlights m := rfl
theorem Engine.withFlights_self (x : Engine) (l : List Flight) (h : x.flights = l) : x.withFlights l = x := by cases x; simp_all [Engine.withFlights]
/-- Of two writes of one engine the second stands. -/
@[simp] theorem State.setEng_twice (s : State) (e : Nat) (x y : Engine) : (s.setEng e x).setEng e y = s.setEng e y := by simp [State.setEng, Tab.put_put]

/-! ## setSrc -/

@[simp] theorem State.setSrc_pending (s : State) (k : Nat) (x : Src) : (s.setSrc k x).pending = s.pending := rfl
@[simp] theorem State.setSrc_top (s : State) (k : Nat) (x : Src) : (s.setSrc k x).top = s.top := rfl
@[simp] theorem State.setSrc_captures (s : State) (k : Nat) (x : Src) : (s.setSrc k x).captures = s.captures := rfl
@[simp] theorem State.setSrc_wstage (s : State) (k : Nat) (x : Src) : (s.setSrc k x).wstage = s.wstage := rfl
@[simp] theorem State.setSrc_engines (s : State) (k : Nat) (x : Src) : (s.setSrc k x).engines = s.engines := rfl
@[simp] theorem State.setSrc_skm (s : State) (k : Nat) (x : Src) : (s.setSrc k x).skm = s.skm := rfl
@[simp] theorem State.setSrc_stn (s : State) (k : Nat) (x : Src) : (s.setSrc k x).stn = s.stn := rfl
@[simp] theorem State.setSrc_clc (s : State) (k : Nat) (x : Src) : (s.setSrc k x).clc = s.clc := rfl
@[simp] theorem State.setSrc_se (s : State) (k : Nat) (x : Src) : (s.setSrc k x).se = s.se := rfl
@[simp] theorem State.setSrc_hbm (s : State) (k : Nat) (x : Src) : (s.setSrc k x).hbm = s.hbm := rfl
@[simp] theorem State.setSrc_lth (s : State) (k : Nat) (x : Src) : (s.setSrc k x).lth = s.lth := rfl
@[simp] theorem State.setSrc_sch (s : State) (k : Nat) (x : Src) : (s.setSrc k x).sch = s.sch := rfl
@[simp] theorem State.setSrc_rnd (s : State) (k : Nat) (x : Src) : (s.setSrc k x).rnd = s.rnd := rfl
@[simp] theorem State.setSrc_mnd (s : State) (k : Nat) (x : Src) : (s.setSrc k x).mnd = s.mnd := rfl
@[simp] theorem State.setSrc_slr (s : State) (k : Nat) (x : Src) : (s.setSrc k x).slr = s.slr := rfl
@[simp] theorem State.setSrc_phn (s : State) (k : Nat) (x : Src) : (s.setSrc k x).phn = s.phn := rfl
@[simp] theorem State.setSrc_hwk (s : State) (k : Nat) (x : Src) : (s.setSrc k x).hwk = s.hwk := rfl
@[simp] theorem State.setSrc_sng (s : State) (k : Nat) (x : Src) : (s.setSrc k x).sng = s.sng := rfl
@[simp] theorem State.setSrc_pwr (s : State) (k : Nat) (x : Src) : (s.setSrc k x).pwr = s.pwr := rfl
@[simp] theorem State.setSrc_tap (s : State) (k : Nat) (x : Src) : (s.setSrc k x).tap = s.tap := rfl
@[simp] theorem State.setSrc_out (s : State) (k : Nat) (x : Src) : (s.setSrc k x).out = s.out := rfl
@[simp] theorem State.setSrc_fresh (s : State) (k : Nat) (x : Src) : (s.setSrc k x).fresh = s.fresh := rfl
@[simp] theorem State.setSrc_plb_time (s : State) (k : Nat) (x : Src) : (s.setSrc k x).plb.time = s.plb.time := rfl
@[simp] theorem State.setSrc_plb_ppsOutEn (s : State) (k : Nat) (x : Src) : (s.setSrc k x).plb.ppsOutEn = s.plb.ppsOutEn := rfl
@[simp] theorem State.setSrc_plb_swLock (s : State) (k : Nat) (x : Src) : (s.setSrc k x).plb.swLock = s.plb.swLock := rfl
@[simp] theorem State.setSrc_plb_swMode (s : State) (k : Nat) (x : Src) : (s.setSrc k x).plb.swMode = s.plb.swMode := rfl
@[simp] theorem State.setSrc_plb_st (s : State) (k : Nat) (x : Src) : (s.setSrc k x).plb.st = s.plb.st := rfl
@[simp] theorem State.setSrc_plb_freqHold (s : State) (k : Nat) (x : Src) : (s.setSrc k x).plb.freqHold = s.plb.freqHold := rfl
@[simp] theorem State.setSrc_plb_selected (s : State) (k : Nat) (x : Src) : (s.setSrc k x).plb.selected = s.plb.selected := rfl
@[simp] theorem State.setSrc_plb_started (s : State) (k : Nat) (x : Src) : (s.setSrc k x).plb.started = s.plb.started := rfl
@[simp] theorem State.setSrc_plb_stepEpoch (s : State) (k : Nat) (x : Src) : (s.setSrc k x).plb.stepEpoch = s.plb.stepEpoch := rfl
@[simp] theorem State.setSrc_plb_err (s : State) (k : Nat) (x : Src) : (s.setSrc k x).plb.err = s.plb.err := rfl
@[simp] theorem State.setSrc_plb_calS (s : State) (k : Nat) (x : Src) : (s.setSrc k x).plb.calS = s.plb.calS := rfl
@[simp] theorem State.setSrc_plb_outlierNs (s : State) (k : Nat) (x : Src) : (s.setSrc k x).plb.outlierNs = s.plb.outlierNs := rfl
@[simp] theorem State.setSrc_plb_bw (s : State) (k : Nat) (x : Src) : (s.setSrc k x).plb.bw = s.plb.bw := rfl
@[simp] theorem State.setSrc_plb_inc (s : State) (k : Nat) (x : Src) : (s.setSrc k x).plb.inc = s.plb.inc := rfl
@[simp] theorem State.setSrc_plb_stepVal (s : State) (k : Nat) (x : Src) : (s.setSrc k x).plb.stepVal = s.plb.stepVal := rfl
@[simp] theorem State.setSrc_plb_offset (s : State) (k : Nat) (x : Src) : (s.setSrc k x).plb.offset = s.plb.offset := rfl
@[simp] theorem State.setSrc_plb_ptpCfg (s : State) (k : Nat) (x : Src) : (s.setSrc k x).plb.ptpCfg = s.plb.ptpCfg := rfl
@[simp] theorem State.setSrc_plb_ppsInAdj (s : State) (k : Nat) (x : Src) : (s.setSrc k x).plb.ppsInAdj = s.plb.ppsInAdj := rfl
@[simp] theorem State.setSrc_plb_ppsOutAdj (s : State) (k : Nat) (x : Src) : (s.setSrc k x).plb.ppsOutAdj = s.plb.ppsOutAdj := rfl
@[simp] theorem State.setSrc_plb_holdSeconds (s : State) (k : Nat) (x : Src) : (s.setSrc k x).plb.holdSeconds = s.plb.holdSeconds := rfl
@[simp] theorem State.setSrc_plb_holdFrom (s : State) (k : Nat) (x : Src) : (s.setSrc k x).plb.holdFrom = s.plb.holdFrom := rfl
@[simp] theorem State.setSrc_plb_ppsTodValid (s : State) (k : Nat) (x : Src) : (s.setSrc k x).plb.ppsTodValid = s.plb.ppsTodValid := rfl
@[simp] theorem State.setSrc_plb_ppsTod (s : State) (k : Nat) (x : Src) : (s.setSrc k x).plb.ppsTod = s.plb.ppsTod := rfl
@[simp] theorem State.setSrc_plb_stepCount (s : State) (k : Nat) (x : Src) : (s.setSrc k x).plb.stepCount = s.plb.stepCount := rfl
@[simp] theorem State.setSrc_plb_switchCount (s : State) (k : Nat) (x : Src) : (s.setSrc k x).plb.switchCount = s.plb.switchCount := rfl
@[simp] theorem State.setSrc_plb_outlierCount (s : State) (k : Nat) (x : Src) : (s.setSrc k x).plb.outlierCount = s.plb.outlierCount := rfl
@[simp] theorem State.setSrc_plb_trigSkip (s : State) (k : Nat) (x : Src) : (s.setSrc k x).plb.trigSkip = s.plb.trigSkip := rfl
@[simp] theorem State.setSrc_plb_trigs (s : State) (k : Nat) (x : Src) : (s.setSrc k x).plb.trigs = s.plb.trigs := rfl
@[simp] theorem State.setSrc_plb_within20 (s : State) (k : Nat) (x : Src) : (s.setSrc k x).plb.within20 = s.plb.within20 := rfl
@[simp] theorem State.setSrc_plb_lockHist (s : State) (k : Nat) (x : Src) : (s.setSrc k x).plb.lockHist = s.plb.lockHist := rfl
@[simp] theorem State.setSrc_plb_lockFrom (s : State) (k : Nat) (x : Src) : (s.setSrc k x).plb.lockFrom = s.plb.lockFrom := rfl
@[simp] theorem State.setSrc_plb_swFresh (s : State) (k : Nat) (x : Src) : (s.setSrc k x).plb.swFresh = s.plb.swFresh := rfl
@[simp] theorem State.setSrc_plb_master (s : State) (k : Nat) (x : Src) : (s.setSrc k x).plb.master = s.plb.master := rfl
@[simp] theorem State.setSrc_plb_syncWait (s : State) (k : Nat) (x : Src) : (s.setSrc k x).plb.syncWait = s.plb.syncWait := rfl
@[simp] theorem State.setSrc_plb_syncDiff (s : State) (k : Nat) (x : Src) : (s.setSrc k x).plb.syncDiff = s.plb.syncDiff := rfl
@[simp] theorem State.setSrc_plb_pathDelay (s : State) (k : Nat) (x : Src) : (s.setSrc k x).plb.pathDelay = s.plb.pathDelay := rfl
@[simp] theorem State.setSrc_plb_delayReq (s : State) (k : Nat) (x : Src) : (s.setSrc k x).plb.delayReq = s.plb.delayReq := rfl
@[simp] theorem State.setSrc_plb_delaySeq (s : State) (k : Nat) (x : Src) : (s.setSrc k x).plb.delaySeq = s.plb.delaySeq := rfl
@[simp] theorem State.setSrc_plb_lastEdge (s : State) (k : Nat) (x : Src) : (s.setSrc k x).plb.lastEdge = s.plb.lastEdge := rfl
@[simp] theorem State.setSrc_plb_ppsGood (s : State) (k : Nat) (x : Src) : (s.setSrc k x).plb.ppsGood = s.plb.ppsGood := rfl
@[simp] theorem State.setSrc_plb_refGood (s : State) (k : Nat) (x : Src) : (s.setSrc k x).plb.refGood = s.plb.refGood := rfl
@[simp] theorem State.setSrc_plb_ppsPulses (s : State) (k : Nat) (x : Src) : (s.setSrc k x).plb.ppsPulses = s.plb.ppsPulses := rfl
@[simp] theorem State.setSrc_plb_servoK (s : State) (k : Nat) (x : Src) : (s.setSrc k x).plb.servoK = s.plb.servoK := rfl
@[simp] theorem State.setSrc_plb_filtK (s : State) (k : Nat) (x : Src) : (s.setSrc k x).plb.filtK = s.plb.filtK := rfl
@[simp] theorem State.setSrc_src (s : State) (k : Nat) (x : Src) : (s.setSrc k x).src k = x := Tab.get_put _ _ k x
theorem State.setSrc_src_ne (s : State) (k j : Nat) (x : Src) (h : j ≠ k) : (s.setSrc k x).src j = s.src j := Tab.get_put_ne _ _ _ k j x h
@[simp] theorem State.setSrc_eng (s : State) (k j : Nat) (x : Src) : (s.setSrc k x).eng j = s.eng j := rfl
@[simp] theorem State.setSrc_trig (s : State) (k j : Nat) (x : Src) : (s.setSrc k x).trig j = s.trig j := rfl
@[simp] theorem State.setSrc_stack (s : State) (k j : Nat) (x : Src) : (s.setSrc k x).stack j = s.stack j := rfl
@[simp] theorem State.setSrc_queue (s : State) (k j : Nat) (x : Src) : (s.setSrc k x).queue j = s.queue j := rfl
@[simp] theorem State.setSrc_bond (s : State) (k j : Nat) (x : Src) : (s.setSrc k x).bond j = s.bond j := rfl
@[simp] theorem State.setSrc_lane (s : State) (k j : Nat) (x : Src) : (s.setSrc k x).lane j = s.lane j := rfl
@[simp] theorem State.setSrc_rport (s : State) (k j : Nat) (x : Src) : (s.setSrc k x).rport j = s.rport j := rfl
@[simp] theorem State.setSrc_trib (s : State) (k j : Nat) (x : Src) : (s.setSrc k x).trib j = s.trib j := rfl
@[simp] theorem State.setSrc_mbond (s : State) (k j : Nat) (x : Src) : (s.setSrc k x).mbond j = s.mbond j := rfl
@[simp] theorem State.setSrc_mlane (s : State) (k j : Nat) (x : Src) : (s.setSrc k x).mlane j = s.mlane j := rfl
@[simp] theorem State.setSrc_sbond (s : State) (k j : Nat) (x : Src) : (s.setSrc k x).sbond j = s.sbond j := rfl
@[simp] theorem State.setSrc_phe (s : State) (k j : Nat) (x : Src) : (s.setSrc k x).phe j = s.phe j := rfl
@[simp] theorem State.setSrc_session (s : State) (k j : Nat) (x : Src) : (s.setSrc k x).session j = s.session j := rfl
@[simp] theorem State.setSrc_mbox (s : State) (k j : Nat) (x : Src) : (s.setSrc k x).mbox j = s.mbox j := rfl
@[simp] theorem State.setSrc_part (s : State) (k j : Nat) (x : Src) : (s.setSrc k x).part j = s.part j := rfl

/-! ## setTrig -/

@[simp] theorem State.setTrig_pending (s : State) (k : Nat) (x : Trig) : (s.setTrig k x).pending = s.pending := rfl
@[simp] theorem State.setTrig_top (s : State) (k : Nat) (x : Trig) : (s.setTrig k x).top = s.top := rfl
@[simp] theorem State.setTrig_captures (s : State) (k : Nat) (x : Trig) : (s.setTrig k x).captures = s.captures := rfl
@[simp] theorem State.setTrig_wstage (s : State) (k : Nat) (x : Trig) : (s.setTrig k x).wstage = s.wstage := rfl
@[simp] theorem State.setTrig_engines (s : State) (k : Nat) (x : Trig) : (s.setTrig k x).engines = s.engines := rfl
@[simp] theorem State.setTrig_skm (s : State) (k : Nat) (x : Trig) : (s.setTrig k x).skm = s.skm := rfl
@[simp] theorem State.setTrig_stn (s : State) (k : Nat) (x : Trig) : (s.setTrig k x).stn = s.stn := rfl
@[simp] theorem State.setTrig_clc (s : State) (k : Nat) (x : Trig) : (s.setTrig k x).clc = s.clc := rfl
@[simp] theorem State.setTrig_se (s : State) (k : Nat) (x : Trig) : (s.setTrig k x).se = s.se := rfl
@[simp] theorem State.setTrig_hbm (s : State) (k : Nat) (x : Trig) : (s.setTrig k x).hbm = s.hbm := rfl
@[simp] theorem State.setTrig_lth (s : State) (k : Nat) (x : Trig) : (s.setTrig k x).lth = s.lth := rfl
@[simp] theorem State.setTrig_sch (s : State) (k : Nat) (x : Trig) : (s.setTrig k x).sch = s.sch := rfl
@[simp] theorem State.setTrig_rnd (s : State) (k : Nat) (x : Trig) : (s.setTrig k x).rnd = s.rnd := rfl
@[simp] theorem State.setTrig_mnd (s : State) (k : Nat) (x : Trig) : (s.setTrig k x).mnd = s.mnd := rfl
@[simp] theorem State.setTrig_slr (s : State) (k : Nat) (x : Trig) : (s.setTrig k x).slr = s.slr := rfl
@[simp] theorem State.setTrig_phn (s : State) (k : Nat) (x : Trig) : (s.setTrig k x).phn = s.phn := rfl
@[simp] theorem State.setTrig_hwk (s : State) (k : Nat) (x : Trig) : (s.setTrig k x).hwk = s.hwk := rfl
@[simp] theorem State.setTrig_sng (s : State) (k : Nat) (x : Trig) : (s.setTrig k x).sng = s.sng := rfl
@[simp] theorem State.setTrig_pwr (s : State) (k : Nat) (x : Trig) : (s.setTrig k x).pwr = s.pwr := rfl
@[simp] theorem State.setTrig_tap (s : State) (k : Nat) (x : Trig) : (s.setTrig k x).tap = s.tap := rfl
@[simp] theorem State.setTrig_out (s : State) (k : Nat) (x : Trig) : (s.setTrig k x).out = s.out := rfl
@[simp] theorem State.setTrig_fresh (s : State) (k : Nat) (x : Trig) : (s.setTrig k x).fresh = s.fresh := rfl
@[simp] theorem State.setTrig_plb_time (s : State) (k : Nat) (x : Trig) : (s.setTrig k x).plb.time = s.plb.time := rfl
@[simp] theorem State.setTrig_plb_ppsOutEn (s : State) (k : Nat) (x : Trig) : (s.setTrig k x).plb.ppsOutEn = s.plb.ppsOutEn := rfl
@[simp] theorem State.setTrig_plb_swLock (s : State) (k : Nat) (x : Trig) : (s.setTrig k x).plb.swLock = s.plb.swLock := rfl
@[simp] theorem State.setTrig_plb_swMode (s : State) (k : Nat) (x : Trig) : (s.setTrig k x).plb.swMode = s.plb.swMode := rfl
@[simp] theorem State.setTrig_plb_st (s : State) (k : Nat) (x : Trig) : (s.setTrig k x).plb.st = s.plb.st := rfl
@[simp] theorem State.setTrig_plb_freqHold (s : State) (k : Nat) (x : Trig) : (s.setTrig k x).plb.freqHold = s.plb.freqHold := rfl
@[simp] theorem State.setTrig_plb_selected (s : State) (k : Nat) (x : Trig) : (s.setTrig k x).plb.selected = s.plb.selected := rfl
@[simp] theorem State.setTrig_plb_started (s : State) (k : Nat) (x : Trig) : (s.setTrig k x).plb.started = s.plb.started := rfl
@[simp] theorem State.setTrig_plb_stepEpoch (s : State) (k : Nat) (x : Trig) : (s.setTrig k x).plb.stepEpoch = s.plb.stepEpoch := rfl
@[simp] theorem State.setTrig_plb_err (s : State) (k : Nat) (x : Trig) : (s.setTrig k x).plb.err = s.plb.err := rfl
@[simp] theorem State.setTrig_plb_calS (s : State) (k : Nat) (x : Trig) : (s.setTrig k x).plb.calS = s.plb.calS := rfl
@[simp] theorem State.setTrig_plb_outlierNs (s : State) (k : Nat) (x : Trig) : (s.setTrig k x).plb.outlierNs = s.plb.outlierNs := rfl
@[simp] theorem State.setTrig_plb_bw (s : State) (k : Nat) (x : Trig) : (s.setTrig k x).plb.bw = s.plb.bw := rfl
@[simp] theorem State.setTrig_plb_inc (s : State) (k : Nat) (x : Trig) : (s.setTrig k x).plb.inc = s.plb.inc := rfl
@[simp] theorem State.setTrig_plb_stepVal (s : State) (k : Nat) (x : Trig) : (s.setTrig k x).plb.stepVal = s.plb.stepVal := rfl
@[simp] theorem State.setTrig_plb_offset (s : State) (k : Nat) (x : Trig) : (s.setTrig k x).plb.offset = s.plb.offset := rfl
@[simp] theorem State.setTrig_plb_ptpCfg (s : State) (k : Nat) (x : Trig) : (s.setTrig k x).plb.ptpCfg = s.plb.ptpCfg := rfl
@[simp] theorem State.setTrig_plb_ppsInAdj (s : State) (k : Nat) (x : Trig) : (s.setTrig k x).plb.ppsInAdj = s.plb.ppsInAdj := rfl
@[simp] theorem State.setTrig_plb_ppsOutAdj (s : State) (k : Nat) (x : Trig) : (s.setTrig k x).plb.ppsOutAdj = s.plb.ppsOutAdj := rfl
@[simp] theorem State.setTrig_plb_holdSeconds (s : State) (k : Nat) (x : Trig) : (s.setTrig k x).plb.holdSeconds = s.plb.holdSeconds := rfl
@[simp] theorem State.setTrig_plb_holdFrom (s : State) (k : Nat) (x : Trig) : (s.setTrig k x).plb.holdFrom = s.plb.holdFrom := rfl
@[simp] theorem State.setTrig_plb_ppsTodValid (s : State) (k : Nat) (x : Trig) : (s.setTrig k x).plb.ppsTodValid = s.plb.ppsTodValid := rfl
@[simp] theorem State.setTrig_plb_ppsTod (s : State) (k : Nat) (x : Trig) : (s.setTrig k x).plb.ppsTod = s.plb.ppsTod := rfl
@[simp] theorem State.setTrig_plb_stepCount (s : State) (k : Nat) (x : Trig) : (s.setTrig k x).plb.stepCount = s.plb.stepCount := rfl
@[simp] theorem State.setTrig_plb_switchCount (s : State) (k : Nat) (x : Trig) : (s.setTrig k x).plb.switchCount = s.plb.switchCount := rfl
@[simp] theorem State.setTrig_plb_outlierCount (s : State) (k : Nat) (x : Trig) : (s.setTrig k x).plb.outlierCount = s.plb.outlierCount := rfl
@[simp] theorem State.setTrig_plb_trigSkip (s : State) (k : Nat) (x : Trig) : (s.setTrig k x).plb.trigSkip = s.plb.trigSkip := rfl
@[simp] theorem State.setTrig_plb_srcs (s : State) (k : Nat) (x : Trig) : (s.setTrig k x).plb.srcs = s.plb.srcs := rfl
@[simp] theorem State.setTrig_plb_within20 (s : State) (k : Nat) (x : Trig) : (s.setTrig k x).plb.within20 = s.plb.within20 := rfl
@[simp] theorem State.setTrig_plb_lockHist (s : State) (k : Nat) (x : Trig) : (s.setTrig k x).plb.lockHist = s.plb.lockHist := rfl
@[simp] theorem State.setTrig_plb_lockFrom (s : State) (k : Nat) (x : Trig) : (s.setTrig k x).plb.lockFrom = s.plb.lockFrom := rfl
@[simp] theorem State.setTrig_plb_swFresh (s : State) (k : Nat) (x : Trig) : (s.setTrig k x).plb.swFresh = s.plb.swFresh := rfl
@[simp] theorem State.setTrig_plb_master (s : State) (k : Nat) (x : Trig) : (s.setTrig k x).plb.master = s.plb.master := rfl
@[simp] theorem State.setTrig_plb_syncWait (s : State) (k : Nat) (x : Trig) : (s.setTrig k x).plb.syncWait = s.plb.syncWait := rfl
@[simp] theorem State.setTrig_plb_syncDiff (s : State) (k : Nat) (x : Trig) : (s.setTrig k x).plb.syncDiff = s.plb.syncDiff := rfl
@[simp] theorem State.setTrig_plb_pathDelay (s : State) (k : Nat) (x : Trig) : (s.setTrig k x).plb.pathDelay = s.plb.pathDelay := rfl
@[simp] theorem State.setTrig_plb_delayReq (s : State) (k : Nat) (x : Trig) : (s.setTrig k x).plb.delayReq = s.plb.delayReq := rfl
@[simp] theorem State.setTrig_plb_delaySeq (s : State) (k : Nat) (x : Trig) : (s.setTrig k x).plb.delaySeq = s.plb.delaySeq := rfl
@[simp] theorem State.setTrig_plb_lastEdge (s : State) (k : Nat) (x : Trig) : (s.setTrig k x).plb.lastEdge = s.plb.lastEdge := rfl
@[simp] theorem State.setTrig_plb_ppsGood (s : State) (k : Nat) (x : Trig) : (s.setTrig k x).plb.ppsGood = s.plb.ppsGood := rfl
@[simp] theorem State.setTrig_plb_refGood (s : State) (k : Nat) (x : Trig) : (s.setTrig k x).plb.refGood = s.plb.refGood := rfl
@[simp] theorem State.setTrig_plb_ppsPulses (s : State) (k : Nat) (x : Trig) : (s.setTrig k x).plb.ppsPulses = s.plb.ppsPulses := rfl
@[simp] theorem State.setTrig_plb_servoK (s : State) (k : Nat) (x : Trig) : (s.setTrig k x).plb.servoK = s.plb.servoK := rfl
@[simp] theorem State.setTrig_plb_filtK (s : State) (k : Nat) (x : Trig) : (s.setTrig k x).plb.filtK = s.plb.filtK := rfl
@[simp] theorem State.setTrig_trig (s : State) (k : Nat) (x : Trig) : (s.setTrig k x).trig k = x := Tab.get_put _ _ k x
theorem State.setTrig_trig_ne (s : State) (k j : Nat) (x : Trig) (h : j ≠ k) : (s.setTrig k x).trig j = s.trig j := Tab.get_put_ne _ _ _ k j x h
@[simp] theorem State.setTrig_eng (s : State) (k j : Nat) (x : Trig) : (s.setTrig k x).eng j = s.eng j := rfl
@[simp] theorem State.setTrig_src (s : State) (k j : Nat) (x : Trig) : (s.setTrig k x).src j = s.src j := rfl
@[simp] theorem State.setTrig_stack (s : State) (k j : Nat) (x : Trig) : (s.setTrig k x).stack j = s.stack j := rfl
@[simp] theorem State.setTrig_queue (s : State) (k j : Nat) (x : Trig) : (s.setTrig k x).queue j = s.queue j := rfl
@[simp] theorem State.setTrig_bond (s : State) (k j : Nat) (x : Trig) : (s.setTrig k x).bond j = s.bond j := rfl
@[simp] theorem State.setTrig_lane (s : State) (k j : Nat) (x : Trig) : (s.setTrig k x).lane j = s.lane j := rfl
@[simp] theorem State.setTrig_rport (s : State) (k j : Nat) (x : Trig) : (s.setTrig k x).rport j = s.rport j := rfl
@[simp] theorem State.setTrig_trib (s : State) (k j : Nat) (x : Trig) : (s.setTrig k x).trib j = s.trib j := rfl
@[simp] theorem State.setTrig_mbond (s : State) (k j : Nat) (x : Trig) : (s.setTrig k x).mbond j = s.mbond j := rfl
@[simp] theorem State.setTrig_mlane (s : State) (k j : Nat) (x : Trig) : (s.setTrig k x).mlane j = s.mlane j := rfl
@[simp] theorem State.setTrig_sbond (s : State) (k j : Nat) (x : Trig) : (s.setTrig k x).sbond j = s.sbond j := rfl
@[simp] theorem State.setTrig_phe (s : State) (k j : Nat) (x : Trig) : (s.setTrig k x).phe j = s.phe j := rfl
@[simp] theorem State.setTrig_session (s : State) (k j : Nat) (x : Trig) : (s.setTrig k x).session j = s.session j := rfl
@[simp] theorem State.setTrig_mbox (s : State) (k j : Nat) (x : Trig) : (s.setTrig k x).mbox j = s.mbox j := rfl
@[simp] theorem State.setTrig_part (s : State) (k j : Nat) (x : Trig) : (s.setTrig k x).part j = s.part j := rfl

/-! ## setStack -/

@[simp] theorem State.setStack_pending (s : State) (k : Nat) (x : Stack) : (s.setStack k x).pending = s.pending := rfl
@[simp] theorem State.setStack_top (s : State) (k : Nat) (x : Stack) : (s.setStack k x).top = s.top := rfl
@[simp] theorem State.setStack_captures (s : State) (k : Nat) (x : Stack) : (s.setStack k x).captures = s.captures := rfl
@[simp] theorem State.setStack_wstage (s : State) (k : Nat) (x : Stack) : (s.setStack k x).wstage = s.wstage := rfl
@[simp] theorem State.setStack_engines (s : State) (k : Nat) (x : Stack) : (s.setStack k x).engines = s.engines := rfl
@[simp] theorem State.setStack_skm (s : State) (k : Nat) (x : Stack) : (s.setStack k x).skm = s.skm := rfl
@[simp] theorem State.setStack_stn (s : State) (k : Nat) (x : Stack) : (s.setStack k x).stn = s.stn := rfl
@[simp] theorem State.setStack_clc (s : State) (k : Nat) (x : Stack) : (s.setStack k x).clc = s.clc := rfl
@[simp] theorem State.setStack_se (s : State) (k : Nat) (x : Stack) : (s.setStack k x).se = s.se := rfl
@[simp] theorem State.setStack_plb (s : State) (k : Nat) (x : Stack) : (s.setStack k x).plb = s.plb := rfl
@[simp] theorem State.setStack_lth (s : State) (k : Nat) (x : Stack) : (s.setStack k x).lth = s.lth := rfl
@[simp] theorem State.setStack_sch (s : State) (k : Nat) (x : Stack) : (s.setStack k x).sch = s.sch := rfl
@[simp] theorem State.setStack_rnd (s : State) (k : Nat) (x : Stack) : (s.setStack k x).rnd = s.rnd := rfl
@[simp] theorem State.setStack_mnd (s : State) (k : Nat) (x : Stack) : (s.setStack k x).mnd = s.mnd := rfl
@[simp] theorem State.setStack_slr (s : State) (k : Nat) (x : Stack) : (s.setStack k x).slr = s.slr := rfl
@[simp] theorem State.setStack_phn (s : State) (k : Nat) (x : Stack) : (s.setStack k x).phn = s.phn := rfl
@[simp] theorem State.setStack_hwk (s : State) (k : Nat) (x : Stack) : (s.setStack k x).hwk = s.hwk := rfl
@[simp] theorem State.setStack_sng (s : State) (k : Nat) (x : Stack) : (s.setStack k x).sng = s.sng := rfl
@[simp] theorem State.setStack_pwr (s : State) (k : Nat) (x : Stack) : (s.setStack k x).pwr = s.pwr := rfl
@[simp] theorem State.setStack_tap (s : State) (k : Nat) (x : Stack) : (s.setStack k x).tap = s.tap := rfl
@[simp] theorem State.setStack_out (s : State) (k : Nat) (x : Stack) : (s.setStack k x).out = s.out := rfl
@[simp] theorem State.setStack_fresh (s : State) (k : Nat) (x : Stack) : (s.setStack k x).fresh = s.fresh := rfl
@[simp] theorem State.setStack_hbm_bytes (s : State) (k : Nat) (x : Stack) : (s.setStack k x).hbm.bytes = s.hbm.bytes := rfl
@[simp] theorem State.setStack_hbm_tags (s : State) (k : Nat) (x : Stack) : (s.setStack k x).hbm.tags = s.hbm.tags := rfl
@[simp] theorem State.setStack_hbm_soft (s : State) (k : Nat) (x : Stack) : (s.setStack k x).hbm.soft = s.hbm.soft := rfl
@[simp] theorem State.setStack_hbm_hard (s : State) (k : Nat) (x : Stack) : (s.setStack k x).hbm.hard = s.hbm.hard := rfl
@[simp] theorem State.setStack_hbm_writeback (s : State) (k : Nat) (x : Stack) : (s.setStack k x).hbm.writeback = s.hbm.writeback := rfl
@[simp] theorem State.setStack_stack (s : State) (k : Nat) (x : Stack) : (s.setStack k x).stack k = x := Tab.get_put _ _ k x
theorem State.setStack_stack_ne (s : State) (k j : Nat) (x : Stack) (h : j ≠ k) : (s.setStack k x).stack j = s.stack j := Tab.get_put_ne _ _ _ k j x h
@[simp] theorem State.setStack_eng (s : State) (k j : Nat) (x : Stack) : (s.setStack k x).eng j = s.eng j := rfl
@[simp] theorem State.setStack_src (s : State) (k j : Nat) (x : Stack) : (s.setStack k x).src j = s.src j := rfl
@[simp] theorem State.setStack_trig (s : State) (k j : Nat) (x : Stack) : (s.setStack k x).trig j = s.trig j := rfl
@[simp] theorem State.setStack_queue (s : State) (k j : Nat) (x : Stack) : (s.setStack k x).queue j = s.queue j := rfl
@[simp] theorem State.setStack_bond (s : State) (k j : Nat) (x : Stack) : (s.setStack k x).bond j = s.bond j := rfl
@[simp] theorem State.setStack_lane (s : State) (k j : Nat) (x : Stack) : (s.setStack k x).lane j = s.lane j := rfl
@[simp] theorem State.setStack_rport (s : State) (k j : Nat) (x : Stack) : (s.setStack k x).rport j = s.rport j := rfl
@[simp] theorem State.setStack_trib (s : State) (k j : Nat) (x : Stack) : (s.setStack k x).trib j = s.trib j := rfl
@[simp] theorem State.setStack_mbond (s : State) (k j : Nat) (x : Stack) : (s.setStack k x).mbond j = s.mbond j := rfl
@[simp] theorem State.setStack_mlane (s : State) (k j : Nat) (x : Stack) : (s.setStack k x).mlane j = s.mlane j := rfl
@[simp] theorem State.setStack_sbond (s : State) (k j : Nat) (x : Stack) : (s.setStack k x).sbond j = s.sbond j := rfl
@[simp] theorem State.setStack_phe (s : State) (k j : Nat) (x : Stack) : (s.setStack k x).phe j = s.phe j := rfl
@[simp] theorem State.setStack_session (s : State) (k j : Nat) (x : Stack) : (s.setStack k x).session j = s.session j := rfl
@[simp] theorem State.setStack_mbox (s : State) (k j : Nat) (x : Stack) : (s.setStack k x).mbox j = s.mbox j := rfl
@[simp] theorem State.setStack_part (s : State) (k j : Nat) (x : Stack) : (s.setStack k x).part j = s.part j := rfl

/-! ## setQueue -/

@[simp] theorem State.setQueue_pending (s : State) (k : Nat) (x : OutQ) : (s.setQueue k x).pending = s.pending := rfl
@[simp] theorem State.setQueue_top (s : State) (k : Nat) (x : OutQ) : (s.setQueue k x).top = s.top := rfl
@[simp] theorem State.setQueue_captures (s : State) (k : Nat) (x : OutQ) : (s.setQueue k x).captures = s.captures := rfl
@[simp] theorem State.setQueue_wstage (s : State) (k : Nat) (x : OutQ) : (s.setQueue k x).wstage = s.wstage := rfl
@[simp] theorem State.setQueue_engines (s : State) (k : Nat) (x : OutQ) : (s.setQueue k x).engines = s.engines := rfl
@[simp] theorem State.setQueue_skm (s : State) (k : Nat) (x : OutQ) : (s.setQueue k x).skm = s.skm := rfl
@[simp] theorem State.setQueue_stn (s : State) (k : Nat) (x : OutQ) : (s.setQueue k x).stn = s.stn := rfl
@[simp] theorem State.setQueue_clc (s : State) (k : Nat) (x : OutQ) : (s.setQueue k x).clc = s.clc := rfl
@[simp] theorem State.setQueue_se (s : State) (k : Nat) (x : OutQ) : (s.setQueue k x).se = s.se := rfl
@[simp] theorem State.setQueue_plb (s : State) (k : Nat) (x : OutQ) : (s.setQueue k x).plb = s.plb := rfl
@[simp] theorem State.setQueue_hbm (s : State) (k : Nat) (x : OutQ) : (s.setQueue k x).hbm = s.hbm := rfl
@[simp] theorem State.setQueue_lth (s : State) (k : Nat) (x : OutQ) : (s.setQueue k x).lth = s.lth := rfl
@[simp] theorem State.setQueue_rnd (s : State) (k : Nat) (x : OutQ) : (s.setQueue k x).rnd = s.rnd := rfl
@[simp] theorem State.setQueue_mnd (s : State) (k : Nat) (x : OutQ) : (s.setQueue k x).mnd = s.mnd := rfl
@[simp] theorem State.setQueue_slr (s : State) (k : Nat) (x : OutQ) : (s.setQueue k x).slr = s.slr := rfl
@[simp] theorem State.setQueue_phn (s : State) (k : Nat) (x : OutQ) : (s.setQueue k x).phn = s.phn := rfl
@[simp] theorem State.setQueue_hwk (s : State) (k : Nat) (x : OutQ) : (s.setQueue k x).hwk = s.hwk := rfl
@[simp] theorem State.setQueue_sng (s : State) (k : Nat) (x : OutQ) : (s.setQueue k x).sng = s.sng := rfl
@[simp] theorem State.setQueue_pwr (s : State) (k : Nat) (x : OutQ) : (s.setQueue k x).pwr = s.pwr := rfl
@[simp] theorem State.setQueue_tap (s : State) (k : Nat) (x : OutQ) : (s.setQueue k x).tap = s.tap := rfl
@[simp] theorem State.setQueue_out (s : State) (k : Nat) (x : OutQ) : (s.setQueue k x).out = s.out := rfl
@[simp] theorem State.setQueue_fresh (s : State) (k : Nat) (x : OutQ) : (s.setQueue k x).fresh = s.fresh := rfl
@[simp] theorem State.setQueue_sch_ctl (s : State) (k : Nat) (x : OutQ) : (s.setQueue k x).sch.ctl = s.sch.ctl := rfl
@[simp] theorem State.setQueue_sch_v (s : State) (k : Nat) (x : OutQ) : (s.setQueue k x).sch.v = s.sch.v := rfl
@[simp] theorem State.setQueue_sch_err (s : State) (k : Nat) (x : OutQ) : (s.setQueue k x).sch.err = s.sch.err := rfl
@[simp] theorem State.setQueue_sch_gateBase (s : State) (k : Nat) (x : OutQ) : (s.setQueue k x).sch.gateBase = s.sch.gateBase := rfl
@[simp] theorem State.setQueue_sch_gateCycle (s : State) (k : Nat) (x : OutQ) : (s.setQueue k x).sch.gateCycle = s.sch.gateCycle := rfl
@[simp] theorem State.setQueue_sch_gateEn (s : State) (k : Nat) (x : OutQ) : (s.setQueue k x).sch.gateEn = s.sch.gateEn := rfl
@[simp] theorem State.setQueue_sch_active (s : State) (k : Nat) (x : OutQ) : (s.setQueue k x).sch.active = s.sch.active := rfl
@[simp] theorem State.setQueue_sch_swapPending (s : State) (k : Nat) (x : OutQ) : (s.setQueue k x).sch.swapPending = s.sch.swapPending := rfl
@[simp] theorem State.setQueue_sch_len0 (s : State) (k : Nat) (x : OutQ) : (s.setQueue k x).sch.len0 = s.sch.len0 := rfl
@[simp] theorem State.setQueue_sch_len1 (s : State) (k : Nat) (x : OutQ) : (s.setQueue k x).sch.len1 = s.sch.len1 := rfl
@[simp] theorem State.setQueue_sch_bank0 (s : State) (k : Nat) (x : OutQ) : (s.setQueue k x).sch.bank0 = s.sch.bank0 := rfl
@[simp] theorem State.setQueue_sch_bank1 (s : State) (k : Nat) (x : OutQ) : (s.setQueue k x).sch.bank1 = s.sch.bank1 := rfl
@[simp] theorem State.setQueue_sch_lastFire (s : State) (k : Nat) (x : OutQ) : (s.setQueue k x).sch.lastFire = s.sch.lastFire := rfl
@[simp] theorem State.setQueue_sch_samplePeriod (s : State) (k : Nat) (x : OutQ) : (s.setQueue k x).sch.samplePeriod = s.sch.samplePeriod := rfl
@[simp] theorem State.setQueue_sch_sampleSeq (s : State) (k : Nat) (x : OutQ) : (s.setQueue k x).sch.sampleSeq = s.sch.sampleSeq := rfl
@[simp] theorem State.setQueue_sch_ctlDrop (s : State) (k : Nat) (x : OutQ) : (s.setQueue k x).sch.ctlDrop = s.sch.ctlDrop := rfl
@[simp] theorem State.setQueue_queue (s : State) (k : Nat) (x : OutQ) : (s.setQueue k x).queue k = x := Tab.get_put _ _ k x
theorem State.setQueue_queue_ne (s : State) (k j : Nat) (x : OutQ) (h : j ≠ k) : (s.setQueue k x).queue j = s.queue j := Tab.get_put_ne _ _ _ k j x h
@[simp] theorem State.setQueue_eng (s : State) (k j : Nat) (x : OutQ) : (s.setQueue k x).eng j = s.eng j := rfl
@[simp] theorem State.setQueue_src (s : State) (k j : Nat) (x : OutQ) : (s.setQueue k x).src j = s.src j := rfl
@[simp] theorem State.setQueue_trig (s : State) (k j : Nat) (x : OutQ) : (s.setQueue k x).trig j = s.trig j := rfl
@[simp] theorem State.setQueue_stack (s : State) (k j : Nat) (x : OutQ) : (s.setQueue k x).stack j = s.stack j := rfl
@[simp] theorem State.setQueue_bond (s : State) (k j : Nat) (x : OutQ) : (s.setQueue k x).bond j = s.bond j := rfl
@[simp] theorem State.setQueue_lane (s : State) (k j : Nat) (x : OutQ) : (s.setQueue k x).lane j = s.lane j := rfl
@[simp] theorem State.setQueue_rport (s : State) (k j : Nat) (x : OutQ) : (s.setQueue k x).rport j = s.rport j := rfl
@[simp] theorem State.setQueue_trib (s : State) (k j : Nat) (x : OutQ) : (s.setQueue k x).trib j = s.trib j := rfl
@[simp] theorem State.setQueue_mbond (s : State) (k j : Nat) (x : OutQ) : (s.setQueue k x).mbond j = s.mbond j := rfl
@[simp] theorem State.setQueue_mlane (s : State) (k j : Nat) (x : OutQ) : (s.setQueue k x).mlane j = s.mlane j := rfl
@[simp] theorem State.setQueue_sbond (s : State) (k j : Nat) (x : OutQ) : (s.setQueue k x).sbond j = s.sbond j := rfl
@[simp] theorem State.setQueue_phe (s : State) (k j : Nat) (x : OutQ) : (s.setQueue k x).phe j = s.phe j := rfl
@[simp] theorem State.setQueue_session (s : State) (k j : Nat) (x : OutQ) : (s.setQueue k x).session j = s.session j := rfl
@[simp] theorem State.setQueue_mbox (s : State) (k j : Nat) (x : OutQ) : (s.setQueue k x).mbox j = s.mbox j := rfl
@[simp] theorem State.setQueue_part (s : State) (k j : Nat) (x : OutQ) : (s.setQueue k x).part j = s.part j := rfl

/-! ## setBond -/

@[simp] theorem State.setBond_pending (s : State) (k : Nat) (x : Bond) : (s.setBond k x).pending = s.pending := rfl
@[simp] theorem State.setBond_top (s : State) (k : Nat) (x : Bond) : (s.setBond k x).top = s.top := rfl
@[simp] theorem State.setBond_captures (s : State) (k : Nat) (x : Bond) : (s.setBond k x).captures = s.captures := rfl
@[simp] theorem State.setBond_wstage (s : State) (k : Nat) (x : Bond) : (s.setBond k x).wstage = s.wstage := rfl
@[simp] theorem State.setBond_engines (s : State) (k : Nat) (x : Bond) : (s.setBond k x).engines = s.engines := rfl
@[simp] theorem State.setBond_skm (s : State) (k : Nat) (x : Bond) : (s.setBond k x).skm = s.skm := rfl
@[simp] theorem State.setBond_stn (s : State) (k : Nat) (x : Bond) : (s.setBond k x).stn = s.stn := rfl
@[simp] theorem State.setBond_clc (s : State) (k : Nat) (x : Bond) : (s.setBond k x).clc = s.clc := rfl
@[simp] theorem State.setBond_se (s : State) (k : Nat) (x : Bond) : (s.setBond k x).se = s.se := rfl
@[simp] theorem State.setBond_plb (s : State) (k : Nat) (x : Bond) : (s.setBond k x).plb = s.plb := rfl
@[simp] theorem State.setBond_hbm (s : State) (k : Nat) (x : Bond) : (s.setBond k x).hbm = s.hbm := rfl
@[simp] theorem State.setBond_lth (s : State) (k : Nat) (x : Bond) : (s.setBond k x).lth = s.lth := rfl
@[simp] theorem State.setBond_sch (s : State) (k : Nat) (x : Bond) : (s.setBond k x).sch = s.sch := rfl
@[simp] theorem State.setBond_mnd (s : State) (k : Nat) (x : Bond) : (s.setBond k x).mnd = s.mnd := rfl
@[simp] theorem State.setBond_slr (s : State) (k : Nat) (x : Bond) : (s.setBond k x).slr = s.slr := rfl
@[simp] theorem State.setBond_phn (s : State) (k : Nat) (x : Bond) : (s.setBond k x).phn = s.phn := rfl
@[simp] theorem State.setBond_hwk (s : State) (k : Nat) (x : Bond) : (s.setBond k x).hwk = s.hwk := rfl
@[simp] theorem State.setBond_sng (s : State) (k : Nat) (x : Bond) : (s.setBond k x).sng = s.sng := rfl
@[simp] theorem State.setBond_pwr (s : State) (k : Nat) (x : Bond) : (s.setBond k x).pwr = s.pwr := rfl
@[simp] theorem State.setBond_tap (s : State) (k : Nat) (x : Bond) : (s.setBond k x).tap = s.tap := rfl
@[simp] theorem State.setBond_out (s : State) (k : Nat) (x : Bond) : (s.setBond k x).out = s.out := rfl
@[simp] theorem State.setBond_fresh (s : State) (k : Nat) (x : Bond) : (s.setBond k x).fresh = s.fresh := rfl
@[simp] theorem State.setBond_rnd_ports (s : State) (k : Nat) (x : Bond) : (s.setBond k x).rnd.ports = s.rnd.ports := rfl
@[simp] theorem State.setBond_rnd_lanes (s : State) (k : Nat) (x : Bond) : (s.setBond k x).rnd.lanes = s.rnd.lanes := rfl
@[simp] theorem State.setBond_rnd_tribs (s : State) (k : Nat) (x : Bond) : (s.setBond k x).rnd.tribs = s.rnd.tribs := rfl
@[simp] theorem State.setBond_bond (s : State) (k : Nat) (x : Bond) : (s.setBond k x).bond k = x := Tab.get_put _ _ k x
theorem State.setBond_bond_ne (s : State) (k j : Nat) (x : Bond) (h : j ≠ k) : (s.setBond k x).bond j = s.bond j := Tab.get_put_ne _ _ _ k j x h
@[simp] theorem State.setBond_eng (s : State) (k j : Nat) (x : Bond) : (s.setBond k x).eng j = s.eng j := rfl
@[simp] theorem State.setBond_src (s : State) (k j : Nat) (x : Bond) : (s.setBond k x).src j = s.src j := rfl
@[simp] theorem State.setBond_trig (s : State) (k j : Nat) (x : Bond) : (s.setBond k x).trig j = s.trig j := rfl
@[simp] theorem State.setBond_stack (s : State) (k j : Nat) (x : Bond) : (s.setBond k x).stack j = s.stack j := rfl
@[simp] theorem State.setBond_queue (s : State) (k j : Nat) (x : Bond) : (s.setBond k x).queue j = s.queue j := rfl
@[simp] theorem State.setBond_lane (s : State) (k j : Nat) (x : Bond) : (s.setBond k x).lane j = s.lane j := rfl
@[simp] theorem State.setBond_rport (s : State) (k j : Nat) (x : Bond) : (s.setBond k x).rport j = s.rport j := rfl
@[simp] theorem State.setBond_trib (s : State) (k j : Nat) (x : Bond) : (s.setBond k x).trib j = s.trib j := rfl
@[simp] theorem State.setBond_mbond (s : State) (k j : Nat) (x : Bond) : (s.setBond k x).mbond j = s.mbond j := rfl
@[simp] theorem State.setBond_mlane (s : State) (k j : Nat) (x : Bond) : (s.setBond k x).mlane j = s.mlane j := rfl
@[simp] theorem State.setBond_sbond (s : State) (k j : Nat) (x : Bond) : (s.setBond k x).sbond j = s.sbond j := rfl
@[simp] theorem State.setBond_phe (s : State) (k j : Nat) (x : Bond) : (s.setBond k x).phe j = s.phe j := rfl
@[simp] theorem State.setBond_session (s : State) (k j : Nat) (x : Bond) : (s.setBond k x).session j = s.session j := rfl
@[simp] theorem State.setBond_mbox (s : State) (k j : Nat) (x : Bond) : (s.setBond k x).mbox j = s.mbox j := rfl
@[simp] theorem State.setBond_part (s : State) (k j : Nat) (x : Bond) : (s.setBond k x).part j = s.part j := rfl

/-! ## setLane -/

@[simp] theorem State.setLane_pending (s : State) (k : Nat) (x : RLane) : (s.setLane k x).pending = s.pending := rfl
@[simp] theorem State.setLane_top (s : State) (k : Nat) (x : RLane) : (s.setLane k x).top = s.top := rfl
@[simp] theorem State.setLane_captures (s : State) (k : Nat) (x : RLane) : (s.setLane k x).captures = s.captures := rfl
@[simp] theorem State.setLane_wstage (s : State) (k : Nat) (x : RLane) : (s.setLane k x).wstage = s.wstage := rfl
@[simp] theorem State.setLane_engines (s : State) (k : Nat) (x : RLane) : (s.setLane k x).engines = s.engines := rfl
@[simp] theorem State.setLane_skm (s : State) (k : Nat) (x : RLane) : (s.setLane k x).skm = s.skm := rfl
@[simp] theorem State.setLane_stn (s : State) (k : Nat) (x : RLane) : (s.setLane k x).stn = s.stn := rfl
@[simp] theorem State.setLane_clc (s : State) (k : Nat) (x : RLane) : (s.setLane k x).clc = s.clc := rfl
@[simp] theorem State.setLane_se (s : State) (k : Nat) (x : RLane) : (s.setLane k x).se = s.se := rfl
@[simp] theorem State.setLane_plb (s : State) (k : Nat) (x : RLane) : (s.setLane k x).plb = s.plb := rfl
@[simp] theorem State.setLane_hbm (s : State) (k : Nat) (x : RLane) : (s.setLane k x).hbm = s.hbm := rfl
@[simp] theorem State.setLane_lth (s : State) (k : Nat) (x : RLane) : (s.setLane k x).lth = s.lth := rfl
@[simp] theorem State.setLane_sch (s : State) (k : Nat) (x : RLane) : (s.setLane k x).sch = s.sch := rfl
@[simp] theorem State.setLane_mnd (s : State) (k : Nat) (x : RLane) : (s.setLane k x).mnd = s.mnd := rfl
@[simp] theorem State.setLane_slr (s : State) (k : Nat) (x : RLane) : (s.setLane k x).slr = s.slr := rfl
@[simp] theorem State.setLane_phn (s : State) (k : Nat) (x : RLane) : (s.setLane k x).phn = s.phn := rfl
@[simp] theorem State.setLane_hwk (s : State) (k : Nat) (x : RLane) : (s.setLane k x).hwk = s.hwk := rfl
@[simp] theorem State.setLane_sng (s : State) (k : Nat) (x : RLane) : (s.setLane k x).sng = s.sng := rfl
@[simp] theorem State.setLane_pwr (s : State) (k : Nat) (x : RLane) : (s.setLane k x).pwr = s.pwr := rfl
@[simp] theorem State.setLane_tap (s : State) (k : Nat) (x : RLane) : (s.setLane k x).tap = s.tap := rfl
@[simp] theorem State.setLane_out (s : State) (k : Nat) (x : RLane) : (s.setLane k x).out = s.out := rfl
@[simp] theorem State.setLane_fresh (s : State) (k : Nat) (x : RLane) : (s.setLane k x).fresh = s.fresh := rfl
@[simp] theorem State.setLane_rnd_ports (s : State) (k : Nat) (x : RLane) : (s.setLane k x).rnd.ports = s.rnd.ports := rfl
@[simp] theorem State.setLane_rnd_bonds (s : State) (k : Nat) (x : RLane) : (s.setLane k x).rnd.bonds = s.rnd.bonds := rfl
@[simp] theorem State.setLane_rnd_tribs (s : State) (k : Nat) (x : RLane) : (s.setLane k x).rnd.tribs = s.rnd.tribs := rfl
@[simp] theorem State.setLane_lane (s : State) (k : Nat) (x : RLane) : (s.setLane k x).lane k = x := Tab.get_put _ _ k x
theorem State.setLane_lane_ne (s : State) (k j : Nat) (x : RLane) (h : j ≠ k) : (s.setLane k x).lane j = s.lane j := Tab.get_put_ne _ _ _ k j x h
@[simp] theorem State.setLane_eng (s : State) (k j : Nat) (x : RLane) : (s.setLane k x).eng j = s.eng j := rfl
@[simp] theorem State.setLane_src (s : State) (k j : Nat) (x : RLane) : (s.setLane k x).src j = s.src j := rfl
@[simp] theorem State.setLane_trig (s : State) (k j : Nat) (x : RLane) : (s.setLane k x).trig j = s.trig j := rfl
@[simp] theorem State.setLane_stack (s : State) (k j : Nat) (x : RLane) : (s.setLane k x).stack j = s.stack j := rfl
@[simp] theorem State.setLane_queue (s : State) (k j : Nat) (x : RLane) : (s.setLane k x).queue j = s.queue j := rfl
@[simp] theorem State.setLane_bond (s : State) (k j : Nat) (x : RLane) : (s.setLane k x).bond j = s.bond j := rfl
@[simp] theorem State.setLane_rport (s : State) (k j : Nat) (x : RLane) : (s.setLane k x).rport j = s.rport j := rfl
@[simp] theorem State.setLane_trib (s : State) (k j : Nat) (x : RLane) : (s.setLane k x).trib j = s.trib j := rfl
@[simp] theorem State.setLane_mbond (s : State) (k j : Nat) (x : RLane) : (s.setLane k x).mbond j = s.mbond j := rfl
@[simp] theorem State.setLane_mlane (s : State) (k j : Nat) (x : RLane) : (s.setLane k x).mlane j = s.mlane j := rfl
@[simp] theorem State.setLane_sbond (s : State) (k j : Nat) (x : RLane) : (s.setLane k x).sbond j = s.sbond j := rfl
@[simp] theorem State.setLane_phe (s : State) (k j : Nat) (x : RLane) : (s.setLane k x).phe j = s.phe j := rfl
@[simp] theorem State.setLane_session (s : State) (k j : Nat) (x : RLane) : (s.setLane k x).session j = s.session j := rfl
@[simp] theorem State.setLane_mbox (s : State) (k j : Nat) (x : RLane) : (s.setLane k x).mbox j = s.mbox j := rfl
@[simp] theorem State.setLane_part (s : State) (k j : Nat) (x : RLane) : (s.setLane k x).part j = s.part j := rfl

/-! ## setRport -/

@[simp] theorem State.setRport_pending (s : State) (k : Nat) (x : RPort) : (s.setRport k x).pending = s.pending := rfl
@[simp] theorem State.setRport_top (s : State) (k : Nat) (x : RPort) : (s.setRport k x).top = s.top := rfl
@[simp] theorem State.setRport_captures (s : State) (k : Nat) (x : RPort) : (s.setRport k x).captures = s.captures := rfl
@[simp] theorem State.setRport_wstage (s : State) (k : Nat) (x : RPort) : (s.setRport k x).wstage = s.wstage := rfl
@[simp] theorem State.setRport_engines (s : State) (k : Nat) (x : RPort) : (s.setRport k x).engines = s.engines := rfl
@[simp] theorem State.setRport_skm (s : State) (k : Nat) (x : RPort) : (s.setRport k x).skm = s.skm := rfl
@[simp] theorem State.setRport_stn (s : State) (k : Nat) (x : RPort) : (s.setRport k x).stn = s.stn := rfl
@[simp] theorem State.setRport_clc (s : State) (k : Nat) (x : RPort) : (s.setRport k x).clc = s.clc := rfl
@[simp] theorem State.setRport_se (s : State) (k : Nat) (x : RPort) : (s.setRport k x).se = s.se := rfl
@[simp] theorem State.setRport_plb (s : State) (k : Nat) (x : RPort) : (s.setRport k x).plb = s.plb := rfl
@[simp] theorem State.setRport_hbm (s : State) (k : Nat) (x : RPort) : (s.setRport k x).hbm = s.hbm := rfl
@[simp] theorem State.setRport_lth (s : State) (k : Nat) (x : RPort) : (s.setRport k x).lth = s.lth := rfl
@[simp] theorem State.setRport_sch (s : State) (k : Nat) (x : RPort) : (s.setRport k x).sch = s.sch := rfl
@[simp] theorem State.setRport_mnd (s : State) (k : Nat) (x : RPort) : (s.setRport k x).mnd = s.mnd := rfl
@[simp] theorem State.setRport_slr (s : State) (k : Nat) (x : RPort) : (s.setRport k x).slr = s.slr := rfl
@[simp] theorem State.setRport_phn (s : State) (k : Nat) (x : RPort) : (s.setRport k x).phn = s.phn := rfl
@[simp] theorem State.setRport_hwk (s : State) (k : Nat) (x : RPort) : (s.setRport k x).hwk = s.hwk := rfl
@[simp] theorem State.setRport_sng (s : State) (k : Nat) (x : RPort) : (s.setRport k x).sng = s.sng := rfl
@[simp] theorem State.setRport_pwr (s : State) (k : Nat) (x : RPort) : (s.setRport k x).pwr = s.pwr := rfl
@[simp] theorem State.setRport_tap (s : State) (k : Nat) (x : RPort) : (s.setRport k x).tap = s.tap := rfl
@[simp] theorem State.setRport_out (s : State) (k : Nat) (x : RPort) : (s.setRport k x).out = s.out := rfl
@[simp] theorem State.setRport_fresh (s : State) (k : Nat) (x : RPort) : (s.setRport k x).fresh = s.fresh := rfl
@[simp] theorem State.setRport_rnd_lanes (s : State) (k : Nat) (x : RPort) : (s.setRport k x).rnd.lanes = s.rnd.lanes := rfl
@[simp] theorem State.setRport_rnd_bonds (s : State) (k : Nat) (x : RPort) : (s.setRport k x).rnd.bonds = s.rnd.bonds := rfl
@[simp] theorem State.setRport_rnd_tribs (s : State) (k : Nat) (x : RPort) : (s.setRport k x).rnd.tribs = s.rnd.tribs := rfl
@[simp] theorem State.setRport_rport (s : State) (k : Nat) (x : RPort) : (s.setRport k x).rport k = x := Tab.get_put _ _ k x
theorem State.setRport_rport_ne (s : State) (k j : Nat) (x : RPort) (h : j ≠ k) : (s.setRport k x).rport j = s.rport j := Tab.get_put_ne _ _ _ k j x h
@[simp] theorem State.setRport_eng (s : State) (k j : Nat) (x : RPort) : (s.setRport k x).eng j = s.eng j := rfl
@[simp] theorem State.setRport_src (s : State) (k j : Nat) (x : RPort) : (s.setRport k x).src j = s.src j := rfl
@[simp] theorem State.setRport_trig (s : State) (k j : Nat) (x : RPort) : (s.setRport k x).trig j = s.trig j := rfl
@[simp] theorem State.setRport_stack (s : State) (k j : Nat) (x : RPort) : (s.setRport k x).stack j = s.stack j := rfl
@[simp] theorem State.setRport_queue (s : State) (k j : Nat) (x : RPort) : (s.setRport k x).queue j = s.queue j := rfl
@[simp] theorem State.setRport_bond (s : State) (k j : Nat) (x : RPort) : (s.setRport k x).bond j = s.bond j := rfl
@[simp] theorem State.setRport_lane (s : State) (k j : Nat) (x : RPort) : (s.setRport k x).lane j = s.lane j := rfl
@[simp] theorem State.setRport_trib (s : State) (k j : Nat) (x : RPort) : (s.setRport k x).trib j = s.trib j := rfl
@[simp] theorem State.setRport_mbond (s : State) (k j : Nat) (x : RPort) : (s.setRport k x).mbond j = s.mbond j := rfl
@[simp] theorem State.setRport_mlane (s : State) (k j : Nat) (x : RPort) : (s.setRport k x).mlane j = s.mlane j := rfl
@[simp] theorem State.setRport_sbond (s : State) (k j : Nat) (x : RPort) : (s.setRport k x).sbond j = s.sbond j := rfl
@[simp] theorem State.setRport_phe (s : State) (k j : Nat) (x : RPort) : (s.setRport k x).phe j = s.phe j := rfl
@[simp] theorem State.setRport_session (s : State) (k j : Nat) (x : RPort) : (s.setRport k x).session j = s.session j := rfl
@[simp] theorem State.setRport_mbox (s : State) (k j : Nat) (x : RPort) : (s.setRport k x).mbox j = s.mbox j := rfl
@[simp] theorem State.setRport_part (s : State) (k j : Nat) (x : RPort) : (s.setRport k x).part j = s.part j := rfl

/-! ## setTrib -/

@[simp] theorem State.setTrib_pending (s : State) (k : Nat) (x : Trib) : (s.setTrib k x).pending = s.pending := rfl
@[simp] theorem State.setTrib_top (s : State) (k : Nat) (x : Trib) : (s.setTrib k x).top = s.top := rfl
@[simp] theorem State.setTrib_captures (s : State) (k : Nat) (x : Trib) : (s.setTrib k x).captures = s.captures := rfl
@[simp] theorem State.setTrib_wstage (s : State) (k : Nat) (x : Trib) : (s.setTrib k x).wstage = s.wstage := rfl
@[simp] theorem State.setTrib_engines (s : State) (k : Nat) (x : Trib) : (s.setTrib k x).engines = s.engines := rfl
@[simp] theorem State.setTrib_skm (s : State) (k : Nat) (x : Trib) : (s.setTrib k x).skm = s.skm := rfl
@[simp] theorem State.setTrib_stn (s : State) (k : Nat) (x : Trib) : (s.setTrib k x).stn = s.stn := rfl
@[simp] theorem State.setTrib_clc (s : State) (k : Nat) (x : Trib) : (s.setTrib k x).clc = s.clc := rfl
@[simp] theorem State.setTrib_se (s : State) (k : Nat) (x : Trib) : (s.setTrib k x).se = s.se := rfl
@[simp] theorem State.setTrib_plb (s : State) (k : Nat) (x : Trib) : (s.setTrib k x).plb = s.plb := rfl
@[simp] theorem State.setTrib_hbm (s : State) (k : Nat) (x : Trib) : (s.setTrib k x).hbm = s.hbm := rfl
@[simp] theorem State.setTrib_lth (s : State) (k : Nat) (x : Trib) : (s.setTrib k x).lth = s.lth := rfl
@[simp] theorem State.setTrib_sch (s : State) (k : Nat) (x : Trib) : (s.setTrib k x).sch = s.sch := rfl
@[simp] theorem State.setTrib_mnd (s : State) (k : Nat) (x : Trib) : (s.setTrib k x).mnd = s.mnd := rfl
@[simp] theorem State.setTrib_slr (s : State) (k : Nat) (x : Trib) : (s.setTrib k x).slr = s.slr := rfl
@[simp] theorem State.setTrib_phn (s : State) (k : Nat) (x : Trib) : (s.setTrib k x).phn = s.phn := rfl
@[simp] theorem State.setTrib_hwk (s : State) (k : Nat) (x : Trib) : (s.setTrib k x).hwk = s.hwk := rfl
@[simp] theorem State.setTrib_sng (s : State) (k : Nat) (x : Trib) : (s.setTrib k x).sng = s.sng := rfl
@[simp] theorem State.setTrib_pwr (s : State) (k : Nat) (x : Trib) : (s.setTrib k x).pwr = s.pwr := rfl
@[simp] theorem State.setTrib_tap (s : State) (k : Nat) (x : Trib) : (s.setTrib k x).tap = s.tap := rfl
@[simp] theorem State.setTrib_out (s : State) (k : Nat) (x : Trib) : (s.setTrib k x).out = s.out := rfl
@[simp] theorem State.setTrib_fresh (s : State) (k : Nat) (x : Trib) : (s.setTrib k x).fresh = s.fresh := rfl
@[simp] theorem State.setTrib_rnd_ports (s : State) (k : Nat) (x : Trib) : (s.setTrib k x).rnd.ports = s.rnd.ports := rfl
@[simp] theorem State.setTrib_rnd_lanes (s : State) (k : Nat) (x : Trib) : (s.setTrib k x).rnd.lanes = s.rnd.lanes := rfl
@[simp] theorem State.setTrib_rnd_bonds (s : State) (k : Nat) (x : Trib) : (s.setTrib k x).rnd.bonds = s.rnd.bonds := rfl
@[simp] theorem State.setTrib_trib (s : State) (k : Nat) (x : Trib) : (s.setTrib k x).trib k = x := Tab.get_put _ _ k x
theorem State.setTrib_trib_ne (s : State) (k j : Nat) (x : Trib) (h : j ≠ k) : (s.setTrib k x).trib j = s.trib j := Tab.get_put_ne _ _ _ k j x h
@[simp] theorem State.setTrib_eng (s : State) (k j : Nat) (x : Trib) : (s.setTrib k x).eng j = s.eng j := rfl
@[simp] theorem State.setTrib_src (s : State) (k j : Nat) (x : Trib) : (s.setTrib k x).src j = s.src j := rfl
@[simp] theorem State.setTrib_trig (s : State) (k j : Nat) (x : Trib) : (s.setTrib k x).trig j = s.trig j := rfl
@[simp] theorem State.setTrib_stack (s : State) (k j : Nat) (x : Trib) : (s.setTrib k x).stack j = s.stack j := rfl
@[simp] theorem State.setTrib_queue (s : State) (k j : Nat) (x : Trib) : (s.setTrib k x).queue j = s.queue j := rfl
@[simp] theorem State.setTrib_bond (s : State) (k j : Nat) (x : Trib) : (s.setTrib k x).bond j = s.bond j := rfl
@[simp] theorem State.setTrib_lane (s : State) (k j : Nat) (x : Trib) : (s.setTrib k x).lane j = s.lane j := rfl
@[simp] theorem State.setTrib_rport (s : State) (k j : Nat) (x : Trib) : (s.setTrib k x).rport j = s.rport j := rfl
@[simp] theorem State.setTrib_mbond (s : State) (k j : Nat) (x : Trib) : (s.setTrib k x).mbond j = s.mbond j := rfl
@[simp] theorem State.setTrib_mlane (s : State) (k j : Nat) (x : Trib) : (s.setTrib k x).mlane j = s.mlane j := rfl
@[simp] theorem State.setTrib_sbond (s : State) (k j : Nat) (x : Trib) : (s.setTrib k x).sbond j = s.sbond j := rfl
@[simp] theorem State.setTrib_phe (s : State) (k j : Nat) (x : Trib) : (s.setTrib k x).phe j = s.phe j := rfl
@[simp] theorem State.setTrib_session (s : State) (k j : Nat) (x : Trib) : (s.setTrib k x).session j = s.session j := rfl
@[simp] theorem State.setTrib_mbox (s : State) (k j : Nat) (x : Trib) : (s.setTrib k x).mbox j = s.mbox j := rfl
@[simp] theorem State.setTrib_part (s : State) (k j : Nat) (x : Trib) : (s.setTrib k x).part j = s.part j := rfl

/-! ## setMbond -/

@[simp] theorem State.setMbond_pending (s : State) (k : Nat) (x : MBond) : (s.setMbond k x).pending = s.pending := rfl
@[simp] theorem State.setMbond_top (s : State) (k : Nat) (x : MBond) : (s.setMbond k x).top = s.top := rfl
@[simp] theorem State.setMbond_captures (s : State) (k : Nat) (x : MBond) : (s.setMbond k x).captures = s.captures := rfl
@[simp] theorem State.setMbond_wstage (s : State) (k : Nat) (x : MBond) : (s.setMbond k x).wstage = s.wstage := rfl
@[simp] theorem State.setMbond_engines (s : State) (k : Nat) (x : MBond) : (s.setMbond k x).engines = s.engines := rfl
@[simp] theorem State.setMbond_skm (s : State) (k : Nat) (x : MBond) : (s.setMbond k x).skm = s.skm := rfl
@[simp] theorem State.setMbond_stn (s : State) (k : Nat) (x : MBond) : (s.setMbond k x).stn = s.stn := rfl
@[simp] theorem State.setMbond_clc (s : State) (k : Nat) (x : MBond) : (s.setMbond k x).clc = s.clc := rfl
@[simp] theorem State.setMbond_se (s : State) (k : Nat) (x : MBond) : (s.setMbond k x).se = s.se := rfl
@[simp] theorem State.setMbond_plb (s : State) (k : Nat) (x : MBond) : (s.setMbond k x).plb = s.plb := rfl
@[simp] theorem State.setMbond_hbm (s : State) (k : Nat) (x : MBond) : (s.setMbond k x).hbm = s.hbm := rfl
@[simp] theorem State.setMbond_lth (s : State) (k : Nat) (x : MBond) : (s.setMbond k x).lth = s.lth := rfl
@[simp] theorem State.setMbond_sch (s : State) (k : Nat) (x : MBond) : (s.setMbond k x).sch = s.sch := rfl
@[simp] theorem State.setMbond_rnd (s : State) (k : Nat) (x : MBond) : (s.setMbond k x).rnd = s.rnd := rfl
@[simp] theorem State.setMbond_slr (s : State) (k : Nat) (x : MBond) : (s.setMbond k x).slr = s.slr := rfl
@[simp] theorem State.setMbond_phn (s : State) (k : Nat) (x : MBond) : (s.setMbond k x).phn = s.phn := rfl
@[simp] theorem State.setMbond_hwk (s : State) (k : Nat) (x : MBond) : (s.setMbond k x).hwk = s.hwk := rfl
@[simp] theorem State.setMbond_sng (s : State) (k : Nat) (x : MBond) : (s.setMbond k x).sng = s.sng := rfl
@[simp] theorem State.setMbond_pwr (s : State) (k : Nat) (x : MBond) : (s.setMbond k x).pwr = s.pwr := rfl
@[simp] theorem State.setMbond_tap (s : State) (k : Nat) (x : MBond) : (s.setMbond k x).tap = s.tap := rfl
@[simp] theorem State.setMbond_out (s : State) (k : Nat) (x : MBond) : (s.setMbond k x).out = s.out := rfl
@[simp] theorem State.setMbond_fresh (s : State) (k : Nat) (x : MBond) : (s.setMbond k x).fresh = s.fresh := rfl
@[simp] theorem State.setMbond_mnd_lanes (s : State) (k : Nat) (x : MBond) : (s.setMbond k x).mnd.lanes = s.mnd.lanes := rfl
@[simp] theorem State.setMbond_mnd_move (s : State) (k : Nat) (x : MBond) : (s.setMbond k x).mnd.move = s.mnd.move := rfl
@[simp] theorem State.setMbond_mnd_moveResult (s : State) (k : Nat) (x : MBond) : (s.setMbond k x).mnd.moveResult = s.mnd.moveResult := rfl
@[simp] theorem State.setMbond_mnd_action (s : State) (k : Nat) (x : MBond) : (s.setMbond k x).mnd.action = s.mnd.action := rfl
@[simp] theorem State.setMbond_mnd_bondSel (s : State) (k : Nat) (x : MBond) : (s.setMbond k x).mnd.bondSel = s.mnd.bondSel := rfl
@[simp] theorem State.setMbond_mnd_posSel (s : State) (k : Nat) (x : MBond) : (s.setMbond k x).mnd.posSel = s.mnd.posSel := rfl
@[simp] theorem State.setMbond_mbond (s : State) (k : Nat) (x : MBond) : (s.setMbond k x).mbond k = x := Tab.get_put _ _ k x
theorem State.setMbond_mbond_ne (s : State) (k j : Nat) (x : MBond) (h : j ≠ k) : (s.setMbond k x).mbond j = s.mbond j := Tab.get_put_ne _ _ _ k j x h
@[simp] theorem State.setMbond_eng (s : State) (k j : Nat) (x : MBond) : (s.setMbond k x).eng j = s.eng j := rfl
@[simp] theorem State.setMbond_src (s : State) (k j : Nat) (x : MBond) : (s.setMbond k x).src j = s.src j := rfl
@[simp] theorem State.setMbond_trig (s : State) (k j : Nat) (x : MBond) : (s.setMbond k x).trig j = s.trig j := rfl
@[simp] theorem State.setMbond_stack (s : State) (k j : Nat) (x : MBond) : (s.setMbond k x).stack j = s.stack j := rfl
@[simp] theorem State.setMbond_queue (s : State) (k j : Nat) (x : MBond) : (s.setMbond k x).queue j = s.queue j := rfl
@[simp] theorem State.setMbond_bond (s : State) (k j : Nat) (x : MBond) : (s.setMbond k x).bond j = s.bond j := rfl
@[simp] theorem State.setMbond_lane (s : State) (k j : Nat) (x : MBond) : (s.setMbond k x).lane j = s.lane j := rfl
@[simp] theorem State.setMbond_rport (s : State) (k j : Nat) (x : MBond) : (s.setMbond k x).rport j = s.rport j := rfl
@[simp] theorem State.setMbond_trib (s : State) (k j : Nat) (x : MBond) : (s.setMbond k x).trib j = s.trib j := rfl
@[simp] theorem State.setMbond_mlane (s : State) (k j : Nat) (x : MBond) : (s.setMbond k x).mlane j = s.mlane j := rfl
@[simp] theorem State.setMbond_sbond (s : State) (k j : Nat) (x : MBond) : (s.setMbond k x).sbond j = s.sbond j := rfl
@[simp] theorem State.setMbond_phe (s : State) (k j : Nat) (x : MBond) : (s.setMbond k x).phe j = s.phe j := rfl
@[simp] theorem State.setMbond_session (s : State) (k j : Nat) (x : MBond) : (s.setMbond k x).session j = s.session j := rfl
@[simp] theorem State.setMbond_mbox (s : State) (k j : Nat) (x : MBond) : (s.setMbond k x).mbox j = s.mbox j := rfl
@[simp] theorem State.setMbond_part (s : State) (k j : Nat) (x : MBond) : (s.setMbond k x).part j = s.part j := rfl

/-! ## setMlane -/

@[simp] theorem State.setMlane_pending (s : State) (k : Nat) (x : MLane) : (s.setMlane k x).pending = s.pending := rfl
@[simp] theorem State.setMlane_top (s : State) (k : Nat) (x : MLane) : (s.setMlane k x).top = s.top := rfl
@[simp] theorem State.setMlane_captures (s : State) (k : Nat) (x : MLane) : (s.setMlane k x).captures = s.captures := rfl
@[simp] theorem State.setMlane_wstage (s : State) (k : Nat) (x : MLane) : (s.setMlane k x).wstage = s.wstage := rfl
@[simp] theorem State.setMlane_engines (s : State) (k : Nat) (x : MLane) : (s.setMlane k x).engines = s.engines := rfl
@[simp] theorem State.setMlane_skm (s : State) (k : Nat) (x : MLane) : (s.setMlane k x).skm = s.skm := rfl
@[simp] theorem State.setMlane_stn (s : State) (k : Nat) (x : MLane) : (s.setMlane k x).stn = s.stn := rfl
@[simp] theorem State.setMlane_clc (s : State) (k : Nat) (x : MLane) : (s.setMlane k x).clc = s.clc := rfl
@[simp] theorem State.setMlane_se (s : State) (k : Nat) (x : MLane) : (s.setMlane k x).se = s.se := rfl
@[simp] theorem State.setMlane_plb (s : State) (k : Nat) (x : MLane) : (s.setMlane k x).plb = s.plb := rfl
@[simp] theorem State.setMlane_hbm (s : State) (k : Nat) (x : MLane) : (s.setMlane k x).hbm = s.hbm := rfl
@[simp] theorem State.setMlane_lth (s : State) (k : Nat) (x : MLane) : (s.setMlane k x).lth = s.lth := rfl
@[simp] theorem State.setMlane_sch (s : State) (k : Nat) (x : MLane) : (s.setMlane k x).sch = s.sch := rfl
@[simp] theorem State.setMlane_rnd (s : State) (k : Nat) (x : MLane) : (s.setMlane k x).rnd = s.rnd := rfl
@[simp] theorem State.setMlane_slr (s : State) (k : Nat) (x : MLane) : (s.setMlane k x).slr = s.slr := rfl
@[simp] theorem State.setMlane_phn (s : State) (k : Nat) (x : MLane) : (s.setMlane k x).phn = s.phn := rfl
@[simp] theorem State.setMlane_hwk (s : State) (k : Nat) (x : MLane) : (s.setMlane k x).hwk = s.hwk := rfl
@[simp] theorem State.setMlane_sng (s : State) (k : Nat) (x : MLane) : (s.setMlane k x).sng = s.sng := rfl
@[simp] theorem State.setMlane_pwr (s : State) (k : Nat) (x : MLane) : (s.setMlane k x).pwr = s.pwr := rfl
@[simp] theorem State.setMlane_tap (s : State) (k : Nat) (x : MLane) : (s.setMlane k x).tap = s.tap := rfl
@[simp] theorem State.setMlane_out (s : State) (k : Nat) (x : MLane) : (s.setMlane k x).out = s.out := rfl
@[simp] theorem State.setMlane_fresh (s : State) (k : Nat) (x : MLane) : (s.setMlane k x).fresh = s.fresh := rfl
@[simp] theorem State.setMlane_mnd_bonds (s : State) (k : Nat) (x : MLane) : (s.setMlane k x).mnd.bonds = s.mnd.bonds := rfl
@[simp] theorem State.setMlane_mnd_move (s : State) (k : Nat) (x : MLane) : (s.setMlane k x).mnd.move = s.mnd.move := rfl
@[simp] theorem State.setMlane_mnd_moveResult (s : State) (k : Nat) (x : MLane) : (s.setMlane k x).mnd.moveResult = s.mnd.moveResult := rfl
@[simp] theorem State.setMlane_mnd_action (s : State) (k : Nat) (x : MLane) : (s.setMlane k x).mnd.action = s.mnd.action := rfl
@[simp] theorem State.setMlane_mnd_bondSel (s : State) (k : Nat) (x : MLane) : (s.setMlane k x).mnd.bondSel = s.mnd.bondSel := rfl
@[simp] theorem State.setMlane_mnd_posSel (s : State) (k : Nat) (x : MLane) : (s.setMlane k x).mnd.posSel = s.mnd.posSel := rfl
@[simp] theorem State.setMlane_mlane (s : State) (k : Nat) (x : MLane) : (s.setMlane k x).mlane k = x := Tab.get_put _ _ k x
theorem State.setMlane_mlane_ne (s : State) (k j : Nat) (x : MLane) (h : j ≠ k) : (s.setMlane k x).mlane j = s.mlane j := Tab.get_put_ne _ _ _ k j x h
@[simp] theorem State.setMlane_eng (s : State) (k j : Nat) (x : MLane) : (s.setMlane k x).eng j = s.eng j := rfl
@[simp] theorem State.setMlane_src (s : State) (k j : Nat) (x : MLane) : (s.setMlane k x).src j = s.src j := rfl
@[simp] theorem State.setMlane_trig (s : State) (k j : Nat) (x : MLane) : (s.setMlane k x).trig j = s.trig j := rfl
@[simp] theorem State.setMlane_stack (s : State) (k j : Nat) (x : MLane) : (s.setMlane k x).stack j = s.stack j := rfl
@[simp] theorem State.setMlane_queue (s : State) (k j : Nat) (x : MLane) : (s.setMlane k x).queue j = s.queue j := rfl
@[simp] theorem State.setMlane_bond (s : State) (k j : Nat) (x : MLane) : (s.setMlane k x).bond j = s.bond j := rfl
@[simp] theorem State.setMlane_lane (s : State) (k j : Nat) (x : MLane) : (s.setMlane k x).lane j = s.lane j := rfl
@[simp] theorem State.setMlane_rport (s : State) (k j : Nat) (x : MLane) : (s.setMlane k x).rport j = s.rport j := rfl
@[simp] theorem State.setMlane_trib (s : State) (k j : Nat) (x : MLane) : (s.setMlane k x).trib j = s.trib j := rfl
@[simp] theorem State.setMlane_mbond (s : State) (k j : Nat) (x : MLane) : (s.setMlane k x).mbond j = s.mbond j := rfl
@[simp] theorem State.setMlane_sbond (s : State) (k j : Nat) (x : MLane) : (s.setMlane k x).sbond j = s.sbond j := rfl
@[simp] theorem State.setMlane_phe (s : State) (k j : Nat) (x : MLane) : (s.setMlane k x).phe j = s.phe j := rfl
@[simp] theorem State.setMlane_session (s : State) (k j : Nat) (x : MLane) : (s.setMlane k x).session j = s.session j := rfl
@[simp] theorem State.setMlane_mbox (s : State) (k j : Nat) (x : MLane) : (s.setMlane k x).mbox j = s.mbox j := rfl
@[simp] theorem State.setMlane_part (s : State) (k j : Nat) (x : MLane) : (s.setMlane k x).part j = s.part j := rfl

/-! ## setSbond -/

@[simp] theorem State.setSbond_pending (s : State) (k : Nat) (x : SBond) : (s.setSbond k x).pending = s.pending := rfl
@[simp] theorem State.setSbond_top (s : State) (k : Nat) (x : SBond) : (s.setSbond k x).top = s.top := rfl
@[simp] theorem State.setSbond_captures (s : State) (k : Nat) (x : SBond) : (s.setSbond k x).captures = s.captures := rfl
@[simp] theorem State.setSbond_wstage (s : State) (k : Nat) (x : SBond) : (s.setSbond k x).wstage = s.wstage := rfl
@[simp] theorem State.setSbond_engines (s : State) (k : Nat) (x : SBond) : (s.setSbond k x).engines = s.engines := rfl
@[simp] theorem State.setSbond_skm (s : State) (k : Nat) (x : SBond) : (s.setSbond k x).skm = s.skm := rfl
@[simp] theorem State.setSbond_stn (s : State) (k : Nat) (x : SBond) : (s.setSbond k x).stn = s.stn := rfl
@[simp] theorem State.setSbond_clc (s : State) (k : Nat) (x : SBond) : (s.setSbond k x).clc = s.clc := rfl
@[simp] theorem State.setSbond_se (s : State) (k : Nat) (x : SBond) : (s.setSbond k x).se = s.se := rfl
@[simp] theorem State.setSbond_plb (s : State) (k : Nat) (x : SBond) : (s.setSbond k x).plb = s.plb := rfl
@[simp] theorem State.setSbond_hbm (s : State) (k : Nat) (x : SBond) : (s.setSbond k x).hbm = s.hbm := rfl
@[simp] theorem State.setSbond_lth (s : State) (k : Nat) (x : SBond) : (s.setSbond k x).lth = s.lth := rfl
@[simp] theorem State.setSbond_sch (s : State) (k : Nat) (x : SBond) : (s.setSbond k x).sch = s.sch := rfl
@[simp] theorem State.setSbond_rnd (s : State) (k : Nat) (x : SBond) : (s.setSbond k x).rnd = s.rnd := rfl
@[simp] theorem State.setSbond_mnd (s : State) (k : Nat) (x : SBond) : (s.setSbond k x).mnd = s.mnd := rfl
@[simp] theorem State.setSbond_phn (s : State) (k : Nat) (x : SBond) : (s.setSbond k x).phn = s.phn := rfl
@[simp] theorem State.setSbond_hwk (s : State) (k : Nat) (x : SBond) : (s.setSbond k x).hwk = s.hwk := rfl
@[simp] theorem State.setSbond_sng (s : State) (k : Nat) (x : SBond) : (s.setSbond k x).sng = s.sng := rfl
@[simp] theorem State.setSbond_pwr (s : State) (k : Nat) (x : SBond) : (s.setSbond k x).pwr = s.pwr := rfl
@[simp] theorem State.setSbond_tap (s : State) (k : Nat) (x : SBond) : (s.setSbond k x).tap = s.tap := rfl
@[simp] theorem State.setSbond_out (s : State) (k : Nat) (x : SBond) : (s.setSbond k x).out = s.out := rfl
@[simp] theorem State.setSbond_fresh (s : State) (k : Nat) (x : SBond) : (s.setSbond k x).fresh = s.fresh := rfl
@[simp] theorem State.setSbond_slr_err (s : State) (k : Nat) (x : SBond) : (s.setSbond k x).slr.err = s.slr.err := rfl
@[simp] theorem State.setSbond_slr_strip (s : State) (k : Nat) (x : SBond) : (s.setSbond k x).slr.strip = s.slr.strip := rfl
@[simp] theorem State.setSbond_slr_trngOk (s : State) (k : Nat) (x : SBond) : (s.setSbond k x).slr.trngOk = s.slr.trngOk := rfl
@[simp] theorem State.setSbond_slr_drbg (s : State) (k : Nat) (x : SBond) : (s.setSbond k x).slr.drbg = s.slr.drbg := rfl
@[simp] theorem State.setSbond_slr_idk (s : State) (k : Nat) (x : SBond) : (s.setSbond k x).slr.idk = s.slr.idk := rfl
@[simp] theorem State.setSbond_slr_ktk (s : State) (k : Nat) (x : SBond) : (s.setSbond k x).slr.ktk = s.slr.ktk := rfl
@[simp] theorem State.setSbond_slr_makerKey (s : State) (k : Nat) (x : SBond) : (s.setSbond k x).slr.makerKey = s.slr.makerKey := rfl
@[simp] theorem State.setSbond_slr_xts (s : State) (k : Nat) (x : SBond) : (s.setSbond k x).slr.xts = s.slr.xts := rfl
@[simp] theorem State.setSbond_slr_gateClosed (s : State) (k : Nat) (x : SBond) : (s.setSbond k x).slr.gateClosed = s.slr.gateClosed := rfl
@[simp] theorem State.setSbond_slr_overlap (s : State) (k : Nat) (x : SBond) : (s.setSbond k x).slr.overlap = s.slr.overlap := rfl
@[simp] theorem State.setSbond_slr_ownerHash (s : State) (k : Nat) (x : SBond) : (s.setSbond k x).slr.ownerHash = s.slr.ownerHash := rfl
@[simp] theorem State.setSbond_slr_minSvn (s : State) (k : Nat) (x : SBond) : (s.setSbond k x).slr.minSvn = s.slr.minSvn := rfl
@[simp] theorem State.setSbond_slr_store (s : State) (k : Nat) (x : SBond) : (s.setSbond k x).slr.store = s.slr.store := rfl
@[simp] theorem State.setSbond_slr_fails (s : State) (k : Nat) (x : SBond) : (s.setSbond k x).slr.fails = s.slr.fails := rfl
@[simp] theorem State.setSbond_slr_lockout (s : State) (k : Nat) (x : SBond) : (s.setSbond k x).slr.lockout = s.slr.lockout := rfl
@[simp] theorem State.setSbond_slr_challenge (s : State) (k : Nat) (x : SBond) : (s.setSbond k x).slr.challenge = s.slr.challenge := rfl
@[simp] theorem State.setSbond_slr_sessFail (s : State) (k : Nat) (x : SBond) : (s.setSbond k x).slr.sessFail = s.slr.sessFail := rfl
@[simp] theorem State.setSbond_slr_recFail (s : State) (k : Nat) (x : SBond) : (s.setSbond k x).slr.recFail = s.slr.recFail := rfl
@[simp] theorem State.setSbond_slr_keyLoads (s : State) (k : Nat) (x : SBond) : (s.setSbond k x).slr.keyLoads = s.slr.keyLoads := rfl
@[simp] theorem State.setSbond_slr_trngFail (s : State) (k : Nat) (x : SBond) : (s.setSbond k x).slr.trngFail = s.slr.trngFail := rfl
@[simp] theorem State.setSbond_sbond (s : State) (k : Nat) (x : SBond) : (s.setSbond k x).sbond k = x := Tab.get_put _ _ k x
theorem State.setSbond_sbond_ne (s : State) (k j : Nat) (x : SBond) (h : j ≠ k) : (s.setSbond k x).sbond j = s.sbond j := Tab.get_put_ne _ _ _ k j x h
@[simp] theorem State.setSbond_eng (s : State) (k j : Nat) (x : SBond) : (s.setSbond k x).eng j = s.eng j := rfl
@[simp] theorem State.setSbond_src (s : State) (k j : Nat) (x : SBond) : (s.setSbond k x).src j = s.src j := rfl
@[simp] theorem State.setSbond_trig (s : State) (k j : Nat) (x : SBond) : (s.setSbond k x).trig j = s.trig j := rfl
@[simp] theorem State.setSbond_stack (s : State) (k j : Nat) (x : SBond) : (s.setSbond k x).stack j = s.stack j := rfl
@[simp] theorem State.setSbond_queue (s : State) (k j : Nat) (x : SBond) : (s.setSbond k x).queue j = s.queue j := rfl
@[simp] theorem State.setSbond_bond (s : State) (k j : Nat) (x : SBond) : (s.setSbond k x).bond j = s.bond j := rfl
@[simp] theorem State.setSbond_lane (s : State) (k j : Nat) (x : SBond) : (s.setSbond k x).lane j = s.lane j := rfl
@[simp] theorem State.setSbond_rport (s : State) (k j : Nat) (x : SBond) : (s.setSbond k x).rport j = s.rport j := rfl
@[simp] theorem State.setSbond_trib (s : State) (k j : Nat) (x : SBond) : (s.setSbond k x).trib j = s.trib j := rfl
@[simp] theorem State.setSbond_mbond (s : State) (k j : Nat) (x : SBond) : (s.setSbond k x).mbond j = s.mbond j := rfl
@[simp] theorem State.setSbond_mlane (s : State) (k j : Nat) (x : SBond) : (s.setSbond k x).mlane j = s.mlane j := rfl
@[simp] theorem State.setSbond_phe (s : State) (k j : Nat) (x : SBond) : (s.setSbond k x).phe j = s.phe j := rfl
@[simp] theorem State.setSbond_session (s : State) (k j : Nat) (x : SBond) : (s.setSbond k x).session j = s.session j := rfl
@[simp] theorem State.setSbond_mbox (s : State) (k j : Nat) (x : SBond) : (s.setSbond k x).mbox j = s.mbox j := rfl
@[simp] theorem State.setSbond_part (s : State) (k j : Nat) (x : SBond) : (s.setSbond k x).part j = s.part j := rfl

/-! ## setPhe -/

@[simp] theorem State.setPhe_pending (s : State) (k : Nat) (x : PEng) : (s.setPhe k x).pending = s.pending := rfl
@[simp] theorem State.setPhe_top (s : State) (k : Nat) (x : PEng) : (s.setPhe k x).top = s.top := rfl
@[simp] theorem State.setPhe_captures (s : State) (k : Nat) (x : PEng) : (s.setPhe k x).captures = s.captures := rfl
@[simp] theorem State.setPhe_wstage (s : State) (k : Nat) (x : PEng) : (s.setPhe k x).wstage = s.wstage := rfl
@[simp] theorem State.setPhe_engines (s : State) (k : Nat) (x : PEng) : (s.setPhe k x).engines = s.engines := rfl
@[simp] theorem State.setPhe_skm (s : State) (k : Nat) (x : PEng) : (s.setPhe k x).skm = s.skm := rfl
@[simp] theorem State.setPhe_stn (s : State) (k : Nat) (x : PEng) : (s.setPhe k x).stn = s.stn := rfl
@[simp] theorem State.setPhe_clc (s : State) (k : Nat) (x : PEng) : (s.setPhe k x).clc = s.clc := rfl
@[simp] theorem State.setPhe_se (s : State) (k : Nat) (x : PEng) : (s.setPhe k x).se = s.se := rfl
@[simp] theorem State.setPhe_plb (s : State) (k : Nat) (x : PEng) : (s.setPhe k x).plb = s.plb := rfl
@[simp] theorem State.setPhe_hbm (s : State) (k : Nat) (x : PEng) : (s.setPhe k x).hbm = s.hbm := rfl
@[simp] theorem State.setPhe_lth (s : State) (k : Nat) (x : PEng) : (s.setPhe k x).lth = s.lth := rfl
@[simp] theorem State.setPhe_sch (s : State) (k : Nat) (x : PEng) : (s.setPhe k x).sch = s.sch := rfl
@[simp] theorem State.setPhe_rnd (s : State) (k : Nat) (x : PEng) : (s.setPhe k x).rnd = s.rnd := rfl
@[simp] theorem State.setPhe_mnd (s : State) (k : Nat) (x : PEng) : (s.setPhe k x).mnd = s.mnd := rfl
@[simp] theorem State.setPhe_slr (s : State) (k : Nat) (x : PEng) : (s.setPhe k x).slr = s.slr := rfl
@[simp] theorem State.setPhe_hwk (s : State) (k : Nat) (x : PEng) : (s.setPhe k x).hwk = s.hwk := rfl
@[simp] theorem State.setPhe_sng (s : State) (k : Nat) (x : PEng) : (s.setPhe k x).sng = s.sng := rfl
@[simp] theorem State.setPhe_pwr (s : State) (k : Nat) (x : PEng) : (s.setPhe k x).pwr = s.pwr := rfl
@[simp] theorem State.setPhe_tap (s : State) (k : Nat) (x : PEng) : (s.setPhe k x).tap = s.tap := rfl
@[simp] theorem State.setPhe_out (s : State) (k : Nat) (x : PEng) : (s.setPhe k x).out = s.out := rfl
@[simp] theorem State.setPhe_fresh (s : State) (k : Nat) (x : PEng) : (s.setPhe k x).fresh = s.fresh := rfl
@[simp] theorem State.setPhe_phn_interlock (s : State) (k : Nat) (x : PEng) : (s.setPhe k x).phn.interlock = s.phn.interlock := rfl
@[simp] theorem State.setPhe_phn_holdNs (s : State) (k : Nat) (x : PEng) : (s.setPhe k x).phn.holdNs = s.phn.holdNs := rfl
@[simp] theorem State.setPhe_phn_owed (s : State) (k : Nat) (x : PEng) : (s.setPhe k x).phn.owed = s.phn.owed := rfl
@[simp] theorem State.setPhe_phn_held (s : State) (k : Nat) (x : PEng) : (s.setPhe k x).phn.held = s.phn.held := rfl
@[simp] theorem State.setPhe_phe (s : State) (k : Nat) (x : PEng) : (s.setPhe k x).phe k = x := Tab.get_put _ _ k x
theorem State.setPhe_phe_ne (s : State) (k j : Nat) (x : PEng) (h : j ≠ k) : (s.setPhe k x).phe j = s.phe j := Tab.get_put_ne _ _ _ k j x h
@[simp] theorem State.setPhe_eng (s : State) (k j : Nat) (x : PEng) : (s.setPhe k x).eng j = s.eng j := rfl
@[simp] theorem State.setPhe_src (s : State) (k j : Nat) (x : PEng) : (s.setPhe k x).src j = s.src j := rfl
@[simp] theorem State.setPhe_trig (s : State) (k j : Nat) (x : PEng) : (s.setPhe k x).trig j = s.trig j := rfl
@[simp] theorem State.setPhe_stack (s : State) (k j : Nat) (x : PEng) : (s.setPhe k x).stack j = s.stack j := rfl
@[simp] theorem State.setPhe_queue (s : State) (k j : Nat) (x : PEng) : (s.setPhe k x).queue j = s.queue j := rfl
@[simp] theorem State.setPhe_bond (s : State) (k j : Nat) (x : PEng) : (s.setPhe k x).bond j = s.bond j := rfl
@[simp] theorem State.setPhe_lane (s : State) (k j : Nat) (x : PEng) : (s.setPhe k x).lane j = s.lane j := rfl
@[simp] theorem State.setPhe_rport (s : State) (k j : Nat) (x : PEng) : (s.setPhe k x).rport j = s.rport j := rfl
@[simp] theorem State.setPhe_trib (s : State) (k j : Nat) (x : PEng) : (s.setPhe k x).trib j = s.trib j := rfl
@[simp] theorem State.setPhe_mbond (s : State) (k j : Nat) (x : PEng) : (s.setPhe k x).mbond j = s.mbond j := rfl
@[simp] theorem State.setPhe_mlane (s : State) (k j : Nat) (x : PEng) : (s.setPhe k x).mlane j = s.mlane j := rfl
@[simp] theorem State.setPhe_sbond (s : State) (k j : Nat) (x : PEng) : (s.setPhe k x).sbond j = s.sbond j := rfl
@[simp] theorem State.setPhe_session (s : State) (k j : Nat) (x : PEng) : (s.setPhe k x).session j = s.session j := rfl
@[simp] theorem State.setPhe_mbox (s : State) (k j : Nat) (x : PEng) : (s.setPhe k x).mbox j = s.mbox j := rfl
@[simp] theorem State.setPhe_part (s : State) (k j : Nat) (x : PEng) : (s.setPhe k x).part j = s.part j := rfl

/-! ## setSession -/

@[simp] theorem State.setSession_pending (s : State) (k : Nat) (x : Option Session) : (s.setSession k x).pending = s.pending := rfl
@[simp] theorem State.setSession_top (s : State) (k : Nat) (x : Option Session) : (s.setSession k x).top = s.top := rfl
@[simp] theorem State.setSession_captures (s : State) (k : Nat) (x : Option Session) : (s.setSession k x).captures = s.captures := rfl
@[simp] theorem State.setSession_wstage (s : State) (k : Nat) (x : Option Session) : (s.setSession k x).wstage = s.wstage := rfl
@[simp] theorem State.setSession_engines (s : State) (k : Nat) (x : Option Session) : (s.setSession k x).engines = s.engines := rfl
@[simp] theorem State.setSession_skm (s : State) (k : Nat) (x : Option Session) : (s.setSession k x).skm = s.skm := rfl
@[simp] theorem State.setSession_stn (s : State) (k : Nat) (x : Option Session) : (s.setSession k x).stn = s.stn := rfl
@[simp] theorem State.setSession_clc (s : State) (k : Nat) (x : Option Session) : (s.setSession k x).clc = s.clc := rfl
@[simp] theorem State.setSession_se (s : State) (k : Nat) (x : Option Session) : (s.setSession k x).se = s.se := rfl
@[simp] theorem State.setSession_plb (s : State) (k : Nat) (x : Option Session) : (s.setSession k x).plb = s.plb := rfl
@[simp] theorem State.setSession_hbm (s : State) (k : Nat) (x : Option Session) : (s.setSession k x).hbm = s.hbm := rfl
@[simp] theorem State.setSession_lth (s : State) (k : Nat) (x : Option Session) : (s.setSession k x).lth = s.lth := rfl
@[simp] theorem State.setSession_sch (s : State) (k : Nat) (x : Option Session) : (s.setSession k x).sch = s.sch := rfl
@[simp] theorem State.setSession_rnd (s : State) (k : Nat) (x : Option Session) : (s.setSession k x).rnd = s.rnd := rfl
@[simp] theorem State.setSession_mnd (s : State) (k : Nat) (x : Option Session) : (s.setSession k x).mnd = s.mnd := rfl
@[simp] theorem State.setSession_slr (s : State) (k : Nat) (x : Option Session) : (s.setSession k x).slr = s.slr := rfl
@[simp] theorem State.setSession_phn (s : State) (k : Nat) (x : Option Session) : (s.setSession k x).phn = s.phn := rfl
@[simp] theorem State.setSession_sng (s : State) (k : Nat) (x : Option Session) : (s.setSession k x).sng = s.sng := rfl
@[simp] theorem State.setSession_pwr (s : State) (k : Nat) (x : Option Session) : (s.setSession k x).pwr = s.pwr := rfl
@[simp] theorem State.setSession_tap (s : State) (k : Nat) (x : Option Session) : (s.setSession k x).tap = s.tap := rfl
@[simp] theorem State.setSession_out (s : State) (k : Nat) (x : Option Session) : (s.setSession k x).out = s.out := rfl
@[simp] theorem State.setSession_fresh (s : State) (k : Nat) (x : Option Session) : (s.setSession k x).fresh = s.fresh := rfl
@[simp] theorem State.setSession_hwk_running (s : State) (k : Nat) (x : Option Session) : (s.setSession k x).hwk.running = s.hwk.running := rfl
@[simp] theorem State.setSession_hwk_lastNum (s : State) (k : Nat) (x : Option Session) : (s.setSession k x).hwk.lastNum = s.hwk.lastNum := rfl
@[simp] theorem State.setSession_hwk_mboxes (s : State) (k : Nat) (x : Option Session) : (s.setSession k x).hwk.mboxes = s.hwk.mboxes := rfl
@[simp] theorem State.setSession_hwk_stage1 (s : State) (k : Nat) (x : Option Session) : (s.setSession k x).hwk.stage1 = s.hwk.stage1 := rfl
@[simp] theorem State.setSession_hwk_stage2 (s : State) (k : Nat) (x : Option Session) : (s.setSession k x).hwk.stage2 = s.hwk.stage2 := rfl
@[simp] theorem State.setSession_hwk_area1 (s : State) (k : Nat) (x : Option Session) : (s.setSession k x).hwk.area1 = s.hwk.area1 := rfl
@[simp] theorem State.setSession_hwk_area2 (s : State) (k : Nat) (x : Option Session) : (s.setSession k x).hwk.area2 = s.hwk.area2 := rfl
@[simp] theorem State.setSession_hwk_updating (s : State) (k : Nat) (x : Option Session) : (s.setSession k x).hwk.updating = s.hwk.updating := rfl
@[simp] theorem State.setSession_hwk_fwState (s : State) (k : Nat) (x : Option Session) : (s.setSession k x).hwk.fwState = s.hwk.fwState := rfl
@[simp] theorem State.setSession_hwk_err (s : State) (k : Nat) (x : Option Session) : (s.setSession k x).hwk.err = s.hwk.err := rfl
@[simp] theorem State.setSession_hwk_cmdCount (s : State) (k : Nat) (x : Option Session) : (s.setSession k x).hwk.cmdCount = s.hwk.cmdCount := rfl
@[simp] theorem State.setSession_hwk_refusedCount (s : State) (k : Nat) (x : Option Session) : (s.setSession k x).hwk.refusedCount = s.hwk.refusedCount := rfl
@[simp] theorem State.setSession_hwk_dropCount (s : State) (k : Nat) (x : Option Session) : (s.setSession k x).hwk.dropCount = s.hwk.dropCount := rfl
@[simp] theorem State.setSession_hwk_fwVersion (s : State) (k : Nat) (x : Option Session) : (s.setSession k x).hwk.fwVersion = s.hwk.fwVersion := rfl
@[simp] theorem State.setSession_hwk_fwArith (s : State) (k : Nat) (x : Option Session) : (s.setSession k x).hwk.fwArith = s.hwk.fwArith := rfl
@[simp] theorem State.setSession_hwk_fwSvn (s : State) (k : Nat) (x : Option Session) : (s.setSession k x).hwk.fwSvn = s.hwk.fwSvn := rfl
@[simp] theorem State.setSession_hwk_fwDigest (s : State) (k : Nat) (x : Option Session) : (s.setSession k x).hwk.fwDigest = s.hwk.fwDigest := rfl
@[simp] theorem State.setSession_hwk_addrs (s : State) (k : Nat) (x : Option Session) : (s.setSession k x).hwk.addrs = s.hwk.addrs := rfl
@[simp] theorem State.setSession_hwk_mboxPort (s : State) (k : Nat) (x : Option Session) : (s.setSession k x).hwk.mboxPort = s.hwk.mboxPort := rfl
@[simp] theorem State.setSession_hwk_bulkPort (s : State) (k : Nat) (x : Option Session) : (s.setSession k x).hwk.bulkPort = s.hwk.bulkPort := rfl
@[simp] theorem State.setSession_hwk_nor (s : State) (k : Nat) (x : Option Session) : (s.setSession k x).hwk.nor = s.hwk.nor := rfl
@[simp] theorem State.setSession_hwk_reclaim (s : State) (k : Nat) (x : Option Session) : (s.setSession k x).hwk.reclaim = s.hwk.reclaim := rfl
@[simp] theorem State.setSession_hwk_recovery (s : State) (k : Nat) (x : Option Session) : (s.setSession k x).hwk.recovery = s.hwk.recovery := rfl
@[simp] theorem State.setSession_hwk_recoverBuf (s : State) (k : Nat) (x : Option Session) : (s.setSession k x).hwk.recoverBuf = s.hwk.recoverBuf := rfl
@[simp] theorem State.setSession_hwk_linkUp (s : State) (k : Nat) (x : Option Session) : (s.setSession k x).hwk.linkUp = s.hwk.linkUp := rfl
@[simp] theorem State.setSession_session (s : State) (k : Nat) (x : Option Session) : (s.setSession k x).session k = x := Tab.get_put _ _ k x
theorem State.setSession_session_ne (s : State) (k j : Nat) (x : Option Session) (h : j ≠ k) : (s.setSession k x).session j = s.session j := Tab.get_put_ne _ _ _ k j x h
@[simp] theorem State.setSession_eng (s : State) (k j : Nat) (x : Option Session) : (s.setSession k x).eng j = s.eng j := rfl
@[simp] theorem State.setSession_src (s : State) (k j : Nat) (x : Option Session) : (s.setSession k x).src j = s.src j := rfl
@[simp] theorem State.setSession_trig (s : State) (k j : Nat) (x : Option Session) : (s.setSession k x).trig j = s.trig j := rfl
@[simp] theorem State.setSession_stack (s : State) (k j : Nat) (x : Option Session) : (s.setSession k x).stack j = s.stack j := rfl
@[simp] theorem State.setSession_queue (s : State) (k j : Nat) (x : Option Session) : (s.setSession k x).queue j = s.queue j := rfl
@[simp] theorem State.setSession_bond (s : State) (k j : Nat) (x : Option Session) : (s.setSession k x).bond j = s.bond j := rfl
@[simp] theorem State.setSession_lane (s : State) (k j : Nat) (x : Option Session) : (s.setSession k x).lane j = s.lane j := rfl
@[simp] theorem State.setSession_rport (s : State) (k j : Nat) (x : Option Session) : (s.setSession k x).rport j = s.rport j := rfl
@[simp] theorem State.setSession_trib (s : State) (k j : Nat) (x : Option Session) : (s.setSession k x).trib j = s.trib j := rfl
@[simp] theorem State.setSession_mbond (s : State) (k j : Nat) (x : Option Session) : (s.setSession k x).mbond j = s.mbond j := rfl
@[simp] theorem State.setSession_mlane (s : State) (k j : Nat) (x : Option Session) : (s.setSession k x).mlane j = s.mlane j := rfl
@[simp] theorem State.setSession_sbond (s : State) (k j : Nat) (x : Option Session) : (s.setSession k x).sbond j = s.sbond j := rfl
@[simp] theorem State.setSession_phe (s : State) (k j : Nat) (x : Option Session) : (s.setSession k x).phe j = s.phe j := rfl
@[simp] theorem State.setSession_mbox (s : State) (k j : Nat) (x : Option Session) : (s.setSession k x).mbox j = s.mbox j := rfl
@[simp] theorem State.setSession_part (s : State) (k j : Nat) (x : Option Session) : (s.setSession k x).part j = s.part j := rfl

/-! ## setMbox -/

@[simp] theorem State.setMbox_pending (s : State) (k : Nat) (x : Mailbox) : (s.setMbox k x).pending = s.pending := rfl
@[simp] theorem State.setMbox_top (s : State) (k : Nat) (x : Mailbox) : (s.setMbox k x).top = s.top := rfl
@[simp] theorem State.setMbox_captures (s : State) (k : Nat) (x : Mailbox) : (s.setMbox k x).captures = s.captures := rfl
@[simp] theorem State.setMbox_wstage (s : State) (k : Nat) (x : Mailbox) : (s.setMbox k x).wstage = s.wstage := rfl
@[simp] theorem State.setMbox_engines (s : State) (k : Nat) (x : Mailbox) : (s.setMbox k x).engines = s.engines := rfl
@[simp] theorem State.setMbox_skm (s : State) (k : Nat) (x : Mailbox) : (s.setMbox k x).skm = s.skm := rfl
@[simp] theorem State.setMbox_stn (s : State) (k : Nat) (x : Mailbox) : (s.setMbox k x).stn = s.stn := rfl
@[simp] theorem State.setMbox_clc (s : State) (k : Nat) (x : Mailbox) : (s.setMbox k x).clc = s.clc := rfl
@[simp] theorem State.setMbox_se (s : State) (k : Nat) (x : Mailbox) : (s.setMbox k x).se = s.se := rfl
@[simp] theorem State.setMbox_plb (s : State) (k : Nat) (x : Mailbox) : (s.setMbox k x).plb = s.plb := rfl
@[simp] theorem State.setMbox_hbm (s : State) (k : Nat) (x : Mailbox) : (s.setMbox k x).hbm = s.hbm := rfl
@[simp] theorem State.setMbox_lth (s : State) (k : Nat) (x : Mailbox) : (s.setMbox k x).lth = s.lth := rfl
@[simp] theorem State.setMbox_sch (s : State) (k : Nat) (x : Mailbox) : (s.setMbox k x).sch = s.sch := rfl
@[simp] theorem State.setMbox_rnd (s : State) (k : Nat) (x : Mailbox) : (s.setMbox k x).rnd = s.rnd := rfl
@[simp] theorem State.setMbox_mnd (s : State) (k : Nat) (x : Mailbox) : (s.setMbox k x).mnd = s.mnd := rfl
@[simp] theorem State.setMbox_slr (s : State) (k : Nat) (x : Mailbox) : (s.setMbox k x).slr = s.slr := rfl
@[simp] theorem State.setMbox_phn (s : State) (k : Nat) (x : Mailbox) : (s.setMbox k x).phn = s.phn := rfl
@[simp] theorem State.setMbox_sng (s : State) (k : Nat) (x : Mailbox) : (s.setMbox k x).sng = s.sng := rfl
@[simp] theorem State.setMbox_pwr (s : State) (k : Nat) (x : Mailbox) : (s.setMbox k x).pwr = s.pwr := rfl
@[simp] theorem State.setMbox_tap (s : State) (k : Nat) (x : Mailbox) : (s.setMbox k x).tap = s.tap := rfl
@[simp] theorem State.setMbox_out (s : State) (k : Nat) (x : Mailbox) : (s.setMbox k x).out = s.out := rfl
@[simp] theorem State.setMbox_fresh (s : State) (k : Nat) (x : Mailbox) : (s.setMbox k x).fresh = s.fresh := rfl
@[simp] theorem State.setMbox_hwk_running (s : State) (k : Nat) (x : Mailbox) : (s.setMbox k x).hwk.running = s.hwk.running := rfl
@[simp] theorem State.setMbox_hwk_sessions (s : State) (k : Nat) (x : Mailbox) : (s.setMbox k x).hwk.sessions = s.hwk.sessions := rfl
@[simp] theorem State.setMbox_hwk_lastNum (s : State) (k : Nat) (x : Mailbox) : (s.setMbox k x).hwk.lastNum = s.hwk.lastNum := rfl
@[simp] theorem State.setMbox_hwk_stage1 (s : State) (k : Nat) (x : Mailbox) : (s.setMbox k x).hwk.stage1 = s.hwk.stage1 := rfl
@[simp] theorem State.setMbox_hwk_stage2 (s : State) (k : Nat) (x : Mailbox) : (s.setMbox k x).hwk.stage2 = s.hwk.stage2 := rfl
@[simp] theorem State.setMbox_hwk_area1 (s : State) (k : Nat) (x : Mailbox) : (s.setMbox k x).hwk.area1 = s.hwk.area1 := rfl
@[simp] theorem State.setMbox_hwk_area2 (s : State) (k : Nat) (x : Mailbox) : (s.setMbox k x).hwk.area2 = s.hwk.area2 := rfl
@[simp] theorem State.setMbox_hwk_updating (s : State) (k : Nat) (x : Mailbox) : (s.setMbox k x).hwk.updating = s.hwk.updating := rfl
@[simp] theorem State.setMbox_hwk_fwState (s : State) (k : Nat) (x : Mailbox) : (s.setMbox k x).hwk.fwState = s.hwk.fwState := rfl
@[simp] theorem State.setMbox_hwk_err (s : State) (k : Nat) (x : Mailbox) : (s.setMbox k x).hwk.err = s.hwk.err := rfl
@[simp] theorem State.setMbox_hwk_cmdCount (s : State) (k : Nat) (x : Mailbox) : (s.setMbox k x).hwk.cmdCount = s.hwk.cmdCount := rfl
@[simp] theorem State.setMbox_hwk_refusedCount (s : State) (k : Nat) (x : Mailbox) : (s.setMbox k x).hwk.refusedCount = s.hwk.refusedCount := rfl
@[simp] theorem State.setMbox_hwk_dropCount (s : State) (k : Nat) (x : Mailbox) : (s.setMbox k x).hwk.dropCount = s.hwk.dropCount := rfl
@[simp] theorem State.setMbox_hwk_fwVersion (s : State) (k : Nat) (x : Mailbox) : (s.setMbox k x).hwk.fwVersion = s.hwk.fwVersion := rfl
@[simp] theorem State.setMbox_hwk_fwArith (s : State) (k : Nat) (x : Mailbox) : (s.setMbox k x).hwk.fwArith = s.hwk.fwArith := rfl
@[simp] theorem State.setMbox_hwk_fwSvn (s : State) (k : Nat) (x : Mailbox) : (s.setMbox k x).hwk.fwSvn = s.hwk.fwSvn := rfl
@[simp] theorem State.setMbox_hwk_fwDigest (s : State) (k : Nat) (x : Mailbox) : (s.setMbox k x).hwk.fwDigest = s.hwk.fwDigest := rfl
@[simp] theorem State.setMbox_hwk_addrs (s : State) (k : Nat) (x : Mailbox) : (s.setMbox k x).hwk.addrs = s.hwk.addrs := rfl
@[simp] theorem State.setMbox_hwk_mboxPort (s : State) (k : Nat) (x : Mailbox) : (s.setMbox k x).hwk.mboxPort = s.hwk.mboxPort := rfl
@[simp] theorem State.setMbox_hwk_bulkPort (s : State) (k : Nat) (x : Mailbox) : (s.setMbox k x).hwk.bulkPort = s.hwk.bulkPort := rfl
@[simp] theorem State.setMbox_hwk_nor (s : State) (k : Nat) (x : Mailbox) : (s.setMbox k x).hwk.nor = s.hwk.nor := rfl
@[simp] theorem State.setMbox_hwk_reclaim (s : State) (k : Nat) (x : Mailbox) : (s.setMbox k x).hwk.reclaim = s.hwk.reclaim := rfl
@[simp] theorem State.setMbox_hwk_recovery (s : State) (k : Nat) (x : Mailbox) : (s.setMbox k x).hwk.recovery = s.hwk.recovery := rfl
@[simp] theorem State.setMbox_hwk_recoverBuf (s : State) (k : Nat) (x : Mailbox) : (s.setMbox k x).hwk.recoverBuf = s.hwk.recoverBuf := rfl
@[simp] theorem State.setMbox_hwk_linkUp (s : State) (k : Nat) (x : Mailbox) : (s.setMbox k x).hwk.linkUp = s.hwk.linkUp := rfl
@[simp] theorem State.setMbox_mbox (s : State) (k : Nat) (x : Mailbox) : (s.setMbox k x).mbox k = x := Tab.get_put _ _ k x
theorem State.setMbox_mbox_ne (s : State) (k j : Nat) (x : Mailbox) (h : j ≠ k) : (s.setMbox k x).mbox j = s.mbox j := Tab.get_put_ne _ _ _ k j x h
@[simp] theorem State.setMbox_eng (s : State) (k j : Nat) (x : Mailbox) : (s.setMbox k x).eng j = s.eng j := rfl
@[simp] theorem State.setMbox_src (s : State) (k j : Nat) (x : Mailbox) : (s.setMbox k x).src j = s.src j := rfl
@[simp] theorem State.setMbox_trig (s : State) (k j : Nat) (x : Mailbox) : (s.setMbox k x).trig j = s.trig j := rfl
@[simp] theorem State.setMbox_stack (s : State) (k j : Nat) (x : Mailbox) : (s.setMbox k x).stack j = s.stack j := rfl
@[simp] theorem State.setMbox_queue (s : State) (k j : Nat) (x : Mailbox) : (s.setMbox k x).queue j = s.queue j := rfl
@[simp] theorem State.setMbox_bond (s : State) (k j : Nat) (x : Mailbox) : (s.setMbox k x).bond j = s.bond j := rfl
@[simp] theorem State.setMbox_lane (s : State) (k j : Nat) (x : Mailbox) : (s.setMbox k x).lane j = s.lane j := rfl
@[simp] theorem State.setMbox_rport (s : State) (k j : Nat) (x : Mailbox) : (s.setMbox k x).rport j = s.rport j := rfl
@[simp] theorem State.setMbox_trib (s : State) (k j : Nat) (x : Mailbox) : (s.setMbox k x).trib j = s.trib j := rfl
@[simp] theorem State.setMbox_mbond (s : State) (k j : Nat) (x : Mailbox) : (s.setMbox k x).mbond j = s.mbond j := rfl
@[simp] theorem State.setMbox_mlane (s : State) (k j : Nat) (x : Mailbox) : (s.setMbox k x).mlane j = s.mlane j := rfl
@[simp] theorem State.setMbox_sbond (s : State) (k j : Nat) (x : Mailbox) : (s.setMbox k x).sbond j = s.sbond j := rfl
@[simp] theorem State.setMbox_phe (s : State) (k j : Nat) (x : Mailbox) : (s.setMbox k x).phe j = s.phe j := rfl
@[simp] theorem State.setMbox_session (s : State) (k j : Nat) (x : Mailbox) : (s.setMbox k x).session j = s.session j := rfl
@[simp] theorem State.setMbox_part (s : State) (k j : Nat) (x : Mailbox) : (s.setMbox k x).part j = s.part j := rfl

/-! ## setPart -/

@[simp] theorem State.setPart_pending (s : State) (k : Nat) (x : Summary) : (s.setPart k x).pending = s.pending := rfl
@[simp] theorem State.setPart_top (s : State) (k : Nat) (x : Summary) : (s.setPart k x).top = s.top := rfl
@[simp] theorem State.setPart_captures (s : State) (k : Nat) (x : Summary) : (s.setPart k x).captures = s.captures := rfl
@[simp] theorem State.setPart_wstage (s : State) (k : Nat) (x : Summary) : (s.setPart k x).wstage = s.wstage := rfl
@[simp] theorem State.setPart_engines (s : State) (k : Nat) (x : Summary) : (s.setPart k x).engines = s.engines := rfl
@[simp] theorem State.setPart_skm (s : State) (k : Nat) (x : Summary) : (s.setPart k x).skm = s.skm := rfl
@[simp] theorem State.setPart_stn (s : State) (k : Nat) (x : Summary) : (s.setPart k x).stn = s.stn := rfl
@[simp] theorem State.setPart_clc (s : State) (k : Nat) (x : Summary) : (s.setPart k x).clc = s.clc := rfl
@[simp] theorem State.setPart_se (s : State) (k : Nat) (x : Summary) : (s.setPart k x).se = s.se := rfl
@[simp] theorem State.setPart_plb (s : State) (k : Nat) (x : Summary) : (s.setPart k x).plb = s.plb := rfl
@[simp] theorem State.setPart_hbm (s : State) (k : Nat) (x : Summary) : (s.setPart k x).hbm = s.hbm := rfl
@[simp] theorem State.setPart_lth (s : State) (k : Nat) (x : Summary) : (s.setPart k x).lth = s.lth := rfl
@[simp] theorem State.setPart_sch (s : State) (k : Nat) (x : Summary) : (s.setPart k x).sch = s.sch := rfl
@[simp] theorem State.setPart_rnd (s : State) (k : Nat) (x : Summary) : (s.setPart k x).rnd = s.rnd := rfl
@[simp] theorem State.setPart_mnd (s : State) (k : Nat) (x : Summary) : (s.setPart k x).mnd = s.mnd := rfl
@[simp] theorem State.setPart_slr (s : State) (k : Nat) (x : Summary) : (s.setPart k x).slr = s.slr := rfl
@[simp] theorem State.setPart_phn (s : State) (k : Nat) (x : Summary) : (s.setPart k x).phn = s.phn := rfl
@[simp] theorem State.setPart_hwk (s : State) (k : Nat) (x : Summary) : (s.setPart k x).hwk = s.hwk := rfl
@[simp] theorem State.setPart_pwr (s : State) (k : Nat) (x : Summary) : (s.setPart k x).pwr = s.pwr := rfl
@[simp] theorem State.setPart_tap (s : State) (k : Nat) (x : Summary) : (s.setPart k x).tap = s.tap := rfl
@[simp] theorem State.setPart_out (s : State) (k : Nat) (x : Summary) : (s.setPart k x).out = s.out := rfl
@[simp] theorem State.setPart_fresh (s : State) (k : Nat) (x : Summary) : (s.setPart k x).fresh = s.fresh := rfl
@[simp] theorem State.setPart_sng_lifeS (s : State) (k : Nat) (x : Summary) : (s.setPart k x).sng.lifeS = s.sng.lifeS := rfl
@[simp] theorem State.setPart_sng_seq (s : State) (k : Nat) (x : Summary) : (s.setPart k x).sng.seq = s.sng.seq := rfl
@[simp] theorem State.setPart_sng_pend (s : State) (k : Nat) (x : Summary) : (s.setPart k x).sng.pend = s.sng.pend := rfl
@[simp] theorem State.setPart_sng_journal (s : State) (k : Nat) (x : Summary) : (s.setPart k x).sng.journal = s.sng.journal := rfl
@[simp] theorem State.setPart_sng_lastRead (s : State) (k : Nat) (x : Summary) : (s.setPart k x).sng.lastRead = s.sng.lastRead := rfl
@[simp] theorem State.setPart_sng_flushLate (s : State) (k : Nat) (x : Summary) : (s.setPart k x).sng.flushLate = s.sng.flushLate := rfl
@[simp] theorem State.setPart_sng_flushing (s : State) (k : Nat) (x : Summary) : (s.setPart k x).sng.flushing = s.sng.flushing := rfl
@[simp] theorem State.setPart_sng_journalOk (s : State) (k : Nat) (x : Summary) : (s.setPart k x).sng.journalOk = s.sng.journalOk := rfl
@[simp] theorem State.setPart_sng_summaryOk (s : State) (k : Nat) (x : Summary) : (s.setPart k x).sng.summaryOk = s.sng.summaryOk := rfl
@[simp] theorem State.setPart_sng_saved (s : State) (k : Nat) (x : Summary) : (s.setPart k x).sng.saved = s.sng.saved := rfl
@[simp] theorem State.setPart_sng_savedS (s : State) (k : Nat) (x : Summary) : (s.setPart k x).sng.savedS = s.sng.savedS := rfl
@[simp] theorem State.setPart_sng_err (s : State) (k : Nat) (x : Summary) : (s.setPart k x).sng.err = s.sng.err := rfl
@[simp] theorem State.setPart_sng_retol (s : State) (k : Nat) (x : Summary) : (s.setPart k x).sng.retol = s.sng.retol := rfl
@[simp] theorem State.setPart_sng_softT (s : State) (k : Nat) (x : Summary) : (s.setPart k x).sng.softT = s.sng.softT := rfl
@[simp] theorem State.setPart_sng_recoCount (s : State) (k : Nat) (x : Summary) : (s.setPart k x).sng.recoCount = s.sng.recoCount := rfl
@[simp] theorem State.setPart_sng_softCount (s : State) (k : Nat) (x : Summary) : (s.setPart k x).sng.softCount = s.sng.softCount := rfl
@[simp] theorem State.setPart_sng_hardCount (s : State) (k : Nat) (x : Summary) : (s.setPart k x).sng.hardCount = s.sng.hardCount := rfl
@[simp] theorem State.setPart_sng_refusedCount (s : State) (k : Nat) (x : Summary) : (s.setPart k x).sng.refusedCount = s.sng.refusedCount := rfl
@[simp] theorem State.setPart_part (s : State) (k : Nat) (x : Summary) : (s.setPart k x).part k = x := Tab.get_put _ _ k x
theorem State.setPart_part_ne (s : State) (k j : Nat) (x : Summary) (h : j ≠ k) : (s.setPart k x).part j = s.part j := Tab.get_put_ne _ _ _ k j x h
@[simp] theorem State.setPart_eng (s : State) (k j : Nat) (x : Summary) : (s.setPart k x).eng j = s.eng j := rfl
@[simp] theorem State.setPart_src (s : State) (k j : Nat) (x : Summary) : (s.setPart k x).src j = s.src j := rfl
@[simp] theorem State.setPart_trig (s : State) (k j : Nat) (x : Summary) : (s.setPart k x).trig j = s.trig j := rfl
@[simp] theorem State.setPart_stack (s : State) (k j : Nat) (x : Summary) : (s.setPart k x).stack j = s.stack j := rfl
@[simp] theorem State.setPart_queue (s : State) (k j : Nat) (x : Summary) : (s.setPart k x).queue j = s.queue j := rfl
@[simp] theorem State.setPart_bond (s : State) (k j : Nat) (x : Summary) : (s.setPart k x).bond j = s.bond j := rfl
@[simp] theorem State.setPart_lane (s : State) (k j : Nat) (x : Summary) : (s.setPart k x).lane j = s.lane j := rfl
@[simp] theorem State.setPart_rport (s : State) (k j : Nat) (x : Summary) : (s.setPart k x).rport j = s.rport j := rfl
@[simp] theorem State.setPart_trib (s : State) (k j : Nat) (x : Summary) : (s.setPart k x).trib j = s.trib j := rfl
@[simp] theorem State.setPart_mbond (s : State) (k j : Nat) (x : Summary) : (s.setPart k x).mbond j = s.mbond j := rfl
@[simp] theorem State.setPart_mlane (s : State) (k j : Nat) (x : Summary) : (s.setPart k x).mlane j = s.mlane j := rfl
@[simp] theorem State.setPart_sbond (s : State) (k j : Nat) (x : Summary) : (s.setPart k x).sbond j = s.sbond j := rfl
@[simp] theorem State.setPart_phe (s : State) (k j : Nat) (x : Summary) : (s.setPart k x).phe j = s.phe j := rfl
@[simp] theorem State.setPart_session (s : State) (k j : Nat) (x : Summary) : (s.setPart k x).session j = s.session j := rfl
@[simp] theorem State.setPart_mbox (s : State) (k j : Nat) (x : Summary) : (s.setPart k x).mbox j = s.mbox j := rfl

end Sys2Proof.Machine
end

