-- ==== Sys2Proof/Laws/Stroke.lean ====
section
/-! SUPPORT. Laws of a stroke that is alone in the device: it issues at once, makes its counts in turn and completes. -/

namespace Sys2Proof.Machine

/-! ## Engines that have something to do -/

def idleEngine (x : Engine) : Prop := x.flights = [] ∧ x.toIssue = []

theorem idle_of_free {s : State} (h : busyEngines s = []) (p : Nat × Engine) (hp : p ∈ s.engines) : idleEngine p.2 := by
  have := List.map_eq_nil_iff.1 h
  have := List.filter_eq_nil_iff.1 this p hp
  simp only [Bool.or_eq_true, Bool.not_eq_true', not_or, Bool.not_eq_false, List.isEmpty_iff] at this
  exact this

theorem Tab.get_mem_or {α : Type} (d : α) (t : Tab α) (k : Nat) : Tab.get d t k = d ∨ ∃ p ∈ t, p.1 = k ∧ p.2 = Tab.get d t k := by
  induction t with
  | nil => exact .inl rfl
  | cons p r ih =>
    obtain ⟨j, v⟩ := p
    by_cases h : j = k
    · exact .inr ⟨(j, v), by simp, h, by simp [Tab.get, h]⟩
    · rcases ih with ih | ⟨q, hq, h1, h2⟩
      · exact .inl (by simp [Tab.get, h, ih])
      · exact .inr ⟨q, by simp [hq], h1, by simp [Tab.get, h, h2]⟩

theorem eng_idle_of_free {s : State} (h : busyEngines s = []) (e : Nat) : idleEngine (s.eng e) := by
  rcases Tab.get_mem_or Engine.reset s.engines e with hd | ⟨p, hp, _, h2⟩
  · unfold State.eng; rw [hd]; exact ⟨rfl, rfl⟩
  · unfold State.eng; rw [← h2]; exact idle_of_free h p hp

/-- The engines of a state in which only one engine was written. -/
theorem busy_setEng {s : State} (h : busyEngines s = []) (e : Nat) (x : Engine) :
    busyEngines (s.setEng e x) = if x.flights.isEmpty && x.toIssue.isEmpty then [] else [e] := by
  have hall : ∀ p ∈ s.engines, (!p.2.flights.isEmpty || !p.2.toIssue.isEmpty) = false := by
    intro p hp
    obtain ⟨h1, h2⟩ := idle_of_free h p hp
    simp [h1, h2]
  have hb : ∀ k, (Tab.below s.engines k).filter (fun p => !p.2.flights.isEmpty || !p.2.toIssue.isEmpty) = [] := by
    intro k; rw [List.filter_eq_nil_iff]; intro p hp
    simp [hall p (List.mem_filter.1 hp).1]
  have hf : ∀ k, (Tab.from s.engines k).filter (fun p => !p.2.flights.isEmpty || !p.2.toIssue.isEmpty) = [] := by
    intro k; rw [List.filter_eq_nil_iff]; intro p hp
    simp [hall p (List.mem_filter.1 hp).1]
  unfold busyEngines State.setEng Tab.put
  simp only [List.filter_append, hb, hf, List.nil_append, List.append_nil]
  by_cases hx : x = Engine.reset
  · subst hx; simp [Engine.reset]
  · simp only [hx, if_false]
    cases h1 : x.flights.isEmpty <;> cases h2 : x.toIssue.isEmpty <;> simp [h1, h2]

/-! ## Running one flight -/

@[simp] theorem Flight.nextCount_idx (fl : Flight) : fl.nextCount.idx = fl.idx := rfl
@[simp] theorem Flight.nextCount_word (fl : Flight) : fl.nextCount.word = fl.word := rfl
@[simp] theorem Flight.nextCount_done (fl : Flight) : fl.nextCount.done = fl.done + 1 := rfl
@[simp] theorem Flight.nextCount_since (fl : Flight) : fl.nextCount.since = none := rfl


/-- The counts of a flight in turn: state and flight before count k. Each count succeeds; the last leaves the state in which the stroke completes. -/
structure Counts (e : Nat) (n : Nat) (G : Nat → State) (F : Nat → Flight) (last : State) : Prop where
  flights : ∀ k, k < n → ((G k).eng e).flights = [F k]
  toIssue : ∀ k, k < n → ((G k).eng e).toIssue = []
  step : ∀ k, k + 1 < n → advance (G k) e (F k) = (true, G (k + 1))
  finish : ∀ k, k + 1 = n → advance (G k) e (F k) = (true, last)

theorem runEngine_counts {e n : Nat} {G : Nat → State} {F : Nat → Flight} {last : State} (c : Counts e n G F last)
    (hidle : idleEngine (last.eng e)) : ∀ (j k : Nat) (m : Bool) (fuel : Nat), k + j = n → 0 < j → j < fuel → runEngine e fuel (m, G k) = (true, last) := by
  intro j
  induction j with
  | zero => intro k m fuel _ h; omega
  | succ j ih =>
    intro k m fuel hk _ hf
    obtain ⟨f', rfl⟩ : ∃ f', fuel = f' + 1 := ⟨fuel - 1, by omega⟩
    have hfl := c.flights k (by omega)
    by_cases hl : k + 1 = n
    · have ha := c.finish k hl
      obtain ⟨f2, rfl⟩ : ∃ f2, f' = f2 + 1 := ⟨f' - 1, by omega⟩
      simp only [runEngine, hfl, List.foldl_cons, List.foldl_nil, Bool.false_eq_true, if_false, ha, if_true]
      simp [hidle.1, issue, hidle.2]
    · have ha := c.step k (by omega)
      have := ih (k + 1) true f' (by omega) (by omega) (by omega)
      simp only [runEngine, hfl, List.foldl_cons, List.foldl_nil, Bool.false_eq_true, if_false, ha, if_true]
      exact this

/-- A stroke of a lone engine runs through its counts and nothing else moves. -/
theorem pump_lone {s : State} {e : Nat} {i : BitVec 16} {w : BitVec 128} {x : Engine} {G : Nat → State} {F : Nat → Flight} {last : State}
    (hfree : busyEngines s = []) (hx : x.flights = [] ∧ x.toIssue = [(i, w)]) (hgate : i.toNat < x.gate) (hok : strokeOk w = true)
    (hn : 0 < wCount w)
    (hG : G 0 = s.setEng e { x with toIssue := [], flights := [{ idx := i, word := w, idxb := x.idxb, params := x.params }], pc := i, issued := x.issued + 1 })
    (c : Counts e (wCount w) G F last) (hlast : busyEngines last = []) (hdrain : drainSubs last = (false, last)) (hres : last.stn.resFailed = s.stn.resFailed) :
    pump (s.setEng e x) = last := by
  have hbusy : busyEngines (s.setEng e x) = [e] := by rw [busy_setEng hfree]; simp [hx.2]
  have hidle := eng_idle_of_free hlast e
  have hwork : x.work = wCount w + 2 := by simp [Engine.work, hx.1, hx.2]
  have hsum : ∀ (a : Nat) (l : Tab Engine), a ≤ l.foldl (fun n p => n + p.2.work) a := by
    intro a l
    induction l generalizing a with
    | nil => simp
    | cons p r ih => simp only [List.foldl_cons]; exact Nat.le_trans (Nat.le_add_right a _) (ih _)
  have hmem : (e, x) ∈ (s.setEng e x).engines := by
    unfold State.setEng Tab.put
    have : x ≠ Engine.reset := by intro h; subst h; simp [Engine.reset] at hx
    simp [this]
  have hsum2 : ∀ (l : Tab Engine) (a : Nat), (e, x) ∈ l → a + x.work ≤ l.foldl (fun n p => n + p.2.work) a := by
    intro l
    induction l with
    | nil => intro a h; simp at h
    | cons p r ih =>
      intro a h
      simp only [List.foldl_cons]
      rcases List.mem_cons.1 h with h | h
      · subst h; exact hsum _ r
      · exact Nat.le_trans (Nat.add_le_add_right (Nat.le_add_right a _) _) (ih _ h)
  have hfuel := hsum2 (s.setEng e x).engines 0 hmem
  have hrun : runEngine e (((s.setEng e x).eng e).work + 1) (false, s.setEng e x) = (true, last) := by
    rw [State.setEng_eng, hwork]
    have hissue : issue (s.setEng e x) e = (true, G 0) := by
      rw [hG]
      simp only [issue, State.setEng_eng, hx.2, hx.1]
      rw [if_neg (by omega)]
      simp only [hok, Bool.not_true, Bool.false_eq_true, if_false, List.any_nil, List.nil_append]
      congr 1
      simp [State.setEng, Tab.put_put]
    rw [show wCount w + 2 + 1 = (wCount w + 2) + 1 from rfl]
    simp only [runEngine, State.setEng_eng, hx.1, List.foldl_nil, Bool.false_eq_true, if_false, hissue, if_true]
    exact runEngine_counts c hidle (wCount w) 0 true (wCount w + 2) (by omega) hn (by omega)
  have hfinal : ∀ f, pumpFor (f + 1) last = last := by intro f; simp [pumpFor, hlast, hdrain]
  have hpf : ∀ f, pumpFor (f + 1 + 1) (s.setEng e x) = last := by
    intro f
    rw [pumpFor]
    simp only [hbusy, List.foldl_cons, List.foldl_nil, hrun, hdrain, Bool.true_or, if_true]
    exact hfinal f
  unfold pump
  simp only []
  generalize (s.setEng e x).skm.subq.foldl (fun n p => n + p.2.length) 0 = units
  obtain ⟨f, hf⟩ : ∃ f, (s.setEng e x).engines.foldl (fun n p => n + p.2.work) 0 + units + 1 = f + 1 + 1 :=
    ⟨(s.setEng e x).engines.foldl (fun n p => n + p.2.work) 0 + units - 1, by rw [hwork] at hfuel; omega⟩
  rw [hf, hpf]
  simp [hres, State.setEng_stn]

/-! ## What completion leaves alone -/

theorem seClose_off (s : State) (k e : Nat) (h : s.se.role = 0) : seClose s k e = s := by simp [seClose, h]

/-- The states that differ from `s` only in what Stencil notes of slots that are done. -/
def SameButSlots (s t : State) : Prop :=
  ∃ c l n r, t = { s with stn := { s.stn with closed := c, lateSlots := l, slotLate := n, err := r } }

theorem SameButSlots.refl (s : State) : SameButSlots s s := ⟨s.stn.closed, s.stn.lateSlots, s.stn.slotLate, s.stn.err, rfl⟩

theorem SameButSlots.trans {s t u : State} (h : SameButSlots s t) (g : SameButSlots t u) : SameButSlots s u := by
  obtain ⟨c, l, n, r, rfl⟩ := h
  obtain ⟨c', l', n', r', rfl⟩ := g
  exact ⟨c', l', n', r', rfl⟩

theorem closeSlot_same (b : Body) (e : Nat) (s : State) (k : Nat) (h : s.se.role = 0) : SameButSlots s (closeSlot b e s k) := by
  unfold closeSlot
  split
  · exact SameButSlots.refl s
  · have hoff : seClose { s with stn := { s.stn with closed := s.stn.closed ++ [(k, e)] } } k e = { s with stn := { s.stn with closed := s.stn.closed ++ [(k, e)] } } := seClose_off _ _ _ h
    rw [hoff]
    dsimp only
    split
    · split
      · exact ⟨_, _, _, _, rfl⟩
      · exact ⟨_, s.stn.lateSlots, s.stn.slotLate, s.stn.err, rfl⟩
    · exact ⟨_, s.stn.lateSlots, s.stn.slotLate, s.stn.err, rfl⟩

theorem closeSlots_same (s : State) (e : Nat) (h : s.se.role = 0) : SameButSlots s (closeSlots s e) := by
  unfold closeSlots
  generalize ((curBody s).slotsOf e).map (·.1) = ks
  generalize curBody s = b
  suffices H : ∀ (ks : List Nat) (u : State), SameButSlots s u → SameButSlots s (ks.foldl (closeSlot b e) u) from H ks s (SameButSlots.refl s)
  intro ks
  induction ks with
  | nil => intro u hu; exact hu
  | cons k r ih =>
    intro u hu
    exact ih _ (hu.trans (closeSlot_same b e u k (by obtain ⟨c, l, n, r', rfl⟩ := hu; exact h)))

theorem SameButSlots.eng {s t : State} (h : SameButSlots s t) (f : Nat) : t.eng f = s.eng f := by
  obtain ⟨c, l, n, r, rfl⟩ := h; rfl

theorem SameButSlots.busy {s t : State} (h : SameButSlots s t) : busyEngines t = busyEngines s := by
  obtain ⟨c, l, n, r, rfl⟩ := h; rfl

theorem SameButSlots.butSlots {u t : State} (h : SameButSlots u t) : ButSlots u t := by
  obtain ⟨c, l, n, r, rfl⟩ := h; rfl

/-! ## A quiet device -/

theorem drain_quiet {s : State} (h : ∀ q ∈ s.skm.subq, (s.sub q.1).ll = false) : drainSubs s = (false, s) := by
  unfold drainSubs
  suffices H : ∀ l : Tab (List (List Byte)), (∀ q ∈ l, (s.sub q.1).ll = false) →
      l.foldl drainSub (false, s) = (false, s) from H s.skm.subq h
  intro l
  induction l with
  | nil => intro _; rfl
  | cons q r ih =>
    intro hq
    rw [List.foldl_cons]
    have hll : (s.sub q.1).ll = false := hq q (by simp)
    have hone : drainSub (false, s) q = (false, s) := by simp [drainSub, hll]
    rw [hone]
    exact ih fun q' hq' => hq q' (by simp [hq'])

theorem Quiet.drain {s : State} (h : Quiet s) : drainSubs s = (false, s) := drain_quiet h.noTiles

theorem Quiet.idle {s : State} (h : Quiet s) (e : Nat) : idleEngine (s.eng e) := eng_idle_of_free h.free e

theorem Quiet.setEng {s : State} (h : Quiet s) (e : Nat) {x : Engine} (hf : x.flights = []) (ht : x.toIssue = []) : Quiet (s.setEng e x) :=
  ⟨by rw [busy_setEng h.free]; simp [hf, ht], h.noTiles, h.unpaired⟩

theorem SameButSlots.quiet {s t : State} (h : SameButSlots s t) (q : Quiet s) : Quiet t := by
  obtain ⟨c, l, n, r, rfl⟩ := h; exact ⟨q.free, q.noTiles, q.unpaired⟩

/-- An engine has its own place in the table of engines, so that writing back what it holds changes nothing. -/
def Placed (s : State) (e : Nat) : Prop := s.setEng e (s.eng e) = s

theorem State.setEng_comm (s : State) (e f : Nat) (x y : Engine) (h : e ≠ f) : (s.setEng e x).setEng f y = (s.setEng f y).setEng e x := by
  unfold State.setEng; simp only [Tab.put_comm _ _ e f x y h]

theorem placed_setEng (s : State) (e : Nat) (x : Engine) : Placed (s.setEng e x) e := by simp [Placed]

theorem Placed.setEng {s : State} {e : Nat} (h : Placed s e) (f : Nat) (y : Engine) : Placed (s.setEng f y) e := by
  by_cases hf : f = e
  · subst hf; exact placed_setEng s f y
  · unfold Placed
    rw [State.setEng_eng_ne _ _ _ _ (by intro h'; exact hf h'.symm), State.setEng_comm _ _ _ _ _ hf, h]

theorem Placed.frame {u v : State} {e : Nat} (h : Placed u e) (h1 : v.engines = u.engines) : Placed v e := by
  unfold Placed State.setEng State.eng at *
  have := congrArg State.engines h
  simp only at this
  rw [h1, this]; cases v; simp only at h1; rw [h1]

theorem Quiet.frame {u v : State} (h : Quiet u) (h1 : v.engines = u.engines) (h2 : v.skm.subq = u.skm.subq) (h3 : v.skm.tables = u.skm.tables)
    (h4 : v.se = u.se) : Quiet v :=
  ⟨by rw [← h.free]; unfold busyEngines; rw [h1], by intro q hq; have := h.noTiles q (by rw [← h2]; exact hq); unfold State.sub at *; rw [h3]; exact this, by rw [h4]; exact h.unpaired⟩

/-- A state with one stroke in flight. -/
def inFlight (s : State) (e : Nat) (fl : Flight) : State := s.setEng e ((s.eng e).withFlights [fl])

/-- A stroke whose count k takes the quiet state `G k` to the quiet state `G (k + 1)`, with the flight `F k` before it and `P k` after it. -/
theorem stroke_counts {s : State} {e : Fin 64} {i : BitVec 16} {op : Nat} {w : BitVec 120} {ups : List LaUpset}
    (h : Lone s e i) (hok : strokeOk (strokeWord op w) = true) (hop : wOp (strokeWord op w) ≠ opLoad) (hn : 0 < wCount (strokeWord op w))
    (G : Nat → State) (F P : Nat → Flight)
    (hG0 : G 0 = s.setEng e.val (afterIssue (s.eng e.val) i ups)) (hF0 : F 0 = issued (s.eng e.val) i (strokeWord op w))
    (hq : ∀ k, k ≤ wCount (strokeWord op w) → Quiet (G k) ∧ Placed (G k) e.val) (hres : (G (wCount (strokeWord op w))).stn.resFailed = s.stn.resFailed)
    (hP : ∀ k, k < wCount (strokeWord op w) → (P k).idx = i ∧ (P k).word = strokeWord op w ∧ (P k).since = none ∧ (P k).done = k)
    (hFi : ∀ k, k < wCount (strokeWord op w) → (F k).idx = i ∧ (F k).word = strokeWord op w)
    (hF : ∀ k, k + 1 < wCount (strokeWord op w) → F (k + 1) = (P k).nextCount)
    (hstep : ∀ k, k < wCount (strokeWord op w) → countStroke (inFlight (G k) e.val (F k)) e.val (F k) = .ok (inFlight (G (k + 1)) e.val (F k)) (P k)) :
    SameButSlots (G (wCount (strokeWord op w))) (strokeCmd s e op i w ups) := by
  generalize hW : strokeWord op w = W at *
  have hidle := h.quiet.idle e.val
  have hload : ∀ fl : Flight, fl.word = W → fl.awaitsTiles = false := by
    intro fl hfl; simp [Flight.awaitsTiles, hfl, hop]
  have hadv : ∀ k, k < wCount W → advance (inFlight (G k) e.val (F k)) e.val (F k) =
      (true, if k + 1 = wCount W then closeSlots (G (k + 1)) e.val else inFlight (G (k + 1)) e.val ((P k).nextCount)) := by
    intro k hk
    obtain ⟨p1, p2, p3, p4⟩ := hP k hk
    obtain ⟨f1, f2⟩ := hFi k hk
    have hput : putFlight (inFlight (G (k + 1)) e.val (F k)) e.val (P k).nextCount = inFlight (G (k + 1)) e.val (P k).nextCount := by
      simp [putFlight, inFlight, f1, p1]
    unfold advance
    rw [hload (F k) f2]
    simp only [Bool.false_eq_true, if_false, hstep k hk, endWait, p3]
    rw [hput]
    simp only [Flight.nextCount_done, Flight.nextCount_word, p2, p4, hop, ne_eq, not_false_eq_true, and_true]
    by_cases hl : k + 1 = wCount W
    · simp only [hl, if_true]
      congr 1
      have hi := ((hq (k + 1) (by omega)).1.idle e.val).1
      have hr := (hq (k + 1) (by omega)).1.unpaired
      rw [← hl]
      have hs : (G (k + 1)).setEng e.val (((G (k + 1)).eng e.val).withFlights []) = G (k + 1) := by
        rw [Engine.withFlights_self _ [] hi]; exact (hq (k + 1) (by omega)).2
      simp [strokeComplete, inFlight, p1, hr, hs]
    · simp only [hl, if_false]
  have hnn := hn
  generalize hN : wCount W = n at *
  have hsame : SameButSlots (G n) (closeSlots (G n) e.val) := closeSlots_same _ _ (hq n (Nat.le_refl n)).1.unpaired
  have hpump : strokeCmd s e op i w ups = closeSlots (G n) e.val := by
    unfold strokeCmd
    rw [if_pos h.running, hidle.2, List.nil_append, hW]
    refine pump_lone (G := fun k => inFlight (G k) e.val (F k)) (F := F) h.quiet.free ⟨hidle.1, rfl⟩ h.started hok (by rw [hN]; exact hn) ?_ ?_ ?_ ?_ ?_
    · dsimp only; rw [hG0, hF0]; simp [inFlight]; rfl
    · rw [hN]
      constructor
      · intro k _; simp [inFlight]
      · intro k hk; simp [inFlight, ((hq k (by omega)).1.idle e.val).2]
      · intro k hk
        rw [hadv k (by omega), if_neg (by omega), hF k hk]
      · intro k hk
        rw [hadv k (by omega), if_pos hk, hk]
    · exact (hsame.quiet (hq n (Nat.le_refl n)).1).free
    · exact (hsame.quiet (hq n (Nat.le_refl n)).1).drain
    · obtain ⟨c, l, a, r, hx⟩ := hsame; rw [hx]; exact hres
  rw [hpump]
  exact hsame

@[simp] theorem inFlight_eng (u : State) (e : Nat) (fl : Flight) : (inFlight u e fl).eng e = (u.eng e).withFlights [fl] := by simp [inFlight]

/-! ## Stroke words -/

theorem strokeWord_toNat (op : Nat) (w : BitVec 120) (h : op < 256) : (strokeWord op w).toNat = op * 2 ^ 120 + w.toNat := by
  unfold strokeWord
  rw [BitVec.toNat_append, Nat.shiftLeft_eq, BitVec.toNat_ofNat, Nat.mod_eq_of_lt (by simpa using h)]
  rw [← Nat.shiftLeft_eq, Nat.shiftLeft_add_eq_or_of_lt w.isLt]

theorem wOp_strokeWord (op : Nat) (w : BitVec 120) (h : op < 256) : wOp (strokeWord op w) = op := by
  unfold wOp wField bitsOf
  rw [strokeWord_toNat op w h, Nat.shiftRight_eq_div_pow]
  have : (op * 2 ^ 120 + w.toNat) / 2 ^ 120 = op := by
    rw [Nat.mul_comm, Nat.mul_add_div (by decide), Nat.div_eq_of_lt w.isLt, Nat.add_zero]
  rw [this]; exact Nat.mod_eq_of_lt (by simpa using h)

theorem wCount_pos (w : BitVec 128) : 0 < wCount w := by
  unfold wCount
  simp only []
  split
  · exact Nat.one_pos
  · split
    · exact Nat.succ_pos _
    · exact Nat.succ_pos _

/-! ## A stroke described by what each count does to its engine -/

/-- The flight of a stroke that has made k counts without a wait. -/
def Flight.at (fl : Flight) (k : Nat) : Flight := { fl with done := k }

theorem writesPending_of_landed {x : Engine} {fl : Flight} (h : Landed x fl.word fl.done) : writesPending x fl = false := by
  unfold writesPending
  rw [List.any_eq_false]
  intro r hr
  rw [List.any_eq_true]
  rintro ⟨j, hj, hp⟩
  exact h r hr j (List.mem_range.1 hj) (by simpa using hp)

/-- A flight before count k, with what it has formed and its destination records. -/
def Flight.before (fl : Flight) (k : Nat) (b : List Byte) (ds : List Dest) : Flight := { fl with done := k, part := b, dests := ds }

@[simp] theorem Flight.before_word (fl : Flight) (k : Nat) (b : List Byte) (ds : List Dest) : (fl.before k b ds).word = fl.word := rfl
@[simp] theorem Flight.before_done (fl : Flight) (k : Nat) (b : List Byte) (ds : List Dest) : (fl.before k b ds).done = k := rfl
@[simp] theorem Flight.before_idx (fl : Flight) (k : Nat) (b : List Byte) (ds : List Dest) : (fl.before k b ds).idx = fl.idx := rfl
@[simp] theorem Flight.before_base (fl : Flight) (k : Nat) (b : List Byte) (ds : List Dest) : (fl.before k b ds).base = fl.base := rfl
@[simp] theorem Flight.before_part (fl : Flight) (k : Nat) (b : List Byte) (ds : List Dest) : (fl.before k b ds).part = b := rfl
@[simp] theorem Flight.before_dests (fl : Flight) (k : Nat) (b : List Byte) (ds : List Dest) : (fl.before k b ds).dests = ds := rfl
@[simp] theorem Flight.before_before (fl : Flight) (k j : Nat) (b c : List Byte) (ds es : List Dest) : (fl.before k b ds).before j c es = fl.before j c es := rfl
@[simp] theorem Flight.before_r32 (fl : Flight) (k : Nat) (b : List Byte) (ds : List Dest) (s : State) (n j : Nat) : (fl.before k b ds).r32 s n j = fl.r32 s n j := rfl

/-- A flight before a count of a quiet device writes no slot that awaits a LOAD. -/
theorem pending_inFlight {s u : State} {e : Fin 64} {i : BitVec 16} {op : Nat} {w : BitVec 120} {k : Nat} {fl : Flight} {b : List Byte}
    (hfl : fl = (strokeOf s e i op w).before k b fl.dests) (hl : Landed (u.eng e.val) (strokeWord op w) k) :
    writesPending ((inFlight u e.val fl).eng e.val) fl = false := by
  have : Landed ((inFlight u e.val fl).eng e.val) fl.word fl.done := by
    rw [hfl, inFlight, State.setEng_eng]; exact hl
  exact writesPending_of_landed this

/-- To show that a stroke does as `f` says, look at one count; `D` are the destination records that it forms. -/
theorem strokeDoes_of {c : Instr} {s : State} {e : Fin 64} {i : BitVec 16} {op : Nat} {w : BitVec 120} {ups : List LaUpset}
    {ready : Nat → State × List Byte → Prop} {f : Nat → State × List Byte → State × List Byte}
    (hexec : exec c s = act s (strokeCmd s e op i w ups)) (hop : op < 256) (hload : op ≠ opLoad)
    (D : State → Flight → List Dest)
    (hkeep : ∀ k u b, Quiet u → Placed u e.val → ready k (u, b) → Quiet (f k (u, b)).1 ∧ Placed (f k (u, b)).1 e.val ∧ (f k (u, b)).1.stn.resFailed = u.stn.resFailed)
    (hcount : strokeOk (strokeWord op w) = true → ∀ k u b (fl : Flight), k < wCount (strokeWord op w) → Quiet u → Placed u e.val → Landed (u.eng e.val) (strokeWord op w) k →
      ready k (u, b) → fl = (strokeOf s e i op w).before k b fl.dests →
      countStroke (inFlight u e.val fl) e.val fl = .ok (inFlight (f k (u, b)).1 e.val fl) (fl.before k (f k (u, b)).2 (D u fl))) :
    StrokeDoes c s e i op w ups ready f := by
  intro hl hok hready
  have hlive : s.pwr.tripped = false := hl.live
  refine ⟨strokeCmd s e op i w ups, by rw [hexec]; simp [act, hlive], ?_⟩
  generalize hA : deviceAfter s e i ups f = after at *
  have hA0 : after 0 = (s.setEng e.val (afterIssue (s.eng e.val) i ups), []) := by rw [← hA]; rfl
  have hA1 : ∀ k, after (k + 1) = f k (after k) := by intro k; rw [← hA]; rfl
  have hinv : ∀ k, k ≤ wCount (strokeWord op w) → Quiet (after k).1 ∧ Placed (after k).1 e.val ∧ (after k).1.stn.resFailed = s.stn.resFailed := by
    intro k
    induction k with
    | zero => intro _; rw [hA0]; exact ⟨hl.quiet.setEng e.val rfl rfl, placed_setEng _ _ _, rfl⟩
    | succ k ih =>
      intro hk
      obtain ⟨q, p, r⟩ := ih (by omega)
      obtain ⟨q', p', r'⟩ := hkeep k (after k).1 (after k).2 q p (hready k (by omega)).2
      rw [hA1]; exact ⟨q', p', r'.trans r⟩
  let step : Nat → Flight → Flight := fun k fl => fl.before k (after (k + 1)).2 (D (after k).1 fl)
  let F : Nat → Flight := fun k => Nat.rec (issued (s.eng e.val) i (strokeWord op w)) (fun k fl => (step k fl).nextCount) k
  have hF1 : ∀ k, F (k + 1) = (step k (F k)).nextCount := fun k => rfl
  have hFk : ∀ k, F k = (strokeOf s e i op w).before k (after k).2 (F k).dests := by
    intro k
    induction k with
    | zero => rw [hA0]; rfl
    | succ k ih =>
      rw [hF1]
      generalize F k = fl at ih
      rw [ih]; rfl
  refine (stroke_counts hl hok (by rw [wOp_strokeWord op w hop]; exact hload) (wCount_pos _) (fun k => (after k).1) F (fun k => step k (F k)) (by rw [hA0]) rfl ?_ ?_ ?_ ?_ ?_ ?_).butSlots
  · intro k hk; exact ⟨(hinv k hk).1, (hinv k hk).2.1⟩
  · exact (hinv _ (Nat.le_refl _)).2.2
  · intro k _
    dsimp only [step]
    rw [hFk k]
    exact ⟨rfl, rfl, rfl, rfl⟩
  · intro k _
    rw [hFk k]
    exact ⟨rfl, rfl⟩
  · intro k _; rfl
  · intro k hk
    have := hcount hok k (after k).1 (after k).2 (F k) hk (hinv k (by omega)).1 (hinv k (by omega)).2.1 (hready k hk).1 (hready k hk).2 (hFk k)
    dsimp only [step]
    rw [hA1]
    exact this

/-- To show that a stroke of its engine alone runs as `f` says, look at one count. -/
theorem strokeRuns_of {c : Instr} {s : State} {e : Fin 64} {i : BitVec 16} {op : Nat} {w : BitVec 120} {ups : List LaUpset}
    {ready : Nat → Engine → Prop} {f : Nat → Engine → Engine}
    (hexec : exec c s = act s (strokeCmd s e op i w ups)) (hop : op < 256) (hload : op ≠ opLoad)
    (hkeep : ∀ k x, (f k x).flights = x.flights ∧ (f k x).toIssue = x.toIssue)
    (hcount : strokeOk (strokeWord op w) = true → ∀ k x, k < wCount (strokeWord op w) → Landed x (strokeWord op w) k → ready k x →
      countStroke (s.setEng e.val (x.withFlights [(strokeOf s e i op w).at k])) e.val ((strokeOf s e i op w).at k)
        = .ok (s.setEng e.val ((f k x).withFlights [(strokeOf s e i op w).at k])) ((strokeOf s e i op w).at k)) :
    StrokeRuns c s e i op w ups ready f := by
  intro hl hok hready
  have hlive : s.pwr.tripped = false := hl.live
  refine ⟨strokeCmd s e op i w ups, by rw [hexec]; simp [act, hlive], ?_⟩
  have hidle : ∀ k, (engineAfter s e i ups f k).flights = [] ∧ (engineAfter s e i ups f k).toIssue = [] := by
    intro k
    induction k with
    | zero => exact ⟨rfl, rfl⟩
    | succ k ih =>
      have h2 := hkeep k (engineAfter s e i ups f k)
      exact ⟨h2.1.trans ih.1, h2.2.trans ih.2⟩
  refine (stroke_counts hl hok (by rw [wOp_strokeWord op w hop]; exact hload) (wCount_pos _) (fun k => s.setEng e.val (engineAfter s e i ups f k))
    (fun k => (strokeOf s e i op w).at k) (fun k => (strokeOf s e i op w).at k) rfl rfl ?_ rfl ?_ ?_ ?_ ?_).butSlots
  · intro k _; exact ⟨hl.quiet.setEng e.val (hidle k).1 (hidle k).2, placed_setEng _ _ _⟩
  · intro k _; exact ⟨rfl, rfl, rfl, rfl⟩
  · intro k _; exact ⟨rfl, rfl⟩
  · intro k _; rfl
  · intro k hk
    have := hcount hok k _ hk (hready k hk).1 (hready k hk).2
    simpa [inFlight, engineAfter, afterCounts] using this

@[simp] theorem Flight.at_word (fl : Flight) (k : Nat) : (fl.at k).word = fl.word := rfl
@[simp] theorem Flight.at_done (fl : Flight) (k : Nat) : (fl.at k).done = k := rfl
@[simp] theorem Flight.at_idx (fl : Flight) (k : Nat) : (fl.at k).idx = fl.idx := rfl
@[simp] theorem Flight.at_base (fl : Flight) (k : Nat) : (fl.at k).base = fl.base := rfl
@[simp] theorem Flight.at_params (fl : Flight) (k : Nat) : (fl.at k).params = fl.params := rfl
@[simp] theorem Flight.at_r32 (fl : Flight) (k : Nat) (s : State) (n j : Nat) : (fl.at k).r32 s n j = fl.r32 s n j := rfl
@[simp] theorem Flight.r32_setEng (fl : Flight) (s : State) (e : Nat) (x : Engine) (n j : Nat) : fl.r32 (s.setEng e x) n j = fl.r32 s n j := rfl
@[simp] theorem strokeOf_word (s : State) (e : Fin 64) (i : BitVec 16) (op : Nat) (w : BitVec 120) : (strokeOf s e i op w).word = strokeWord op w := rfl

/-! ## What an engine's own updates leave alone -/

@[simp] theorem Engine.withFlights_bytes (x : Engine) (l : List Flight) (k : Nat) : (x.withFlights l).bytes k = x.bytes k := rfl
@[simp] theorem Engine.withFlights_tag (x : Engine) (l : List Flight) (k : Nat) : (x.withFlights l).tag k = x.tag k := rfl
@[simp] theorem Engine.withFlights_putTile (x : Engine) (l : List Flight) (k : Nat) (f : BitVec 4) (m : Bool) (b : List Byte) :
    (x.withFlights l).putTile k f m b = (x.putTile k f m b).withFlights l := rfl
@[simp] theorem Engine.withFlights_noteNf (x : Engine) (l : List Flight) (i : BitVec 16) (p : BitVec 48) : (x.withFlights l).noteNf i p = (x.noteNf i p).withFlights l := rfl
@[simp] theorem Engine.withFlights_noteNfs (x : Engine) (l : List Flight) (i : BitVec 16) (b : Nat) (js : List Nat) :
    (x.withFlights l).noteNfs i b js = (x.noteNfs i b js).withFlights l := by cases js <;> rfl
@[simp] theorem Engine.withFlights_noteSat (x : Engine) (l : List Flight) (n : Nat) : (x.withFlights l).noteSat n = (x.noteSat n).withFlights l := by
  unfold Engine.noteSat; split <;> rfl
@[simp] theorem Engine.withFlights_noteRes (x : Engine) (l : List Flight) (fl : Flight) (j : Nat) (rs : List Res) :
    (x.withFlights l).noteRes fl j rs = (x.noteRes fl j rs).withFlights l := by simp [Engine.noteRes]
theorem Engine.noteRes_at (x : Engine) (fl : Flight) (k j : Nat) (rs : List Res) : x.noteRes (fl.at k) j rs = x.noteRes fl j rs := rfl
@[simp] theorem Engine.withFlights_putEntries (x : Engine) (l : List Flight) (a : Nat) (es : List LaEntry) :
    (x.withFlights l).putEntries a es = (x.putEntries a es).withFlights l := rfl
@[simp] theorem Engine.withFlights_entries (x : Engine) (l : List Flight) (a n : Nat) : (x.withFlights l).entries a n = x.entries a n := rfl
@[simp] theorem Engine.withFlights_isForm32 (x : Engine) (l : List Flight) (r : Nat) : (x.withFlights l).isForm32 r = x.isForm32 r := rfl
@[simp] theorem Engine.withFlights_noteCe (x : Engine) (l : List Flight) (n : Nat) : (x.withFlights l).noteCe n = (x.noteCe n).withFlights l := by
  unfold Engine.noteCe; split <;> rfl
theorem Engine.withFlights_readRows (x : Engine) (l : List Flight) (r n : Nat) :
    (x.withFlights l).readRows r n = ((x.readRows r n).1, (x.readRows r n).2.withFlights l) := by
  have h : (x.withFlights l).clearMarks r n = (x.clearMarks r n).withFlights l := rfl
  unfold Engine.readRows
  simp only [h, Engine.withFlights_noteCe, Engine.withFlights_marks]
@[simp] theorem withFlights_afterRows (x : Engine) (l : List Flight) (r n : Nat) : afterRows (x.withFlights l) r n = (afterRows x r n).withFlights l := by
  simp [afterRows, Engine.withFlights_readRows]
@[simp] theorem withFlights_rowsSound (x : Engine) (l : List Flight) (r n : Nat) : RowsSound (x.withFlights l) r n ↔ RowsSound x r n := by
  simp [RowsSound, Engine.withFlights_readRows]
theorem Engine.withFlights_accumulate (x : Engine) (l : List Flight) (a : Nat) (vs : List Num) :
    (x.withFlights l).accumulate a vs = ((x.accumulate a vs).1.withFlights l, (x.accumulate a vs).2) := rfl

/-! ## Reading tiles -/

theorem readSlot_of_tile {x : Engine} {f : BitVec 4} {k : Nat} (h : HasTile x f k) : x.readSlot k f (some false) = .ok (x.bytes k) (x.tag k) := by
  obtain ⟨⟨h1, h2⟩, h3, h4⟩ := h
  simp [Engine.readSlot, h1, h2, h3, h4]

theorem readSlot_of_images {x : Engine} {f : BitVec 4} {k : Nat} (h : HasImages x k) : x.readSlot k f (some true) = .ok (x.bytes k) (x.tag k) := by
  obtain ⟨⟨h1, h2⟩, h3⟩ := h
  simp [Engine.readSlot, h1, h2, h3]

theorem readSlots_of {x : Engine} {f : BitVec 4} {img : Option Bool} {ks : List Nat} (h : ∀ k ∈ ks, x.readSlot k f img = .ok (x.bytes k) (x.tag k)) :
    x.readSlots f img ks = (.ok [] {}, 0, ks.map fun k => (x.bytes k, x.tag k)) := by
  have h1 : ks.map (fun k => (k, x.readSlot k f img)) = ks.map fun k => (k, ReadRes.ok (x.bytes k) (x.tag k)) :=
    List.map_congr_left fun k hk => by rw [h k hk]
  have h2 : (ks.map fun k => (k, ReadRes.ok (x.bytes k) (x.tag k))).flatMap (fun r => r.2.causes.map fun c => (c, r.1)) = [] := by
    rw [List.flatMap_eq_nil_iff]; intro r hr
    obtain ⟨k, _, rfl⟩ := List.mem_map.1 hr; rfl
  have h3 : (ks.map fun k => (k, ReadRes.ok (x.bytes k) (x.tag k))).any (fun r => decide (r.2 = .wait)) = false := by
    rw [List.any_eq_false]; intro r hr
    obtain ⟨k, _, rfl⟩ := List.mem_map.1 hr; simp
  have h4 : (ks.map fun k => (k, ReadRes.ok (x.bytes k) (x.tag k))).filterMap (fun r => r.2.tile) = ks.map fun k => (x.bytes k, x.tag k) := by
    rw [List.filterMap_map]; exact List.filterMap_eq_map' ▸ rfl
  unfold Engine.readSlots
  simp only [h1, h2, lowestFault, List.foldl_nil, h3, h4, Bool.false_eq_true, if_false]

/-- A count whose tiles can all be read goes on with them. -/
theorem withTiles_of {s : State} {e : Nat} {fl : Flight} {img : Option Bool} {ks : List Nat} {g : List (List Byte × TileTag) → CountRes}
    (h : ∀ k ∈ ks, (s.eng e).readSlot k (wFmt fl.word) img = .ok ((s.eng e).bytes k) ((s.eng e).tag k)) :
    withTiles s e fl img ks g = g (ks.map fun k => ((s.eng e).bytes k, (s.eng e).tag k)) := by
  unfold withTiles; rw [readSlots_of h]

/-- A count whose rows are sound goes on with them. -/
theorem withRows_of {s : State} {e row n : Nat} {g : State → CountRes} (h : RowsSound (s.eng e) row n) :
    withRows s e row n g = g (s.setEng e (afterRows (s.eng e) row n)) := by
  unfold RowsSound at h
  unfold withRows afterRows
  rcases hr : (s.eng e).readRows row n with ⟨r, x⟩
  rw [hr] at h
  simp only at h
  subst h
  rfl

end Sys2Proof.Machine
end

