-- ==== Sys2Proof/Laws/Counts.lean ====
section
/-! SUPPORT. Laws of one count of each operation: what it does where its tiles are intact, its rows sound and its slots free. -/

namespace Sys2Proof.Machine

set_option linter.unusedSimpArgs false

/-! ## Which operation a count belongs to -/

theorem countStroke_nop {s : State} {e : Nat} {fl : Flight} (h : wOp fl.word = opNop) : countStroke s e fl = .ok s fl := by
  simp only [countStroke, h, if_true]

theorem countStroke_setx {s : State} {e : Nat} {fl : Flight} (h : wOp fl.word = opSetx) (hp : writesPending (s.eng e) fl = false) :
    countStroke s e fl = countSetx s e fl := by
  unfold countStroke
  simp only [h, hp, opNop, opSetx, opSetp, opLoad, opStore, opSend, opClra, opAcc, opRdla, opSvla, opAddla, opAdd, opFma, opDot, opCvt, opSum64, opSkenc, opSkdec, opUpds, opUpdm, opUpda]
  simp

theorem countStroke_setp {s : State} {e : Nat} {fl : Flight} (h : wOp fl.word = opSetp) (hp : writesPending (s.eng e) fl = false) :
    countStroke s e fl = countSetp s e fl := by
  unfold countStroke
  simp only [h, hp, opNop, opSetx, opSetp, opLoad, opStore, opSend, opClra, opAcc, opRdla, opSvla, opAddla, opAdd, opFma, opDot, opCvt, opSum64, opSkenc, opSkdec, opUpds, opUpdm, opUpda]
  simp

theorem countStroke_load {s : State} {e : Nat} {fl : Flight} (h : wOp fl.word = opLoad) :
    countStroke s e fl = countLoad s e fl := by
  unfold countStroke
  simp only [h, opNop, opSetx, opSetp, opLoad, opStore, opSend, opClra, opAcc, opRdla, opSvla, opAddla, opAdd, opFma, opDot, opCvt, opSum64, opSkenc, opSkdec, opUpds, opUpdm, opUpda]
  simp

theorem countStroke_store {s : State} {e : Nat} {fl : Flight} (h : wOp fl.word = opStore) (hp : writesPending (s.eng e) fl = false) :
    countStroke s e fl = countStore s e fl := by
  unfold countStroke
  simp only [h, hp, opNop, opSetx, opSetp, opLoad, opStore, opSend, opClra, opAcc, opRdla, opSvla, opAddla, opAdd, opFma, opDot, opCvt, opSum64, opSkenc, opSkdec, opUpds, opUpdm, opUpda]
  simp

theorem countStroke_send {s : State} {e : Nat} {fl : Flight} (h : wOp fl.word = opSend) (hp : writesPending (s.eng e) fl = false) :
    countStroke s e fl = countSend s e fl := by
  unfold countStroke
  simp only [h, hp, opNop, opSetx, opSetp, opLoad, opStore, opSend, opClra, opAcc, opRdla, opSvla, opAddla, opAdd, opFma, opDot, opCvt, opSum64, opSkenc, opSkdec, opUpds, opUpdm, opUpda]
  simp

theorem countStroke_clra {s : State} {e : Nat} {fl : Flight} (h : wOp fl.word = opClra) (hp : writesPending (s.eng e) fl = false) :
    countStroke s e fl = countClra s e fl := by
  unfold countStroke
  simp only [h, hp, opNop, opSetx, opSetp, opLoad, opStore, opSend, opClra, opAcc, opRdla, opSvla, opAddla, opAdd, opFma, opDot, opCvt, opSum64, opSkenc, opSkdec, opUpds, opUpdm, opUpda]
  simp

theorem countStroke_acc {s : State} {e : Nat} {fl : Flight} (h : wOp fl.word = opAcc) (hp : writesPending (s.eng e) fl = false) :
    countStroke s e fl = countAcc s e fl := by
  unfold countStroke
  simp only [h, hp, opNop, opSetx, opSetp, opLoad, opStore, opSend, opClra, opAcc, opRdla, opSvla, opAddla, opAdd, opFma, opDot, opCvt, opSum64, opSkenc, opSkdec, opUpds, opUpdm, opUpda]
  simp

theorem countStroke_rdla {s : State} {e : Nat} {fl : Flight} (h : wOp fl.word = opRdla) (hp : writesPending (s.eng e) fl = false) :
    countStroke s e fl = countRdla s e fl := by
  unfold countStroke
  simp only [h, hp, opNop, opSetx, opSetp, opLoad, opStore, opSend, opClra, opAcc, opRdla, opSvla, opAddla, opAdd, opFma, opDot, opCvt, opSum64, opSkenc, opSkdec, opUpds, opUpdm, opUpda]
  simp

theorem countStroke_svla {s : State} {e : Nat} {fl : Flight} (h : wOp fl.word = opSvla) (hp : writesPending (s.eng e) fl = false) :
    countStroke s e fl = countSvla s e fl := by
  unfold countStroke
  simp only [h, hp, opNop, opSetx, opSetp, opLoad, opStore, opSend, opClra, opAcc, opRdla, opSvla, opAddla, opAdd, opFma, opDot, opCvt, opSum64, opSkenc, opSkdec, opUpds, opUpdm, opUpda]
  simp

theorem countStroke_addla {s : State} {e : Nat} {fl : Flight} (h : wOp fl.word = opAddla) (hp : writesPending (s.eng e) fl = false) :
    countStroke s e fl = countAddla s e fl := by
  unfold countStroke
  simp only [h, hp, opNop, opSetx, opSetp, opLoad, opStore, opSend, opClra, opAcc, opRdla, opSvla, opAddla, opAdd, opFma, opDot, opCvt, opSum64, opSkenc, opSkdec, opUpds, opUpdm, opUpda]
  simp

theorem countStroke_add {s : State} {e : Nat} {fl : Flight} (h : wOp fl.word = opAdd) (hp : writesPending (s.eng e) fl = false) :
    countStroke s e fl = countAdd s e fl := by
  unfold countStroke
  simp only [h, hp, opNop, opSetx, opSetp, opLoad, opStore, opSend, opClra, opAcc, opRdla, opSvla, opAddla, opAdd, opFma, opDot, opCvt, opSum64, opSkenc, opSkdec, opUpds, opUpdm, opUpda]
  simp

theorem countStroke_fma {s : State} {e : Nat} {fl : Flight} (h : wOp fl.word = opFma) (hp : writesPending (s.eng e) fl = false) :
    countStroke s e fl = countFma s e fl := by
  unfold countStroke
  simp only [h, hp, opNop, opSetx, opSetp, opLoad, opStore, opSend, opClra, opAcc, opRdla, opSvla, opAddla, opAdd, opFma, opDot, opCvt, opSum64, opSkenc, opSkdec, opUpds, opUpdm, opUpda]
  simp

theorem countStroke_dot {s : State} {e : Nat} {fl : Flight} (h : wOp fl.word = opDot) (hp : writesPending (s.eng e) fl = false) :
    countStroke s e fl = countDot s e fl := by
  unfold countStroke
  simp only [h, hp, opNop, opSetx, opSetp, opLoad, opStore, opSend, opClra, opAcc, opRdla, opSvla, opAddla, opAdd, opFma, opDot, opCvt, opSum64, opSkenc, opSkdec, opUpds, opUpdm, opUpda]
  simp

theorem countStroke_cvt {s : State} {e : Nat} {fl : Flight} (h : wOp fl.word = opCvt) (hp : writesPending (s.eng e) fl = false) :
    countStroke s e fl = countCvt s e fl := by
  unfold countStroke
  simp only [h, hp, opNop, opSetx, opSetp, opLoad, opStore, opSend, opClra, opAcc, opRdla, opSvla, opAddla, opAdd, opFma, opDot, opCvt, opSum64, opSkenc, opSkdec, opUpds, opUpdm, opUpda]
  simp

theorem countStroke_sum64 {s : State} {e : Nat} {fl : Flight} (h : wOp fl.word = opSum64) (hp : writesPending (s.eng e) fl = false) :
    countStroke s e fl = countSum64 s e fl := by
  unfold countStroke
  simp only [h, hp, opNop, opSetx, opSetp, opLoad, opStore, opSend, opClra, opAcc, opRdla, opSvla, opAddla, opAdd, opFma, opDot, opCvt, opSum64, opSkenc, opSkdec, opUpds, opUpdm, opUpda]
  simp

theorem countStroke_skenc {s : State} {e : Nat} {fl : Flight} (h : wOp fl.word = opSkenc) (hp : writesPending (s.eng e) fl = false) :
    countStroke s e fl = countSkenc s e fl := by
  unfold countStroke
  simp only [h, hp, opNop, opSetx, opSetp, opLoad, opStore, opSend, opClra, opAcc, opRdla, opSvla, opAddla, opAdd, opFma, opDot, opCvt, opSum64, opSkenc, opSkdec, opUpds, opUpdm, opUpda]
  simp

theorem countStroke_skdec {s : State} {e : Nat} {fl : Flight} (h : wOp fl.word = opSkdec) (hp : writesPending (s.eng e) fl = false) :
    countStroke s e fl = countSkdec s e fl := by
  unfold countStroke
  simp only [h, hp, opNop, opSetx, opSetp, opLoad, opStore, opSend, opClra, opAcc, opRdla, opSvla, opAddla, opAdd, opFma, opDot, opCvt, opSum64, opSkenc, opSkdec, opUpds, opUpdm, opUpda]
  simp

theorem countStroke_upds {s : State} {e : Nat} {fl : Flight} (h : wOp fl.word = opUpds) (hp : writesPending (s.eng e) fl = false) :
    countStroke s e fl = countKernel s e fl := by
  unfold countStroke
  simp only [h, hp, opNop, opSetx, opSetp, opLoad, opStore, opSend, opClra, opAcc, opRdla, opSvla, opAddla, opAdd, opFma, opDot, opCvt, opSum64, opSkenc, opSkdec, opUpds, opUpdm, opUpda]
  simp

theorem countStroke_updm {s : State} {e : Nat} {fl : Flight} (h : wOp fl.word = opUpdm) (hp : writesPending (s.eng e) fl = false) :
    countStroke s e fl = countKernel s e fl := by
  unfold countStroke
  simp only [h, hp, opNop, opSetx, opSetp, opLoad, opStore, opSend, opClra, opAcc, opRdla, opSvla, opAddla, opAdd, opFma, opDot, opCvt, opSum64, opSkenc, opSkdec, opUpds, opUpdm, opUpda]
  simp

theorem countStroke_upda {s : State} {e : Nat} {fl : Flight} (h : wOp fl.word = opUpda) (hp : writesPending (s.eng e) fl = false) :
    countStroke s e fl = countKernel s e fl := by
  unfold countStroke
  simp only [h, hp, opNop, opSetx, opSetp, opLoad, opStore, opSend, opClra, opAcc, opRdla, opSvla, opAddla, opAdd, opFma, opDot, opCvt, opSum64, opSkenc, opSkdec, opUpds, opUpdm, opUpda]
  simp


/-! ## What updates of an engine leave alone -/

@[simp] theorem Engine.noteNfs_flights (x : Engine) (i : BitVec 16) (p : Nat) (j : List Nat) : (x.noteNfs i p j).flights = x.flights := by cases j <;> rfl
@[simp] theorem Engine.noteNfs_toIssue (x : Engine) (i : BitVec 16) (p : Nat) (j : List Nat) : (x.noteNfs i p j).toIssue = x.toIssue := by cases j <;> rfl
@[simp] theorem Engine.noteSat_flights (x : Engine) (n : Nat) : (x.noteSat n).flights = x.flights := by unfold Engine.noteSat; split <;> rfl
@[simp] theorem Engine.noteSat_toIssue (x : Engine) (n : Nat) : (x.noteSat n).toIssue = x.toIssue := by unfold Engine.noteSat; split <;> rfl
@[simp] theorem Engine.noteCe_flights (x : Engine) (n : Nat) : (x.noteCe n).flights = x.flights := by unfold Engine.noteCe; split <;> rfl
@[simp] theorem Engine.noteCe_toIssue (x : Engine) (n : Nat) : (x.noteCe n).toIssue = x.toIssue := by unfold Engine.noteCe; split <;> rfl
@[simp] theorem Engine.putTile_flights (x : Engine) (k : Nat) (f : BitVec 4) (m : Bool) (b : List Byte) : (x.putTile k f m b).flights = x.flights := rfl
@[simp] theorem Engine.putTile_toIssue (x : Engine) (k : Nat) (f : BitVec 4) (m : Bool) (b : List Byte) : (x.putTile k f m b).toIssue = x.toIssue := rfl
@[simp] theorem afterRows_flights (x : Engine) (r n : Nat) : (afterRows x r n).flights = x.flights := by simp [afterRows, Engine.readRows, Engine.clearMarks]
@[simp] theorem afterRows_toIssue (x : Engine) (r n : Nat) : (afterRows x r n).toIssue = x.toIssue := by simp [afterRows, Engine.readRows, Engine.clearMarks]
@[simp] theorem Engine.accumulate_flights (x : Engine) (a : Nat) (vs : List Num) : (x.accumulate a vs).1.flights = x.flights := rfl
@[simp] theorem Engine.accumulate_toIssue (x : Engine) (a : Nat) (vs : List Num) : (x.accumulate a vs).1.toIssue = x.toIssue := rfl
@[simp] theorem Engine.noteRes_flights (x : Engine) (fl : Flight) (j : Nat) (rs : List Res) : (x.noteRes fl j rs).flights = x.flights := by simp [Engine.noteRes]
@[simp] theorem Engine.noteRes_toIssue (x : Engine) (fl : Flight) (j : Nat) (rs : List Res) : (x.noteRes fl j rs).toIssue = x.toIssue := by simp [Engine.noteRes]
@[simp] theorem Engine.putEntries_flights (x : Engine) (a : Nat) (es : List LaEntry) : (x.putEntries a es).flights = x.flights := rfl
@[simp] theorem Engine.putEntries_toIssue (x : Engine) (a : Nat) (es : List LaEntry) : (x.putEntries a es).toIssue = x.toIssue := rfl
@[simp] theorem addValues_flights (x : Engine) (fl : Flight) (j : Nat) (vs : List Num) : (addValues x fl j vs).flights = x.flights := by simp [addValues]
@[simp] theorem addValues_toIssue (x : Engine) (fl : Flight) (j : Nat) (vs : List Num) : (addValues x fl j vs).toIssue = x.toIssue := by simp [addValues]

@[simp] theorem Engine.setIq_flights (x : Engine) (q : Nat) (l : List IqTile) : (x.setIq q l).flights = x.flights := rfl
@[simp] theorem Engine.setIq_toIssue (x : Engine) (q : Nat) (l : List IqTile) : (x.setIq q l).toIssue = x.toIssue := rfl
@[simp] theorem Engine.withFlights_setIq (x : Engine) (fs : List Flight) (q : Nat) (l : List IqTile) : (x.withFlights fs).setIq q l = (x.setIq q l).withFlights fs := rfl

theorem foldl_putTile_flights {β : Type} (l : List β) (x : Engine) (k : β → Nat) (f : BitVec 4) (b : β → List Byte) :
    (l.foldl (fun x p => x.putTile (k p) f false (b p)) x).flights = x.flights ∧ (l.foldl (fun x p => x.putTile (k p) f false (b p)) x).toIssue = x.toIssue := by
  induction l generalizing x with
  | nil => exact ⟨rfl, rfl⟩
  | cons p r ih => exact ih _

theorem foldl_putTile_withFlights {β : Type} (l : List β) (x : Engine) (fs : List Flight) (k : β → Nat) (f : BitVec 4) (b : β → List Byte) :
    l.foldl (fun x p => x.putTile (k p) f false (b p)) (x.withFlights fs) = (l.foldl (fun x p => x.putTile (k p) f false (b p)) x).withFlights fs := by
  induction l generalizing x with
  | nil => rfl
  | cons p r ih => exact ih (x.putTile (k p) f false (b p))

@[simp] theorem Engine.withFlights_readSlot (x : Engine) (l : List Flight) (k : Nat) (f : BitVec 4) (i : Option Bool) : (x.withFlights l).readSlot k f i = x.readSlot k f i := rfl

theorem setWidth_strokeWord (op n : Nat) (w : BitVec 120) (h : n ≤ 120) : (strokeWord op w).setWidth n = w.setWidth n := by
  unfold strokeWord; ext i hi; simp
  rw [BitVec.getLsbD_append]
  simp [show i < 120 by omega]

theorem readSlot_of_carries {x : Engine} {f : BitVec 4} {k : Nat} (h : Carries x f k) : x.readSlot k f none = .ok (x.bytes k) (x.tag k) := by
  obtain ⟨⟨h1, h2⟩, h3⟩ := h
  rcases h3 with h3 | h3 <;> simp [Engine.readSlot, h1, h2, h3]

/-! ## Mirrored tiles -/

theorem mirrorOut_engines (s : State) (r t : Nat) (d : BitVec 2) (b : List Byte) : (mirrorOut s r t d b).engines = s.engines := rfl
theorem mirrorOut_skm (s : State) (r t : Nat) (d : BitVec 2) (b : List Byte) : (mirrorOut s r t d b).skm = s.skm := rfl
theorem mirrorOut_se (s : State) (r t : Nat) (d : BitVec 2) (b : List Byte) : (mirrorOut s r t d b).se = s.se := rfl
theorem mirrorOut_stn (s : State) (r t : Nat) (d : BitVec 2) (b : List Byte) : (mirrorOut s r t d b).stn = s.stn := rfl
theorem mirrorOut_hbm (s : State) (r t : Nat) (d : BitVec 2) (b : List Byte) : (mirrorOut s r t d b).hbm = s.hbm := rfl
theorem mirrorOut_eng (s : State) (r t : Nat) (d : BitVec 2) (b : List Byte) (e : Nat) : (mirrorOut s r t d b).eng e = s.eng e := rfl
theorem mirrorOut_setEng (s : State) (e : Nat) (x : Engine) (r t : Nat) (d : BitVec 2) (b : List Byte) : mirrorOut (s.setEng e x) r t d b = (mirrorOut s r t d b).setEng e x := rfl

/-! ## Credits -/

/-- A credit that returns changes what the photonic engines owe, and nothing else. -/
theorem returnCredit_frame (s : State) (e q : Nat) (t : IqTile) : ∃ p, returnCredit s e q t = { s with phn := p } := by
  unfold returnCredit
  split
  · exact ⟨s.phn, rfl⟩
  · exact ⟨_, rfl⟩

theorem returnCredit_setEng (s : State) (f : Nat) (x : Engine) (e q : Nat) (t : IqTile) :
    returnCredit (s.setEng f x) e q t = (returnCredit s e q t).setEng f x := by
  unfold returnCredit
  cases t.origin <;> rfl

/-! ## Lengths -/

theorem length_chunks {α : Type} (n : Nat) (hn : 0 < n) : ∀ (m fuel : Nat) (l : List α), l.length = n * m → m ≤ fuel → (chunks n fuel l).length = m := by
  intro m
  induction m with
  | zero =>
    intro fuel l hl _
    have : l = [] := List.eq_nil_of_length_eq_zero (by simpa using hl)
    subst this
    cases fuel <;> rfl
  | succ m ih =>
    intro fuel l hl hf
    obtain ⟨f, rfl⟩ : ∃ f, fuel = f + 1 := ⟨fuel - 1, by omega⟩
    have hpos : 0 < l.length := by rw [hl]; exact Nat.mul_pos hn (Nat.succ_pos m)
    have hne : l.isEmpty = false := by cases l <;> simp_all
    simp only [chunks, hne, Bool.false_eq_true, if_false, List.length_cons]
    rw [ih f (l.drop n) (by rw [List.length_drop, hl, Nat.mul_succ]; omega) (by omega)]

theorem length_elemsOf {f : BitVec 4} {b : List Byte} (hf : f.toNat ≤ 11) (hb : b.length = 4096) : (elemsOf f b).length = elemsPerTile f := by
  have hc : ∀ n m, 0 < n → 4096 = n * m → m ≤ 4096 → ((chunks n b.length b).map leNat).length = m := by
    intro n m hn h1 h2
    rw [List.length_map, length_chunks n hn m _ _ (by rw [hb, h1]) (by omega)]
  have h8 : (b.flatMap fun b => [b.toNat % 16, b.toNat / 16]).length = 8192 := by
    rw [List.length_flatMap, show b.map (fun a => [a.toNat % 16, a.toNat / 16].length) = b.map fun _ => 2 from rfl, List.map_const', List.sum_replicate_nat, hb]
  have : ∀ v : Nat, v ≤ 11 → f = BitVec.ofNat 4 v → (elemsOf f b).length = elemsPerTile f := by
    intro v hv hfv
    subst hfv
    have hc' : v = 0 ∨ v = 1 ∨ v = 2 ∨ v = 3 ∨ v = 4 ∨ v = 5 ∨ v = 6 ∨ v = 7 ∨ v = 8 ∨ v = 9 ∨ v = 10 ∨ v = 11 := by omega
    rcases hc' with rfl | rfl | rfl | rfl | rfl | rfl | rfl | rfl | rfl | rfl | rfl | rfl
    all_goals first
      | exact h8
      | exact (List.length_map _).trans hb
      | exact hc _ _ (by decide) (by decide) (by decide)
  exact this f.toNat hf (by rw [BitVec.ofNat_toNat, BitVec.setWidth_eq])

theorem length_bytes (x : Engine) (k : Nat) : (x.bytes k).length = 4096 := Mem.length_read _ _ _

end Sys2Proof.Machine
end

