-- ==== Sys2Proof/Laws/Keys.lean ====
section
/-! SUPPORT. Laws of byte strings, hashes and keys: numbers and bytes convert back and forth, a hash has 32 bytes, what a key signs checks under it, and what is sealed to a key opens with it. -/

namespace Sys2Proof

/-! ## Numbers and bytes -/

@[simp] theorem leBytes_length : ∀ n v, (leBytes n v).length = n
  | 0, _ => rfl
  | n + 1, v => by rw [leBytes, List.length_cons, leBytes_length n]
@[simp] theorem beBytes_length (n v : Nat) : (beBytes n v).length = n := by rw [beBytes, List.length_reverse, leBytes_length]

theorem leBytes_leNat : ∀ bs : List Byte, leBytes bs.length (leNat bs) = bs
  | [] => rfl
  | b :: r => by
    have h : (b.toNat + 256 * leNat r) / 256 = leNat r := by have := b.isLt; omega
    have hb : BitVec.ofNat 8 (b.toNat + 256 * leNat r) = b := by
      apply BitVec.eq_of_toNat_eq
      have := b.isLt
      rw [BitVec.toNat_ofNat]; omega
    rw [List.length_cons, leBytes, leNat, h, leBytes_leNat r, hb]

theorem beBytes_beNat (bs : List Byte) : beBytes bs.length (beNat bs) = bs := by
  rw [beBytes, beNat, ← List.length_reverse, leBytes_leNat, List.reverse_reverse]

theorem leNat_append : ∀ a b : List Byte, leNat (a ++ b) = leNat a + 256 ^ a.length * leNat b
  | [], b => by simp [leNat]
  | x :: a, b => by
    rw [List.cons_append, leNat, leNat, leNat_append a b, List.length_cons, Nat.pow_succ, Nat.mul_add, ← Nat.add_assoc, ← Nat.mul_assoc, Nat.mul_comm 256 (256 ^ _)]

theorem leNat_lt : ∀ bs : List Byte, leNat bs < 256 ^ bs.length
  | [] => by simp [leNat]
  | b :: r => by have := leNat_lt r; have := b.isLt; rw [leNat, List.length_cons, Nat.pow_succ]; omega

theorem beNat_cons (b : Byte) (r : List Byte) : beNat (b :: r) = beNat r + 256 ^ r.length * b.toNat := by
  rw [beNat, List.reverse_cons, leNat_append, List.length_reverse, leNat, leNat, Nat.mul_zero, Nat.add_zero, beNat]

theorem beNat_lt (bs : List Byte) : beNat bs < 256 ^ bs.length := by rw [beNat, ← List.length_reverse]; exact leNat_lt _

/-- The number of bytes whose first is below a bound. -/
theorem beNat_head_lt {b : Byte} {k : Nat} (h : b.toNat < k) (r : List Byte) : beNat (b :: r) < k * 256 ^ r.length := by
  have h2 := beNat_lt r
  have h3 : 256 ^ r.length * (b.toNat + 1) ≤ 256 ^ r.length * k := Nat.mul_le_mul_left _ h
  rw [beNat_cons, Nat.mul_comm k]
  rw [Nat.mul_add, Nat.mul_one] at h3
  omega

/-- A number below 256^n keeps its value in n bytes. -/
theorem leNat_leBytes : ∀ n v, v < 256 ^ n → leNat (leBytes n v) = v
  | 0, v, h => by rw [leBytes, leNat]; rw [Nat.pow_zero] at h; omega
  | n + 1, v, h => by
    rw [leBytes, leNat, leNat_leBytes n _ (by rw [Nat.pow_succ] at h; omega), BitVec.toNat_ofNat]
    omega

theorem beNat_beBytes {n v : Nat} (h : v < 256 ^ n) : beNat (beBytes n v) = v := by
  rw [beNat, beBytes, List.reverse_reverse, leNat_leBytes n v h]

/-! ## Hashes and masks -/

theorem flatMap_length {α β : Type} (f : α → List β) (n : Nat) (h : ∀ a, (f a).length = n) : ∀ l : List α, (l.flatMap f).length = n * l.length
  | [] => rfl
  | a :: l => by rw [List.flatMap_cons, List.length_append, h, flatMap_length f n h l, List.length_cons, Nat.mul_succ, Nat.add_comm]

theorem shaRun_length : ∀ (ks : List Nat) (r : ShaRun), r.top.length = 4 → r.low.length = 4 → (ks.foldl ShaRun.round r).top.length = 4 ∧ (ks.foldl ShaRun.round r).low.length = 4
  | [], _, h1, h2 => ⟨h1, h2⟩
  | k :: ks, r, h1, h2 => shaRun_length ks (r.round k) (by simp [ShaRun.round, h1]) (by simp [ShaRun.round, h2])

theorem shaBlock_length {hash : List Nat} (block : List Byte) (h : hash.length = 8) : (shaBlock hash block).length = 8 := by
  have := shaRun_length shaRounds ⟨hash.take 4, hash.drop 4, (chunks 4 16 block).map beNat⟩ (by simp [h]) (by simp [h])
  simp [shaBlock, h, this.1, this.2]

theorem shaFold_length : ∀ (bs : List (List Byte)) (h : List Nat), h.length = 8 → (bs.foldl shaBlock h).length = 8
  | [], _, h => h
  | b :: bs, _, h => shaFold_length bs _ (shaBlock_length b h)

@[simp] theorem sha256_length (bs : List Byte) : (sha256 bs).length = 32 := by
  have h : ((primesBelow 20).map (rootFraction 2)).length = 8 := by decide +kernel
  rw [sha256, flatMap_length _ 4 (beBytes_length 4), shaFold_length _ _ h]

@[simp] theorem maskBytes_length (seed : List Byte) (len : Nat) : (maskBytes seed len).length = len := by
  rw [maskBytes, List.length_take, flatMap_length _ 32 (fun _ => sha256_length _), List.length_range, ceilDiv]
  omega

@[simp] theorem maskedBy_length (bs mask : List Byte) : (maskedBy bs mask).length = min bs.length mask.length := by rw [maskedBy, List.length_zipWith]

/-- A mask taken twice is none. -/
theorem maskedBy_twice : ∀ {bs mask : List Byte}, bs.length ≤ mask.length → maskedBy (maskedBy bs mask) mask = bs
  | [], _, _ => by simp [maskedBy]
  | b :: bs, [], h => absurd h (by simp)
  | b :: bs, m :: mask, h => by
    have := maskedBy_twice (bs := bs) (mask := mask) (by simpa using h)
    simp only [maskedBy, List.zipWith_cons_cons] at this ⊢
    rw [this, BitVec.xor_assoc, BitVec.xor_self, BitVec.xor_zero]

/-! ## Keys -/

/-- 2^3071: half of what 384 bytes hold. -/
def keyHalf : Nat := 128 * 256 ^ 383
theorem le_keyHalf : 256 ^ 383 ≤ keyHalf := Nat.le_mul_of_pos_left _ (by decide)

/-- A key whose exponents undo each other below its modulus. -/
def KeyInverse (rec : List Byte) (secret : Nat) : Prop :=
  keyHalf ≤ keyModulus rec ∧ ∀ m, m < keyHalf →
    (powMod (keyModulus rec) (powMod (keyModulus rec) m secret 3072 1) (keyExponent rec) 32 1 = m ∧ powMod (keyModulus rec) m secret 3072 1 < keyModulus rec)
      ∧ (powMod (keyModulus rec) (powMod (keyModulus rec) m (keyExponent rec) 32 1) secret 3072 1 = m ∧ powMod (keyModulus rec) m (keyExponent rec) 32 1 < keyModulus rec)

theorem keyModulus_lt (rec : List Byte) : keyModulus rec < 256 ^ 384 :=
  Nat.lt_of_lt_of_le (beNat_lt _) (Nat.pow_le_pow_right (by decide) (by rw [slice, List.length_take]; omega))

/-- The exponent 1 changes nothing below the modulus. -/
theorem powMod_one {n b : Nat} (h : b < n) (h2 : 1 < n) : ∀ k, powMod n b 1 (k + 1) 1 = b
  | 0 => by rw [powMod, if_pos (by decide), powMod, Nat.mul_one, Nat.mod_eq_of_lt h2, Nat.one_mul, Nat.mod_eq_of_lt h]
  | k + 1 => by rw [powMod, if_neg (by rw [Nat.testBit_succ, Nat.testBit, Nat.zero_shiftRight]; decide), Nat.mul_one, Nat.mod_eq_of_lt h2]; exact powMod_one h h2 k

/-- A key with exponents 1. -/
theorem keyInverse_one {rec : List Byte} (h : keyHalf ≤ keyModulus rec) (he : keyExponent rec = 1) : KeyInverse rec 1 := by
  refine ⟨h, fun m hm => ?_⟩
  have hn : m < keyModulus rec := Nat.lt_of_lt_of_le hm h
  have h1 : 1 < keyModulus rec := Nat.lt_of_lt_of_le (Nat.lt_of_lt_of_le (Nat.one_lt_pow (by decide) (by decide)) le_keyHalf) h
  have a := powMod_one hn h1 3071
  have b := powMod_one hn h1 31
  rw [he]
  simp only [a, b]
  exact ⟨⟨trivial, hn⟩, trivial, hn⟩

/-- The bytes of PSS before the mask but for the first: zeros, a one and the salt. -/
def pssTail (salt : List Byte) : List Byte := List.replicate 317 0 ++ ([1] ++ salt)
theorem pssTail_cons (salt : List Byte) : 0 :: pssTail salt = List.replicate 318 0 ++ ([1] ++ salt) := by rw [pssTail, ← List.cons_append, ← List.replicate_succ]
theorem pssTail_length {salt : List Byte} (h : salt.length = 32) : (pssTail salt).length = 350 := by
  rw [pssTail, List.length_append, List.length_replicate, List.length_append, h, List.length_singleton]

/-- A code of PSS, byte by byte: the masked bytes without their top bit, the hash and its end. -/
theorem pssEncode_eq (hash salt : List Byte) : ∃ m r, maskBytes (sha256 (List.replicate 8 0 ++ hash ++ salt)) 351 = m :: r ∧ r.length = 350
    ∧ pssEncode hash salt = ((m &&& 0x7F) :: maskedBy (pssTail salt) r) ++ (sha256 (List.replicate 8 0 ++ hash ++ salt) ++ [0xBC]) := by
  rcases hm : maskBytes (sha256 (List.replicate 8 0 ++ hash ++ salt)) 351 with _ | ⟨m, r⟩
  · have := congrArg List.length hm
    rw [maskBytes_length] at this
    exact absurd this (by decide)
  · refine ⟨m, r, rfl, ?_, ?_⟩
    · have := congrArg List.length hm
      rw [maskBytes_length, List.length_cons] at this
      omega
    · have e : (List.replicate 318 (0 : Byte) ++ [1] ++ salt) = 0 :: pssTail salt := by rw [pssTail_cons, List.append_assoc]
      have z : (0 : Byte) ^^^ m = m := by rw [BitVec.xor_comm]; exact BitVec.xor_zero
      rw [pssEncode, hm, e, maskedBy, List.zipWith_cons_cons, z, List.append_assoc]
      rfl

/-- A code of PSS verifies against its hash, and lies below half of 256^384. -/
theorem pssEncode_ok (hash : List Byte) {salt : List Byte} (h : salt.length = 32) :
    pssEncodes hash (pssEncode hash salt) = true ∧ (pssEncode hash salt).length = 384 ∧ beNat (pssEncode hash salt) < keyHalf := by
  obtain ⟨m, r, hm, hr, he⟩ := pssEncode_eq hash salt
  have hd : (pssTail salt).length = 350 := pssTail_length h
  have hl : (maskedBy (pssTail salt) r).length = 350 := by rw [maskedBy_length, hd, hr]; rfl
  have htake : (pssEncode hash salt).take 351 = (m &&& 0x7F) :: maskedBy (pssTail salt) r := by
    rw [he, List.take_left' (by simp [hl])]
  have hslice : slice (pssEncode hash salt) 351 32 = sha256 (List.replicate 8 0 ++ hash ++ salt) := by
    rw [slice, he, List.drop_left' (by simp [hl]), List.take_left' (sha256_length _)]
  have hlen : (pssEncode hash salt).length = 384 := by rw [he, List.length_append, List.length_cons, hl, List.length_append, sha256_length]; rfl
  have hlast : (pssEncode hash salt).getLastD 0 = 0xBC := by rw [he, ← List.append_assoc, List.getLastD_concat]
  have hbit : ((m &&& 0x7F) ^^^ m) &&& 0x7F = 0 := by
    have : ∀ m : Byte, ((m &&& 0x7F) ^^^ m) &&& 0x7F = 0 := by decide
    exact this m
  have hplain : (List.zip ((m &&& 0x7F) :: maskedBy (pssTail salt) r) (m :: r)).map (fun x => x.1 ^^^ x.2) = ((m &&& 0x7F) ^^^ m) :: (pssTail salt) := by
    rw [List.zip_cons_cons, List.map_cons, List.zip, List.map_zipWith]
    exact congrArg _ (maskedBy_twice (Nat.le_of_eq (by rw [hd, hr])))
  have htop : (m &&& 0x7F).getLsbD 7 = false := by
    have : ∀ m : Byte, (m &&& 0x7F).getLsbD 7 = false := by decide
    exact this m
  refine ⟨?_, hlen, ?_⟩
  · rw [pssEncodes, htake, hslice, hm, hplain, hlen, hlast]
    have hs : slice (0 :: pssTail salt) 319 32 = salt := by
      rw [slice, pssTail_cons, ← List.append_assoc, List.drop_left' (by rw [List.length_append, List.length_replicate]; rfl), List.take_of_length_le (by omega)]
    have hz : ((0 :: pssTail salt).take 318).all (fun x => decide (x = 0)) = true := by
      rw [pssTail_cons, List.take_left' List.length_replicate]
      exact List.all_eq_true.mpr fun x hx => decide_eq_true (List.eq_of_mem_replicate hx)
    have ho : (0 :: pssTail salt).getD 318 0 = 1 := by
      rw [pssTail_cons, List.getD_eq_getElem?_getD, List.getElem?_append_right (Nat.le_of_eq (by rw [List.length_replicate])), List.length_replicate]
      rfl
    simp only [hbit, hs, hz, ho, List.headD_cons, htop, decide_true, Bool.and_true, Bool.not_false]
  · have hlt : (m &&& 0x7F).toNat < 128 := by
      have : ∀ m : Byte, (m &&& 0x7F).toNat < 128 := by decide
      exact this m
    rw [he, List.cons_append]
    refine Nat.lt_of_lt_of_le (beNat_head_lt hlt _) ?_
    have : (maskedBy (pssTail salt) r ++ (sha256 (List.replicate 8 0 ++ hash ++ salt) ++ [0xBC])).length = 383 := by rw [List.length_append, hl, List.length_append, sha256_length]; rfl
    rw [this]
    exact Nat.le_refl _

/-- What a key signs checks under its record. -/
theorem signatureOk_rsaSign {rec : List Byte} {secret : Nat} (hk : KeyInverse rec secret) (hash : List Byte) {salt : List Byte} (h : salt.length = 32) :
    signatureOk rec hash (rsaSign rec secret hash salt) = true := by
  obtain ⟨h1, h2, h3⟩ := pssEncode_ok hash h
  have hi := (hk.2 _ h3).1
  have hb : beNat (rsaSign rec secret hash salt) = powMod (keyModulus rec) (beNat (pssEncode hash salt)) secret 3072 1 := by
    rw [rsaSign, beNat_beBytes]
    exact Nat.lt_trans hi.2 (keyModulus_lt rec)
  have hs : slice (rsaSign rec secret hash salt) 0 384 = rsaSign rec secret hash salt := by
    rw [slice, List.drop_zero, List.take_of_length_le (Nat.le_of_eq (by rw [rsaSign, beBytes_length]))]
  have hback : beBytes 384 (beNat (pssEncode hash salt)) = pssEncode hash salt := by
    have := beBytes_beNat (pssEncode hash salt)
    rwa [h2] at this
  rw [signatureOk, hs, hb, hi.1, hback, h1, decide_eq_true hi.2]
  rfl

/-- What stands before the one of OAEP is passed over. -/
theorem afterOne_zeros (msg : List Byte) : ∀ n, afterOne (List.replicate n 0 ++ [1] ++ msg) = some msg
  | 0 => rfl
  | n + 1 => by rw [List.replicate_succ, List.cons_append, List.cons_append, afterOne, if_pos rfl, afterOne_zeros msg n]

/-- What is sealed to a key opens with it. -/
theorem oaepOpen_oaepSeal {rec : List Byte} {secret : Nat} (hk : KeyInverse rec secret) (label : List Byte) {msg seed : List Byte} (h : seed.length = 32) (hm : msg.length ≤ 318) :
    oaepOpen rec secret label (oaepSeal rec label msg seed) = some msg := by
  have hd : (sha256 label ++ List.replicate (318 - msg.length) 0 ++ [1] ++ msg).length = 351 := by simp; omega
  have hl : (maskedBy (sha256 label ++ List.replicate (318 - msg.length) 0 ++ [1] ++ msg) (maskBytes seed 351)).length = 351 := by rw [maskedBy_length, hd, maskBytes_length]; rfl
  generalize hx : maskedBy (sha256 label ++ List.replicate (318 - msg.length) 0 ++ [1] ++ msg) (maskBytes seed 351) = masked at hl
  have hsl : (maskedBy seed (maskBytes masked 32)).length = 32 := by rw [maskedBy_length, h, maskBytes_length]; rfl
  generalize hy : maskedBy seed (maskBytes masked 32) = held at hsl
  have hlt : beNat (held ++ masked) < keyHalf := Nat.lt_of_lt_of_le (beNat_lt _) (by rw [List.length_append, hsl, hl]; exact le_keyHalf)
  have hi := (hk.2 _ hlt).2
  have hseal : oaepSeal rec label msg seed = beBytes 384 (powMod (keyModulus rec) (beNat (held ++ masked)) (keyExponent rec) 32 1) := by
    rw [oaepSeal, hx, hy]
  have hnum : beNat (oaepSeal rec label msg seed) = powMod (keyModulus rec) (beNat (held ++ masked)) (keyExponent rec) 32 1 := by
    rw [hseal, beNat_beBytes]
    exact Nat.lt_trans hi.2 (keyModulus_lt rec)
  have hem : beBytes 384 (beNat (held ++ masked)) = 0 :: (held ++ masked) := by
    have := beBytes_beNat (0 :: (held ++ masked))
    rw [beNat_cons, show (0 : Byte).toNat = 0 from rfl, Nat.mul_zero, Nat.add_zero, show (0 :: (held ++ masked)).length = 384 by simp [hsl, hl]] at this
    exact this
  have hno : ¬((oaepSeal rec label msg seed).length ≠ 384 ∨ keyModulus rec ≤ beNat (oaepSeal rec label msg seed)) := by
    rw [hnum, hseal, beBytes_length]
    rintro (g | g)
    · exact g rfl
    · exact absurd hi.2 (Nat.not_lt.mpr g)
  rw [oaepOpen, if_neg hno, hnum, hi.1, hem]
  have e1 : (0 :: (held ++ masked)).drop 33 = masked := by rw [List.drop_succ_cons, List.drop_left' hsl]
  have e2 : slice (0 :: (held ++ masked)) 1 32 = held := by rw [slice, List.drop_succ_cons, List.drop_zero, List.take_left' hsl]
  have e3 : maskedBy held (maskBytes masked 32) = seed := by rw [← hy]; exact maskedBy_twice (Nat.le_of_eq (by rw [h, maskBytes_length]))
  have e4 : maskedBy masked (maskBytes seed 351) = sha256 label ++ List.replicate (318 - msg.length) 0 ++ [1] ++ msg := by
    rw [← hx]; exact maskedBy_twice (Nat.le_of_eq (by rw [hd, maskBytes_length]))
  simp only [e1, e2, e3, e4]
  rw [if_pos ⟨rfl, by rw [List.append_assoc, List.append_assoc, List.take_left' (sha256_length _)]⟩, List.append_assoc, List.append_assoc, List.drop_left' (sha256_length _), ← List.append_assoc, afterOne_zeros]

end Sys2Proof
end

