-- ==== Sys2Proof/Laws/Ops.lean ====
section
/-! SUPPORT. Laws of the named operations: commands of a live device, bits of words, readiness, counters, and a device in which nothing can move. -/

namespace Sys2Proof.Machine

set_option maxRecDepth 8000

/-! ## Commands -/

/-- In a live device a command takes effect. -/
@[simp] theorem act_live {s : State} (h : Live s) (t : State) : act s t = .next t := by
  unfold act; rw [h]; rfl

/-- From a thermal trip on no command that needs a clock has an effect, R613. -/
theorem act_tripped {s : State} (h : s.pwr.tripped = true) (t : State) : act s t = .next s := by
  unfold act; rw [h]; rfl

/-! ## Bits and counters -/

theorem getLsbD_one_shift {n : Nat} (i j : Nat) (hj : j < n) : (1#n <<< i).getLsbD j = decide (j = i) := by
  rw [BitVec.getLsbD_shiftLeft]
  by_cases h : j < i
  · have : j ≠ i := by omega
    simp [h, this]
  · by_cases e : j = i
    · subst e
      have : 0 < n := by omega
      simp [hj, this]
    · have h2 : j - i ≠ 0 := by omega
      simp [h, e, hj, h2, BitVec.getLsbD_one]

/-- A bit that is set or cleared takes its value, and every other bit stays. -/
theorem putBit_getLsbD {n : Nat} (v : BitVec n) (i j : Nat) (b : Bool) (hi : i < n) :
    (putBit v i b).getLsbD j = if j = i then b else v.getLsbD j := by
  by_cases hj : j < n
  · unfold putBit
    cases b
    · rw [if_neg (by decide), BitVec.getLsbD_and, BitVec.getLsbD_not, getLsbD_one_shift _ _ hj]
      by_cases e : j = i <;> simp [e, hj]
    · rw [if_pos rfl, BitVec.getLsbD_or, getLsbD_one_shift _ _ hj]
      by_cases e : j = i <;> simp [e]
  · have : j ≠ i := by omega
    rw [if_neg this, BitVec.getLsbD_of_ge _ _ (by omega), BitVec.getLsbD_of_ge _ _ (by omega)]

@[simp] theorem putBit_self {n : Nat} (v : BitVec n) (i : Nat) (b : Bool) (hi : i < n) : (putBit v i b).getLsbD i = b := by
  rw [putBit_getLsbD _ _ _ _ hi, if_pos rfl]

theorem putBit_other {n : Nat} (v : BitVec n) (i j : Nat) (b : Bool) (hi : i < n) (h : j ≠ i) : (putBit v i b).getLsbD j = v.getLsbD j := by
  rw [putBit_getLsbD _ _ _ _ hi, if_neg h]

/-- An event sets its bit and no other. -/
theorem setErr_getLsbD (v : BitVec 32) (i j : Nat) (hi : i < 32) : (setErr v i).getLsbD j = (v.getLsbD j || decide (j = i)) := by
  unfold setErr
  by_cases hj : j < 32
  · rw [BitVec.getLsbD_or, getLsbD_one_shift _ _ hj]
  · have : j ≠ i := by omega
    rw [BitVec.getLsbD_of_ge _ _ (by omega), BitVec.getLsbD_of_ge _ _ (by omega)]; simp [this]

/-- A counter stops at its largest value, R115. -/
theorem bump_toNat (c : Count) (n : Nat) : (bump c n).toNat = min 0xFFFFFFFF (c.toNat + n) := by
  unfold bump
  split
  · next h => rw [Nat.min_eq_left h]; rfl
  · next h =>
    rw [BitVec.toNat_ofNat, Nat.mod_eq_of_lt (by omega), Nat.min_eq_right (by omega)]

/-! ## A device in which nothing can move -/

/-- The engines of a still device have nothing to do, and no sub-stream has anything to deliver. -/
theorem pump_still {s : State} (h1 : busyEngines s = []) (h2 : ∀ q ∈ s.skm.subq, (s.sub q.1).ll = false) : pump s = s := by
  unfold pump
  simp only []
  rw [show pumpFor _ s = s from by
    unfold pumpFor
    rw [h1]; simp only [List.foldl_nil, drain_quiet h2]; rfl]
  cases s.stn.resFailed <;> rfl

theorem Quiet.pump {s : State} (h : Quiet s) : pump s = s := pump_still h.free h.noTiles

end Sys2Proof.Machine
end

