-- ==== Sys2Proof/Laws/Mbox.lean ====
section
/-! SUPPORT. Laws of the mailbox: what an accepted command does before its own effect, and what its answer leaves. -/

namespace Sys2Proof.Machine

set_option maxRecDepth 8000

/-- A record that passes the checks is taken. -/
theorem acceptRecord_accepted {s : State} {r : MboxRec} {n : CmdNeeds} {args : List Byte} {i : Nat} {x : Session} (h : Accepted s r n args i x) :
    acceptRecord s r.session r.hcs r.seq (fun x => decide (r.tag = commandTag x.sk r n.op args)) (fun x => x.mask.getLsbD r.mbox.val)
      = (some (i, { x with lastSeq := some r.seq }), s.setSession i (some { x with lastSeq := some r.seq })) := by
  unfold acceptRecord
  rw [h.slot]; simp only [h.session, h.isOpen, ← h.tag, h.hcs]
  have h1 := h.seq
  unfold SeqNew at h1
  have h2 : x.mask.getLsbD r.mbox.val = true := h.holds
  simp only [h2]
  cases hl : x.lastSeq with
  | none => rw [hl] at h1; have h3 : ¬r.seq = 0#64 := h1; simp [h3]
  | some l => rw [hl] at h1; simp [Nat.not_le.mpr h1]

theorem notReadyBit_none {s : State} {l : List Nat} (h : ∀ k ∈ l, s.top.ready.getLsbD k = true) : notReadyBit s l = none := by
  unfold notReadyBit
  rw [List.filter_eq_nil_iff.mpr (by intro k hk; rw [h k hk]; decide)]; rfl

/-- A command that starts does its own effect on the device as it has begun. -/
theorem mboxCmd_accepted {s : State} {r : MboxRec} {n : CmdNeeds} {args : List Byte} {i : Nat} {x : Session} (h : Accepted s r n args i x) (f : State → State) :
    mboxCmd s r n args f = f (begun s r n.op args i x) := by
  unfold mboxCmd
  rw [h.hawk, h.form, acceptRecord_accepted h]
  have h1 : ((s.setSession i (some { x with lastSeq := some r.seq })).mbox r.mbox.val).running = none := h.idle
  have h2 : ((s.setSession i (some { x with lastSeq := some r.seq })).mbox r.mbox.val).lastCmd ≠ some r.cmdId := h.new
  simp only [Bool.not_true, Bool.false_eq_true, if_false]
  split
  · next c a b hc => rw [h1] at hc; exact absurd hc (by simp)
  · rw [if_neg h2]
    unfold startCommand
    have h3 : ¬(x.hcs = 2 ∧ (!n.hcs2) = true) := by intro ⟨a, b⟩; rw [h.known a] at b; exact absurd b (by decide)
    have h4 : ¬(n.operate = true ∧ (x.level ≠ 2 ∨ (x.claiming = true ∧ n.op ≠ 0x0052))) := by
      intro ⟨a, b⟩
      have := h.level a
      rcases b with b | b
      · exact b this.1
      · exact b.2 (this.2 b.1)
    simp only [h3, h4, if_false]
    have h5 : notReadyBit (begun s r n.op args i x) n.ready = none := notReadyBit_none h.ready
    show (match notReadyBit (begun s r n.op args i x) n.ready with
      | some k => respond (begun s r n.op args i x) r n.op stNotReady [0, BitVec.ofNat 8 k]
      | none => f (begun s r n.op args i x)) = _
    rw [h5]

end Sys2Proof.Machine
end

