-- ==== Sys2Proof/Laws/Queues.lean ====
section
/-! SUPPORT. Laws of the output queues: what the arrival of an item can touch. -/

namespace Sys2Proof.Machine

set_option maxRecDepth 8000

/-- An arrival touches the output queues only. -/
theorem arrive_frame (s : State) (q : Nat) (it : QItem) (b : Bool) : ∃ c, (arrive s q it b).2 = { s with sch := c } := by
  unfold arrive
  simp only []
  generalize (if (s.queue q).polAct = 0 then _ else _ : OutQ) = policed
  generalize (decide ((s.queue q).polAct ≠ 0) && !_) = nc
  generalize ((s.queue q).en && _ && _) = room
  by_cases h2 : (s.queue q).polAct = 2 <;> cases nc <;> cases room <;> cases b <;> simp [h2] <;> first | exact ⟨_, rfl⟩ | exact ⟨s.sch, rfl⟩

/-- An arrival looks at no engine. -/
theorem arrive_setEng (s : State) (e : Nat) (x : Engine) (q : Nat) (it : QItem) (b : Bool) :
    arrive (s.setEng e x) q it b = ((arrive s q it b).1, (arrive s q it b).2.setEng e x) := by
  have e1 : (s.setEng e x).queue q = s.queue q := rfl
  have e2 : (s.setEng e x).count = s.count := rfl
  have e3 : queueRoom (s.setEng e x) q = queueRoom s q := rfl
  unfold arrive
  simp only [e1, e2, e3]
  generalize (if (s.queue q).polAct = 0 then _ else _ : OutQ) = policed
  generalize (decide ((s.queue q).polAct ≠ 0) && !_) = nc
  generalize ((s.queue q).en && _ && _) = room
  by_cases h2 : (s.queue q).polAct = 2 <;> cases nc <;> cases room <;> cases b <;> simp [h2] <;> rfl

end Sys2Proof.Machine
end

