-- ==== Sys2Proof/Tests/Slice0.lean ====
section
/-! SUPPORT. Tests of the model: ill-formed commands that WellFormed refuses, small checks against the manual's own examples, and for each statement with hypotheses a state and operands that meet them. -/

namespace Sys2Proof.Tests

open Sys2Proof Sys2Proof.Machine

set_option maxRecDepth 20000
set_option Elab.async false

/-! ## WellFormed refuses what is not well-formed -/

def zeros (n : Nat) : List Byte := List.replicate n 0
def tileOf (d : List Byte) : IqTile := ⟨1, 0, 0, d, none, none⟩
def msg0 : ClcMsg := ⟨0, 0, 0, 0, 0, 0, 0, 0, 0, 0, 0, 0, 0, 0, 0, 0, 0⟩
def image0 (b d : List Byte) : FwImage := ⟨true, b, 1, 0x9640, 5, 1, 0, d⟩
def rec0 : MboxRec := ⟨true, 1, 0, 1, 1, 3, []⟩
def bulk0 (p : List Byte) : BulkRec := ⟨1, 3, 1, [], 1, 0, 0, p⟩
def temps0 : TempObs := ⟨List.replicate 4 (List.replicate 24 (some 40)), List.replicate 32 40, List.replicate 8 40⟩

/-- A key record of RSA-3072 and a signature under it over the bytes 45 58 39 36, made outside this model, R440 and R441. -/
def testKey : List Byte := beBytes 384 0xB3B08BB414A1BF896ADE6B0AFE6200BEDB57FDF414B10F380BC97C22F8D514A383B5EC6BAA9839FCA1FD7B2BC970FB2E0CFDE1E39AD0B7EB01CC628DE0B6B91170B71DC95AE8B44866D4301C74C8DB63D299DC70689EBF036FD4AEE3F0C20DA37090F79668239BBBA04296AB123EFF32F6B4004197786B3DB1FDA364F19EC333AA81873F4343245801F54372A0DD8D50A3D6D93F7C5929E6F2A5BBFEA3036E0A140A704FCF18DADF16691D49B42977DD6D79FEDB1F9890D127736C9507CB7EC83BE21DEB178D3FB0248E81787F14A114E4717AE1B00488A58BBA5DB42D44492DEE2A777F82C661F936606FB190D1E498E09C8FE6E18F89128CCE67D769D6184A0B7A19456C853D8F1BB644B7BB6ACF8CB06796485C1C57E91624553C5D6BCC3D2BF7CF2CB537FCA0721C2FCE954414B780321F1D2DB3DF620DE2ECE7C0691B20284947AD3B6B130BDED3425D8A6DBCEA52598BE42FF7374D03FB40A6C8F5EDFFF88D4DC48ED6442D3A75D184918E125CA2AB69D3A8EA9D16CBF4310E13FDAC89 ++ beBytes 4 65537
def testContent : List Byte := [0x45, 0x58, 0x39, 0x36]
def testSig : List Byte := beBytes 384 0x90AE2C513BD713814FC174E0C8BB44751D034678B9323F9F8C42F49C5F95CC47FC883E5ACA3CE32E41DE79BFFDFC2DB1DCFEE25AF0AC4EE2A08627FDA6D43419E8E0C067106C97C193AC88B0C0F66B8AC42F933A4999437E9A7147A4914D9E3849F4C2D018F038B8A2DADDDD796CEFA1774F769F9850D121CBDC4740A745EB40B4D4F309919B4CD41BBE2069BC407B9CA7B14EAF47DDC150269571A37BDF665C912A2639138771B8C071C18C849C29BA0314B445C2C11F2740107391C7EA5EEC2D04150545F613F400000BBE10A8DDA9A54C8806429D357B2EA177D1838EDC422F721D214EE5E67D06F1FF0FEE12FD9BE1DA4ED53CCAF55ECAEBA3BB67F3038EDA1DDA4FCF21A8241E21FA90FA5867D9EAEC96BDEEC16623DB535AA1D592B7BFC23EA4F94D6F8C4D03914E3C54ABA349CD52A2C3B366ED32CFA1A29E6CE59EF3DD53E54A876CAEF74DCB79C2569B5B0524259EB4CC9B6322DAE4B615E73A09FFC989E2656998EEE9B5E75F0EC9B77A429757C3ED1BCED44F55108E2F78A92E04
/-- A signature block of R175 with a signature. -/
def blockOf (sig : List Byte) : List Byte := beBytes 8 0x1DCD591A83D6A4DF ++ leBytes 4 1 ++ List.replicate 116 0 ++ sig
/-- The tag of a record does not depend on the tag that it carries. -/
theorem commandTag_own (k t : List Byte) (r : MboxRec) (op : BitVec 16) (args : List Byte) : commandTag k { r with tag := t } op args = commandTag k r op args := rfl
/-- The record of a command under a session key of no bytes. -/
def recFor (op : BitVec 16) (args : List Byte) : MboxRec := { rec0 with tag := commandTag [] rec0 op args }
theorem recFor_tag (op : BitVec 16) (args : List Byte) : (recFor op args).tag = commandTag [] (recFor op args) op args := (commandTag_own [] _ rec0 op args).symm

theorem test_wf_iqTile : (Instr.iqTileArrive 0 0 (tileOf [1, 2])).wf = false := by decide
theorem test_wf_unit_short : (Instr.unitArrive 0 false [1, 2]).wf = false := by decide
theorem wf_unit_len (b : List Byte) (h : 65535 < b.length) : (Instr.unitArrive 0 false b).wf = false := by
  have : ¬ b.length ≤ 65535 := by omega
  simp [Instr.wf, unitWf, this]
theorem test_wf_unit_long : (Instr.unitArrive 0 false (List.replicate 65536 0)).wf = false := wf_unit_len _ (by rw [List.length_replicate] <;> decide)
theorem test_wf_seUnit : (Instr.seUnit ⟨1, true⟩ 0 []).wf = false := by decide
theorem test_wf_codeword : (Instr.codewordReceive (.far 0) [0, 3]).wf = false := by decide
theorem test_wf_ranging : (Instr.rangingMessage 0 [0]).wf = false := by decide
theorem test_wf_keyReady : (Instr.keyReady 0 [0]).wf = false := by decide
theorem test_wf_attest : (Instr.attest rec0 [0]).wf = false := by decide
theorem test_wf_monitor_lasers : (Instr.monitorSample 0 ⟨[⟨3, 1, true⟩, ⟨3, 2, true⟩], [], 0⟩).wf = false := by decide
theorem test_wf_monitor_power : (Instr.monitorSample 0 ⟨[], [(3, 1), (3, 2)], 0⟩).wf = false := by decide
theorem test_wf_item_unit : (Instr.queueItemArrive (.num 0) (.unit [])).wf = false := by decide
theorem test_wf_item_tile : (Instr.queueItemArrive (.num 0) (.tile 1 0 [])).wf = false := by decide
theorem test_wf_item_kinds : (Instr.queueItemArrive (.num 0) (.pair [1])).wf = false ∧ (Instr.queueItemArrive (.num 0) (.clc msg0)).wf = false
    ∧ (Instr.queueItemArrive (.ctl 0) (.unit (List.replicate 16 0))).wf = false ∧ (Instr.queueItemArrive (.ctl 0) (.tile 1 0 [])).wf = false := by decide
theorem test_wf_item_pair : (Instr.queueItemArrive (.ctl 0) (.pair [])).wf = false := by decide
theorem test_wf_open1_nonce : (Instr.open1 ⟨3, 1, 1, [], List.replicate 32 0⟩).wf = false := by decide
theorem test_wf_open1_key : (Instr.open1 ⟨3, 1, 1, List.replicate 32 0, []⟩).wf = false ∧ (Instr.open1 ⟨3, 0, 1, List.replicate 32 0, [0]⟩).wf = false := by decide
theorem test_wf_bulk_short : (Instr.bulkWrite (bulk0 [])).wf = false := by decide
theorem wf_bulk_len (b : List Byte) (h : 8192 < b.length) : (Instr.bulkWrite (bulk0 b)).wf = false := by
  have : ¬ b.length ≤ 8192 := by omega
  simp [Instr.wf, bulk0, this]
theorem test_wf_bulk_long : (Instr.bulkWrite (bulk0 (List.replicate 8196 0))).wf = false := wf_bulk_len _ (by rw [List.length_replicate] <;> decide)
theorem test_wf_bulk_odd : (Instr.bulkWrite (bulk0 (List.replicate 6 0))).wf = false := by decide
theorem test_wf_fwUpdate : (Instr.fwUpdate rec0 0 0 (image0 (List.replicate 512 0) [])).wf = false := by decide +kernel
theorem test_wf_fwUpdate_block : (Instr.fwUpdate rec0 0 0 (image0 [0] (List.replicate 32 0))).wf = false := by decide
theorem test_wf_recoverWrite_short : (Instr.recoverWrite 0 [1]).wf = false := by decide
theorem wf_recover_len (b : List Byte) (h : 8192 < b.length) : (Instr.recoverWrite 0 b).wf = false := by
  have : ¬ b.length ≤ 8192 := by omega
  simp [Instr.wf, this]
theorem test_wf_recoverWrite_long : (Instr.recoverWrite 0 (List.replicate 8193 0)).wf = false := wf_recover_len _ (by rw [List.length_replicate] <;> decide)
theorem test_wf_recoverDone : (Instr.recoverDone 0 0 (image0 [] []) ⟨[], []⟩).wf = false := by decide
theorem test_wf_hawkStart : (Instr.hawkStart (image0 [] []) ⟨[], []⟩).wf = false := by decide
theorem test_wf_temp_dies : (Instr.tempSample { temps0 with die := [] }).wf = false := by decide
theorem test_wf_temp_sensors : (Instr.tempSample { temps0 with die := List.replicate 4 [] }).wf = false := by decide
theorem test_wf_temp_stacks : (Instr.tempSample { temps0 with stack := [] }).wf = false := by decide
theorem test_wf_temp_pho : (Instr.tempSample { temps0 with pho := [] }).wf = false := by decide
theorem test_wf_good : (Instr.tempSample temps0).wf = true ∧ (Instr.nop rec0).wf = true ∧ (Instr.bulkWrite (bulk0 [1, 2, 3, 4])).wf = true := by decide

/-! ## The manual's own examples and bit layouts -/

/-- CRC-32C of the nine digits is the check value of that CRC, R80. -/
theorem test_crc32c : crc32c [0x31, 0x32, 0x33, 0x34, 0x35, 0x36, 0x37, 0x38, 0x39] = 0xE3069283 := by decide
/-- SHA-256 of the three letters abc, as its standard gives it. -/
theorem test_sha256 : (sha256 [0x61, 0x62, 0x63]).take 4 = [0xBA, 0x78, 0x16, 0xBF] := by decide +kernel
/-- R65's example: 2^100 and 1.0 and -2^100 leave 1.0 in one LA. -/
theorem test_la_example : ((((LaEntry.cleared.add (decodeNum 2 0x7180)).add (decodeNum 2 0x3F80)).add (decodeNum 2 0xF180)).read 2 (rmOf 0) 0 false).code = 0x3F80 := by decide +kernel
/-- IDCODE, R626. -/
theorem test_idcode : (idcode State.reset).tap.tdo.take 8 = [true, true, true, false, true, true, false, true] := by decide
/-- R92: OP lies in the top byte of a stroke word, and FMT of an ACC below it. -/
theorem test_stroke_word : wOp (strokeWord opAcc 0) = opAcc ∧ wOp (strokeWord opSkdec 0) = 0x21 := by decide
/-- No word spells a command: the table gives no row any bits. -/
theorem test_no_word : decodeTableWord 32 0 = none ∧ decodeTableWord 128 0xFFFF = none := by decide

/-! ## The standards' own examples -/

def bytesOf (l : List Nat) : List Byte := l.map (BitVec.ofNat 8)
/-- FIPS 197, appendix C.3. -/
theorem test_aes256 : (aes256 (List.range 32) ((List.range 16).map (· * 17))).take 8 = [0x8E, 0xA2, 0xB7, 0xCA, 0x51, 0x67, 0x45, 0xBF] := by decide +kernel
/-- Test case 13 of the publication of GCM: nothing under a key of zeros. -/
theorem test_gcm : gcmSeal (List.replicate 32 0) (List.replicate 12 0) [] []
    = bytesOf [0x53, 0x0F, 0x8A, 0xFB, 0xC7, 0x45, 0x36, 0xB9, 0xA9, 0x63, 0xB4, 0xF1, 0xC4, 0xCB, 0x73, 0x8B] := by decide +kernel
/-- Test case 2 of RFC 4231. -/
theorem test_hmac : (hmac [0x4A, 0x65, 0x66, 0x65] (bytesOf [0x77, 0x68, 0x61, 0x74, 0x20, 0x64, 0x6F, 0x20, 0x79, 0x61, 0x20, 0x77, 0x61, 0x6E, 0x74, 0x20, 0x66, 0x6F, 0x72, 0x20, 0x6E, 0x6F, 0x74, 0x68, 0x69, 0x6E, 0x67, 0x3F])).take 4
    = [0x5B, 0xDC, 0xC1, 0x46] := by decide +kernel
/-- D21.5 is 1010101010 under either disparity. -/
theorem test_serial : dataGroup false 0xB5 = 0b1010101010 ∧ dataGroup true 0xB5 = 0b1010101010 := by decide
/-- K28.5 is no data character. -/
theorem test_serial_idle : groupOctet false (idleGroup false) = none := by decide +kernel
/-- Message and parity together have no syndromes. -/
theorem test_inner_code : (rsSyndromes (rsEncode [0x34A, 0x35A, 1])).all (· = 0) = true := by decide +kernel
/-- Levels come back, precoded or not. -/
theorem test_levels_precoded : levelSymbols true 3 (sendLevels true 3 [1, 2, 1023]).1 = [1, 2, 1023] := by decide +kernel
theorem test_levels : levelSymbols false 0 (sendLevels false 0 [1, 2, 1023]).1 = [1, 2, 1023] := by decide +kernel
/-- The signature made outside checks. -/
theorem test_signature : signatureOk testKey (sha256 testContent) testSig = true := by decide +kernel
theorem test_keyId : keyIdOf testKey = (blockOf testSig).take 8 := by decide +kernel

/-! ## States and operands that meet the hypotheses of the statements: strokes -/

/-- The largest body count is met by a plan of one body without strokes on engine 3, with one region of one tile and the budgets of one input queue and one output queue. -/
def body0 : Body := { slots := [⟨0, 100, 8, [(3, 0)], 0⟩] }
def plan0 : Plan :=
  { version := 1, eagerMode := false, fallback := false, seamLaunch := false, nfAbort := false, asig := 0, rank := 0, job := 0, planId := 0, seed := 0, step0 := 0, steps := 2, launchNs := 0, stepNs := 1000, deadlineNs := 2000, extCap := 0, w := 0, bodies := [body0], sched := [], params := [], regions := [⟨7, 1, 0, false, false, [(0, 0)], []⟩], budgets := [⟨0x01, 24, 1⟩, ⟨0x02, 0, 1000000⟩], skim := [], descs := [], imageHash := 0, isBreak := false }

/-- The engine of these states: zero tiles in every format that the strokes need, and an image. -/
def tag0 (f : BitVec 4) : TileTag := ⟨crcZeroTile, f, false, .valid⟩
def lane0 : Engine :=
  { st := .running, gate := 1, tags := [(0, tag0 1), (1, tag0 1), (2, tag0 1), (3, tag0 1), (4, tag0 2), (5, tag0 2), (6, tag0 0), (7, ⟨crcZeroTile, 0, true, .valid⟩)], iqs := [(0, [⟨1, 0, 0, List.replicate 4096 0, none, none⟩])] }
def unit0 : List Byte := List.replicate 16 0
def stk : State :=
  { State.reset with engines := [(3, lane0)], stn := { cur := some plan0, place := .running, stepRunning := true }, skm := { subq := [(0, [unit0])] }, sch := { queues := [(0, { cfg := 0xC0000000 })] } }

/-- The hypotheses of a stroke that changes its engine alone, and of one that changes the device. -/
def RunsHyp (s : State) (e : Fin 64) (i : BitVec 16) (op : Nat) (w : BitVec 120) (ready : Nat → Engine → Prop) (f : Nat → Engine → Engine) : Prop :=
  Lone s e i ∧ strokeOk (strokeWord op w) = true
    ∧ ∀ k, k < wCount (strokeWord op w) → Landed (engineAfter s e i [] f k) (strokeWord op w) k ∧ ready k (engineAfter s e i [] f k)
def DoesHyp (s : State) (e : Fin 64) (i : BitVec 16) (op : Nat) (w : BitVec 120) (ready : Nat → State × List Byte → Prop) (f : Nat → State × List Byte → State × List Byte) : Prop :=
  Lone s e i ∧ strokeOk (strokeWord op w) = true
    ∧ ∀ k, k < wCount (strokeWord op w) → Landed ((deviceAfter s e i [] f k).1.eng e.val) (strokeWord op w) k ∧ ready k (deviceAfter s e i [] f k)

theorem fill_nil (k : Nat) : ∀ n, Tab.fill (0 : Byte) k n [] = List.replicate n 0
  | 0 => rfl
  | n + 1 => by rw [Tab.fill, fill_nil (k + 1) n]; rfl

theorem lane0_intact {x : Engine} {k : Nat} (h1 : x.tiles = []) (h2 : (x.tag k).st = .valid) (h3 : (x.tag k).crc = crcZeroTile) : Intact x k := by
  refine ⟨h2, ?_⟩
  rw [h3, Engine.bytes, h1, Mem.read, Tab.getSeg, show (Tab.from ([] : Tab Byte) (k * 4096)) = [] from rfl, fill_nil]
  rfl

theorem stk_lone : Lone stk 3 0 := ⟨rfl, rfl, by decide, ⟨rfl, by decide, rfl⟩⟩

theorem runsHyp {op : Nat} {w : BitVec 120} {ready : Nat → Engine → Prop} {f : Nat → Engine → Engine} (h1 : strokeOk (strokeWord op w) = true) (h2 : wCount (strokeWord op w) = 1)
    (h3 : Landed (afterIssue lane0 0 []) (strokeWord op w) 0) (h4 : ready 0 (afterIssue lane0 0 [])) : RunsHyp stk 3 0 op w ready f := by
  refine ⟨stk_lone, h1, fun k hk => ?_⟩
  rw [h2] at hk
  obtain rfl : k = 0 := by omega
  exact ⟨h3, h4⟩

theorem doesHyp {op : Nat} {w : BitVec 120} {ready : Nat → State × List Byte → Prop} {f : Nat → State × List Byte → State × List Byte} (h1 : strokeOk (strokeWord op w) = true)
    (h2 : wCount (strokeWord op w) = 1) (h3 : Landed (afterIssue lane0 0 []) (strokeWord op w) 0) (h4 : ready 0 (stk.setEng 3 (afterIssue lane0 0 []), [])) : DoesHyp stk 3 0 op w ready f := by
  refine ⟨stk_lone, h1, fun k hk => ?_⟩
  rw [h2] at hk
  obtain rfl : k = 0 := by omega
  exact ⟨h3, h4⟩

/-- Fields of a stroke word below its opcode, R91. -/
def w120 (fmt fd sa sb sc dst : Nat) : BitVec 120 := BitVec.ofNat 120 (fmt * 2 ^ 116 + fd * 2 ^ 112 + sa * 2 ^ 85 + sb * 2 ^ 74 + sc * 2 ^ 63 + dst * 2 ^ 52)

theorem tile0 {f : BitVec 4} {k : Nat} (h1 : (lane0.tag k).st = .valid) (h2 : (lane0.tag k).crc = crcZeroTile) (h3 : (lane0.tag k).img = false) (h4 : (lane0.tag k).fmt = f) :
    HasTile (afterIssue lane0 0 []) f k := ⟨lane0_intact rfl h1 h2, h3, h4⟩

theorem wit_ControlStrokes : RunsHyp stk 3 0 opNop 0 (fun _ _ => True) (fun _ x => x)
    ∧ RunsHyp stk 3 0 opSetx 0xFFFFFFFFFFFF (fun _ _ => True) (fun _ x => { x with idxb := 0xFFFFFFFFFFFF })
    ∧ RunsHyp stk 3 0 opSetp (BitVec.ofNat 120 (15 * 2 ^ 92 + 7)) (fun _ _ => True) (fun _ x => { x with params := Tab.put 0 x.params 15 7 }) :=
  ⟨runsHyp (by decide) (by decide) (by unfold Landed; decide) trivial, runsHyp (by decide) (by decide) (by unfold Landed; decide) trivial,
    runsHyp (by decide) (by decide) (by unfold Landed; decide) trivial⟩

theorem wit_PairwiseStrokes : let a := w120 1 0 0 1 0x7FF 1023; let m := w120 1 0 0 1 2 1023
    RunsHyp stk 3 0 opAdd a (fun k x => HasTile x (wFmt (strokeWord opAdd a)) (wSa (strokeWord opAdd a) + k) ∧ HasTile x (wFmt (strokeWord opAdd a)) (wSb (strokeWord opAdd a) + k)) (addTile stk (strokeOf stk 3 0 opAdd a))
      ∧ RunsHyp stk 3 0 opFma m (fun k x => HasTile x fp32 (wSa (strokeWord opFma m) + k) ∧ HasTile x fp32 (wSb (strokeWord opFma m) + k) ∧ HasTile x fp32 (wSc (strokeWord opFma m) + k)) (fmaTile stk (strokeOf stk 3 0 opFma m)) :=
  ⟨runsHyp (by decide) (by decide) (by unfold Landed; decide) ⟨tile0 rfl rfl rfl rfl, tile0 rfl rfl rfl rfl⟩,
    runsHyp (by decide) (by decide) (by unfold Landed; decide) ⟨tile0 rfl rfl rfl rfl, tile0 rfl rfl rfl rfl, tile0 rfl rfl rfl rfl⟩⟩

theorem wit_OptimiserStrokes : let s := w120 1 0 0 1 0x7FF 0x7FF; let m := w120 1 0 0 1 2 0x7FF; let a := w120 1 0 0 1 2 3
    RunsHyp stk 3 0 opUpds s (fun k x => ∀ c ∈ kernelSlots (strokeWord opUpds s), HasTile x fp32 (c + k)) (kernelTile stk (strokeOf stk 3 0 opUpds s))
      ∧ RunsHyp stk 3 0 opUpdm m (fun k x => ∀ c ∈ kernelSlots (strokeWord opUpdm m), HasTile x fp32 (c + k)) (kernelTile stk (strokeOf stk 3 0 opUpdm m))
      ∧ RunsHyp stk 3 0 opUpda a (fun k x => ∀ c ∈ kernelSlots (strokeWord opUpda a), HasTile x fp32 (c + k)) (kernelTile stk (strokeOf stk 3 0 opUpda a)) := by
  refine ⟨runsHyp (by decide) (by decide) (by unfold Landed; decide) ?_, runsHyp (by decide) (by decide) (by unfold Landed; decide) ?_, runsHyp (by decide) (by decide) (by unfold Landed; decide) ?_⟩
  all_goals
    intro c hc
    have : c = 0 ∨ c = 1 ∨ c = 2 ∨ c = 3 := by revert c; decide
    rcases this with rfl | rfl | rfl | rfl <;> exact tile0 rfl rfl rfl rfl

theorem wit_AccumulateStrokes : let a := w120 1 0 0 0x7FF 0x7FF 0x7FF; let d := w120 2 0 4 5 0x7FF 0x7FF; let c := w120 0 0 0x7FF 0x7FF 0x7FF 0x7FF + 255 * 2 ^ 44
    RunsHyp stk 3 0 opClra c (fun _ _ => True) (clraRow (strokeOf stk 3 0 opClra c))
      ∧ isTile (wSa (strokeWord opAcc a)) = true
      ∧ RunsHyp stk 3 0 opAcc a (fun k x => HasTile x (wFmt (strokeWord opAcc a)) (wSa (strokeWord opAcc a) + k) ∧ SpanSound x (strokeOf stk 3 0 opAcc a) k) (accTile (strokeOf stk 3 0 opAcc a))
      ∧ RunsHyp stk 3 0 opDot d (fun k x => HasTile x (wFmt (strokeWord opDot d)) (wSa (strokeWord opDot d) + k) ∧ HasTile x (wFmt (strokeWord opDot d)) (wSb (strokeWord opDot d) + k)
        ∧ SpanSound x (strokeOf stk 3 0 opDot d) k) (dotTile (strokeOf stk 3 0 opDot d)) :=
  ⟨runsHyp (by decide) (by decide) (by unfold Landed; decide) trivial, by decide,
    runsHyp (by decide) (by decide) (by unfold Landed; decide) ⟨tile0 rfl rfl rfl rfl, rfl⟩,
    runsHyp (by decide) (by decide) (by unfold Landed; decide) ⟨tile0 rfl rfl rfl rfl, tile0 rfl rfl rfl rfl, rfl⟩⟩

theorem wit_ReadOutStrokes : let r := w120 0 1 0x7FF 0x7FF 0x7FF 1023; let v := w120 0 0 0x7FF 0x7FF 0x7FF 1023; let a := w120 0 0 7 0x7FF 0x7FF 0x7FF
    RunsHyp stk 3 0 opRdla r (fun k x => RowsSound x (rdlaRows (strokeOf stk 3 0 opRdla r) k).1 (rdlaRows (strokeOf stk 3 0 opRdla r) k).2) (rdlaTile stk (strokeOf stk 3 0 opRdla r))
      ∧ RunsHyp stk 3 0 opSvla v (fun k x => RowsSound x (wLaBase (strokeWord opSvla v) * 128 + 64 * k) 64) (svlaTile (strokeOf stk 3 0 opSvla v))
      ∧ RunsHyp stk 3 0 opAddla a (fun k x => HasImages x (wSa (strokeWord opAddla a) + k) ∧ RowsSound x (wLaBase (strokeWord opAddla a) * 128 + 64 * k) 64) (addlaTile (strokeOf stk 3 0 opAddla a)) :=
  ⟨runsHyp (by decide) (by decide) (by unfold Landed; decide) rfl, runsHyp (by decide) (by decide) (by unfold Landed; decide) rfl,
    runsHyp (by decide) (by decide) (by unfold Landed; decide) ⟨⟨lane0_intact rfl rfl rfl, rfl⟩, rfl⟩⟩

theorem wit_Sum64_Convert : let a := w120 0 0 6 0x7FF 0x7FF 1023; let c := w120 1 1 0 0x7FF 0x7FF 1023
    RunsHyp stk 3 0 opSum64 a (fun k x => HasTile x (wFmt (strokeWord opSum64 a)) (wSa (strokeWord opSum64 a) + k)) (sum64Tile (strokeOf stk 3 0 opSum64 a))
      ∧ DoesHyp stk 3 0 opCvt c (fun k p => HasTile (p.1.eng 3) (wFmt (strokeWord opCvt c)) (wSa (strokeWord opCvt c) + k)) (cvtTile 3 (strokeOf stk 3 0 opCvt c)) :=
  ⟨runsHyp (by decide) (by decide) (by unfold Landed; decide) (tile0 rfl rfl rfl rfl),
    doesHyp (by decide) (by decide) (by unfold Landed; decide) (tile0 rfl rfl rfl rfl)⟩

/-! ## Strokes that change the device, arrivals and tables -/

theorem wit_AccumulateFromQueue : let a := w120 1 0 0x400 0x7FF 0x7FF 0x7FF
    isIq (wSa (strokeWord opAcc a)) = true ∧ DoesHyp stk 3 0 opAcc a
      (fun _ p => ∃ t r, (p.1.eng 3).iq (wSa (strokeWord opAcc a) - 0x400) = t :: r ∧ t.fmt = (wFmt (strokeWord opAcc a)).setWidth 8
        ∧ t.tileNo.toNat < wSpan (strokeWord opAcc a) ∧ t.data.length = 4096 ∧ SpanSound (p.1.eng 3) (strokeOf stk 3 0 opAcc a) t.tileNo.toNat)
      (fun _ => accQueueTile 3 (strokeOf stk 3 0 opAcc a)) :=
  ⟨by decide, doesHyp (by decide) (by decide) (by unfold Landed; decide) ⟨_, _, rfl, by decide, by decide, List.length_replicate, rfl⟩⟩

theorem ne_held {a : Arrival} (h : a = .entered) : a ≠ .held := by subst h; decide

theorem wit_TransferStrokes : let t := w120 1 0 0 0 0 0; let q := w120 1 0 0 24 0x7FF 0x7FF; let o := w120 1 0 0 0x200 0x7FF 0x7FF
    let free := stk.setEng 3 { lane0 with iqs := [] }
    DoesHyp stk 3 0 opStore t (fun k p => Carries (p.1.eng 3) (wFmt (strokeWord opStore t)) (wTs (strokeWord opStore t) + k)
          ∧ (regionTile p.1 (wRegion (strokeWord opStore t)) (wToff (strokeWord opStore t) + k)).isSome) (storeTile 3 (strokeOf stk 3 0 opStore t))
      ∧ wSb (strokeWord opSend q) < 0x200 ∧ strokeOk (strokeWord opSend q) = true ∧ Lone free 3 0 ∧ iqRoom free (wSb (strokeWord opSend q) / 8) (wSb (strokeWord opSend q) % 8) = true
      ∧ 0x200 ≤ wSb (strokeWord opSend o) ∧ DoesHyp stk 3 0 opSend o (fun k p => Carries (p.1.eng 3) (wFmt (strokeWord opSend o)) (wSa (strokeWord opSend o) + k)
          ∧ losslessChan p.1 (wSb (strokeWord opSend o) - 0x200) ((p.1.eng 3).tag (wSa (strokeWord opSend o) + k)).fmt = none
          ∧ (arrive p.1 (wSb (strokeWord opSend o) - 0x200) (sentItem p.1 (p.1.eng 3) (strokeOf stk 3 0 opSend o) k) true).1 ≠ .held)
        (sendQueueTile 3 (strokeOf stk 3 0 opSend o)) :=
  ⟨doesHyp (by decide) (by decide) (by unfold Landed; decide) ⟨⟨lane0_intact rfl rfl rfl, .inr rfl⟩, rfl⟩,
    by decide, by decide, ⟨rfl, rfl, by decide, ⟨rfl, by decide, rfl⟩⟩, rfl, by decide,
    doesHyp (by decide) (by decide) (by unfold Landed; decide) ⟨⟨lane0_intact rfl rfl rfl, .inr rfl⟩, by decide, ne_held rfl⟩⟩

theorem wit_SkimStrokes : let c := w120 1 12 0 0x7FF 0x7FF 0x600; let r := w120 0 12 0x500 0x7FF 0x7FF 0x7FF; let d := w120 0 12 0x500 0x7FF 0x7FF 1023
    DoesHyp stk 3 0 opSkenc c (fun k p => HasTile (p.1.eng 3) fp32 (wSa (strokeWord opSkenc c) + k) ∧ (p.1.chan (wDst (strokeWord opSkenc c) - 0x600)).loop = false ∧ CatchupRoom p.1 3 (strokeOf stk 3 0 opSkenc c) k) (skencTile 3 (strokeOf stk 3 0 opSkenc c))
      ∧ ∀ w, w = r ∨ w = d → DoesHyp stk 3 0 opSkdec w
        (fun _ p => ∃ b, (takeUnit p.1 (wSa (strokeWord opSkdec w) - 0x500)).1 = some b
          ∧ (takeUnit p.1 (wSa (strokeWord opSkdec w) - 0x500)).2.stn.resFailed = p.1.stn.resFailed
          ∧ (isNone (wDst (strokeWord opSkdec w)) = true → UnitRowsSound ((takeUnit p.1 (wSa (strokeWord opSkdec w) - 0x500)).2.eng 3) (strokeOf stk 3 0 opSkdec w) b))
        (fun _ => skdecUnit 3 (strokeOf stk 3 0 opSkdec w)) := by
  refine ⟨doesHyp (by decide) (by decide) (by unfold Landed; decide) ⟨tile0 rfl rfl rfl rfl, by decide, rfl⟩, ?_⟩
  rintro w (rfl | rfl)
  · exact doesHyp (by decide) (by decide) (by unfold Landed; decide) ⟨unit0, by decide, by decide, fun _ => rfl⟩
  · exact doesHyp (by decide) (by decide) (by unfold Landed; decide) ⟨unit0, by decide, by decide, fun h => absurd h (by decide)⟩

/-- A LOAD that may issue, and one whose tile is on its way. -/
theorem wit_LoadStroke_issue : let w := w120 1 0 1023 0 0 0
    Lone stk 3 0 ∧ strokeOk (strokeWord opLoad w) = true ∧ (∀ k ∈ loadSlots (strokeWord opLoad w), ((stk.eng 3).tag k).st ≠ .pending) ∧ (∀ p ∈ loadPlaces stk (strokeWord opLoad w), p.isSome) :=
  ⟨stk_lone, by decide, by decide, by decide⟩
def load0 : LoadReq := ⟨1023, 0, 0, 1⟩
def loadFl : Flight := { idx := 0, word := strokeWord opLoad (w120 1 0 1023 0 0 0), done := 1 }
def loading : State := { stk with engines := [(3, { lane0 with loads := [load0], flights := [loadFl] })] }
theorem wit_LoadStroke_arrival : Awaits loading 3 1023 loadFl load0 ∧ (loadRead loading load0 []).1 = true ∧ (loading.htag load0.dha).kind ≠ 2
    ∧ Awaits { loading with hbm := { loading.hbm with hard := [0] } } 3 1023 loadFl load0 :=
  ⟨⟨rfl, rfl, rfl, ⟨rfl, rfl⟩, ⟨rfl, rfl⟩, rfl, by decide, rfl⟩, rfl, by decide, ⟨rfl, rfl, rfl, ⟨rfl, rfl⟩, ⟨rfl, rfl⟩, rfl, by decide, rfl⟩⟩

/-- An engine in each STATE that EngineControl speaks of. -/
def engIn (st : EngSt) : State := { State.reset with engines := [(63, { st := st })], pwr := { railsGood := true, resetN := true } }
theorem wit_EngineControl : (∀ st : EngSt, Live (engIn st) ∧ ((engIn st).eng 63).st = st ∧ isUp (engIn st) = true)
    ∧ (let f : Fence := ⟨⟨0, 7⟩, 1, 1, true, false, false, false⟩; ({ State.reset with lth := { fence := some f } } : State).lth.fence = some f ∧ f.engines.getLsbD 63 = false ∧ State.reset.lth.fence = none) := by
  refine ⟨fun st => ?_, rfl, by decide, rfl⟩
  cases st <;> exact ⟨rfl, by decide, rfl⟩

/-- Arrivals: a free place and none, a unit that no sub-stream takes, one that is steered, one of a lossless tile for HBM and for an input queue. -/
def steered (word dest : BitVec 32) : State :=
  { State.reset with stn := { cur := some plan0, place := .running }, skm := { tables := [(0x8000, word), (0x8004, dest), (0xA000, 0x8000)] } }
theorem wit_QueueArrivals_tile : Live stk ∧ Quiet stk ∧ (tileOf (List.replicate 4096 0)).wf = true ∧ (tileOf (List.replicate 4096 0)).mirror = none ∧ iqRoom (stk.setEng 3 {}) 3 0 = true ∧ iqRoom stk 3 0 = false ∧ iqRoom stk 63 7 = false :=
  ⟨rfl, ⟨rfl, by decide, rfl⟩, by rw [IqTile.wf, tileOf, List.length_replicate]; decide, rfl, by decide, by decide, by decide⟩

/-- One unit of each path of a unit: none steered, dropped, of an unknown epoch, lossy, lossless to HBM and to an input queue. -/
def plan3 : Plan := { plan0 with budgets := [⟨0x01, 24, 1⟩, ⟨0x03, 0, 1⟩] }
def steer (word dest : BitVec 32) : State :=
  { State.reset with stn := { cur := some plan3, place := .running }, skm := { tables := [(0x8000, word), (0x8004, dest), (0xA000, 0x8000)] } }
/-- A lossless unit of no bytes on channel 0: raw, and coded by a table. -/
def rawLl : List Byte := [0, 0x18] ++ List.replicate 14 0
def tabLl : List Byte := [0, 0x1C] ++ List.replicate 14 0
def lossy0 : List Byte := lossyUnit 0 0xE 0 0 (List.replicate 288 0)
theorem wit_QueueArrivals_units :
    (steerOf stk.skm.tables 0 (unitHdr unit0).chan = none)
    ∧ (let s := steer 0x81000000 0; Live s ∧ Quiet s ∧ steerOf s.skm.tables 0 (unitHdr unit0).chan = some 0 ∧ unitOk (s.sub 0) unit0 = false)
    ∧ (let s := steer 0xC1000000 0; Live s ∧ Quiet s ∧ (s.sub 0).valid = true ∧ (s.sub 0).resid = false ∧ unitOk (s.sub 0) tabLl = true ∧ tabLl.length = 16 + (unitHdr tabLl).len ∧ epochOk s tabLl = false)
    ∧ (let s := steer 0x8E000000 0; Quiet s ∧ steerOf s.skm.tables 0 (unitHdr lossy0).chan = some 0 ∧ (s.sub 0).valid = true ∧ (s.sub 0).resid = false ∧ unitOk (s.sub 0) lossy0 = true
        ∧ lossy0.length = 16 + (unitHdr lossy0).len ∧ epochOk s lossy0 = true ∧ (s.subQ 0).length < subRoom s 0 ∧ catchupWrite s 0 true lossy0 = (true, s) ∧ (s.sub 0).ll = false)
    ∧ (∀ dest : BitVec 32, dest = 0x80000000 ∨ dest = 0x43000000 → let s := steer 0xC1000000 dest
        Quiet s ∧ steerOf s.skm.tables 0 (unitHdr rawLl).chan = some 0 ∧ (s.sub 0).valid = true ∧ (s.sub 0).resid = false ∧ unitOk (s.sub 0) rawLl = true ∧ rawLl.length = 16 + (unitHdr rawLl).len
          ∧ epochOk s rawLl = true ∧ (s.subQ 0).length < subRoom s 0 ∧ catchupWrite s 0 true rawLl = (true, s) ∧ (s.sub 0).ll = true
          ∧ pickUnit (setSubQ s 0 [rawLl]) 0 = some rawLl ∧ (dest = 0x80000000 → (s.sub 0).kind = 2) ∧ (dest = 0x43000000 → (s.sub 0).kind = 1 ∧ iqRoom s (s.sub 0).engine (s.sub 0).iq = true)) := by
  refine ⟨by decide, ⟨rfl, ⟨rfl, by decide, rfl⟩, by decide, by decide⟩, ⟨rfl, ⟨rfl, by decide, rfl⟩, by decide, by decide, by decide, by decide, by decide⟩,
    ⟨⟨rfl, by decide, rfl⟩, by decide +kernel, by decide, by decide, by decide +kernel, by decide +kernel, by decide +kernel, by decide, rfl, by decide⟩, ?_⟩
  rintro dest (rfl | rfl)
  · exact ⟨⟨rfl, by decide, rfl⟩, by decide, by decide, by decide, by decide, by decide, by decide, by decide, rfl, by decide, by decide, fun _ => by decide, fun h => absurd h (by decide)⟩
  · exact ⟨⟨rfl, by decide, rfl⟩, by decide, by decide, by decide, by decide, by decide, by decide, by decide, rfl, by decide, by decide, fun h => absurd h (by decide), fun _ => ⟨by decide, by decide⟩⟩

/-- The table slots in the states of R146. -/
def slotsIn (a b : TblSt) : State := { State.reset with skm := { slots := [{ st := a }, { st := b }] } }
theorem wit_TableSlots_commands : ∀ a b : TblSt, Live (slotsIn a b) ∧ (slotsIn a b).skm.busy = false ∧ ((slotsIn a b).tslot 0).st = a ∧ ((slotsIn a b).tslot 1).st = b ∧ inflight (slotsIn a b) 0 = 0 := by
  intro a b; cases a <;> cases b <;> exact ⟨rfl, rfl, rfl, rfl, by decide⟩
/-- A staged table with all code lengths 0, one with all of them 1, and their CRC. -/
def staged (len : Nat) (crc : BitVec 32) : State :=
  { State.reset with skm := { busy := true, stage := (List.range 32).map (fun k => (k + 2, BitVec.ofNat 32 (len * 0x11111111))) ++ [(34, crc)] } }
def stagedCrc (len : Nat) : BitVec 32 := crc32c ((stageBytes (staged len 0)).take 136)
theorem wit_TableSlots_load : Live (staged 0 0) ∧ (staged 0 0).skm.busy = true ∧ stagedCrc 0 ≠ BitVec.ofNat 32 (leAt (stageBytes (staged 0 0)) 136 4)
    ∧ (∀ len, len = 0 ∨ len = 1 → let b := stageBytes (staged len (stagedCrc len))
      crc32c (b.take 136) = BitVec.ofNat 32 (leAt b 136 4) ∧ oversubscribed ((slice b 8 128).flatMap fun x => [BitVec.ofNat 4 (x.toNat % 16), BitVec.ofNat 4 (x.toNat / 16)]) = decide (len = 1)) := by
  refine ⟨rfl, rfl, by decide +kernel, ?_⟩
  rintro len (rfl | rfl) <;> decide +kernel

/-! ## The mailbox -/

def sess0 : Session := { num := 1, hcs := 3, method := 1, mask := 1, isOpen := true, level := 2 }
/-- A device with Hawk running and one session that holds mailbox 0. -/
def demo (x : Session) : State := { State.reset with hwk := { running := true, sessions := [(0, some x)] }, top := { ready := 0x1FF } }

theorem ready_all {k : Nat} (h : k < 9) : (0x1FF#9).getLsbD k = true := by
  have : ∀ k : Fin 9, (0x1FF#9).getLsbD k.val = true := by decide
  exact this ⟨k, h⟩

/-- A record of that session starts its command in every state that differs from `demo` elsewhere. -/
theorem accepted {s : State} {r : MboxRec} {n : CmdNeeds} {args : List Byte} {x : Session} (hl : s.pwr.tripped = false) (hr : s.hwk.running = true) (hs : s.hwk.sessions = [(0, some x)]) (hm : s.hwk.mboxes = []) (ht : s.top.ready = 0x1FF)
    (hx : { x with area3 := [] } = sess0) (hn : ∀ k ∈ n.ready, k < 9) (h : r = recFor n.op args := by rfl) : Accepted s r n args 0 x := by
  subst h
  have e1 : x.num = 1 := congrArg Session.num hx
  have e2 : x.hcs = 3 := congrArg Session.hcs hx
  have e3 : x.mask = 1 := congrArg Session.mask hx
  have e4 : x.isOpen = true := congrArg Session.isOpen hx
  have e5 : x.level = 2 := congrArg Session.level hx
  have e6 : x.lastSeq = none := congrArg Session.lastSeq hx
  have e7 : x.claiming = false := congrArg Session.claiming hx
  have e8 : x.sk = [] := congrArg Session.sk hx
  have hget : ∀ i, s.session i = Tab.get none [(0, some x)] i := fun i => by rw [State.session, hs]
  refine ⟨hl, hr, rfl, ?_, hget 0, e4, by rw [e3]; exact (by decide : (1#16).getLsbD 0 = true), by rw [e8]; exact recFor_tag _ _, by rw [SeqNew, e6]; exact fun h => absurd (show (1 : BitVec 64) = 0 from h) (by decide), e2, ?_, ?_, fun h => absurd (e2.symm.trans h) (by decide), fun _ => ⟨e5, fun h => absurd (e7.symm.trans h) (by decide)⟩, fun k hk => by rw [ht]; exact ready_all (hn k hk)⟩
  · rw [sessionSlot, show List.range 8 = 0 :: (List.range 7).map (· + 1) from by decide, List.find?_cons]
    simp only [hget, Tab.get, if_true, e1]
    rfl
  · rw [State.mbox, hm]; rfl
  · rw [State.mbox, hm]; exact fun h => absurd (show (none : Option (BitVec 16)) = some 1 from h) (by decide)

theorem seqNew_first {x : Session} {q : BitVec 64} (h : x.lastSeq = none) (hq : q ≠ 0) : SeqNew x q := by rw [SeqNew, h]; exact hq

theorem wit_MailboxAnswer : Accepted (demo sess0) (recFor 1 []) (needs 0x0001 false true []) [] 0 sess0 := accepted rfl rfl rfl rfl rfl rfl (by decide)
/-- A record of HCS 2 in a session of HCS 2. -/
def rec2 : MboxRec := { rec0 with hcs := 2 }
theorem wit_Mailbox_hcs2 : let x : Session := { sess0 with hcs := 2 }; Accepted (demo x) { rec2 with tag := commandTag [] rec2 1 [] } (needs 0x0001 false true []) [] 0 x :=
  ⟨rfl, rfl, rfl, by decide, rfl, rfl, by decide, (commandTag_own [] _ rec2 1 []).symm, seqNew_first rfl (by decide), rfl, rfl, by decide, fun _ => rfl, fun h => absurd h (by decide), by decide⟩

/-- No command's tag has 13 bytes. -/
theorem tag_other (op : BitVec 16) (args : List Byte) : List.replicate 13 0 ≠ commandTag sess0.sk rec0 op args := by
  intro h
  have h := congrArg List.length h
  rw [commandTag, recordTag, List.length_take, List.length_replicate] at h
  omega

/-- The checks of MailboxChecks, each met by a record: no firmware, a bad form, no session, another mailbox, a bad tag, an old SEQ, another HCS, a mailbox that runs another command, the same one, or has answered it. -/
def busyWith (c : BitVec 16) : State := (demo sess0).setMbox 0 { running := some (c, 1, 1) }
theorem wit_MailboxChecks : State.reset.hwk.running = false ∧ (demo sess0).hwk.running = true ∧ ({ rec0 with formOk := false } : MboxRec).formOk = false
    ∧ sessionSlot (demo sess0) 2 = none ∧ sessionSlot (demo sess0) rec0.session = some 0 ∧ (demo sess0).session 0 = some sess0
    ∧ sess0.mask.getLsbD 15 = false ∧ sess0.mask.getLsbD rec0.mbox.val = true ∧ ¬ SeqNew { sess0 with lastSeq := some 5 } 5 ∧ SeqNew { sess0 with lastSeq := some 5 } 6 ∧ ¬ SeqNew sess0 0 ∧ SeqNew sess0 1
    ∧ ({ rec0 with tag := List.replicate 13 0 } : MboxRec).tag ≠ commandTag sess0.sk { rec0 with tag := List.replicate 13 0 } 1 [] ∧ (recFor 1 []).tag = commandTag sess0.sk (recFor 1 []) 1 [] ∧ sess0.hcs ≠ rec2.hcs ∧ rec2.session = rec0.session
    ∧ ((busyWith 9).mbox 0).running = some (9, 1, 1) ∧ (9 : BitVec 16) ≠ rec0.cmdId ∧ ((busyWith rec0.cmdId).mbox 0).running = some (rec0.cmdId, 1, 1)
    ∧ (((demo sess0).setMbox 0 { lastCmd := some rec0.cmdId }).mbox 0).lastCmd = some rec0.cmdId := by
  exact ⟨rfl, rfl, rfl, by decide, by decide, rfl, by decide, by decide, fun h => absurd (show (5 : Nat) < 5 from h) (by decide), (by decide : (5 : Nat) < 6), fun h => absurd rfl (show (0 : BitVec 64) ≠ 0 from h), seqNew_first rfl (by decide), (by rw [commandTag_own]; exact tag_other 1 []), recFor_tag 1 [], by decide, rfl, by decide, by decide, by decide, by decide⟩

theorem wit_MailboxQueries : Accepted (demo sess0) (recFor 2 []) (needs 0x0002 false true []) [] 0 sess0 ∧ Accepted (demo sess0) (recFor 3 []) (needs 0x0003 false true []) [] 0 sess0
    ∧ Accepted (demo sess0) (recFor 4 []) (needs 0x0004 false false []) [] 0 sess0 ∧ (∀ args, Accepted (demo sess0) (recFor 0x10 args) (needs 0x0010 false true []) args 0 sess0)
    ∧ (peekWords 8 0x10000 (demo sess0)).2.1 = none ∧ (peekWords 1 0xFFFFFFFC (demo sess0)).2.1 = some 0xFFFFFFFC :=
  ⟨accepted rfl rfl rfl rfl rfl rfl (by decide), accepted rfl rfl rfl rfl rfl rfl (by decide), accepted rfl rfl rfl rfl rfl rfl (by decide), fun _ => accepted rfl rfl rfl rfl rfl rfl (by decide), by decide +kernel, by decide +kernel⟩

theorem wit_MailboxWrites : (∀ args, Accepted (demo sess0) (recFor 0x11 args) (needs 0x0011 true true []) args 0 sess0 ∧ Accepted (demo sess0) (recFor 0x80 args) (needs 0x0080 true false []) args 0 sess0)
    ∧ pokeAllowed 0x90000 = true ∧ (writeWord (demo sess0) 0x90000 1).isSome = true ∧ (writeWord (demo sess0) 0x9000C 1).isSome = true ∧ pokeAllowed 0x110000 = false ∧ pokeAllowed 0x111004 = true
    ∧ writeWord (demo sess0) 0xFFFFFFFC 0 = none :=
  ⟨fun _ => ⟨accepted rfl rfl rfl rfl rfl rfl (by decide), accepted rfl rfl rfl rfl rfl rfl (by decide)⟩, by decide, by decide +kernel, by decide +kernel, by decide, by decide, by decide +kernel⟩

/-- A staging area free, held by the session, held by another, and with a stack that is not ready. -/
def upTo (stackTab : BitVec 32) (h1 h2 : Option (BitVec 16)) : State :=
  { demo sess0 with hwk := { running := true, sessions := [(0, some sess0)], stage1 := h1, stage2 := h2 }, top := { ready := 0x1FF, hbm := stackTab } }
theorem wit_StagingAreas : (∀ stackTab h1 h2 args, Accepted (upTo stackTab h1 h2) (recFor 0x20 args) (needs 0x0020 true true []) args 0 sess0 ∧ Accepted (upTo stackTab h1 h2) (recFor 0x21 args) (needs 0x0021 true true []) args 0 sess0)
    ∧ areaOk rec0 0 = false ∧ areaOk rec0 1 = true ∧ areaOk rec0 2 = true ∧ areaOk rec0 3 = false ∧ areaOk { rec0 with hcs := 2 } 2 = false
    ∧ firstStackDown (upTo 0xFE none none) 0 = some 0 ∧ firstStackDown (upTo 0x7F00 none none) 1 = some 15 ∧ firstStackDown (upTo 0xFFFF none none) 1 = none
    ∧ stageHolder (upTo 0xFFFF none none) 1 = none ∧ stageHolder (upTo 0xFFFF (some 1) none) 1 = some rec0.session ∧ stageHolder (upTo 0xFFFF none (some 2)) 2 = some 2 :=
  ⟨fun _ _ _ _ => ⟨accepted rfl rfl rfl rfl rfl rfl (by decide), accepted rfl rfl rfl rfl rfl rfl (by decide)⟩, by decide, by decide, by decide, by decide, by decide, by decide, by decide, by decide, rfl, rfl, rfl⟩

/-- Bulk data: the areas that the session may use, their last bytes, and a buffer of its own. -/
def owning : State := { upTo 0xFFFF (some 1) (some 1) with lth := { owners := [(0, some (sessionOwner 1))] } }
theorem bulkTag_own (k t : List Byte) (b : BulkRec) : bulkTag k { b with tag := t } = bulkTag k b := rfl
def bulkFor (b : BulkRec) : BulkRec := { b with tag := bulkTag [] b }
theorem wit_BulkData : (∀ (n : CmdNeeds) args, (∀ k ∈ n.ready, k < 9) → Accepted owning (recFor n.op args) n args 0 sess0) ∧ (∀ b, (bulkFor b).tag = bulkTag sess0.sk (bulkFor b)) ∧ sessionSlot owning (bulk0 []).session = some 0 ∧ SeqNew sess0 (bulk0 []).seq ∧ sess0.hcs = (bulk0 []).hcs ∧ sess0.num = (bulk0 []).session
    ∧ bulkArea owning 1 0 0 = none ∧ bulkArea owning 1 5 0 = none ∧ bulkArea (demo sess0) 1 1 0 = none ∧ bulkArea owning 1 1 0 = some area1Size ∧ bulkArea owning 1 2 0 = some area2Size
    ∧ bulkArea owning 1 3 0 = some area3Size ∧ bulkArea owning 1 4 0 = some (poolSize 0) ∧ ownsBuffer owning 1 0 = true
    ∧ area1Size - 4 + 4 ≤ area1Size ∧ owning.stn.admitting = none ∧ (4096 + 8192 ≤ poolSize (handlePool 0)) := by
  exact ⟨fun n _ hn => accepted rfl rfl rfl rfl rfl rfl hn, fun b => (bulkTag_own [] _ b).symm, by decide, seqNew_first rfl (by decide), rfl, rfl, by decide, by decide, by decide, by decide, by decide, by decide, by decide +kernel, by decide +kernel, by decide, rfl, by decide⟩

/-- Firmware: an update under way, an area of another session, an image staged, refused for each reason, one accepted, and the end of its writing. -/
def fwStaged (hold : BitVec 16) (svn : BitVec 8) : State :=
  { upTo 0xFFFF none (some hold) with hwk := { running := true, sessions := [(0, some sess0)], stage2 := some hold, romKeys := some [testKey], area2 := Mem.write [] 0 (testContent ++ blockOf testSig) }, slr := { minSvn := some svn } }
def updating0 : State := { fwStaged 1 1 with hwk := { (fwStaged 1 1).hwk with updating := some (rec0, image0 [] []) } }
theorem wit_FirmwareUpdate : (∀ args, Accepted updating0 (recFor 0x70 args) (needs 0x0070 true false []) args 0 sess0) ∧ updating0.hwk.updating.isSome = true ∧ updating0.pwr.supplyWarn = false ∧ Live updating0
    ∧ (∀ hold svn args, Accepted (fwStaged hold svn) (recFor 0x70 args) (needs 0x0070 true false []) args 0 sess0) ∧ (fwStaged 2 1).hwk.stage2 ≠ some rec0.session ∧ (fwStaged 1 1).hwk.stage2 = some (recFor 0x70 []).session ∧ (fwStaged 1 1).hwk.updating = none :=
  ⟨fun _ => accepted rfl rfl rfl rfl rfl rfl (by decide), rfl, rfl, rfl, fun _ _ _ => accepted rfl rfl rfl rfl rfl rfl (by decide), by decide, rfl, rfl⟩
/-- The staged bytes give an image that is signed; what is refused then turns on its SVN and part number. -/
theorem staged_signed : imageSigned (fwStaged 1 1) (imageIn (Mem.read (fwStaged 1 1).hwk.area2 0 516) (image0 [] [])) = true := by
  have b : Mem.read (fwStaged 1 1).hwk.area2 0 516 = testContent ++ blockOf testSig := by decide +kernel
  have h : signatureOk testKey (sha256 testContent) testSig = true := test_signature
  rw [b, imageSigned, imageIn, show (testContent ++ blockOf testSig).length - 512 = 4 from by decide +kernel, show (testContent ++ blockOf testSig).take 4 = testContent from rfl, show (testContent ++ blockOf testSig).drop 4 = blockOf testSig from rfl,
    show (fwStaged 1 1).hwk.romKeys.getD Config.firmwareKeys = [testKey] from rfl]
  simp only [List.any_cons, test_keyId, show slice (blockOf testSig) 128 384 = testSig from by decide +kernel, h]
  decide +kernel
theorem wit_FirmwareUpdate_image : let s := fwStaged 1 1; let bs := Mem.read s.hwk.area2 0 516
    fwRefusal s (imageIn bs (image0 [] [])) = none ∧ fwRefusal s (imageIn bs { image0 [] [] with part := 0 }) = some 3 ∧ fwRefusal s (imageIn bs { image0 [] [] with svn := 0 }) = some 2 ∧ fwRefusal s (imageIn bs { image0 [] [] with present := false }) = some 1 := by
  intro s bs
  have h : ∀ im : FwImage, imageSigned s (imageIn bs im) = true := fun im => staged_signed
  have m : (minSvnNow s).toNat = 1 := by decide
  refine ⟨?_, ?_, ?_, rfl⟩ <;> rw [fwRefusal, h, m] <;> rfl

/-! ## Stencil -/

/-- `demo` with a plan in a place. -/
def withPlan (p : Option Plan) (pl : Place) (nx : Option Plan) : State := { demo sess0 with stn := { cur := p, place := pl, next := nx } }
theorem acc_plan {r : MboxRec} {p : Option Plan} {pl : Place} {nx : Option Plan} {n : CmdNeeds} {args : List Byte} (h : ∀ k ∈ n.ready, k < 9) (e : r = recFor n.op args := by rfl) : Accepted (withPlan p pl nx) r n args 0 sess0 := accepted rfl rfl rfl rfl rfl rfl h e
/-- A staged image of no bytes, whose CRC is 0; an admission under way. -/
def stage1 (a : Option Admitting) : State := { demo sess0 with hwk := { running := true, sessions := [(0, some sess0)], stage1 := some 1 }, stn := { admitting := a } }
/-- The plan of these states with an engine that is ready, HALTED. -/
def halted0 : State := { withPlan (some plan0) .halted none with engines := [(3, { st := .idle })], top := { ready := 0x1FF, trw := 8, hbm := 0xFF } }
theorem wit_PlanCommands : (∀ a args, Accepted (stage1 a) (recFor 0x30 args) (needs 0x0030 true true [rdyStn]) args 0 sess0) ∧ (stage1 (some ⟨rec0, 0, 0⟩)).stn.admitting.isSome = true ∧ (stage1 none).hwk.stage1 = some (recFor 0x30 []).session
    ∧ (demo sess0).hwk.stage1 ≠ some rec0.session ∧ crc32c (Mem.read (stage1 none).hwk.area1 0 0) = 0 ∧ leAt (Mem.read (stage1 none).hwk.area1 0 6) 4 2 ≠ 2
    ∧ leAt (Mem.read (Mem.write [] 4 [2]) 0 6) 4 2 = 2
    ∧ (∀ p pl nx args, Accepted (withPlan p pl nx) (recFor 0x31 args) (needs 0x0031 true false [rdyStn]) args 0 sess0 ∧ Accepted (withPlan p pl nx) (recFor 0x32 args) (needs 0x0032 true true [rdyStn]) args 0 sess0
      ∧ Accepted (withPlan p pl nx) (recFor 0x33 args) (needs 0x0033 true false [rdyStn]) args 0 sess0 ∧ Live (withPlan p pl nx) ∧ (withPlan p pl nx).stn.place = pl ∧ (withPlan p pl nx).stn.cur = p ∧ (withPlan p pl nx).stn.next = nx
      ∧ (withPlan p pl nx).lth.queue = [] ∧ (withPlan p pl nx).lth.fence = none)
    ∧ (∀ args, Accepted halted0 (recFor 0x31 args) (needs 0x0031 true false [rdyStn]) args 0 sess0) :=
  ⟨fun _ _ => accepted rfl rfl rfl rfl rfl rfl (by decide), rfl, rfl, by decide, by decide, by decide, by decide,
    fun _ _ _ _ => ⟨acc_plan (by decide), acc_plan (by decide), acc_plan (by decide), rfl, rfl, rfl, rfl, rfl, rfl⟩, fun _ => accepted rfl rfl rfl rfl rfl rfl (by decide)⟩
/-- The launch window of a relaunch at its two ends, and a unit that is not ready. -/
theorem wit_PlanCommands_relaunch : planReady halted0 = true ∧ planNotReady halted0 plan0 = none ∧ windowOk halted0 1000000 = true ∧ windowOk halted0 999999 = false ∧ windowOk halted0 (2 ^ 46) = true
    ∧ windowOk halted0 (2 ^ 46 + 1) = false ∧ planReady State.reset = false ∧ (planNotReady { halted0 with top := { ready := 0x1FF } } plan0).isSome = true := by
  refine ⟨by decide, by decide +kernel, by decide, by decide, by decide, by decide, by decide, by decide +kernel⟩

/-- A signature under the test key over the first 576 bytes of that image, made outside this model. -/
def planSig : List Byte := beBytes 384 0x1AA9480873CDFC86C7BB67693F4A1FDF4909C7E24FD98EA452623D4E459F769B31B50DA1919A0CBF982AA371B97643C7EA21AC4F044952A3E3A579AE5E50423D6ABE2DDE40D30C1FF45B7C64068F1C40176A9B91BB0DFC7FB5134C8C8D2F454B2DB596828D1A31DDB8CECED85067F07D43D5787310E354C6145E53C76C67E23A98D0C9176242A0401E1E910ECBEF1061AF4050024B6A0C4EE8E45BD25DBD590FECE003FE73B7384ED94FBC9C23A177BC045E1215B76B8DE07A8554B9010FCC4955F246687C2CEC46EB5890B0BC6BD4869DD4176493D8C03E3902266FC1E8933D259782481E01EC93242544E20C2B56ECFAF6401FD833469AAB80AFBDE5B8E12044C1BCDC0C35FD48AB27159AA3A91FEFA64365BED1DFFCACD914062D7067C8B1966AC68C92ABBBA207EEB524FFA6F91349887E299D18774786CDEEEDD2397AE3D0973D8F5CCF4CC56608533945E49CBB0859799B9C143458EBD965E135B6876B01F4654023F7D821D002795C6CA8A490170FC67FBE09BBAB5A50F502C62DA8E2
/-- A plan image of one step, one body and one slot without strokes, R166 to R175. -/
def planBytes : List Byte :=
  ([0x53, 0x54, 0x4E, 0x50] : List Byte) ++ leBytes 2 2 ++ zeros 2 ++ leBytes 4 576 ++ leBytes 2 0x9640 ++ [0xB1] ++ zeros 37 ++ leBytes 4 1 ++ leBytes 6 1000000 ++ zeros 2 ++ leBytes 4 104000 ++ leBytes 4 100000 ++ zeros 4
    ++ leBytes 2 1 ++ leBytes 2 1 ++ zeros 48 ++ (leBytes 4 256 ++ leBytes 4 160) ++ (leBytes 4 448 ++ leBytes 4 32) ++ zeros 16 ++ (leBytes 4 512 ++ leBytes 4 8) ++ zeros 88
    ++ (leBytes 2 1 ++ [0xFF] ++ zeros 189) ++ (leBytes 4 0 ++ leBytes 4 1000 ++ zeros 120) ++ blockOf planSig
/-- The image staged on a device whose owner store knows the key. -/
def admitting0 (a : Option Admitting) : State :=
  { State.reset with top := { ready := 0x1FF, asig := some 0 }, slr := { store := some ⟨1, [testKey], [], false, []⟩ }, hwk := { area1 := (List.range 1088).zip planBytes |>.filter fun p => p.2 ≠ 0 }, stn := { admitting := a } }
def admits (x : (Plan × State) ⊕ Refused) : Bool := match x with | .inl _ => true | _ => false
theorem wit_PlanAdmission : let s := admitting0 (some ⟨rec0, 1088, 0⟩); let bs := Mem.read s.hwk.area1 0 1088
    Live s ∧ s.stn.admitting = some ⟨rec0, 1088, 0⟩ ∧ placeFree (admitting0 none) (imgSeam bs) = true ∧ formatFault bs 1088 = none ∧ signatureBad State.reset bs = true :=
  ⟨rfl, rfl, by decide +kernel, by decide +kernel, by decide +kernel⟩
theorem planBytes_signed : signatureBad (admitting0 none) (Mem.read (admitting0 none).hwk.area1 0 1088) = false := by decide +kernel
theorem wit_PlanAdmission_success : admits (admitChecks (admitting0 none) (Mem.read (admitting0 none).hwk.area1 0 1088) 1088) = true ∧ (admitting0 none).lth.queue = [] := by
  refine ⟨?_, rfl⟩
  rw [admitChecks, planBytes_signed]
  decide +kernel
theorem wit_PlanAdmission_failure : (formatFault [] 0).isSome = true ∧ placeFree State.reset (imgSeam []) = true ∧ placeFree (withPlan (some plan0) .halted none) true = false ∧ placeFree (withPlan (some plan0) .armed none) true = true
    ∧ plan0.isBreak = false ∧ State.reset.stn.place = .none := ⟨by decide, by decide, by decide, by decide, rfl, rfl⟩

/-- An armed plan: its trigger not due, due on the tick, 1,000 ns late and later, with its units ready and not. -/
def armed0 (ns : Nat) (trw : BitVec 64) : State :=
  { State.reset with stn := { cur := some plan0, place := .armed, launchAt := 1000 }, plb := { time := ns * 65536 }, engines := [(3, { st := .armed })], top := { trw := trw, hbm := 0xFF } }
theorem wit_LaunchTrigger : (∀ ns trw, Live (armed0 ns trw) ∧ (armed0 ns trw).stn.cur = some plan0 ∧ (armed0 ns trw).stn.place = .armed)
    ∧ due (armed0 999 8).count 1000 = false ∧ due (armed0 1000 8).count 1000 = true ∧ signedDiff (armed0 2000 8).count 1000 = 1000 ∧ signedDiff (armed0 2001 8).count 1000 = 1001
    ∧ launchReady (armed0 2000 8) plan0 = true ∧ launchReady (armed0 2000 0) plan0 = false :=
  ⟨fun _ _ => ⟨rfl, rfl, rfl⟩, by decide, by decide, by decide, by decide, by decide +kernel, by decide +kernel⟩

/-- A running plan: launching, in a step and in a seam. -/
def running0 (n : Stn) (ns : Nat) : State := { State.reset with stn := n, plb := { time := ns * 65536 }, engines := [(3, { st := .running })] }
def stn0 : Stn := { cur := some plan0, place := .running, stepRunning := true }
theorem wit_StepTimers : Live (running0 stn0 0) ∧ (running0 stn0 0).stn.place = .running
    ∧ due (running0 { stn0 with stepRunning := false, launching := true, launchAt := 5 } 5).count (nextStart (running0 { stn0 with stepRunning := false, launching := true, launchAt := 5 } 5) plan0) = true
    ∧ due (running0 { stn0 with stepRunning := false, inSeam := true } 1000).count (nextStart (running0 { stn0 with stepRunning := false, inSeam := true } 1000) plan0) = true
    ∧ (let p := { plan0 with seamLaunch := true }; (running0 { stn0 with cur := some p, launching := true } 0).stn.launchStep = p.step0 ∧ launchReady (running0 { stn0 with cur := some p, launching := true } 0) p = false)
    ∧ 0 = stn0.slotsStarted ∧ 0 < (curBody (running0 stn0 0)).slots.length
    ∧ due (running0 stn0 2000).count (deadlineAt (running0 stn0 2000) plan0) = true ∧ due (running0 stn0 1999).count (deadlineAt (running0 stn0 1999) plan0) = false
    ∧ stepComplete (running0 stn0 2000) = true ∧ stepComplete (running0 { stn0 with stepRunning := false, inSeam := true } 0) = false
    ∧ fullColls (running0 { stn0 with stepRunning := false, launching := true } 0) plan0 = [] :=
  ⟨rfl, rfl, by decide, by decide, ⟨rfl, by decide +kernel⟩, rfl, by decide, by decide, by decide, by decide, by decide, by decide⟩
theorem wit_StepTimers_late : stepComplete { running0 stn0 2000 with engines := [(3, { st := .running, issued := 1 })] } = false ∧ Still (slotOpen (running0 stn0 0) 0) :=
  ⟨by decide, by decide +kernel, by decide +kernel⟩
/-- A step that has just begun has not reached cycle 5, and every step has reached cycle 0. -/
def slots0 (start : Nat) : State := running0 { stn0 with cur := some { plan0 with bodies := [{ body0 with slots := [⟨start, 1000, 0, [], 0⟩] }] } } 0
theorem wit_StepTimers_slots : slotStartsAt (curBody (slots0 5)) 0 = 5 ∧ stepCycles (slots0 5) < 5 ∧ (∀ s : State, slotStartsAt (curBody (slots0 0)) 0 ≤ stepCycles s) := by
  refine ⟨rfl, ?_, fun s => Nat.zero_le _⟩
  have h : coreCycles (slots0 5) ((slots0 5).plb.run - (slots0 5).stn.startedAt) = 0 := by decide
  rw [stepCycles, h, Nat.zero_sub]
  decide
theorem wit_StepSeams : let s := running0 stn0 2000
    Live s ∧ stepComplete s = true ∧ plan0.descs = [] ∧ s.se.role = 0 ∧ s.pwr.level = 0 ∧ s.pwr.applied = 0 ∧ s.pwr.minLevel = 0 ∧ (s.stn.step - plan0.step0).toNat + 1 ≠ plan0.steps ∧ s.stn.haltReq = false
      ∧ (let last := running0 { stn0 with step := 1 } 2000; stepComplete last = true ∧ (last.stn.step - plan0.step0).toNat + 1 = plan0.steps ∧ last.stn.next = none)
      ∧ stepComplete (running0 { stn0 with haltReq := true } 2000) = true ∧ plan0.engines.getLsbD 3 = true ∧ (s.eng 3).st = .running :=
  ⟨rfl, by decide, rfl, rfl, rfl, rfl, rfl, by decide, rfl, ⟨by decide, by decide, rfl⟩, by decide, by decide, rfl⟩

/-! ## Collectives -/

/-- A collective of 2 members in one site, and of 2 sites; a plan with it at a rank; a message for it. -/
def desc0 (m4 m6 : Nat) : Desc :=
  { op := 0, topLevel := 6, fmt := 1, wireFmt := 1, d := 0, mirror := false, resFmt := 0, rm := 0, count := 1024, idxBase := 0, bodies := 1, catchup := 0, chunk := 0, ctlNs := 0, lostNs := 0, ringNs := 0, m4 := m4, m5 := 1, m6 := m6, m7 := 1, mirrorRegions := [], parityRegions := [], fedUnits := 0, fedChan := 0, digest := 5, reservedOk := true }
def planC (rank : BitVec 15) (m4 m6 : Nat) : Plan := { plan0 with rank := rank, descs := [desc0 m4 m6] }
def atRank (rank : BitVec 15) (m4 m6 : Nat) (c : Clc) : State := { State.reset with stn := { cur := some (planC rank m4 m6), place := .running, stepRunning := true }, clc := c }
def msgOf (type : Byte) (src : BitVec 16) (digest : BitVec 64) (asig : BitVec 32) : ClcMsg := sealMsg { msg0 with type := type, src := src, digest := digest, asig := asig }
theorem wit_ClcMessages : ∀ type, type ∈ ([tyJoin, tySiteJoin, tyReady, tySiteReady, tyAbortReq, tyLate, tyExt, tyRing, tyNotify, tyAbortReply, tyRebuildReq, tyRebuilt] : List Byte) →
    let m := msgOf type 1 5 0; let s := atRank 0 2 1 {}
    Live s ∧ s.se.role = 0 ∧ m.type = type ∧ clcAccepts s m = true ∧ secondCopy s m = false ∧ names s.stn.cur m = true ∧ clcAccepts s { m with crc := m.crc + 1 } = false
      ∧ (let n : State := { s with stn := { s.stn with cur := some { planC 0 2 1 with planId := 9 }, next := some (planC 0 2 1) } }; clcAccepts n m = true ∧ names n.stn.cur m = false)
      ∧ (type ≠ tyRing → type ≠ tyExt → secondCopy (atRank 0 2 1 { seen := [(type, 1, 0, 0)] }) m = true) := by
  intro type h
  simp only [List.mem_cons, List.not_mem_nil, or_false] at h
  rcases h with rfl | rfl | rfl | rfl | rfl | rfl | rfl | rfl | rfl | rfl | rfl | rfl <;> exact ⟨rfl, rfl, rfl, by decide +kernel, by decide, by decide, by decide +kernel, ⟨by decide +kernel, by decide⟩, by decide⟩
theorem wit_ClcSends : State.reset.se.role ≠ 2 ∧ (∀ p ∈ ([(1, msg0)] : Sends), p.1 ≠ myRank State.reset) ∧ ({ State.reset with se := { role := 2 } } : State).se.role = 2
    ∧ siteHead 1 = siteHead (myRank State.reset) ∧ siteHead 256 ≠ siteHead (myRank State.reset) ∧ (∀ b, itemsLen (State.reset.ctlQ b) + 68 ≤ 262144)
    ∧ (∀ n, n = 262100 → 262144 < itemsLen [⟨.seg 2 (List.replicate n 0), 0, 0⟩] + 68) :=
  ⟨by decide, by decide, rfl, by decide, by decide, fun b => by rw [show State.reset.ctlQ b = [] from rfl]; decide, fun n h => by subst h; rw [itemsLen, List.foldl, List.foldl, QItem.len, List.length_replicate]; decide⟩

/-- A site head that is not the root: rank 256 of two sites of two members. -/
def head0 (c : Clc) : State := atRank 256 2 2 c
theorem wit_ClcSiteHead : ∀ type, type = tyJoin ∨ type = tyReady ∨ type = tyAbortReq ∨ type = tyLate → let m := msgOf type 257 5 0; let s := head0 {}
    Heard s m ∧ HeadOf s m ∧ s.stn.cur = some (planC 256 2 2) ∧ curDesc s m.coll.toNat = some (desc0 2 2) ∧ m.digest = (desc0 2 2).digest ∧ (m.asig = plan0.asig ∨ flagRepro m = true)
      ∧ allJoined s (desc0 2 2) m = false ∧ allReady s (desc0 2 2) m = false ∧ (instOf s m).siteReadySent = false := by
  rintro type (rfl | rfl | rfl | rfl) <;> exact ⟨⟨rfl, rfl, by decide +kernel, by decide, by decide⟩, ⟨by decide, by decide, by decide⟩, rfl, rfl, rfl, .inl rfl, by decide, by decide, rfl⟩
theorem wit_ClcSiteHead_complete : let j := msgOf tyJoin 257 5 0; let r := msgOf tyReady 257 0 0; let s := head0 { joins := [(0, 256, 5)] }
    let t := head0 { insts := [{ coll := 0, step := 0, readies := [msgOf tyReady 256 0 0] }] }
    Heard s j ∧ allJoined s (desc0 2 2) j = true ∧ s.clc.siteJoinSent.contains j.coll.toNat = false ∧ (∀ q ∈ joinsWith s j, q.1 = j.coll.toNat → q.2.2 = (desc0 2 2).digest)
      ∧ Heard t r ∧ allReady t (desc0 2 2) r = true ∧ (instOf t r).siteReadySent = false ∧ (∀ q ∈ (withReady t r).readies, q.value = stepVal t.clc.exts (r.step + BitVec.ofNat 32 (desc0 2 2).d))
      ∧ (∀ q ∈ (withReady t r).readies, flagNf q = false ∧ flagRepro q = false) :=
  ⟨⟨rfl, rfl, by decide +kernel, by decide, by decide⟩, by decide, by decide, by decide, ⟨rfl, rfl, by decide +kernel, by decide, by decide⟩, by decide, by decide, by decide, by decide⟩
/-- JOINs that differ in their digest and in their signature. -/
theorem wit_ClcSiteHead_differ : ∀ m, m = msgOf tyJoin 257 6 0 ∨ m = msgOf tyJoin 257 5 1 → Heard (head0 {}) m ∧ HeadOf (head0 {}) m ∧ allJoined (head0 {}) (desc0 2 2) m = false
    ∧ (m = msgOf tyJoin 257 6 0 → m.digest ≠ (desc0 2 2).digest ∧ m.asig = plan0.asig) ∧ (m = msgOf tyJoin 257 5 1 → m.digest = (desc0 2 2).digest ∧ ¬(m.asig = plan0.asig ∨ flagRepro m = true)) := by
  rintro m (rfl | rfl)
  · exact ⟨⟨rfl, rfl, by decide +kernel, by decide, by decide⟩, ⟨by decide, by decide, by decide⟩, by decide, fun _ => by decide, fun h => absurd (congrArg ClcMsg.asig h) (by decide)⟩
  · exact ⟨⟨rfl, rfl, by decide +kernel, by decide, by decide⟩, ⟨by decide, by decide, by decide⟩, by decide, fun h => absurd (congrArg ClcMsg.asig h) (by decide), fun _ => by decide⟩
/-- A RING with a seal, first and again, and a reply for another rank. -/
def outMsg (type : Byte) (src subj : BitVec 16) (outcome : Byte) (value : BitVec 32) : ClcMsg := sealMsg { msg0 with type := type, src := src, subj := subj, outcome := outcome, value := value }
theorem wit_ClcSiteHead_ring : let m := outMsg tyRing 256 0 1 0; let r := outMsg tyAbortReply 256 257 2 0
    Heard (head0 {}) m ∧ HeadOf (head0 {}) m ∧ m.outcome = 1 ∧ (instOf (head0 {}) m).recorded = false ∧ (desc0 2 2).m4 * (desc0 2 2).m5 < 99999
      ∧ (let s := head0 { insts := [{ coll := 0, step := 0, recorded := true }] }; Heard s m ∧ (instOf s m).recorded = true) ∧ Heard (head0 {}) r ∧ HeadOf (head0 {}) r ∧ r.subj.toNat ≠ myRank (head0 {}) :=
  ⟨⟨rfl, rfl, by decide +kernel, by decide, by decide⟩, ⟨by decide, by decide, by decide⟩, rfl, by decide, by decide, ⟨⟨rfl, rfl, by decide +kernel, by decide, by decide⟩, by decide⟩,
    ⟨rfl, rfl, by decide +kernel, by decide, by decide⟩, ⟨by decide, by decide, by decide⟩, by decide⟩

/-- The root with an instance: every site heard, a request held, and two of them. -/
def root0 (x : Inst) (js : List ClcMsg) : State := atRank 0 1 2 { insts := [x], siteJoins := js }
def inst0 : Inst := { coll := 0, step := 0 }
def heads2 (t : Byte) : List ClcMsg := [msgOf t 0 5 0, msgOf t 256 5 0]
theorem wit_ClcRoot : let x := { inst0 with siteReadies := heads2 tySiteReady }; let s := root0 x (heads2 tySiteJoin)
    let m := { msgOf tyAbortReq 256 0 0 with code := ceTimeout }; let q := { msgOf tyAbortReq 0 0 0 with code := ceMemberLost }
    curDesc s 0 = some (desc0 1 2) ∧ findInst s 0 0 = some x ∧ x.decision = none ∧ x.reqs = [] ∧ joinsMatched s (desc0 1 2) 0 = true ∧ (∀ h ∈ (desc0 1 2).heads, ∃ m ∈ x.siteReadies, m.src.toNat = h)
      ∧ (∀ r, let y := { inst0 with reqs := r, hold := true }; findInst (root0 y []) 0 0 = some y ∧ y.decision = none) ∧ m.code ≠ ceDescMismatch ∧ precedence q.code < precedence m.code ∧ q.code ≠ ceDescMismatch ∧ m.coll.toNat = 0 ∧ m.step = 0
      ∧ ¬(inst0.joined = true ∨ joinsMatched (root0 inst0 []) (desc0 1 2) 0 = true) :=
  ⟨rfl, by decide, rfl, rfl, by decide, by decide, fun r => ⟨by simp [findInst, root0, atRank, inst0], rfl⟩, by decide, by decide, by decide, rfl, rfl, by decide⟩
/-- What the root hears: a SITE_JOIN that agrees or not, a SITE_READY that completes the instance, leaves it open or differs, a RING that returns, a REBUILT. -/
theorem wit_ClcRoot_heard : (∀ type digest value, type ∈ ([tySiteJoin, tySiteReady, tyRing, tyRebuilt] : List Byte) → digest = 5 ∨ digest = 6 → value = 0 ∨ value = 7 →
      let m := sealMsg { msg0 with type := type, src := 256, digest := digest, value := value }; ∀ x ∈ ([inst0, { inst0 with siteReadies := [msgOf tySiteReady 0 5 0] }, { inst0 with decision := some ⟨false, 0, none, none, false⟩ }] : List Inst),
      let s := root0 x (heads2 tySiteJoin); Heard s m ∧ isRoot s = true ∧ m.coll.toNat = 0 ∧ m.step = 0 ∧ findInst s 0 0 = some x)
    ∧ (desc0 1 2).heads ≠ [] ∧ (∀ i ∈ (root0 inst0 []).clc.insts, i.coll = 0 → i.siteReadies = []) ∧ stepVal (root0 inst0 []).clc.grants (0 + BitVec.ofNat 32 (desc0 1 2).d) = 0
    ∧ (∀ h ∈ (desc0 1 2).heads, ∃ j ∈ ([msgOf tySiteReady 0 5 0, msgOf tySiteReady 256 5 0] : List ClcMsg), j.src.toNat = h) ∧ ¬(∀ h ∈ (desc0 1 2).heads, ∃ j ∈ ([msgOf tySiteReady 256 5 0] : List ClcMsg), j.src.toNat = h) := by
  refine ⟨?_, by decide, by decide, by decide, by decide, by decide⟩
  intro type digest value ht hd hv m x hx
  simp only [List.mem_cons, List.not_mem_nil, or_false] at ht hx
  refine ⟨⟨rfl, rfl, ?_, ?_, ?_⟩, rfl, rfl, rfl, ?_⟩ <;> rcases hx with rfl | rfl | rfl
  all_goals first
    | rfl
    | (rcases ht with rfl | rfl | rfl | rfl <;> rcases hd with rfl | rfl <;> rcases hv with rfl | rfl <;> decide +kernel)

theorem wit_ClcOutcome : inst0.recorded = false ∧ ({ inst0 with recorded := true } : Inst).recorded = true ∧ (root0 inst0 []).stn.place = .running ∧ (root0 inst0 []).stn.cur.isSome = true ∧ (root0 inst0 []).clc.abortInst = none := ⟨rfl, rfl, rfl, rfl, rfl⟩
/-- What a member, rank 257, and a head, rank 256, hear of outcomes; an EXT in time, and one for another step. -/
theorem wit_ClcOutcome_heard : ∀ rank, rank = 256 ∨ rank = 257 → ∀ type ∈ ([tyNotify, tyExt, tyAbortReply, tyRebuildReq, tyRebuilt, tySiteJoin, tySiteReady] : List Byte), let m := outMsg type 0 rank.toNat 1 9
    let s := atRank rank 2 2 { abortInst := some (0, 0) }
    Heard s m ∧ curDesc s m.coll.toNat = some (desc0 2 2) ∧ isRoot s = false ∧ isHead s = decide (rank = 256) ∧ s.stn.place = .running ∧ s.stn.step = m.step ∧ s.stn.stepRunning = true ∧ s.stn.inSeam = false ∧ s.stn.deadlineDone = false
      ∧ m.subj.toNat = myRank s ∧ s.clc.abortInst = some (m.coll.toNat, m.step) ∧ s.clc.abortMbox = none ∧ (atRank rank 2 2 {}).clc.abortInst ≠ some (m.coll.toNat, m.step) ∧ s.clc.spareNew = false
      ∧ ({ s with stn := { s.stn with step := 3 } } : State).stn.step ≠ m.step := by
  rintro rank (rfl | rfl) type h
  all_goals
    simp only [List.mem_cons, List.not_mem_nil, or_false] at h
    rcases h with rfl | rfl | rfl | rfl | rfl | rfl | rfl <;> exact ⟨⟨rfl, rfl, by decide +kernel, by decide, by decide⟩, rfl, by decide, by decide, rfl, rfl, rfl, rfl, rfl, by decide, rfl, rfl, by decide, rfl, by decide⟩
/-- A halted twin of the member that asks: rank 256 for rank 0, of a collective with D above 0. -/
theorem wit_ClcOutcome_twin : let m := outMsg tyRebuildReq 0 0 0 0; let c := { desc0 2 2 with d := 1 }
    let s : State := { State.reset with stn := { cur := some { planC 256 2 2 with descs := [c] }, place := .halted } }
    Heard s m ∧ s.stn.place = .halted ∧ curDesc s m.coll.toNat = some c ∧ c.mirror = false ∧ 0 < c.d ∧ twinOf c m.src.toNat = some (myRank s) :=
  ⟨⟨rfl, rfl, by decide +kernel, by decide, by decide⟩, rfl, rfl, rfl, by decide, by decide⟩

/-- The root in a step whose JOINs have fallen due. -/
def due0 (x : Inst) : State := { root0 x [] with stn := { (root0 x []).stn with begunTo := some 0, joined := [0] } }
theorem wit_ClcTimers : (∀ r m4 m6 c, Live (atRank r m4 m6 c) ∧ (atRank r m4 m6 c).se.role = 0) ∧ awaits (due0 inst0) 0 0 256 = true ∧ awaits (due0 inst0) 0 0 0 = false ∧ isRoot (root0 inst0 []) = true ∧ isRoot (head0 {}) = false
    ∧ (let d : Decision := ⟨false, 0, none, none, false⟩; let x := { inst0 with decision := some d }; let s := root0 x []
      (s.clc.rings ++ s.clc.insts).find? (fun i => decide (i.coll = 0) && decide (i.step = 0)) = some x ∧ x.ringBack = false ∧ nextHead (desc0 1 2) 0 (ringMsg s x d) ≠ 0)
    ∧ (let x := { inst0 with ringBack := true }; let s : State := { root0 inst0 [] with clc := { rings := [x], insts := [inst0] } }; (s.clc.rings ++ s.clc.insts).find? (fun i => decide (i.coll = 0) && decide (i.step = 0)) = some x)
    ∧ State.reset.clc.abortResult ≠ 0 ∧ ({ State.reset with clc := { abortResult := 0 } } : State).clc.abortResult = 0 ∧ hasInstance State.reset 0 0 = false ∧ hasInstance (due0 inst0) 0 (due0 inst0).clc.abortStep = true :=
  ⟨fun _ _ _ _ => ⟨rfl, rfl⟩, by decide, by decide, by decide, by decide, ⟨by decide, rfl, by decide +kernel⟩, by decide, by decide, rfl, by decide, by decide⟩
/-- A hold at its end, and the mailbox command, with a result that waits and without. -/
theorem wit_ClcTimers_hold : let m := { msgOf tyAbortReq 256 0 0 with code := ceTimeout }; let x := { inst0 with reqs := [m], hold := true }; let s := root0 x []
    isRoot s = true ∧ curDesc s 0 = some (desc0 1 2) ∧ findInst s 0 0 = some x ∧ x.reqs = [m] ∧ x.hold = true ∧ x.decision = none ∧ x.recorded = false ∧ m.code ≠ ceDescMismatch ∧ s.stn.place = .running ∧ s.clc.abortInst = none :=
  ⟨by decide, rfl, by decide, rfl, rfl, rfl, rfl, by decide, rfl, rfl⟩
theorem wit_ClcTimers_mailbox : (∀ r args, Accepted { demo sess0 with clc := { abortResult := r } } (recFor 0x41 args) (needs 0x0041 true false [rdyClc]) args 0 sess0) ∧ (63 : BitVec 8).toNat < 64 ∧ 64 ≤ (64 : BitVec 8).toNat :=
  ⟨fun _ _ => accepted rfl rfl rfl rfl rfl rfl (by decide), by decide, by decide⟩

/-! ## Straightedge, Plumb, HBM and Lath -/

def pairS (role : BitVec 2) (rs : List SeSlotRec) : State := { State.reset with se := { role := role, recs := rs }, stn := { cur := some plan0 } }
def slotRec (d : Option (BitVec 64)) : SeSlotRec := { step := 0, slot := 0, engine := 63, digest := d, dests := [⟨1, 0, 0, 7⟩] }
theorem wit_PairLink : Live State.reset ∧ (pairS 2 []).se.role = 2 ∧ (⟨0, true⟩ : PairHdr).crcOk = true ∧ (⟨0, false⟩ : PairHdr).crcOk = false ∧ (1 : BitVec 8).toNat ≠ (pairS 2 []).se.role.toNat ∧ (2 : BitVec 8).toNat = (pairS 2 []).se.role.toNat
    ∧ (1 : BitVec 32) ≠ topAsig (pairS 2 []) ∧ (1 : BitVec 64) ≠ imageHash (pairS 2 []) ∧ Still (unitQueue { pairS 2 [] with se := { role := 2, rxSeq := some 0 } } 15 []) ∧ (withPlan (some plan0) .armed none).stn.place ≠ .none
    ∧ State.reset.stn.place = .none ∧ State.reset.stn.next = none :=
  ⟨rfl, rfl, rfl, rfl, by decide, by decide, by decide, by decide, ⟨rfl, by decide⟩, by decide, rfl, rfl⟩
theorem wit_PairSlots : findSlot (pairS 1 []) 0 0 63 = none
    ∧ (let r := slotRec (some 9); findSlot (pairS 1 [r]) 0 (0xFFFF#16 + 1).toNat 63 = some r ∧ r.compared = false ∧ r.unchecked = false ∧ r.digest = some 9 ∧ r.lost = false)
    ∧ (let r := { slotRec (some 9) with lost := true }; findSlot (pairS 1 [r]) 0 0 63 = some r ∧ r.lost = true)
    ∧ (let r := { slotRec (some 9) with diverged := true, peerCount := 2 }; findSlot (pairS 1 [r]) 0 0 63 = some r ∧ r.diverged = true ∧ r.agree = (0 : BitVec 32).toNat ∧ r.dests[0]? = some ⟨1, 0, 0, 7⟩ ∧ r.agree + 1 ≠ r.peerCount)
    ∧ (pairS 1 []).se.cap = none ∧ seBefore (pairS 1 []) (1, 0, 0) (0, 1, 1) = false ∧ seBefore (pairS 1 []) (0, 0, 0) (0, 0, 1) = true :=
  ⟨by decide, ⟨by decide, rfl, rfl, rfl, rfl⟩, ⟨by decide, rfl⟩, ⟨by decide, rfl, rfl, rfl, by decide⟩, rfl, by decide, by decide⟩

def srcs (l : List (Nat × Src)) : State := { State.reset with plb := { srcs := l } }
theorem wit_SourceSelection : bestSource (srcs [(0, { qualified := true }), (17, { qualified := true, prio := 0 })]) = some 17 ∧ bestSource (srcs [(3, { qualified := true }), (17, { qualified := true })]) = some 3 ∧ bestSource State.reset = none
    ∧ (State.reset.src 18).en = false ∧ (reselect (srcs [(0, { qualified := true })])).plb.selected = some 0 ∧ (srcs []).plb.selected ≠ some 0 := by
  refine ⟨by decide, by decide, by decide, by decide, by decide, by decide⟩
theorem wit_TimeSteering : Live State.reset ∧ State.reset.stn.place ≠ .running ∧ State.reset.plb.launchTick = false ∧ (running0 stn0 0).stn.place = .running ∧ ({ State.reset with plb := { launchTick := true } } : State).plb.launchTick = true
    ∧ (∀ en, let s : State := { State.reset with plb := { stepAsked := true, stepVal := 5, trigs := [(0, { en := en, target := 1 })] } }
      s.plb.stepAsked = true ∧ s.stn.place ≠ .running ∧ (en = false → (s.trig 0).en = false) ∧ (en = true → (s.trig 0).en = true ∧ due ({ s with plb := { s.plb with time := (s.plb.time + unitNs) % (2 ^ 48 * unitSec) } } : State).count (s.trig 0).target = true))
    ∧ nominalInc - nominalInc / 5000 ≤ (BitVec.ofNat 40 (nominalInc + nominalInc / 5000)).toNat ∧ (BitVec.ofNat 40 (nominalInc + nominalInc / 5000)).toNat ≤ nominalInc + nominalInc / 5000
    ∧ (∀ st, ({ State.reset with plb := { swMode := true, swLock := true, ppsOutEn := true, st := st } } : State).plb.st = st) :=
  ⟨rfl, by decide, rfl, rfl, rfl, fun en => by cases en <;> decide, by decide, by decide, fun _ => rfl⟩
/-- Two masters: the better one has the lower clock class, and another one would be chosen over it. -/
def ann (class_ : BitVec 8) : AnnounceSet := ⟨128, class_, 0x20, 0, 128, 1, 0⟩
theorem wit_TimeSources_masters : bestMaster [(5, ann 7)] = some 5 ∧ bestMaster [(5, ann 7), (6, ann 6)] = some 6 ∧ bestMaster [(5, ann 7), (6, ann 6)] ≠ some 5 ∧ ¬ (255 : BitVec 16).toNat < 255 := by decide
/-- A device that follows master 5, with an exchange under way, a far source heard and one that calibrates. -/
def timed : State := { State.reset with plb := { srcs := [(0, { en := true, asymValid := true }), (2, { sent := [(7, 0)] }), (17, { calibrating := true, calCount := 1 })], master := some 5, pathDelay := some 3, syncDiff := some 4, delayReq := some (1, 0) } }
theorem wit_TimeSources : Live timed ∧ (timed.src 0).en = true ∧ timed.plb.master = some 5 ∧ timed.plb.pathDelay = some 3 ∧ timed.plb.delayReq = some (1, 0) ∧ timed.plb.syncDiff = some 4 ∧ (State.reset.src 0).en = false
      ∧ (0 : BitVec 8).toNat = ptpDomain timed ∧ (1 : BitVec 8).toNat ≠ ptpDomain timed ∧ timed.plb.master ≠ some 6
      ∧ (timed.src 2).suspended = false ∧ (timed.src 2).sent.any (fun p => decide (p.1 = 7) && decide (timed.plb.run ≤ p.2 + unitSec)) = true ∧ (timed.src 2).sent.any (fun p => decide (p.1 = 8) && decide (timed.plb.run ≤ p.2 + unitSec)) = false
      ∧ (timed.src 0).qualified = false ∧ timed.plb.ppsTodValid = false ∧ (timed.src 17).calibrating = true ∧ 0 < (timed.src 17).calCount ∧ (timed.src 18).calibrating = false := by
  refine ⟨rfl, by decide, rfl, rfl, rfl, rfl, by decide, by decide, by decide, by decide, by decide, by decide, by decide, by decide, rfl, by decide, by decide, by decide⟩
/-- Edges of PPS_IN one second apart, the second 1,000 ns late and accepted in FREERUN; rates of REF10M_IN over 16 s, and one that is 50 ppm off and a little more. -/
theorem wit_TimeSources_edges : (let s : State := { State.reset with plb := { srcs := [(1, { en := true })], ppsTodValid := true, ppsTod := 1, lastEdge := some 0 } }; let te : Int := ((unitSec + 1000 * unitNs : Nat) : Int) - s.plb.ppsInAdj.toInt * unitNs
      (s.src 0).qualified = false ∧ s.plb.ppsTodValid = true ∧ s.plb.lastEdge = some 0 ∧ (te - ((0 : Nat) : Int) - ((unitSec : Nat) : Int)).natAbs ≤ 1000 * unitNs ∧ (s.src 1).en = true
        ∧ inWindow s 1 (((s.plb.ppsTod.toNat : Nat) : Int) * ((unitSec : Nat) : Int) - te) = true)
    ∧ refMeets (16 * unitSec) [(16 * unitSec, 50000000), (0, 49999000)] = true ∧ refMeets (16 * unitSec) [(16 * unitSec, 50000001), (0, 50000001)] = false ∧ refMeets (16 * unitSec) [(16 * unitSec, 0), (1, 0)] = false
    ∧ ({ State.reset with plb := { freqHold := true } } : State).plb.freqHold = true :=
  ⟨by decide, by decide, by decide, by decide, rfl⟩

theorem wit_TileStore : Mem.wf State.reset.hbm.bytes = true ∧ (List.replicate 4096 (0 : Byte)).length ≤ 4096 ∧ (2 : BitVec 2) ≠ 3
    ∧ (let s : State := { State.reset with hbm := { hard := [255] } }; 255 ∈ s.hbm.hard ∧ 4096 / 4096 * 128 ≤ 255 ∧ 255 < 4096 / 4096 * 128 + (s.htag 4096).bursts) :=
  ⟨rfl, by rw [List.length_replicate] <;> decide, by decide, by decide⟩
def stackIn (st : BitVec 3) : State := { State.reset with hbm := { stackTab := [(31, { st := st })] }, slr := { xts := 0xF, drbg := true }, pwr := { railsGood := true, resetN := true } }
theorem wit_StackEvents : (∀ st, Live (stackIn st) ∧ ((stackIn st).stack 31).st = st ∧ isUp (stackIn st) = true ∧ (stackIn st).pwr.level = 0 ∧ (stackIn st).slr.xts.getLsbD (31 / 8) = true)
    ∧ (let b : BitVec 40 := BitVec.ofNat 40 (3 * quadBytes + 7 * 4096); let s : State := { stackIn 2 with hbm := { stackTab := [(31, { st := 2 })], writeback := [b.toNat / 32] } }
      stackOf b.toNat = 31 ∧ (s.stack 31).st = 2 ∧ s.hbm.writeback.contains (b.toNat / 32) = true) ∧ State.reset.slr.xts.getLsbD 3 = false :=
  ⟨fun _ => ⟨rfl, rfl, rfl, rfl, by show (0xF : BitVec 4).getLsbD 3 = true; decide⟩, by decide +kernel, by decide⟩

def owned (o : Option Owner) (f : Option Fence) : State := { State.reset with lth := { owners := [(0, o)], fence := f }, top := { hbm := 0xFF } }
theorem wit_LathCommands : Live State.reset ∧ State.reset.lth.busy = false ∧ State.reset.lth.queue = [] ∧ State.reset.lth.fence = none ∧ handleOk State.reset.lth 0 = true ∧ handleOk State.reset.lth 0xFFFFFFFF = false
    ∧ ownerOf State.reset.lth 0 = none ∧ ownerOf (owned (some ⟨0, 7⟩) none).lth 0 = some ⟨0, 7⟩ := ⟨rfl, rfl, rfl, rfl, by decide +kernel, by decide +kernel, rfl, rfl⟩
theorem wit_LathEffects : (grantBuffer (owned (some ⟨0, 7⟩) none) ⟨0, 8⟩ 0 0).1 = some 1 ∧ (grantBuffer (owned (some ⟨0, 7⟩) none) ⟨0, 8⟩ 0 1).1.isSome = true ∧ legFrames State.reset.lth 1 + legFrames State.reset.lth 2 + legFrames State.reset.lth 3 + legFrames State.reset.lth 4 ≤ 3137536
    ∧ Tab.wf none (owned (some ⟨0, 7⟩) none).lth.owners = true ∧ quadReady State.reset 3 = false ∧ handlePool 0 ≠ 1 ∧ (⟨1, 7⟩ : Owner) ≠ ⟨0, 7⟩ ∧ inUse (owned (some ⟨0, 7⟩) none) ⟨0, 7⟩ = false
    ∧ inUse { owned (some ⟨0, 7⟩) none with stn := { cur := some plan0 } } ⟨0, 7⟩ = true ∧ holdsAny (owned (some ⟨0, 7⟩) none).lth ⟨0, 8⟩ = false :=
  ⟨by decide +kernel, by decide +kernel, by decide, by decide, by decide, by decide, by decide, by decide, by decide, by decide⟩
def fence0 : Fence := ⟨⟨0, 7⟩, 1, 0, true, false, false, false⟩
theorem wit_LathFence_host : (∀ b args, Accepted (demo sess0) (recFor 0x40 args) (lathNeeds b) args 0 sess0) ∧ rec0.hcs ≠ 2 :=
  ⟨fun b _ => by cases b <;> exact accepted rfl rfl rfl rfl rfl rfl (by decide), by decide⟩
theorem wit_LathFence : Live (owned (some ⟨0, 7⟩) (some fence0)) ∧ (owned (some ⟨0, 7⟩) (some fence0)).lth.fence = some fence0 ∧ (2 : BitVec 16) ≠ fence0.epoch ∧ fence0.skm = true ∧ fence0.engines = 0
    ∧ fence0.mnd = false ∧ fence0.rnd = false ∧ fence0.host = false ∧ fence0.done = false ∧ (owned (some ⟨0, 7⟩) (some fence0)).lth.queue = [] ∧ ownerOf (owned (some ⟨0, 7⟩) (some fence0)).lth 1 ≠ some fence0.owner
    ∧ Tab.wf none (owned (some ⟨0, 7⟩) (some fence0)).lth.owners = true ∧ State.reset.lth.owners = [] ∧ (3137536 - 1048576 + 1048576 ≤ 3137536)
    ∧ ({ State.reset with lth := { busy := true } } : State).lth.busy = true ∧ State.reset.lth.busy = false ∧ State.reset.lth.queue = [] ∧ State.reset.lth.fence = none :=
  ⟨rfl, rfl, by decide, rfl, rfl, rfl, rfl, rfl, by decide, rfl, by decide, by decide, rfl, by decide, rfl, rfl, rfl, rfl⟩

/-! ## Render, MND and Sealer -/

/-- A bond 15 of port 15, with lane 127 and its inner lane as given. -/
def farS (x : RLane) (y : MLane) : State := { State.reset with rnd := { bonds := [(15, { en := true, ports := 0x8000, minLanes := 1, dbond := 200000 })], lanes := [(127, x)] }, mnd := { lanes := [(127, y)] } }
theorem wit_FarLanes : (∀ x y, Live (farS x y) ∧ (farS x y).lane 127 = x ∧ bondOfLane (farS x y) 127 = bondOfLane (farS {} {}) 127) ∧ bondOfLane (farS {} {}) 127 = some 15 ∧ bondOfLane State.reset 127 = none ∧ ((farS {} {}).bond 15).en = true ∧ (State.reset.bond 15).en = false
    ∧ (({} : RLane).hunt false 1).inFrame = false ∧ (let t := boundary (farS { inFrame := true, ranged := true } {}) 15 1; 127 ∈ bondLanes t 15 ∧ (t.lane 127).inSvc = true) :=
  ⟨fun _ _ => ⟨rfl, rfl, rfl⟩, by decide, by decide, rfl, rfl, by decide, by decide +kernel⟩
/-- A v2 frame's overhead at a position. -/
def ohFrame (mfn fn : Nat) : List Byte :=
  let oh := ([BitVec.ofNat 8 fn] : List Byte) ++ beBytes 2 mfn ++ [0, 0x20] ++ zeros 49
  beBytes 6 0x3AC5965B0FE1 ++ oh ++ beBytes 4 (crc32c oh).toNat
/-- Octets of a lane in SEARCH: none of a frame; the start of one; one that nothing confirms; and one at 2^24 - 1 that the next, at 0, confirms. -/
def starts (b : List Byte) : Prop := let head := b.take 64; head.take 6 = fawOf false ∧ ohcrcOk head = true ∧ beAt head 10 1 / 16 = 2
def confirmed (b : List Byte) : Prop := let head := b.take 64; let next := slice b 16384 64; next.take 6 = fawOf false ∧ ohcrcOk next = true ∧ overheadPos next = (overheadPos head + 1) % 2 ^ 24
def lone : List Byte := ohFrame 0xFFFF 0xFF ++ zeros 16384
def two : List Byte := ohFrame 0xFFFF 0xFF ++ zeros 16320 ++ ohFrame 0 0
theorem wit_FarLanes_search : isV1 (farS {} {}) 15 = false ∧ (zeros 64).length = 64 ∧ ¬ starts (zeros 64) ∧ starts (ohFrame 0xFFFF 0xFF) ∧ (ohFrame 0xFFFF 0xFF).length = 64
    ∧ starts lone ∧ lone.length = 16448 ∧ ¬ confirmed lone ∧ starts two ∧ two.length = 16448 ∧ confirmed two := by
  unfold starts confirmed
  exact ⟨by decide, by decide +kernel, by decide +kernel, by decide +kernel, by decide +kernel, by decide +kernel, by decide +kernel, by decide +kernel, by decide +kernel, by decide +kernel, by decide +kernel⟩
/-- Octets of a lane in frame: a good frame at 0, and one with neither FAW nor OHCRC. -/
theorem wit_FarLanes_frames : (let b := (ohFrame 0 0 ++ zeros 16320).take 16384; b.length = 16384 ∧ ohcrcOk b = true ∧ overheadPos b = 0 ∧ bitDiff (b.take 6) (fawOf false) ≤ 2)
    ∧ (let b := (zeros 16384).take 16384; b.length = 16384 ∧ ohcrcOk b = false ∧ 2 < bitDiff (b.take 6) (fawOf false)) ∧ (5 : Nat) ≠ 0 := by
  refine ⟨⟨by decide +kernel, by decide +kernel, by decide +kernel, by decide +kernel⟩, ⟨by decide +kernel, by decide +kernel, by decide +kernel⟩, by decide⟩
/-- A good FAW over a damaged overhead. -/
theorem wit_FarLanes_damaged : let b := (fawOf false ++ zeros 16378).take 16384; b.length = 16384 ∧ ohcrcOk b = false ∧ bitDiff (b.take 6) (fawOf false) ≤ 2 := by
  refine ⟨by decide +kernel, by decide +kernel, by decide +kernel⟩
/-- A ranging message that passes; a delay that steps. -/
def ranging0 : List Byte := let b : List Byte := 1 :: zeros 11; b ++ beBytes 4 (crc32c b).toNat
theorem wit_FarLanes_ranging : (ranging0.length = 16 ∧ ranging0.headD 0 = 1 ∧ crc32c (ranging0.take 12) = BitVec.ofNat 32 (beAt ranging0 12 4)) ∧ 50000 < ((50001 : BitVec 32).toInt - (0 : BitVec 32).toInt).natAbs := ⟨by decide +kernel, by decide⟩

def tribS (x : Trib) : State := { State.reset with rnd := { tribs := [(3, x)], bonds := [(15, { en := true, ports := 0x8000 })] }, pwr := { railsGood := true, resetN := true } }
theorem wit_FarSettings : Live (tribS {}) ∧ (tribS {}).trib 3 = {} ∧ (∀ o r, ((tribS { dropFifo := o :: r }).trib 3).dropFifo = o :: r) ∧ isUp (tribS {}) = true ∧ isUp State.reset = false ∧ (State.reset.trib 3).dropFifo = []
    ∧ (List.replicate 8191 (0 : Byte)).length < 8192 ∧ 8192 ≤ (List.replicate 8192 (0 : Byte)).length
    ∧ groupOctet false (idleGroup false) = none ∧ groupOctet false (dataGroup false 0xB5) = some 0xB5
    ∧ (let v := 0x8F000000#32 + 100000#32; v.getLsbD 31 = true ∧ ((tribS {}).bond (bitsOf v.toNat 27 24)).en = true ∧ bitsOf v.toNat 16 0 ≤ 100000 ∧ 100000 < bitsOf (v + 1).toNat 16 0 ∧ ¬ ∃ d, d < 4 ∧ d ≠ 3 ∧ ((tribS {}).trib d).en = true ∧ ((tribS {}).trib d).bond.toNat = 15)
    ∧ (∃ b, b < 16 ∧ ((tribS {}).bond b).en = true ∧ ((tribS {}).bond b).ports.getLsbD 15 = true) ∧ ¬ (∃ b, b < 16 ∧ (State.reset.bond b).en = true ∧ (State.reset.bond b).ports.getLsbD 15 = true) :=
  ⟨rfl, rfl, fun _ _ => rfl, by decide, by decide, rfl, by rw [List.length_replicate] <;> decide, by rw [List.length_replicate] <;> decide, by decide +kernel, by decide +kernel, by decide, ⟨15, by decide, rfl, by decide⟩, by decide⟩
theorem wit_FarSettings_bond : let v := 0x80018000#32
    let forbidden := fun (s : State) (w : BitVec 32) => (∃ c, c < 16 ∧ c ≠ 0 ∧ (s.bond c).en = true ∧ (s.bond c).ports &&& w.setWidth 16 ≠ 0) ∨ (∃ p q, p < 16 ∧ q < 16 ∧ (w.setWidth 16 : BitVec 16).getLsbD p = true ∧ (w.setWidth 16 : BitVec 16).getLsbD q = true ∧ (s.rport p).v1 ≠ (s.rport q).v1)
      ∨ bitsOf w.toNat 23 16 = 0 ∨ 8 * (portsOf (w.setWidth 16)).length < bitsOf w.toNat 23 16 ∨ (hasBudget s 0x04 0 = true ∨ hasBudget s 0x05 0 = true ∨ hasBudget s 0x07 0 = true)
    forbidden (tribS {}) v ∧ forbidden State.reset 0x80008000 ∧ forbidden State.reset 0x80098000 ∧ ¬ forbidden State.reset v
      ∧ (let b := (tribS {}).bond 15; b.en = true ∧ bondForbidden (tribS {}) 15 b.ports b.minLanes.toNat = true) := by
  refine ⟨.inl ⟨15, by decide, by decide, rfl, by decide⟩, .inr (.inr (.inl (by decide))), .inr (.inr (.inr (.inl (by decide)))), ?_, rfl, by decide⟩
  rintro (⟨c, _, _, h, _⟩ | ⟨p, q, _, _, _, _, h⟩ | h | h | h)
  · exact Bool.false_ne_true h
  · exact h rfl
  · exact absurd h (by decide)
  · exact absurd h (by decide)
  · revert h; decide
/-- The codeword of zeros under CWN 1, its parity worked out outside this model; the levels of it, of one with 44 wrong symbols, and levels that are no codeword's. -/
def goodWord : List Nat := [842, 769] ++ List.replicate 512 0 ++ [525, 538, 74, 215, 342, 5, 255, 1006, 357, 474, 432, 524, 120, 478, 498, 9, 308, 636, 771, 357, 787, 839, 983, 482, 834, 360, 290, 247, 937, 708]
def goodLevels : List (BitVec 2) := (sendLevels false 0 goodWord).1
def badLevels : List (BitVec 2) := (sendLevels false 0 (goodWord.take 500 ++ List.replicate 44 5)).1
def flatLevels : List (BitVec 2) := List.replicate 2720 0
def reads (p : Nat) (c : BitVec 8) (k : Option (Fin 16)) (w : Codeword) : Bool := match w with | ⟨p', c', k', _⟩ => decide (p' = p) && decide (c' = c) && decide (k' = k)
theorem of_reads {p c k w} (h : reads p c k w = true) : w.patternErrors = p ∧ w.cwn = c ∧ w.corrected = k := by
  cases w; simp only [reads, Bool.and_eq_true, decide_eq_true_eq] at h; exact ⟨h.1.1, h.1.2, h.2⟩
theorem good_reads : reads 0 1 (some 0) (({} : MLane).word goodLevels) = true := by decide +kernel
theorem bad_reads : reads 0 1 none (({} : MLane).word badLevels) = true := by decide +kernel
theorem flat_reads : (({} : MLane).word flatLevels).patternErrors = 7 := by
  have h : ∀ w, (readCodeword w).patternErrors = ones12 (((w.getD 0 0 * 1024 + w.getD 1 0) / 256) ^^^ markerPattern) := fun w => by rw [readCodeword]; split <;> rfl
  have z : ((levelSymbols false 0 flatLevels).getD 0 0, (levelSymbols false 0 flatLevels).getD 1 0) = (0, 0) := by decide +kernel
  rw [MLane.word, h, show (levelSymbols false 0 flatLevels).getD 0 0 = 0 from congrArg Prod.fst z, show (levelSymbols false 0 flatLevels).getD 1 0 = 0 from congrArg Prod.snd z]
  decide
theorem word_same {x : MLane} (l : List (BitVec 2)) (h1 : x.precode = false) (h2 : x.rxLast = 0) : x.word l = ({} : MLane).word l := by rw [MLane.word, MLane.word, h1, h2]
/-- A lane of a bond, in each state that a codeword finds it in. -/
theorem wit_LineSide_codewords : (∀ x, (farS {} x).mlane 127 = x ∧ (farS {} x).lane 127 = {} ∧ (bondOfLane (farS {} x) 127).isSome = true)
    ∧ (∀ l, ({} : MLane).word l = ({} : MLane).word l ∧ (({} : MLane).heard l).locked = false ∧ ((({} : MLane).heard l).search (({} : MLane).word goodLevels)).locked = false)
    ∧ (let x : MLane := { good := 2, lastCwn := 0 }; (∀ l, (x.heard l).locked = false ∧ 2 ≤ (x.heard l).good) ∧ (x.word goodLevels).cwn = x.lastCwn + 1 ∧ (x.word goodLevels).patternErrors = 0 ∧ ((x.heard goodLevels).search (x.word goodLevels)).locked = true)
    ∧ (let x : MLane := { locked := true }; (∀ l, (x.heard l).locked = true ∧ (x.heard l).badWords < 7) ∧ (x.word goodLevels).corrected = some 0 ∧ (x.word goodLevels).patternErrors ≤ 2 ∧ ((x.heard goodLevels).decode (x.word goodLevels)).locked = true
        ∧ (x.word badLevels).corrected = none ∧ (x.word badLevels).patternErrors ≤ 2)
    ∧ (let x : MLane := { locked := true, badWords := 7 }; (x.word badLevels).corrected = none ∧ 7 ≤ (x.heard badLevels).badWords ∧ ((x.heard badLevels).decode (x.word badLevels)).locked = false)
    ∧ (let x : MLane := { locked := true, badMarks := 3 }; 2 < (x.word flatLevels).patternErrors ∧ 3 ≤ (x.heard flatLevels).badMarks) := by
  obtain ⟨g1, g2, g3⟩ := of_reads good_reads
  obtain ⟨b1, _, b2⟩ := of_reads bad_reads
  have f1 := flat_reads
  refine ⟨fun x => ⟨rfl, rfl, by rw [show bondOfLane (farS {} x) 127 = bondOfLane (farS {} {}) 127 from rfl]; decide⟩, fun l => ⟨rfl, rfl, ?_⟩, ⟨fun l => ⟨rfl, Nat.le_refl _⟩, ?_, ?_, ?_⟩, ⟨fun l => ⟨rfl, (by decide : 0 < 7)⟩, ?_, ?_, ?_, ?_, ?_⟩, ⟨?_, Nat.le_refl _, ?_⟩, ?_, Nat.le_refl _⟩
  all_goals rw [word_same _ rfl rfl]
  · rw [MLane.search, if_neg (by rw [g1]; decide), g2]; rfl
  · rw [g2]; rfl
  · exact g1
  · rw [MLane.search, if_neg (by rw [g1]; decide), g2]; rfl
  · exact g3
  · rw [g1]; decide
  · rw [MLane.decode, g3]; simp only [g1]; decide
  · exact b2
  · rw [b1]; decide
  · exact b2
  · rw [MLane.decode, b2]; simp only [b1]; rfl
  · rw [f1]; decide
/-- Engine 7 in a SAFETY state with colour 31 as given. -/
def nearS (sf : Safety) (y : Colour) : State := { State.reset with phn := { engines := [(7, { safety := sf, colours := [(31, y)] })] }, stn := { cur := some plan0 } }
def ringAt (st : RingSt) : Ring := { st := st }
theorem wit_LineSide_near : (∀ sf y, Live (nearS sf y) ∧ (nearS sf y).col 7 31 = y) ∧ listens (nearS .normal { rx := ringAt .inService }) 7 31 = true ∧ listens (nearS .normal {}) 7 31 = false := ⟨fun _ _ => ⟨rfl, rfl⟩, by decide, by decide⟩
/-- A bond that sends, keyed and not; one that misses a frame. -/
def bondS (m : MBond) (k : SBond) (ls : List (Nat × RLane)) : State := { State.reset with rnd := { bonds := [(15, { en := true, ports := 0x8000, minLanes := 1 })], lanes := ls }, mnd := { bonds := [(15, m)] }, slr := { bonds := [(15, k)] } }
theorem wit_LineSide_bonds : ((bondS {} {} []).bond 15).en = true ∧ dataLanes (bondS {} {} []) 15 ≠ 0 ∧ shadowQuiet (bondS {} {} []) 15 = false ∧ ((bondS {} {} []).sbond 15).activeTx.filter (fun e => (((bondS {} {} []).sbond 15).tx e).sends) = none
    ∧ ((bondS {} { tx1 := { st := 2, nctr := 2 ^ 40 - 1 } } []).sbond 15).activeTx.filter (fun e => (((bondS {} { tx1 := { st := 2, nctr := 2 ^ 40 - 1 } } []).sbond 15).tx e).sends) = some 1
    ∧ (∀ m : Missing, m.seq = 5 → ((bondS { missing := [m] } {} []).mbond 15).missing.find? (fun n => decide (n.seq = 5)) = some m) ∧ (({} : MBond).missing.find? (fun n => decide (n.seq = 5))) = none
    ∧ max 1 (3 : BitVec 4).toNat ≤ 3 ∧ 2 < max 1 (3 : BitVec 4).toNat ∧ ({ seq := 5, tries := 3, tag := 0, since := some 0 } : Missing).since ≠ none
    ∧ oldestPos State.reset 15 = none ∧ State.reset.mnd.move = none ∧ (bondLanes (bondS {} {} []) 15).length ≤ (8 : BitVec 8).toNat ∧ ¬ ((bondLanes (bondS {} {} []) 15).length ≤ (7 : BitVec 8).toNat)
    ∧ parityLanes {} < ({} : MBond).eLast + 1 ∧ ({ m := 1 } : MBond).eLast + 1 ≤ parityLanes { m := 1 } ∧ isV1 { State.reset with rnd := { ports := [(0, { v1 := true })] } } 15 = true := by
  refine ⟨rfl, by decide, by decide, by decide, by decide +kernel, fun m h => by simp [bondS, State.mbond, Tab.get, h], rfl, by decide, by decide, by decide, by decide, rfl, by decide, by decide, by decide, by decide, by decide⟩
/-- A port of no enabled bond, and one that bond 15 has; a bond without data lanes, and one that a SHADOW keeps silent. -/
theorem wit_LineSide_silent : (let s : State := { bondS {} {} [] with pwr := { railsGood := true, resetN := true } }
      (s.bond 0).en = false ∧ (∀ c, c < 16 → (s.bond c).en = true → (s.bond c).ports.getLsbD 0 = false) ∧ s.se.role ≠ 2 ∧ isUp s = true)
    ∧ (let s : State := { State.reset with rnd := { bonds := [(15, { en := true, ports := 1 })] } }; (s.bond 0).en = false ∧ ∃ c, c < 16 ∧ (s.bond c).en = true ∧ (s.bond c).ports.getLsbD 0 = true)
    ∧ (State.reset.bond 0).en = false ∧ isUp State.reset = false ∧ ({ State.reset with se := { role := 2 } } : State).se.role = 2
    ∧ (let s : State := { State.reset with rnd := { bonds := [(15, { en := true })] } }; (s.bond 15).en = true ∧ dataLanes s 15 = 0) ∧ shadowQuiet { bondS {} {} [] with se := { role := 2 } } 15 = true :=
  ⟨⟨by decide, by decide, by decide, by decide⟩, ⟨by decide, 15, by decide, by decide, by decide⟩, by decide, by decide, rfl, ⟨rfl, by decide⟩, by decide⟩
/-- Eight lanes that hold a position, whole, with a byte that breaks the parity, and with every frame but one erased. -/
def heldAt (i : Nat) (er : Bool) (v : Byte) : Nat × RLane :=
  (120 + i, { inFrame := true, ranged := true, frames := [⟨5, BitVec.ofNat 8 i, [v], false, true, er, 0, 0, 0, 0, 0, 0, false⟩] })
def holding (er : Bool) (v : Byte) : State := bondS { m := 1 } {} ((List.range 8).map fun i => heldAt i (er && decide (i ≠ 0)) (if i = 3 then v else 0))
theorem wit_LineSide_release : (∀ v : Byte, v = 0 ∨ v = 1 → let s := holding false v; let held : Nat → Option HeldFrame := fun i => (heldFrames s 15 5).getD i none
      oldestPos s 15 = some 5 ∧ ((List.range (bondLanes s 15).length).all fun i => match held i with | some f => !f.flagged && !f.erased | none => false) = true ∧ (s.mbond 15).cfgMm = false ∧ (s.mbond 15).mmBad < 3
        ∧ (stripeDecode (parityLanes (s.mbond 15)) 16320 ((List.range (bondLanes s 15).length).map fun i => match held i with | some f => f.payload | none => []) []).2 = decide (v = 0))
    ∧ (let s := holding true 0; let held : Nat → Option HeldFrame := fun i => (heldFrames s 15 5).getD i none
      oldestPos s 15 = some 5 ∧ parityLanes (s.mbond 15) < ((List.range (bondLanes s 15).length).filter fun i => match held i with | some f => f.flagged || f.erased | none => true).length
      ∧ ∃ i f, i < (bondLanes s 15).length ∧ held i = some f ∧ f.erased = false) := by
  refine ⟨?_, by decide +kernel, by decide +kernel, ?_⟩
  · rintro v (rfl | rfl) <;> exact ⟨by decide +kernel, by decide +kernel, by decide +kernel, by decide +kernel, by decide +kernel⟩
  · exact ⟨0, _, by decide, rfl, rfl⟩
theorem wit_LineSide_moves : ∀ (r : Bool) (q : MboxRec × BitVec 64), let v : Move := ⟨15, 7, r, some q⟩; let s : State := { bondS {} {} [] with mnd := { move := some v } }
    s.mnd.move = some v ∧ bondLanes s v.bond = bondLanes (bondS {} {} []) 15 ∧ (bondLanes (bondS {} {} []) 15).getD 7 0 = 127 ∧ (s.lane 127).rdiRx = false ∧ (s.lane 127).retired = false := fun _ _ => ⟨rfl, rfl, by decide, rfl, rfl⟩

/-- KEY_READY for the LOADED slot 1. -/
def keyMsg : List Byte := let b : List Byte := ([0, 0, 1, 0] : List Byte) ++ beBytes 8 9; b ++ beBytes 4 (crc32c b).toNat
theorem wit_KeySlots : keyMsg.length = 16 ∧ beAt keyMsg 2 1 = 1 ∧ crc32c (keyMsg.take 12) = BitVec.ofNat 32 (beAt keyMsg 12 4) ∧ (zeros 16).length = 16 ∧ beAt (zeros 16) 2 1 ≠ 1
    ∧ (let x : SBond := { tx1 := { st := 1, id := 9 }, switchTo := some 1, rx0 := { st := 3 } }; (x.tx 1).st = 1 ∧ (x.tx 1).id = BitVec.ofNat 64 (beAt keyMsg 4 8) ∧ (x.tx 0).st ≠ 1 ∧ ((bondS {} x []).sbond 15).switchTo = some 1 ∧ ((bondS {} x []).sbond 15).rx 0 = { st := 3 })
    ∧ (let x : SBond := { switchTo := some 1 }; ((bondS {} x []).sbond 15).switchTo = some 1 ∧ (x.tx 1).st ≠ 1) ∧ ({ State.reset with slr := { trngOk := 8 } } : State).slr.trngOk.getLsbD 3 = true ∧ (State.reset.slr.trngOk.getLsbD 3 = false)
    ∧ (let x : SBond := { rx0 := { st := 1, id := 9, last := some 5 }, rx1 := { st := 2 } }; (x.rx 0).st ≠ 0 ∧ (x.rx 0).id.toNat % 2 ^ 32 = 9 ∧ (∀ n : Nat, (∀ l, (x.rx 0).last = some l → l < n) ↔ 5 < n) ∧ (x.rx 0).st = 1 ∧ (x.rx 1).st = 2) := by
  refine ⟨by decide +kernel, by decide +kernel, by decide +kernel, by decide, by decide, ⟨by decide, by decide +kernel, by decide, rfl, rfl⟩, ⟨rfl, by decide⟩, by decide, by decide, by decide, by decide, fun n => ⟨fun h => h 5 rfl, ?_⟩, rfl, rfl⟩
  rintro h l hl
  cases hl
  exact h

theorem read_write0 (bs : List Byte) : Mem.read (Mem.write [] 0 bs) 0 bs.length = bs := by
  rw [Mem.read_eq _ _ _ (Mem.wf_write [] 0 bs rfl)]
  refine List.ext_getElem (by simp) fun i h1 h2 => ?_
  simp only [List.getElem_map, List.getElem_range, Mem.get_write, Nat.zero_add, Nat.zero_le, true_and, h2, if_true, Nat.sub_zero]
  simp [List.getD, h2]

/-- A key whose exponents are 1, and the transport of a key for transmit slot 0 of bond 15 under it. -/
def key1 : List Byte := testKey.take 384 ++ [0, 0, 0, 1]
theorem key1_inverse : KeyInverse key1 1 := keyInverse_one (by decide +kernel) (by decide +kernel)
theorem deviceId_length : deviceIdBytes.length = 16 := leBytes_length _ _
def keyPlain : List Byte := leBytes 8 1 ++ ([15, 0, 0, 0] : List Byte) ++ zeros 36 ++ deviceIdBytes
def keyBlob : List Byte := oaepSeal key1 labelKey keyPlain (zeros 32)
def keyDev (a : Mem) : State := { demo { sess0 with area3 := a } with slr := { ktk := some ⟨key1, 1⟩ }, rnd := { bonds := [(15, { en := true, ports := 0x8000, minLanes := 1 })] } }
theorem keyBlob_length : keyBlob.length = 384 := by rw [keyBlob, oaepSeal]; exact beBytes_length _ _
theorem keyPlain_length : keyPlain.length = 64 := by rw [keyPlain, List.length_append, List.length_append, List.length_append, leBytes_length, deviceId_length]; rfl
theorem openBlob_by {s : State} {k : KeyPair} (h : s.slr.ktk = some k) (b : List Byte) : openBlob s b = oaepOpen k.record k.secret labelKey b := by rw [openBlob, h]
theorem keyBlob_opens (a : Mem) : openBlob (keyDev a) keyBlob = some keyPlain := by
  rw [openBlob_by (k := ⟨key1, 1⟩) rfl, keyBlob]
  exact oaepOpen_oaepSeal key1_inverse labelKey List.length_replicate (by rw [keyPlain_length]; decide)
theorem keyPlain_loads (a : Mem) : (keyLoadResult (keyDev a) true (some keyPlain)).1 = 0 := by
  unfold keyLoadResult
  simp only []
  rw [if_neg (by rw [keyPlain_length, show leAt keyPlain 0 8 = 1 from rfl, show leAt keyPlain 8 1 = 15 from rfl, show leAt keyPlain 9 1 = 0 from rfl, show slice keyPlain 10 2 = [0, 0] from rfl]; decide),
    if_neg (not_not_intro (show slice keyPlain 48 16 = deviceIdBytes from rfl))]
  rfl
theorem keyBlob_read : Mem.read (Mem.write [] 0 keyBlob) 0 384 = keyBlob := by
  have := read_write0 keyBlob
  rwa [keyBlob_length] at this
theorem wit_KeySlots_load : (∀ a args, Accepted (keyDev a) (recFor 0x51 args) (needs 0x0051 true true [rdySlr]) args 0 { sess0 with area3 := a }) ∧ 8192 < (7809 : BitVec 32).toNat + 384 ∧ (7808 : BitVec 32).toNat + 384 ≤ 8192 ∧ (0 : BitVec 32).toNat + 384 ≤ 8192
    ∧ State.reset.slr.ktk = none ∧ (keyLoadResult State.reset true none).1 ≠ 0 :=
  ⟨fun _ _ => accepted rfl rfl rfl rfl rfl rfl (by decide), by decide, by decide, by decide, rfl, by decide⟩

/-- An owner store that an unclaimed device accepts, and a strip token that stands; each with a signature under that key. -/
def ownerBody : List Byte := ([0x45, 0x58, 0x4F, 0x57] : List Byte) ++ leBytes 4 1 ++ zeros 28 ++ leBytes 4 100000 ++ zeros 3416 ++ key1 ++ zeros 4
def signed (body : List Byte) : List Byte := body ++ rsaSign key1 1 (sha256 body) (zeros 32)
def tokenBody : List Byte := ([0x45, 0x58, 0x53, 0x54] : List Byte) ++ zeros 4 ++ deviceIdBytes ++ zeros 40
def ownerDev (a : Mem) (o : Option (List Byte)) (st : Option OwnerStore) : State := { demo { sess0 with area3 := a } with slr := { challenge := some (zeros 32), ownerHash := o, store := st } }
theorem ownerBody_length : ownerBody.length = 3848 := by decide +kernel
theorem signed_ok (body : List Byte) : signatureOk key1 (sha256 body) (rsaSign key1 1 (sha256 body) (zeros 32)) = true := signatureOk_rsaSign key1_inverse _ List.length_replicate
theorem sign_length (h : List Byte) : (rsaSign key1 1 h (zeros 32)).length = 384 := beBytes_length _ _
theorem signed_parts {body : List Byte} {n : Nat} (h : body.length = n) : (signed body).take n = body ∧ slice (signed body) n 384 = rsaSign key1 1 (sha256 body) (zeros 32) := by
  rw [signed, slice, List.take_left' h, List.drop_left' h, List.take_of_length_le (Nat.le_of_eq (by rw [sign_length]))]
  exact ⟨rfl, rfl⟩
theorem signed_slice {body : List Byte} {a n : Nat} (h : a + n ≤ body.length) : slice (signed body) a n = slice body a n := by
  rw [signed, slice, slice, List.drop_append_of_le_length (by omega), List.take_append_of_le_length (by rw [List.length_drop]; omega)]
theorem wit_OwnerAndStrip : (∀ a o st n args, (∀ k ∈ n.ready, k < 9) → Accepted (ownerDev a o st) (recFor n.op args) n args 0 { sess0 with area3 := a })
    ∧ 8192 < (3961 : BitVec 32).toNat + 4232 ∧ (3960 : BitVec 32).toNat + 4232 ≤ 8192 ∧ 8192 < (7745 : BitVec 32).toNat + 448 ∧ (7744 : BitVec 32).toNat + 448 ≤ 8192 ∧ sess0.claiming = false ∧ ({ State.reset with slr := { idk := some ⟨key1, 1⟩ } } : State).slr.idk = some ⟨key1, 1⟩ :=
  ⟨fun _ _ _ _ _ hn => accepted rfl rfl rfl rfl rfl rfl hn, by decide, by decide, by decide, by decide, rfl, rfl⟩
theorem wit_OwnerAndStrip_store : ownerAccepted (ownerDev [] none none) (signed ownerBody) = true ∧ ownerAccepted (ownerDev [] none none) [] = false ∧ Mem.read (Mem.write [] 0 (signed ownerBody)) 0 4232 = signed ownerBody ∧ Mem.read [] 0 4232 = zeros 4232 ∧ ownerAccepted (ownerDev [] none none) (zeros 4232) = false := by
  have l := ownerBody_length
  have e : ∀ a n, a + n ≤ 3848 → slice (signed ownerBody) a n = slice ownerBody a n := fun a n h => signed_slice (by rw [l]; exact h)
  have f : ∀ a n, a + n ≤ 3848 → leAt (signed ownerBody) a n = leAt ownerBody a n := fun a n h => by rw [leAt, leAt, e a n h]
  refine ⟨?_, by decide +kernel, ?_, by decide +kernel, by decide +kernel⟩
  · rw [ownerAccepted, ownerForm, (signed_parts l).1, (signed_parts l).2, e 3456 388 (by decide), show slice ownerBody 3456 388 = key1 from by decide +kernel, signed_ok]
    simp only [e 0 4 (by decide), e 24 8 (by decide), e 35 1 (by decide), e 3448 8 (by decide), e 3844 4 (by decide), e 8 16 (by decide), f 4 4 (by decide), f 32 1 (by decide), f 33 1 (by decide), f 34 1 (by decide), f 36 4 (by decide)]
    decide +kernel
  · have := read_write0 (signed ownerBody)
    rwa [show (signed ownerBody).length = 4232 by rw [signed, List.length_append, l, sign_length]] at this
theorem wit_OwnerAndStrip_token : let st : OwnerStore := ⟨1, [], [], false, signed ownerBody⟩; let s := ownerDev [] (some []) (some st)
    tokenOk s (signed tokenBody) = true ∧ s.slr.ownerHash.isSome = true ∧ s.stn.place = .none ∧ s.stn.next = none ∧ s.slr.strip = 0 ∧ Mem.read (Mem.write [] 0 (signed tokenBody)) 0 448 = signed tokenBody ∧ (∀ b, tokenOk (ownerDev [] none none) b = false) := by
  intro st s
  have l : tokenBody.length = 64 := by rw [tokenBody, List.length_append, List.length_append, deviceId_length]; rfl
  have e : ∀ a n, a + n ≤ 64 → slice (signed tokenBody) a n = slice tokenBody a n := fun a n h => signed_slice (by rw [l]; exact h)
  have r : ownerRoot s = key1 := by
    rw [show ownerRoot s = slice (signed ownerBody) 3456 388 from rfl, signed_slice (by rw [ownerBody_length]; decide)]; decide +kernel
  refine ⟨?_, rfl, rfl, rfl, rfl, ?_, fun b => ?_⟩
  · rw [tokenOk, (signed_parts l).1, (signed_parts l).2, r, signed_ok, e 0 4 (by decide), e 4 4 (by decide), e 8 16 (by decide), e 24 32 (by decide), e 56 8 (by decide)]
    rw [show slice tokenBody 8 16 = deviceIdBytes from rfl, show slice tokenBody 24 32 = zeros 32 from rfl, show slice tokenBody 56 8 = zeros 8 from rfl, decide_eq_true (rfl : deviceIdBytes = deviceIdBytes)]
    rfl
  · have := read_write0 (signed tokenBody)
    rwa [show (signed tokenBody).length = 448 by rw [signed, List.length_append, l, sign_length]] at this
  · rw [tokenOk, show ownerRoot (ownerDev [] none none) = [] from rfl, signatureOk]
    simp [keyModulus, slice, beNat, leNat]
/-- A claiming session that has already had its one use. -/
def claimer : Session := { sess0 with claiming := true }
theorem wit_OwnerAndStrip_claiming : ∀ args, let s := { demo claimer with slr := { ownerHash := some [] } }
    Accepted s (recFor 0x52 args) (needs 0x0052 true false [rdySlr]) args 0 claimer ∧ claimer.claiming = true ∧ s.slr.ownerHash.isSome = true := by
  intro args s
  have h : sessionSlot s 1 = some 0 := by decide
  exact ⟨⟨rfl, rfl, rfl, h, rfl, rfl, (by decide : (1#16).getLsbD 0 = true), recFor_tag _ _, seqNew_first rfl (by decide : (1 : BitVec 64) ≠ 0), rfl, rfl, (by decide : (none : Option (BitVec 16)) ≠ some 1), fun h => absurd (show (3 : BitVec 8) = 2 from h) (by decide), fun _ => ⟨rfl, fun _ => rfl⟩, by decide⟩, rfl, rfl⟩
/-! ## Mirror parity -/

/-- A plan of rank 14 whose region 0 is mirrored in region 1, running or rebuilding: member 14 holds P of word 7. -/
def mirrorS (c : Clc) : State :=
  { State.reset with stn := { cur := some { planC 14 16 1 with descs := [{ desc0 16 1 with mirror := true, mirrorRegions := [0, 255, 255, 255], parityRegions := [1, 255, 255, 255] }], regions := [⟨1, 7, 0, true, false, [(0, 0)], []⟩, ⟨2, 1, 0, true, false, [(0, 65536)], []⟩] }, place := .running, stepRunning := true }, clc := c }
def hdr0 (t : BitVec 24) : MirrorHdr := ⟨0, 0, 0, t, 0⟩
def word7 (g : List (Nat × BitVec 2 × List Byte)) : MWord := { step := 0, region := 0, parity := 1, group := 0, word := 7, got := g }
def got13 (f : Nat → List Byte) : List (Nat × BitVec 2 × List Byte) := (List.range 13).map fun m => (m + 1, 0, f (m + 1))
theorem wit_QueueArrivals_mirror : Live (mirrorS {}) ∧ Quiet (mirrorS {}) ∧ (mirrorS {}).stn.place = .running ∧ (mirrorS {}).clc.rebuild ≠ 1 ∧ (hdr0 6).src.toNat / 16 = myRank (mirrorS {}) / 16 ∧ (hdr0 6).src.toNat ≠ myRank (mirrorS {})
    ∧ wordAt (mirrorS {}) 0 0 0 6 = some (0, word7 []) ∧ (rankMember (myRank (mirrorS {})) / 2 = (word7 []).word) ∧ wordAt (mirrorS {}) 0 0 0 0 = some (0, { word7 [] with word := 1 }) ∧ rankMember (myRank (mirrorS {})) / 2 ≠ 1
    ∧ ((mirrorS {}).clc.words.find? (word7 []).same).getD (word7 []) = word7 [] ∧ (∀ b, (word7 [(0, 0, b)]).mine 14 [] = none)
    ∧ (∀ f, ((mirrorS { words := [word7 (got13 f)] }).clc.words.find? (word7 []).same).getD (word7 []) = word7 (got13 f) ∧ (word7 (got13 f)).tile 0 = none ∧ ∀ b, ((word7 (got13 f ++ [(0, 0, b)])).mine 14 []).isSome = true)
    ∧ (∀ f : Nat → List Byte, ∀ m ∈ dataMembers 7, (word7 ((List.range 14).map fun m => (m, 0, f m))).tile m = some (f m))
    ∧ (∀ (f : Nat → List Byte) p, (∀ m ∈ dataMembers 7, m ≠ 0 → (word7 ((14, 0, p) :: got13 f)).tile m = some (f m)) ∧ (word7 ((14, 0, p) :: got13 f)).tile 14 = some p)
    ∧ (catchupWrite (mirrorS { rebuild := 1 }) 16 (decide (16 < 16)) lossy0 = (true, mirrorS { rebuild := 1 })) :=
  ⟨rfl, ⟨by decide, by decide, rfl⟩, rfl, by decide, by decide, by decide, by decide, by decide, by decide, by decide, rfl, fun _ => rfl, fun _ => ⟨rfl, rfl, fun _ => rfl⟩,
    fun f => by simp [dataMembers, word7, MWord.tile, List.range, List.range.loop], fun f p => ⟨by simp [dataMembers, word7, got13, MWord.tile, List.range, List.range.loop], rfl⟩, by decide⟩
/-- R242 to R244 on tiles of one byte: what P and Q give back is the lost tile. -/
theorem test_mirror : gfMul 2 0x80 = 0x1D ∧ (let d := (dataMembers 7).map fun m => (m, [BitVec.ofNat 8 (37 * m + 5)]); let p := parityP d; let q := parityQ d
    let one := d.filter fun x => x.1 ≠ 3; let two := one.filter fun x => x.1 ≠ 11
    rebuildFromP p one = [116] ∧ rebuildFromQ 3 q one = [116] ∧ rebuildTwo 3 11 p q two = ([116], [156])) := by decide +kernel
/-- A federation collective with D 1 on channel 0, whose lossless units go to an input queue: a unit of step 0 waits in step 0 and is delivered in step 1. -/
def fedS (step : BitVec 32) : State :=
  let s := steer 0xC1000000 0x43000000
  { s with stn := { s.stn with cur := some { plan3 with descs := [{ desc0 1 2 with topLevel := 7, d := 1, fedUnits := 1, fedChan := 0, catchup := 0 }] }, step := step } }
theorem wit_QueueArrivals_federation : ∀ step : BitVec 32, step = 0 ∨ step = 1 → let s := fedS step
    Live s ∧ Quiet s ∧ steerOf s.skm.tables 0 (unitHdr rawLl).chan = some 0 ∧ (s.sub 0).valid = true ∧ (s.sub 0).resid = false ∧ unitOk (s.sub 0) rawLl = true ∧ rawLl.length = 16 + (unitHdr rawLl).len ∧ epochOk s rawLl = true
      ∧ (s.subQ 0).length < subRoom s 0 ∧ (s.sub 0).ll = true ∧ (catchupWrite s 0 true rawLl).1 = true ∧ (let u := (catchupWrite s 0 true rawLl).2
        (step = 0 → pickUnit (setSubQ u 0 [rawLl]) 0 = none) ∧ (step = 1 → pickUnit (setSubQ u 0 [rawLl]) 0 = some rawLl ∧ (s.sub 0).kind = 1 ∧ iqRoom u (s.sub 0).engine (s.sub 0).iq = true)) := by
  rintro step (rfl | rfl)
  · exact ⟨rfl, ⟨rfl, by decide, rfl⟩, by decide +kernel, by decide, by decide, by decide, by decide, by decide, by decide +kernel, by decide, by decide +kernel, fun _ => by decide +kernel, fun h => absurd h (by decide)⟩
  · exact ⟨rfl, ⟨rfl, by decide, rfl⟩, by decide +kernel, by decide, by decide, by decide, by decide, by decide, by decide +kernel, by decide, by decide +kernel, fun h => absurd h (by decide), fun _ => ⟨by decide +kernel, by decide, by decide +kernel⟩⟩

/-! ## Near photonics -/

def near0 : NearFrame := ⟨0, 0, 0, 0, 0, 0, 0, 0, 0, 0, true, []⟩
/-- An IDLE frame of colour 31 on the pins; a receive colour that verifies. -/
def idleFrame : List Byte := nearFrameBytes 7 31 0 0 0 0 0 0 0 0 []
def hearing (b : List Byte) (al : Bool) (bad : Nat) : Colour := { rx := ringAt .verify, stream := b, aligned := al, syncBad := bad }
theorem wit_NearFrames : (∀ sf y, Live (nearS sf y) ∧ ((nearS sf y).phe 7).safety = sf ∧ (nearS sf y).col 7 31 = y) ∧ (∀ b al bad, listens (nearS .normal (hearing b al bad)) 7 31 = true) ∧ listens (nearS .shutdown {}) 7 31 = false
    ∧ (let f := { near0 with cid := cidOf 7 31, kind := 1, dest := 24 }; let s := nearS .normal {}; f.hcrcOk = true ∧ f.kind.toNat ≤ 1 ∧ f.cid = cidOf 7 31 ∧ hasBudget s 0x01 (8 * bitsOf f.dest.toNat 8 3 + bitsOf f.dest.toNat 2 0) = true
        ∧ iqRoom s (bitsOf f.dest.toNat 8 3) (bitsOf f.dest.toNat 2 0) = true)
    ∧ near0.cid ≠ cidOf 7 31 ∧ mayMove (nearS .normal {}) 7 31 = false ∧ sendable (nearS .normal {}) 7 31 = none ∧ nextReturn (nearS .normal {}) 7 31 = none :=
  ⟨fun _ _ => ⟨rfl, rfl, rfl⟩, fun _ _ _ => rfl, by decide, by decide, by decide, by decide, by decide +kernel, by decide⟩
/-- Octets of a colour: nothing, zeros, one frame, two frames in a row, and one that nothing confirms. -/
theorem wit_NearFrames_hunt : ([] : List Byte).length < 32 ∧ frameHead (zeros 32) = false ∧ frameHead idleFrame = true ∧ idleFrame.length = 4128 ∧ 4160 ≤ (idleFrame ++ idleFrame).length ∧ frameHead (idleFrame ++ idleFrame) = true ∧ frameHead ((idleFrame ++ idleFrame).drop 4128) = true
    ∧ 4160 ≤ (idleFrame ++ zeros 4128).length ∧ frameHead (idleFrame ++ zeros 4128) = true ∧ frameHead ((idleFrame ++ zeros 4128).drop 4128) = false := by
  refine ⟨by decide, by decide +kernel, by decide +kernel, by decide +kernel, by decide +kernel, by decide +kernel, by decide +kernel, by decide +kernel, by decide +kernel, by decide +kernel⟩
theorem wit_NearFrames_aligned : (let y := hearing [] true 0; y.aligned = true ∧ y.stream.length < 4128) ∧ 4128 ≤ (hearing idleFrame true 0).stream.length ∧ (alignStep (hearing [] true 0) (readNear (idleFrame.take 4128))).aligned = true
    ∧ 4128 ≤ (hearing (zeros 4128) true 3).stream.length ∧ (alignStep (hearing [] true 3) (readNear ((zeros 4128).take 4128))).aligned = false := by
  refine ⟨⟨rfl, by decide⟩, by decide +kernel, by decide +kernel, by decide +kernel, by decide +kernel⟩
/-- A tile that waits in the queue of a colour that holds a credit. -/
def sending : State := { nearS .normal { tx := ringAt .inService, credits := 1 } with sch := { queues := [(0, { cfg := 0xC0700000, mask := 0x80000000, items := [⟨.tile 1 0 0 0 [], 0, 0⟩] })] } }
theorem wit_NearFrames_tile : sendable sending 7 31 = some (0, 0, .tile 1 0 0 0 []) ∧ mayMove sending 7 31 = false ∧ nextReturn sending 7 31 = none ∧ (sending.phe 7).safety = .normal ∧ sending.se.role ≠ 2 := by
  refine ⟨by decide +kernel, by decide +kernel, by decide, rfl, by decide⟩
/-- A ring in each state, a spare in each state; a fence at its limit; the interlock high with every engine in SHUTDOWN. -/
theorem wit_NearRings : (∀ sf a b p, let y : Colour := { tx := { st := a }, rx := { st := b, parked := p } }; Live (nearS sf y) ∧ ((nearS sf y).phe 7).safety = sf ∧ ((nearS sf y).col 7 31).tx.st = a ∧ ((nearS sf y).col 7 31).rx.st = b ∧ ((nearS sf y).col 7 31).rx.parked = p)
    ∧ (∀ st, let s : State := { State.reset with phn := { engines := [(7, { spares := [(3, { st := st })] })] } }; (s.spare 7 3).st = st) ∧ ((0x00280028#32).setWidth 16).toNat ≤ (BitVec.ofNat 16 ((0x00280028#32).toNat / 65536)).toNat
    ∧ (let s : State := { State.reset with phn := { engines := (List.range 8).map fun n => (n, { safety := .shutdown }), interlock := true } }; (∀ k, k < 8 → (s.phe k).safety = .shutdown) ∧ s.phn.interlock = true)
    ∧ (∃ k, k < 8 ∧ ((nearS .normal {}).phe k).safety ≠ .shutdown) ∧ (let y : Colour := { stage := 1 }; ((nearS .normal y).spare 7 (31 / 8)).st = .idle ∧ y.stage ≠ 0 ∧ y.tx.st ≠ .retired)
    ∧ ((nearS .shutdown {}).phe 7).safety = .shutdown ∧ (nearS .shutdown {}).phn.interlock = false ∧ (nearS .shutdown {}).phn.holdNs = 0 ∧ ((nearS .shutdown {}).phe 7).forceOff = false :=
  ⟨fun _ _ _ _ => ⟨rfl, rfl, rfl, rfl, rfl⟩, fun _ => rfl, by decide, ⟨by decide, rfl⟩, ⟨7, by decide, by decide⟩, ⟨rfl, by decide, by decide⟩, rfl, rfl, rfl, rfl⟩
/-- The stages of a laser whose EOL is 1,000: just below 80 %, at 80 % and at 90 % of it. -/
theorem wit_NearRings_lasers : sampleLevel {} 1000 ⟨31, 799, true⟩ = 0 ∧ sampleLevel {} 1000 ⟨31, 800, true⟩ = 1 ∧ sampleLevel {} 1000 ⟨31, 899, true⟩ = 1 ∧ sampleLevel {} 1000 ⟨31, 900, true⟩ = 2 := by decide
/-- A bias at its fence and one above it. -/
theorem wit_NearRings_fences : beyondFence {} 0 400 (.laserPower 31) 1300 = false ∧ beyondFence {} 0 400 (.laserPower 31) 1301 = true ∧ Loop.laserPower 31 ∉ ({} : PEng).saturated ∧ Loop.laserPower 31 ∈ ({ saturated := [.laserPower 31] } : PEng).saturated
    ∧ ({ autoSwap := false } : PEng).autoSwap = false ∧ (nearS .probe {} |>.phe 7).safety = .probe ∧ (nearS .normal { los := true } |>.col 7 31).los = true := ⟨by decide, by decide, by decide, by decide, rfl, rfl, rfl⟩

/-! ## Output queues, sessions, the ledger -/

def queueS (q : OutQ) : State := { State.reset with sch := { queues := [(0, q)], gateEn := true, swapPending := true, samplePeriod := 1 }, stn := { cur := some plan0 } }
theorem wit_OutputQueues : (∀ q, Live (queueS q) ∧ (queueS q).queue 0 = q)
    ∧ (let q : OutQ := { cfg := 0xA0000000 }; q.polAct = 0 ∧ q.en = true ∧ q.bind = 1 ∧ q.depth + (QItem.seg 1 (zeros 16)).len ≤ queueRoom (queueS q) 0)
    ∧ (let q : OutQ := { cfg := 0xA0008000 }; q.polAct = 2 ∧ conforms (refill q.ptk q.pLast q.prate.toNat 1 (queueS q).count).1 (q.charge 1) 1 = false) ∧ (¬ (({} : OutQ).en = true))
    ∧ itemsLen ((queueS {}).ctlQ 15) + (QItem.seg 3 [0]).len ≤ 262144 ∧ State.reset.sch.gateEn = false ∧ (queueS {}).sch.gateEn = true ∧ (queueS {}).sch.swapPending = true ∧ (queueS {}).sch.samplePeriod ≠ 0
    ∧ hasBudget (queueS {}) 0x02 0 = true ∧ hasBudget (queueS {}) 0x02 255 = false ∧ (queueS {}).stn.admitting = none :=
  ⟨fun _ => ⟨rfl, rfl⟩, by decide +kernel, by decide +kernel, by decide, by decide, rfl, rfl, rfl, by decide, by decide, by decide, rfl⟩
/-- A control queue that is full to its last byte. -/
theorem wit_OutputQueues_full : let s : State := { State.reset with sch := { ctl := [(15, List.replicate 4 ⟨.seg 1 (zeros 65532), 0, 0⟩)] } }; itemsLen (s.ctlQ 15) = 4 * (QItem.seg 1 (zeros 65532)).len := by
  simp [State.ctlQ, Tab.get, itemsLen, List.replicate]; omega

def asks (m : BitVec 8) (mask : BitVec 16) : Open1 := ⟨3, m, mask, zeros 32, if m = 1 then key1 else []⟩
def opening (x : Session) (l : Slr) : State := { State.reset with hwk := { running := true, sessions := [(7, some x)] }, slr := l }
theorem wit_Sessions : (∀ x l, Live (opening x l) ∧ (opening x l).hwk.running = true ∧ (opening x l).session 7 = some x ∧ (opening x l).slr = l) ∧ State.reset.hwk.running = false
    ∧ openRefusal { State.reset with slr := { lockout := 1 } } (asks 2 1) = some 1 ∧ openRefusal (demo { sess0 with mask := 0xFFFF }) (asks 2 1) = some 2 ∧ (asks 2 1).mboxMask &&& ~~~heldMboxes (demo { sess0 with mask := 0xFFFF }) = 0
    ∧ (let s : State := { State.reset with hwk := { sessions := (List.range 8).map fun k => (k, some { sess0 with mask := 0 }) } }; s.slr.lockout = 0 ∧ ∀ k, k < 8 → s.session k ≠ none)
    ∧ (let s : State := { State.reset with slr := { store := some ⟨1, [], [], true, []⟩ } }; openRefusal s (asks 2 1) = none) ∧ (asks 2 1).hcs = 3 ∧ (asks 3 1).method ≠ 1 ∧ (asks 3 1).method ≠ 2
    ∧ sessionSlot (opening { sess0 with isOpen := false } {}) 1 = some 7 ∧ sessionSlot (opening sess0 {}) 2 = none ∧ (0 : BitVec 16).toNat < 4 ∧ 11 ≤ (11 : BitVec 16).toNat ∧ (0xFFFE : BitVec 16) ≠ 0xFFFF := by
  refine ⟨fun _ _ => ⟨rfl, rfl, rfl, rfl⟩, rfl, by decide, by decide, by decide, ⟨rfl, by decide⟩, by decide, rfl, by decide, by decide, by decide, by decide, by decide, by decide, by decide⟩
/-- An opening by key on an unclaimed device whose IDK can sign, and one by password, each with its proof. -/
def byKey : Session := { sess0 with isOpen := false, hostKey := key1 }
def byWord : Session := { sess0 with isOpen := false, method := 2 }
theorem wit_Sessions_key : let s := opening byKey { idk := some ⟨key1, 1⟩ }; sessionSlot s 1 = some 7 ∧ s.slr.lockout = 0 ∧ byKey.method = 1 ∧ proofOk s byKey (rsaSign key1 1 (sha256 (transcriptHash byKey)) (zeros 32)) = true ∧ proofOk s byKey [] = false := by
  intro s
  refine ⟨by decide, rfl, rfl, ?_, ?_⟩
  · rw [proofOk, if_pos (by decide), sign_length, show byKey.hostKey = key1 from rfl, signed_ok]; rfl
  · rw [proofOk, if_pos (by decide)]; rfl
theorem wit_Sessions_word : let s := opening byWord { store := some ⟨1, [], [], true, zeros 88⟩ }; sessionSlot s 1 = some 7 ∧ s.slr.lockout = 0 ∧ byWord.method = 2 ∧ passwordVerifier s = some (slice (zeros 88) 56 32)
    ∧ proofOk s byWord (hmac (slice (zeros 88) 56 32) (labelProof ++ transcriptHash byWord)) = true := by
  intro s
  have h : passwordVerifier s = some (slice (zeros 88) 56 32) := rfl
  refine ⟨by decide, rfl, rfl, h, ?_⟩
  rw [proofOk, if_neg (by decide), h]
  exact decide_eq_true rfl

def ledS (p : Nat) (x : Summary) : State := { demo sess0 with sng := { parts := [(p, x)], pend := [⟨1, 0, 0, 0, 0, 0, []⟩] }, rnd := { bonds := [(15, { en := true, ports := 0x8000, minLanes := 8 })] } }
theorem wit_LedgerAndFaults : (∀ p x n args, (∀ k ∈ n.ready, k < 9) → Accepted (ledS p x) (recFor n.op args) n args 0 sess0) ∧ (∀ p x, Live (ledS p x) ∧ (ledS p x).hwk.running = true ∧ (ledS p x).sng.pend ≠ [] ∧ (ledS p x).pwr.supplyWarn = false ∧ (ledS p x).sng.flushing = false)
    ∧ retirable 0 = false ∧ retirable 0x103F = true ∧ retirable 0x307F = true ∧ partExists 0xFFFF = false ∧ partExists 0x103F = true ∧ (∀ st : Byte, ((ledS 0x103F { st := st }).part 0x103F).st = st)
    ∧ (∀ st, ({ ledS 0 {} with engines := [(63, { st := st })] } : State).eng (0x103F % 4096) = { st := st }) ∧ laneBond (ledS 0 {}) (0x307F % 4096) = some (15, 7) ∧ (ledS 0 {}).mnd.move = none
    ∧ floorHolds (ledS 0 {}) 0x307F = true ∧ (let s : State := { ledS 0 {} with rnd := { bonds := [(15, { en := true, ports := 0x8000, minLanes := 1 })] } }; floorHolds s 0x307F = false)
    ∧ (let s : State := { ledS 0 {} with rnd := { bonds := [(15, { en := true, ports := 0x8000, minLanes := 1 })] }, sng := { journal := (List.range 4).map fun i => ({ seq := 0, lifeS := 0, type := 8, part := BitVec.ofNat 16 (0x3078 + i), plbState := 0, count := 0, body := [] } : JEntry) } }; floorHolds s 0x307F = false ∧ capHolds s 0x307F = true)
    ∧ recommends { ledS 0x103F {} with sng := { softT := 97 } } 0x103F 96 = true ∧ entriesHeld (ledS 0 {}) ≠ [] ∧ entriesHeld (demo sess0) = [] ∧ (∀ v : Move, ({ ledS 0 {} with mnd := { move := some v } } : State).mnd.move.isSome = true) ∧ (2 : BitVec 8).toNat ≤ 2 ∧ (128 : BitVec 16).toNat ≤ 128 ∧ (dfbOf 0x6000).isSome = true := by
  refine ⟨fun _ _ _ _ hn => accepted rfl rfl rfl rfl rfl rfl hn, fun _ _ => ⟨rfl, rfl, by simp [ledS], rfl, rfl⟩, by decide, by decide, by decide, by decide, by decide, fun _ => rfl, fun _ => rfl, by decide, rfl, by decide +kernel, by decide +kernel, by decide +kernel, by decide, by simp [entriesHeld, ledS], rfl, fun _ => rfl, by decide, by decide, by decide⟩

/-! ## Resets, recovery, power and registers -/

/-- The primer ROM with the test key, in power and out of reset. -/
def romS (svn : BitVec 8) (why : Option Byte) : State := { State.reset with pwr := { railsGood := true, resetN := true }, slr := { minSvn := some svn, makerKey := some key1 }, hwk := { romKeys := some [testKey], recovery := why } }
def signedImage : FwImage := { image0 [] [] with digest := sha256 testContent, block := blockOf testSig }
theorem wit_ResetsAndStart : (∀ args, Accepted (demo sess0) (recFor 0x71 args) (needs 0x0071 true false []) args 0 sess0 ∧ Accepted updating0 (recFor 0x71 args) (needs 0x0071 true false []) args 0 sess0) ∧ (demo sess0).hwk.updating = none ∧ updating0.hwk.updating.isSome = true
    ∧ isUp (romS 1 none) = true ∧ (romS 1 none).hwk.running = false ∧ isUp State.reset = false ∧ inRecovery (romS 1 (some 1)) = true ∧ inRecovery State.reset = false ∧ crc32c (Mem.read (romS 1 (some 1)).hwk.recoverBuf 0 0) = 0 ∧ (romS 1 none).slr.gateClosed = false ∧ (minSvnNow (romS 1 none)).toNat < (2 : BitVec 8).toNat :=
  ⟨fun _ => ⟨accepted rfl rfl rfl rfl rfl rfl (by decide), accepted rfl rfl rfl rfl rfl rfl (by decide)⟩, rfl, rfl, by decide, rfl, by decide, by decide, by decide, by decide, rfl, by decide⟩
/-- The image that a start finds, or that RECOVER_WRITE has brought: good, missing, too old, and for another part. -/
theorem rom_signed (svn : BitVec 8) (why : Option Byte) : imageSigned (romS svn why) signedImage = true := by
  have h : signatureOk testKey (sha256 testContent) testSig = true := test_signature
  rw [imageSigned, show (romS svn why).hwk.romKeys.getD Config.firmwareKeys = [testKey] from rfl, show signedImage.digest = sha256 testContent from rfl, show slice signedImage.block 128 384 = testSig from by decide +kernel, List.any_cons, h, test_keyId]
  decide +kernel
theorem wit_ResetsAndStart_image : imageRefusal (romS 1 none) signedImage = none ∧ imageRefusal (romS 2 none) signedImage = some 3 ∧ imageRefusal (romS 1 none) (image0 [] []) = some 2 ∧ imageRefusal (romS 1 none) { signedImage with present := false } = some 1
    ∧ imageRefusal (romS 1 none) { signedImage with part := 0 } = some 4 := by
  have h4 : imageSigned (romS 1 none) { signedImage with part := 0 } = true := rom_signed 1 none
  have m : ∀ v, (minSvnNow (romS v none)).toNat = v.toNat := fun _ => rfl
  refine ⟨?_, ?_, ?_, rfl, ?_⟩ <;> rw [imageRefusal]
  · rw [rom_signed, m]; rfl
  · rw [rom_signed, m]; rfl
  · rw [show imageSigned (romS 1 none) (image0 [] []) = false from rfl]; rfl
  · rw [h4, m]; rfl
/-- The identity record of this device, signed by its maker. -/
def idBody : List Byte := ([0x45, 0x58, 0x49, 0x44, 1, 0, 0x40, 0x96, 0xB1, 0, 0, 0, 0, 0, 0, 0] : List Byte) ++ deviceIdBytes ++ (keyIdOf key1 ++ (zeros 8 ++ key1 ++ key1 ++ zeros 8))
theorem idBody_length : idBody.length = 832 := by
  rw [idBody, List.length_append, List.length_append, deviceId_length, List.length_append, keyIdOf, List.length_take, sha256_length, show (zeros 8 ++ key1 ++ key1 ++ zeros 8).length = 792 from by decide +kernel]; rfl
theorem wit_ResetsAndStart_identity : identityOk (romS 1 none) (signed idBody) = true ∧ identityOk (romS 1 none) [] = false := by
  have l := idBody_length
  have e : ∀ a n, a + n ≤ 832 → slice (signed idBody) a n = slice idBody a n := fun a n h => signed_slice (by rw [l]; exact h)
  have k : (keyIdOf key1).length = 8 := by rw [keyIdOf, List.length_take, sha256_length]; rfl
  have p : (([0x45, 0x58, 0x49, 0x44, 1, 0, 0x40, 0x96, 0xB1, 0, 0, 0, 0, 0, 0, 0] : List Byte) ++ deviceIdBytes).length = 32 := by rw [List.length_append, deviceId_length]; rfl
  have q : (([0x45, 0x58, 0x49, 0x44, 1, 0, 0x40, 0x96, 0xB1, 0, 0, 0, 0, 0, 0, 0] : List Byte) ++ deviceIdBytes ++ keyIdOf key1).length = 40 := by rw [List.length_append, p, k]
  have f1 : slice idBody 32 8 = keyIdOf key1 := by rw [slice, idBody, List.drop_left' p, List.take_left' k]
  have f2 : ∀ a n, slice idBody (40 + a) n = slice (zeros 8 ++ key1 ++ key1 ++ zeros 8) a n := fun a n => by
    rw [slice, slice, idBody, ← List.append_assoc, ← List.drop_drop, List.drop_left' q]
  refine ⟨?_, rfl⟩
  rw [identityOk, show (romS 1 none).slr.makerKey.getD Config.makerKey = key1 from rfl, (signed_parts l).1, (signed_parts l).2, signed_ok, e 0 16 (by decide), e 16 16 (by decide), e 32 8 (by decide), e 40 8 (by decide), e 824 8 (by decide), f1,
    show slice idBody 40 8 = slice idBody (40 + 0) 8 from rfl, show slice idBody 824 8 = slice idBody (40 + 784) 8 from rfl, f2, f2, show (signed idBody).length = 1216 by rw [signed, List.length_append, l, sign_length],
    show slice idBody 0 16 = [0x45, 0x58, 0x49, 0x44, 1, 0, 0x40, 0x96, 0xB1, 0, 0, 0, 0, 0, 0, 0] from rfl, show slice idBody 16 16 = leBytes 16 Config.deviceId.toNat from rfl,
    decide_eq_true (rfl : leBytes 16 Config.deviceId.toNat = leBytes 16 Config.deviceId.toNat), decide_eq_true (rfl : keyIdOf key1 = keyIdOf key1)]
  decide +kernel
theorem wit_PowerAndTestPort : (∀ p : Pwr, Live { State.reset with pwr := { p with tripped := false } }) ∧ State.reset.pwr.resetN = false ∧ State.reset.pwr.brownHold = false ∧ State.reset.pwr.railsGood = false ∧ State.reset.pwr.supplyWarn = false
    ∧ (∃ k, k < 32 ∧ 97 ≤ ({ temps0 with stack := List.replicate 31 40 ++ [97] } : TempObs).stack.getD k 0) ∧ calledLevel 94 84 = 0 ∧ calledLevel 95 84 = 1 ∧ calledLevel 94 90 = 2 ∧ calledLevel 103 0 = 3 ∧ calledLevel 0 93 = 3
    ∧ State.reset.stn.place ≠ .running ∧ (running0 stn0 0).stn.place = .running ∧ ({ State.reset with slr := { strip := 2 } } : State).slr.strip = 2 :=
  ⟨fun _ => rfl, rfl, rfl, rfl, rfl, ⟨31, by decide, by decide⟩, by decide, by decide, by decide, by decide, by decide, by decide, rfl, rfl⟩
theorem wit_Registers : Live State.reset ∧ locate 0xFFFFFFFC = none ∧ locate 0x90000 ≠ none ∧ (∃ b off, locate 0x9000C = some (b, off) ∧ wideOf State.reset b off = none)
    ∧ (∃ b off w, locate 0x10020 = some (b, off) ∧ wideOf State.reset b off = some (w, 0) ∧ 0 + 1 < w.words ∧ w.words = 2) ∧ (∃ b off w, locate 0x10024 = some (b, off) ∧ wideOf State.reset b off = some (w, 1) ∧ w.words = 2) ∧ (0x10020 : BitVec 32) ≠ 0x10010 := by
  refine ⟨rfl, by decide +kernel, by decide +kernel, ⟨_, _, rfl, by decide +kernel⟩, ⟨.plb, 0x20, ⟨0x20, 2, 0, 0⟩, by decide +kernel, by decide +kernel, by decide, rfl⟩, ⟨.plb, 0x24, ⟨0x20, 2, 0, 0⟩, by decide +kernel, by decide +kernel, rfl⟩, by decide⟩
theorem wit_machine : ({ State.reset with pending := [.skmTblLoad] } : State).pending = .skmTblLoad :: [] ∧ State.reset.pending = [] ∧ isUp State.reset = false ∧ isUp { State.reset with pwr := { resetN := true } } = true
    ∧ (let s : State := { State.reset with pwr := { tripped := true }, pending := [.skmTblLoad] }; s.pwr.tripped = true ∧ .powerRemoved ∉ s.pending)
    ∧ (let s : State := { State.reset with phn := { interlock := true } }; s.phn.interlock = true ∧ ∀ n, n < 8 → (s.phe n).safety = .off ∨ (s.phe n).safety = .shutdown) := by
  refine ⟨rfl, rfl, by decide, by decide, ⟨rfl, by simp⟩, rfl, fun n _ => .inl rfl⟩

end Sys2Proof.Tests
end

/-! Registers in general (R5, R6, R313), the clearing of counters with what the ledger takes before it (R115, R566), and the device after reset (R9). -/

namespace Sys2Proof.Machine

/-! ## Commands of a live device -/

/-- A live device answers a command with the state that the command's meaning gives. -/
theorem Answers.of_act {c : Instr} {s t : State} {p : State → Prop} (h : Live s) (hc : exec c s = act s t) (hp : p t) : Answers c s p :=
  ⟨t, hc.trans (act_live h t), hp⟩

/-! ## Writes of one word, R5 and R313 -/

theorem writeWord_refused {s : State} {a v : BitVec 32} (h : locate a = none) : writeWord s a v = none := by
  unfold writeWord; rw [h]

theorem writeWord_plain {s : State} {a v : BitVec 32} {b : Blk} {off : Nat} (h : locate a = some (b, off)) (hw : wideOf s b off = none) :
    writeWord s a v = some (plainWrite s b off v) := by
  unfold writeWord; simp only [h, hw]

/-- A word of a wide register that is not its highest waits, where the register can be written. -/
theorem writeWord_lower {s : State} {a v : BitVec 32} {b : Blk} {off : Nat} {w : Wide} {i : Nat} (h : locate a = some (b, off))
    (hw : wideOf s b off = some (w, i)) (hi : i + 1 < w.words) :
    writeWord s a v = some (if wideRw b off then { s with wstage := Tab.put none s.wstage a.toNat (some v) } else s) := by
  unfold writeWord; simp only [h, hw, if_pos hi]

/-- The higher of two words takes the register over, with the low word that waits. -/
theorem writeWord_higher {s : State} {a v : BitVec 32} {b : Blk} {off : Nat} {w : Wide} {i : Nat} (h : locate a = some (b, off))
    (hw : wideOf s b off = some (w, i)) (hi : i + 1 = 2) (h2 : w.words = 2) :
    writeWord s a v = some (wideWrite { s with wstage := Tab.put none s.wstage (a.toNat - 4) none } b (off - 4)
      (((Tab.get none s.wstage (a.toNat - 4)).getD (word32 w.value 0)).toNat + 2 ^ 32 * v.toNat)) := by
  unfold writeWord; simp only [h, hw, if_neg (show ¬i + 1 < w.words by omega), if_pos h2]

/-- Only a refused access writes nothing at all: every address of the space takes a write. -/
theorem writeWord_eq_none_iff (s : State) (a v : BitVec 32) : writeWord s a v = none ↔ locate a = none := by
  refine ⟨fun h => ?_, writeWord_refused⟩
  unfold writeWord at h
  split at h
  · assumption
  · split at h
    · cases h
    · split at h
      · cases h
      · split at h <;> cases h

/-! ## Reads of one word, R6 -/

theorem csrRead_refused {s : State} {a : BitVec 32} (h : locate a = none) : csrRead s a = s := by
  unfold csrRead readWord; simp only [h]

theorem csrRead_plain {s : State} {a : BitVec 32} {b : Blk} {off : Nat} (h : locate a = some (b, off)) (hw : wideOf s b off = none) : csrRead s a = s := by
  unfold csrRead readWord; simp only [h, hw]

theorem csrRead_higher {s : State} {a : BitVec 32} {b : Blk} {off : Nat} {w : Wide} {i : Nat} (h : locate a = some (b, off))
    (hw : wideOf s b off = some (w, i)) (hi : i ≠ 0) : csrRead s a = s := by
  unfold csrRead readWord; simp only [h, hw, if_neg hi]

theorem csrRead_low {s : State} {a : BitVec 32} {b : Blk} {off : Nat} {w : Wide} (h : locate a = some (b, off))
    (hw : wideOf s b off = some (w, 0)) : csrRead s a = capture s a.toNat w := by
  unfold csrRead readWord; simp only [h, hw, if_pos]

/-- Values put at every fourth address above `a` are read back there. -/
theorem foldl_put_words_get (g : Nat → BitVec 32) (c : Tab (Option (BitVec 32))) (a n k : Nat) (h : k < n) :
    Tab.get none ((List.range n).foldl (fun c i => Tab.put none c (a + 4 * (i + 1)) (some (g i))) c) (a + 4 * (k + 1)) = some (g k) := by
  induction n with
  | zero => omega
  | succ n ih =>
    rw [List.range_succ, List.foldl_append, List.foldl_cons, List.foldl_nil, Tab.get_put_ite]
    by_cases e : k = n
    · rw [e, if_pos rfl]
    · rw [if_neg (by omega), ih (by omega)]

/-- A low word that is read holds the higher words of its register. -/
theorem capture_get (s : State) {a : Nat} (w : Wide) {k : Nat} (ha : a ≠ 0x10010) (h1 : 1 ≤ k) (hk : k < w.words) :
    Tab.get none (capture s a w).captures (a + 4 * k) = some (word32 w.value k) := by
  obtain ⟨j, rfl⟩ : ∃ j, k = j + 1 := ⟨k - 1, by omega⟩
  unfold capture
  simp only [if_neg ha]
  exact foldl_put_words_get (fun i => word32 w.value (i + 1)) s.captures a (w.words - 1) j (by omega)

/-! ## Writes of many indices of an array -/

/-- Rewriting each listed entry of an array once rewrites those entries and no other. -/
theorem foldl_rewrite_get {σ α : Type} {get : σ → Nat → α} {set : σ → Nat → α → σ} (same : ∀ s k x, get (set s k x) k = x)
    (other : ∀ s k j x, j ≠ k → get (set s k x) j = get s j) (f : α → α) {l : List Nat} (hl : l.Nodup) (s : σ) (j : Nat) :
    get (l.foldl (fun s k => set s k (f (get s k))) s) j = if j ∈ l then f (get s j) else get s j := by
  induction l generalizing s with
  | nil => simp
  | cons k r ih =>
    obtain ⟨hk, hr⟩ := List.nodup_cons.mp hl
    rw [List.foldl_cons, ih hr]
    by_cases e : j = k
    · subst e; simp [hk, same]
    · simp [e, other s k j _ e]

/-- The same for every index below `n`. -/
theorem foldl_range_rewrite_get {σ α : Type} {get : σ → Nat → α} {set : σ → Nat → α → σ} (same : ∀ s k x, get (set s k x) k = x)
    (other : ∀ s k j x, j ≠ k → get (set s k x) j = get s j) (f : α → α) (s : σ) {n j : Nat} (h : j < n) :
    get ((List.range n).foldl (fun s k => set s k (f (get s k))) s) j = f (get s j) := by
  rw [foldl_rewrite_get same other f List.nodup_range, if_pos (List.mem_range.mpr h)]

/-- A run of steps of which each changes one component changes that component. -/
theorem foldl_frame {σ ρ ι : Type} (put : ρ → σ) {step : σ → ι → σ} (h : ∀ r i, ∃ r', step (put r) i = put r') (l : List ι) (r : ρ) :
    ∃ r', l.foldl step (put r) = put r' := by
  refine List.foldlRecOn (motive := fun t => ∃ r', t = put r') l step ⟨r, rfl⟩ ?_
  rintro _ ⟨r', rfl⟩ i _
  exact h r' i

/-! ## Counters of Sealer and of the output queues -/

theorem slrClrCounts_sbond (s : State) {b : Nat} (h : b < 16) :
    (slrClrCounts s).sbond b = { s.sbond b with authFail := 0, replay := 0, noKey := 0, switches := 0 } := by
  unfold slrClrCounts
  exact foldl_range_rewrite_get (get := State.sbond) State.setSbond_sbond State.setSbond_sbond_ne (fun x => { x with authFail := 0, replay := 0, noKey := 0, switches := 0 }) _ h

/-- Besides the bonds' counters, four counters of the device are cleared and nothing else changes. -/
theorem slrClrCounts_frame (s : State) :
    ∃ t, slrClrCounts s = { s with slr := { s.slr with sessFail := 0, recFail := 0, keyLoads := 0, trngFail := 0, bonds := t } } := by
  unfold slrClrCounts
  exact foldl_frame (fun t => ({ s with slr := { s.slr with sessFail := 0, recFail := 0, keyLoads := 0, trngFail := 0, bonds := t } } : State)) (fun _ _ => ⟨_, rfl⟩) _ s.slr.bonds

theorem clrMax_queue (s : State) {q : Nat} (h : q < 256) : (clrMax s).queue q = { s.queue q with maxDelay := 0 } := by
  unfold clrMax
  exact foldl_range_rewrite_get (get := State.queue) State.setQueue_queue State.setQueue_queue_ne (fun x => { x with maxDelay := 0 }) s h

theorem clrMax_frame (s : State) : ∃ c, clrMax s = { s with sch := c } := by
  unfold clrMax
  exact foldl_frame (fun c => ({ s with sch := c } : State)) (fun _ _ => ⟨_, rfl⟩) _ s.sch

/-- The state with the three counters of every output queue cleared: what SCH CLR_COUNTS does before it clears CTL_DROP. -/
def clearedQueues (s : State) : State :=
  (List.range 256).foldl (fun s q => s.setQueue q { s.queue q with sentCount := 0, dropCount := 0, polCount := 0 }) s

theorem State.withCtlDrop_queue (s : State) (n : Count) (q : Nat) : State.queue { s with sch := { s.sch with ctlDrop := n } } q = s.queue q := rfl

theorem schClrCounts_eq (s : State) : schClrCounts s = { clearedQueues s with sch := { (clearedQueues s).sch with ctlDrop := 0 } } := rfl

theorem clearedQueues_queue (s : State) {q : Nat} (h : q < 256) :
    (clearedQueues s).queue q = { s.queue q with sentCount := 0, dropCount := 0, polCount := 0 } := by
  unfold clearedQueues
  exact foldl_range_rewrite_get (get := State.queue) State.setQueue_queue State.setQueue_queue_ne (fun x => { x with sentCount := 0, dropCount := 0, polCount := 0 }) s h

theorem clearedQueues_frame (s : State) : ∃ c, clearedQueues s = { s with sch := c } := by
  unfold clearedQueues
  exact foldl_frame (fun c => ({ s with sch := c } : State)) (fun _ _ => ⟨_, rfl⟩) _ s.sch

theorem schClrCounts_queue (s : State) {q : Nat} (h : q < 256) :
    (schClrCounts s).queue q = { s.queue q with sentCount := 0, dropCount := 0, polCount := 0 } := by
  rw [schClrCounts_eq, State.withCtlDrop_queue, clearedQueues_queue s h]

theorem schClrCounts_frame (s : State) : ∃ c : Sch, schClrCounts s = { s with sch := { c with ctlDrop := 0 } } := by
  obtain ⟨c, h⟩ := clearedQueues_frame s
  rw [schClrCounts_eq, h]
  exact ⟨c, rfl⟩

/-! ## Counters of the far lanes and their bonds -/

/-- The state with the counters of every far lane cleared: the first half of MND CLR_COUNTS. -/
def clearedMlanes (s : State) : State :=
  (List.range 128).foldl (fun s g => s.setMlane g { s.mlane g with maxSym := 0, corrSym := 0, corrCw := 0, uncorrCw := 0, highSym := 0, loaCount := 0 }) s

/-- The state with the counters of every stripe bond cleared: the second half. -/
def clearedMbonds (s : State) : State :=
  (List.range 16).foldl (fun s b => s.setMbond b { s.mbond b with recovered := 0, lost := 0, synd := 0, req := 0, resent := 0, gone := 0, giveup := 0, evict := 0, dup := 0 }) s

theorem mndClrCounts_eq (s : State) : mndClrCounts s = clearedMbonds (clearedMlanes s) := rfl

theorem clearedMlanes_mlane (s : State) {g : Nat} (h : g < 128) :
    (clearedMlanes s).mlane g = { s.mlane g with maxSym := 0, corrSym := 0, corrCw := 0, uncorrCw := 0, highSym := 0, loaCount := 0 } := by
  unfold clearedMlanes
  exact foldl_range_rewrite_get (get := State.mlane) State.setMlane_mlane State.setMlane_mlane_ne
    (fun x => { x with maxSym := 0, corrSym := 0, corrCw := 0, uncorrCw := 0, highSym := 0, loaCount := 0 }) s h

theorem clearedMlanes_frame (s : State) : ∃ t, clearedMlanes s = { s with mnd := { s.mnd with lanes := t } } := by
  unfold clearedMlanes
  exact foldl_frame (fun t => ({ s with mnd := { s.mnd with lanes := t } } : State)) (fun _ _ => ⟨_, rfl⟩) _ s.mnd.lanes

theorem clearedMbonds_mbond (s : State) {b : Nat} (h : b < 16) :
    (clearedMbonds s).mbond b = { s.mbond b with recovered := 0, lost := 0, synd := 0, req := 0, resent := 0, gone := 0, giveup := 0, evict := 0, dup := 0 } := by
  unfold clearedMbonds
  exact foldl_range_rewrite_get (get := State.mbond) State.setMbond_mbond State.setMbond_mbond_ne
    (fun x => { x with recovered := 0, lost := 0, synd := 0, req := 0, resent := 0, gone := 0, giveup := 0, evict := 0, dup := 0 }) s h

theorem clearedMbonds_frame (s : State) : ∃ t, clearedMbonds s = { s with mnd := { s.mnd with bonds := t } } := by
  unfold clearedMbonds
  exact foldl_frame (fun t => ({ s with mnd := { s.mnd with bonds := t } } : State)) (fun _ _ => ⟨_, rfl⟩) _ s.mnd.bonds

theorem State.withMbonds_mlane (s : State) (t : Tab MBond) (g : Nat) : State.mlane { s with mnd := { s.mnd with bonds := t } } g = s.mlane g := rfl

theorem mndClrCounts_mlane (s : State) {g : Nat} (h : g < 128) :
    (mndClrCounts s).mlane g = { s.mlane g with maxSym := 0, corrSym := 0, corrCw := 0, uncorrCw := 0, highSym := 0, loaCount := 0 } := by
  obtain ⟨t, ht⟩ := clearedMbonds_frame (clearedMlanes s)
  rw [mndClrCounts_eq, ht, State.withMbonds_mlane, clearedMlanes_mlane s h]

theorem mndClrCounts_mbond (s : State) {b : Nat} (h : b < 16) :
    (mndClrCounts s).mbond b = { s.mbond b with recovered := 0, lost := 0, synd := 0, req := 0, resent := 0, gone := 0, giveup := 0, evict := 0, dup := 0 } := by
  obtain ⟨t, ht⟩ := clearedMlanes_frame s
  rw [mndClrCounts_eq, ht]
  exact clearedMbonds_mbond _ h

theorem mndClrCounts_frame (s : State) : ∃ m, mndClrCounts s = { s with mnd := m } := by
  obtain ⟨l, hl⟩ := clearedMlanes_frame s
  obtain ⟨b, hb⟩ := clearedMbonds_frame { s with mnd := { s.mnd with lanes := l } }
  rw [mndClrCounts_eq, hl, hb]
  exact ⟨_, rfl⟩

/-! ## Counters of a far port -/

theorem mem_portLanes {p g : Nat} : g ∈ portLanes p ↔ g / 8 = p := by
  simp only [portLanes, List.mem_map, List.mem_range]
  constructor
  · rintro ⟨l, hl, rfl⟩; omega
  · rintro rfl; exact ⟨g % 8, Nat.mod_lt _ (by decide), by omega⟩

theorem nodup_portLanes (p : Nat) : (portLanes p).Nodup :=
  List.pairwise_map.mpr (List.Pairwise.imp (fun h e => h (Nat.add_left_cancel e)) (List.nodup_range (n := 8)))

/-- The state with the counters of a port's lanes cleared. -/
def clearedLanes (s : State) (p : Nat) : State :=
  (portLanes p).foldl (fun s g => s.setLane g { s.lane g with oofCount := 0, ohcrcCount := 0, lateCount := 0, rangeCount := 0, falseCount := 0 }) s

theorem clearedLanes_lane (s : State) (p g : Nat) :
    (clearedLanes s p).lane g = if g / 8 = p then { s.lane g with oofCount := 0, ohcrcCount := 0, lateCount := 0, rangeCount := 0, falseCount := 0 } else s.lane g := by
  rw [clearedLanes, foldl_rewrite_get (get := State.lane) State.setLane_lane State.setLane_lane_ne
    (fun x => { x with oofCount := 0, ohcrcCount := 0, lateCount := 0, rangeCount := 0, falseCount := 0 }) (nodup_portLanes p)]
  simp only [mem_portLanes]

theorem clearedLanes_frame (s : State) (p : Nat) : ∃ t, clearedLanes s p = { s with rnd := { s.rnd with lanes := t } } := by
  unfold clearedLanes
  exact foldl_frame (fun t => ({ s with rnd := { s.rnd with lanes := t } } : State)) (fun _ _ => ⟨_, rfl⟩) _ s.rnd.lanes

/-- The state with other tributary channels. -/
def State.withTribs (s : State) (t : Tab Trib) : State := { s with rnd := { s.rnd with tribs := t } }
@[simp] theorem State.withTribs_lane (s : State) (t : Tab Trib) (g : Nat) : (s.withTribs t).lane g = s.lane g := rfl
@[simp] theorem State.withTribs_bond (s : State) (t : Tab Trib) (b : Nat) : (s.withTribs t).bond b = s.bond b := rfl

/-- RND CLR_COUNTS clears the counters of the lanes and of the bond, and those of the tributary channel where the port has one. -/
theorem rndClrCounts_eq (s : State) (p : Nat) :
    ∃ t, rndClrCounts s p = ((clearedLanes s p).setBond p { s.bond p with pchTrunc := 0 }).withTribs t := by
  have hl : (List.range 8).foldl (fun s l => s.setLane (8 * p + l) { s.lane (8 * p + l) with oofCount := 0, ohcrcCount := 0, lateCount := 0, rangeCount := 0, falseCount := 0 }) s
      = clearedLanes s p := by rw [clearedLanes, portLanes, List.foldl_map]
  obtain ⟨t, ht⟩ := clearedLanes_frame s p
  unfold rndClrCounts
  simp only [hl, ht]
  split <;> exact ⟨_, rfl⟩

theorem rndClrCounts_lane (s : State) (p g : Nat) :
    (rndClrCounts s p).lane g = if g / 8 = p then { s.lane g with oofCount := 0, ohcrcCount := 0, lateCount := 0, rangeCount := 0, falseCount := 0 } else s.lane g := by
  obtain ⟨t, ht⟩ := rndClrCounts_eq s p
  rw [ht, State.withTribs_lane, State.setBond_lane, clearedLanes_lane]

theorem rndClrCounts_bond (s : State) (p : Nat) : (rndClrCounts s p).bond p = { s.bond p with pchTrunc := 0 } := by
  obtain ⟨t, ht⟩ := rndClrCounts_eq s p
  rw [ht, State.withTribs_bond, State.setBond_bond]

theorem rndClrCounts_frame (s : State) (p : Nat) : ∃ r, rndClrCounts s p = { s with rnd := r } := by
  obtain ⟨t, ht⟩ := rndClrCounts_eq s p
  obtain ⟨l, hl⟩ := clearedLanes_frame s p
  rw [ht, hl]
  exact ⟨_, rfl⟩

/-! ## What a reading into the ledger leaves alone, R566 -/

/-- Only the Snag ledger differs. -/
def LedgerOnly (s t : State) : Prop := ∃ g, t = { s with sng := g }

theorem LedgerOnly.refl (s : State) : LedgerOnly s s := ⟨s.sng, rfl⟩

theorem LedgerOnly.trans {s t u : State} (h : LedgerOnly s t) (h' : LedgerOnly t u) : LedgerOnly s u := by
  obtain ⟨g, rfl⟩ := h
  obtain ⟨g', rfl⟩ := h'
  exact ⟨g', rfl⟩

theorem LedgerOnly.eng {s t : State} (h : LedgerOnly s t) (e : Nat) : t.eng e = s.eng e := by
  obtain ⟨g, rfl⟩ := h
  rfl

theorem LedgerOnly.foldl {ι : Type} {step : State → ι → State} (h : ∀ s i, LedgerOnly s (step s i)) (l : List ι) (s : State) : LedgerOnly s (l.foldl step s) :=
  List.foldlRecOn (motive := LedgerOnly s) l step (.refl s) fun t ht i _ => ht.trans (h t i)

/-- The ledger with the value noted that was read of a counter. -/
def noteRead (s : State) (key v : Nat) : State := { s with sng := { s.sng with lastRead := Tab.put 0 s.sng.lastRead key v } }

/-- The increase of a counter since its last read. -/
def sinceLast (s : State) (key v : Nat) : Nat :=
  let last := Tab.get 0 s.sng.lastRead key
  if v < last then v else v - last

/-- A reading notes the value, and marks the part of a counter that has grown to its largest value. -/
theorem readCounter_eq (s : State) (p : BitVec 16) (key v : Nat) :
    readCounter s p key v = (sinceLast s key v,
      if v = 0xFFFFFFFF ∧ 0 < sinceLast s key v then
        sngErr ((noteRead s key v).setPart p.toNat { (noteRead s key v).part p.toNat with saturated := true }) 4
      else noteRead s key v) := rfl

theorem setPart_ledgerOnly (s : State) (p : Nat) (x : Summary) : LedgerOnly s (s.setPart p x) := ⟨_, rfl⟩

theorem readCounter_ledgerOnly (s : State) (p : BitVec 16) (k v : Nat) : LedgerOnly s (readCounter s p k v).2 := by
  rw [readCounter_eq]
  dsimp only
  split <;> exact ⟨_, rfl⟩

theorem addField_ledgerOnly (s : State) (p : BitVec 16) (f : LedgerField) (n : Nat) : LedgerOnly s (addField s p f n) := by
  unfold addField
  split
  · exact .refl s
  · cases f <;> exact ⟨_, rfl⟩

theorem pollOne_ledgerOnly (s : State) (p : BitVec 16) (k : Nat) (f : LedgerField) (c : Nat) : LedgerOnly s (pollOne s p k f c) :=
  (readCounter_ledgerOnly s p k c).trans (addField_ledgerOnly _ p f _)

theorem LedgerOnly.pollOne {s t : State} (h : LedgerOnly s t) (p : BitVec 16) (k : Nat) (f : LedgerField) (c : Nat) : LedgerOnly s (pollOne t p k f c) :=
  h.trans (pollOne_ledgerOnly t p k f c)

theorem pollEngine_ledgerOnly (s : State) (e : Nat) : LedgerOnly s (pollEngine s e) := by
  unfold pollEngine
  extract_lets b s₁
  have h₁ : LedgerOnly s s₁ := pollOne_ledgerOnly ..
  exact h₁.pollOne ..

theorem pollStack_ledgerOnly (s : State) (k : Nat) : LedgerOnly s (pollStack s k) := by
  unfold pollStack
  extract_lets b s₁ s₂
  have h₁ : LedgerOnly s s₁ := pollOne_ledgerOnly ..
  have h₂ : LedgerOnly s s₂ := h₁.pollOne ..
  exact h₂.pollOne ..

theorem pollLane_ledgerOnly (s : State) (g : Nat) : LedgerOnly s (pollLane s g) := by
  unfold pollLane
  extract_lets b p s₁ s₂ s₃ s₄ s₅ s₆
  have h₁ : LedgerOnly s s₁ := pollOne_ledgerOnly ..
  have h₂ : LedgerOnly s s₂ := h₁.pollOne ..
  have h₃ : LedgerOnly s s₃ := h₂.pollOne ..
  have h₄ : LedgerOnly s s₄ := h₃.pollOne ..
  have h₅ : LedgerOnly s s₅ := h₄.pollOne ..
  have h₆ : LedgerOnly s s₆ := h₅.pollOne ..
  exact (h₆.trans (setPart_ledgerOnly ..)).trans (setPart_ledgerOnly ..)

theorem pollHost_ledgerOnly (s : State) : LedgerOnly s (pollHost s) := pollOne_ledgerOnly ..

/-- A clearing between two readings differs in the ledger alone from the clearing itself. -/
theorem read_clear_read {read clear : State → State} (h : ∀ s, LedgerOnly s (read s)) (s : State) :
    ∃ g g', read (clear (read s)) = { clear { s with sng := g } with sng := g' } := by
  obtain ⟨g, hg⟩ := h s
  obtain ⟨g', hg'⟩ := h (clear (read s))
  exact ⟨g, g', by rw [hg', hg]⟩

/-! ## What a reading adds to a part, R565 and R566 -/

/-- A counter never read before, or read as 0, has increased by its whole value. -/
theorem sinceLast_of_zero {s : State} {key : Nat} (v : Nat) (h : Tab.get 0 s.sng.lastRead key = 0) : sinceLast s key v = v := by
  simp [sinceLast, h]

/-- A counter that has been cleared has not increased. -/
theorem sinceLast_zero (s : State) (key : Nat) : sinceLast s key 0 = 0 := by
  simp [sinceLast]

theorem readCounter_lastRead (s : State) (p : BitVec 16) (key v : Nat) : (readCounter s p key v).2.sng.lastRead = Tab.put 0 s.sng.lastRead key v := by
  rw [readCounter_eq]
  dsimp only
  split <;> rfl

theorem addField_lastRead (s : State) (p : BitVec 16) (f : LedgerField) (n : Nat) : (addField s p f n).sng.lastRead = s.sng.lastRead := by
  unfold addField
  split
  · rfl
  · cases f <;> rfl

theorem pollOne_lastRead (s : State) (p : BitVec 16) (key : Nat) (f : LedgerField) (c : Nat) :
    (pollOne s p key f c).sng.lastRead = Tab.put 0 s.sng.lastRead key c :=
  (addField_lastRead ..).trans (readCounter_lastRead s p key c)

/-- Reading a counter adds nothing to the part by itself. -/
theorem readCounter_part (s : State) (p : BitVec 16) (key v : Nat) :
    ((readCounter s p key v).2.part p.toNat).corr = (s.part p.toNat).corr ∧ ((readCounter s p key v).2.part p.toNat).retry = (s.part p.toNat).retry := by
  rw [readCounter_eq]
  dsimp only
  split
  · have h : ∀ t : State, (sngErr t 4).part p.toNat = t.part p.toNat := fun _ => rfl
    rw [h, State.setPart_part]
    exact ⟨rfl, rfl⟩
  · exact ⟨rfl, rfl⟩

/-- A counter stays where nothing is added to it. -/
@[simp] theorem bump_zero (c : Count) : bump c 0 = c := by
  apply BitVec.eq_of_toNat_eq
  rw [bump_toNat]
  have := c.isLt
  omega

/-- Corrected events that the ledger takes, up to the largest count, leave the retries alone. -/
theorem addField_corr_part (s : State) (p : BitVec 16) (n : Nat) :
    ((addField s p .corr n).part p.toNat).corr.toNat = min (2 ^ 64 - 1) ((s.part p.toNat).corr.toNat + n)
      ∧ ((addField s p .corr n).part p.toNat).retry = (s.part p.toNat).retry := by
  have hc := (s.part p.toNat).corr.isLt
  unfold addField
  split
  · next h => subst h; exact ⟨by omega, rfl⟩
  · simp only [partErrors, State.setPart_part, BitVec.toNat_ofNat, and_true]
    omega

/-- Retries that the ledger takes leave the corrected events alone. -/
theorem addField_retry_part (s : State) (p : BitVec 16) (n : Nat) :
    ((addField s p .retry n).part p.toNat).retry = bump (s.part p.toNat).retry n
      ∧ ((addField s p .retry n).part p.toNat).corr = (s.part p.toNat).corr := by
  unfold addField
  split
  · next h => subst h; exact ⟨(bump_zero _).symm, rfl⟩
  · simp only [partRetry, State.setPart_part, addCount, and_self]

theorem pollOne_corr_part (s : State) (p : BitVec 16) (key c : Nat) :
    ((pollOne s p key .corr c).part p.toNat).corr.toNat = min (2 ^ 64 - 1) ((s.part p.toNat).corr.toNat + sinceLast s key c)
      ∧ ((pollOne s p key .corr c).part p.toNat).retry = (s.part p.toNat).retry := by
  obtain ⟨hc, hr⟩ := readCounter_part s p key c
  rw [← hc, ← hr]
  exact addField_corr_part _ p _

theorem pollOne_retry_part (s : State) (p : BitVec 16) (key c : Nat) :
    ((pollOne s p key .retry c).part p.toNat).retry = bump (s.part p.toNat).retry (sinceLast s key c)
      ∧ ((pollOne s p key .retry c).part p.toNat).corr = (s.part p.toNat).corr := by
  obtain ⟨hc, hr⟩ := readCounter_part s p key c
  rw [← hc, ← hr]
  exact addField_retry_part _ p _

/-- What one reading of an engine's two counters adds to the engine's record. -/
theorem pollEngine_part (s : State) (e : Nat) :
    ((pollEngine s e).part (partId 1 e).toNat).corr.toNat
        = min (2 ^ 64 - 1) ((s.part (partId 1 e).toNat).corr.toNat + sinceLast s (0x40000 + e * 0x1000 + 0x24) (s.eng e).laCeCount.toNat)
      ∧ ((pollEngine s e).part (partId 1 e).toNat).retry
        = bump (s.part (partId 1 e).toNat).retry (sinceLast s (0x40000 + e * 0x1000 + 0x28) (s.eng e).arriveCrcCount.toNat) := by
  unfold pollEngine
  extract_lets b t
  obtain ⟨hc, hr⟩ := pollOne_corr_part s (partId 1 e) (b + 0x24) (s.eng e).laCeCount.toNat
  obtain ⟨hr', hc'⟩ := pollOne_retry_part t (partId 1 e) (b + 0x28) (t.eng e).arriveCrcCount.toNat
  have he : t.eng e = s.eng e := (pollOne_ledgerOnly s ..).eng e
  have hs : ∀ v, sinceLast t (b + 0x28) v = sinceLast s (b + 0x28) v := by
    intro v
    unfold sinceLast
    rw [pollOne_lastRead, Tab.get_put_ne 0 0 _ _ _ _ (by omega)]
  rw [hc', hr', hr, hs, he]
  exact ⟨hc, rfl⟩

@[simp] theorem engClrCounts_eng (s : State) (e : Nat) :
    (engClrCounts s e).eng e = { (s.eng e).countWaits s with satCount := 0, laCeCount := 0, arriveCrcCount := 0, waitCount := 0, waitCycles := 0 } := by
  rw [engClrCounts, State.setEng_eng]

@[simp] theorem engClrCounts_part (s : State) (e p : Nat) : (engClrCounts s e).part p = s.part p := rfl

/-- The ledger takes an engine's counters before they are cleared, and nothing after. -/
theorem clearEngine_part (s : State) (e : Nat) :
    ((clearEngine s e).part (partId 1 e).toNat).corr.toNat
        = min (2 ^ 64 - 1) ((s.part (partId 1 e).toNat).corr.toNat + sinceLast s (0x40000 + e * 0x1000 + 0x24) (s.eng e).laCeCount.toNat)
      ∧ ((clearEngine s e).part (partId 1 e).toNat).retry
        = bump (s.part (partId 1 e).toNat).retry (sinceLast s (0x40000 + e * 0x1000 + 0x28) (s.eng e).arriveCrcCount.toNat) := by
  obtain ⟨hc, hr⟩ := pollEngine_part s e
  obtain ⟨hc', hr'⟩ := pollEngine_part (engClrCounts (pollEngine s e) e) e
  have hz : (0 : Count).toNat = 0 := rfl
  rw [engClrCounts_eng, engClrCounts_part, hc, hz, sinceLast_zero] at hc'
  rw [engClrCounts_eng, engClrCounts_part, hr, hz, sinceLast_zero, bump_zero] at hr'
  exact ⟨hc'.trans (by omega), hr'⟩

/-! ## A clearing between two readings -/

theorem clearEngine_eng (s : State) (e : Nat) :
    (clearEngine s e).eng e = { (s.eng e).countWaits s with satCount := 0, laCeCount := 0, arriveCrcCount := 0, waitCount := 0, waitCycles := 0 } := by
  obtain ⟨g, g', h⟩ := read_clear_read (clear := (engClrCounts · e)) (pollEngine_ledgerOnly · e) s
  rw [clearEngine, h]
  exact engClrCounts_eng { s with sng := g } e

theorem clearEngine_frame (s : State) (e : Nat) :
    (∀ d, d ≠ e → (clearEngine s e).eng d = s.eng d) ∧ { clearEngine s e with engines := s.engines, sng := s.sng } = s := by
  obtain ⟨g, g', h⟩ := read_clear_read (clear := (engClrCounts · e)) (pollEngine_ledgerOnly · e) s
  rw [clearEngine, h]
  exact ⟨fun d hd => State.setEng_eng_ne _ e d _ hd, rfl⟩

theorem clearStack_stack (s : State) (k : Nat) : (clearStack s k).stack k = { s.stack k with ce := 0, ue := 0, odecc := 0, patrol := 0 } := by
  obtain ⟨g, g', h⟩ := read_clear_read (clear := (hbmClrCounts · k)) (pollStack_ledgerOnly · k) s
  rw [clearStack, h]
  exact State.setStack_stack _ k _

theorem clearStack_frame (s : State) (k : Nat) :
    (∀ d, d ≠ k → (clearStack s k).stack d = s.stack d) ∧ (clearStack s k).hbm.bytes = s.hbm.bytes ∧ { clearStack s k with hbm := s.hbm, sng := s.sng } = s := by
  obtain ⟨g, g', h⟩ := read_clear_read (clear := (hbmClrCounts · k)) (pollStack_ledgerOnly · k) s
  rw [clearStack, h]
  exact ⟨fun d hd => State.setStack_stack_ne _ k d _ hd, rfl, rfl⟩

theorem clearHwk_eq (s : State) : ∃ g, clearHwk s = { hwkClrCounts s with sng := g } := by
  obtain ⟨g, g', h⟩ := read_clear_read (clear := hwkClrCounts) pollHost_ledgerOnly s
  exact ⟨g', h⟩

/-- A port between the readings of its lanes. -/
theorem clearRndPort_eq (s : State) (p : Nat) : ∃ g g', clearRndPort s p = { rndClrCounts { s with sng := g } p with sng := g' } :=
  read_clear_read (clear := (rndClrCounts · p)) (LedgerOnly.foldl pollLane_ledgerOnly (portLanes p)) s

theorem clearRndPort_lane (s : State) (p i : Nat) :
    (clearRndPort s p).lane i = if i / 8 = p then { s.lane i with oofCount := 0, ohcrcCount := 0, lateCount := 0, rangeCount := 0, falseCount := 0 } else s.lane i := by
  obtain ⟨g, g', h⟩ := clearRndPort_eq s p
  rw [h]
  exact rndClrCounts_lane { s with sng := g } p i

theorem clearRndPort_bond (s : State) (p : Nat) : (clearRndPort s p).bond p = { s.bond p with pchTrunc := 0 } := by
  obtain ⟨g, g', h⟩ := clearRndPort_eq s p
  rw [h]
  exact rndClrCounts_bond { s with sng := g } p

theorem clearRndPort_frame (s : State) (p : Nat) : { clearRndPort s p with rnd := s.rnd, sng := s.sng } = s := by
  obtain ⟨g, g', h⟩ := clearRndPort_eq s p
  obtain ⟨r, hr⟩ := rndClrCounts_frame { s with sng := g } p
  rw [h, hr]

/-- The far lanes and their bonds between the readings of every lane. -/
theorem clearMnd_eq (s : State) : ∃ g g', clearMnd s = { mndClrCounts { s with sng := g } with sng := g' } :=
  read_clear_read (clear := mndClrCounts) (LedgerOnly.foldl pollLane_ledgerOnly (List.range 128)) s

theorem State.withLedger_mlane (s : State) (g : Sng) (i : Nat) : State.mlane { s with sng := g } i = s.mlane i := rfl
theorem State.withLedger_mbond (s : State) (g : Sng) (b : Nat) : State.mbond { s with sng := g } b = s.mbond b := rfl

theorem clearMnd_mlane (s : State) {i : Nat} (hi : i < 128) :
    (clearMnd s).mlane i = { s.mlane i with maxSym := 0, corrSym := 0, corrCw := 0, uncorrCw := 0, highSym := 0, loaCount := 0 } := by
  obtain ⟨g, g', h⟩ := clearMnd_eq s
  rw [h, State.withLedger_mlane, mndClrCounts_mlane _ hi, State.withLedger_mlane]

theorem clearMnd_mbond (s : State) {b : Nat} (hb : b < 16) :
    (clearMnd s).mbond b = { s.mbond b with recovered := 0, lost := 0, synd := 0, req := 0, resent := 0, gone := 0, giveup := 0, evict := 0, dup := 0 } := by
  obtain ⟨g, g', h⟩ := clearMnd_eq s
  rw [h, State.withLedger_mbond, mndClrCounts_mbond _ hb, State.withLedger_mbond]

theorem clearMnd_frame (s : State) : { clearMnd s with mnd := s.mnd, sng := s.sng } = s := by
  obtain ⟨g, g', h⟩ := clearMnd_eq s
  obtain ⟨m, hm⟩ := mndClrCounts_frame { s with sng := g }
  rw [h, hm]

/-! ## The commands, R5, R6, R115, R313 and R566 -/

theorem exec_csrWrite {s : State} (hs : Live s) {a v : BitVec 32} {t : State} (h : writeWord s a v = some t) : exec (.csrWrite a v) s = .next t :=
  (act_live hs (csrWrite s a v)).trans (by rw [csrWrite, h]; rfl)

theorem exec_csrWrite_refused {s : State} (hs : Live s) {a : BitVec 32} (h : locate a = none) (v : BitVec 32) : exec (.csrWrite a v) s = .next s :=
  (act_live hs (csrWrite s a v)).trans (by rw [csrWrite, writeWord_refused h]; rfl)

theorem exec_wideRegisterLowRead {s : State} (hs : Live s) {a : BitVec 32} {t : State} (h : csrRead s a = t) : exec (.wideRegisterLowRead a) s = .next t :=
  (act_live hs (csrRead s a)).trans (by rw [h])

/-- A read of a low word changes the captures alone, and holds there the words above it; PLB_TIME, which also captures PLB_COUNT, is set apart. -/
theorem lowRead_answers {s : State} (hs : Live s) {a : BitVec 32} {b : Blk} {off : Nat} {w : Wide} (h : locate a = some (b, off))
    (hw : wideOf s b off = some (w, 0)) (ha : a ≠ 0x10010) :
    Answers (.wideRegisterLowRead a) s fun t => { t with captures := s.captures } = s ∧
      (∀ k, 1 ≤ k → k < w.words → Tab.get none t.captures (a.toNat + 4 * k) = some (word32 w.value k)) := by
  have ha' : a.toNat ≠ 0x10010 := fun e => ha (BitVec.eq_of_toNat_eq e)
  exact ⟨_, exec_wideRegisterLowRead hs (csrRead_low h hw), rfl, fun k h1 hk => capture_get s w ha' h1 hk⟩

theorem partId_engine (e : Fin 64) : (partId 1 e.val).toNat = 0x1000 + e.val := by
  rw [partId, BitVec.toNat_ofNat]
  omega

/-- Settles O56: each clause by the law of the one command that it speaks of. -/
theorem registers : Obligations.Registers := by
  unfold Obligations.Registers
  intro s hs
  refine ⟨?refused, ?plain, ?wide, act_live hs _, act_live hs _, act_live hs _, act_live hs _, act_live hs _, act_live hs _, act_live hs _, act_live hs _, act_live hs _,
    fun n => act_live hs _, fun k => act_live hs _, ?sealer, ?delays, ?queues, ?farLanes, ?farPort, ?engine, ?stack, ?hawk⟩
  case refused =>
    exact fun a v => ⟨fun h => ⟨exec_csrWrite_refused hs h v, exec_wideRegisterLowRead hs (csrRead_refused h)⟩, (writeWord_eq_none_iff s a v).symm⟩
  case plain =>
    exact fun a v b off h hw => ⟨exec_csrWrite hs (writeWord_plain h hw), exec_wideRegisterLowRead hs (csrRead_plain h hw)⟩
  case wide =>
    refine fun a v b off w i h hw => ⟨fun hi => exec_csrWrite hs (writeWord_lower h hw hi), fun hi h2 => exec_csrWrite hs (writeWord_higher h hw hi h2),
      fun hi => exec_wideRegisterLowRead hs (csrRead_higher h hw hi), ?_⟩
    rintro rfl ha
    exact lowRead_answers hs h hw ha
  case sealer =>
    obtain ⟨t, ht⟩ := slrClrCounts_frame s
    have hb := fun b (h : b < 16) => slrClrCounts_sbond s h
    refine .of_act hs (t := slrClrCounts s) rfl ?_
    rw [ht] at hb ⊢
    exact ⟨rfl, rfl, rfl, rfl, hb, rfl, rfl, rfl⟩
  case delays =>
    obtain ⟨c, hc⟩ := clrMax_frame s
    exact .of_act hs (t := clrMax s) rfl ⟨fun q => clrMax_queue s, by rw [hc]⟩
  case queues =>
    obtain ⟨c, hc⟩ := schClrCounts_frame s
    exact .of_act hs (t := schClrCounts s) rfl ⟨by rw [hc], fun q => schClrCounts_queue s, by rw [hc]⟩
  case farLanes =>
    exact .of_act hs (t := clearMnd s) rfl ⟨fun g => clearMnd_mlane s, fun b => clearMnd_mbond s, clearMnd_frame s⟩
  case farPort =>
    intro p
    have hl := clearRndPort_lane s p.val
    exact .of_act hs (t := clearRndPort s p.val) rfl
      ⟨fun l h => (hl _).trans (if_pos (by omega)), clearRndPort_bond s p.val, fun g hg => (hl g).trans (if_neg hg), clearRndPort_frame s p.val⟩
  case engine =>
    intro e
    obtain ⟨hd, hf⟩ := clearEngine_frame s e.val
    obtain ⟨hc, hr⟩ := clearEngine_part s e.val
    rw [partId_engine] at hc hr
    refine .of_act hs (t := clearEngine s e.val) rfl ⟨clearEngine_eng s e.val, hd, hf, fun hr0 hc0 => ?_⟩
    rw [sinceLast_of_zero _ hc0] at hc
    rw [sinceLast_of_zero _ hr0] at hr
    exact ⟨hc, hr⟩
  case stack =>
    intro k
    exact .of_act hs (t := clearStack s k.val) rfl ⟨clearStack_stack s k.val, clearStack_frame s k.val⟩
  case hawk =>
    obtain ⟨g, h⟩ := clearHwk_eq s
    refine .of_act hs (t := clearHwk s) rfl ?_
    rw [h]
    exact ⟨rfl, rfl⟩

/-! ## The device after reset, R9 -/

/-- Settles O60: State.reset gives every field its Reset value, and an entry of an array that nothing has written reads as its own Reset value. -/
theorem afterReset : Obligations.AfterReset :=
  ⟨rfl, rfl, rfl, rfl, fun _ _ => ⟨rfl, rfl, rfl⟩, rfl, rfl, rfl, fun _ _ => ⟨rfl, rfl⟩, rfl, fun _ _ => ⟨rfl, rfl⟩, rfl, rfl, fun _ _ => rfl, rfl, rfl, rfl, rfl, rfl, rfl, rfl⟩

end Sys2Proof.Machine

/-! The engine's readiness in TOP (R28 to R32, R110), and the step of the machine: the front command, or a tick of Plumb (R288, R310). -/

namespace Sys2Proof.Machine

/-! ## An engine's readiness bit, R32 and R110 -/

@[simp] theorem setTrwReady_eng (s : State) (e j : Nat) (b : Bool) : (setTrwReady s e b).eng j = s.eng j := rfl

@[simp] theorem setTrwReady_trw (s : State) (e : Nat) (b : Bool) : (setTrwReady s e b).top.trw = putBit s.top.trw e b := rfl

/-- A fall of the readiness bit sets the engines' bit of the drop register. -/
theorem setTrwReady_drop (s : State) (e : Nat) (b : Bool) :
    (setTrwReady s e b).top.drop.getLsbD 9 = (s.top.drop.getLsbD 9 || (s.top.trw.getLsbD e && !b)) := by
  show (if s.top.trw.getLsbD e && !b then putBit s.top.drop 9 true else s.top.drop).getLsbD 9 = _
  split
  case isTrue fell => rw [fell, putBit_self _ _ _ (by decide), Bool.or_true]
  case isFalse kept => rw [eq_false_of_ne_true kept, Bool.or_false]

theorem setTrwReady_drop_ne (s : State) (e : Nat) (b : Bool) {j : Nat} (h : j ≠ 9) :
    (setTrwReady s e b).top.drop.getLsbD j = s.top.drop.getLsbD j := by
  show (if s.top.trw.getLsbD e && !b then putBit s.top.drop 9 true else s.top.drop).getLsbD j = _
  split
  · exact putBit_other _ _ _ _ (by decide) h
  · rfl

/-! ## An engine's STATE, R110 -/

@[simp] theorem setEngSt_eng (s : State) (e : Nat) (st : EngSt) : (setEngSt s e st).eng e = { s.eng e with st := st } :=
  State.setEng_eng s e _

theorem setEngSt_eng_ne (s : State) {e j : Nat} (st : EngSt) (h : j ≠ e) : (setEngSt s e st).eng j = s.eng j :=
  State.setEng_eng_ne s e j _ h

@[simp] theorem setEngSt_trw (s : State) (e : Nat) (st : EngSt) : (setEngSt s e st).top.trw = putBit s.top.trw e st.ready := rfl

theorem setEngSt_drop (s : State) (e : Nat) (st : EngSt) :
    (setEngSt s e st).top.drop.getLsbD 9 = (s.top.drop.getLsbD 9 || (s.top.trw.getLsbD e && !st.ready)) :=
  setTrwReady_drop (s.setEng e { s.eng e with st := st }) e st.ready

theorem setEngSt_drop_ne (s : State) (e : Nat) (st : EngSt) {j : Nat} (h : j ≠ 9) :
    (setEngSt s e st).top.drop.getLsbD j = s.top.drop.getLsbD j :=
  setTrwReady_drop_ne (s.setEng e { s.eng e with st := st }) e st.ready h

/-- A change of an engine's STATE reaches the engines and TOP alone. -/
theorem setEngSt_frame (s : State) (e : Nat) (st : EngSt) : { setEngSt s e st with engines := s.engines, top := s.top } = s := rfl

/-- Settles O13: the engine's own laws, and those of the two TOP registers bit by bit. -/
theorem engineReadiness : Obligations.EngineReadiness := by
  unfold Obligations.EngineReadiness
  intro s e st
  refine ⟨setEngSt_eng s e st, fun j => setEngSt_eng_ne s st, ?ready, ?otherReady, setEngSt_drop s e st, fun j => setEngSt_drop_ne s e st, setEngSt_frame s e st⟩
  case ready => rw [setEngSt_trw, putBit_self _ _ _ e.isLt]
  case otherReady => exact fun j hj => by rw [setEngSt_trw, putBit_other _ _ _ _ e.isLt hj]

/-! ## What leaves full time alone, R292 to R298 -/

/-- A run of steps of which each leaves full time alone leaves it alone. -/
theorem foldl_plb_time {ι : Type} {f : State → ι → State} (h : ∀ s i, (f s i).plb.time = s.plb.time) (l : List ι) (s : State) :
    (l.foldl f s).plb.time = s.plb.time :=
  List.foldlRecOn (motive := fun t => t.plb.time = s.plb.time) l f rfl fun t ht i _ => (h t i).trans ht

@[simp] theorem setReady_plb (s : State) (i : Nat) (b : Bool) : (setReady s i b).plb = s.plb := rfl

@[simp] theorem setInc_time (s : State) (v : Nat) : (setInc s v).plb.time = s.plb.time := by
  unfold setInc
  simp only []
  split <;> rfl

@[simp] theorem ppsFollow_time (s : State) : (ppsFollow s).plb.time = s.plb.time := by
  unfold ppsFollow armPps
  split
  · rfl
  · split <;> rfl

@[simp] theorem setPlbSt_time (s : State) (st : PlbSt) : (setPlbSt s st).plb.time = s.plb.time := by
  unfold setPlbSt
  split
  · rfl
  · rw [ppsFollow_time, setReady_plb]
    cases s.plb.lockFrom <;> cases st <;> rfl

@[simp] theorem holdSteer_time (s : State) : (holdSteer s).plb.time = s.plb.time := setInc_time _ _

@[simp] theorem enterHoldover_time (s : State) : (enterHoldover s).plb.time = s.plb.time := by
  unfold enterHoldover
  split
  · rfl
  · rw [holdSteer_time, setPlbSt_time]

@[simp] theorem plbSettle_time (s : State) : (plbSettle s).plb.time = s.plb.time := by
  unfold plbSettle
  split
  · exact setPlbSt_time s _
  · split
    · split
      · exact setPlbSt_time s _
      · rfl
    · split
      · rfl
      · exact enterHoldover_time s

@[simp] theorem qualify_time (s : State) (i : Nat) : (qualify s i).plb.time = s.plb.time := State.setSrc_plb_time s i _

@[simp] theorem reselect_time (s : State) : (reselect s).plb.time = s.plb.time := by
  unfold reselect
  simp only []
  split
  · rfl
  · rw [plbSettle_time]
    split <;> rfl

@[simp] theorem requalify_time (s : State) : (requalify s).plb.time = s.plb.time := by
  have judged : (reselect ((List.range 19).foldl qualify s)).plb.time = s.plb.time :=
    (reselect_time _).trans (foldl_plb_time qualify_time _ s)
  unfold requalify
  simp only []
  split
  · exact (holdSteer_time _).trans judged
  · exact judged

@[simp] theorem fireTrig_time (c : Nat) (s : State) : (fireTrig c s).plb.time = s.plb.time := by
  have skipped (k : Nat) (n : Count) (r : BitVec 32) (t : State) :
      (if 1 < k then { t with plb := { t.plb with trigSkip := n, err := r } } else t).plb.time = t.plb.time := by
    split <;> rfl
  unfold fireTrig
  simp only []
  split
  · exact skipped _ _ _ (s.setTrig c _)
  · rfl

/-! ## The tick of Plumb, R288 and R310 -/

/-- With no step asked for, none is taken. -/
theorem stepDue_idle {s : State} (h : s.plb.stepAsked = false) (launching : Bool) : stepDue s launching = s := by
  unfold stepDue
  rw [h]; rfl

/-- While a reset holds the device Plumb stands still. -/
theorem plumbTick_held {s : State} (h : isUp s = false) : plumbTick s = s := by
  unfold plumbTick
  rw [h]; rfl

/-- The first change of a tick: Plumb's clock and the hold of the photonics have run on by 1 ns. -/
def State.aged (s : State) : State :=
  { s with plb := { s.plb with time := (s.plb.time + unitNs) % (2 ^ 48 * unitSec), run := s.plb.run + unitNs }, phn := { s.phn with holdNs := s.phn.holdNs - 1 } }

@[simp] theorem State.aged_stepAsked (s : State) : s.aged.plb.stepAsked = s.plb.stepAsked := by simp only [State.aged]
@[simp] theorem State.aged_time (s : State) : s.aged.plb.time = (s.plb.time + unitNs) % (2 ^ 48 * unitSec) := rfl

/-- Whether the launch channel falls due. -/
def launchDue (s : State) : Bool := (s.trig 0).en && due s.count (s.trig 0).target

/-- The far sources whose messages no longer arrive lose their qualification, R292. -/
def dropUnheard (s : State) : State :=
  if !s.pwr.tripped && (List.range 16).any (fun b => (s.src (b + 2)).qualified && !(s.src (b + 2)).heard s.plb.run) then requalify s else s

/-- The tick notes whether it launches a plan. -/
def noteLaunch (s : State) : State := { s with plb := { s.plb with launchTick := launchDue s } }

/-- The tick of a device that is up, change by change. -/
theorem plumbTick_up {s : State} (h : isUp s = true) :
    plumbTick s = (List.range 22).foldl (fun t c => fireTrig c t) (noteLaunch (dropUnheard (stepDue s.aged (launchDue s.aged)))) := by
  unfold plumbTick
  rw [h]; rfl

@[simp] theorem dropUnheard_time (s : State) : (dropUnheard s).plb.time = s.plb.time := by
  unfold dropUnheard
  split
  · exact requalify_time s
  · rfl

/-- Of all that a tick does, only its first change and a step that waits move full time. -/
theorem plumbTick_time {s : State} (hup : isUp s = true) (hstep : s.plb.stepAsked = false) :
    (plumbTick s).plb.time = (s.plb.time + unitNs) % (2 ^ 48 * unitSec) := by
  have idle : stepDue s.aged (launchDue s.aged) = s.aged := stepDue_idle (s.aged_stepAsked.trans hstep) _
  rw [plumbTick_up hup, idle, foldl_plb_time fun t c => fireTrig_time c t]
  exact (dropUnheard_time s.aged).trans s.aged_time

/-! ## The step -/

theorem step_cons {s : State} {c : Instr} {rest : List Instr} (h : s.pending = c :: rest) : step s = exec c { s with pending := rest } := by
  unfold step
  rw [h]

theorem step_nil {s : State} (h : s.pending = []) : step s = .next (plumbTick s) := by
  unfold step
  rw [h]

/-- Settles O57: the two cases of the step, and the tick with and without a reset that holds it. -/
theorem stepRunsFront : Obligations.StepRunsFront :=
  ⟨fun _ _ _ => step_cons, fun _ => step_nil, fun _ => plumbTick_held, fun _ => plumbTick_time⟩

end Sys2Proof.Machine

/-! The strokes of chapter 02, alone in the device: ADD and FMA (R68, R69), the long accumulator (R97 to R101), SUM64 (R102) and CVT (R53, R82). -/

namespace Sys2Proof.Machine

/-! ## One count of a lone stroke -/

/-- The flight before count k waits for no LOAD when that count writes no PENDING slot, R87. -/
theorem writesPending_at {s : State} {e : Fin 64} {i : BitVec 16} {op : Nat} {w : BitVec 120} {x : Engine} {k : Nat} (l : List Flight)
    (h : Landed x (strokeWord op w) k) : writesPending ((s.setEng e.val (x.withFlights l)).eng e.val) ((strokeOf s e i op w).at k) = false := by
  rw [State.setEng_eng]
  exact writesPending_of_landed (fl := (strokeOf s e i op w).at k) h

/-- To show that a stroke of its engine alone runs as `f` says, look at the count of its operation. -/
theorem strokeRuns_of_count {c : Instr} {s : State} {e : Fin 64} {i : BitVec 16} {op : Nat} {w : BitVec 120} {ups : List LaUpset}
    {ready : Nat → Engine → Prop} {f : Nat → Engine → Engine} {count : State → Nat → Flight → CountRes}
    (hexec : exec c s = act s (strokeCmd s e op i w ups)) (hop : op < 256) (hload : op ≠ opLoad)
    (hsel : ∀ {s e fl}, wOp fl.word = op → writesPending (s.eng e) fl = false → countStroke s e fl = count s e fl)
    (hkeep : ∀ k x, (f k x).flights = x.flights ∧ (f k x).toIssue = x.toIssue)
    (hcount : strokeOk (strokeWord op w) = true → ∀ k x l, ready k x →
      count (s.setEng e.val (x.withFlights l)) e.val ((strokeOf s e i op w).at k)
        = .ok (s.setEng e.val ((f k x).withFlights l)) ((strokeOf s e i op w).at k)) :
    StrokeRuns c s e i op w ups ready f := by
  refine strokeRuns_of hexec hop hload hkeep fun hok k x _ hl hr => ?_
  rw [hsel (by rw [Flight.at_word, strokeOf_word, wOp_strokeWord op w hop]) (writesPending_at _ hl)]
  exact hcount hok k x _ hr

/-- A count whose slots hold intact tiles of the stroke's format goes on with their bytes. -/
theorem withTiles_tiles {s : State} {e : Nat} {x : Engine} {l : List Flight} {fl : Flight} {ks : List Nat} {g : List (List Byte × TileTag) → CountRes}
    (h : ∀ k ∈ ks, HasTile x (wFmt fl.word) k) :
    withTiles (s.setEng e (x.withFlights l)) e fl (some false) ks g = g (ks.map fun k => (x.bytes k, x.tag k)) := by
  rw [withTiles_of] <;> rw [State.setEng_eng]
  · rfl
  · exact fun k hk => readSlot_of_tile (h k hk)

/-- A count whose slot holds an intact tile of accumulator images goes on with its bytes. -/
theorem withTiles_images {s : State} {e : Nat} {x : Engine} {l : List Flight} {fl : Flight} {k : Nat} {g : List (List Byte × TileTag) → CountRes}
    (h : HasImages x k) : withTiles (s.setEng e (x.withFlights l)) e fl (some true) [k] g = g [(x.bytes k, x.tag k)] := by
  rw [withTiles_of] <;> rw [State.setEng_eng]
  · rfl
  · exact fun j hj => List.mem_singleton.1 hj ▸ readSlot_of_images h

/-- A count whose rows are sound goes on with the engine that has counted their corrected errors, R119. -/
theorem withRows_sound {s : State} {e : Nat} {x : Engine} {l : List Flight} {start n : Nat} {g : State → CountRes} (h : RowsSound x start n) :
    withRows (s.setEng e (x.withFlights l)) e start n g = g (s.setEng e ((afterRows x start n).withFlights l)) := by
  rw [withRows_of] <;> rw [State.setEng_eng]
  · rw [State.setEng_twice, withFlights_afterRows]
  · exact (withFlights_rowsSound ..).2 h

/-! ## What the tests of R94 and R95 say of the formats -/

theorem operandsOk_of_strokeOk {w : BitVec 128} (h : strokeOk w = true) : operandsOk w = true := by
  simp only [strokeOk, Bool.and_eq_true] at h
  obtain ⟨⟨_, hops⟩, _⟩ := h
  exact hops

theorem wFmt_of_fma {w : BitVec 128} (h : operandsOk w = true) (hop : wOp w = opFma) : wFmt w = fp32 := by
  simp only [operandsOk, hop, opNop, opSetx, opSetp, opLoad, opStore, opSend, opClra, opAcc, opRdla, opSvla, opAddla, opAdd, opFma, reduceIte, or_self, Nat.reduceEqDiff, Bool.and_eq_true, decide_eq_true_eq] at h
  obtain ⟨⟨⟨⟨hf, _⟩, _⟩, _⟩, _⟩ := h
  exact hf

theorem wFmt_le_of_acc {w : BitVec 128} (h : operandsOk w = true) (hop : wOp w = opAcc) : (wFmt w).toNat ≤ 11 := by
  simp only [operandsOk, inFmts, hop, opNop, opSetx, opSetp, opLoad, opStore, opSend, opClra, opAcc, reduceIte, or_self, Nat.reduceEqDiff, Bool.and_eq_true, decide_eq_true_eq] at h
  obtain ⟨⟨⟨⟨⟨_, hf⟩, _⟩, _⟩, _⟩, _⟩ := h
  exact hf

theorem wFmt_le_of_dot {w : BitVec 128} (h : operandsOk w = true) (hop : wOp w = opDot) : (wFmt w).toNat ≤ 11 := by
  simp only [operandsOk, inFmts, hop, opNop, opSetx, opSetp, opLoad, opStore, opSend, opClra, opAcc, opRdla, opSvla, opAddla, opAdd, opFma, opDot, reduceIte, or_self, Nat.reduceEqDiff, Bool.and_eq_true, decide_eq_true_eq] at h
  obtain ⟨⟨⟨⟨⟨_, hf⟩, _⟩, _⟩, _⟩, _⟩ := h
  exact hf

/-! ## ADD and FMA, R68 and R69 -/

section
variable (s : State) (e : Nat) {fl : Flight} {k : Nat} {x : Engine} (l : List Flight)

theorem countAdd_at (ha : HasTile x (wFmt fl.word) (wSa fl.word + k)) (hb : HasTile x (wFmt fl.word) (wSb fl.word + k)) :
    countAdd (s.setEng e (x.withFlights l)) e (fl.at k) = .ok (s.setEng e ((addTile s fl k x).withFlights l)) (fl.at k) := by
  unfold countAdd
  rw [withTiles_tiles (by simp [ha, hb])]
  simp [addTile, putResults, elems, Engine.noteRes_at]

theorem countFma_at (hf : wFmt fl.word = fp32) (ha : HasTile x fp32 (wSa fl.word + k)) (hb : HasTile x fp32 (wSb fl.word + k)) (hc : HasTile x fp32 (wSc fl.word + k)) :
    countFma (s.setEng e (x.withFlights l)) e (fl.at k) = .ok (s.setEng e ((fmaTile s fl k x).withFlights l)) (fl.at k) := by
  unfold countFma
  rw [withTiles_tiles (by simp [hf, ha, hb, hc])]
  simp [fmaTile, putResults, elems, Engine.noteRes_at, show elemsPerTile fp32 = 1024 from rfl]

/-! ## CLRA, ACC and DOT, R97, R98 and R101 -/

theorem countClra_at : countClra (s.setEng e (x.withFlights l)) e (fl.at k) = .ok (s.setEng e ((clraRow fl k x).withFlights l)) (fl.at k) := by
  rw [countClra, State.setEng_eng, State.setEng_twice]
  rfl

/-- Adding values to sound rows is what `addValues` says. -/
theorem addSpan_at {j0 n : Nat} {vs : List Num} (hn : vs.length = n) (h : RowsSound x (wLaBase fl.word * 128 + j0) n) :
    addSpan (s.setEng e (x.withFlights l)) e (fl.at k) j0 vs = .ok (s.setEng e ((addValues x fl j0 vs).withFlights l)) (fl.at k) := by
  subst hn
  unfold addSpan
  rw [Flight.at_word, withRows_sound h]
  simp [addValues, Engine.withFlights_accumulate]

/-- A code of a tile slot is none of an input queue, R93. -/
theorem isIq_of_isTile {c : Nat} (h : isTile c = true) : isIq c = false := by
  have below : c < 0x400 := of_decide_eq_true h
  rw [isIq, decide_eq_false (Nat.not_le.2 below), Bool.false_and]

theorem countAcc_at (hf : (wFmt fl.word).toNat ≤ 11) (hq : isTile (wSa fl.word) = true) (ha : HasTile x (wFmt fl.word) (wSa fl.word + k)) (hr : SpanSound x fl k) :
    countAcc (s.setEng e (x.withFlights l)) e (fl.at k) = .ok (s.setEng e ((accTile fl k x).withFlights l)) (fl.at k) := by
  have hn : (tileNums (wFmt fl.word) (x.bytes (wSa fl.word + k))).length = elemsPerTile (wFmt fl.word) := by
    rw [tileNums, List.length_map, length_elemsOf hf (length_bytes ..)]
  unfold countAcc
  rw [Flight.at_word, isIq_of_isTile hq, withTiles_tiles (by simp [ha])]
  exact addSpan_at s e l hn hr

theorem countDot_at (hf : (wFmt fl.word).toNat ≤ 11) (ha : HasTile x (wFmt fl.word) (wSa fl.word + k)) (hb : HasTile x (wFmt fl.word) (wSb fl.word + k)) (hr : SpanSound x fl k) :
    countDot (s.setEng e (x.withFlights l)) e (fl.at k) = .ok (s.setEng e ((dotTile fl k x).withFlights l)) (fl.at k) := by
  have hn : (((elems x (wFmt fl.word) (wSa fl.word + k)).zip (elems x (wFmt fl.word) (wSb fl.word + k))).map fun p => dotNum (wFmt fl.word) p.1 p.2).length
      = elemsPerTile (wFmt fl.word) := by
    rw [List.length_map, List.length_zip, elems, elems, length_elemsOf hf (length_bytes ..), length_elemsOf hf (length_bytes ..), Nat.min_self]
  unfold countDot
  rw [withTiles_tiles (by simp [ha, hb])]
  exact addSpan_at s e l hn hr

/-! ## RDLA, SVLA and ADDLA, R99 and R100 -/

theorem countRdla_at (hr : RowsSound x (rdlaRows fl k).1 (rdlaRows fl k).2) :
    countRdla (s.setEng e (x.withFlights l)) e (fl.at k) = .ok (s.setEng e ((rdlaTile s fl k x).withFlights l)) (fl.at k) := by
  unfold countRdla
  refine (withRows_sound hr).trans ?_
  simp only [rdlaRows, State.setEng_eng, State.setEng_twice, Engine.withFlights_isForm32, Engine.withFlights_entries, Engine.withFlights_noteRes, Engine.withFlights_putTile, Engine.noteRes_at]
  rfl

theorem countSvla_at (hr : RowsSound x (wLaBase fl.word * 128 + 64 * k) 64) :
    countSvla (s.setEng e (x.withFlights l)) e (fl.at k) = .ok (s.setEng e ((svlaTile fl k x).withFlights l)) (fl.at k) := by
  unfold countSvla
  refine (withRows_sound hr).trans ?_
  simp [svlaTile]

theorem countAddla_at (ha : HasImages x (wSa fl.word + k)) (hr : RowsSound x (wLaBase fl.word * 128 + 64 * k) 64) :
    countAddla (s.setEng e (x.withFlights l)) e (fl.at k) = .ok (s.setEng e ((addlaTile fl k x).withFlights l)) (fl.at k) := by
  refine (withTiles_images ha).trans ((withRows_sound hr).trans ?_)
  simp [addlaTile]

/-! ## SUM64, R102 -/

theorem countSum64_at (ha : HasTile x (wFmt fl.word) (wSa fl.word + k)) :
    countSum64 (s.setEng e (x.withFlights l)) e (fl.at k) = .ok (s.setEng e ((sum64Tile fl k x).withFlights l)) (fl.at k) := by
  have hsum : sum64Results (x.withFlights l) (fl.at k) = sum64Results x fl := rfl
  unfold countSum64
  rw [withTiles_tiles (by simp [ha])]
  unfold sum64Tile
  by_cases hk : k + 1 < wCount fl.word
  · simp [hk]
  · simp [hk, hsum, Engine.noteRes_at, foldl_putTile_withFlights]

/-! ## CVT, R53 and R82 -/

theorem flushPart_withFlights (d : BitVec 4) (n slot : Nat) (b : List Byte) :
    flushPart (x.withFlights l) fl d slot n b = ((flushPart x fl d slot n b).1.withFlights l, (flushPart x fl d slot n b).2) := by
  induction n generalizing x slot b with
  | zero => rfl
  | succ n ih =>
    unfold flushPart
    split
    · exact ih (x := x.putTile slot d false (b.take 4096)) ..
    · split <;> rfl

theorem flushPart_keeps (d : BitVec 4) (n slot : Nat) (b : List Byte) :
    (flushPart x fl d slot n b).1.flights = x.flights ∧ (flushPart x fl d slot n b).1.toIssue = x.toIssue := by
  induction n generalizing x slot b with
  | zero => exact ⟨rfl, rfl⟩
  | succ n ih =>
    unfold flushPart
    split
    · exact ih ..
    · split <;> exact ⟨rfl, rfl⟩

/-- Of its flight the writing of formed tiles uses the word and the counts made. -/
theorem flushPart_before (d : BitVec 4) (p : List Byte) (ds : List Dest) (n slot : Nat) (b : List Byte) :
    flushPart x (fl.before k p ds) d slot n b = flushPart x { fl with done := k } d slot n b := by
  induction n generalizing x slot b with
  | zero => rfl
  | succ n ih =>
    unfold flushPart
    rw [ih]
    rfl

theorem Engine.noteRes_before (p : List Byte) (ds : List Dest) (j : Nat) (rs : List Res) : x.noteRes (fl.before k p ds) j rs = x.noteRes fl j rs := rfl

theorem countCvt_before {u : State} (b : List Byte) (ds : List Dest) (ha : HasTile (u.eng e) (wFmt fl.word) (wSa fl.word + k)) :
    countCvt (inFlight u e (fl.before k b ds)) e (fl.before k b ds)
      = .ok (inFlight (cvtTile e fl k (u, b)).1 e (fl.before k b ds)) (fl.before k (cvtTile e fl k (u, b)).2 ds) := by
  unfold countCvt inFlight
  refine (withTiles_tiles (by simp [ha])).trans ?_
  simp only [cvtTile, List.map_cons, State.setEng_eng, State.setEng_twice, Engine.withFlights_noteRes, flushPart_withFlights, flushPart_before, Engine.noteRes_before]
  rfl

theorem cvtTile_keeps {u : State} (hq : Quiet u) (b : List Byte) :
    Quiet (cvtTile e fl k (u, b)).1 ∧ Placed (cvtTile e fl k (u, b)).1 e ∧ (cvtTile e fl k (u, b)).1.stn.resFailed = u.stn.resFailed := by
  have hidle := hq.idle e
  refine ⟨hq.setEng e ?_ ?_, placed_setEng .., rfl⟩
  · exact (flushPart_keeps ..).1.trans ((Engine.noteRes_flights ..).trans hidle.1)
  · exact (flushPart_keeps ..).2.trans ((Engine.noteRes_toIssue ..).trans hidle.2)

end

/-! ## What the counts leave of the engine's strokes -/

@[simp] theorem putResults_flights (x : Engine) (fl : Flight) (f : BitVec 4) (k : Nat) (rs : List Res) : (putResults x fl f k rs).flights = x.flights := Engine.noteRes_flights ..
@[simp] theorem putResults_toIssue (x : Engine) (fl : Flight) (f : BitVec 4) (k : Nat) (rs : List Res) : (putResults x fl f k rs).toIssue = x.toIssue := Engine.noteRes_toIssue ..

theorem sum64Tile_keeps (fl : Flight) (k : Nat) (x : Engine) : (sum64Tile fl k x).flights = x.flights ∧ (sum64Tile fl k x).toIssue = x.toIssue := by
  unfold sum64Tile
  split
  · exact ⟨rfl, rfl⟩
  · exact ⟨(foldl_putTile_flights ..).1.trans (Engine.noteRes_flights ..), (foldl_putTile_flights ..).2.trans (Engine.noteRes_toIssue ..)⟩

/-! ## The statements -/

/-- Settles O2: every count reads its intact tiles and writes the results to the destination tile of the same number. -/
theorem pairwiseStrokes : Obligations.PairwiseStrokes := by
  unfold Obligations.PairwiseStrokes
  intro s e i w
  refine ⟨?add, ?fma⟩
  case add =>
    refine strokeRuns_of_count rfl (by decide) (by decide) countStroke_add (fun k x => ⟨putResults_flights .., putResults_toIssue ..⟩) ?_
    exact fun _ k x l h => countAdd_at _ _ l h.1 h.2
  case fma =>
    refine strokeRuns_of_count rfl (by decide) (by decide) countStroke_fma (fun k x => ⟨putResults_flights .., putResults_toIssue ..⟩) ?_
    rintro hok k x l ⟨ha, hb, hc⟩
    exact countFma_at _ _ l (wFmt_of_fma (operandsOk_of_strokeOk hok) (wOp_strokeWord _ w (by decide))) ha hb hc

/-- Settles O4: a clear takes one row for each count; ACC and DOT add the values of each tile, a whole number of rows, at its place in the span. -/
theorem accumulateStrokes : Obligations.AccumulateStrokes := by
  unfold Obligations.AccumulateStrokes
  intro s e i w ups
  refine ⟨?clra, fun hq => ?acc, ?dot⟩
  case clra => exact strokeRuns_of_count rfl (by decide) (by decide) countStroke_clra (fun k x => ⟨rfl, rfl⟩) fun _ k x l _ => countClra_at _ _ l
  case acc =>
    refine strokeRuns_of_count rfl (by decide) (by decide) countStroke_acc (fun k x => ⟨addValues_flights .., addValues_toIssue ..⟩) ?_
    exact fun hok k x l h => countAcc_at _ _ l (wFmt_le_of_acc (operandsOk_of_strokeOk hok) (wOp_strokeWord _ w (by decide))) hq h.1 h.2
  case dot =>
    refine strokeRuns_of_count rfl (by decide) (by decide) countStroke_dot (fun k x => ⟨addValues_flights .., addValues_toIssue ..⟩) ?_
    rintro hok k x l ⟨ha, hb, hr⟩
    exact countDot_at _ _ l (wFmt_le_of_dot (operandsOk_of_strokeOk hok) (wOp_strokeWord _ w (by decide))) ha hb hr

/-- Settles O5: every count meets the bit errors of its sound rows and then reads or merges them. -/
theorem readOutStrokes : Obligations.ReadOutStrokes := by
  unfold Obligations.ReadOutStrokes
  intro s e i w ups
  refine ⟨?rdla, ?svla, ?addla⟩
  case rdla =>
    refine strokeRuns_of_count rfl (by decide) (by decide) countStroke_rdla ?_ fun _ k x l h => countRdla_at _ _ l h
    exact fun k x => ⟨(putResults_flights ..).trans (afterRows_flights ..), (putResults_toIssue ..).trans (afterRows_toIssue ..)⟩
  case svla =>
    refine strokeRuns_of_count rfl (by decide) (by decide) countStroke_svla ?_ fun _ k x l h => countSvla_at _ _ l h
    exact fun k x => ⟨afterRows_flights .., afterRows_toIssue ..⟩
  case addla =>
    refine strokeRuns_of_count rfl (by decide) (by decide) countStroke_addla ?_ fun _ k x l h => countAddla_at _ _ l h.1 h.2
    exact fun k x => ⟨afterRows_flights .., afterRows_toIssue ..⟩

/-- Settles O6: every count checks its tile, and the last one writes the sums. -/
theorem sum64Stroke : Obligations.Sum64Stroke := by
  unfold Obligations.Sum64Stroke
  intro s e i w
  exact strokeRuns_of_count rfl (by decide) (by decide) countStroke_sum64 (fun k x => sum64Tile_keeps _ k x) fun _ k x l h => countSum64_at _ _ l h

/-- Settles O7: what the counts have formed of a destination tile goes from each count to the next in the flight. -/
theorem convertStroke : Obligations.ConvertStroke := by
  unfold Obligations.ConvertStroke
  intro s e i w
  refine strokeDoes_of rfl (by decide) (by decide) (fun _ fl => fl.dests) (fun k u b hq _ _ => cvtTile_keeps _ hq b) ?_
  intro _ k u b fl _ _ _ hl hr hfl
  rw [countStroke_cvt (by rw [hfl]; exact wOp_strokeWord _ w (by decide)) (pending_inFlight hfl hl)]
  generalize fl.dests = ds at hfl ⊢
  subst hfl
  exact countCvt_before _ b ds hr

end Sys2Proof.Machine

/-! The table slots of Skim: LOAD, ACTIVATE, RETIRE and the draining of a slot (R145, R146, R153, R154), and which slots code and decode. -/

namespace Sys2Proof.Machine

/-! ## A slot of the pair -/

/-- A slot made empty reads empty. -/
theorem setTslot_empty_tslot (s : State) (e : Nat) : (setTslot s e {}).tslot e = {} := by
  simp only [State.tslot, setTslot, List.getD_eq_getElem?_getD, List.getElem?_set_self']
  cases s.skm.slots[e]? <;> rfl

theorem setTslot_tslot_ne (s : State) {e j : Nat} (x : TblSlot) (h : j ≠ e) : (setTslot s e x).tslot j = s.tslot j := by
  simp only [State.tslot, setTslot, List.getD_eq_getElem?_getD, List.getElem?_set_ne h.symm]

/-- A write of a slot reaches the slots alone. -/
theorem setTslot_frame (s : State) (e : Nat) (x : TblSlot) :
    { setTslot s e x with skm := { (setTslot s e x).skm with slots := s.skm.slots } } = s := rfl

theorem other_slot_ne (e : Fin 2) : 1 - e.val ≠ e.val := by omega

/-! ## RESULT and TBL_REFUSED, R153 and R154 -/

theorem tblResult_eq (s : State) (n : Nat) :
    tblResult s n = { s with skm := { s.skm with result := BitVec.ofNat 4 n, err := if n = 0 then s.skm.err else setErr s.skm.err 5 } } := by
  unfold tblResult
  split <;> rfl

/-! ## While a LOAD is under way, R153 -/

section
variable {s : State} (hb : s.skm.busy = true)
include hb

theorem tblLoad_busy : tblLoad s = tblResult s 5 := if_pos hb
theorem tblActivate_busy (e : Nat) : tblActivate s e = tblResult s 5 := if_pos hb
theorem tblRetire_busy (e : Nat) : tblRetire s e = tblResult s 5 := if_pos hb

end

/-! ## While none is under way, R146 -/

/-- The state after a slot that was ACTIVE has become LOADED. -/
def stoodDown (s : State) (o : Nat) : State :=
  if (s.tslot o).st = .active then setTslot s o { s.tslot o with st := .loaded } else s

theorem stoodDown_of_active {s : State} {o : Nat} (h : (s.tslot o).st = .active) :
    stoodDown s o = setTslot s o { s.tslot o with st := .loaded } := if_pos h

theorem stoodDown_of_not {s : State} {o : Nat} (h : (s.tslot o).st ≠ .active) : stoodDown s o = s := if_neg h

section
variable {s : State} (hb : s.skm.busy = false)
include hb

/-- A LOAD starts into the slot that the search for an EMPTY one finds. -/
theorem tblLoad_found {e : Nat} (h : [0, 1].find? (fun e => decide ((s.tslot e).st = .empty)) = some e) :
    tblLoad s = { s with skm := { s.skm with busy := true, loadSlot := e } } := by
  rw [tblLoad, if_neg (ne_true_of_eq_false hb), h]

theorem tblLoad_first (h : (s.tslot 0).st = .empty) : tblLoad s = { s with skm := { s.skm with busy := true, loadSlot := 0 } } :=
  tblLoad_found hb (by simp [h])

theorem tblLoad_second (h0 : (s.tslot 0).st ≠ .empty) (h1 : (s.tslot 1).st = .empty) :
    tblLoad s = { s with skm := { s.skm with busy := true, loadSlot := 1 } } :=
  tblLoad_found hb (by simp [h0, h1])

theorem tblLoad_full (h0 : (s.tslot 0).st ≠ .empty) (h1 : (s.tslot 1).st ≠ .empty) : tblLoad s = tblResult s 1 := by
  have none_empty : [0, 1].find? (fun e => decide ((s.tslot e).st = .empty)) = none := by simp [h0, h1]
  rw [tblLoad, if_neg (ne_true_of_eq_false hb), none_empty]

theorem tblActivate_badState {e : Nat} (h : (s.tslot e).st ≠ .loaded) : tblActivate s e = tblResult s 4 := by
  rw [tblActivate, if_neg (ne_true_of_eq_false hb), if_pos h]

theorem tblRetire_badState {e : Nat} (h : (s.tslot e).st ≠ .loaded) : tblRetire s e = tblResult s 4 := by
  rw [tblRetire, if_neg (ne_true_of_eq_false hb), if_pos h]

theorem tblRetire_loaded {e : Nat} (h : (s.tslot e).st = .loaded) :
    tblRetire s e = tblResult (setTslot s e { s.tslot e with st := .draining }) 0 := by
  rw [tblRetire, if_neg (ne_true_of_eq_false hb), if_neg (not_not_intro h)]

theorem tblActivate_loaded {e : Nat} (h : (s.tslot e).st = .loaded) :
    tblActivate s e = tblResult (setTslot (stoodDown s (1 - e)) e { (stoodDown s (1 - e)).tslot e with st := .active }) 0 := by
  rw [tblActivate, if_neg (ne_true_of_eq_false hb), if_neg (not_not_intro h)]
  rfl

theorem tblActivate_alone {e : Nat} (h : (s.tslot e).st = .loaded) (ho : (s.tslot (1 - e)).st ≠ .active) :
    tblActivate s e = tblResult (setTslot s e { s.tslot e with st := .active }) 0 := by
  rw [tblActivate_loaded hb h, stoodDown_of_not ho]

/-- Standing down the other slot leaves the slot that the command names as it was. -/
theorem tblActivate_swap {e : Fin 2} (h : (s.tslot e.val).st = .loaded) (ho : (s.tslot (1 - e.val)).st = .active) :
    tblActivate s e.val
      = tblResult (setTslot (setTslot s (1 - e.val) { s.tslot (1 - e.val) with st := .loaded }) e.val { s.tslot e.val with st := .active }) 0 := by
  rw [tblActivate_loaded hb h, stoodDown_of_active ho, setTslot_tslot_ne s _ (other_slot_ne e).symm]

end

/-! ## The end of a LOAD, R145 -/

/-- The code lengths that the staged table gives, two to a byte. -/
def stagedLens (s : State) : List (BitVec 4) :=
  (slice (stageBytes s) 8 128).flatMap fun x => [BitVec.ofNat 4 (x.toNat % 16), BitVec.ofNat 4 (x.toNat / 16)]

/-- The staged table ends with its own CRC. -/
def stagedCrcOk (s : State) : Prop := crc32c ((stageBytes s).take 136) = BitVec.ofNat 32 (leAt (stageBytes s) 136 4)

/-- The state with no LOAD under way. -/
def loadOver (s : State) : State := { s with skm := { s.skm with busy := false } }

section
variable {s : State} (hb : s.skm.busy = true)
include hb

theorem tblLoadDone_badCrc (hc : ¬stagedCrcOk s) : tblLoadDone s = tblResult (loadOver s) 2 := by
  rw [tblLoadDone, hb]
  exact if_pos hc

theorem tblLoadDone_oversubscribed (hc : stagedCrcOk s) (ho : oversubscribed (stagedLens s) = true) :
    tblLoadDone s = tblResult (loadOver s) 3 := by
  rw [tblLoadDone, hb]
  exact (if_neg (not_not_intro hc)).trans (if_pos ho)

theorem tblLoadDone_loaded (hc : stagedCrcOk s) (ho : oversubscribed (stagedLens s) = false) :
    tblLoadDone s = tblResult (setTslot (loadOver s) s.skm.loadSlot ⟨.loaded, BitVec.ofNat 32 (leAt (stageBytes s) 0 4), stagedLens s⟩) 0 := by
  rw [tblLoadDone, hb]
  exact (if_neg (not_not_intro hc)).trans (if_neg (ne_true_of_eq_false ho))

end

/-! ## The draining of a slot, R146 -/

theorem slotDrained_of_drained {s : State} {e : Nat} (hd : (s.tslot e).st = .draining) (h0 : inflight s e = 0) :
    slotDrained s e = setTslot s e {} := if_pos ⟨hd, h0⟩

theorem slotDrained_of_not {s : State} {e : Nat} (h : ¬((s.tslot e).st = .draining ∧ inflight s e = 0)) : slotDrained s e = s := if_neg h

/-! ## Which slots code and decode, R145 and R146 -/

theorem activeTable_spec {s : State} {e : Nat} {l : List (BitVec 4)} (h : activeTable s = some (e, l)) :
    (s.tslot e).st = .active ∧ l = (s.tslot e).lens := by
  obtain ⟨j, hfind, hj⟩ := Option.map_eq_some_iff.1 h
  obtain ⟨rfl, rfl⟩ := Prod.mk.inj hj
  have found := List.find?_some hfind
  exact ⟨of_decide_eq_true found, rfl⟩

theorem activeTable_isSome {s : State} (e : Fin 2) (h : (s.tslot e.val).st = .active) : (activeTable s).isSome = true := by
  have listed : e.val ∈ [0, 1] := by simp; omega
  rw [activeTable, Option.isSome_map, List.find?_isSome]
  exact ⟨e.val, listed, decide_eq_true h⟩

theorem slotLens_eq_none_iff (s : State) (e : Nat) : slotLens s e = none ↔ (s.tslot e).st = .empty := by
  simp [slotLens]

/-! ## The statement -/

/-- A live device answers with the state that the command's meaning equals. -/
theorem act_eq_next {s t u : State} (live : Live s) (h : t = u) : act s t = .next u := h ▸ act_live live t

/-- Settles O15: each command by the state of the slots and of the LOAD under way, the end of a LOAD by its two checks, and a slot's draining by what is in flight. -/
theorem tableSlots : Obligations.TableSlots := by
  unfold Obligations.TableSlots
  intro s live
  have answers {t u : State} : t = u → act s t = .next u := act_eq_next live
  refine ⟨fun hb e => ⟨answers (tblLoad_busy hb), answers (tblActivate_busy hb e), answers (tblRetire_busy hb e)⟩, fun hb => ⟨?first, ?second, ?full, ?badState, ?retire, ?activate, ?swap⟩,
    fun hb => ⟨?badCrc, ?oversubscribed, ?loaded⟩, ?drained, ?notDrained, fun _ _ => activeTable_spec, activeTable_isSome, fun e => slotLens_eq_none_iff s e, tblResult_eq s⟩
  case first => exact fun h => answers (tblLoad_first hb h)
  case second => exact fun h0 h1 => answers (tblLoad_second hb h0 h1)
  case full => exact fun h0 h1 => answers (tblLoad_full hb h0 h1)
  case badState => exact fun e h => ⟨answers (tblActivate_badState hb h), answers (tblRetire_badState hb h)⟩
  case retire => exact fun e h => answers (tblRetire_loaded hb h)
  case activate => exact fun e h ho => answers (tblActivate_alone hb h ho)
  case swap => exact fun e h ho => answers (tblActivate_swap hb h ho)
  case badCrc => exact fun hc => answers (tblLoadDone_badCrc hb hc)
  case oversubscribed => exact fun hc ho => answers (tblLoadDone_oversubscribed hb hc ho)
  case loaded => exact fun hc ho => answers (tblLoadDone_loaded hb hc ho)
  case drained =>
    refine fun e hd h0 => .of_act live (congrArg (act s) (slotDrained_of_drained hd h0)) ⟨?_, setTslot_tslot_ne s _ (other_slot_ne e), setTslot_frame s e.val {}⟩
    rw [setTslot_empty_tslot]
  case notDrained => exact fun e h => answers (slotDrained_of_not h)

end Sys2Proof.Machine

/-! Passes over the engines of a plan: what each does to every engine, and that it reaches nothing else (R96, R110, R184, R193). -/

namespace Sys2Proof.Machine

/-! ## A pass over an array -/

/-- A pass of which each step works on its own entry alone works on every entry that it comes to. -/
theorem foldl_range_get {σ α : Type} {get : σ → Nat → α} {f : σ → Nat → σ} {g : Nat → α → α} (same : ∀ s k, get (f s k) k = g k (get s k))
    (other : ∀ s k j, j ≠ k → get (f s k) j = get s j) (s : σ) (n e : Nat) :
    get ((List.range n).foldl f s) e = if e < n then g e (get s e) else get s e := by
  induction n with
  | zero => rfl
  | succ n ih =>
    rw [List.range_succ, List.foldl_append, List.foldl_cons, List.foldl_nil]
    by_cases here : e = n
    · subst here
      rw [same, ih, if_neg (Nat.lt_irrefl e), if_pos (Nat.lt_succ_self e)]
    · rw [other _ _ _ here, ih]
      exact ite_congr (propext (by omega)) (fun _ => rfl) fun _ => rfl

/-! ## What reaches the engines alone -/

/-- The second state differs from the first in its engines and in TOP, which shows their readiness. -/
def EnginesOnly (s t : State) : Prop := ∃ x y, t = { s with engines := x, top := y }

namespace EnginesOnly

variable {s t u : State}

theorem refl (s : State) : EnginesOnly s s := ⟨s.engines, s.top, rfl⟩

theorem trans (h : EnginesOnly s t) (h' : EnginesOnly t u) : EnginesOnly s u := by
  obtain ⟨x, y, rfl⟩ := h
  obtain ⟨x', y', rfl⟩ := h'
  exact ⟨x', y', rfl⟩

theorem stn (h : EnginesOnly s t) : t.stn = s.stn := by
  obtain ⟨x, y, rfl⟩ := h
  rfl

theorem plb (h : EnginesOnly s t) : t.plb = s.plb := by
  obtain ⟨x, y, rfl⟩ := h
  rfl

theorem trig (h : EnginesOnly s t) (c : Nat) : t.trig c = s.trig c := by
  obtain ⟨x, y, rfl⟩ := h
  rfl

theorem ite {c : Prop} [Decidable c] (h : EnginesOnly s t) : EnginesOnly s (if c then t else s) := by
  split
  · exact h
  · exact refl s

theorem foldl {f : State → Nat → State} (h : ∀ s e, EnginesOnly s (f s e)) (l : List Nat) (s : State) : EnginesOnly s (l.foldl f s) :=
  List.foldlRecOn (motive := EnginesOnly s) l f (refl s) fun t ht e _ => ht.trans (h t e)

end EnginesOnly

theorem setEng_enginesOnly (s : State) (e : Nat) (x : Engine) : EnginesOnly s (s.setEng e x) := ⟨_, s.top, rfl⟩
theorem setEngSt_enginesOnly (s : State) (e : Nat) (st : EngSt) : EnginesOnly s (setEngSt s e st) := ⟨_, _, rfl⟩
theorem cancelEngine_enginesOnly (s : State) (e : Nat) : EnginesOnly s (cancelEngine s e) := setEng_enginesOnly s e _

theorem cancelEngine_eng_ne (s : State) {e j : Nat} (h : j ≠ e) : (cancelEngine s e).eng j = s.eng j := State.setEng_eng_ne s e j _ h

/-- The cancelling of an engine's strokes keeps its STATE. -/
@[simp] theorem cancelEngine_eng_st (s : State) (e : Nat) : ((cancelEngine s e).eng e).st = (s.eng e).st := by
  unfold cancelEngine
  rw [State.setEng_eng]

/-- Engines are numbered below 64. -/
theorem Plan.engines_ge (p : Plan) {e : Nat} (h : ¬e < 64) : p.engines.getLsbD e = false := BitVec.getLsbD_of_ge _ _ (by omega)

/-! ## Running, arming and getting ready -/

theorem runEngines_enginesOnly (s : State) (p : Plan) : EnginesOnly s (runEngines s p) :=
  .foldl (fun s e => .ite (setEngSt_enginesOnly s e .running)) _ s

/-- The engines of a plan that wait ARMED run, R184. -/
theorem runEngines_eng (s : State) (p : Plan) (e : Nat) :
    (runEngines s p).eng e = if p.engines.getLsbD e ∧ (s.eng e).st = .armed then { s.eng e with st := .running } else s.eng e := by
  unfold runEngines
  rw [foldl_range_get (get := State.eng) (g := fun k x => if p.engines.getLsbD k ∧ x.st = .armed then { x with st := .running } else x)]
  case same =>
    intro s k
    split
    · exact setEngSt_eng ..
    · rfl
  case other =>
    intro s k j hj
    split
    · exact setEngSt_eng_ne s _ hj
    · rfl
  by_cases he : e < 64
  · rw [if_pos he]
  · simp [he, p.engines_ge he]

/-- The arming of an IDLE engine. -/
theorem armEngines_enginesOnly (s : State) (p : Plan) : EnginesOnly s (armEngines s p) :=
  .foldl (fun s e => .ite ((setEng_enginesOnly s e _).trans (setEngSt_enginesOnly _ e .armed))) _ s

theorem readyEngines_enginesOnly (s : State) (p : Plan) : EnginesOnly s (readyEngines s p) :=
  .foldl (fun s e => .ite (setEng_enginesOnly s e _)) _ s

/-- A pass that rewrites every engine of a plan rewrites those and no other. -/
theorem foldl_engines_eng (p : Plan) (f : Engine → Engine) (s : State) (e : Nat) :
    ((List.range 64).foldl (fun s e => if p.engines.getLsbD e then s.setEng e (f (s.eng e)) else s) s).eng e
      = if p.engines.getLsbD e then f (s.eng e) else s.eng e := by
  rw [foldl_range_get (get := State.eng) (g := fun k x => if p.engines.getLsbD k then f x else x)]
  case same =>
    intro s k
    split
    · exact State.setEng_eng ..
    · rfl
  case other =>
    intro s k j hj
    split
    · exact State.setEng_eng_ne s k j _ hj
    · rfl
  by_cases he : e < 64
  · rw [if_pos he]
  · simp [he, p.engines_ge he]

/-! ## Halting, R110 and R193 -/

/-- One engine of a plan that halts: its strokes are cancelled, and it waits ARMED again where it was RUNNING. -/
def haltEngine (s : State) (e : Nat) : State :=
  if ((cancelEngine s e).eng e).st = .running then setEngSt (cancelEngine s e) e .armed else cancelEngine s e

/-- The engines of a plan that halts. -/
def haltEngines (s : State) (p : Plan) : State :=
  (List.range 64).foldl (fun s e => if p.engines.getLsbD e then haltEngine s e else s) s

/-- What Stencil holds of a plan that has halted. -/
def haltedStn (n : Stn) (cause : BitVec 4) (step : BitVec 32) : Stn :=
  { n with place := .halted, haltCause := cause, haltStep := step, err := setErr n.err 4, stepRunning := false, launching := false, inSeam := false, haltReq := false }

/-- The extension of the step that is left is kept for its decision, R249. -/
def extKept (s : State) : State :=
  if s.stn.stepRunning ∨ s.stn.inSeam then { s with clc := { s.clc with applied := setStepVal s.clc.applied s.stn.step s.stn.ext } } else s

theorem extKept_frame (s : State) : ∃ c, extKept s = { s with clc := c } := by
  unfold extKept
  split
  · exact ⟨_, rfl⟩
  · exact ⟨s.clc, rfl⟩

theorem toHalted_cur {s : State} {p : Plan} (h : s.stn.cur = some p) (cause : BitVec 4) (step : BitVec 32) :
    toHalted s cause step
      = disarm (disarm (disarm { extKept (haltEngines s p) with stn := haltedStn (extKept (haltEngines s p)).stn cause step } 1) 2) 0 := by
  unfold toHalted
  rw [h]
  rfl

theorem haltEngine_enginesOnly (s : State) (e : Nat) : EnginesOnly s (haltEngine s e) := by
  unfold haltEngine
  split
  · exact (cancelEngine_enginesOnly s e).trans (setEngSt_enginesOnly _ e .armed)
  · exact cancelEngine_enginesOnly s e

theorem haltEngines_enginesOnly (s : State) (p : Plan) : EnginesOnly s (haltEngines s p) :=
  .foldl (fun s e => .ite (haltEngine_enginesOnly s e)) _ s

theorem haltEngine_eng_st (s : State) (e : Nat) : ((haltEngine s e).eng e).st = if (s.eng e).st = .running then .armed else (s.eng e).st := by
  unfold haltEngine
  rw [cancelEngine_eng_st]
  split
  · rw [setEngSt_eng]
  · exact cancelEngine_eng_st s e

theorem haltEngine_eng_ne (s : State) {e j : Nat} (h : j ≠ e) : (haltEngine s e).eng j = s.eng j := by
  unfold haltEngine
  split
  · rw [setEngSt_eng_ne _ _ h, cancelEngine_eng_ne s h]
  · exact cancelEngine_eng_ne s h

/-- A RUNNING engine of a plan that halts waits ARMED. -/
theorem haltEngines_eng_st (s : State) {p : Plan} {e : Nat} (he : e < 64) (hp : p.engines.getLsbD e = true) (hr : (s.eng e).st = .running) :
    ((haltEngines s p).eng e).st = .armed := by
  have pass := foldl_range_get (get := fun s e => (State.eng s e).st) (f := fun s e => if p.engines.getLsbD e then haltEngine s e else s)
    (g := fun k st => if p.engines.getLsbD k then (if st = .running then .armed else st) else st)
    (fun s k => by
      split
      · exact haltEngine_eng_st s k
      · rfl)
    (fun s k j hj => by
      split
      · rw [haltEngine_eng_ne s hj]
      · rfl) s 64 e
  refine pass.trans ?_
  rw [if_pos he, if_pos hp, if_pos hr]

/-! ## The state of a halt -/

@[simp] theorem disarm_eng (s : State) (c e : Nat) : (disarm s c).eng e = s.eng e := rfl
theorem State.withStn_eng (s : State) (n : Stn) (e : Nat) : State.eng { s with stn := n } e = s.eng e := rfl
theorem State.withClc_eng (s : State) (c : Clc) (e : Nat) : State.eng { s with clc := c } e = s.eng e := rfl

section
variable {s : State} {p : Plan} (h : s.stn.cur = some p) (cause : BitVec 4) (step : BitVec 32)
include h

theorem toHalted_stn : (toHalted s cause step).stn = haltedStn s.stn cause step := by
  obtain ⟨c, kept⟩ := extKept_frame (haltEngines s p)
  rw [toHalted_cur h, kept]
  exact congrArg (haltedStn · cause step) (haltEngines_enginesOnly s p).stn

theorem toHalted_eng_st {e : Nat} (he : e < 64) (hp : p.engines.getLsbD e = true) (hr : (s.eng e).st = .running) :
    ((toHalted s cause step).eng e).st = .armed := by
  obtain ⟨c, kept⟩ := extKept_frame (haltEngines s p)
  rw [toHalted_cur h, disarm_eng, disarm_eng, disarm_eng, State.withStn_eng, kept, State.withClc_eng]
  exact haltEngines_eng_st s he hp hr

/-- None of the three channels of Stencil waits on. -/
theorem toHalted_disarms : ((toHalted s cause step).trig 0).en = false ∧ ((toHalted s cause step).trig 1).en = false ∧ ((toHalted s cause step).trig 2).en = false := by
  rw [toHalted_cur h]
  unfold disarm
  refine ⟨by rw [State.setTrig_trig], ?_, ?_⟩
  · rw [State.setTrig_trig_ne _ _ _ _ (by decide), State.setTrig_trig_ne _ _ _ _ (by decide), State.setTrig_trig]
  · rw [State.setTrig_trig_ne _ _ _ _ (by decide), State.setTrig_trig]

end

end Sys2Proof.Machine

/-! The launch trigger and the timers of a running step (R161 to R164, R182 to R184, R227). -/

namespace Sys2Proof.Machine

/-! ## The launch trigger, R182 to R184 -/

theorem launch_early {s : State} (h : due s.count s.stn.launchAt = false) : launch s = s := by
  unfold launch
  cases s.stn.cur
  · rfl
  · rw [h]
    simp

section
variable {s : State} {p : Plan} (hc : s.stn.cur = some p) (ha : s.stn.place = .armed) (hd : due s.count s.stn.launchAt = true)
include hc ha hd

/-- The launch trigger of an armed plan fires, and the launch is judged. -/
theorem launch_due :
    launch s = if 1000 < signedDiff s.count s.stn.launchAt then launchFails (disarm s 0) 4 1
      else if launchReady s p = false then launchFails (disarm s 0) 5 0
      else launched s p := by
  unfold launch
  rw [hc]
  simp only [ha, hd, ne_eq, not_true_eq_false, decide_false, Bool.not_true, Bool.or_self, Bool.false_eq_true, if_false]
  refine ite_congr rfl (fun _ => rfl) fun _ => ite_congr (propext ?_) (fun _ => rfl) fun _ => rfl
  rw [Bool.not_eq_true']
  exact Iff.rfl

end

/-- What a launch that does not run leaves: the halted plan, its two error bits, and no channel that waits. -/
theorem launchFails_halts {s : State} {p : Plan} (h : s.stn.cur = some p) (cause : BitVec 4) {bit : Nat} (hb : bit < 32) :
    let t := launchFails s cause bit
    t.stn.place = .halted ∧ t.stn.haltCause = cause ∧ t.stn.haltStep = s.stn.launchStep ∧ t.stn.err.getLsbD bit = true ∧ t.stn.err.getLsbD 4 = true
      ∧ (t.trig 0).en = false ∧ (t.trig 1).en = false ∧ (t.trig 2).en = false := by
  intro t
  have cur : (State.stn { s with stn := { s.stn with err := setErr s.stn.err bit } }).cur = some p := h
  have stn := toHalted_stn cur cause s.stn.launchStep
  have err (j : Nat) : t.stn.err.getLsbD j = (s.stn.err.getLsbD j || decide (j = bit) || decide (j = 4)) := by
    rw [← setErr_getLsbD _ _ _ hb, ← setErr_getLsbD _ _ _ (by decide)]
    exact congrArg (·.err.getLsbD j) stn
  refine ⟨congrArg Stn.place stn, congrArg Stn.haltCause stn, congrArg Stn.haltStep stn, ?_, ?_, toHalted_disarms cur cause _⟩
  · rw [err]
    simp
  · rw [err]
    simp

/-- Settles O25: the trigger that is not due, the three outcomes of one that is, and what a failed launch and the start of the engines leave. -/
theorem launchTrigger : Obligations.LaunchTrigger := by
  unfold Obligations.LaunchTrigger
  intro s p live hc ha
  have answers {t : State} : launch s = t → exec .launch s = .next t := act_eq_next live
  refine ⟨fun hd => answers (launch_early hd), fun hd => ⟨fun late => ?_, fun inTime unready => ?_, fun inTime ready => ?_⟩,
    fun cause bit hb => launchFails_halts hc cause hb, fun e _ => runEngines_eng s p e⟩
  all_goals refine answers ((launch_due hc ha hd).trans ?_)
  · exact if_pos late
  · rw [if_neg (by omega), if_pos unready]
  · rw [if_neg (by omega), if_neg (ne_false_of_eq_true ready)]


/-! ## The start of a step, R161, R162 and R227 -/

/-- An engine of whose list nothing has issued. -/
def Engine.unissued (x : Engine) : Engine := { x with issued := 0, gate := 0, toIssue := [] }

/-- The engines of a plan at a start edge: nothing of their lists has issued. -/
def freshLists (s : State) (p : Plan) : State :=
  (List.range 64).foldl (fun u e => if p.engines.getLsbD e then u.setEng e (u.eng e).unissued else u) s

/-- The engines of a plan at a start edge; at a launch they begin to run. -/
def startEngines (s : State) (p : Plan) : State :=
  if s.stn.launching then runEngines (freshLists s p) p else freshLists s p

theorem freshLists_enginesOnly (s : State) (p : Plan) : EnginesOnly s (freshLists s p) :=
  .foldl (fun u e => .ite (setEng_enginesOnly u e _)) _ s

theorem freshLists_eng (s : State) (p : Plan) (e : Nat) :
    (freshLists s p).eng e = if p.engines.getLsbD e then (s.eng e).unissued else s.eng e :=
  foldl_engines_eng p Engine.unissued s e

theorem startEngines_eng_of_not (s : State) {p : Plan} {e : Nat} (h : ¬p.engines.getLsbD e = true) : (startEngines s p).eng e = s.eng e := by
  have fresh : (freshLists s p).eng e = s.eng e := by rw [freshLists_eng, if_neg h]
  unfold startEngines
  split
  · rw [runEngines_eng, if_neg (fun r => h r.1), fresh]
  · exact fresh

theorem startEngines_eng (s : State) {p : Plan} {e : Nat} (h : p.engines.getLsbD e = true) :
    (startEngines s p).eng e = { (s.eng e).unissued with st := if s.stn.launching = true ∧ (s.eng e).st = .armed then .running else (s.eng e).st } := by
  have fresh : (freshLists s p).eng e = (s.eng e).unissued := by rw [freshLists_eng, if_pos h]
  unfold startEngines
  split
  case isTrue hl =>
    rw [runEngines_eng, fresh]
    by_cases armed : (s.eng e).st = .armed
    · rw [if_pos ⟨h, armed⟩, if_pos ⟨hl, armed⟩]
    · rw [if_neg (fun r => armed r.2), if_neg (fun r => armed r.2)]
      rfl
  case isFalse hl =>
    rw [fresh, if_neg (fun r => hl r.1)]
    rfl

theorem setSlowed_eng (s : State) (b : Bool) (e : Nat) : (setSlowed s b).eng e = s.eng e := rfl
theorem State.withStnSkm_eng (s : State) (n : Stn) (k : Skm) (e : Nat) : State.eng { s with stn := n, skm := k } e = s.eng e := rfl

theorem atStart_eng (s : State) (p : Plan) (e : Nat) : (atStart s p).eng e = (startEngines s p).eng e := by
  unfold atStart nextStep
  exact (setSlowed_eng ..).trans (State.withStnSkm_eng ..)

section
variable {s : State} {p : Plan} (hc : s.stn.cur = some p) (hr : s.stn.place = .running)
include hc hr

section
variable (hs : s.stn.stepRunning = false) (hw : (s.stn.launching || s.stn.inSeam) = true) (hd : due s.count (nextStart s p) = true)
include hs hw hd

/-- The start edge of a plan's next step, case by case. -/
theorem stepStart_due :
    stepStart s = if (s.stn.launching && p.seamLaunch && decide (s.stn.launchStep = p.step0) && !launchReady s p) = true then launchFails s 5 0
      else if (s.stn.launching && !(fullColls s p).isEmpty) = true then haltNow (raiseFull s p (fullColls s p)) 1
      else armTrig (disarm (sendJoins (trackInsts (atStart s p) p) p) 1) 2 (nextStart s p + BitVec.ofNat 48 p.deadlineNs) := by
  have judged : ¬(decide (s.stn.place ≠ .running) || s.stn.stepRunning || !(s.stn.launching || s.stn.inSeam) || !due s.count (nextStart s p)) = true := by
    simp [hr, hs, hw, hd]
  unfold stepStart
  rw [hc]
  refine (if_neg judged).trans (ite_congr rfl (fun _ => rfl) fun _ => ite_congr rfl (fun _ => rfl) fun _ => ?_)
  obtain ⟨x, y, fresh⟩ := freshLists_enginesOnly s p
  unfold freshLists Engine.unissued at fresh
  unfold atStart nextStep
  simp only [fresh]
  obtain ⟨x', y', run⟩ := runEngines_enginesOnly { s with engines := x, top := y } p
  rw [run]
  cases s.stn.launching
  · rfl
  · rfl

theorem stepStart_unready (hl : s.stn.launching = true) (hp : p.seamLaunch = true) (h0 : s.stn.launchStep = p.step0) (hu : launchReady s p = false) :
    stepStart s = launchFails s 5 0 := by
  rw [stepStart_due hc hr hs hw hd]
  exact if_pos (by simp [hl, hp, h0, hu])

section
variable (hok : ¬(s.stn.launching = true ∧ p.seamLaunch = true ∧ s.stn.launchStep = p.step0 ∧ launchReady s p = false))
include hok

theorem stepStart_ready :
    stepStart s = if (s.stn.launching && !(fullColls s p).isEmpty) = true then haltNow (raiseFull s p (fullColls s p)) 1
      else armTrig (disarm (sendJoins (trackInsts (atStart s p) p) p) 1) 2 (nextStart s p + BitVec.ofNat 48 p.deadlineNs) := by
  rw [stepStart_due hc hr hs hw hd]
  refine if_neg fun h => hok ?_
  simpa [and_assoc] using h

theorem stepStart_full (hl : s.stn.launching = true) (hf : fullColls s p ≠ []) : stepStart s = haltNow (raiseFull s p (fullColls s p)) 1 := by
  rw [stepStart_ready hc hr hs hw hd hok]
  exact if_pos (by simp [hl, hf])

theorem stepStart_begins (hf : s.stn.launching = true → fullColls s p = []) :
    stepStart s = armTrig (disarm (sendJoins (trackInsts (atStart s p) p) p) 1) 2 (nextStart s p + BitVec.ofNat 48 p.deadlineNs) := by
  rw [stepStart_ready hc hr hs hw hd hok]
  exact if_neg (by simpa using hf)

end
end

/-! ## The deadline of a step, R164 and R227 -/

/-- The deadline of a running step falls due: the step is judged. -/
theorem stepDeadline_due (hs : (s.stn.stepRunning || s.stn.inSeam) = true) (hf : s.stn.deadlineDone = false) (hd : due s.count (deadlineAt s p) = true) :
    let u := { disarm s 2 with stn := { s.stn with deadlineDone := true } }
    stepDeadline s = if (s.stn.inSeam || stepComplete s) = true then u
      else haltNow (raiseLate { u with stn := { u.stn with stepLate := bump u.stn.stepLate 1, err := setErr u.stn.err 3 } } p) 1 := by
  have judged : ¬(decide (s.stn.place ≠ .running) || !(s.stn.stepRunning || s.stn.inSeam) || s.stn.deadlineDone || !due s.count (deadlineAt s p)) = true := by
    simp [hr, hs, hf, hd]
  unfold stepDeadline
  rw [hc]
  exact if_neg judged

omit hr in
theorem stepDeadline_early (hd : due s.count (deadlineAt s p) = false) : stepDeadline s = s := by
  have waits : (decide (s.stn.place ≠ .running) || !(s.stn.stepRunning || s.stn.inSeam) || s.stn.deadlineDone || !due s.count (deadlineAt s p)) = true := by
    simp [hd]
  unfold stepDeadline
  rw [hc]
  exact if_pos waits

end

/-! ## The slots of a step, R162 -/

theorem slotStart_early {s : State} {k : Nat} (h : stepCycles s < slotStartsAt (curBody s) k) : slotStart s k = s :=
  if_neg fun ⟨_, _, _, reached⟩ => Nat.not_lt.mpr reached h

theorem slotStart_opens {s : State} {k : Nat} (hs : s.stn.stepRunning = true) (hk : k = s.stn.slotsStarted) (hn : k < (curBody s).slots.length)
    (hr : slotStartsAt (curBody s) k ≤ stepCycles s) : slotStart s k = pump (slotOpen s k) :=
  if_pos ⟨hs, hk, hn, hr⟩

/-! ## The statement -/

/-- Settles O26: each timer by the cases of its own law, and the engines at a start edge one by one. -/
theorem stepTimers : Obligations.StepTimers := by
  unfold Obligations.StepTimers
  intro s p live hc hr
  refine ⟨fun hs hw hd => ⟨?unready, ?full, ?begins⟩, fun k hs hk hn => ⟨?waits, fun reached => ⟨?opens, ?still⟩⟩, fun hs hf hd => ⟨?judged, ?late⟩, ?early, ?engines⟩
  case unready => exact fun hl hp h0 hu => act_eq_next live (stepStart_unready hc hr hs hw hd hl hp h0 hu)
  case full => exact fun hok hl hf => act_eq_next live (stepStart_full hc hr hs hw hd hok hl hf)
  case begins => exact fun hok hf => act_eq_next live (stepStart_begins hc hr hs hw hd hok hf)
  case waits => exact fun early => act_eq_next live (slotStart_early early)
  case opens => exact act_eq_next live (slotStart_opens hs hk hn reached)
  case still => exact fun h => act_eq_next live ((slotStart_opens hs hk hn reached).trans (pump_still h.free h.noTiles))
  case judged =>
    refine fun done => act_eq_next live ((stepDeadline_due hc hr hs hf hd).trans (if_pos ?_))
    simpa using done
  case late => exact fun hseam hlate => act_eq_next live ((stepDeadline_due hc hr hs hf hd).trans (if_neg (by simp [hseam, hlate])))
  case early => exact fun hd => act_eq_next live (stepDeadline_early hc hd)
  case engines =>
    intro e
    rw [atStart_eng]
    by_cases hp : p.engines.getLsbD e = true
    · have he : e < 64 := Decidable.not_not.mp fun h => Bool.false_ne_true ((p.engines_ge h).symm.trans hp)
      rw [if_pos ⟨he, hp⟩, startEngines_eng s hp]
      rfl
    · rw [if_neg fun h => hp h.2, startEngines_eng_of_not s hp]

end Sys2Proof.Machine

/-! What Lath can reach: besides its own registers, its queue answers mailboxes and drops regions that the device holds (R341, R347, R349). -/

namespace Sys2Proof.Machine

/-! ## What the queue of Lath can reach -/

/-- The second state differs from the first in Lath, in the mailboxes with what they have sent, and in the regions that Stencil holds. -/
def LathOnly (s t : State) : Prop := ∃ l w o h, t = { s with lth := l, hwk := w, out := o, stn := { s.stn with held := h } }

namespace LathOnly

variable {s t u : State}

theorem refl (s : State) : LathOnly s s := ⟨s.lth, s.hwk, s.out, s.stn.held, rfl⟩

theorem trans (h : LathOnly s t) (h' : LathOnly t u) : LathOnly s u := by
  obtain ⟨l, w, o, r, rfl⟩ := h
  obtain ⟨l', w', o', r', rfl⟩ := h'
  exact ⟨l', w', o', r', rfl⟩

/-- Another content of Lath alone. -/
theorem lth (h : LathOnly s t) (l : Lath) : LathOnly s { t with lth := l } := h.trans ⟨l, t.hwk, t.out, t.stn.held, rfl⟩

theorem foldl {ι : Type} {f : State → ι → State} (h : ∀ s i, LathOnly s (f s i)) (l : List ι) (s : State) : LathOnly s (l.foldl f s) :=
  List.foldlRecOn (motive := LathOnly s) l f (refl s) fun t ht i _ => ht.trans (h t i)

theorem ite {c : Prop} [Decidable c] (h : LathOnly s t) : LathOnly s (if c then t else s) := by
  split
  · exact h
  · exact refl s

theorem eng (h : LathOnly s t) (e : Nat) : t.eng e = s.eng e := by
  obtain ⟨l, w, o, r, rfl⟩ := h
  rfl

end LathOnly

theorem State.withHeld_lathOnly (s : State) (h : List Held) : LathOnly s { s with stn := { s.stn with held := h } } := ⟨s.lth, s.hwk, s.out, h, rfl⟩

theorem sendRecord_lathOnly (s : State) (num : BitVec 16) (record : List Byte) : LathOnly s (sendRecord s num record) := by
  unfold sendRecord
  split
  · exact .refl s
  · split
    · exact .refl s
    · split
      · exact ⟨s.lth, _, _, s.stn.held, rfl⟩
      · exact .refl s

theorem respond_lathOnly (s : State) (r : MboxRec) (op : BitVec 16) (status : Byte) (result : List Byte) : LathOnly s (respond s r op status result) := by
  have counted : LathOnly s (if status = 0 then s else { s with hwk := { s.hwk with refusedCount := bump s.hwk.refusedCount 1 } }) := by
    split
    · exact .refl s
    · exact ⟨s.lth, _, s.out, s.stn.held, rfl⟩
  unfold respond
  simp only []
  split
  · refine counted.trans (.trans ?_ (sendRecord_lathOnly ..))
    exact ⟨State.lth _, _, State.out _, (State.stn _).held, rfl⟩
  · exact counted

theorem dropHeld_lathOnly (s : State) (o : Owner) : LathOnly s (dropHeld s o) :=
  .ite (s.withHeld_lathOnly _)

theorem grantBuffer_lathOnly (s : State) (o : Owner) (q p : Nat) : LathOnly s (grantBuffer s o q p).2 := by
  unfold grantBuffer
  split
  · exact .refl s
  · split
    · exact .refl s
    · exact (LathOnly.refl s).lth _

theorem lathFree_lathOnly (s : State) (o : Owner) (h : Nat) : LathOnly s (lathFree s o h).2 := by
  unfold lathFree
  simp only []
  split
  · exact .refl s
  · split
    · exact .refl s
    · split
      · exact (LathOnly.refl s).lth _
      · split
        · exact (LathOnly.refl s).lth _
        · exact (LathOnly.refl s).lth _

theorem lathAnswer_lathOnly (s : State) (c : LathCmd) (code : Byte) (handle : BitVec 32) : LathOnly s (lathAnswer s c code handle) := by
  unfold lathAnswer
  simp only []
  split
  · exact .refl s
  · split
    · exact (LathOnly.refl s).lth _
    · exact ((LathOnly.refl s).lth _).trans (respond_lathOnly ..)

/-- Every command of the queue ends with its answer. -/
theorem LathOnly.answer {s t : State} (h : LathOnly s t) (c : LathCmd) (code : Byte) (handle : BitVec 32) : LathOnly s (lathAnswer t c code handle) :=
  h.trans (lathAnswer_lathOnly t c code handle)

theorem lathDo_lathOnly (s : State) (c : LathCmd) : LathOnly s (lathDo s c) := by
  have same := LathOnly.refl s
  unfold lathDo
  simp only []
  split
  case h_1 p q _ =>
    split
    · exact same.answer ..
    · split
      · exact same.answer ..
      · have granted := grantBuffer_lathOnly s c.owner q p
        split <;> rename_i heq <;> rw [heq] at granted <;> exact granted.answer ..
  case h_2 h _ => exact (lathFree_lathOnly s c.owner h.toNat).answer ..
  case h_3 =>
    split
    · exact same.answer ..
    · split
      · exact same.answer ..
      · exact ((same.lth _).trans (dropHeld_lathOnly ..)).answer ..
  case h_4 =>
    split
    · exact same.answer ..
    · split
      · exact same.answer ..
      · exact (same.lth _).answer ..
  case h_5 =>
    split
    · exact same.answer ..
    · split <;> exact same.answer ..
  case h_6 => exact (same.lth _).answer ..
  case h_7 =>
    split
    · exact same.answer ..
    · exact (same.lth _).answer ..
  case h_8 => exact same.answer ..

theorem closeFence_lathOnly (s : State) (f : Fence) : LathOnly s (closeFence s f) := ((LathOnly.refl s).lth _).trans (dropHeld_lathOnly ..)

theorem lathRun_lathOnly (n : Nat) (s : State) : LathOnly s (lathRun n s) := by
  induction n generalizing s with
  | zero => exact .refl s
  | succ n ih =>
    unfold lathRun
    split
    · exact .refl s
    · rename_i c rest _
      split
      · exact .refl s
      · have done : LathOnly s (lathDo { s with lth := { s.lth with queue := rest } } c) := ((LathOnly.refl s).lth _).trans (lathDo_lathOnly ..)
        simp only []
        split
        · split
          · exact (done.trans (closeFence_lathOnly ..)).trans (ih _)
          · exact done.trans (ih _)
        · exact done.trans (ih _)

theorem releaseOwner_lathOnly (s : State) (o : Owner) (only : Option (List Nat)) : LathOnly s (releaseOwner s o only) :=
  .ite (((LathOnly.refl s).lth _).trans (lathRun_lathOnly ..))

theorem trimAreas_lathOnly (s : State) : LathOnly s (trimAreas s) := by
  refine .foldl (fun s a => ?_) bondAreas s
  split
  · exact .refl s
  · exact releaseOwner_lathOnly ..

theorem passRegions_lathOnly (s : State) (p : Plan) (next : Option Plan) : LathOnly s (passRegions s p next) := by
  have kept : LathOnly s (keepRegions s p next) := .foldl (fun s _ => .ite (s.withHeld_lathOnly _)) _ s
  exact kept.trans (.foldl (fun s (g : Region) => releaseOwner_lathOnly s (regionOwner g.name) none) _ _)

end Sys2Proof.Machine

/-! The seam of a plan without collectives, and the end of a plan (R190 to R192). -/

namespace Sys2Proof.Machine

/-! ## What the seam does before it decides, R114, R190 and R611 -/

/-- The hand-over of the non-finite records reaches the engines and CLC. -/
theorem nfHandOff_frame (s : State) (p : Plan) : ∃ x c, nfHandOff s p = { s with engines := x, clc := c } := by
  have each := foldl_frame (fun r : Tab Engine × Clc => ({ s with engines := r.1, clc := r.2 } : State))
    (step := fun s e => if p.engines.getLsbD e then
      (match (s.eng e).nf with
        | some (stroke, pos) => { s with clc := { s.clc with nfs := s.clc.nfs ++ [(s.stn.step, stroke, pos)] } }
        | none => s).setEng e { s.eng e with nf := none, nfStroke := 0 } else s)
    (fun r e => by
      simp only []
      split
      · split
        · exact ⟨(_, _), rfl⟩
        · exact ⟨(_, r.2), rfl⟩
      · exact ⟨r, rfl⟩) (List.range 64) (s.engines, s.clc)
  obtain ⟨r, h⟩ := each
  exact ⟨r.1, r.2, h⟩

/-- Each engine of the plan no longer holds a record. -/
theorem nfHandOff_eng (s : State) (p : Plan) (e : Nat) :
    (nfHandOff s p).eng e = if p.engines.getLsbD e then { s.eng e with nf := none, nfStroke := 0 } else s.eng e := by
  unfold nfHandOff
  rw [foldl_range_get (get := State.eng) (g := fun k x => if p.engines.getLsbD k then { x with nf := none, nfStroke := 0 } else x)]
  case same =>
    intro s k
    split
    · exact State.setEng_eng ..
    · rfl
  case other =>
    intro s k j hj
    split
    · refine (State.setEng_eng_ne _ k j _ hj).trans ?_
      split <;> rfl
    · rfl
  by_cases he : e < 64
  · rw [if_pos he]
  · simp [he, p.engines_ge he]

/-- A plan without collectives has no READY to send. -/
theorem sendReadies_nil (s : State) {p : Plan} (h : p.descs = []) : sendReadies s p = s := by
  unfold sendReadies
  rw [h]
  split <;> rfl

theorem fullColls_nil (s : State) {p : Plan} (h : p.descs = []) : fullColls s p = [] := by
  unfold fullColls
  rw [h]
  rfl

theorem ite_withSe {c : Prop} [Decidable c] (s : State) (x : Se) : (if c then { s with se := x } else s) = { s with se := if c then x else s.se } := by
  split <;> rfl

theorem seFinal_frame (s : State) : ∃ x, seFinal s = { s with se := x } := by
  unfold seFinal
  split
  · exact ⟨s.se, rfl⟩
  · exact ⟨_, ite_withSe s _⟩

theorem seSeam_frame (s : State) : ∃ x, seSeam s = { s with se := x } := by
  obtain ⟨x, h⟩ := seFinal_frame _
  exact ⟨x, h⟩

/-- At level 0, with no other level called for, the seam changes no level. -/
theorem seamLevel_zero {s : State} (hl : s.pwr.level = 0) (ha : s.pwr.applied = 0) (hm : s.pwr.minLevel = 0) : seamLevel s = s := by
  have idle : BitVec.ofNat 2 (if s.pwr.level = 3 then min 2 s.pwr.asked.toNat else min 2 s.pwr.applied.toNat) = s.pwr.applied := by simp [hl, ha]
  have wanted : wantedLevel s = s.pwr.level.toNat := by simp [wantedLevel, minLevelActs, hl, ha, hm]
  unfold seamLevel
  simp only [idle]
  exact if_pos wanted

/-- The step is over and its seam has begun. -/
def seamBegun (s : State) : State := { s with stn := { s.stn with stepRunning := false, inSeam := true } }

/-- The device in the seam of a plan without collectives, when it decides how the plan goes on. -/
def seamJudged (s : State) (p : Plan) : State :=
  let u := nfHandOff s p
  seSeam { u with clc := { u.clc with applied := setStepVal u.clc.applied u.stn.step u.stn.ext, words := u.clc.words.filter fun w => decide ((u.stn.step - p.step0).toNat < (w.step - p.step0).toNat) } }

theorem seamJudged_frame (s : State) (p : Plan) : ∃ x c y, seamJudged s p = { s with engines := x, clc := c, se := y } := by
  obtain ⟨x, c, h⟩ := nfHandOff_frame s p
  unfold seamJudged
  simp only [h]
  obtain ⟨y, h'⟩ := seSeam_frame _
  exact ⟨x, _, y, h'⟩

theorem seamJudged_stn (s : State) (p : Plan) : (seamJudged s p).stn = s.stn := by
  obtain ⟨x, c, y, h⟩ := seamJudged_frame s p
  rw [h]

theorem seamJudged_pwr (s : State) (p : Plan) : (seamJudged s p).pwr = s.pwr := by
  obtain ⟨x, c, y, h⟩ := seamJudged_frame s p
  rw [h]

theorem seamJudged_trig (s : State) (p : Plan) (k : Nat) : (seamJudged s p).trig k = s.trig k := by
  obtain ⟨x, c, y, h⟩ := seamJudged_frame s p
  rw [h]
  rfl

theorem State.withClcSe_eng (s : State) (c : Clc) (y : Se) (e : Nat) : State.eng { s with clc := c, se := y } e = s.eng e := rfl

theorem seamJudged_eng (s : State) (p : Plan) (e : Nat) : (seamJudged s p).eng e = (nfHandOff s p).eng e := by
  unfold seamJudged
  simp only []
  obtain ⟨y, h⟩ := seSeam_frame _
  exact (congrArg (State.eng · e) h).trans (State.withClcSe_eng ..)

/-! ## The three ways on from a seam, R191 and R192 -/

section
variable {s : State} {p : Plan} (hc : s.stn.cur = some p) (hr : s.stn.place = .running)
include hc hr

theorem stepSeam_complete (h : stepComplete s = true) : stepSeam s = seamActions (seamBegun s) p := by
  unfold stepSeam
  rw [hc]
  exact if_pos ⟨hr, h⟩

omit hr in
theorem stepSeam_incomplete (h : stepComplete s = false) : stepSeam s = s := by
  unfold stepSeam
  rw [hc]
  exact if_neg fun c => Bool.false_ne_true (h.symm.trans c.2)

end

/-- How a plan goes on from its seam: it ends, halts, or begins its next step. -/
def seamDecision (s : State) (p : Plan) : State :=
  if decide ((s.stn.step - p.step0).toNat + 1 = p.steps) then
    match s.stn.next with
    | none => endToNone s p
    | some q => if seamHalts s then toHalted (endToNext s p q) 3 q.step0 else endToNext s p q
  else if seamHalts s then toHalted s 3 (s.stn.step + 1)
  else seamGoesOn s p

/-- The seam of a plan without collectives at level 0 comes to its decision. -/
theorem seamActions_plain {s : State} {p : Plan} (hr : s.stn.place = .running) (hd : p.descs = [])
    (hl : s.pwr.level = 0) (ha : s.pwr.applied = 0) (hm : s.pwr.minLevel = 0) : seamActions s p = seamDecision (seamJudged s p) p := by
  have level : seamLevel (seamJudged s p) = seamJudged s p := by
    obtain ⟨x, c, y, h⟩ := seamJudged_frame s p
    rw [h]
    exact seamLevel_zero hl ha hm
  have runs : ¬(nfHandOff s p).stn.place ≠ .running := by
    obtain ⟨x, c, h⟩ := nfHandOff_frame s p
    rw [h]
    exact not_not_intro hr
  unfold seamActions
  simp only [sendReadies_nil _ hd]
  exact (if_neg runs).trans (congrArg (seamDecision · p) level)


/-! ## The end of a plan, R192 -/

/-- One engine of a plan that ends: its strokes are cancelled and it is IDLE. -/
def leaveEngine (s : State) (e : Nat) : State := setEngSt (cancelEngine s e) e .idle

/-- The engines of a plan that ends; those that no plan has armed stay as they are. -/
def leaveEngines (s : State) (p : Plan) : State :=
  (List.range 64).foldl (fun s e => if p.engines.getLsbD e && (decide ((s.eng e).st = .armed) || decide ((s.eng e).st = .running)) then leaveEngine s e else s) s

/-- The device without the plan, but for the areas that it alone has budgeted. -/
def withoutPlan (s : State) : State :=
  disarm { s with stn := { s.stn with cur := none, place := .none, haltCause := 0, inSeam := false, stepRunning := false, launching := false, haltReq := false, begunTo := none, patched := [] }, skm := { s.skm with tables := [] }, clc := clcReset s.clc } 0

theorem leavePlan_eq (s : State) (p : Plan) : leavePlan s p = trimAreas (withoutPlan (leaveEngines s p)) := rfl

theorem leaveEngine_eng (s : State) (e : Nat) : ((leaveEngine s e).eng e).st = .idle := congrArg Engine.st (setEngSt_eng ..)

theorem leaveEngine_eng_ne (s : State) {e j : Nat} (h : j ≠ e) : (leaveEngine s e).eng j = s.eng j :=
  (setEngSt_eng_ne _ _ h).trans (cancelEngine_eng_ne s h)

theorem leaveEngines_eng_st (s : State) {p : Plan} {e : Nat} (he : e < 64) (hp : p.engines.getLsbD e = true) (hr : (s.eng e).st = .running) :
    ((leaveEngines s p).eng e).st = .idle := by
  have pass := foldl_range_get (get := fun s e => (State.eng s e).st)
    (f := fun s e => if p.engines.getLsbD e && (decide ((s.eng e).st = .armed) || decide ((s.eng e).st = .running)) then leaveEngine s e else s)
    (g := fun k st => if p.engines.getLsbD k && (decide (st = .armed) || decide (st = .running)) then .idle else st)
    (fun s k => by
      split
      · exact leaveEngine_eng s k
      · rfl)
    (fun s k j hj => by
      split
      · rw [leaveEngine_eng_ne s hj]
      · rfl) s 64 e
  refine pass.trans ?_
  simp [he, hp, hr]

theorem withoutPlan_eng (s : State) (e : Nat) : (withoutPlan s).eng e = s.eng e := rfl

/-- CURRENT is NONE once its plan has ended, and the plan's engines are IDLE. -/
theorem endToNone_leaves (s : State) (p : Plan) :
    let t := endToNone s p
    t.stn.cur = none ∧ t.stn.place = .none ∧ t.stn.haltCause = 0 ∧ t.skm.tables = []
      ∧ ∀ e, e < 64 → p.engines.getLsbD e = true → (s.eng e).st = .running → (t.eng e).st = .idle := by
  intro t
  have passed := passRegions_lathOnly s p none
  have trimmed : LathOnly (withoutPlan (leaveEngines (passRegions s p none) p)) t := by
    show LathOnly _ (leavePlan _ p)
    rw [leavePlan_eq]
    exact trimAreas_lathOnly _
  have engines : ∀ e, e < 64 → p.engines.getLsbD e = true → (s.eng e).st = .running → (t.eng e).st = .idle := by
    intro e he hp hr
    rw [trimmed.eng, withoutPlan_eng]
    exact leaveEngines_eng_st _ he hp ((congrArg Engine.st (passed.eng e)).trans hr)
  obtain ⟨l, w, o, h, final⟩ := trimmed
  rw [final] at engines ⊢
  exact ⟨rfl, rfl, rfl, rfl, engines⟩

/-! ## The next step, R190 and R227 -/

theorem armTrig_trig (s : State) (c : Nat) (t : PCount) : (armTrig s c t).trig c = { s.trig c with target := t, period := 0, en := true } :=
  State.setTrig_trig ..

theorem armTrig_stn (s : State) (c : Nat) (t : PCount) : (armTrig s c t).stn = s.stn := rfl
theorem armTrig_eng (s : State) (c : Nat) (t : PCount) (e : Nat) : (armTrig s c t).eng e = s.eng e := rfl

theorem readyEngines_eng (s : State) (p : Plan) (e : Nat) :
    (readyEngines s p).eng e = if p.engines.getLsbD e then { s.eng e with idxb := 0, nf := none, nfStroke := 0 } else s.eng e :=
  foldl_engines_eng p (fun x => { x with idxb := 0, nf := none, nfStroke := 0 }) s e

/-- With no collective that is full, the seam arms the start of the next step. -/
theorem seamGoesOn_plain (s : State) {p : Plan} (h : p.descs = []) :
    seamGoesOn s p = armTrig (readyEngines { s with stn := { s.stn with patched := patchesFor p (s.stn.step + 1) } } p) 1 (nextStart s p) := by
  unfold seamGoesOn
  simp only [fullColls_nil s h]

/-- Its start trigger waits for the next start edge, and its engines are ready for another step. -/
theorem seamGoesOn_starts (s : State) {p : Plan} (h : p.descs = []) :
    let t := seamGoesOn s p
    t.stn = { s.stn with patched := patchesFor p (s.stn.step + 1) } ∧ t.trig 1 = { s.trig 1 with target := nextStart s p, period := 0, en := true }
      ∧ ∀ e, t.eng e = if p.engines.getLsbD e then { s.eng e with idxb := 0, nf := none, nfStroke := 0 } else s.eng e := by
  intro t
  have ready := readyEngines_enginesOnly { s with stn := { s.stn with patched := patchesFor p (s.stn.step + 1) } } p
  have armed : t = _ := seamGoesOn_plain s h
  refine ⟨?_, ?_, fun e => ?_⟩
  · rw [armed, armTrig_stn, ready.stn]
  · rw [armed, armTrig_trig, ready.trig]
    rfl
  · rw [armed, armTrig_eng, readyEngines_eng, State.withStn_eng]

/-! ## The statement -/

section
variable {u : State} {p : Plan}

theorem seamDecision_ends (last : (u.stn.step - p.step0).toNat + 1 = p.steps) (hn : u.stn.next = none) : seamDecision u p = endToNone u p := by
  unfold seamDecision
  rw [if_pos (decide_eq_true last), hn]

variable (more : (u.stn.step - p.step0).toNat + 1 ≠ p.steps)
include more

theorem seamDecision_halts (hh : seamHalts u = true) : seamDecision u p = toHalted u 3 (u.stn.step + 1) := by
  unfold seamDecision
  rw [if_neg (by simpa using more), if_pos hh]

theorem seamDecision_goesOn (hh : seamHalts u = false) : seamDecision u p = seamGoesOn u p := by
  unfold seamDecision
  rw [if_neg (by simpa using more), if_neg (ne_true_of_eq_false hh)]

end

/-- Below level 2 a plan halts at its seam where a halt was asked for. -/
theorem seamHalts_levelZero {s : State} (h : s.pwr.level = 0) : seamHalts s = s.stn.haltReq := by
  simp [seamHalts, h]

/-- Settles O27: the seam of a plan without collectives comes to its decision, and each of the three ways on leaves what its own law says. -/
theorem stepSeams : Obligations.StepSeams := by
  unfold Obligations.StepSeams
  intro s p live hc hr
  refine ⟨fun h => act_eq_next live (stepSeam_incomplete hc h), fun h => act_eq_next live (stepSeam_complete hc hr h), fun h hd _ hl ha hm => ?_⟩
  have decided : stepSeam s = seamDecision (seamJudged (seamBegun s) p) p :=
    (stepSeam_complete hc hr h).trans (seamActions_plain hr hd hl ha hm)
  have eng (e : Nat) : (seamJudged (seamBegun s) p).eng e = if p.engines.getLsbD e then { s.eng e with nf := none, nfStroke := 0 } else s.eng e :=
    (seamJudged_eng _ p e).trans (nfHandOff_eng _ p e)
  have eng_st (e : Nat) : ((seamJudged (seamBegun s) p).eng e).st = (s.eng e).st := by
    rw [eng]
    split <;> rfl
  have stn : (seamJudged (seamBegun s) p).stn = { s.stn with stepRunning := false, inSeam := true } := seamJudged_stn (seamBegun s) p
  have trig : (seamJudged (seamBegun s) p).trig 1 = s.trig 1 := seamJudged_trig (seamBegun s) p 1
  have pwr : (seamJudged (seamBegun s) p).pwr = s.pwr := seamJudged_pwr (seamBegun s) p
  generalize seamJudged (seamBegun s) p = u at decided eng eng_st stn trig pwr
  have halts : seamHalts u = s.stn.haltReq := by
    rw [seamHalts_levelZero (by rw [pwr, hl]), stn]
  have step : u.stn.step = s.stn.step := by rw [stn]
  have cur : u.stn.cur = some p := by rw [stn, hc]
  have start : nextStart u p = nextStart s p := by
    unfold nextStart
    rw [stn]
  rw [← step]
  refine ⟨fun more noHalt => ?goesOn, fun more halt => ?halts, fun last noNext => ?ends⟩
  case goesOn =>
    refine .of_act live (t := stepSeam s) rfl ?_
    rw [decided, seamDecision_goesOn more (halts.trans noHalt)]
    obtain ⟨started, armed, ready⟩ := seamGoesOn_starts u hd
    rw [started, armed, start, trig, stn]
    refine ⟨hr, rfl, rfl, rfl, rfl, fun e _ hp => ?_, fun e _ hp => ?_⟩
    · rw [ready, eng, if_pos hp, if_pos hp]
    · rw [ready, eng, if_neg (ne_true_of_eq_false hp), if_neg (ne_true_of_eq_false hp)]
  case halts =>
    refine .of_act live (t := stepSeam s) rfl ?_
    rw [decided, seamDecision_halts more (halts.trans halt), toHalted_stn cur]
    exact ⟨rfl, rfl, rfl, rfl, fun e he hp run => toHalted_eng_st cur 3 _ he hp ((eng_st e).trans run)⟩
  case ends =>
    refine .of_act live (t := stepSeam s) rfl ?_
    rw [decided, seamDecision_ends last (by rw [stn, noNext])]
    obtain ⟨cur, place, cause, tables, left⟩ := endToNone_leaves u p
    exact ⟨cur, place, cause, tables, fun e he hp run => left e he hp ((eng_st e).trans run)⟩

end Sys2Proof.Machine

/-! The discarding of NEXT where Lath's queue is idle: what its grants and its engines come to (R193, R194, R198, R341). -/

namespace Sys2Proof.Machine

/-! ## Releases by an idle queue, R341 -/

/-- No command waits in Lath's queue, and no fence is open. -/
structure LathIdle (s : State) : Prop where
  queue : s.lth.queue = []
  fence : s.lth.fence = none

/-- Lath alone has changed: its queue is idle, and buffers have only become FREE. -/
structure Released (s t : State) : Prop where
  frame : ∃ l, t = { s with lth := l }
  idle : LathIdle t
  owners : t.lth.owners ⊆ s.lth.owners

theorem Released.refl {s : State} (h : LathIdle s) : Released s s := ⟨⟨s.lth, rfl⟩, h, fun _ he => he⟩

theorem Released.trans {s t u : State} (h : Released s t) (h' : Released t u) : Released s u := by
  obtain ⟨⟨l, rfl⟩, _, ho⟩ := h
  obtain ⟨⟨l', rfl⟩, hi, ho'⟩ := h'
  exact ⟨⟨l', rfl⟩, hi, fun _ he => ho (ho' he)⟩

/-- A run of releases of which each leaves none of its own entries leaves none of any. -/
theorem released_foldl {ι : Type} {f : State → ι → State} {gone : ι → Nat × Option Owner → Prop}
    (h : ∀ s i, LathIdle s → Released s (f s i) ∧ ∀ e ∈ (f s i).lth.owners, ¬gone i e) (l : List ι) {s : State} (hs : LathIdle s) :
    Released s (l.foldl f s) ∧ ∀ i ∈ l, ∀ e ∈ (l.foldl f s).lth.owners, ¬gone i e := by
  induction l generalizing s with
  | nil => exact ⟨.refl hs, fun i hi => absurd hi List.not_mem_nil⟩
  | cons k r ih =>
    obtain ⟨first, none_left⟩ := h s k hs
    obtain ⟨rest, later⟩ := ih first.idle
    refine ⟨first.trans rest, fun i hi e he => ?_⟩
    rcases List.mem_cons.mp hi with rfl | hi
    · exact none_left e (rest.owners he)
    · exact later i hi e he

/-- Lath once an owner's buffers are FREE: all of them, or those that a list names. -/
def Lath.release (l : Lath) (o : Owner) : Option (List Nat) → Lath
  | none => freeAll l o
  | some hs => freeSome l o hs

/-- The entries that a release takes. -/
def takes (o : Owner) (only : Option (List Nat)) (e : Nat × Option Owner) : Prop := e.2 = some o ∧ ∀ hs, only = some hs → e.1 ∈ hs

theorem Lath.release_owners (l : Lath) (o : Owner) (only : Option (List Nat)) {e : Nat × Option Owner} (he : e ∈ (l.release o only).owners) :
    e ∈ l.owners ∧ ¬takes o only e := by
  cases only with
  | none =>
    obtain ⟨he, kept⟩ := List.mem_filter.mp he
    exact ⟨he, fun h => by simp [h.1] at kept⟩
  | some hs =>
    obtain ⟨he, kept⟩ := List.mem_filter.mp he
    exact ⟨he, fun h => by simp [h.1, h.2 hs rfl] at kept⟩

/-- An idle queue serves a release at once. -/
theorem lathQueue_release {s : State} (h : LathIdle s) (o : Owner) (only : Option (List Nat)) :
    lathQueue s ⟨.release only, o, none, true, false⟩ = { s with lth := s.lth.release o only } := by
  obtain ⟨hq, hf⟩ := h
  cases only <;> simp [lathQueue, lathRun, lathDo, lathAnswer, isDead, Lath.release, freeAll, freeSome, hq, hf]

theorem releaseOwner_idle {s : State} (h : LathIdle s) (o : Owner) (only : Option (List Nat)) :
    Released s (releaseOwner s o only) ∧ ∀ e ∈ (releaseOwner s o only).lth.owners, ¬takes o only e := by
  unfold releaseOwner
  split
  case isTrue =>
    rw [lathQueue_release h]
    refine ⟨⟨⟨_, rfl⟩, ?_, fun e he => (Lath.release_owners _ _ _ he).1⟩, fun e he => (Lath.release_owners _ _ _ he).2⟩
    cases only <;> exact ⟨h.queue, h.fence⟩
  case isFalse holds =>
    refine ⟨.refl h, fun e he taken => holds ?_⟩
    exact List.any_eq_true.mpr ⟨e, he, decide_eq_true taken.1⟩

theorem trimAreas_released {s : State} (h : LathIdle s) : Released s (trimAreas s) := by
  refine (released_foldl (gone := fun _ _ => False) (fun s a hs => ⟨?_, fun _ _ => id⟩) bondAreas h).1
  split
  · exact .refl hs
  · exact (releaseOwner_idle hs _ _).1

/-! ## NEXT is discarded, R194 and R198 -/

/-- The engines that CURRENT uses. -/
def curEngines (s : State) : BitVec 64 := match s.stn.cur with | some c => c.engines | none => 0

/-- The engines of a discarded NEXT: those that only it had armed are IDLE again, R110. -/
def idleEngines (s : State) (p : Plan) (keep : BitVec 64) : State :=
  (List.range 64).foldl (fun s e => if p.engines.getLsbD e && !keep.getLsbD e && decide ((s.eng e).st = .armed) then setEngSt s e .idle else s) s

theorem idleEngines_enginesOnly (s : State) (p : Plan) (keep : BitVec 64) : EnginesOnly s (idleEngines s p keep) :=
  .foldl (fun s e => .ite (setEngSt_enginesOnly s e .idle)) _ s

theorem idleEngines_eng (s : State) (p : Plan) (keep : BitVec 64) {e : Nat} (he : e < 64) :
    (idleEngines s p keep).eng e = if p.engines.getLsbD e && !keep.getLsbD e && decide ((s.eng e).st = .armed) then { s.eng e with st := .idle } else s.eng e := by
  unfold idleEngines
  rw [foldl_range_get (get := State.eng) (g := fun k x => if p.engines.getLsbD k && !keep.getLsbD k && decide (x.st = .armed) then { x with st := .idle } else x)]
  case same =>
    intro s k
    split
    · exact setEngSt_eng ..
    · rfl
  case other =>
    intro s k j hj
    split
    · exact setEngSt_eng_ne s _ hj
    · rfl
  rw [if_pos he]

/-- The device once the grants of a discarded NEXT have gone back. -/
def nextReleased (s : State) (p : Plan) : State := freeHandles (releaseNextRegions s p) p.areas

/-- The device without NEXT, but for the areas that it alone has budgeted; `mark` sets NEXT_DROPPED. -/
def withoutNext (s : State) (mark : Bool) : State :=
  { s with stn := { s.stn with next := none, err := if mark then setErr s.stn.err 5 else s.stn.err }, clc := { s.clc with early := [] }, skm := { s.skm with nextTables := [] } }

theorem dropNext_none {s : State} (h : s.stn.next = none) (mark : Bool) : dropNext s mark = s := by
  unfold dropNext
  rw [h]

theorem releaseNextRegions_idle {s : State} (h : LathIdle s) (p : Plan) :
    Released s (releaseNextRegions s p) ∧ ∀ g ∈ p.regions, g.inherit = false → ∀ e ∈ (releaseNextRegions s p).lth.owners, e.2 ≠ some (regionOwner g.name) := by
  unfold releaseNextRegions
  obtain ⟨released, gone⟩ := released_foldl (f := fun s (r : Region) => releaseOwner s (regionOwner r.name) none)
    (fun s r hs => releaseOwner_idle hs (regionOwner r.name) none) (p.regions.filter fun r => !r.inherit) h
  refine ⟨released, fun g hg own e he held => gone g (List.mem_filter.mpr ⟨hg, ?_⟩) e he ⟨held, ?_⟩⟩
  · rw [own]
    rfl
  · exact fun _ all => nomatch all

theorem freeHandles_idle {s : State} (h : LathIdle s) (hs : List Nat) :
    Released s (freeHandles s hs) ∧ ∀ k ∈ hs, ∀ a ∈ bondAreas, ∀ e ∈ (freeHandles s hs).lth.owners, e.1 = k → e.2 ≠ some (areaOwner a.1 a.2) := by
  unfold freeHandles
  obtain ⟨released, gone⟩ := released_foldl (f := fun s (a : Byte × Nat) => releaseOwner s (areaOwner a.1 a.2) (some hs))
    (fun s a idle => releaseOwner_idle idle (areaOwner a.1 a.2) (some hs)) bondAreas h
  refine ⟨released, fun k hk a ha e he at_k held => gone a ha e he ⟨held, ?_⟩⟩
  rintro _ ⟨⟩
  exact at_k ▸ hk

/-- What an idle queue makes of the grants of NEXT: neither its own regions nor its own areas keep a buffer. -/
theorem nextReleased_idle {s : State} (h : LathIdle s) (p : Plan) :
    Released s (nextReleased s p) ∧ (∀ g ∈ p.regions, g.inherit = false → ∀ e ∈ (nextReleased s p).lth.owners, e.2 ≠ some (regionOwner g.name))
      ∧ ∀ k ∈ p.areas, ∀ a ∈ bondAreas, ∀ e ∈ (nextReleased s p).lth.owners, e.1 = k → e.2 ≠ some (areaOwner a.1 a.2) := by
  unfold nextReleased
  obtain ⟨regions, noRegion⟩ := releaseNextRegions_idle h p
  obtain ⟨areas, noArea⟩ := freeHandles_idle regions.idle p.areas
  exact ⟨regions.trans areas, fun g hg own e he => noRegion g hg own e (areas.owners he), noArea⟩

theorem dropNext_idle {s : State} {p : Plan} (hi : LathIdle s) (h : s.stn.next = some p) (mark : Bool) :
    dropNext s mark = trimAreas (withoutNext (idleEngines (nextReleased s p) p (curEngines s)) mark) := by
  obtain ⟨l, frame⟩ := (nextReleased_idle hi p).1.frame
  unfold nextReleased at frame
  unfold dropNext nextReleased
  rw [h]
  simp only [frame]
  unfold curEngines
  cases s.stn.cur
  · rfl
  · rfl

/-- A buffer that no entry gives to an owner is not the owner's. -/
theorem ownerOf_ne_of_absent {l : Lath} {k : Nat} {o : Owner} (h : ∀ e ∈ l.owners, e.1 = k → e.2 ≠ some o) : ownerOf l k ≠ some o := by
  intro owned
  rcases Tab.get_mem_or none l.owners k with free | ⟨e, he, at_k, value⟩
  · exact nomatch free.symm.trans owned
  · exact h e he at_k (value.trans owned)

theorem holdsAny_of_absent {l : Lath} {o : Owner} (h : ∀ e ∈ l.owners, e.2 ≠ some o) : holdsAny l o = false :=
  List.any_eq_false.mpr fun e he => by simp [h e he]


/-- What the discarding of NEXT leaves where Lath's queue is idle. -/
theorem discardNext_idle {s : State} {p : Plan} (hi : LathIdle s) (h : s.stn.next = some p) :
    let t := discardNext s
    t.stn = { s.stn with next := none } ∧ t.skm = { s.skm with nextTables := [] } ∧ t.clc = { s.clc with early := [] }
      ∧ (∀ g ∈ p.regions, g.inherit = false → holdsAny t.lth (regionOwner g.name) = false)
      ∧ (∀ h ∈ p.areas, ∀ a ∈ bondAreas, ownerOf t.lth h ≠ some (areaOwner a.1 a.2))
      ∧ (∀ e, e < 64 → t.eng e = if p.engines.getLsbD e && !(curEngines s).getLsbD e && decide ((s.eng e).st = .armed) then { s.eng e with st := .idle } else s.eng e)
      ∧ { t with stn := s.stn, skm := s.skm, clc := s.clc, lth := s.lth, engines := s.engines, top := s.top } = s := by
  intro t
  have dropped : t = _ := dropNext_idle hi h false
  obtain ⟨⟨⟨l, grants⟩, idle, _⟩, noRegion, noArea⟩ := nextReleased_idle hi p
  have eng := fun e he => idleEngines_eng (nextReleased s p) p (curEngines s) (e := e) he
  generalize nextReleased s p = u at dropped grants idle noRegion noArea eng
  subst grants
  obtain ⟨x, y, engines⟩ := idleEngines_enginesOnly { s with lth := l } p (curEngines s)
  rw [engines] at dropped eng
  obtain ⟨⟨l', trimmed⟩, _, fewer⟩ := trimAreas_released (s := withoutNext { s with lth := l, engines := x, top := y } false) ⟨idle.queue, idle.fence⟩
  rw [trimmed] at dropped fewer
  rw [dropped]
  refine ⟨rfl, rfl, rfl, fun g hg own => ?_, fun k hk a ha => ?_, fun e he => eng e he, rfl⟩
  · exact holdsAny_of_absent fun e he => noRegion g hg own e (fewer he)
  · exact ownerOf_ne_of_absent fun e he => noArea k hk a ha e (fewer he)

end Sys2Proof.Machine

/-! The plan commands of the mailbox and the bits of STN_CTRL (R176, R194, R198, R543, R547). -/

namespace Sys2Proof.Machine

/-! ## A command that starts -/

/-- An accepted command answers what its own effect makes of the device in which it has begun. -/
theorem exec_accepted {c : Instr} {s : State} {r : MboxRec} {n : CmdNeeds} {args : List Byte} {i : Nat} {x : Session} {f : State → State}
    (h : Accepted s r n args i x) (hc : exec c s = act s (mboxCmd s r n args f)) : exec c s = .next (f (begun s r n.op args i x)) :=
  hc.trans (act_eq_next h.live (mboxCmd_accepted h f))

@[simp] theorem begun_stn (s : State) (r : MboxRec) (op : BitVec 16) (args : List Byte) (i : Nat) (x : Session) : (begun s r op args i x).stn = s.stn := rfl
theorem begun_planReady (s : State) (r : MboxRec) (op : BitVec 16) (args : List Byte) (i : Nat) (x : Session) : planReady (begun s r op args i x) = planReady s := rfl
theorem begun_planNotReady (s : State) (r : MboxRec) (op : BitVec 16) (args : List Byte) (i : Nat) (x : Session) (p : Plan) :
    planNotReady (begun s r op args i x) p = planNotReady s p := rfl
theorem begun_windowOk (s : State) (r : MboxRec) (op : BitVec 16) (args : List Byte) (i : Nat) (x : Session) (t : PCount) : windowOk (begun s r op args i x) t = windowOk s t := rfl

section
variable {s : State} {r : MboxRec} {i : Nat} {x : Session}

/-! ## PLAN_ADMIT, R176 and R547 -/

section
variable {len crc : BitVec 32} (h : Accepted s r (needs 0x0030 true true [rdyStn]) (beBytes 4 len.toNat ++ beBytes 4 crc.toNat) i x)
include h

/-- The checks of PLAN_ADMIT that come before those of R176. -/
theorem planAdmit_accepted :
    let u := begun s r 0x0030 (beBytes 4 len.toNat ++ beBytes 4 crc.toNat) i x
    let bs := Mem.read s.hwk.area1 0 len.toNat
    exec (.planAdmit r len crc) s = .next (
      if s.stn.admitting.isSome then respond u r 0x0030 stMboxBusy []
      else if s.hwk.stage1 ≠ some r.session then respond u r 0x0030 stNotOwner []
      else if 67109376 < len.toNat then respond u r 0x0030 stBadObject [0, 0, 0, 0]
      else if crc32c bs ≠ crc then respond u r 0x0030 stBadObject (beBytes 4 (crc32c bs).toNat)
      else if r.hcs = 2 ∧ leAt bs 4 2 ≠ 2 then respond u r 0x0030 stBadArg [0]
      else { u with stn := { u.stn with admitting := some ⟨r, len.toNat, crc⟩ } }) := by
  have answer := exec_accepted (c := .planAdmit r len crc) h rfl
  exact answer

end

/-! ## PLAN_RELAUNCH, R194 -/

theorem beforeStep_of_stn {s t : State} (h : t.stn = s.stn) (n step : BitVec 32) : beforeStep t n step = beforeStep s n step := by
  unfold beforeStep
  rw [h]

theorem forgetFrom_stn (s : State) (step : BitVec 32) : (forgetFrom s step).stn = s.stn := rfl

/-- The device once a HALTED plan is armed again for a new launch time. -/
def rearmed (s : State) (p : Plan) (t : PCount) : State :=
  let w := readyEngines (armEngines s p) p
  let w := seForget (fun n => !beforeStep s n s.stn.haltStep) (forgetFrom w s.stn.haltStep)
  armTrig { w with stn := { w.stn with place := .armed, haltCause := 0, launchAt := t, launchStep := w.stn.haltStep, admitResult := arAdmitted, patched := patchesFor p w.stn.haltStep } } 0 t

theorem relaunch_notReady {s : State} {p : Plan} (h : planReady s = false ∨ (planNotReady s p).isSome) (t : PCount) :
    relaunch s p t = { s with stn := { s.stn with admitResult := arNotReady } } :=
  if_pos (by simpa using h)

section
variable {s : State} {p : Plan} {t : PCount} (h : planReady s = true) (hn : planNotReady s p = none)
include h hn

theorem relaunch_ready :
    relaunch s p t = if !windowOk s t then { s with stn := { s.stn with admitResult := arWindow } } else rearmed s p t := by
  have same : (forgetFrom (readyEngines (armEngines s p) p) s.stn.haltStep).stn = s.stn :=
    (forgetFrom_stn ..).trans ((armEngines_enginesOnly s p).trans (readyEngines_enginesOnly _ p)).stn
  have ready : ¬(!planReady s || (planNotReady s p).isSome) = true := by simp [h, hn]
  unfold relaunch rearmed
  rw [if_neg ready]
  refine ite_congr rfl (fun _ => rfl) fun _ => ?_
  simp only [same, beforeStep_of_stn same]

theorem relaunch_window (hw : windowOk s t = false) : relaunch s p t = { s with stn := { s.stn with admitResult := arWindow } } :=
  (relaunch_ready h hn).trans (if_pos (by rw [hw]; rfl))

theorem relaunch_rearms (hw : windowOk s t = true) : relaunch s p t = rearmed s p t :=
  (relaunch_ready h hn).trans (if_neg (by rw [hw]; decide))

end

section
variable {at_ : BitVec 64} (h : Accepted s r (needs 0x0031 true false [rdyStn]) (beBytes 8 at_.toNat) i x)
include h

theorem planRelaunch_accepted :
    let u := begun s r 0x0031 (beBytes 8 at_.toNat) i x
    exec (.planRelaunch r at_) s = .next (match s.stn.cur with
      | some p =>
        if s.stn.place = .halted then
          if 2 ^ 48 ≤ at_.toNat then respond u r 0x0031 stBadArg [0]
          else respond (relaunch u p (at_.setWidth 48)) r 0x0031 stOk [(relaunch u p (at_.setWidth 48)).stn.admitResult]
        else respond u r 0x0031 stRefused [placeCode s.stn.place]
      | none => respond u r 0x0031 stRefused [placeCode s.stn.place]) := by
  have answer := exec_accepted (c := .planRelaunch r at_) h rfl
  refine answer.trans ?_
  rw [begun_stn]
  cases s.stn.cur
  · rfl
  · rfl

theorem planRelaunch_refused (hp : s.stn.cur = none ∨ s.stn.place ≠ .halted) :
    exec (.planRelaunch r at_) s = .next (respond (begun s r 0x0031 (beBytes 8 at_.toNat) i x) r 0x0031 stRefused [placeCode s.stn.place]) := by
  refine (planRelaunch_accepted h).trans (congrArg _ ?_)
  cases hc : s.stn.cur with
  | none => rfl
  | some p => exact if_neg (hp.resolve_left (by rw [hc]; exact Option.some_ne_none p))

variable {p : Plan} (hc : s.stn.cur = some p) (hp : s.stn.place = .halted)
include hc hp

theorem planRelaunch_badArg (ht : 2 ^ 48 ≤ at_.toNat) :
    exec (.planRelaunch r at_) s = .next (respond (begun s r 0x0031 (beBytes 8 at_.toNat) i x) r 0x0031 stBadArg [0]) := by
  refine (planRelaunch_accepted h).trans (congrArg _ ?_)
  rw [hc]
  exact (if_pos hp).trans (if_pos ht)

/-- A relaunch answers with the result that it has written. -/
theorem planRelaunch_judged {u : State} (ht : at_.toNat < 2 ^ 48) (hu : relaunch (begun s r 0x0031 (beBytes 8 at_.toNat) i x) p (at_.setWidth 48) = u) :
    exec (.planRelaunch r at_) s = .next (respond u r 0x0031 stOk [u.stn.admitResult]) := by
  refine (planRelaunch_accepted h).trans (congrArg _ ?_)
  rw [hc]
  subst hu
  exact (if_pos hp).trans (if_neg (Nat.not_le.mpr ht))

end

/-! ## PLAN_DISCARD and PLAN_HALT, R194 -/

section
variable {which : BitVec 8} (h : Accepted s r (needs 0x0032 true true [rdyStn]) [which] i x)
include h

theorem planDiscard_accepted :
    let u := begun s r 0x0032 [which] i x
    exec (.planDiscard r which) s = .next (
      if which = 1 then respond (dropNext u false) r 0x0032 stOk []
      else if which ≠ 0 then respond u r 0x0032 stBadArg [0]
      else match s.stn.cur with
        | some p =>
          if s.stn.place = .armed ∨ s.stn.place = .halted then respond (discardCurrent u p) r 0x0032 stOk []
          else respond u r 0x0032 stRefused [placeCode s.stn.place]
        | none => respond u r 0x0032 stRefused [placeCode s.stn.place]) := by
  have answer := exec_accepted (c := .planDiscard r which) h rfl
  refine answer.trans ?_
  rw [begun_stn]
  cases s.stn.cur
  · rfl
  · rfl

end

end

/-! ## HALT_AT_SEAM, R198 -/

theorem haltAtSeam_running {s : State} (h : s.stn.place = .running) : haltAtSeam s = { s with stn := { s.stn with haltReq := true } } := if_pos h
theorem haltAtSeam_other {s : State} (h : s.stn.place ≠ .running) : haltAtSeam s = s := if_neg h

/-! ## The statement -/

/-- Settles O23: each mailbox command by its checks in order, the STN_CTRL bits by their own laws, and the discarding of NEXT by what an idle queue makes of its grants. -/
theorem planCommands : Obligations.PlanCommands := by
  unfold Obligations.PlanCommands
  intro s r i x
  refine ⟨fun len crc h => ?admission, fun at_ h => ?relaunch, fun which h => ?discard, fun h hr => ?halt, fun live hr => act_eq_next live (haltAtSeam_running hr),
    fun live hr => act_eq_next live (haltAtSeam_other hr), fun live hn => act_eq_next live (dropNext_none hn false), fun p live hn hq hf => ?dropNext⟩
  case admission =>
    have checks := planAdmit_accepted h
    refine ⟨fun busy => checks.trans ?_, fun idle other => checks.trans ?_, fun idle owner fits => ⟨fun bad => checks.trans ?_, fun good hcs version => checks.trans ?_, fun good version => checks.trans ?_⟩⟩
    · rw [if_pos busy]
    · rw [if_neg (by simp [idle]), if_pos other]
    · rw [if_neg (by simp [idle]), if_neg (not_not_intro owner), if_neg (Nat.not_lt.mpr fits), if_pos bad]
    · rw [if_neg (by simp [idle]), if_neg (not_not_intro owner), if_neg (Nat.not_lt.mpr fits), if_neg (not_not_intro good), if_pos ⟨hcs, version⟩]
    · rw [if_neg (by simp [idle]), if_neg (not_not_intro owner), if_neg (Nat.not_lt.mpr fits), if_neg (not_not_intro good), if_neg fun bad => bad.2 (version bad.1)]
  case relaunch =>
    refine ⟨planRelaunch_refused h, fun p hc hp => ⟨planRelaunch_badArg h hc hp, fun ht => ⟨fun unready => ?_, fun ready units early => ?_, fun ready units window => ?_⟩⟩⟩
    · have judged : planReady (begun s r 0x0031 (beBytes 8 at_.toNat) i x) = false ∨ (planNotReady (begun s r 0x0031 (beBytes 8 at_.toNat) i x) p).isSome := by
        rwa [begun_planReady, begun_planNotReady]
      exact planRelaunch_judged h hc hp ht (relaunch_notReady judged _)
    · have refused := relaunch_window ((begun_planReady s r 0x0031 (beBytes 8 at_.toNat) i x).trans ready) ((begun_planNotReady ..).trans units) ((begun_windowOk ..).trans early)
      exact planRelaunch_judged h hc hp ht refused
    · have armed := relaunch_rearms ((begun_planReady s r 0x0031 (beBytes 8 at_.toNat) i x).trans ready) ((begun_planNotReady ..).trans units) ((begun_windowOk ..).trans window)
      unfold rearmed at armed
      simp only [begun_stn, beforeStep_of_stn (begun_stn ..)] at armed
      exact planRelaunch_judged h hc hp ht armed
  case discard =>
    have checks := planDiscard_accepted h
    refine ⟨fun next => checks.trans ?_, fun not0 not1 => checks.trans ?_, fun p zero hc hp => checks.trans ?_, fun zero hp => checks.trans ?_⟩
    · rw [if_pos next]
    · rw [if_neg not1, if_pos not0]
    · rw [if_neg (by rw [zero]; decide), if_neg (not_not_intro zero), hc]
      exact congrArg _ (if_pos hp)
    · rw [if_neg (by rw [zero]; decide), if_neg (not_not_intro zero)]
      cases hc : s.stn.cur with
      | none => rfl
      | some p => exact congrArg _ (if_neg (hp.resolve_left (by rw [hc]; exact Option.some_ne_none p)))
  case halt =>
    have answer := exec_accepted (c := .planHalt r) h rfl
    have running : (begun s r (needs 0x0033 true false [rdyStn]).op [] i x).stn.place = .running := hr
    rw [haltAtSeam_running running] at answer
    exact answer
  case dropNext =>
    refine .of_act live (t := discardNext s) rfl ?_
    obtain ⟨stn, skm, clc, regions, areas, eng, frame⟩ := discardNext_idle ⟨hq, hf⟩ hn
    refine ⟨stn, skm, clc, regions, areas, fun e he => (eng e he).trans (ite_congr (propext ?_) (fun _ => rfl) fun _ => rfl), frame⟩
    unfold curEngines
    cases s.stn.cur <;> simp [and_assoc]

end Sys2Proof.Machine

/-! What the binding of a spare can reach: it asks its peers to rebuild and may report to the root, and no plan changes by it (R241, R243). -/

namespace Sys2Proof.Machine

/-- The second state differs from the first in CLC, in what has left the device or waits to leave it, and in the free values taken. -/
def ControlOnly (s t : State) : Prop := ∃ c o q f, t = { s with clc := c, out := o, sch := q, fresh := f }

namespace ControlOnly

variable {s t u : State}

theorem refl (s : State) : ControlOnly s s := ⟨s.clc, s.out, s.sch, s.fresh, rfl⟩

theorem trans (h : ControlOnly s t) (h' : ControlOnly t u) : ControlOnly s u := by
  obtain ⟨c, o, q, f, rfl⟩ := h
  obtain ⟨c', o', q', f', rfl⟩ := h'
  exact ⟨c', o', q', f', rfl⟩

theorem clc (h : ControlOnly s t) (c : Clc) : ControlOnly s { t with clc := c } := h.trans ⟨c, t.out, t.sch, t.fresh, rfl⟩

theorem stn (h : ControlOnly s t) : t.stn = s.stn := by
  obtain ⟨c, o, q, f, rfl⟩ := h
  rfl

end ControlOnly

theorem myRank_of_stn {s t : State} (h : t.stn = s.stn) : myRank t = myRank s := by
  unfold myRank curRank
  rw [h]

theorem sendMsg_controlOnly (s : State) (dest : Nat) (m : ClcMsg) : ControlOnly s (sendMsg s dest m) := by
  unfold sendMsg arriveCtl
  split
  · exact ⟨s.clc, _, s.sch, s.fresh, rfl⟩
  · split
    · exact ⟨s.clc, s.out, _, s.fresh, rfl⟩
    · exact ⟨s.clc, s.out, _, s.fresh, rfl⟩

/-! ## Messages of a rebuild that the device sends itself -/

/-- A message of a rebuild that this device sends: a request of its own, or the report that it is rebuilt. -/
def OfRebuild (s : State) (m : ClcMsg) : Prop := (m.type = tyRebuildReq ∧ m.src.toNat = myRank s) ∨ m.type = tyRebuilt

/-- A request that names this device as its sender asks it for nothing, while its plan is not HALTED. -/
theorem onRebuildReq_own {s : State} {m : ClcMsg} (hp : s.stn.place ≠ .halted) (hm : m.src.toNat = myRank s) : onRebuildReq s m = (s, []) := by
  unfold onRebuildReq
  simp only [hm, hp, ne_eq, not_true_eq_false, decide_false, Bool.and_false, not_false_eq_true, if_true, Bool.false_eq_true, if_false]
  split <;> rfl

theorem onRebuilt_frame (s : State) (m : ClcMsg) : ∃ c, onRebuilt s m = ({ s with clc := c }, []) := by
  unfold onRebuilt
  split
  · exact ⟨_, rfl⟩
  · exact ⟨s.clc, rfl⟩

/-- What the device does on such a message of its own: it notes it, and sends nothing on. -/
theorem clcHandle_rebuild {s : State} {m : ClcMsg} (hr : s.se.role ≠ 2) (hp : s.stn.place ≠ .halted) (hm : OfRebuild s m) :
    ∃ c, clcHandle s m true = ({ s with clc := c }, []) := by
  have notExt : decide (m.type = tyExt) = false := by
    rcases hm with ⟨h, _⟩ | h <;> rw [h] <;> decide
  unfold clcHandle
  simp only [notExt, hr, Bool.not_true, Bool.or_self, Bool.false_and, Bool.false_eq_true, if_false]
  rcases hm with ⟨h, own⟩ | h
  · rw [h]
    exact ⟨_, onRebuildReq_own hp own⟩
  · rw [h]
    exact onRebuilt_frame _ m

theorem clcSend_rebuild (n : Nat) {s : State} {o : Sends} (hp : s.stn.place ≠ .halted) (ho : ∀ q ∈ o, OfRebuild s q.2) : ControlOnly s (clcSend n (s, o)) := by
  induction n generalizing s o with
  | zero =>
    unfold clcSend
    exact .refl s
  | succ n ih =>
    obtain _ | ⟨⟨dest, m⟩, rest⟩ := o
    · exact .refl s
    have later {t : State} (h : ControlOnly s t) : ControlOnly s (clcSend n (t, rest)) := by
      refine h.trans (ih (by rw [h.stn]; exact hp) fun q hq => ?_)
      unfold OfRebuild
      rw [myRank_of_stn h.stn]
      exact ho q (List.mem_cons_of_mem _ hq)
    unfold clcSend
    split
    · exact .refl s
    · rename_i paired
      split
      · obtain ⟨c, handled⟩ := clcHandle_rebuild paired hp (ho (dest, m) List.mem_cons_self)
        simp only [handled, List.append_nil]
        exact later ((ControlOnly.refl s).clc c)
      · exact later (sendMsg_controlOnly s dest m)

/-! ## The binding of a spare, R241 and R243 -/

theorem baseMsg_src (s : State) (type : Byte) (coll : Nat) (step : BitVec 32) : (baseMsg s type coll step).src.toNat = myRank s := by
  show ((curRank s).setWidth 16).toNat = (curRank s).toNat
  rw [BitVec.toNat_setWidth]
  omega

theorem rebuildRequests_ofRebuild (s : State) : ∀ q ∈ rebuildRequests s, OfRebuild s q.2 := by
  intro q hq
  unfold rebuildRequests at hq
  obtain ⟨d, _, hq⟩ := List.mem_flatMap.mp hq
  obtain ⟨r, _, rfl⟩ := List.mem_map.mp hq
  exact .inl ⟨rfl, baseMsg_src s tyRebuildReq d.1 s.stn.launchStep⟩

theorem finishRebuild_controlOnly {s : State} (hp : s.stn.place ≠ .halted) : ControlOnly s (finishRebuild s) := by
  unfold finishRebuild
  split
  · refine ((ControlOnly.refl s).clc _).trans (clcSend_rebuild _ hp fun q hq => ?_)
    obtain ⟨d, _, rfl⟩ := List.mem_map.mp hq
    exact .inr rfl
  · exact .refl s

theorem askPeers_controlOnly {s : State} (hp : s.stn.place ≠ .halted) : ControlOnly s (finishRebuild (clcOut (s, rebuildRequests s))) := by
  have asked : ControlOnly s (clcOut (s, rebuildRequests s)) := clcSend_rebuild 100000 hp (rebuildRequests_ofRebuild s)
  exact asked.trans (finishRebuild_controlOnly (by rw [asked.stn]; exact hp))

theorem bindSpare_controlOnly {s : State} (hp : s.stn.place ≠ .halted) : ControlOnly s (bindSpare s) := by
  have drawn : ControlOnly s { s with fresh := s.fresh + 1 } := ⟨s.clc, s.out, s.sch, _, rfl⟩
  unfold bindSpare
  simp only []
  split
  · exact drawn
  · split
    · exact drawn.clc _
    · exact (drawn.clc _).trans (askPeers_controlOnly hp)

end Sys2Proof.Machine

/-! The admission of a plan: its twelve checks in their order, its answer, and the place it takes (R176 to R180, R341). -/

namespace Sys2Proof.Machine

/-! ## The end of an admission, R176 and R341 -/

section
variable {s : State} {a : Admitting} (ha : s.stn.admitting = some a)
include ha

theorem planAdmitDone_fails {f : Refused} (h : admitChecks { s with stn := { s.stn with admitting := none } } (Mem.read s.hwk.area1 0 a.len) a.len = .inr f) :
    planAdmitDone s = admitAnswer (admitResult { s with stn := { s.stn with admitting := none } } f.code (some f.place)) a.req := by
  unfold planAdmitDone
  rw [ha]
  simp only [h]

section
variable {p : Plan} {v : State} (h : admitChecks { s with stn := { s.stn with admitting := none } } (Mem.read s.hwk.area1 0 a.len) a.len = .inl (p, v))
include h

/-- A plan that passes the checks takes its place, once no command waits in Lath's queue. -/
theorem planAdmitDone_passes :
    planAdmitDone s = if !s.lth.queue.isEmpty then s else admitAnswer (admitResult (placePlan v p) (if p.isBreak then arEager else arAdmitted) none) a.req := by
  unfold planAdmitDone
  rw [ha]
  simp only [h]
  rw [← ha]

theorem planAdmitDone_places (hq : s.lth.queue = []) :
    planAdmitDone s = admitAnswer (admitResult (placePlan v p) (if p.isBreak then arEager else arAdmitted) none) a.req :=
  (planAdmitDone_passes ha h).trans (if_neg (by rw [hq]; decide))

theorem planAdmitDone_waits (hq : s.lth.queue ≠ []) : planAdmitDone s = s :=
  (planAdmitDone_passes ha h).trans (if_pos (by simpa using hq))

end

end

/-! ## Checks 1 to 5 -/

section
variable {s : State} {bs : List Byte} {len : Nat}

theorem admitChecks_slotBusy (h : placeFree s (imgSeam bs) = false) : admitChecks s bs len = .inr ⟨arSlotBusy, placeOpen⟩ :=
  if_pos (by rw [h]; rfl)

section
variable (free : placeFree s (imgSeam bs) = true)
include free

theorem admitChecks_format {f : Spot} (h : formatFault bs len = some f) : admitChecks s bs len = .inr ⟨arFormat, f⟩ := by
  unfold admitChecks
  rw [if_neg (by rw [free]; decide), h]

variable (wellFormed : formatFault bs len = none)
include wellFormed

/-- What is left of the checks once the place is free and the image well-formed. -/
theorem admitChecks_wellFormed :
    admitChecks s bs len = if signatureBad s bs then .inr ⟨arSignature, headerPlace⟩
      else if targetBad s bs (parsePlan bs) then .inr ⟨arTarget, headerPlace⟩
      else if s.top.asig = some (parsePlan bs).asig then checksFrom6 s (parsePlan bs)
      else if (parsePlan bs).mayFallBack then checksFrom6 s (parsePlan bs).fallenBack
      else .inr ⟨arAsig, headerPlace⟩ := by
  unfold admitChecks
  rw [if_neg (by rw [free]; decide), wellFormed]

theorem admitChecks_signature (h : signatureBad s bs = true) : admitChecks s bs len = .inr ⟨arSignature, headerPlace⟩ :=
  (admitChecks_wellFormed free wellFormed).trans (if_pos h)

variable (signed : signatureBad s bs = false)
include signed

theorem admitChecks_target (h : targetBad s bs (parsePlan bs) = true) : admitChecks s bs len = .inr ⟨arTarget, headerPlace⟩ := by
  rw [admitChecks_wellFormed free wellFormed, if_neg (by simp [signed]), if_pos h]

/-- Check 5 decides what checks 6 to 12 go over: the plan, its fall-back, or nothing. -/
theorem admitChecks_asig (aimed : targetBad s bs (parsePlan bs) = false) :
    admitChecks s bs len = if s.top.asig = some (parsePlan bs).asig then checksFrom6 s (parsePlan bs)
      else if (parsePlan bs).mayFallBack then checksFrom6 s (parsePlan bs).fallenBack
      else .inr ⟨arAsig, headerPlace⟩ := by
  rw [admitChecks_wellFormed free wellFormed, if_neg (by simp [signed]), if_neg (by simp [aimed])]

end

end

/-! ## Checks 6 to 8 -/

theorem firstBad_isSome {l : List Check} : (firstBad l).isSome ↔ ∃ c ∈ l, c.1 = true := by
  unfold firstBad
  rw [Option.isSome_map, List.find?_isSome]

theorem firstBad_eq_none {l : List Check} : firstBad l = none ↔ ∀ c ∈ l, c.1 = false := by
  simp [firstBad]

/-- Check 8 on each region, with the place of a failure. -/
def inheritChecks (s : State) (p : Plan) : List Check :=
  ((List.range p.regions.length).zip p.regions).map fun r => (inheritBad s r.2, placeOf 7 0 0 r.1)

/-- The verdicts of check 8 are those on the plan's regions. -/
theorem inheritChecks_verdicts (s : State) (p : Plan) : (inheritChecks s p).map (·.1) = p.regions.map (inheritBad s) := by
  have regions : ((List.range p.regions.length).zip p.regions).map (·.2) = p.regions := List.map_snd_zip (by simp)
  calc (inheritChecks s p).map (·.1) = (((List.range p.regions.length).zip p.regions).map (·.2)).map (inheritBad s) := by
        simp [inheritChecks, Function.comp_def]
    _ = p.regions.map (inheritBad s) := by rw [regions]

theorem exists_inheritChecks {s : State} {p : Plan} {b : Bool} : (∃ c ∈ inheritChecks s p, c.1 = b) ↔ ∃ g ∈ p.regions, inheritBad s g = b := by
  rw [← List.mem_map (f := (·.1)) (l := inheritChecks s p), inheritChecks_verdicts, List.mem_map]

section
variable {s : State} {p : Plan}

theorem checksFrom6_inr {f : Refused} (h : checksToInherit s p = some f) : checksFrom6 s p = .inr f := by
  unfold checksFrom6
  rw [h]

theorem checksFrom6_notReady (h : planReady s = false ∨ (planNotReady s p).isSome) : checksFrom6 s p = .inr ⟨arNotReady, placeOpen⟩ :=
  checksFrom6_inr (if_pos (by simpa using h))

section
variable (ready : planReady s = true) (units : planNotReady s p = none)
include ready units

theorem checksToInherit_ready : checksToInherit s p = orElse_ ((ruleFault s p).map fun x => ⟨arRule, x⟩) (failAt arInherit (inheritChecks s p)) :=
  if_neg (by simp [ready, units])

theorem checksFrom6_rule {f : Spot} (h : ruleFault s p = some f) : checksFrom6 s p = .inr ⟨arRule, f⟩ :=
  checksFrom6_inr (by rw [checksToInherit_ready ready units, h]; rfl)

variable (lawful : ruleFault s p = none)
include lawful

theorem checksToInherit_lawful : checksToInherit s p = failAt arInherit (inheritChecks s p) := by
  rw [checksToInherit_ready ready units, lawful]
  rfl

theorem checksFrom6_inherit (h : ∃ g ∈ p.regions, inheritBad s g = true) : ∃ f, checksFrom6 s p = .inr ⟨arInherit, f⟩ := by
  obtain ⟨f, hf⟩ := Option.isSome_iff_exists.mp (firstBad_isSome.mpr (exists_inheritChecks.mpr h))
  refine ⟨f, checksFrom6_inr ?_⟩
  rw [checksToInherit_lawful ready units lawful, failAt, hf]
  rfl

theorem checksToInherit_passes (h : ∀ g ∈ p.regions, inheritBad s g = false) : checksToInherit s p = none := by
  have good : firstBad (inheritChecks s p) = none := firstBad_eq_none.mpr fun c hc => by
    obtain ⟨g, hg, same⟩ := exists_inheritChecks.mp ⟨c, hc, rfl⟩
    exact same.symm.trans (h g hg)
  rw [checksToInherit_lawful ready units lawful, failAt, good]
  rfl

end

/-! ## Checks 9 to 12 -/

section
variable (passed : checksToInherit s p = none)
include passed

theorem checksFrom6_noBuffers {f : Spot} (h : grantPlan s p = .inr f) : checksFrom6 s p = .inr ⟨arNoBuffers, f⟩ := by
  unfold checksFrom6
  rw [passed, h]

variable {g : Plan} {v : State} (granted : grantPlan s p = .inl (g, v))
include granted

theorem checksFrom6_timing {f : Spot} (h : timePlan v g = .inr f) : checksFrom6 s p = .inr ⟨arTiming, f⟩ := by
  unfold checksFrom6
  rw [passed, granted]
  simp only [h]

variable {q : Plan} (timed : timePlan v g = .inl q)
include timed

theorem checksFrom6_budget {f : Spot} (h : budgetFault v q = some f) : checksFrom6 s p = .inr ⟨arBudget, f⟩ := by
  unfold checksFrom6
  rw [passed, granted]
  simp only [timed, h]

theorem checksFrom6_window (fits : budgetFault v q = none) : checksFrom6 s p = if windowBad v q then .inr ⟨arWindow, headerPlace⟩ else .inl (q, v) := by
  unfold checksFrom6
  rw [passed, granted]
  simp only [timed, fits]

end

end

/-! ## The place of an admitted plan, R179 -/

/-- The device once CURRENT is an admitted plan, before its engines and its launch are armed. -/
def asCurrent (s : State) (p : Plan) : State :=
  { s with stn := { s.stn with cur := some p, place := .armed, haltCause := 0, launchAt := p.launchNs, launchStep := p.step0, begunTo := none, patched := patchesFor p p.step0 }, skm := { s.skm with tables := p.skim } }

theorem placePlan_none {s : State} {p : Plan} (h : s.stn.place = .none) (hb : p.isBreak = false) :
    placePlan s p = bindSpare (armTrig (armEngines (claimHeld (asCurrent (seForget (fun _ => true) s) (withImages s p)) (withImages s p)) (withImages s p)) 0 p.launchNs) := by
  have noEntry : breakEntry s (withImages s p) = s := if_neg (by rw [show (withImages s p).isBreak = p.isBreak from rfl, hb]; decide)
  unfold placePlan
  simp only [noEntry]
  exact if_pos h

/-- The arming of a plan that is ARMED changes neither CURRENT, its place and launch time, nor Skim, and arms launch trigger 0. -/
theorem armPlan_frame {s : State} (p : Plan) (t : PCount) (h : s.stn.place = .armed) :
    let u := bindSpare (armTrig (armEngines (claimHeld s p) p) 0 t)
    u.stn = (claimHeld s p).stn ∧ u.trig 0 = { s.trig 0 with target := t, period := 0, en := true } ∧ u.skm = s.skm := by
  obtain ⟨x, y, armed⟩ := armEngines_enginesOnly (claimHeld s p) p
  have notHalted : (armTrig (armEngines (claimHeld s p) p) 0 t).stn.place ≠ .halted := by
    rw [armTrig_stn, armed]
    show s.stn.place ≠ .halted
    rw [h]
    decide
  obtain ⟨c, o, q, f, bound⟩ := bindSpare_controlOnly notHalted
  intro u
  have hu : u = { armTrig (armEngines (claimHeld s p) p) 0 t with clc := c, out := o, sch := q, fresh := f } := bound
  rw [hu, armed]
  refine ⟨rfl, ?_, rfl⟩
  exact armTrig_trig { claimHeld s p with engines := x, top := y } 0 t

/-! ## The statement -/

/-- Settles O24: the end of an admission by what its checks answer, the checks one after another, and the place of a plan by the frames of what arms it. -/
theorem planAdmission : Obligations.PlanAdmission := by
  unfold Obligations.PlanAdmission
  intro s a live ha u bs p
  refine ⟨fun f h => act_eq_next live (planAdmitDone_fails ha h), fun p v h hq => act_eq_next live (planAdmitDone_places ha h hq),
    fun p v h hq => act_eq_next live (planAdmitDone_waits ha h hq), admitChecks_slotBusy, fun free => ⟨fun f => admitChecks_format free, admitChecks_signature free,
      admitChecks_target free, fun formed signed aimed => ?asig⟩, fun q => ⟨checksFrom6_notReady, fun ready units => ⟨fun f => checksFrom6_rule ready units, checksFrom6_inherit ready units, fun lawful fine => ?late⟩⟩,
    fun v p hv hb => ?place⟩
  case asig =>
    have check5 := admitChecks_asig free formed signed aimed
    refine ⟨fun same => check5.trans (if_pos same), fun other may => check5.trans ((if_neg other).trans (if_pos may)), fun other may => check5.trans ((if_neg other).trans (if_neg ?_))⟩
    exact Bool.eq_false_iff.mp may
  case late =>
    have passed := checksToInherit_passes ready units lawful fine
    refine ⟨fun f => checksFrom6_noBuffers passed, fun g v granted => ⟨fun f => checksFrom6_timing passed granted, fun h timed => ⟨fun f => checksFrom6_budget passed granted timed, fun fits bad => ?_, fun fits good => ?_⟩⟩⟩
    · exact (checksFrom6_window passed granted timed fits).trans (if_pos bad)
    · exact (checksFrom6_window passed granted timed fits).trans (if_neg (Bool.eq_false_iff.mp good))
  case place =>
    obtain ⟨stn, trig, skm⟩ := armPlan_frame (s := asCurrent (seForget (fun _ => true) v) (withImages v p)) (withImages v p) p.launchNs rfl
    rw [placePlan_none hv hb, stn, trig, skm]
    exact ⟨rfl, rfl, rfl, rfl, rfl⟩

end Sys2Proof.Machine

/-! What leaves for other ranks, and how a control message is taken (R215 to R217, R272, R511). -/

namespace Sys2Proof.Machine

/-! ## Messages for other ranks -/

/-- The second state differs from the first in what has left the device or waits to leave it. -/
def OutOnly (s t : State) : Prop := ∃ o q, t = { s with out := o, sch := q }

namespace OutOnly

variable {s t u : State}

theorem refl (s : State) : OutOnly s s := ⟨s.out, s.sch, rfl⟩

theorem trans (h : OutOnly s t) (h' : OutOnly t u) : OutOnly s u := by
  obtain ⟨o, q, rfl⟩ := h
  obtain ⟨o', q', rfl⟩ := h'
  exact ⟨o', q', rfl⟩

theorem stn (h : OutOnly s t) : t.stn = s.stn := by
  obtain ⟨o, q, rfl⟩ := h
  rfl

theorem clc (h : OutOnly s t) : t.clc = s.clc := by
  obtain ⟨o, q, rfl⟩ := h
  rfl

theorem se (h : OutOnly s t) : t.se = s.se := by
  obtain ⟨o, q, rfl⟩ := h
  rfl

theorem hbm (h : OutOnly s t) : t.hbm = s.hbm := by
  obtain ⟨o, q, rfl⟩ := h
  rfl

end OutOnly

theorem sendMsg_outOnly (s : State) (dest : Nat) (m : ClcMsg) : OutOnly s (sendMsg s dest m) := by
  unfold sendMsg arriveCtl
  split
  · exact ⟨_, s.sch, rfl⟩
  · split
    · exact ⟨s.out, _, rfl⟩
    · exact ⟨s.out, _, rfl⟩

theorem sentTo_cons (s : State) (p : Nat × ClcMsg) (o : Sends) : sentTo s (p :: o) = sentTo (sendMsg s p.1 p.2) o := rfl

theorem sentTo_outOnly (s : State) (o : Sends) : OutOnly s (sentTo s o) :=
  List.foldlRecOn (motive := OutOnly s) o _ (.refl s) fun t ht p _ => ht.trans (sendMsg_outOnly t p.1 p.2)

/-- No message of the list is for this device itself. -/
def ForOthers (s : State) (o : Sends) : Prop := ∀ p ∈ o, p.1 ≠ myRank s

theorem ForOthers.single {s : State} {d : Nat} {m : ClcMsg} (h : d ≠ myRank s) : ForOthers s [(d, m)] :=
  fun _ hp => List.mem_singleton.1 hp ▸ h

theorem clcSend_nil (n : Nat) (s : State) : clcSend n (s, []) = s := by
  cases n <;> rfl

/-- Messages for other ranks leave in their order, as many as the bound allows. -/
theorem clcSend_others (n : Nat) {s : State} {o : Sends} (paired : s.se.role ≠ 2) (others : ForOthers s o) : clcSend n (s, o) = sentTo s (o.take n) := by
  induction n generalizing s o with
  | zero => rw [List.take_zero]; rfl
  | succ n ih =>
    obtain _ | ⟨p, rest⟩ := o
    · rfl
    have kept := sendMsg_outOnly s p.1 p.2
    rw [List.take_succ_cons, sentTo_cons, ← ih (by rw [kept.se]; exact paired), clcSend, if_neg paired, if_neg (others p List.mem_cons_self)]
    intro q hq
    rw [myRank_of_stn kept.stn]
    exact others q (List.mem_cons_of_mem _ hq)

theorem clcOut_nil (s : State) : clcOut (s, []) = s := clcSend_nil 100000 s

section
variable {s : State} {o : Sends}

theorem clcOut_others (paired : s.se.role ≠ 2) (others : ForOthers s o) (few : o.length ≤ 100000) : clcOut (s, o) = sentTo s o := by
  unfold clcOut
  rw [clcSend_others _ paired others, List.take_of_length_le few]

theorem clcOut_outOnly (paired : s.se.role ≠ 2) (others : ForOthers s o) : OutOnly s (clcOut (s, o)) := by
  unfold clcOut
  rw [clcSend_others _ paired others]
  exact sentTo_outOnly s _

/-- A SHADOW sends nothing, R272. -/
theorem clcOut_shadow (h : s.se.role = 2) : clcOut (s, o) = s := by
  unfold clcOut
  obtain _ | ⟨p, rest⟩ := o
  · exact clcSend_nil _ s
  · rw [show 100000 = 99999 + 1 from rfl, clcSend, if_pos h]

end

/-- One message for another rank leaves. -/
theorem clcOut_single {s : State} (paired : s.se.role ≠ 2) {d : Nat} (m : ClcMsg) (h : d ≠ myRank s) : clcOut (s, [(d, m)]) = sentTo s [(d, m)] :=
  clcOut_others paired (.single h) (Nat.le_of_ble_eq_true rfl)

/-! ## The two ways out, R215 and R511 -/

theorem sendMsg_inside {s : State} {d : Nat} (m : ClcMsg) (h : siteHead d = siteHead (myRank s)) : sendMsg s d m = emit s (.clc (BitVec.ofNat 15 d) m) := if_pos h

theorem sendMsg_outside {s : State} {d : Nat} (m : ClcMsg) (h : siteHead d ≠ siteHead (myRank s)) :
    sendMsg s d m = arriveCtl s (Config.ctlRoute m.plan (myRank s) d).val (.seg 2 (clcBytes m)) := if_neg h

theorem sentTo_inside {s : State} {o : Sends} (h : ∀ p ∈ o, siteHead p.1 = siteHead (myRank s)) :
    sentTo s o = { s with out := s.out ++ o.map fun p => .clc (BitVec.ofNat 15 p.1) p.2 } := by
  induction o generalizing s with
  | nil => rw [List.map_nil, List.append_nil]; rfl
  | cons p rest ih =>
    rw [sentTo_cons, sendMsg_inside p.2 (h p List.mem_cons_self), List.map_cons, List.append_cons]
    exact ih (s := emit s _) fun q hq => h q (List.mem_cons_of_mem _ hq)

theorem clcBytes_length (m : ClcMsg) : (clcBytes m).length = 64 := by
  simp [clcBytes]

theorem clcSegment_len (m : ClcMsg) : (QItem.seg 2 (clcBytes m)).len = 68 := by
  show 4 + padded4 (clcBytes m).length = 68
  rw [clcBytes_length]
  rfl

section
variable {s : State} {b : Nat} {it : QItem}

theorem arriveCtl_room (h : itemsLen (s.ctlQ b) + it.len ≤ 262144) :
    arriveCtl s b it = { s with sch := { s.sch with ctl := Tab.put [] s.sch.ctl b (s.ctlQ b ++ [⟨it, s.count, 0⟩]) } } := if_pos h

theorem arriveCtl_full (h : 262144 < itemsLen (s.ctlQ b) + it.len) :
    arriveCtl s b it = { s with sch := { s.sch with ctlDrop := bump s.sch.ctlDrop 1, err := setErr s.sch.err 3 } } := if_neg (Nat.not_le.2 h)

theorem arriveCtl_ctlQ_ne {j : Nat} (h : j ≠ b) : (arriveCtl s b it).ctlQ j = s.ctlQ j := by
  unfold arriveCtl
  split
  · exact Tab.get_put_ne _ _ _ b j _ h
  · rfl

theorem arriveCtl_frame (s : State) (b : Nat) (it : QItem) : { arriveCtl s b it with sch := s.sch } = s := by
  unfold arriveCtl
  split <;> rfl

end

/-- Settles O29: the run of sends, and each of the two ways that a message takes. -/
theorem clcSends : Obligations.ClcSends := by
  unfold Obligations.ClcSends
  intro s o
  refine ⟨fun paired few others => clcOut_others paired others (Nat.le_of_lt few), clcOut_shadow, sentTo_inside, fun d m far => ?_⟩
  intro b t
  have sent : t = arriveCtl s b (.seg 2 (clcBytes m)) := sendMsg_outside m far
  rw [sent, ← clcSegment_len m]
  refine ⟨fun room => ?_, fun full => ?_, fun j => arriveCtl_ctlQ_ne, arriveCtl_frame s b _⟩
  · rw [arriveCtl_room room]
    exact ⟨Tab.get_put _ _ b _, rfl⟩
  · rw [arriveCtl_full full]
    exact ⟨rfl, rfl⟩

/-! ## The checks of a message, R217 -/

theorem seForward_unpaired {s : State} (h : s.se.role = 0) (type : Byte) (body : List Byte) : seForward s type body = s := by
  unfold seForward
  rw [h]
  rfl

section
variable {s : State} {m : ClcMsg} (unpaired : s.se.role = 0)
include unpaired

theorem clcCommand_received : clcCommand s m.type m = clcReceive s m := by
  unfold clcCommand
  rw [unpaired, if_neg (by decide), if_pos rfl]

/-- A reserved TYPE is none of those that a command takes. -/
theorem clcCommand_reserved {ty : Byte} (taken : 1 ≤ ty.toNat ∧ ty.toNat ≤ 12) (h : m.type = 0 ∨ 12 < m.type.toNat) : clcCommand s ty m = clcDrop s := by
  have other : m.type ≠ ty := by
    rintro rfl
    rcases h with h | h
    · rw [h] at taken
      exact absurd taken.1 (by decide)
    · omega
  unfold clcCommand
  rw [unpaired, if_neg (by decide), if_neg other, if_pos h]

theorem clcReceive_accepted (h : clcAccepts s m = true) : clcReceive s m = clcTake s m := by
  unfold clcReceive
  rw [if_pos h, seForward_unpaired unpaired]

end

section
variable {s : State} {m : ClcMsg}

theorem clcReceive_refused (h : clcAccepts s m = false) : clcReceive s m = clcDrop s := by
  unfold clcReceive
  rw [h]
  rfl

theorem clcTake_next (h : names s.stn.cur m = false) : clcTake s m = { s with clc := { s.clc with early := s.clc.early ++ [m] } } := by
  unfold clcTake
  rw [h]
  rfl

theorem clcTake_second (h : names s.stn.cur m = true) (second : secondCopy s m = true) : clcTake s m = s := by
  unfold clcTake clcHandle
  rw [if_pos h, second]
  exact clcOut_nil s

end

/-! ## A message is handled by its TYPE, R216 -/

/-- An unpaired device that has taken a message is no SHADOW. -/
theorem Heard.paired {s : State} {m : ClcMsg} (h : Heard s m) : (heard s m).se.role ≠ 2 := by
  rw [show (heard s m).se.role = 0 from h.unpaired]
  decide

/-- What an unpaired device does on a first copy of a message of each TYPE. -/
def handlerOf (type : Byte) (s : State) (m : ClcMsg) : State × Sends :=
  match type.toNat with
  | 1 => onJoin s m
  | 2 => onSiteJoin s m
  | 3 => onReady s m
  | 4 => onSiteReady s m
  | 5 => onAbortReq s m
  | 6 => onLate s m
  | 7 => onExt s m
  | 8 => onRing s m
  | 9 => onNotify s m
  | 10 => onAbortReply s m
  | 11 => onRebuildReq s m
  | 12 => onRebuilt s m
  | _ => (s, [])

theorem clcHandle_first {s : State} {m : ClcMsg} (unpaired : s.se.role = 0) (first : secondCopy s m = false) : clcHandle s m false = handlerOf m.type (heard s m) m := by
  have role : (heard s m).se.role ≠ 2 := by
    rw [show (heard s m).se.role = 0 from unpaired]
    decide
  unfold clcHandle
  rw [first, Bool.and_false, if_neg Bool.false_ne_true]
  exact if_neg role

section
variable {s : State} {m : ClcMsg} (h : Heard s m)
include h

/-- The command of a message's own TYPE handles it, where the device is to handle it. -/
theorem exec_heard {c : Instr} {ty : Byte} (ht : m.type = ty) (command : exec c s = act s (clcCommand s ty m)) :
    exec c s = .next (clcOut (handlerOf ty (heard s m) m)) := by
  subst ht
  refine command.trans (act_eq_next h.live ?_)
  rw [clcCommand_received h.unpaired, clcReceive_accepted h.unpaired h.accepted, clcTake, if_pos h.cur, clcHandle_first h.unpaired h.first]

theorem exec_join (ht : m.type = tyJoin) : exec (.join m) s = .next (clcOut (onJoin (heard s m) m)) := exec_heard h ht rfl
theorem exec_siteJoin (ht : m.type = tySiteJoin) : exec (.siteJoin m) s = .next (clcOut (onSiteJoin (heard s m) m)) := exec_heard h ht rfl
theorem exec_clcReady (ht : m.type = tyReady) : exec (.clcReady m) s = .next (clcOut (onReady (heard s m) m)) := exec_heard h ht rfl
theorem exec_siteReady (ht : m.type = tySiteReady) : exec (.siteReady m) s = .next (clcOut (onSiteReady (heard s m) m)) := exec_heard h ht rfl
theorem exec_abortReq (ht : m.type = tyAbortReq) : exec (.abortReq m) s = .next (clcOut (onAbortReq (heard s m) m)) := exec_heard h ht rfl
theorem exec_late (ht : m.type = tyLate) : exec (.late m) s = .next (clcOut (onLate (heard s m) m)) := exec_heard h ht rfl
theorem exec_ext (ht : m.type = tyExt) : exec (.ext m) s = .next (clcOut (onExt (heard s m) m)) := exec_heard h ht rfl
theorem exec_ring (ht : m.type = tyRing) : exec (.ring m) s = .next (clcOut (onRing (heard s m) m)) := exec_heard h ht rfl
theorem exec_notify (ht : m.type = tyNotify) : exec (.notify m) s = .next (clcOut (onNotify (heard s m) m)) := exec_heard h ht rfl
theorem exec_abortReply (ht : m.type = tyAbortReply) : exec (.abortReply m) s = .next (clcOut (onAbortReply (heard s m) m)) := exec_heard h ht rfl
theorem exec_rebuildReq (ht : m.type = tyRebuildReq) : exec (.rebuildReq m) s = .next (clcOut (onRebuildReq (heard s m) m)) := exec_heard h ht rfl
theorem exec_rebuilt (ht : m.type = tyRebuilt) : exec (.rebuilt m) s = .next (clcOut (onRebuilt (heard s m) m)) := exec_heard h ht rfl

end

/-! ## The statement -/

/-- The commands that bring a message, each with the one TYPE that it takes. -/
def clcCommands (m : ClcMsg) : List (Byte × Instr) :=
  [(tyJoin, .join m), (tySiteJoin, .siteJoin m), (tyReady, .clcReady m), (tySiteReady, .siteReady m), (tyAbortReq, .abortReq m), (tyLate, .late m), (tyExt, .ext m), (tyRing, .ring m),
    (tyNotify, .notify m), (tyAbortReply, .abortReply m), (tyRebuildReq, .rebuildReq m), (tyRebuilt, .rebuilt m)]

theorem clcCommands_exec {m : ClcMsg} {c : Byte × Instr} (hc : c ∈ clcCommands m) (s : State) :
    (1 ≤ c.1.toNat ∧ c.1.toNat ≤ 12) ∧ exec c.2 s = act s (clcCommand s c.1 m) := by
  simp only [clcCommands, List.mem_cons, List.not_mem_nil, or_false] at hc
  rcases hc with rfl | rfl | rfl | rfl | rfl | rfl | rfl | rfl | rfl | rfl | rfl | rfl <;> exact ⟨⟨Nat.le_of_ble_eq_true rfl, Nat.le_of_ble_eq_true rfl⟩, rfl⟩

/-- Settles O28: the checks of a message, the two that leave it unhandled, and each TYPE by its own command. -/
theorem clcMessages : Obligations.ClcMessages := by
  unfold Obligations.ClcMessages
  intro s m live unpaired
  refine ⟨fun c hc => ?unhandled, fun accepted cur first => ?handled⟩
  case unhandled =>
    obtain ⟨taken, command⟩ := clcCommands_exec (m := m) hc s
    have received (ht : m.type = c.1) : exec c.2 s = .next (clcReceive s m) := command.trans (act_eq_next live (by rw [← ht, clcCommand_received unpaired]))
    have accept (ht : m.type = c.1) (ok : clcAccepts s m = true) : exec c.2 s = .next (clcTake s m) := by
      rw [received ht, clcReceive_accepted unpaired ok]
    refine ⟨fun ht bad => ?_, fun ht ok cur second => ?_, fun ht ok next => ?_, fun reserved => command.trans (act_eq_next live (clcCommand_reserved unpaired taken reserved))⟩
    · rw [received ht, clcReceive_refused bad]
    · rw [accept ht ok, clcTake_second cur second]
    · rw [accept ht ok, clcTake_next next]
  case handled =>
    have h : Heard s m := ⟨live, unpaired, accepted, cur, first⟩
    exact ⟨exec_join h, exec_siteJoin h, exec_clcReady h, exec_siteReady h, exec_abortReq h, exec_late h, exec_ext h, exec_ring h, exec_notify h, exec_abortReply h,
      exec_rebuildReq h, exec_rebuilt h⟩

end Sys2Proof.Machine

/-! What CLC holds of its instances, and their outcomes (R224 to R226, R230, R243, R249). -/

namespace Sys2Proof.Machine

/-! ## Instances -/

section
variable {s : State} {coll : Nat} {step : BitVec 32} {x : Inst}

theorem findInst_place (h : findInst s coll step = some x) : x.coll = coll ∧ x.step = step := by
  have there := List.find?_some h
  exact of_decide_eq_true there

theorem findInst_mem (h : findInst s coll step = some x) : x ∈ s.clc.insts := List.mem_of_find?_eq_some h

theorem getInst_of_findInst (h : findInst s coll step = some x) : getInst s coll step = x := by
  unfold getInst
  rw [h]
  rfl

end

/-- Another holding of instances. -/
def withInsts (s : State) (l : List Inst) : State := { s with clc := { s.clc with insts := l } }

/-- What CLC holds of one of its instances replaces what it held of the same one. -/
def Inst.standIn (x i : Inst) : Inst := if i.coll = x.coll ∧ i.step = x.step then x else i

theorem Inst.standIn_same {x i : Inst} (h : i.coll = x.coll ∧ i.step = x.step) : x.standIn i = x := if_pos h
theorem Inst.standIn_other {x i : Inst} (h : ¬(i.coll = x.coll ∧ i.step = x.step)) : x.standIn i = i := if_neg h

theorem Inst.standIn_place (x i : Inst) : (x.standIn i).coll = i.coll ∧ (x.standIn i).step = i.step := by
  by_cases h : i.coll = x.coll ∧ i.step = x.step
  · rw [standIn_same h]
    exact ⟨h.1.symm, h.2.symm⟩
  · rw [standIn_other h]
    exact ⟨rfl, rfl⟩

theorem Inst.standIn_standIn {x y : Inst} (hc : y.coll = x.coll) (hs : y.step = x.step) (i : Inst) : y.standIn (x.standIn i) = y.standIn i := by
  unfold standIn
  rw [hc, hs]
  by_cases h : i.coll = x.coll ∧ i.step = x.step
  · rw [if_pos h, if_pos ⟨rfl, rfl⟩, if_pos h]
  · rw [if_neg h]

theorem putInst_found {s : State} {x : Inst} (h : (findInst s x.coll x.step).isSome = true) : putInst s x = withInsts s (s.clc.insts.map x.standIn) := if_pos h

theorem putInst_absent {s : State} {x : Inst} (h : findInst s x.coll x.step = none) : putInst s x = withInsts s (s.clc.insts ++ [x]) :=
  if_neg (by rw [h]; decide)

theorem findInst_withInsts (s : State) (l : List Inst) (coll : Nat) (step : BitVec 32) :
    findInst (withInsts s l) coll step = l.find? fun i => decide (i.coll = coll ∧ i.step = step) := rfl

theorem findInst_none {s : State} {coll : Nat} {step : BitVec 32} (h : findInst s coll step = none) {i : Inst} (hi : i ∈ s.clc.insts) : ¬(i.coll = coll ∧ i.step = step) :=
  of_decide_eq_false (Bool.eq_false_iff.2 (List.find?_eq_none.1 h i hi))

theorem findInst_putInst (s : State) (x : Inst) : findInst (putInst s x) x.coll x.step = some x := by
  cases h : findInst s x.coll x.step with
  | none =>
    rw [putInst_absent h, findInst_withInsts, List.find?_append, show s.clc.insts.find? _ = none from h]
    simp
  | some y =>
    have same : ((fun i : Inst => decide (i.coll = x.coll ∧ i.step = x.step)) ∘ x.standIn) = fun i => decide (i.coll = x.coll ∧ i.step = x.step) := by
      funext i
      rw [Function.comp_apply, (x.standIn_place i).1, (x.standIn_place i).2]
    rw [putInst_found (by rw [h]; rfl), findInst_withInsts, List.find?_map, same, show s.clc.insts.find? _ = some y from h, Option.map_some, Inst.standIn_same (findInst_place h)]

/-- The second of two writes to one place stands alone. -/
theorem putInst_putInst (s : State) {x y : Inst} (hc : y.coll = x.coll) (hs : y.step = x.step) : putInst (putInst s x) y = putInst s y := by
  rw [putInst_found (s := putInst s x) (by rw [hc, hs, findInst_putInst]; rfl)]
  cases h : findInst s x.coll x.step with
  | none =>
    have kept : s.clc.insts.map y.standIn = s.clc.insts.map id :=
      List.map_congr_left fun i hi => Inst.standIn_other (by rw [hc, hs]; exact findInst_none h hi)
    rw [putInst_absent (x := y) (by rw [hc, hs]; exact h), putInst_absent h]
    refine congrArg (withInsts s) ?_
    show (s.clc.insts ++ [x]).map y.standIn = _
    rw [List.map_append, kept, List.map_id, List.map_singleton, Inst.standIn_same ⟨hc.symm, hs.symm⟩]
  | some z =>
    rw [putInst_found (x := y) (by rw [hc, hs, h]; rfl), putInst_found (x := x) (by rw [h]; rfl)]
    refine congrArg (withInsts s) ?_
    show (s.clc.insts.map x.standIn).map y.standIn = _
    rw [List.map_map]
    exact List.map_congr_left fun i _ => Inst.standIn_standIn hc hs i

theorem putInst_frame (s : State) (x : Inst) : ∃ l, putInst s x = withInsts s l := by
  cases h : findInst s x.coll x.step with
  | none => exact ⟨_, putInst_absent h⟩
  | some _ => exact ⟨_, putInst_found (by rw [h]; rfl)⟩

theorem putInst_stn (s : State) (x : Inst) : (putInst s x).stn = s.stn := by
  obtain ⟨l, frame⟩ := putInst_frame s x
  rw [frame]
  rfl

theorem putInst_se (s : State) (x : Inst) : (putInst s x).se = s.se := by
  obtain ⟨l, frame⟩ := putInst_frame s x
  rw [frame]
  rfl

theorem mem_putInst {s : State} {x i : Inst} (h : i ∈ (putInst s x).clc.insts) : i = x ∨ i ∈ s.clc.insts := by
  cases hf : findInst s x.coll x.step with
  | none =>
    rw [putInst_absent hf] at h
    rcases List.mem_append.1 h with h | h
    · exact .inr h
    · exact .inl (List.mem_singleton.1 h)
  | some _ =>
    rw [putInst_found (by rw [hf]; rfl)] at h
    obtain ⟨j, hj, rfl⟩ := List.mem_map.1 h
    by_cases here : j.coll = x.coll ∧ j.step = x.step
    · exact .inl (Inst.standIn_same here)
    · exact .inr (by rw [Inst.standIn_other here]; exact hj)

/-! ## The completion record, R249 -/

/-- STALENESS of the collective that an `Inst` names, 0 for one that CURRENT does not have. -/
def staleness (s : State) (x : Inst) : Nat := match curDesc s x.coll with | some c => c.d | none => 0

/-- A decision with what this device knows of members that took part under R178. -/
def withBreak (s : State) (x : Inst) (d : Decision) : Decision := { d with repro := d.repro || breakSeen s x }

/-- CLC_ERR once an outcome is recorded. -/
def notedErr (e : BitVec 32) (d : Decision) : BitVec 32 :=
  let e := if d.abort then setErr e 4 else e
  let e := if d.repro then setErr e 3 else e
  if d.nf.isSome then setErr e 2 else e

/-- The completion record of an outcome is written and counted, and the catch-up units held for it end. -/
def noted (s : State) (x : Inst) (d : Decision) : State :=
  { s with clc := { s.clc with
    recs := Mem.write s.clc.recs (32 * (s.clc.recCount.toNat % 256)) (recordBytes s x d (extOf s (x.step + BitVec.ofNat 32 (staleness s x)))), recCount := s.clc.recCount + 1, err := notedErr s.clc.err d,
    sealCount := (if d.abort then s.clc.sealCount else bump s.clc.sealCount 1), abortCount := (if d.abort then bump s.clc.abortCount 1 else s.clc.abortCount),
    catchup := s.clc.catchup.filter fun u => !(decide (u.coll = x.coll) && decide (u.step = x.step)) } }

/-- The device once an outcome is recorded, before what an ABORT does. -/
def recorded (s : State) (x : Inst) (d : Decision) : State :=
  putInst (noted s x (withBreak s x d)) { x with recorded := true, decision := some (withBreak s x d) }

theorem recordBytes_length (s : State) (x : Inst) (d : Decision) (ext : BitVec 32) : (recordBytes s x d ext).length = 32 := by
  simp [recordBytes]

theorem recordOutcome_recorded {s : State} {x : Inst} (h : x.recorded = true) (d : Decision) : recordOutcome s x d = s := if_pos h

/-- What a recorded outcome changes in CLC, and that it changes nothing else. -/
theorem recorded_frame (s : State) (x : Inst) (d : Decision) : ∃ l, recorded s x d = withInsts (noted s x (withBreak s x d)) l := putInst_frame ..

theorem findInst_recorded (s : State) (x : Inst) (d : Decision) :
    findInst (recorded s x d) x.coll x.step = some { x with recorded := true, decision := some (withBreak s x d) } := findInst_putInst _ { x with recorded := true, decision := some (withBreak s x d) }

theorem recorded_recs (s : State) (x : Inst) (d : Decision) (a : Nat) : Mem.get (recorded s x d).clc.recs a
    = if 32 * (s.clc.recCount.toNat % 256) ≤ a ∧ a < 32 * (s.clc.recCount.toNat % 256) + 32
      then (recordBytes s x (withBreak s x d) (extOf s (x.step + BitVec.ofNat 32 (staleness s x)))).getD (a - 32 * (s.clc.recCount.toNat % 256)) 0 else Mem.get s.clc.recs a := by
  obtain ⟨l, frame⟩ := recorded_frame s x d
  rw [frame]
  refine (Mem.get_write ..).trans ?_
  rw [recordBytes_length]

/-- The first byte of a record names the collective. -/
theorem recorded_recs_coll (s : State) (x : Inst) (d : Decision) : Mem.get (recorded s x d).clc.recs (32 * (s.clc.recCount.toNat % 256)) = BitVec.ofNat 8 x.coll := by
  rw [recorded_recs, if_pos ⟨Nat.le_refl _, by omega⟩, Nat.sub_self]
  rfl

/-- The second byte of a record is its outcome. -/
theorem recorded_recs_outcome (s : State) (x : Inst) (d : Decision) : Mem.get (recorded s x d).clc.recs (32 * (s.clc.recCount.toNat % 256) + 1) = if d.abort then 2 else 1 := by
  rw [recorded_recs, if_pos ⟨Nat.le_add_right .., by omega⟩, Nat.add_sub_cancel_left]
  rfl

theorem recorded_recs_other (s : State) (x : Inst) (d : Decision) {a : Nat} (h : a < 32 * (s.clc.recCount.toNat % 256) ∨ 32 * (s.clc.recCount.toNat % 256) + 32 ≤ a) :
    Mem.get (recorded s x d).clc.recs a = Mem.get s.clc.recs a := by
  rw [recorded_recs, if_neg (by omega)]

theorem recorded_only_clc (s : State) (x : Inst) (d : Decision) : { recorded s x d with clc := s.clc } = s := by
  obtain ⟨l, frame⟩ := recorded_frame s x d
  rw [frame]
  rfl

theorem recorded_stn (s : State) (x : Inst) (d : Decision) : (recorded s x d).stn = s.stn := by
  obtain ⟨l, frame⟩ := recorded_frame s x d
  rw [frame]
  rfl

theorem recorded_se (s : State) (x : Inst) (d : Decision) : (recorded s x d).se = s.se := by
  obtain ⟨l, frame⟩ := recorded_frame s x d
  rw [frame]
  rfl

theorem recorded_hbm (s : State) (x : Inst) (d : Decision) : (recorded s x d).hbm = s.hbm := by
  obtain ⟨l, frame⟩ := recorded_frame s x d
  rw [frame]
  rfl

theorem recorded_counts (s : State) (x : Inst) (d : Decision) :
    (recorded s x d).clc.recCount = s.clc.recCount + 1 ∧ (recorded s x d).clc.sealCount = (if d.abort then s.clc.sealCount else bump s.clc.sealCount 1)
      ∧ (recorded s x d).clc.abortCount = (if d.abort then bump s.clc.abortCount 1 else s.clc.abortCount) ∧ (recorded s x d).clc.abortInst = s.clc.abortInst := by
  obtain ⟨l, frame⟩ := recorded_frame s x d
  rw [frame]
  exact ⟨rfl, rfl, rfl, rfl⟩

section
variable {s : State} {x : Inst} {d : Decision}

/-- What an outcome does once it is recorded: an ABORT ends the wait for a result, and halts. -/
theorem recordOutcome_new (h : x.recorded = false) :
    let u := recorded s x d
    let v := if d.abort ∧ u.clc.abortInst = some (x.coll, x.step) then abortResult u 1 else u
    recordOutcome s x d = if d.abort then haltNow v 1 else v := if_neg (by rw [h]; exact Bool.false_ne_true)

/-- A SEAL is recorded, and does no more. -/
theorem recordOutcome_seal (h : x.recorded = false) (hd : d.abort = false) : recordOutcome s x d = recorded s x d := by
  rw [recordOutcome_new h, hd, if_neg Bool.false_ne_true, if_neg (fun both => Bool.false_ne_true both.1)]

/-- An ABORT is recorded where this device asked for none itself, and the plan halts at once. -/
theorem recordOutcome_abort (h : x.recorded = false) (hd : d.abort = true) (hn : s.clc.abortInst = none) : recordOutcome s x d = haltNow (recorded s x d) 1 := by
  have unasked : (recorded s x d).clc.abortInst = none := (recorded_counts s x d).2.2.2.trans hn
  rw [recordOutcome_new h, hd, if_pos rfl, unasked, if_neg (fun both => nomatch both.2)]

end

/-! ## The halt on an ABORT, R193 and R226 -/

theorem releaseNextRegions_lathOnly (s : State) (p : Plan) : LathOnly s (releaseNextRegions s p) :=
  .foldl (fun s (r : Region) => releaseOwner_lathOnly s (regionOwner r.name) none) _ s

theorem freeHandles_lathOnly (s : State) (hs : List Nat) : LathOnly s (freeHandles s hs) :=
  .foldl (fun s (a : Byte × Nat) => releaseOwner_lathOnly s (areaOwner a.1 a.2) (some hs)) _ s

/-- What the discarding of NEXT leaves of Stencil, of CLC and of the pairing. -/
theorem dropNext_frame (s : State) (mark : Bool) :
    ∃ h e k, (dropNext s mark).stn = { s.stn with next := none, held := h, err := e } ∧ (dropNext s mark).clc = { s.clc with early := k } ∧ (dropNext s mark).se = s.se := by
  cases hn : s.stn.next with
  | none => exact ⟨s.stn.held, s.stn.err, s.clc.early, by rw [dropNext_none hn, ← hn], by rw [dropNext_none hn], by rw [dropNext_none hn]⟩
  | some p =>
    have dropped : dropNext s mark = trimAreas (withoutNext (idleEngines (nextReleased s p) p (curEngines (nextReleased s p))) mark) := by
      unfold dropNext withoutNext idleEngines curEngines nextReleased
      cases hc : (freeHandles (releaseNextRegions s p) p.areas).stn.cur with
      | none => simp only [hn, hc]
      | some q => simp only [hn, hc]
    obtain ⟨l, w, o, h, released⟩ : LathOnly s (nextReleased s p) := (releaseNextRegions_lathOnly s p).trans (freeHandles_lathOnly _ p.areas)
    obtain ⟨x, y, idle⟩ := idleEngines_enginesOnly (nextReleased s p) p (curEngines (nextReleased s p))
    obtain ⟨l', w', o', h', trimmed⟩ := trimAreas_lathOnly (withoutNext (idleEngines (nextReleased s p) p (curEngines (nextReleased s p))) mark)
    rw [dropped, trimmed, idle, released]
    exact ⟨_, _, _, rfl, rfl, rfl⟩

/-- What a halt leaves of CLC and of the pairing. -/
theorem toHalted_frame {s : State} {p : Plan} (h : s.stn.cur = some p) (cause : BitVec 4) (step : BitVec 32) :
    ∃ a, (toHalted s cause step).clc = { s.clc with applied := a } ∧ (toHalted s cause step).se = s.se := by
  obtain ⟨x, y, halted⟩ := haltEngines_enginesOnly s p
  rw [toHalted_cur h, halted]
  unfold extKept
  split
  · exact ⟨_, rfl, rfl⟩
  · exact ⟨s.clc.applied, rfl, rfl⟩

/-- A running plan that halts at once, and what stays as it is. -/
theorem haltNow_running {s : State} {p : Plan} (running : s.stn.place = .running) (h : s.stn.cur = some p) (cause : BitVec 4) :
    let t := haltNow s cause
    (t.stn.place = .halted ∧ t.stn.haltCause = cause ∧ t.stn.next = none) ∧ t.stn.cur = s.stn.cur ∧ t.se = s.se ∧ ∃ a k, t.clc = { s.clc with applied := a, early := k } := by
  have now : haltNow s cause = dropNext (toHalted s cause (uncompletedStep s)) true := if_pos running
  have stn := toHalted_stn h cause (uncompletedStep s)
  obtain ⟨a, clc, se⟩ := toHalted_frame h cause (uncompletedStep s)
  obtain ⟨_, _, k, stn', clc', se'⟩ := dropNext_frame (toHalted s cause (uncompletedStep s)) true
  simp only [now]
  rw [stn', clc', se', stn, clc, se]
  exact ⟨⟨rfl, rfl, rfl⟩, rfl, rfl, a, k, rfl⟩

/-! ## What a member does on a message -/

/-- A handler that sends nothing leaves the state that it makes. -/
theorem next_quiet {r : State × Sends} {t : State} (h : r = (t, [])) : (.next (clcOut r) : Host.Outcome State Fault Refusal) = .next t := by
  rw [h, clcOut_nil]

section
variable {s : State} {m : ClcMsg} {c : Desc}

theorem onNotify_member (h : curDesc s m.coll.toNat = some c) : onNotify s m = (recordOutcome s (getInst s m.coll.toNat m.step) (decisionOf m), []) := by
  unfold onNotify
  rw [h]

/-- An EXT as a site head passes it on. -/
def extSends (s : State) (c : Desc) (m : ClcMsg) : Sends := ((c.siteMembers (myRank s)).filter fun r => r ≠ myRank s).map fun r => (r, m)

/-- CLC keeps the value of an EXT. -/
def extHeld (s : State) (m : ClcMsg) : State := { s with clc := { s.clc with exts := setStepVal s.clc.exts m.step m.value } }

/-- CLC_ERR shows that an extension was handed over. -/
def extNoted (s : State) : State := { s with clc := { s.clc with err := setErr s.clc.err 5 } }

theorem onExt_member (h : curDesc s m.coll.toNat = some c) :
    onExt s m = (extNoted (applyExt (extHeld s m) m.step m.value).2, if isHead s then extSends s c m else []) := by
  unfold onExt
  rw [h]
  rfl

theorem applyExt_ignored {step v : BitVec 32} (h : s.stn.place ≠ .running ∨ s.stn.step ≠ step ∨ s.stn.deadlineDone = true) : applyExt s step v = (false, s) := by
  have idle : ¬(s.stn.place = .running ∧ s.stn.step = step ∧ (s.stn.stepRunning ∨ s.stn.inSeam) ∧ !s.stn.deadlineDone) := by
    rintro ⟨running, same, _, inTime⟩
    rcases h with h | h | h
    · exact h running
    · exact h same
    · simp [h] at inTime
  unfold applyExt
  split
  · rfl
  · exact if_neg idle

theorem applyExt_running {p : Plan} {step v : BitVec 32} (h : s.stn.cur = some p) (running : s.stn.place = .running) (same : s.stn.step = step)
    (going : s.stn.stepRunning = true) (seam : s.stn.inSeam = false) (inTime : s.stn.deadlineDone = false) :
    applyExt s step v = (true, armTrig { s with stn := { s.stn with ext := v } } 2 (s.stn.stepStart + BitVec.ofNat 48 (p.deadlineNs + v.toNat))) := by
  have applies : s.stn.place = .running ∧ s.stn.step = step ∧ (s.stn.stepRunning ∨ s.stn.inSeam) ∧ !s.stn.deadlineDone := ⟨running, same, .inl going, by rw [inTime]; rfl⟩
  unfold applyExt
  rw [h]
  refine (if_pos applies).trans (congrArg (Prod.mk true) (if_neg ?_))
  rw [armTrig_stn, show (State.stn { s with stn := { s.stn with ext := v } }).inSeam = false from seam]
  exact Bool.false_ne_true

theorem onAbortReply_mine (mine : m.subj.toNat = myRank s) (h : s.clc.abortInst = some (m.coll.toNat, m.step)) :
    onAbortReply s m = (abortResult s (if m.outcome = 2 then 1 else 2), []) := by
  unfold onAbortReply
  rw [if_pos mine, if_pos h]

theorem onAbortReply_stale (mine : m.subj.toNat = myRank s) (h : s.clc.abortInst ≠ some (m.coll.toNat, m.step)) : onAbortReply s m = (s, []) := by
  unfold onAbortReply
  rw [if_pos mine, if_neg h]

/-- No COLL_ABORT waits for the result. -/
theorem abortResult_unawaited (h : s.clc.abortMbox = none) (code : Byte) :
    abortResult s code = { s with clc := { s.clc with abortResult := code, abortInst := none } } := by
  unfold abortResult
  simp only [h]

theorem onRebuildReq_running (h : curDesc s m.coll.toNat = some c) (going : s.stn.place ≠ .halted) (bound : s.clc.spareNew = false) : onRebuildReq s m = (s, []) := by
  unfold onRebuildReq
  rw [h]
  simp only [going, bound, ne_eq, not_false_eq_true, if_true, Bool.false_and, Bool.false_eq_true, if_false]

/-- The catch-up area of a twin, as it goes to the spare: the units of the collective, and the mark of their end. -/
def catchupSends (s : State) (m : ClcMsg) : List Out :=
  ((s.clc.catchup.filter fun x => decide (x.coll = m.coll.toNat)).map fun x => Out.catchup (BitVec.ofNat 15 m.src.toNat) x.source x.bytes) ++ [Out.catchup (BitVec.ofNat 15 m.src.toNat) 16 []]

theorem onRebuildReq_twin (h : curDesc s m.coll.toNat = some c) (halted : s.stn.place = .halted) (plain : c.mirror = false) (stale : 0 < c.d)
    (twin : twinOf c m.src.toNat = some (myRank s)) : onRebuildReq s m = ({ s with out := s.out ++ catchupSends s m }, []) := by
  unfold onRebuildReq catchupSends
  rw [h]
  simp only [halted, plain, stale, twin, ne_eq, not_true_eq_false, if_false, Bool.and_false, Bool.false_eq_true, decide_true, Bool.and_self, if_true, List.append_assoc]

theorem onRebuilt_notRoot (h : isRoot s = false) : onRebuilt s m = (s, []) := by
  unfold onRebuilt
  rw [h]
  rfl

theorem onSiteJoin_notRoot (hc : curDesc s m.coll.toNat = some c) (h : isRoot s = false) : onSiteJoin s m = (s, []) := by
  unfold onSiteJoin
  simp only [hc, h, Bool.not_false, if_true]

theorem onSiteReady_notRoot (hc : curDesc s m.coll.toNat = some c) (h : isRoot s = false) : onSiteReady s m = (s, []) := by
  unfold onSiteReady
  simp only [hc, h, Bool.not_false, if_true]

end

/-! ## The messages of a site head to its site -/

theorem siteMembers_length (c : Desc) (head : Nat) : (c.siteMembers head).length = c.m4 * c.m5 := by
  unfold Desc.siteMembers
  simp only [List.length_flatMap, List.length_map, List.length_range]
  rw [List.map_const', List.sum_replicate_nat, List.length_range, Nat.mul_comm]

/-- One message for each member of the site but this one: none is for this device, and they are no more than the site. -/
theorem toSite_forOthers (s : State) (c : Desc) (g : Nat → ClcMsg) : ForOthers s (((c.siteMembers (myRank s)).filter fun r => r ≠ myRank s).map fun r => (r, g r)) := by
  intro q hq
  obtain ⟨r, hr, rfl⟩ := List.mem_map.1 hq
  exact of_decide_eq_true (List.mem_filter.1 hr).2

theorem toSite_length (s : State) (c : Desc) (g : Nat → ClcMsg) : (((c.siteMembers (myRank s)).filter fun r => r ≠ myRank s).map fun r => (r, g r)).length ≤ c.m4 * c.m5 := by
  rw [List.length_map, ← siteMembers_length c (myRank s)]
  exact List.length_filter_le ..

/-! ## The statement -/

/-- Settles O32: the three ways that an outcome is recorded, and what each message for a member does. -/
theorem clcOutcome : Obligations.ClcOutcome := by
  unfold Obligations.ClcOutcome
  intro s x d
  refine ⟨fun once => recordOutcome_recorded once d, fun new isSeal => ?sealed, fun new abort running cur unasked => ?abort, fun m p c h cur desc => ?messages⟩
  case sealed =>
    intro t
    obtain ⟨recs, seals, aborts, _⟩ := recorded_counts s x d
    rw [show t = recorded s x d from recordOutcome_seal new isSeal]
    rw [isSeal] at seals aborts
    exact ⟨recs, seals, aborts, fun a => recorded_recs_other s x d, recorded_recs_coll s x d, (recorded_recs_outcome s x d).trans (by rw [isSeal]; rfl), recorded_only_clc s x d⟩
  case abort =>
    intro t
    obtain ⟨recs, seals, aborts, _⟩ := recorded_counts s x d
    obtain ⟨p, cur⟩ := Option.isSome_iff_exists.1 cur
    have outcome := recorded_recs_outcome s x d
    rw [abort] at seals aborts outcome
    obtain ⟨⟨place, cause, next⟩, _, _, a, k, clc⟩ := haltNow_running (s := recorded s x d) (by rw [recorded_stn]; exact running) (by rw [recorded_stn]; exact cur) 1
    rw [show t = haltNow (recorded s x d) 1 from recordOutcome_abort new abort unasked, clc]
    exact ⟨recs, aborts, seals, outcome, place, cause, next⟩
  case messages =>
    intro u v
    have desc : curDesc u m.coll.toNat = some c := desc
    have ignored (late : s.stn.place ≠ .running ∨ s.stn.step ≠ m.step ∨ s.stn.deadlineDone = true) : extNoted (applyExt (extHeld u m) m.step m.value).2 = v := by
      rw [applyExt_ignored (s := extHeld u m) late]
      rfl
    refine ⟨fun ht => (exec_notify h ht).trans (next_quiet (onNotify_member desc)), fun ht member running step going seam inTime => (exec_ext h ht).trans (next_quiet ?extApplies),
      fun ht member late => (exec_ext h ht).trans (next_quiet ?extLate), fun ht head few late => (exec_ext h ht).trans (congrArg Host.Outcome.next ?extHead),
      fun ht mine inst unawaited => (exec_abortReply h ht).trans (next_quiet ?reply), fun ht mine other => (exec_abortReply h ht).trans (next_quiet (onAbortReply_stale mine other)),
      fun ht going bound => (exec_rebuildReq h ht).trans (next_quiet (onRebuildReq_running desc going bound)),
      fun ht halted plain stale twin => (exec_rebuildReq h ht).trans (next_quiet ?twin), fun ht member => (exec_rebuilt h ht).trans (next_quiet (onRebuilt_notRoot member)),
      fun ht member => (exec_siteJoin h ht).trans (next_quiet (onSiteJoin_notRoot desc member)), fun ht member => (exec_siteReady h ht).trans (next_quiet (onSiteReady_notRoot desc member))⟩
    case extApplies =>
      rw [onExt_member desc, show isHead u = false from member, applyExt_running (s := extHeld u m) cur running step going seam inTime]
      rfl
    case extLate =>
      rw [onExt_member desc, show isHead u = false from member, ignored late]
      rfl
    case extHead =>
      rw [onExt_member desc, show isHead u = true from head, ignored late]
      exact clcOut_others h.paired (toSite_forOthers v c fun _ => m) (Nat.le_trans (toSite_length v c fun _ => m) (by omega))
    case reply =>
      rw [onAbortReply_mine (s := heard s m) mine inst, abortResult_unawaited (s := heard s m) unawaited]
    case twin =>
      rw [onRebuildReq_twin (s := heard s m) desc halted plain stale twin, catchupSends, ← List.append_assoc]
      rfl

end Sys2Proof.Machine

/-! What a site head does on the messages of its site and on the RING (R219 to R226). -/

namespace Sys2Proof.Machine

/-! ## A head that is not the root -/

theorem isRoot_eq_false {s : State} (h : myRank s ≠ 0) : isRoot s = false := decide_eq_false h

theorem upRank_head {s : State} (h : isHead s = true) : upRank s = 0 := if_pos h

theorem baseMsg_withInsts (s : State) (l : List Inst) : baseMsg (withInsts s l) = baseMsg s := rfl

theorem baseMsg_putInst (s : State) (x : Inst) : baseMsg (putInst s x) = baseMsg s := by
  obtain ⟨l, frame⟩ := putInst_frame s x
  rw [frame, baseMsg_withInsts]

/-! ## A JOIN, R219 to R221 -/

/-- A site head, or the root, has noted a JOIN. -/
def joinNoted (s : State) (m : ClcMsg) : State := { s with clc := { s.clc with joins := joinsWith s m, breaks := breaksWith s m } }

/-- A JOIN whose signature is neither the plan's nor excused by R178. -/
def badSignature (p : Plan) (m : ClcMsg) : Bool := decide (m.asig ≠ p.asig) && !flagRepro m

/-- What a site head asks the root for on a JOIN that differs. -/
def joinRequests (s : State) (c : Desc) (p : Plan) (m : ClcMsg) : Sends :=
  (if decide (m.digest ≠ c.digest) then abortReq s m.coll.toNat m.step ceDescMismatch (some m.src) none else [])
    ++ (if badSignature p m then abortReq s m.coll.toNat m.step ceSignatureMismatch (some m.src) none else [])

/-- The lowest rank of a list of JOINs. -/
def lowestJoin (l : List (Nat × BitVec 16 × BitVec 64)) : Option (BitVec 16) :=
  l.foldl (fun b j => match b with
    | none => some j.2.1
    | some q => if j.2.1.toNat < q.toNat then some j.2.1 else some q) none

/-- The SITE_JOIN of a site whose JOINs are these. -/
def siteJoinMsg (s : State) (c : Desc) (m : ClcMsg) (js : List (Nat × BitVec 16 × BitVec 64)) : ClcMsg :=
  let low := lowestJoin ((js.filter fun j => decide (j.1 = m.coll.toNat)).filter fun j => j.2.2 ≠ c.digest)
  sealMsg (withFlag (withSubj (baseMsg s tySiteJoin m.coll.toNat m.step) low) 1 (knowsBreak s m.coll.toNat))

section
variable {s : State} {m : ClcMsg} {c : Desc} {p : Plan} (desc : curDesc s m.coll.toNat = some c) (cur : s.stn.cur = some p)
  (head : isHead s = true) (site : siteHead m.src.toNat = myRank s)
include desc cur head site

/-- A JOIN of the site at its head: it is noted and judged, and it may complete the site. -/
theorem onJoin_head :
    let v := if decide (m.digest ≠ c.digest) || badSignature p m then markMismatch (joinNoted s m) else joinNoted s m
    onJoin s m = if allJoined s c m && !v.clc.siteJoinSent.contains m.coll.toNat
      then ({ v with clc := { v.clc with siteJoinSent := v.clc.siteJoinSent ++ [m.coll.toNat] } }, joinRequests v c p m ++ [(0, siteJoinMsg v c m (joinsWith s m))])
      else (v, joinRequests v c p m) := by
  intro v
  have mine : ¬(!isHead s || decide (siteHead m.src.toNat ≠ myRank s)) = true := by simp [head, site]
  unfold onJoin
  simp only [desc, cur]
  rw [if_neg mine]
  have rank : myRank v = myRank s := by
    simp only [v]
    split <;> rfl
  have members : allJoined s c m = (c.siteMembers (myRank v)).all fun r => ((joinsWith s m).filter fun j => decide (j.1 = m.coll.toNat)).any fun j => decide (j.2.1.toNat = r) := by
    rw [rank]
    rfl
  rw [members]
  rfl

end

section
variable {s : State} {m : ClcMsg} {c : Desc} {p : Plan}

/-- The signature of a JOIN is the plan's, or excused by R178. -/
def SignatureOk (p : Plan) (m : ClcMsg) : Prop := m.asig = p.asig ∨ flagRepro m = true

theorem badSignature_eq_false (h : SignatureOk p m) : badSignature p m = false := by
  unfold badSignature
  rcases h with h | h <;> simp [h]

theorem badSignature_eq_true (h : ¬SignatureOk p m) : badSignature p m = true := by
  obtain ⟨differs, unexcused⟩ := not_or.1 h
  unfold badSignature
  simp [differs, unexcused]

theorem joinRequests_sound (digest : m.digest = c.digest) (sig : badSignature p m = false) : joinRequests s c p m = [] := by
  simp [joinRequests, digest, sig]

theorem joinRequests_digest (digest : m.digest ≠ c.digest) (sig : badSignature p m = false) :
    joinRequests s c p m = abortReq s m.coll.toNat m.step ceDescMismatch (some m.src) none := by
  simp [joinRequests, digest, sig]

theorem joinRequests_signature (digest : m.digest = c.digest) (sig : badSignature p m = true) :
    joinRequests s c p m = abortReq s m.coll.toNat m.step ceSignatureMismatch (some m.src) none := by
  simp [joinRequests, digest, sig]

/-- The digest of a JOIN is among those of its site. -/
theorem digest_of_joinsWith (h : ∀ j ∈ joinsWith s m, j.1 = m.coll.toNat → j.2.2 = c.digest) : m.digest = c.digest :=
  h (m.coll.toNat, m.src, m.digest) (List.mem_append_right _ (List.mem_singleton.2 rfl)) rfl

/-- A SITE_JOIN names no rank where every digest of the site is the plan's. -/
theorem siteJoinMsg_matching {js : List (Nat × BitVec 16 × BitVec 64)} (h : ∀ j ∈ js, j.1 = m.coll.toNat → j.2.2 = c.digest) :
    siteJoinMsg s c m js = sealMsg (withFlag (baseMsg s tySiteJoin m.coll.toNat m.step) 1 (knowsBreak s m.coll.toNat)) := by
  have none_differs : ((js.filter fun j => decide (j.1 = m.coll.toNat)).filter fun j => j.2.2 ≠ c.digest) = [] := by
    refine List.filter_eq_nil_iff.2 fun j hj differs => ?_
    obtain ⟨hj, coll⟩ := List.mem_filter.1 hj
    exact of_decide_eq_true differs (h j hj (of_decide_eq_true coll))
  unfold siteJoinMsg
  rw [none_differs]
  rfl

end

section
variable {s : State} {m : ClcMsg} {c : Desc} {p : Plan} (desc : curDesc s m.coll.toNat = some c) (cur : s.stn.cur = some p)
  (head : isHead s = true) (site : siteHead m.src.toNat = myRank s)
include desc cur head site

/-- The JOIN that completes a site of one digest has the root told. -/
theorem onJoin_completes (sig : SignatureOk p m) (complete : allJoined s c m = true) (first : s.clc.siteJoinSent.contains m.coll.toNat = false)
    (matching : ∀ j ∈ joinsWith s m, j.1 = m.coll.toNat → j.2.2 = c.digest) :
    onJoin s m = ({ joinNoted s m with clc := { (joinNoted s m).clc with siteJoinSent := s.clc.siteJoinSent ++ [m.coll.toNat] } },
      [(0, sealMsg (withFlag (baseMsg s tySiteJoin m.coll.toNat m.step) 1 (knowsBreak (joinNoted s m) m.coll.toNat)))]) := by
  have unsent : (joinNoted s m).clc.siteJoinSent.contains m.coll.toNat = false := first
  have digest : decide (m.digest ≠ c.digest) = false := decide_eq_false (not_not_intro (digest_of_joinsWith matching))
  rw [onJoin_head desc cur head site, digest, badSignature_eq_false sig, Bool.or_self, if_neg Bool.false_ne_true, complete, unsent,
    joinRequests_sound (digest_of_joinsWith matching) (badSignature_eq_false sig), siteJoinMsg_matching matching]
  rfl

variable (waits : allJoined s c m = false)
include waits

/-- A JOIN that leaves its site incomplete is kept, and what differs of it is asked about. -/
theorem onJoin_waits : onJoin s m
    = (if decide (m.digest ≠ c.digest) || badSignature p m then markMismatch (joinNoted s m) else joinNoted s m, joinRequests (joinNoted s m) c p m) := by
  rw [onJoin_head desc cur head site, waits, Bool.false_and, if_neg Bool.false_ne_true]
  split <;> rfl

theorem onJoin_sound (digest : m.digest = c.digest) (sig : SignatureOk p m) : onJoin s m = (joinNoted s m, []) := by
  rw [onJoin_waits desc cur head site waits, joinRequests_sound digest (badSignature_eq_false sig), badSignature_eq_false sig, Bool.or_false, decide_eq_false (not_not_intro digest)]
  rfl

theorem onJoin_digest (digest : m.digest ≠ c.digest) (sig : SignatureOk p m) :
    onJoin s m = (markMismatch (joinNoted s m), abortReq (joinNoted s m) m.coll.toNat m.step ceDescMismatch (some m.src) none) := by
  rw [onJoin_waits desc cur head site waits, joinRequests_digest digest (badSignature_eq_false sig), decide_eq_true digest]
  rfl

theorem onJoin_signature (digest : m.digest = c.digest) (sig : ¬SignatureOk p m) :
    onJoin s m = (markMismatch (joinNoted s m), abortReq (joinNoted s m) m.coll.toNat m.step ceSignatureMismatch (some m.src) none) := by
  rw [onJoin_waits desc cur head site waits, joinRequests_signature digest (badSignature_eq_true sig), badSignature_eq_true sig, Bool.or_true]
  rfl

end

/-! ## A READY, R222 -/

theorem lowestNf_eq_none {l : List (BitVec 16 × ClcMsg)} (h : ∀ q ∈ l, flagNf q.2 = false) : lowestNf l = none := by
  unfold lowestNf
  refine List.foldlRecOn (motive := fun b => b = none) l _ rfl fun b hb q hq => ?_
  rw [h q hq, if_neg Bool.false_ne_true]
  exact hb

/-- The lowest rank of a list of messages. -/
def lowestSender (l : List ClcMsg) : Option (BitVec 16) :=
  l.foldl (fun b j => match b with
    | none => some j.src
    | some q => if j.src.toNat < q.toNat then some j.src else some q) none

/-- The SITE_READY of a site whose READYs are these, for a step whose extension is `want`. -/
def siteReadyMsg (s : State) (m : ClcMsg) (want : BitVec 32) (l : List ClcMsg) : ClcMsg :=
  let nf := lowestNf (l.map fun j => (j.src, j))
  sealMsg (withFlag (withNf (withSubj { baseMsg s tySiteReady m.coll.toNat m.step with value := want } (nf.map (·.2))) (nf.map (·.1))) 1 (l.any flagRepro))

/-- A site's READYs that neither report a non-finite value nor a break make a plain SITE_READY. -/
theorem siteReadyMsg_plain {s : State} {m : ClcMsg} {want : BitVec 32} {l : List ClcMsg} (h : ∀ j ∈ l, flagNf j = false ∧ flagRepro j = false) :
    siteReadyMsg s m want l = sealMsg (withFlag { baseMsg s tySiteReady m.coll.toNat m.step with value := want } 1 false) := by
  have finite : lowestNf (l.map fun j => (j.src, j)) = none := by
    refine lowestNf_eq_none fun q hq => ?_
    obtain ⟨j, hj, rfl⟩ := List.mem_map.1 hq
    exact (h j hj).1
  have unbroken : l.any flagRepro = false := List.any_eq_false.2 fun j hj => by simp [(h j hj).2]
  unfold siteReadyMsg
  rw [finite, unbroken]
  rfl

section
variable {s : State} {m : ClcMsg} {c : Desc} (desc : curDesc s m.coll.toNat = some c) (head : isHead s = true) (site : siteHead m.src.toNat = myRank s)
include desc head site

/-- A READY of the site at its head: it is kept, and the one that completes the site has the root told, or asked where an extension differs. -/
theorem onReady_head :
    let want := stepVal s.clc.exts (m.step + BitVec.ofNat 32 c.d)
    let t := putInst s { withReady s m with siteReadySent := true }
    onReady s m = if allReady s c m && !(instOf s m).siteReadySent
      then (t, match lowestSender ((withReady s m).readies.filter fun j => j.value ≠ want) with
        | some r => abortReq t m.coll.toNat m.step ceTimeout (some r) none
        | none => [(0, siteReadyMsg t m want (withReady s m).readies)])
      else (putInst s (withReady s m), []) := by
  intro want t
  have mine : ¬(!isHead s || decide (siteHead m.src.toNat ≠ myRank s)) = true := by simp [head, site]
  unfold onReady
  simp only [desc]
  rw [if_neg mine]
  refine ite_congr rfl (fun _ => ?_) fun _ => rfl
  show (match lowestSender ((withReady s m).readies.filter fun j => j.value ≠ want) with | some r => _ | none => _) = _
  cases lowestSender ((withReady s m).readies.filter fun j => j.value ≠ want) <;> rfl

theorem onReady_waits (waits : allReady s c m = false) : onReady s m = (putInst s (withReady s m), []) := by
  rw [onReady_head desc head site, waits]
  rfl

theorem onReady_completes (complete : allReady s c m = true) (first : (instOf s m).siteReadySent = false)
    (values : ∀ j ∈ (withReady s m).readies, j.value = stepVal s.clc.exts (m.step + BitVec.ofNat 32 c.d)) (plain : ∀ j ∈ (withReady s m).readies, flagNf j = false ∧ flagRepro j = false) :
    onReady s m = (putInst s { withReady s m with siteReadySent := true },
      [(0, sealMsg (withFlag { baseMsg s tySiteReady m.coll.toNat m.step with value := stepVal s.clc.exts (m.step + BitVec.ofNat 32 c.d) } 1 false))]) := by
  have none_differs : ((withReady s m).readies.filter fun j => j.value ≠ stepVal s.clc.exts (m.step + BitVec.ofNat 32 c.d)) = [] :=
    List.filter_eq_nil_iff.2 fun j hj differs => of_decide_eq_true differs (values j hj)
  rw [onReady_head desc head site, complete, first, none_differs, siteReadyMsg_plain plain, baseMsg_putInst]
  rfl

end

/-! ## What a site head passes on, R217, R223 to R225 and R230 -/

theorem nextHead_zero_or_gt (c : Desc) (after : Nat) (ring : ClcMsg) : nextHead c after ring = 0 ∨ after < nextHead c after ring := by
  unfold nextHead
  simp only []
  generalize skips : (c.heads.filter fun r => decide (after < r) && !(decide (ring.code = ceMemberLost) && flagSubj ring && decide (ring.subj.toNat = r))) = l
  cases l with
  | nil => exact .inl rfl
  | cons r rest =>
    have listed : r ∈ r :: rest := List.mem_cons_self
    rw [← skips] at listed
    obtain ⟨above, _⟩ := Bool.and_eq_true_iff.1 (List.mem_filter.1 listed).2
    exact .inr (of_decide_eq_true above)

theorem nextHead_ne {s : State} (h : myRank s ≠ 0) (c : Desc) (ring : ClcMsg) : nextHead c (myRank s) ring ≠ myRank s := by
  rcases nextHead_zero_or_gt c (myRank s) ring with none | above
  · rw [none]
    exact h.symm
  · exact Nat.ne_of_gt above

section
variable {s : State} {m : ClcMsg} {c : Desc} (head : isHead s = true)
include head

theorem onAbortReply_head (other : m.subj.toNat ≠ myRank s) : onAbortReply s m = (s, [(m.subj.toNat, m)]) := by
  unfold onAbortReply
  rw [if_neg other, head]
  rfl

variable (notRoot : isRoot s = false)
include notRoot

theorem onAbortReq_head : onAbortReq s m = (s, [(0, m)]) := by
  unfold onAbortReq
  rw [notRoot, head]
  rfl

theorem onLate_head : onLate s m = (s, [(0, m)]) := by
  unfold onLate
  rw [notRoot, head]
  rfl

theorem onRing_head (desc : curDesc s m.coll.toNat = some c) :
    onRing s m = (recordOutcome s (getInst s m.coll.toNat m.step) (decisionOf m),
      (if (getInst s m.coll.toNat m.step).recorded then [] else notifySite s c m) ++ [(nextHead c (myRank s) m, m)]) := by
  unfold onRing
  rw [desc]
  simp only [notRoot, head, Bool.false_eq_true, if_false, if_true]

end

/-- The request of a site head leaves for the root. -/
theorem clcOut_abortReq {s t : State} (paired : t.se.role ≠ 2) (rank : myRank t ≠ 0) (head : isHead s = true) (coll : Nat) (step : BitVec 32) (code : Byte)
    (subj : Option (BitVec 16)) (nf : Option (BitVec 48)) : clcOut (t, abortReq s coll step code subj nf) = sentTo t (abortReq s coll step code subj nf) := by
  unfold abortReq
  rw [upRank_head head]
  exact clcOut_single paired _ rank.symm

/-! ## The statement -/

/-- OUTCOME 1 of a RING is a SEAL, R224. -/
theorem decisionOf_seal {m : ClcMsg} (h : m.outcome = 1) : (decisionOf m).abort = false := by
  show decide (m.outcome = 2) = false
  rw [h]
  decide

/-- A SEAL that a RING brings to a site head for the first time: it is recorded, its site is told, and the RING goes on. -/
theorem exec_ring_seals {s : State} {m : ClcMsg} {c : Desc} (h : Heard s m) (ht : m.type = tyRing) (head : isHead s = true) (rank : myRank s ≠ 0)
    (desc : curDesc s m.coll.toNat = some c) (outcome : m.outcome = 1) (new : (instOf s m).recorded = false) (few : c.m4 * c.m5 < 99999) :
    exec (.ring m) s = .next (sentTo (recorded (heard s m) (instOf s m) (decisionOf m)) (notifySite s c m ++ [(nextHead c (myRank s) m, m)])) := by
  have isSeal := decisionOf_seal outcome
  have ranks : myRank (recorded (heard s m) (instOf s m) (decisionOf m)) = myRank s := myRank_of_stn (recorded_stn ..)
  have handled : onRing (heard s m) m = (recorded (heard s m) (instOf s m) (decisionOf m), notifySite s c m ++ [(nextHead c (myRank s) m, m)]) := by
    rw [onRing_head (s := heard s m) head (isRoot_eq_false rank) desc, ← recordOutcome_seal new isSeal, show (getInst (heard s m) m.coll.toNat m.step).recorded = false from new]
    rfl
  rw [exec_ring h ht, handled]
  refine congrArg Host.Outcome.next (clcOut_others ?_ (fun q hq => ?_) ?_)
  · rw [recorded_se]
    exact h.paired
  · rw [ranks]
    rcases List.mem_append.1 hq with hq | hq
    · exact toSite_forOthers s c _ q hq
    · exact ForOthers.single (nextHead_ne rank c m) q hq
  · rw [List.length_append, List.length_singleton]
    have site := toSite_length s c fun r => sealMsg { m with type := tyNotify, src := BitVec.ofNat 16 (myRank s) }
    unfold notifySite
    omega

/-- Settles O30: a site's JOINs and READYs by whether they complete it and whether they differ, and what its head passes on. -/
theorem clcSiteHead : Obligations.ClcSiteHead := by
  unfold Obligations.ClcSiteHead
  intro s m c p h headOf cur desc u v sigOk
  obtain ⟨head, rank, site⟩ := headOf
  have notRoot : isRoot u = false := isRoot_eq_false rank
  have toRoot {t : State} (q : ClcMsg) (stn : t.stn = s.stn) (se : t.se = s.se) : clcOut (t, [(0, q)]) = sentTo t [(0, q)] :=
    clcOut_single (by rw [se]; exact h.paired) q (by rw [myRank_of_stn stn]; exact rank.symm)
  refine ⟨fun ht digest sig waits => (exec_join h ht).trans (next_quiet (onJoin_sound (s := u) desc cur head site waits digest sig)),
    fun ht sig complete first matching => (exec_join h ht).trans (congrArg _ ?siteJoin), fun ht digest sig waits => (exec_join h ht).trans (congrArg _ ?digest),
    fun ht digest sig waits => (exec_join h ht).trans (congrArg _ ?signature), fun ht waits => (exec_clcReady h ht).trans (next_quiet (onReady_waits (s := u) desc head site waits)),
    fun ht complete first values plain => (exec_clcReady h ht).trans (congrArg _ ?siteReady), fun ht => (exec_abortReq h ht).trans (congrArg _ ?abortReq),
    fun ht => (exec_late h ht).trans (congrArg _ ?late), fun ht outcome new few => ?ring, fun ht again => (exec_ring h ht).trans (congrArg _ ?ringAgain),
    fun ht other => (exec_abortReply h ht).trans (congrArg _ ?reply)⟩
  case siteJoin =>
    rw [onJoin_completes (s := heard s m) desc cur head site sig complete first matching]
    exact toRoot _ rfl rfl
  case digest =>
    rw [onJoin_digest (s := heard s m) desc cur head site waits digest sig]
    exact clcOut_abortReq (s := joinNoted (heard s m) m) (t := markMismatch (joinNoted (heard s m) m)) h.paired rank head m.coll.toNat m.step _ (some m.src) none
  case signature =>
    rw [onJoin_signature (s := heard s m) desc cur head site waits digest sig]
    exact clcOut_abortReq (s := joinNoted (heard s m) m) (t := markMismatch (joinNoted (heard s m) m)) h.paired rank head m.coll.toNat m.step _ (some m.src) none
  case siteReady =>
    rw [onReady_completes (s := heard s m) desc head site complete first values plain]
    exact toRoot _ (putInst_stn (heard s m) _) (putInst_se (heard s m) _)
  case abortReq =>
    rw [onAbortReq_head (s := heard s m) head notRoot]
    exact toRoot m rfl rfl
  case late =>
    rw [onLate_head (s := heard s m) head notRoot]
    exact toRoot m rfl rfl
  case ring =>
    have isSeal := decisionOf_seal outcome
    obtain ⟨recs, seals, _, _⟩ := recorded_counts u (instOf s m) (decisionOf m)
    have sent := sentTo_outOnly (recorded u (instOf s m) (decisionOf m)) (notifySite s c m ++ [(nextHead c (myRank s) m, m)])
    refine ⟨_, exec_ring_seals h ht head rank desc outcome new few, ?_, ?_, sent.stn.trans (recorded_stn ..), sent.hbm.trans (recorded_hbm ..), ?_⟩
    · rw [sent.clc]
      exact recs
    · rw [sent.clc, seals, isSeal]
      rfl
    · rw [recordOutcome_seal new isSeal]
  case ringAgain =>
    have once : (getInst (heard s m) m.coll.toNat m.step).recorded = true := again
    rw [onRing_head (s := heard s m) head notRoot desc, recordOutcome_recorded once, once]
    exact clcOut_single h.paired m (nextHead_ne rank c m)
  case reply =>
    rw [onAbortReply_head (s := heard s m) head other]
    exact clcOut_single h.paired m other

end Sys2Proof.Machine

/-! What the root does: the seal, the end of the hold, and the messages that reach it (R220, R223 to R225, R231, R243). -/

namespace Sys2Proof.Machine

/-! ## When the root seals, R223 -/

/-- Every site has joined with its digest and is ready, and no abort is asked for. -/
def Sealable (s : State) (c : Desc) (coll : Nat) (x : Inst) : Prop :=
  x.decision = none ∧ x.reqs = [] ∧ (x.joined = true ∨ joinsMatched s c coll = true) ∧ ∀ h ∈ c.heads, ∃ m ∈ x.siteReadies, m.src.toNat = h

theorem sealable_iff {s : State} {c : Desc} {coll : Nat} {x : Inst} :
    (x.decision.isNone && x.reqs.isEmpty && (x.joined || joinsMatched s c coll) && c.heads.all fun h => x.siteReadies.any fun m => decide (m.src.toNat = h)) = true
      ↔ Sealable s c coll x := by
  simp [Sealable, and_assoc]

/-- The SEAL that the SITE_READYs give, R223 and R231. -/
def sealDecision (s : State) (x : Inst) : Decision :=
  let nf := lowestNf (x.siteReadies.map fun m => (m.subj, m))
  { abort := false, code := 0, subj := nf.map (·.2), nf := nf.map (·.1), repro := breakSeen s x }

/-- The ABORT that a request decides, for a code other than CE_DESC_MISMATCH. -/
def abortDecision (s : State) (x : Inst) (m : ClcMsg) : Decision :=
  { abort := true, code := m.code, subj := if flagSubj m then some m.subj else none, nf := if m.code = ceNonfinite then some m.nfPos else none, repro := breakSeen s x }

section
variable {s : State} {coll : Nat} {step : BitVec 32} {c : Desc} {x : Inst} (desc : curDesc s coll = some c) (found : findInst s coll step = some x)
include desc found

theorem trySeal_of_sealable (h : Sealable s c coll x) : trySeal s coll step = decideInst s x (sealDecision s x) := by
  unfold trySeal
  rw [desc, found]
  exact if_pos (sealable_iff.2 h)

theorem trySeal_of_not_sealable (h : ¬Sealable s c coll x) : trySeal s coll step = (s, []) := by
  unfold trySeal
  rw [desc, found]
  exact if_neg fun all => h (sealable_iff.1 all)

/-- At the end of the hold the request that goes before all others decides. -/
theorem holdEnd_decides {r best : ClcMsg} {rest : List ClcMsg} (reqs : x.reqs = r :: rest) (first : rest.foldl (fun b q => if reqBefore q b then q else b) r = best)
    (hold : x.hold = true) (undecided : x.decision = none) (code : best.code ≠ ceDescMismatch) : holdEnd s coll step = decideInst s x (abortDecision s x best) := by
  unfold holdEnd
  rw [desc, found]
  simp only [reqs, first, hold, undecided, Option.isNone_none, Bool.and_self, if_true, if_neg code]
  rfl

end

theorem reqBefore_of_precedence {a b : ClcMsg} (h : precedence a.code < precedence b.code) : reqBefore a b = true := by
  unfold reqBefore
  rw [if_pos (Nat.ne_of_lt h)]
  exact decide_eq_true h

/-- The root seals nothing of a collective of which no SITE_READY has come. -/
theorem trySealAll_none {s : State} {coll : Nat} {c : Desc} (desc : curDesc s coll = some c) (sites : c.heads ≠ []) (unready : ∀ i ∈ s.clc.insts, i.coll = coll → i.siteReadies = []) :
    trySealAll s coll = (s, []) := by
  have none_sealed (step : BitVec 32) : trySeal s coll step = (s, []) := by
    cases found : findInst s coll step with
    | none =>
      unfold trySeal
      rw [desc, found]
    | some x =>
      refine trySeal_of_not_sealable desc found fun sealable => ?_
      obtain ⟨_, _, _, ready⟩ := sealable
      obtain ⟨h, hh⟩ := List.exists_mem_of_ne_nil _ sites
      obtain ⟨m, hm, _⟩ := ready h hh
      rw [unready x (findInst_mem found) (findInst_place found).1] at hm
      exact List.not_mem_nil hm
  unfold trySealAll
  refine List.foldlRecOn (motive := fun acc => acc = (s, [])) _ _ rfl fun acc hacc i _ => ?_
  subst hacc
  show ((trySeal s coll i.step).1, [] ++ (trySeal s coll i.step).2) = (s, [])
  rw [none_sealed]
  rfl

/-! ## The decision, R223 to R225 -/

theorem myRank_of_cur {s t : State} (h : t.stn.cur = s.stn.cur) : myRank t = myRank s := by
  unfold myRank curRank
  rw [h]

theorem findInst_of_clc {s t : State} (h : t.clc = s.clc) (coll : Nat) (step : BitVec 32) : findInst t coll step = findInst s coll step := by
  unfold findInst
  rw [h]

theorem curDesc_of_stn {s t : State} (h : t.stn = s.stn) (coll : Nat) : curDesc t coll = curDesc s coll := by
  unfold curDesc
  rw [h]

theorem cur_of_curDesc {s : State} {coll : Nat} {c : Desc} (h : curDesc s coll = some c) : ∃ p, s.stn.cur = some p := by
  unfold curDesc desc? at h
  split at h
  · rename_i p cur
    exact ⟨p, cur⟩
  · exact nomatch h

/-- What the root holds once it has decided. -/
def Inst.decided (x : Inst) (d : Decision) (back : Bool) : Inst := { x with decision := some d, hold := false, ringBack := back }

section
variable {s : State} {c : Desc} {x : Inst} (desc : curDesc s x.coll = some c) (d : Decision)
include desc

/-- The root records its decision, and sends the RING and the NOTIFYs of its own site. -/
theorem decideInst_desc :
    let ring := ringMsg s x d
    let y := x.decided d (decide (nextHead c 0 ring = 0))
    let t := recordOutcome (putInst s y) y d
    decideInst s x d = (t, (if nextHead c 0 ring = 0 then [] else [(nextHead c 0 ring, ring)]) ++ notifySite t c ring) := by
  unfold decideInst
  rw [desc]
  rfl

/-- All that a decision sends is for others: what it leaves is the recorded outcome. -/
theorem clcOut_decideInst (root : isRoot s = true) {t : State}
    (outcome : let y := x.decided d (decide (nextHead c 0 (ringMsg s x d) = 0)); recordOutcome (putInst s y) y d = t) (cur : t.stn.cur = s.stn.cur) (paired : t.se.role ≠ 2) :
    OutOnly t (clcOut (decideInst s x d)) := by
  have zero : myRank t = 0 := (myRank_of_cur cur).trans (of_decide_eq_true root)
  have decided := decideInst_desc desc d
  simp only [] at decided outcome
  rw [decided, outcome]
  refine clcOut_outOnly paired fun q hq => ?_
  rcases List.mem_append.1 hq with hq | hq
  · split at hq
    · exact absurd hq List.not_mem_nil
    · rename_i head
      rw [List.mem_singleton.1 hq, zero]
      exact head
  · exact toSite_forOthers t c _ q hq

variable {d} (root : isRoot s = true) (paired : s.se.role ≠ 2) (new : x.recorded = false)
include root paired new

/-- What a SEAL leaves at the root. -/
theorem decideInst_seals (isSeal : d.abort = false) :
    let t := clcOut (decideInst s x d)
    t.clc.sealCount = bump s.clc.sealCount 1 ∧ t.clc.recCount = s.clc.recCount + 1 ∧ t.stn = s.stn
      ∧ ∃ z, findInst t x.coll x.step = some z ∧ z.recorded = true ∧ z.decision.isSome := by
  intro t
  generalize back : decide (nextHead c 0 (ringMsg s x d) = 0) = b
  have stn := (recorded_stn (putInst s (x.decided d b)) (x.decided d b) d).trans (putInst_stn s _)
  have se := (recorded_se (putInst s (x.decided d b)) (x.decided d b) d).trans (putInst_se s _)
  have out : OutOnly (recorded (putInst s (x.decided d b)) (x.decided d b) d) t := by
    refine clcOut_decideInst desc d root ?_ (congrArg Stn.cur stn) (by rw [se]; exact paired)
    rw [back]
    exact recordOutcome_seal new isSeal
  obtain ⟨recs, seals, _, _⟩ := recorded_counts (putInst s (x.decided d b)) (x.decided d b) d
  have held := findInst_recorded (putInst s (x.decided d b)) (x.decided d b) d
  obtain ⟨l, frame⟩ := putInst_frame s (x.decided d b)
  rw [isSeal] at seals
  refine ⟨?_, ?_, out.stn.trans stn, _, (findInst_of_clc out.clc ..).trans held, rfl, rfl⟩
  · rw [out.clc, seals, frame]
    rfl
  · rw [out.clc, recs, frame]
    rfl

/-- What an ABORT leaves at the root, where its plan runs and it asked for nothing itself. -/
theorem decideInst_aborts (isAbort : d.abort = true) (running : s.stn.place = .running) (unasked : s.clc.abortInst = none) :
    let t := clcOut (decideInst s x d)
    t.clc.abortCount = bump s.clc.abortCount 1 ∧ t.clc.recCount = s.clc.recCount + 1 ∧ t.stn.place = .halted ∧ t.stn.haltCause = 1 := by
  intro t
  generalize back : decide (nextHead c 0 (ringMsg s x d) = 0) = b
  obtain ⟨p, cur⟩ := cur_of_curDesc desc
  obtain ⟨l, frame⟩ := putInst_frame s (x.decided d b)
  have stn := (recorded_stn (putInst s (x.decided d b)) (x.decided d b) d).trans (putInst_stn s _)
  have se := (recorded_se (putInst s (x.decided d b)) (x.decided d b) d).trans (putInst_se s _)
  obtain ⟨recs, _, aborts, _⟩ := recorded_counts (putInst s (x.decided d b)) (x.decided d b) d
  obtain ⟨⟨place, cause, _⟩, cur', se', a, k, clc⟩ := haltNow_running (s := recorded (putInst s (x.decided d b)) (x.decided d b) d) (by rw [stn]; exact running) (by rw [stn]; exact cur) 1
  have out : OutOnly (haltNow (recorded (putInst s (x.decided d b)) (x.decided d b) d) 1) t := by
    refine clcOut_decideInst desc d root ?_ (cur'.trans (congrArg Stn.cur stn)) (by rw [se', se]; exact paired)
    rw [back]
    exact recordOutcome_abort new isAbort (by rw [frame]; exact unasked)
  rw [isAbort] at aborts
  refine ⟨?_, ?_, (congrArg Stn.place out.stn).trans place, (congrArg Stn.haltCause out.stn).trans cause⟩
  · rw [out.clc, clc]
    exact aborts.trans (by rw [frame]; rfl)
  · rw [out.clc, clc]
    exact recs.trans (by rw [frame]; rfl)

end

/-! ## Requests at the root, R220 and R225 -/

/-- What the root holds once an abort is asked for by a message: the request, with those before it, and its hold. -/
def Inst.asked (x : Inst) (q : ClcMsg) : Inst := { x with reqs := x.reqs ++ [q], hold := true }

section
variable {s : State} {coll : Nat} {step : BitVec 32} {x : Inst}

theorem rootAbort_undecided {m : ClcMsg} (found : findInst s m.coll.toNat m.step = some x) (undecided : x.decision = none) :
    rootAbort s m = (putInst s (x.asked m), []) := by
  unfold rootAbort Inst.asked
  rw [getInst_of_findInst found]
  simp only [undecided]

/-- The request that the root raises itself about a rank. -/
def raisedMsg (s : State) (coll : Nat) (step : BitVec 32) (code : Byte) (subj : BitVec 16) : ClcMsg :=
  sealMsg (withSubj { baseMsg s tyAbortReq coll step with code := code } (some subj))

theorem rootRaise_undecided {code : Byte} {subj : BitVec 16} (few : coll < 256) (found : findInst s coll step = some x) (undecided : x.decision = none) :
    rootRaise s coll step code (some subj) = (putInst s (x.asked (raisedMsg s coll step code subj)), []) := by
  refine rootAbort_undecided (m := raisedMsg s coll step code subj) ?_ undecided
  rw [show (raisedMsg s coll step code subj).coll.toNat = coll from Nat.mod_eq_of_lt few]
  exact found

end

/-! ## Messages at the root -/

/-- The root has noted a SITE_JOIN. -/
def siteJoinNoted (s : State) (m : ClcMsg) : State := { s with clc := { s.clc with siteJoins := s.clc.siteJoins ++ [m], breaks := breaksWith s m } }

/-- What the root holds with one more SITE_READY. -/
def Inst.withSiteReady (x : Inst) (m : ClcMsg) : Inst := { x with siteReadies := x.siteReadies ++ [m] }

/-- The root has every SITE_JOIN, and with this message every SITE_READY. -/
def SitesReady (s : State) (c : Desc) (x : Inst) (m : ClcMsg) : Prop :=
  (x.joined = true ∨ joinsMatched s c m.coll.toNat = true) ∧ ∀ h ∈ c.heads, ∃ j ∈ (x.withSiteReady m).siteReadies, j.src.toNat = h

theorem joinsMatched_putInst (s : State) (x : Inst) (c : Desc) (coll : Nat) : joinsMatched (putInst s x) c coll = joinsMatched s c coll := by
  obtain ⟨l, frame⟩ := putInst_frame s x
  rw [frame]
  rfl

section
variable {s : State} {m : ClcMsg} {c : Desc} {x : Inst}

theorem findInst_withSiteReady (found : findInst s m.coll.toNat m.step = some x) : findInst (putInst s (x.withSiteReady m)) m.coll.toNat m.step = some (x.withSiteReady m) := by
  obtain ⟨atColl, atStep⟩ := findInst_place found
  rw [← atColl, ← atStep]
  exact findInst_putInst s (x.withSiteReady m)

variable (desc : curDesc s m.coll.toNat = some c)
include desc

theorem curDesc_withSiteReady : curDesc (putInst s (x.withSiteReady m)) m.coll.toNat = some c := (curDesc_of_stn (putInst_stn s _) _).trans desc

variable (root : isRoot s = true)
include root

theorem onSiteJoin_root :
    let r := if m.digest ≠ c.digest then rootRaise (markMismatch (siteJoinNoted s m)) m.coll.toNat m.step ceDescMismatch (some m.src) else (siteJoinNoted s m, [])
    onSiteJoin s m = ((trySealAll r.1 m.coll.toNat).1, r.2 ++ (trySealAll r.1 m.coll.toNat).2) := by
  unfold onSiteJoin
  simp only [desc, root, Bool.not_true, Bool.false_eq_true, if_false]
  rfl

/-- A SITE_JOIN of the plan's digest is noted. -/
theorem onSiteJoin_matching (digest : m.digest = c.digest) (sites : c.heads ≠ []) (unready : ∀ i ∈ s.clc.insts, i.coll = m.coll.toNat → i.siteReadies = []) :
    onSiteJoin s m = (siteJoinNoted s m, []) := by
  rw [onSiteJoin_root desc root, if_neg (not_not_intro digest), trySealAll_none (s := siteJoinNoted s m) desc sites unready]
  rfl

variable (found : findInst s m.coll.toNat m.step = some x)
include found

/-- On a SITE_JOIN of another digest the root asks for an abort itself. -/
theorem onSiteJoin_differs (digest : m.digest ≠ c.digest) (undecided : x.decision = none) (sites : c.heads ≠ [])
    (unready : ∀ i ∈ s.clc.insts, i.coll = m.coll.toNat → i.siteReadies = []) :
    onSiteJoin s m = (putInst (markMismatch (siteJoinNoted s m)) (x.asked (raisedMsg s m.coll.toNat m.step ceDescMismatch m.src)), []) := by
  have raised : rootRaise (markMismatch (siteJoinNoted s m)) m.coll.toNat m.step ceDescMismatch (some m.src)
      = (putInst (markMismatch (siteJoinNoted s m)) (x.asked (raisedMsg s m.coll.toNat m.step ceDescMismatch m.src)), []) :=
    rootRaise_undecided (s := markMismatch (siteJoinNoted s m)) m.coll.isLt found undecided
  rw [onSiteJoin_root desc root, if_pos digest, raised]
  simp only []
  rw [trySealAll_none ((curDesc_of_stn (putInst_stn (markMismatch (siteJoinNoted s m)) _) _).trans desc) sites]
  · rfl
  · intro i hi hc
    rcases mem_putInst hi with rfl | hi
    · exact unready x (findInst_mem found) (findInst_place found).1
    · exact unready i hi hc

theorem onRing_root (decided : x.decision.isSome) :
    onRing s m = (putInst { s with clc := { s.clc with rings := s.clc.rings.filter fun i => !(decide (i.coll = m.coll.toNat) && decide (i.step = m.step)) } } { x with ringBack := true }, []) := by
  unfold onRing
  rw [desc]
  simp only [root, if_true, getInst_of_findInst found, decided]

theorem onSiteReady_root :
    onSiteReady s m = if m.value ≠ stepVal s.clc.grants (m.step + BitVec.ofNat 32 c.d) then rootRaise (putInst s (x.withSiteReady m)) m.coll.toNat m.step ceTimeout (some m.src)
      else trySeal (putInst s (x.withSiteReady m)) m.coll.toNat m.step := by
  obtain ⟨l, frame⟩ := putInst_frame s (x.withSiteReady m)
  have grants : (putInst s (x.withSiteReady m)).clc.grants = s.clc.grants := congrArg (fun u => u.clc.grants) frame
  unfold onSiteReady
  simp only [desc, root, Bool.not_true, Bool.false_eq_true, if_false]
  rw [getInst_of_findInst found, ← grants]
  rfl

theorem onSiteReady_waits (value : m.value = stepVal s.clc.grants (m.step + BitVec.ofNat 32 c.d)) (waits : ¬SitesReady s c x m) : onSiteReady s m = (putInst s (x.withSiteReady m), []) := by
  rw [onSiteReady_root desc root found, if_neg (not_not_intro value)]
  refine trySeal_of_not_sealable (curDesc_withSiteReady desc) (findInst_withSiteReady found) fun ⟨_, _, joins, ready⟩ => waits ⟨?_, ready⟩
  rwa [joinsMatched_putInst] at joins

theorem onSiteReady_seals (value : m.value = stepVal s.clc.grants (m.step + BitVec.ofNat 32 c.d)) (complete : SitesReady s c x m)
    (undecided : x.decision = none) (unasked : x.reqs = []) :
    onSiteReady s m = decideInst (putInst s (x.withSiteReady m)) (x.withSiteReady m) (sealDecision (putInst s (x.withSiteReady m)) (x.withSiteReady m)) := by
  rw [onSiteReady_root desc root found, if_neg (not_not_intro value)]
  refine trySeal_of_sealable (curDesc_withSiteReady desc) (findInst_withSiteReady found) ⟨undecided, unasked, ?_, complete.2⟩
  rw [joinsMatched_putInst]
  exact complete.1

/-- A SITE_READY whose extension is not the granted one has the root ask for an abort, R231. -/
theorem onSiteReady_differs (differs : m.value ≠ stepVal s.clc.grants (m.step + BitVec.ofNat 32 c.d)) (undecided : x.decision = none) :
    onSiteReady s m = (putInst s ((x.withSiteReady m).asked (raisedMsg s m.coll.toNat m.step ceTimeout m.src)), []) := by
  have raised := rootRaise_undecided (code := ceTimeout) (subj := m.src) m.coll.isLt (findInst_withSiteReady found) undecided
  have once := putInst_putInst s (x := x.withSiteReady m) (y := (x.withSiteReady m).asked (raisedMsg s m.coll.toNat m.step ceTimeout m.src)) rfl rfl
  rw [onSiteReady_root desc root found, if_pos differs, raised, ← once]
  unfold raisedMsg
  rw [baseMsg_putInst]

end

theorem onRebuilt_root {s : State} {m : ClcMsg} (root : isRoot s = true) :
    onRebuilt s m = ({ s with clc := { s.clc with lost := s.clc.lost.filter fun r => r.toNat ≠ m.src.toNat } }, []) := by
  unfold onRebuilt
  rw [if_pos root]

/-- Settles O31: the seal and its conditions, the request that decides at the end of the hold, and each message at the root. -/
theorem clcRoot : Obligations.ClcRoot := by
  unfold Obligations.ClcRoot
  intro s coll step c x desc found ready
  refine ⟨trySeal_of_sealable desc found, trySeal_of_not_sealable desc found, fun m hc hs undecided => ?request, fun m reqs hold undecided code => holdEnd_decides desc found reqs rfl hold undecided code,
    fun m q reqs hold undecided before code => ?second, fun m h root hc hs => ?messages⟩
  case request =>
    subst hc hs
    exact rootAbort_undecided found undecided
  case second =>
    refine holdEnd_decides desc found reqs ?_ hold undecided code
    rw [List.foldl_cons, List.foldl_nil, if_pos (reqBefore_of_precedence before)]
  case messages =>
    subst hc hs
    intro u v y all want
    obtain ⟨atColl, atStep⟩ := findInst_place found
    refine ⟨fun ht digest sites unready => (exec_siteJoin h ht).trans (next_quiet (onSiteJoin_matching (s := u) desc root digest sites unready)),
      fun ht digest undecided sites unready => (exec_siteJoin h ht).trans (next_quiet (onSiteJoin_differs (s := u) desc root found digest undecided sites unready)),
      fun ht value waits => (exec_siteReady h ht).trans (next_quiet (onSiteReady_waits (s := u) desc root found value waits)),
      fun ht value complete undecided unasked new => ⟨_, exec_siteReady h ht, ?seals⟩,
      fun ht value undecided => (exec_siteReady h ht).trans (next_quiet (onSiteReady_differs (s := u) desc root found value undecided)),
      fun ht decided => (exec_ring h ht).trans (next_quiet (onRing_root (s := u) desc root found decided)),
      fun ht => (exec_rebuilt h ht).trans (next_quiet (onRebuilt_root root))⟩
    case seals =>
      rw [onSiteReady_seals (s := heard s m) desc root found value complete undecided unasked]
      have rank : myRank (putInst (heard s m) (x.withSiteReady m)) = myRank s := myRank_of_stn (putInst_stn ..)
      have descY : curDesc (putInst (heard s m) (x.withSiteReady m)) (x.withSiteReady m).coll = some c := by
        rw [show (x.withSiteReady m).coll = m.coll.toNat from atColl]
        exact curDesc_withSiteReady (s := heard s m) desc
      obtain ⟨seals, recs, stn, held⟩ := decideInst_seals descY (d := sealDecision (putInst (heard s m) (x.withSiteReady m)) (x.withSiteReady m))
        ((congrArg (fun r => decide (r = 0)) rank).trans root) (by rw [putInst_se]; exact h.paired) new rfl
      rw [show (x.withSiteReady m).coll = m.coll.toNat from atColl, show (x.withSiteReady m).step = m.step from atStep] at held
      obtain ⟨l, frame⟩ := putInst_frame (heard s m) (x.withSiteReady m)
      refine ⟨seals.trans ?_, recs.trans ?_, stn.trans (putInst_stn ..), held⟩
      · rw [frame]
        rfl
      · rw [frame]
        rfl

/-! ## The timers, and the aborts asked for here, R223, R225, R228 and R240 -/

/-- A rank that is still awaited is lost, and an abort is asked for. -/
theorem execMemberLostTimeout_awaits {s : State} {coll : Fin 64} {step : BitVec 32} {rank : BitVec 15} (unpaired : s.se.role = 0) (h : awaits s coll.val step rank.toNat = true) :
    execMemberLostTimeout coll step rank s
      = act s (clcOut ({ s with clc := { s.clc with lost := s.clc.lost ++ [rank], err := setErr s.clc.err 1 } }, abortReq s coll.val step ceMemberLost (some (rank.setWidth 16)) none)) := by
  unfold execMemberLostTimeout
  rw [if_pos ⟨h, by rw [unpaired]; decide⟩]
  rfl

section
variable {s : State} {coll : Nat} {step : BitVec 32}

/-- An abort of what the plan does not hold, or of what has not begun, has the result NO_INSTANCE, R251. -/
theorem clcAbort_noInstance (h : hasInstance s coll step = false) :
    clcAbort s coll step none = { s with clc := { s.clc with abortMbox := none, abortResult := 3, abortInst := none } } := by
  unfold clcAbort
  exact if_pos (congrArg not h)

/-- Any other is PENDING, and this member asks for it, R228. -/
theorem clcAbort_instance (h : hasInstance s coll step = true) (mbox : Option MboxRec) :
    clcAbort s coll step mbox = clcOut ({ s with clc := { s.clc with abortMbox := mbox, abortResult := 0, abortInst := some (coll, step) } },
      abortReq s coll step ceAborted (some ((curRank s).setWidth 16)) none) := by
  unfold clcAbort
  exact if_neg fun absent => Bool.false_ne_true ((congrArg not h).symm.trans absent)

end

/-- Settles O33: each timer by whether it has something to wait for, and the aborts that a register and a mailbox ask for. -/
theorem clcTimers : Obligations.ClcTimers := by
  unfold Obligations.ClcTimers
  intro s coll step live unpaired
  have paired : s.se.role ≠ 2 := by
    rw [unpaired]
    decide
  have answers {t u : State} : t = u → act s t = .next u := act_eq_next live
  refine ⟨fun rank waits => (execMemberLostTimeout_awaits unpaired waits).trans (answers rfl), fun rank idle => answers ?idle, fun root => answers (if_pos root),
    fun member => answers (if_neg (by rw [member]; exact Bool.false_ne_true)), fun c x m root desc found reqs hold undecided new code running unasked => ?holdEnd,
    fun c x d root desc found decided waiting others => answers ?resend, fun x found back => answers ?back, fun pending => answers (if_pos pending),
    fun settled => ?abort, fun r i x k accepted => ?mailbox⟩
  case idle => exact if_neg (by rw [idle]; exact fun both => Bool.false_ne_true both.1)
  case holdEnd =>
    obtain ⟨atColl, _⟩ := findInst_place found
    have decides := holdEnd_decides desc found reqs rfl hold undecided code
    refine .of_act live (congrArg (act s) (if_pos root)) ?_
    rw [decides]
    exact decideInst_aborts (by rw [atColl]; exact desc) root paired new rfl running unasked
  case resend =>
    have zero : myRank s = 0 := of_decide_eq_true root
    rw [desc, found]
    simp only [decided, root, waiting, Bool.not_false, Bool.and_self, if_true]
    exact clcOut_single paired _ (by rw [zero]; exact others)
  case back =>
    rw [found]
    cases curDesc s coll.val with
    | none => rfl
    | some c => cases hd : x.decision <;> simp [hd, back]
  case abort =>
    intro u
    exact ⟨fun absent => answers ((if_neg settled).trans (clcAbort_noInstance (s := u) absent)), fun present => answers ((if_neg settled).trans (clcAbort_instance (s := u) present none))⟩
  case mailbox =>
    have started := exec_accepted (c := .collAbort r k step) accepted rfl
    intro u
    refine ⟨fun wide => started.trans (congrArg _ (if_pos wide)), fun narrow pending => started.trans (congrArg _ ?_), fun narrow settled => started.trans (congrArg _ ?_)⟩
    · exact (if_neg (Nat.not_le.2 narrow)).trans (if_pos pending)
    · exact (if_neg (Nat.not_le.2 narrow)).trans (if_neg settled)

end Sys2Proof.Machine

/-! The pair link, and what a device that has paired makes of its peer's records (R271, R272, R275 to R279, R282). -/

namespace Sys2Proof.Machine

/-! ## What a pair record is taken for, R279 -/

/-- The state once a record's SEQ has been taken. -/
def seqTaken (s : State) (h : PairHdr) : State := { s with se := { s.se with rxSeq := some h.seq } }

section
variable {s : State} {h : PairHdr}

/-- A record whose CRC fails, or that reaches an unpaired device, is as if lost. -/
theorem pairTake_lost (unheard : h.crcOk = false ∨ s.se.role = 0) (f : State → State) : pairTake s h f = s := by
  refine if_neg fun both => ?_
  obtain ⟨ok, paired⟩ := both
  rcases unheard with bad | unpaired
  · exact Bool.false_ne_true (bad.symm.trans ok)
  · exact paired unpaired

theorem pairTake_taken (ok : h.crcOk = true) (paired : s.se.role ≠ 0) (f : State → State) : pairTake s h f = f (seqTaken s h) := if_pos ⟨ok, paired⟩

end

/-- What a pair record that was sent leaves of the pairing: the next SEQ, and all else as it was. -/
theorem sendPair_se (s : State) (type : Byte) (body : List Byte) : (sendPair s type body).se = { s.se with txSeq := s.se.txSeq + 1 } := by
  unfold sendPair
  dsimp only
  cases pairBond { s with se := { s.se with txSeq := s.se.txSeq + 1 } } with
  | none => rfl
  | some b => exact congrArg State.se (arriveCtl_frame _ b _)

/-! ## HELLO, R271 -/

/-- The number of the first item of R271 that fails, in the order of REFUSE, and 0 where every item holds. -/
def helloItem (s : State) (role : BitVec 8) (part : BitVec 16) (stepping : BitVec 8) (asig : BitVec 32) (hash : BitVec 64) : BitVec 4 :=
  if role.toNat = s.se.role.toNat then 1 else if part ≠ 0x9640 ∨ stepping ≠ 0xB1 then 2 else if asig ≠ topAsig s then 3 else if hash ≠ imageHash s then 4 else 0

/-- The pair link once a HELLO has been judged: PAIRED, or REFUSED with the item. -/
def helloJudged (s : State) (n : BitVec 4) : State := { s with se := { s.se with refuse := n, link := if n = 0 then 2 else 3 } }

theorem seHello_judged {s : State} {h : PairHdr} (ok : h.crcOk = true) (paired : s.se.role ≠ 0) (role : BitVec 8) (part : BitVec 16) (stepping : BitVec 8) (asig : BitVec 32) (hash : BitVec 64) :
    seHello s h role part stepping asig hash = helloJudged (seqTaken s h) (helloItem s role part stepping asig hash) := pairTake_taken ok paired _

section
variable {s : State} {role : BitVec 8} {part : BitVec 16} {stepping : BitVec 8} {asig : BitVec 32} {hash : BitVec 64}

theorem helloItem_role (same : role.toNat = s.se.role.toNat) : helloItem s role part stepping asig hash = 1 := if_pos same

variable (other : role.toNat ≠ s.se.role.toNat)
include other

theorem helloItem_part (differs : part ≠ 0x9640 ∨ stepping ≠ 0xB1) : helloItem s role part stepping asig hash = 2 := by
  rw [helloItem, if_neg other, if_pos differs]

theorem helloItem_asig (differs : asig ≠ topAsig s) : helloItem s role 0x9640 0xB1 asig hash = 3 := by
  rw [helloItem, if_neg other, if_neg (by decide), if_pos differs]

theorem helloItem_hash (differs : hash ≠ imageHash s) : helloItem s role 0x9640 0xB1 (topAsig s) hash = 4 := by
  rw [helloItem, if_neg other, if_neg (by decide), if_neg (not_not_intro rfl), if_pos differs]

theorem helloItem_none : helloItem s role 0x9640 0xB1 (topAsig s) (imageHash s) = 0 := by
  rw [helloItem, if_neg other, if_neg (by decide), if_neg (not_not_intro rfl), if_neg (not_not_intro rfl)]

end

/-! ## A SHADOW, R272 -/

section
variable {s : State} {h : PairHdr} (ok : h.crcOk = true) (shadow : s.se.role = 2)
include ok shadow

theorem seUnit_shadow (bond : Fin 16) (bytes : List Byte) : seUnit s h bond bytes = pump (unitQueue (seqTaken s h) bond.val bytes) :=
  (pairTake_taken ok (by rw [shadow]; decide) _).trans (if_pos shadow)

theorem seCtl_shadow (m : ClcMsg) : seCtl s h m = clcReceive (seqTaken s h) m :=
  (pairTake_taken ok (by rw [shadow]; decide) _).trans (if_pos shadow)

end

/-! ## A write of SE_CTRL, R282 -/

/-- ACTION takes a value whatever plan is held. -/
def actionWritten (s : State) (v : BitVec 32) : State := { s with se := { s.se with action := BitVec.ofNat 2 (bitsOf v.toNat 7 6) } }

theorem seRoleWrite_planHeld {s : State} (held : s.stn.place ≠ .none ∨ s.stn.next.isSome) (v : BitVec 32) : seRoleWrite s v = actionWritten s v := if_pos held

theorem seRoleWrite_noPlan {s : State} (place : s.stn.place = .none) (next : s.stn.next = none) (v : BitVec 32) :
    seRoleWrite s v = { actionWritten s v with se := { (actionWritten s v).se with ports := BitVec.ofNat 16 (v.toNat / 65536), role := BitVec.ofNat 2 (bitsOf v.toNat 5 4), stopFwd := false, stopAsked := false } } := by
  refine if_neg ?_
  rintro (held | held)
  · exact held place
  · have none_next : (actionWritten s v).stn.next.isSome = false := congrArg Option.isSome next
    exact Bool.false_ne_true (none_next.symm.trans held)

/-- Settles O34: HELLO, its five answers, what a SHADOW takes, and the writes of SE_CTRL. -/
theorem pairLink : Obligations.PairLink := by
  unfold Obligations.PairLink
  intro s h live
  have answers {t u : State} : t = u → act s t = .next u := act_eq_next live
  refine ⟨fun paired => answers (if_neg paired), fun unpaired => answers (if_pos unpaired), fun unheard role part stepping asig hash step slot e count dg idx d bond bytes m => ?lost,
    fun ok paired role part stepping asig hash => ?hello, fun ok shadow => ?shadow, fun v => ?write⟩
  case lost =>
    have lost (f : State → State) : act s (pairTake s h f) = .next s := answers (pairTake_lost unheard f)
    exact ⟨lost _, lost _, lost _, lost _, lost _, lost _⟩
  case hello =>
    have judged {part stepping asig hash} {n : BitVec 4} (item : helloItem s role part stepping asig hash = n) :
        exec (.seHello h role part stepping asig hash) s = .next (helloJudged (seqTaken s h) n) :=
      answers (by rw [seHello_judged ok paired, item])
    exact ⟨fun same => judged (helloItem_role same), fun other differs => judged (helloItem_part other differs), fun other differs => judged (helloItem_asig other differs),
      fun other differs => judged (helloItem_hash other differs), fun other => judged (helloItem_none other)⟩
  case shadow =>
    have unit (bond : Fin 16) (bytes : List Byte) : exec (.seUnit h bond bytes) s = .next (pump (unitQueue (seqTaken s h) bond.val bytes)) :=
      answers (seUnit_shadow ok shadow bond bytes)
    exact ⟨fun bond bytes => ⟨unit bond bytes, fun still => (unit bond bytes).trans (congrArg _ (pump_still still.free still.noTiles))⟩,
      fun m => answers (seCtl_shadow ok shadow m)⟩
  case write => exact ⟨fun held => answers (seRoleWrite_planHeld held v), fun place next => answers (seRoleWrite_noPlan place next v)⟩

end Sys2Proof.Machine

/-! The comparison of slots with the peer's, and the capture of the lowest that differs (R275 to R278). -/

namespace Sys2Proof.Machine

/-! ## A SLOT record, R275 -/

/-- The state once a comparison of slots has been counted. -/
def slotCounted (s : State) : State := { s with se := { s.se with slotCount := bump s.se.slotCount 1 } }

section
variable {s : State} {r : SeSlotRec} {d : BitVec 64} (closed : r.digest = some d)
include closed

theorem seCompare_agrees (count : Nat) : seCompare s r d count = seFinal (dropSlot (slotCounted s) r) := by
  rw [seCompare, closed]
  exact if_pos rfl

theorem seCompare_differs {dg : BitVec 64} (differs : dg ≠ d) (count : Nat) : seCompare s r dg count = seDiverge (slotCounted s) r d dg count := by
  rw [seCompare, closed]
  exact if_neg differs.symm

end

section
variable {s : State} {h : PairHdr} {step : BitVec 32} {slot : BitVec 16} {e : Fin 64} (ok : h.crcOk = true) (paired : s.se.role ≠ 0)
include ok paired

/-- A slot that this device does not have yet: the peer's digest waits for it. -/
theorem seSlot_early (absent : findSlot s step slot.toNat e.val = none) (count : BitVec 32) (dg : BitVec 64) :
    seSlot s h step slot e count dg = { seqTaken s h with se := { (seqTaken s h).se with peer := s.se.peer ++ [(step, slot.toNat, e.val, dg, count.toNat)] } } := by
  rw [seSlot, pairTake_taken ok paired, show findSlot (seqTaken s h) step slot.toNat e.val = none from absent]
  rfl

theorem seSlot_closed {r : SeSlotRec} {d : BitVec 64} (found : findSlot s step slot.toNat e.val = some r) (new : r.compared = false) (checked : r.unchecked = false) (closed : r.digest = some d)
    (count : BitVec 32) (dg : BitVec 64) : seSlot s h step slot e count dg = seCompare (seqTaken s h) r dg count.toNat := by
  rw [seSlot, pairTake_taken ok paired, show findSlot (seqTaken s h) step slot.toNat e.val = some r from found]
  simp only [new, checked, closed, Bool.or_self, Bool.false_eq_true, if_false, Option.isSome_some, if_true]

end

/-! ## The records of a slot, R277 -/

/-- The record that a slot's search for its first difference has come to. -/
theorem next_record_taken {r : SeSlotRec} {idx : BitVec 32} (diverged : r.diverged = true) (kept : r.lost = false) (next : r.agree = idx.toNat) :
    (!r.diverged || r.lost || decide (r.agree ≠ idx.toNat)) = false := by simp [diverged, kept, next]

section
variable {s : State} {h : PairHdr} {step : BitVec 32} {slot : BitVec 16} {e : Fin 64} (ok : h.crcOk = true) (paired : s.se.role ≠ 0)
include ok paired

theorem seDestReq_absent (absent : findSlot s step slot.toNat e.val = none) :
    seDestReq s h step slot e = sendPair (seqTaken s h) 0x04 (destBody step slot.toNat e.val 0 none) := by
  rw [seDestReq, pairTake_taken ok paired, show findSlot (seqTaken s h) step slot.toNat e.val = none from absent]

theorem seDestReq_found {r : SeSlotRec} (found : findSlot s step slot.toNat e.val = some r) :
    seDestReq s h step slot e = if r.lost then sendPair (seqTaken s h) 0x04 (destBody step slot.toNat e.val 0 none)
      else ((List.range r.dests.length).zip r.dests).foldl (fun s p => sendPair s 0x04 (destBody step slot.toNat e.val p.1 (some p.2))) (seqTaken s h) := by
  rw [seDestReq, pairTake_taken ok paired, show findSlot (seqTaken s h) step slot.toNat e.val = some r from found]

section
variable {r : SeSlotRec} {idx : BitVec 32} {p : DestRec} {own : Dest} (found : findSlot s step slot.toNat e.val = some r) (diverged : r.diverged = true) (kept : r.lost = false)
  (next : r.agree = idx.toNat) (mine : r.dests[idx.toNat]? = some own)
include found diverged kept next mine

theorem seDest_differs (differs : ¬(own.kind = p.kind ∧ own.stroke = p.stroke ∧ own.addr = p.addr ∧ own.digest = p.digest)) :
    seDest s h step slot e idx (some p) = seAddr (seqTaken s h) r own own.digest p.digest := by
  rw [seDest, pairTake_taken ok paired, show findSlot (seqTaken s h) step slot.toNat e.val = some r from found]
  simp only [mine, if_neg differs]
  exact if_neg (ne_true_of_eq_false (next_record_taken diverged kept next))

/-- A record that agrees is not the peer's last: the slot's index goes on by one. -/
theorem seDest_agrees (agrees : own.kind = p.kind ∧ own.stroke = p.stroke ∧ own.addr = p.addr ∧ own.digest = p.digest) (more : r.agree + 1 ≠ r.peerCount) :
    seDest s h step slot e idx (some p) = putSlot (seqTaken s h) { r with agree := r.agree + 1 } := by
  rw [seDest, pairTake_taken ok paired, show findSlot (seqTaken s h) step slot.toNat e.val = some r from found]
  simp only [mine, if_pos agrees, if_neg more]
  exact if_neg (ne_true_of_eq_false (next_record_taken diverged kept next))

end

end

/-! ## The capture of a divergence, R276 -/

/-- Nothing is captured, or what is comes after this slot. -/
def isLowest (s : State) (r : SeSlotRec) : Bool :=
  match s.se.cap with
  | none => true
  | some c => seBefore s (r.step, r.slot, r.engine) (c.step, c.slot, c.engine)

/-- The capture of a slot, its address and FINAL yet to come. -/
def captureOf (r : SeSlotRec) (loc peer : BitVec 64) : SeCapture := ⟨r.step, r.slot, r.engine, loc, peer, none, false⟩

/-- The state once a slot that is the lowest has been captured. -/
def captureLower (s : State) (r : SeSlotRec) (loc peer : BitVec 64) : State :=
  if isLowest s r then { s with se := { s.se with cap := some (captureOf r loc peer) } } else s

/-- The state once a slot whose records are lost has been counted. -/
def addrLostNoted (s : State) (r : SeSlotRec) : State := if r.lost then { s with se := { s.se with addrLost := bump s.se.addrLost 1 } } else s

/-- A divergence from a slot in which the peer has records. -/
theorem seDiverge_records (s : State) (r : SeSlotRec) (loc peer : BitVec 64) {count : Nat} (records : count ≠ 0) :
    seDiverge s r loc peer count = seFinal (seAct (sendPair (addrLostNoted (captureLower (putSlot s { r with compared := true, diverged := true, peerCount := count }) r loc peer) r)
      0x03 (beBytes 4 r.step.toNat ++ beBytes 2 r.slot ++ [BitVec.ofNat 8 r.engine]))) := by
  have not_empty : (!r.lost && decide (count = 0)) = false := by simp [records]
  exact congrArg (fun t => seFinal (seAct t)) (if_neg (ne_true_of_eq_false not_empty))

theorem isLowest_uncaptured {s : State} (uncaptured : s.se.cap = none) (r : SeSlotRec) : isLowest s r = true := by
  rw [isLowest, uncaptured]

theorem isLowest_captured {s : State} {c : SeCapture} (captured : s.se.cap = some c) (r : SeSlotRec) :
    isLowest s r = seBefore s (r.step, r.slot, r.engine) (c.step, c.slot, c.engine) := by
  rw [isLowest, captured]

theorem captureLower_cap (s : State) (r : SeSlotRec) (loc peer : BitVec 64) :
    (captureLower s r loc peer).se.cap = if isLowest s r then some (captureOf r loc peer) else s.se.cap := by
  unfold captureLower
  split
  · rfl
  · rfl

theorem addrLostNoted_cap (s : State) (r : SeSlotRec) : (addrLostNoted s r).se.cap = s.se.cap := by
  unfold addrLostNoted
  split
  · rfl
  · rfl

theorem sendPair_cap (s : State) (type : Byte) (body : List Byte) : (sendPair s type body).se.cap = s.se.cap := by rw [sendPair_se]

/-- A slot that is put changes the list of slots alone. -/
theorem putSlot_recs (s : State) (x : SeSlotRec) : ∃ rs, putSlot s x = { s with se := { s.se with recs := rs } } := by
  unfold putSlot
  dsimp only
  split
  · exact ⟨_, rfl⟩
  · exact ⟨_, rfl⟩

theorem putSlot_cap (s : State) (x : SeSlotRec) : (putSlot s x).se.cap = s.se.cap := by
  obtain ⟨rs, put⟩ := putSlot_recs s x
  rw [put]

theorem putSlot_stn (s : State) (x : SeSlotRec) : (putSlot s x).stn = s.stn := by
  obtain ⟨rs, put⟩ := putSlot_recs s x
  rw [put]

theorem putSlot_isLowest (s : State) (x r : SeSlotRec) : isLowest (putSlot s x) r = isLowest s r := by
  unfold isLowest seBefore
  rw [putSlot_cap, putSlot_stn]

theorem seAct_cap (s : State) : (seAct s).se.cap = s.se.cap := by
  simp only [seAct, apply_ite (fun t : State => t.se.cap), ite_self]

/-- The end of a comparison may set FINAL of the capture and changes nothing else of it. -/
theorem seFinal_cap {s : State} {c : SeCapture} (captured : s.se.cap = some c) : ∃ final, (seFinal s).se.cap = some { c with final := final } := by
  unfold seFinal
  rw [captured]
  exact iteInduction (motive := fun t : State => ∃ final, t.se.cap = some { c with final := final }) (fun _ => ⟨true, rfl⟩) fun _ => ⟨c.final, captured⟩

/-- A divergence leaves the lower of its slot and the capture. -/
theorem seDiverge_cap {s : State} {r : SeSlotRec} {loc peer : BitVec 64} {count : Nat} (records : count ≠ 0) {c : SeCapture}
    (lower : (if isLowest s r then some (captureOf r loc peer) else s.se.cap) = some c) : ∃ final, (seDiverge s r loc peer count).se.cap = some { c with final := final } := by
  rw [seDiverge_records s r loc peer records]
  refine seFinal_cap ?_
  rw [seAct_cap, sendPair_cap, addrLostNoted_cap, captureLower_cap, putSlot_isLowest, putSlot_cap, lower]

/-- Settles O35: when a slot is compared and how, which divergence is captured, and what the records of a slot give. -/
theorem pairSlots : Obligations.PairSlots := by
  unfold Obligations.PairSlots
  intro s h step slot e live ok paired
  have answers {t u : State} : t = u → act s t = .next u := act_eq_next live
  refine ⟨fun count dg absent => answers (seSlot_early ok paired absent count dg), fun r count dg d found new checked closed => ?compared, fun r d dg n none_yet records => ?first,
    fun r d dg n c captured records higher => ?kept, fun absent => answers (seDestReq_absent ok paired absent), fun r found lost => answers ?lost, fun r found kept => answers ?records,
    fun r idx p own found diverged kept next mine => ?record⟩
  case compared =>
    have compares := seSlot_closed ok paired found new checked closed count dg
    refine ⟨fun agrees => answers (compares.trans ?_), fun differs => answers (compares.trans (seCompare_differs closed differs _))⟩
    rw [agrees]
    exact seCompare_agrees closed _
  case first =>
    obtain ⟨final, cap⟩ := seDiverge_cap (loc := d) (peer := dg) records (if_pos (isLowest_uncaptured none_yet r))
    exact ⟨_, cap, rfl, rfl, rfl, rfl, rfl⟩
  case kept =>
    obtain ⟨final, cap⟩ := seDiverge_cap (loc := d) (peer := dg) records ((if_neg (ne_true_of_eq_false ((isLowest_captured captured r).trans higher))).trans captured)
    exact ⟨_, cap, rfl, rfl, rfl⟩
  case lost => exact (seDestReq_found ok paired found).trans (if_pos lost)
  case records => exact (seDestReq_found ok paired found).trans (if_neg (ne_true_of_eq_false kept))
  case record =>
    exact ⟨fun differs => answers (seDest_differs ok paired found diverged kept next mine differs),
      fun agrees more => answers (seDest_agrees ok paired found diverged kept next mine agrees more)⟩

end Sys2Proof.Machine

/-! Plumb's choice of its source (R292, R293, R303), and a STEP_NOW that a reset holds back (R288, R297). -/

namespace Sys2Proof.Machine

/-! ## What steering leaves alone, R294 to R298 -/

theorem setErr_keeps {v : BitVec 32} {k : Nat} (h : v.getLsbD k = true) (i : Nat) : (setErr v i).getLsbD k = true := by
  rw [setErr, BitVec.getLsbD_or, h, Bool.true_or]

/-- Plumb but for INC, STATE, what is held of the time in each STATE, the triggers and PLB_ERR. -/
def Plb.unsteered (p : Plb) : Plb :=
  { p with inc := 0, st := .freerun, within20 := 0, servoK := 0, lockHist := [], lockFrom := none, holdFrom := none, holdSeconds := 0, freqHold := false, trigs := [], err := 0 }

/-- From the first state to the second Plumb has been steered at most, and no bit of PLB_ERR has fallen. -/
structure Steered (s t : State) : Prop where
  rest : t.plb.unsteered = s.plb.unsteered
  err : ∀ k, s.plb.err.getLsbD k = true → t.plb.err.getLsbD k = true

namespace Steered

variable {s t u : State}

theorem refl (s : State) : Steered s s := ⟨rfl, fun _ => id⟩

theorem trans (h : Steered s t) (h' : Steered t u) : Steered s u := ⟨h'.rest.trans h.rest, fun k e => h'.err k (h.err k e)⟩

theorem srcs (h : Steered s t) : t.plb.srcs = s.plb.srcs := (congrArg Plb.srcs h.rest :)
theorem selected (h : Steered s t) : t.plb.selected = s.plb.selected := (congrArg Plb.selected h.rest :)
theorem switchCount (h : Steered s t) : t.plb.switchCount = s.plb.switchCount := (congrArg Plb.switchCount h.rest :)

theorem src (h : Steered s t) (i : Nat) : t.src i = s.src i := by rw [State.src, State.src, h.srcs]

end Steered

theorem setInc_steered (s : State) (v : Nat) : Steered s (setInc s v) := by
  unfold setInc
  dsimp only
  split <;> exact ⟨rfl, fun _ => id⟩

theorem ppsFollow_steered (s : State) : Steered s (ppsFollow s) := by
  unfold ppsFollow armPps
  split
  · exact .refl s
  · split <;> exact ⟨rfl, fun _ => id⟩

/-- Plumb's record of a stay in LOCKED that ends. -/
def Plb.unlock (p : Plb) : Plb :=
  match p.lockFrom with
  | some t => { p with lockHist := (p.inc.toNat, p.time - t) :: p.lockHist, lockFrom := none }
  | none => p

/-- Plumb in a STATE that it has entered; `secs` is what stands of the last stay in HOLDOVER. -/
def Plb.enter (p : Plb) (secs : BitVec 32) (st : PlbSt) : Plb :=
  let p := { p with holdSeconds := secs, holdFrom := none, freqHold := false, st := st, within20 := 0 }
  let p := if st = .locked then { p with lockFrom := some p.time } else p
  if st = .holdover then { p with holdFrom := some p.time, err := setErr p.err 1 } else p

theorem setPlbSt_changed {s : State} {st : PlbSt} (h : st ≠ s.plb.st) :
    setPlbSt s st = ppsFollow (setReady { s with plb := s.plb.unlock.enter (holdSeconds s) st } rdyPlb (decide (st = .locked))) := if_neg h

theorem Plb.unlock_unsteered (p : Plb) : p.unlock.unsteered = p.unsteered := by
  unfold Plb.unlock
  split <;> rfl

theorem Plb.unlock_err (p : Plb) : p.unlock.err = p.err := by
  unfold Plb.unlock
  split <;> rfl

theorem Plb.enter_unsteered (p : Plb) (secs : BitVec 32) (st : PlbSt) : (p.enter secs st).unsteered = p.unsteered := by cases st <;> rfl

theorem Plb.enter_err (p : Plb) (secs : BitVec 32) (st : PlbSt) : (p.enter secs st).err = if st = .holdover then setErr p.err 1 else p.err := by cases st <;> rfl

theorem setPlbSt_steered (s : State) (st : PlbSt) : Steered s (setPlbSt s st) := by
  by_cases same : st = s.plb.st
  · rw [setPlbSt, if_pos same]
    exact .refl s
  · rw [setPlbSt_changed same]
    refine .trans ⟨?rest, fun k h => ?err⟩ (ppsFollow_steered _)
    case rest => exact (Plb.enter_unsteered ..).trans (Plb.unlock_unsteered _)
    case err =>
      rw [setReady_plb, Plb.enter_err, Plb.unlock_err]
      split
      · exact setErr_keeps h 1
      · exact h

theorem holdSteer_steered (s : State) : Steered s (holdSteer s) :=
  .trans (t := { s with plb := { s.plb with freqHold := (s.src 18).qualified, servoK := s.plb.servoK + 1 } }) ⟨rfl, fun _ => id⟩ (setInc_steered _ _)

theorem servoInc_steered (s : State) : Steered s (servoInc s) :=
  .trans (t := { s with plb := { s.plb with servoK := s.plb.servoK + 1 } }) ⟨rfl, fun _ => id⟩ (setInc_steered _ _)

theorem enterHoldover_steered (s : State) : Steered s (enterHoldover s) := by
  unfold enterHoldover
  split
  · exact .refl s
  · exact (setPlbSt_steered s .holdover).trans (holdSteer_steered _)

theorem plbSettle_steered (s : State) : Steered s (plbSettle s) := by
  unfold plbSettle
  split
  · exact setPlbSt_steered s _
  · split
    · split
      · exact setPlbSt_steered s .acquiring
      · exact .refl s
    · split
      · exact .refl s
      · exact enterHoldover_steered s

/-! ## A scan of a list for its first least element -/

section
variable {α : Type} (less : α → α → Prop) [DecidableRel less]

/-- The scan keeps what it has until it comes to something less. -/
def keepLess (b : Option α) (q : α) : Option α :=
  match b with
  | none => some q
  | some p => if less q p then some q else some p

/-- What a scan of a list finds. -/
def scanLeast (l : List α) : Option α := l.foldl (keepLess less) none

/-- A scan by `less` of lists whose elements stand in the order `comes` finds the first by `le`: what it takes in place of another, and what it keeps against a later one, comes first. -/
structure FirstLeast (comes le : α → α → Prop) : Prop where
  refl : ∀ p, le p p
  trans : ∀ {p q r}, le p q → le q r → le p r
  takes : ∀ {p q}, less q p → le q p
  keeps : ∀ {p q}, comes p q → ¬less q p → le p q

variable {less}

theorem FirstLeast.foldl {comes le : α → α → Prop} (h : FirstLeast less comes le) (l : List α) (p : α) (ordered : (p :: l).Pairwise comes) :
    ∃ m ∈ p :: l, l.foldl (keepLess less) (some p) = some m ∧ ∀ q ∈ p :: l, le m q := by
  induction l generalizing p with
  | nil => exact ⟨p, List.mem_singleton.2 rfl, rfl, fun q hq => List.mem_singleton.1 hq ▸ h.refl p⟩
  | cons q l ih =>
    obtain ⟨before, rest⟩ := List.pairwise_cons.1 ordered
    by_cases taken : less q p
    · obtain ⟨m, mem, found, least⟩ := ih q rest
      refine ⟨m, List.mem_cons_of_mem p mem, ?_, List.forall_mem_cons.2 ⟨h.trans (least q List.mem_cons_self) (h.takes taken), least⟩⟩
      rw [List.foldl_cons, keepLess, if_pos taken, found]
    · obtain ⟨-, beforeTail⟩ := List.forall_mem_cons.1 before
      obtain ⟨m, mem, found, least⟩ := ih p (List.pairwise_cons.2 ⟨beforeTail, (List.pairwise_cons.1 rest).2⟩)
      obtain ⟨first, others⟩ := List.forall_mem_cons.1 least
      refine ⟨m, ?_, ?_, List.forall_mem_cons.2 ⟨first, List.forall_mem_cons.2 ⟨h.trans first (h.keeps (before q List.mem_cons_self) taken), others⟩⟩⟩
      · rcases List.mem_cons.1 mem with same | mem'
        · exact List.mem_cons.2 (.inl same)
        · exact List.mem_cons_of_mem p (List.mem_cons_of_mem q mem')
      · rw [List.foldl_cons, keepLess, if_neg taken, found]

theorem FirstLeast.scan_some {comes le : α → α → Prop} (h : FirstLeast less comes le) {l : List α} (ordered : l.Pairwise comes) {m : α}
    (found : scanLeast less l = some m) : m ∈ l ∧ ∀ q ∈ l, le m q := by
  cases l with
  | nil => exact absurd found.symm (Option.some_ne_none m)
  | cons p l =>
    obtain ⟨m', mem, found', least⟩ := h.foldl l p ordered
    cases Option.some.inj (found.symm.trans found')
    exact ⟨mem, least⟩

theorem foldl_keepLess_some (l : List α) (p : α) : ∃ m, l.foldl (keepLess less) (some p) = some m := by
  refine List.foldlRecOn (motive := fun b => ∃ m, b = some m) l (keepLess less) ⟨p, rfl⟩ fun b hb q _ => ?_
  obtain ⟨m, rfl⟩ := hb
  rw [keepLess]
  split
  · exact ⟨q, rfl⟩
  · exact ⟨m, rfl⟩

theorem scanLeast_none {l : List α} (h : scanLeast less l = none) : l = [] := by
  cases l with
  | nil => rfl
  | cons p l =>
    obtain ⟨m, found⟩ := foldl_keepLess_some (less := less) l p
    exact absurd (found.symm.trans h) (Option.some_ne_none m)

end

/-! ## The best source, R293 -/

/-- The sources that may be selected. -/
def qualifiedSources (s : State) : List Nat := (List.range 18).filter fun i => (s.src i).qualified

theorem mem_qualifiedSources {s : State} {i : Nat} : i ∈ qualifiedSources s ↔ i < 18 ∧ (s.src i).qualified = true := by
  rw [qualifiedSources, List.mem_filter, List.mem_range]

theorem bestSource_congr {s t : State} (h : t.plb.srcs = s.plb.srcs) : bestSource t = bestSource s := by
  have same : t.src = s.src := funext fun i => by rw [State.src, State.src, h]
  rw [bestSource, bestSource, same]

/-- How the selection orders two sources: the lower PRIO comes first, and the lower number on a tie. -/
def Preferred (s : State) (i j : Nat) : Prop := (s.src i).prio.toNat < (s.src j).prio.toNat ∨ ((s.src i).prio = (s.src j).prio ∧ i ≤ j)

/-- Of sources in ascending order the scan that takes a later one for a lower PRIO alone finds the preferred. -/
theorem preferred_firstLeast (s : State) : FirstLeast (fun i j => (s.src i).prio.toNat < (s.src j).prio.toNat) (· < ·) (Preferred s) where
  refl i := .inr ⟨rfl, Nat.le_refl i⟩
  trans {i j k} hij hjk := by
    rcases hij with less | ⟨same, le⟩
    · rcases hjk with less' | ⟨same', -⟩
      · exact .inl (Nat.lt_trans less less')
      · exact .inl (same' ▸ less)
    · rcases hjk with less' | ⟨same', le'⟩
      · exact .inl (same ▸ less')
      · exact .inr ⟨same.trans same', Nat.le_trans le le'⟩
  takes := .inl
  keeps {i j} comes notLess := by
    rcases Nat.lt_or_eq_of_le (Nat.le_of_not_lt notLess) with less | same
    · exact .inl less
    · exact .inr ⟨BitVec.eq_of_toNat_eq same, Nat.le_of_lt comes⟩

theorem bestSource_eq_scan (s : State) : bestSource s = scanLeast (fun i j => (s.src i).prio.toNat < (s.src j).prio.toNat) (qualifiedSources s) := by
  unfold bestSource scanLeast
  refine congrArg (fun f => List.foldl f none (qualifiedSources s)) ?_
  funext b i
  cases b <;> rfl

theorem bestSource_some {s : State} {i : Nat} (h : bestSource s = some i) :
    i < 18 ∧ (s.src i).qualified = true ∧ ∀ j, j < 18 → (s.src j).qualified = true → Preferred s i j := by
  have ascending : (qualifiedSources s).Pairwise (· < ·) := List.Pairwise.filter _ List.pairwise_lt_range
  obtain ⟨mem, best⟩ := (preferred_firstLeast s).scan_some ascending (bestSource_eq_scan s ▸ h)
  obtain ⟨small, qualified⟩ := mem_qualifiedSources.1 mem
  exact ⟨small, qualified, fun j hj hq => best j (mem_qualifiedSources.2 ⟨hj, hq⟩)⟩

theorem bestSource_none {s : State} (h : bestSource s = none) {j : Nat} (hj : j < 18) : (s.src j).qualified = false := by
  have empty : qualifiedSources s = [] := scanLeast_none (bestSource_eq_scan s ▸ h)
  refine eq_false_of_ne_true fun q => ?_
  have mem : j ∈ qualifiedSources s := mem_qualifiedSources.2 ⟨hj, q⟩
  rw [empty] at mem
  exact List.not_mem_nil mem

/-! ## The selection follows the best source, R293 -/

/-- The state with another source selected, or with none: a change to a source is counted. -/
def State.select (s : State) (b : Option Nat) : State :=
  { s with plb := if b.isSome then { s.plb with selected := b, switchCount := bump s.plb.switchCount 1, err := setErr s.plb.err 0 } else { s.plb with selected := b } }

@[simp] theorem State.select_selected (s : State) (b : Option Nat) : (s.select b).plb.selected = b := by cases b <;> rfl
@[simp] theorem State.select_srcs (s : State) (b : Option Nat) : (s.select b).plb.srcs = s.plb.srcs := by cases b <;> rfl

theorem reselect_same {s : State} (h : bestSource s = s.plb.selected) : reselect s = s := if_pos h

theorem reselect_changed {s : State} (h : bestSource s ≠ s.plb.selected) : reselect s = plbSettle (s.select (bestSource s)) := if_neg h

theorem reselect_steered {s : State} (h : bestSource s ≠ s.plb.selected) : Steered (s.select (bestSource s)) (reselect s) :=
  reselect_changed h ▸ plbSettle_steered _

theorem reselect_selected (s : State) : (reselect s).plb.selected = bestSource s := by
  by_cases h : bestSource s = s.plb.selected
  · rw [reselect_same h, h]
  · rw [(reselect_steered h).selected, State.select_selected]

theorem reselect_srcs (s : State) : (reselect s).plb.srcs = s.plb.srcs := by
  by_cases h : bestSource s = s.plb.selected
  · rw [reselect_same h]
  · rw [(reselect_steered h).srcs, State.select_srcs]

theorem reselect_counts {s : State} {i : Nat} (now : (reselect s).plb.selected = some i) (before : s.plb.selected ≠ some i) :
    (reselect s).plb.switchCount = bump s.plb.switchCount 1 := by
  rw [reselect_selected] at now
  have changed : bestSource s ≠ s.plb.selected := fun same => before (same ▸ now)
  rw [(reselect_steered changed).switchCount, now]
  rfl

/-! ## Every source judged afresh, R292 -/

/-- The state once every source has been judged. -/
def requalified (s : State) : State := (List.range 19).foldl qualify s

theorem requalify_steered (s : State) : Steered (reselect (requalified s)) (requalify s) := by
  unfold requalify
  dsimp only
  split
  · exact holdSteer_steered _
  · exact .refl _

theorem requalify_srcs (s : State) : (requalify s).plb.srcs = (requalified s).plb.srcs := (requalify_steered s).srcs.trans (reselect_srcs _)

theorem requalify_src (s : State) (i : Nat) : (requalify s).src i = (requalified s).src i := by rw [State.src, State.src, requalify_srcs]

theorem requalify_selected (s : State) : (requalify s).plb.selected = bestSource (requalify s) := by
  rw [(requalify_steered s).selected, reselect_selected, bestSource_congr (requalify_srcs s)]

/-- Of a source a judgement touches QUALIFIED and the count of good measurements alone. -/
theorem qualify_src (s : State) (k i : Nat) : ∃ q n, (qualify s k).src i = { s.src i with qualified := q, good := n } := by
  by_cases here : i = k
  · subst here
    exact ⟨_, _, State.setSrc_src _ _ _⟩
  · exact ⟨_, _, State.setSrc_src_ne _ _ _ _ here⟩

theorem foldl_qualify_src (l : List Nat) (s : State) (i : Nat) : ∃ q n, (l.foldl qualify s).src i = { s.src i with qualified := q, good := n } := by
  refine List.foldlRecOn (motive := fun t => ∃ q n, t.src i = { s.src i with qualified := q, good := n }) l qualify ⟨_, _, rfl⟩ fun t ht k _ => ?_
  obtain ⟨q, n, kept⟩ := ht
  obtain ⟨q', n', judged⟩ := qualify_src t k i
  exact ⟨q', n', by rw [judged, kept]⟩

/-- A source that no measurement can qualify: it is disabled, or it is a far source that is SUSPENDED. -/
def Src.barred (x : Src) (i : Nat) : Prop := x.en = false ∨ (2 ≤ i ∧ i ≤ 17 ∧ x.suspended = true)

theorem qualify_barred {s : State} {i : Nat} (h : (s.src i).barred i) : ((qualify s i).src i).qualified = false := by
  rw [qualify, State.setSrc_src]
  rcases h with off | ⟨low, high, suspended⟩
  · simp only [off, Bool.false_and]
  · have far : srcCondition s i = false := by
      rw [srcCondition, if_neg (by omega), if_neg (by omega), if_neg (by omega), suspended, Bool.not_true, Bool.and_false]
    rw [far, Bool.and_false, Bool.false_and]

theorem barred_qualify {s : State} {i : Nat} (h : (s.src i).barred i) (k : Nat) : ((qualify s k).src i).barred i := by
  obtain ⟨q, n, kept⟩ := qualify_src s k i
  rw [kept]
  exact h

theorem qualify_unqualified {s : State} {i : Nat} (h : (s.src i).barred i) (k : Nat) (q : i = k ∨ (s.src i).qualified = false) :
    ((qualify s k).src i).qualified = false := by
  by_cases here : i = k
  · subst here
    exact qualify_barred h
  · rw [qualify, State.setSrc_src_ne _ _ _ _ here]
    exact q.resolve_left here

theorem foldl_qualify_barred {i : Nat} (l : List Nat) {s : State} (h : (s.src i).barred i) (q : i ∈ l ∨ (s.src i).qualified = false) :
    ((l.foldl qualify s).src i).qualified = false := by
  induction l generalizing s with
  | nil => exact q.resolve_left List.not_mem_nil
  | cons k l ih =>
    refine ih (barred_qualify h k) ?_
    rcases q with mem | unqualified
    · rcases List.mem_cons.1 mem with here | later
      · exact .inr (qualify_unqualified h k (.inl here))
      · exact .inl later
    · exact .inr (qualify_unqualified h k (.inr unqualified))

theorem requalify_barred {s : State} {i : Nat} (hi : i < 19) (h : (s.src i).barred i) : ((requalify s).src i).qualified = false := by
  rw [requalify_src]
  exact foldl_qualify_barred _ h (.inl (List.mem_range.2 hi))

/-- Settles O36: the best source is the first of least PRIO among the qualified, the selection follows it, and a source that is disabled is not among them. -/
theorem sourceSelection : Obligations.SourceSelection :=
  ⟨fun _ _ => bestSource_some, fun _ h _ => bestSource_none h, requalify_selected, fun _ _ hi off => requalify_barred hi (.inl off), fun _ _ => reselect_counts⟩

/-! ## A step that is asked for while a reset holds the device, R297 -/

/-- A device in reset, RESET_N low, of which a step of time has been asked. -/
def askedInReset : State := { State.reset with plb := { stepAsked := true } }

/-- Refutes O37: its clause on the tick does not ask that the device is up. While a reset holds the device no tick comes, so a step that was asked for still waits. -/
theorem not_timeSteering : ¬ Obligations.TimeSteering := by
  unfold Obligations.TimeSteering
  intro h
  obtain ⟨-, -, -, -, -, tick, -⟩ := h askedInReset rfl
  obtain ⟨taken, -⟩ := tick rfl
  obtain ⟨-, -, -, done, -⟩ := taken (by decide) (.inl (by decide))
  rw [plumbTick_held (by decide)] at done
  exact absurd done (by decide)

end Sys2Proof.Machine

/-! What each source of time tells Plumb (R300 to R308). -/

namespace Sys2Proof.Machine

/-! ## What a judgement of the sources leaves alone, R292 and R293 -/

/-- Plumb but for the sources, the selection and what steering touches. -/
def Plb.unjudged (p : Plb) : Plb := { p.unsteered with srcs := [], selected := none, switchCount := 0 }

/-- From the first state to the second the sources have been judged and Plumb steered at most, and no bit of PLB_ERR has fallen. -/
structure Rejudged (s t : State) : Prop where
  rest : t.plb.unjudged = s.plb.unjudged
  err : ∀ k, s.plb.err.getLsbD k = true → t.plb.err.getLsbD k = true

namespace Rejudged

variable {s t u : State}

theorem refl (s : State) : Rejudged s s := ⟨rfl, fun _ => id⟩

theorem trans (h : Rejudged s t) (h' : Rejudged t u) : Rejudged s u := ⟨h'.rest.trans h.rest, fun k e => h'.err k (h.err k e)⟩

theorem swMode (h : Rejudged s t) : t.plb.swMode = s.plb.swMode := (congrArg Plb.swMode h.rest :)
theorem lastEdge (h : Rejudged s t) : t.plb.lastEdge = s.plb.lastEdge := (congrArg Plb.lastEdge h.rest :)
theorem ppsTod (h : Rejudged s t) : t.plb.ppsTod = s.plb.ppsTod := (congrArg Plb.ppsTod h.rest :)
theorem ppsGood (h : Rejudged s t) : t.plb.ppsGood = s.plb.ppsGood := (congrArg Plb.ppsGood h.rest :)

end Rejudged

theorem Steered.rejudged {s t : State} (h : Steered s t) : Rejudged s t :=
  ⟨congrArg (fun p : Plb => { p with srcs := [], selected := none, switchCount := 0 }) h.rest, h.err⟩

theorem setSrc_rejudged (s : State) (i : Nat) (x : Src) : Rejudged s (s.setSrc i x) := ⟨rfl, fun _ => id⟩

theorem select_rejudged (s : State) : (b : Option Nat) → Rejudged s (s.select b)
  | none => ⟨rfl, fun _ => id⟩
  | some _ => ⟨rfl, fun _ h => setErr_keeps h 0⟩

theorem requalified_rejudged (s : State) : Rejudged s (requalified s) :=
  List.foldlRecOn (motive := Rejudged s) _ qualify (.refl s) fun t h i _ => h.trans (setSrc_rejudged t i _)

theorem reselect_rejudged (s : State) : Rejudged s (reselect s) := by
  by_cases h : bestSource s = s.plb.selected
  · rw [reselect_same h]
    exact .refl s
  · exact (select_rejudged s _).trans (reselect_steered h).rejudged

theorem requalify_rejudged (s : State) : Rejudged s (requalify s) :=
  ((requalified_rejudged s).trans (reselect_rejudged _)).trans (requalify_steered s).rejudged

/-- Of a source the judgement of all touches QUALIFIED and the count of good measurements alone. -/
theorem requalify_src_kept (s : State) (i : Nat) : ∃ q n, (requalify s).src i = { s.src i with qualified := q, good := n } := by
  rw [requalify_src]
  exact foldl_qualify_src _ s i

/-! ## PTP, R300 -/

theorem listLess_cons (a b : Nat) (l m : List Nat) : listLess (a :: l) (b :: m) = true ↔ a < b ∨ (a = b ∧ listLess l m = true) := by
  simp only [listLess, Bool.or_eq_true, Bool.and_eq_true, decide_eq_true_eq]

theorem listLess_asymm : {l m : List Nat} → listLess l m = true → ¬listLess m l = true
  | [], _, h => absurd h Bool.false_ne_true
  | _ :: _, [], h => absurd h Bool.false_ne_true
  | a :: l, b :: m, h => by
    rw [listLess_cons] at h ⊢
    rintro (less | ⟨same, back⟩)
    · omega
    · rcases h with less | ⟨-, forth⟩
      · omega
      · exact listLess_asymm forth back

/-- Between two lists of which one comes before the other no third of their length can come: it stands after the one or before the other. -/
theorem listLess_between : {l m n : List Nat} → l.length = m.length → m.length = n.length → listLess l n = true → listLess l m = true ∨ listLess m n = true
  | [], _, _, _, _, h => absurd h Bool.false_ne_true
  | _ :: _, _, [], _, _, h => absurd h Bool.false_ne_true
  | a :: l, b :: m, c :: n, hlm, hmn, h => by
    simp only [listLess_cons] at h ⊢
    rcases Nat.lt_trichotomy a b with less | same | greater
    · exact .inl (.inl less)
    · subst same
      rcases h with less | ⟨same, rest⟩
      · exact .inr (.inl less)
      · rcases listLess_between (Nat.succ.inj hlm) (Nat.succ.inj hmn) rest with low | high
        · exact .inl (.inr ⟨rfl, low⟩)
        · exact .inr (.inr ⟨same, high⟩)
    · exact .inr (.inl (by omega))

/-- Of masters in any order the scan finds one that no other comes before. -/
theorem announceKey_firstLeast :
    FirstLeast (fun p q => listLess (announceKey p) (announceKey q) = true) (fun _ _ => True) (fun p q => ¬listLess (announceKey q) (announceKey p) = true) where
  refl _ h := listLess_asymm h h
  trans {p q r} hpq hqr h := (listLess_between (l := announceKey r) (m := announceKey q) (n := announceKey p) rfl rfl h).elim hqr hpq
  takes := listLess_asymm
  keeps _ notLess := notLess

theorem bestMaster_eq_scan (l : List (BitVec 64 × AnnounceSet)) :
    bestMaster l = (scanLeast (fun p q => listLess (announceKey p) (announceKey q) = true) l).map (·.1) := by
  unfold bestMaster scanLeast
  refine congrArg (fun f => (List.foldl f none l).map Prod.fst) ?_
  funext b q
  cases b <;> rfl

theorem bestMaster_some {l : List (BitVec 64 × AnnounceSet)} {m : BitVec 64} (h : bestMaster l = some m) :
    ∃ q ∈ l, q.1 = m ∧ ∀ p ∈ l, listLess (announceKey p) (announceKey q) = false := by
  rw [bestMaster_eq_scan, Option.map_eq_some_iff] at h
  obtain ⟨q, best, rfl⟩ := h
  have unordered : l.Pairwise fun _ _ => True := List.pairwise_of_forall fun _ _ => trivial
  obtain ⟨mem, least⟩ := announceKey_firstLeast.scan_some unordered best
  exact ⟨q, mem, rfl, fun p hp => eq_false_of_ne_true (least p hp)⟩

/-- The domain that a PTP message names. -/
def PtpMsg.domain : PtpMsg → Option (BitVec 8)
  | .announce dom _ _ => some dom
  | .syncOneStep dom _ _ _ _ => some dom
  | .syncTwoStep dom _ _ _ _ => some dom
  | .followUp dom _ _ _ _ => some dom
  | .delayResp dom _ _ _ _ => some dom
  | .other => none

/-- The masters heard once one has announced its data set. -/
def announced (s : State) (master : BitVec 64) (set : AnnounceSet) : List (BitVec 64 × AnnounceSet) :=
  (s.plb.foreign.filter fun q => decide (q.1 ≠ master)) ++ (if set.steps.toNat < 255 then [(master, set)] else [])

/-- Plumb with a master chosen anew: the exchange with it begins afresh. -/
def State.withMaster (s : State) (master : Option (BitVec 64)) (l : List (BitVec 64 × AnnounceSet)) : State :=
  { s with plb := { s.plb with foreign := l, master := master, syncDiff := none, pathDelay := none, syncWait := none, delayReq := none } }

theorem ptpMessage_disabled {s : State} (off : (s.src 0).en = false) (m : PtpMsg) : ptpMessage s m = s := if_pos (by rw [off]; rfl)

theorem ptpMessage_otherDomain {s : State} {m : PtpMsg} {dom : BitVec 8} (names : PtpMsg.domain m = some dom) (other : dom.toNat ≠ ptpDomain s) :
    ptpMessage s m = s := by
  have foreign (master : BitVec 64) : (decide (dom.toNat = ptpDomain s) && decide (s.plb.master = some master)) = false := by
    rw [decide_eq_false other, Bool.false_and]
  unfold ptpMessage
  split
  · rfl
  · cases m with
    | announce => cases names; exact if_neg other
    | syncOneStep => cases names; exact if_neg (ne_true_of_eq_false (foreign _))
    | syncTwoStep => cases names; exact if_neg (ne_true_of_eq_false (foreign _))
    | followUp =>
      cases names
      dsimp only
      split
      · exact if_neg fun h => ne_true_of_eq_false (foreign _) h.1
      · rfl
    | delayResp =>
      cases names
      dsimp only
      split
      · exact if_neg fun h => ne_true_of_eq_false (foreign _) h.1
      · rfl
    | other => rfl

section
variable {s : State} (en : (s.src 0).en = true) {dom : BitVec 8} (own : dom.toNat = ptpDomain s)
include en own

theorem ptpMessage_announce (master : BitVec 64) (set : AnnounceSet) : ptpMessage s (.announce dom master set) = ptpAnnounce s master set :=
  (if_neg (by rw [en]; decide)).trans (if_pos own)

variable {master : BitVec 64} (chosen : s.plb.master = some master)
include chosen

theorem ptpMessage_syncOneStep (origin corr rx : FullTime) :
    ptpMessage s (.syncOneStep dom master origin corr rx) = ptpSync s (((rx : Nat) : Int) - ((origin : Nat) : Int) - ((corr : Nat) : Int)) := by
  simp only [ptpMessage, en, own, chosen, Bool.not_true, Bool.false_eq_true, if_false, decide_true, Bool.and_self, if_true]

theorem ptpMessage_delayResp {seq : BitVec 16} {t1 : Nat} {d : Int} (asked : s.plb.delayReq = some (seq, t1)) (synced : s.plb.syncDiff = some d) (receipt corr : FullTime) :
    ptpMessage s (.delayResp dom master seq receipt corr)
      = { s with plb := { s.plb with pathDelay := some ((((receipt : Nat) : Int) - ((corr : Nat) : Int) - ((t1 : Nat) : Int) + d) / 2), delayReq := none } } := by
  simp only [ptpMessage, en, asked, synced, own, chosen, Bool.not_true, Bool.false_eq_true, if_false, decide_true, Bool.and_self, and_self, if_true]

end

theorem ptpAnnounce_newMaster {s : State} {master : BitVec 64} {set : AnnounceSet} (new : bestMaster (announced s master set) ≠ s.plb.master) :
    ptpAnnounce s master set = requalify (s.withMaster (bestMaster (announced s master set)) (announced s master set)) := by
  unfold announced at new ⊢
  rw [ptpAnnounce, if_neg new, State.withMaster]

theorem ptpAnnounce_sameMaster {s : State} {master : BitVec 64} {set : AnnounceSet} (same : bestMaster (announced s master set) = s.plb.master) :
    ptpAnnounce s master set = requalify { s with plb := { s.plb with foreign := announced s master set } } := by
  unfold announced at same ⊢
  rw [ptpAnnounce, if_pos same]

theorem ptpSync_measures {s : State} {d : Int} (h : s.plb.pathDelay = some d) (diff : Int) :
    ptpSync s diff = measure { s with plb := { s.plb with syncDiff := some diff } } 0 ((2 * (d - diff) - (s.src 0).asym.toInt) / 2) d := by
  unfold ptpSync
  simp only [h]
  rfl

/-! ## Far time messages, R301 to R305 -/

/-- Whether the message that a far time message echoes was sent within the last second. -/
def echoKnown (s : State) (i : Nat) (m : TimeMsg) : Bool := (s.src i).sent.any fun p => decide (p.1 = m.echoSeq) && decide (s.plb.run ≤ p.2 + unitSec)

theorem timeMessage_badCrc {m : TimeMsg} (bad : m.crcOk = false) (s : State) (b : Nat) (rx : FullTime) :
    timeMessage s b m rx = requalify (s.setSrc (b + 2) { s.src (b + 2) with crcOk := false }) :=
  if_pos (by rw [bad]; rfl)

section
variable {s : State} {b : Nat} {m : TimeMsg} (good : m.crcOk = true) (version : m.version = 1)
include good version

theorem timeMessage_unknown (unknown : echoKnown s (b + 2) m = false) (rx : FullTime) :
    timeMessage s b m rx = requalify (s.setSrc (b + 2) { s.src (b + 2) with crcOk := true, heardAt := some s.plb.run, lastRx := some (m.tx, rx, m.seq) }) :=
  (if_neg (by rw [good]; decide)).trans ((if_neg (not_not_intro version)).trans (if_pos (by rw [← Bool.not_false, ← unknown]; rfl)))

theorem timeMessage_measures (known : echoKnown s (b + 2) m = true) (used : (s.src (b + 2)).suspended = false) (rx : FullTime) :
    timeMessage s b m rx = measure (s.setSrc (b + 2) { s.src (b + 2) with crcOk := true, heardAt := some s.plb.run, peerLocked := m.locked, peerUses := m.usesYou, peerHops := m.hops, lastRx := some (m.tx, rx, m.seq) }) (b + 2)
      ((((m.echoRx : Nat) : Int) - ((m.echoTx : Nat) : Int) - (((rx : Nat) : Int) - ((m.tx : Nat) : Int)) - (s.src (b + 2)).asym.toInt) / 2)
      ((((rx : Nat) : Int) - ((m.tx : Nat) : Int) + (((m.echoRx : Nat) : Int) - ((m.echoTx : Nat) : Int))) / 2) :=
  (if_neg (by rw [good]; decide)).trans ((if_neg (not_not_intro version)).trans
    ((if_neg (by rw [Bool.not_eq_true, ← Bool.not_true, ← known]; rfl)).trans (if_neg (ne_true_of_eq_false used))))

end

/-! ## Edges of PPS_IN, R306 -/

/-- From the first state to the second the inputs of PPS_IN stay. -/
structure PpsKept (s t : State) : Prop where
  ppsTod : t.plb.ppsTod = s.plb.ppsTod
  ppsGood : t.plb.ppsGood = s.plb.ppsGood

namespace PpsKept

variable {s t u : State}

theorem refl (s : State) : PpsKept s s := ⟨rfl, rfl⟩

theorem trans (h : PpsKept s t) (h' : PpsKept t u) : PpsKept s u := ⟨h'.ppsTod.trans h.ppsTod, h'.ppsGood.trans h.ppsGood⟩

end PpsKept

theorem Rejudged.ppsKept {s t : State} (h : Rejudged s t) : PpsKept s t := ⟨h.ppsTod, h.ppsGood⟩

/-- The state once the filter has taken an accepted measurement. -/
def filtered (s : State) (off : Int) : State :=
  { s with plb := { s.plb with started := true, offset := Config.filteredOffset s.plb.filtK, filtK := s.plb.filtK + 1, within20 := if off.natAbs ≤ 20 * unitNs then s.plb.within20 + 1 else 0 } }

/-- STATE follows the accepted measurements, R294. -/
def stateByOffset (s : State) (within : Nat) (offset : BitVec 64) : State :=
  if s.plb.st = .acquiring ∧ 16 ≤ within then setPlbSt s .locked
  else if s.plb.st = .locked ∧ 100 * unitNs < offset.toInt.natAbs then setPlbSt s .acquiring
  else s

theorem stateByOffset_steered (s : State) (within : Nat) (offset : BitVec 64) : Steered s (stateByOffset s within offset) := by
  unfold stateByOffset
  split
  · exact setPlbSt_steered s .locked
  · split
    · exact setPlbSt_steered s .acquiring
    · exact .refl s

/-- The state once the first measurement of step-then-rate mode has stepped full time, R295. -/
def firstStepped (s : State) (off : Int) : State :=
  let t := stepTime { s with plb := { s.plb with started := true } } off
  { t with plb := { t.plb with offset := 0 } }

theorem acceptSelected_eq (s : State) (off : Int) :
    acceptSelected s off
      = if !s.plb.started ∧ !s.plb.swMode then firstStepped s off
        else if s.plb.swMode then filtered s off
        else stateByOffset (servoInc (filtered s off)) (filtered s off).plb.within20 (filtered s off).plb.offset := rfl

theorem acceptSelected_ppsKept (s : State) (off : Int) : PpsKept s (acceptSelected s off) := by
  have taken : PpsKept s (filtered s off) := ⟨rfl, rfl⟩
  rw [acceptSelected_eq]
  split
  · exact ⟨rfl, rfl⟩
  · split
    · exact taken
    · exact taken.trans ((servoInc_steered _).trans (stateByOffset_steered ..)).rejudged.ppsKept

theorem suspendSrc_ppsKept (s : State) (i : Nat) : PpsKept s (suspendSrc s i) := ⟨rfl, rfl⟩

theorem judge_ppsKept (s : State) (i : Nat) (off delay : Int) : PpsKept s (judge s i off delay) := by
  unfold judge
  dsimp only
  split
  · exact ⟨rfl, rfl⟩
  · split
    · split
      · refine .trans ?_ (acceptSelected_ppsKept _ off)
        exact ⟨rfl, rfl⟩
      · split
        · split
          · refine .trans ?_ (suspendSrc_ppsKept _ i)
            exact ⟨rfl, rfl⟩
          · exact ⟨rfl, rfl⟩
        · exact ⟨rfl, rfl⟩
    · split
      · exact ⟨rfl, rfl⟩
      · exact ⟨rfl, rfl⟩

theorem measure_ppsKept (s : State) (i : Nat) (off delay : Int) : PpsKept s (measure s i off delay) :=
  (judge_ppsKept s i off delay).trans (requalify_rejudged _).ppsKept

theorem measure_selected (s : State) (i : Nat) (off delay : Int) : (measure s i off delay).plb.selected = bestSource (measure s i off delay) := by
  rw [measure, requalify_selected]

/-- The time of an edge at the pin, less the adjustment. -/
def edgeTime (s : State) (t : FullTime) : Int := ((t : Nat) : Int) - s.plb.ppsInAdj.toInt * unitNs

/-- The state once an edge has been noted. -/
def State.withEdge (s : State) (te : Int) (spaced : Bool) : State := { s with plb := { s.plb with lastEdge := some te.toNat, ppsGood := spaced } }

/-- The state once an edge has been accepted. -/
def State.nextTod (s : State) : State := { s with plb := { s.plb with ppsTod := s.plb.ppsTod + 1 } }

@[simp] theorem State.nextTod_ppsTod (s : State) : s.nextTod.plb.ppsTod = s.plb.ppsTod + 1 := rfl
@[simp] theorem State.nextTod_ppsGood (s : State) : s.nextTod.plb.ppsGood = s.plb.ppsGood := rfl
@[simp] theorem State.nextTod_selected (s : State) : s.nextTod.plb.selected = s.plb.selected := rfl
@[simp] theorem bestSource_nextTod (s : State) : bestSource s.nextTod = bestSource s := bestSource_congr rfl

/-- Whether an edge comes 1 s after the one before it. -/
def edgeSpaced (s : State) (te : Int) : Bool :=
  match s.plb.lastEdge with
  | some l => decide ((te - ((l : Nat) : Int) - ((unitSec : Nat) : Int)).natAbs ≤ 1000 * unitNs)
  | none => false

/-- The second that an edge marks: PTP names it, or the host. -/
def edgeSecond (s : State) (te : Int) : Option Int :=
  if (s.src 0).qualified then some ((te + (s.src 0).offset.toInt + ((unitSec / 2 : Nat) : Int)) / ((unitSec : Nat) : Int))
  else if s.plb.ppsTodValid then some ((s.plb.ppsTod.toNat : Nat) : Int) else none

/-- The measurement of an edge that marks second n; the edge is accepted when the source is enabled and the window holds it. -/
def edgeMeasured (s : State) (te n : Int) : State :=
  if (s.src 1).en && inWindow s 1 (n * ((unitSec : Nat) : Int) - te) then (measure s 1 (n * ((unitSec : Nat) : Int) - te) 0).nextTod
  else measure s 1 (n * ((unitSec : Nat) : Int) - te) 0

section
variable {s : State} {t : FullTime}

/-- An edge whose second nobody names is noted alone. -/
theorem ppsInEdge_unnamed (unnamed : edgeSecond s (edgeTime s t) = none) :
    ppsInEdge s t = requalify (s.withEdge (edgeTime s t) (edgeSpaced s (edgeTime s t))) := by
  unfold ppsInEdge
  dsimp only
  split
  · rfl
  · next n named => exact absurd (named.symm.trans unnamed) (Option.some_ne_none n)

/-- An edge that marks a second, 1 s after the edge before it, is measured. -/
theorem ppsInEdge_named {n : Int} (named : edgeSecond s (edgeTime s t) = some n) (spaced : edgeSpaced s (edgeTime s t) = true) :
    ppsInEdge s t = edgeMeasured (s.withEdge (edgeTime s t) (edgeSpaced s (edgeTime s t))) (edgeTime s t) n := by
  unfold ppsInEdge
  dsimp only
  split
  · next unnamed => exact absurd (named.symm.trans unnamed) (Option.some_ne_none n)
  · next k marked =>
    cases Option.some.inj (marked.symm.trans named)
    rw [if_neg (by rw [Bool.not_eq_true, Bool.not_eq_false']; exact Bool.or_eq_true_iff.2 (.inr spaced))]
    unfold edgeMeasured
    -- The two sides hand the same arguments to `measure`, which need not be unfolded.
    generalize measure = f
    rfl

variable (noPtp : (s.src 0).qualified = false)
include noPtp

/-- With no PTP and no second from the host, nobody names the second of an edge. -/
theorem edgeSecond_nobody (noTod : s.plb.ppsTodValid = false) (te : Int) : edgeSecond s te = none := by
  rw [edgeSecond, noPtp, noTod]
  rfl

theorem edgeSecond_host (tod : s.plb.ppsTodValid = true) (te : Int) : edgeSecond s te = some ((s.plb.ppsTod.toNat : Nat) : Int) := by
  rw [edgeSecond, noPtp, tod]
  rfl

end

theorem edgeSpaced_inTime {s : State} {te : Int} {l : Nat} (edge : s.plb.lastEdge = some l)
    (inTime : (te - ((l : Nat) : Int) - ((unitSec : Nat) : Int)).natAbs ≤ 1000 * unitNs) : edgeSpaced s te = true := by
  rw [edgeSpaced, edge]
  exact decide_eq_true inTime

/-- An edge is accepted when its source is enabled and the window holds its measurement, judged with the edge noted or not. -/
theorem edgeMeasured_accepted {s : State} {te n : Int} (en : (s.src 1).en = true) (window : inWindow s 1 (n * ((unitSec : Nat) : Int) - te) = true) (spaced : Bool) :
    edgeMeasured (s.withEdge te spaced) te n = (measure (s.withEdge te spaced) 1 (n * ((unitSec : Nat) : Int) - te) 0).nextTod :=
  if_pos (Bool.and_eq_true_iff.2 ⟨en, window⟩)

/-! ## REF10M_IN, R308 -/

theorem of_refMeets {now : Nat} {l : List (Nat × Int)} (h : refMeets now l = true) :
    (∀ q ∈ l.head?, q.2.natAbs ≤ 50000000) ∧ (∃ p ∈ l, p.1 + 16 * unitSec ≤ now) ∧ ∀ p ∈ l, ∀ q ∈ l, p.2 - q.2 ≤ 1000 := by
  cases l with
  | nil => exact absurd h Bool.false_ne_true
  | cons q l =>
    simp only [refMeets, Bool.and_eq_true, decide_eq_true_eq, List.any_eq_true, List.all_eq_true] at h
    obtain ⟨⟨near, old⟩, steady⟩ := h
    exact ⟨fun p hp => Option.some.inj hp ▸ near, old, steady⟩

/-- Plumb with other measurements of REF10M_IN. -/
def State.withRates (s : State) (l : List (Nat × Int)) (good : Bool) : State := { s with plb := { s.plb with refHist := l, refGood := good } }

theorem State.withRates_swMode (s : State) (l : List (Nat × Int)) (good : Bool) : (s.withRates l good).plb.swMode = s.plb.swMode := rfl

/-- The newest measured rates of REF10M_IN once another has come. -/
def ratesWith (s : State) (rate : BitVec 32) : List (Nat × Int) := refWindow s.plb.run ((s.plb.run, rate.toInt) :: s.plb.refHist)

/-- The state once a rate of REF10M_IN has been noted, the sources yet to be judged. -/
def refNoted (s : State) (rate : BitVec 32) : State := s.withRates (ratesWith s rate) (refMeets s.plb.run (ratesWith s rate))

/-- Steering by REF10M_IN after a measurement: INC follows it while HOLDOVER holds by source 18, as it did before, R298. -/
def steerByRef (before s : State) : State := if before.plb.freqHold && s.plb.freqHold && !s.plb.swMode then holdSteer s else s

theorem ref10mInMeasure_eq (s : State) (rate : BitVec 32) : ref10mInMeasure s rate = steerByRef s (requalify (refNoted s rate)) := by
  unfold ref10mInMeasure steerByRef refNoted State.withRates ratesWith
  dsimp only

theorem requalify_refNoted_swMode (s : State) (rate : BitVec 32) : (requalify (refNoted s rate)).plb.swMode = s.plb.swMode :=
  (requalify_rejudged _).swMode.trans (State.withRates_swMode ..)

theorem steerByRef_sameMode {before s : State} (mode : s.plb.swMode = before.plb.swMode) :
    steerByRef before s = if before.plb.freqHold = true ∧ s.plb.freqHold = true ∧ before.plb.swMode = false then holdSteer s else s := by
  rw [steerByRef, mode]
  simp only [Bool.and_eq_true, Bool.not_eq_true', and_assoc]

/-! ## Asymmetry and calibration, R304 and R305 -/

theorem suspendSrc_src (s : State) (i : Nat) :
    (suspendSrc s i).src i = { s.src i with suspended := true, calibrating := false, asymValid := false, qualified := false, good := 0, outliers := 0, calSum := 0, calCount := 0 } :=
  State.setSrc_src s i _

/-- A far source that has been suspended is judged so: nothing of what the suspension set comes back, and it is not selected. -/
theorem suspend_far {s : State} {i : Nat} {asym : BitVec 48} (given : (s.src i).asym = asym) (low : 2 ≤ i) (high : i ≤ 17) :
    ((suspend s i).src i).asym = asym ∧ ((suspend s i).src i).asymValid = false ∧ ((suspend s i).src i).suspended = true
      ∧ ((suspend s i).src i).qualified = false ∧ (suspend s i).plb.selected ≠ some i := by
  rw [suspend]
  have barred : ((suspendSrc s i).src i).barred i := .inr ⟨low, high, by rw [suspendSrc_src]⟩
  have unqualified : ((requalify (suspendSrc s i)).src i).qualified = false := requalify_barred (by omega) barred
  have unselected : (requalify (suspendSrc s i)).plb.selected ≠ some i := by
    rw [requalify_selected]
    intro best
    obtain ⟨-, qualified, -⟩ := bestSource_some best
    exact Bool.false_ne_true (unqualified.symm.trans qualified)
  obtain ⟨q, n, kept⟩ := requalify_src_kept (suspendSrc s i) i
  rw [suspendSrc_src] at kept
  rw [kept] at unqualified ⊢
  exact ⟨given, rfl, rfl, unqualified, unselected⟩

theorem asymWrite_withdrawn {s : State} {i : Nat} (low : 2 ≤ i) (high : i ≤ 17) (asym : BitVec 48) :
    asymWrite s i false asym = suspend (s.setSrc i { s.src i with asym := asym, asymValid := false }) i :=
  if_pos (by simp [low, high])

theorem asymWrite_given (s : State) (i : Nat) (asym : BitVec 48) :
    asymWrite s i true asym = requalify (s.setSrc i { s.src i with asym := asym, asymValid := true, suspended := false, calibrating := false, calSum := 0, calCount := 0 }) :=
  if_neg (by simp)

/-- The mean of a calibration's measurements. -/
def calMean (x : Src) : Int := x.calSum / ((x.calCount : Nat) : Int)

/-- A source whose calibration has given its asymmetry. -/
def Src.calibrated (x : Src) : Src :=
  { x with asym := BitVec.ofInt 48 (calMean x), asymValid := true, suspended := false, calibrating := false, good := min 16 x.calCount, calSum := 0, calCount := 0 }

/-- The state once a calibration has given its asymmetry, the sources yet to be judged. -/
def calibrated (s : State) (i : Nat) : State :=
  let t := s.setSrc i (s.src i).calibrated
  { t with plb := { t.plb with err := setErr t.plb.err 3 } }

theorem calibrated_src (s : State) (i : Nat) : (calibrated s i).src i = (s.src i).calibrated := State.setSrc_src s i _

theorem calibrationDone_calibrates {s : State} {i : Nat} (running : (s.src i).calibrating = true) (counted : 0 < (s.src i).calCount) :
    calibrationDone s i = requalify (calibrated s i) :=
  if_pos ⟨running, counted⟩

theorem calibrationDone_idle {s : State} {i : Nat} (idle : (s.src i).calibrating = false) : calibrationDone s i = s :=
  if_neg fun h => ne_true_of_eq_false idle h.1

/-- Settles O38: the meaning of each command in its cases, and of each what the judgement of the sources leaves. -/
theorem timeSources : Obligations.TimeSources := by
  unfold Obligations.TimeSources
  intro s live
  have answers {t u : State} : t = u → act s t = .next u := act_eq_next live
  refine ⟨answers rfl, ?announce, fun l m => bestMaster_some, ?foreign, ?sync, ?delayResp, fun off m => answers (ptpMessage_disabled off m), ?delayReq,
    fun b m rx bad => answers (timeMessage_badCrc bad s b.val rx), ?known, ?unknown, ?accepted, ?unnamed, answers rfl, ?ref10m, fun now l => of_refMeets,
    ?withdrawn, fun i asym => answers (asymWrite_given s i.val asym), ?calibrated, fun i idle => answers (calibrationDone_idle idle)⟩
  case announce =>
    intro dom master set en own
    have taken := ptpMessage_announce en own master set
    exact ⟨fun new => answers (taken.trans (ptpAnnounce_newMaster new)), fun same => answers (taken.trans (ptpAnnounce_sameMaster same))⟩
  case foreign =>
    intro dom master set origin corr rx seq other
    have ignored {m : PtpMsg} (names : PtpMsg.domain m = some dom) : exec (.ptpMessage m) s = .next s := answers (ptpMessage_otherDomain names other)
    exact ⟨ignored rfl, ignored rfl, ignored rfl, ignored rfl, ignored rfl⟩
  case sync =>
    intro dom master origin corr rx d en own chosen delay
    exact answers ((ptpMessage_syncOneStep en own chosen origin corr rx).trans (ptpSync_measures delay _))
  case delayResp =>
    intro dom master seq receipt corr t1 d en own chosen asked synced
    exact answers (ptpMessage_delayResp en own chosen asked synced receipt corr)
  case delayReq => exact fun departure en chosen => answers (if_pos ⟨en, chosen⟩)
  case known => exact fun b m rx good version used known => answers (timeMessage_measures good version known used rx)
  case unknown => exact fun b m rx good version unknown => answers (timeMessage_unknown good version unknown rx)
  case accepted =>
    intro t l noPtp tod edge te inTime en window
    refine .of_act live rfl ?_
    have spaced : edgeSpaced s (edgeTime s t) = true := edgeSpaced_inTime edge inTime
    rw [ppsInEdge_named (edgeSecond_host noPtp tod _) spaced, edgeMeasured_accepted (te := edgeTime s t) en window, spaced]
    have kept := measure_ppsKept (s.withEdge (edgeTime s t) true) 1 (((s.plb.ppsTod.toNat : Nat) : Int) * ((unitSec : Nat) : Int) - edgeTime s t) 0
    rw [State.nextTod_ppsTod, State.nextTod_ppsGood, State.nextTod_selected, bestSource_nextTod, kept.ppsTod, kept.ppsGood, measure_selected]
    exact ⟨rfl, rfl, rfl⟩
  case unnamed =>
    intro t noPtp noTod
    refine .of_act live rfl ?_
    rw [ppsInEdge_unnamed (edgeSecond_nobody noPtp noTod _)]
    have kept := requalify_rejudged (s.withEdge (edgeTime s t) (edgeSpaced s (edgeTime s t)))
    exact ⟨kept.lastEdge, kept.ppsTod, requalify_selected _⟩
  case ref10m =>
    intro rate
    have steers := (ref10mInMeasure_eq s rate).trans (steerByRef_sameMode (requalify_refNoted_swMode s rate))
    unfold refNoted State.withRates ratesWith at steers
    dsimp only at steers ⊢
    generalize requalify _ = u at steers ⊢
    exact answers steers
  case withdrawn =>
    intro i asym low high
    refine .of_act live rfl ?_
    rw [asymWrite_withdrawn low high]
    exact suspend_far (by rw [State.setSrc_src]) low high
  case calibrated =>
    intro i running counted
    refine .of_act live rfl ?_
    rw [calibrationDone_calibrates running counted]
    obtain ⟨q, n, kept⟩ := requalify_src_kept (calibrated s i.val) i.val
    have noted : (requalify (calibrated s i.val)).plb.err.getLsbD 3 = true :=
      (requalify_rejudged _).err 3 (by rw [calibrated, setErr_getLsbD _ _ _ (by decide), decide_eq_true rfl, Bool.or_true])
    rw [kept, calibrated_src]
    exact ⟨rfl, rfl, rfl, rfl, noted⟩

end Sys2Proof.Machine

/-! Tiles in the stacks: what a write stores, what a read answers, and what each leaves alone (R325, R326, R328, R330). -/

namespace Sys2Proof.Machine

/-! ## Readings of the ledger and the stacks -/

theorem LedgerOnly.hbm {s t : State} (h : LedgerOnly s t) : t.hbm = s.hbm := by
  obtain ⟨g, rfl⟩ := h
  rfl

theorem LedgerOnly.stack {s t : State} (h : LedgerOnly s t) (k : Nat) : t.stack k = s.stack k := by
  obtain ⟨g, rfl⟩ := h
  rfl

theorem journal_ledgerOnly (s : State) (type : Nat) (part : BitVec 16) (body : List Byte) : LedgerOnly s (journal s type part body) := by
  unfold journal
  dsimp only
  split
  · exact ⟨_, rfl⟩
  · exact ⟨_, rfl⟩

/-! ## The place of a tile -/

theorem tileBase_div (dha : Nat) : dha / 4096 * 4096 / 4096 = dha / 4096 := Nat.mul_div_cancel _ (by decide)

/-- A tile has one tag, by whichever of its bytes it is named. -/
theorem State.htag_base (s : State) (dha : Nat) : s.htag (dha / 4096 * 4096) = s.htag dha := by
  rw [State.htag, tileBase_div, State.htag]

/-- Bursts of a tile that a write of `len` bytes stores, R326. -/
def tileBursts (kind : BitVec 2) (len : Nat) : Nat := if kind = 2 then usedBursts len else 128

/-- What a write stores of a tile: its bytes, with zeros to the last burst. -/
def tileBody (kind : BitVec 2) (bs : List Byte) : List Byte := padTo 0 (32 * tileBursts kind bs.length) bs

/-- The tag that a write gives a tile, R325. -/
def tileTag (kind : BitVec 2) (bs : List Byte) : HTag :=
  ⟨crc32c (tileBody kind bs), if tileBursts kind bs.length = 128 then 0 else BitVec.ofNat 8 (tileBursts kind bs.length), kind⟩

section
variable {kind : BitVec 2} {bs : List Byte} (fits : bs.length ≤ 4096)
include fits

theorem usedBursts_bounds : 8 ≤ usedBursts bs.length ∧ usedBursts bs.length ≤ 128 ∧ bs.length ≤ 32 * usedBursts bs.length := by
  unfold usedBursts ceilDiv
  omega

theorem tileBursts_bounds : 8 ≤ tileBursts kind bs.length ∧ tileBursts kind bs.length ≤ 128 ∧ bs.length ≤ 32 * tileBursts kind bs.length := by
  unfold tileBursts
  split
  · exact usedBursts_bounds fits
  · omega

theorem tileBody_length : (tileBody kind bs).length = 32 * tileBursts kind bs.length := by
  obtain ⟨-, -, holds⟩ := tileBursts_bounds (kind := kind) fits
  rw [tileBody, padTo, List.length_append, List.length_take, List.length_replicate]
  omega

/-- The tag tells a read how many bursts were written. -/
theorem tileTag_bursts : (tileTag kind bs).bursts = tileBursts kind bs.length := by
  obtain ⟨low, high, -⟩ := tileBursts_bounds (kind := kind) fits
  generalize n_eq : tileBursts kind bs.length = n at low high
  rw [HTag.bursts, tileTag, n_eq]
  dsimp only
  by_cases full : n = 128
  · rw [if_pos full, if_pos rfl, full]
  · have value : (BitVec.ofNat 8 n).toNat = n := Nat.mod_eq_of_lt (by omega)
    have part : BitVec.ofNat 8 n ≠ 0 := fun zero => by
      rw [zero] at value
      exact absurd value (by simp; omega)
    rw [if_neg full, if_neg part, value]

theorem writeTile_eq (s : State) (dha : Nat) : writeTile s dha kind bs = { s with hbm :=
    { clearFaults s.hbm (dha / 4096 * 4096) (tileBursts kind bs.length) with
      bytes := Mem.write s.hbm.bytes (dha / 4096 * 4096) (tileBody kind bs), tags := Tab.put initTag s.hbm.tags (dha / 4096) (tileTag kind bs) } } := by
  have room : min 128 (usedBursts bs.length) = usedBursts bs.length := Nat.min_eq_right (usedBursts_bounds fits).2.1
  unfold writeTile
  dsimp only
  rw [room, tileBase_div]
  rfl

theorem writeTile_htag (s : State) (dha : Nat) : (writeTile s dha kind bs).htag dha = tileTag kind bs := by
  rw [writeTile_eq fits]
  exact Tab.get_put ..

theorem writeTile_htag_ne (s : State) {dha d : Nat} (other : d / 4096 ≠ dha / 4096) : (writeTile s dha kind bs).htag d = s.htag d := by
  rw [writeTile_eq fits]
  exact Tab.get_put_ne _ _ _ _ _ _ other

theorem writeTile_bytes (s : State) (dha : Nat) : (writeTile s dha kind bs).hbm.bytes = Mem.write s.hbm.bytes (dha / 4096 * 4096) (tileBody kind bs) := by
  rw [writeTile_eq fits]

theorem writeTile_get_ne (s : State) {dha a : Nat} (other : a / 4096 ≠ dha / 4096) : Mem.get (writeTile s dha kind bs).hbm.bytes a = Mem.get s.hbm.bytes a := by
  obtain ⟨-, high, -⟩ := tileBursts_bounds (kind := kind) fits
  rw [writeTile_bytes fits, Mem.get_write, tileBody_length fits, if_neg (by omega)]

theorem writeTile_frame (s : State) (dha : Nat) : { writeTile s dha kind bs with hbm := s.hbm } = s := by
  rw [writeTile_eq fits]

/-- A write ends the faults of the bursts that it stores. -/
theorem writeTile_sound (s : State) (dha : Nat) {b : Nat} (faulty : b ∈ (writeTile s dha kind bs).hbm.hard) :
    b < dha / 4096 * 128 ∨ dha / 4096 * 128 + tileBursts kind bs.length ≤ b := by
  rw [writeTile_eq fits] at faulty
  have kept := (List.mem_filter.mp faulty).2
  simp only [Bool.or_eq_true, decide_eq_true_eq] at kept
  omega

end

/-! ## What the controller makes of the bursts that are read, R329 and R330 -/

/-- The bursts of a list that lie among the first `n` of a tile. -/
def burstsRead (dha n : Nat) (l : List Nat) : List Nat := l.filter fun b => decide (dha / 4096 * 128 ≤ b) && decide (b < dha / 4096 * 128 + n)

theorem mem_burstsRead {dha n b : Nat} {l : List Nat} : b ∈ burstsRead dha n l ↔ b ∈ l ∧ dha / 4096 * 128 ≤ b ∧ b < dha / 4096 * 128 + n := by
  rw [burstsRead, List.mem_filter, Bool.and_eq_true, decide_eq_true_eq, decide_eq_true_eq]

theorem readBursts_failed (s : State) (dha n : Nat) : (readBursts s dha n).1 = !(burstsRead dha n s.hbm.hard).isEmpty := rfl

/-- A read changes no byte of a stack. -/
theorem readBursts_bytes (s : State) (dha n : Nat) : (readBursts s dha n).2.hbm.bytes = s.hbm.bytes := by
  unfold readBursts
  dsimp only
  split
  · rfl
  · rw [(journal_ledgerOnly ..).hbm]
    rfl

/-- An uncorrectable burst that is read is recorded, R330 and R353. -/
theorem readBursts_records {s : State} {dha n : Nat} (bad : burstsRead dha n s.hbm.hard ≠ []) :
    ((readBursts s dha n).2.stack (stackOf dha)).err.getLsbD 1 = true ∧ ((readBursts s dha n).2.stack (stackOf dha)).ueAddr.isSome := by
  obtain ⟨b, rest, hard⟩ := List.exists_cons_of_ne_nil bad
  unfold burstsRead at hard
  unfold readBursts
  dsimp only
  rw [hard]
  dsimp only
  rw [(journal_ledgerOnly ..).stack, State.setStack_stack]
  refine ⟨?_, ?_⟩
  · rw [setErr_getLsbD _ _ _ (by decide), decide_eq_true rfl, Bool.or_true]
  · dsimp only
    split
    · rfl
    · rfl

/-! ## Reading a tile, R328 -/

theorem readTile_eq (s : State) (dha : Nat) : readTile s dha =
    let n := (s.htag dha).bursts
    let u := (readBursts s (dha / 4096 * 4096) n).2
    let bs := Mem.read s.hbm.bytes (dha / 4096 * 4096) (32 * n)
    (!(readBursts s (dha / 4096 * 4096) n).1 && (decide ((s.htag dha).kind = 3) || decide (crc32c bs = (s.htag dha).crc)), bs, u) := by
  unfold readTile
  dsimp only
  rw [State.htag_base, readBursts_bytes]

theorem readTile_bytes (s : State) (dha : Nat) : (readTile s dha).2.2.hbm.bytes = s.hbm.bytes := by
  rw [readTile_eq]
  exact readBursts_bytes ..

/-- A tile that is written reads back as it was stored, and passes its check. -/
theorem readTile_writeTile {s : State} {bs : List Byte} (dha : Nat) (kind : BitVec 2) (wf : Mem.wf s.hbm.bytes = true) (fits : bs.length ≤ 4096) :
    (readTile (writeTile s dha kind bs) dha).1 = true ∧ (readTile (writeTile s dha kind bs) dha).2.1 = tileBody kind bs := by
  have sound : burstsRead (dha / 4096 * 4096) (tileBursts kind bs.length) (writeTile s dha kind bs).hbm.hard = [] := by
    refine List.eq_nil_iff_forall_not_mem.mpr fun b read => ?_
    obtain ⟨faulty, low, high⟩ := mem_burstsRead.mp read
    rw [tileBase_div] at low high
    have := writeTile_sound fits s dha faulty
    omega
  have stored : Mem.read (writeTile s dha kind bs).hbm.bytes (dha / 4096 * 4096) (32 * tileBursts kind bs.length) = tileBody kind bs := by
    rw [writeTile_bytes fits, ← tileBody_length fits]
    exact Mem.read_write _ _ _ wf
  rw [readTile_eq, writeTile_htag fits, tileTag_bursts fits]
  dsimp only
  rw [readBursts_failed, sound, stored]
  exact ⟨by simp [tileTag], rfl⟩

/-- A read that meets an uncorrectable burst fails, and is recorded. -/
theorem readTile_uncorrectable {s : State} {dha b : Nat} (faulty : b ∈ s.hbm.hard) (low : dha / 4096 * 128 ≤ b) (high : b < dha / 4096 * 128 + (s.htag dha).bursts) :
    (readTile s dha).1 = false ∧ ((readTile s dha).2.2.stack (stackOf (dha / 4096 * 4096))).err.getLsbD 1 = true
      ∧ ((readTile s dha).2.2.stack (stackOf (dha / 4096 * 4096))).ueAddr.isSome := by
  have read : b ∈ burstsRead (dha / 4096 * 4096) (s.htag dha).bursts s.hbm.hard := mem_burstsRead.mpr ⟨faulty, by rwa [tileBase_div], by rwa [tileBase_div]⟩
  have bad := List.ne_nil_of_mem read
  rw [readTile_eq]
  refine ⟨?_, readBursts_records bad⟩
  dsimp only
  rw [readBursts_failed, List.isEmpty_eq_false_iff.mpr bad]
  rfl

/-- Settles O39: the stored bytes and the tag are read back by what the write stores of them, and a faulty burst by what the controller records. -/
theorem tileStore : Obligations.TileStore := by
  unfold Obligations.TileStore
  intro s dha kind bs wf fits _
  obtain ⟨passes, back⟩ := readTile_writeTile dha kind wf fits
  refine ⟨passes, back, fun a other => writeTile_get_ne fits s other, fun d other => writeTile_htag_ne fits s other, ?_, ?_, writeTile_frame fits s dha, ?_⟩
  · rw [writeTile_htag fits, tileTag]
  · rw [writeTile_bytes fits]
    exact Mem.wf_write _ _ _ wf
  · intro b faulty low high
    obtain ⟨fails, counted, recorded⟩ := readTile_uncorrectable faulty low high
    exact ⟨fails, readTile_bytes s dha, counted, recorded⟩

end Sys2Proof.Machine

/-! The events of a stack's controller: refresh holds, write-backs, training, initialisation and the loss of a stack (R329, R332, R333, R351, R353, R572). -/

namespace Sys2Proof.Machine

/-! ## Entries that a filter of an array takes out -/

theorem Tab.get_filter_out {α : Type} (d : α) (t : Tab α) {k : Nat} {f : Nat → Bool} (out : f k = false) : Tab.get d (t.filter fun p => f p.1) k = d := by
  refine Tab.get_absent d _ k fun p kept at_k => ?_
  have stays := (List.mem_filter.mp kept).2
  rw [at_k, out] at stays
  exact Bool.false_ne_true stays

/-! ## Refresh holds and write-backs, R329 and R333 -/

section
variable {s : State} {k : Nat}

theorem hbmRefresh_held (held : (s.stack k).st ≠ 2 ∨ s.pwr.level ≠ 0) (patrol : Option (Fin 6291456 × List BurstUpset)) (passDone : Bool) :
    hbmRefresh s k patrol passDone = s := if_pos held

theorem hbmRefresh_plain (ready : (s.stack k).st = 2) (level : s.pwr.level = 0) : hbmRefresh s k none false = s := by
  unfold hbmRefresh
  rw [if_neg (by simp [ready, level]), if_neg (by decide)]

theorem hbmRefresh_pass (ready : (s.stack k).st = 2) (level : s.pwr.level = 0) :
    hbmRefresh s k none true = s.setStack k { s.stack k with patrol := bump (s.stack k).patrol 1 } := by
  unfold hbmRefresh
  rw [if_neg (by simp [ready, level]), if_pos rfl]

theorem hbmRefresh_patrol (ready : (s.stack k).st = 2) (level : s.pwr.level = 0) (t : Fin 6291456) (ups : List BurstUpset) :
    hbmRefresh s k (some (t, ups)) false = patrolRead s k t.val ups := by
  unfold hbmRefresh
  rw [if_neg (by simp [ready, level]), if_neg (by decide)]

theorem ceWriteback_served {dha : Nat} (own : stackOf dha = k) (ready : (s.stack k).st = 2) (waits : s.hbm.writeback.contains (dha / 32) = true) :
    ceWriteback s k dha = { s with hbm := { s.hbm with
      writeback := s.hbm.writeback.filter (· ≠ dha / 32), soft := if s.hbm.hard.contains (dha / 32) then s.hbm.soft else s.hbm.soft.filter (· ≠ dha / 32) } } := if_pos ⟨own, ready, waits⟩

theorem ceWriteback_ignored {dha : Nat} (unfit : stackOf dha ≠ k ∨ (s.stack k).st ≠ 2 ∨ s.hbm.writeback.contains (dha / 32) = false) : ceWriteback s k dha = s := by
  refine if_neg fun ⟨own, ready, waits⟩ => ?_
  rcases unfit with other | unready | absent
  · exact other own
  · exact unready ready
  · exact Bool.false_ne_true (absent.symm.trans waits)

end

/-! ## The record of a part, R564, R565 and R572 -/

theorem partId_stack (k : Fin 32) : (partId 2 k.val).toNat = 2 * 4096 + k.val := by
  rw [partId, BitVec.toNat_ofNat]
  omega

/-- A journal entry of a part changes LAST_SEQ of its record and no more. -/
theorem journal_part (s : State) (type : Nat) (part : BitVec 16) (body : List Byte) :
    ∃ q, (journal s type part body).part part.toNat = { s.part part.toNat with lastSeq := q } := by
  unfold journal
  dsimp only
  split
  · exact ⟨(s.part part.toNat).lastSeq, rfl⟩
  · exact ⟨_, State.setPart_part ..⟩

theorem setPartSt_part (s : State) (part : BitVec 16) (st : Nat) :
    ((setPartSt s part st).part part.toNat).st = BitVec.ofNat 8 st ∧ ((setPartSt s part st).part part.toNat).defect = (s.part part.toNat).defect := by
  unfold setPartSt
  dsimp only
  split
  case isTrue same => exact ⟨by rw [← same, BitVec.ofNat_toNat, BitVec.setWidth_eq], rfl⟩
  case isFalse => rw [State.setPart_part]; exact ⟨rfl, rfl⟩

/-- STATE_HARD of a part is counted, R572. -/
def State.hardCounted (s : State) : State := { s with sng := { s.sng with hardCount := bump s.sng.hardCount 1, err := setErr s.sng.err 1 } }

theorem State.hardCounted_part (s : State) (p : Nat) : s.hardCounted.part p = s.part p := rfl

/-- A part's record with the cause of its STATE_HARD; a return to STATE 0 keeps the one it has. -/
def Summary.hardCause (p : Summary) (cause st : Nat) : Summary := { p with cause := if st = 0 then p.cause else BitVec.ofNat 8 cause }

theorem stateHard_changes {s : State} {part : BitVec 16} {st : Nat} (changes : (s.part part.toNat).st.toNat ≠ st) (cause : Nat) : stateHard s part cause st =
    journal ((setPartSt s part st).setPart part.toNat (((setPartSt s part st).part part.toNat).hardCause cause st)).hardCounted 0x09 part [BitVec.ofNat 8 cause, BitVec.ofNat 8 st] :=
  if_neg changes

theorem stateHard_same {s : State} {part : BitVec 16} {st : Nat} (same : (s.part part.toNat).st.toNat = st) (cause : Nat) : stateHard s part cause st = s :=
  if_pos same

/-- After STATE_HARD the part is in the STATE that it names; its declarations stay counted. -/
theorem stateHard_part (s : State) (part : BitVec 16) (cause st : Nat) :
    ((stateHard s part cause st).part part.toNat).st = BitVec.ofNat 8 st ∧ ((stateHard s part cause st).part part.toNat).defect = (s.part part.toNat).defect := by
  by_cases same : (s.part part.toNat).st.toNat = st
  · rw [stateHard_same same]
    exact ⟨by rw [← same, BitVec.ofNat_toNat, BitVec.setWidth_eq], rfl⟩
  · obtain ⟨q, entry⟩ := journal_part ((setPartSt s part st).setPart part.toNat (((setPartSt s part st).part part.toNat).hardCause cause st)).hardCounted
      0x09 part [BitVec.ofNat 8 cause, BitVec.ofNat 8 st]
    rw [stateHard_changes same, entry, State.hardCounted_part, State.setPart_part]
    exact setPartSt_part s part st

theorem setPartSt_ledgerOnly (s : State) (part : BitVec 16) (st : Nat) : LedgerOnly s (setPartSt s part st) := by
  unfold setPartSt
  dsimp only
  split
  · exact .refl s
  · exact setPart_ledgerOnly ..

theorem State.hardCounted_ledgerOnly (s : State) : LedgerOnly s s.hardCounted := ⟨_, rfl⟩

theorem stateHard_ledgerOnly (s : State) (part : BitVec 16) (cause st : Nat) : LedgerOnly s (stateHard s part cause st) := by
  by_cases same : (s.part part.toNat).st.toNat = st
  · rw [stateHard_same same]
    exact .refl s
  · rw [stateHard_changes same]
    exact (((setPartSt_ledgerOnly ..).trans (setPart_ledgerOnly ..)).trans (State.hardCounted_ledgerOnly _)).trans (journal_ledgerOnly ..)

theorem stateMended_ledgerOnly (s : State) (part : BitVec 16) (cause : Nat) : LedgerOnly s (stateMended s part cause) := by
  unfold stateMended
  split
  · exact stateHard_ledgerOnly ..
  · exact .refl s

theorem partMargin_part (s : State) (part : BitVec 16) (m : Int) : ((partMargin s part m).part part.toNat).margin = BitVec.ofInt 16 (clampInt (-32768) 32766 m) := by
  unfold partMargin
  dsimp only
  rw [State.setPart_part]

theorem partRetrain_part (s : State) (part : BitVec 16) (n : Nat) : ((partRetrain s part n).part part.toNat).margin = (s.part part.toNat).margin := by
  unfold partRetrain
  dsimp only
  rw [State.setPart_part]

theorem partMargin_ledgerOnly (s : State) (part : BitVec 16) (m : Int) : LedgerOnly s (partMargin s part m) := setPart_ledgerOnly ..
theorem partRetrain_ledgerOnly (s : State) (part : BitVec 16) (n : Nat) : LedgerOnly s (partRetrain s part n) := setPart_ledgerOnly ..
theorem countDefect_ledgerOnly (s : State) (part : BitVec 16) : LedgerOnly s (countDefect s part) := setPart_ledgerOnly ..

theorem countDefect_part (s : State) (part : BitVec 16) : ((countDefect s part).part part.toNat).defect = bump (s.part part.toNat).defect 1 := by
  unfold countDefect
  dsimp only
  rw [State.setPart_part]

/-! ## A stack fails, R353 and R572 -/

@[simp] theorem setHbmReady_stack (s : State) (k j : Nat) (b : Bool) : (setHbmReady s k b).stack j = s.stack j := rfl
theorem setHbmReady_top (s : State) (k : Fin 32) (b : Bool) : (setHbmReady s k.val b).top.hbm.getLsbD k.val = b := putBit_self _ _ _ k.isLt

theorem LedgerOnly.top {s t : State} (h : LedgerOnly s t) : t.top = s.top := by
  obtain ⟨g, rfl⟩ := h
  rfl

/-- A stack that has failed, but for what the ledger says of it. -/
def stackDown (s : State) (k : Nat) : State := setHbmReady (s.setStack k { s.stack k with st := 3, err := setErr (s.stack k).err 4 }) k false

theorem stackDown_part (s : State) (k p : Nat) : (stackDown s k).part p = s.part p := rfl

theorem stackFailed_eq (s : State) (k : Nat) : stackFailed s k = stateHard (countDefect (stackDown s k) (partId 2 k)) (partId 2 k) 4 4 := rfl

theorem stackFailed_ledgerOnly (s : State) (k : Nat) : LedgerOnly (stackDown s k) (stackFailed s k) :=
  (countDefect_ledgerOnly ..).trans (stateHard_ledgerOnly ..)

theorem stackFailed_stack (s : State) (k : Nat) : (stackFailed s k).stack k = { s.stack k with st := 3, err := setErr (s.stack k).err 4 } := by
  rw [(stackFailed_ledgerOnly s k).stack, stackDown, setHbmReady_stack, State.setStack_stack]

theorem stackFailed_top (s : State) (k : Fin 32) : (stackFailed s k.val).top.hbm.getLsbD k.val = false := by
  rw [(stackFailed_ledgerOnly s k.val).top, stackDown, setHbmReady_top]

/-- The ledger takes a failed stack for OUT and counts its defect. -/
theorem stackFailed_part (s : State) (k : Fin 32) : ((stackFailed s k.val).part (2 * 4096 + k.val)).st = 4
    ∧ ((stackFailed s k.val).part (2 * 4096 + k.val)).defect = bump (s.part (2 * 4096 + k.val)).defect 1 := by
  obtain ⟨out, kept⟩ := stateHard_part (countDefect (stackDown s k.val) (partId 2 k.val)) (partId 2 k.val) 4 4
  rw [countDefect_part, stackDown_part] at kept
  rw [stackFailed_eq, ← partId_stack]
  exact ⟨out, kept⟩

/-! ## Training, R332 and R608 -/

/-- A stack that has trained with this eye margin. -/
def Stack.trained (x : Stack) (margin : BitVec 16) : Stack := { x with st := 1, margin := some margin, trainings := x.trainings + 1 }

/-- What the ledger notes of a training: its margin, and the re-training if it is not the first. -/
def trainingNoted (s : State) (k : Nat) (margin : BitVec 16) : State :=
  let u := partMargin (s.setStack k ((s.stack k).trained margin)) (partId 2 k) margin.toInt
  if 0 < (s.stack k).trainings then partRetrain u (partId 2 k) 1 else u

/-- The keys of a quadrant are drawn, if it has none and the generator runs. -/
def quadKeyed (s : State) (q : Nat) : State := if s.slr.drbg ∧ s.slr.xts.getLsbD q = false then slrReady (drawXts s q) else s

theorem trainingDone_passes {s : State} {k : Nat} (trains : (s.stack k).st = 0) (up : isUp s = true) (margin : BitVec 16) :
    trainingDone s k true margin = quadKeyed (trainingNoted s k margin) (k / 8) := by
  have begins : ¬((s.stack k).st ≠ 0 ∨ (!isUp s) = true) := by simp [trains, up]
  exact (if_neg begins).trans (if_neg (by decide))

theorem trainingDone_fails {s : State} {k : Nat} (trains : (s.stack k).st = 0) (up : isUp s = true) (margin : BitVec 16) :
    trainingDone s k false margin = stripEnd (stackFailed s k) := by
  have begins : ¬((s.stack k).st ≠ 0 ∨ (!isUp s) = true) := by simp [trains, up]
  exact (if_neg begins).trans (if_pos rfl)

theorem trainingNoted_ledgerOnly (s : State) (k : Nat) (margin : BitVec 16) : LedgerOnly (s.setStack k ((s.stack k).trained margin)) (trainingNoted s k margin) := by
  unfold trainingNoted
  dsimp only
  split
  · exact (partMargin_ledgerOnly ..).trans (partRetrain_ledgerOnly ..)
  · exact partMargin_ledgerOnly ..

theorem trainingNoted_part (s : State) (k : Fin 32) (margin : BitVec 16) :
    ((trainingNoted s k.val margin).part (2 * 4096 + k.val)).margin = BitVec.ofInt 16 (clampInt (-32768) 32766 margin.toInt) := by
  rw [← partId_stack]
  unfold trainingNoted
  dsimp only
  split
  · rw [partRetrain_part, partMargin_part]
  · exact partMargin_part ..

theorem quadKeyed_frame (s : State) (q : Nat) : ∃ t r n, quadKeyed s q = { s with top := t, slr := r, fresh := n } := by
  unfold quadKeyed
  split
  · exact ⟨_, _, _, rfl⟩
  · exact ⟨s.top, s.slr, s.fresh, rfl⟩

/-- While the generator runs, no quadrant is left without keys. -/
theorem quadKeyed_xts {s : State} {q : Nat} (quad : q < 4) (drbg : s.slr.drbg = true) : (quadKeyed s q).slr.xts.getLsbD q = true := by
  unfold quadKeyed
  split
  case isTrue => exact putBit_self _ _ _ quad
  case isFalse keyed => exact Bool.not_eq_false _ ▸ fun unkeyed => keyed ⟨drbg, unkeyed⟩

/-! ## Initialisation, R332, R351 and R468 -/

theorem stripEnd_frame (s : State) : ∃ r, stripEnd s = { s with slr := r } := by
  unfold stripEnd
  split
  · exact ⟨_, rfl⟩
  · exact ⟨s.slr, rfl⟩

theorem lthReady_frame (s : State) : ∃ l r d, lthReady s = { s with lth := l, top := { s.top with ready := r, drop := d } } := by
  unfold lthReady
  dsimp only
  split
  · exact ⟨_, s.top.ready, s.top.drop, rfl⟩
  · exact ⟨_, _, _, rfl⟩

/-- A stack that is READY and holds what its initialisation writes. -/
def stackCleared (s : State) (k : Nat) : State :=
  { s.setStack k { s.stack k with st := 2 } with hbm := clearStackContents (s.setStack k { s.stack k with st := 2 }).hbm k }

theorem stackCleared_stack (s : State) (k : Nat) : (stackCleared s k).stack k = { s.stack k with st := 2 } := State.setStack_stack ..
theorem stackCleared_stack_ne (s : State) {k j : Nat} (other : j ≠ k) : (stackCleared s k).stack j = s.stack j := State.setStack_stack_ne _ _ _ _ other

theorem stackCleared_get (s : State) {k a : Nat} (own : stackOf a = k) : Mem.get (stackCleared s k).hbm.bytes a = 0 :=
  Tab.get_filter_out 0 s.hbm.bytes (f := fun a => decide (stackOf a ≠ k)) (by simp [own])

theorem stackCleared_get_ne (s : State) {k a : Nat} (other : stackOf a ≠ k) : Mem.get (stackCleared s k).hbm.bytes a = Mem.get s.hbm.bytes a :=
  Tab.get_filter 0 s.hbm.bytes a (fun a => decide (stackOf a ≠ k)) (by simp [other])

theorem stackCleared_htag (s : State) {k a : Nat} (own : stackOf a = k) (tile : a % 4096 = 0) : (stackCleared s k).htag a = initTag := by
  have place : a / 4096 * 4096 = a := by omega
  exact Tab.get_filter_out initTag s.hbm.tags (f := fun i => decide (stackOf (i * 4096) ≠ k)) (by simp [place, own])

theorem stackInitDone_ignored {s : State} {k : Nat} (unfit : (s.stack k).st ≠ 1 ∨ s.slr.xts.getLsbD (k / 8) = false) : stackInitDone s k = s := by
  refine if_pos (unfit.imp_right fun unkeyed => ?_)
  rw [unkeyed]
  rfl

/-- An initialisation clears the stack and makes it ready; besides, only the ledger, Lath's pools and readiness, and the strip under way can change. -/
theorem stackInitDone_clears {s : State} {k : Nat} (initialises : (s.stack k).st = 1) (keyed : s.slr.xts.getLsbD (k / 8) = true) :
    ∃ g l r d p, stackInitDone s k = { setHbmReady (stackCleared s k) k true with
      sng := g, lth := l, top := { (setHbmReady (stackCleared s k) k true).top with ready := r, drop := d }, slr := p } := by
  have run : stackInitDone s k = stripEnd (lthReady (stateMended (setHbmReady (stackCleared s k) k true) (partId 2 k) 4)) := if_neg (by simp [initialises, keyed])
  obtain ⟨g, mended⟩ := stateMended_ledgerOnly (setHbmReady (stackCleared s k) k true) (partId 2 k) 4
  rw [run, mended]
  obtain ⟨l, r, d, joined⟩ := lthReady_frame { setHbmReady (stackCleared s k) k true with sng := g }
  rw [joined]
  obtain ⟨p, ended⟩ := stripEnd_frame { setHbmReady (stackCleared s k) k true with
    sng := g, lth := l, top := { (setHbmReady (stackCleared s k) k true).top with ready := r, drop := d } }
  exact ⟨g, l, r, d, p, ended⟩

/-! ## The loss of a link, R353 -/

theorem linkLoss_fails {s : State} {k : Nat} (up : (s.stack k).st ≠ 3) : linkLoss s k = stripEnd (stackFailed s k) := if_neg up
theorem linkLoss_failed {s : State} {k : Nat} (down : (s.stack k).st = 3) : linkLoss s k = s := if_pos down

/-! ## The statement -/

/-- Settles O40: each event by the state that its stack is in, and a failure by what the stack, its readiness and the ledger show of it. -/
theorem stackEvents : Obligations.StackEvents := by
  unfold Obligations.StackEvents
  intro s k live x
  have answers {t u : State} : t = u → act s t = .next u := act_eq_next live
  refine ⟨fun held patrol done => answers (hbmRefresh_held held patrol done), ?refresh, ?writeback, fun burst unfit => answers (ceWriteback_ignored unfit), ?trained,
    fun margin trains up => answers (trainingDone_fails trains up margin), fun up => answers (linkLoss_fails up), fun down => answers (linkLoss_failed down),
    ⟨stackFailed_stack s k.val, stackFailed_top s k, stackFailed_part s k⟩, ?initialised, fun unfit => answers (stackInitDone_ignored unfit)⟩
  case refresh =>
    exact fun ready level => ⟨answers (hbmRefresh_plain ready level), answers (hbmRefresh_pass ready level), fun t ups => answers (hbmRefresh_patrol ready level t ups)⟩
  case writeback =>
    intro burst own ready waits
    refine .of_act live (congrArg (act s) (ceWriteback_served own ready waits)) ⟨rfl, rfl, rfl, rfl, rfl, fun hard => ?_, fun sound => ?_, rfl⟩
    · exact if_pos (List.contains_iff_mem.mpr hard)
    · exact if_neg fun hard => sound (List.contains_iff_mem.mp hard)
  case trained =>
    intro margin trains up
    refine .of_act live (congrArg (act s) (trainingDone_passes trains up margin)) ?_
    have noted := trainingNoted_ledgerOnly s k.val margin
    have part := trainingNoted_part s k margin
    have bytes : (trainingNoted s k.val margin).hbm.bytes = s.hbm.bytes := by rw [noted.hbm, State.setStack_hbm_bytes]
    have keys (drbg : s.slr.drbg = true) : (quadKeyed (trainingNoted s k.val margin) (k.val / 8)).slr.xts.getLsbD (k.val / 8) = true := by
      refine quadKeyed_xts (by omega) ?_
      obtain ⟨g, noted⟩ := noted
      rw [noted]
      exact drbg
    obtain ⟨t, r, n, keyed⟩ := quadKeyed_frame (trainingNoted s k.val margin) (k.val / 8)
    refine ⟨?_, fun j other => ?_, ?_, keys, ?_⟩
    · rw [keyed]
      exact (noted.stack k.val).trans (State.setStack_stack ..)
    · rw [keyed]
      exact (noted.stack j).trans (State.setStack_stack_ne _ _ _ _ other)
    · rw [keyed]
      exact part
    · rw [keyed]
      exact bytes
  case initialised =>
    intro initialises keyed
    obtain ⟨g, l, r, d, p, done⟩ := stackInitDone_clears initialises keyed
    refine .of_act live (congrArg (act s) done) ⟨?_, setHbmReady_top _ k true, fun a own => stackCleared_get s own, fun a own tile => stackCleared_htag s own tile,
      fun a other => stackCleared_get_ne s other, fun j other => stackCleared_stack_ne s other⟩
    exact congrArg Stack.st (stackCleared_stack s k.val)

end Sys2Proof.Machine

/-! How Lath answers a command, and how an idle queue serves one at once (R341, R347, R349, R359). -/

namespace Sys2Proof.Machine

/-! ## Answers to the registers, R359 -/

/-- Lath once a command has answered to the registers; `host` ends the BUSY of a host's command. -/
def Lath.answered (l : Lath) (host : Bool) (code : Byte) (handle : BitVec 32) : Lath :=
  { l with result := code, resultHandle := handle, busy := l.busy && !host, err := if code = 0 then l.err else setErr l.err 0 }


/-- An answer clears no error. -/
theorem Lath.answered_err {l : Lath} {i : Nat} (raised : l.err.getLsbD i = true) (host : Bool) (code : Byte) (handle : BitVec 32) :
    (l.answered host code handle).err.getLsbD i = true := by
  unfold Lath.answered
  dsimp only
  split
  · exact raised
  · exact setErr_keeps raised 0

/-- A command that came by the registers answers there alone. -/
theorem lathAnswer_registers (s : State) (op : LathOp) (o : Owner) (host : Bool) (code : Byte) (handle : BitVec 32) :
    lathAnswer s ⟨op, o, none, false, host⟩ code handle = { s with lth := s.lth.answered host code handle } := rfl

/-! ## What a command leaves of the queue and the fence -/

/-- The same commands wait in Lath's queue, and the same fence is open. -/
structure QueueKept (s t : State) : Prop where
  queue : t.lth.queue = s.lth.queue
  fence : t.lth.fence = s.lth.fence

namespace QueueKept

variable {s t u : State}

theorem refl (s : State) : QueueKept s s := ⟨rfl, rfl⟩
theorem trans (h : QueueKept s t) (h' : QueueKept t u) : QueueKept s u := ⟨h'.queue.trans h.queue, h'.fence.trans h.fence⟩
theorem of_lth (h : t.lth = s.lth) : QueueKept s t := ⟨congrArg Lath.queue h, congrArg Lath.fence h⟩

/-- Another content of Lath with the same queue and fence. -/
theorem lth (h : QueueKept s t) (l : Lath) (queue : l.queue = t.lth.queue) (fence : l.fence = t.lth.fence) : QueueKept s { t with lth := l } :=
  h.trans ⟨queue, fence⟩

end QueueKept

theorem sendRecord_lth (s : State) (num : BitVec 16) (record : List Byte) : (sendRecord s num record).lth = s.lth := by
  unfold sendRecord
  split
  · rfl
  · split
    · rfl
    · split
      · rfl
      · rfl

theorem respond_lth (s : State) (r : MboxRec) (op : BitVec 16) (status : Byte) (result : List Byte) : (respond s r op status result).lth = s.lth := by
  have counted : (if status = 0 then s else { s with hwk := { s.hwk with refusedCount := bump s.hwk.refusedCount 1 } }).lth = s.lth := by
    split
    · rfl
    · rfl
  unfold respond
  dsimp only
  split
  · rw [sendRecord_lth, State.setMbox_lth, counted]
  · exact counted

theorem dropHeld_lth (s : State) (o : Owner) : (dropHeld s o).lth = s.lth := by
  unfold dropHeld
  split
  · rfl
  · rfl

theorem lathAnswer_queueKept (s : State) (c : LathCmd) (code : Byte) (handle : BitVec 32) : QueueKept s (lathAnswer s c code handle) := by
  unfold lathAnswer
  dsimp only
  split
  · exact .refl s
  · split
    · exact ⟨rfl, rfl⟩
    · exact ((QueueKept.refl s).lth (s.lth.answered c.host code handle) rfl rfl).trans (.of_lth (respond_lth ..))

theorem QueueKept.answer {s t : State} (h : QueueKept s t) (c : LathCmd) (code : Byte) (handle : BitVec 32) : QueueKept s (lathAnswer t c code handle) :=
  h.trans (lathAnswer_queueKept ..)

theorem grantBuffer_queueKept (s : State) (o : Owner) (q p : Nat) : QueueKept s (grantBuffer s o q p).2 := by
  unfold grantBuffer
  split
  · exact .refl s
  · split
    · exact .refl s
    · dsimp only
      split
      · exact ⟨rfl, rfl⟩
      · exact ⟨rfl, rfl⟩

/-- Lath once an owner has freed a buffer: the two buffers of a region's pair go together, R345. -/
def freedPair (l : Lath) (o : Owner) (h : Nat) : Lath :=
  let mate := if handleIndex h % 2 = 0 then h + 1 else h - 1
  if handlePool h = 1 ∧ o.cls = 0 ∧ ownerOf (setOwner l h none) mate = some o then setOwner (setOwner l h none) mate none else setOwner l h none

theorem freedPair_frame (l : Lath) (o : Owner) (h : Nat) : ∃ w, freedPair l o h = { l with owners := w } := by
  unfold freedPair
  dsimp only
  generalize (if handleIndex h % 2 = 0 then h + 1 else h - 1) = mate
  split
  · exact ⟨_, rfl⟩
  · exact ⟨_, rfl⟩

theorem lathFree_queueKept (s : State) (o : Owner) (h : Nat) : QueueKept s (lathFree s o h).2 := by
  unfold lathFree
  dsimp only
  split
  · exact .refl s
  · split
    · exact .refl s
    · split
      · exact ⟨rfl, rfl⟩
      · split
        · obtain ⟨w, freed⟩ := freedPair_frame s.lth o h
          show QueueKept s { s with lth := freedPair s.lth o h }
          rw [freed]
          exact ⟨rfl, rfl⟩
        · exact ⟨rfl, rfl⟩

/-- A command that is served leaves those behind it in the queue; only PROXY_FREE opens a fence. -/
theorem lathDo_queueKept (s : State) {c : LathCmd} (other : c.op ≠ .proxyFree) : QueueKept s (lathDo s c) := by
  have same := QueueKept.refl s
  unfold lathDo
  dsimp only
  split
  case h_1 p q _ =>
    split
    · exact same.answer ..
    · split
      · exact same.answer ..
      · have granted := grantBuffer_queueKept s c.owner q p
        split <;> rename_i outcome <;> rw [outcome] at granted <;> exact granted.answer ..
  case h_2 h _ => exact (lathFree_queueKept s c.owner h.toNat).answer ..
  case h_3 =>
    split
    · exact same.answer ..
    · split
      · exact same.answer ..
      · exact ((same.lth (freeAll s.lth c.owner) rfl rfl).trans (.of_lth (dropHeld_lth ..))).answer ..
  case h_4 n _ =>
    split
    · exact same.answer ..
    · split
      · exact same.answer ..
      · exact (same.lth (renameAll s.lth c.owner n) rfl rfl).answer ..
  case h_5 =>
    split
    · exact same.answer ..
    · split
      · exact same.answer ..
      · exact same.answer ..
  case h_6 op => exact absurd op other
  case h_7 only _ =>
    split
    · exact same.answer ..
    · cases only with
      | none => exact (same.lth (freeAll s.lth c.owner) rfl rfl).answer ..
      | some hs => exact (same.lth (freeSome s.lth c.owner hs) rfl rfl).answer ..
  case h_8 => exact same.answer ..

/-- PROXY_FREE leaves those behind it in the queue, and opens a fence that no user of the stacks has confirmed. -/
theorem lathDo_proxyFree_kept (s : State) {c : LathCmd} (op : c.op = .proxyFree) :
    (lathDo s c).lth.queue = s.lth.queue ∧ ∃ f, (lathDo s c).lth.fence = some f ∧ f.done = false := by
  have opened : lathDo s c = lathAnswer (openFence s c.owner) c lrOk 0 := by
    unfold lathDo
    dsimp only
    rw [op]
  obtain ⟨queue, fence⟩ := lathAnswer_queueKept (openFence s c.owner) c lrOk 0
  rw [opened, queue, fence]
  exact ⟨rfl, _, rfl, Bool.and_false _⟩

/-! ## An idle queue, R341 -/

theorem lathRun_empty {s : State} (empty : s.lth.queue = []) (n : Nat) : lathRun n s = s := by
  cases n with
  | zero => rfl
  | succ n => rw [lathRun, empty]

/-- An idle queue serves a command at once. -/
theorem lathQueue_idle {s : State} (idle : LathIdle s) (c : LathCmd) : lathQueue s c = lathDo s c := by
  obtain ⟨queue, fence⟩ := idle
  have back : { s with lth := { s.lth with queue := [] } } = s := by rw [← queue]
  have unfenced : ¬(c.op = .proxyFree ∧ s.lth.fence.isSome = true) := fun h => by simp [fence] at h
  unfold lathQueue
  rw [queue, List.nil_append]
  show lathRun 2 _ = _
  rw [lathRun]
  dsimp only
  rw [if_neg unfenced, back]
  by_cases op : c.op = .proxyFree
  · obtain ⟨empty, f, opened, undone⟩ := lathDo_proxyFree_kept s op
    rw [opened]
    dsimp only
    rw [undone, if_neg (by decide), lathRun_empty (empty.trans queue)]
  · have kept := lathDo_queueKept s op
    rw [kept.fence, fence]
    exact lathRun_empty (kept.queue.trans queue) 1

theorem lathCommand_idle {s : State} (idle : LathIdle s) (free : s.lth.busy = false) (host : Bool) (op : LathOp) (o : Owner) (mbox : Option MboxRec) :
    lathCommand s host op o mbox = lathDo { s with lth := { s.lth with busy := host } } ⟨op, o, mbox, false, host⟩ := by
  unfold lathCommand
  rw [free, if_neg (by decide)]
  have still : LathIdle { s with lth := { s.lth with busy := host } } := ⟨idle.queue, idle.fence⟩
  exact lathQueue_idle still _

/-- A command of Hawk's does not raise BUSY, R357. -/
theorem lathCommand_byHawk {s : State} (idle : LathIdle s) (free : s.lth.busy = false) (op : LathOp) (o : Owner) :
    lathCommand s false op o none = lathDo s ⟨op, o, none, false, false⟩ := by
  have same : { s with lth := { s.lth with busy := false } } = s := by rw [← free]
  rw [lathCommand_idle idle free, same]

theorem isDead_noFence {l : Lath} (none_open : l.fence = none) (o : Owner) : isDead l o = false := by
  unfold isDead
  rw [none_open]

end Sys2Proof.Machine

/-! The command registers of Lath: how Hawk's writes spell a command, and what an idle queue makes of it (R341, R357, R359). -/

namespace Sys2Proof.Machine

/-! ## LTH_CMD, R359 -/

/-- The word that Hawk writes to LTH_CMD. -/
def lathWord (op cls pool quad : Nat) : Nat := op + 16 * cls + 64 * pool + 512 * quad

/-- The command that an OP of LTH_CMD asks for, with the other fields of the word `n` and the argument registers as they stand. -/
def Lath.opOf (l : Lath) (n : Nat) : Nat → LathOp
  | 1 => .grant (bitsOf n 8 6) (bitsOf n 10 9)
  | 2 => .free l.argHandle
  | 3 => .freeOwner
  | 4 => .handover ⟨BitVec.ofNat 2 (bitsOf l.argNew.toNat 31 30), l.argHandle⟩
  | 5 => .proxyFree
  | 6 => .query l.argHandle
  | _ => .bad

/-- The word's fields are those that it is made of. -/
theorem lathWord_fields {op cls pool quad : Nat} (hop : op < 16) (hcls : cls < 4) (hpool : pool < 8) (hquad : quad < 4) :
    let n := lathWord op cls pool quad
    n < 2048 ∧ bitsOf n 3 0 = op ∧ bitsOf n 5 4 = cls ∧ bitsOf n 8 6 = pool ∧ bitsOf n 10 9 = quad := by
  simp only [lathWord, bitsOf, Nat.shiftRight_eq_div_pow]
  omega

/-- The two highest bits of LTH_ARG_NEW name the new owner's class. -/
theorem newClass_bits (c : BitVec 2) : BitVec.ofNat 2 (bitsOf (c.setWidth 32 <<< 30).toNat 31 30) = c := by
  have low : c.toNat < 4 := c.isLt
  apply BitVec.eq_of_toNat_eq
  simp only [bitsOf, BitVec.toNat_ofNat, BitVec.toNat_shiftLeft, BitVec.toNat_setWidth, Nat.shiftLeft_eq, Nat.shiftRight_eq_div_pow]
  omega

/-- An idle queue serves at once the command that a write of LTH_CMD asks for. -/
theorem lathCmdWrite_serves {s : State} {v : BitVec 32} (idle : LathIdle s) (free : s.lth.busy = false) (asks : bitsOf v.toNat 3 0 ≠ 0) :
    lathCmdWrite s v = lathDo { s with lth := { s.lth with cmd := BitVec.ofNat 32 (v.toNat % 2048) } }
      ⟨s.lth.opOf v.toNat (bitsOf v.toNat 3 0), ⟨BitVec.ofNat 2 (bitsOf v.toNat 5 4), s.lth.argOwner⟩, none, false, false⟩ := by
  have notBusy : ¬s.lth.busy = true := by simp [free]
  have still : LathIdle { s with lth := { s.lth with cmd := BitVec.ofNat 32 (v.toNat % 2048) } } := ⟨idle.queue, idle.fence⟩
  unfold lathCmdWrite lathCmdWriteBy
  dsimp only
  rw [if_neg notBusy, if_neg asks, if_pos rfl]
  exact lathCommand_byHawk still free ..

/-- The device as Hawk leaves Lath's registers when it has asked for a command. -/
def lathAsked (s : State) (word : Nat) (handle owner new : BitVec 32) : State :=
  { s with lth := { s.lth with argHandle := handle, argOwner := owner, argNew := new, cmd := BitVec.ofNat 32 (word % 2048) } }

/-- A command of Hawk's is served with the argument registers that Hawk has written. -/
theorem lathByHawk_serves {s : State} (idle : LathIdle s) (free : s.lth.busy = false) {op pool quad : Nat} (low : 0 < op) (high : op < 16) (hpool : pool < 8) (hquad : quad < 4)
    (cls : BitVec 2) (handle name new : Option (BitVec 32)) {what : LathOp}
    (asks : (lathAsked s (lathWord op cls.toNat pool quad) (handle.getD s.lth.argHandle) (name.getD s.lth.argOwner) (new.getD s.lth.argNew)).lth.opOf (lathWord op cls.toNat pool quad) op = what) :
    lathByHawk s op cls.toNat pool quad handle name new
      = lathDo (lathAsked s (lathWord op cls.toNat pool quad) (handle.getD s.lth.argHandle) (name.getD s.lth.argOwner) (new.getD s.lth.argNew))
        ⟨what, ⟨cls, name.getD s.lth.argOwner⟩, none, false, false⟩ := by
  obtain ⟨small, opBits, clsBits, -, -⟩ := lathWord_fields high cls.isLt hpool hquad
  have value : (BitVec.ofNat 32 (lathWord op cls.toNat pool quad)).toNat = lathWord op cls.toNat pool quad := Nat.mod_eq_of_lt (by omega)
  have still : LathIdle { s with lth := { s.lth with argHandle := handle.getD s.lth.argHandle, argOwner := name.getD s.lth.argOwner, argNew := new.getD s.lth.argNew } } :=
    ⟨idle.queue, idle.fence⟩
  have served := lathCmdWrite_serves (v := BitVec.ofNat 32 (lathWord op cls.toNat pool quad)) still free (by rw [value, opBits]; omega)
  rw [value, opBits, clsBits, BitVec.ofNat_toNat, BitVec.setWidth_eq] at served
  rw [← asks]
  exact served

/-! ## QUERY, R347 and R359 -/

/-- What QUERY tells of a buffer: the result code, and its owner. -/
def queryAnswer (l : Lath) (h : Nat) : Byte × BitVec 32 :=
  if handleOk l h then (lrOk, match ownerOf l h with
    | none => 0
    | some p => 0x80000000#32 ||| (p.cls.setWidth 32 <<< 28) ||| (p.name &&& 0x0FFFFFFF))
  else (lrBadHandle, 0)

theorem lathDo_query (s : State) (h : BitVec 32) (o : Owner) (host : Bool) :
    lathDo s ⟨.query h, o, none, false, host⟩ = { s with lth := s.lth.answered host (queryAnswer s.lth h.toNat).1 (queryAnswer s.lth h.toNat).2 } := by
  unfold lathDo queryAnswer
  dsimp only
  cases handleOk s.lth h.toNat with
  | false => rfl
  | true =>
    cases ownerOf s.lth h.toNat with
    | none => rfl
    | some p => rfl

theorem queryAnswer_badHandle {l : Lath} {h : Nat} (bad : handleOk l h = false) : queryAnswer l h = (lrBadHandle, 0) := by
  rw [queryAnswer, bad]
  rfl

theorem queryAnswer_free {l : Lath} {h : Nat} (named : handleOk l h = true) (free : ownerOf l h = none) : queryAnswer l h = (lrOk, 0) := by
  rw [queryAnswer, named, free]
  rfl

theorem queryAnswer_granted {l : Lath} {h : Nat} {p : Owner} (named : handleOk l h = true) (owned : ownerOf l h = some p) :
    queryAnswer l h = (lrOk, 0x80000000#32 ||| (p.cls.setWidth 32 <<< 28) ||| (p.name &&& 0x0FFFFFFF)) := by
  rw [queryAnswer, named, owned]
  rfl

/-! ## The statement -/

/-- Settles O41: the word that Hawk writes asks for the command, which an idle queue serves; QUERY tells the owner of the buffer. -/
theorem lathCommands : Obligations.LathCommands := by
  unfold Obligations.LathCommands
  intro s owner cls live free queue fence o regs ask
  have idle : LathIdle s := ⟨queue, fence⟩
  have answers {t u : State} : t = u → act s t = .next u := act_eq_next live
  have serves {op : Nat} (low : 0 < op) (high : op < 16) := lathByHawk_serves idle free low high (pool := 0) (quad := 0) (by decide) (by decide) cls
  refine ⟨fun pool quad => answers ?grant, fun handle => answers (serves (by decide) (by decide) (some handle) (some owner) none rfl),
    answers (serves (by decide) (by decide) none (some owner) none rfl),
    fun newCls newOwner => answers ?handover,
    answers (serves (by decide) (by decide) none (some owner) none rfl), fun handle => ?query⟩
  case grant =>
    obtain ⟨-, -, -, poolBits, quadBits⟩ := lathWord_fields (op := 1) (by decide) cls.isLt pool.isLt quad.isLt
    refine lathByHawk_serves idle free (by decide) (by decide) pool.isLt quad.isLt cls none (some owner) none ?_
    rw [Lath.opOf, poolBits, quadBits]
  case handover =>
    exact serves (by decide) (by decide) (some newOwner) (some owner) (some (newCls.setWidth 32 <<< 30)) (congrArg (LathOp.handover ⟨·, newOwner⟩) (newClass_bits newCls))
  case query =>
    let u := lathAsked s (lathWord 6 cls.toNat 0 0) handle s.lth.argOwner s.lth.argNew
    have told : lathByHawk s 6 cls.toNat 0 0 (some handle) none none
        = { u with lth := u.lth.answered false (queryAnswer s.lth handle.toNat).1 (queryAnswer s.lth handle.toNat).2 } :=
      (serves (by decide) (by decide) (some handle) none none rfl).trans (lathDo_query ..)
    exact .of_act live (congrArg (act s) told) ⟨(Bool.and_true _).trans free, rfl, fun bad => Prod.ext_iff.mp (queryAnswer_badHandle bad),
      fun named unowned => Prod.ext_iff.mp (queryAnswer_free named unowned), fun p named owned => Prod.ext_iff.mp (queryAnswer_granted named owned)⟩

end Sys2Proof.Machine

/-! What each command of Lath does to the owners of buffers (R339 to R347, R349). -/

namespace Sys2Proof.Machine

/-! ## The lowest index that no entry takes, R342 -/

/-- The indices of a canonical array rise. -/
theorem Tab.wfFrom_rises {α : Type} [DecidableEq α] {d : α} {t : Tab α} {lo : Nat} (wf : Tab.wfFrom d lo t = true) : t.Pairwise fun a b => a.1 < b.1 := by
  induction t generalizing lo with
  | nil => exact .nil
  | cons e r ih =>
    obtain ⟨j, v⟩ := e
    simp only [Tab.wfFrom, Bool.and_eq_true] at wf
    exact .cons (fun p hp => Tab.wfFrom_ge d (j + 1) r wf.2 p hp) (ih wf.2)

/-- The scan of entries from `base` on for the first gap, from the `i`-th index. -/
def firstGap {α : Type} (base i : Nat) (l : Tab α) : Nat := l.foldl (fun i e => if e.1 = base + i then i + 1 else i) i

section
variable {α : Type} {base : Nat}

theorem firstGap_ge (l : Tab α) (i : Nat) : i ≤ firstGap base i l := by
  induction l generalizing i with
  | nil => exact Nat.le_refl i
  | cons e r ih =>
    rw [firstGap, List.foldl_cons]
    split
    · exact Nat.le_of_succ_le (ih (i + 1))
    · exact ih i

theorem firstGap_above {l : Tab α} {i : Nat} (above : ∀ e ∈ l, base + i < e.1) : firstGap base i l = i := by
  induction l with
  | nil => rfl
  | cons e r ih =>
    have far := above e List.mem_cons_self
    rw [firstGap, List.foldl_cons, if_neg (by omega)]
    exact ih fun p hp => above p (List.mem_cons_of_mem _ hp)

/-- The scan ends at an index that no entry takes. -/
theorem firstGap_free {l : Tab α} (rises : l.Pairwise fun a b => a.1 < b.1) {i : Nat} (low : ∀ e ∈ l, base + i ≤ e.1) :
    ∀ e ∈ l, e.1 ≠ base + firstGap base i l := by
  induction l generalizing i with
  | nil => exact fun e he => nomatch he
  | cons a r ih =>
    obtain ⟨later, rises⟩ := List.pairwise_cons.mp rises
    have first := low a List.mem_cons_self
    rw [firstGap, List.foldl_cons]
    by_cases here : a.1 = base + i
    · rw [if_pos here]
      have beyond := firstGap_ge (base := base) r (i + 1)
      refine List.forall_mem_cons.mpr ⟨fun taken => ?_, ih rises fun e he => ?_⟩
      · rw [firstGap] at beyond
        omega
      · have := later e he
        omega
    · rw [if_neg here]
      have above : ∀ e ∈ r, base + i < e.1 := fun e he => by
        have := later e he
        omega
      have stays := firstGap_above above
      rw [firstGap] at stays
      rw [stays]
      exact List.forall_mem_cons.mpr ⟨here, fun e he => Nat.ne_of_gt (above e he)⟩

end

theorem mkHandle_index (q p i : Nat) : mkHandle q p i = mkHandle q p 0 + i := by
  rw [mkHandle, mkHandle, Nat.add_zero]

/-- The GRANTED buffers of a pool in a quadrant. -/
def poolEntries (l : Lath) (q p : Nat) : Tab (Option Owner) := l.owners.filter fun e => mkHandle q p 0 ≤ e.1 && e.1 < mkHandle q p 0 + poolCount l p

theorem mem_poolEntries {l : Lath} {q p : Nat} {e : Nat × Option Owner} :
    e ∈ poolEntries l q p ↔ e ∈ l.owners ∧ mkHandle q p 0 ≤ e.1 ∧ e.1 < mkHandle q p 0 + poolCount l p := by
  rw [poolEntries, List.mem_filter, Bool.and_eq_true, decide_eq_true_eq, decide_eq_true_eq]

theorem lowestFree_eq (l : Lath) (q p : Nat) : lowestFree l q p =
    if firstGap (mkHandle q p 0) 0 (poolEntries l q p) < poolCount l p then some (firstGap (mkHandle q p 0) 0 (poolEntries l q p)) else none := rfl

/-- The lowest free index lies in the pool, and its buffer has no owner. -/
theorem lowestFree_some {l : Lath} {q p i : Nat} (wf : Tab.wf none l.owners = true) (found : lowestFree l q p = some i) :
    i < poolCount l p ∧ ownerOf l (mkHandle q p i) = none := by
  rw [lowestFree_eq] at found
  obtain ⟨room, index⟩ := Option.ite_none_right_eq_some.mp found
  rw [Option.some.inj index] at room
  have low : ∀ e ∈ poolEntries l q p, mkHandle q p 0 ≤ e.1 := fun e he => (mem_poolEntries.mp he).2.1
  have untaken : ∀ e ∈ poolEntries l q p, e.1 ≠ mkHandle q p 0 + i := by
    rw [← Option.some.inj index]
    exact firstGap_free (.filter _ (Tab.wfFrom_rises wf)) fun e he => (Nat.add_zero _).symm ▸ low e he
  refine ⟨room, (Tab.get_mem_or none l.owners (mkHandle q p i)).resolve_right ?_⟩
  rintro ⟨e, he, at_i, -⟩
  have place := at_i.trans (mkHandle_index q p i)
  exact untaken e (mem_poolEntries.mpr ⟨he, by omega, by omega⟩) place

/-! ## Handles, R339 -/

section
variable {q p i : Nat} (quad : q < 4) (pool : p < 8) (index : i < 2 ^ 27)
include pool index

theorem mkHandle_fields : handleQuad (mkHandle q p i) = q ∧ handlePool (mkHandle q p i) = p ∧ handleIndex (mkHandle q p i) = i := by
  unfold mkHandle handleQuad handlePool handleIndex
  omega

end

/-- No pool has more buffers than INDEX has values, as the legacy pools do not take more than a quadrant's frames. -/
theorem poolCount_lt {l : Lath} (legacy : legFrames l 1 + legFrames l 2 + legFrames l 3 + legFrames l 4 ≤ 3137536) (p : Nat) : poolCount l p < 2 ^ 27 := by
  unfold poolCount nativeFrames
  split <;> omega

/-- The handle of a pool's buffer is in order. -/
theorem handleOk_mkHandle {l : Lath} {q p i : Nat} (quad : q < 4) (pool : p < 8) (legacy : legFrames l 1 + legFrames l 2 + legFrames l 3 + legFrames l 4 ≤ 3137536)
    (index : i < poolCount l p) : handleOk l (mkHandle q p i) = true := by
  obtain ⟨hq, hp, hi⟩ := mkHandle_fields (q := q) pool (index.trans (poolCount_lt legacy p))
  rw [handleOk, hq, hp, hi, decide_eq_true quad, decide_eq_true index]
  rfl

/-! ## GRANT, R342 and R343 -/

theorem poolOrder_lt {p : Nat} (pool : p < 5) : ∀ k ∈ poolOrder p, k < 5 := by
  interval_cases p <;> decide

theorem findBuffer_some {l : Lath} {q h : Nat} {ps : List Nat} (found : findBuffer l q ps = some h) : ∃ p ∈ ps, ∃ i, lowestFree l q p = some i ∧ h = mkHandle q p i := by
  induction ps with
  | nil => exact nomatch found
  | cons p ps ih =>
    rw [findBuffer] at found
    split at found
    case h_1 i free => exact ⟨p, List.mem_cons_self, i, free, (Option.some.inj found).symm⟩
    case h_2 =>
      obtain ⟨k, hk, more⟩ := ih found
      exact ⟨k, List.mem_cons_of_mem _ hk, more⟩

/-- A grant names the buffer that the search has found, and gives it to the owner; a buffer of another pool than that required is counted. -/
theorem grantBuffer_some {s t : State} {o : Owner} {q p h : Nat} (granted : grantBuffer s o q p = (some h, t)) :
    findBuffer s.lth q (poolOrder p) = some h ∧ ∃ n e, t = { s with lth := { setOwner s.lth h (some o) with fallback := n, err := e } } := by
  unfold grantBuffer at granted
  split at granted
  · exact nomatch granted
  · split at granted
    · exact nomatch granted
    · rename_i b found
      obtain ⟨named, rfl⟩ := Prod.mk.inj granted
      obtain rfl := Option.some.inj named
      refine ⟨found, ?_⟩
      split
      · exact ⟨s.lth.fallback, s.lth.err, rfl⟩
      · exact ⟨_, _, rfl⟩

theorem grantBuffer_unready {s : State} {q : Nat} (unready : quadReady s q = false) (o : Owner) (p : Nat) : grantBuffer s o q p = (none, s) := by
  rw [grantBuffer, unready]
  rfl

section
variable {s : State} {o : Owner} (alive : isDead s.lth o = false) (host : Bool)
include alive

theorem lathDo_grant_granted {t : State} {p q h : Nat} (pool : p < 5) (granted : grantBuffer s o q p = (some h, t)) :
    lathDo s ⟨.grant p q, o, none, false, host⟩ = { t with lth := t.lth.answered host lrOk (BitVec.ofNat 32 h) } := by
  unfold lathDo
  dsimp only
  rw [alive, if_neg (by decide), if_neg (by omega), granted]
  rfl

theorem lathDo_grant_none {t : State} {p q : Nat} (pool : p < 5) (refused : grantBuffer s o q p = (none, t)) :
    lathDo s ⟨.grant p q, o, none, false, host⟩ = { t with lth := t.lth.answered host lrNoBuffers 0 } := by
  unfold lathDo
  dsimp only
  rw [alive, if_neg (by decide), if_neg (by omega), refused]
  rfl

end

@[simp] theorem setOwner_ownerOf (l : Lath) (h : Nat) (o : Option Owner) : ownerOf (setOwner l h o) h = o := Tab.get_put ..
theorem setOwner_ownerOf_ne (l : Lath) {h j : Nat} (o : Option Owner) (other : j ≠ h) : ownerOf (setOwner l h o) j = ownerOf l j := Tab.get_put_ne _ _ _ _ _ _ other

/-! ## FREE, R345 and R347 -/

section
variable {s : State} {o : Owner} (h : BitVec 32) (host : Bool)

theorem lathDo_free {code : Byte} {t : State} (freed : lathFree s o h.toNat = (code, t)) :
    lathDo s ⟨.free h, o, none, false, host⟩ = { t with lth := t.lth.answered host code 0 } := by
  unfold lathDo
  dsimp only
  rw [freed]
  rfl

end

section
variable {s : State} {o : Owner} {h : Nat}

theorem lathFree_dead (dead : isDead s.lth o = true) : lathFree s o h = (lrNotOwner, s) := if_pos dead

variable (alive : isDead s.lth o = false) (named : handleOk s.lth h = true)
include alive named

theorem lathFree_free (free : ownerOf s.lth h = none) :
    lathFree s o h = (lrDoubleFree, { s with lth := { s.lth with doubleFree := bump s.lth.doubleFree 1, err := setErr s.lth.err 1 } }) := by
  unfold lathFree
  dsimp only
  rw [alive, named, free]
  rfl

theorem lathFree_notOwner {p : Owner} (owned : ownerOf s.lth h = some p) (other : p ≠ o) :
    lathFree s o h = (lrNotOwner, { s with lth := { s.lth with notOwner := bump s.lth.notOwner 1, err := setErr s.lth.err 2 } }) := by
  unfold lathFree
  dsimp only
  rw [alive, named, owned]
  exact if_neg other

theorem lathFree_owned (owned : ownerOf s.lth h = some o) : lathFree s o h = (lrOk, { s with lth := freedPair s.lth o h }) := by
  unfold lathFree
  dsimp only
  rw [alive, named, owned]
  exact if_pos rfl

end

/-- A buffer that is not of a region's pair goes alone. -/
theorem freedPair_single {l : Lath} {o : Owner} {h : Nat} (single : handlePool h ≠ 1 ∨ o.cls ≠ 0) : freedPair l o h = setOwner l h none :=
  if_neg fun ⟨pool, cls, _⟩ => single.elim (· pool) (· cls)

/-! ## FREE_OWNER and HANDOVER, R347 -/

theorem freeAll_holdsAny (l : Lath) (o : Owner) : holdsAny (freeAll l o) o = false :=
  holdsAny_of_absent fun e he held => by
    have kept := (List.mem_filter.mp he).2
    rw [held, decide_eq_true rfl] at kept
    exact nomatch kept

theorem absent_of_holdsAny {l : Lath} {o : Owner} (h : holdsAny l o = false) : ∀ e ∈ l.owners, e.2 ≠ some o :=
  fun e he held => List.any_eq_false.mp h e he (decide_eq_true held)

section
variable {l : Lath} {o n : Owner}

theorem renameAll_holdsAny (other : n ≠ o) : holdsAny (renameAll l o n) o = false := by
  refine holdsAny_of_absent fun e he held => ?_
  obtain ⟨p, hp, rfl⟩ := List.mem_map.mp he
  dsimp only at held
  split at held
  · exact other (Option.some.inj held)
  · contradiction

/-- An owner that held nothing holds after a handover as many buffers as the other one did. -/
theorem renameAll_holdCount (none_held : holdsAny l n = false) : holdCount (renameAll l o n) n = holdCount l o := by
  have absent := absent_of_holdsAny none_held
  have same : ∀ p ∈ l.owners, decide ((if p.2 = some o then some n else p.2) = some n) = decide (p.2 = some o) := by
    intro p hp
    by_cases held : p.2 = some o
    · rw [if_pos held, decide_eq_true rfl, decide_eq_true held]
    · rw [if_neg held, decide_eq_false (absent p hp), decide_eq_false held]
  unfold holdCount renameAll
  dsimp only
  rw [List.filter_map, List.length_map]
  exact congrArg List.length (List.filter_congr same)

end

section
variable {s : State} {o : Owner} (unfenced : s.lth.fence = none) (host : Bool)
include unfenced

theorem lathDo_freeOwner_used (used : inUse s o = true) : lathDo s ⟨.freeOwner, o, none, false, host⟩ = { s with lth := s.lth.answered host lrInUse 0 } := by
  unfold lathDo
  dsimp only
  rw [isDead_noFence unfenced, used]
  rfl

theorem lathDo_freeOwner_unused (unused : inUse s o = false) :
    (lathDo s ⟨.freeOwner, o, none, false, host⟩).lth = (freeAll s.lth o).answered host lrOk 0 := by
  unfold lathDo
  dsimp only
  rw [isDead_noFence unfenced, unused, if_neg (by decide), if_neg (by decide), lathAnswer_registers]
  dsimp only
  rw [dropHeld_lth]

theorem lathDo_handover {n : Owner} (none_held : holdsAny s.lth n = false) :
    lathDo s ⟨.handover n, o, none, false, host⟩ = { s with lth := (renameAll s.lth o n).answered host lrOk 0 } := by
  unfold lathDo
  dsimp only
  rw [isDead_noFence unfenced, isDead_noFence unfenced, none_held]
  rfl

end

/-! ## The statement -/

/-- Settles O42: each command by what it finds of the owners, and of the owners by what it does to their entries. -/
theorem lathEffects : Obligations.LathEffects := by
  unfold Obligations.LathEffects
  intro s o unfenced ask
  have alive := isDead_noFence unfenced o
  refine ⟨?grant, ?unready, ?free, ?doubleFree, ?notOwner, ?freeOwner, ?used, ?handover, ?proxyFree⟩
  case grant =>
    intro pool quad h t hpool hquad legacy wf granted
    obtain ⟨found, n, e, outcome⟩ := grantBuffer_some granted
    obtain ⟨p, ordered, i, lowest, rfl⟩ := findBuffer_some found
    obtain ⟨room, unowned⟩ := lowestFree_some wf lowest
    have small : p < 8 := (poolOrder_lt hpool p ordered).trans (by decide)
    obtain ⟨hq, hp, -⟩ := mkHandle_fields (q := quad) small (room.trans (poolCount_lt legacy p))
    dsimp only [ask]
    rw [lathDo_grant_granted alive false hpool granted, outcome]
    exact ⟨unowned, setOwner_ownerOf .., fun j other => setOwner_ownerOf_ne _ _ other, rfl, rfl, hq, hp.symm ▸ ordered, handleOk_mkHandle hquad small legacy room⟩
  case unready =>
    intro pool quad hpool unready
    dsimp only [ask]
    rw [lathDo_grant_none alive false hpool (grantBuffer_unready unready o pool)]
    exact ⟨rfl, rfl⟩
  case free =>
    intro h named owned single
    dsimp only [ask]
    rw [lathDo_free h false (lathFree_owned alive named owned), freedPair_single single]
    exact ⟨setOwner_ownerOf .., fun j other => setOwner_ownerOf_ne _ _ other, rfl⟩
  case doubleFree =>
    intro h named free
    dsimp only [ask]
    rw [lathDo_free h false (lathFree_free alive named free)]
    exact ⟨rfl, rfl, rfl, Lath.answered_err (by rw [setErr_getLsbD _ _ _ (by decide)]; simp) ..⟩
  case notOwner =>
    intro h p named owned other
    dsimp only [ask]
    rw [lathDo_free h false (lathFree_notOwner alive named owned other)]
    exact ⟨rfl, rfl, rfl, Lath.answered_err (by rw [setErr_getLsbD _ _ _ (by decide)]; simp) ..⟩
  case freeOwner =>
    intro unused
    dsimp only [ask]
    rw [lathDo_freeOwner_unused unfenced false unused]
    exact ⟨freeAll_holdsAny s.lth o, rfl⟩
  case used =>
    intro used
    dsimp only [ask]
    rw [lathDo_freeOwner_used unfenced false used]
    exact ⟨rfl, rfl⟩
  case handover =>
    intro n other none_held
    dsimp only [ask]
    rw [lathDo_handover unfenced false none_held]
    exact ⟨renameAll_holdsAny other, rfl, renameAll_holdCount none_held⟩
  case proxyFree => exact ⟨rfl, rfl, rfl⟩

end Sys2Proof.Machine

/-! The host's commands of Lath, and the fence behind a dead owner (R338, R347, R349, R350, R547). -/

namespace Sys2Proof.Machine

/-! ## The host's commands, R347 and R547 -/

section
variable {s : State} {r : MboxRec} {n : CmdNeeds} {args : List Byte} {i : Nat} {x : Session} (h : Accepted s r n args i x)
  {argBad : Bool} (good : ¬(argBad = true ∧ r.hcs = 2)) (op : LathOp) (hawk : Nat → State → State) {hostOwner : MboxRec → Option Owner}
include h good

/-- An accepted command of the host is served for the owner that the host may name. -/
theorem lathFrom_host {o : Owner} (own : hostOwner r = some o) :
    lathFrom s (.host r) n args argBad op hawk hostOwner = lathCommand (begun s r n.op args i x) true op o (some r) := by
  unfold lathFrom
  dsimp only
  rw [mboxCmd_accepted h, if_neg good, own]

/-- A command that is Hawk's only is not permitted to the host. -/
theorem lathFrom_host_forbidden (own : hostOwner r = none) :
    lathFrom s (.host r) n args argBad op hawk hostOwner = lathCommand (begun s r n.op args i x) true .bad ⟨2, 0⟩ (some r) := by
  unfold lathFrom
  dsimp only
  rw [mboxCmd_accepted h, if_neg good, own]

end

/-- Lath's registers as the refusal of a command that meets BUSY leaves them, R357. -/
def State.lathRefused (s : State) : State := { s with lth := { s.lth with result := lrBusy, err := setErr s.lth.err 0 } }

theorem lathCommand_busy {s : State} (busy : s.lth.busy = true) (host : Bool) (op : LathOp) (o : Owner) : lathCommand s host op o none = s.lathRefused := if_pos busy

theorem lathCommand_busy_mailbox {s : State} (busy : s.lth.busy = true) (host : Bool) (op : LathOp) (o : Owner) (r : MboxRec) :
    lathCommand s host op o (some r) = respond s.lathRefused r 0x0040 stRefused [lrBusy, 0, 0, 0] := if_pos busy

/-! ## The fence, R349 -/

theorem isDead_owner {l : Lath} {f : Fence} (opened : l.fence = some f) : isDead l f.owner = true := by
  rw [isDead, opened]
  exact decide_eq_true rfl

/-- The closing of a fence gives back, and counts, every buffer of the dead owner. -/
theorem closeFence_lth (s : State) (f : Fence) : (closeFence s f).lth
    = { freeAll s.lth f.owner with fence := none, reclaim := bump s.lth.reclaim (holdCount s.lth f.owner), err := setErr s.lth.err 4 } := by
  unfold closeFence
  dsimp only
  rw [dropHeld_lth]
  rfl

section
variable {s : State} {f : Fence}

theorem fenceConfirm_noFence (closed : s.lth.fence = none) (u : FenceUser) (ep : BitVec 16) : fenceConfirm s u ep = s := by
  rw [fenceConfirm, closed]

theorem fenceStuck_noFence (closed : s.lth.fence = none) : fenceStuck s = s := by
  rw [fenceStuck, closed]

/-- A fence with a user that has not confirmed stays open. -/
theorem fenceMoves_waits (undone : f.done = false) : fenceMoves s f = { s with lth := { s.lth with fence := some f } } :=
  if_neg (by simp [undone])

/-- The last confirmation closes the fence; with no command behind it that is all. -/
theorem fenceMoves_closes (done : f.done = true) (queue : s.lth.queue = []) : fenceMoves s f = closeFence { s with lth := { s.lth with fence := some f } } f := by
  have empty : (closeFence { s with lth := { s.lth with fence := some f } } f).lth.queue = [] := by
    rw [closeFence_lth]
    exact queue
  exact (if_pos done).trans (lathRun_empty empty _)

variable (opened : s.lth.fence = some f)
include opened

theorem fenceConfirm_otherEpoch {ep : BitVec 16} (other : ep ≠ f.epoch) (u : FenceUser) : fenceConfirm s u ep = s := by
  rw [fenceConfirm, opened]
  exact if_pos other.symm

theorem fenceConfirm_engine (e : Fin 64) : fenceConfirm s (.engine e) f.epoch = fenceMoves s { f with engines := putBit f.engines e.val false } := by
  rw [fenceConfirm, opened]
  exact if_neg (· rfl)

theorem fenceConfirm_skm : fenceConfirm s .skm f.epoch = fenceMoves s { f with skm := false } := by
  rw [fenceConfirm, opened]
  exact if_neg (· rfl)

theorem fenceStuck_waits (undone : f.done = false) :
    fenceStuck s = journal { s with lth := { s.lth with err := setErr s.lth.err 5 } } 0x11 deviceId (leBytes 2 s.lth.epoch.toNat ++ [0, 0] ++ leBytes 4 (fenceWait f)) := by
  rw [fenceStuck, opened]
  exact if_neg (by simp [undone])

end

/-- A filter that keeps the entry an array reads at an index keeps what it reads there. -/
theorem Tab.get_filter_kept {α : Type} (d : α) {t : Tab α} {k : Nat} {f : Nat × α → Bool} (kept : f (k, Tab.get d t k) = true) :
    Tab.get d (t.filter f) k = Tab.get d t k := by
  induction t with
  | nil => rfl
  | cons e r ih =>
    obtain ⟨j, v⟩ := e
    rw [Tab.get] at kept ⊢
    by_cases at_k : j = k
    · rw [if_pos at_k] at kept ⊢
      subst at_k
      rw [List.filter_cons_of_pos kept, Tab.get, if_pos rfl]
    · rw [if_neg at_k] at kept ⊢
      rw [← ih kept, List.filter_cons]
      split
      · rw [Tab.get, if_neg at_k]
      · rfl

/-- A buffer of another owner stays with it. -/
theorem freeAll_ownerOf {l : Lath} {o : Owner} {h : Nat} (other : ownerOf l h ≠ some o) : ownerOf (freeAll l o) h = ownerOf l h :=
  Tab.get_filter_kept none (by rw [← ownerOf, decide_eq_false other]; rfl)

/-! ## LTH_LEG_FRAMES, R338 -/

section
variable {s : State} (p : Nat) (v : BitVec 32)

/-- Frames of a legacy pool that a write asks for: an even number in the pool of 128 KiB. -/
def legAsked (p : Nat) (v : BitVec 32) : Nat := if p = 4 then v.toNat % 2 ^ 22 - v.toNat % 2 ^ 22 % 2 else v.toNat % 2 ^ 22

/-- Lath with that many frames in the pool. -/
def Lath.withLeg (l : Lath) (p : Nat) (v : BitVec 32) : Lath := { l with leg := Tab.put 0 l.leg p (legAsked p v) }

def legSum (l : Lath) : Nat := legFrames l 1 + legFrames l 2 + legFrames l 3 + legFrames l 4

theorem legFramesWrite_taken (unowned : s.lth.owners = []) (room : legSum (s.lth.withLeg p v) + 1048576 ≤ 3137536) :
    legFramesWrite s p v = { s with lth := s.lth.withLeg p v } := by
  refine if_neg (fun barred => ?_)
  rcases Bool.or_eq_true_iff.mp barred with owned | full
  · simp [unowned] at owned
  · exact Nat.not_le.mpr (of_decide_eq_true full) room

theorem legFramesWrite_refused (refused : s.lth.owners ≠ [] ∨ 3137536 < legSum (s.lth.withLeg p v) + 1048576) :
    legFramesWrite s p v = s.lathRefused := by
  refine if_pos (Bool.or_eq_true_iff.mpr (refused.imp (fun owned => ?_) decide_eq_true))
  simp [owned]

end

/-! ## The statement -/

/-- Settles O43: each host command as the mailbox starts it, and the fence by whether a user has still to confirm. -/
theorem lathFence : Obligations.LathFence := by
  unfold Obligations.LathFence
  intro s live
  have answers {t u : State} : t = u → act s t = .next u := act_eq_next live
  refine ⟨?host, fun u op o mb busy => ?busy, fun op o free queue fence _ => lathCommand_idle ⟨queue, fence⟩ free true op o none, ?fence,
    fun closed u ep => ⟨answers (fenceConfirm_noFence closed u ep), answers (fenceStuck_noFence closed)⟩, ?leg⟩
  case host =>
    intro r i x owner pool quad handle newCls
    have noArg : ¬((false : Bool) = true ∧ r.hcs = 2) := fun bad => nomatch bad.1
    refine ⟨fun h valid => answers (lathFrom_host h (fun bad => ?_) _ _ rfl), fun h => answers (lathFrom_host h noArg _ _ rfl), fun h => answers (lathFrom_host h noArg _ _ rfl),
      fun h => answers (lathFrom_host_forbidden h noArg _ _ rfl), fun h => answers (lathFrom_host_forbidden h noArg _ _ rfl), fun h => answers (lathFrom_host h noArg _ _ rfl)⟩
    exact valid.elim (· (of_decide_eq_true bad.1)) (· bad.2)
  case busy =>
    cases mb with
    | none => exact lathCommand_busy busy u op o
    | some r => exact lathCommand_busy_mailbox busy u op o r
  case fence =>
    intro f opened
    refine ⟨fun h => ?dead, fun u ep other => answers (fenceConfirm_otherEpoch opened other u), fun e unconfirmed => answers ?engine, ?last, fun undone => answers (fenceStuck_waits opened undone)⟩
    case dead =>
      dsimp only
      rw [lathDo_free h true (lathFree_dead (isDead_owner opened))]
      exact ⟨rfl, rfl, rfl, rfl⟩
    case engine =>
      rw [fenceConfirm_engine opened, fenceMoves_waits]
      simp [Fence.done, unconfirmed]
    case last =>
      intro engines mnd rnd host queue
      have done : Fence.done { f with skm := false } = true := by simp [Fence.done, engines, mnd, rnd, host]
      refine .of_act live (congrArg (act s) ((fenceConfirm_skm opened).trans (fenceMoves_closes done queue))) ?_
      rw [closeFence_lth]
      refine ⟨rfl, freeAll_holdsAny _ f.owner, rfl, ?_, fun h other _ => freeAll_ownerOf other⟩
      rw [setErr_getLsbD _ _ _ (by decide), decide_eq_true rfl, Bool.or_true]
  case leg =>
    intro p value
    exact ⟨fun unowned room => answers (legFramesWrite_taken _ _ unowned room), fun refused => answers (legFramesWrite_refused _ _ refused)⟩

end Sys2Proof.Machine

/-! What the judgement of time sources can reach: Plumb and the readiness bits (R292 to R304). -/

namespace Sys2Proof.Machine

/-! ## Passes that keep a view of the state -/

/-- A run of steps of which each keeps a view of the state keeps it. -/
theorem foldl_keeps {σ ι β : Type} (view : σ → β) {step : σ → ι → σ} (h : ∀ s i, view (step s i) = view s) (l : List ι) (s : σ) :
    view (l.foldl step s) = view s :=
  List.foldlRecOn (motive := fun t => view t = view s) l step rfl fun t ht i _ => (h t i).trans ht

/-! ## What reaches Plumb alone -/

/-- The second state differs from the first in Plumb and in TOP, which shows its readiness. -/
def PlumbOnly (s t : State) : Prop := ∃ p r, t = { s with plb := p, top := r }

namespace PlumbOnly

variable {s t u : State}

theorem refl (s : State) : PlumbOnly s s := ⟨s.plb, s.top, rfl⟩

theorem trans (h : PlumbOnly s t) (h' : PlumbOnly t u) : PlumbOnly s u := by
  obtain ⟨p, r, rfl⟩ := h
  obtain ⟨p', r', rfl⟩ := h'
  exact ⟨p', r', rfl⟩

/-- Another content of Plumb alone. -/
theorem plb (h : PlumbOnly s t) (p : Plb) : PlumbOnly s { t with plb := p } := h.trans ⟨p, t.top, rfl⟩

theorem src (h : PlumbOnly s t) (i : Nat) (x : Src) : PlumbOnly s (t.setSrc i x) := h.plb _

theorem ite {c : Prop} [Decidable c] (h : PlumbOnly s t) (h' : PlumbOnly s u) : PlumbOnly s (if c then t else u) :=
  iteInduction (fun _ => h) fun _ => h'

theorem rnd (h : PlumbOnly s t) : t.rnd = s.rnd := by
  obtain ⟨p, r, rfl⟩ := h
  rfl

theorem sng (h : PlumbOnly s t) : t.sng = s.sng := by
  obtain ⟨p, r, rfl⟩ := h
  rfl

theorem slr (h : PlumbOnly s t) : t.slr = s.slr := by
  obtain ⟨p, r, rfl⟩ := h
  rfl

end PlumbOnly

theorem setInc_plumbOnly (s : State) (v : Nat) : PlumbOnly s (setInc s v) := (PlumbOnly.refl s).plb _

theorem ppsFollow_plumbOnly (s : State) : PlumbOnly s (ppsFollow s) :=
  (PlumbOnly.refl s).ite (((PlumbOnly.refl s).plb _).ite ((PlumbOnly.refl s).plb _))

theorem setPlbSt_plumbOnly (s : State) (st : PlbSt) : PlumbOnly s (setPlbSt s st) := by
  by_cases same : st = s.plb.st
  · rw [setPlbSt, if_pos same]
    exact .refl s
  · rw [setPlbSt_changed same]
    exact .trans ⟨_, _, rfl⟩ (ppsFollow_plumbOnly _)

theorem holdSteer_plumbOnly (s : State) : PlumbOnly s (holdSteer s) := ((PlumbOnly.refl s).plb _).trans (setInc_plumbOnly ..)

theorem servoInc_plumbOnly (s : State) : PlumbOnly s (servoInc s) := ((PlumbOnly.refl s).plb _).trans (setInc_plumbOnly ..)

theorem enterHoldover_plumbOnly (s : State) : PlumbOnly s (enterHoldover s) :=
  (PlumbOnly.refl s).ite ((setPlbSt_plumbOnly ..).trans (holdSteer_plumbOnly _))

theorem plbSettle_plumbOnly (s : State) : PlumbOnly s (plbSettle s) := by
  refine (setPlbSt_plumbOnly ..).ite ?_
  cases s.plb.selected with
  | some i => exact (setPlbSt_plumbOnly ..).ite (.refl s)
  | none => exact (PlumbOnly.refl s).ite (enterHoldover_plumbOnly s)

theorem reselect_plumbOnly (s : State) : PlumbOnly s (reselect s) :=
  (PlumbOnly.refl s).ite (((PlumbOnly.refl s).plb _).trans (plbSettle_plumbOnly _))

theorem requalify_plumbOnly (s : State) : PlumbOnly s (requalify s) := by
  have judged : PlumbOnly s (requalified s) := List.foldlRecOn (motive := PlumbOnly s) _ qualify (.refl s) fun t h i _ => h.src i _
  have chosen := judged.trans (reselect_plumbOnly _)
  unfold requalify
  dsimp only
  split
  · exact chosen.trans (holdSteer_plumbOnly _)
  · exact chosen

theorem suspendSrc_plumbOnly (s : State) (i : Nat) : PlumbOnly s (suspendSrc s i) := (PlumbOnly.refl s).plb _

theorem suspend_plumbOnly (s : State) (i : Nat) : PlumbOnly s (suspend s i) := (suspendSrc_plumbOnly s i).trans (requalify_plumbOnly _)

/-! ## Measurements of a far source, R292, R301 and R305 -/

theorem acceptSelected_plumbOnly (s : State) (off : Int) : PlumbOnly s (acceptSelected s off) := by
  have taken : PlumbOnly s (filtered s off) := (PlumbOnly.refl s).plb _
  have steered := taken.trans (servoInc_plumbOnly _)
  rw [acceptSelected_eq]
  refine ((PlumbOnly.refl s).plb _).ite (taken.ite (steered.trans ?_))
  exact (setPlbSt_plumbOnly ..).ite ((setPlbSt_plumbOnly ..).ite (.refl _))

theorem judge_plumbOnly (s : State) (i : Nat) (off delay : Int) : PlumbOnly s (judge s i off delay) := by
  unfold judge
  dsimp only
  split
  · exact ⟨_, _, rfl⟩
  · split
    · split
      · exact (((PlumbOnly.refl s).src i _).src i _).trans (acceptSelected_plumbOnly ..)
      · split
        · split
          · exact .trans ⟨_, _, rfl⟩ (suspendSrc_plumbOnly ..)
          · exact ⟨_, _, rfl⟩
        · exact ⟨_, _, rfl⟩
    · split
      · exact ⟨_, _, rfl⟩
      · exact ⟨_, _, rfl⟩

theorem measure_plumbOnly (s : State) (i : Nat) (off delay : Int) : PlumbOnly s (measure s i off delay) :=
  (judge_plumbOnly s i off delay).trans (requalify_plumbOnly _)

theorem timeMessage_plumbOnly (s : State) (b : Nat) (m : TimeMsg) (rx : FullTime) : PlumbOnly s (timeMessage s b m rx) := by
  have heard {x : Src} : PlumbOnly s (s.setSrc (b + 2) x) := (PlumbOnly.refl s).src _ x
  have noted {x : Src} : PlumbOnly s (requalify (s.setSrc (b + 2) x)) := heard.trans (requalify_plumbOnly _)
  refine noted.ite ((PlumbOnly.refl s).ite (noted.ite (.ite ?_ (heard.trans (measure_plumbOnly ..)))))
  exact (heard.src _ _).trans (requalify_plumbOnly _)

end Sys2Proof.Machine

/-! What the judgement of a bond and a defect leave of lanes, bonds, the ledger and the keys (R375, R382, R389 to R393). -/

namespace Sys2Proof.Machine

/-! ## The view that a judgement keeps -/

/-- A lane but for its hold, the frames it holds, and what a defect notes of itself. -/
def RLane.unjudged (x : RLane) : RLane := { x with hold := 0, frames := [], err := 0, oofCount := 0, rangeCount := 0 }

/-- A bond but for its STATE, its reference lane, its messages under way, and its flags. -/
def Bond.unjudged (x : Bond) : Bond :=
  { x with st := 0, ref := none, lastRef := none, err := 0, p0Left := 0, p0Got := [], p1Left := 0, p1Got := [], p2Left := 0, p2Got := [], pchTrunc := 0 }

/-- Every lane as a judgement and a defect leave it. -/
def State.lanesKept (s : State) (g : Nat) : RLane := (s.lane g).unjudged

/-- Every bond as a judgement leaves it. -/
def State.bondsKept (s : State) (b : Nat) : Bond := (s.bond b).unjudged

/-- What a judgement of a bond keeps: lanes and bonds but for what it judges, the ledger, and the keys. -/
structure Judged (s t : State) : Prop where
  lanes : t.lanesKept = s.lanesKept
  bonds : t.bondsKept = s.bondsKept
  sng : t.sng = s.sng
  slr : t.slr = s.slr

namespace Judged

variable {s t u : State}

theorem refl (s : State) : Judged s s := ⟨rfl, rfl, rfl, rfl⟩

theorem trans (h : Judged s t) (h' : Judged t u) : Judged s u := ⟨h'.lanes.trans h.lanes, h'.bonds.trans h.bonds, h'.sng.trans h.sng, h'.slr.trans h.slr⟩

theorem foldl {ι : Type} {f : State → ι → State} (h : ∀ s i, Judged s (f s i)) (l : List ι) (s : State) : Judged s (l.foldl f s) :=
  List.foldlRecOn (motive := Judged s) l f (refl s) fun t ht i _ => ht.trans (h t i)

theorem lane (h : Judged s t) (g : Nat) : (t.lane g).unjudged = (s.lane g).unjudged := congrFun h.lanes g

theorem bond (h : Judged s t) (b : Nat) : (t.bond b).unjudged = (s.bond b).unjudged := congrFun h.bonds b

theorem part (h : Judged s t) (p : Nat) : t.part p = s.part p := by rw [State.part, State.part, h.sng]

theorem sbond (h : Judged s t) (b : Nat) : t.sbond b = s.sbond b := by rw [State.sbond, State.sbond, h.slr]

end Judged

theorem RLane.inSvc_unjudged (x : RLane) : x.unjudged.inSvc = x.inSvc := rfl

theorem RLane.inSvc_of_unjudged {x y : RLane} (h : x.unjudged = y.unjudged) : x.inSvc = y.inSvc := by
  rw [← x.inSvc_unjudged, h, RLane.inSvc_unjudged]

@[simp] theorem Bond.ports_unjudged (x : Bond) : x.unjudged.ports = x.ports := rfl

theorem Bond.ports_of_unjudged {x y : Bond} (h : x.unjudged = y.unjudged) : x.ports = y.ports := by
  rw [← x.ports_unjudged, h, Bond.ports_unjudged]

theorem lanesKept_setLane {s : State} {g : Nat} {x : RLane} (same : x.unjudged = (s.lane g).unjudged) : (s.setLane g x).lanesKept = s.lanesKept := by
  funext h
  unfold State.lanesKept
  by_cases here : h = g
  · rw [here, State.setLane_lane, same]
  · rw [State.setLane_lane_ne _ _ _ _ here]

theorem bondsKept_setBond {s : State} {b : Nat} {x : Bond} (same : x.unjudged = (s.bond b).unjudged) : (s.setBond b x).bondsKept = s.bondsKept := by
  funext c
  unfold State.bondsKept
  by_cases here : c = b
  · rw [here, State.setBond_bond, same]
  · rw [State.setBond_bond_ne _ _ _ _ here]

theorem setLane_judged {s : State} {g : Nat} {x : RLane} (same : x.unjudged = (s.lane g).unjudged) : Judged s (s.setLane g x) :=
  ⟨lanesKept_setLane same, rfl, rfl, rfl⟩

theorem setBond_judged {s : State} {b : Nat} {x : Bond} (same : x.unjudged = (s.bond b).unjudged) : Judged s (s.setBond b x) :=
  ⟨rfl, bondsKept_setBond same, rfl, rfl⟩

theorem PlumbOnly.judged {s t : State} (h : PlumbOnly s t) : Judged s t :=
  ⟨by unfold State.lanesKept State.lane; rw [h.rnd], by unfold State.bondsKept State.bond; rw [h.rnd], h.sng, h.slr⟩

theorem suspend_judged (s : State) (i : Nat) : Judged s (suspend s i) := (suspend_plumbOnly s i).judged

/-! ## The parts of a judgement, R375, R382 and R389 -/

/-- The state once a lane has left service. -/
def leaveService (s : State) (g : Nat) : State := s.setLane g { s.lane g with hold := 0, frames := if (s.lane g).leavesInStep then (s.lane g).frames else [] }

/-- The state once a lane has entered service, and holds frames by the bond's delay less its own. -/
def enterService (b : Nat) (s : State) (g : Nat) : State := s.setLane g { s.lane g with hold := (holdNs s b (s.lane g)).toNat }

/-- The state once the lanes of a bond that have left or entered service have done so. -/
def serviceJudged (old s : State) (b : Nat) : State :=
  ((svcLanes s b).filter fun g => !(svcLanes old b).contains g).foldl (enterService b)
    (((svcLanes old b).filter fun g => !(svcLanes s b).contains g).foldl leaveService s)

/-- The flags of a bond that lanes have left, or that has gone DOWN. -/
def judgedErr (old s : State) (b : Nat) : BitVec 32 :=
  let err := if ((svcLanes old b).filter fun g => !(svcLanes s b).contains g).isEmpty then (s.bond b).err else setErr (s.bond b).err 1
  if bondState (serviceJudged old s b) b = 1 ∧ (s.bond b).st ≠ 1 then setErr err 0 else err

/-- The state once a bond has its STATE and its flags, and the pair link has gone with a bond that fell. -/
def stateJudged (old s : State) (b : Nat) : State :=
  let st := bondState (serviceJudged old s b) b
  let t := (serviceJudged old s b).setBond b { s.bond b with st := BitVec.ofNat 2 st, err := judgedErr old s b }
  if st ≤ 1 ∧ 2 ≤ (s.bond b).st.toNat then pairDown t (s.bond b).ports else t

/-- The state once the messages under way on a reference lane that goes have been cut. -/
def refLeft (s : State) (b : Nat) : State := if (s.bond b).ref.isSome then cutMessages s b else s

/-- The state once a bond has a reference lane, or none. -/
def refTaken (s : State) (b : Nat) : Option Nat → State
  | none => s.setBond b { s.bond b with ref := none }
  | some g =>
    if (s.bond b).lastRef.isNone || decide ((s.bond b).lastRef = some g) then s.setBond b { s.bond b with ref := some g, lastRef := some g }
    else suspend (s.setBond b { s.bond b with ref := some g, lastRef := some g, err := setErr (s.bond b).err 2 }) (b + 2)

theorem settleRef_eq (s : State) (b : Nat) :
    settleRef s b = if (svcLanes s b).head? = (s.bond b).ref then s else refTaken (refLeft s b) b (svcLanes s b).head? := by
  unfold settleRef
  cases (svcLanes s b).head? <;> rfl

theorem settle_disabled {s : State} {b : Nat} (off : (s.bond b).en = false) (old : State) : settle old s b = s.setBond b { s.bond b with st := 0, ref := none } :=
  if_pos (by rw [off]; rfl)

theorem settle_enabled {s : State} {b : Nat} (on : (s.bond b).en = true) (old : State) : settle old s b
    = (portsOf (s.bond b).ports).foldl (fun t p => setFarReady t p (decide (2 ≤ bondState (serviceJudged old s b) b))) (settleRef (stateJudged old s b) b) :=
  if_neg (by rw [on]; exact Bool.false_ne_true)

theorem serviceJudged_bond (old s : State) (b c : Nat) : (serviceJudged old s b).bond c = s.bond c :=
  (foldl_keeps (State.bond · c) (step := enterService b) (fun _ _ => rfl) _ _).trans (foldl_keeps (State.bond · c) (step := leaveService) (fun _ _ => rfl) _ _)

theorem serviceJudged_judged (old s : State) (b : Nat) : Judged s (serviceJudged old s b) :=
  (Judged.foldl (f := leaveService) (fun _ _ => setLane_judged rfl) _ _).trans (Judged.foldl (f := enterService b) (fun _ _ => setLane_judged rfl) _ _)

theorem pairDown_frame (s : State) (ports : BitVec 16) : ∃ x, pairDown s ports = { s with se := x } := by
  unfold pairDown
  split
  · exact ⟨s.se, rfl⟩
  · exact ⟨_, rfl⟩

theorem pairDown_judged (s : State) (ports : BitVec 16) : Judged s (pairDown s ports) := by
  obtain ⟨x, h⟩ := pairDown_frame s ports
  rw [h]
  exact ⟨rfl, rfl, rfl, rfl⟩

theorem setFarReady_judged (s : State) (p : Nat) (b : Bool) : Judged s (setFarReady s p b) := ⟨rfl, rfl, rfl, rfl⟩

theorem cutMessages_judged (s : State) (b : Nat) : Judged s (cutMessages s b) := setBond_judged rfl

theorem stateJudged_judged (old s : State) (b : Nat) : Judged s (stateJudged old s b) := by
  have noted : Judged s ((serviceJudged old s b).setBond b { s.bond b with st := BitVec.ofNat 2 (bondState (serviceJudged old s b) b), err := judgedErr old s b }) :=
    (serviceJudged_judged old s b).trans (setBond_judged (by rw [serviceJudged_bond]; rfl))
  unfold stateJudged
  dsimp only
  split
  · exact noted.trans (pairDown_judged ..)
  · exact noted

theorem refLeft_judged (s : State) (b : Nat) : Judged s (refLeft s b) := by
  unfold refLeft
  split
  · exact cutMessages_judged s b
  · exact .refl s

theorem refTaken_judged (s : State) (b : Nat) : (now : Option Nat) → Judged s (refTaken s b now)
  | none => setBond_judged rfl
  | some g => by
    dsimp only [refTaken]
    split
    · exact setBond_judged rfl
    · refine .trans ?_ (suspend_judged ..)
      exact setBond_judged rfl

theorem settleRef_judged (s : State) (b : Nat) : Judged s (settleRef s b) := by
  rw [settleRef_eq]
  split
  · exact .refl s
  · exact (refLeft_judged s b).trans (refTaken_judged ..)

/-- The judgement of a bond reaches no lane, no bond, no key and no record of the ledger beyond what it judges. -/
theorem settle_judged (old s : State) (b : Nat) : Judged s (settle old s b) := by
  cases en : (s.bond b).en with
  | false =>
    rw [settle_disabled en]
    exact setBond_judged rfl
  | true =>
    rw [settle_enabled en]
    exact ((stateJudged_judged old s b).trans (settleRef_judged ..)).trans (Judged.foldl (fun _ _ => setFarReady_judged ..) _ _)

theorem settleLane_judged (old s : State) (g : Nat) : Judged s (settleLane old s g) := by
  unfold settleLane
  split
  · exact settle_judged ..
  · exact .refl s

/-! ## Defects, R390, R391 and R393 -/

theorem LedgerOnly.lane {s t : State} (h : LedgerOnly s t) (g : Nat) : t.lane g = s.lane g := by
  obtain ⟨x, rfl⟩ := h
  rfl

theorem LedgerOnly.bond {s t : State} (h : LedgerOnly s t) (b : Nat) : t.bond b = s.bond b := by
  obtain ⟨x, rfl⟩ := h
  rfl

theorem LedgerOnly.slr {s t : State} (h : LedgerOnly s t) : t.slr = s.slr := by
  obtain ⟨x, rfl⟩ := h
  rfl

theorem bondOfLane_of_bond {s t : State} (h : ∀ b, t.bond b = s.bond b) (g : Nat) : bondOfLane t g = bondOfLane s g := by
  simp only [bondOfLane, h]

def RLane.withErr (x : RLane) (set : Bool) (code : Nat) : RLane := if set then { x with err := setErr x.err code } else x
def RLane.withOof (x : RLane) (counts : Bool) : RLane := if counts then { x with oofCount := bump x.oofCount 1 } else x
def RLane.withRange (x : RLane) (counts : Bool) : RLane := if counts then { x with rangeCount := bump x.rangeCount 1 } else x

/-- The lane of a defect that has been declared: its flag and its counts, where it is the highest. -/
def RLane.flagged (x : RLane) (code : Nat) (allLos : Bool) : RLane :=
  let top := decide (x.defects.head? = some code)
  ((x.withErr (top && !allLos) code).withOof (top && decide (code = 4))).withRange (top && decide (code = 7))

theorem RLane.flagged_unjudged (x : RLane) (code : Nat) (allLos : Bool) : (x.flagged code allLos).unjudged = x.unjudged := by
  have err (x : RLane) (c : Bool) : (x.withErr c code).unjudged = x.unjudged := by cases c <;> rfl
  have oof (x : RLane) (c : Bool) : (x.withOof c).unjudged = x.unjudged := by cases c <;> rfl
  have range (x : RLane) (c : Bool) : (x.withRange c).unjudged = x.unjudged := by cases c <;> rfl
  rw [RLane.flagged, range, oof, err]

/-- Whether every lane of a lane's port has lost its signal. -/
def portLost (s : State) (g code : Nat) : Bool :=
  decide (code = 1) && (List.range 8).all fun l => if 8 * (g / 8) + l = g then true else (s.lane (8 * (g / 8) + l)).los

/-- The state once the flag of a port that has lost every signal is set. -/
def portFlagged (s : State) (g code : Nat) : State :=
  if portLost s g code then s.setRport (g / 8) { s.rport (g / 8) with err := setErr (s.rport (g / 8)).err 0 } else s

theorem portFlagged_frame (s : State) (g code : Nat) : ∃ t, portFlagged s g code = { s with rnd := { s.rnd with ports := t } } := by
  unfold portFlagged
  split
  · exact ⟨_, rfl⟩
  · exact ⟨s.rnd.ports, rfl⟩

/-- A defect is declared of a lane that is not RETIRED and has an enabled bond. -/
theorem declareDefect_raises {s : State} {g b : Nat} {x : RLane} (bonded : bondOfLane s g = some b) (working : x.retired = false) (code : Nat) :
    declareDefect s g code x = (journal (countDefect (portFlagged s g code) (farPart g)) 0x01 (farPart g) [BitVec.ofNat 8 code, 1]).setLane g (x.flagged code (portLost s g code)) :=
  if_neg (by simp [bonded, working])

theorem declareDefect_silent {s : State} {g : Nat} {x : RLane} (silent : x.retired = true ∨ bondOfLane s g = none) (code : Nat) : declareDefect s g code x = s.setLane g x :=
  if_pos (by rcases silent with h | h <;> simp [h])

theorem withdrawDefect_silent {s : State} {g : Nat} {x : RLane} (silent : x.retired = true ∨ bondOfLane s g = none) (code : Nat) : withdrawDefect s g code x = s.setLane g x :=
  if_pos (by rcases silent with h | h <;> simp [h])

theorem withdrawDefect_frame (s : State) (g code : Nat) (x : RLane) : ∃ t, LedgerOnly s t ∧ withdrawDefect s g code x = t.setLane g x := by
  unfold withdrawDefect
  split
  · exact ⟨s, .refl s, rfl⟩
  · exact ⟨_, journal_ledgerOnly .., rfl⟩

/-- A declaration writes its lane, the flags of its port and the ledger, and of the lane no more than was asked but flags and counts. -/
theorem declareDefect_frame (s : State) (g code : Nat) (x : RLane) :
    ∃ t y, (∃ p l, t = { s with rnd := { s.rnd with ports := p }, sng := l }) ∧ y.unjudged = x.unjudged ∧ declareDefect s g code x = t.setLane g y := by
  by_cases silent : x.retired = true ∨ bondOfLane s g = none
  · exact ⟨s, x, ⟨s.rnd.ports, s.sng, rfl⟩, rfl, declareDefect_silent silent code⟩
  · obtain ⟨working, bonded⟩ := not_or.1 silent
    obtain ⟨b, bonded⟩ := Option.ne_none_iff_exists'.1 bonded
    obtain ⟨p, flagged⟩ := portFlagged_frame s g code
    obtain ⟨l, noted⟩ := (countDefect_ledgerOnly (portFlagged s g code) (farPart g)).trans (journal_ledgerOnly _ 0x01 (farPart g) [BitVec.ofNat 8 code, 1])
    refine ⟨_, _, ⟨p, l, ?_⟩, x.flagged_unjudged code (portLost s g code), declareDefect_raises bonded (eq_false_of_ne_true working) code⟩
    rw [noted, flagged]

theorem declareDefect_lanesKept (s : State) (g code : Nat) (x : RLane) : (declareDefect s g code x).lanesKept = (s.setLane g x).lanesKept := by
  obtain ⟨t, y, ⟨p, l, rfl⟩, same, h⟩ := declareDefect_frame s g code x
  rw [h]
  funext k
  unfold State.lanesKept
  by_cases here : k = g
  · rw [here, State.setLane_lane, State.setLane_lane, same]
  · rw [State.setLane_lane_ne _ _ _ _ here, State.setLane_lane_ne _ _ _ _ here]
    rfl

theorem declareDefect_bond (s : State) (g code : Nat) (x : RLane) (b : Nat) : (declareDefect s g code x).bond b = s.bond b := by
  obtain ⟨t, y, ⟨p, l, rfl⟩, -, h⟩ := declareDefect_frame s g code x
  rw [h]
  rfl

theorem declareDefect_slr (s : State) (g code : Nat) (x : RLane) : (declareDefect s g code x).slr = s.slr := by
  obtain ⟨t, y, ⟨p, l, rfl⟩, -, h⟩ := declareDefect_frame s g code x
  rw [h]
  rfl

theorem withdrawDefect_lane (s : State) (g code : Nat) (x : RLane) (k : Nat) : (withdrawDefect s g code x).lane k = (s.setLane g x).lane k := by
  obtain ⟨t, ledger, h⟩ := withdrawDefect_frame s g code x
  rw [h]
  by_cases here : k = g
  · rw [here, State.setLane_lane, State.setLane_lane]
  · rw [State.setLane_lane_ne _ _ _ _ here, State.setLane_lane_ne _ _ _ _ here, ledger.lane]

theorem withdrawDefect_bond (s : State) (g code : Nat) (x : RLane) (b : Nat) : (withdrawDefect s g code x).bond b = s.bond b := by
  obtain ⟨t, ledger, h⟩ := withdrawDefect_frame s g code x
  rw [h, State.setLane_bond, ledger.bond]

/-- A defect that is raised leaves its lane as it was asked, and every other lane as it was. -/
theorem raiseDefect_lanesKept (s : State) (g code : Nat) (x : RLane) : (raiseDefect s g code x).lanesKept = (s.setLane g x).lanesKept :=
  (settleLane_judged ..).lanes.trans (declareDefect_lanesKept ..)

theorem clearDefect_lanesKept (s : State) (g code : Nat) (x : RLane) : (clearDefect s g code x).lanesKept = (s.setLane g x).lanesKept :=
  (settleLane_judged ..).lanes.trans (funext fun k => congrArg RLane.unjudged (withdrawDefect_lane s g code x k))

theorem laneChange_lanesKept (s : State) (g : Nat) (x : RLane) : (laneChange s g x).lanesKept = (s.setLane g x).lanesKept := (settleLane_judged ..).lanes

theorem raiseDefect_bondsKept (s : State) (g code : Nat) (x : RLane) : (raiseDefect s g code x).bondsKept = s.bondsKept :=
  (settleLane_judged ..).bonds.trans (funext fun b => congrArg Bond.unjudged (declareDefect_bond s g code x b))

theorem setLane_lanesKept_self (s : State) (g : Nat) (x : RLane) : (s.setLane g x).lanesKept g = x.unjudged := congrArg RLane.unjudged (State.setLane_lane s g x)

theorem raiseDefect_lane (s : State) (g code : Nat) (x : RLane) : ((raiseDefect s g code x).lane g).unjudged = x.unjudged :=
  (congrFun (raiseDefect_lanesKept s g code x) g).trans (setLane_lanesKept_self s g x)

theorem clearDefect_lane (s : State) (g code : Nat) (x : RLane) : ((clearDefect s g code x).lane g).unjudged = x.unjudged :=
  (congrFun (clearDefect_lanesKept s g code x) g).trans (setLane_lanesKept_self s g x)

theorem laneChange_lane (s : State) (g : Nat) (x : RLane) : ((laneChange s g x).lane g).unjudged = x.unjudged :=
  (congrFun (laneChange_lanesKept s g x) g).trans (setLane_lanesKept_self s g x)

theorem settleLane_noBond {s : State} {g : Nat} (unbonded : bondOfLane s g = none) (old : State) : settleLane old s g = s := by
  rw [settleLane, unbonded]

/-- A lane of no enabled bond raises no defect and clears none. -/
theorem defect_noBond {s : State} {g : Nat} (unbonded : bondOfLane s g = none) (code : Nat) (x : RLane) :
    raiseDefect s g code x = s.setLane g x ∧ clearDefect s g code x = s.setLane g x := by
  have still : settleLane s (s.setLane g x) g = s.setLane g x := settleLane_noBond (s := s.setLane g x) unbonded s
  rw [raiseDefect, clearDefect, declareDefect_silent (.inr unbonded), withdrawDefect_silent (.inr unbonded)]
  exact ⟨still, still⟩

/-! ## The ledger's record of a defect, R565 and R567 -/

theorem farPart_lane (g : Fin 128) : (farPart g.val).toNat = 3 * 4096 + g.val := by
  rw [farPart, partId, BitVec.toNat_ofNat]
  omega

theorem journal_pend (s : State) (type : Nat) (part : BitVec 16) (body : List Byte) :
    ∃ e, (journal s type part body).sng.pend = s.sng.pend ++ [e] ∧ e.type = BitVec.ofNat 8 type ∧ e.part = part ∧ e.body = padTo 0 36 body := by
  unfold journal
  dsimp only
  split
  · exact ⟨_, rfl, rfl, rfl, rfl⟩
  · exact ⟨_, rfl, rfl, rfl, rfl⟩

/-- A defect that is raised on a working lane of a bond is counted and recorded. -/
theorem raiseDefect_recorded {s : State} {g b : Nat} {x : RLane} (bonded : bondOfLane s g = some b) (working : x.retired = false) (code : Nat) :
    ((raiseDefect s g code x).part (farPart g).toNat).defect = bump (s.part (farPart g).toNat).defect 1
      ∧ ∃ e, (raiseDefect s g code x).sng.pend = s.sng.pend ++ [e] ∧ e.type = 1 ∧ e.part = farPart g ∧ e.body = padTo 0 36 [BitVec.ofNat 8 code, 1] := by
  obtain ⟨p, port⟩ := portFlagged_frame s g code
  have ledger : (portFlagged s g code).sng = s.sng := by rw [port]
  have judged := settleLane_judged s (declareDefect s g code x) g
  have part := judged.part (farPart g).toNat
  have sng := judged.sng
  rw [declareDefect_raises bonded working, State.setLane_part] at part
  rw [declareDefect_raises bonded working, State.setLane_sng] at sng
  constructor
  · obtain ⟨q, entry⟩ := journal_part (countDefect (portFlagged s g code) (farPart g)) 0x01 (farPart g) [BitVec.ofNat 8 code, 1]
    rw [raiseDefect, declareDefect_raises bonded working, part, entry, countDefect_part, State.part, ledger, ← State.part]
  · obtain ⟨e, pend, type, subject, body⟩ := journal_pend (countDefect (portFlagged s g code) (farPart g)) 0x01 (farPart g) [BitVec.ofNat 8 code, 1]
    refine ⟨e, ?_, type, subject, body⟩
    rw [raiseDefect, declareDefect_raises bonded working, sng, pend, countDefect, State.setPart_sng_pend, ledger]

end Sys2Proof.Machine

/-! What ranging, the boundary of a multiframe and the overhead of a frame leave of the alignment of lanes and of the dialogue of bonds (R374 to R376, R381 to R387). -/

namespace Sys2Proof.Machine

/-! ## Alignment and dialogue -/

/-- The alignment of a lane: whether it is in frame, the bad alignment words in a row, the frame expected next, the octets that no frame has taken, and the bad overheads. -/
def RLane.framing (x : RLane) : Bool × Nat × Nat × List Byte × Count := (x.inFrame, x.badFaw, x.next, x.stream, x.ohcrcCount)

/-- What a bond holds of the ranging messages: the epochs of both devices and the times that its peer has sent. -/
def Bond.dialogue (x : Bond) : Option Byte × Byte × List (Nat × PCount) := (x.peerEpoch, x.ownEpoch, x.times)

def State.framings (s : State) (g : Nat) : Bool × Nat × Nat × List Byte × Count := (s.lane g).framing
def State.dialogues (s : State) (b : Nat) : Option Byte × Byte × List (Nat × PCount) := (s.bond b).dialogue

/-- From the first state to the second no lane's alignment and no bond's dialogue changes. -/
structure InStep (s t : State) : Prop where
  framings : t.framings = s.framings
  dialogues : t.dialogues = s.dialogues

namespace InStep

variable {s t u : State}

theorem refl (s : State) : InStep s s := ⟨rfl, rfl⟩

theorem trans (h : InStep s t) (h' : InStep t u) : InStep s u := ⟨h'.framings.trans h.framings, h'.dialogues.trans h.dialogues⟩

theorem foldl {ι : Type} {f : State → ι → State} (h : ∀ s i, InStep s (f s i)) (l : List ι) (s : State) : InStep s (l.foldl f s) :=
  List.foldlRecOn (motive := InStep s) l f (refl s) fun t ht i _ => ht.trans (h t i)

theorem ite {c : Prop} [Decidable c] (h : InStep s t) (h' : InStep s u) : InStep s (if c then t else u) :=
  iteInduction (fun _ => h) fun _ => h'

theorem of_rnd (h : t.rnd = s.rnd) : InStep s t :=
  ⟨by unfold State.framings State.lane; rw [h], by unfold State.dialogues State.bond; rw [h]⟩

end InStep

theorem framings_setLane {s : State} {g : Nat} {x : RLane} (same : x.framing = (s.lane g).framing) : (s.setLane g x).framings = s.framings := by
  funext h
  unfold State.framings
  by_cases here : h = g
  · rw [here, State.setLane_lane, same]
  · rw [State.setLane_lane_ne _ _ _ _ here]

theorem dialogues_setBond {s : State} {b : Nat} {x : Bond} (same : x.dialogue = (s.bond b).dialogue) : (s.setBond b x).dialogues = s.dialogues := by
  funext c
  unfold State.dialogues
  by_cases here : c = b
  · rw [here, State.setBond_bond, same]
  · rw [State.setBond_bond_ne _ _ _ _ here]

theorem framings_of_lanesKept {s t : State} (h : t.lanesKept = s.lanesKept) : t.framings = s.framings :=
  funext fun g => (congrArg RLane.framing (congrFun h g) :)

theorem dialogues_of_bondsKept {s t : State} (h : t.bondsKept = s.bondsKept) : t.dialogues = s.dialogues :=
  funext fun b => (congrArg Bond.dialogue (congrFun h b) :)

theorem setLane_inStep {s : State} {g : Nat} {x : RLane} (same : x.framing = (s.lane g).framing) : InStep s (s.setLane g x) := ⟨framings_setLane same, rfl⟩

theorem setBond_inStep {s : State} {b : Nat} {x : Bond} (same : x.dialogue = (s.bond b).dialogue) : InStep s (s.setBond b x) := ⟨rfl, dialogues_setBond same⟩

theorem Judged.inStep {s t : State} (h : Judged s t) : InStep s t := ⟨framings_of_lanesKept h.lanes, dialogues_of_bondsKept h.bonds⟩

theorem LedgerOnly.inStep {s t : State} (h : LedgerOnly s t) : InStep s t := .of_rnd (by obtain ⟨g, rfl⟩ := h; rfl)

theorem suspend_inStep (s : State) (i : Nat) : InStep s (suspend s i) := (suspend_judged s i).inStep

section
variable {s : State} {g : Nat} {x : RLane} (same : x.framing = (s.lane g).framing) (code : Nat)
include same

theorem declareDefect_inStep : InStep s (declareDefect s g code x) :=
  ⟨(framings_of_lanesKept (declareDefect_lanesKept s g code x)).trans (framings_setLane same), funext fun b => congrArg Bond.dialogue (declareDefect_bond s g code x b)⟩

theorem raiseDefect_inStep : InStep s (raiseDefect s g code x) := (declareDefect_inStep same code).trans (settleLane_judged ..).inStep

theorem withdrawDefect_inStep : InStep s (withdrawDefect s g code x) := by
  obtain ⟨t, ledger, h⟩ := withdrawDefect_frame s g code x
  rw [h]
  exact ledger.inStep.trans (setLane_inStep (same.trans (congrArg RLane.framing (ledger.lane g).symm)))

theorem clearDefect_inStep : InStep s (clearDefect s g code x) := (withdrawDefect_inStep same code).trans (settleLane_judged ..).inStep

end

/-! ## Ranging, R383, R384 and R387 -/

theorem enterRanging_inStep {s : State} {g : Nat} {x : RLane} (same : x.framing = (s.lane g).framing) (b mfn : Nat) (before after : BitVec 32) :
    InStep s (enterRanging s b g mfn x before after) := by
  have noted : LedgerOnly s (journal s 0x02 (farPart g) (leBytes 4 before.toNat ++ leBytes 4 after.toNat)) := journal_ledgerOnly ..
  unfold enterRanging
  refine (noted.inStep.trans (raiseDefect_inStep ?_ 7)).trans (suspend_inStep ..)
  exact same.trans (congrArg RLane.framing (noted.lane g).symm)

theorem measureLane_inStep (s : State) (b g mfn : Nat) (new : BitVec 32) : InStep s (measureLane s b g mfn new) := by
  unfold measureLane
  dsimp only
  split
  · split
    · split
      · exact enterRanging_inStep rfl ..
      · exact setLane_inStep rfl
    · exact setLane_inStep rfl
  · split
    · split
      · refine .trans (.trans ?_ (journal_ledgerOnly ..).inStep) (suspend_inStep ..)
        exact setLane_inStep rfl
      · exact setLane_inStep rfl
    · exact setLane_inStep rfl

theorem moveBaseline_inStep (s : State) (b : Nat) (ms : List (Nat × BitVec 32)) : InStep s (moveBaseline s b ms) := by
  unfold moveBaseline
  dsimp only
  split
  · refine .trans (setBond_inStep ?_) (InStep.foldl (fun _ _ => by exact setLane_inStep rfl) _ _)
    rfl
  · exact .refl s

theorem takeMeasures_inStep (s : State) (b mfn : Nat) (ms : List (Nat × BitVec 32)) : InStep s (takeMeasures s b mfn ms) := by
  unfold takeMeasures
  dsimp only
  refine (moveBaseline_inStep ..).trans (InStep.foldl (fun t m => ?_) _ _)
  split
  · exact setLane_inStep rfl
  · exact measureLane_inStep ..

/-- The state once every lane of a bond has been told to begin a new baseline. -/
def rebased (s : State) (b : Nat) : State := (bondLanes s b).foldl (fun s g => s.setLane g { s.lane g with rebase := true }) s

theorem newBaseline_eq (s : State) (b : Nat) : newBaseline s b = rebased (s.setBond b { s.bond b with baseDue := true, times := [] }) b := rfl

theorem rebased_inStep (s : State) (b : Nat) : InStep s (rebased s b) := InStep.foldl (fun _ _ => by exact setLane_inStep rfl) _ _

theorem newBaseline_framings (s : State) (b : Nat) : (newBaseline s b).framings = s.framings := (rebased_inStep _ b).framings

theorem newBaseline_plb (s : State) (b : Nat) : (newBaseline s b).plb = s.plb :=
  foldl_keeps State.plb (step := fun s g => s.setLane g { s.lane g with rebase := true }) (fun _ _ => rfl) _ _

/-- The state once the arrivals of every lane of a bond have been forgotten. -/
def arrivalsForgotten (s : State) (b : Nat) : State := (bondLanes s b).foldl (fun s g => s.setLane g { s.lane g with fn0s := [] }) s

theorem arrivalsForgotten_inStep (s : State) (b : Nat) : InStep s (arrivalsForgotten s b) := InStep.foldl (fun _ _ => by exact setLane_inStep rfl) _ _

theorem arrivalsForgotten_plb (s : State) (b : Nat) : (arrivalsForgotten s b).plb = s.plb :=
  foldl_keeps State.plb (step := fun s g => s.setLane g { s.lane g with fn0s := [] }) (fun _ _ => rfl) _ _

theorem noteOwnStep_cases (s : State) (b : Nat) :
    noteOwnStep s b = s ∨ noteOwnStep s b = arrivalsForgotten (newBaseline (s.setBond b { s.bond b with ownEpoch := s.plb.stepEpoch }) b) b :=
  ite_eq_or_eq ..

theorem noteOwnStep_framings (s : State) (b : Nat) : (noteOwnStep s b).framings = s.framings := by
  rcases noteOwnStep_cases s b with same | noted
  · rw [same]
  · rw [noted, (arrivalsForgotten_inStep _ b).framings, newBaseline_framings]
    rfl

theorem noteOwnStep_plb (s : State) (b : Nat) : (noteOwnStep s b).plb = s.plb := by
  rcases noteOwnStep_cases s b with same | noted
  · rw [same]
  · rw [noted, arrivalsForgotten_plb, newBaseline_plb]
    rfl

theorem laneStart_framings (s : State) (b g mfn : Nat) (a : PCount) : (laneStart s b g mfn a).framings = s.framings := by
  unfold laneStart
  dsimp only
  refine .trans ?_ (noteOwnStep_framings s b)
  split
  · refine (takeMeasures_inStep ..).framings.trans (framings_setLane ?_)
    rfl
  · exact framings_setLane rfl

/-- Whether a ranging message has its length, its version and its CRC, R376. -/
def rangingOk (bytes : List Byte) : Bool := decide (bytes.length = 16) && decide (bytes.headD 0 = 1) && decide (crc32c (bytes.take 12) = BitVec.ofNat 32 (beAt bytes 12 4))

/-- The state once a ranging message has told of a step of the peer's time, if there was one, R384. -/
def peerStepNoted (s : State) (b : Nat) (epoch : Byte) : State :=
  match (s.bond b).peerEpoch with
  | some e => if e = epoch then s else newBaseline s b
  | none => s

/-- The bond once it has taken a ranging message. -/
def Bond.heard (x : Bond) (own : Byte) (bytes : List Byte) : Bond :=
  { x with peerEpoch := some (BitVec.ofNat 8 (beAt bytes 1 1)), ownEpoch := own, times := last64 (x.times ++ [(beAt bytes 2 2, BitVec.ofNat 48 (beAt bytes 4 6))]) }

/-- The state once a ranging message has been taken, its measurements yet to be made. -/
def rangingNoted (s : State) (b : Nat) (bytes : List Byte) : State :=
  let t := peerStepNoted (noteOwnStep s b) b (BitVec.ofNat 8 (beAt bytes 1 1))
  t.setBond b ((t.bond b).heard t.plb.stepEpoch bytes)

/-- The measurements that a ranging message makes of the lanes in frame whose frame 0 of its multiframe has come. -/
def rangingMeasures (s : State) (b : Nat) (bytes : List Byte) : List (Nat × BitVec 32) :=
  (bondLanes s b).filterMap fun g =>
    let x := s.lane g
    if x.inFrame && !x.retired then (x.fn0s.find? fun a => decide (a.1 = beAt bytes 2 2)).map fun a => (g, BitVec.ofInt 32 (signedDiff a.2 (BitVec.ofNat 48 (beAt bytes 4 6)))) else none

theorem rangingMessage_ignored {s : State} {b : Nat} {bytes : List Byte} (h : rangingOk bytes = false ∨ (s.bond b).en = false) : rangingMessage s b bytes = s := by
  refine if_pos ?_
  change (!rangingOk bytes || !(s.bond b).en) = true
  rcases h with h | h <;> simp [h]

theorem rangingMessage_taken {s : State} {b : Nat} {bytes : List Byte} (ok : rangingOk bytes = true) (en : (s.bond b).en = true) :
    rangingMessage s b bytes = takeMeasures (rangingNoted s b bytes) b (beAt bytes 2 2) (rangingMeasures (rangingNoted s b bytes) b bytes) := by
  refine if_neg ?_
  change ¬(!rangingOk bytes || !(s.bond b).en) = true
  simp [ok, en]

theorem peerStepNoted_cases (s : State) (b : Nat) (epoch : Byte) : peerStepNoted s b epoch = s ∨ peerStepNoted s b epoch = newBaseline s b := by
  unfold peerStepNoted
  split
  · exact ite_eq_or_eq ..
  · exact .inl rfl

theorem peerStepNoted_framings (s : State) (b : Nat) (epoch : Byte) : (peerStepNoted s b epoch).framings = s.framings := by
  rcases peerStepNoted_cases s b epoch with same | noted
  · rw [same]
  · rw [noted, newBaseline_framings]

theorem peerStepNoted_plb (s : State) (b : Nat) (epoch : Byte) : (peerStepNoted s b epoch).plb = s.plb := by
  rcases peerStepNoted_cases s b epoch with same | noted
  · rw [same]
  · rw [noted, newBaseline_plb]

theorem rangingMessage_framings (s : State) (b : Nat) (bytes : List Byte) : (rangingMessage s b bytes).framings = s.framings := by
  cases ok : rangingOk bytes with
  | false => rw [rangingMessage_ignored (.inl ok)]
  | true =>
    cases en : (s.bond b).en with
    | false => rw [rangingMessage_ignored (.inr en)]
    | true =>
      have noted : (rangingNoted s b bytes).framings = s.framings := (peerStepNoted_framings ..).trans (noteOwnStep_framings s b)
      rw [rangingMessage_taken ok en, (takeMeasures_inStep ..).framings, noted]

theorem mem_last64_append {α : Type} (l : List α) (a : α) : a ∈ last64 (l ++ [a]) := by
  rw [last64, List.drop_append_of_le_length (by rw [List.length_append, List.length_singleton]; omega)]
  exact List.mem_append_right _ (List.mem_singleton_self a)

/-- A ranging message that is taken leaves the epochs of both devices and its time with the bond. -/
theorem rangingMessage_dialogue {s : State} {b : Nat} {bytes : List Byte} (ok : rangingOk bytes = true) (en : (s.bond b).en = true) :
    ((rangingMessage s b bytes).bond b).peerEpoch = some (BitVec.ofNat 8 (beAt bytes 1 1)) ∧ ((rangingMessage s b bytes).bond b).ownEpoch = s.plb.stepEpoch
      ∧ (beAt bytes 2 2, BitVec.ofNat 48 (beAt bytes 4 6)) ∈ ((rangingMessage s b bytes).bond b).times := by
  have kept : ((rangingMessage s b bytes).bond b).dialogue = ((rangingNoted s b bytes).bond b).dialogue := by
    rw [rangingMessage_taken ok en]
    exact congrFun (takeMeasures_inStep ..).dialogues b
  rw [rangingNoted, State.setBond_bond, peerStepNoted_plb, noteOwnStep_plb] at kept
  obtain ⟨peer, rest⟩ := Prod.mk.inj kept
  obtain ⟨own, times⟩ := Prod.mk.inj rest
  exact ⟨peer, own, times ▸ mem_last64_append _ _⟩

/-- A lane in service whose delay steps by more than 50,000 ns leaves service and enters RANGING with the new delay. -/
theorem measureLane_steps {s : State} {g : Nat} {o new : BitVec 32} (ranged : (s.lane g).ranged = true) (old : (s.lane g).d = some o)
    (far : 50000 < (new.toInt - o.toInt).natAbs) (b mfn : Nat) : measureLane s b g mfn new = enterRanging s b g mfn (s.lane g) o new := by
  unfold measureLane
  dsimp only
  rw [if_pos ranged, old]
  exact if_pos (decide_eq_true far)

theorem enterRanging_lane (s : State) (b g mfn : Nat) (x : RLane) (before after : BitVec 32) :
    ((enterRanging s b g mfn x before after).lane g).unjudged = RLane.unjudged { x with ranged := false, stable := 0, d := some after, dSvc := some after } :=
  ((suspend_judged ..).lane g).trans (raiseDefect_lane ..)

/-! ## The boundary of a multiframe, R385 and R386 -/

/-- The bond of a lane once D_bond has been recomputed. -/
theorem moveDbond_frame (s : State) (b : Nat) (ds : List Int) : ∃ d e, moveDbond s b ds = s ∨ moveDbond s b ds = s.setBond b { s.bond b with dbond := d, err := e } := by
  unfold moveDbond
  dsimp only
  split
  · exact ⟨0, 0, .inl rfl⟩
  · split
    · exact ⟨_, _, .inr rfl⟩
    · exact ⟨_, (s.bond b).err, .inr rfl⟩

theorem moveDbond_inStep (s : State) (b : Nat) (ds : List Int) : InStep s (moveDbond s b ds) := by
  obtain ⟨d, e, same | moved⟩ := moveDbond_frame s b ds
  · rw [same]
    exact .refl s
  · rw [moved]
    exact setBond_inStep rfl

/-- A lane whose hold passes: it holds frames by the bond's delay less its own. -/
def RLane.holds (x : RLane) (h : Int) : RLane := { x with ranged := true, skew := false, hold := h.toNat, dSvc := x.d }

/-- The state once the defects of a lane that enters service have cleared. -/
def entered (s : State) (g : Nat) (y : RLane) : State :=
  let t := if (s.lane g).skew then withdrawDefect s g 6 y else s
  if (s.lane g).ranged then t else withdrawDefect t g 7 y

theorem holdLane_stays {s : State} {b g : Nat} {maxD : Int} (ok : holdOk s b maxD (s.lane g) = true) (serves : (s.lane g).inSvc = true) (mfn : Nat) :
    holdLane b mfn maxD s g = s.setLane g ((s.lane g).holds (holdNs s b (s.lane g))) :=
  (if_pos ok).trans (if_pos serves)

theorem holdLane_enters {s : State} {b g : Nat} {maxD : Int} (ok : holdOk s b maxD (s.lane g) = true) (waits : (s.lane g).inSvc = false) (mfn : Nat) :
    holdLane b mfn maxD s g = (entered s g ((s.lane g).holds (holdNs s b (s.lane g)))).setLane g { (s.lane g).holds (holdNs s b (s.lane g)) with svcFrom := mfn * 256 } :=
  (if_pos ok).trans (if_neg (ne_true_of_eq_false waits))

theorem holdLane_skewed {s : State} {b g : Nat} {maxD : Int} (bad : holdOk s b maxD (s.lane g) = false) (skew : (s.lane g).skew = true) (mfn : Nat) :
    holdLane b mfn maxD s g = s :=
  (if_neg (ne_true_of_eq_false bad)).trans (if_pos skew)

theorem holdLane_leaves {s : State} {b g : Nat} {maxD : Int} (bad : holdOk s b maxD (s.lane g) = false) (kept : (s.lane g).skew = false) (mfn : Nat) :
    holdLane b mfn maxD s g = declareDefect s g 6 { s.lane g with skew := true, hold := 0 } :=
  (if_neg (ne_true_of_eq_false bad)).trans (if_neg (ne_true_of_eq_false kept))

theorem entered_inStep {s : State} {g : Nat} {y : RLane} (same : y.framing = (s.lane g).framing) : InStep s (entered s g y) := by
  have skew : InStep s (if (s.lane g).skew then withdrawDefect s g 6 y else s) := iteInduction (fun _ => withdrawDefect_inStep same 6) fun _ => .refl s
  unfold entered
  dsimp only
  split
  · exact skew
  · exact skew.trans (withdrawDefect_inStep (same.trans (congrFun skew.framings g).symm) 7)

theorem holdLane_inStep (b mfn : Nat) (maxD : Int) (s : State) (g : Nat) : InStep s (holdLane b mfn maxD s g) := by
  cases ok : holdOk s b maxD (s.lane g) with
  | true =>
    have same : ((s.lane g).holds (holdNs s b (s.lane g))).framing = (s.lane g).framing := rfl
    cases serves : (s.lane g).inSvc with
    | true =>
      rw [holdLane_stays ok serves]
      exact setLane_inStep same
    | false =>
      have enters := entered_inStep same
      rw [holdLane_enters ok serves]
      exact enters.trans (setLane_inStep (same.trans (congrFun enters.framings g).symm))
  | false =>
    cases skew : (s.lane g).skew with
    | true =>
      rw [holdLane_skewed ok skew]
      exact .refl s
    | false =>
      rw [holdLane_leaves ok skew]
      exact declareDefect_inStep (by rfl) 6

/-- The lanes of a bond that a boundary tests: those in service, then those that may enter it. -/
def testedLanes (s : State) (b : Nat) : List Nat :=
  ((bondLanes s b).filter fun g => (s.lane g).inSvc) ++ (bondLanes s b).filter fun g => mayEnter s b (s.lane g)

/-- The delays that count in D_bond. -/
def countedDelays (s : State) (b : Nat) : List Int :=
  let svc := (bondLanes s b).filter fun g => (s.lane g).inSvc
  (if (s.bond b).follow || svc.isEmpty then testedLanes s b else svc).map fun g => (s.lane g).dns

/-- The state at a boundary once D_bond has been recomputed. -/
def dbondMoved (s : State) (b mfn : Nat) : State :=
  let t := moveDbond s b (countedDelays s b)
  t.setBond b { t.bond b with mfAt := some mfn }

/-- The state at a boundary once every hold has been tested. -/
def holdsTested (s : State) (b mfn : Nat) : State := (testedLanes s b).foldl (holdLane b mfn (maxInt (countedDelays s b))) (dbondMoved s b mfn)

theorem boundary_eq (s : State) (b mfn : Nat) : boundary s b mfn = settle s (holdsTested s b mfn) b := rfl

theorem boundary_inStep (s : State) (b mfn : Nat) : InStep s (boundary s b mfn) := by
  have moved : InStep s (dbondMoved s b mfn) := (moveDbond_inStep ..).trans (setBond_inStep rfl)
  rw [boundary_eq]
  exact (moved.trans (InStep.foldl (holdLane_inStep b mfn _) _ _)).trans (settle_judged ..).inStep

theorem multiframeStart_framings (s : State) (b g mfn : Nat) (a : PCount) : (multiframeStart s b g mfn a).framings = s.framings := by
  unfold multiframeStart
  dsimp only
  refine (laneStart_framings ..).trans ?_
  split
  · exact (boundary_inStep ..).framings
  · rfl

/-! ## The overhead of a frame, R374 to R379, R381 and R390 -/

theorem judgeIdentity_inStep (s : State) (b g : Nat) : InStep s (judgeIdentity s b g) := by
  refine (raiseDefect_inStep ?_ 5).ite ((clearDefect_inStep ?_ 5).ite (setLane_inStep ?_))
  all_goals rfl

theorem judgeFlags_inStep (s : State) (g flags : Nat) : InStep s (judgeFlags s g flags) := by
  refine (raiseDefect_inStep ?_ 8).ite ((clearDefect_inStep ?_ 8).ite (setLane_inStep ?_))
  all_goals rfl

theorem setTrib_inStep (s : State) (c : Nat) (x : Trib) : InStep s (s.setTrib c x) := ⟨rfl, rfl⟩

theorem tribSlot_inStep (s : State) (b : Nat) (bytes : List Byte) : InStep s (tribSlot s b bytes) := by
  refine InStep.foldl (fun t c => ?_) _ _
  dsimp only
  split
  · exact .refl t
  · split
    · exact setTrib_inStep ..
    · exact setTrib_inStep ..

theorem sharedLost_inStep (s : State) (b : Nat) : InStep s (sharedLost s b) := by
  refine (cutMessages_judged s b).inStep.trans (InStep.foldl (fun t c => ?_) _ _)
  dsimp only
  split
  · exact setTrib_inStep ..
  · exact .refl t

theorem keyReady_frame (s : State) (b : Nat) (m : List Byte) : ∃ r, keyReady s b m = { s with slr := r } := by
  unfold keyReady
  dsimp only
  split
  · exact ⟨s.slr, rfl⟩
  · split
    · exact ⟨_, rfl⟩
    · exact ⟨s.slr, rfl⟩

theorem keyReady_framings (s : State) (b : Nat) (m : List Byte) : (keyReady s b m).framings = s.framings := by
  obtain ⟨r, h⟩ := keyReady_frame s b m
  rw [h]
  rfl

theorem timeMessage_framings (s : State) (b : Nat) (m : TimeMsg) (rx : FullTime) : (timeMessage s b m rx).framings = s.framings :=
  (timeMessage_plumbOnly s b m rx).judged.inStep.framings

/-- The state once a message of each privileged channel that is complete has acted, R374. -/
def messagesDone (s : State) (b : Nat) (p0 p1 p2 : Option (List Byte)) : State :=
  let s := match p0 with | some m => timeMessage s b (parseTime m) (s.bond b).p0At | none => s
  let s := match p1 with | some m => keyReady s b m | none => s
  match p2 with | some m => rangingMessage s b m | none => s

theorem messagesDone_framings (s : State) (b : Nat) (p0 p1 p2 : Option (List Byte)) : (messagesDone s b p0 p1 p2).framings = s.framings := by
  have ranging (s : State) : (match p2 with | some m => rangingMessage s b m | none => s).framings = s.framings := by
    cases p2 with
    | some m => exact rangingMessage_framings s b m
    | none => rfl
  have key (s : State) : (match p1 with | some m => keyReady s b m | none => s).framings = s.framings := by
    cases p1 with
    | some m => exact keyReady_framings s b m
    | none => rfl
  have time : (match p0 with | some m => timeMessage s b (parseTime m) (s.bond b).p0At | none => s).framings = s.framings := by
    cases p0 with
    | some m => exact timeMessage_framings ..
    | none => rfl
  exact (ranging _).trans ((key _).trans time)

/-- The shared fields of a frame: the channels go on, the tributary slot is taken, and what messages are complete act. -/
theorem sharedFields_eq (s : State) (b g : Nat) (bytes : List Byte) (arrival : FullTime) : ∃ x p0 p1 p2,
    sharedFields s b g bytes arrival = messagesDone (tribSlot ((if (s.bond b).chanLane = some g then s else cutMessages s b).setBond b x) b bytes) b p0 p1 p2 := by
  unfold sharedFields
  dsimp only
  generalize (if (s.bond b).chanLane = some g then s else cutMessages s b) = u
  obtain ⟨l0, g0, c0, p0⟩ := pchStep (u.bond b).p0Left (u.bond b).p0Got (slice bytes 16 4) (bitOf (beAt bytes 13 1) 0) 48
  obtain ⟨l1, g1, c1, p1⟩ := pchStep (u.bond b).p1Left (u.bond b).p1Got (slice bytes 20 8) (bitOf (beAt bytes 13 1) 1) (if beAt bytes 20 2 < 16 then 0 else beAt bytes 20 2)
  obtain ⟨l2, g2, c2, p2⟩ := pchStep (u.bond b).p2Left (u.bond b).p2Got (slice bytes 28 4) (bitOf (beAt bytes 13 1) 2) 16
  exact ⟨_, p0, p1, p2, rfl⟩

theorem sharedFields_framings (s : State) (b g : Nat) (bytes : List Byte) (arrival : FullTime) : (sharedFields s b g bytes arrival).framings = s.framings := by
  obtain ⟨x, p0, p1, p2, h⟩ := sharedFields_eq s b g bytes arrival
  rw [h, messagesDone_framings, (tribSlot_inStep ..).framings]
  split
  · rfl
  · rfl

theorem overhead_framings (s : State) (b g pos : Nat) (bytes : List Byte) (arrival : FullTime) : (overhead s b g pos bytes arrival).framings = s.framings := by
  have shared (s : State) : (if sharedLane s b = some g then sharedFields s b g bytes arrival else s).framings = s.framings := by
    split
    · exact sharedFields_framings ..
    · rfl
  have placed (s : State) : InStep s (if (s.lane g).inSvc && posFrom pos (s.lane g).svcFrom then s.setLane g { s.lane g with svcPos := some (s.lane g).rxPos } else s) :=
    .ite (setLane_inStep rfl) (.refl s)
  refine (shared _).trans (InStep.framings ?_)
  refine .trans ?_ (placed _)
  refine .trans ?_ (judgeFlags_inStep ..)
  refine .trans ?_ (judgeIdentity_inStep ..)
  exact setLane_inStep rfl

theorem holdFrame_framings (s : State) (b g pos : Nat) (bytes : List Byte) (flagged ohOk : Bool) : (holdFrame s b g pos bytes flagged ohOk).framings = s.framings := by
  refine InStep.framings (.ite ?_ (.refl s))
  exact setLane_inStep rfl

/-! ## A frame of a lane in frame, R369 and R371 -/

/-- A lane whose frame has been judged: its alignment word, its count and its overhead. -/
def RLane.judged (x : RLane) (v1 : Bool) (bytes : List Byte) : RLane :=
  let ok := ohcrcOk bytes
  let x := { x with
    badFaw := if decide (2 < bitDiff (bytes.take 6) (fawOf v1)) then x.badFaw + 1 else 0
    badSeq := if ok then (if overheadPos bytes = x.next then 0 else x.badSeq + 1) else x.badSeq
    next := (x.next + 1) % 2 ^ 24 }
  if ok then x else { x with ohcrcCount := bump x.ohcrcCount 1, err := setErr x.err 11 }

/-- The state once the boundary has come that a frame brings, where it is the first of a multiframe. -/
def frameBegun (s : State) (b g pos : Nat) (arrival : FullTime) : State :=
  if pos % 256 = 0 then multiframeStart s b g (pos / 256) (BitVec.ofNat 48 (arrival / 65536)) else s

/-- The state once the overhead and the payload of a frame have been used. -/
def frameUsed (s : State) (b g pos : Nat) (bytes : List Byte) (flagged : Bool) (arrival : FullTime) : State :=
  if ohcrcOk bytes then holdFrame (overhead s b g pos bytes arrival) b g pos bytes flagged true
  else holdFrame (if sharedLane s b = some g then sharedLost s b else s) b g pos bytes flagged false

theorem frameBegun_framings (s : State) (b g pos : Nat) (arrival : FullTime) : (frameBegun s b g pos arrival).framings = s.framings := by
  unfold frameBegun
  split
  · exact multiframeStart_framings ..
  · rfl

theorem frameUsed_framings (s : State) (b g pos : Nat) (bytes : List Byte) (flagged : Bool) (arrival : FullTime) : (frameUsed s b g pos bytes flagged arrival).framings = s.framings := by
  unfold frameUsed
  split
  · exact (holdFrame_framings ..).trans (overhead_framings ..)
  · refine (holdFrame_framings ..).trans ?_
    split
    · exact (sharedLost_inStep ..).framings
    · rfl

section
variable (x : RLane) (v1 : Bool) (bytes : List Byte)

theorem RLane.judged_inFrame : (x.judged v1 bytes).inFrame = x.inFrame := by unfold RLane.judged; cases ohcrcOk bytes <;> rfl
theorem RLane.judged_stream : (x.judged v1 bytes).stream = x.stream := by unfold RLane.judged; cases ohcrcOk bytes <;> rfl
theorem RLane.judged_retired : (x.judged v1 bytes).retired = x.retired := by unfold RLane.judged; cases ohcrcOk bytes <;> rfl
theorem RLane.judged_next : (x.judged v1 bytes).next = (x.next + 1) % 2 ^ 24 := by unfold RLane.judged; cases ohcrcOk bytes <;> rfl

theorem RLane.judged_badFaw : (x.judged v1 bytes).badFaw = if 2 < bitDiff (bytes.take 6) (fawOf v1) then x.badFaw + 1 else 0 := by
  refine .trans (b := if decide (2 < bitDiff (bytes.take 6) (fawOf v1)) then x.badFaw + 1 else 0) ?_ (by simp only [decide_eq_true_eq])
  unfold RLane.judged; cases ohcrcOk bytes <;> rfl

theorem RLane.judged_badSeq : (x.judged v1 bytes).badSeq = if ohcrcOk bytes then (if overheadPos bytes = x.next then 0 else x.badSeq + 1) else x.badSeq := by
  unfold RLane.judged; cases ohcrcOk bytes <;> rfl

theorem RLane.judged_ohcrcCount : (x.judged v1 bytes).ohcrcCount = if ohcrcOk bytes then x.ohcrcCount else bump x.ohcrcCount 1 := by
  unfold RLane.judged; cases ohcrcOk bytes <;> rfl

end

/-- A lane loses its frame on the fourth bad alignment word or count in a row, and uses the frame else. -/
theorem inFrameReceive_eq (s : State) (b g : Nat) (bytes : List Byte) (flagged : Bool) (arrival : FullTime) :
    let x := (s.lane g).judged (isV1 s b) bytes
    inFrameReceive s b g bytes flagged arrival = if 4 ≤ x.badFaw ∨ 4 ≤ x.badSeq then raiseDefect s g 4 { x.lost with oof := true }
      else frameUsed (frameBegun (s.setLane g x) b g (s.lane g).next arrival) b g (s.lane g).next bytes flagged arrival := by
  unfold inFrameReceive RLane.judged frameUsed
  cases ohcrcOk bytes <;> rfl

end Sys2Proof.Machine

/-! How a far lane gains its frame, loses it and takes what comes, and which holds a boundary leaves (R370 to R372, R385 to R387). -/

namespace Sys2Proof.Machine

/-! ## SEARCH, R370 and R372 -/

/-- Whether a frame seems to start: its alignment word, its overhead and its version. -/
def Starts (v1 : Bool) (head : List Byte) : Prop := head.take 6 = fawOf v1 ∧ ohcrcOk head = true ∧ beAt head 10 1 / 16 = if v1 then 1 else 2

/-- Whether the frame one frame on confirms a start. -/
def Confirms (v1 : Bool) (head next : List Byte) : Prop := next.take 6 = fawOf v1 ∧ ohcrcOk next = true ∧ overheadPos next = (overheadPos head + 1) % 2 ^ 24

/-- A lane whose search has found its frame. -/
def RLane.aligned (x : RLane) : RLane :=
  { x.consume 16384 with inFrame := true, ranged := false, next := overheadPos (slice x.stream 16384 64), badFaw := 0, badSeq := 0, stable := 0, mmBond := 0, mmPos := 0, mmDup := 0, mmGood := 0 }

/-- A lane that passes over a start that nothing has confirmed, R370. -/
def RLane.misled (x : RLane) : RLane := { x.consume 1 with falseCount := bump x.falseCount 1, err := setErr x.err 10 }

section
variable {v1 : Bool} {x : RLane} {n : Nat}

theorem head_length (long : 64 ≤ x.stream.length) : ¬(x.stream.take 64).length < 64 := by
  rw [List.length_take]
  omega

theorem next_length : (slice x.stream 16384 64).length < 64 ↔ x.stream.length < 16448 := by
  rw [slice, List.length_take, List.length_drop]
  omega

theorem hunt_waits (short : x.stream.length < 64) : x.hunt v1 (n + 1) = x := by
  refine if_pos ?_
  rw [List.length_take]
  omega

theorem hunt_passes (long : 64 ≤ x.stream.length) (none_starts : ¬Starts v1 (x.stream.take 64)) : x.hunt v1 (n + 1) = (x.consume 1).hunt v1 n := by
  refine (if_neg (head_length long)).trans (if_pos ?_)
  unfold Starts at none_starts
  simpa only [not_and_or, Bool.not_eq_true, Bool.not_eq_true'] using none_starts

section
variable (starts : Starts v1 (x.stream.take 64)) (long : 64 ≤ x.stream.length)
include starts long

/-- Where a frame seems to start, the search turns on the frame one frame on. -/
theorem hunt_starts : x.hunt v1 (n + 1) = if (slice x.stream 16384 64).length < 64 then x
    else if (slice x.stream 16384 64).take 6 = fawOf v1 ∧ ohcrcOk (slice x.stream 16384 64) ∧ overheadPos (slice x.stream 16384 64) = (overheadPos (x.stream.take 64) + 1) % 2 ^ 24
      then x.aligned else x.misled.hunt v1 n := by
  obtain ⟨word, crc, version⟩ := starts
  refine (if_neg (head_length long)).trans (if_neg ?_)
  simp [word, crc, version]

theorem hunt_unconfirmedYet (short : x.stream.length < 16448) : x.hunt v1 (n + 1) = x :=
  (hunt_starts starts long).trans (if_pos (next_length.2 short))

theorem hunt_misled (whole : 16448 ≤ x.stream.length) (unconfirmed : ¬Confirms v1 (x.stream.take 64) (slice x.stream 16384 64)) :
    x.hunt v1 (n + 1) = x.misled.hunt v1 n :=
  (hunt_starts starts long).trans ((if_neg (mt next_length.1 (Nat.not_lt.2 whole))).trans (if_neg unconfirmed))

theorem hunt_aligned (whole : 16448 ≤ x.stream.length) (confirmed : Confirms v1 (x.stream.take 64) (slice x.stream 16384 64)) : x.hunt v1 (n + 1) = x.aligned :=
  (hunt_starts starts long).trans ((if_neg (mt next_length.1 (Nat.not_lt.2 whole))).trans (if_pos confirmed))

end

end

section
variable {s : State} {g b : Nat} (arrival : FullTime)

theorem frameReceive_ignored (h : bondOfLane s g = none ∨ (s.lane g).los = true ∨ (s.lane g).loa = true ∨ (s.lane g).retired = true) : frameReceive s g arrival = s := by
  unfold frameReceive
  cases bonded : bondOfLane s g with
  | none => rfl
  | some b =>
    refine if_pos ?_
    rcases h with unbonded | los | loa | retired
    · rw [bonded] at unbonded
      exact absurd unbonded (Option.some_ne_none b)
    · rw [los]; rfl
    · rw [loa, Bool.or_true]; rfl
    · rw [retired, Bool.or_true]

theorem takeOctets_waits (waits : (s.lane g).inFrame = false ∨ (s.lane g).stream.length < 16384) : takeOctets s b g arrival = s := by
  refine if_neg ?_
  rw [List.length_take]
  rcases waits with out | short
  · rw [out]
    exact Bool.false_ne_true
  · simp only [Bool.and_eq_true, decide_eq_true_eq]
    omega

theorem takeOctets_takes (inFrame : (s.lane g).inFrame = true) (whole : 16384 ≤ (s.lane g).stream.length) :
    takeOctets s b g arrival = inFrameReceive (s.setLane g ((s.lane g).consume 16384)) b g ((s.lane g).stream.take 16384) (s.lane g).payloadFlagged arrival := by
  refine if_pos ?_
  rw [List.length_take, inFrame]
  simp only [Bool.true_and, decide_eq_true_eq]
  omega

/-- A lane that hears its signal in an enabled bond. -/
structure Hears (s : State) (g b : Nat) : Prop where
  bonded : bondOfLane s g = some b
  los : (s.lane g).los = false
  loa : (s.lane g).loa = false
  retired : (s.lane g).retired = false

variable (hears : Hears s g b)
include hears

theorem frameReceive_hears : frameReceive s g arrival = takeOctets (if (s.lane g).inFrame then s else searchReceive s b g) b g arrival := by
  unfold frameReceive
  rw [hears.bonded]
  exact if_neg (by rw [hears.los, hears.loa, hears.retired]; decide)

omit hears in
theorem searchReceive_misses (missed : ((s.lane g).hunt (isV1 s b) ((s.lane g).stream.length + 1)).inFrame = false) :
    searchReceive s b g = s.setLane g ((s.lane g).hunt (isV1 s b) ((s.lane g).stream.length + 1)) :=
  if_pos (by rw [missed]; rfl)

omit hears in
/-- A search that finds the frame leaves the lane aligned, and OOF clears. -/
theorem searchReceive_finds {y : RLane} (found : (s.lane g).hunt (isV1 s b) ((s.lane g).stream.length + 1) = y) (inFrame : y.inFrame = true) :
    ((searchReceive s b g).lane g).unjudged = RLane.unjudged { y with oof := false } := by
  have steps : searchReceive s b g = raiseDefect (if y.oof then clearDefect s g 4 { y with oof := false } else laneChange s g y) g 7
      ((if y.oof then clearDefect s g 4 { y with oof := false } else laneChange s g y).lane g) := by
    subst found
    exact if_neg (by rw [inFrame]; exact Bool.false_ne_true)
  rw [steps, raiseDefect_lane]
  cases oof : y.oof with
  | true => exact clearDefect_lane ..
  | false =>
    have same : { y with oof := false } = y := by rw [← oof]
    rw [same]
    exact laneChange_lane ..

theorem frameReceive_misses (out : (s.lane g).inFrame = false) (missed : ((s.lane g).hunt (isV1 s b) ((s.lane g).stream.length + 1)).inFrame = false) :
    frameReceive s g arrival = s.setLane g ((s.lane g).hunt (isV1 s b) ((s.lane g).stream.length + 1)) := by
  rw [frameReceive_hears arrival hears, if_neg (ne_true_of_eq_false out), searchReceive_misses missed]
  exact takeOctets_waits arrival (.inl (by rw [State.setLane_lane, missed]))

/-- A lane whose search finds its frame, with the next one yet to come. -/
theorem frameReceive_finds (out : (s.lane g).inFrame = false) (found : (s.lane g).hunt (isV1 s b) ((s.lane g).stream.length + 1) = (s.lane g).aligned)
    (short : (s.lane g).stream.length < 32768) :
    ((frameReceive s g arrival).lane g).unjudged = RLane.unjudged { (s.lane g).aligned with oof := false } := by
  have lane := searchReceive_finds found rfl
  have stream : ((searchReceive s b g).lane g).stream = (s.lane g).stream.drop 16384 := (congrArg RLane.stream lane :)
  rw [frameReceive_hears arrival hears, if_neg (ne_true_of_eq_false out), takeOctets_waits arrival (.inr ?_), lane]
  rw [stream, List.length_drop]
  omega

theorem frameReceive_waits (inFrame : (s.lane g).inFrame = true) (short : (s.lane g).stream.length < 16384) : frameReceive s g arrival = s := by
  rw [frameReceive_hears arrival hears, if_pos inFrame]
  exact takeOctets_waits arrival (.inr short)

/-- The frame at the front of a lane that is in frame, judged. -/
def frontJudged (s : State) (g b : Nat) : RLane := ((s.lane g).consume 16384).judged (isV1 s b) ((s.lane g).stream.take 16384)

theorem frameReceive_takes (inFrame : (s.lane g).inFrame = true) (whole : 16384 ≤ (s.lane g).stream.length) :
    frameReceive s g arrival = if 4 ≤ (frontJudged s g b).badFaw ∨ 4 ≤ (frontJudged s g b).badSeq
      then raiseDefect (s.setLane g ((s.lane g).consume 16384)) g 4 { (frontJudged s g b).lost with oof := true }
      else frameUsed (frameBegun ((s.setLane g ((s.lane g).consume 16384)).setLane g (frontJudged s g b)) b g (s.lane g).next arrival) b g (s.lane g).next
        ((s.lane g).stream.take 16384) (s.lane g).payloadFlagged arrival := by
  rw [frameReceive_hears arrival hears, if_pos inFrame, takeOctets_takes arrival inFrame whole, inFrameReceive_eq, State.setLane_lane]
  rfl

end

section
variable (s : State) (g b : Nat)

theorem frontJudged_badFaw : (frontJudged s g b).badFaw = if 2 < bitDiff (((s.lane g).stream.take 16384).take 6) (fawOf (isV1 s b)) then (s.lane g).badFaw + 1 else 0 :=
  RLane.judged_badFaw ..

theorem frontJudged_badSeq : (frontJudged s g b).badSeq = if ohcrcOk ((s.lane g).stream.take 16384) then
    (if overheadPos ((s.lane g).stream.take 16384) = (s.lane g).next then 0 else (s.lane g).badSeq + 1) else (s.lane g).badSeq :=
  RLane.judged_badSeq ..

theorem frontJudged_ohcrcCount (bad : ohcrcOk ((s.lane g).stream.take 16384) = false) : (frontJudged s g b).ohcrcCount = bump (s.lane g).ohcrcCount 1 :=
  (RLane.judged_ohcrcCount ..).trans (if_neg (ne_true_of_eq_false bad))

theorem frontJudged_stream : (frontJudged s g b).stream = (s.lane g).stream.drop 16384 := RLane.judged_stream ..
theorem frontJudged_inFrame : (frontJudged s g b).inFrame = (s.lane g).inFrame := RLane.judged_inFrame ..
theorem frontJudged_next : (frontJudged s g b).next = ((s.lane g).next + 1) % 2 ^ 24 := RLane.judged_next ..

end

/-! ## The holds that a boundary leaves, R385 and R386 -/

/-- The hold of a lane by its bond's delay. -/
def Bond.holdOf (x : Bond) (y : RLane) : Int := ((x.dbond.toNat : Nat) : Int) - y.dns

/-- A lane in service keeps the guard, and holds frames by the bond's delay less its own. -/
def HoldsBy (x : Bond) (y : RLane) : Prop := y.inSvc = true → ((guardNs x : Nat) : Int) ≤ x.holdOf y ∧ y.hold = (x.holdOf y).toNat

theorem HoldsBy.of_out {x : Bond} {y : RLane} (out : y.inSvc = false) : HoldsBy x y := fun serves => absurd serves (ne_true_of_eq_false out)

theorem HoldsBy.congr {x x' : Bond} {y : RLane} (h : HoldsBy x y) (same : x'.unjudged = x.unjudged) : HoldsBy x' y := by
  have kept : HoldsBy x.unjudged y := h
  rw [← same] at kept
  exact kept

theorem guard_of_holdOk {s : State} {b : Nat} {maxD : Int} {x : RLane} (ok : holdOk s b maxD x = true) : ((guardNs (s.bond b) : Nat) : Int) ≤ (s.bond b).holdOf x := by
  simp only [holdOk, Bool.and_eq_true, decide_eq_true_eq] at ok
  exact ok.1.1

section
variable (b mfn : Nat) (maxD : Int) (s : State) (g : Nat)

theorem entered_bond (y : RLane) (c : Nat) : (entered s g y).bond c = s.bond c := by
  unfold entered
  dsimp only
  split
  · split
    · exact withdrawDefect_bond ..
    · rfl
  · rw [withdrawDefect_bond]
    split
    · exact withdrawDefect_bond ..
    · rfl

theorem entered_lane_ne (y : RLane) {j : Nat} (other : j ≠ g) : (entered s g y).lane j = s.lane j := by
  have withdrawn (s : State) (code : Nat) : (withdrawDefect s g code y).lane j = s.lane j := (withdrawDefect_lane ..).trans (State.setLane_lane_ne _ _ _ _ other)
  unfold entered
  dsimp only
  split
  · split
    · exact withdrawn ..
    · rfl
  · rw [withdrawn]
    split
    · exact withdrawn ..
    · rfl

theorem declareDefect_lane_ne (code : Nat) (x : RLane) {j : Nat} (other : j ≠ g) : (declareDefect s g code x).lane j = s.lane j := by
  obtain ⟨t, y, ⟨p, l, rfl⟩, -, h⟩ := declareDefect_frame s g code x
  rw [h, State.setLane_lane_ne _ _ _ _ other]
  rfl

theorem holdLane_bond (c : Nat) : (holdLane b mfn maxD s g).bond c = s.bond c := by
  cases ok : holdOk s b maxD (s.lane g) with
  | true =>
    cases serves : (s.lane g).inSvc with
    | true => rw [holdLane_stays ok serves, State.setLane_bond]
    | false => rw [holdLane_enters ok serves, State.setLane_bond, entered_bond]
  | false =>
    cases skew : (s.lane g).skew with
    | true => rw [holdLane_skewed ok skew]
    | false => rw [holdLane_leaves ok skew, declareDefect_bond]

theorem holdLane_lane_ne {j : Nat} (other : j ≠ g) : (holdLane b mfn maxD s g).lane j = s.lane j := by
  cases ok : holdOk s b maxD (s.lane g) with
  | true =>
    cases serves : (s.lane g).inSvc with
    | true => rw [holdLane_stays ok serves, State.setLane_lane_ne _ _ _ _ other]
    | false => rw [holdLane_enters ok serves, State.setLane_lane_ne _ _ _ _ other, entered_lane_ne _ _ _ other]
  | false =>
    cases skew : (s.lane g).skew with
    | true => rw [holdLane_skewed ok skew]
    | false => rw [holdLane_leaves ok skew, declareDefect_lane_ne _ _ _ _ other]

/-- A lane that is tested and serves has a hold that passes. -/
theorem holdLane_holdsBy : HoldsBy (s.bond b) ((holdLane b mfn maxD s g).lane g) := by
  cases ok : holdOk s b maxD (s.lane g) with
  | true =>
    cases serves : (s.lane g).inSvc with
    | true =>
      rw [holdLane_stays ok serves, State.setLane_lane]
      exact fun _ => ⟨guard_of_holdOk ok, rfl⟩
    | false =>
      rw [holdLane_enters ok serves, State.setLane_lane]
      exact fun _ => ⟨guard_of_holdOk ok, rfl⟩
  | false =>
    refine .of_out ?_
    cases skew : (s.lane g).skew with
    | true =>
      rw [holdLane_skewed ok skew, RLane.inSvc, skew]
      simp
    | false =>
      have lane := (congrFun (declareDefect_lanesKept s g 6 { s.lane g with skew := true, hold := 0 }) g).trans (setLane_lanesKept_self ..)
      rw [holdLane_leaves ok skew, RLane.inSvc_of_unjudged lane, RLane.inSvc]
      simp

end

theorem foldl_holdLane_bond (b mfn : Nat) (maxD : Int) (l : List Nat) (s : State) (c : Nat) : (l.foldl (holdLane b mfn maxD) s).bond c = s.bond c :=
  foldl_keeps (State.bond · c) (fun s g => holdLane_bond b mfn maxD s g c) l s

/-- Every lane that is tested, and every one whose hold was kept before, keeps it. -/
theorem foldl_holdLane_holdsBy {b mfn : Nat} {maxD : Int} {k : Nat} (l : List Nat) {s : State} (h : k ∈ l ∨ HoldsBy (s.bond b) (s.lane k)) :
    HoldsBy (s.bond b) ((l.foldl (holdLane b mfn maxD) s).lane k) := by
  induction l generalizing s with
  | nil => exact h.resolve_left List.not_mem_nil
  | cons g l ih =>
    have bond := holdLane_bond b mfn maxD s g b
    rw [List.foldl_cons, ← bond]
    refine ih ?_
    rw [bond]
    by_cases here : k = g
    · rw [here]
      exact .inr (holdLane_holdsBy b mfn maxD s g)
    · rw [holdLane_lane_ne _ _ _ _ _ here]
      exact h.imp_left fun mem => (List.mem_cons.1 mem).resolve_left here

theorem dbondMoved_lane (s : State) (b mfn k : Nat) : (dbondMoved s b mfn).lane k = s.lane k := by
  obtain ⟨d, e, same | moved⟩ := moveDbond_frame s b (countedDelays s b)
  · rw [dbondMoved, same]
    rfl
  · rw [dbondMoved, moved]
    rfl

theorem dbondMoved_ports (s : State) (b mfn : Nat) : ((dbondMoved s b mfn).bond b).ports = (s.bond b).ports := by
  obtain ⟨d, e, same | moved⟩ := moveDbond_frame s b (countedDelays s b)
  · rw [dbondMoved, same, State.setBond_bond]
  · rw [dbondMoved, moved, State.setBond_bond, State.setBond_bond]

theorem holdsTested_bond (s : State) (b mfn : Nat) : (holdsTested s b mfn).bond b = (dbondMoved s b mfn).bond b := foldl_holdLane_bond ..

theorem holdsTested_holdsBy {s : State} {b k : Nat} (member : k ∈ bondLanes s b) (mfn : Nat) : HoldsBy ((holdsTested s b mfn).bond b) ((holdsTested s b mfn).lane k) := by
  rw [holdsTested_bond]
  refine foldl_holdLane_holdsBy (testedLanes s b) ?_
  cases serves : (s.lane k).inSvc with
  | true => exact .inl (List.mem_append_left _ (List.mem_filter.2 ⟨member, serves⟩))
  | false => exact .inr (.of_out (by rw [dbondMoved_lane, serves]))

theorem bondLanes_of_ports {s t : State} {b : Nat} (same : (t.bond b).ports = (s.bond b).ports) : bondLanes t b = bondLanes s b := by
  rw [bondLanes, bondLanes, same]

/-! ## A judgement keeps every hold of a lane in service, R385 and R389 -/

theorem mem_svcLanes {s : State} {b g : Nat} : g ∈ svcLanes s b ↔ g ∈ bondLanes s b ∧ (s.lane g).inSvc = true := List.mem_filter

theorem foldl_leaveService_lane {l : List Nat} {k : Nat} (stays : k ∉ l) (s : State) : (l.foldl leaveService s).lane k = s.lane k := by
  induction l generalizing s with
  | nil => rfl
  | cons g l ih =>
    obtain ⟨other, later⟩ := List.ne_and_not_mem_of_not_mem_cons stays
    rw [List.foldl_cons, ih later, leaveService, State.setLane_lane_ne _ _ _ _ other]

theorem enterService_holdsBy {s : State} {b k : Nat} (h : HoldsBy (s.bond b) (s.lane k)) (g : Nat) : HoldsBy (s.bond b) ((enterService b s g).lane k) := by
  by_cases here : k = g
  · subst here
    rw [enterService, State.setLane_lane]
    exact fun serves => ⟨(h serves).1, rfl⟩
  · rw [enterService, State.setLane_lane_ne _ _ _ _ here]
    exact h

theorem foldl_enterService_holdsBy {b k : Nat} (l : List Nat) {s : State} (h : HoldsBy (s.bond b) (s.lane k)) : HoldsBy (s.bond b) ((l.foldl (enterService b) s).lane k) := by
  induction l generalizing s with
  | nil => exact h
  | cons g l ih => exact ih (s := enterService b s g) (enterService_holdsBy h g)

theorem serviceJudged_holdsBy {s : State} {b k : Nat} (serves : k ∈ svcLanes s b) (h : HoldsBy (s.bond b) (s.lane k)) (old : State) :
    HoldsBy (s.bond b) ((serviceJudged old s b).lane k) := by
  have stays : k ∉ (svcLanes old b).filter fun g => !(svcLanes s b).contains g := fun left => by simpa [serves] using (List.mem_filter.1 left).2
  have bond : (((svcLanes old b).filter fun g => !(svcLanes s b).contains g).foldl leaveService s).bond b = s.bond b :=
    foldl_keeps (State.bond · b) (step := leaveService) (fun _ _ => rfl) _ s
  unfold serviceJudged
  rw [← bond]
  refine foldl_enterService_holdsBy _ ?_
  rw [bond, foldl_leaveService_lane stays]
  exact h

theorem refTaken_lane (s : State) (b k : Nat) : (now : Option Nat) → (refTaken s b now).lane k = s.lane k
  | none => rfl
  | some g => by
    dsimp only [refTaken]
    split
    · rfl
    · rw [State.lane, (suspend_plumbOnly ..).rnd]
      rfl

theorem refLeft_lane (s : State) (b k : Nat) : (refLeft s b).lane k = s.lane k := by
  unfold refLeft
  split
  · rfl
  · rfl

theorem settleRef_lane (s : State) (b k : Nat) : (settleRef s b).lane k = s.lane k := by
  rw [settleRef_eq]
  split
  · rfl
  · rw [refTaken_lane, refLeft_lane]

theorem pairDown_lane (s : State) (ports : BitVec 16) (k : Nat) : (pairDown s ports).lane k = s.lane k := by
  obtain ⟨x, h⟩ := pairDown_frame s ports
  rw [h]
  rfl

theorem stateJudged_lane (old s : State) (b k : Nat) : (stateJudged old s b).lane k = (serviceJudged old s b).lane k := by
  unfold stateJudged
  dsimp only
  split
  · rw [pairDown_lane, State.setBond_lane]
  · rw [State.setBond_lane]

theorem settle_lane {s : State} {b : Nat} (on : (s.bond b).en = true) (old : State) (k : Nat) : (settle old s b).lane k = (serviceJudged old s b).lane k := by
  rw [settle_enabled on, foldl_keeps (State.lane · k) (step := fun t p => setFarReady t p _) (fun _ _ => rfl), settleRef_lane, stateJudged_lane]

theorem settle_holdsBy {s : State} {b k : Nat} (member : k ∈ bondLanes s b) (h : HoldsBy (s.bond b) (s.lane k)) (old : State) :
    HoldsBy ((settle old s b).bond b) ((settle old s b).lane k) := by
  refine .congr ?_ ((settle_judged old s b).bond b)
  cases serves : (s.lane k).inSvc with
  | false => exact .of_out ((RLane.inSvc_of_unjudged ((settle_judged old s b).lane k)).trans serves)
  | true =>
    cases en : (s.bond b).en with
    | false =>
      rw [settle_disabled en]
      exact h
    | true =>
      rw [settle_lane en]
      exact serviceJudged_holdsBy (mem_svcLanes.2 ⟨member, serves⟩) h old

/-- After the boundary of a multiframe every lane of the bond in service keeps the guard and holds frames by the bond's delay less its own. -/
theorem boundary_holdsBy {s : State} {b mfn k : Nat} (member : k ∈ bondLanes (boundary s b mfn) b) : HoldsBy ((boundary s b mfn).bond b) ((boundary s b mfn).lane k) := by
  have tested : bondLanes (holdsTested s b mfn) b = bondLanes s b := bondLanes_of_ports (by rw [holdsTested_bond, dbondMoved_ports])
  have judged : bondLanes (boundary s b mfn) b = bondLanes (holdsTested s b mfn) b := bondLanes_of_ports (Bond.ports_of_unjudged ((settle_judged ..).bond b))
  rw [judged] at member
  exact settle_holdsBy member (holdsTested_holdsBy (by rwa [tested] at member) mfn) s

end Sys2Proof.Machine

/-! Far lanes (R370 to R372, R376, R383 to R387, R390, R391 and R393). -/

namespace Sys2Proof.Machine

/-! ## The commands of a lane's signal and frame -/

section
variable {s : State} {g : Nat}

theorem farLos_lost (lost : (s.lane g).los = true) : farLos s g = s := if_pos lost
theorem farLos_raises (heard : (s.lane g).los = false) : farLos s g = raiseDefect s g 1 { (s.lane g).cut with los := true } := if_neg (ne_true_of_eq_false heard)
theorem losClear_heard (heard : (s.lane g).los = false) : losClear s g = s := if_neg (ne_true_of_eq_false heard)
theorem losClear_clears (lost : (s.lane g).los = true) : losClear s g = clearDefect s g 1 { s.lane g with los := false } := if_pos lost

theorem lofDeclare_ignored (h : (s.lane g).oof = false ∨ (s.lane g).lof = true) : lofDeclare s g = s :=
  if_neg (by rcases h with h | h <;> simp [h])

theorem lofDeclare_raises (oof : (s.lane g).oof = true) (lof : (s.lane g).lof = false) : lofDeclare s g = raiseDefect s g 3 { s.lane g with lof := true } :=
  if_pos (by rw [oof, lof]; rfl)

theorem lofClear_ignored (h : (s.lane g).lof = false ∨ (s.lane g).inFrame = false) : lofClear s g = s :=
  if_neg (by rcases h with h | h <;> simp [h])

theorem lofClear_clears (lof : (s.lane g).lof = true) (inFrame : (s.lane g).inFrame = true) : lofClear s g = clearDefect s g 3 { s.lane g with lof := false } :=
  if_pos (by rw [lof, inFrame]; rfl)

end

/-! ## Frames of a lane in frame, R371 -/

section
variable {s : State} {g b : Nat}

/-- The fourth bad alignment word or count in a row. -/
theorem frontJudged_lost (bad : (2 < bitDiff (((s.lane g).stream.take 16384).take 6) (fawOf (isV1 s b)) ∧ 3 ≤ (s.lane g).badFaw)
      ∨ (ohcrcOk ((s.lane g).stream.take 16384) = true ∧ overheadPos ((s.lane g).stream.take 16384) ≠ (s.lane g).next ∧ 3 ≤ (s.lane g).badSeq)) :
    4 ≤ (frontJudged s g b).badFaw ∨ 4 ≤ (frontJudged s g b).badSeq := by
  rcases bad with ⟨word, faws⟩ | ⟨crc, count, seqs⟩
  · rw [frontJudged_badFaw, if_pos word]
    exact .inl (Nat.succ_le_succ faws)
  · rw [frontJudged_badSeq, if_pos crc, if_neg count]
    exact .inr (Nat.succ_le_succ seqs)

/-- A good alignment word, and a count that is right or cannot be read. -/
theorem frontJudged_good (word : bitDiff (((s.lane g).stream.take 16384).take 6) (fawOf (isV1 s b)) ≤ 2)
    (right : ohcrcOk ((s.lane g).stream.take 16384) = true → overheadPos ((s.lane g).stream.take 16384) = (s.lane g).next)
    (few : ohcrcOk ((s.lane g).stream.take 16384) = false → (s.lane g).badSeq < 4) :
    (frontJudged s g b).badFaw = 0 ∧ ¬(4 ≤ (frontJudged s g b).badFaw ∨ 4 ≤ (frontJudged s g b).badSeq) := by
  have faw : (frontJudged s g b).badFaw = 0 := (frontJudged_badFaw s g b).trans (if_neg (Nat.not_lt.2 word))
  refine ⟨faw, ?_⟩
  rw [faw, frontJudged_badSeq]
  cases crc : ohcrcOk ((s.lane g).stream.take 16384) with
  | true =>
    rw [if_pos rfl, if_pos (right crc)]
    omega
  | false =>
    rw [if_neg Bool.false_ne_true]
    have := few crc
    omega

variable (arrival : FullTime) (hears : Hears s g b) (inFrame : (s.lane g).inFrame = true) (whole : 16384 ≤ (s.lane g).stream.length)
include hears inFrame whole

theorem frameReceive_loses (bad : 4 ≤ (frontJudged s g b).badFaw ∨ 4 ≤ (frontJudged s g b).badSeq) :
    ((frameReceive s g arrival).lane g).unjudged = RLane.unjudged { (frontJudged s g b).lost with oof := true } := by
  rw [frameReceive_takes arrival hears inFrame whole, if_pos bad]
  exact raiseDefect_lane ..

theorem frameReceive_keeps (good : ¬(4 ≤ (frontJudged s g b).badFaw ∨ 4 ≤ (frontJudged s g b).badSeq)) :
    ((frameReceive s g arrival).lane g).framing = (frontJudged s g b).framing := by
  rw [frameReceive_takes arrival hears inFrame whole, if_neg good]
  refine (congrFun ((frameUsed_framings ..).trans (frameBegun_framings ..)) g).trans ?_
  rw [State.framings, State.setLane_lane]

end

/-! ## The statement -/

/-- Settles O44: the commands of a lane by its flags, the search by what its octets start and confirm, a frame by its alignment word and count, a boundary by the holds that it tests, and ranging by the step of a delay. -/
theorem farLanes : Obligations.FarLanes := by
  unfold Obligations.FarLanes
  intro s g live
  have answers {t u : State} : t = u → act s t = .next u := act_eq_next live
  refine ⟨fun h => answers (farLos_lost h), fun h => answers (farLos_raises h), fun h => answers (losClear_heard h), fun h => answers (losClear_clears h),
    fun h => answers (lofDeclare_ignored h), fun oof lof => answers (lofDeclare_raises oof lof), fun h => answers (lofClear_ignored h), fun lof inFrame => answers (lofClear_clears lof inFrame),
    ?raised, fun code y unbonded => defect_noBond unbonded code y, fun arrival h => answers (frameReceive_ignored arrival h), ?search, ?frame, fun b mfn l member serves => boundary_holdsBy member serves,
    ?steps, fun b bytes => ⟨fun h => answers (rangingMessage_ignored h), fun ok en => .of_act live rfl (rangingMessage_dialogue ok en)⟩⟩
  case raised =>
    intro b code y bonded working
    have lane := raiseDefect_lane s g.val code y
    obtain ⟨counted, entry⟩ := raiseDefect_recorded bonded working code
    exact ⟨(congrArg RLane.los lane :), (congrArg RLane.lof lane :), (congrArg RLane.oof lane :), (congrArg RLane.inFrame lane :), RLane.inSvc_of_unjudged lane, counted, entry⟩
  case search =>
    intro arrival b bonded los loa retired out
    have hears : Hears s g.val b := ⟨bonded, los, loa, retired⟩
    refine ⟨fun missed => answers (frameReceive_misses arrival hears out missed), hunt_waits, fun long none_starts => hunt_passes long none_starts,
      fun starts long short => hunt_unconfirmedYet starts long short, fun starts whole unconfirmed => hunt_misled starts (by omega) whole unconfirmed, ?_⟩
    intro starts whole confirmed short
    refine .of_act live rfl ?_
    have lane := frameReceive_finds arrival hears out (hunt_aligned starts (by omega) whole confirmed) short
    exact ⟨(congrArg RLane.inFrame lane :), (congrArg RLane.oof lane :), (congrArg RLane.ranged lane :), (congrArg RLane.next lane :), (congrArg RLane.stream lane :)⟩
  case frame =>
    intro arrival b bonded los loa retired inFrame
    have hears : Hears s g.val b := ⟨bonded, los, loa, retired⟩
    refine ⟨fun short => answers (frameReceive_waits arrival hears inFrame short), fun whole bad => ?loses, fun whole word right few => ?keeps⟩
    case loses =>
      refine .of_act live rfl ?_
      have lane := frameReceive_loses arrival hears inFrame whole (frontJudged_lost bad)
      have count : ((frameReceive s g.val arrival).lane g.val).ohcrcCount = (frontJudged s g.val b).ohcrcCount := (congrArg RLane.ohcrcCount lane :)
      have stream : ((frameReceive s g.val arrival).lane g.val).stream = (frontJudged s g.val b).stream := (congrArg RLane.stream lane :)
      exact ⟨(congrArg RLane.inFrame lane :), (congrArg RLane.oof lane :), RLane.inSvc_of_unjudged lane, stream.trans (frontJudged_stream ..), fun crc => count.trans (frontJudged_ohcrcCount _ _ _ crc)⟩
    case keeps =>
      refine .of_act live rfl ?_
      obtain ⟨faw, good⟩ := frontJudged_good word right few
      have kept := frameReceive_keeps arrival hears inFrame whole good
      obtain ⟨frame, kept⟩ := Prod.mk.inj kept
      obtain ⟨faws, kept⟩ := Prod.mk.inj kept
      obtain ⟨next, kept⟩ := Prod.mk.inj kept
      obtain ⟨stream, count⟩ := Prod.mk.inj kept
      exact ⟨(frame.trans (frontJudged_inFrame ..)).trans inFrame, faws.trans faw, next.trans (frontJudged_next ..), stream.trans (frontJudged_stream ..),
        fun crc => count.trans (frontJudged_ohcrcCount _ _ _ crc)⟩
  case steps =>
    intro b mfn new o ranged old far
    have lane := enterRanging_lane s b g.val mfn (s.lane g.val) o new
    dsimp only
    rw [measureLane_steps ranged old far]
    generalize (enterRanging s b g.val mfn (s.lane g.val) o new).lane g.val = y at lane ⊢
    refine ⟨(congrArg RLane.ranged lane :), (congrArg RLane.d lane :), (congrArg RLane.stable lane :), (RLane.inSvc_of_unjudged lane).trans ?_⟩
    rw [RLane.inSvc]
    simp

end Sys2Proof.Machine

/-! Settings of tributaries, ports and bonds, and the octets of tributaries (R378 to R380, R395, R398 and R625). -/

namespace Sys2Proof.Machine

/-! ## The line code of the overhead serial ports, R625 -/

/-- The octet that a data code group stands for under a running disparity. -/
def octetOf (plus : Bool) (g : BitVec 10) : Byte :=
  let six := g.toNat / 16
  let mid := disparityAfter plus 6 0b000111 six
  let x := sixBits.findIdx fun v => decide (blockUnder plus 6 0b111000 v = six)
  let y := fourBits.findIdx fun v => decide (blockUnder mid 4 0b1100 v = g.toNat % 16)
  BitVec.ofNat 8 (32 * min y 7 + x)

/-- Each octet can be told from its data code group, and none of these is the idle. -/
theorem dataGroup_told : ∀ (plus : Bool) (n : Fin 256),
    octetOf plus (dataGroup plus (BitVec.ofFin n)) = BitVec.ofFin n ∧ dataGroup plus (BitVec.ofFin n) ≠ idleGroup plus := by
  decide +kernel

theorem dataGroup_injective (plus : Bool) : Function.Injective (dataGroup plus) :=
  Function.LeftInverse.injective (g := octetOf plus) fun o => (dataGroup_told plus o.toFin).1

theorem dataGroup_ne_idleGroup (plus : Bool) (o : Byte) : dataGroup plus o ≠ idleGroup plus := (dataGroup_told plus o.toFin).2

theorem groupOctet_dataGroup (plus : Bool) (o : Byte) : groupOctet plus (dataGroup plus o) = some o := by
  unfold groupOctet
  cases found : ((List.range 256).map (BitVec.ofNat 8)).find? fun b => decide (dataGroup plus b = dataGroup plus o) with
  | none =>
    have listed : o ∈ (List.range 256).map (BitVec.ofNat 8) := List.mem_map.2 ⟨o.toNat, List.mem_range.2 o.isLt, BitVec.ofNat_toNat 8 o ▸ BitVec.setWidth_eq o⟩
    exact absurd (decide_eq_true rfl) (List.find?_eq_none.1 found o listed)
  | some b =>
    have same := List.find?_some found
    rw [dataGroup_injective plus (of_decide_eq_true same)]

/-! ## The FIFOs of a tributary, R378 and R379 -/

section
variable (s : State) (c : Nat)

/-- A tributary that has heard a code group. -/
def Trib.heard (x : Trib) (grp : BitVec 10) : Trib := { x with rxPlus := groupDisparity x.rxPlus grp }

theorem setTrib_setTrib_ne (x y : Trib) {d : Nat} (other : d ≠ c) : ((s.setTrib c x).setTrib c y).trib d = s.trib d := by
  rw [State.setTrib_trib_ne _ _ _ _ other, State.setTrib_trib_ne _ _ _ _ other]

theorem tribAddOctet_discards {grp : BitVec 10} (idle : groupOctet (s.trib c).rxPlus grp = none) : tribAddOctet s c grp = s.setTrib c ((s.trib c).heard grp) := by
  unfold tribAddOctet
  dsimp only
  rw [idle]
  rfl

theorem tribAddOctet_adds {grp : BitVec 10} {o : Byte} (data : groupOctet (s.trib c).rxPlus grp = some o) :
    tribAddOctet s c grp = tribAdd (s.setTrib c ((s.trib c).heard grp)) c o := by
  unfold tribAddOctet
  dsimp only
  rw [data]
  rfl

theorem tribAdd_room {o : Byte} (room : (s.trib c).addFifo.length < 8192) : tribAdd s c o = s.setTrib c { s.trib c with addFifo := (s.trib c).addFifo ++ [o] } :=
  if_neg (Nat.not_le.2 room)

theorem tribAdd_full {o : Byte} (full : 8192 ≤ (s.trib c).addFifo.length) :
    tribAdd s c o = s.setTrib c { s.trib c with slip := bump (s.trib c).slip 1, err := setErr (s.trib c).err 0 } :=
  if_pos full

theorem dropFifoSend_empty (empty : (s.trib c).dropFifo = []) : dropFifoSend s c = if isUp s then
    emit (s.setTrib c { s.trib c with txPlus := groupDisparity (s.trib c).txPlus (idleGroup (s.trib c).txPlus) }) (.os c none (idleGroup (s.trib c).txPlus)) else s := by
  unfold dropFifoSend
  dsimp only
  rw [empty]

theorem dropFifoSend_sends {o : Byte} {r : List Byte} (holds : (s.trib c).dropFifo = o :: r) : dropFifoSend s c
    = emit (s.setTrib c { s.trib c with dropFifo := r, txPlus := groupDisparity (s.trib c).txPlus (dataGroup (s.trib c).txPlus o) }) (.os c (some o) (dataGroup (s.trib c).txPlus o)) := by
  unfold dropFifoSend
  dsimp only
  rw [holds]

end

/-! ## Settings of a tributary, R379 and R398 -/

/-- Another tributary has taken the bond. -/
def TribTaken (s : State) (c b : Nat) : Prop := ∃ d, d < 4 ∧ d ≠ c ∧ (s.trib d).en = true ∧ (s.trib d).bond.toNat = b

/-- Whether the rules forbid these settings of a tributary. -/
def TribForbidden (s : State) (c : Nat) (v : BitVec 32) : Prop :=
  (v.getLsbD 31 = true ∧ ((s.bond (bitsOf v.toNat 27 24)).en = false ∨ TribTaken s c (bitsOf v.toNat 27 24)))
    ∨ (if isV1 s (bitsOf v.toNat 27 24) then 60000 else 100000) < bitsOf v.toNat 16 0

theorem tribTaken_iff {s : State} {c b : Nat} : ((List.range 4).any fun d => decide (d ≠ c) && (s.trib d).en && decide ((s.trib d).bond.toNat = b)) = true ↔ TribTaken s c b := by
  simp only [List.any_eq_true, List.mem_range, Bool.and_eq_true, decide_eq_true_eq, and_assoc, TribTaken]

section
variable {s : State} {c : Nat} {v : BitVec 32}

theorem tribForbidden_iff : ((v.getLsbD 31 && (!(s.bond (bitsOf v.toNat 27 24)).en
      || (List.range 4).any fun d => decide (d ≠ c) && (s.trib d).en && decide ((s.trib d).bond.toNat = bitsOf v.toNat 27 24)))
      || decide ((if isV1 s (bitsOf v.toNat 27 24) then 60000 else 100000) < bitsOf v.toNat 16 0)) = true ↔ TribForbidden s c v := by
  rw [Bool.or_eq_true, Bool.and_eq_true, Bool.or_eq_true, tribTaken_iff, Bool.not_eq_true', decide_eq_true_eq, TribForbidden]

theorem tribCfgWrite_refused (forbidden : TribForbidden s c v) : tribCfgWrite s c v = s.setTrib c { s.trib c with err := setErr (s.trib c).err 3 } :=
  if_pos (tribForbidden_iff.2 forbidden)

theorem tribCfgWrite_taken (lawful : ¬TribForbidden s c v) : tribCfgWrite s c v
    = s.setTrib c { s.trib c with en := v.getLsbD 31, bond := BitVec.ofNat 4 (bitsOf v.toNat 27 24), rate := BitVec.ofNat 17 (bitsOf v.toNat 16 0) } :=
  if_neg (mt tribForbidden_iff.1 lawful)

end

/-! ## Settings of a port, R395 -/

/-- An enabled bond uses the port. -/
def PortUsed (s : State) (p : Nat) : Prop := ∃ b, b < 16 ∧ (s.bond b).en = true ∧ (s.bond b).ports.getLsbD p = true

theorem portUsed_iff {s : State} {p : Nat} : ((List.range 16).any fun b => (s.bond b).en && (s.bond b).ports.getLsbD p) = true ↔ PortUsed s p := by
  simp only [List.any_eq_true, List.mem_range, Bool.and_eq_true, PortUsed]

section
variable {s : State} {p : Nat} {v : BitVec 32}

theorem portV1Write_same (same : v.getLsbD 0 = (s.rport p).v1) : portV1Write s p v = s := if_pos same

theorem portV1Write_used (changes : v.getLsbD 0 ≠ (s.rport p).v1) (used : PortUsed s p) : portV1Write s p v = s.setRport p { s.rport p with err := setErr (s.rport p).err 1 } :=
  (if_neg changes).trans (if_pos (portUsed_iff.2 used))

theorem portV1Write_unused (changes : v.getLsbD 0 ≠ (s.rport p).v1) (unused : ¬PortUsed s p) : portV1Write s p v = s.setRport p { s.rport p with v1 := v.getLsbD 0 } :=
  (if_neg changes).trans (if_neg (mt portUsed_iff.1 unused))

end

/-! ## What R380 forbids of a bond -/

/-- Another enabled bond has one of the ports. -/
def PortsTaken (s : State) (b : Nat) (ports : BitVec 16) : Prop := ∃ c, c < 16 ∧ c ≠ b ∧ (s.bond c).en = true ∧ (s.bond c).ports &&& ports ≠ 0

/-- Two of the ports differ in their framing. -/
def PortsMixed (s : State) (ports : BitVec 16) : Prop := ∃ p q, p < 16 ∧ q < 16 ∧ ports.getLsbD p = true ∧ ports.getLsbD q = true ∧ (s.rport p).v1 ≠ (s.rport q).v1

/-- A plan holds a budget of the bond. -/
def BondHeld (s : State) (b : Nat) : Prop := hasBudget s 0x04 b = true ∨ hasBudget s 0x05 b = true ∨ hasBudget s 0x07 b = true

/-- Whether R380 forbids these settings of an enabled bond. -/
def BondForbidden (s : State) (b : Nat) (ports : BitVec 16) (low : Nat) : Prop :=
  PortsTaken s b ports ∨ PortsMixed s ports ∨ low = 0 ∨ 8 * (portsOf ports).length < low ∨ BondHeld s b

theorem mem_portsOf {v : BitVec 16} {p : Nat} : p ∈ portsOf v ↔ p < 16 ∧ v.getLsbD p = true := by
  rw [portsOf, List.mem_filter, List.mem_range]

theorem portsTaken_iff {s : State} {b : Nat} {ports : BitVec 16} :
    ((List.range 16).any fun c => decide (c ≠ b) && (s.bond c).en && decide ((s.bond c).ports &&& ports ≠ 0)) = true ↔ PortsTaken s b ports := by
  simp only [List.any_eq_true, List.mem_range, Bool.and_eq_true, decide_eq_true_eq, and_assoc, PortsTaken]

/-- Whether some port of a list differs in its framing from the first. -/
def framingsMixed (s : State) : List Nat → Bool
  | [] => false
  | p :: r => r.any fun q => decide ((s.rport q).v1 ≠ (s.rport p).v1)

theorem framingsMixed_iff {s : State} {l : List Nat} : framingsMixed s l = true ↔ ∃ p ∈ l, ∃ q ∈ l, (s.rport p).v1 ≠ (s.rport q).v1 := by
  cases l with
  | nil => simp [framingsMixed]
  | cons a r =>
    rw [framingsMixed, List.any_eq_true]
    constructor
    · rintro ⟨q, mem, differs⟩
      exact ⟨q, List.mem_cons_of_mem a mem, a, List.mem_cons_self, of_decide_eq_true differs⟩
    · rintro ⟨p, hp, q, hq, differs⟩
      by_cases first : (s.rport p).v1 = (s.rport a).v1
      · refine ⟨q, (List.mem_cons.1 hq).resolve_left ?_, decide_eq_true fun same => differs (first.trans same.symm)⟩
        rintro rfl
        exact differs first
      · refine ⟨p, (List.mem_cons.1 hp).resolve_left ?_, decide_eq_true first⟩
        rintro rfl
        exact first rfl

theorem portsMixed_iff {s : State} {ports : BitVec 16} : framingsMixed s (portsOf ports) = true ↔ PortsMixed s ports := by
  simp only [framingsMixed_iff, mem_portsOf, PortsMixed]
  constructor
  · rintro ⟨p, ⟨hp, inp⟩, q, ⟨hq, inq⟩, differs⟩
    exact ⟨p, q, hp, hq, inp, inq, differs⟩
  · rintro ⟨p, q, hp, hq, inp, inq, differs⟩
    exact ⟨p, ⟨hp, inp⟩, q, ⟨hq, inq⟩, differs⟩

theorem bondForbidden_eq (s : State) (b : Nat) (ports : BitVec 16) (low : Nat) : bondForbidden s b ports low
    = (((List.range 16).any fun c => decide (c ≠ b) && (s.bond c).en && decide ((s.bond c).ports &&& ports ≠ 0)) || framingsMixed s (portsOf ports) || decide (low = 0)
      || decide (8 * (portsOf ports).length < low) || hasBudget s 0x04 b || hasBudget s 0x05 b || hasBudget s 0x07 b) := by
  unfold bondForbidden
  cases portsOf ports <;> rfl

theorem bondForbidden_iff {s : State} {b : Nat} {ports : BitVec 16} {low : Nat} : bondForbidden s b ports low = true ↔ BondForbidden s b ports low := by
  simp only [bondForbidden_eq, Bool.or_eq_true, portsTaken_iff, portsMixed_iff, decide_eq_true_eq, BondForbidden, BondHeld, or_assoc]

/-! ## Settings of a bond, R380, R454 and R518 -/

/-- A bond with the settings of RND_BONDb_CFG. -/
def Bond.configured (x : Bond) (v : BitVec 32) : Bond :=
  { x with en := v.getLsbD 31, follow := v.getLsbD 30, minLanes := BitVec.ofNat 8 (bitsOf v.toNat 23 16), ports := v.setWidth 16 }

/-- A bond that starts afresh. -/
def Bond.restarted (x : Bond) : Bond :=
  { x with dbond := 0, ref := none, peerEpoch := none, p0Left := 0, p0Got := [], p1Left := 0, p1Got := [], p2Left := 0, p2Got := [], p0Tx := [], p1Tx := [], p2Tx := [], p1Queue := [], mfAt := none, times := [], baseDue := false, chanLane := none, released := none }

/-- The state with some lanes afresh. -/
def lanesFresh (l : List Nat) (s : State) : State := l.foldl (fun s g => s.setLane g (s.lane g).fresh) s

/-- A bond's keys once every slot is empty. -/
def SBond.emptied (x : SBond) : SBond := { x with tx0 := {}, tx1 := {}, rx0 := {}, rx1 := {}, switchTo := none }

/-- The state once fair queueing starts over for a bond that has risen, or the keys of one that is off are gone. -/
def keysJudged (b : Nat) (was en : Bool) (s : State) : State :=
  if en then (if was then s else fairRestart s b) else s.setSbond b (s.sbond b).emptied

/-- The state once the ports that a bond had are no longer ready. -/
def portsLeft (was : Bool) (ports : BitVec 16) (s : State) : State := if was then (portsOf ports).foldl (fun s p => setFarReady s p false) s else s

/-- The state once a bond has started afresh with its settings, the judgement yet to come. -/
def bondRestarted (s : State) (b : Nat) (v : BitVec 32) : State :=
  let x := s.bond b
  let t := (s.setBond b (x.configured v)).setBond b (x.configured v).restarted
  let t := lanesFresh ((if x.en then bondLanes s b else []) ++ if v.getLsbD 31 then bondLanes t b else []) t
  portsLeft x.en x.ports (keysJudged b x.en (v.getLsbD 31) (t.setMbond b (t.mbond b).fresh))

theorem fairRestart_frame (s : State) (b : Nat) : ∃ q, fairRestart s b = { s with sch := q } := by
  refine foldl_frame (fun q => { s with sch := q }) (fun q i => ?_) _ _
  dsimp only
  split
  · exact ⟨_, rfl⟩
  · exact ⟨q, rfl⟩

section
variable (s : State) (b : Nat)

theorem lanesFresh_bond (l : List Nat) (c : Nat) : (lanesFresh l s).bond c = s.bond c := foldl_keeps (State.bond · c) (step := fun s g => s.setLane g (s.lane g).fresh) (fun _ _ => rfl) l s

theorem fairRestart_bond (c : Nat) : (fairRestart s b).bond c = s.bond c := by
  obtain ⟨q, restarted⟩ := fairRestart_frame s b
  rw [restarted]
  rfl

theorem keysJudged_bond (was en : Bool) (c : Nat) : (keysJudged b was en s).bond c = s.bond c := by
  cases en with
  | false => rfl
  | true =>
    cases was with
    | true => rfl
    | false => exact fairRestart_bond s b c

theorem portsLeft_bond (was : Bool) (ports : BitVec 16) (c : Nat) : (portsLeft was ports s).bond c = s.bond c := by
  cases was with
  | false => rfl
  | true => exact foldl_keeps (State.bond · c) (step := fun s p => setFarReady s p false) (fun _ _ => rfl) _ s

theorem portsLeft_sbond (was : Bool) (ports : BitVec 16) (c : Nat) : (portsLeft was ports s).sbond c = s.sbond c := by
  cases was with
  | false => rfl
  | true => exact foldl_keeps (State.sbond · c) (step := fun s p => setFarReady s p false) (fun _ _ => rfl) _ s

theorem bondRestarted_bond (v : BitVec 32) : (bondRestarted s b v).bond b = ((s.bond b).configured v).restarted := by
  unfold bondRestarted
  dsimp only
  rw [portsLeft_bond, keysJudged_bond, State.setMbond_bond, lanesFresh_bond, State.setBond_bond]

theorem bondRestarted_bond_ne (v : BitVec 32) {c : Nat} (other : c ≠ b) : (bondRestarted s b v).bond c = s.bond c := by
  unfold bondRestarted
  dsimp only
  rw [portsLeft_bond, keysJudged_bond, State.setMbond_bond, lanesFresh_bond, State.setBond_bond_ne _ _ _ _ other, State.setBond_bond_ne _ _ _ _ other]

theorem bondRestarted_sbond {v : BitVec 32} (off : v.getLsbD 31 = false) : ∃ x : SBond, (bondRestarted s b v).sbond b = x.emptied := by
  unfold bondRestarted
  dsimp only
  rw [portsLeft_sbond, off, keysJudged, if_neg Bool.false_ne_true, State.setSbond_sbond]
  exact ⟨_, rfl⟩

theorem judgeMinLow_bond (c : Nat) : (judgeMinLow s b).bond c = s.bond c := rfl
theorem judgeMinLow_sbond (c : Nat) : (judgeMinLow s b).sbond c = s.sbond c := rfl

end

section
variable {s : State} {b : Nat} {v : BitVec 32}

/-- Whether a write of RND_BONDb_CFG starts the bond afresh: EN changes, or the ports of a bond that stays enabled do. -/
def Restarts (x : Bond) (v : BitVec 32) : Prop := v.getLsbD 31 ≠ x.en ∨ (v.getLsbD 31 = true ∧ v.setWidth 16 ≠ x.ports)

theorem bondCfgWrite_refused (on : v.getLsbD 31 = true ∨ (s.bond b).en = true) (forbidden : BondForbidden s b (v.setWidth 16) (bitsOf v.toNat 23 16)) :
    bondCfgWrite s b v = s.setBond b { s.bond b with err := setErr (s.bond b).err 4 } :=
  if_pos (by rw [Bool.and_eq_true, Bool.or_eq_true]; exact ⟨on, bondForbidden_iff.2 forbidden⟩)

variable (lawful : (v.getLsbD 31 = false ∧ (s.bond b).en = false) ∨ ¬BondForbidden s b (v.setWidth 16) (bitsOf v.toNat 23 16))
include lawful

theorem bondCfgWrite_lawful : ¬((v.getLsbD 31 || (s.bond b).en) && bondForbidden s b (v.setWidth 16) (bitsOf v.toNat 23 16)) = true := by
  rw [Bool.and_eq_true, Bool.or_eq_true, bondForbidden_iff]
  rintro ⟨on, forbidden⟩
  rcases lawful with ⟨off, was⟩ | allowed
  · rcases on with on | on
    · exact ne_true_of_eq_false off on
    · exact ne_true_of_eq_false was on
  · exact allowed forbidden

theorem bondCfgWrite_restarts (restarts : Restarts (s.bond b) v) : bondCfgWrite s b v = judgeMinLow (settle (bondRestarted s b v) (bondRestarted s b v) b) b :=
  (if_neg (bondCfgWrite_lawful lawful)).trans (if_pos restarts)

theorem bondCfgWrite_stays (stays : ¬Restarts (s.bond b) v) : bondCfgWrite s b v = judgeMinLow (settle s (s.setBond b ((s.bond b).configured v)) b) b :=
  (if_neg (bondCfgWrite_lawful lawful)).trans (if_neg stays)

/-- What a write that is taken leaves: a state with the settings in place, judged once. -/
theorem bondCfgWrite_taken : ∃ old t, bondCfgWrite s b v = judgeMinLow (settle old t b) b
    ∧ (t.bond b = (s.bond b).configured v ∨ t.bond b = ((s.bond b).configured v).restarted) ∧ (∀ c, c ≠ b → t.bond c = s.bond c)
    ∧ ((s.bond b).en = true → v.getLsbD 31 = false → ∃ x : SBond, t.sbond b = x.emptied) := by
  by_cases restarts : Restarts (s.bond b) v
  · exact ⟨_, _, bondCfgWrite_restarts lawful restarts, .inr (bondRestarted_bond s b v), fun c other => bondRestarted_bond_ne s b v other, fun _ off => bondRestarted_sbond s b off⟩
  · refine ⟨_, _, bondCfgWrite_stays lawful restarts, .inl (State.setBond_bond ..), fun c other => State.setBond_bond_ne _ _ _ _ other, fun was off => ?_⟩
    exact absurd (.inl (by rw [was, off]; exact Bool.false_ne_true)) restarts

end

/-- A bond that is switched off is OFF. -/
theorem settle_off {s : State} {b : Nat} (off : (s.bond b).en = false) (old : State) : ((settle old s b).bond b).st = 0 := by
  rw [settle_disabled off, State.setBond_bond]

/-- Settles O45: octets and code groups of a tributary by the fill of its FIFOs, and each setting by whether the rules forbid it. -/
theorem farSettings : Obligations.FarSettings := by
  unfold Obligations.FarSettings
  intro s live
  have answers {t u : State} : t = u → act s t = .next u := act_eq_next live
  refine ⟨?octet, fun o => ⟨groupOctet_dataGroup false o, groupOctet_dataGroup true o, dataGroup_ne_idleGroup false o, dataGroup_ne_idleGroup true o⟩, ?empty,
    fun c o r holds => answers (dropFifoSend_sends s c.val holds), ?trib, ?port, ?bond⟩
  case octet =>
    intro c grp
    refine ⟨fun idle => answers (tribAddOctet_discards s c.val idle), fun o data => ⟨fun room => .of_act live (congrArg (act s) (tribAddOctet_adds s c.val data)) ?_,
      fun full => .of_act live (congrArg (act s) (tribAddOctet_adds s c.val data)) ?_⟩⟩
    · rw [tribAdd_room _ _ (by rw [State.setTrib_trib]; exact room), State.setTrib_trib, State.setTrib_trib]
      exact ⟨rfl, fun d other => setTrib_setTrib_ne s c.val _ _ other⟩
    · rw [tribAdd_full _ _ (by rw [State.setTrib_trib]; exact full), State.setTrib_trib, State.setTrib_trib]
      exact ⟨rfl, fun d other => setTrib_setTrib_ne s c.val _ _ other⟩
  case empty =>
    intro c empty
    have sends := dropFifoSend_empty s c.val empty
    exact ⟨fun held => answers (sends.trans (if_neg (ne_true_of_eq_false held))), fun up => answers (sends.trans (if_pos up))⟩
  case trib =>
    intro c v
    refine ⟨fun forbidden => answers (tribCfgWrite_refused forbidden), fun free few => answers (tribCfgWrite_taken ?_)⟩
    rintro (⟨on, bad⟩ | many)
    · rcases free with off | ⟨bonded, untaken⟩
      · exact ne_true_of_eq_false off on
      · exact bad.elim (fun off => Bool.false_ne_true (off.symm.trans bonded)) untaken
    · exact Nat.not_lt.2 few many
  case port =>
    intro p v
    exact ⟨fun same => answers (portV1Write_same same), fun changes used => answers (portV1Write_used changes used), fun changes unused => answers (portV1Write_unused changes unused)⟩
  case bond =>
    intro b v
    refine ⟨fun on forbidden => answers (bondCfgWrite_refused on forbidden), fun lawful => ?taken, fun on forbidden => if_pos (by rw [on, forbidden]; rfl)⟩
    obtain ⟨old, t, write, bond, others, keys⟩ := bondCfgWrite_taken lawful
    have judged := settle_judged old t b.val
    have settings : (t.bond b.val).en = v.getLsbD 31 ∧ (t.bond b.val).ports = v.setWidth 16 ∧ (t.bond b.val).minLanes = BitVec.ofNat 8 (bitsOf v.toNat 23 16)
        ∧ (t.bond b.val).follow = v.getLsbD 30 := by
      rcases bond with h | h
      · rw [h]
        exact ⟨rfl, rfl, rfl, rfl⟩
      · rw [h]
        exact ⟨rfl, rfl, rfl, rfl⟩
    obtain ⟨en, ports, low, follow⟩ := settings
    refine .of_act live (congrArg (act s) write) ?_
    simp only [judgeMinLow_bond, judgeMinLow_sbond]
    have same (c : Nat) : ((settle old t b.val).bond c).en = (t.bond c).en ∧ ((settle old t b.val).bond c).ports = (t.bond c).ports :=
      ⟨(congrArg Bond.en (judged.bond c) :), (congrArg Bond.ports (judged.bond c) :)⟩
    refine ⟨(same b.val).1.trans en, (same b.val).2.trans ports, .trans (congrArg Bond.minLanes (judged.bond b.val) :) low, .trans (congrArg Bond.follow (judged.bond b.val) :) follow,
      fun off => settle_off (en.trans off) old, fun was off => ?_, fun c other => ?_⟩
    · obtain ⟨x, emptied⟩ := keys was off
      rw [judged.sbond, emptied]
      exact ⟨rfl, rfl, rfl, rfl⟩
    · rw [(same c).1, (same c).2, others c other]
      exact ⟨rfl, rfl⟩

end Sys2Proof.Machine

/-! A tripped device (R613, R628): what its commands and its ticks can still reach, and the removal of power. -/

namespace Sys2Proof.Machine

/-! ## What a tripped device can still do -/

/-- The second state differs from the first in the commands that wait, Plumb, the test access port, the values drawn and the hold of the photonics alone. -/
def HeldStill (s t : State) : Prop :=
  ∃ l p a f h, t = { s with pending := l, plb := p, tap := a, fresh := f, phn := { s.phn with holdNs := h } }

theorem HeldStill.restored {s t : State} (h : HeldStill s t) :
    { t with pending := s.pending, plb := s.plb, tap := s.tap, fresh := s.fresh, phn := { t.phn with holdNs := s.phn.holdNs } } = s := by
  obtain ⟨l, p, a, f, n, rfl⟩ := h
  rfl

theorem HeldStill.pwr {s t : State} (h : HeldStill s t) : t.pwr = s.pwr := by
  obtain ⟨l, p, a, f, n, rfl⟩ := h
  rfl

theorem HeldStill.trans {s t u : State} (h : HeldStill s t) (h' : HeldStill t u) : HeldStill s u := by
  obtain ⟨l, p, a, f, n, rfl⟩ := h
  obtain ⟨l', p', a', f', n', rfl⟩ := h'
  exact ⟨l', p', a', f', n', rfl⟩

/-! ## Commands, R613 and R628 -/

/-- The port serves at all times, and touches nothing else but what it draws. -/
theorem jtagPrivate_tapOnly (s : State) (tdi : List Bool) : ∃ a f, jtagPrivate s tdi = { s with tap := a, fresh := f } := by
  unfold jtagPrivate
  split
  · exact ⟨_, _, rfl⟩
  · exact ⟨_, s.fresh, rfl⟩

/-- Of all commands only the removal of power reaches more of a tripped device than its test access port. -/
theorem exec_tripped {s : State} (tripped : s.pwr.tripped = true) {c : Instr} (other : c ≠ .powerRemoved) :
    ∃ a f, exec c s = .next { s with tap := a, fresh := f } := by
  cases c with
  | powerRemoved => exact absurd rfl other
  | tapReset => exact ⟨_, s.fresh, rfl⟩
  | idcode => exact ⟨_, s.fresh, rfl⟩
  | bypass tdi => exact ⟨_, s.fresh, rfl⟩
  | jtagBoundaryScan cells drive => exact ⟨_, _, rfl⟩
  | jtagPrivate tdi =>
    obtain ⟨a, f, h⟩ := jtagPrivate_tapOnly s tdi
    exact ⟨a, f, congrArg Host.Outcome.next h⟩
  | _ => exact ⟨s.tap, s.fresh, act_tripped tripped _⟩

/-! ## The tick, R310 and R613 -/

/-- The second state differs from the first in Plumb, and in commands of trigger channels that wait behind the others. -/
def TriggersOnly (s t : State) : Prop := ∃ p l, t = { s with plb := p, pending := s.pending ++ l } ∧ .powerRemoved ∉ l

theorem TriggersOnly.refl (s : State) : TriggersOnly s s := ⟨s.plb, [], by rw [List.append_nil], List.not_mem_nil⟩

theorem TriggersOnly.trans {s t u : State} (h : TriggersOnly s t) (h' : TriggersOnly t u) : TriggersOnly s u := by
  obtain ⟨p, l, rfl, none⟩ := h
  obtain ⟨p', l', rfl, none'⟩ := h'
  exact ⟨p', l ++ l', by rw [List.append_assoc], fun mem => (List.mem_append.1 mem).elim none none'⟩

theorem TriggersOnly.ofPlb (s : State) (p : Plb) : TriggersOnly s { s with plb := p } := ⟨p, [], by rw [List.append_nil], List.not_mem_nil⟩

theorem TriggersOnly.heldStill {s t : State} (h : TriggersOnly s t) : HeldStill s t := by
  obtain ⟨p, l, rfl, -⟩ := h
  exact ⟨_, p, s.tap, s.fresh, s.phn.holdNs, rfl⟩

/-- Nothing that a channel brings removes power. -/
theorem TriggersOnly.keeps {s t : State} (h : TriggersOnly s t) (kept : .powerRemoved ∉ s.pending) : .powerRemoved ∉ t.pending := by
  obtain ⟨p, l, rfl, none⟩ := h
  exact fun mem => (List.mem_append.1 mem).elim kept none

theorem State.aged_pending (s : State) : s.aged.pending = s.pending := by simp only [State.aged]

theorem aged_heldStill (s : State) : HeldStill s s.aged := ⟨s.pending, _, s.tap, s.fresh, s.phn.holdNs - 1, rfl⟩

/-- No trigger channel brings the removal of power. -/
theorem powerRemoved_not_mem_trigCmds (c : Nat) : .powerRemoved ∉ trigCmds c := by
  unfold trigCmds
  repeat' split
  all_goals simp

theorem stepDue_triggersOnly (s : State) (launching : Bool) : TriggersOnly s (stepDue s launching) := by
  unfold stepDue
  split
  · exact .refl s
  · dsimp only
    split
    · exact .ofPlb s _
    · exact .ofPlb s _

theorem fireTrig_triggersOnly (c : Nat) (s : State) : TriggersOnly s (fireTrig c s) := by
  have skipped (k : Nat) (n : Count) (r : BitVec 32) (t : State) : TriggersOnly t (if 1 < k then { t with plb := { t.plb with trigSkip := n, err := r } } else t) :=
    iteInduction (fun _ => .ofPlb t _) fun _ => .refl t
  have brought (t : State) : TriggersOnly t { t with pending := t.pending ++ trigCmds c } := ⟨t.plb, _, rfl, powerRemoved_not_mem_trigCmds c⟩
  unfold fireTrig
  dsimp only
  split
  · exact ((TriggersOnly.ofPlb s _).trans (skipped _ _ _ (s.setTrig c _))).trans (brought _)
  · exact .refl s

/-- The sources of a tripped device are not judged. -/
theorem dropUnheard_tripped {s : State} (tripped : s.pwr.tripped = true) : dropUnheard s = s := by
  unfold dropUnheard
  rw [tripped]
  rfl

/-- A tick of a tripped device moves Plumb and the hold of the photonics, and fires due triggers. -/
theorem plumbTick_tripped {s : State} (tripped : s.pwr.tripped = true) : TriggersOnly s (plumbTick s) ∨ TriggersOnly s.aged (plumbTick s) := by
  cases up : isUp s with
  | false =>
    rw [plumbTick_held up]
    exact .inl (.refl s)
  | true =>
    have stepped := stepDue_triggersOnly s.aged (launchDue s.aged)
    have still : (stepDue s.aged (launchDue s.aged)).pwr.tripped = true := by
      obtain ⟨p, l, eq, -⟩ := stepped
      rw [eq]
      exact tripped
    have fired (t : State) : TriggersOnly t ((List.range 22).foldl (fun u c => fireTrig c u) t) :=
      List.foldlRecOn (motive := TriggersOnly t) _ _ (.refl t) fun u h c _ => h.trans (fireTrig_triggersOnly c u)
    rw [plumbTick_up up, dropUnheard_tripped still]
    exact .inr ((stepped.trans (.ofPlb _ _)).trans (fired _))

/-! ## The statement -/

/-- A step of a tripped device whose queue holds no removal of power. -/
theorem step_tripped {s : State} (tripped : s.pwr.tripped = true) (kept : .powerRemoved ∉ s.pending) :
    ∃ t, step s = .next t ∧ HeldStill s t ∧ .powerRemoved ∉ t.pending := by
  cases waits : s.pending with
  | nil =>
    refine ⟨plumbTick s, step_nil waits, ?_⟩
    rcases plumbTick_tripped tripped with h | h
    · exact ⟨h.heldStill, h.keeps kept⟩
    · exact ⟨(aged_heldStill s).trans h.heldStill, h.keeps (s.aged_pending.symm ▸ kept)⟩
  | cons c rest =>
    rw [waits] at kept
    obtain ⟨other, later⟩ := not_or.1 (mt List.mem_cons.2 kept)
    obtain ⟨a, f, eq⟩ := exec_tripped (s := { s with pending := rest }) tripped (Ne.symm other)
    have still : HeldStill s { s with pending := rest, tap := a, fresh := f } := ⟨rest, s.plb, a, f, s.phn.holdNs, rfl⟩
    exact ⟨_, (step_cons waits).trans eq, still, later⟩

/-- Settles O58: a step of a tripped device is a command that reaches the port alone or a tick that reaches Plumb alone; power removed leaves a cold device. -/
theorem tripLatch : Obligations.TripLatch := by
  unfold Obligations.TripLatch
  refine ⟨?kept, ?answers, fun s => ⟨powerRemoved s, rfl, rfl, rfl⟩, fun s => rfl⟩
  case kept =>
    rintro s t ⟨tripped, kept⟩ eq
    obtain ⟨u, eq', still, none⟩ := step_tripped tripped kept
    obtain rfl := Host.Outcome.next.inj (eq'.symm.trans eq)
    exact ⟨⟨(congrArg Pwr.tripped still.pwr).trans tripped, none⟩, still.restored⟩
  case answers =>
    rintro s ⟨tripped, kept⟩
    obtain ⟨t, eq, -⟩ := step_tripped tripped kept
    exact ⟨t, eq⟩

end Sys2Proof.Machine

/-! The course of a mailbox command: its record's checks, what begins, and the answer (R464, R540 to R544). -/

namespace Sys2Proof.Machine

/-! ## Sessions by number, R538 -/

/-- A session is found by its number alone. -/
theorem sessionSlot_congr {s t : State} (h : ∀ k, (t.session k).map Session.num = (s.session k).map Session.num) (num : BitVec 16) : sessionSlot t num = sessionSlot s num := by
  have named (u : State) (k : Nat) : (match u.session k with | some x => decide (x.num = num) | none => false) = decide ((u.session k).map Session.num = some num) := by
    cases u.session k with
    | none => rfl
    | some x => exact decide_eq_decide.2 Option.some_inj.symm
  unfold sessionSlot
  refine congrArg (List.find? · _) (funext fun k => ?_)
  exact (named t k).trans ((congrArg (fun n => decide (n = some num)) (h k)).trans (named s k).symm)

/-- Writing a session anew under its number leaves every session in its slot. -/
theorem sessionSlot_setSession {s : State} {i : Nat} {x y : Session} (held : s.session i = some x) (same : y.num = x.num) (num : BitVec 16) :
    sessionSlot (s.setSession i (some y)) num = sessionSlot s num := by
  refine sessionSlot_congr (fun k => ?_) num
  by_cases here : k = i
  · subst here
    rw [State.setSession_session, held]
    exact congrArg some same
  · rw [State.setSession_session_ne _ _ _ _ here]

/-! ## The device once a command has begun, R542 -/

section
variable {s : State} {r : MboxRec} {n : CmdNeeds} {args : List Byte} {i : Nat} {x : Session}

theorem begun_session (s : State) (r : MboxRec) (op : BitVec 16) (args : List Byte) (i : Nat) (x : Session) :
    (begun s r op args i x).session i = some { x with lastSeq := some r.seq } := State.setSession_session s i _

theorem begun_session_ne (s : State) (r : MboxRec) (op : BitVec 16) (args : List Byte) {i k : Nat} (x : Session) (h : k ≠ i) : (begun s r op args i x).session k = s.session k :=
  State.setSession_session_ne s i k _ h

theorem begun_mbox (s : State) (r : MboxRec) (op : BitVec 16) (args : List Byte) (i : Nat) (x : Session) :
    (begun s r op args i x).mbox r.mbox.val = { s.mbox r.mbox.val with cmdRec := cmdRecord r op args, running := some (r.cmdId, r.session, op) } := by
  refine (State.setMbox_mbox _ r.mbox.val _).trans ?_
  have stored := State.setMbox_mbox (s.setSession i (some { x with lastSeq := some r.seq })) r.mbox.val { s.mbox r.mbox.val with cmdRec := cmdRecord r op args }
  exact congrArg (fun m : Mailbox => { m with running := some (r.cmdId, r.session, op) }) stored

theorem begun_mbox_ne (s : State) (r : MboxRec) (op : BitVec 16) (args : List Byte) (i : Nat) (x : Session) {k : Nat} (h : k ≠ r.mbox.val) :
    (begun s r op args i x).mbox k = s.mbox k :=
  (State.setMbox_mbox_ne _ _ _ _ h).trans (State.setMbox_mbox_ne _ _ _ _ h)

theorem Accepted.begun_slot (h : Accepted s r n args i x) : sessionSlot (begun s r n.op args i x) r.session = some i :=
  (sessionSlot_setSession (y := { x with lastSeq := some r.seq }) h.session rfl r.session).trans h.slot

/-- The session of a record is that in which its command has begun. -/
theorem Accepted.begun_recSession (h : Accepted s r n args i x) : recSession (begun s r n.op args i x) r = some (i, { x with lastSeq := some r.seq }) := by
  unfold recSession
  rw [h.begun_slot]
  simp only [begun_session]

end

/-! ## Sending a record, R464 and R540 -/

theorem mboxRecord_length (type : Nat) (r : MboxRec) (op : BitVec 16) (status : Byte) (body : List Byte) : (mboxRecord type r op status body).length = 64 := by
  have padded : (padTo (0 : Byte) 32 body).length = 32 := by
    rw [padTo, List.length_append, List.length_take, List.length_replicate]
    omega
  simp only [mboxRecord, List.length_append, List.length_cons, List.length_nil, beBytes_length, padded, List.length_replicate]

/-- The first 52 bytes of a record under a SEQ are its first 44 and the SEQ. -/
theorem underSeq_take {rec_ : List Byte} (h : 44 ≤ rec_.length) (q : BitVec 64) : (underSeq rec_ q).take 52 = rec_.take 44 ++ beBytes 8 q.toNat := by
  refine List.take_left' ?_
  rw [List.length_append, List.length_take, beBytes_length]
  omega

/-- An open session sends a record under its next SEQ. -/
theorem sendRecord_open {s : State} {num : BitVec 16} {i : Nat} {x : Session} (slot : sessionSlot s num = some i) (held : s.session i = some x) (open_ : x.isOpen = true) (rec_ : List Byte) :
    sendRecord s num rec_ = emit (s.setSession i (some { x with txSeq := x.txSeq + 1 }))
      (.host ((underSeq rec_ (x.txSeq + 1)).take 52 ++ recordTag x.sk 1 (x.txSeq + 1) (underSeq rec_ (x.txSeq + 1)))) := by
  unfold sendRecord
  rw [slot]
  simp only [held, open_, if_true]

/-! ## The answer, R542 and R544 -/

/-- A STATUS other than OK is counted, R559. -/
def countRefusal (s : State) (status : Byte) : State :=
  if status = 0 then s else { s with hwk := { s.hwk with refusedCount := bump s.hwk.refusedCount 1 } }

theorem countRefusal_eq (s : State) (status : Byte) :
    countRefusal s status = { s with hwk := { s.hwk with refusedCount := if status = 0 then s.hwk.refusedCount else bump s.hwk.refusedCount 1 } } := by
  unfold countRefusal
  split
  · rfl
  · rfl

/-- The mailbox once its command has been answered. -/
def Mailbox.answered (m : Mailbox) (r : MboxRec) (resp : List Byte) : Mailbox := { m with running := none, lastCmd := some r.cmdId, respRec := resp }

/-- The answer to the command that its mailbox runs. -/
theorem respond_running {s : State} {r : MboxRec} {op : BitVec 16} (h : (s.mbox r.mbox.val).running = some (r.cmdId, r.session, op)) (status : Byte) (result : List Byte) :
    respond s r op status result
      = sendRecord ((countRefusal s status).setMbox r.mbox.val ((s.mbox r.mbox.val).answered r (mboxRecord 0x11 r op status result))) r.session (mboxRecord 0x11 r op status result) :=
  if_pos h

/-- The device once the answer of an accepted command has left. -/
def answeredWith (s : State) (r : MboxRec) (i : Nat) (x : Session) (status : Byte) (rec_ : List Byte) : State :=
  emit (((countRefusal s status).setMbox r.mbox.val ((s.mbox r.mbox.val).answered r rec_)).setSession i (some { x with lastSeq := some r.seq, txSeq := x.txSeq + 1 }))
    (.host ((underSeq rec_ (x.txSeq + 1)).take 52 ++ recordTag x.sk 1 (x.txSeq + 1) (underSeq rec_ (x.txSeq + 1))))

/-- An answer given in the session that asked, where the mailbox still runs the command. -/
theorem respond_answers {u : State} {r : MboxRec} {op : BitVec 16} {i : Nat} {x : Session} (runs : (u.mbox r.mbox.val).running = some (r.cmdId, r.session, op))
    (slot : sessionSlot u r.session = some i) (held : u.session i = some { x with lastSeq := some r.seq }) (open_ : x.isOpen = true) (status : Byte) (result : List Byte) :
    respond u r op status result = answeredWith u r i x status (mboxRecord 0x11 r op status result) := by
  have slot' : sessionSlot ((countRefusal u status).setMbox r.mbox.val ((u.mbox r.mbox.val).answered r (mboxRecord 0x11 r op status result))) r.session = some i := by
    rw [countRefusal_eq]
    exact slot
  have held' : ((countRefusal u status).setMbox r.mbox.val ((u.mbox r.mbox.val).answered r (mboxRecord 0x11 r op status result))).session i = some { x with lastSeq := some r.seq } := by
    rw [countRefusal_eq]
    exact held
  rw [respond_running runs, sendRecord_open slot' held' open_]
  rfl

theorem begun_running (s : State) (r : MboxRec) (op : BitVec 16) (args : List Byte) (i : Nat) (x : Session) :
    ((begun s r op args i x).mbox r.mbox.val).running = some (r.cmdId, r.session, op) := by rw [begun_mbox]

/-- What the start of a command reaches. -/
theorem begun_eq (s : State) (r : MboxRec) (op : BitVec 16) (args : List Byte) (i : Nat) (x : Session) :
    ∃ l m, begun s r op args i x = { s with hwk := { s.hwk with sessions := l, mboxes := m, cmdCount := bump s.hwk.cmdCount 1 } } := ⟨_, _, rfl⟩

/-- What an answer reaches. -/
theorem answeredWith_eq (s : State) (r : MboxRec) (i : Nat) (x : Session) (status : Byte) (rec_ : List Byte) :
    ∃ l m c o, answeredWith s r i x status rec_ = { s with hwk := { s.hwk with sessions := l, mboxes := m, refusedCount := c }, out := o } := by
  rw [answeredWith, countRefusal_eq]
  exact ⟨_, _, _, _, rfl⟩

section
variable (s : State) (r : MboxRec) (i : Nat) (x : Session) (status : Byte) (rec_ : List Byte)

theorem answeredWith_refusedCount :
    (answeredWith s r i x status rec_).hwk.refusedCount = if status = 0 then s.hwk.refusedCount else bump s.hwk.refusedCount 1 := by
  rw [answeredWith, countRefusal_eq]
  rfl

theorem answeredWith_cmdCount : (answeredWith s r i x status rec_).hwk.cmdCount = s.hwk.cmdCount := by
  rw [answeredWith, countRefusal_eq]
  rfl

theorem answeredWith_mbox : (answeredWith s r i x status rec_).mbox r.mbox.val = (s.mbox r.mbox.val).answered r rec_ := by
  rw [answeredWith, countRefusal_eq]
  exact State.setMbox_mbox ..

theorem answeredWith_mbox_ne {k : Nat} (h : k ≠ r.mbox.val) : (answeredWith s r i x status rec_).mbox k = s.mbox k := by
  rw [answeredWith, countRefusal_eq]
  exact State.setMbox_mbox_ne _ _ _ _ h

theorem answeredWith_session : (answeredWith s r i x status rec_).session i = some { x with lastSeq := some r.seq, txSeq := x.txSeq + 1 } := by
  rw [answeredWith, countRefusal_eq]
  exact State.setSession_session ..

theorem answeredWith_session_ne {k : Nat} (h : k ≠ i) : (answeredWith s r i x status rec_).session k = s.session k := by
  rw [answeredWith, countRefusal_eq]
  exact State.setSession_session_ne _ _ _ _ h

theorem answeredWith_out : (answeredWith s r i x status rec_).out
    = s.out ++ [.host ((underSeq rec_ (x.txSeq + 1)).take 52 ++ recordTag x.sk 1 (x.txSeq + 1) (underSeq rec_ (x.txSeq + 1)))] := by
  rw [answeredWith, countRefusal_eq]
  rfl

end

theorem begun_cmdCount (s : State) (r : MboxRec) (op : BitVec 16) (args : List Byte) (i : Nat) (x : Session) :
    (begun s r op args i x).hwk.cmdCount = bump s.hwk.cmdCount 1 := rfl
theorem begun_refusedCount (s : State) (r : MboxRec) (op : BitVec 16) (args : List Byte) (i : Nat) (x : Session) :
    (begun s r op args i x).hwk.refusedCount = s.hwk.refusedCount := rfl
theorem begun_out (s : State) (r : MboxRec) (op : BitVec 16) (args : List Byte) (i : Nat) (x : Session) : (begun s r op args i x).out = s.out := rfl

section
variable {s : State} {r : MboxRec} {n : CmdNeeds} {args : List Byte} {i : Nat} {x : Session} (h : Accepted s r n args i x) (status : Byte) (result : List Byte)
include h

theorem Accepted.respond_begun : respond (begun s r n.op args i x) r n.op status result = answeredWith (begun s r n.op args i x) r i x status (mboxRecord 0x11 r n.op status result) :=
  respond_answers (begun_running s r n.op args i x) h.begun_slot (begun_session ..) h.isOpen status result

/-- The answer leaves every session in its slot. -/
theorem Accepted.respond_slot : sessionSlot (respond (begun s r n.op args i x) r n.op status result) r.session = some i := by
  rw [h.respond_begun, answeredWith, countRefusal_eq]
  refine Eq.trans ?_ h.begun_slot
  exact sessionSlot_setSession (s := begun s r n.op args i x) (y := { x with lastSeq := some r.seq, txSeq := x.txSeq + 1 }) (begun_session ..) rfl r.session

end

/-- Settles O16: the answer of an accepted command writes its mailbox, its session and two counters, and its record leaves. -/
theorem mailboxAnswer : Obligations.MailboxAnswer := by
  unfold Obligations.MailboxAnswer
  intro s r n i x args status result h
  dsimp only
  rw [h.respond_begun]
  refine ⟨?mailbox, fun k other => (answeredWith_mbox_ne _ r i x status _ other).trans (begun_mbox_ne s r n.op args i x other), answeredWith_session .., fun k other => ?sessions,
    ?started, ?refused, ?sent, ?frame⟩
  case mailbox =>
    rw [answeredWith_mbox, begun_mbox]
    rfl
  case sessions => exact (answeredWith_session_ne _ r i x status _ other).trans (begun_session_ne s r n.op args x other)
  case started => rw [answeredWith_cmdCount, begun_cmdCount]
  case refused => rw [answeredWith_refusedCount, begun_refusedCount]
  case sent =>
    rw [answeredWith_out, begun_out, underSeq_take (by rw [mboxRecord_length]; decide)]
    rfl
  case frame =>
    obtain ⟨l, m, begins⟩ := begun_eq s r n.op args i x
    obtain ⟨l', m', c, o, ends⟩ := answeredWith_eq (begun s r n.op args i x) r i x status (mboxRecord 0x11 r n.op status result)
    rw [ends, begins]

/-! ## The checks of a record, R541 -/

/-- A SEQ that is not new fails the check of the last accepted one. -/
theorem seqNew_iff (x : Session) (q : BitVec 64) : SeqNew x q ↔ (match x.lastSeq with | some l => decide (q.toNat ≤ l.toNat) | none => decide (q = 0)) = false := by
  unfold SeqNew
  cases x.lastSeq with
  | none => exact decide_eq_false_iff_not.symm
  | some l => exact Nat.not_le.symm.trans decide_eq_false_iff_not.symm

section
variable {s : State} {num : BitVec 16} {i : Nat} {x : Session} {hcs : BitVec 8} {seq : BitVec 64} {tagOk mboxOk : Session → Bool}

theorem acceptRecord_unknown (slot : sessionSlot s num = none) : acceptRecord s num hcs seq tagOk mboxOk = (none, dropDatagram s) := by
  unfold acceptRecord
  rw [slot]

section
variable (slot : sessionSlot s num = some i) (held : s.session i = some x)
include slot held

/-- The checks on a record of a session that there is, in their order. -/
theorem acceptRecord_known : acceptRecord s num hcs seq tagOk mboxOk =
    if !x.isOpen ∨ !mboxOk x then (none, dropDatagram s)
    else if !tagOk x then (none, recFail s i x)
    else if (match x.lastSeq with | some l => decide (seq.toNat ≤ l.toNat) | none => decide (seq = 0)) then (none, recFail s i x)
    else if x.hcs ≠ hcs then (none, dropDatagram s)
    else (some (i, { x with lastSeq := some seq }), s.setSession i (some { x with lastSeq := some seq })) := by
  unfold acceptRecord
  rw [slot]
  simp only [held] <;> rfl

theorem acceptRecord_closed (h : x.isOpen = false ∨ mboxOk x = false) : acceptRecord s num hcs seq tagOk mboxOk = (none, dropDatagram s) :=
  (acceptRecord_known slot held).trans (if_pos (by simpa using h))

section
variable (open_ : x.isOpen = true) (holds : mboxOk x = true)
include open_ holds

theorem acceptRecord_badTag (h : tagOk x = false) : acceptRecord s num hcs seq tagOk mboxOk = (none, recFail s i x) := by
  rw [acceptRecord_known slot held, open_, holds, h]
  rfl

section
variable (tag : tagOk x = true)
include tag

theorem acceptRecord_oldSeq (h : ¬SeqNew x seq) : acceptRecord s num hcs seq tagOk mboxOk = (none, recFail s i x) := by
  rw [acceptRecord_known slot held, open_, holds, tag, eq_true_of_ne_false (mt (seqNew_iff x seq).2 h)]
  rfl

theorem acceptRecord_otherHcs (new : SeqNew x seq) (h : x.hcs ≠ hcs) : acceptRecord s num hcs seq tagOk mboxOk = (none, dropDatagram s) := by
  rw [acceptRecord_known slot held, open_, holds, tag, (seqNew_iff x seq).1 new]
  exact if_pos h

theorem acceptRecord_good (new : SeqNew x seq) (h : x.hcs = hcs) :
    acceptRecord s num hcs seq tagOk mboxOk = (some (i, { x with lastSeq := some seq }), s.setSession i (some { x with lastSeq := some seq })) := by
  rw [acceptRecord_known slot held, open_, holds, tag, (seqNew_iff x seq).1 new]
  exact if_neg (not_not.2 h)

end
end
end
end

/-! ## What becomes of a record, R541 and R542 -/

section
variable {s : State} {r : MboxRec} {n : CmdNeeds} {args : List Byte} (f : State → State)

/-- The checks of R541 on a command record. -/
def recordChecks (s : State) (r : MboxRec) (n : CmdNeeds) (args : List Byte) : Option (Nat × Session) × State :=
  acceptRecord s r.session r.hcs r.seq (fun x => decide (r.tag = commandTag x.sk r n.op args)) fun x => x.mask.getLsbD r.mbox.val

/-- A record that its session takes goes to its mailbox, R542. -/
def takeCommand (s : State) (x : Session) (r : MboxRec) (n : CmdNeeds) (args : List Byte) (f : State → State) : State :=
  let t := s.setMbox r.mbox.val { s.mbox r.mbox.val with cmdRec := cmdRecord r n.op args }
  match (s.mbox r.mbox.val).running with
  | some (c, _, _) =>
    if c = r.cmdId then answerOnly t r n.op (if x.hcs = 2 then stMboxBusy else stInProgress) false
    else answerOnly t r n.op stMboxBusy true
  | none => if (s.mbox r.mbox.val).lastCmd = some r.cmdId then sendRecord t r.session (s.mbox r.mbox.val).respRec else startCommand t x r n f

theorem takeCommand_other {c a b : BitVec 16} (x : Session) (runs : (s.mbox r.mbox.val).running = some (c, a, b)) (other : c ≠ r.cmdId) :
    takeCommand s x r n args f = answerOnly (s.setMbox r.mbox.val { s.mbox r.mbox.val with cmdRec := cmdRecord r n.op args }) r n.op stMboxBusy true := by
  unfold takeCommand
  rw [runs]
  exact if_neg other

theorem takeCommand_repeat {a b : BitVec 16} (x : Session) (runs : (s.mbox r.mbox.val).running = some (r.cmdId, a, b)) :
    takeCommand s x r n args f
      = answerOnly (s.setMbox r.mbox.val { s.mbox r.mbox.val with cmdRec := cmdRecord r n.op args }) r n.op (if x.hcs = 2 then stMboxBusy else stInProgress) false := by
  unfold takeCommand
  rw [runs]
  exact if_pos rfl

theorem takeCommand_again (x : Session) (idle : (s.mbox r.mbox.val).running = none) (again : (s.mbox r.mbox.val).lastCmd = some r.cmdId) :
    takeCommand s x r n args f = sendRecord (s.setMbox r.mbox.val { s.mbox r.mbox.val with cmdRec := cmdRecord r n.op args }) r.session (s.mbox r.mbox.val).respRec := by
  unfold takeCommand
  rw [idle]
  exact if_pos again

section
variable (hawk : s.hwk.running = true)
include hawk

theorem mboxCmd_badForm (form : r.formOk = false) : mboxCmd s r n args f = dropDatagram s := by
  unfold mboxCmd
  rw [hawk, form]
  rfl

section
variable (form : r.formOk = true)
include form

theorem mboxCmd_discarded {t : State} (h : recordChecks s r n args = (none, t)) : mboxCmd s r n args f = t := by
  unfold recordChecks at h
  unfold mboxCmd
  rw [hawk, form, h]
  rfl

theorem mboxCmd_taken {t : State} {i : Nat} {x : Session} (h : recordChecks s r n args = (some (i, x), t)) : mboxCmd s r n args f = takeCommand t x r n args f := by
  unfold recordChecks at h
  unfold mboxCmd
  rw [hawk, form, h]
  rfl

end
end
end

/-- Settles O17: a record by the check of R541 that it fails, and one that passes by what its mailbox runs. -/
theorem mailboxChecks : Obligations.MailboxChecks := by
  unfold Obligations.MailboxChecks
  intro s r n args f
  refine ⟨fun off => ?stopped, fun hawk form => mboxCmd_badForm f hawk form, fun hawk form => ⟨fun slot => mboxCmd_discarded f hawk form (acceptRecord_unknown slot), fun i x slot held => ?known⟩⟩
  case stopped =>
    unfold mboxCmd
    rw [off]
    rfl
  case known =>
    refine ⟨fun closed => mboxCmd_discarded f hawk form (acceptRecord_closed slot held closed),
      fun open_ holds bad => mboxCmd_discarded f hawk form (acceptRecord_badTag slot held open_ holds (decide_eq_false bad)),
      fun open_ holds tag old => mboxCmd_discarded f hawk form (acceptRecord_oldSeq slot held open_ holds (decide_eq_true tag) old),
      fun open_ holds tag new other => mboxCmd_discarded f hawk form (acceptRecord_otherHcs slot held open_ holds (decide_eq_true tag) new other),
      fun open_ holds tag new same => ?taken⟩
    have taken := mboxCmd_taken f hawk form (acceptRecord_good slot held open_ holds (decide_eq_true tag) new same)
    rw [taken]
    exact ⟨fun c a b runs other => takeCommand_other f _ runs other, fun a b runs => takeCommand_repeat f _ runs, fun idle again => takeCommand_again f _ idle again⟩

end Sys2Proof.Machine

/-! Hawk's own commands of the mailbox: queries, PEEK and POKE, addresses, staging areas, bulk data and the firmware update (R534, R535, R545 to R551, R555, R556). -/

namespace Sys2Proof.Machine

/-- An accepted command comes to what its own effect makes of the device in which it has begun. -/
theorem exec_begun {c : Instr} {s t : State} {r : MboxRec} {n : CmdNeeds} {args : List Byte} {i : Nat} {x : Session} {f : State → State}
    (h : Accepted s r n args i x) (hc : exec c s = act s (mboxCmd s r n args f)) (ht : f (begun s r n.op args i x) = t) : exec c s = .next t :=
  (exec_accepted h hc).trans (congrArg _ ht)

/-! ## NOP, CLOSE, INFO, READY and PEEK, R547 to R550 -/

theorem begun_openCount {s : State} {r : MboxRec} {op : BitVec 16} {args : List Byte} {i : Nat} {x : Session} (held : s.session i = some x) :
    openCount (begun s r op args i x) = openCount s := by
  unfold openCount
  refine congrArg List.length (congrArg (List.filter · _) (funext fun k => ?_))
  by_cases here : k = i
  · subst here
    simp only [begun_session, held]
  · simp only [begun_session_ne s r op args x here]

/-- Nothing that INFO tells has changed by the start of a command. -/
theorem begun_infoResult {s : State} {r : MboxRec} {op : BitVec 16} {args : List Byte} {i : Nat} {x : Session} (held : s.session i = some x) :
    infoResult (begun s r op args i x) { x with lastSeq := some r.seq } = infoResult s x := by
  unfold infoResult
  rw [begun_openCount held]
  rfl

section
variable {s : State} {r : MboxRec} {i : Nat} {x : Session}

theorem exec_close (h : Accepted s r (needs 0x0002 false true []) [] i x) :
    exec (.close r) s = .next (closeSession (respond (begun s r 0x0002 [] i x) r 0x0002 stOk []) i true) := by
  have slot : sessionSlot (respond (begun s r 0x0002 [] i x) r 0x0002 stOk []) r.session = some i := h.respond_slot stOk []
  refine exec_begun h rfl ?_
  dsimp only [needs]
  rw [slot]

theorem exec_info (h : Accepted s r (needs 0x0003 false true []) [] i x) :
    exec (.info r) s = .next (respond (begun s r 0x0003 [] i x) r 0x0003 stOk (infoResult s x)) := by
  have session : recSession (begun s r 0x0003 [] i x) r = some (i, { x with lastSeq := some r.seq }) := h.begun_recSession
  refine exec_begun h rfl ?_
  dsimp only [needs]
  rw [session]
  exact congrArg (respond _ r 0x0003 stOk) (begun_infoResult h.session)

/-- What PEEK answers of the words that it has read. -/
def peekAnswer (r : MboxRec) (p : List (BitVec 32) × Option (BitVec 32) × State) : State :=
  match p.2.1 with
  | none => respond p.2.2 r 0x0010 stOk (p.1.flatMap fun w => beBytes 4 w.toNat)
  | some a => respond p.2.2 r 0x0010 stAccessError (beBytes 4 a.toNat ++ (p.1.flatMap fun w => beBytes 4 w.toNat).take 28)

theorem exec_peek {addr : BitVec 32} {n : BitVec 8} (h : Accepted s r (needs 0x0010 false true []) (beBytes 4 addr.toNat ++ [n]) i x) :
    exec (.peek r addr n) s = .next (if n = 0 ∨ 8 < n.toNat ∨ (r.hcs = 2 ∧ n ≠ 1) then badArg (begun s r 0x0010 (beBytes 4 addr.toNat ++ [n]) i x) r 0x0010 4
      else peekAnswer r (peekWords n.toNat addr (begun s r 0x0010 (beBytes 4 addr.toNat ++ [n]) i x))) := exec_begun h rfl rfl

end

/-- Settles O18: each query by its own answer to the device in which it has begun. -/
theorem mailboxQueries : Obligations.MailboxQueries := by
  unfold Obligations.MailboxQueries
  intro s r i x
  refine ⟨fun h => exec_begun h rfl rfl, exec_close, exec_info, fun h => exec_begun h rfl rfl, fun addr n h => ⟨fun bad => ?_, fun good => ⟨fun ws v read => ?_, fun ws a v read => ?_⟩⟩⟩
  · exact (exec_peek h).trans (congrArg _ (if_pos bad))
  · rw [exec_peek h, if_neg good, read]
    rfl
  · rw [exec_peek h, if_neg good, read]
    rfl

/-! ## POKE and NET_SET, R534, R535 and R550 -/

section
variable {s : State} {r : MboxRec} {i : Nat} {x : Session}

theorem exec_poke {addr value : BitVec 32} (h : Accepted s r (needs 0x0011 true true []) (beBytes 4 addr.toNat ++ beBytes 4 value.toNat) i x) :
    let u := begun s r 0x0011 (beBytes 4 addr.toNat ++ beBytes 4 value.toNat) i x
    exec (.poke r addr value) s = .next (match (if pokeAllowed addr then writeWord u addr value else none) with
      | some t => respond (if addr = 0x9000C then lathCmdPoke r.session u value else t) r 0x0011 stOk []
      | none => respond u r 0x0011 stAccessError (beBytes 4 addr.toNat)) :=
  exec_begun h rfl rfl

theorem exec_netSet {slot len : BitVec 8} {mp bp : BitVec 16} {addr : BitVec 128}
    (h : Accepted s r (needs 0x0080 true false []) ([slot, len] ++ beBytes 2 mp.toNat ++ beBytes 2 bp.toNat ++ List.replicate 10 0 ++ beBytes 16 addr.toNat) i x) :
    let u := begun s r 0x0080 ([slot, len] ++ beBytes 2 mp.toNat ++ beBytes 2 bp.toNat ++ List.replicate 10 0 ++ beBytes 16 addr.toNat) i x
    let t := respond u r 0x0080 stOk []
    exec (.netSet r slot len mp bp addr) s = .next (if 3 < slot.toNat then badArg u r 0x0080 0 else if 128 < len.toNat then badArg u r 0x0080 1
      else { t with hwk := { t.hwk with addrs := Tab.put (0, 0) t.hwk.addrs slot.toNat (if len = 0 then (0, 0) else (len, addr)), mboxPort := mp, bulkPort := bp } }) :=
  exec_begun h rfl rfl

end

/-- Settles O19: POKE by whether its address may be reached and can be written, NET_SET by its slot and its prefix length. -/
theorem mailboxWrites : Obligations.MailboxWrites := by
  unfold Obligations.MailboxWrites
  intro s r i x
  refine ⟨fun addr value h => ⟨fun t allowed writes other => ?word, fun t writes lath => ?lath, fun refused => ?refused⟩,
    fun slot len mp bp addr h => ⟨fun bad => ?slot, fun good bad => ?length, fun good short => ?taken⟩⟩
  case word =>
    rw [exec_poke h, if_pos allowed, writes]
    exact congrArg (fun u => Host.Outcome.next (respond u r 0x0011 stOk [])) (if_neg other)
  case lath =>
    subst lath
    rw [exec_poke h, if_pos (show pokeAllowed 0x9000C = true by decide), writes]
    rfl
  case refused =>
    have nothing : (if pokeAllowed addr then writeWord (begun s r 0x0011 (beBytes 4 addr.toNat ++ beBytes 4 value.toNat) i x) addr value else none) = none := by
      rcases refused with barred | none
      · rw [barred]
        rfl
      · rw [none, ite_self]
    rw [exec_poke h, nothing]
  case slot => exact (exec_netSet h).trans (congrArg _ (if_pos bad))
  case length => exact (exec_netSet h).trans (congrArg _ ((if_neg (Nat.not_lt.2 good)).trans (if_pos bad)))
  case taken => exact (exec_netSet h).trans (congrArg _ ((if_neg (Nat.not_lt.2 good)).trans (if_neg (Nat.not_lt.2 short))))

/-! ## Staging areas, R546 and R551 -/

section
variable {s : State} {r : MboxRec} {i : Nat} {x : Session} {area : BitVec 8}

theorem exec_stageClaim (h : Accepted s r (needs 0x0020 true true []) [area] i x) :
    let u := begun s r 0x0020 [area] i x
    exec (.stageClaim r area) s = .next (if !areaOk r area then badArg u r 0x0020 0
      else match firstStackDown s (area.toNat - 1) with
        | some k => respond u r 0x0020 stNotReady [2, BitVec.ofNat 8 k]
        | none => match stageHolder s area.toNat with
          | some n => if n = r.session then respond u r 0x0020 stOk [] else respond u r 0x0020 stMboxBusy []
          | none => respond (setStage u area.toNat (some r.session)) r 0x0020 stOk []) :=
  exec_begun h rfl rfl

theorem exec_stageRelease (h : Accepted s r (needs 0x0021 true true []) [area] i x) :
    let u := begun s r 0x0021 [area] i x
    exec (.stageRelease r area) s = .next (if !areaOk r area then badArg u r 0x0021 0
      else if stageHolder s area.toNat = some r.session then respond (setStage u area.toNat none) r 0x0021 stOk []
      else respond u r 0x0021 stNotOwner []) := exec_begun h rfl rfl

end

/-- Settles O20: a claim by its area, the stacks of its quadrant and the holder, a release by its area and the holder. -/
theorem stagingAreas : Obligations.StagingAreas := by
  unfold Obligations.StagingAreas
  intro s r i x area
  refine ⟨fun h => ?claim, fun h => ?release⟩
  case claim =>
    refine ⟨fun bad => ?_, fun k good down => ?_, fun good up => ⟨fun free => ?_, fun own => ?_, fun m held other => ?_⟩⟩
    · rw [exec_stageClaim h, bad]
      rfl
    · rw [exec_stageClaim h, good, down]
      rfl
    · rw [exec_stageClaim h, good, up, free]
      rfl
    · rw [exec_stageClaim h, good, up, own]
      exact congrArg _ (if_pos rfl)
    · rw [exec_stageClaim h, good, up, held]
      exact congrArg _ (if_neg other)
  case release =>
    refine ⟨fun bad => ?_, fun good own => ?_, fun good other => ?_⟩
    · rw [exec_stageRelease h, bad]
      rfl
    · rw [exec_stageRelease h, good, own]
      exact congrArg _ (if_pos rfl)
    · rw [exec_stageRelease h, good]
      exact congrArg _ (if_neg other)

/-! ## Bulk data, R545 and R546 -/

section
variable {s : State} {i : Nat} {x : Session} {b : BulkRec}

theorem bulkArea_one {a : Nat} (h : a = 1) (s : State) (num : BitVec 16) (handle : BitVec 32) :
    bulkArea s num a handle = if s.hwk.stage1 = some num then some area1Size else none := by
  subst h
  rfl

theorem bulkArea_two {a : Nat} (h : a = 2) (s : State) (num : BitVec 16) (handle : BitVec 32) :
    bulkArea s num a handle = if s.hwk.stage2 = some num then some area2Size else none := by
  subst h
  rfl

theorem bulkArea_three {a : Nat} (h : a = 3) (s : State) (num : BitVec 16) (handle : BitVec 32) : bulkArea s num a handle = some area3Size := by
  subst h
  rfl

theorem bulkArea_four {a : Nat} (h : a = 4) (s : State) (num : BitVec 16) (handle : BitVec 32) :
    bulkArea s num a handle = if ownsBuffer s num handle then some (poolSize (handlePool handle.toNat)) else none := by
  subst h
  rfl

/-- A write record that passes its checks goes to its area. -/
theorem exec_bulkWrite (live : Live s) (hawk : s.hwk.running = true) (held : s.session i = some x) (open_ : x.isOpen = true) (slot : sessionSlot s b.session = some i)
    (tag : b.tag = bulkTag x.sk b) (new : SeqNew x b.seq) (hcs : x.hcs = b.hcs) :
    exec (.bulkWrite b) s = .next (bulkStore (s.setSession i (some { x with lastSeq := some b.seq })) i { x with lastSeq := some b.seq } b) := by
  have taken := acceptRecord_good (tagOk := fun x => decide (b.tag = bulkTag x.sk b)) (mboxOk := fun _ => true) slot held open_ rfl (decide_eq_true tag) new hcs
  refine act_eq_next live ?_
  unfold bulkWrite
  rw [hawk, taken]
  rfl

/-- What keeps the bytes of a write record out of an area of its session. -/
def BulkBarred (s : State) (b : BulkRec) (size : Nat) : Prop :=
  size < b.offset.toNat + b.payload.length ∨ (b.area.toNat = 1 ∧ s.stn.admitting.isSome)
    ∨ (b.area.toNat = 4 ∧ (b.offset.toNat % 4096 ≠ 0 ∨ (b.payload.length ≠ 4096 ∧ b.payload.length ≠ 8192)))

theorem bulkStore_none (h : bulkArea s x.num b.area.toNat b.handle = none) : bulkStore s i x b = dropDatagram s := by
  unfold bulkStore
  dsimp only
  rw [h]

theorem bulkStore_barred {size : Nat} (h : bulkArea s x.num b.area.toNat b.handle = some size) (barred : BulkBarred s b size) : bulkStore s i x b = dropDatagram s := by
  unfold bulkStore
  dsimp only
  rw [h]
  exact if_pos barred

/-- Bytes that every area bars are discarded, whether or not the session may use the area that the record names. -/
theorem bulkStore_discards (barred : ∀ size, BulkBarred s b size) : bulkStore s i x b = dropDatagram s := by
  cases area : bulkArea s x.num b.area.toNat b.handle with
  | none => exact bulkStore_none area
  | some size => exact bulkStore_barred area (barred size)

theorem bulkStore_free {size : Nat} (h : bulkArea s x.num b.area.toNat b.handle = some size) (free : ¬BulkBarred s b size) : bulkStore s i x b =
    match b.area.toNat with
    | 1 => { s with hwk := { s.hwk with area1 := Mem.write s.hwk.area1 b.offset.toNat b.payload } }
    | 2 => { s with hwk := { s.hwk with area2 := Mem.write s.hwk.area2 b.offset.toNat b.payload } }
    | 3 => s.setSession i (some { x with area3 := Mem.write x.area3 b.offset.toNat b.payload })
    | _ => writeTiles s (handleDha s.lth b.handle.toNat + b.offset.toNat) b.payload := by
  unfold bulkStore
  dsimp only
  rw [h]
  exact if_neg free

/-- Only an area of the staged plan image and one of buffers have more rules than their size. -/
theorem bulkBarred_plain {size : Nat} (one : b.area.toNat = 1 → s.stn.admitting = none) (four : b.area.toNat ≠ 4) (fits : b.offset.toNat + b.payload.length ≤ size) : ¬BulkBarred s b size := by
  rintro (long | ⟨is1, busy⟩ | ⟨is4, -⟩)
  · exact Nat.not_lt.2 fits long
  · rw [one is1] at busy
    exact Bool.false_ne_true busy
  · exact four is4

theorem bulkBarred_tiles {size : Nat} (four : b.area.toNat = 4) (fits : b.offset.toNat + b.payload.length ≤ size) (tile : b.offset.toNat % 4096 = 0)
    (whole : b.payload.length = 4096 ∨ b.payload.length = 8192) : ¬BulkBarred s b size := by
  rintro (long | ⟨is1, -⟩ | ⟨-, odd | ⟨n1, n2⟩⟩)
  · exact Nat.not_lt.2 fits long
  · omega
  · exact odd tile
  · exact whole.elim n1 n2

end

section
variable {s : State} {i : Nat} {x : Session} {b : BulkRec}

theorem bulkStore_one (is : b.area = 1) (own : s.hwk.stage1 = some x.num) (fits : b.offset.toNat + b.payload.length ≤ area1Size) (idle : s.stn.admitting = none) :
    bulkStore s i x b = { s with hwk := { s.hwk with area1 := Mem.write s.hwk.area1 b.offset.toNat b.payload } } := by
  have number : b.area.toNat = 1 := congrArg BitVec.toNat is
  rw [bulkStore_free ((bulkArea_one number ..).trans (if_pos own)) (bulkBarred_plain (fun _ => idle) (by rw [number]; decide) fits), number]
  rfl

theorem bulkStore_two (is : b.area = 2) (own : s.hwk.stage2 = some x.num) (fits : b.offset.toNat + b.payload.length ≤ area2Size) :
    bulkStore s i x b = { s with hwk := { s.hwk with area2 := Mem.write s.hwk.area2 b.offset.toNat b.payload } } := by
  have number : b.area.toNat = 2 := congrArg BitVec.toNat is
  have free := bulkBarred_plain (s := s) (b := b) (fun one => absurd (number.symm.trans one) (by decide)) (by rw [number]; decide) fits
  rw [bulkStore_free ((bulkArea_two number ..).trans (if_pos own)) free, number]
  rfl

theorem bulkStore_three (is : b.area = 3) (fits : b.offset.toNat + b.payload.length ≤ area3Size) :
    bulkStore s i x b = s.setSession i (some { x with area3 := Mem.write x.area3 b.offset.toNat b.payload }) := by
  have number : b.area.toNat = 3 := congrArg BitVec.toNat is
  have free := bulkBarred_plain (s := s) (b := b) (fun one => absurd (number.symm.trans one) (by decide)) (by rw [number]; decide) fits
  rw [bulkStore_free (bulkArea_three number ..) free, number]
  rfl

theorem bulkStore_four (is : b.area = 4) (own : ownsBuffer s x.num b.handle = true) (fits : b.offset.toNat + b.payload.length ≤ poolSize (handlePool b.handle.toNat))
    (tile : b.offset.toNat % 4096 = 0) (whole : b.payload.length = 4096 ∨ b.payload.length = 8192) :
    bulkStore s i x b = writeTiles s (handleDha s.lth b.handle.toNat + b.offset.toNat) b.payload := by
  have number : b.area.toNat = 4 := congrArg BitVec.toNat is
  rw [bulkStore_free ((bulkArea_four number ..).trans (if_pos own)) (bulkBarred_tiles number fits tile whole), number]
  rfl

end

section
variable {s : State} {r : MboxRec} {i : Nat} {x : Session} {area : BitVec 8} {handle : BitVec 32} {off : BitVec 64} {len : BitVec 32}

theorem exec_bulkRead (h : Accepted s r (needs 0x0022 (decide (area ≠ 3)) false []) ([area, 0, 0, 0] ++ beBytes 4 handle.toNat ++ beBytes 8 off.toNat ++ beBytes 4 len.toNat) i x) :
    let u := begun s r 0x0022 ([area, 0, 0, 0] ++ beBytes 4 handle.toNat ++ beBytes 8 off.toNat ++ beBytes 4 len.toNat) i x
    exec (.bulkRead r area handle off len) s = .next (if area = 0 ∨ 4 < area.toNat then badArg u r 0x0022 0
      else match bulkArea u r.session area.toNat handle with
        | none => respond u r 0x0022 stNotOwner []
        | some size =>
          if size < off.toNat + len.toNat then badArg u r 0x0022 8
          else if len = 0 ∨ 1048576 < len.toNat ∨ len.toNat % 4 ≠ 0 then badArg u r 0x0022 16
          else
            let p := (bulkPieces (if area = 4 then 4096 else 8192) 258 off.toNat len.toNat).foldl (bulkPiece r area handle) ([], u)
            respond p.2 r 0x0022 stOk (beBytes 4 (crc32c p.1).toNat)) :=
  exec_begun h rfl rfl

end

/-- Settles O21: a write record by the area that it names and what bars it there, BULK_READ by its checks in their order. -/
theorem bulkData : Obligations.BulkData := by
  unfold Obligations.BulkData
  intro s i x live hawk held open_
  refine ⟨fun b slot tag new hcs num => ?write, fun r area handle off len h => ?read⟩
  case write =>
    have run := exec_bulkWrite live hawk held open_ slot tag new hcs
    refine ⟨fun none => run.trans (congrArg _ (bulkStore_none none)), fun size some long => run.trans (congrArg _ (bulkStore_barred some (.inl long))), fun is own fits idle => ?staged,
      fun is busy => ?admitting, fun is own fits => ?image, fun is fits => ?own, fun is odd => ?ragged, fun is own fits tile whole => ?buffer⟩
    case staged =>
      refine run.trans (congrArg _ (bulkStore_one is ?_ fits ?_))
      · exact own
      · exact idle
    case admitting => exact run.trans (congrArg _ (bulkStore_discards fun size => .inr (.inl ⟨congrArg BitVec.toNat is, busy⟩)))
    case image =>
      refine run.trans (congrArg _ (bulkStore_two is ?_ fits))
      exact own
    case own => exact run.trans (congrArg _ (bulkStore_three is fits))
    case ragged => exact run.trans (congrArg _ (bulkStore_discards fun size => .inr (.inr ⟨congrArg BitVec.toNat is, odd⟩)))
    case buffer =>
      refine run.trans (congrArg _ (bulkStore_four is ?_ fits tile whole))
      exact own
  case read =>
    refine ⟨fun bad => (exec_bulkRead h).trans (congrArg _ (if_pos bad)), fun good none => ?_, fun size good own => ⟨fun long => ?_, fun fits bad => ?_, fun fits fine => ?_⟩⟩
    all_goals rw [exec_bulkRead h, if_neg good]
    · rw [none]
    · rw [own]
      exact congrArg _ (if_pos long)
    · rw [own]
      exact congrArg _ ((if_neg (Nat.not_lt.2 fits)).trans (if_pos bad))
    · rw [own]
      exact congrArg _ ((if_neg (Nat.not_lt.2 fits)).trans (if_neg fine))

/-! ## Firmware update, R555 and R556 -/

section
variable {s : State} {r : MboxRec} {i : Nat} {x : Session} {len crc : BitVec 32} {im : FwImage}

theorem exec_fwUpdate (h : Accepted s r (needs 0x0070 true false []) (beBytes 4 len.toNat ++ beBytes 4 crc.toNat) i x) :
    let u := begun s r 0x0070 (beBytes 4 len.toNat ++ beBytes 4 crc.toNat) i x
    let bs := Mem.read s.hwk.area2 0 len.toNat
    exec (.fwUpdate r len crc im) s = .next (
      if s.hwk.updating.isSome then respond u r 0x0070 stMboxBusy []
      else if s.hwk.stage2 ≠ some r.session then respond u r 0x0070 stNotOwner []
      else if area2Size < len.toNat then respond u r 0x0070 stBadObject [0, 0, 0, 0]
      else if crc32c bs ≠ crc then respond u r 0x0070 stBadObject (beBytes 4 (crc32c bs).toNat)
      else match fwRefusal s (imageIn bs im) with
        | some c => fwRefuse u r c
        | none => { u with hwk := { u.hwk with updating := some (r, imageIn bs im), nor := some none, fwState := 2, recoverBuf := Mem.write [] 0 bs } }) :=
  exec_begun h rfl rfl

end

/-- Settles O22: FW_UPDATE by its checks in their order, and its end by what was read back. -/
theorem firmwareUpdate : Obligations.FirmwareUpdate := by
  unfold Obligations.FirmwareUpdate
  intro s
  refine ⟨fun r i x len crc im h => ⟨fun busy => ?_, fun free other => ?_, fun free own fits => ?checks⟩, fun r im live busy warm => ?ends⟩
  · exact (exec_fwUpdate h).trans (congrArg _ (if_pos busy))
  · rw [exec_fwUpdate h, free]
    exact congrArg _ (if_pos other)
  case checks =>
    rw [exec_fwUpdate h, free]
    simp only [Option.isSome_none, Bool.false_eq_true, if_false]
    rw [if_neg (not_not.2 own), if_neg (Nat.not_lt.2 fits)]
    refine ⟨fun bad => ?_, fun c good refused => ?_, fun good passes => ?_⟩
    · exact congrArg _ (if_pos bad)
    · rw [if_neg (not_not.2 good), refused]
      rfl
    · rw [if_neg (not_not.2 good), passes]
  case ends =>
    have ended (ok : Bool) : exec (.fwUpdateDone ok) s = .next (if ok then
        respond { s with hwk := { s.hwk with updating := none, nor := some (some im), fwState := 0 } } r 0x0070 stOk (beBytes 4 im.svn.toNat ++ beBytes 4 im.arith.toNat)
      else fwRefuse { s with hwk := { s.hwk with updating := none, nor := some none, fwState := 3 } } r 4) := by
      refine act_eq_next live ?_
      unfold fwUpdateDone
      simp only [busy, warm, Bool.false_eq_true, if_false]
    exact ⟨ended true, ended false⟩

end Sys2Proof.Machine

/-! Output queues, gates and samples (R515, R516, R521 to R524, R527, R528). -/

namespace Sys2Proof.Machine

/-- The device with another SCH_ERR. -/
def State.withSchErr (s : State) (e : BitVec 32) : State := { s with sch := { s.sch with err := e } }

@[simp] theorem State.withSchErr_queue (s : State) (e : BitVec 32) (k : Nat) : (s.withSchErr e).queue k = s.queue k := rfl
@[simp] theorem State.withSchErr_err (s : State) (e : BitVec 32) : (s.withSchErr e).sch.err = e := rfl

/-! ## Arrival at a numbered queue, R516 and R521 -/

/-- The queue that an item of its kind may join. -/
def QItem.binding : QItem → Nat
  | .seg _ _ => 1
  | .tile _ _ _ _ _ => 2

/-- Whether an item finds room. -/
def roomFor (s : State) (k : Nat) (i : QItem) : Bool :=
  (s.queue k).en && decide ((s.queue k).bind = i.binding) && decide ((s.queue k).depth + i.len ≤ queueRoom s k)

theorem roomFor_iff (s : State) (k : Nat) (i : QItem) : roomFor s k i = true ↔ (s.queue k).en = true ∧ (s.queue k).bind = i.binding ∧ (s.queue k).depth + i.len ≤ queueRoom s k := by
  unfold roomFor
  rw [Bool.and_eq_true, Bool.and_eq_true, decide_eq_true_eq, decide_eq_true_eq, and_assoc]

section
variable {s : State} {k : Nat} {i : QItem}

/-- Without a policer an item enters, waits as a SEND or is discarded by its room alone. -/
theorem arrive_unpoliced (h : (s.queue k).polAct = 0) (isSend : Bool) : (arrive s k i isSend).2 =
    if roomFor s k i then enqueue (s.setQueue k (s.queue k)) k ⟨i, s.count, 0⟩
    else if isSend then s
    else (s.setQueue k { s.queue k with dropCount := bump (s.queue k).dropCount 1 }).withSchErr (setErr s.sch.err 1) := by
  unfold arrive roomFor
  simp only [h]
  cases i with
  | seg kind bytes =>
    unfold QItem.binding
    generalize ((s.queue k).en && _ && _) = room
    cases room <;> cases isSend <;> rfl
  | tile fmt crc no step data =>
    unfold QItem.binding
    generalize ((s.queue k).en && _ && _) = room
    cases room <;> cases isSend <;> rfl

/-- A policer with POL_ACT 2 discards an item that does not conform. -/
theorem arrive_policed (h : (s.queue k).polAct = 2)
    (excess : conforms (refill (s.queue k).ptk (s.queue k).pLast (s.queue k).prate.toNat (s.queue k).pburst.toNat s.count).1 ((s.queue k).charge i.len) (s.queue k).pburst.toNat = false)
    (isSend : Bool) : ∃ tk last, (arrive s k i isSend).2 =
      (s.setQueue k { s.queue k with ptk := tk, pLast := last, polCount := bump (s.queue k).polCount 1 }).withSchErr (setErr s.sch.err 2) := by
  unfold arrive
  simp only [h, excess]
  exact ⟨_, _, rfl⟩

end

/-- Whether a command brings a tile. -/
def bringsTile (it : ArriveItem) : Bool := match it with | .tile _ _ _ => true | _ => false

theorem itemOf_binding (it : ArriveItem) (step : BitVec 32) : (itemOf it step).binding = if bringsTile it then 2 else 1 := by
  cases it <;> rfl

theorem bringsTile_false_of {it : ArriveItem} (h : ∀ f n d, it ≠ .tile f n d) : bringsTile it = false := by
  cases it with
  | tile f n d => exact absurd rfl (h f n d)
  | _ => rfl

/-! ## Gates, R522 to R524 -/

/-- A count lies no time from itself. -/
theorem signedDiff_self (t : PCount) : signedDiff t t = 0 := by
  unfold signedDiff
  rw [BitVec.sub_self]
  rfl

/-- At the start of a cycle the first entry is in force, unless it lasts no time. -/
theorem gateCover_zero (s : State) (n : Nat) : gateCover s 0 n 0 0 = 0 ∨ (gateEntry s s.sch.active 0).toNat % 2 ^ 24 = 0 := by
  match n with
  | 0 => exact .inl rfl
  | 1 => exact .inl rfl
  | n + 2 =>
    by_cases none : (gateEntry s s.sch.active 0).toNat % 2 ^ 24 = 0
    · exact .inr none
    · exact .inl (if_pos (by omega))

theorem gateOpen_start {s : State} (on : s.sch.gateEn = true) (fired : s.sch.lastFire = some s.count) :
    gateOpen s s.count = BitVec.ofNat 8 ((gateEntry s s.sch.active 0).toNat >>> 24) ∨ (gateEntry s s.sch.active 0).toNat % 2 ^ 24 = 0 := by
  have index : gateIndex s s.count = gateCover s 0 (gateLen s s.sch.active) 0 0 := by
    unfold gateIndex
    simp only [on, fired, signedDiff_self]
    rfl
  refine (gateCover_zero s (gateLen s s.sch.active)).imp_left fun first => ?_
  unfold gateOpen
  rw [index, first, on, fired]
  rfl

/-! ## Samples, R527 -/

/-- A queue as a sample at a count leaves it. -/
def OutQ.sampled (q : OutQ) (age : BitVec 32) : OutQ :=
  { q with sampleDepth := BitVec.ofNat 32 q.depth, sampleDelay := age, maxDelay := if age.toNat < q.maxDelay.toNat then q.maxDelay else age }

theorem sampleQueue_queue (s : State) (k : Nat) : (sampleQueue s k).queue k = (s.queue k).sampled (headAge s (s.queue k)) := State.setQueue_queue s k _
theorem sampleQueue_queue_ne (s : State) {k j : Nat} (h : j ≠ k) : (sampleQueue s k).queue j = s.queue j := State.setQueue_queue_ne s k j _ h

/-- A queue with the age of its head. -/
def State.agedQueue (s : State) (k : Nat) : OutQ × BitVec 32 := (s.queue k, headAge s (s.queue k))

theorem State.agedQueue_fst (s : State) (k : Nat) : (s.agedQueue k).1 = s.queue k := rfl

/-- A sample of queues leaves each with its own depth and head's age. -/
theorem sampleQueues_queue (s : State) (n : Nat) {k : Nat} (h : k < n) : ((List.range n).foldl sampleQueue s).queue k = (s.queue k).sampled (headAge s (s.queue k)) := by
  have pass := foldl_range_get (get := State.agedQueue) (f := sampleQueue) (g := fun _ p => (p.1.sampled p.2, p.2))
    (fun t j => by
      unfold State.agedQueue
      rw [sampleQueue_queue]
      rfl)
    (fun t j i other => by
      unfold State.agedQueue
      rw [sampleQueue_queue_ne t other]
      rfl) s n k
  rw [if_pos h] at pass
  exact congrArg Prod.fst pass

theorem sampleQueues_sampleSeq (l : List Nat) (s : State) : (l.foldl sampleQueue s).sch.sampleSeq = s.sch.sampleSeq :=
  foldl_keeps (step := sampleQueue) (fun t => t.sch.sampleSeq) (fun _ _ => rfl) l s

/-! ## Settings of a queue, R515, R528 and R531 -/

/-- EN is a defined bit of SCH_Qq_CFG. -/
theorem queueCfg_en (v : BitVec 32) : (v &&& queueCfgMask).getLsbD 31 = v.getLsbD 31 := by
  rw [BitVec.getLsbD_and, show queueCfgMask.getLsbD 31 = true from by decide, Bool.and_true]

section
variable (s : State) (k : Nat) {v : BitVec 32}

/-- EN rises: the buckets are full. -/
theorem writeQueueCfg_rises (on : v.getLsbD 31 = true) (was : (s.queue k).en = false) :
    writeQueueCfg s k v = s.setQueue k { s.queue k with cfg := v &&& queueCfgMask, stk := (((s.queue k).sburst.toNat <<< 16 : Nat) : Int), sLast := s.count, ptk := (((s.queue k).pburst.toNat <<< 16 : Nat) : Int), pLast := s.count } :=
  if_pos ⟨(queueCfg_en v).trans on, by rw [was]; rfl⟩

theorem writeQueueCfg_stays (on : v.getLsbD 31 = true) (was : (s.queue k).en = true) : writeQueueCfg s k v = s.setQueue k { s.queue k with cfg := v &&& queueCfgMask } := by
  have en : OutQ.en { s.queue k with cfg := v &&& queueCfgMask } = true := (queueCfg_en v).trans on
  unfold writeQueueCfg
  simp only [en, was]
  rfl

/-- EN 0 discards the items that there are. -/
theorem writeQueueCfg_off (off : v.getLsbD 31 = false) : ∃ e, writeQueueCfg s k v
    = (s.setQueue k { s.queue k with cfg := v &&& queueCfgMask, items := [], dropCount := bump (s.queue k).dropCount (s.queue k).items.length }).withSchErr e := by
  have en : OutQ.en { s.queue k with cfg := v &&& queueCfgMask } = false := (queueCfg_en v).trans off
  unfold writeQueueCfg
  simp only [en]
  cases held : (s.queue k).items with
  | cons e rest => exact ⟨_, rfl⟩
  | nil =>
    refine ⟨s.sch.err, ?_⟩
    rw [List.length_nil, bump_zero]
    rfl

end

/-- Settles O51: an arrival by the policer and the room, the gate list by its cycle, a sample queue by queue, and a setting by its register. -/
theorem outputQueues : Obligations.OutputQueues := by
  unfold Obligations.OutputQueues
  intro s live
  have answers {c : Instr} {t u : State} (run : exec c s = act s t) (h : t = u) : exec c s = .next u := run.trans (act_eq_next live h)
  refine ⟨fun k it => ?numbered, fun b it => ?control, fun off => ?gatesOff, fun on => ?cycle, fun free => answers rfl (if_neg (ne_true_of_eq_false free)), fun pending => answers rfl (if_pos pending),
    gateOpen_start, fun none => answers rfl (if_pos none), fun some => ?sample, fun k reg v held => ?refused, fun k v free idle => ?settings⟩
  case numbered =>
    have run : exec (.queueItemArrive (.num k) it) s = act s (arrive s k.val (itemOf it s.stn.step) (bringsTile it)).2 := rfl
    have fits_iff := roomFor_iff s k.val (itemOf it s.stn.step)
    rw [itemOf_binding] at fits_iff
    refine ⟨answers run rfl, fun plain fits => ?_, fun plain full tile => ?_, fun plain full unit => ?_, fun strict excess => ?_⟩
    · exact answers run ((arrive_unpoliced plain _).trans (if_pos (fits_iff.2 fits)))
    · exact answers run ((arrive_unpoliced plain _).trans ((if_neg (mt fits_iff.1 full)).trans (if_pos tile)))
    · refine .of_act live (run.trans (congrArg (act s) ((arrive_unpoliced plain _).trans ((if_neg (mt fits_iff.1 full)).trans (if_neg (ne_true_of_eq_false unit)))))) ?_
      exact ⟨State.setQueue_queue s k.val _, rfl, fun j other => State.setQueue_queue_ne s k.val j _ other⟩
    · obtain ⟨tk, last, eq⟩ := arrive_policed strict excess (bringsTile it)
      refine .of_act live (run.trans (congrArg (act s) eq)) ?_
      rw [State.withSchErr_queue, State.setQueue_queue]
      exact ⟨rfl, rfl, rfl⟩
  case control =>
    have run : exec (.queueItemArrive (.ctl b) it) s = act s (if bringsTile it then s else arriveCtl s b.val (itemOf it s.stn.step)) := rfl
    refine ⟨fun f n d tile => ?_, fun unit room => ?_, fun unit full => ?_⟩
    · subst tile
      exact answers run rfl
    · refine .of_act live (run.trans (congrArg (act s) (if_neg (ne_true_of_eq_false (bringsTile_false_of unit))))) ?_
      rw [arriveCtl_room room]
      exact ⟨Tab.get_put .., fun c other => Tab.get_put_ne _ _ _ _ _ _ other⟩
    · exact answers run ((if_neg (ne_true_of_eq_false (bringsTile_false_of unit))).trans (arriveCtl_full full))
  case gatesOff => exact answers rfl (if_pos (by rw [off]; rfl))
  case cycle =>
    refine answers rfl ((if_neg (by rw [on]; decide)).trans ?_)
    have turned : (if s.sch.swapPending then !s.sch.active else s.sch.active) = (s.sch.active != s.sch.swapPending) := by
      cases s.sch.swapPending <;> cases s.sch.active <;> rfl
    dsimp only
    rw [turned]
  case sample =>
    refine .of_act live rfl ?_
    have seq := sampleQueues_sampleSeq (List.range 256) s
    have queues := fun j below => sampleQueues_queue s 256 (k := j) below
    rw [if_neg some]
    generalize (List.range 256).foldl sampleQueue s = u at seq queues ⊢
    exact ⟨congrArg (· + 1) seq, queues⟩
  case refused => exact answers rfl (if_pos (by rw [Bool.or_eq_true]; exact held))
  case settings =>
    have taken : ¬(hasBudget s 0x02 k.val || s.stn.admitting.isSome) = true := by
      rw [free, idle]
      decide
    refine ⟨answers rfl (if_neg taken), answers rfl (if_neg taken), answers rfl (if_neg taken), answers rfl (if_neg taken), answers rfl (if_neg taken), answers rfl (if_neg taken), ?_⟩
    refine .of_act live (congrArg (act s) (if_neg taken : queueCfgWrite s k.val .cfg v = writeQueueCfg s k.val v)) ?_
    cases en : v.getLsbD 31 with
    | false =>
      obtain ⟨e, eq⟩ := writeQueueCfg_off s k.val en
      rw [eq, State.withSchErr_queue, State.setQueue_queue]
      exact ⟨rfl, fun _ => ⟨rfl, rfl⟩, fun on => absurd on Bool.false_ne_true, fun on => absurd on Bool.false_ne_true⟩
    | true =>
      cases was : (s.queue k.val).en with
      | true =>
        rw [writeQueueCfg_stays s k.val en was, State.setQueue_queue]
        exact ⟨rfl, fun off => absurd off.symm Bool.false_ne_true, fun _ => rfl, fun _ off => absurd off Bool.true_eq_false_eq_False⟩
      | false =>
        rw [writeQueueCfg_rises s k.val en was, State.setQueue_queue]
        exact ⟨rfl, fun off => absurd off.symm Bool.false_ne_true, fun _ => rfl, fun _ _ => ⟨rfl, rfl⟩⟩

end Sys2Proof.Machine

/-! Key slots of a bond and the loads of keys, R438 and R448 to R454. -/
namespace Sys2Proof.Machine

/-! ## The slots of a bond -/

section
variable (x : SBond) (k : KeySlot)

theorem SBond.setRx_rx (e : Nat) : (x.setRx e k).rx e = k := by
  by_cases first : e = 0 <;> simp [SBond.setRx, SBond.rx, first]

theorem SBond.setTx_tx (e : Nat) : (x.setTx e k).tx e = k := by
  by_cases first : e = 0 <;> simp [SBond.setTx, SBond.tx, first]

theorem SBond.setRx_rx_other {e f : Nat} (other : f = 0 ↔ e ≠ 0) : (x.setRx e k).rx f = x.rx f := by
  by_cases first : e = 0
  · simp [SBond.setRx, SBond.rx, first, (mt other.1 (not_not.2 first))]
  · simp [SBond.setRx, SBond.rx, first, other.2 first]

theorem SBond.setTx_tx_other {e f : Nat} (other : f = 0 ↔ e ≠ 0) : (x.setTx e k).tx f = x.tx f := by
  by_cases first : e = 0
  · simp [SBond.setTx, SBond.tx, first, (mt other.1 (not_not.2 first))]
  · simp [SBond.setTx, SBond.tx, first, other.2 first]

theorem SBond.setTx_rx (e f : Nat) : (x.setTx e k).rx f = x.rx f := by
  by_cases first : e = 0 <;> simp [SBond.setTx, SBond.rx, first]

end

/-- The other slot of two. -/
theorem otherSlot (e : Fin 2) : 1 - e.val = 0 ↔ e.val ≠ 0 := by omega

theorem otherSlot' (e : Fin 2) : e.val = 0 ↔ 1 - e.val ≠ 0 := by omega

theorem keyChange_sbond (s : State) (b : Nat) (x : SBond) : (keyChange s b x).sbond b = x :=
  ((settle_judged s (s.setSbond b x) b).sbond b).trans (State.setSbond_sbond ..)

theorem keyChange_sbond_ne (s : State) {b c : Nat} (x : SBond) (other : c ≠ b) : (keyChange s b x).sbond c = s.sbond c :=
  ((settle_judged s (s.setSbond b x) b).sbond c).trans (State.setSbond_sbond_ne _ _ _ _ other)

/-! ## KEY_READY and the switch of a transmit slot, R453 and R454 -/

/-- A P1 message that passes its checks. -/
def keyReadyOk (m : List Byte) : Bool := decide (m.length = 16) && decide (beAt m 2 1 = 1) && decide (crc32c (m.take 12) = BitVec.ofNat 32 (beAt m 12 4))

/-- A transmit slot that a KEY_READY names: LOADED, with its KEY_ID. -/
def keyReadyNames (x : SBond) (m : List Byte) (e : Fin 2) : Prop := (x.tx e.val).st = 1 ∧ (x.tx e.val).id = BitVec.ofNat 64 (beAt m 4 8)

/-- The lower slot that a KEY_READY names. -/
def keyReadySlot (x : SBond) (m : List Byte) : Option (Fin 2) :=
  ([0, 1] : List (Fin 2)).find? fun e => decide ((if e = 0 then x.tx0 else x.tx1).st = 1) && decide ((if e = 0 then x.tx0 else x.tx1).id = BitVec.ofNat 64 (beAt m 4 8))

theorem keyReady_eq (s : State) (b : Nat) (m : List Byte) : keyReady s b m = if keyReadyOk m then
    match keyReadySlot (s.sbond b) m with | some e => s.setSbond b { s.sbond b with switchTo := some e } | none => s
  else s := by
  unfold keyReady
  cases ok : keyReadyOk m with
  | false => exact if_pos (congrArg Bool.not ok)
  | true => exact if_neg (ne_true_of_eq_false (congrArg Bool.not ok))

theorem keyReadySlot_eq (x : SBond) (m : List Byte) : keyReadySlot x m = ([0, 1] : List (Fin 2)).find? fun e => decide ((x.tx e.val).st = 1) && decide ((x.tx e.val).id = BitVec.ofNat 64 (beAt m 4 8)) := by
  rw [keyReadySlot]
  refine congrArg (List.find? · _) (funext fun e => ?_)
  match e with
  | 0 => rfl
  | 1 => rfl

theorem keyReadySlot_none {x : SBond} {m : List Byte} (zero : ¬keyReadyNames x m 0) (one : ¬keyReadyNames x m 1) : keyReadySlot x m = none := by
  rw [keyReadySlot_eq, List.find?_eq_none]
  intro e _ named
  rw [Bool.and_eq_true, decide_eq_true_eq, decide_eq_true_eq] at named
  match e with
  | 0 => exact zero named
  | 1 => exact one named

theorem keyReadySlot_lower {x : SBond} {m : List Byte} {e : Fin 2} (named : keyReadyNames x m e) (lower : ∀ f, f < e → ¬keyReadyNames x m f) : keyReadySlot x m = some e := by
  have is (f : Fin 2) : (decide ((x.tx f.val).st = 1) && decide ((x.tx f.val).id = BitVec.ofNat 64 (beAt m 4 8))) = true ↔ keyReadyNames x m f := by
    rw [Bool.and_eq_true, decide_eq_true_eq, decide_eq_true_eq, keyReadyNames]
  rw [keyReadySlot_eq]
  match e with
  | 0 => exact List.find?_cons_of_pos ((is 0).2 named)
  | 1 =>
    rw [List.find?_cons_of_neg (a := (0 : Fin 2)) (mt (is 0).1 (lower 0 (by decide)))]
    exact List.find?_cons_of_pos (a := (1 : Fin 2)) ((is 1).2 named)

section
variable (s : State) (b : Nat)

theorem txKeySwitch_none (none : (s.sbond b).switchTo = none) : txKeySwitch s b = s := by
  unfold txKeySwitch
  dsimp only
  rw [none]

/-- A bond's keys once a LOADED transmit slot has become ACTIVE. -/
def SBond.switched (x : SBond) (e : Nat) : SBond :=
  let y := (x.setTx e { x.tx e with st := 2, nctr := 0 }).setTx (1 - e) {}
  { y with switchTo := none, switches := bump y.switches 1, err := setErr y.err 0 }

theorem txKeySwitch_some {e : Fin 2} (some : (s.sbond b).switchTo = some e) : txKeySwitch s b
    = if ((s.sbond b).tx e.val).st ≠ 1 then s.setSbond b { s.sbond b with switchTo := none } else keyChange s b ((s.sbond b).switched e.val) := by
  unfold txKeySwitch
  dsimp only
  rw [some]
  rfl

end

theorem SBond.setTx_keeps (x : SBond) (e : Nat) (k : KeySlot) :
    (x.setTx e k).rx0 = x.rx0 ∧ (x.setTx e k).rx1 = x.rx1 ∧ (x.setTx e k).switches = x.switches ∧ (x.setTx e k).err = x.err := by
  by_cases first : e = 0 <;> simp [SBond.setTx, first]

theorem SBond.switched_spec (x : SBond) (e : Fin 2) : let y := x.switched e.val
    y.tx e.val = { x.tx e.val with st := 2, nctr := 0 } ∧ y.tx (1 - e.val) = {} ∧ y.rx0 = x.rx0 ∧ y.rx1 = x.rx1 ∧ y.switchTo = none ∧ y.switches = bump x.switches 1 ∧ y.err = setErr x.err 0 := by
  obtain ⟨a0, a1, asw, aer⟩ := x.setTx_keeps e.val { x.tx e.val with st := 2, nctr := 0 }
  obtain ⟨b0, b1, bsw, ber⟩ := (x.setTx e.val { x.tx e.val with st := 2, nctr := 0 }).setTx_keeps (1 - e.val) {}
  have moved : ((x.setTx e.val { x.tx e.val with st := 2, nctr := 0 }).setTx (1 - e.val) {}).tx e.val = { x.tx e.val with st := 2, nctr := 0 } :=
    (SBond.setTx_tx_other _ _ (otherSlot' e)).trans (SBond.setTx_tx ..)
  exact ⟨moved, SBond.setTx_tx .., b0.trans a0, b1.trans a1, rfl, congrArg (bump · 1) (bsw.trans asw), congrArg (setErr · 0) (ber.trans aer)⟩

/-! ## The random generators, R438 -/

theorem trngFail_good {s : State} {q : Nat} (good : s.slr.trngOk.getLsbD q = true) : trngFail s q = slrReady { s with slr := { s.slr with
    trngOk := putBit s.slr.trngOk q false, drbg := s.slr.drbg && decide (putBit s.slr.trngOk q false ≠ 0), trngFail := bump s.slr.trngFail 1, err := setErr s.slr.err 6 } } :=
  if_pos good

/-- TOP_READY.SLR is 0 while the DRBG does not run. -/
theorem slrReady_noDrbg {s : State} (none : s.slr.drbg = false) : (slrReady s).top.ready.getLsbD rdySlr = false := by
  refine (putBit_self _ _ _ (by decide)).trans ?_
  rw [none]
  rfl

/-! ## The checks of a frame, R449 -/

section
variable {x : SBond} {e nctr kid : Nat} {tagOk : Bool}

/-- A slot's last NCTR bars one that is not above it. -/
theorem lastBars_iff (k : KeySlot) (n : Nat) : (match k.last with | some l => decide (n ≤ l) | none => false) = true ↔ ∃ l, k.last = some l ∧ n ≤ l := by
  cases k.last with
  | none => exact ⟨fun bars => absurd bars Bool.false_ne_true, fun ⟨l, last, _⟩ => nomatch last⟩
  | some l => exact ⟨fun bars => ⟨l, rfl, of_decide_eq_true bars⟩, fun ⟨m, last, low⟩ => decide_eq_true (Option.some.inj last ▸ low)⟩

theorem authCheck_noKey (none : (x.rx e).st = 0 ∨ (x.rx e).id.toNat % 2 ^ 32 ≠ kid) :
    authCheck x e nctr kid tagOk = (false, { x with noKey := bump x.noKey 1, err := setErr x.err 3 }) := if_pos none

variable (held : (x.rx e).st ≠ 0) (named : (x.rx e).id.toNat % 2 ^ 32 = kid)
include held named

theorem authCheck_replay {l : Nat} (last : (x.rx e).last = some l) (low : nctr ≤ l) :
    authCheck x e nctr kid tagOk = (false, { x with replay := bump x.replay 1, err := setErr x.err 2 }) := by
  unfold authCheck
  dsimp only
  exact (if_neg (not_or.2 ⟨held, not_not.2 named⟩)).trans (if_pos ((lastBars_iff _ _).2 ⟨l, last, low⟩))

variable (above : ∀ l, (x.rx e).last = some l → l < nctr)
include above

theorem authCheck_badTag : authCheck x e nctr kid false = (false, { x with authFail := bump x.authFail 1, err := setErr x.err 1 }) := by
  have new : ¬_ := mt (lastBars_iff (x.rx e) nctr).1 fun ⟨l, last, low⟩ => Nat.not_lt.2 low (above l last)
  unfold authCheck
  dsimp only
  exact (if_neg (not_or.2 ⟨held, not_not.2 named⟩)).trans ((if_neg new).trans (if_pos rfl))

theorem authCheck_passes : authCheck x e nctr kid true = (true,
    (if (x.rx e).st = 1 ∧ (x.rx (1 - e)).st = 2 then x.setRx (1 - e) { x.rx (1 - e) with st := 3 } else x).setRx e
      { x.rx e with last := some nctr, st := if (x.rx e).st = 1 ∧ ((x.rx (1 - e)).st = 2 ∨ (x.rx (1 - e)).st = 0) then 2 else (x.rx e).st }) := by
  have new : ¬_ := mt (lastBars_iff (x.rx e) nctr).1 fun ⟨l, last, low⟩ => Nat.not_lt.2 low (above l last)
  unfold authCheck
  dsimp only
  exact (if_neg (not_or.2 ⟨held, not_not.2 named⟩)).trans ((if_neg new).trans (if_neg Bool.false_ne_true))

end

/-! ## Objects in the session area, R551 -/

section
variable {s : State} {r : MboxRec} {n : CmdNeeds} {args : List Byte} {i : Nat} {x : Session} (h : Accepted s r n args i x) {off len : Nat} {crc : BitVec 32} (f : State → List Byte → State)
include h

theorem Accepted.withObject_eq : withObject (begun s r n.op args i x) r n.op off len crc f = if off + len ≤ 8192 then
      if crc32c (Mem.read x.area3 off len) = crc then f (begun s r n.op args i x) (Mem.read x.area3 off len)
      else respond (begun s r n.op args i x) r n.op stBadObject (beBytes 4 (crc32c (Mem.read x.area3 off len)).toNat)
    else respond (begun s r n.op args i x) r n.op stBadObject [0, 0, 0, 0] := by
  unfold withObject area3Bytes
  rw [h.begun_recSession]
  dsimp only
  by_cases fits : off + len ≤ 8192
  · rw [if_pos fits, if_pos fits]
    rfl
  · rw [if_neg fits, if_neg fits]
    rfl

theorem Accepted.withObject_long (long : 8192 < off + len) : withObject (begun s r n.op args i x) r n.op off len crc f = respond (begun s r n.op args i x) r n.op stBadObject [0, 0, 0, 0] :=
  (h.withObject_eq f).trans (if_neg (Nat.not_le.2 long))

theorem Accepted.withObject_badCrc (fits : off + len ≤ 8192) (bad : crc32c (Mem.read x.area3 off len) ≠ crc) :
    withObject (begun s r n.op args i x) r n.op off len crc f = respond (begun s r n.op args i x) r n.op stBadObject (beBytes 4 (crc32c (Mem.read x.area3 off len)).toNat) :=
  (h.withObject_eq f).trans ((if_pos fits).trans (if_neg bad))

theorem Accepted.withObject_good (fits : off + len ≤ 8192) (good : crc32c (Mem.read x.area3 off len) = crc) :
    withObject (begun s r n.op args i x) r n.op off len crc f = f (begun s r n.op args i x) (Mem.read x.area3 off len) :=
  (h.withObject_eq f).trans ((if_pos fits).trans (if_pos good))

end

/-! ## KEY_LOAD, R451 and R452 -/

section
variable {s : State} {r : MboxRec} {i : Nat} {x : Session} {off crc : BitVec 32}

theorem exec_keyLoad (h : Accepted s r (needs 0x0051 true true [rdySlr]) (beBytes 4 off.toNat ++ beBytes 4 crc.toNat) i x) :
    let u := begun s r 0x0051 (beBytes 4 off.toNat ++ beBytes 4 crc.toNat) i x
    exec (.keyLoad r off crc) s = .next (withObject u r 0x0051 off.toNat 384 crc fun s blob => keyLoadDo s r (openBlob s blob)) :=
  exec_begun h rfl rfl

/-- The answer to a load of a key by its result. -/
def keyLoadAnswer (u : State) (r : MboxRec) (plain : Option (List Byte)) (k : Byte × Nat × Bool × Nat) : State :=
  let counted := { u with slr := { u.slr with keyLoads := bump u.slr.keyLoads 1 } }
  if k.1 = 0 then respond (placeKey counted (plain.getD []) k.2.1 k.2.2.1 k.2.2.2) r 0x0051 stOk [0] else respond (slrErr counted 1) r 0x0051 stRefused [k.1]

theorem keyLoadDo_eq {u : State} {y : Session} (rec_ : recSession u r = some (i, y)) (operates : y.level = 2) (plain : Option (List Byte)) :
    keyLoadDo u r plain = keyLoadAnswer u r plain (keyLoadResult u true plain) := by
  unfold keyLoadDo
  rw [rec_]
  dsimp only
  rw [decide_eq_true operates]
  rfl

theorem begun_keyLoadResult (op : BitVec 16) (args : List Byte) (plain : Option (List Byte)) : keyLoadResult (begun s r op args i x) true plain = keyLoadResult s true plain := by
  obtain ⟨l, m, is⟩ := begun_eq s r op args i x
  rw [is]
  rfl

theorem begun_openBlob (op : BitVec 16) (args : List Byte) (bs : List Byte) : openBlob (begun s r op args i x) bs = openBlob s bs := by
  obtain ⟨l, m, is⟩ := begun_eq s r op args i x
  rw [is]
  rfl

theorem exec_keyLoad_good (h : Accepted s r (needs 0x0051 true true [rdySlr]) (beBytes 4 off.toNat ++ beBytes 4 crc.toNat) i x) (fits : off.toNat + 384 ≤ 8192)
    (good : crc32c (Mem.read x.area3 off.toNat 384) = crc) :
    let plain := openBlob s (Mem.read x.area3 off.toNat 384)
    exec (.keyLoad r off crc) s = .next (keyLoadAnswer (begun s r 0x0051 (beBytes 4 off.toNat ++ beBytes 4 crc.toNat) i x) r plain (keyLoadResult s true plain)) := by
  refine (exec_keyLoad h).trans (congrArg _ ((h.withObject_good _ fits good).trans ?_))
  refine (keyLoadDo_eq (h.begun_recSession) ?_ _).trans ?_
  · exact (h.level rfl).1
  · rw [begun_openBlob, begun_keyLoadResult]
    rfl

end

/-- The slot of a bond and a direction. -/
def keySlotAt (x : SBond) (rx : Bool) (e : Nat) : KeySlot := if rx then x.rx e else x.tx e

/-- What a key that goes into slot `e` of a bond has passed. -/
structure KeyFits (s : State) (p : List Byte) (b : Nat) (rx : Bool) (e : Nat) : Prop where
  bond : b < 16
  slot : e < 2
  en : (s.bond b).en = true
  strip : s.slr.strip = 0
  device : slice p 48 16 = deviceIdBytes
  empty : (keySlotAt (s.sbond b) rx e).st = 0
  lower : e = 1 → (keySlotAt (s.sbond b) rx 0).st ≠ 0
  fresh : ∀ j, j < 2 → (keySlotAt (s.sbond b) rx j).st ≠ 0 → (keySlotAt (s.sbond b) rx j).id ≠ BitVec.ofNat 64 (leAt p 0 8)

/-- The lower EMPTY slot of two. -/
theorem find_lowerEmpty {slot : Nat → KeySlot} {e : Nat} (h : ([0, 1].find? fun e => decide ((slot e).st = 0)) = some e) : e < 2 ∧ (slot e).st = 0 ∧ (e = 1 → (slot 0).st ≠ 0) := by
  have empty := List.find?_some (p := fun e => decide ((slot e).st = 0)) h
  rw [decide_eq_true_eq] at empty
  by_cases zero : (slot 0).st = 0
  · rw [List.find?_cons_of_pos (p := fun e => decide ((slot e).st = 0)) (decide_eq_true zero)] at h
    obtain rfl := Option.some.inj h
    exact ⟨by decide, empty, nofun⟩
  · have mem := List.mem_of_find?_eq_some h
    rw [List.mem_cons, List.mem_singleton] at mem
    exact ⟨by omega, empty, fun _ => zero⟩

theorem keyLoadResult_some (s : State) (p : List Byte) : keyLoadResult s true (some p) = (
    let b := leAt p 8 1
    let slot := keySlotAt (s.sbond b) (decide (leAt p 9 1 = 1))
    if p.length ≠ 64 ∨ BitVec.ofNat 64 (leAt p 0 8) = 0 ∨ 16 ≤ b ∨ 2 ≤ leAt p 9 1 ∨ !allZero (slice p 10 2) then (1, 0, false, 0)
    else if slice p 48 16 ≠ deviceIdBytes then (2, 0, false, 0)
    else match [0, 1].find? fun e => decide ((slot e).st = 0) with
      | none => (3, 0, false, 0)
      | some e =>
        if !(s.bond b).en then (4, 0, false, 0)
        else if s.slr.strip ≠ 0 then (6, 0, false, 0)
        else if [0, 1].any fun e => decide ((slot e).st ≠ 0) && decide ((slot e).id = BitVec.ofNat 64 (leAt p 0 8)) then (7, 0, false, 0)
        else (0, b, decide (leAt p 9 1 = 1), e) : Byte × Nat × Bool × Nat) := rfl

theorem keyLoadResult_ok {s : State} {p : List Byte} {b : Nat} {rx : Bool} {e : Nat} (ok : keyLoadResult s true (some p) = (0, b, rx, e)) : KeyFits s p b rx e := by
  have code {c : Byte} (h : (c, 0, false, 0) = ((0, b, rx, e) : Byte × Nat × Bool × Nat)) : c = 0 := congrArg Prod.fst h
  rw [keyLoadResult_some] at ok
  dsimp only at ok
  split at ok
  · exact absurd (code ok) (by decide)
  next form =>
  split at ok
  · exact absurd (code ok) (by decide)
  next device =>
  split at ok
  · exact absurd (code ok) (by decide)
  next e' found =>
  split at ok
  · exact absurd (code ok) (by decide)
  next en =>
  split at ok
  · exact absurd (code ok) (by decide)
  next strip =>
  split at ok
  · exact absurd (code ok) (by decide)
  next fresh =>
  simp only [Prod.mk.injEq, true_and] at ok
  obtain ⟨rfl, rfl, rfl⟩ := ok
  obtain ⟨slot, empty, lower⟩ := find_lowerEmpty (slot := keySlotAt (s.sbond (leAt p 8 1)) _) found
  refine ⟨?_, slot, ?_, not_not.1 strip, not_not.1 device, empty, lower, fun j two held same => fresh ?_⟩
  · rw [not_or, not_or, not_or] at form
    exact Nat.not_le.1 form.2.2.1
  · simpa using en
  · refine List.any_eq_true.2 ⟨j, by simp; omega, ?_⟩
    rw [Bool.and_eq_true, decide_eq_true_eq, decide_eq_true_eq]
    exact ⟨held, same⟩

/-- Settles O47: each command on a key slot by the slot's state, a frame by its three checks, and KEY_LOAD by its object and its result. -/
theorem keySlots : Obligations.KeySlots := by
  unfold Obligations.KeySlots
  intro s live
  have answers {c : Instr} {t u : State} (run : exec c s = act s t) (h : t = u) : exec c s = .next u := run.trans (act_eq_next live h)
  refine ⟨fun b m => ?ready, fun b none => answers rfl (txKeySwitch_none s b.val none), fun b e some => ?switch, fun b e free => answers rfl (if_neg free), fun b e draining => ?overlap,
    fun q bad => answers rfl (if_neg (ne_true_of_eq_false bad)), fun q good => ?trng, fun p b e => ?place, fun x e nctr kid tagOk => ?auth, fun r i x off crc h => ?load,
    fun p b rx e ok => ?fits, rfl, fun none bs => ?closed, fun k bs some => ?opened⟩
  case ready =>
    refine ⟨fun bad => ?_, fun e ok named lower => ?_⟩
    · refine answers rfl ((keyReady_eq ..).trans ?_)
      rcases bad with bad | ⟨zero, one⟩
      · exact if_neg (ne_true_of_eq_false bad)
      · rw [keyReadySlot_none zero one]
        exact ite_self _
    · refine answers rfl ((keyReady_eq ..).trans ((if_pos ok).trans ?_))
      rw [keyReadySlot_lower named lower]
  case switch =>
    have run := txKeySwitch_some s b.val some
    refine ⟨fun other => answers rfl (run.trans (if_pos other)), fun loaded => .of_act live (congrArg (act s) (run.trans (if_neg (not_not.2 loaded)))) ?_⟩
    dsimp only
    rw [keyChange_sbond]
    obtain ⟨moved, empty, r0, r1, next, count, err⟩ := (s.sbond b.val).switched_spec e
    exact ⟨moved, empty, r0, r1, next, count, err, fun c other => keyChange_sbond_ne s _ other⟩
  case overlap =>
    refine .of_act live (congrArg (act s) (if_pos draining)) ?_
    rw [keyChange_sbond]
    exact ⟨SBond.setRx_rx .., SBond.setRx_rx_other _ _ (otherSlot e), fun c other => keyChange_sbond_ne s _ other⟩
  case trng =>
    refine .of_act live (congrArg (act s) (trngFail_good good)) ⟨rfl, rfl, rfl, fun vacant => ?_, fun left => ?_⟩
    · have off : (s.slr.drbg && decide (putBit s.slr.trngOk q.val false ≠ 0)) = false := (congrArg (s.slr.drbg && ·) (decide_eq_false (not_not.2 vacant))).trans (Bool.and_false _)
      exact ⟨off, slrReady_noDrbg off⟩
    · exact (congrArg (s.slr.drbg && ·) (decide_eq_true left)).trans (Bool.and_true _)
  case place =>
    unfold placeKey
    rw [keyChange_sbond]
    exact SBond.setRx_rx ..
  case auth =>
    refine ⟨fun vacant => authCheck_noKey vacant, fun held named => ⟨fun l last low => authCheck_replay held named last low, fun above bad => ?_, fun above good => ?_⟩⟩
    · rw [bad]
      exact authCheck_badTag held named above
    · rw [good, authCheck_passes held named above]
      refine ⟨rfl, ?_, ?_, fun loaded active => ?_, fun other => ?_⟩
      · rw [SBond.setRx_rx]
      · rw [SBond.setRx_rx]
      · rw [SBond.setRx_rx_other _ _ (otherSlot e), if_pos ⟨loaded, active⟩, SBond.setRx_rx]
      · rw [SBond.setRx_rx_other _ _ (otherSlot e), if_neg fun both => other.elim (· both.1) (· both.2)]
  case load =>
    refine ⟨fun long => ?_, fun fits bad => ?_, fun fits good ok => ?_, fun fits good bad => ?_⟩
    · exact (exec_keyLoad h).trans (congrArg _ (h.withObject_long _ long))
    · exact (exec_keyLoad h).trans (congrArg _ (h.withObject_badCrc _ fits bad))
    · exact (exec_keyLoad_good h fits good).trans (congrArg _ (if_pos ok))
    · exact (exec_keyLoad_good h fits good).trans (congrArg _ (if_neg bad))
  case fits =>
    obtain ⟨bond, slot, en, strip, device, empty, lower, fresh⟩ := keyLoadResult_ok ok
    exact ⟨bond, slot, en, strip, device, empty, lower, fresh⟩
  case closed =>
    unfold openBlob
    rw [none]
  case opened =>
    unfold openBlob
    rw [some]

end Sys2Proof.Machine

/-! What the judgement of a bond, the queue of Lath and the end of a session reach. -/
namespace Sys2Proof.Machine

/-! ## What reaches the line side, Plumb and the pair link alone -/

/-- The second state differs from the first in Render, Plumb, Straightedge and TOP. -/
def LineOnly (s t : State) : Prop := ∃ r p e y, t = { s with rnd := r, plb := p, se := e, top := y }

namespace LineOnly

variable {s t u : State}

theorem refl (s : State) : LineOnly s s := ⟨s.rnd, s.plb, s.se, s.top, rfl⟩

theorem trans (h : LineOnly s t) (h' : LineOnly t u) : LineOnly s u := by
  obtain ⟨r, p, e, y, rfl⟩ := h
  obtain ⟨r', p', e', y', rfl⟩ := h'
  exact ⟨r', p', e', y', rfl⟩

theorem foldl {ι : Type} {f : State → ι → State} (h : ∀ s i, LineOnly s (f s i)) (l : List ι) (s : State) : LineOnly s (l.foldl f s) :=
  List.foldlRecOn (motive := LineOnly s) l f (refl s) fun t ht i _ => ht.trans (h t i)

theorem ite {c : Prop} [Decidable c] (h : LineOnly s t) : LineOnly s (if c then t else s) := by
  split
  · exact h
  · exact refl s

end LineOnly

theorem PlumbOnly.lineOnly {s t : State} (h : PlumbOnly s t) : LineOnly s t := by
  obtain ⟨p, r, rfl⟩ := h
  exact ⟨_, _, _, _, rfl⟩

theorem setLane_lineOnly (s : State) (g : Nat) (x : RLane) : LineOnly s (s.setLane g x) := ⟨_, _, _, _, rfl⟩
theorem setBond_lineOnly (s : State) (b : Nat) (x : Bond) : LineOnly s (s.setBond b x) := ⟨_, _, _, _, rfl⟩

theorem serviceJudged_lineOnly (old s : State) (b : Nat) : LineOnly s (serviceJudged old s b) :=
  (LineOnly.foldl (f := leaveService) (fun s g => setLane_lineOnly s g _) _ _).trans (.foldl (f := enterService b) (fun s g => setLane_lineOnly s g _) _ _)

theorem pairDown_lineOnly (s : State) (ports : BitVec 16) : LineOnly s (pairDown s ports) := by
  obtain ⟨x, is⟩ := pairDown_frame s ports
  exact ⟨_, _, _, _, is⟩

theorem stateJudged_lineOnly (old s : State) (b : Nat) : LineOnly s (stateJudged old s b) := by
  have noted (x : Bond) : LineOnly s ((serviceJudged old s b).setBond b x) := (serviceJudged_lineOnly old s b).trans (setBond_lineOnly ..)
  unfold stateJudged
  dsimp only
  split
  · exact (noted _).trans (pairDown_lineOnly ..)
  · exact noted _

theorem refTaken_lineOnly (s : State) (b : Nat) : (now : Option Nat) → LineOnly s (refTaken s b now)
  | none => setBond_lineOnly ..
  | some g => by
    dsimp only [refTaken]
    split
    · exact setBond_lineOnly ..
    · exact (setBond_lineOnly ..).trans (suspend_plumbOnly ..).lineOnly

theorem settleRef_lineOnly (s : State) (b : Nat) : LineOnly s (settleRef s b) := by
  rw [settleRef_eq]
  split
  · exact .refl s
  · exact (LineOnly.ite (setBond_lineOnly ..)).trans (refTaken_lineOnly ..)

theorem settle_lineOnly (old s : State) (b : Nat) : LineOnly s (settle old s b) := by
  cases en : (s.bond b).en with
  | false => exact settle_disabled en old ▸ setBond_lineOnly ..
  | true =>
    rw [settle_enabled en]
    exact ((stateJudged_lineOnly old s b).trans (settleRef_lineOnly ..)).trans (.foldl (fun s p => ⟨s.rnd, s.plb, s.se, _, rfl⟩) _ _)

/-- What a change of a bond's keys reaches: the judgement of the bond, with the keys in place. -/
theorem keyChange_lineOnly (s : State) (b : Nat) (x : SBond) : LineOnly (s.setSbond b x) (keyChange s b x) := settle_lineOnly ..

/-! ## Sessions that are closed stay closed -/

/-- No session has come into a slot that was free. -/
structure ClosedStay (s t : State) : Prop where
  closed : ∀ k, s.session k = none → t.session k = none

namespace ClosedStay

variable {s t u : State}

theorem refl (s : State) : ClosedStay s s := ⟨fun _ free => free⟩
theorem trans (h : ClosedStay s t) (h' : ClosedStay t u) : ClosedStay s u := ⟨fun k free => h'.closed k (h.closed k free)⟩
theorem of_hwk (same : t.hwk = s.hwk) : ClosedStay s t := ⟨fun k free => by
    unfold State.session at free ⊢
    rw [same]
    exact free⟩

theorem foldl {ι : Type} {f : State → ι → State} (h : ∀ s i, ClosedStay s (f s i)) (l : List ι) (s : State) : ClosedStay s (l.foldl f s) :=
  List.foldlRecOn (motive := ClosedStay s) l f (refl s) fun t ht i _ => ht.trans (h t i)

end ClosedStay

theorem setSession_closedStay {s : State} {i : Nat} {x : Session} (held : s.session i = some x) (y : Session) : ClosedStay s (s.setSession i (some y)) := by
  refine ⟨fun k free => ?_⟩
  by_cases here : k = i
  · rw [here, held] at free
    exact nomatch free
  · exact (State.setSession_session_ne _ _ _ _ here).trans free

theorem sendRecord_closedStay (s : State) (num : BitVec 16) (rec_ : List Byte) : ClosedStay s (sendRecord s num rec_) := by
  unfold sendRecord
  split
  · exact .refl s
  · split
    · exact .refl s
    · next i _ x held =>
      split
      · exact .trans (setSession_closedStay held _) (.of_hwk rfl)
      · exact .refl s

theorem respond_closedStay (s : State) (r : MboxRec) (op : BitVec 16) (status : Byte) (result : List Byte) : ClosedStay s (respond s r op status result) := by
  unfold respond
  have counted : ClosedStay s (if status = 0 then s else { s with hwk := { s.hwk with refusedCount := bump s.hwk.refusedCount 1 } }) := by
    split
    · exact .refl s
    · exact ⟨fun _ free => free⟩
  dsimp only
  split
  · refine counted.trans (.trans ?_ (sendRecord_closedStay ..))
    exact ⟨fun _ free => free⟩
  · exact counted

theorem lathAnswer_closedStay (s : State) (c : LathCmd) (code : Byte) (handle : BitVec 32) : ClosedStay s (lathAnswer s c code handle) := by
  unfold lathAnswer
  dsimp only
  split
  · exact .refl s
  · split
    · exact .of_hwk rfl
    · refine .trans ?_ (respond_closedStay ..)
      exact .of_hwk rfl

theorem dropHeld_hwk (s : State) (o : Owner) : (dropHeld s o).hwk = s.hwk := by
  unfold dropHeld
  split <;> rfl

theorem grantBuffer_hwk (s : State) (o : Owner) (q p : Nat) : (grantBuffer s o q p).2.hwk = s.hwk := by
  unfold grantBuffer
  split
  · rfl
  · split <;> rfl

theorem lathFree_hwk (s : State) (o : Owner) (h : Nat) : (lathFree s o h).2.hwk = s.hwk := by
  unfold lathFree
  dsimp only
  split
  · rfl
  · split
    · rfl
    · split
      · rfl
      · split <;> rfl

/-- A command of the queue works on Lath, and then answers. -/
theorem lathDo_answers (s : State) (c : LathCmd) : ∃ t code handle, lathDo s c = lathAnswer t c code handle ∧ t.hwk = s.hwk := by
  unfold lathDo
  dsimp only
  split
  case h_1 p q _ =>
    split
    · exact ⟨_, _, _, rfl, rfl⟩
    · split
      · exact ⟨_, _, _, rfl, rfl⟩
      · have granted := grantBuffer_hwk s c.owner q p
        split
        next t is =>
          rw [is] at granted
          exact ⟨_, _, _, rfl, granted⟩
        next h t is =>
          rw [is] at granted
          exact ⟨_, _, _, rfl, granted⟩
  case h_2 h _ => exact ⟨_, _, _, rfl, lathFree_hwk ..⟩
  case h_3 =>
    split
    · exact ⟨_, _, _, rfl, rfl⟩
    · split
      · exact ⟨_, _, _, rfl, rfl⟩
      · exact ⟨_, _, _, rfl, dropHeld_hwk ..⟩
  case h_4 =>
    split
    · exact ⟨_, _, _, rfl, rfl⟩
    · split <;> exact ⟨_, _, _, rfl, rfl⟩
  case h_5 =>
    split
    · exact ⟨_, _, _, rfl, rfl⟩
    · split <;> exact ⟨_, _, _, rfl, rfl⟩
  case h_6 => exact ⟨_, _, _, rfl, rfl⟩
  case h_7 => split <;> exact ⟨_, _, _, rfl, rfl⟩
  case h_8 => exact ⟨_, _, _, rfl, rfl⟩

theorem lathDo_closedStay (s : State) (c : LathCmd) : ClosedStay s (lathDo s c) := by
  obtain ⟨t, code, handle, is, same⟩ := lathDo_answers s c
  rw [is]
  exact .trans (.of_hwk same) (lathAnswer_closedStay ..)

theorem closeFence_closedStay (s : State) (f : Fence) : ClosedStay s (closeFence s f) := .of_hwk (dropHeld_hwk ..)

theorem lathRun_closedStay (n : Nat) (s : State) : ClosedStay s (lathRun n s) := by
  induction n generalizing s with
  | zero => exact .refl s
  | succ n ih =>
    unfold lathRun
    split
    · exact .refl s
    · next c rest _ =>
      split
      · exact .refl s
      · have done : ClosedStay s (lathDo { s with lth := { s.lth with queue := rest } } c) := by
          refine .trans ?_ (lathDo_closedStay ..)
          exact .of_hwk rfl
        dsimp only
        split
        · split
          · exact (done.trans (closeFence_closedStay ..)).trans (ih _)
          · exact done.trans (ih _)
        · exact done.trans (ih _)

theorem lathQueue_closedStay (s : State) (c : LathCmd) : ClosedStay s (lathQueue s c) := by
  refine .trans ?_ (lathRun_closedStay ..)
  exact .of_hwk rfl

theorem lathQueue_lathOnly (s : State) (c : LathCmd) : LathOnly s (lathQueue s c) := ((LathOnly.refl s).lth _).trans (lathRun_lathOnly ..)

/-! ## The end of a session, R539 -/

theorem freeMboxes_lathOnly (s : State) (mask : BitVec 16) : LathOnly s (freeMboxes s mask) :=
  .foldl (fun s _ => .ite ⟨s.lth, _, s.out, s.stn.held, rfl⟩) _ s

theorem freeMboxes_session (s : State) (mask : BitVec 16) (k : Nat) : (freeMboxes s mask).session k = s.session k :=
  foldl_keeps (State.session · k) (fun s m => by split <;> rfl) _ s

/-- The device once a session's slot, its mailboxes and its staging areas are free. -/
def slotFreed (s : State) (i : Nat) (x : Session) : State := releaseStages (freeMboxes (s.setSession i none) x.mask) x.num

theorem slotFreed_session (s : State) (i : Nat) (x : Session) : (slotFreed s i x).session i = none :=
  (freeMboxes_session ..).trans (State.setSession_session ..)

theorem slotFreed_session_ne (s : State) {i k : Nat} (x : Session) (other : k ≠ i) : (slotFreed s i x).session k = s.session k :=
  (freeMboxes_session ..).trans (State.setSession_session_ne _ _ _ _ other)

theorem slotFreed_lathOnly (s : State) (i : Nat) (x : Session) : LathOnly s (slotFreed s i x) :=
  (LathOnly.trans ⟨s.lth, _, s.out, s.stn.held, rfl⟩ (freeMboxes_lathOnly (s.setSession i none) x.mask)).trans ⟨_, _, _, _, rfl⟩

section
variable {s : State} {i : Nat} {x : Session} {byClose : Bool}

theorem closeSession_none (free : s.session i = none) : closeSession s i byClose = s := by
  unfold closeSession
  rw [free]

theorem closeSession_some (held : s.session i = some x) : closeSession s i byClose
    = if x.isOpen then proxyFree (if x.isOpen ∧ !byClose then hwkErr (slotFreed s i x) 1 else slotFreed s i x) (sessionOwner x.num)
      else if x.isOpen ∧ !byClose then hwkErr (slotFreed s i x) 1 else slotFreed s i x := by
  unfold closeSession
  rw [held]
  rfl

/-- The session freed, and the flag of one that did not close itself. -/
theorem flagged_lathOnly (c : Prop) [Decidable c] : LathOnly s (if c then hwkErr (slotFreed s i x) 1 else slotFreed s i x) := by
  split
  · exact (slotFreed_lathOnly s i x).trans ⟨_, _, _, _, rfl⟩
  · exact slotFreed_lathOnly s i x

theorem flagged_session (c : Prop) [Decidable c] (k : Nat) : (if c then hwkErr (slotFreed s i x) 1 else slotFreed s i x).session k = (slotFreed s i x).session k := by
  split <;> rfl

end

theorem closeSession_lathOnly (s : State) (i : Nat) (byClose : Bool) : LathOnly s (closeSession s i byClose) := by
  cases held : s.session i with
  | none =>
    rw [closeSession_none held]
    exact .refl s
  | some x =>
    rw [closeSession_some held]
    split
    · exact (flagged_lathOnly _).trans (lathQueue_lathOnly ..)
    · exact flagged_lathOnly _

theorem closeSession_session (s : State) (i : Nat) (byClose : Bool) : (closeSession s i byClose).session i = none := by
  cases held : s.session i with
  | none =>
    rw [closeSession_none held]
    exact held
  | some x =>
    have freed (c : Prop) [Decidable c] : (if c then hwkErr (slotFreed s i x) 1 else slotFreed s i x).session i = none := (flagged_session c i).trans (slotFreed_session s i x)
    rw [closeSession_some held]
    split
    · exact (lathQueue_closedStay ..).closed i (freed _)
    · exact freed _

theorem closeSession_closedStay (s : State) (i : Nat) (byClose : Bool) : ClosedStay s (closeSession s i byClose) := by
  refine ⟨fun k free => ?_⟩
  by_cases here : k = i
  · rw [here]
    exact closeSession_session s i byClose
  cases held : s.session i with
  | none =>
    rw [closeSession_none held]
    exact free
  | some x =>
    have kept (c : Prop) [Decidable c] : (if c then hwkErr (slotFreed s i x) 1 else slotFreed s i x).session k = none :=
      (flagged_session c k).trans ((slotFreed_session_ne s x here).trans free)
    rw [closeSession_some held]
    split
    · exact (lathQueue_closedStay ..).closed k (kept _)
    · exact kept _

end Sys2Proof.Machine

/-! Attestation, the owner store and strip unlock, R443, R444, R460 and R465 to R469. -/
namespace Sys2Proof.Machine

/-! ## ATTEST, R460 -/

theorem signIdk_frame (s : State) (bs : List Byte) : ∃ f, (signIdk s bs).2 = { s with fresh := f } := by
  unfold signIdk
  split
  · exact ⟨s.fresh, rfl⟩
  · exact ⟨_, rfl⟩

theorem padTo_length (b : Byte) (n : Nat) (l : List Byte) : (padTo b n l).length = n := by
  simp [padTo]
  omega

theorem signIdk_signs {s : State} {k : KeyPair} (idk : s.slr.idk = some k) (bs : List Byte) :
    ∃ salt, salt.length = 32 ∧ (signIdk s bs).1 = rsaSign k.record k.secret (sha256 bs) salt := by
  refine ⟨(draw s 32).1, padTo_length .., ?_⟩
  unfold signIdk
  rw [idk]

section
variable {s : State} {r : MboxRec} {i : Nat} {x : Session}

theorem begun_slr (op : BitVec 16) (args : List Byte) : (begun s r op args i x).slr = s.slr := by
  obtain ⟨l, m, is⟩ := begun_eq s r op args i x
  rw [is]

/-- Bytes placed in the session area while a signature has drawn its salt. -/
theorem Accepted.putArea3_drawn {n : CmdNeeds} {args : List Byte} (h : Accepted s r n args i x) (f : Nat) (bs : List Byte) :
    putArea3 { begun s r n.op args i x with fresh := f } r bs
      = { begun s r n.op args i x with fresh := f }.setSession i (some { x with lastSeq := some r.seq, area3 := Mem.write x.area3 0 bs }) := by
  have held : recSession { begun s r n.op args i x with fresh := f } r = some (i, { x with lastSeq := some r.seq }) := h.begun_recSession
  unfold putArea3
  rw [held]

theorem exec_attest {nonce : List Byte} (h : Accepted s r (needs 0x0050 false false [rdySlr]) (padTo 0 32 nonce) i x) :
    let u := begun s r 0x0050 (padTo 0 32 nonce) i x
    let g := signIdk u (reportBytes u (padTo 0 32 nonce))
    let report := reportBytes u (padTo 0 32 nonce) ++ padTo 0 384 g.1
    exec (.attest r nonce) s = .next (respond (g.2.setSession i (some { x with lastSeq := some r.seq, area3 := Mem.write x.area3 0 report })) r 0x0050 stOk
      (beBytes 4 640 ++ beBytes 4 (crc32c report).toNat)) := by
  refine exec_begun h rfl ?_
  dsimp only
  obtain ⟨f, drawn⟩ := signIdk_frame (begun s r 0x0050 (padTo 0 32 nonce) i x) (reportBytes (begun s r 0x0050 (padTo 0 32 nonce) i x) (padTo 0 32 nonce))
  refine congrArg (respond · r 0x0050 stOk _) ?_
  have placed := h.putArea3_drawn f
  rw [show (needs 0x0050 false false [rdySlr]).op = 0x0050 from rfl, ← drawn] at placed
  exact placed _

end

/-! ## What a refusal with a free code leaves -/

section
variable {u : State} {r : MboxRec} {op : BitVec 16} {i : Nat} {x : Session}

theorem refuseFree_leaves (runs : (u.mbox r.mbox.val).running = some (r.cmdId, r.session, op)) (slot : sessionSlot u r.session = some i)
    (held : u.session i = some { x with lastSeq := some r.seq }) (open_ : x.isOpen = true) :
    (refuseFree u r op).slr = u.slr ∧ ((refuseFree u r op).mbox r.mbox.val).running = none ∧ (refuseFree u r op).hwk.refusedCount = bump u.hwk.refusedCount 1 := by
  have answer : refuseFree u r op = answeredWith { u with fresh := u.fresh + 1 } r i x stRefused _ := respond_answers (u := { u with fresh := u.fresh + 1 }) runs slot held open_ stRefused _
  obtain ⟨l, m, c, o, is⟩ := answeredWith_eq { u with fresh := u.fresh + 1 } r i x stRefused (mboxRecord 0x11 r op stRefused [BitVec.ofNat 8 (freeNat u)])
  refine ⟨?_, ?_, ?_⟩
  · rw [answer, is]
  · rw [answer, answeredWith_mbox]
    rfl
  · rw [answer, answeredWith_refusedCount]
    rfl

end

theorem Accepted.refuseFree_begun {s : State} {r : MboxRec} {n : CmdNeeds} {args : List Byte} {i : Nat} {x : Session} (h : Accepted s r n args i x) :
    let t := refuseFree (begun s r n.op args i x) r n.op
    t.slr = s.slr ∧ (t.mbox r.mbox.val).running = none ∧ t.hwk.refusedCount = bump s.hwk.refusedCount 1 := by
  obtain ⟨slr, idle, count⟩ := refuseFree_leaves (begun_running s r n.op args i x) h.begun_slot (begun_session ..) h.isOpen
  exact ⟨slr.trans (begun_slr n.op args), idle, count.trans (congrArg (bump · 1) (begun_refusedCount ..))⟩

/-! ## OWNER_UPLOAD, R443, R444 and R462 -/

section
variable {s : State} {r : MboxRec} {i : Nat} {x : Session} {off crc : BitVec 32}

/-- An owner store that reaches Sealer whole. -/
def storeOffered (s : State) (r : MboxRec) (b : List Byte) : State :=
  let spent := match recSession s r with | some (_, x) => x.claiming && s.slr.ownerHash.isSome | none => false
  if spent then respond s r 0x0052 stNotPermitted []
  else if ownerAccepted s b then
    respond { s with slr := { s.slr with store := some (parseStore b), ownerHash := some (s.slr.ownerHash.getD (ownerRootHash b)) } } r 0x0052 stOk (beBytes 4 (leAt b 4 4))
  else refuseFree s r 0x0052

theorem exec_ownerUpload (h : Accepted s r (needs 0x0052 true false [rdySlr]) (beBytes 4 off.toNat ++ beBytes 4 crc.toNat) i x) :
    exec (.ownerUpload r off crc) s = .next (withObject (begun s r 0x0052 (beBytes 4 off.toNat ++ beBytes 4 crc.toNat) i x) r 0x0052 off.toNat 4232 crc (storeOffered · r ·)) :=
  exec_begun h rfl rfl

theorem ownerAccepted_congr {u : State} (same : u.slr = s.slr) (b : List Byte) : ownerAccepted u b = ownerAccepted s b := by
  unfold ownerAccepted
  rw [same]

theorem Accepted.storeOffered_eq {n : CmdNeeds} {args : List Byte} (h : Accepted s r n args i x) (b : List Byte) : storeOffered (begun s r n.op args i x) r b
    = if x.claiming && s.slr.ownerHash.isSome then respond (begun s r n.op args i x) r 0x0052 stNotPermitted []
      else if ownerAccepted s b then
        respond { begun s r n.op args i x with slr := { (begun s r n.op args i x).slr with store := some (parseStore b), ownerHash := some (s.slr.ownerHash.getD (ownerRootHash b)) } }
          r 0x0052 stOk (beBytes 4 (leAt b 4 4))
      else refuseFree (begun s r n.op args i x) r 0x0052 := by
  unfold storeOffered
  rw [h.begun_recSession, ownerAccepted_congr (begun_slr n.op args), begun_slr n.op args]

/-! ## STRIP_CHALLENGE, R467 -/

theorem exec_stripChallenge (h : Accepted s r (needs 0x0053 true false [rdySlr]) [] i x) : ∃ c, c.length = 32 ∧
    exec (.stripChallenge r) s = .next (respond { begun s r 0x0053 [] i x with slr := { s.slr with challenge := some c }, fresh := s.fresh + 1 } r 0x0053 stOk c) := by
  refine ⟨(draw s 32).1, padTo_length .., exec_begun h rfl ?_⟩
  obtain ⟨l, m, is⟩ := begun_eq s r 0x0053 [] i x
  rw [show (needs 0x0053 true false [rdySlr]).op = 0x0053 from rfl, is]
  rfl

end

/-! ## The steps of a strip, R468 -/

/-- Bonds of Sealer with other keys; the rest of Sealer as it was. -/
def State.withBonds (s : State) (l : Tab SBond) : State := { s with slr := { s.slr with bonds := l } }

/-- What the erasure of keys reaches. -/
def ErasedOnly (s t : State) : Prop := ∃ l, LineOnly (s.withBonds l) t

theorem ErasedOnly.trans {s t u : State} (h : ErasedOnly s t) (h' : ErasedOnly t u) : ErasedOnly s u := by
  obtain ⟨l, r, p, e, y, rfl⟩ := h
  obtain ⟨l', r', p', e', y', rfl⟩ := h'
  exact ⟨l', r', p', e', y', rfl⟩

theorem eraseKeys_erasedOnly (s : State) (b : Nat) : ErasedOnly s (eraseKeys s b) := ⟨_, keyChange_lineOnly ..⟩

/-- Every key slot of every bond is erased. -/
def keysErased (s : State) : State := (List.range 16).foldl eraseKeys s

theorem keysErased_erasedOnly (s : State) : ErasedOnly s (keysErased s) :=
  List.foldlRecOn (motive := ErasedOnly s) _ eraseKeys ⟨s.slr.bonds, .refl s⟩ fun t ht b _ => ht.trans (eraseKeys_erasedOnly t b)

theorem keysErased_sbond (s : State) {b : Nat} (h : b < 16) : (keysErased s).sbond b = (s.sbond b).emptied := by
  refine (foldl_range_get (get := State.sbond) (f := eraseKeys) (g := fun _ => SBond.emptied) (fun s k => ?_) (fun s k j other => ?_) s 16 b).trans (if_pos h)
  · exact keyChange_sbond ..
  · exact keyChange_sbond_ne s _ other

theorem closeAll_lathOnly (s : State) : LathOnly s (closeAll s) := .foldl (fun s i => closeSession_lathOnly s i false) _ s

theorem closeAll_session (s : State) {k : Nat} (h : k < 8) : (closeAll s).session k = none := by
  have closes (l : List Nat) : ∀ s : State, k ∈ l ∨ s.session k = none → (l.foldl (fun s i => closeSession s i false) s).session k = none := by
    induction l with
    | nil => exact fun s free => free.resolve_left (List.not_mem_nil)
    | cons i l ih =>
      intro s free
      refine ih _ ?_
      rcases free with mem | free
      · rcases List.mem_cons.1 mem with rfl | mem
        · exact .inr (closeSession_session s k false)
        · exact .inl mem
      · exact .inr ((closeSession_closedStay s i false).closed k free)
  exact closes _ s (.inl (List.mem_range.2 h))

/-- A stack that is initialised again, unless it waits for its training or has failed. -/
def Stack.restarted (x : Stack) : Stack := if x.st = 3 ∨ x.st = 0 then x else { x with st := 1 }

theorem reinitStack_frame (s : State) (k : Nat) : ∃ h y, reinitStack s k = { s with hbm := h, top := y } := by
  unfold reinitStack
  dsimp only
  split
  · exact ⟨s.hbm, s.top, rfl⟩
  · exact ⟨_, _, rfl⟩

theorem reinitStack_stack (s : State) (k : Nat) : (reinitStack s k).stack k = (s.stack k).restarted := by
  unfold reinitStack Stack.restarted
  dsimp only
  split
  · rfl
  · exact State.setStack_stack ..

theorem reinitStack_stack_ne (s : State) {k j : Nat} (other : j ≠ k) : (reinitStack s k).stack j = s.stack j := by
  unfold reinitStack
  dsimp only
  split
  · rfl
  · exact State.setStack_stack_ne _ _ _ _ other

/-- Every stack is initialised again. -/
def stacksRestarted (s : State) : State := (List.range 32).foldl reinitStack s

theorem stacksRestarted_frame (s : State) : ∃ h y, stacksRestarted s = { s with hbm := h, top := y } := by
  obtain ⟨q, is⟩ := foldl_frame (fun q : Hbm × Top => ({ s with hbm := q.1, top := q.2 } : State)) (step := reinitStack)
    (fun q k => (reinitStack_frame { s with hbm := q.1, top := q.2 } k).elim fun h ⟨y, is⟩ => ⟨(h, y), is⟩) (List.range 32) (s.hbm, s.top)
  exact ⟨q.1, q.2, is⟩

theorem stacksRestarted_stack (s : State) {k : Nat} (h : k < 32) : (stacksRestarted s).stack k = (s.stack k).restarted :=
  (foldl_range_get (get := State.stack) (f := reinitStack) (g := fun _ => Stack.restarted) reinitStack_stack (fun s _ _ other => reinitStack_stack_ne s other) s 32 k).trans (if_pos h)

theorem scrubEngine_enginesOnly (s : State) (e : Nat) : EnginesOnly s (scrubEngine s e) :=
  ((cancelEngine_enginesOnly s e).trans (setEng_enginesOnly ..)).trans (setEngSt_enginesOnly ..)

/-- Every engine scrubs. -/
def enginesScrubbed (s : State) : State := (List.range 64).foldl scrubEngine s

theorem enginesScrubbed_enginesOnly (s : State) : EnginesOnly s (enginesScrubbed s) := .foldl scrubEngine_enginesOnly _ s

theorem enginesScrubbed_st (s : State) {e : Nat} (h : e < 64) : ((enginesScrubbed s).eng e).st = .scrubbing := by
  refine (foldl_range_get (get := fun s e => (s.eng e).st) (f := scrubEngine) (g := fun _ _ => .scrubbing) (fun s k => ?_) (fun s k j other => ?_) s 64 e).trans (if_pos h)
  · exact congrArg Engine.st (State.setEng_eng ..)
  · refine congrArg Engine.st ((State.setEng_eng_ne _ _ _ _ other).trans ((State.setEng_eng_ne _ _ _ _ other).trans (State.setEng_eng_ne _ _ _ _ other)))

/-- Every quadrant that has a key pair takes a new one. -/
def keysDrawn (s : State) : State := (List.range 4).foldl (fun s q => if s.slr.xts.getLsbD q then drawXts s q else s) s

theorem keysDrawn_frame (s : State) : ∃ x k f, keysDrawn s = { s with slr := { s.slr with xts := x, xtsKeys := k }, fresh := f } := by
  obtain ⟨q, is⟩ := foldl_frame (fun q : BitVec 4 × Tab (List Byte) × Nat => ({ s with slr := { s.slr with xts := q.1, xtsKeys := q.2.1 }, fresh := q.2.2 } : State))
    (step := fun s q => if s.slr.xts.getLsbD q then drawXts s q else s) (fun q k => by
      dsimp only
      split
      · exact ⟨(_, _, _), rfl⟩
      · exact ⟨q, rfl⟩) (List.range 4) (s.slr.xts, s.slr.xtsKeys, s.fresh)
  exact ⟨q.1, q.2.1, q.2.2, is⟩

/-- The device once its sessions and stacks are gone, before the engines scrub. -/
def ownersGone (s : State) : State := { s with lth := { s.lth with owners := [] }, stn := { s.stn with held := [] } }

/-- Sealer once its device keys are gone and the gate is closed. -/
def keysGone (s : State) : State := { s with slr := { s.slr with idk := none, ktk := none, gateClosed := true } }

theorem stripErase_eq (s : State) : stripErase s = keysGone (keysDrawn (enginesScrubbed (ownersGone (stacksRestarted (closeAll (keysErased s)))))) := by
  simp only [stripErase, keysGone, keysDrawn, enginesScrubbed, ownersGone, stacksRestarted, keysErased]

/-! ## STRIP, R467 to R469 -/

/-- The device once a strip has been accepted, before it answers. -/
def stripStarted (u : State) (response : List Byte) : State :=
  journal (slrReady (slrErr { u with slr := { u.slr with strip := 1, challenge := none } } 0)) 0x0D deviceId response

theorem slrReady_frame (s : State) : ∃ y, slrReady s = { s with top := y } := ⟨_, rfl⟩

theorem stripStarted_frame (u : State) (response : List Byte) : ∃ y g, stripStarted u response
    = { u with slr := { u.slr with strip := 1, challenge := none, err := setErr u.slr.err 0 }, top := y, sng := g } := by
  obtain ⟨g, is⟩ := journal_ledgerOnly (slrReady (slrErr { u with slr := { u.slr with strip := 1, challenge := none } } 0)) 0x0D deviceId response
  exact ⟨_, g, is⟩

/-- What a strip does not touch of the device before it erases: the parts that the erasure works on. -/
structure StripReady (s t : State) : Prop where
  slr : t.slr = { s.slr with strip := 1, challenge := none, err := setErr s.slr.err 0 }
  hbm : t.hbm = s.hbm

theorem sbond_congr {s t : State} (same : t.slr.bonds = s.slr.bonds) (b : Nat) : t.sbond b = s.sbond b := congrArg (Tab.get ({} : SBond) · b) same
theorem session_congr {s t : State} (same : t.hwk = s.hwk) (k : Nat) : t.session k = s.session k := congrArg (fun w : Hwk => Tab.get none w.sessions k) same
theorem eng_congr {s t : State} (same : t.engines = s.engines) (e : Nat) : t.eng e = s.eng e := congrArg (Tab.get Engine.reset · e) same
theorem stack_congr {s t : State} (same : t.hbm = s.hbm) (k : Nat) : t.stack k = s.stack k := congrArg (fun h : Hbm => Tab.get ({} : Stack) h.stackTab k) same

/-- The parts of the device after an erasure come from the pass that works on them. -/
theorem stripErase_parts (t : State) :
    (∃ x k, (stripErase t).slr = { t.slr with bonds := (keysErased t).slr.bonds, xts := x, xtsKeys := k, idk := none, ktk := none, gateClosed := true })
      ∧ (stripErase t).engines = (enginesScrubbed (ownersGone (stacksRestarted (closeAll (keysErased t))))).engines ∧ (stripErase t).hwk = (closeAll (keysErased t)).hwk
      ∧ (stripErase t).hbm = (stacksRestarted (closeAll (keysErased t))).hbm ∧ (closeAll (keysErased t)).hbm = t.hbm := by
  rw [stripErase_eq]
  obtain ⟨x, k, f, drawn⟩ := keysDrawn_frame (enginesScrubbed (ownersGone (stacksRestarted (closeAll (keysErased t)))))
  obtain ⟨en, q, scrubbed⟩ := enginesScrubbed_enginesOnly (ownersGone (stacksRestarted (closeAll (keysErased t))))
  obtain ⟨g, z, restarted⟩ := stacksRestarted_frame (closeAll (keysErased t))
  obtain ⟨lth, w, o, held, closed⟩ := closeAll_lathOnly (keysErased t)
  obtain ⟨l, r, p, e, y, erased⟩ := keysErased_erasedOnly t
  rw [drawn, scrubbed, restarted, closed, erased]
  exact ⟨⟨x, k, rfl⟩, rfl, rfl, rfl, rfl⟩

theorem stripErase_erases {s t : State} (h : StripReady s t) :
    (∃ l x k, (stripErase t).slr = { s.slr with strip := 1, challenge := none, err := setErr s.slr.err 0, bonds := l, xts := x, xtsKeys := k, idk := none, ktk := none, gateClosed := true })
      ∧ (∀ b, b < 16 → ∃ x : SBond, (stripErase t).sbond b = x.emptied) ∧ (∀ k, k < 8 → (stripErase t).session k = none) ∧ (∀ e, e < 64 → ((stripErase t).eng e).st = .scrubbing)
      ∧ ∀ k, k < 32 → (stripErase t).stack k = (s.stack k).restarted := by
  obtain ⟨slr, hbm⟩ := h
  obtain ⟨⟨x, k, keys⟩, engines, sessions, hbms, before⟩ := stripErase_parts t
  generalize stripErase t = v at *
  refine ⟨⟨_, x, k, keys.trans (by rw [slr])⟩, fun b hb => ⟨t.sbond b, ?_⟩, fun k hk => ?_, fun e he => ?_, fun k hk => ?_⟩
  · have same : v.slr.bonds = (keysErased t).slr.bonds := by rw [keys]
    rw [sbond_congr same, keysErased_sbond t hb]
  · rw [session_congr sessions, closeAll_session _ hk]
  · rw [eng_congr engines, enginesScrubbed_st _ he]
  · rw [stack_congr hbms, stacksRestarted_stack _ hk, stack_congr before, stack_congr hbm]

/-- The end of a strip reaches its STATE alone. -/
theorem stripEnd_strip (s : State) : ∃ n, stripEnd s = { s with slr := { s.slr with strip := n } } ∧ (s.slr.strip = 1 → n ≠ 0) := by
  unfold stripEnd
  split
  · exact ⟨2, rfl, fun _ => by decide⟩
  · exact ⟨s.slr.strip, rfl, fun one => by rw [one]; decide⟩

/-- What R468 leaves, of a device that has begun to strip. -/
structure Stripped (s t : State) : Prop where
  strip : t.slr.strip ≠ 0
  challenge : t.slr.challenge = none
  idk : t.slr.idk = none
  ktk : t.slr.ktk = none
  gate : t.slr.gateClosed = true
  err : t.slr.err.getLsbD 0 = true
  keys : ∀ b, b < 16 → (t.sbond b).tx0 = {} ∧ (t.sbond b).tx1 = {} ∧ (t.sbond b).rx0 = {} ∧ (t.sbond b).rx1 = {}
  sessions : ∀ k, k < 8 → t.session k = none
  engines : ∀ e, e < 64 → (t.eng e).st = .scrubbing
  hbms : ∀ k, k < 32 → (t.stack k).st = (if (s.stack k).st = 0 ∨ (s.stack k).st = 3 then (s.stack k).st else 1)

theorem Stack.restarted_st (x : Stack) : x.restarted.st = if x.st = 0 ∨ x.st = 3 then x.st else 1 := by
  unfold Stack.restarted
  by_cases held : x.st = 3 ∨ x.st = 0
  · rw [if_pos held, if_pos held.symm]
  · rw [if_neg held, if_neg (mt Or.symm held)]

theorem stripEnd_stripped {s t : State} (h : StripReady s t) : Stripped s (stripEnd (stripErase t)) := by
  obtain ⟨⟨l, x, k, slr⟩, keys, sessions, engines, hbms⟩ := stripErase_erases h
  obtain ⟨n, ended, some⟩ := stripEnd_strip (stripErase t)
  generalize stripErase t = v at *
  rw [ended]
  refine ⟨some (congrArg Slr.strip slr), congrArg Slr.challenge slr, congrArg Slr.idk slr, congrArg Slr.ktk slr, congrArg Slr.gateClosed slr, ?_, fun b hb => ?_, sessions, engines, fun k hk => ?_⟩
  · exact (congrArg (fun k : Slr => k.err.getLsbD 0) slr).trans ((setErr_getLsbD _ 0 0 (by decide)).trans (Bool.or_true _))
  · obtain ⟨x, is⟩ := keys b hb
    have emptied : ({ v with slr := { v.slr with strip := n } } : State).sbond b = x.emptied := is
    rw [emptied]
    exact ⟨rfl, rfl, rfl, rfl⟩
  · exact (congrArg Stack.st (hbms k hk)).trans (Stack.restarted_st _)

section
variable {s : State} {r : MboxRec} {i : Nat} {x : Session} {off crc : BitVec 32}

/-- What a token of a strip has to find. -/
def TokenStands (s : State) (b : List Byte) : Prop := tokenOk s b = true ∧ s.slr.ownerHash.isSome = true ∧ s.stn.place = .none ∧ s.stn.next = none ∧ s.slr.strip = 0

/-- A token that reaches Sealer whole. -/
def tokenOffered (s : State) (r : MboxRec) (b : List Byte) : State :=
  if !tokenOk s b ∨ s.slr.ownerHash.isNone ∨ s.stn.place ≠ .none ∨ s.stn.next.isSome ∨ s.slr.strip ≠ 0 then refuseFree s r 0x0054
  else stripEnd (stripErase (respond (stripStarted s (slice b 24 32)) r 0x0054 stOk []))

theorem tokenBarred_iff (s : State) (b : List Byte) :
    ((!tokenOk s b) = true ∨ s.slr.ownerHash.isNone = true ∨ s.stn.place ≠ .none ∨ s.stn.next.isSome = true ∨ s.slr.strip ≠ 0) ↔ ¬TokenStands s b := by
  unfold TokenStands
  rw [not_and_or, not_and_or, not_and_or, not_and_or]
  simp [Option.isSome_iff_ne_none]

theorem exec_strip (h : Accepted s r (needs 0x0054 true false [rdySlr]) (beBytes 4 off.toNat ++ beBytes 4 crc.toNat) i x) :
    exec (.strip r off crc) s = .next (withObject (begun s r 0x0054 (beBytes 4 off.toNat ++ beBytes 4 crc.toNat) i x) r 0x0054 off.toNat 448 crc (tokenOffered · r ·)) :=
  exec_begun h rfl rfl

theorem begun_tokenStands (op : BitVec 16) (args b : List Byte) : TokenStands (begun s r op args i x) b ↔ TokenStands s b := by
  obtain ⟨l, m, is⟩ := begun_eq s r op args i x
  rw [is]
  exact Iff.rfl

theorem begun_stripReady (op : BitVec 16) (args response : List Byte) :
    StripReady s (respond (stripStarted (begun s r op args i x) response) r op stOk []) := by
  obtain ⟨l, m, is⟩ := begun_eq s r op args i x
  obtain ⟨y, g, started⟩ := stripStarted_frame (begun s r op args i x) response
  obtain ⟨lth, w, o, held, answered⟩ := respond_lathOnly (stripStarted (begun s r op args i x) response) r op stOk []
  constructor
  · rw [answered, started, is]
  · rw [answered, started, is]

end

/-- Settles O48: the strip challenge and the lockout by their expiry, and each command by its object and what Sealer finds in it. -/
theorem ownerAndStrip : Obligations.OwnerAndStrip := by
  unfold Obligations.OwnerAndStrip
  intro s live
  refine ⟨act_eq_next live rfl, act_eq_next live rfl, fun r i x => ⟨fun nonce h => ?attest, fun off crc h => ?upload, fun h => ?challenge, fun off crc h => ?strip⟩⟩
  case attest => exact ⟨exec_attest h, fun k idk => signIdk_signs ((congrArg Slr.idk (begun_slr ..)).trans idk) _⟩
  case upload =>
    refine ⟨fun long => (exec_ownerUpload h).trans (congrArg _ (h.withObject_long _ long)), fun fits bad => (exec_ownerUpload h).trans (congrArg _ (h.withObject_badCrc _ fits bad)), fun fits good => ?_⟩
    have run := (exec_ownerUpload h).trans (congrArg _ ((h.withObject_good _ fits good).trans (h.storeOffered_eq _)))
    refine ⟨fun claiming owned => run.trans (congrArg _ (if_pos (by rw [claiming, owned]; rfl))), fun fresh => ?_⟩
    have unspent : (x.claiming && s.slr.ownerHash.isSome) = false := by
      rcases fresh with other | free
      · rw [other]
        rfl
      · rw [free]
        exact Bool.and_false _
    rw [unspent, if_neg Bool.false_ne_true] at run
    refine ⟨fun taken => run.trans (congrArg _ (if_pos taken)), fun refused => ?_⟩
    rw [if_neg (ne_true_of_eq_false refused)] at run
    exact ⟨_, run, h.refuseFree_begun⟩
  case challenge =>
    obtain ⟨c, long, run⟩ := exec_stripChallenge h
    exact ⟨_, run, c, long, rfl⟩
  case strip =>
    refine ⟨fun long => (exec_strip h).trans (congrArg _ (h.withObject_long _ long)), fun fits bad => (exec_strip h).trans (congrArg _ (h.withObject_badCrc _ fits bad)), fun fits good bars => ?_, fun fits good stands => ?_⟩
    all_goals have run := (exec_strip h).trans (congrArg _ (h.withObject_good _ fits good))
    · exact ⟨_, run.trans (congrArg _ (if_pos ((tokenBarred_iff ..).2 (mt (begun_tokenStands ..).1 bars)))), h.refuseFree_begun⟩
    · refine ⟨_, run.trans (congrArg _ (if_neg (mt (tokenBarred_iff ..).1 (not_not.2 ((begun_tokenStands ..).2 stands))))), ?_⟩
      obtain ⟨strip, challenge, idk, ktk, gate, err, keys, sessions, engines, hbms⟩ := stripEnd_stripped (begun_stripReady ..)
      exact ⟨strip, challenge, idk, ktk, gate, err, keys, sessions, engines, hbms⟩

end Sys2Proof.Machine

/-! Openings, sessions and the host port, R463, R465, R534 and R537 to R539. -/
namespace Sys2Proof.Machine

/-! ## Openings, R537 and R538 -/

/-- The session slots that are free. -/
def freeSlots (s : State) : List Nat := (List.range 8).filter fun i => (s.session i).isNone

theorem mem_freeSlots {s : State} {k : Nat} : k ∈ freeSlots s ↔ k < 8 ∧ s.session k = none := by
  rw [freeSlots, List.mem_filter, List.mem_range, Option.isNone_iff_eq_none]

/-- The owner store has a password verifier, and it has enrolled the key of an opening. -/
def hasVerifier (s : State) : Bool := match s.slr.store with | some o => o.pw | none => false
def keyEnrolled (s : State) (m : Open1) : Bool := match s.slr.store with | some o => o.sessHash.contains (sha256 m.key) | none => false

theorem openRefusal_eq (s : State) (m : Open1) : openRefusal s m =
    if s.slr.lockout ≠ 0 then some 1 else if (freeSlots s).isEmpty then some 3 else if m.mboxMask &&& ~~~heldMboxes s = 0 then some 2
    else if (m.method = 2 ∧ (!hasVerifier s ∨ m.hcs = 2)) ∨ (m.method = 1 ∧ m.hcs = 2 ∧ !keyEnrolled s m) ∨ (m.method = 1 ∧ s.slr.strip ≠ 0) then some 4 else none := rfl

section
variable {s : State} {m : Open1}

theorem openRefusal_locked (locked : s.slr.lockout ≠ 0) : openRefusal s m = some 1 := if_pos locked

theorem openRefusal_full (unlocked : s.slr.lockout = 0) (full : freeSlots s = []) : openRefusal s m = some 3 :=
  (if_neg (not_not.2 unlocked)).trans (if_pos (by rw [← freeSlots, full]; rfl))

theorem openRefusal_noMbox (unlocked : s.slr.lockout = 0) (free : freeSlots s ≠ []) (none : m.mboxMask &&& ~~~heldMboxes s = 0) : openRefusal s m = some 2 :=
  (if_neg (not_not.2 unlocked)).trans ((if_neg (mt List.isEmpty_iff.1 free)).trans (if_pos none))

/-- What stands when an opening is not refused. -/
theorem openRefusal_none (passes : openRefusal s m = none) : s.slr.lockout = 0 ∧ freeSlots s ≠ [] ∧ m.mboxMask &&& ~~~heldMboxes s ≠ 0
    ∧ (m.method = 1 → s.slr.strip = 0) ∧ (m.hcs = 2 → m.method ≠ 2) := by
  rw [openRefusal_eq] at passes
  split at passes
  · exact nomatch passes
  next unlocked =>
  split at passes
  · exact nomatch passes
  next free =>
  split at passes
  · exact nomatch passes
  next mboxes =>
  split at passes
  · exact nomatch passes
  next method =>
  exact ⟨not_not.1 unlocked, mt List.isEmpty_iff.2 free, mboxes, fun one => not_not.1 fun strip => method (.inr (.inr ⟨one, strip⟩)), fun two pw => method (.inl ⟨pw, .inr two⟩)⟩

end

section
variable (s : State) (m : Open1)

/-- The slot that an opening takes: the lowest that is free. -/
def openSlot : Nat := ((List.range 8).find? fun i => (s.session i).isNone).getD 0

theorem openSlot_free {s : State} (free : freeSlots s ≠ []) : openSlot s < 8 ∧ s.session (openSlot s) = none := by
  obtain ⟨k, mem⟩ := List.exists_mem_of_ne_nil _ free
  obtain ⟨small, vacant⟩ := mem_freeSlots.1 mem
  unfold openSlot
  cases found : (List.range 8).find? fun i => (s.session i).isNone with
  | none => exact absurd (Option.isNone_iff_eq_none.2 vacant) (List.find?_eq_none.1 found k (List.mem_range.2 small))
  | some i => exact ⟨List.mem_range.1 (List.mem_of_find?_eq_some found), Option.isNone_iff_eq_none.1 (List.find?_some found :)⟩

/-- The session of an opening that draws a nonce. -/
def opening : Session :=
  { num := nextNum s 65536 (s.hwk.lastNum + 1), hcs := m.hcs, method := m.method, mask := m.mboxMask &&& ~~~heldMboxes s, hostNonce := padTo 0 32 m.hostNonce, devNonce := (draw s 32).1, hostKey := m.key }

/-- OPEN2, R537. -/
def open2 : List Byte :=
  [2, m.hcs] ++ beBytes 2 (opening s m).num.toNat ++ beBytes 2 (opening s m).mask.toNat ++ [0, 0] ++ padTo 0 32 m.hostNonce ++ (opening s m).devNonce

/-- The device once an opening has its slot. -/
def opened : State :=
  emit (State.setSession { (draw s 32).2 with hwk := { s.hwk with lastNum := (opening s m).num } } (openSlot s) (some (opening s m))) (.host (open2 s m))

theorem opened_session : (opened s m).session (openSlot s) = some (opening s m) := State.setSession_session ..
theorem opened_session_ne {j : Nat} (other : j ≠ openSlot s) : (opened s m).session j = s.session j := State.setSession_session_ne _ _ _ _ other

/-- A datagram whose HCS and METHOD are those of an opening. -/
def IsOpening : Prop := (m.hcs = 2 ∨ m.hcs = 3) ∧ (m.method = 1 ∨ m.method = 2)

theorem isOpening_iff : ¬((m.hcs ≠ 2 ∧ m.hcs ≠ 3) ∨ (m.method ≠ 1 ∧ m.method ≠ 2)) ↔ IsOpening m := by
  simp only [not_or, not_and_or, not_not, IsOpening]

end

section
variable {s : State} {m : Open1}

theorem open1_other (runs : s.hwk.running = true) (other : (m.hcs ≠ 2 ∧ m.hcs ≠ 3) ∨ (m.method ≠ 1 ∧ m.method ≠ 2)) : open1 s m = dropDatagram s := by
  unfold open1
  rw [runs]
  exact if_pos other

theorem open1_opening (runs : s.hwk.running = true) (is : IsOpening m) : open1 s m = match openRefusal s m with | some st => open4 s m.hcs 0 st [] | none => opened s m := by
  unfold open1
  rw [runs]
  exact if_neg ((isOpening_iff m).2 is)

end

/-! ## OPEN3, R463 and R465 -/

theorem opening_awaits {x : Session} {hcs : BitVec 8} (opening_ : x.isOpen = false) (same : x.hcs = hcs) : ¬(x.isOpen = true ∨ x.hcs ≠ hcs) :=
  not_or.2 ⟨ne_true_of_eq_false opening_, not_not.2 same⟩

section
variable {s : State} {num : BitVec 16} {hcs : BitVec 8} {proof : List Byte} (runs : s.hwk.running = true)
include runs

theorem open3_unknown (slot : sessionSlot s num = none) : open3 s num hcs proof = dropDatagram s := by
  unfold open3
  rw [runs, slot]
  rfl

variable {k : Nat} {x : Session} (slot : sessionSlot s num = some k) (held : s.session k = some x)
include slot held

theorem open3_known : open3 s num hcs proof =
    if x.isOpen ∨ x.hcs ≠ hcs then dropDatagram s
    else if s.slr.lockout ≠ 0 then open4 (closeSession s k true) hcs num 1 []
    else if !proofOk s x proof then open4 (openFailed (closeSession s k true)) hcs num 4 []
    else
      let t := (openKeys s x).2.2.setSession k
        (some { x with isOpen := true, level := if x.method = 1 then 2 else 1, sk := (openKeys s x).1, claiming := decide (x.method = 1) && !s.slr.store.isSome })
      open4 { t with slr := { t.slr with fails := 0 } } hcs num 0 (openKeys s x).2.1 := by
  unfold open3
  rw [runs, slot]
  dsimp only
  rw [held]
  rfl

theorem open3_other (other : x.isOpen = true ∨ x.hcs ≠ hcs) : open3 s num hcs proof = dropDatagram s := (open3_known runs slot held).trans (if_pos other)

variable (opening_ : x.isOpen = false) (same : x.hcs = hcs)
include opening_ same

theorem open3_locked (locked : s.slr.lockout ≠ 0) : open3 s num hcs proof = open4 (closeSession s k true) hcs num 1 [] :=
  (open3_known runs slot held).trans ((if_neg (opening_awaits opening_ same)).trans (if_pos locked))

variable (unlocked : s.slr.lockout = 0)
include unlocked

theorem open3_badProof (bad : proofOk s x proof = false) : open3 s num hcs proof = open4 (openFailed (closeSession s k true)) hcs num 4 [] :=
  (open3_known runs slot held).trans ((if_neg (opening_awaits opening_ same)).trans ((if_neg (not_not.2 unlocked)).trans (if_pos (by rw [bad]; rfl))))

theorem open3_goodProof (good : proofOk s x proof = true) : open3 s num hcs proof =
    let t := (openKeys s x).2.2.setSession k
      (some { x with isOpen := true, level := if x.method = 1 then 2 else 1, sk := (openKeys s x).1, claiming := decide (x.method = 1) && !s.slr.store.isSome })
    open4 { t with slr := { t.slr with fails := 0 } } hcs num 0 (openKeys s x).2.1 :=
  (open3_known runs slot held).trans ((if_neg (opening_awaits opening_ same)).trans ((if_neg (not_not.2 unlocked)).trans (if_neg (by rw [good]; exact Bool.false_ne_true))))

end

theorem openKeys_frame (s : State) (x : Session) : ∃ f, (openKeys s x).2.2 = { s with fresh := f } := by
  unfold openKeys
  dsimp only
  split
  · obtain ⟨f, is⟩ := signIdk_frame (draw (draw s 32).2 32).2 (transcriptHash x ++ sha256 (oaepSeal x.hostKey labelSession (draw s 32).1 (draw (draw s 32).2 32).1))
    exact ⟨f, is⟩
  · exact ⟨s.fresh, rfl⟩

theorem openKeys_key (s : State) {x : Session} (byKey : x.method = 1) : (openKeys s x).1.length = 32 := by
  unfold openKeys
  dsimp only
  rw [if_pos byKey]
  exact padTo_length ..

theorem openKeys_password (s : State) {x : Session} (byPassword : x.method = 2) : (openKeys s x).1 = hmac ((passwordVerifier s).getD []) (labelSession ++ transcriptHash x) := by
  unfold openKeys
  dsimp only
  rw [if_neg (by rw [byPassword]; decide)]

/-- What an opening leaves that its proof has opened. -/
theorem proven_leaves (s : State) (k : Nat) (x y : Session) (hcs : BitVec 8) (num : BitVec 16) (body : List Byte) :
    let t := (openKeys s x).2.2.setSession k (some y)
    (open4 { t with slr := { t.slr with fails := 0 } } hcs num 0 body).session k = some y ∧ (open4 { t with slr := { t.slr with fails := 0 } } hcs num 0 body).slr = { s.slr with fails := 0 } := by
  obtain ⟨f, is⟩ := openKeys_frame s x
  rw [is]
  exact ⟨State.setSession_session .., rfl⟩

theorem proofOk_key {s : State} {x : Session} {proof : List Byte} (byKey : x.method = 1) : proofOk s x proof = true ↔
    proof.length = 384 ∧ signatureOk x.hostKey (sha256 (transcriptHash x)) proof = true ∧ (∀ o, s.slr.store = some o → o.sessHash.contains (sha256 x.hostKey) = true)
      ∧ s.slr.strip = 0 ∧ s.slr.idk.isSome = true := by
  unfold proofOk
  dsimp only
  rw [if_pos byKey]
  simp only [Bool.and_eq_true, decide_eq_true_eq, and_assoc]
  cases s.slr.store with
  | none => simp
  | some o => simp

theorem proofOk_password {s : State} {x : Session} {proof : List Byte} (byPassword : x.method ≠ 1) : proofOk s x proof = true ↔
    ∃ v, passwordVerifier s = some v ∧ proof = hmac v (labelProof ++ transcriptHash x) := by
  unfold proofOk
  dsimp only
  rw [if_neg byPassword]
  cases passwordVerifier s with
  | none => exact ⟨fun bad => absurd bad Bool.false_ne_true, fun ⟨v, is, _⟩ => nomatch is⟩
  | some v => exact ⟨fun good => ⟨v, rfl, of_decide_eq_true good⟩, fun ⟨w, is, good⟩ => decide_eq_true (Option.some.inj is ▸ good)⟩

/-! ## Failed openings, R465 -/

/-- The count of failed openings after one more. -/
def failsNext (n : BitVec 16) : BitVec 16 := if n = 0xFFFF then n else n + 1

theorem failsNext_toNat {n : BitVec 16} (h : n ≠ 0xFFFF) : (failsNext n).toNat = n.toNat + 1 := by
  rw [failsNext, if_neg h]
  bv_omega

/-- Seconds of the lockout that a count of failed openings brings. -/
def lockoutSec (n : Nat) : Nat := min 3600 (60 * 2 ^ (min 6 (n - 5)))

theorem openFailed_few {s : State} (few : (failsNext s.slr.fails).toNat < 5) :
    openFailed s = { s with slr := { s.slr with sessFail := bump s.slr.sessFail 1, fails := failsNext s.slr.fails, err := setErr s.slr.err 3 } } := if_pos few

theorem openFailed_many {s : State} (many : ¬(failsNext s.slr.fails).toNat < 5) : ∃ g, openFailed s = { s with sng := g, slr := { s.slr with
    sessFail := bump s.slr.sessFail 1, fails := failsNext s.slr.fails, err := setErr (setErr s.slr.err 3) 5, lockout := BitVec.ofNat 16 (lockoutSec (failsNext s.slr.fails).toNat) } } := by
  obtain ⟨g, is⟩ := journal_ledgerOnly { s with slr := { s.slr with
    sessFail := bump s.slr.sessFail 1, fails := failsNext s.slr.fails, err := setErr (setErr s.slr.err 3) 5, lockout := BitVec.ofNat 16 (lockoutSec (failsNext s.slr.fails).toNat) } }
    0x14 deviceId (leBytes 4 (lockoutSec (failsNext s.slr.fails).toNat))
  exact ⟨g, (if_neg many).trans is⟩

theorem openFailed_slr (s : State) : (openFailed s).slr.sessFail = bump s.slr.sessFail 1 ∧ (openFailed s).slr.fails = failsNext s.slr.fails ∧ (openFailed s).slr.err.getLsbD 3 = true := by
  have failed : (setErr s.slr.err 3).getLsbD 3 = true := (setErr_getLsbD _ 3 3 (by decide)).trans (Bool.or_true _)
  by_cases few : (failsNext s.slr.fails).toNat < 5
  · rw [openFailed_few few]
    exact ⟨rfl, rfl, failed⟩
  · obtain ⟨g, is⟩ := openFailed_many few
    rw [is]
    exact ⟨rfl, rfl, setErr_keeps failed 5⟩

theorem openFailed_lockout {s : State} (n : Nat) (count : (failsNext s.slr.fails).toNat = n) (five : 5 ≤ n) :
    (openFailed s).slr.lockout = BitVec.ofNat 16 (lockoutSec n) ∧ (openFailed s).slr.err.getLsbD 5 = true := by
  obtain ⟨g, is⟩ := openFailed_many (s := s) (by omega)
  rw [is, count]
  exact ⟨rfl, (setErr_getLsbD _ 5 5 (by decide)).trans (Bool.or_true _)⟩

/-! ## The end of an opening, R539 -/

theorem releaseStages_stages (s : State) (num : BitVec 16) : (releaseStages s num).hwk.stage1 ≠ some num ∧ (releaseStages s num).hwk.stage2 ≠ some num := by
  have released (a : Option (BitVec 16)) : (if a = some num then none else a) ≠ some num := by
    split
    · exact nofun
    · assumption
  exact ⟨released _, released _⟩

theorem freeMboxes_mbox (s : State) {mask : BitVec 16} {m : Nat} (small : m < 16) (held : mask.getLsbD m = true) : (freeMboxes s mask).mbox m = {} := by
  refine (foldl_range_get (get := State.mbox) (f := fun s m => if mask.getLsbD m then s.setMbox m {} else s) (g := fun m x => if mask.getLsbD m then {} else x)
    (fun s k => ?_) (fun s k j other => ?_) s 16 m).trans ((if_pos small).trans (if_pos held))
  · split
    · exact State.setMbox_mbox ..
    · rfl
  · split
    · exact State.setMbox_mbox_ne _ _ _ _ other
    · rfl

theorem freeMboxes_lth (s : State) (mask : BitVec 16) : (freeMboxes s mask).lth = s.lth := foldl_keeps State.lth (fun s m => by split <;> rfl) _ s

theorem closeSession_opening {s : State} {k : Nat} {x : Session} {byClose : Bool} (held : s.session k = some x) (opening_ : x.isOpen = false) :
    closeSession s k byClose = slotFreed s k x := by
  rw [closeSession_some held, opening_]
  exact if_neg Bool.false_ne_true

/-! ## OPEN_LAPSE and SESSION_IDLE_TIMEOUT, R538 and R539 -/

theorem lapses_unknown {s : State} {num : BitVec 16} (slot : sessionSlot s num = none) : openLapse s num = s ∧ sessionIdle s num = s := by
  unfold openLapse sessionIdle
  rw [slot]
  exact ⟨rfl, rfl⟩

theorem lapses_known {s : State} {num : BitVec 16} {k : Nat} {x : Session} (slot : sessionSlot s num = some k) (held : s.session k = some x) :
    openLapse s num = (if x.isOpen then s else closeSession s k true) ∧ sessionIdle s num = (if x.isOpen then closeSession s k false else s) := by
  unfold openLapse sessionIdle
  rw [slot]
  dsimp only
  rw [held]
  exact ⟨rfl, rfl⟩

/-! ## The host port, R534 and R565 -/

theorem neighborDiscovery_runs {s : State} (runs : s.hwk.running = true) (m : NdMsg) : neighborDiscovery s m = match m with
    | .solicit target src => if ownAddress s target then emit s (.neighborAdvert target src Config.macAddress) else dropDatagram s
    | .echo src data => emit s (.echoReply src data)
    | .other => dropDatagram s := by
  unfold neighborDiscovery
  rw [runs]
  cases m <;> rfl

theorem hostLink_lost (s : State) : (hostLink s true).hwk.linkUp = false ∧ ((hostLink s true).part 0x7000).defect = bump (s.part 0x7000).defect 1 :=
  ⟨rfl, countDefect_part { s with hwk := { s.hwk with linkUp := false } } (partId 7 0)⟩

theorem hostLink_trained (s : State) : (hostLink s false).hwk.linkUp = true ∧ ((hostLink s false).part 0x7000).retrain = bump (s.part 0x7000).retrain 1 :=
  ⟨rfl, congrArg Summary.retrain (State.setPart_part ..)⟩

/-- Settles O52: an opening by its refusals in their order, OPEN3 by the state of its session, the proof by its method, and the end of a session by whether it was open. -/
theorem sessions : Obligations.Sessions := by
  unfold Obligations.Sessions
  intro s live
  have answers {c : Instr} {t u : State} (run : exec c s = act s t) (h : t = u) : exec c s = .next u := run.trans (act_eq_next live h)
  refine ⟨fun halted m num hcs proof => ⟨answers rfl (if_pos (by rw [halted]; rfl)), answers rfl (if_pos (by rw [halted]; rfl))⟩, fun runs m => ⟨fun other => answers rfl (open1_other runs other), fun hcs method => ⟨fun st refused => ?refused, fun passes => ?opens⟩⟩,
    fun m => ⟨openRefusal_locked, fun unlocked full => openRefusal_full unlocked ?full, fun unlocked free vacant => openRefusal_noMbox unlocked ?mboxes vacant, fun passes => ?stands⟩,
    fun runs num hcs proof => ⟨fun slot => answers rfl (open3_unknown runs slot), fun k x slot held => ?proof⟩, fun x proof => ⟨proofOk_key, proofOk_password⟩, ?failed,
    fun num slot => ⟨answers rfl (lapses_unknown slot).1, answers rfl (lapses_unknown slot).2⟩, fun num k x slot held => ?lapses, fun k x byClose held opening_ => ?closed,
    fun m halted => answers rfl (if_pos (by rw [halted]; rfl)), fun target src runs => answers rfl (neighborDiscovery_runs runs _), fun src data runs => answers rfl (neighborDiscovery_runs runs _),
    fun runs => answers rfl (neighborDiscovery_runs runs _), fun lost => ?link⟩
  case refused =>
    refine answers rfl ((open1_opening runs ⟨hcs, method⟩).trans ?_)
    rw [refused]
  case full => exact List.eq_nil_iff_forall_not_mem.2 fun k mem => full k (mem_freeSlots.1 mem).1 (mem_freeSlots.1 mem).2
  case mboxes =>
    obtain ⟨k, vacantSlot⟩ := free
    exact List.ne_nil_of_mem (mem_freeSlots.2 vacantSlot)
  case stands =>
    obtain ⟨unlocked, -, -, strip, method⟩ := openRefusal_none passes
    exact ⟨unlocked, strip, method⟩
  case opens =>
    obtain ⟨-, free, mask, -, -⟩ := openRefusal_none passes
    obtain ⟨small, vacant⟩ := openSlot_free free
    have run := open1_opening runs ⟨hcs, method⟩
    rw [passes] at run
    exact .of_act live (congrArg (act s) run) ⟨openSlot s, opening s m, small, vacant, opened_session s m, rfl, rfl, rfl, rfl, mask, rfl, rfl, rfl, padTo_length .., fun j => opened_session_ne s m, rfl⟩
  case proof =>
    refine ⟨fun other => answers rfl (open3_other runs slot held other), fun opening_ same locked => answers rfl (open3_locked runs slot held opening_ same locked),
      fun opening_ same unlocked bad => answers rfl (open3_badProof runs slot held opening_ same unlocked bad), fun opening_ same unlocked good byPassword => ?_, fun opening_ same unlocked good byKey => ?_⟩
    all_goals refine .of_act live (congrArg (act s) (open3_goodProof runs slot held opening_ same unlocked good)) ?_
    · obtain ⟨session, slr⟩ := proven_leaves s k x { x with isOpen := true, level := if x.method = 1 then 2 else 1, sk := (openKeys s x).1, claiming := decide (x.method = 1) && !s.slr.store.isSome } hcs num (openKeys s x).2.1
      have other : x.method ≠ 1 := by
        rw [byPassword]
        decide
      refine ⟨session.trans ?_, slr⟩
      rw [openKeys_password s byPassword, if_neg other, decide_eq_false other, Bool.false_and]
    · obtain ⟨session, slr⟩ := proven_leaves s k x { x with isOpen := true, level := if x.method = 1 then 2 else 1, sk := (openKeys s x).1, claiming := decide (x.method = 1) && !s.slr.store.isSome } hcs num (openKeys s x).2.1
      refine ⟨(openKeys s x).1, openKeys_key s byKey, session.trans ?_, slr⟩
      rw [if_pos byKey, decide_eq_true byKey, Bool.true_and, Option.not_isSome]
  case failed =>
    obtain ⟨count, fails, flag⟩ := openFailed_slr s
    refine ⟨count, fun top => fails.trans (if_neg top), flag, fun few => ?_, fun four => ?_, fun five => ?_, fun many => ?_⟩
    · have below : (failsNext s.slr.fails).toNat < 5 := by
        rw [failsNext_toNat (by intro top; rw [top] at few; exact absurd few (by decide))]
        omega
      rw [openFailed_few below]
    · exact openFailed_lockout 5 (by rw [four]; rfl) (by decide)
    · exact (openFailed_lockout 6 (by rw [five]; rfl) (by decide)).1
    · have large : 11 ≤ (failsNext s.slr.fails).toNat := by
        by_cases top : s.slr.fails = 0xFFFF
        · rw [failsNext, if_pos top]
          exact many
        · rw [failsNext_toNat top]
          omega
      refine (openFailed_lockout _ rfl (by omega)).1.trans (congrArg (BitVec.ofNat 16) ?_)
      rw [lockoutSec, Nat.min_eq_left (show 6 ≤ _ by omega)]
      rfl
  case lapses =>
    obtain ⟨lapse, idle⟩ := lapses_known slot held
    refine ⟨fun opening_ => ⟨answers rfl (lapse.trans (if_neg ?_)), answers rfl (idle.trans (if_neg ?_))⟩, fun open_ => ⟨answers rfl (lapse.trans (if_pos open_)), answers rfl (idle.trans (if_pos open_))⟩⟩
    · exact ne_true_of_eq_false opening_
    · exact ne_true_of_eq_false opening_
  case closed =>
    rw [closeSession_opening held opening_]
    refine ⟨slotFreed_session s k x, fun j other => slotFreed_session_ne s x other, fun m small has => freeMboxes_mbox _ small has, (releaseStages_stages ..).1, (releaseStages_stages ..).2, freeMboxes_lth ..⟩
  case link =>
    refine .of_act live rfl ?_
    cases lost with
    | true => exact ⟨(hostLink_lost s).1, fun _ => (hostLink_lost s).2, nofun⟩
    | false => exact ⟨(hostLink_trained s).1, nofun, fun _ => (hostLink_trained s).2⟩

end Sys2Proof.Machine

/-! What the work on a photonic engine's colours, rings and spares reaches: no SAFETY state, no flag of the ledger that stands, and nothing of the other blocks but what answers and readiness need. -/
namespace Sys2Proof.Machine

/-! ## The ledger keeps what it has found, R564 and R569 -/

/-- A part that is DAMAGED stays so, and so does a flag of the ledger. -/
structure FaultsKept (s t : State) : Prop where
  damaged : ∀ p, (s.part p).damaged = true → (t.part p).damaged = true
  err : ∀ k, s.sng.err.getLsbD k = true → t.sng.err.getLsbD k = true

namespace FaultsKept

variable {s t u : State}

theorem refl (s : State) : FaultsKept s s := ⟨fun _ h => h, fun _ h => h⟩
theorem trans (h : FaultsKept s t) (h' : FaultsKept t u) : FaultsKept s u := ⟨fun p d => h'.damaged p (h.damaged p d), fun k e => h'.err k (h.err k e)⟩
theorem of_sng (same : t.sng = s.sng) : FaultsKept s t := ⟨fun p d => by rw [State.part, same]; exact d, fun k e => by rw [same]; exact e⟩

end FaultsKept

/-- The second state differs from the first in the ledger alone, and the ledger keeps what it has found. -/
structure LedgerWork (s t : State) : Prop where
  only : LedgerOnly s t
  faults : FaultsKept s t

namespace LedgerWork

variable {s t u : State}

theorem refl (s : State) : LedgerWork s s := ⟨.refl s, .refl s⟩
theorem trans (h : LedgerWork s t) (h' : LedgerWork t u) : LedgerWork s u := ⟨h.only.trans h'.only, h.faults.trans h'.faults⟩

end LedgerWork

section
variable (s : State) (part : BitVec 16)

theorem setPart_ledgerWork {p : Nat} {x : Summary} (same : x.damaged = (s.part p).damaged) : LedgerWork s (s.setPart p x) := by
  refine ⟨setPart_ledgerOnly .., fun q d => ?_, fun _ e => e⟩
  by_cases here : q = p
  · rw [here] at d ⊢
    rw [State.setPart_part, same]
    exact d
  · rw [State.setPart_part_ne _ _ _ _ here]
    exact d

theorem setPart_damaged_ledgerWork (p : Nat) {x : Summary} (damaged : x.damaged = true) : LedgerWork s (s.setPart p x) := by
  refine ⟨setPart_ledgerOnly .., fun q d => ?_, fun _ e => e⟩
  by_cases here : q = p
  · rw [here, State.setPart_part]
    exact damaged
  · rw [State.setPart_part_ne _ _ _ _ here]
    exact d

theorem sngErr_ledgerWork (i : Nat) : LedgerWork s (sngErr s i) := ⟨⟨_, rfl⟩, fun _ d => d, fun _ e => setErr_keeps e i⟩

theorem journal_ledgerWork (type : Nat) (body : List Byte) : LedgerWork s (journal s type part body) := by
  unfold journal
  dsimp only
  split
  · exact ⟨⟨_, rfl⟩, fun _ d => d, fun _ e => e⟩
  · exact .trans (t := { s with sng := { s.sng with seq := s.sng.seq + 1, pend := _ } }) ⟨⟨_, rfl⟩, fun _ d => d, fun _ e => e⟩ (setPart_ledgerWork _ rfl)

theorem setPartSt_ledgerWork (st : Nat) : LedgerWork s (setPartSt s part st) := by
  unfold setPartSt
  dsimp only
  split
  · exact .refl s
  · exact setPart_ledgerWork s rfl

theorem stateHard_ledgerWork (cause st : Nat) : LedgerWork s (stateHard s part cause st) := by
  by_cases same : (s.part part.toNat).st.toNat = st
  · rw [stateHard_same same]
    exact .refl s
  · rw [stateHard_changes same]
    refine .trans ?_ (journal_ledgerWork ..)
    refine .trans (t := (setPartSt s part st).setPart part.toNat (((setPartSt s part st).part part.toNat).hardCause cause st)) ?_ ⟨State.hardCounted_ledgerOnly _, fun _ d => d, fun _ e => setErr_keeps e 1⟩
    exact (setPartSt_ledgerWork s part st).trans (setPart_ledgerWork _ rfl)

theorem stateMended_ledgerWork (cause : Nat) : LedgerWork s (stateMended s part cause) := by
  unfold stateMended
  split
  · exact stateHard_ledgerWork ..
  · exact .refl s

theorem countDefect_ledgerWork : LedgerWork s (countDefect s part) := setPart_ledgerWork s rfl
theorem partRetry_ledgerWork (n : Nat) : LedgerWork s (partRetry s part n) := setPart_ledgerWork s rfl
theorem partRetrain_ledgerWork (n : Nat) : LedgerWork s (partRetrain s part n) := setPart_ledgerWork s rfl
theorem partMargin_ledgerWork (m : Int) : LedgerWork s (partMargin s part m) := setPart_ledgerWork s rfl

theorem softRetired_ledgerWork (seq : BitVec 64) (actor : Nat) : LedgerWork s (softRetired s part seq actor) := by
  refine .trans ((setPartSt_ledgerWork s part 2).trans ?_) (journal_ledgerWork ..)
  exact ⟨⟨_, rfl⟩, fun _ d => d, fun _ e => e⟩

end

/-! ## Work on a photonic engine -/

/-- A state without what work on a photonic engine reaches. -/
def State.besideNear (s : State) : State :=
  { s with sng := {}, sch := {}, out := [], phn := { s.phn with engines := [], held := [], owed := [] }, hwk := { s.hwk with sessions := [], mboxes := [], refusedCount := 0 }, top := { s.top with near := 0, drop := 0 } }

/-- The second state differs from the first in what work on a photonic engine reaches; no engine's SAFETY has changed, and the ledger keeps what it has found. -/
structure NearWork (s t : State) : Prop where
  beside : t.besideNear = s.besideNear
  faults : FaultsKept s t
  safety : ∀ n, (t.phe n).safety = (s.phe n).safety

namespace NearWork

variable {s t u : State}

theorem refl (s : State) : NearWork s s := ⟨rfl, .refl s, fun _ => rfl⟩
theorem trans (h : NearWork s t) (h' : NearWork t u) : NearWork s u := ⟨h'.beside.trans h.beside, h.faults.trans h'.faults, fun n => (h'.safety n).trans (h.safety n)⟩

theorem foldl {ι : Type} {f : State → ι → State} (h : ∀ s i, NearWork s (f s i)) (l : List ι) (s : State) : NearWork s (l.foldl f s) :=
  List.foldlRecOn (motive := NearWork s) l f (refl s) fun t ht i _ => ht.trans (h t i)

theorem ite {c : Prop} [Decidable c] (h : c → NearWork s t) : NearWork s (if c then t else s) := by
  split
  next is => exact h is
  · exact refl s

theorem either {c : Prop} [Decidable c] (h : NearWork s t) (h' : NearWork s u) : NearWork s (if c then t else u) := by
  split
  · exact h
  · exact h'

/-- Readings of the parts that work on a photonic engine leaves alone. -/
theorem slr (h : NearWork s t) : t.slr = s.slr := (congrArg State.slr h.beside :)
theorem interlock (h : NearWork s t) : t.phn.interlock = s.phn.interlock := (congrArg (fun s : State => s.phn.interlock) h.beside :)
theorem ready (h : NearWork s t) : t.top.ready = s.top.ready := (congrArg (fun s : State => s.top.ready) h.beside :)
theorem asig (h : NearWork s t) : t.top.asig = s.top.asig := (congrArg (fun s : State => s.top.asig) h.beside :)
theorem runs (h : NearWork s t) : t.hwk.running = s.hwk.running := (congrArg (fun s : State => s.hwk.running) h.beside :)
theorem plb (h : NearWork s t) : t.plb = s.plb := (congrArg State.plb h.beside :)

end NearWork

theorem LedgerWork.near {s t : State} (h : LedgerWork s t) : NearWork s t := by
  obtain ⟨⟨g, rfl⟩, faults⟩ := h
  exact ⟨rfl, faults, fun _ => rfl⟩

section
variable (s : State) (n c : Nat)

theorem setPhe_near {x : PEng} (same : x.safety = (s.phe n).safety) : NearWork s (s.setPhe n x) := by
  refine ⟨rfl, .of_sng rfl, fun m => ?_⟩
  by_cases here : m = n
  · rw [here, State.setPhe_phe, same]
  · rw [State.setPhe_phe_ne _ _ _ _ here]

theorem setCol_near (y : Colour) : NearWork s (s.setCol n c y) := setPhe_near s n rfl
theorem setSpare_near (y : Spare) : NearWork s (s.setSpare n c y) := setPhe_near s n rfl
theorem setTx_near (r : Ring) : NearWork s (setTx s n c r) := setCol_near ..
theorem setRx_near (r : Ring) : NearWork s (setRx s n c r) := setCol_near ..
theorem rxReset_near : NearWork s (rxReset s n c) := setCol_near ..
theorem phnErr_near (i : Nat) (rx : Bool) : NearWork s (phnErr s n i c rx) := setPhe_near s n rfl
theorem nearSettle_near : NearWork s (nearSettle s n) := ⟨rfl, .of_sng rfl, fun _ => rfl⟩

theorem dropCredits_near : NearWork s (dropCredits s n c) := by
  refine .trans ?_ (setCol_near ..)
  exact ⟨rfl, .of_sng rfl, fun _ => rfl⟩

theorem releaseQueue_near (q : Nat) : NearWork s (releaseQueue s q) := by
  unfold releaseQueue
  dsimp only
  split
  · exact .refl s
  · exact ⟨rfl, .of_sng rfl, fun _ => rfl⟩

theorem releaseNear_near : NearWork s (releaseNear s n) := .foldl releaseQueue_near _ s

theorem PEng.foldl_safety {ι : Type} {f : PEng → ι → PEng} (h : ∀ x i, (f x i).safety = x.safety) (l : List ι) (x : PEng) : (l.foldl f x).safety = x.safety := foldl_keeps PEng.safety h l x

theorem txEnterVerify_near : NearWork s (txEnterVerify s n c) := by
  unfold txEnterVerify
  dsimp only
  refine .ite fun _ => .trans (setPhe_near s n ?_) (setTx_near ..)
  refine PEng.foldl_safety (fun x d => ?_) _ _
  split <;> rfl

theorem txLeave_near (r : Ring) : NearWork s (txLeave s n c r) := ((dropCredits_near s n c).trans (partRetrain_ledgerWork ..).near).trans (setTx_near ..)
theorem rxLeave_near (r : Ring) : NearWork s (rxLeave s n c r) := (((dropCredits_near s n c).trans (partRetrain_ledgerWork ..).near).trans (setRx_near ..)).trans (rxReset_near ..)

theorem ringFailed_near (rx : Bool) : NearWork s (ringFailed s n c rx) := by
  have noted (p : BitVec 16) (t : State) (h : NearWork s t) : NearWork s (stateHard (journal t 0x01 p [BitVec.ofNat 8 (0x10 + pbRingFailed), 1]) p 3 4) :=
    (h.trans (journal_ledgerWork ..).near).trans (stateHard_ledgerWork ..).near
  have failed := phnErr_near s n c pbRingFailed rx
  unfold ringFailed
  cases rx with
  | true => exact noted _ _ failed
  | false => exact (noted _ _ (failed.trans (countDefect_ledgerWork ..).near)).trans (releaseNear_near ..)

/-- The ring of a colour that receives or transmits takes a setting. -/
theorem setRing_near (rx : Bool) (r r' : Ring) : NearWork s (if rx then setRx s n c r else setTx s n c r') := .either (setRx_near ..) (setTx_near ..)

theorem failAttempt_near (rx : Bool) : NearWork s (failAttempt s n c rx) := by
  unfold failAttempt
  dsimp only
  refine .trans ?_ (.either (ringFailed_near ..) (partRetrain_ledgerWork ..).near)
  refine .trans ?_ (.either (.refl _) (partRetry_ledgerWork ..).near)
  refine .trans ?_ (phnErr_near ..)
  refine .trans ?_ (.either (.trans (setRx_near ..) (rxReset_near ..)) (setTx_near ..))
  refine .trans ?_ (.either (dropCredits_near ..) (.refl _))
  exact setPhe_near s n rfl

theorem ringPass_near (rx : Bool) : NearWork s (ringPass s n c rx) := by
  unfold ringPass
  dsimp only
  refine .trans ?_ (.either (txEnterVerify_near ..) (.refl _))
  refine .trans ?_ (.either (.trans (stateMended_ledgerWork ..).near (journal_ledgerWork ..).near) (.refl _))
  exact setRing_near ..

theorem startMake_near (urgent : Bool) (fm : Option (MboxRec × BitVec 64)) : NearWork s (startMake s n c urgent fm) := setSpare_near ..
theorem startMove_near : NearWork s (startMove s n c) := setCol_near ..
theorem afterMove_near (st : RingSt) : NearWork s (afterMove s n c st) := setTx_near ..

theorem autoSwaps_near : NearWork s (autoSwaps s n) := by
  unfold autoSwaps
  refine .ite fun _ => .foldl (fun s o => ?_) _ s
  refine .ite fun _ => ?_
  split
  · exact startMake_near ..
  · exact .refl s

theorem colourRetired_near : NearWork s (colourRetired s n c) := by
  refine .trans ?_ (nearSettle_near ..)
  refine .trans ?_ (releaseNear_near ..)
  refine .trans ?_ (phnErr_near ..)
  refine .trans ?_ (setTx_near ..)
  exact dropCredits_near ..

end

/-! ## Answers to the fault manager, R494, R581 and R582 -/

theorem sendRecord_near (s : State) (num : BitVec 16) (rec_ : List Byte) : NearWork s (sendRecord s num rec_) := by
  unfold sendRecord
  split
  · exact .refl s
  · split
    · exact .refl s
    · exact .ite fun _ => ⟨rfl, .of_sng rfl, fun _ => rfl⟩

theorem respond_near (s : State) (r : MboxRec) (op : BitVec 16) (status : Byte) (result : List Byte) : NearWork s (respond s r op status result) := by
  have counted : NearWork s (countRefusal s status) := by
    rw [countRefusal_eq]
    exact ⟨rfl, .of_sng rfl, fun _ => rfl⟩
  refine counted.trans (.ite fun _ => ?_)
  refine .trans ?_ (sendRecord_near ..)
  exact ⟨rfl, .of_sng rfl, fun _ => rfl⟩

theorem fmOk_near (s : State) (r : MboxRec) (part : BitVec 16) : NearWork s (fmOk s r part) := respond_near ..

theorem fmRefuse_near (s : State) (r : MboxRec) (code : Nat) : NearWork s (fmRefuse s r code) := by
  refine .trans ?_ (respond_near ..)
  exact ⟨rfl, ⟨fun _ d => d, fun _ e => e⟩, fun _ => rfl⟩

section
variable (s : State) (n c : Nat)

theorem spareAnswer_near {f : State → MboxRec → State} (h : ∀ s r, NearWork s (f s r)) : NearWork s (spareAnswer s n c f) := by
  unfold spareAnswer
  dsimp only
  split
  · exact .refl s
  · exact (setSpare_near ..).trans (h ..)

theorem spareFailed_near : NearWork s (spareFailed s n c) := by
  unfold spareFailed
  dsimp only
  refine .trans ?_ (spareAnswer_near _ n c fun s r => fmRefuse_near s r 9)
  refine .trans ?_ (.either (colourRetired_near ..) (.refl _))
  refine .trans ?_ (stateHard_ledgerWork ..).near
  refine .trans ?_ (journal_ledgerWork ..).near
  exact setSpare_near ..

/-- The device once a spare drives its colour, before the DFB's part takes its STATE. -/
def moveMade : State :=
  let s' := s.setSpare n (c / 8) { s.spare n (c / 8) with st := .bus, urgent := false }
  let y := s'.col n c
  let s' := s'.setCol n c { y with spared := true, stage := 0, level := 0, light := true, bias := (s.spare n (c / 8)).bias, tx := { y.tx with st := .inService, att := 0 } }
  let s' := phnErr (s'.setPhe n { s'.phe n with swaps := bump (s'.phe n).swaps 1 }) n pbSwapDone c false
  setPartSt (journal s' 0x06 (dfbPart n c) [1, BitVec.ofNat 8 c]) (sparePart n (c / 8)) 0

theorem movePass_eq : movePass s n c = match (s.spare n (c / 8)).fm with
    | none => stateHard (moveMade s n c) (dfbPart n c) 6 3
    | some (_, q) => spareAnswer (if ((moveMade s n c).part (dfbPart n c).toNat).st = 3 then moveMade s n c else softRetired (moveMade s n c) (dfbPart n c) q 0) n (c / 8) fun s r => fmOk s r (dfbPart n c) := rfl

theorem moveMade_near : NearWork s (moveMade s n c) := by
  refine .trans ?_ (setPartSt_ledgerWork ..).near
  refine .trans ?_ (journal_ledgerWork ..).near
  refine .trans ?_ (phnErr_near ..)
  refine .trans ?_ (setPhe_near _ n rfl)
  refine .trans ?_ (setCol_near ..)
  exact setSpare_near ..

theorem movePass_near : NearWork s (movePass s n c) := by
  have made := moveMade_near s n c
  rw [movePass_eq]
  split
  · exact made.trans (stateHard_ledgerWork ..).near
  · refine made.trans ?_
    refine .trans ?_ (spareAnswer_near _ n (c / 8) fun s r => fmOk_near s r (dfbPart n c))
    exact .either (.refl _) (softRetired_ledgerWork ..).near

theorem moveFail_near : NearWork s (moveFail s n c) := by
  unfold moveFail
  dsimp only
  refine .trans ?_ (.either (spareFailed_near ..) (.refl _))
  refine .trans ?_ (.either (.trans (colourRetired_near ..) (spareAnswer_near _ n (c / 8) fun s r => fmOk_near s r (dfbPart n c))) (.refl _))
  refine .trans ?_ (partRetry_ledgerWork ..).near
  refine .trans ?_ (journal_ledgerWork ..).near
  refine .trans ?_ (phnErr_near ..)
  refine .trans ?_ (afterMove_near ..)
  exact setSpare_near ..

theorem nearDiscard_near (also : List Nat) : NearWork s (nearDiscard s n c also) := by
  unfold nearDiscard
  dsimp only
  refine .trans ?_ (partRetry_ledgerWork ..).near
  refine .trans ?_ (.foldl (fun s i => phnErr_near s n c i true) also _)
  refine .trans ?_ (phnErr_near ..)
  exact setPhe_near s n rfl

/-- The device once the runs of a colour's own frames have been judged, R488. -/
def ownJudged : State :=
  if (s.col n c).rx.st = .verify ∧ 4 ≤ (s.col n c).ownRun then ringPass s n c true
  else if ((s.col n c).rx.st = .verify ∨ (s.col n c).rx.st = .inService) ∧ 4 ≤ (s.col n c).otherRun then failAttempt s n c true
  else s

/-- The colour that the ECHO of a colour's frames names. -/
def echoed : Nat := (s.col n c).lastEcho.toNat % 32

theorem judgeRuns_eq : judgeRuns s n c =
    if (s.col n c).echoRun < 2 ∨ (s.col n c).lastEcho ≠ cidOf n (echoed s n c) then ownJudged s n c
    else if echoed s n c = c then
      match ((ownJudged s n c).col n c).tx.st with | .verify => ringPass (ownJudged s n c) n c false | .swapping => movePass (ownJudged s n c) n c | _ => ownJudged s n c
    else match ((ownJudged s n c).col n (echoed s n c)).tx.st with
      | .verify => failAttempt (ownJudged s n c) n (echoed s n c) false | .swapping => moveFail (ownJudged s n c) n (echoed s n c) | _ => ownJudged s n c := rfl

theorem ownJudged_near : NearWork s (ownJudged s n c) := .either (ringPass_near ..) (.ite fun _ => failAttempt_near ..)

theorem judgeRuns_near : NearWork s (judgeRuns s n c) := by
  refine (ownJudged_near s n c).trans ?_
  rw [judgeRuns_eq]
  refine .either (.refl _) (.either ?_ ?_)
  · split
    · exact ringPass_near ..
    · exact movePass_near ..
    · exact .refl _
  · split
    · exact failAttempt_near ..
    · exact moveFail_near ..
    · exact .refl _

theorem revertSpares_near : NearWork s (revertSpares s n) := by
  refine .foldl (fun s o => ?_) _ s
  dsimp only
  refine .either (moveFail_near ..) (.ite fun _ => ?_)
  exact .trans (spareAnswer_near s n o fun s r => fmRefuse_near s r 7) (setSpare_near ..)

/-! ## SHUTDOWN and NORMAL, R497 -/

/-- An engine's colours, dark. -/
def PEng.darkened (x : PEng) : PEng := (List.range 32).foldl (fun x c => x.setCol c { (x.col c).deaf with tx := (x.col c).tx.dark, rx := (x.col c).rx.dark }) x

/-- The device before an engine's lasers go dark: the substitutions in progress have reverted and the credits of its colours are gone. -/
def beforeDark : State := (List.range 32).foldl (fun s c => if (s.col n c).tx.st = .inService ∨ (s.col n c).rx.st = .inService then dropCredits s n c else s) (revertSpares s n)

theorem beforeDark_near : NearWork s (beforeDark s n) := (revertSpares_near s n).trans (.foldl (fun _ _ => .ite fun _ => dropCredits_near ..) _ _)

/-- The device with an engine in SHUTDOWN. -/
def shutDown : State := (beforeDark s n).setPhe n { ((beforeDark s n).phe n).darkened with safety := .shutdown, eyes := bump ((beforeDark s n).phe n).darkened.eyes 1 }

theorem enterShutdown_eq (pin : Bool) : enterShutdown s n pin
    = nearSettle (if pin then phnErr (phnErr (shutDown s n) n pbShutdown 0 false) n pbInterlock 0 false else phnErr (shutDown s n) n pbShutdown 0 false) n := rfl

theorem enterShutdown_near (pin : Bool) : NearWork (shutDown s n) (enterShutdown s n pin) := by
  rw [enterShutdown_eq]
  refine .trans ?_ (nearSettle_near ..)
  exact .either (.trans (phnErr_near ..) (phnErr_near ..)) (phnErr_near ..)

end

/-- What the entry of an engine to SHUTDOWN does: that engine is in SHUTDOWN, and the others keep their SAFETY. -/
structure Shuts (n : Nat) (s t : State) : Prop where
  beside : t.besideNear = s.besideNear
  faults : FaultsKept s t
  here : (t.phe n).safety = .shutdown
  others : ∀ m, m ≠ n → (t.phe m).safety = (s.phe m).safety

theorem setPhe_besideNear (s : State) (n : Nat) (x : PEng) : (s.setPhe n x).besideNear = s.besideNear := rfl
theorem setPhe_sng (s : State) (n : Nat) (x : PEng) : (s.setPhe n x).sng = s.sng := rfl

theorem shutDown_shuts (s : State) (n : Nat) : Shuts n (beforeDark s n) (shutDown s n) := by
  refine ⟨?_, .of_sng ?_, ?_, fun m other => ?_⟩
  · exact setPhe_besideNear ..
  · exact setPhe_sng ..
  · rw [shutDown, State.setPhe_phe]
  · rw [shutDown, State.setPhe_phe_ne _ _ _ _ other]

theorem enterShutdown_shuts (s : State) (n : Nat) (pin : Bool) : Shuts n s (enterShutdown s n pin) := by
  have before := beforeDark_near s n
  have dark := shutDown_shuts s n
  have after := enterShutdown_near s n pin
  exact ⟨after.beside.trans (dark.beside.trans before.beside), before.faults.trans (dark.faults.trans after.faults), (after.safety n).trans dark.here,
    fun m other => (after.safety m).trans ((dark.others m other).trans (before.safety m))⟩

end Sys2Proof.Machine

/-! RESET commands, the start of Hawk firmware and recovery, R445, R556, R557 and R603 to R608. -/
namespace Sys2Proof.Machine

/-! ## RESET commands, R603 to R606 -/

theorem pollColour_ledgerOnly (s : State) (i : Nat) : LedgerOnly s (pollColour s i) := by
  unfold pollColour
  exact (pollOne_ledgerOnly ..).pollOne ..

theorem pollAll_ledgerOnly (s : State) : LedgerOnly s (pollAll s) := by
  unfold pollAll
  dsimp only
  refine .trans ?_ (pollHost_ledgerOnly _)
  refine .trans ?_ (LedgerOnly.foldl pollColour_ledgerOnly ..)
  refine .trans ?_ (LedgerOnly.foldl pollLane_ledgerOnly ..)
  refine .trans ?_ (LedgerOnly.foldl pollStack_ledgerOnly ..)
  exact LedgerOnly.foldl pollEngine_ledgerOnly ..

/-- The ledger with everything in the SPI NOR. -/
def Sng.written (g : Sng) : Sng := { g with journal := trimJournal (g.journal ++ g.pend), pend := [], flushing := false, saved := g.parts, savedS := g.lifeS }

/-- A device whose counters have been read writes its ledger, the RESET entry first. -/
def polledSaved (t : State) (kind : Nat) : State :=
  let t := journal t 0x0F deviceId [BitVec.ofNat 8 kind]
  let t := { t with sng := { t.sng with journal := trimJournal (t.sng.journal ++ t.sng.pend), pend := [], flushing := false } }
  { t with sng := { t.sng with saved := t.sng.parts, savedS := t.sng.lifeS } }

theorem saveLedger_eq (s : State) (kind : Nat) : saveLedger s kind = polledSaved (pollAll s) kind := rfl

theorem polledSaved_frame (t : State) (kind : Nat) : ∃ g : Sng, polledSaved t kind = { t with sng := g.written } := by
  obtain ⟨g, noted⟩ := journal_ledgerOnly t 0x0F deviceId [BitVec.ofNat 8 kind]
  unfold polledSaved
  rw [noted]
  exact ⟨g, rfl⟩

theorem saveLedger_frame (s : State) (kind : Nat) : ∃ g : Sng, saveLedger s kind = { s with sng := g.written } := by
  obtain ⟨g, polled⟩ := pollAll_ledgerOnly s
  obtain ⟨g', saved⟩ := polledSaved_frame (pollAll s) kind
  rw [saveLedger_eq, saved, polled]
  exact ⟨g', rfl⟩

/-- The device once its ledger has been saved for a reset that is counted. -/
def resetSaved (u : State) (r : MboxRec) (kind : Nat) : State := noteReset (saveLedger (respond u r 0x0071 stOk []) kind) kind

theorem resetSaved_leaves (u : State) (r : MboxRec) (kind : Nat) : (resetSaved u r kind).sng.pend = [] ∧ (resetSaved u r kind).sng.saved = (resetSaved u r kind).sng.parts
    ∧ (resetSaved u r kind).pwr.causeSource = 3 ∧ (resetSaved u r kind).pwr.resetCount = bump u.pwr.resetCount 1 ∧ (resetSaved u r kind).slr = u.slr := by
  obtain ⟨g, saved⟩ := saveLedger_frame (respond u r 0x0071 stOk []) kind
  obtain ⟨l, w, o, h, answered⟩ := respond_lathOnly u r 0x0071 stOk []
  rw [resetSaved, saved, answered]
  exact ⟨rfl, rfl, rfl, rfl, rfl⟩

section
variable {s : State} {r : MboxRec} {i : Nat} {x : Session} {kind : Nat} (h : Accepted s r (needs 0x0071 true false []) [BitVec.ofNat 8 kind] i x) {c : Instr} {f : State → State}
include h

theorem exec_reset (run : exec c s = act s (resetCmd s r kind f)) :
    exec c s = .next (if s.hwk.updating.isSome then respond (begun s r 0x0071 [BitVec.ofNat 8 kind] i x) r 0x0071 stMboxBusy []
      else f (resetSaved (begun s r 0x0071 [BitVec.ofNat 8 kind] i x) r kind)) :=
  exec_begun h run rfl

theorem exec_reset_updating (run : exec c s = act s (resetCmd s r kind f)) (busy : s.hwk.updating.isSome = true) :
    exec c s = .next (respond (begun s r 0x0071 [BitVec.ofNat 8 kind] i x) r 0x0071 stMboxBusy []) :=
  (exec_reset h run).trans (congrArg _ (if_pos busy))

theorem exec_reset_taken (run : exec c s = act s (resetCmd s r kind f)) (free : s.hwk.updating = none) :
    exec c s = .next (f (resetSaved (begun s r 0x0071 [BitVec.ofNat 8 kind] i x) r kind)) := by
  rw [exec_reset h run, free]
  rfl

end

/-! ## FIRMWARE and DATAPATH, R604, R605 and R607 -/

/-- The device once a reset has cleared the blocks, before readiness and level follow. -/
def blocksCleared (s : State) (fw : Bool) : State :=
  { s with engines := [], skm := {}, stn := { held := heldAfter s }, clc := {}, se := {}, lth := { leg := s.lth.leg, owners := s.lth.owners }, sch := {}, rnd := {}, mnd := {}, slr := slrAfter s.slr, hwk := { dropSessions s.hwk with reclaim := reclaimOwners s }, captures := s.captures.filter fun x => !inResetSpan fw x.1, wstage := s.wstage.filter fun x => !inResetSpan fw x.1, sng := { s.sng with lastRead := s.sng.lastRead.filter fun x => keepRead fw x.1 } }

/-- Engines, far ports and the functions of the data path are not ready. -/
def readinessDropped (t : State) : State :=
  dropReady ((List.range 16).foldl (fun t p => setFarReady t p false) ((List.range 64).foldl (fun t e => setTrwReady t e false) t)) [rdyStn, rdySkm, rdySch, rdyClc, rdySlr]

/-- TOP_READY.LTH is as the pools are. -/
def lathReadied (s : State) : State := setReady (joinPools s) rdyLth (decide ((joinPools s).lth.joined ≠ 0))

theorem datapathReset_eq (s : State) (fw : Bool) : datapathReset s fw = settleLevel (requalify (lathReadied (readinessDropped (blocksCleared s fw)))) := rfl

/-! ### Readiness of engines and far ports -/

/-- The readiness of the engines and of the far ports. -/
def State.portsReady (s : State) : BitVec 64 × BitVec 16 := (s.top.trw, s.top.far)

theorem ppsFollow_portsReady (s : State) : (ppsFollow s).portsReady = s.portsReady := by
  unfold ppsFollow
  split
  · rfl
  · unfold armPps
    split <;> rfl

theorem holdSteer_portsReady (s : State) : (holdSteer s).portsReady = s.portsReady := rfl

theorem setPlbSt_portsReady (s : State) (st : PlbSt) : (setPlbSt s st).portsReady = s.portsReady := by
  by_cases same : st = s.plb.st
  · rw [setPlbSt, if_pos same]
  · rw [setPlbSt_changed same, ppsFollow_portsReady]
    rfl

theorem enterHoldover_portsReady (s : State) : (enterHoldover s).portsReady = s.portsReady := by
  unfold enterHoldover
  split
  · rfl
  · exact setPlbSt_portsReady s .holdover

theorem plbSettle_portsReady (s : State) : (plbSettle s).portsReady = s.portsReady := by
  unfold plbSettle
  split
  · exact setPlbSt_portsReady ..
  · split
    · split
      · exact setPlbSt_portsReady ..
      · rfl
    · split
      · rfl
      · exact enterHoldover_portsReady s

theorem reselect_portsReady (s : State) : (reselect s).portsReady = s.portsReady := by
  unfold reselect
  dsimp only
  split
  · rfl
  · exact plbSettle_portsReady _

theorem requalify_portsReady (s : State) : (requalify s).portsReady = s.portsReady := by
  have judged : (reselect ((List.range 19).foldl qualify s)).portsReady = s.portsReady :=
    (reselect_portsReady _).trans (foldl_keeps State.portsReady (step := qualify) (fun _ _ => rfl) _ s)
  unfold requalify
  dsimp only
  generalize reselect ((List.range 19).foldl qualify s) = t at judged ⊢
  split
  · exact (holdSteer_portsReady t).trans judged
  · exact judged

theorem getLsbD_putBit_false {n : Nat} (v : BitVec n) (k : Nat) : (putBit v k false).getLsbD k = false := by
  by_cases small : k < n
  · exact putBit_self v k false small
  · exact BitVec.getLsbD_of_ge _ _ (Nat.not_lt.1 small)

theorem getLsbD_putBit_ne {n : Nat} (v : BitVec n) {j k : Nat} (b : Bool) (other : j ≠ k) : (putBit v k b).getLsbD j = v.getLsbD j := by
  by_cases small : k < n
  · exact putBit_other v k j b small other
  · have none : 1#n <<< k = 0#n := BitVec.shiftLeft_eq_zero (Nat.not_lt.1 small)
    unfold putBit
    rw [none]
    split <;> simp

/-- A pass that puts every bit of a word to 0 leaves 0. -/
theorem foldl_clears {n : Nat} {view : State → BitVec n} {f : State → Nat → State} (each : ∀ s k, view (f s k) = putBit (view s) k false) (s : State) :
    view ((List.range n).foldl f s) = 0 := by
  refine BitVec.eq_of_getLsbD_eq fun k small => ?_
  have cleared := foldl_range_get (get := fun s k => (view s).getLsbD k) (f := f) (g := fun _ _ => false) (fun s k => by rw [each, getLsbD_putBit_false])
    (fun s k j other => by rw [each, getLsbD_putBit_ne _ _ other]) s n k
  rw [cleared, if_pos small]
  exact (BitVec.getLsbD_zero ..).symm

theorem dropReady_portsReady (s : State) (l : List Nat) : (dropReady s l).portsReady = s.portsReady := foldl_keeps State.portsReady (step := fun s i => setReady s i false) (fun _ _ => rfl) l s

theorem readinessDropped_portsReady (t : State) : (readinessDropped t).portsReady = (0, 0) := by
  refine (dropReady_portsReady ..).trans (Prod.ext ?_ ?_)
  · refine (foldl_keeps (fun s : State => s.top.trw) (step := fun t p => setFarReady t p false) (fun _ _ => rfl) _ _).trans ?_
    exact foldl_clears (view := fun s : State => s.top.trw) (fun _ _ => rfl) t
  · exact foldl_clears (view := fun s : State => s.top.far) (fun _ _ => rfl) _

theorem readinessDropped_frame (t : State) : ∃ y, readinessDropped t = { t with top := y } := by
  have falls {f : State → Nat → State} (each : ∀ s k, ∃ y, f s k = { s with top := y }) (l : List Nat) (s : State) : ∃ y, l.foldl f s = { s with top := y } :=
    foldl_frame (fun y => { s with top := y }) (fun y k => each { s with top := y } k) l s.top
  obtain ⟨a, trw⟩ := falls (f := fun t e => setTrwReady t e false) (fun _ _ => ⟨_, rfl⟩) (List.range 64) t
  obtain ⟨b, far⟩ := falls (f := fun t p => setFarReady t p false) (fun _ _ => ⟨_, rfl⟩) (List.range 16) { t with top := a }
  obtain ⟨c, funs⟩ := falls (f := fun s i => setReady s i false) (fun _ _ => ⟨_, rfl⟩) [rdyStn, rdySkm, rdySch, rdyClc, rdySlr] { t with top := b }
  refine ⟨c, ?_⟩
  unfold readinessDropped
  rw [trw, far]
  exact funs

/-! ### The level, R611 -/

theorem journal_device (s : State) (type : Nat) (body : List Byte) : ∃ q l, journal s type deviceId body = { s with sng := { s.sng with seq := q, pend := l } } := by
  unfold journal
  dsimp only
  rw [if_pos (show deviceId = 65535 from rfl)]
  exact ⟨_, _, rfl⟩

theorem setLevel_frame (s : State) (l : Nat) (emergency : Bool) : ∃ p q e, setLevel s l emergency = { s with pwr := p, sng := { s.sng with seq := q, pend := e } } := by
  unfold setLevel
  split
  · exact ⟨s.pwr, s.sng.seq, s.sng.pend, rfl⟩
  · obtain ⟨q, e, noted⟩ := journal_device { s with pwr := { s.pwr with level := BitVec.ofNat 2 l, throttleCount := bump s.pwr.throttleCount 1, err := setErr s.pwr.err 0 } }
      0x13 [BitVec.ofNat 8 l, BitVec.ofNat 8 (b2n emergency)]
    exact ⟨_, q, e, noted⟩

theorem settleLevel_frame (s : State) : ∃ p q e, settleLevel s = { s with pwr := p, sng := { s.sng with seq := q, pend := e } } := by
  obtain ⟨p, q, e, set⟩ := setLevel_frame s (wantedLevel s) false
  unfold settleLevel
  rw [set]
  dsimp only
  split
  · exact ⟨_, q, e, rfl⟩
  · split <;> exact ⟨_, q, e, rfl⟩

theorem lathReadied_dropped (t : State) : ∃ b y, lathReadied (readinessDropped t) = { t with lth := { t.lth with joined := b }, top := y } ∧ y.trw = 0 ∧ y.far = 0 := by
  obtain ⟨y, dropped⟩ := readinessDropped_frame t
  have ports := readinessDropped_portsReady t
  rw [dropped] at ports ⊢
  exact ⟨_, _, rfl, congrArg Prod.fst ports, congrArg Prod.snd ports⟩

theorem judged_settled (u : State) : ∃ p y w q e, settleLevel (requalify u) = { u with plb := p, top := y, pwr := w, sng := { u.sng with seq := q, pend := e } }
    ∧ p.time = u.plb.time ∧ y.trw = u.top.trw ∧ y.far = u.top.far := by
  obtain ⟨p, y, judged⟩ := requalify_plumbOnly u
  have time := requalify_time u
  have ports := requalify_portsReady u
  rw [judged] at time ports ⊢
  obtain ⟨w, q, e, settled⟩ := settleLevel_frame { u with plb := p, top := y }
  exact ⟨p, y, w, q, e, settled, time, congrArg Prod.fst ports, congrArg Prod.snd ports⟩

theorem datapathReset_frame (s : State) (fw : Bool) : ∃ b p y w q e, datapathReset s fw =
    { blocksCleared s fw with lth := { leg := s.lth.leg, owners := s.lth.owners, joined := b }, plb := p, top := y, pwr := w, sng := { (blocksCleared s fw).sng with seq := q, pend := e } }
      ∧ p.time = s.plb.time ∧ y.trw = 0 ∧ y.far = 0 := by
  rw [datapathReset_eq]
  obtain ⟨b, y, readied, trw, far⟩ := lathReadied_dropped (blocksCleared s fw)
  rw [readied]
  obtain ⟨p, y', w, q, e, settled, time, trw', far'⟩ := judged_settled { blocksCleared s fw with lth := { (blocksCleared s fw).lth with joined := b }, top := y }
  exact ⟨b, p, y', w, q, e, settled, time, trw'.trans trw, far'.trans far⟩

/-! ## The start of Hawk, R260, R445, R569 and R608 -/

/-- The device once its firmware runs. -/
def firmwareNoted (s : State) (im : FwImage) : State :=
  setReady { s with top := { s.top with asig := some (asigOf im.arith) }, hwk := { s.hwk with running := true, recovery := none, fwVersion := some im.version, fwArith := some im.arith, fwSvn := some im.svn, fwDigest := im.digest } } rdyHwk true

/-- MIN_SVN rises to the floor of an image. -/
def svnRaised (s : State) (im : FwImage) : State :=
  if (minSvnNow s).toNat < im.floor.toNat then { s with slr := { s.slr with minSvn := some (BitVec.ofNat 8 (min 63 im.floor.toNat)) } } else s

/-- The device once its firmware runs and has made its entry, before the ledger is loaded. -/
def hawkUp (s : State) (im : FwImage) : State :=
  journal (svnRaised (firmwareNoted s im) im) 0x0E deviceId (leBytes 4 im.version.toNat ++ [im.svn, 0, 0, 0] ++ leBytes 4 im.arith.toNat ++ leBytes 4 (asigOf im.arith).toNat)

/-- The data path ready, with the device keys that have been unwrapped. -/
def keysRaised (s : State) (k : Option KeyPair × Option KeyPair) : State := raiseReady s k.1 k.2

/-- The device before the photonic engines start. -/
def beforeLevel (s : State) (im : FwImage) (found : StartFinds) : State :=
  reclaimAll (keysRaised (loadLedger (hawkUp s im) found.damaged) (unwrapped (hawkUp s im) found.idRecord))

theorem startHawk_eq (s : State) (im : FwImage) (found : StartFinds) : startHawk s im found = phnStart (beforeLevel s im found) := rfl

/-- MIN_SVN after the start of an image. -/
def svnAfter (s : State) (im : FwImage) : Option (BitVec 8) := if (minSvnNow s).toNat < im.floor.toNat then some (BitVec.ofNat 8 (min 63 im.floor.toNat)) else s.slr.minSvn

theorem svnRaised_eq (s : State) (im : FwImage) : svnRaised s im = { s with slr := { s.slr with minSvn := svnAfter s im } } := by
  unfold svnRaised svnAfter
  split <;> rfl

theorem hawkUp_frame (s : State) (im : FwImage) : ∃ q l d, hawkUp s im = { s with
    top := { s.top with asig := some (asigOf im.arith), ready := putBit s.top.ready rdyHwk true, drop := d }, sng := { s.sng with seq := q, pend := l }, slr := { s.slr with minSvn := svnAfter s im }, hwk := { s.hwk with running := true, recovery := none, fwVersion := some im.version, fwArith := some im.arith, fwSvn := some im.svn, fwDigest := im.digest } } := by
  unfold hawkUp
  rw [svnRaised_eq]
  obtain ⟨q, l, noted⟩ := journal_device { firmwareNoted s im with slr := { (firmwareNoted s im).slr with minSvn := svnAfter (firmwareNoted s im) im } }
    0x0E (leBytes 4 im.version.toNat ++ [im.svn, 0, 0, 0] ++ leBytes 4 im.arith.toNat ++ leBytes 4 (asigOf im.arith).toNat)
  exact ⟨q, l, _, noted⟩

/-! ### The ledger, R569 -/

theorem restartPart_ledgerWork (s : State) (p : BitVec 16) : LedgerWork s (restartPart s p) := by
  unfold restartPart
  split
  · exact (setPart_damaged_ledgerWork s _ rfl).trans (sngErr_ledgerWork _ 3)
  · exact .refl s

theorem restartPart_damaged (s : State) {p : BitVec 16} (exists_ : partExists p.toNat = true) : ((restartPart s p).part p.toNat).damaged = true ∧ (restartPart s p).sng.err.getLsbD 3 = true := by
  unfold restartPart
  rw [if_pos exists_]
  refine ⟨?_, (setErr_getLsbD _ 3 3 (by decide)).trans (Bool.or_true _)⟩
  exact congrArg Summary.damaged (State.setPart_part ..)

theorem restartParts_ledgerWork (l : List (BitVec 16)) (s : State) : LedgerWork s (l.foldl restartPart s) :=
  List.foldlRecOn (motive := LedgerWork s) l restartPart (.refl s) fun t ht p _ => ht.trans (restartPart_ledgerWork t p)

theorem restartParts_damaged {l : List (BitVec 16)} {p : BitVec 16} (mem : p ∈ l) (exists_ : partExists p.toNat = true) (s : State) :
    ((l.foldl restartPart s).part p.toNat).damaged = true ∧ (l.foldl restartPart s).sng.err.getLsbD 3 = true := by
  induction l generalizing s with
  | nil => exact absurd mem List.not_mem_nil
  | cons q l ih =>
    rcases List.mem_cons.1 mem with rfl | later
    · obtain ⟨damaged, err⟩ := restartPart_damaged s exists_
      have kept := (restartParts_ledgerWork l (restartPart s p)).faults
      exact ⟨kept.damaged _ damaged, kept.err _ err⟩
    · exact ih later _

/-- The ledger once it stands. -/
def ledgerReady (s : State) : State :=
  setReady { (if s.sng.flushLate then sngErr s 5 else s) with sng := { (if s.sng.flushLate then sngErr s 5 else s).sng with flushLate := false, summaryOk := true, journalOk := true } } rdySng true

theorem loadLedger_eq (s : State) (l : List (BitVec 16)) : loadLedger s l = ledgerReady (l.foldl restartPart s) := rfl

theorem ledgerReady_frame (s : State) : ∃ e d, ledgerReady s = { s with sng := { s.sng with err := e, flushLate := false, summaryOk := true, journalOk := true }, top := { s.top with ready := putBit s.top.ready rdySng true, drop := d } }
    ∧ ∀ k, s.sng.err.getLsbD k = true → e.getLsbD k = true := by
  unfold ledgerReady
  split
  · exact ⟨_, _, rfl, fun k set => setErr_keeps set 5⟩
  · exact ⟨s.sng.err, _, rfl, fun _ set => set⟩

theorem loadLedger_frame (s : State) (l : List (BitVec 16)) : ∃ g d, loadLedger s l = { s with sng := g, top := { s.top with ready := putBit s.top.ready rdySng true, drop := d } } := by
  obtain ⟨g, restarted⟩ := (restartParts_ledgerWork l s).only
  obtain ⟨e, d, ready, -⟩ := ledgerReady_frame (l.foldl restartPart s)
  rw [loadLedger_eq, ready, restarted]
  exact ⟨_, d, rfl⟩

theorem loadLedger_damaged {l : List (BitVec 16)} {p : BitVec 16} (mem : p ∈ l) (exists_ : partExists p.toNat = true) (s : State) :
    ((loadLedger s l).part p.toNat).damaged = true ∧ (loadLedger s l).sng.err.getLsbD 3 = true := by
  obtain ⟨damaged, err⟩ := restartParts_damaged mem exists_ s
  obtain ⟨e, d, ready, kept⟩ := ledgerReady_frame (l.foldl restartPart s)
  rw [loadLedger_eq, ready]
  exact ⟨damaged, kept 3 err⟩

/-! ### Readiness, device keys and reclaims -/

/-- Readiness bits that the data path raises or lowers. -/
def raisedReady (v : BitVec 9) (k : Bool) : BitVec 9 := putBit (putBit (putBit (putBit (putBit v rdyStn true) rdySkm true) rdySch true) rdyClc true) rdySlr k

theorem raisedReady_other (v : BitVec 9) (k : Bool) {i : Nat} (h : i = rdyHwk ∨ i = rdySng) : (raisedReady v k).getLsbD i = v.getLsbD i := by
  have apart : i ≠ rdyStn ∧ i ≠ rdySkm ∧ i ≠ rdySch ∧ i ≠ rdyClc ∧ i ≠ rdySlr := by
    rcases h with rfl | rfl <;> decide
  obtain ⟨stn, skm, sch, clc, slr⟩ := apart
  rw [raisedReady, getLsbD_putBit_ne _ _ slr, getLsbD_putBit_ne _ _ clc, getLsbD_putBit_ne _ _ sch, getLsbD_putBit_ne _ _ skm, getLsbD_putBit_ne _ _ stn]

theorem keysRaised_frame (s : State) (k : Option KeyPair × Option KeyPair) : ∃ d b, keysRaised s k = { s with
    slr := { s.slr with idk := if s.slr.gateClosed then none else k.1, ktk := if s.slr.gateClosed then none else k.2 }, top := { s.top with ready := raisedReady s.top.ready b, drop := d } }
      ∧ (k.1 = none → b = false) := by
  refine ⟨_, _, rfl, fun none => ?_⟩
  rw [none, ite_self]
  simp

theorem reclaimNow_frame (s : State) (o : Owner) : ∃ l h, reclaimNow s o = { s with lth := l, stn := { s.stn with held := h } } := by
  unfold reclaimNow closeFence dropHeld
  dsimp only
  split
  · split
    · exact ⟨_, _, rfl⟩
    · exact ⟨_, s.stn.held, rfl⟩
  · exact ⟨_, s.stn.held, rfl⟩

theorem reclaimAll_frame (s : State) : ∃ l h, reclaimAll s = { s with lth := l, stn := { s.stn with held := h }, hwk := { s.hwk with reclaim := [] } } := by
  obtain ⟨q, is⟩ := foldl_frame (fun q : Lath × List Held => ({ s with lth := q.1, stn := { s.stn with held := q.2 }, hwk := { s.hwk with reclaim := [] } } : State)) (step := reclaimNow)
    (fun q o => (reclaimNow_frame { s with lth := q.1, stn := { s.stn with held := q.2 }, hwk := { s.hwk with reclaim := [] } } o).elim fun l ⟨h, is⟩ => ⟨(l, h), is⟩) s.hwk.reclaim (s.lth, s.stn.held)
  exact ⟨q.1, q.2, is⟩

/-! ### Photonic engines, R497 and R608 -/

/-- The device with Level's trigger channels set. -/
def levelsArmed (s : State) : State := (List.range 8).foldl (fun s n => armLevel (12 + n) 10000 (armLevel (4 + n) 1000000 s)) s

theorem armLevel_frame (c period : Nat) (s : State) : ∃ p, armLevel c period s = { s with plb := p } := by
  unfold armLevel
  split
  · exact ⟨s.plb, rfl⟩
  · exact ⟨_, rfl⟩

theorem levelsArmed_frame (s : State) : ∃ p, levelsArmed s = { s with plb := p } := by
  have each (p : Plb) (n : Nat) : ∃ p', armLevel (12 + n) 10000 (armLevel (4 + n) 1000000 { s with plb := p }) = { s with plb := p' } := by
    obtain ⟨a, one⟩ := armLevel_frame (4 + n) 1000000 { s with plb := p }
    obtain ⟨b, two⟩ := armLevel_frame (12 + n) 10000 { s with plb := a }
    rw [one]
    exact ⟨b, two⟩
  unfold levelsArmed
  exact foldl_frame (fun p : Plb => { s with plb := p }) (step := fun s n => armLevel (12 + n) 10000 (armLevel (4 + n) 1000000 s)) each (List.range 8) s.plb

/-- An engine that is OFF enters SHUTDOWN. -/
def startEngine (s : State) (n : Nat) : State := if (s.phe n).safety = .off then enterShutdown s n false else s

theorem phnStart_eq (s : State) : phnStart s = (List.range 8).foldl startEngine (levelsArmed s) := rfl

theorem startEngine_beside (s : State) (n : Nat) : (startEngine s n).besideNear = s.besideNear ∧ FaultsKept s (startEngine s n) := by
  unfold startEngine
  split
  · exact ⟨(enterShutdown_shuts s n false).beside, (enterShutdown_shuts s n false).faults⟩
  · exact ⟨rfl, .refl s⟩

theorem phnStart_beside (s : State) : (phnStart s).besideNear = (levelsArmed s).besideNear := by
  rw [phnStart_eq]
  exact foldl_keeps State.besideNear (fun s n => (startEngine_beside s n).1) _ _

theorem phnStart_faults (s : State) : FaultsKept s (phnStart s) := by
  obtain ⟨p, armed⟩ := levelsArmed_frame s
  have begun : FaultsKept s (levelsArmed s) := armed ▸ .of_sng rfl
  exact begun.trans (List.foldlRecOn (motive := FaultsKept (levelsArmed s)) _ startEngine (.refl _) fun t ht n _ => ht.trans (startEngine_beside t n).2)

theorem phnStart_safety (s : State) {n : Nat} (small : n < 8) : ((phnStart s).phe n).safety = if (s.phe n).safety = .off then .shutdown else (s.phe n).safety := by
  obtain ⟨p, armed⟩ := levelsArmed_frame s
  rw [phnStart_eq, armed]
  refine (foldl_range_get (get := fun s n => (s.phe n).safety) (f := startEngine) (g := fun _ x => if x = .off then .shutdown else x) (fun s k => ?_) (fun s k j other => ?_) _ 8 n).trans (if_pos small)
  · unfold startEngine
    split
    · exact (enterShutdown_shuts s k false).here
    · rfl
  · unfold startEngine
    split
    · exact (enterShutdown_shuts s k false).others j other
    · rfl

/-- What the start of the photonic engines leaves of Sealer, TOP and Hawk. -/
structure StartKept (s t : State) : Prop where
  slr : t.slr = s.slr
  ready : t.top.ready = s.top.ready
  asig : t.top.asig = s.top.asig
  running : t.hwk.running = s.hwk.running
  recovery : t.hwk.recovery = s.hwk.recovery
  version : t.hwk.fwVersion = s.hwk.fwVersion
  arith : t.hwk.fwArith = s.hwk.fwArith

theorem StartKept.of_beside {s t : State} {p : Plb} (h : t.besideNear = ({ s with plb := p } : State).besideNear) : StartKept s t :=
  ⟨(congrArg State.slr h :), (congrArg (fun s : State => s.top.ready) h :), (congrArg (fun s : State => s.top.asig) h :), (congrArg (fun s : State => s.hwk.running) h :),
    (congrArg (fun s : State => s.hwk.recovery) h :), (congrArg (fun s : State => s.hwk.fwVersion) h :), (congrArg (fun s : State => s.hwk.fwArith) h :)⟩

theorem phnStart_kept (s : State) : StartKept s (phnStart s) := by
  obtain ⟨p, armed⟩ := levelsArmed_frame s
  exact .of_beside ((phnStart_beside s).trans (congrArg State.besideNear armed))

section
variable (s : State) (im : FwImage) (found : StartFinds)

theorem identityOk_hawkUp (b : List Byte) : identityOk (hawkUp s im) b = identityOk s b := by
  obtain ⟨q, l, d, up⟩ := hawkUp_frame s im
  rw [up]
  rfl

theorem unwrapped_hawkUp (b : List Byte) : unwrapped (hawkUp s im) b = unwrapped s b := by
  unfold unwrapped
  rw [identityOk_hawkUp]

/-- A device key that Sealer has taken. -/
def gated (s : State) (k : Option KeyPair) : Option KeyPair := if s.slr.gateClosed then none else k

/-- What stands before the photonic engines start. -/
structure FirmwareUp (s : State) (im : FwImage) (found : StartFinds) (t : State) : Prop where
  running : t.hwk.running = true
  recovery : t.hwk.recovery = none
  version : t.hwk.fwVersion = some im.version
  arith : t.hwk.fwArith = some im.arith
  asig : t.top.asig = some (asigOf im.arith)
  hwkReady : t.top.ready.getLsbD rdyHwk = true
  sngReady : t.top.ready.getLsbD rdySng = true
  idk : t.slr.idk = gated s (unwrapped s found.idRecord).1
  ktk : t.slr.ktk = gated s (unwrapped s found.idRecord).2
  slrReady : (unwrapped s found.idRecord).1 = none → t.top.ready.getLsbD rdySlr = false
  svn : t.slr.minSvn = svnAfter s im

theorem beforeLevel_up : FirmwareUp s im found (beforeLevel s im found) ∧ (beforeLevel s im found).phn = s.phn := by
  obtain ⟨q, l, d, up⟩ := hawkUp_frame s im
  obtain ⟨g, d', loaded⟩ := loadLedger_frame (hawkUp s im) found.damaged
  obtain ⟨d'', b, raised, noKey⟩ := keysRaised_frame (loadLedger (hawkUp s im) found.damaged) (unwrapped s found.idRecord)
  obtain ⟨lth, held, reclaimed⟩ := reclaimAll_frame (keysRaised (loadLedger (hawkUp s im) found.damaged) (unwrapped s found.idRecord))
  unfold beforeLevel
  rw [unwrapped_hawkUp, reclaimed, raised, loaded, up]
  refine ⟨⟨rfl, rfl, rfl, rfl, rfl, ?_, ?_, rfl, rfl, fun none => ?_, rfl⟩, rfl⟩
  · refine (raisedReady_other _ _ (.inl rfl)).trans ((getLsbD_putBit_ne _ _ (by decide)).trans (putBit_self _ _ _ (by decide)))
  · exact (raisedReady_other _ _ (.inr rfl)).trans (putBit_self _ _ _ (by decide))
  · rw [noKey none]
    exact putBit_self _ _ _ (by decide)

theorem startHawk_up : FirmwareUp s im found (startHawk s im found) := by
  obtain ⟨⟨running, recovery, version, arith, asig, hwkReady, sngReady, idk, ktk, slrReady, svn⟩, -⟩ := beforeLevel_up s im found
  have kept := phnStart_kept (beforeLevel s im found)
  rw [startHawk_eq]
  exact ⟨kept.running.trans running, kept.recovery.trans recovery, kept.version.trans version, kept.arith.trans arith, kept.asig.trans asig,
    (congrArg (·.getLsbD rdyHwk) kept.ready).trans hwkReady, (congrArg (·.getLsbD rdySng) kept.ready).trans sngReady, (congrArg Slr.idk kept.slr).trans idk,
    (congrArg Slr.ktk kept.slr).trans ktk, fun none => (congrArg (·.getLsbD rdySlr) kept.ready).trans (slrReady none), (congrArg Slr.minSvn kept.slr).trans svn⟩

theorem startHawk_safety {n : Nat} (small : n < 8) : ((startHawk s im found).phe n).safety = if (s.phe n).safety = .off then .shutdown else (s.phe n).safety := by
  have same : (beforeLevel s im found).phe n = s.phe n := congrArg (fun p : Phn => Tab.get ({} : PEng) p.engines n) (beforeLevel_up s im found).2
  rw [startHawk_eq]
  exact (phnStart_safety (beforeLevel s im found) small).trans (by rw [same])

theorem startHawk_damaged {p : BitVec 16} (mem : p ∈ found.damaged) (exists_ : partExists p.toNat = true) :
    ((startHawk s im found).part p.toNat).damaged = true ∧ (startHawk s im found).sng.err.getLsbD 3 = true := by
  obtain ⟨damaged, err⟩ := loadLedger_damaged mem exists_ (hawkUp s im)
  obtain ⟨d, b, raised, -⟩ := keysRaised_frame (loadLedger (hawkUp s im) found.damaged) (unwrapped (hawkUp s im) found.idRecord)
  obtain ⟨lth, held, reclaimed⟩ := reclaimAll_frame (keysRaised (loadLedger (hawkUp s im) found.damaged) (unwrapped (hawkUp s im) found.idRecord))
  have kept : FaultsKept (loadLedger (hawkUp s im) found.damaged) (beforeLevel s im found) := by
    unfold beforeLevel
    rw [reclaimed, raised]
    exact .of_sng rfl
  have whole := kept.trans (phnStart_faults (beforeLevel s im found))
  rw [startHawk_eq]
  exact ⟨whole.damaged _ damaged, whole.err _ err⟩

end

theorem imageRefusal_none {s : State} {im : FwImage} : imageRefusal s im = none ↔ im.present = true ∧ imageSigned s im = true ∧ (minSvnNow s).toNat ≤ im.svn.toNat ∧ im.part = 0x9640 := by
  unfold imageRefusal
  split
  next absent => simp_all
  next present =>
  split
  next unsigned => simp_all
  next signed =>
  split
  next old => exact ⟨nofun, fun ⟨_, _, svn, _⟩ => absurd old (Nat.not_lt.2 svn)⟩
  next new =>
  split
  next other => exact ⟨nofun, fun ⟨_, _, _, part⟩ => absurd part other⟩
  next part => exact ⟨fun _ => ⟨by simpa using present, by simpa using signed, Nat.not_lt.1 new, not_not.1 part⟩, fun _ => rfl⟩

/-! ## HAWK_START and recovery, R557 -/

/-- The image that the primer ROM checks. -/
def imageHeld (s : State) (im : FwImage) : FwImage := match s.hwk.nor with | some z => z.getD noImage | none => im

theorem hawkStart_checks {s : State} (up : isUp s = true) (halted : s.hwk.running = false) (im : FwImage) (found : StartFinds) : hawkStart s im found =
    match imageRefusal s (imageHeld s im) with | some c => { s with hwk := { s.hwk with recovery := some c } } | none => startHawk s (imageHeld s im) found := by
  unfold hawkStart
  rw [up, halted]
  rfl

theorem recoverDone_recovers {s : State} (recovers : inRecovery s = true) (len crc : BitVec 32) (given : FwImage) (found : StartFinds) : recoverDone s len crc given found =
    if crc32c (Mem.read s.hwk.recoverBuf 0 len.toNat) ≠ crc then recoverResult s 1
    else match imageRefusal s (imageIn (Mem.read s.hwk.recoverBuf 0 len.toNat) given) with
      | some c => recoverResult { s with hwk := { s.hwk with nor := some (some (imageIn (Mem.read s.hwk.recoverBuf 0 len.toNat) given)) } } (if c = 1 then 2 else c)
      | none => startHawk (recoverResult { s with hwk := { s.hwk with nor := some (some (imageIn (Mem.read s.hwk.recoverBuf 0 len.toNat) given)) } } 0)
          (imageIn (Mem.read s.hwk.recoverBuf 0 len.toNat) given) found := by
  unfold recoverDone
  rw [recovers]
  rfl

/-- Settles O54: a RESET command by its kind, each kind by what it clears, and the start of firmware and recovery by the image that is found. -/
theorem resetsAndStart : Obligations.ResetsAndStart := by
  unfold Obligations.ResetsAndStart
  intro s live
  have answers {c : Instr} {t u : State} (run : exec c s = act s t) (h : t = u) : exec c s = .next u := run.trans (act_eq_next live h)
  refine ⟨fun r i x kind h => ?reset, fun fw => ?datapath, fun p link => ⟨rfl, rfl, rfl, rfl, rfl, rfl, rfl, rfl, rfl, rfl, rfl, rfl, rfl, rfl, rfl, rfl, rfl, rfl, rfl, rfl⟩,
    fun im found barred => answers rfl (if_pos ?barred), fun im found up halted => ?start, fun im found => ?started, fun im => imageRefusal_none, fun out off bs len crc im found => ?out, fun recovers => ?recovery⟩
  case reset =>
    obtain ⟨pend, saved, source, count, slr⟩ := resetSaved_leaves (begun s r 0x0071 [BitVec.ofNat 8 kind] i x) r kind
    have pwr : (begun s r 0x0071 [BitVec.ofNat 8 kind] i x).pwr = s.pwr := by
      obtain ⟨l, m, is⟩ := begun_eq s r 0x0071 [BitVec.ofNat 8 kind] i x
      rw [is]
    refine ⟨fun busy => ⟨?_, ?_, ?_⟩, fun free => ⟨?_, ?_, ?_⟩, pend, saved, source, count.trans (by rw [pwr])⟩
    · rintro rfl
      exact exec_reset_updating h rfl busy
    · rintro rfl
      exact exec_reset_updating h rfl busy
    · rintro rfl
      exact exec_reset_updating h rfl busy
    · rintro rfl
      exact (exec_reset_taken h (f := fun s => bringUp (settleLevel (coldState s s.pwr true))) rfl free).trans (by rw [resetSaved])
    · rintro rfl
      exact (exec_reset_taken h (f := fun s => stopHawk (datapathReset s true)) rfl free).trans (by rw [resetSaved])
    · rintro rfl
      refine (exec_reset_taken h rfl free).trans ?_
      dsimp only
      rw [slr, begun_slr]
      rfl
  case datapath =>
    obtain ⟨b, p, y, w, q, e, is, time, trw, far⟩ := datapathReset_frame s fw
    rw [is]
    exact ⟨rfl, rfl, rfl, rfl, rfl, rfl, rfl, rfl, rfl, rfl, rfl, rfl, rfl, time, rfl, rfl, rfl, rfl, rfl, rfl, rfl, rfl, rfl, rfl, rfl, trw, far⟩
  case barred => rcases barred with down | runs <;> simp [*]
  case start =>
    refine ⟨fun c refused => answers rfl ((hawkStart_checks up halted im found).trans ?_), fun passes => answers rfl ((hawkStart_checks up halted im found).trans ?_)⟩
    · rw [show imageRefusal s (imageHeld s im) = some c from refused]
    · rw [show imageRefusal s (imageHeld s im) = none from passes]
      rfl
  case started =>
    obtain ⟨running, recovery, version, arith, asig, hwkReady, sngReady, idk, ktk, noKey, svn⟩ := startHawk_up s im found
    refine ⟨running, recovery, version, arith, asig, hwkReady, sngReady, fun p mem exists_ => startHawk_damaged s im found mem exists_, fun gate good => ?_, fun bad => ?_, fun low => ?_, fun n small => startHawk_safety s im found small⟩
    · rw [gated, gate, if_neg Bool.false_ne_true, unwrapped, if_pos good] at idk ktk
      exact ⟨idk, ktk⟩
    · have none : unwrapped s found.idRecord = (none, none) := if_neg (ne_true_of_eq_false bad)
      rw [none, gated, ite_self] at idk ktk
      exact ⟨idk, ktk, noKey (by rw [none])⟩
    · exact svn.trans (if_pos low)
  case out => exact ⟨answers rfl (if_neg (ne_true_of_eq_false out)), answers rfl (if_neg fun held => ne_true_of_eq_false out held.1), answers rfl (if_pos (by rw [out]; rfl))⟩
  case recovery =>
    refine ⟨answers rfl (if_pos recovers), fun off bs low high => answers rfl (if_pos ⟨recovers, low, high⟩), fun off bs bad => answers rfl (if_neg ?_), fun len crc given found => ⟨fun bad => ?_, fun c good refused => ?_, fun good passes => ?_⟩⟩
    · rintro ⟨-, low, high⟩
      omega
    all_goals refine answers rfl ((recoverDone_recovers recovers len crc given found).trans ?_)
    · exact if_pos bad
    · rw [if_neg (not_not.2 good), refused]
    · rw [if_neg (not_not.2 good), passes]

end Sys2Proof.Machine

/-! What the eye safety of the photonic engines rests on (R496, R497): the interlock pin and the safety state of each engine. Nearly every operation of the device leaves both alone; this part says so, operation by operation, and the next ones say what the few others do with them. -/
namespace Sys2Proof.Machine

/-- The interlock pin and the safety state of every photonic engine. -/
def Phn.eye (p : Phn) : Bool × (Nat → Safety) := (p.interlock, fun n => (Tab.get {} p.engines n).safety)

@[simp] theorem Phn.eye_mk (p : Phn) (hold : Nat) (owed held : Tab Nat) : Phn.eye ⟨p.engines, p.interlock, hold, owed, held⟩ = p.eye := rfl

@[simp] theorem eye_ite (c : Prop) [Decidable c] (s t : State) : (if c then s else t).phn.eye = if c then s.phn.eye else t.phn.eye := by
  split <;> rfl

theorem eye_ite_of {c : Prop} [Decidable c] {s t : State} {e : Bool × (Nat → Safety)} (whenTrue : s.phn.eye = e) (whenFalse : t.phn.eye = e) : (if c then s else t).phn.eye = e := by
  split
  · exact whenTrue
  · exact whenFalse

theorem eye_congr {s t : State} (pin : t.phn.interlock = s.phn.interlock) (each : ∀ n, (t.phe n).safety = (s.phe n).safety) : t.phn.eye = s.phn.eye :=
  Prod.ext pin (funext each)

@[simp] theorem eye_setPhe (s : State) (n : Nat) (x : PEng) (same : x.safety = (s.phe n).safety) : (s.setPhe n x).phn.eye = s.phn.eye :=
  eye_congr rfl fun m => by
    by_cases h : m = n
    · subst h; exact (congrArg PEng.safety (Tab.get_put {} s.phn.engines m x) :).trans same
    · exact (congrArg PEng.safety (Tab.get_put_ne {} {} s.phn.engines n m x h) :)

@[simp] theorem eye_foldl {α : Type} (f : State → α → State) (l : List α) (s : State) (kept : ∀ s a, (f s a).phn.eye = s.phn.eye) : (l.foldl f s).phn.eye = s.phn.eye := by
  induction l generalizing s with
  | nil => rfl
  | cons a l ih => rw [List.foldl_cons, ih, kept]

@[simp] theorem eye_foldl_snd {α β : Type} (f : β × State → α → β × State) (l : List α) (p : β × State) (kept : ∀ p a, (f p a).2.phn.eye = p.2.phn.eye) : (l.foldl f p).2.phn.eye = p.2.phn.eye := by
  induction l generalizing p with
  | nil => rfl
  | cons a l ih => rw [List.foldl_cons, ih, kept]

@[simp] theorem eye_foldl_fst {α β : Type} (f : State × β → α → State × β) (l : List α) (p : State × β) (kept : ∀ p a, (f p a).1.phn.eye = p.1.phn.eye) : (l.foldl f p).1.phn.eye = p.1.phn.eye := by
  induction l generalizing p with
  | nil => rfl
  | cons a l ih => rw [List.foldl_cons, ih, kept]

theorem eye_of_pair {α : Type} {p : α × State} {a : α} {t : State} {e : Bool × (Nat → Safety)} (kept : p.2.phn.eye = e) (h : p = (a, t)) : t.phn.eye = e := by
  rw [← kept, h]

theorem NearWork.eye {s t : State} (h : NearWork s t) : t.phn.eye = s.phn.eye := eye_congr h.interlock h.safety

theorem LedgerOnly.eye {s t : State} (h : LedgerOnly s t) : t.phn.eye = s.phn.eye := by
  obtain ⟨g, rfl⟩ := h
  rfl

theorem safety_foldl {α : Type} (f : PEng → α → PEng) (l : List α) (x : PEng) (kept : ∀ x a, (f x a).safety = x.safety) : (l.foldl f x).safety = x.safety := by
  induction l generalizing x with
  | nil => rfl
  | cons a l ih => rw [List.foldl_cons, ih, kept]

end Sys2Proof.Machine

/-! ### No other operation touches the interlock pin or a photonic engine's safety state

One lemma for each operation, in the order of the model: `f_eye` says that `f` leaves the pin and the safety states. Each proof follows the branches of `f` and cites the lemmas of what `f` calls; `Dark`, below, takes up the operations that do change them. -/

namespace Sys2Proof.Machine

/-! #### Named operations over the state -/

@[simp] theorem draw_eye (s : State) (len : Nat) : (draw s len).2.phn.eye = s.phn.eye := by simp [draw]

@[simp] theorem emit_eye (s : State) (o : Out) : (emit s o).phn.eye = s.phn.eye := by simp [emit]

@[simp] theorem engErr_eye (s : State) (e i : Nat) : (engErr s e i).phn.eye = s.phn.eye := by simp [engErr]

@[simp] theorem setReady_eye (s : State) (i : Nat) (b : Bool) : (setReady s i b).phn.eye = s.phn.eye := by simp [setReady]

@[simp] theorem setTrwReady_eye (s : State) (e : Nat) (b : Bool) : (setTrwReady s e b).phn.eye = s.phn.eye := by simp [setTrwReady]

@[simp] theorem setHbmReady_eye (s : State) (k : Nat) (b : Bool) : (setHbmReady s k b).phn.eye = s.phn.eye := by simp [setHbmReady]

@[simp] theorem setFarReady_eye (s : State) (p : Nat) (b : Bool) : (setFarReady s p b).phn.eye = s.phn.eye := by simp [setFarReady]

@[simp] theorem setEngSt_eye (s : State) (e : Nat) (st : EngSt) : (setEngSt s e st).phn.eye = s.phn.eye := by simp [setEngSt]

@[simp] theorem journal_eye (s : State) (type : Nat) (part : BitVec 16) (body : List Byte) : (journal s type part body).phn.eye = s.phn.eye := by simp [journal]

@[simp] theorem setPartSt_eye (s : State) (part : BitVec 16) (st : Nat) : (setPartSt s part st).phn.eye = s.phn.eye := by simp [setPartSt]

@[simp] theorem stateHard_eye (s : State) (part : BitVec 16) (cause st : Nat) : (stateHard s part cause st).phn.eye = s.phn.eye := by simp [stateHard]

@[simp] theorem stateMended_eye (s : State) (part : BitVec 16) (cause : Nat) : (stateMended s part cause).phn.eye = s.phn.eye := by simp [stateMended]

@[simp] theorem countDefect_eye (s : State) (part : BitVec 16) : (countDefect s part).phn.eye = s.phn.eye := by simp [countDefect]

@[simp] theorem partRetry_eye (s : State) (p : BitVec 16) (n : Nat) : (partRetry s p n).phn.eye = s.phn.eye := by simp [partRetry]

@[simp] theorem partRetrain_eye (s : State) (p : BitVec 16) (n : Nat) : (partRetrain s p n).phn.eye = s.phn.eye := by simp [partRetrain]

@[simp] theorem partErrors_eye (s : State) (p : BitVec 16) (corr uncorr : Nat) : (partErrors s p corr uncorr).phn.eye = s.phn.eye := by simp [partErrors]

@[simp] theorem partMargin_eye (s : State) (p : BitVec 16) (m : Int) : (partMargin s p m).phn.eye = s.phn.eye := by simp [partMargin]

@[simp] theorem partTemp_eye (s : State) (p : BitVec 16) (t : Byte) : (partTemp s p t).phn.eye = s.phn.eye := by simp [partTemp]

@[simp] theorem sngErr_eye (s : State) (i : Nat) : (sngErr s i).phn.eye = s.phn.eye := by simp [sngErr]

@[simp] theorem sendRecord_eye (s : State) (num : BitVec 16) (record : List Byte) : (sendRecord s num record).phn.eye = s.phn.eye := (sendRecord_near ..).eye

@[simp] theorem respond_eye (s : State) (r : MboxRec) (opcode : BitVec 16) (status : Byte) (result : List Byte) : (respond s r opcode status result).phn.eye = s.phn.eye := (respond_near ..).eye

@[simp] theorem writeTile_eye (s : State) (dha : Nat) (kind : BitVec 2) (bs : List Byte) : (writeTile s dha kind bs).phn.eye = s.phn.eye := by simp [writeTile]

@[simp] theorem addUpsets_eye (s : State) (dha : Nat) (ups : List BurstUpset) : (addUpsets s dha ups).phn.eye = s.phn.eye :=
  eye_foldl _ _ _ fun t u => by
    dsimp only
    split <;> rfl

@[simp] theorem readBursts_eye (s : State) (dha n : Nat) : (readBursts s dha n).2.phn.eye = s.phn.eye := by
  unfold readBursts
  dsimp only
  split <;> simp

@[simp] theorem readTile_eye (s : State) (dha : Nat) : (readTile s dha).2.2.phn.eye = s.phn.eye := by simp [readTile]

/-! #### Lath -/

@[simp] theorem joinPools_eye (s : State) : (joinPools s).phn.eye = s.phn.eye := by simp [joinPools]

@[simp] theorem grantBuffer_eye (s : State) (o : Owner) (q p : Nat) : (grantBuffer s o q p).2.phn.eye = s.phn.eye := by
  unfold grantBuffer
  dsimp only
  repeat' split
  all_goals simp

@[simp] theorem grantPiece_eye (s : State) (o : Owner) (q p : Nat) : (grantPiece s o q p).2.phn.eye = s.phn.eye := by
  unfold grantPiece
  dsimp only
  repeat' split
  all_goals simp

@[simp] theorem grantPieces_eye (o : Owner) (r p n k : Nat) (s : State) : (grantPieces o r p n k s).2.phn.eye = s.phn.eye := by
  induction n generalizing k s with
  | zero => rfl
  | succ n ih =>
    unfold grantPieces
    split
    · next h => exact eye_of_pair (grantPiece_eye ..) h
    · next h =>
      have kept := eye_of_pair (grantPiece_eye ..) h
      split <;> next g => exact (eye_of_pair (ih ..) g).trans kept

@[simp] theorem dropHeld_eye (s : State) (o : Owner) : (dropHeld s o).phn.eye = s.phn.eye := by simp [dropHeld]

@[simp] theorem lathFree_eye (s : State) (o : Owner) (h : Nat) : (lathFree s o h).2.phn.eye = s.phn.eye := by
  unfold lathFree
  dsimp only
  repeat' split
  all_goals simp

@[simp] theorem openFence_eye (s : State) (o : Owner) : (openFence s o).phn.eye = s.phn.eye := by simp [openFence]

@[simp] theorem closeFence_eye (s : State) (f : Fence) : (closeFence s f).phn.eye = s.phn.eye := by simp [closeFence]

@[simp] theorem lathAnswer_eye (s : State) (c : LathCmd) (code : Byte) (handle : BitVec 32) : (lathAnswer s c code handle).phn.eye = s.phn.eye := by
  unfold lathAnswer
  dsimp only
  repeat' split
  all_goals simp

@[simp] theorem lathDo_eye (s : State) (c : LathCmd) : (lathDo s c).phn.eye = s.phn.eye := by
  unfold lathDo
  dsimp only
  split
  · split_ifs
    · simp
    · simp
    · split <;> next h => simp [eye_of_pair (grantBuffer_eye ..) h]
  · simp
  · split_ifs <;> simp
  · split_ifs <;> simp
  · split_ifs
    · simp
    · split <;> simp
  · simp
  · split_ifs <;> simp
  · simp

@[simp] theorem lathRun_eye (fuel : Nat) (s : State) : (lathRun fuel s).phn.eye = s.phn.eye := by
  induction fuel generalizing s with
  | zero => rfl
  | succ n ih =>
    unfold lathRun
    dsimp only
    repeat' split
    all_goals simp [ih]

@[simp] theorem lathQueue_eye (s : State) (c : LathCmd) : (lathQueue s c).phn.eye = s.phn.eye := by simp [lathQueue]

@[simp] theorem proxyFree_eye (s : State) (o : Owner) : (proxyFree s o).phn.eye = s.phn.eye := by simp [proxyFree]

@[simp] theorem releaseOwner_eye (s : State) (o : Owner) (only : Option (List Nat)) : (releaseOwner s o only).phn.eye = s.phn.eye := by simp [releaseOwner]

@[simp] theorem lathCommand_eye (s : State) (host : Bool) (op : LathOp) (o : Owner) (mbox : Option MboxRec) : (lathCommand s host op o mbox).phn.eye = s.phn.eye := by
  unfold lathCommand
  dsimp only
  repeat' split
  all_goals simp

@[simp] theorem lathCmdWriteBy_eye (host : Bool) (may : LathOp → Owner → Bool) (s : State) (v : BitVec 32) : (lathCmdWriteBy host may s v).phn.eye = s.phn.eye := by simp [lathCmdWriteBy]

@[simp] theorem lathCmdWrite_eye (s : State) (v : BitVec 32) : (lathCmdWrite s v).phn.eye = s.phn.eye := by simp [lathCmdWrite]

@[simp] theorem lathCmdPoke_eye (num : BitVec 16) (s : State) (v : BitVec 32) : (lathCmdPoke num s v).phn.eye = s.phn.eye := by simp [lathCmdPoke]

@[simp] theorem lathByHawk_eye (s : State) (op cls pool quad : Nat) (handle name new : Option (BitVec 32)) : (lathByHawk s op cls pool quad handle name new).phn.eye = s.phn.eye := by simp [lathByHawk]

@[simp] theorem legFramesWrite_eye (s : State) (p : Nat) (v : BitVec 32) : (legFramesWrite s p v).phn.eye = s.phn.eye := by simp [legFramesWrite]

@[simp] theorem fenceMoves_eye (s : State) (f : Fence) : (fenceMoves s f).phn.eye = s.phn.eye := by simp [fenceMoves]

@[simp] theorem fenceConfirm_eye (s : State) (u : FenceUser) (ep : BitVec 16) : (fenceConfirm s u ep).phn.eye = s.phn.eye := by
  unfold fenceConfirm
  split <;> simp

@[simp] theorem engConfirm_eye (s : State) (e : Nat) : (engConfirm s e).phn.eye = s.phn.eye := by
  unfold engConfirm
  split <;> simp

@[simp] theorem fenceStuck_eye (s : State) : (fenceStuck s).phn.eye = s.phn.eye := by
  unfold fenceStuck
  split <;> simp

/-! #### Output queues -/

@[simp] theorem enqueue_eye (s : State) (qn : Nat) (e : QEntry) : (enqueue s qn e).phn.eye = s.phn.eye := by simp [enqueue]

@[simp] theorem takeHead_eye (s : State) (qn : Nat) : (takeHead s qn).phn.eye = s.phn.eye := by
  unfold takeHead
  extract_lets q
  split <;> rfl

@[simp] theorem fairRestart_eye (s : State) (b : Nat) : (fairRestart s b).phn.eye = s.phn.eye := by simp [fairRestart]

@[simp] theorem arrive_eye (s : State) (qn : Nat) (it : QItem) (isSend : Bool) : (arrive s qn it isSend).2.phn.eye = s.phn.eye := by
  unfold arrive
  extract_lets q now ch bindOk room
  split
  extract_lets ok policed nonconf markPol t
  have marked (u : State) : (markPol u).phn.eye = u.phn.eye := (eye_ite ..).trans (ite_self _)
  split_ifs
  · exact marked _
  · exact (enqueue_eye ..).trans (marked _)
  · rfl
  · exact marked _

@[simp] theorem arriveCtl_eye (s : State) (b : Nat) (it : QItem) : (arriveCtl s b it).phn.eye = s.phn.eye := by simp [arriveCtl]

@[simp] theorem refillShapers_eye (s : State) (b : Nat) : (refillShapers s b).phn.eye = s.phn.eye := by simp [refillShapers]

@[simp] theorem takeNumbered_eye (b fuel room : Nat) (s : State) : (takeNumbered b fuel room s).2.phn.eye = s.phn.eye := by
  induction fuel generalizing room s with
  | zero => rfl
  | succ n ih =>
    unfold takeNumbered
    split
    · rfl
    · split
      · rfl
      · split_ifs
        · exact (ih ..).trans (takeHead_eye ..)
        · rfl

@[simp] theorem takeSegments_eye (s : State) (b room : Nat) : (takeSegments s b room).2.phn.eye = s.phn.eye := by
  unfold takeSegments
  dsimp only
  split <;> simp

@[simp] theorem gateSwap_eye (s : State) : (gateSwap s).phn.eye = s.phn.eye := by simp [gateSwap]

@[simp] theorem armGates_eye (s : State) : (armGates s).phn.eye = s.phn.eye := by simp [armGates]

@[simp] theorem gateEnable_eye (s : State) (en : Bool) : (gateEnable s en).phn.eye = s.phn.eye := by simp [gateEnable]

@[simp] theorem sampleQueue_eye (s : State) (qn : Nat) : (sampleQueue s qn).phn.eye = s.phn.eye := by simp [sampleQueue]

@[simp] theorem armSampling_eye (s : State) (period : BitVec 32) : (armSampling s period).phn.eye = s.phn.eye := by simp [armSampling]

@[simp] theorem clrMax_eye (s : State) : (clrMax s).phn.eye = s.phn.eye := by
  unfold clrMax
  exact eye_foldl _ _ _ fun _ _ => by simp

@[simp] theorem schClrCounts_eye (s : State) : (schClrCounts s).phn.eye = s.phn.eye := by
  unfold schClrCounts
  dsimp only
  exact eye_foldl _ _ _ fun _ _ => by simp

@[simp] theorem writeQueueCfg_eye (s : State) (qn : Nat) (v : BitVec 32) : (writeQueueCfg s qn v).phn.eye = s.phn.eye :=
  eye_ite_of rfl (eye_ite_of rfl rfl)

@[simp] theorem queueCfgWrite_eye (s : State) (qn : Nat) (reg : QueueReg) (v : BitVec 32) : (queueCfgWrite s qn reg v).phn.eye = s.phn.eye := by
  unfold queueCfgWrite
  dsimp only
  repeat' split
  all_goals simp

/-! #### Plans and their ends -/

@[simp] theorem growArea_eye (o : Owner) (q fuel : Nat) (s : State) : (growArea o q fuel s).2.phn.eye = s.phn.eye := by
  induction fuel generalizing s with
  | zero => rfl
  | succ n ih =>
    unfold growArea
    split_ifs
    · rfl
    · split <;> next h => simp [ih, eye_of_pair (grantBuffer_eye ..) h]

@[simp] theorem fitArea_eye (s : State) (kind : Byte) (b : Nat) (extra : Option Plan) : (fitArea s kind b extra).2.phn.eye = s.phn.eye := by simp [fitArea]

@[simp] theorem freeHandles_eye (s : State) (hs : List Nat) : (freeHandles s hs).phn.eye = s.phn.eye := by simp [freeHandles]

@[simp] theorem trimAreas_eye (s : State) : (trimAreas s).phn.eye = s.phn.eye := by simp [trimAreas]

@[simp] theorem releaseNextRegions_eye (s : State) (p : Plan) : (releaseNextRegions s p).phn.eye = s.phn.eye := by simp [releaseNextRegions]

@[simp] theorem dropNext_eye (s : State) (mark : Bool) : (dropNext s mark).phn.eye = s.phn.eye := by
  unfold dropNext
  split <;> simp

@[simp] theorem cancelEngine_eye (s : State) (e : Nat) : (cancelEngine s e).phn.eye = s.phn.eye := by simp [cancelEngine]

@[simp] theorem toHalted_eye (s : State) (cause : BitVec 4) (step : BitVec 32) : (toHalted s cause step).phn.eye = s.phn.eye := by
  unfold toHalted
  split <;> simp

@[simp] theorem haltNow_eye (s : State) (cause : BitVec 4) : (haltNow s cause).phn.eye = s.phn.eye := by simp [haltNow]

@[simp] theorem armTrig_eye (s : State) (c : Nat) (t : PCount) : (armTrig s c t).phn.eye = s.phn.eye := by simp [armTrig]

@[simp] theorem applyExt_eye (s : State) (step v : BitVec 32) : (applyExt s step v).2.phn.eye = s.phn.eye := by
  unfold applyExt
  dsimp only
  repeat' split
  all_goals simp

/-! #### Collectives -/

@[simp] theorem putInst_eye (s : State) (x : Inst) : (putInst s x).phn.eye = s.phn.eye := by simp [putInst]

@[simp] theorem abortResult_eye (s : State) (code : Byte) : (abortResult s code).phn.eye = s.phn.eye := by
  unfold abortResult
  dsimp only
  split <;> simp

@[simp] theorem recordOutcome_eye (s : State) (x : Inst) (d : Decision) : (recordOutcome s x d).phn.eye = s.phn.eye := by simp [recordOutcome]

@[simp] theorem decideInst_eye (s : State) (x : Inst) (d : Decision) : (decideInst s x d).1.phn.eye = s.phn.eye := by
  unfold decideInst
  split <;> simp

@[simp] theorem trySeal_eye (s : State) (coll : Nat) (step : BitVec 32) : (trySeal s coll step).1.phn.eye = s.phn.eye := by
  unfold trySeal
  dsimp only
  repeat' split
  all_goals simp

@[simp] theorem trySealAll_eye (s : State) (coll : Nat) : (trySealAll s coll).1.phn.eye = s.phn.eye := by simp [trySealAll]

@[simp] theorem rootAbort_eye (s : State) (m : ClcMsg) : (rootAbort s m).1.phn.eye = s.phn.eye := by
  unfold rootAbort
  dsimp only
  repeat' split
  all_goals simp

@[simp] theorem rootRaise_eye (s : State) (coll : Nat) (step : BitVec 32) (code : Byte) (subj : Option (BitVec 16)) : (rootRaise s coll step code subj).1.phn.eye = s.phn.eye := by simp [rootRaise]

@[simp] theorem holdEnd_eye (s : State) (coll : Nat) (step : BitVec 32) : (holdEnd s coll step).1.phn.eye = s.phn.eye := by
  unfold holdEnd
  dsimp only
  repeat' split
  all_goals simp

@[simp] theorem markMismatch_eye (s : State) : (markMismatch s).phn.eye = s.phn.eye := by simp [markMismatch]

@[simp] theorem onJoin_eye (s : State) (m : ClcMsg) : (onJoin s m).1.phn.eye = s.phn.eye := by
  unfold onJoin
  dsimp only
  repeat' split
  all_goals simp

@[simp] theorem onSiteJoin_eye (s : State) (m : ClcMsg) : (onSiteJoin s m).1.phn.eye = s.phn.eye := by
  unfold onSiteJoin
  dsimp only
  repeat' split
  all_goals simp

@[simp] theorem onReady_eye (s : State) (m : ClcMsg) : (onReady s m).1.phn.eye = s.phn.eye := by
  unfold onReady
  dsimp only
  repeat' split
  all_goals simp

@[simp] theorem onSiteReady_eye (s : State) (m : ClcMsg) : (onSiteReady s m).1.phn.eye = s.phn.eye := by
  unfold onSiteReady
  dsimp only
  repeat' split
  all_goals simp

@[simp] theorem onAbortReq_eye (s : State) (m : ClcMsg) : (onAbortReq s m).1.phn.eye = s.phn.eye := by
  unfold onAbortReq
  split_ifs <;> simp

@[simp] theorem onLate_eye (s : State) (m : ClcMsg) : (onLate s m).1.phn.eye = s.phn.eye := by
  unfold onLate
  dsimp only
  repeat' split
  all_goals simp

@[simp] theorem onExt_eye (s : State) (m : ClcMsg) : (onExt s m).1.phn.eye = s.phn.eye := by
  unfold onExt
  split <;> simp

@[simp] theorem onRing_eye (s : State) (m : ClcMsg) : (onRing s m).1.phn.eye = s.phn.eye := by
  unfold onRing
  dsimp only
  repeat' split
  all_goals simp

@[simp] theorem onNotify_eye (s : State) (m : ClcMsg) : (onNotify s m).1.phn.eye = s.phn.eye := by
  unfold onNotify
  split <;> simp

@[simp] theorem onAbortReply_eye (s : State) (m : ClcMsg) : (onAbortReply s m).1.phn.eye = s.phn.eye := by
  unfold onAbortReply
  split_ifs <;> simp

@[simp] theorem mirrorSend_eye (x : Nat) (p : State × Sends) (t : Nat × Nat) : (mirrorSend x p t).1.phn.eye = p.1.phn.eye := by
  unfold mirrorSend
  dsimp only
  repeat' split
  all_goals simp

@[simp] theorem mirrorOut_eye (s : State) (r t : Nat) (kind : BitVec 2) (bs : List Byte) : (mirrorOut s r t kind bs).phn.eye = s.phn.eye := by simp [mirrorOut]

@[simp] theorem onRebuildReq_eye (s : State) (m : ClcMsg) : (onRebuildReq s m).1.phn.eye = s.phn.eye := by
  unfold onRebuildReq
  dsimp only
  repeat' split
  all_goals simp

@[simp] theorem onRebuilt_eye (s : State) (m : ClcMsg) : (onRebuilt s m).1.phn.eye = s.phn.eye := by
  unfold onRebuilt
  split <;> simp

@[simp] theorem sendPair_eye (s : State) (type : Byte) (body : List Byte) : (sendPair s type body).phn.eye = s.phn.eye := by
  unfold sendPair
  dsimp only
  split <;> simp

@[simp] theorem seForward_eye (s : State) (type : Byte) (body : List Byte) : (seForward s type body).phn.eye = s.phn.eye := by simp [seForward]

@[simp] theorem clcDrop_eye (s : State) : (clcDrop s).phn.eye = s.phn.eye := by simp [clcDrop]

@[simp] theorem clcHandle_eye (s : State) (m : ClcMsg) (own : Bool) : (clcHandle s m own).1.phn.eye = s.phn.eye := by
  unfold clcHandle
  dsimp only
  repeat' split
  all_goals simp

@[simp] theorem sendMsg_eye (s : State) (dest : Nat) (m : ClcMsg) : (sendMsg s dest m).phn.eye = s.phn.eye := by simp [sendMsg]

@[simp] theorem clcSend_eye (fuel : Nat) (p : State × Sends) : (clcSend fuel p).phn.eye = p.1.phn.eye := by
  induction fuel generalizing p with
  | zero => simp [clcSend]
  | succ n ih =>
    obtain ⟨s, _ | ⟨⟨dest, m⟩, rest⟩⟩ := p
    · rfl
    · unfold clcSend
      split_ifs <;> simp [ih]

@[simp] theorem clcOut_eye (p : State × Sends) : (clcOut p).phn.eye = p.1.phn.eye := by simp [clcOut]

@[simp] theorem clcTake_eye (s : State) (m : ClcMsg) : (clcTake s m).phn.eye = s.phn.eye := by simp [clcTake]

@[simp] theorem clcReceive_eye (s : State) (m : ClcMsg) : (clcReceive s m).phn.eye = s.phn.eye := by simp [clcReceive]

@[simp] theorem clcCommand_eye (s : State) (type : Byte) (m : ClcMsg) : (clcCommand s type m).phn.eye = s.phn.eye := by simp [clcCommand]

@[simp] theorem clcAbort_eye (s : State) (coll : Nat) (step : BitVec 32) (mbox : Option MboxRec) : (clcAbort s coll step mbox).phn.eye = s.phn.eye := by simp [clcAbort]

@[simp] theorem clcClrCounts_eye (s : State) : (clcClrCounts s).phn.eye = s.phn.eye := by simp [clcClrCounts]

@[simp] theorem raiseStep_eye (s : State) (code : Byte) : (raiseStep s code).phn.eye = s.phn.eye := by
  unfold raiseStep
  split
  · rfl
  · exact eye_foldl _ _ _ fun t c => by split <;> simp

/-! #### Straightedge -/

theorem pairTake_eye (s : State) (h : PairHdr) (f : State → State) (kept : ∀ u, (f u).phn.eye = u.phn.eye) : (pairTake s h f).phn.eye = s.phn.eye := by
  unfold pairTake
  split_ifs
  · rw [kept]
  · rfl

@[simp] theorem seHello_eye (s : State) (h : PairHdr) (role : BitVec 8) (part : BitVec 16) (stepping : BitVec 8) (asig : BitVec 32) (hash : BitVec 64) : (seHello s h role part stepping asig hash).phn.eye = s.phn.eye := by
  unfold seHello
  refine pairTake_eye _ _ _ fun u => ?_
  simp

@[simp] theorem putSlot_eye (s : State) (x : SeSlotRec) : (putSlot s x).phn.eye = s.phn.eye := by simp [putSlot]

@[simp] theorem dropSlot_eye (s : State) (x : SeSlotRec) : (dropSlot s x).phn.eye = s.phn.eye := by simp [dropSlot]

@[simp] theorem seAct_eye (s : State) : (seAct s).phn.eye = s.phn.eye := by simp [seAct]

@[simp] theorem seFinal_eye (s : State) : (seFinal s).phn.eye = s.phn.eye := by
  unfold seFinal
  split <;> simp

@[simp] theorem seAddr_eye (s : State) (r : SeSlotRec) (d : Dest) (loc peer : BitVec 64) : (seAddr s r d loc peer).phn.eye = s.phn.eye := by
  unfold seAddr
  split <;> simp

@[simp] theorem seDiverge_eye (s : State) (r : SeSlotRec) (loc peer : BitVec 64) (count : Nat) : (seDiverge s r loc peer count).phn.eye = s.phn.eye := by
  unfold seDiverge
  dsimp only
  repeat' split
  all_goals simp

@[simp] theorem seCompare_eye (s : State) (r : SeSlotRec) (peer : BitVec 64) (count : Nat) : (seCompare s r peer count).phn.eye = s.phn.eye := by
  unfold seCompare
  split <;> simp

@[simp] theorem seSlot_eye (s : State) (h : PairHdr) (step : BitVec 32) (slot : BitVec 16) (e : Fin 64) (count : BitVec 32) (digest : BitVec 64) : (seSlot s h step slot e count digest).phn.eye = s.phn.eye := by
  unfold seSlot
  refine pairTake_eye _ _ _ fun u => ?_
  dsimp only
  repeat' split
  all_goals simp

@[simp] theorem seDestReq_eye (s : State) (h : PairHdr) (step : BitVec 32) (slot : BitVec 16) (e : Fin 64) : (seDestReq s h step slot e).phn.eye = s.phn.eye := by
  unfold seDestReq
  refine pairTake_eye _ _ _ fun u => ?_
  repeat' split
  all_goals simp

@[simp] theorem seDest_eye (s : State) (h : PairHdr) (step : BitVec 32) (slot : BitVec 16) (e : Fin 64) (idx : BitVec 32) (d : Option DestRec) : (seDest s h step slot e idx d).phn.eye = s.phn.eye := by
  unfold seDest
  refine pairTake_eye _ _ _ fun u => ?_
  dsimp only
  repeat' split
  all_goals simp

@[simp] theorem seCtl_eye (s : State) (h : PairHdr) (m : ClcMsg) : (seCtl s h m).phn.eye = s.phn.eye := by
  unfold seCtl
  refine pairTake_eye _ _ _ fun u => ?_
  simp

@[simp] theorem seForget_eye (drop : BitVec 32 → Bool) (s : State) : (seForget drop s).phn.eye = s.phn.eye := by simp [seForget]

@[simp] theorem seSeam_eye (s : State) : (seSeam s).phn.eye = s.phn.eye := by simp [seSeam]

@[simp] theorem seTrim_eye (e fuel : Nat) (s : State) : (seTrim e fuel s).phn.eye = s.phn.eye := by
  induction fuel generalizing s with
  | zero => rfl
  | succ k ih =>
    unfold seTrim
    dsimp only
    split_ifs
    · rfl
    · split
      · simp [ih]
      · rfl

@[simp] theorem seAdd_eye (s : State) (slot e : Nat) (ds : List Dest) : (seAdd s slot e ds).phn.eye = s.phn.eye := by simp [seAdd]

@[simp] theorem seClose_eye (s : State) (slot e : Nat) : (seClose s slot e).phn.eye = s.phn.eye := by
  unfold seClose
  dsimp only
  repeat' split
  all_goals simp

@[simp] theorem clrCapture_eye (s : State) : (clrCapture s).phn.eye = s.phn.eye := by simp [clrCapture]

@[simp] theorem seClrCounts_eye (s : State) : (seClrCounts s).phn.eye = s.phn.eye := by simp [seClrCounts]

@[simp] theorem seRoleWrite_eye (s : State) (v : BitVec 32) : (seRoleWrite s v).phn.eye = s.phn.eye := by simp [seRoleWrite]

/-! #### Skim -/

@[simp] theorem setSubQ_eye (s : State) (n : Nat) (q : List (List Byte)) : (setSubQ s n q).phn.eye = s.phn.eye := by simp [setSubQ]

@[simp] theorem skmErr_eye (s : State) (i : Nat) : (skmErr s i).phn.eye = s.phn.eye := by simp [skmErr]

@[simp] theorem unitDrop_eye (s : State) : (unitDrop s).phn.eye = s.phn.eye := by simp [unitDrop]

@[simp] theorem setTslot_eye (s : State) (e : Nat) (x : TblSlot) : (setTslot s e x).phn.eye = s.phn.eye := by simp [setTslot]

@[simp] theorem tblResult_eye (s : State) (code : Nat) : (tblResult s code).phn.eye = s.phn.eye := by simp [tblResult]

@[simp] theorem tblLoad_eye (s : State) : (tblLoad s).phn.eye = s.phn.eye := by
  unfold tblLoad
  dsimp only
  repeat' split
  all_goals simp

@[simp] theorem tblLoadDone_eye (s : State) : (tblLoadDone s).phn.eye = s.phn.eye := by simp [tblLoadDone]

@[simp] theorem tblActivate_eye (s : State) (e : Nat) : (tblActivate s e).phn.eye = s.phn.eye := by simp [tblActivate]

@[simp] theorem tblRetire_eye (s : State) (e : Nat) : (tblRetire s e).phn.eye = s.phn.eye := by simp [tblRetire]

@[simp] theorem skmClrCounts_eye (s : State) : (skmClrCounts s).phn.eye = s.phn.eye := by simp [skmClrCounts]

@[simp] theorem skmCtrlWrite_eye (s : State) (v : BitVec 32) : (skmCtrlWrite s v).phn.eye = s.phn.eye := by simp [skmCtrlWrite]

@[simp] theorem bufferExhausted_eye (s : State) (b : List Byte) : (bufferExhausted s b).phn.eye = s.phn.eye := by
  unfold bufferExhausted
  split <;> simp

@[simp] theorem catchupWrite_eye (s : State) (source : Nat) (received : Bool) (b : List Byte) : (catchupWrite s source received b).2.phn.eye = s.phn.eye := by
  unfold catchupWrite
  dsimp only
  repeat' split
  all_goals simp

@[simp] theorem catchupConsumed_eye (s : State) (n : Nat) (b : List Byte) : (catchupConsumed s n b).phn.eye = s.phn.eye := by simp [catchupConsumed]

@[simp] theorem unitQueue_eye (s : State) (src : Nat) (bytes : List Byte) : (unitQueue s src bytes).phn.eye = s.phn.eye := by
  unfold unitQueue
  dsimp only
  repeat' split
  all_goals simp

@[simp] theorem decodeLossless_eye (s : State) (b : List Byte) : (decodeLossless s b).2.phn.eye = s.phn.eye := by simp [decodeLossless]

@[simp] theorem drainHbm_eye (n fuel : Nat) (s : State) : (drainHbm n fuel s).phn.eye = s.phn.eye := by
  induction fuel generalizing s with
  | zero => rfl
  | succ k ih =>
    unfold drainHbm
    dsimp only
    split
    · rfl
    · split_ifs
      · rw [ih]
        split <;> simp
      · rw [ih]
        simp
      · rfl

@[simp] theorem sendArrive_eye (s : State) (q : Nat) (it : QItem) (isSend : Bool) : (sendArrive s q it isSend).2.phn.eye = s.phn.eye := by
  unfold sendArrive
  split <;> simp

@[simp] theorem sendUnit_eye (s : State) (x : Chan) (b : List Byte) : (sendUnit s x b).phn.eye = s.phn.eye := by simp [sendUnit]

@[simp] theorem sendLossless_eye (s : State) (c q : Nat) (u : List Byte) : (sendLossless s c q u).phn.eye = s.phn.eye := by simp [sendLossless]

@[simp] theorem writeResidual_eye (s : State) (x : Chan) (place : Nat) (kind : BitVec 2) (bs : List Byte) : (writeResidual s x place kind bs).phn.eye = s.phn.eye := by
  unfold writeResidual
  dsimp only
  split <;> simp

@[simp] theorem countEnc_eye (s : State) (o : EncOut) : (countEnc s o).phn.eye = s.phn.eye := by simp [countEnc]

@[simp] theorem nextResid_eye (s : State) (n : Nat) : (nextResid s n).2.phn.eye = s.phn.eye := by
  unfold nextResid
  dsimp only
  split_ifs
  · rfl
  · split
    · rfl
    · split_ifs <;> simp

/-! #### Mirror parity and rebuild -/

@[simp] theorem putWord_eye (s : State) (w : MWord) : (putWord s w).phn.eye = s.phn.eye := by simp [putWord]

@[simp] theorem storeWord_eye (s : State) (w : MWord) (bs : List Byte) : (storeWord s w bs).phn.eye = s.phn.eye := by
  unfold storeWord
  dsimp only
  split <;> simp

@[simp] theorem shareWord_eye (s : State) (w : MWord) (bs : List Byte) : (shareWord s w bs).phn.eye = s.phn.eye := by simp [shareWord]

@[simp] theorem finishRebuild_eye (s : State) : (finishRebuild s).phn.eye = s.phn.eye := by simp [finishRebuild]

@[simp] theorem mirrorIntegrity_eye (s : State) (coll : Nat) : (mirrorIntegrity s coll).phn.eye = s.phn.eye := by
  unfold mirrorIntegrity
  repeat' split
  all_goals simp

@[simp] theorem gather_eye (s : State) (w : MWord) (m : Nat) (kind : BitVec 2) (bs : List Byte) : (gather s w m kind bs).phn.eye = s.phn.eye := by
  unfold gather
  dsimp only
  repeat' split
  all_goals simp

@[simp] theorem mirrorTake_eye (s : State) (h : MirrorHdr) (t : IqTile) : (mirrorTake s h t).phn.eye = s.phn.eye := by
  unfold mirrorTake
  dsimp only
  repeat' split
  all_goals simp

@[simp] theorem catchupCopy_eye (s : State) (src : Nat) (b : List Byte) : (catchupCopy s src b).phn.eye = s.phn.eye := by simp [catchupCopy]

@[simp] theorem bindSpare_eye (s : State) : (bindSpare s).phn.eye = s.phn.eye := by
  unfold bindSpare
  dsimp only
  split <;> simp

/-! #### Strokes and their counts -/

@[simp] theorem engFault_eye (s : State) (e cause whereF : Nat) (iq : Bool) (stroke : BitVec 16) : (engFault s e cause whereF iq stroke).phn.eye = s.phn.eye := by simp [engFault]

@[simp] theorem returnCredit_eye (s : State) (e q : Nat) (t : IqTile) : (returnCredit s e q t).phn.eye = s.phn.eye := by
  unfold returnCredit
  split <;> simp

@[simp] theorem iqInsert_eye (s : State) (e q : Nat) (t : IqTile) : (iqInsert s e q t).phn.eye = s.phn.eye := by simp [iqInsert]

@[simp] theorem takeResid_eye (n fuel : Nat) (s : State) : (takeResid n fuel s).2.phn.eye = s.phn.eye := by
  induction fuel generalizing s with
  | zero => rfl
  | succ k ih =>
    unfold takeResid
    split <;> next h => simp [ih, eye_of_pair (nextResid_eye ..) h]

@[simp] theorem takeUnit_eye (s : State) (n : Nat) : (takeUnit s n).2.phn.eye = s.phn.eye := by
  unfold takeUnit
  repeat' split
  all_goals simp

@[simp] theorem closeSlot_eye (b : Body) (e : Nat) (s : State) (k : Nat) : (closeSlot b e s k).phn.eye = s.phn.eye := by
  unfold closeSlot
  dsimp only
  repeat' split
  all_goals simp

@[simp] theorem closeSlots_eye (s : State) (e : Nat) : (closeSlots s e).phn.eye = s.phn.eye := by simp [closeSlots]

@[simp] theorem strokeComplete_eye (s : State) (e : Nat) (fl : Flight) : (strokeComplete s e fl).phn.eye = s.phn.eye := by simp [strokeComplete]

@[simp] theorem putFlight_eye (s : State) (e : Nat) (fl : Flight) : (putFlight s e fl).phn.eye = s.phn.eye := by simp [putFlight]

@[simp] theorem flightWaits_eye (s : State) (e : Nat) (fl : Flight) : (flightWaits s e fl).phn.eye = s.phn.eye := by simp [flightWaits]

@[simp] theorem endWait_eye (s : State) (e : Nat) (fl : Flight) : (endWait s e fl).phn.eye = s.phn.eye := by
  unfold endWait
  split <;> simp

/-- The state that a stroke's count leaves, whatever it comes to. -/
def CountRes.state : CountRes → State
  | .wait s => s
  | .fault s _ _ _ => s
  | .ok s _ => s

theorem withTiles_eye {s : State} {f : List (List Byte × TileTag) → CountRes} (e : Nat) (fl : Flight) (img : Option Bool) (slots : List Nat)
    (kept : ∀ ts, (f ts).state.phn.eye = s.phn.eye) : (withTiles s e fl img slots f).state.phn.eye = s.phn.eye := by
  unfold withTiles
  split
  · rfl
  · rfl
  · exact kept _

theorem withRows_eye {s : State} {f : State → CountRes} (e start n : Nat) (kept : ∀ u, (f u).state.phn.eye = u.phn.eye) : (withRows s e start n f).state.phn.eye = s.phn.eye := by
  unfold withRows
  split
  · rfl
  · exact kept _

theorem addSpan_eye (s : State) (e : Nat) (fl : Flight) (j0 : Nat) (vs : List Num) : (addSpan s e fl j0 vs).state.phn.eye = s.phn.eye := by
  unfold addSpan
  exact withRows_eye _ _ _ fun _ => rfl

theorem countLoad_eye (s : State) (e : Nat) (fl : Flight) : (countLoad s e fl).state.phn.eye = s.phn.eye := by
  unfold countLoad
  dsimp only
  split_ifs <;> rfl

theorem countStore_eye (s : State) (e : Nat) (fl : Flight) : (countStore s e fl).state.phn.eye = s.phn.eye :=
  withTiles_eye _ _ _ _ fun ts => by
    dsimp only
    split
    · simp [CountRes.state]
    · rfl

theorem countSend_eye (s : State) (e : Nat) (fl : Flight) : (countSend s e fl).state.phn.eye = s.phn.eye :=
  withTiles_eye _ _ _ _ fun ts => by
    dsimp only
    split
    · rfl
    · split_ifs
      · simp [CountRes.state]
      · rfl
      · split
        · split_ifs
          · rfl
          · simp [CountRes.state]
        · split
          · rfl
          · next h => exact eye_of_pair (sendArrive_eye ..) h

theorem countAccIq_eye (s : State) (e q : Nat) (fl : Flight) : (countAccIq s e q fl).state.phn.eye = s.phn.eye := by
  unfold countAccIq
  split
  · rfl
  · next t rest _ =>
    split_ifs
    · rfl
    · have kept := addSpan_eye s e fl (t.tileNo.toNat * elemsPerTile (wFmt fl.word)) (tileNums (wFmt fl.word) t.data)
      split
      · next h => rw [h] at kept; exact (returnCredit_eye ..).trans kept
      · exact kept

theorem countAcc_eye (s : State) (e : Nat) (fl : Flight) : (countAcc s e fl).state.phn.eye = s.phn.eye := by
  unfold countAcc
  split_ifs
  · exact countAccIq_eye ..
  · refine withTiles_eye _ _ _ _ fun ts => ?_
    split
    · rfl
    · exact addSpan_eye ..

theorem countAddla_eye (s : State) (e : Nat) (fl : Flight) : (countAddla s e fl).state.phn.eye = s.phn.eye :=
  withTiles_eye _ _ _ _ fun ts => by
    split
    · rfl
    · exact withRows_eye _ _ _ fun _ => rfl

theorem countAdd_eye (s : State) (e : Nat) (fl : Flight) : (countAdd s e fl).state.phn.eye = s.phn.eye :=
  withTiles_eye _ _ _ _ fun ts => by split <;> rfl

theorem countFma_eye (s : State) (e : Nat) (fl : Flight) : (countFma s e fl).state.phn.eye = s.phn.eye :=
  withTiles_eye _ _ _ _ fun ts => by split <;> rfl

theorem countDot_eye (s : State) (e : Nat) (fl : Flight) : (countDot s e fl).state.phn.eye = s.phn.eye :=
  withTiles_eye _ _ _ _ fun ts => by
    split
    · exact addSpan_eye ..
    · rfl

theorem countCvt_eye (s : State) (e : Nat) (fl : Flight) : (countCvt s e fl).state.phn.eye = s.phn.eye :=
  withTiles_eye _ _ _ _ fun ts => by split <;> rfl

theorem countSum64_eye (s : State) (e : Nat) (fl : Flight) : (countSum64 s e fl).state.phn.eye = s.phn.eye :=
  withTiles_eye _ _ _ _ fun ts => by split_ifs <;> rfl

theorem sendEncoded_eye (s : State) (e : Nat) (fl : Flight) (c : Nat) (o : EncOut) : (sendEncoded s e fl c o).state.phn.eye = s.phn.eye := by
  unfold sendEncoded
  extract_lets x idx t sats u ds part place whole bank d
  have kept : u.phn.eye = s.phn.eye := (sendUnit_eye ..).trans (countEnc_eye ..)
  split
  · exact kept
  · split
    · exact (writeResidual_eye ..).trans kept
    · exact kept

theorem countSkenc_eye (s : State) (e : Nat) (fl : Flight) : (countSkenc s e fl).state.phn.eye = s.phn.eye :=
  withTiles_eye _ _ _ _ fun ts => by
    split
    · rfl
    · exact sendEncoded_eye ..

theorem countSkdec_eye (s : State) (e : Nat) (fl : Flight) : (countSkdec s e fl).state.phn.eye = s.phn.eye := by
  unfold countSkdec
  dsimp only
  split
  · next h => exact eye_of_pair (takeUnit_eye ..) h
  · next h =>
    have kept := eye_of_pair (takeUnit_eye ..) h
    split_ifs
    · exact (addSpan_eye ..).trans kept
    · exact kept

theorem countRdla_eye (s : State) (e : Nat) (fl : Flight) : (countRdla s e fl).state.phn.eye = s.phn.eye := by
  unfold countRdla
  exact withRows_eye _ _ _ fun _ => rfl

theorem countSvla_eye (s : State) (e : Nat) (fl : Flight) : (countSvla s e fl).state.phn.eye = s.phn.eye := by
  unfold countSvla
  exact withRows_eye _ _ _ fun _ => rfl

theorem countKernel_eye (s : State) (e : Nat) (fl : Flight) : (countKernel s e fl).state.phn.eye = s.phn.eye := by
  unfold countKernel
  exact withTiles_eye _ _ _ _ fun _ => rfl

theorem count_ite {c : Prop} [Decidable c] {a b : CountRes} {e : Bool × (Nat → Safety)} (whenTrue : a.state.phn.eye = e) (whenFalse : b.state.phn.eye = e) : (if c then a else b).state.phn.eye = e := by
  split
  · exact whenTrue
  · exact whenFalse

theorem countStroke_eye (s : State) (e : Nat) (fl : Flight) : (countStroke s e fl).state.phn.eye = s.phn.eye := by
  unfold countStroke
  extract_lets op
  exact count_ite rfl (count_ite rfl (count_ite rfl (count_ite rfl (count_ite (countLoad_eye ..) (count_ite (countStore_eye ..) (count_ite (countSend_eye ..) (count_ite rfl (count_ite (countAcc_eye ..) (count_ite (countRdla_eye ..) (count_ite (countSvla_eye ..) (count_ite (countAddla_eye ..) (count_ite (countAdd_eye ..) (count_ite (countFma_eye ..) (count_ite (countDot_eye ..) (count_ite (countCvt_eye ..) (count_ite (countSum64_eye ..) (count_ite (countSkenc_eye ..) (count_ite (countSkdec_eye ..) (countKernel_eye ..)))))))))))))))))))

@[simp] theorem advance_eye (s : State) (e : Nat) (fl : Flight) : (advance s e fl).2.phn.eye = s.phn.eye := by
  have kept := countStroke_eye s e fl
  unfold advance
  split_ifs
  · rfl
  · split
    · next h =>
      rw [h] at kept
      exact (flightWaits_eye ..).trans kept
    · next h =>
      rw [h] at kept
      exact (engFault_eye ..).trans kept
    · next h =>
      rw [h] at kept
      dsimp only
      split <;> simp [← kept, CountRes.state]

@[simp] theorem issue_eye (s : State) (e : Nat) : (issue s e).2.phn.eye = s.phn.eye := by
  unfold issue
  dsimp only
  repeat' split
  all_goals simp

@[simp] theorem runEngine_eye (e fuel : Nat) (p : Bool × State) : (runEngine e fuel p).2.phn.eye = p.2.phn.eye := by
  induction fuel generalizing p with
  | zero => rfl
  | succ n ih =>
    obtain ⟨m, s⟩ := p
    have counted : ((s.eng e).flights.foldl (fun (p : Bool × State) fl => if p.1 then p else advance p.2 e fl) (false, s)).2.phn.eye = s.phn.eye :=
      eye_foldl_snd _ _ _ fun p fl => by split_ifs <;> simp
    unfold runEngine
    dsimp only
    split_ifs
    · exact (ih _).trans counted
    · exact (ih _).trans ((issue_eye ..).trans counted)
    · exact (issue_eye ..).trans counted

@[simp] theorem drainSub_eye (p : Bool × State) (q : Nat × List (List Byte)) : (drainSub p q).2.phn.eye = p.2.phn.eye := by
  unfold drainSub
  dsimp only
  repeat' split
  all_goals simp

@[simp] theorem drainSubs_eye (s : State) : (drainSubs s).2.phn.eye = s.phn.eye := by simp [drainSubs]

@[simp] theorem pumpFor_eye (fuel : Nat) (s : State) : (pumpFor fuel s).phn.eye = s.phn.eye := by
  induction fuel generalizing s with
  | zero => rfl
  | succ n ih =>
    have ran : ((busyEngines s).foldl (fun (p : Bool × State) e => runEngine e ((p.2.eng e).work + 1) p) (false, s)).2.phn.eye = s.phn.eye :=
      eye_foldl_snd _ _ _ fun p e => runEngine_eye ..
    unfold pumpFor
    dsimp only
    split_ifs
    · exact (ih _).trans ((drainSubs_eye _).trans ran)
    · exact (drainSubs_eye _).trans ran

@[simp] theorem pump_eye (s : State) : (pump s).phn.eye = s.phn.eye := by simp [pump]

/-! #### Engine commands and arrivals -/

@[simp] theorem strokeCmd_eye (s : State) (e : Fin 64) (op : Nat) (i : BitVec 16) (w : BitVec 120) (ups : List LaUpset) : (strokeCmd s e op i w ups).phn.eye = s.phn.eye := by simp [strokeCmd]

@[simp] theorem loadDone_eye (s : State) (e : Nat) (stroke : BitVec 16) : (loadDone s e stroke).phn.eye = s.phn.eye := by
  unfold loadDone
  dsimp only
  repeat' split
  all_goals simp

@[simp] theorem loadTileArrive_eye (s : State) (e slot : Nat) (ups : List BurstUpset) : (loadTileArrive s e slot ups).phn.eye = s.phn.eye := by
  unfold loadTileArrive
  split <;> simp

@[simp] theorem iqTileArrive_eye (s : State) (e q : Nat) (t : IqTile) : (iqTileArrive s e q t).phn.eye = s.phn.eye := by
  unfold iqTileArrive
  split <;> simp

@[simp] theorem seUnit_eye (s : State) (h : PairHdr) (bond : Fin 16) (bytes : List Byte) : (seUnit s h bond bytes).phn.eye = s.phn.eye := by
  unfold seUnit
  refine pairTake_eye _ _ _ fun u => ?_
  simp

@[simp] theorem ctrlIgnored_eye (s : State) (e : Nat) : (ctrlIgnored s e).phn.eye = s.phn.eye := by simp [ctrlIgnored]

@[simp] theorem engScrub_eye (s : State) (e : Nat) : (engScrub s e).phn.eye = s.phn.eye := by simp [engScrub]

@[simp] theorem engOnline_eye (s : State) (e : Nat) : (engOnline s e).phn.eye = s.phn.eye := by simp [engOnline]

@[simp] theorem engOffline_eye (s : State) (e : Nat) : (engOffline s e).phn.eye = s.phn.eye := by simp [engOffline]

@[simp] theorem engClrCounts_eye (s : State) (e : Nat) : (engClrCounts s e).phn.eye = s.phn.eye := by simp [engClrCounts]

@[simp] theorem scrubEnd_eye (s : State) (e : Nat) : (scrubEnd s e).phn.eye = s.phn.eye := by simp [scrubEnd]

@[simp] theorem drawXts_eye (s : State) (q : Nat) : (drawXts s q).phn.eye = s.phn.eye := by simp [drawXts]

/-! #### Plumb -/

@[simp] theorem setInc_eye (s : State) (v : Nat) : (setInc s v).phn.eye = s.phn.eye := by simp [setInc]

@[simp] theorem servoInc_eye (s : State) : (servoInc s).phn.eye = s.phn.eye := by simp [servoInc]

@[simp] theorem armPps_eye (s : State) : (armPps s).phn.eye = s.phn.eye := by simp [armPps]

@[simp] theorem ppsFollow_eye (s : State) : (ppsFollow s).phn.eye = s.phn.eye := by simp [ppsFollow]

@[simp] theorem setPlbSt_eye (s : State) (st : PlbSt) : (setPlbSt s st).phn.eye = s.phn.eye := by simp [setPlbSt]

@[simp] theorem holdSteer_eye (s : State) : (holdSteer s).phn.eye = s.phn.eye := by simp [holdSteer]

@[simp] theorem enterHoldover_eye (s : State) : (enterHoldover s).phn.eye = s.phn.eye := by simp [enterHoldover]

@[simp] theorem plbSettle_eye (s : State) : (plbSettle s).phn.eye = s.phn.eye := by
  unfold plbSettle
  repeat' split
  all_goals simp

@[simp] theorem qualify_eye (s : State) (i : Nat) : (qualify s i).phn.eye = s.phn.eye := by simp [qualify]

@[simp] theorem reselect_eye (s : State) : (reselect s).phn.eye = s.phn.eye := by simp [reselect]

@[simp] theorem requalify_eye (s : State) : (requalify s).phn.eye = s.phn.eye := by simp [requalify]

@[simp] theorem suspendSrc_eye (s : State) (i : Nat) : (suspendSrc s i).phn.eye = s.phn.eye := by simp [suspendSrc]

@[simp] theorem suspend_eye (s : State) (i : Nat) : (suspend s i).phn.eye = s.phn.eye := by simp [suspend]

@[simp] theorem stepTime_eye (s : State) (v : Int) : (stepTime s v).phn.eye = s.phn.eye := by simp [stepTime]

@[simp] theorem acceptSelected_eye (s : State) (off : Int) : (acceptSelected s off).phn.eye = s.phn.eye := by simp [acceptSelected]

@[simp] theorem judge_eye (s : State) (i : Nat) (off delay : Int) : (judge s i off delay).phn.eye = s.phn.eye := by simp [judge]

@[simp] theorem measure_eye (s : State) (i : Nat) (off delay : Int) : (measure s i off delay).phn.eye = s.phn.eye := by simp [measure]

@[simp] theorem ptpSync_eye (s : State) (diff : Int) : (ptpSync s diff).phn.eye = s.phn.eye := by
  unfold ptpSync
  dsimp only
  split <;> simp

@[simp] theorem ptpAnnounce_eye (s : State) (master : BitVec 64) (set : AnnounceSet) : (ptpAnnounce s master set).phn.eye = s.phn.eye := by simp [ptpAnnounce]

@[simp] theorem ptpMessage_eye (s : State) (m : PtpMsg) : (ptpMessage s m).phn.eye = s.phn.eye := by
  unfold ptpMessage
  dsimp only
  repeat' split
  all_goals simp

@[simp] theorem ptpAnnounceTimeout_eye (s : State) : (ptpAnnounceTimeout s).phn.eye = s.phn.eye := by simp [ptpAnnounceTimeout]

@[simp] theorem delayReqSend_eye (s : State) (departure : FullTime) : (delayReqSend s departure).phn.eye = s.phn.eye := by simp [delayReqSend]

@[simp] theorem timeMessage_eye (s : State) (b : Nat) (m : TimeMsg) (rx : FullTime) : (timeMessage s b m rx).phn.eye = s.phn.eye := by simp [timeMessage]

@[simp] theorem calibrationDone_eye (s : State) (i : Nat) : (calibrationDone s i).phn.eye = s.phn.eye := by simp [calibrationDone]

@[simp] theorem asymWrite_eye (s : State) (i : Nat) (valid : Bool) (asym : BitVec 48) : (asymWrite s i valid asym).phn.eye = s.phn.eye := by simp [asymWrite]

@[simp] theorem ppsInEdge_eye (s : State) (t : FullTime) : (ppsInEdge s t).phn.eye = s.phn.eye := by
  unfold ppsInEdge
  dsimp only
  split <;> simp

@[simp] theorem ppsInEdgeMissing_eye (s : State) : (ppsInEdgeMissing s).phn.eye = s.phn.eye := by simp [ppsInEdgeMissing]

@[simp] theorem ref10mInMeasure_eye (s : State) (rate : BitVec 32) : (ref10mInMeasure s rate).phn.eye = s.phn.eye := by simp [ref10mInMeasure]

@[simp] theorem ppsOutPulse_eye (s : State) : (ppsOutPulse s).phn.eye = s.phn.eye := by simp [ppsOutPulse]

@[simp] theorem stepRefused_eye (s : State) : (stepRefused s).phn.eye = s.phn.eye := by simp [stepRefused]

@[simp] theorem stepNow_eye (s : State) : (stepNow s).phn.eye = s.phn.eye := by simp [stepNow]

@[simp] theorem plbClrCounts_eye (s : State) : (plbClrCounts s).phn.eye = s.phn.eye := by simp [plbClrCounts]

@[simp] theorem incWrite_eye (s : State) (inc : BitVec 40) : (incWrite s inc).phn.eye = s.phn.eye := by simp [incWrite]

@[simp] theorem swStale_eye (s : State) : (swStale s).phn.eye = s.phn.eye := by simp [swStale]

@[simp] theorem plbModeWrite_eye (s : State) (mode lock pps : Bool) : (plbModeWrite s mode lock pps).phn.eye = s.phn.eye := by
  unfold plbModeWrite
  dsimp only
  repeat' split
  all_goals simp

@[simp] theorem plbCtrlWrite_eye (s : State) (v : BitVec 32) : (plbCtrlWrite s v).phn.eye = s.phn.eye := by simp [plbCtrlWrite]

/-! #### Render -/

@[simp] theorem cutMessages_eye (s : State) (b : Nat) : (cutMessages s b).phn.eye = s.phn.eye := by simp [cutMessages]

@[simp] theorem pairDown_eye (s : State) (ports : BitVec 16) : (pairDown s ports).phn.eye = s.phn.eye := by simp [pairDown]

@[simp] theorem settleRef_eye (s : State) (b : Nat) : (settleRef s b).phn.eye = s.phn.eye := by
  unfold settleRef
  dsimp only
  repeat' split
  all_goals simp

@[simp] theorem settle_eye (old s : State) (b : Nat) : (settle old s b).phn.eye = s.phn.eye := by simp -implicitDefEqProofs [settle]

@[simp] theorem settleLane_eye (old s : State) (g : Nat) : (settleLane old s g).phn.eye = s.phn.eye := by
  unfold settleLane
  split <;> simp

@[simp] theorem laneChange_eye (s : State) (g : Nat) (x : RLane) : (laneChange s g x).phn.eye = s.phn.eye := by simp [laneChange]

@[simp] theorem declareDefect_eye (s : State) (g code : Nat) (x : RLane) : (declareDefect s g code x).phn.eye = s.phn.eye := by simp [declareDefect]

@[simp] theorem raiseDefect_eye (s : State) (g code : Nat) (x : RLane) : (raiseDefect s g code x).phn.eye = s.phn.eye := by simp [raiseDefect]

@[simp] theorem withdrawDefect_eye (s : State) (g code : Nat) (x : RLane) : (withdrawDefect s g code x).phn.eye = s.phn.eye := by simp [withdrawDefect]

@[simp] theorem clearDefect_eye (s : State) (g code : Nat) (x : RLane) : (clearDefect s g code x).phn.eye = s.phn.eye := by simp [clearDefect]

@[simp] theorem farLos_eye (s : State) (g : Nat) : (farLos s g).phn.eye = s.phn.eye := by simp [farLos]

@[simp] theorem losClear_eye (s : State) (g : Nat) : (losClear s g).phn.eye = s.phn.eye := by simp [losClear]

@[simp] theorem lofDeclare_eye (s : State) (g : Nat) : (lofDeclare s g).phn.eye = s.phn.eye := by simp [lofDeclare]

@[simp] theorem lofClear_eye (s : State) (g : Nat) : (lofClear s g).phn.eye = s.phn.eye := by simp [lofClear]

@[simp] theorem loaDeclare_eye (s : State) (g : Nat) : (loaDeclare s g).phn.eye = s.phn.eye := by simp [loaDeclare]

@[simp] theorem loaClear_eye (s : State) (g : Nat) : (loaClear s g).phn.eye = s.phn.eye := by simp [loaClear]

@[simp] theorem moveDbond_eye (s : State) (b : Nat) (ds : List Int) : (moveDbond s b ds).phn.eye = s.phn.eye := by simp [moveDbond]

@[simp] theorem holdLane_eye (b mfn : Nat) (maxD : Int) (s : State) (g : Nat) : (holdLane b mfn maxD s g).phn.eye = s.phn.eye := by simp [holdLane]

@[simp] theorem boundary_eye (s : State) (b mfn : Nat) : (boundary s b mfn).phn.eye = s.phn.eye := by simp [boundary]

@[simp] theorem enterRanging_eye (s : State) (b g mfn : Nat) (x : RLane) (before after : BitVec 32) : (enterRanging s b g mfn x before after).phn.eye = s.phn.eye := by simp [enterRanging]

@[simp] theorem measureLane_eye (s : State) (b g mfn : Nat) (new : BitVec 32) : (measureLane s b g mfn new).phn.eye = s.phn.eye := by
  unfold measureLane
  dsimp only
  repeat' split
  all_goals simp

@[simp] theorem moveBaseline_eye (s : State) (b : Nat) (ms : List (Nat × BitVec 32)) : (moveBaseline s b ms).phn.eye = s.phn.eye := by
  unfold moveBaseline
  dsimp only
  split
  · exact eye_foldl _ _ _ fun _ _ => rfl
  · rfl

@[simp] theorem takeMeasures_eye (s : State) (b mfn : Nat) (ms : List (Nat × BitVec 32)) : (takeMeasures s b mfn ms).phn.eye = s.phn.eye := by simp [takeMeasures]

@[simp] theorem newBaseline_eye (s : State) (b : Nat) : (newBaseline s b).phn.eye = s.phn.eye := by
  unfold newBaseline
  exact eye_foldl _ _ _ fun _ _ => by simp

@[simp] theorem noteOwnStep_eye (s : State) (b : Nat) : (noteOwnStep s b).phn.eye = s.phn.eye := by simp -implicitDefEqProofs [noteOwnStep]

@[simp] theorem laneStart_eye (s : State) (b g mfn : Nat) (a : PCount) : (laneStart s b g mfn a).phn.eye = s.phn.eye := by
  unfold laneStart
  dsimp only
  split <;> simp

@[simp] theorem rangingMessage_eye (s : State) (b : Nat) (bytes : List Byte) : (rangingMessage s b bytes).phn.eye = s.phn.eye := by
  unfold rangingMessage
  dsimp only
  repeat' split
  all_goals simp

@[simp] theorem keyReady_eye (s : State) (b : Nat) (m : List Byte) : (keyReady s b m).phn.eye = s.phn.eye := by
  unfold keyReady
  dsimp only
  repeat' split
  all_goals simp

@[simp] theorem tribSlot_eye (s : State) (b : Nat) (bytes : List Byte) : (tribSlot s b bytes).phn.eye = s.phn.eye := by simp [tribSlot]

@[simp] theorem sharedFields_eye (s : State) (b g : Nat) (bytes : List Byte) (arrival : FullTime) : (sharedFields s b g bytes arrival).phn.eye = s.phn.eye := by
  unfold sharedFields
  dsimp only
  repeat' split
  all_goals simp

@[simp] theorem sharedLost_eye (s : State) (b : Nat) : (sharedLost s b).phn.eye = s.phn.eye := by simp [sharedLost]

@[simp] theorem judgeIdentity_eye (s : State) (b g : Nat) : (judgeIdentity s b g).phn.eye = s.phn.eye := by simp [judgeIdentity]

@[simp] theorem judgeFlags_eye (s : State) (g flags : Nat) : (judgeFlags s g flags).phn.eye = s.phn.eye := by simp [judgeFlags]

@[simp] theorem overhead_eye (s : State) (b g pos : Nat) (bytes : List Byte) (arrival : FullTime) : (overhead s b g pos bytes arrival).phn.eye = s.phn.eye := by simp [overhead]

@[simp] theorem holdFrame_eye (s : State) (b g pos : Nat) (bytes : List Byte) (flagged ohOk : Bool) : (holdFrame s b g pos bytes flagged ohOk).phn.eye = s.phn.eye := by simp [holdFrame]

@[simp] theorem multiframeStart_eye (s : State) (b g mfn : Nat) (a : PCount) : (multiframeStart s b g mfn a).phn.eye = s.phn.eye := by simp [multiframeStart]

@[simp] theorem inFrameReceive_eye (s : State) (b g : Nat) (bytes : List Byte) (flagged : Bool) (arrival : FullTime) : (inFrameReceive s b g bytes flagged arrival).phn.eye = s.phn.eye := by simp [inFrameReceive]

@[simp] theorem searchReceive_eye (s : State) (b g : Nat) : (searchReceive s b g).phn.eye = s.phn.eye := by simp [searchReceive]

@[simp] theorem takeOctets_eye (s : State) (b g : Nat) (arrival : FullTime) : (takeOctets s b g arrival).phn.eye = s.phn.eye := by simp [takeOctets]

@[simp] theorem frameReceive_eye (s : State) (g : Nat) (arrival : FullTime) : (frameReceive s g arrival).phn.eye = s.phn.eye := by
  unfold frameReceive
  split <;> simp

@[simp] theorem tribAdd_eye (s : State) (c : Nat) (o : Byte) : (tribAdd s c o).phn.eye = s.phn.eye := by simp [tribAdd]

@[simp] theorem tribAddOctet_eye (s : State) (c : Nat) (g : BitVec 10) : (tribAddOctet s c g).phn.eye = s.phn.eye := by
  unfold tribAddOctet
  dsimp only
  split <;> simp

@[simp] theorem dropFifoSend_eye (s : State) (c : Nat) : (dropFifoSend s c).phn.eye = s.phn.eye := by
  unfold dropFifoSend
  dsimp only
  split <;> simp

@[simp] theorem tribCfgWrite_eye (s : State) (c : Nat) (v : BitVec 32) : (tribCfgWrite s c v).phn.eye = s.phn.eye := by simp [tribCfgWrite]

@[simp] theorem judgeMinLow_eye (s : State) (b : Nat) : (judgeMinLow s b).phn.eye = s.phn.eye := by simp [judgeMinLow]

@[simp] theorem bondCfgWrite_eye (s : State) (b : Nat) (v : BitVec 32) : (bondCfgWrite s b v).phn.eye = s.phn.eye := by simp -implicitDefEqProofs [bondCfgWrite]

@[simp] theorem bondCfg2Write_eye (s : State) (b : Nat) (v : BitVec 32) : (bondCfg2Write s b v).phn.eye = s.phn.eye := by simp [bondCfg2Write]

@[simp] theorem rndClrCounts_eye (s : State) (p : Nat) : (rndClrCounts s p).phn.eye = s.phn.eye := by simp -implicitDefEqProofs [rndClrCounts]

@[simp] theorem portV1Write_eye (s : State) (p : Nat) (v : BitVec 32) : (portV1Write s p v).phn.eye = s.phn.eye := by simp [portV1Write]

@[simp] theorem setRetired_eye (s : State) (g : Nat) (r : Bool) : (setRetired s g r).phn.eye = s.phn.eye := by simp [setRetired]

/-! #### The ledger's parts -/

@[simp] theorem setCol_eye (s : State) (n c : Nat) (y : Colour) : (s.setCol n c y).phn.eye = s.phn.eye := eye_setPhe s n _ rfl

@[simp] theorem setSpare_eye (s : State) (n o : Nat) (y : Spare) : (s.setSpare n o y).phn.eye = s.phn.eye := eye_setPhe s n _ rfl

@[simp] theorem fmOk_eye (s : State) (r : MboxRec) (part : BitVec 16) : (fmOk s r part).phn.eye = s.phn.eye := (fmOk_near ..).eye

@[simp] theorem fmRefuse_eye (s : State) (r : MboxRec) (code : Nat) : (fmRefuse s r code).phn.eye = s.phn.eye := (fmRefuse_near ..).eye

@[simp] theorem softRetired_eye (s : State) (part : BitVec 16) (seq : BitVec 64) (actor : Nat) : (softRetired s part seq actor).phn.eye = s.phn.eye := by simp [softRetired]

/-! #### The line side -/

@[simp] theorem deliverWord_eye (s : State) (g : Nat) (w : Codeword) : (deliverWord s g w).phn.eye = s.phn.eye := by simp [deliverWord]

@[simp] theorem farCodeword_eye (s : State) (g : Nat) (levels : List (BitVec 2)) : (farCodeword s g levels).phn.eye = s.phn.eye := by simp [farCodeword]

@[simp] theorem slrErr_eye (s : State) (i : Nat) : (slrErr s i).phn.eye = s.phn.eye := by simp [slrErr]

@[simp] theorem keyChange_eye (s : State) (b : Nat) (x : SBond) : (keyChange s b x).phn.eye = s.phn.eye := by simp [keyChange]

@[simp] theorem txKeySwitch_eye (s : State) (b : Nat) : (txKeySwitch s b).phn.eye = s.phn.eye := by
  unfold txKeySwitch
  dsimp only
  split <;> simp

@[simp] theorem overlapExpire_eye (s : State) (b e : Nat) : (overlapExpire s b e).phn.eye = s.phn.eye := by simp [overlapExpire]

@[simp] theorem slrReady_eye (s : State) : (slrReady s).phn.eye = s.phn.eye := by simp [slrReady]

@[simp] theorem trngFail_eye (s : State) (q : Nat) : (trngFail s q).phn.eye = s.phn.eye := by simp [trngFail]

@[simp] theorem slrClrCounts_eye (s : State) : (slrClrCounts s).phn.eye = s.phn.eye := by
  unfold slrClrCounts
  exact eye_foldl _ _ _ fun _ _ => by simp

@[simp] theorem clcSegment_eye (s : State) (b : List Byte) : (clcSegment s b).phn.eye = s.phn.eye := by simp [clcSegment]

@[simp] theorem pairRecord_eye (s : State) (r : List Byte) : (pairRecord s r).phn.eye = s.phn.eye := by
  unfold pairRecord
  split <;> simp

@[simp] theorem deliver_eye (s : State) (b : Nat) (segs : List (Nat × List Byte)) : (deliver s b segs).phn.eye = s.phn.eye := by simp [deliver]

@[simp] theorem lineReceive_eye (s : State) (b : Nat) (f : List Byte) : (lineReceive s b f).phn.eye = s.phn.eye := by
  unfold lineReceive
  split <;> simp

@[simp] theorem resendTimeout_eye (s : State) (b : Nat) (q : BitVec 48) : (resendTimeout s b q).phn.eye = s.phn.eye := by
  unfold resendTimeout
  dsimp only
  split <;> simp

@[simp] theorem peerOverhead_eye (s : State) (b : Nat) (f : HeldFrame) : (peerOverhead s b f).phn.eye = s.phn.eye := by simp [peerOverhead]

@[simp] theorem judgeCfg_eye (s : State) (b : Nat) (f : HeldFrame) : (judgeCfg s b f).phn.eye = s.phn.eye := by simp [judgeCfg]

@[simp] theorem noteLate_eye (s : State) (g pos : Nat) : (noteLate s g pos).phn.eye = s.phn.eye := by simp [noteLate]

@[simp] theorem stripeData_eye (s : State) (b : Nat) (data : List Byte) : (stripeData s b data).phn.eye = s.phn.eye := by simp [stripeData]

@[simp] theorem frameRelease_eye (s : State) (b : Nat) : (frameRelease s b).phn.eye = s.phn.eye := by
  unfold frameRelease
  split
  · rfl
  · extract_lets n got s1 s2 old s3 s4 erased e x m top y idle lanes z
    have held : s4.phn.eye = s.phn.eye := by
      have noted : s1.phn.eye = s.phn.eye := eye_foldl _ _ _ fun _ _ => noteLate_eye ..
      have dropped : s2.phn.eye = s1.phn.eye := eye_foldl _ _ _ fun _ _ => rfl
      have overhead : s4.phn.eye = s3.phn.eye := by
        simp only [s4]
        split <;> simp
      exact overhead.trans (dropped.trans noted)
    split
    · split <;> exact held
    · split
      split
      · exact held
      · exact eye_ite_of held ((stripeData_eye ..).trans held)

@[simp] theorem storeFrame_eye (s : State) (b : Nat) (q : BitVec 48) (bytes : List Byte) : (storeFrame s b q bytes).phn.eye = s.phn.eye :=
  eye_foldl _ _ _ fun t p => by split <;> simp

@[simp] theorem fetchFrame_eye (s : State) (b : Nat) (q : BitVec 48) : (fetchFrame s b q).2.2.phn.eye = s.phn.eye := by
  have read (l : List Nat) (r : Bool × List Byte × State) : (l.foldl (fun (r : Bool × List Byte × State) i => match areaTile r.2.2 0x04 b (q.toNat % places s b * (4 * dataLanes s b) + i) with
      | some d => let (o, t, s) := readTile r.2.2 d; (r.1 && o, r.2.1 ++ t, s)
      | none => (false, r.2)) r).2.2.phn.eye = r.2.2.phn.eye := by
    induction l generalizing r with
    | nil => rfl
    | cons i l ih =>
      rw [List.foldl_cons, ih]
      split
      · exact readTile_eye ..
      · rfl
  exact read _ _

@[simp] theorem storeNew_eye (s : State) (b : Nat) (q : BitVec 48) (items : List QItem) (bytes : List Byte) : (storeNew s b q items bytes).phn.eye = s.phn.eye := by simp [storeNew]

@[simp] theorem nextLine_eye (s : State) (b : Nat) : (nextLine s b).2.phn.eye = s.phn.eye := by
  unfold nextLine
  dsimp only
  repeat' split
  all_goals simp

@[simp] theorem takeRequest_eye (s : State) (b : Nat) : (takeRequest s b).2.phn.eye = s.phn.eye := by
  unfold takeRequest
  dsimp only
  split <;> simp

@[simp] theorem takeTrib_eye (s : State) (b : Nat) : (takeTrib s b).2.phn.eye = s.phn.eye := by
  unfold takeTrib
  split <;> simp

@[simp] theorem sendTime_eye (s : State) (b : Nat) : (sendTime s b).phn.eye = s.phn.eye := by simp [sendTime]

@[simp] theorem sendRanging_eye (s : State) (b mfn : Nat) : (sendRanging s b mfn).phn.eye = s.phn.eye := by simp [sendRanging]

@[simp] theorem sendKeyReady_eye (s : State) (b : Nat) : (sendKeyReady s b).phn.eye = s.phn.eye := by simp [sendKeyReady]

@[simp] theorem takeSlots_eye (s : State) (b : Nat) : (takeSlots s b).2.phn.eye = s.phn.eye := by simp [takeSlots]

@[simp] theorem sendFrames_eye (s : State) (fs : List (Nat × List Byte)) : (sendFrames s fs).2.phn.eye = s.phn.eye :=
  eye_foldl_snd _ _ _ fun _ _ => rfl

@[simp] theorem useKey_eye (s : State) (b e : Nat) : (useKey s b e).phn.eye = s.phn.eye := by simp [useKey]

@[simp] theorem idlePosition_eye (s : State) (p : Nat) : (idlePosition s p).phn.eye = s.phn.eye := by simp [idlePosition]

@[simp] theorem frameStart_eye (s : State) (b fn mfn : Nat) : (frameStart s b fn mfn).phn.eye = s.phn.eye := by
  unfold frameStart
  dsimp only
  repeat' split
  all_goals simp

@[simp] theorem transmitPosition_eye (s : State) (b : Nat) : (transmitPosition s b).phn.eye = s.phn.eye := by
  unfold transmitPosition
  dsimp only
  repeat' split
  all_goals simp

@[simp] theorem moveResult_eye (s : State) (r : Nat) : (moveResult s r).phn.eye = s.phn.eye := by simp [moveResult]

@[simp] theorem moveStart_eye (s : State) (action b pos : Nat) (fm : Option (MboxRec × BitVec 64)) : (moveStart s action b pos fm).phn.eye = s.phn.eye := by simp [moveStart]

@[simp] theorem moveFields_eye (s : State) (action b pos : Nat) : (moveFields s action b pos).phn.eye = s.phn.eye := by simp [moveFields]

@[simp] theorem reclaimBond_eye (s : State) (b : Nat) : (reclaimBond s b).phn.eye = s.phn.eye := by simp [reclaimBond]

@[simp] theorem moveDone_eye (s : State) : (moveDone s).phn.eye = s.phn.eye := by
  unfold moveDone
  dsimp only
  repeat' split
  all_goals simp

@[simp] theorem mndClrCounts_eye (s : State) : (mndClrCounts s).phn.eye = s.phn.eye := by simp -implicitDefEqProofs [mndClrCounts]

@[simp] theorem mndCtrlWrite_eye (s : State) (v : BitVec 32) : (mndCtrlWrite s v).phn.eye = s.phn.eye := by simp [mndCtrlWrite]

@[simp] theorem stripeCfgWrite_eye (s : State) (b : Nat) (v : BitVec 32) : (stripeCfgWrite s b v).phn.eye = s.phn.eye := by simp [stripeCfgWrite]

@[simp] theorem slotDrained_eye (s : State) (e : Nat) : (slotDrained s e).phn.eye = s.phn.eye := by simp [slotDrained]

/-! #### Throttle levels -/

@[simp] theorem setLevel_eye (s : State) (l : Nat) (emergency : Bool) : (setLevel s l emergency).phn.eye = s.phn.eye := by simp [setLevel]

@[simp] theorem setSlowed_eye (s : State) (b : Bool) : (setSlowed s b).phn.eye = s.phn.eye := by simp [setSlowed]

@[simp] theorem settleLevel_eye (s : State) : (settleLevel s).phn.eye = s.phn.eye := by simp [settleLevel]

@[simp] theorem sendLate_eye (s : State) (value : Nat) : (sendLate s value).phn.eye = s.phn.eye := by
  unfold sendLate
  split <;> simp

@[simp] theorem emergency_eye (s : State) : (emergency s).phn.eye = s.phn.eye := by simp [emergency]

@[simp] theorem callLevel_eye (s : State) (l : Nat) : (callLevel s l).phn.eye = s.phn.eye := by simp [callLevel]

@[simp] theorem seamLevel_eye (s : State) : (seamLevel s).phn.eye = s.phn.eye := by simp [seamLevel]

/-! #### Near photonics -/

@[simp] theorem phnErr_eye (s : State) (n i c : Nat) (rx : Bool) : (phnErr s n i c rx).phn.eye = s.phn.eye := (phnErr_near ..).eye

@[simp] theorem nearSettle_eye (s : State) (n : Nat) : (nearSettle s n).phn.eye = s.phn.eye := (nearSettle_near ..).eye

@[simp] theorem spendHeld_eye (s : State) (k : Nat) : (spendHeld s k).phn.eye = s.phn.eye := by simp [spendHeld]

@[simp] theorem setTx_eye (s : State) (n c : Nat) (r : Ring) : (setTx s n c r).phn.eye = s.phn.eye := (setTx_near ..).eye

@[simp] theorem setRx_eye (s : State) (n c : Nat) (r : Ring) : (setRx s n c r).phn.eye = s.phn.eye := (setRx_near ..).eye

@[simp] theorem rxReset_eye (s : State) (n c : Nat) : (rxReset s n c).phn.eye = s.phn.eye := (rxReset_near ..).eye

@[simp] theorem releaseQueue_eye (s : State) (qn : Nat) : (releaseQueue s qn).phn.eye = s.phn.eye := (releaseQueue_near ..).eye

@[simp] theorem txEnterVerify_eye (s : State) (n c : Nat) : (txEnterVerify s n c).phn.eye = s.phn.eye := (txEnterVerify_near ..).eye

@[simp] theorem txLeave_eye (s : State) (n c : Nat) (r : Ring) : (txLeave s n c r).phn.eye = s.phn.eye := (txLeave_near ..).eye

@[simp] theorem rxLeave_eye (s : State) (n c : Nat) (r : Ring) : (rxLeave s n c r).phn.eye = s.phn.eye := (rxLeave_near ..).eye

@[simp] theorem failAttempt_eye (s : State) (n c : Nat) (rx : Bool) : (failAttempt s n c rx).phn.eye = s.phn.eye := (failAttempt_near ..).eye

@[simp] theorem spareAnswer_eye (s : State) (n o : Nat) (f : State → MboxRec → State) (kept : ∀ u r, (f u r).phn.eye = u.phn.eye) : (spareAnswer s n o f).phn.eye = s.phn.eye := by
  unfold spareAnswer
  dsimp only
  split
  · rfl
  · simp [kept]

@[simp] theorem colourRetired_eye (s : State) (n c : Nat) : (colourRetired s n c).phn.eye = s.phn.eye := (colourRetired_near ..).eye

@[simp] theorem spareFailed_eye (s : State) (n o : Nat) : (spareFailed s n o).phn.eye = s.phn.eye := (spareFailed_near ..).eye

@[simp] theorem startMake_eye (s : State) (n c : Nat) (urgent : Bool) (fm : Option (MboxRec × BitVec 64)) : (startMake s n c urgent fm).phn.eye = s.phn.eye := (startMake_near ..).eye

@[simp] theorem autoSwaps_eye (s : State) (n : Nat) : (autoSwaps s n).phn.eye = s.phn.eye := (autoSwaps_near ..).eye

@[simp] theorem startMove_eye (s : State) (n c : Nat) : (startMove s n c).phn.eye = s.phn.eye := (startMove_near ..).eye

@[simp] theorem moveFail_eye (s : State) (n c : Nat) : (moveFail s n c).phn.eye = s.phn.eye := (moveFail_near ..).eye

@[simp] theorem nearDiscard_eye (s : State) (n c : Nat) (also : List Nat) : (nearDiscard s n c also).phn.eye = s.phn.eye := (nearDiscard_near ..).eye

@[simp] theorem takeFrame_eye (s : State) (n : Fin 8) (c : Fin 32) (f : NearFrame) : (takeFrame s n c f).phn.eye = s.phn.eye := by simp [takeFrame]

@[simp] theorem judgeRuns_eye (s : State) (n c : Nat) : (judgeRuns s n c).phn.eye = s.phn.eye := (judgeRuns_near ..).eye

@[simp] theorem nearFrame_eye (s : State) (n : Fin 8) (c : Fin 32) (f : NearFrame) : (nearFrame s n c f).phn.eye = s.phn.eye := by simp [nearFrame]

@[simp] theorem nearReceive_eye (s : State) (n : Fin 8) (c : Fin 32) : (nearReceive s n c).phn.eye = s.phn.eye := by simp [nearReceive]

@[simp] theorem takeReturn_eye (s : State) (n c q v : Nat) : (takeReturn s n c q v).phn.eye = s.phn.eye := by simp [takeReturn]

@[simp] theorem markSent_eye (s : State) (n c qn i : Nat) : (markSent s n c qn i).phn.eye = s.phn.eye := by
  unfold markSent
  dsimp only
  repeat' split
  all_goals simp

@[simp] theorem sendNear_eye (s : State) (n c : Nat) (bytes : List Byte) : (sendNear s n c bytes).phn.eye = s.phn.eye := by simp [sendNear]

@[simp] theorem nearTxFrame_eye (s : State) (n c : Nat) : (nearTxFrame s n c).phn.eye = s.phn.eye := by
  unfold nearTxFrame
  dsimp only
  repeat' split
  all_goals simp

@[simp] theorem ringPeakLoss_eye (s : State) (n c : Nat) (rx : Bool) : (ringPeakLoss s n c rx).phn.eye = s.phn.eye := by simp [ringPeakLoss]

@[simp] theorem rxLos_eye (s : State) (n c : Nat) : (rxLos s n c).phn.eye = s.phn.eye := by simp [rxLos]

@[simp] theorem rxLosClear_eye (s : State) (n c : Nat) : (rxLosClear s n c).phn.eye = s.phn.eye := by simp [rxLosClear]

@[simp] theorem verifyTimeout_eye (s : State) (n c : Nat) : (verifyTimeout s n c).phn.eye = s.phn.eye := by
  unfold verifyTimeout
  split <;> simp

@[simp] theorem spareMakeTimeout_eye (s : State) (n o : Nat) : (spareMakeTimeout s n o).phn.eye = s.phn.eye := by simp [spareMakeTimeout]

@[simp] theorem rxSweepRetry_eye (s : State) (n c : Nat) : (rxSweepRetry s n c).phn.eye = s.phn.eye := by simp [rxSweepRetry]

@[simp] theorem nearCodeword_eye (s : State) (n c : Nat) (levels : List (BitVec 2)) : (nearCodeword s n c levels).phn.eye = s.phn.eye := by simp [nearCodeword]

@[simp] theorem codewordReceive_eye (s : State) (l : LaneRef) (levels : List (BitVec 2)) : (codewordReceive s l levels).phn.eye = s.phn.eye := by
  unfold codewordReceive
  split <;> simp

@[simp] theorem eyeEntry_eye (s : State) (cause : Byte) : (eyeEntry s cause).phn.eye = s.phn.eye := by simp [eyeEntry]

@[simp] theorem relock_eye (s : State) (n c : Nat) (rx : Bool) : (relock s n c rx).phn.eye = s.phn.eye := by simp [relock]

@[simp] theorem swap_eye (s : State) (n c : Nat) : (swap s n c).phn.eye = s.phn.eye := by simp [swap]

@[simp] theorem phnClrCounts_eye (s : State) (n : Nat) : (phnClrCounts s n).phn.eye = s.phn.eye := by simp [phnClrCounts]

@[simp] theorem fenceWrite_eye (s : State) (n reg : Nat) (v : BitVec 32) : (fenceWrite s n reg v).phn.eye = s.phn.eye := by simp [fenceWrite]

@[simp] theorem applyFences_eye (s : State) (n : Nat) : (applyFences s n).phn.eye = s.phn.eye := by
  unfold applyFences
  extract_lets lo hi x top w y
  have colours : y.safety = x.safety := safety_foldl _ _ _ fun _ _ => rfl
  have spares : ((List.range 4).foldl (fun x o => let y := x.spare o; x.setSpare o { y with bias := BitVec.ofNat 12 (min top y.bias.toNat), heat := if y.st = .idle then y.heat else fenced lo hi y.heat }) y).safety = y.safety :=
    safety_foldl _ _ _ fun _ _ => rfl
  exact eye_setPhe s n _ (spares.trans colours)

@[simp] theorem sweepRx_eye (s : State) (n : Nat) (peaks : List (Fin 32)) : (sweepRx s n peaks).phn.eye = s.phn.eye := by
  unfold sweepRx
  split <;> simp

@[simp] theorem sweepTx_eye (s : State) (n : Nat) (peaks : List (Fin 32)) : (sweepTx s n peaks).phn.eye = s.phn.eye := by
  unfold sweepTx
  split <;> simp

theorem loopAct_safety (x : PEng) (lo hi : Nat) (target : Int) (l : Loop) (v : Int) : (loopAct x lo hi target l v).safety = x.safety := by
  cases l with
  | laserPower c => rfl
  | laserFreq c => rfl
  | txRing c => exact (apply_ite PEng.safety ..).trans (ite_self _)
  | rxRing c => exact (apply_ite PEng.safety ..).trans (ite_self _)
  | spareCurrent o => exact (apply_ite PEng.safety ..).trans (ite_self _)
  | spareHeater o => exact (apply_ite PEng.safety ..).trans (ite_self _)

@[simp] theorem runLoop_eye (s : State) (n : Nat) (l : Loop) (v : Int) : (runLoop s n l v).phn.eye = s.phn.eye := by
  unfold runLoop
  extract_lets x lo hi held y t
  have same : y.safety = (s.phe n).safety := loopAct_safety ..
  split_ifs
  · exact eye_setPhe s n _ same
  · exact (phnErr_eye ..).trans (eye_setPhe s n _ same)
  · exact eye_setPhe s n _ same

@[simp] theorem controlCycle_eye (s : State) (n : Nat) (o : CycleObs) : (controlCycle s n o).phn.eye = s.phn.eye := by simp [controlCycle]

@[simp] theorem laserEnd_eye (s : State) (n c : Nat) : (laserEnd s n c).phn.eye = s.phn.eye := by
  unfold laserEnd
  simp

@[simp] theorem enterStage_eye (s : State) (n c k : Nat) : (enterStage s n c k).phn.eye = s.phn.eye := by simp [enterStage]

@[simp] theorem judgeLaser_eye (s : State) (n : Nat) (m : LaserSample) : (judgeLaser s n m).phn.eye = s.phn.eye := by simp [judgeLaser]

@[simp] theorem monitorSample_eye (s : State) (n : Nat) (o : MonitorObs) : (monitorSample s n o).phn.eye = s.phn.eye := by
  unfold monitorSample
  extract_lets x seen powers margins lasers
  have start : margins.phn.eye = s.phn.eye := by
    have total : seen.phn.eye = s.phn.eye := eye_setPhe s n _ rfl
    have each : powers.phn.eye = seen.phn.eye := eye_foldl _ _ _ fun t p => by
      extract_lets u
      exact (partMargin_eye ..).trans (setCol_eye ..)
    have heats : margins.phn.eye = powers.phn.eye := eye_foldl _ _ _ fun t c => partMargin_eye ..
    exact heats.trans (each.trans total)
  have judged : lasers.phn.eye = margins.phn.eye := eye_foldl _ _ _ fun t c => by
    split
    · exact judgeLaser_eye ..
    · rfl
  split_ifs
  · exact start
  · exact (nearSettle_eye ..).trans ((autoSwaps_eye ..).trans (judged.trans start))

/-! #### Polled counters -/

@[simp] theorem readCounter_eye (s : State) (part : BitVec 16) (key v : Nat) : (readCounter s part key v).2.phn.eye = s.phn.eye := by simp [readCounter]

@[simp] theorem addField_eye (s : State) (part : BitVec 16) (f : LedgerField) (n : Nat) : (addField s part f n).phn.eye = s.phn.eye := by
  unfold addField
  repeat' split
  all_goals simp

@[simp] theorem pollOne_eye (s : State) (part : BitVec 16) (key : Nat) (f : LedgerField) (c : Nat) : (pollOne s part key f c).phn.eye = s.phn.eye := by simp [pollOne]

@[simp] theorem pollEngine_eye (s : State) (e : Nat) : (pollEngine s e).phn.eye = s.phn.eye := by simp [pollEngine]

@[simp] theorem pollStack_eye (s : State) (k : Nat) : (pollStack s k).phn.eye = s.phn.eye := by simp [pollStack]

@[simp] theorem pollLane_eye (s : State) (g : Nat) : (pollLane s g).phn.eye = s.phn.eye := (pollLane_ledgerOnly s g).eye

@[simp] theorem pollColour_eye (s : State) (i : Nat) : (pollColour s i).phn.eye = s.phn.eye := by simp [pollColour]

@[simp] theorem pollHost_eye (s : State) : (pollHost s).phn.eye = s.phn.eye := by simp [pollHost]

@[simp] theorem pollAll_eye (s : State) : (pollAll s).phn.eye = s.phn.eye := by simp [pollAll]

@[simp] theorem ledgerPoll_eye (s : State) (hostCorr hostUncorr : BitVec 32) : (ledgerPoll s hostCorr hostUncorr).phn.eye = s.phn.eye := by simp [ledgerPoll]

@[simp] theorem clearEngine_eye (s : State) (e : Nat) : (clearEngine s e).phn.eye = s.phn.eye := by simp [clearEngine]

@[simp] theorem clearRndPort_eye (s : State) (p : Nat) : (clearRndPort s p).phn.eye = s.phn.eye := by simp [clearRndPort]

@[simp] theorem portCfgWrite_eye (s : State) (p : Nat) (v : BitVec 32) : (portCfgWrite s p v).phn.eye = s.phn.eye := by simp [portCfgWrite]

@[simp] theorem clearMnd_eye (s : State) : (clearMnd s).phn.eye = s.phn.eye := by simp [clearMnd]

@[simp] theorem hbmClrCounts_eye (s : State) (k : Nat) : (hbmClrCounts s k).phn.eye = s.phn.eye := by simp [hbmClrCounts]

@[simp] theorem clearStack_eye (s : State) (k : Nat) : (clearStack s k).phn.eye = s.phn.eye := by simp [clearStack]

@[simp] theorem hwkClrCounts_eye (s : State) : (hwkClrCounts s).phn.eye = s.phn.eye := by simp [hwkClrCounts]

@[simp] theorem clearHwk_eye (s : State) : (clearHwk s).phn.eye = s.phn.eye := by simp [clearHwk]

/-! #### HBM stacks -/

@[simp] theorem patrolRead_eye (s : State) (k tile : Nat) (ups : List BurstUpset) : (patrolRead s k tile ups).phn.eye = s.phn.eye := by simp [patrolRead]

@[simp] theorem hbmRefresh_eye (s : State) (k : Nat) (patrol : Option (Fin 6291456 × List BurstUpset)) (passDone : Bool) : (hbmRefresh s k patrol passDone).phn.eye = s.phn.eye := by
  unfold hbmRefresh
  dsimp only
  repeat' split
  all_goals simp

@[simp] theorem ceWriteback_eye (s : State) (k dha : Nat) : (ceWriteback s k dha).phn.eye = s.phn.eye := by simp [ceWriteback]

@[simp] theorem stackFailed_eye (s : State) (k : Nat) : (stackFailed s k).phn.eye = s.phn.eye := by simp [stackFailed]

@[simp] theorem stripEnd_eye (s : State) : (stripEnd s).phn.eye = s.phn.eye := by simp [stripEnd]

@[simp] theorem trainingDone_eye (s : State) (k : Nat) (ok : Bool) (margin : BitVec 16) : (trainingDone s k ok margin).phn.eye = s.phn.eye := by simp [trainingDone]

@[simp] theorem lthReady_eye (s : State) : (lthReady s).phn.eye = s.phn.eye := by simp [lthReady]

@[simp] theorem stackInitDone_eye (s : State) (k : Nat) : (stackInitDone s k).phn.eye = s.phn.eye := by simp [stackInitDone]

@[simp] theorem linkLoss_eye (s : State) (k : Nat) : (linkLoss s k).phn.eye = s.phn.eye := by simp [linkLoss]

@[simp] theorem clrUeAddr_eye (s : State) (k : Nat) : (clrUeAddr s k).phn.eye = s.phn.eye := by simp [clrUeAddr]

@[simp] theorem hbmCtrlWrite_eye (s : State) (k : Nat) (v : BitVec 32) : (hbmCtrlWrite s k v).phn.eye = s.phn.eye := by simp [hbmCtrlWrite]

/-! #### Sessions and mailbox records -/

@[simp] theorem hwkErr_eye (s : State) (i : Nat) : (hwkErr s i).phn.eye = s.phn.eye := by simp [hwkErr]

@[simp] theorem dropDatagram_eye (s : State) : (dropDatagram s).phn.eye = s.phn.eye := by simp [dropDatagram]

@[simp] theorem freeMboxes_eye (s : State) (mask : BitVec 16) : (freeMboxes s mask).phn.eye = s.phn.eye := by simp [freeMboxes]

@[simp] theorem releaseStages_eye (s : State) (num : BitVec 16) : (releaseStages s num).phn.eye = s.phn.eye := by simp [releaseStages]

@[simp] theorem closeSession_eye (s : State) (i : Nat) (byClose : Bool) : (closeSession s i byClose).phn.eye = s.phn.eye := by
  unfold closeSession
  split <;> simp

@[simp] theorem recFail_eye (s : State) (i : Nat) (x : Session) : (recFail s i x).phn.eye = s.phn.eye := by simp [recFail]

@[simp] theorem open4_eye (s : State) (hcs : BitVec 8) (num : BitVec 16) (status : Byte) (body : List Byte) : (open4 s hcs num status body).phn.eye = s.phn.eye := by simp [open4]

@[simp] theorem open1_eye (s : State) (m : Open1) : (open1 s m).phn.eye = s.phn.eye := by
  unfold open1
  dsimp only
  repeat' split
  all_goals simp

@[simp] theorem openFailed_eye (s : State) : (openFailed s).phn.eye = s.phn.eye := by simp [openFailed]

@[simp] theorem signIdk_eye (s : State) (bs : List Byte) : (signIdk s bs).2.phn.eye = s.phn.eye := by
  unfold signIdk
  split <;> simp

@[simp] theorem openKeys_eye (s : State) (x : Session) : (openKeys s x).2.2.phn.eye = s.phn.eye := by
  unfold openKeys
  split <;> simp

@[simp] theorem open3_eye (s : State) (num : BitVec 16) (hcs : BitVec 8) (proof : List Byte) : (open3 s num hcs proof).phn.eye = s.phn.eye := by
  unfold open3
  dsimp only
  repeat' split
  all_goals simp

@[simp] theorem openLapse_eye (s : State) (num : BitVec 16) : (openLapse s num).phn.eye = s.phn.eye := by
  unfold openLapse
  repeat' split
  all_goals simp

@[simp] theorem sessionIdle_eye (s : State) (num : BitVec 16) : (sessionIdle s num).phn.eye = s.phn.eye := by
  unfold sessionIdle
  repeat' split
  all_goals simp

@[simp] theorem lockoutExpire_eye (s : State) : (lockoutExpire s).phn.eye = s.phn.eye := by simp [lockoutExpire]

@[simp] theorem acceptRecord_eye (s : State) (num : BitVec 16) (hcs : BitVec 8) (seq : BitVec 64) (tagOk mboxOk : Session → Bool) : (acceptRecord s num hcs seq tagOk mboxOk).2.phn.eye = s.phn.eye := by
  unfold acceptRecord
  dsimp only
  repeat' split
  all_goals simp

@[simp] theorem answerOnly_eye (s : State) (r : MboxRec) (op : BitVec 16) (status : Byte) (counts : Bool) : (answerOnly s r op status counts).phn.eye = s.phn.eye := by simp [answerOnly]

theorem startCommand_runs (s : State) (x : Session) (r : MboxRec) (n : CmdNeeds) (f : State → State) :
    (startCommand s x r n f).phn.eye = s.phn.eye ∨ ∃ u, u.phn.eye = s.phn.eye ∧ startCommand s x r n f = f u := by
  unfold startCommand
  dsimp only
  split_ifs
  · left; simp
  · left; simp
  · split
    · left; simp
    · right; exact ⟨_, by simp, rfl⟩

/-- A mailbox command is answered before it starts, or its own part runs on a state with the same engines. -/
theorem mboxCmd_runs (s : State) (r : MboxRec) (n : CmdNeeds) (args : List Byte) (f : State → State) :
    (mboxCmd s r n args f).phn.eye = s.phn.eye ∨ ∃ u, u.phn.eye = s.phn.eye ∧ mboxCmd s r n args f = f u := by
  unfold mboxCmd
  split_ifs
  · exact .inl rfl
  · left; simp
  · split
    · next h => exact .inl (eye_of_pair (acceptRecord_eye ..) h)
    · next h =>
      have kept := eye_of_pair (acceptRecord_eye ..) h
      dsimp only
      split
      · left; split_ifs <;> simp [kept]
      · split_ifs
        · left; simp [kept]
        · rcases startCommand_runs _ _ r n f with e | ⟨u, e, run⟩
          · left; rw [e]; simp [kept]
          · right; exact ⟨u, by rw [e]; simp [kept], run⟩

theorem mboxCmd_eye (s : State) (r : MboxRec) (n : CmdNeeds) (args : List Byte) (f : State → State) (kept : ∀ u, (f u).phn.eye = u.phn.eye) :
    (mboxCmd s r n args f).phn.eye = s.phn.eye := by
  rcases mboxCmd_runs s r n args f with e | ⟨u, e, run⟩
  · exact e
  · rw [run, kept, e]

@[simp] theorem badArg_eye (s : State) (r : MboxRec) (op : BitVec 16) (off : Nat) : (badArg s r op off).phn.eye = s.phn.eye := by simp [badArg]

@[simp] theorem putArea3_eye (s : State) (r : MboxRec) (bs : List Byte) : (putArea3 s r bs).phn.eye = s.phn.eye := by
  unfold putArea3
  split <;> simp

@[simp] theorem withObject_eye (s : State) (r : MboxRec) (op : BitVec 16) (off len : Nat) (crc : BitVec 32) (f : State → List Byte → State) (kept : ∀ u bs, (f u bs).phn.eye = u.phn.eye) :
    (withObject s r op off len crc f).phn.eye = s.phn.eye := by
  unfold withObject
  split
  · simp
  · split_ifs <;> simp [kept]

theorem lathFrom_eye (s : State) (src : LathSrc) (n : CmdNeeds) (args : List Byte) (argBad : Bool) (op : LathOp) (hawk : Nat → State → State) (hostOwner : MboxRec → Option Owner)
    (kept : ∀ k u, (hawk k u).phn.eye = u.phn.eye) : (lathFrom s src n args argBad op hawk hostOwner).phn.eye = s.phn.eye := by
  unfold lathFrom
  split
  · exact kept _ s
  · refine mboxCmd_eye _ _ _ _ _ fun u => ?_
    split_ifs
    · simp
    · split <;> simp

@[simp] theorem lthClrCounts_eye (s : State) : (lthClrCounts s).phn.eye = s.phn.eye := by simp [lthClrCounts]

/-! #### Stencil -/

@[simp] theorem launchFails_eye (s : State) (cause : BitVec 4) (bit : Nat) : (launchFails s cause bit).phn.eye = s.phn.eye := by simp [launchFails]

@[simp] theorem decideLost_eye (s : State) : (decideLost s).phn.eye = s.phn.eye := by simp [decideLost]

@[simp] theorem forgetFrom_eye (s : State) (step : BitVec 32) : (forgetFrom s step).phn.eye = s.phn.eye := by simp [forgetFrom]

@[simp] theorem redeliver_eye (s : State) : (redeliver s).phn.eye = s.phn.eye := by
  unfold redeliver
  split
  · rfl
  · exact eye_foldl _ _ _ fun t u => by split <;> rfl

@[simp] theorem runEngines_eye (s : State) (p : Plan) : (runEngines s p).phn.eye = s.phn.eye := by simp [runEngines]

@[simp] theorem launch_eye (s : State) : (launch s).phn.eye = s.phn.eye := by
  unfold launch
  split <;> simp

@[simp] theorem sendJoins_eye (s : State) (p : Plan) : (sendJoins s p).phn.eye = s.phn.eye := by simp [sendJoins]

@[simp] theorem trackInsts_eye (s : State) (p : Plan) : (trackInsts s p).phn.eye = s.phn.eye := by simp [trackInsts]

@[simp] theorem raiseFull_eye (s : State) (p : Plan) (cs : List Nat) : (raiseFull s p cs).phn.eye = s.phn.eye :=
  eye_foldl _ _ _ fun t c => by split <;> simp

@[simp] theorem stepStart_eye (s : State) : (stepStart s).phn.eye = s.phn.eye := by
  unfold stepStart
  split <;> simp

@[simp] theorem slotStart_eye (s : State) (k : Nat) : (slotStart s k).phn.eye = s.phn.eye := by simp [slotStart]

@[simp] theorem raiseLate_eye (s : State) (p : Plan) : (raiseLate s p).phn.eye = s.phn.eye :=
  eye_foldl _ _ _ fun t c => by split <;> simp

@[simp] theorem stepDeadline_eye (s : State) : (stepDeadline s).phn.eye = s.phn.eye := by
  unfold stepDeadline
  split <;> simp

@[simp] theorem nfHandOff_eye (s : State) (p : Plan) : (nfHandOff s p).phn.eye = s.phn.eye :=
  eye_foldl _ _ _ fun t e => by
    dsimp only
    split_ifs
    · split <;> rfl
    · rfl

@[simp] theorem sendReadies_eye (s : State) (p : Plan) : (sendReadies s p).phn.eye = s.phn.eye := by
  unfold sendReadies
  split_ifs
  · rfl
  · refine eye_foldl _ _ _ fun t c => ?_
    split
    · rfl
    · dsimp only
      split_ifs <;> simp

@[simp] theorem keepRegions_eye (s : State) (p : Plan) (next : Option Plan) : (keepRegions s p next).phn.eye = s.phn.eye := by simp [keepRegions]

@[simp] theorem freeRegions_eye (s : State) (p : Plan) : (freeRegions s p).phn.eye = s.phn.eye := by simp [freeRegions]

@[simp] theorem passRegions_eye (s : State) (p : Plan) (next : Option Plan) : (passRegions s p next).phn.eye = s.phn.eye := by simp [passRegions]

@[simp] theorem claimHeld_eye (s : State) (p : Plan) : (claimHeld s p).phn.eye = s.phn.eye := by simp [claimHeld]

@[simp] theorem readyEngines_eye (s : State) (p : Plan) : (readyEngines s p).phn.eye = s.phn.eye := by simp [readyEngines]

@[simp] theorem leavePlan_eye (s : State) (p : Plan) : (leavePlan s p).phn.eye = s.phn.eye := by simp [leavePlan]

@[simp] theorem endToNone_eye (s : State) (p : Plan) : (endToNone s p).phn.eye = s.phn.eye := by simp [endToNone]

@[simp] theorem endToNext_eye (s : State) (p q : Plan) : (endToNext s p q).phn.eye = s.phn.eye := by simp [endToNext]

@[simp] theorem seamGoesOn_eye (s : State) (p : Plan) : (seamGoesOn s p).phn.eye = s.phn.eye := by
  unfold seamGoesOn
  split <;> simp

@[simp] theorem seamActions_eye (s : State) (p : Plan) : (seamActions s p).phn.eye = s.phn.eye := by
  unfold seamActions
  dsimp only
  repeat' split
  all_goals simp

@[simp] theorem stepSeam_eye (s : State) : (stepSeam s).phn.eye = s.phn.eye := by
  unfold stepSeam
  split <;> simp

@[simp] theorem haltAtSeam_eye (s : State) : (haltAtSeam s).phn.eye = s.phn.eye := by simp [haltAtSeam]

@[simp] theorem discardNext_eye (s : State) : (discardNext s).phn.eye = s.phn.eye := by simp [discardNext]

@[simp] theorem stnClrCounts_eye (s : State) : (stnClrCounts s).phn.eye = s.phn.eye := by simp [stnClrCounts]

@[simp] theorem stnCtrlWrite_eye (s : State) (v : BitVec 32) : (stnCtrlWrite s v).phn.eye = s.phn.eye := by simp [stnCtrlWrite]

/-! #### Admission -/

@[simp] theorem grantRegions_eye (l : List (Nat × Region)) (s : State) : (grantRegions l s).2.phn.eye = s.phn.eye := by
  induction l generalizing s with
  | nil => rfl
  | cons k l ih =>
    unfold grantRegions
    extract_lets got
    have kept : got.2.phn.eye = s.phn.eye := by
      simp only [got]
      split_ifs <;> simp
    split
    · exact kept
    · split <;> next g => exact (eye_of_pair (ih _) g).trans kept

@[simp] theorem grantAreas_eye (p : Plan) (l : List (Nat × Budget)) (s : State) : (grantAreas p l s).2.phn.eye = s.phn.eye := by
  induction l generalizing s with
  | nil => rfl
  | cons k l ih =>
    unfold grantAreas
    split_ifs
    · split <;> next h => simp [ih, eye_of_pair (fitArea_eye ..) h]
    · exact ih s

theorem grantPlan_eye {s t : State} {p q : Plan} (h : grantPlan s p = .inl (q, t)) : t.phn.eye = s.phn.eye := by
  unfold grantPlan at h
  split at h
  · cases h
  · next g =>
    have kept := eye_of_pair (grantRegions_eye ..) g
    split at h
    · cases h
    · next a =>
      cases h
      exact (eye_of_pair (grantAreas_eye ..) a).trans kept

theorem checksFrom6_eye {s t : State} {p q : Plan} (h : checksFrom6 s p = .inl (q, t)) : t.phn.eye = s.phn.eye := by
  unfold checksFrom6 at h
  split at h
  · cases h
  · split at h
    · cases h
    · next g =>
      split at h
      · cases h
      · split at h
        · cases h
        · split_ifs at h
          cases h
          exact grantPlan_eye g

theorem admitChecks_eye {s t : State} {bs : List Byte} {len : Nat} {q : Plan} (h : admitChecks s bs len = .inl (q, t)) : t.phn.eye = s.phn.eye := by
  unfold admitChecks at h
  split at h
  · cases h
  split at h
  · cases h
  dsimp only at h
  split at h
  · cases h
  split at h
  · cases h
  split at h
  · exact checksFrom6_eye h
  split at h
  · exact checksFrom6_eye h
  · cases h

@[simp] theorem armEngines_eye (s : State) (p : Plan) : (armEngines s p).phn.eye = s.phn.eye := by simp [armEngines]

@[simp] theorem breakEntry_eye (s : State) (p : Plan) : (breakEntry s p).phn.eye = s.phn.eye := by simp [breakEntry]

@[simp] theorem placePlan_eye (s : State) (p : Plan) : (placePlan s p).phn.eye = s.phn.eye := by simp [placePlan]

@[simp] theorem admitResult_eye (s : State) (code : Byte) (place : Option Spot) : (admitResult s code place).phn.eye = s.phn.eye := by
  unfold admitResult
  split <;> simp

@[simp] theorem admitAnswer_eye (s : State) (r : MboxRec) : (admitAnswer s r).phn.eye = s.phn.eye := by simp [admitAnswer]

@[simp] theorem planAdmitDone_eye (s : State) : (planAdmitDone s).phn.eye = s.phn.eye := by
  unfold planAdmitDone
  split
  · rfl
  · dsimp only
    split
    · simp
    · next h =>
      have kept := admitChecks_eye h
      split_ifs <;> simp [kept]

@[simp] theorem planAdmit_eye (s : State) (r : MboxRec) (len crc : BitVec 32) : (planAdmit s r len crc).phn.eye = s.phn.eye := by
  unfold planAdmit
  refine mboxCmd_eye _ _ _ _ _ fun u => ?_
  simp

@[simp] theorem relaunch_eye (s : State) (p : Plan) (t : PCount) : (relaunch s p t).phn.eye = s.phn.eye := by simp [relaunch]

@[simp] theorem planRelaunch_eye (s : State) (r : MboxRec) (t : BitVec 64) : (planRelaunch s r t).phn.eye = s.phn.eye := by
  unfold planRelaunch
  refine mboxCmd_eye _ _ _ _ _ fun u => ?_
  dsimp only
  repeat' split
  all_goals simp

@[simp] theorem discardCurrent_eye (s : State) (p : Plan) : (discardCurrent s p).phn.eye = s.phn.eye := by simp [discardCurrent]

@[simp] theorem planDiscard_eye (s : State) (r : MboxRec) (which : BitVec 8) : (planDiscard s r which).phn.eye = s.phn.eye := by
  unfold planDiscard
  refine mboxCmd_eye _ _ _ _ _ fun u => ?_
  repeat' split
  all_goals simp

@[simp] theorem planHalt_eye (s : State) (r : MboxRec) : (planHalt s r).phn.eye = s.phn.eye := by
  unfold planHalt
  refine mboxCmd_eye _ _ _ _ _ fun u => ?_
  simp

@[simp] theorem collAbort_eye (s : State) (r : MboxRec) (coll : BitVec 8) (step : BitVec 32) : (collAbort s r coll step).phn.eye = s.phn.eye := by
  unfold collAbort
  refine mboxCmd_eye _ _ _ _ _ fun u => ?_
  simp

/-! #### Sealer's host commands -/

@[simp] theorem refuseFree_eye (s : State) (r : MboxRec) (op : BitVec 16) : (refuseFree s r op).phn.eye = s.phn.eye := by simp [refuseFree]

@[simp] theorem placeKey_eye (s : State) (p : List Byte) (b : Nat) (rx : Bool) (e : Nat) : (placeKey s p b rx e).phn.eye = s.phn.eye := by simp [placeKey]

@[simp] theorem keyLoadDo_eye (s : State) (r : MboxRec) (plain : Option (List Byte)) : (keyLoadDo s r plain).phn.eye = s.phn.eye := by simp [keyLoadDo]

@[simp] theorem keyLoad_eye (s : State) (r : MboxRec) (off crc : BitVec 32) : (keyLoad s r off crc).phn.eye = s.phn.eye := by
  unfold keyLoad
  refine mboxCmd_eye _ _ _ _ _ fun u => ?_
  simp

@[simp] theorem attest_eye (s : State) (r : MboxRec) (nonce : List Byte) : (attest s r nonce).phn.eye = s.phn.eye := by
  unfold attest
  refine mboxCmd_eye _ _ _ _ _ fun u => ?_
  simp

@[simp] theorem ownerUpload_eye (s : State) (r : MboxRec) (off crc : BitVec 32) : (ownerUpload s r off crc).phn.eye = s.phn.eye := by
  unfold ownerUpload
  refine mboxCmd_eye _ _ _ _ _ fun u => ?_
  simp

@[simp] theorem stripChallenge_eye (s : State) (r : MboxRec) : (stripChallenge s r).phn.eye = s.phn.eye := by
  unfold stripChallenge
  refine mboxCmd_eye _ _ _ _ _ fun u => ?_
  simp

@[simp] theorem stripChallengeExpire_eye (s : State) : (stripChallengeExpire s).phn.eye = s.phn.eye := by simp [stripChallengeExpire]

@[simp] theorem closeAll_eye (s : State) : (closeAll s).phn.eye = s.phn.eye := by simp [closeAll]

@[simp] theorem eraseKeys_eye (s : State) (b : Nat) : (eraseKeys s b).phn.eye = s.phn.eye := by simp [eraseKeys]

@[simp] theorem scrubEngine_eye (s : State) (e : Nat) : (scrubEngine s e).phn.eye = s.phn.eye := by simp [scrubEngine]

@[simp] theorem reinitStack_eye (s : State) (k : Nat) : (reinitStack s k).phn.eye = s.phn.eye := by simp [reinitStack]

@[simp] theorem stripErase_eye (s : State) : (stripErase s).phn.eye = s.phn.eye := by simp [stripErase]

@[simp] theorem strip_eye (s : State) (r : MboxRec) (off crc : BitVec 32) : (strip s r off crc).phn.eye = s.phn.eye := by
  unfold strip
  refine mboxCmd_eye _ _ _ _ _ fun u => ?_
  simp

/-! #### The Snag ledger -/

@[simp] theorem newHour_eye (s : State) : (newHour s).phn.eye = s.phn.eye := by
  unfold newHour
  exact eye_foldl _ _ _ fun _ _ => by simp

@[simp] theorem lifeTick_eye (s : State) : (lifeTick s).phn.eye = s.phn.eye := by simp [lifeTick]

@[simp] theorem flushJournal_eye (s : State) (ok : Bool) : (flushJournal s ok).phn.eye = s.phn.eye := by simp [flushJournal]

@[simp] theorem writeJournal_eye (s : State) (ok : Bool) : (writeJournal s ok).phn.eye = s.phn.eye := by simp [writeJournal]

@[simp] theorem journalFlush_eye (s : State) (ok : Bool) : (journalFlush s ok).phn.eye = s.phn.eye := by simp [journalFlush]

@[simp] theorem summaryWrite_eye (s : State) (ok : Bool) : (summaryWrite s ok).phn.eye = s.phn.eye := by simp [summaryWrite]

@[simp] theorem sngFlush_eye (s : State) (ok : Bool) : (sngFlush s ok).phn.eye = s.phn.eye := by simp [sngFlush]

@[simp] theorem sngClrCounts_eye (s : State) : (sngClrCounts s).phn.eye = s.phn.eye := by simp [sngClrCounts]

@[simp] theorem recommend_eye (s : State) (p score : Nat) : (recommend s p score).phn.eye = s.phn.eye := by simp [recommend]

@[simp] theorem evalPart_eye (s : State) (p : Nat) : (evalPart s p).phn.eye = s.phn.eye := by simp [evalPart]

@[simp] theorem scoreEval_eye (s : State) : (scoreEval s).phn.eye = s.phn.eye := by simp [scoreEval]

@[simp] theorem offlineWrite_eye (s : State) (e : Nat) : (offlineWrite s e).phn.eye = s.phn.eye := by simp [offlineWrite]

@[simp] theorem engCtrlWrite_eye (s : State) (e : Nat) (v : BitVec 32) : (engCtrlWrite s e v).phn.eye = s.phn.eye := by simp [engCtrlWrite]

@[simp] theorem ledgerRead_eye (s : State) (r : MboxRec) (sel : BitVec 8) (part count : BitVec 16) (q : BitVec 64) : (ledgerRead s r sel part count q).phn.eye = s.phn.eye := by
  unfold ledgerRead
  refine mboxCmd_eye _ _ _ _ _ fun u => ?_
  simp

@[simp] theorem tolerate_eye (s : State) (part : BitVec 16) (code : Byte) : (tolerate s part code).phn.eye = s.phn.eye := by simp [tolerate]

@[simp] theorem refuseRetire_eye (s : State) (r : MboxRec) (part : BitVec 16) (code : Byte) : (refuseRetire s r part code).phn.eye = s.phn.eye := by simp [refuseRetire]

@[simp] theorem retirePart_eye (s : State) (r : MboxRec) (part : BitVec 16) (q : BitVec 64) : (retirePart s r part q).phn.eye = s.phn.eye := by
  unfold retirePart
  dsimp only
  repeat' split
  all_goals simp

@[simp] theorem fmRetire_eye (s : State) (r : MboxRec) (part : BitVec 16) (q : BitVec 64) : (fmRetire s r part q).phn.eye = s.phn.eye := by
  unfold fmRetire
  refine mboxCmd_eye _ _ _ _ _ fun u => ?_
  simp

@[simp] theorem fmTolerate_eye (s : State) (r : MboxRec) (part : BitVec 16) (q : BitVec 64) : (fmTolerate s r part q).phn.eye = s.phn.eye := by
  unfold fmTolerate
  refine mboxCmd_eye _ _ _ _ _ fun u => ?_
  simp

@[simp] theorem restorePart_eye (s : State) (part : BitVec 16) : (restorePart s part).phn.eye = s.phn.eye := by
  unfold restorePart
  dsimp only
  repeat' split
  all_goals simp

@[simp] theorem fmRestore_eye (s : State) (r : MboxRec) (part : BitVec 16) (q : BitVec 64) : (fmRestore s r part q).phn.eye = s.phn.eye := by
  unfold fmRestore
  refine mboxCmd_eye _ _ _ _ _ fun u => ?_
  simp

@[simp] theorem sngCtrlWrite_eye (s : State) (v : BitVec 32) : (sngCtrlWrite s v).phn.eye = s.phn.eye := by simp [sngCtrlWrite]

/-! #### Power and resets -/

@[simp] theorem bringUp_eye (s : State) : (bringUp s).phn.eye = s.phn.eye := by simp [bringUp]

@[simp] theorem resetNRise_eye (s : State) : (resetNRise s).phn.eye = s.phn.eye := by simp [resetNRise]

@[simp] theorem brownOutEnd_eye (s : State) : (brownOutEnd s).phn.eye = s.phn.eye := by simp [brownOutEnd]

@[simp] theorem abandonUpdate_eye (s : State) : (abandonUpdate s).phn.eye = s.phn.eye := by
  unfold abandonUpdate
  split <;> simp

@[simp] theorem warnFlush_eye (s : State) (inTime : Bool) : (warnFlush s inTime).phn.eye = s.phn.eye := by simp [warnFlush]

@[simp] theorem supplyWarnAssert_eye (s : State) (inTime : Bool) : (supplyWarnAssert s inTime).phn.eye = s.phn.eye := by simp [supplyWarnAssert]

@[simp] theorem supplyWarnRelease_eye (s : State) : (supplyWarnRelease s).phn.eye = s.phn.eye := by simp [supplyWarnRelease]

@[simp] theorem dropSensor_eye (s : State) (q i : Nat) : (dropSensor s q i).phn.eye = s.phn.eye := by simp [dropSensor]

@[simp] theorem judgeSensor_eye (l : List (Nat × Option Nat)) (q : Nat) (s : State) (x : Nat × Option Nat) : (judgeSensor l q s x).phn.eye = s.phn.eye := by
  unfold judgeSensor
  split <;> simp

@[simp] theorem thermalTrip_eye (s : State) (dies : List Nat) : (thermalTrip s dies).phn.eye = s.phn.eye := by simp [thermalTrip]

@[simp] theorem noteTemps_eye (s : State) (o : TempObs) (ts : List (Nat × Nat × Nat × Nat)) : (noteTemps s o ts).phn.eye = s.phn.eye := by simp -implicitDefEqProofs [noteTemps]

@[simp] theorem tempSample_eye (s : State) (o : TempObs) : (tempSample s o).phn.eye = s.phn.eye := by simp [tempSample]

@[simp] theorem holdExpire_eye (s : State) : (holdExpire s).phn.eye = s.phn.eye := by simp [holdExpire]

@[simp] theorem minLevelWrite_eye (s : State) (v : BitVec 32) : (minLevelWrite s v).phn.eye = s.phn.eye := by simp [minLevelWrite]

@[simp] theorem pwrClrCounts_eye (s : State) : (pwrClrCounts s).phn.eye = s.phn.eye := by simp [pwrClrCounts]

@[simp] theorem pwrCtrlWrite_eye (s : State) (v : BitVec 32) : (pwrCtrlWrite s v).phn.eye = s.phn.eye := by simp [pwrCtrlWrite]

@[simp] theorem reclaimNow_eye (s : State) (o : Owner) : (reclaimNow s o).phn.eye = s.phn.eye := by
  unfold reclaimNow
  dsimp only
  split <;> simp

@[simp] theorem reclaimAll_eye (s : State) : (reclaimAll s).phn.eye = s.phn.eye := by simp [reclaimAll]

@[simp] theorem dropReady_eye (s : State) (bits : List Nat) : (dropReady s bits).phn.eye = s.phn.eye := by simp [dropReady]

@[simp] theorem datapathReset_eye (s : State) (firmware : Bool) : (datapathReset s firmware).phn.eye = s.phn.eye := by simp [datapathReset]

@[simp] theorem saveLedger_eye (s : State) (kind : Nat) : (saveLedger s kind).phn.eye = s.phn.eye := by
  obtain ⟨g, saved⟩ := saveLedger_frame s kind
  rw [saved]

@[simp] theorem noteReset_eye (s : State) (kind : Nat) : (noteReset s kind).phn.eye = s.phn.eye := by simp [noteReset]

/-- A RESET command is answered and no more, or resets a state with the same engines. -/
theorem resetCmd_runs (s : State) (r : MboxRec) (kind : Nat) (f : State → State) :
    (resetCmd s r kind f).phn.eye = s.phn.eye ∨ ∃ u, u.phn.eye = s.phn.eye ∧ resetCmd s r kind f = f u := by
  unfold resetCmd
  rcases mboxCmd_runs s r (needs 0x0071 true false []) [BitVec.ofNat 8 kind] fun s =>
    if s.hwk.updating.isSome then respond s r 0x0071 stMboxBusy []
    else f (noteReset (saveLedger (respond s r 0x0071 stOk []) kind) kind) with e | ⟨u, e, run⟩
  · exact .inl e
  · rw [run]
    split_ifs
    · left; simp [e]
    · right; exact ⟨_, by simp [e], rfl⟩

theorem resetCmd_eye (s : State) (r : MboxRec) (kind : Nat) (f : State → State) (kept : ∀ u, (f u).phn.eye = u.phn.eye) : (resetCmd s r kind f).phn.eye = s.phn.eye := by
  rcases resetCmd_runs s r kind f with e | ⟨u, e, run⟩
  · exact e
  · rw [run, kept, e]

@[simp] theorem stopHawk_eye (s : State) : (stopHawk s).phn.eye = s.phn.eye := by simp [stopHawk]

@[simp] theorem resetFirmware_eye (s : State) (r : MboxRec) : (resetFirmware s r).phn.eye = s.phn.eye := by
  unfold resetFirmware
  refine resetCmd_eye _ _ _ _ fun u => ?_
  simp

@[simp] theorem raiseReady_eye (s : State) (idk ktk : Option KeyPair) : (raiseReady s idk ktk).phn.eye = s.phn.eye := by simp [raiseReady]

@[simp] theorem resetDatapath_eye (s : State) (r : MboxRec) : (resetDatapath s r).phn.eye = s.phn.eye := by
  unfold resetDatapath
  refine resetCmd_eye _ _ _ _ fun u => ?_
  simp

/-! #### Registers -/

@[simp] theorem capture_eye (s : State) (a : Nat) (w : Wide) : (capture s a w).phn.eye = s.phn.eye := by simp [capture]

theorem readWord_eye {s t : State} {a w : BitVec 32} (h : readWord s a = some (w, t)) : t.phn.eye = s.phn.eye := by
  unfold readWord at h
  split at h
  · cases h
  · split at h
    · cases h; rfl
    · split_ifs at h
      · cases h; simp
      · cases h; rfl

@[simp] theorem writeTop_eye (s : State) (off : Nat) (v : BitVec 32) : (writeTop s off v).phn.eye = s.phn.eye := by simp [writeTop]

@[simp] theorem writeTrw_eye (s : State) (off : Nat) (v : BitVec 32) : (writeTrw s off v).phn.eye = s.phn.eye := by
  unfold writeTrw
  split <;> simp

@[simp] theorem writeSkm_eye (s : State) (off : Nat) (v : BitVec 32) : (writeSkm s off v).phn.eye = s.phn.eye := by
  unfold writeSkm
  dsimp only
  repeat' split
  all_goals simp

@[simp] theorem seCtrlWrite_eye (s : State) (v : BitVec 32) : (seCtrlWrite s v).phn.eye = s.phn.eye := by simp [seCtrlWrite]

@[simp] theorem writeStn_eye (s : State) (off : Nat) (v : BitVec 32) : (writeStn s off v).phn.eye = s.phn.eye := by
  unfold writeStn
  split <;> simp

@[simp] theorem clcCtrlWrite_eye (s : State) (v : BitVec 32) : (clcCtrlWrite s v).phn.eye = s.phn.eye := by simp [clcCtrlWrite]

@[simp] theorem writeClc_eye (s : State) (off : Nat) (v : BitVec 32) : (writeClc s off v).phn.eye = s.phn.eye := by
  unfold writeClc
  split <;> simp

@[simp] theorem srcCfgWrite_eye (s : State) (i : Nat) (v : BitVec 32) : (srcCfgWrite s i v).phn.eye = s.phn.eye := by simp [srcCfgWrite]

@[simp] theorem writePlb_eye (s : State) (off : Nat) (v : BitVec 32) : (writePlb s off v).phn.eye = s.phn.eye := by
  unfold writePlb
  dsimp only
  repeat' split
  all_goals simp

@[simp] theorem writeHbm_eye (s : State) (off : Nat) (v : BitVec 32) : (writeHbm s off v).phn.eye = s.phn.eye := by
  unfold writeHbm
  split <;> simp

@[simp] theorem writeLth_eye (s : State) (off : Nat) (v : BitVec 32) : (writeLth s off v).phn.eye = s.phn.eye := by
  unfold writeLth
  dsimp only
  repeat' split
  all_goals simp

@[simp] theorem writeRnd_eye (s : State) (off : Nat) (v : BitVec 32) : (writeRnd s off v).phn.eye = s.phn.eye := by
  unfold writeRnd
  dsimp only
  repeat' split
  all_goals simp

@[simp] theorem mndCtrlCsr_eye (s : State) (v : BitVec 32) : (mndCtrlCsr s v).phn.eye = s.phn.eye := by simp [mndCtrlCsr]

@[simp] theorem writeMnd_eye (s : State) (off : Nat) (v : BitVec 32) : (writeMnd s off v).phn.eye = s.phn.eye := by
  unfold writeMnd
  dsimp only
  repeat' split
  all_goals simp

@[simp] theorem writeSlr_eye (s : State) (off : Nat) (v : BitVec 32) : (writeSlr s off v).phn.eye = s.phn.eye := by
  unfold writeSlr
  dsimp only
  repeat' split
  all_goals simp

@[simp] theorem schRefused_eye (s : State) : (schRefused s).phn.eye = s.phn.eye := by simp [schRefused]

@[simp] theorem gateEntryWrite_eye (s : State) (bank : Bool) (i : Nat) (v : BitVec 32) : (gateEntryWrite s bank i v).phn.eye = s.phn.eye := by simp [gateEntryWrite]

@[simp] theorem gateLenWrite_eye (s : State) (v : BitVec 32) : (gateLenWrite s v).phn.eye = s.phn.eye := by simp [gateLenWrite]

@[simp] theorem gateCtrlWrite_eye (s : State) (v : BitVec 32) : (gateCtrlWrite s v).phn.eye = s.phn.eye := by simp [gateCtrlWrite]

@[simp] theorem schCtrlWrite_eye (s : State) (v : BitVec 32) : (schCtrlWrite s v).phn.eye = s.phn.eye := by simp [schCtrlWrite]

@[simp] theorem writeSch_eye (s : State) (off : Nat) (v : BitVec 32) : (writeSch s off v).phn.eye = s.phn.eye := by
  unfold writeSch
  dsimp only
  repeat' split
  all_goals simp

@[simp] theorem writeSng_eye (s : State) (off : Nat) (v : BitVec 32) : (writeSng s off v).phn.eye = s.phn.eye := by
  unfold writeSng
  split <;> simp

@[simp] theorem writeHwk_eye (s : State) (off : Nat) (v : BitVec 32) : (writeHwk s off v).phn.eye = s.phn.eye := by
  unfold writeHwk
  split <;> simp

@[simp] theorem writePwr_eye (s : State) (off : Nat) (v : BitVec 32) : (writePwr s off v).phn.eye = s.phn.eye := by
  unfold writePwr
  split <;> simp

@[simp] theorem wideWrite_eye (s : State) (b : Blk) (off v : Nat) : (wideWrite s b off v).phn.eye = s.phn.eye := by
  unfold wideWrite
  dsimp only
  repeat' split
  all_goals simp

@[simp] theorem csrRead_eye (s : State) (a : BitVec 32) : (csrRead s a).phn.eye = s.phn.eye := by
  unfold csrRead
  split
  · next h => exact readWord_eye h
  · rfl

/-! #### Hawk's own commands -/

@[simp] theorem nopCmd_eye (s : State) (r : MboxRec) : (nopCmd s r).phn.eye = s.phn.eye := by
  unfold nopCmd
  refine mboxCmd_eye _ _ _ _ _ fun u => ?_
  simp

@[simp] theorem closeCmd_eye (s : State) (r : MboxRec) : (closeCmd s r).phn.eye = s.phn.eye := by
  unfold closeCmd
  refine mboxCmd_eye _ _ _ _ _ fun u => ?_
  dsimp only
  repeat' split
  all_goals simp

@[simp] theorem infoCmd_eye (s : State) (r : MboxRec) : (infoCmd s r).phn.eye = s.phn.eye := by
  unfold infoCmd
  refine mboxCmd_eye _ _ _ _ _ fun u => ?_
  repeat' split
  all_goals simp

@[simp] theorem readyCmd_eye (s : State) (r : MboxRec) : (readyCmd s r).phn.eye = s.phn.eye := by
  unfold readyCmd
  refine mboxCmd_eye _ _ _ _ _ fun u => ?_
  simp

@[simp] theorem peekWords_eye (n : Nat) (a : BitVec 32) (s : State) : (peekWords n a s).2.2.phn.eye = s.phn.eye := by
  induction n generalizing a s with
  | zero => rfl
  | succ n ih =>
    unfold peekWords
    split
    · rfl
    · next h => exact (ih ..).trans (readWord_eye h)

@[simp] theorem peekCmd_eye (s : State) (r : MboxRec) (addr : BitVec 32) (n : BitVec 8) : (peekCmd s r addr n).phn.eye = s.phn.eye := by
  unfold peekCmd
  refine mboxCmd_eye _ _ _ _ _ fun u => ?_
  dsimp only
  repeat' split
  all_goals simp

@[simp] theorem setStage_eye (s : State) (area : Nat) (v : Option (BitVec 16)) : (setStage s area v).phn.eye = s.phn.eye := by simp [setStage]

@[simp] theorem stageClaim_eye (s : State) (r : MboxRec) (area : BitVec 8) : (stageClaim s r area).phn.eye = s.phn.eye := by
  unfold stageClaim
  refine mboxCmd_eye _ _ _ _ _ fun u => ?_
  repeat' split
  all_goals simp

@[simp] theorem stageRelease_eye (s : State) (r : MboxRec) (area : BitVec 8) : (stageRelease s r area).phn.eye = s.phn.eye := by
  unfold stageRelease
  refine mboxCmd_eye _ _ _ _ _ fun u => ?_
  simp

@[simp] theorem writeTiles_eye (s : State) (dha : Nat) (bs : List Byte) : (writeTiles s dha bs).phn.eye = s.phn.eye := by simp [writeTiles]

@[simp] theorem bulkStore_eye (s : State) (i : Nat) (x : Session) (b : BulkRec) : (bulkStore s i x b).phn.eye = s.phn.eye := by
  unfold bulkStore
  dsimp only
  repeat' split
  all_goals simp

@[simp] theorem bulkWrite_eye (s : State) (b : BulkRec) : (bulkWrite s b).phn.eye = s.phn.eye := by
  unfold bulkWrite
  split_ifs
  · rfl
  · split <;> next h => simp [eye_of_pair (acceptRecord_eye ..) h]

@[simp] theorem sendBulk_eye (s : State) (r : MboxRec) (area : BitVec 8) (handle : BitVec 32) (off : Nat) (bs : List Byte) : (sendBulk s r area handle off bs).phn.eye = s.phn.eye := by
  unfold sendBulk
  split <;> simp

@[simp] theorem bulkPiece_eye (r : MboxRec) (area : BitVec 8) (handle : BitVec 32) (acc : List Byte × State) (p : Nat × Nat) : (bulkPiece r area handle acc p).2.phn.eye = acc.2.phn.eye := by
  unfold bulkPiece
  dsimp only
  repeat' split
  all_goals simp

@[simp] theorem bulkRead_eye (s : State) (r : MboxRec) (area : BitVec 8) (handle : BitVec 32) (off : BitVec 64) (len : BitVec 32) : (bulkRead s r area handle off len).phn.eye = s.phn.eye := by
  unfold bulkRead
  refine mboxCmd_eye _ _ _ _ _ fun u => ?_
  dsimp only
  repeat' split
  all_goals simp

@[simp] theorem fwRefuse_eye (s : State) (r : MboxRec) (code : Byte) : (fwRefuse s r code).phn.eye = s.phn.eye := by simp [fwRefuse]

@[simp] theorem fwUpdate_eye (s : State) (r : MboxRec) (len crc : BitVec 32) (im : FwImage) : (fwUpdate s r len crc im).phn.eye = s.phn.eye := by
  unfold fwUpdate
  refine mboxCmd_eye _ _ _ _ _ fun u => ?_
  dsimp only
  repeat' split
  all_goals simp

@[simp] theorem fwUpdateDone_eye (s : State) (readBackOk : Bool) : (fwUpdateDone s readBackOk).phn.eye = s.phn.eye := by
  unfold fwUpdateDone
  split <;> simp

@[simp] theorem netSet_eye (s : State) (r : MboxRec) (slot len : BitVec 8) (mp bp : BitVec 16) (addr : BitVec 128) : (netSet s r slot len mp bp addr).phn.eye = s.phn.eye := by
  unfold netSet
  refine mboxCmd_eye _ _ _ _ _ fun u => ?_
  simp

@[simp] theorem neighborDiscovery_eye (s : State) (m : NdMsg) : (neighborDiscovery s m).phn.eye = s.phn.eye := by
  unfold neighborDiscovery
  repeat' split
  all_goals simp

@[simp] theorem hostLink_eye (s : State) (lost : Bool) : (hostLink s lost).phn.eye = s.phn.eye := by simp [hostLink]

@[simp] theorem recoverInfo_eye (s : State) : (recoverInfo s).phn.eye = s.phn.eye := by simp [recoverInfo]

@[simp] theorem recoverWrite_eye (s : State) (off : BitVec 32) (bs : List Byte) : (recoverWrite s off bs).phn.eye = s.phn.eye := by simp [recoverWrite]

@[simp] theorem recoverResult_eye (s : State) (code : Byte) : (recoverResult s code).phn.eye = s.phn.eye := by simp [recoverResult]

/-! #### The test access port -/

@[simp] theorem idcode_eye (s : State) : (idcode s).phn.eye = s.phn.eye := by simp [idcode]

@[simp] theorem bypass_eye (s : State) (tdi : List Bool) : (bypass s tdi).phn.eye = s.phn.eye := by simp [bypass]

@[simp] theorem boundaryScan_eye (s : State) (cells : Nat) (drive : Option (List Bool)) : (boundaryScan s cells drive).phn.eye = s.phn.eye := by simp [boundaryScan]

@[simp] theorem jtagPrivate_eye (s : State) (tdi : List Bool) : (jtagPrivate s tdi).phn.eye = s.phn.eye := by simp [jtagPrivate]

end Sys2Proof.Machine

/-! ### The operations that light a photonic engine or shut it down, R496 and R497

`Dark` is what the interlock pin asks for. An operation with an `_eye` lemma keeps it; the lemmas here say why each of the others does: it shuts an engine down, it is refused while the pin is high, or it starts from unlit engines. -/

namespace Sys2Proof.Machine

/-- While EYE_INTERLOCK_N is high no photonic engine is lit. -/
structure Dark (s : State) : Prop where
  unlit : s.phn.interlock = true → ∀ n, n < 8 → (s.phe n).safety = .off ∨ (s.phe n).safety = .shutdown

section
variable {s t : State}

theorem interlock_of_eye (kept : t.phn.eye = s.phn.eye) : t.phn.interlock = s.phn.interlock := (congrArg Prod.fst kept :)

theorem safety_of_eye (kept : t.phn.eye = s.phn.eye) (n : Nat) : (t.phe n).safety = (s.phe n).safety := (congrFun (congrArg Prod.snd kept) n :)

theorem Dark.of_eye (dark : Dark s) (kept : t.phn.eye = s.phn.eye) : Dark t := .mk fun pin n small => by
  rw [safety_of_eye kept]
  exact dark.unlit ((interlock_of_eye kept).symm.trans pin) n small

theorem Dark.of_pin_low (low : t.phn.interlock = false) : Dark t := .mk fun pin => absurd (low.symm.trans pin) (by decide)

theorem Shuts.interlock {n : Nat} (h : Shuts n s t) : t.phn.interlock = s.phn.interlock := (congrArg (fun u => u.phn.interlock) h.beside :)

theorem Shuts.dark {n : Nat} (h : Shuts n s t) (dark : Dark s) : Dark t := .mk fun pin m small => by
  by_cases here : m = n
  · exact .inr (here ▸ h.here)
  · rw [h.others m here]
    exact dark.unlit (h.interlock.symm.trans pin) m small

end

/-! #### Eye safety -/

theorem shutAll_safety (l : List Nat) (s : State) (m : Nat) :
    ((l.foldl (fun s n => enterShutdown s n true) s).phe m).safety = if m ∈ l then .shutdown else (s.phe m).safety := by
  induction l generalizing s with
  | nil => rfl
  | cons n l ih =>
    have shut := enterShutdown_shuts s n true
    rw [List.foldl_cons, ih]
    by_cases later : m ∈ l
    · rw [if_pos later, if_pos (List.mem_cons_of_mem _ later)]
    · rw [if_neg later]
      by_cases here : m = n
      · rw [here, shut.here, if_pos List.mem_cons_self]
      · rw [shut.others m here, if_neg fun h => (List.mem_cons.1 h).elim here later]

theorem interlockHigh_safety (s : State) {n : Nat} (small : n < 8) : ((interlockHigh s).phe n).safety = .shutdown := by
  unfold interlockHigh
  extract_lets p u hit w
  have shut : (w.phe n).safety = .shutdown := by
    refine (shutAll_safety hit u n).trans ?_
    split
    · rfl
    · next out => exact Decidable.not_not.1 fun lit => out (List.mem_filter.2 ⟨List.mem_range.2 small, decide_eq_true lit⟩)
  split
  · exact shut
  · exact (safety_of_eye (eyeEntry_eye ..) n).trans shut

theorem enterNormal_interlock (s : State) (n : Nat) : (enterNormal s n).phn.interlock = s.phn.interlock := by
  obtain ⟨x, normal⟩ : ∃ x, enterNormal s n = autoSwaps (nearSettle (s.setPhe n x) n) n := ⟨_, rfl⟩
  have settled : (nearSettle (s.setPhe n x) n).phn.interlock = s.phn.interlock := (interlock_of_eye (nearSettle_eye (s.setPhe n x) n)).trans rfl
  rw [normal]
  exact (interlock_of_eye (autoSwaps_eye ..)).trans settled

theorem interlockHigh_dark (s : State) : Dark (interlockHigh s) := .mk fun _ _ small => .inr (interlockHigh_safety s small)

theorem besideNear_interlock (s : State) : s.besideNear.phn.interlock = s.phn.interlock := rfl

theorem phnStart_interlock (s : State) : (phnStart s).phn.interlock = s.phn.interlock := by
  obtain ⟨p, armed⟩ := levelsArmed_frame s
  rw [← besideNear_interlock, phnStart_beside, armed]
  rfl

section
variable {s : State} (dark : Dark s)
include dark

theorem mboxCmd_dark {r : MboxRec} {n : CmdNeeds} {args : List Byte} {f : State → State} (kept : ∀ u, Dark u → Dark (f u)) : Dark (mboxCmd s r n args f) := by
  rcases mboxCmd_runs s r n args f with same | ⟨u, same, run⟩
  · exact dark.of_eye same
  · rw [run]
    exact kept u (dark.of_eye same)

theorem interlockLow_dark : Dark (interlockLow s) := by
  unfold interlockLow
  split
  · exact .of_pin_low rfl
  · exact dark

theorem rxLightLoss_dark (n : Nat) : Dark (rxLightLoss s n) := by
  unfold rxLightLoss
  split
  · exact ((enterShutdown_shuts s n false).dark dark).of_eye (eyeEntry_eye ..)
  · exact dark

theorem forceOff_dark (n : Nat) (on : Bool) : Dark (forceOff s n on) := by
  unfold forceOff
  extract_lets x u
  have noted : Dark u := dark.of_eye (eye_setPhe s n _ rfl)
  split
  · exact (enterShutdown_shuts u n false).dark noted
  · exact noted

theorem probeEntry_dark (n : Nat) : Dark (probeEntry s n) := by
  unfold probeEntry
  dsimp only
  split
  · next h => exact .of_pin_low (by simpa using h.2.1)
  · exact dark

/-- While the pin is high no engine is in PROBE, so none goes on to NORMAL. -/
theorem probeTimeout_dark {n : Nat} (small : n < 8) (light : Bool) : Dark (probeTimeout s n light) := by
  unfold probeTimeout
  split
  · next probe =>
    cases light with
    | false => exact (enterShutdown_shuts s n false).dark dark
    | true =>
      refine .of_pin_low ((enterNormal_interlock s n).trans (eq_false_of_ne_true fun pin => ?_))
      rcases dark.unlit pin n small with off | shut
      · exact absurd (probe.symm.trans off) (by decide)
      · exact absurd (probe.symm.trans shut) (by decide)
  · exact dark

/-! #### Starts and resets -/

theorem startHawk_dark (im : FwImage) (found : StartFinds) : Dark (startHawk s im found) := .mk fun pin n small => by
  have same : (startHawk s im found).phn.interlock = s.phn.interlock := by
    rw [startHawk_eq]
    exact (phnStart_interlock _).trans (congrArg Phn.interlock (beforeLevel_up s im found).2)
  rw [startHawk_safety s im found small]
  split
  · exact .inr rfl
  · exact dark.unlit (same.symm.trans pin) n small

theorem hawkStart_dark (im : FwImage) (found : StartFinds) : Dark (hawkStart s im found) := by
  unfold hawkStart
  split
  · exact dark
  · extract_lets x
    split
    · exact dark.of_eye rfl
    · exact startHawk_dark dark ..

theorem recoverDone_dark (len crc : BitVec 32) (im : FwImage) (found : StartFinds) : Dark (recoverDone s len crc im found) := by
  unfold recoverDone
  split
  · exact dark
  split
  · exact dark.of_eye (recoverResult_eye ..)
  extract_lets x h u
  have staged : Dark u := dark.of_eye rfl
  split
  · exact staged.of_eye (recoverResult_eye ..)
  · exact startHawk_dark (staged.of_eye (recoverResult_eye ..)) ..

theorem resetDevice_dark (r : MboxRec) : Dark (resetDevice s r) := by
  unfold resetDevice
  rcases resetCmd_runs s r 1 fun s => bringUp (settleLevel (coldState s s.pwr true)) with kept | ⟨u, -, run⟩
  · exact dark.of_eye kept
  · rw [run]
    exact .of_eye (s := coldState u u.pwr true) (.mk fun _ _ _ => .inl rfl) ((bringUp_eye _).trans (settleLevel_eye _))

theorem brownOut_dark : Dark (brownOut s) := by
  unfold brownOut
  split
  · exact .mk fun _ _ _ => .inl rfl
  · exact dark

/-! #### Register writes -/

theorem phnCtrlWrite_dark (n : Nat) (v : BitVec 32) : Dark (phnCtrlWrite s n v) := by
  unfold phnCtrlWrite
  extract_lets c rx x s1 s2 s3 s4 s5
  have d1 : Dark s1 := dark.of_eye (eye_setPhe s n _ rfl)
  have d2 : Dark s2 := d1.of_eye (eye_ite_of (phnClrCounts_eye ..) rfl)
  have d3 : Dark s3 := by
    simp only [s3]
    split
    · exact d2
    · exact forceOff_dark d2 ..
  have d4 : Dark s4 := d3.of_eye (eye_ite_of (relock_eye ..) rfl)
  have d5 : Dark s5 := d4.of_eye (eye_ite_of (swap_eye ..) rfl)
  exact d5.of_eye (autoSwaps_eye ..)

theorem writePhn_dark (off : Nat) (v : BitVec 32) : Dark (writePhn s off v) := by
  unfold writePhn
  dsimp only
  split
  · exact phnCtrlWrite_dark dark ..
  · exact dark.of_eye (eye_setPhe s _ _ rfl)
  · exact dark.of_eye (fenceWrite_eye ..)
  · exact dark.of_eye (fenceWrite_eye ..)
  · exact dark.of_eye (fenceWrite_eye ..)
  · exact dark

theorem plainWrite_dark (b : Blk) (off : Nat) (v : BitVec 32) : Dark (plainWrite s b off v) := by
  cases b with
  | phn => exact writePhn_dark dark ..
  | _ => exact dark.of_eye (by simp [plainWrite])

theorem writeWord_dark {t : State} {a v : BitVec 32} (run : writeWord s a v = some t) : Dark t := by
  unfold writeWord at run
  split at run
  · cases run
  split at run
  · cases run
    exact plainWrite_dark dark ..
  split at run
  · cases run
    exact dark.of_eye (eye_ite_of rfl rfl)
  split at run
  · cases run
    exact dark.of_eye (wideWrite_eye ..)
  · cases run
    exact dark

theorem csrWrite_dark (a v : BitVec 32) : Dark (csrWrite s a v) := by
  unfold csrWrite
  cases run : writeWord s a v with
  | none => exact dark
  | some t => exact writeWord_dark dark run

theorem pokeCmd_dark (r : MboxRec) (a v : BitVec 32) : Dark (pokeCmd s r a v) := by
  unfold pokeCmd
  refine mboxCmd_dark dark fun u start => ?_
  split
  · next t h =>
    refine Dark.of_eye ?_ (respond_eye ..)
    split
    · exact start.of_eye (lathCmdPoke_eye ..)
    · split at h
      · exact writeWord_dark start h
      · cases h
  · exact start.of_eye (respond_eye ..)

end

/-! #### Every command -/

theorem Dark.act {s t u : State} (dark : Dark s) (after : Dark u) (run : act s u = .next t) : Dark t := by
  cases run
  split
  · exact dark
  · exact after

theorem exec_dark {c : Instr} {s t : State} (dark : Dark s) (run : exec c s = .next t) : Dark t := by
  cases c
  case csrWrite a v => exact dark.act (csrWrite_dark dark a v) run
  case poke r a v => exact dark.act (pokeCmd_dark dark r a v) run
  case eyeInterlockHigh => exact dark.act (interlockHigh_dark s) run
  case eyeInterlockLow => exact dark.act (interlockLow_dark dark) run
  case rxLightLoss n => exact dark.act (rxLightLoss_dark dark n.val) run
  case probeEntry n => exact dark.act (probeEntry_dark dark n.val) run
  case probeTimeout n light => exact dark.act (probeTimeout_dark dark n.isLt light) run
  case forceOff n on => exact dark.act (forceOff_dark dark n.val on) run
  case hawkStart im found => exact dark.act (hawkStart_dark dark im found) run
  case recoverDone len crc im found => exact dark.act (recoverDone_dark dark len crc im found) run
  case resetDevice r => exact dark.act (resetDevice_dark dark r) run
  case brownOut => exact dark.act (brownOut_dark dark) run
  case powerOn byPin => exact dark.act (by cases byPin <;> exact .mk fun _ _ _ => .inl rfl) run
  case powerRemoved => cases run; exact .mk fun _ _ _ => .inl rfl
  case tapReset => cases run; exact dark.of_eye rfl
  case idcode => cases run; exact dark.of_eye (idcode_eye s)
  case bypass tdi => cases run; exact dark.of_eye (bypass_eye s tdi)
  case jtagBoundaryScan cells drive => cases run; exact dark.of_eye (boundaryScan_eye s cells drive)
  case jtagPrivate tdi => cases run; exact dark.of_eye (jtagPrivate_eye s tdi)
  case grant => exact dark.act (dark.of_eye (lathFrom_eye _ _ _ _ _ _ _ _ fun k u => lathByHawk_eye ..)) run
  case free => exact dark.act (dark.of_eye (lathFrom_eye _ _ _ _ _ _ _ _ fun k u => lathByHawk_eye ..)) run
  case freeOwner => exact dark.act (dark.of_eye (lathFrom_eye _ _ _ _ _ _ _ _ fun k u => lathByHawk_eye ..)) run
  case handover => exact dark.act (dark.of_eye (lathFrom_eye _ _ _ _ _ _ _ _ fun k u => lathByHawk_eye ..)) run
  case proxyFree => exact dark.act (dark.of_eye (lathFrom_eye _ _ _ _ _ _ _ _ fun k u => lathByHawk_eye ..)) run
  case query => exact dark.act (dark.of_eye (lathFrom_eye _ _ _ _ _ _ _ _ fun k u => lathByHawk_eye ..)) run
  case ringResend coll step =>
    refine dark.act (dark.of_eye ?_) run
    split
    · split
      · split <;> simp
      · rfl
    · rfl
  case queueItemArrive q it => exact dark.act (dark.of_eye (by cases q with | num n => exact arrive_eye .. | ctl b => exact eye_ite_of rfl (arriveCtl_eye ..))) run
  -- the operation of any other command leaves the pin and the safety states, by its lemma above
  all_goals refine dark.act (dark.of_eye ?_) run
  all_goals simp

theorem TriggersOnly.eye {s t : State} (h : TriggersOnly s t) : t.phn.eye = s.phn.eye := by
  obtain ⟨p, l, rfl, -⟩ := h
  rfl

theorem plumbTick_eye (s : State) : (plumbTick s).phn.eye = s.phn.eye := by
  unfold plumbTick
  split
  · rfl
  · extract_lets p h ticked due qualified p' marked
    have stepped : due.phn.eye = s.phn.eye := (stepDue_triggersOnly ..).eye
    have heard : qualified.phn.eye = s.phn.eye := (eye_ite_of (requalify_eye _) rfl).trans stepped
    exact (eye_foldl _ _ _ fun u c => (fireTrig_triggersOnly c u).eye).trans heard

/-- Settles O59: the pin and the safety states pass through every operation but those of eye safety, starts and resets, and each of these leaves no engine lit while the pin is high. -/
theorem eyeSafety : Obligations.EyeSafety := by
  unfold Obligations.EyeSafety
  refine ⟨fun s t inv run => (?_ : Dark t).unlit, fun _ _ _ => .inl rfl⟩
  have dark : Dark s := ⟨inv⟩
  unfold step at run
  split at run
  · cases run
    exact dark.of_eye (plumbTick_eye s)
  · next c rest _ => exact exec_dark (s := { s with pending := rest }) (dark.of_eye rfl) run

end Sys2Proof.Machine

/-! ### The temperatures that the stacks' registers hold

A level that the temperatures call for may go out as a LATE message (R612), which the device may handle itself; nothing on that way touches a stack's temperature. One lemma for each operation on it. -/

namespace Sys2Proof.Machine

/-- The temperature that each stack's register holds. -/
def Hbm.temps (h : Hbm) : Nat → Byte := fun k => (Tab.get {} h.stackTab k).temp

@[simp] theorem Hbm.temps_mk (h : Hbm) (bytes : Mem) (tags : Tab HTag) (soft hard writeback : List Nat) : Hbm.temps ⟨bytes, tags, h.stackTab, soft, hard, writeback⟩ = h.temps := rfl

@[simp] theorem temps_ite (c : Prop) [Decidable c] (s t : State) : (if c then s else t).hbm.temps = if c then s.hbm.temps else t.hbm.temps := by
  split <;> rfl

theorem temps_setStack (s : State) (k : Nat) (x : Stack) (same : x.temp = (s.stack k).temp) : (s.setStack k x).hbm.temps = s.hbm.temps := funext fun j => by
  by_cases h : j = k
  · subst h; exact (congrArg Stack.temp (Tab.get_put {} s.hbm.stackTab j x) :).trans same
  · exact (congrArg Stack.temp (Tab.get_put_ne {} {} s.hbm.stackTab k j x h) :)

@[simp] theorem temps_foldl {α : Type} (f : State → α → State) (l : List α) (s : State) (kept : ∀ s a, (f s a).hbm.temps = s.hbm.temps) : (l.foldl f s).hbm.temps = s.hbm.temps := by
  induction l generalizing s with
  | nil => rfl
  | cons a l ih => rw [List.foldl_cons, ih, kept]

@[simp] theorem temps_foldl_fst {α β : Type} (f : State × β → α → State × β) (l : List α) (p : State × β) (kept : ∀ p a, (f p a).1.hbm.temps = p.1.hbm.temps) : (l.foldl f p).1.hbm.temps = p.1.hbm.temps := by
  induction l generalizing p with
  | nil => rfl
  | cons a l ih => rw [List.foldl_cons, ih, kept]

theorem temps_of_pair {α : Type} {p : α × State} {a : α} {t : State} {e : Nat → Byte} (kept : p.2.hbm.temps = e) (h : p = (a, t)) : t.hbm.temps = e := by
  rw [← kept, h]

theorem LedgerOnly.temps {s t : State} (h : LedgerOnly s t) : t.hbm.temps = s.hbm.temps := by
  obtain ⟨g, rfl⟩ := h
  rfl

theorem NearWork.temps {s t : State} (h : NearWork s t) : t.hbm.temps = s.hbm.temps := (congrArg (fun u => u.hbm.temps) h.beside :)

@[simp] theorem readBursts_temps (s : State) (dha n : Nat) : (readBursts s dha n).2.hbm.temps = s.hbm.temps := by
  unfold readBursts
  extract_lets base k inTile hard soft x y z h u v w
  have corrected : y.temp = x.temp := (apply_ite Stack.temp ..).trans (ite_self _)
  clear_value hard
  have stuck : z.temp = x.temp := by
    cases hard with
    | nil => exact corrected
    | cons b l => exact corrected
  have counted : v.hbm.temps = s.hbm.temps := temps_setStack u k z stuck
  cases hard with
  | nil => exact counted
  | cons b l => exact (journal_ledgerOnly v 0x04 (partId 2 k) _).temps.trans counted

end Sys2Proof.Machine

namespace Sys2Proof.Machine

@[simp] theorem emit_temps (s : State) (o : Out) : (emit s o).hbm.temps = s.hbm.temps := by simp [emit]

@[simp] theorem setTrwReady_temps (s : State) (e : Nat) (b : Bool) : (setTrwReady s e b).hbm.temps = s.hbm.temps := by simp [setTrwReady]

@[simp] theorem setEngSt_temps (s : State) (e : Nat) (st : EngSt) : (setEngSt s e st).hbm.temps = s.hbm.temps := by simp [setEngSt]

@[simp] theorem journal_temps (s : State) (type : Nat) (part : BitVec 16) (body : List Byte) : (journal s type part body).hbm.temps = s.hbm.temps := by simp [journal]

@[simp] theorem sendRecord_temps (s : State) (num : BitVec 16) (record : List Byte) : (sendRecord s num record).hbm.temps = s.hbm.temps := (sendRecord_near ..).temps

@[simp] theorem respond_temps (s : State) (r : MboxRec) (opcode : BitVec 16) (status : Byte) (result : List Byte) : (respond s r opcode status result).hbm.temps = s.hbm.temps := (respond_near ..).temps

@[simp] theorem readTile_temps (s : State) (dha : Nat) : (readTile s dha).2.2.hbm.temps = s.hbm.temps := by simp [readTile]

@[simp] theorem grantBuffer_temps (s : State) (o : Owner) (q p : Nat) : (grantBuffer s o q p).2.hbm.temps = s.hbm.temps := by
  unfold grantBuffer
  dsimp only
  repeat' split
  all_goals simp

@[simp] theorem dropHeld_temps (s : State) (o : Owner) : (dropHeld s o).hbm.temps = s.hbm.temps := by simp [dropHeld]

@[simp] theorem lathFree_temps (s : State) (o : Owner) (h : Nat) : (lathFree s o h).2.hbm.temps = s.hbm.temps := by
  unfold lathFree
  dsimp only
  repeat' split
  all_goals simp

@[simp] theorem openFence_temps (s : State) (o : Owner) : (openFence s o).hbm.temps = s.hbm.temps := by simp [openFence]

@[simp] theorem closeFence_temps (s : State) (f : Fence) : (closeFence s f).hbm.temps = s.hbm.temps := by simp [closeFence]

@[simp] theorem lathAnswer_temps (s : State) (c : LathCmd) (code : Byte) (handle : BitVec 32) : (lathAnswer s c code handle).hbm.temps = s.hbm.temps := by
  unfold lathAnswer
  dsimp only
  repeat' split
  all_goals simp

@[simp] theorem lathDo_temps (s : State) (c : LathCmd) : (lathDo s c).hbm.temps = s.hbm.temps := by
  unfold lathDo
  dsimp only
  split
  · split_ifs
    · simp
    · simp
    · split <;> next h => simp [temps_of_pair (grantBuffer_temps ..) h]
  · simp
  · split_ifs <;> simp
  · split_ifs <;> simp
  · split_ifs
    · simp
    · split <;> simp
  · simp
  · split_ifs <;> simp
  · simp

@[simp] theorem lathRun_temps (fuel : Nat) (s : State) : (lathRun fuel s).hbm.temps = s.hbm.temps := by
  induction fuel generalizing s with
  | zero => rfl
  | succ n ih =>
    unfold lathRun
    dsimp only
    repeat' split
    all_goals simp [ih]

@[simp] theorem lathQueue_temps (s : State) (c : LathCmd) : (lathQueue s c).hbm.temps = s.hbm.temps := by simp [lathQueue]

@[simp] theorem releaseOwner_temps (s : State) (o : Owner) (only : Option (List Nat)) : (releaseOwner s o only).hbm.temps = s.hbm.temps := by simp [releaseOwner]

@[simp] theorem arriveCtl_temps (s : State) (b : Nat) (it : QItem) : (arriveCtl s b it).hbm.temps = s.hbm.temps := by simp [arriveCtl]

@[simp] theorem freeHandles_temps (s : State) (hs : List Nat) : (freeHandles s hs).hbm.temps = s.hbm.temps := by simp [freeHandles]

@[simp] theorem trimAreas_temps (s : State) : (trimAreas s).hbm.temps = s.hbm.temps := by simp [trimAreas]

@[simp] theorem releaseNextRegions_temps (s : State) (p : Plan) : (releaseNextRegions s p).hbm.temps = s.hbm.temps := by simp [releaseNextRegions]

@[simp] theorem dropNext_temps (s : State) (mark : Bool) : (dropNext s mark).hbm.temps = s.hbm.temps := by
  unfold dropNext
  split <;> simp

@[simp] theorem cancelEngine_temps (s : State) (e : Nat) : (cancelEngine s e).hbm.temps = s.hbm.temps := by simp [cancelEngine]

@[simp] theorem toHalted_temps (s : State) (cause : BitVec 4) (step : BitVec 32) : (toHalted s cause step).hbm.temps = s.hbm.temps := by
  unfold toHalted
  split <;> simp

@[simp] theorem haltNow_temps (s : State) (cause : BitVec 4) : (haltNow s cause).hbm.temps = s.hbm.temps := by simp [haltNow]

@[simp] theorem armTrig_temps (s : State) (c : Nat) (t : PCount) : (armTrig s c t).hbm.temps = s.hbm.temps := by simp [armTrig]

@[simp] theorem applyExt_temps (s : State) (step v : BitVec 32) : (applyExt s step v).2.hbm.temps = s.hbm.temps := by
  unfold applyExt
  dsimp only
  repeat' split
  all_goals simp

@[simp] theorem putInst_temps (s : State) (x : Inst) : (putInst s x).hbm.temps = s.hbm.temps := by simp [putInst]

@[simp] theorem abortResult_temps (s : State) (code : Byte) : (abortResult s code).hbm.temps = s.hbm.temps := by
  unfold abortResult
  dsimp only
  split <;> simp

@[simp] theorem recordOutcome_temps (s : State) (x : Inst) (d : Decision) : (recordOutcome s x d).hbm.temps = s.hbm.temps := by simp [recordOutcome]

@[simp] theorem decideInst_temps (s : State) (x : Inst) (d : Decision) : (decideInst s x d).1.hbm.temps = s.hbm.temps := by
  unfold decideInst
  split <;> simp

@[simp] theorem trySeal_temps (s : State) (coll : Nat) (step : BitVec 32) : (trySeal s coll step).1.hbm.temps = s.hbm.temps := by
  unfold trySeal
  dsimp only
  repeat' split
  all_goals simp

@[simp] theorem trySealAll_temps (s : State) (coll : Nat) : (trySealAll s coll).1.hbm.temps = s.hbm.temps := by simp [trySealAll]

@[simp] theorem rootAbort_temps (s : State) (m : ClcMsg) : (rootAbort s m).1.hbm.temps = s.hbm.temps := by
  unfold rootAbort
  dsimp only
  repeat' split
  all_goals simp

@[simp] theorem rootRaise_temps (s : State) (coll : Nat) (step : BitVec 32) (code : Byte) (subj : Option (BitVec 16)) : (rootRaise s coll step code subj).1.hbm.temps = s.hbm.temps := by simp [rootRaise]

@[simp] theorem markMismatch_temps (s : State) : (markMismatch s).hbm.temps = s.hbm.temps := by simp [markMismatch]

@[simp] theorem onJoin_temps (s : State) (m : ClcMsg) : (onJoin s m).1.hbm.temps = s.hbm.temps := by
  unfold onJoin
  dsimp only
  repeat' split
  all_goals simp

@[simp] theorem onSiteJoin_temps (s : State) (m : ClcMsg) : (onSiteJoin s m).1.hbm.temps = s.hbm.temps := by
  unfold onSiteJoin
  dsimp only
  repeat' split
  all_goals simp

@[simp] theorem onReady_temps (s : State) (m : ClcMsg) : (onReady s m).1.hbm.temps = s.hbm.temps := by
  unfold onReady
  dsimp only
  repeat' split
  all_goals simp

@[simp] theorem onSiteReady_temps (s : State) (m : ClcMsg) : (onSiteReady s m).1.hbm.temps = s.hbm.temps := by
  unfold onSiteReady
  dsimp only
  repeat' split
  all_goals simp

@[simp] theorem onAbortReq_temps (s : State) (m : ClcMsg) : (onAbortReq s m).1.hbm.temps = s.hbm.temps := by
  unfold onAbortReq
  split_ifs <;> simp

@[simp] theorem onLate_temps (s : State) (m : ClcMsg) : (onLate s m).1.hbm.temps = s.hbm.temps := by
  unfold onLate
  dsimp only
  repeat' split
  all_goals simp

@[simp] theorem onExt_temps (s : State) (m : ClcMsg) : (onExt s m).1.hbm.temps = s.hbm.temps := by
  unfold onExt
  split <;> simp

@[simp] theorem onRing_temps (s : State) (m : ClcMsg) : (onRing s m).1.hbm.temps = s.hbm.temps := by
  unfold onRing
  dsimp only
  repeat' split
  all_goals simp

@[simp] theorem onNotify_temps (s : State) (m : ClcMsg) : (onNotify s m).1.hbm.temps = s.hbm.temps := by
  unfold onNotify
  split <;> simp

@[simp] theorem onAbortReply_temps (s : State) (m : ClcMsg) : (onAbortReply s m).1.hbm.temps = s.hbm.temps := by
  unfold onAbortReply
  split_ifs <;> simp

@[simp] theorem mirrorSend_temps (x : Nat) (p : State × Sends) (t : Nat × Nat) : (mirrorSend x p t).1.hbm.temps = p.1.hbm.temps := by
  unfold mirrorSend
  dsimp only
  repeat' split
  all_goals simp

@[simp] theorem onRebuildReq_temps (s : State) (m : ClcMsg) : (onRebuildReq s m).1.hbm.temps = s.hbm.temps := by
  unfold onRebuildReq
  dsimp only
  repeat' split
  all_goals simp

@[simp] theorem onRebuilt_temps (s : State) (m : ClcMsg) : (onRebuilt s m).1.hbm.temps = s.hbm.temps := by
  unfold onRebuilt
  split <;> simp

@[simp] theorem clcHandle_temps (s : State) (m : ClcMsg) (own : Bool) : (clcHandle s m own).1.hbm.temps = s.hbm.temps := by
  unfold clcHandle
  dsimp only
  repeat' split
  all_goals simp

@[simp] theorem sendMsg_temps (s : State) (dest : Nat) (m : ClcMsg) : (sendMsg s dest m).hbm.temps = s.hbm.temps := by simp [sendMsg]

@[simp] theorem clcSend_temps (fuel : Nat) (p : State × Sends) : (clcSend fuel p).hbm.temps = p.1.hbm.temps := by
  induction fuel generalizing p with
  | zero => simp [clcSend]
  | succ n ih =>
    obtain ⟨s, _ | ⟨⟨dest, m⟩, rest⟩⟩ := p
    · rfl
    · unfold clcSend
      split_ifs <;> simp [ih]

@[simp] theorem clcOut_temps (p : State × Sends) : (clcOut p).hbm.temps = p.1.hbm.temps := by simp [clcOut]

@[simp] theorem setLevel_temps (s : State) (l : Nat) (emergency : Bool) : (setLevel s l emergency).hbm.temps = s.hbm.temps := by simp [setLevel]

@[simp] theorem setSlowed_temps (s : State) (b : Bool) : (setSlowed s b).hbm.temps = s.hbm.temps := by simp [setSlowed]

@[simp] theorem settleLevel_temps (s : State) : (settleLevel s).hbm.temps = s.hbm.temps := by simp [settleLevel]

@[simp] theorem sendLate_temps (s : State) (value : Nat) : (sendLate s value).hbm.temps = s.hbm.temps := by
  unfold sendLate
  split <;> simp

@[simp] theorem emergency_temps (s : State) : (emergency s).hbm.temps = s.hbm.temps := by simp [emergency]

@[simp] theorem callLevel_temps (s : State) (l : Nat) : (callLevel s l).hbm.temps = s.hbm.temps := by simp [callLevel]

end Sys2Proof.Machine

/-! ## Power, temperature levels and the test access port, R598 to R616 and R626 -/

namespace Sys2Proof.Machine

/-! ### Levels, R611 -/

theorem wantedLevel_lt (s : State) : wantedLevel s < 4 := by
  have low : minLevelActs s ≤ 2 := min_le_left ..
  have applied := s.pwr.applied.isLt
  exact max_lt (by omega) applied

theorem setLevel_level (s : State) {l : Nat} (h : l < 4) (emergency : Bool) : (setLevel s l emergency).pwr.level.toNat = l := by
  unfold setLevel
  split
  · next same => exact same.symm
  · dsimp only
    obtain ⟨q, e, noted⟩ := journal_device { s with pwr := { s.pwr with level := BitVec.ofNat 2 l, throttleCount := bump s.pwr.throttleCount 1, err := setErr s.pwr.err 0 } } 0x13 [BitVec.ofNat 8 l, BitVec.ofNat 8 (b2n emergency)]
    rw [noted]
    exact Nat.mod_eq_of_lt h

theorem settleLevel_level (s : State) : (settleLevel s).pwr.level.toNat = wantedLevel s := by
  refine Eq.trans (congrArg BitVec.toNat ?_) (setLevel_level s (wantedLevel_lt s) false)
  unfold settleLevel
  dsimp only
  split
  · rfl
  · split <;> rfl

theorem settleLevel_applied (s : State) : (settleLevel s).pwr.applied = s.pwr.applied := by
  have set : (setLevel s (wantedLevel s) false).pwr.applied = s.pwr.applied := by
    unfold setLevel
    split
    · rfl
    · dsimp only
      obtain ⟨q, e, noted⟩ := journal_device { s with pwr := { s.pwr with level := BitVec.ofNat 2 (wantedLevel s), throttleCount := bump s.pwr.throttleCount 1, err := setErr s.pwr.err 0 } } 0x13 [BitVec.ofNat 8 (wantedLevel s), BitVec.ofNat 8 (b2n false)]
      rw [noted]
  refine Eq.trans ?_ set
  unfold settleLevel
  dsimp only
  split
  · rfl
  · split <;> rfl

theorem callLevel_idle {s : State} (idle : s.stn.place ≠ .running) {l : Nat} (h : l ≤ 3) :
    (callLevel s l).pwr.level.toNat = max (minLevelActs s) (max l s.pwr.applied.toNat) := by
  have applied := s.pwr.applied.isLt
  have at_once : callLevel s l = settleLevel { s with pwr := { s.pwr with asked := BitVec.ofNat 2 l, applied := BitVec.ofNat 2 (max l s.pwr.applied.toNat) } } :=
    if_pos (by simpa [planRunning] using idle)
  rw [at_once, settleLevel_level]
  exact congrArg (max (minLevelActs s)) (Nat.mod_eq_of_lt (max_lt (by omega) applied))

/-! ### Temperatures, R610 and R613 -/

theorem le_maxList {l : List Nat} {x : Nat} (h : x ∈ l) : x ≤ maxList l := by
  have grows (l : List Nat) (a : Nat) : a ≤ l.foldl max a ∧ ∀ x ∈ l, x ≤ l.foldl max a := by
    induction l generalizing a with
    | nil => simp
    | cons b l ih =>
      obtain ⟨first, rest⟩ := ih (max a b)
      refine ⟨(le_max_left a b).trans first, fun x mem => ?_⟩
      rcases List.mem_cons.1 mem with rfl | later
      · exact (le_max_right a x).trans first
      · exact rest x later
  exact (grows l 0).2 x h

theorem padTo_getD (d : Nat) (n : Nat) (l : List Nat) {k : Nat} (h : k < n) : (padTo d n l)[k]? = some (l.getD k d) := by
  unfold padTo
  by_cases short : k < l.length
  · rw [List.getElem?_append_left (by simp; omega), List.getElem?_take_of_lt h, List.getElem?_eq_getElem short, List.getD_eq_getElem _ _ short]
  · rw [List.getElem?_append_right (by simp; omega), List.getElem?_replicate, if_pos (by simp; omega), List.getD_eq_default _ _ (by omega)]

theorem reading_le_quad (s : State) (o : TempObs) {k : Nat} (h : k < 32) : o.stack.getD k 0 ≤ (quadTemps s o (k / 8)).2.1 := by
  refine le_maxList (List.mem_of_getElem? (i := k % 8) ?_)
  unfold slice
  rw [List.getElem?_take_of_lt (Nat.mod_lt _ (by decide)), List.getElem?_drop, Nat.div_add_mod]
  exact padTo_getD 0 32 o.stack h

theorem zip_range_padTo (l : List Nat) : (List.range 32).zip (padTo 0 32 l) = (List.range 32).map fun k => (k, l.getD k 0) := by
  have read : padTo 0 32 l = (List.range 32).map fun k => l.getD k 0 := List.ext_getElem? fun k => by
    by_cases h : k < 32
    · rw [padTo_getD 0 32 l h, List.getElem?_map, List.getElem?_range h]
      rfl
    · rw [List.getElem?_eq_none (by simp [padTo]; omega), List.getElem?_eq_none (by simpa using h)]
  rw [read]
  simpa using List.zip_map' (f := id) (g := fun k => l.getD k 0) (l := List.range 32)

theorem foldl_partTemp_temps (part : Nat → BitVec 16) (reading : Nat → Byte) (l : List Nat) (s : State) :
    (l.foldl (fun s p => partTemp s (part p) (reading p)) s).hbm.temps = s.hbm.temps :=
  temps_foldl _ _ _ fun t p => by simp [partTemp]

theorem setReadings_temps (l : List Nat) (s : State) {k : Nat} (h : k < 32) :
    (((List.range 32).zip (padTo 0 32 l)).foldl (fun s x => s.setStack x.1 { s.stack x.1 with temp := BitVec.ofNat 8 (byteOf x.2) }) s).hbm.temps k = BitVec.ofNat 8 (byteOf (l.getD k 0)) := by
  rw [zip_range_padTo, List.foldl_map]
  exact (foldl_range_get (get := fun s k => (s.stack k).temp) (f := fun s k => s.setStack k { s.stack k with temp := BitVec.ofNat 8 (byteOf (l.getD k 0)) })
    (g := fun k _ => BitVec.ofNat 8 (byteOf (l.getD k 0))) (fun s k => by rw [State.setStack_stack]) (fun s k j other => by rw [State.setStack_stack_ne _ _ _ _ other]) s 32 k).trans (if_pos h)

theorem noteTemps_temps (s : State) (o : TempObs) (ts : List (Nat × Nat × Nat × Nat)) {k : Nat} (h : k < 32) :
    (noteTemps s o ts).hbm.temps k = BitVec.ofNat 8 (byteOf (o.stack.getD k 0)) := by
  unfold noteTemps
  dsimp only
  split
  · rw [foldl_partTemp_temps]
    exact setReadings_temps _ _ h
  · exact setReadings_temps _ _ h

theorem tempSample_trips (s : State) (o : TempObs) {k : Nat} (h : k < 32) (hot : 97 ≤ o.stack.getD k 0) : (tempSample s o).pwr.tripped = true := by
  unfold tempSample
  extract_lets u ts v die stack quads w
  have read : ts[k / 8]? = some (quadTemps u o (k / 8)) := by
    simp only [ts]
    rw [List.getElem?_map, List.getElem?_range (by omega)]
    rfl
  have beyond : 97 ≤ (quadTemps u o (k / 8)).2.1 := hot.trans (reading_le_quad u o h)
  have mem : k / 8 ∈ quads := List.mem_filter.2 ⟨List.mem_range.2 (by omega), by
    rw [read]
    simp [beyond]⟩
  rw [if_neg (by simpa using List.ne_nil_of_mem mem)]
  rfl

theorem tempSample_temps (s : State) (o : TempObs) (runs : (tempSample s o).pwr.tripped = false) {k : Nat} (h : k < 32) :
    (tempSample s o).hbm.temps k = BitVec.ofNat 8 (byteOf (o.stack.getD k 0)) := by
  unfold tempSample at runs ⊢
  dsimp only at runs ⊢
  split
  · rw [callLevel_temps]
    exact noteTemps_temps _ _ _ h
  · next hot =>
    rw [if_neg hot] at runs
    exact absurd runs (by simp [thermalTrip])

/-! ### The supply warning, R600 to R602 -/

theorem journal_adds (s : State) (type : Nat) (body : List Byte) :
    ∃ q e, journal s type deviceId body = { s with sng := { s.sng with seq := q, pend := s.sng.pend ++ [e] } } ∧ e.type = BitVec.ofNat 8 type :=
  ⟨s.sng.seq + 1, ⟨s.sng.seq + 1, s.sng.lifeS, s.count, BitVec.ofNat 8 (plbCode s.plb.st), BitVec.ofNat 8 type, deviceId, padTo 0 36 body⟩, by
    unfold journal
    dsimp only
    rw [if_pos (show deviceId = 65535 from rfl)], rfl⟩

theorem abandonUpdate_keeps (s : State) : (abandonUpdate s).sng = s.sng ∧ (abandonUpdate s).pwr = s.pwr := by
  unfold abandonUpdate
  split
  · exact ⟨rfl, rfl⟩
  · next r _ _ =>
    obtain ⟨l, w, o, h, answered⟩ := respond_lathOnly { s with hwk := { s.hwk with updating := none, nor := some none, fwState := 3, err := setErr s.hwk.err 2 }, fresh := s.fresh + 1 } r 0x0070 stRefused
      [BitVec.ofNat 8 (freeNat { s with hwk := { s.hwk with updating := none, nor := some none, fwState := 3, err := setErr s.hwk.err 2 } })]
    unfold refuseFree
    rw [answered]
    exact ⟨rfl, rfl⟩

theorem abandonUpdate_ends {s : State} (busy : s.hwk.updating.isSome = true) : (abandonUpdate s).hwk.updating = none ∧ (abandonUpdate s).hwk.nor = some none := by
  obtain ⟨⟨r, im⟩, writes⟩ := Option.isSome_iff_exists.1 busy
  unfold abandonUpdate
  rw [writes]
  have kept := (respond_near { s with hwk := { s.hwk with updating := none, nor := some none, fwState := 3, err := setErr s.hwk.err 2 }, fresh := s.fresh + 1 } r 0x0070 stRefused
    [BitVec.ofNat 8 (freeNat { s with hwk := { s.hwk with updating := none, nor := some none, fwState := 3, err := setErr s.hwk.err 2 } })]).beside
  exact ⟨(congrArg (fun u => u.hwk.updating) kept :), (congrArg (fun u => u.hwk.nor) kept :)⟩

section
variable {s : State} (runs : s.hwk.running = true) (free : s.sng.flushing = false)
include runs free

theorem warnFlush_inTime : (warnFlush s true).pwr = s.pwr ∧ (warnFlush s true).sng.pend = [] ∧ (warnFlush s true).hwk = (abandonUpdate s).hwk
    ∧ (s.sng.journal.length + s.sng.pend.length < 3674112 → ∃ e, (warnFlush s true).sng.journal = s.sng.journal ++ s.sng.pend ++ [e] ∧ e.type = 0x10) := by
  obtain ⟨sng, pwr⟩ := abandonUpdate_keeps s
  obtain ⟨q, e, noted, type⟩ := journal_adds (abandonUpdate s) 0x10 (leBytes 2 (abandonUpdate s).sng.pend.length)
  have flushed : warnFlush s true = flushJournal (journal (abandonUpdate s) 0x10 deviceId (leBytes 2 (abandonUpdate s).sng.pend.length)) true :=
    (if_neg (by simp [runs, free])).trans (if_pos rfl)
  have written : warnFlush s true = { abandonUpdate s with sng := { s.sng with seq := q, journal := trimJournal (s.sng.journal ++ (s.sng.pend ++ [e])), pend := [] } } := by
    rw [flushed, noted, sng]
    exact (if_neg (by simp)).trans (if_pos rfl)
  rw [written]
  refine ⟨pwr, rfl, rfl, fun room => ⟨e, ?_, type⟩⟩
  rw [List.append_assoc]
  exact if_neg (by simp; omega)

theorem warnFlush_late : (warnFlush s false).pwr = s.pwr ∧ (warnFlush s false).sng.journal = s.sng.journal ∧ (warnFlush s false).sng.flushing = true ∧ (warnFlush s false).sng.flushLate = true
    ∧ (warnFlush s false).hwk = (abandonUpdate s).hwk := by
  obtain ⟨sng, pwr⟩ := abandonUpdate_keeps s
  obtain ⟨q, e, noted, -⟩ := journal_adds (abandonUpdate s) 0x10 (leBytes 2 (abandonUpdate s).sng.pend.length)
  have waits : warnFlush s false = { abandonUpdate s with sng := { s.sng with seq := q, pend := s.sng.pend ++ [e], flushing := true, flushLate := true } } := by
    refine (if_neg (by simp [runs, free])).trans ?_
    dsimp only
    rw [noted, sng, if_neg Bool.false_ne_true]
  rw [waits]
  exact ⟨pwr, rfl, rfl, rfl, rfl⟩

end

theorem warnFlush_pwr (s : State) (inTime : Bool) : (warnFlush s inTime).pwr = s.pwr := by
  by_cases quiet : (!s.hwk.running || s.sng.flushing) = true
  · rw [show warnFlush s inTime = s from if_pos quiet]
  · obtain ⟨runs, free⟩ : s.hwk.running = true ∧ s.sng.flushing = false := by simpa using quiet
    cases inTime with
    | true => exact (warnFlush_inTime runs free).1
    | false => exact (warnFlush_late runs free).1

/-- The state in which a supply warning finds the ledger. -/
def State.warned (s : State) : State := { s with pwr := { s.pwr with supplyWarn := true, err := setErr s.pwr.err 2, supplyWarnCount := bump s.pwr.supplyWarnCount 1 } }

/-! ### The test access port, R626 -/

theorem bypassShift_tdo (t : Tap) (tdi : List Bool) : (bypassShift t tdi).tdo.length = tdi.length ∧ (0 < tdi.length → (bypassShift t tdi).tdo.getD 0 true = false)
    ∧ ∀ k, k + 1 < tdi.length → (bypassShift t tdi).tdo.getD (k + 1) true = tdi.getD k true := by
  unfold bypassShift
  refine ⟨by simp, fun some_ => ?_, fun k h => ?_⟩
  · rw [List.getD_eq_getElem?_getD, List.getElem?_take_of_lt some_]
    rfl
  · rw [List.getD_eq_getElem?_getD, List.getElem?_take_of_lt h, List.getElem?_cons_succ, ← List.getD_eq_getElem?_getD]

theorem idcode_tdo (s : State) : (idcode s).tap.tdo.length = 32 ∧ ∀ k, k < 32 → (idcode s).tap.tdo.getD k false = (0x196404B7#32).getLsbD k := by
  unfold idcode
  refine ⟨by simp, fun k h => ?_⟩
  rw [List.getD_eq_getElem?_getD, List.getElem?_map, List.getElem?_range h]
  rfl

/-- Settles O55: the cold device by unfolding, the supply warning by the journal that it flushes, the levels by what a level settles to, the trip by the hottest stack. -/
theorem powerAndTestPort : Obligations.PowerAndTestPort := by
  unfold Obligations.PowerAndTestPort
  refine ⟨fun s live => ?power, fun s => ⟨?idcode, fun tdi => ?bypass, fun cells drive => rfl, fun tdi sealed_ => congrArg Host.Outcome.next (if_neg sealed_), fun tdi stripped => ?priv⟩⟩
  case power =>
    have answers {c : Instr} {t u : State} (run : exec c s = act s t) (h : t = u) : exec c s = .next u := run.trans (act_eq_next live h)
    refine ⟨answers rfl rfl, answers rfl rfl, fun held => answers rfl (if_neg (ne_true_of_eq_false held)), fun up => answers rfl (if_pos up), fun off => answers rfl (if_neg (ne_true_of_eq_false off)),
      fun held => .of_act live rfl ?brownEnd, fun stays => answers rfl (if_pos ?stays), fun low rails => .of_act live rfl ?rise, rfl, fun inTime warned => answers rfl (if_pos warned), fun inTime calm => .of_act live rfl ?warn,
      answers rfl rfl, fun o => ?trips, fun o => .of_act live rfl fun runs k h => ⟨tempSample_temps s o runs h, ?below⟩, fun die stack => ?called, fun l h idle => callLevel_idle idle h,
      fun kept => answers rfl (if_pos ?kept), fun cool runs below => answers rfl ?held, fun cool idle => .of_act live rfl ?expires, fun v runs => answers rfl (if_pos (by simpa [planRunning] using runs)),
      fun v idle => .of_act live rfl ?written⟩
    case brownEnd =>
      rw [show brownOutEnd s = _ from if_pos held]
      dsimp only
      split
      · exact ⟨rfl, fun _ => ⟨rfl, rfl⟩⟩
      · next off => exact ⟨rfl, fun up => absurd up off⟩
    case stays => rcases stays with up | ⟨rails, hold⟩ <;> simp [*]
    case rise =>
      rw [show resetNRise s = _ from if_neg (by rcases rails with good | hold <;> simp [*])]
      dsimp only
      split
      · next hold => exact ⟨rfl, fun off => absurd hold (ne_true_of_eq_false off)⟩
      · exact ⟨rfl, fun _ => ⟨rfl, rfl⟩⟩
    case warn =>
      rw [show supplyWarnAssert s inTime = warnFlush s.warned inTime from if_neg (ne_true_of_eq_false calm), warnFlush_pwr]
      refine ⟨rfl, rfl, rfl, fun halted => ?_, fun runs free now => ?_, fun runs free late => ?_, fun runs free busy => ?_⟩
      · exact (congrArg State.sng (show warnFlush s.warned inTime = s.warned from if_pos (by simp [State.warned, halted])) :)
      · obtain ⟨-, pend, -, written⟩ := warnFlush_inTime (s := s.warned) runs free
        rw [now]
        exact ⟨pend, written⟩
      · obtain ⟨-, journal, flushing, late_, -⟩ := warnFlush_late (s := s.warned) runs free
        rw [late]
        exact ⟨journal, flushing, late_⟩
      · have ends := abandonUpdate_ends (s := s.warned) busy
        cases inTime with
        | true => rwa [(warnFlush_inTime (s := s.warned) runs free).2.2.1]
        | false => rwa [(warnFlush_late (s := s.warned) runs free).2.2.2.2]
    case trips =>
      rintro ⟨k, h, hot⟩
      exact .of_act live rfl (tempSample_trips s o h hot)
    case below => exact Nat.lt_of_not_le fun hot => absurd ((tempSample_trips s o h hot).symm.trans runs) (by decide)
    case called =>
      unfold calledLevel
      refine ⟨?_, ?_, ?_⟩
      all_goals split_ifs <;> simp <;> omega
    case kept => rcases kept with warm | ⟨runs, third⟩ <;> simp [planRunning, *]
    case held =>
      rw [show holdExpire s = _ from if_neg (by simpa [cool] using fun _ => below)]
      exact if_pos (by simpa [planRunning] using runs)
    case expires =>
      have settled : holdExpire s = settleLevel { s with pwr := { s.pwr with applied := s.pwr.asked } } :=
        (if_neg (by simp [cool, planRunning, idle])).trans (if_neg (by simpa [planRunning] using idle))
      rw [settled, settleLevel_applied, settleLevel_level]
      exact ⟨rfl, rfl⟩
    case written =>
      have settled : minLevelWrite s v = settleLevel { s with pwr := { s.pwr with minLevel := BitVec.ofNat 2 (v.toNat / 4) } } := if_neg (by simpa [planRunning] using idle)
      rw [settled, settleLevel_level]
      rfl
  case idcode =>
    obtain ⟨length, bits⟩ := idcode_tdo s
    exact ⟨_, rfl, length, bits, rfl, rfl⟩
  case bypass =>
    obtain ⟨length, first, later⟩ := bypassShift_tdo s.tap tdi
    exact ⟨_, rfl, length, first, later, rfl, rfl⟩
  case priv => exact ⟨_, congrArg Host.Outcome.next (if_pos stripped), rfl, by simp, rfl⟩

end Sys2Proof.Machine

/-! ## The ledger and the fault manager's commands, R563 to R582 -/

namespace Sys2Proof.Machine

/-! ### Commands that an engine's change may answer -/

/-- A mailbox runs the command that it ran, or none. -/
structure RunsEnd (s t : State) : Prop where
  ends : ∀ k, (t.mbox k).running = (s.mbox k).running ∨ (t.mbox k).running = none

namespace RunsEnd

variable {s t u : State}

theorem refl (s : State) : RunsEnd s s := ⟨fun _ => .inl rfl⟩

theorem trans (h : RunsEnd s t) (h' : RunsEnd t u) : RunsEnd s u := ⟨fun k => by
  rcases h'.ends k with same | done
  · rw [same]
    exact h.ends k
  · exact .inr done⟩

theorem of_mboxes (same : t.hwk.mboxes = s.hwk.mboxes) : RunsEnd s t := ⟨fun k => .inl (by unfold State.mbox; rw [same])⟩

theorem of_ledger (h : LedgerOnly s t) : RunsEnd s t := by
  obtain ⟨g, rfl⟩ := h
  exact .of_mboxes rfl

end RunsEnd

theorem LedgerOnly.mbox {s t : State} (h : LedgerOnly s t) (k : Nat) : t.mbox k = s.mbox k := by
  obtain ⟨g, rfl⟩ := h
  rfl

theorem sendRecord_runsEnd (s : State) (num : BitVec 16) (rec_ : List Byte) : RunsEnd s (sendRecord s num rec_) := by
  unfold sendRecord
  split
  · exact .refl s
  · split
    · exact .refl s
    · split
      · exact .of_mboxes rfl
      · exact .refl s

theorem respond_runsEnd (s : State) (r : MboxRec) (op : BitVec 16) (status : Byte) (result : List Byte) : RunsEnd s (respond s r op status result) := by
  by_cases runs : (s.mbox r.mbox.val).running = some (r.cmdId, r.session, op)
  · rw [respond_running runs, countRefusal_eq]
    refine .trans ⟨fun k => ?_⟩ (sendRecord_runsEnd ..)
    by_cases here : k = r.mbox.val
    · rw [here, State.setMbox_mbox]
      exact .inr rfl
    · rw [State.setMbox_mbox_ne _ _ _ _ here]
      exact .inl rfl
  · have stays : respond s r op status result = countRefusal s status := if_neg runs
    rw [stays, countRefusal_eq]
    exact .of_mboxes rfl

/-- After an answer the mailbox runs no command, where it ran the answered one or none. -/
theorem respond_ends {s : State} {r : MboxRec} {op : BitVec 16} (runs : (s.mbox r.mbox.val).running = some (r.cmdId, r.session, op) ∨ (s.mbox r.mbox.val).running = none)
    (status : Byte) (result : List Byte) : ((respond s r op status result).mbox r.mbox.val).running = none := by
  rcases runs with runs | done
  · rw [respond_running runs]
    rcases (sendRecord_runsEnd ((countRefusal s status).setMbox r.mbox.val ((s.mbox r.mbox.val).answered r (mboxRecord 0x11 r op status result))) r.session _).ends r.mbox.val with same | none
    · rw [same, State.setMbox_mbox]
      rfl
    · exact none
  · rcases (respond_runsEnd s r op status result).ends r.mbox.val with same | none
    · rw [same, done]
    · exact none

theorem lathAnswer_runsEnd (s : State) (c : LathCmd) (code : Byte) (handle : BitVec 32) : RunsEnd s (lathAnswer s c code handle) := by
  unfold lathAnswer
  dsimp only
  split
  · exact .refl s
  · split
    · exact .of_mboxes rfl
    · refine .trans ?_ (respond_runsEnd ..)
      exact .of_mboxes rfl

theorem lathDo_runsEnd (s : State) (c : LathCmd) : RunsEnd s (lathDo s c) := by
  obtain ⟨t, code, handle, is, same⟩ := lathDo_answers s c
  rw [is]
  exact .trans (.of_mboxes (congrArg Hwk.mboxes same)) (lathAnswer_runsEnd ..)

theorem closeFence_runsEnd (s : State) (f : Fence) : RunsEnd s (closeFence s f) := .of_mboxes (congrArg Hwk.mboxes (dropHeld_hwk ..))

theorem lathRun_runsEnd (n : Nat) (s : State) : RunsEnd s (lathRun n s) := by
  induction n generalizing s with
  | zero => exact .refl s
  | succ n ih =>
    unfold lathRun
    split
    · exact .refl s
    · next c rest _ =>
      split
      · exact .refl s
      · have done : RunsEnd s (lathDo { s with lth := { s.lth with queue := rest } } c) := by
          refine .trans ?_ (lathDo_runsEnd ..)
          exact .of_mboxes rfl
        dsimp only
        split
        · split
          · exact (done.trans (closeFence_runsEnd ..)).trans (ih _)
          · exact done.trans (ih _)
        · exact done.trans (ih _)

theorem engConfirm_runsEnd (s : State) (e : Nat) : RunsEnd s (engConfirm s e) := by
  unfold engConfirm fenceMoves
  split
  · exact .refl s
  · split
    · dsimp only
      split
      · refine .trans ?_ (lathRun_runsEnd ..)
        refine .trans ?_ (closeFence_runsEnd ..)
        exact .of_mboxes rfl
      · exact .of_mboxes rfl
    · exact .refl s

theorem engConfirm_lathOnly (s : State) (e : Nat) : LathOnly s (engConfirm s e) := by
  unfold engConfirm fenceMoves
  split
  · exact .refl s
  · split
    · dsimp only
      split
      · exact (((LathOnly.refl s).lth _).trans (closeFence_lathOnly ..)).trans (lathRun_lathOnly ..)
      · exact (LathOnly.refl s).lth _
    · exact .refl s

/-! ### Time and flash, R563 and R568 -/

theorem newHour_keeps (s : State) : (newHour s).sng.lifeS = s.sng.lifeS ∧ (newHour s).slr = s.slr :=
  ⟨foldl_keeps (fun s => s.sng.lifeS) (step := fun s (p : Nat × Summary) => s.setPart p.1 (s.part p.1).newHour) (fun _ _ => rfl) s.sng.parts s,
    foldl_keeps State.slr (step := fun s (p : Nat × Summary) => s.setPart p.1 (s.part p.1).newHour) (fun _ _ => rfl) s.sng.parts s⟩

theorem lifeTick_running {s : State} (runs : s.hwk.running = true) :
    (lifeTick s).sng.lifeS = s.sng.lifeS + 1 ∧ (lifeTick s).slr.lockout = (if s.slr.lockout = 0 then 0 else s.slr.lockout - 1)
      ∧ ((s.sng.lifeS + 1).toNat % 3600 ≠ 0 → (lifeTick s).sng.parts = s.sng.parts) := by
  unfold lifeTick
  rw [if_neg (by simp [runs])]
  dsimp only
  split
  · next hour =>
    have kept := newHour_keeps { s with sng := { s.sng with lifeS := s.sng.lifeS + 1 }, slr := { s.slr with lockout := if s.slr.lockout = 0 then 0 else s.slr.lockout - 1 } }
    exact ⟨kept.1, congrArg Slr.lockout kept.2, fun between => absurd hour between⟩
  · exact ⟨rfl, rfl, fun _ => rfl⟩

section
variable {s : State} (runs : s.hwk.running = true)
include runs

theorem writeJournal_runs (calm : s.pwr.supplyWarn = false) (ok : Bool) : writeJournal s ok = { flushJournal s ok with sng := { (flushJournal s ok).sng with flushing := false } } :=
  if_pos (by simp [mayFlush, runs, calm])

theorem writeJournal_good (calm : s.pwr.supplyWarn = false) (some_ : s.sng.pend ≠ []) :
    writeJournal s true = { s with sng := { s.sng with journal := trimJournal (s.sng.journal ++ s.sng.pend), pend := [], flushing := false } } := by
  have flushed : flushJournal s true = { s with sng := { s.sng with journal := trimJournal (s.sng.journal ++ s.sng.pend), pend := [] } } := (if_neg (by simpa using some_)).trans (if_pos rfl)
  rw [writeJournal_runs runs calm, flushed]

theorem writeJournal_bad (calm : s.pwr.supplyWarn = false) (some_ : s.sng.pend ≠ []) :
    writeJournal s false = { s with sng := { s.sng with err := setErr s.sng.err 6, flushing := false } } := by
  have kept : flushJournal s false = sngErr s 6 := (if_neg (by simpa using some_)).trans (if_neg Bool.false_ne_true)
  rw [writeJournal_runs runs calm, kept]
  rfl

end

/-! ### Counters and scores, R565, R570 and R571 -/

theorem readCounter_saturates (s : State) (part : BitVec 16) {key v : Nat} (full : v = 0xFFFFFFFF) (more : 0 < (readCounter s part key v).1) :
    ((readCounter s part key v).2.part part.toNat).saturated = true ∧ (readCounter s part key v).2.sng.err.getLsbD 4 = true := by
  have marked : (readCounter s part key v).2 = sngErr (State.setPart { s with sng := { s.sng with lastRead := Tab.put 0 s.sng.lastRead key v } } part.toNat { s.part part.toNat with saturated := true }) 4 :=
    if_pos ⟨full, more⟩
  rw [marked]
  constructor
  · have part_ (u : State) : (sngErr u 4).part part.toNat = u.part part.toNat := rfl
    rw [part_, State.setPart_part]
  · exact (setErr_getLsbD _ 4 4 (by decide)).trans (by simp)

/-- A journal entry reaches the pending buffer and the records of parts. -/
theorem journal_sng (s : State) (type : Nat) (part : BitVec 16) (body : List Byte) : ∃ q l p, (journal s type part body).sng = { s.sng with seq := q, pend := l, parts := p } := by
  unfold journal
  dsimp only
  split
  · exact ⟨_, _, _, rfl⟩
  · exact ⟨_, _, _, rfl⟩

theorem sngErr_part (s : State) (i p : Nat) : (sngErr s i).part p = s.part p := rfl

/-- The part and the count that a recommendation leaves. -/
theorem recommend_leaves (s : State) {p : Nat} (small : p < 0x8000) (score : Nat) :
    ((recommend s p score).part p).recommended = true ∧ ((recommend s p score).part p).score = (s.part p).score ∧ (recommend s p score).sng.recoCount = bump s.sng.recoCount 1 := by
  unfold recommend
  extract_lets reason u x v
  have number : (BitVec.ofNat 16 p).toNat = p := Nat.mod_eq_of_lt (by omega)
  obtain ⟨n, noted⟩ := journal_part s 0x07 (BitVec.ofNat 16 p) ([BitVec.ofNat 8 score, reason, 0, 0] ++ pressureRecord s false)
  obtain ⟨q, l, t, sng⟩ := journal_sng s 0x07 (BitVec.ofNat 16 p) ([BitVec.ofNat 8 score, reason, 0, 0] ++ pressureRecord s false)
  rw [number] at noted
  have kept : (v.part p).recommended = true ∧ (v.part p).score = x.score := by
    simp only [v, State.setPart_part, and_self]
  have score : x.score = (s.part p).score := (congrArg Summary.score noted :)
  have count : u.sng.recoCount = s.sng.recoCount := (congrArg Sng.recoCount sng :)
  exact ⟨kept.1, kept.2.trans score, congrArg (bump · 1) count⟩

theorem evalPart_leaves (s : State) {p : Nat} (small : p < 0x8000) : ((evalPart s p).part p).score = BitVec.ofNat 8 (partScore s p)
    ∧ (recommends (s.setPart p { s.part p with score := BitVec.ofNat 8 (partScore s p), recommended := (s.part p).recommended && decide (partScore s p < s.sng.softT.toNat) }) p (partScore s p) = true →
      ((evalPart s p).part p).recommended = true ∧ (evalPart s p).sng.recoCount = bump s.sng.recoCount 1) := by
  unfold evalPart
  dsimp only
  split
  · next due =>
    obtain ⟨marked, score, count⟩ := recommend_leaves (s.setPart p { s.part p with score := BitVec.ofNat 8 (partScore s p), recommended := (s.part p).recommended && decide (partScore s p < s.sng.softT.toNat) }) small (partScore s p)
    exact ⟨score.trans (by rw [State.setPart_part]), fun _ => ⟨marked, count⟩⟩
  · next idle => exact ⟨by rw [State.setPart_part], fun due => absurd due idle⟩

/-! ### FM_ACTION, R573 to R582 -/

section
variable (s : State) (part : BitVec 16)

theorem tolerate_leaves (code : Byte) : ((tolerate s part code).part part.toNat).st = 1 ∧ ((tolerate s part code).part part.toNat).tolCode = code
    ∧ (tolerate s part code).sng.err.getLsbD 2 = true ∧ (tolerate s part code).sng.refusedCount = s.sng.refusedCount := by
  unfold tolerate
  extract_lets x was u y v
  obtain ⟨n, noted⟩ := journal_part v 0x0A part [code]
  obtain ⟨q, l, t, sng⟩ := journal_sng v 0x0A part [code]
  obtain ⟨st, -⟩ := setPartSt_part s part 1
  have count : v.sng.refusedCount = s.sng.refusedCount := by
    simp only [v, u, setPartSt]
    split <;> rfl
  rw [sngErr_part, noted]
  refine ⟨?_, ?_, (setErr_getLsbD _ 2 2 (by decide)).trans (by simp), (congrArg Sng.refusedCount sng).trans count⟩
  · simp only [v, State.setPart_part]
    exact st
  · simp only [v, State.setPart_part]

theorem tolerate_ledgerOnly (code : Byte) : LedgerOnly s (tolerate s part code) := by
  unfold tolerate
  extract_lets x was u y v
  have placed : LedgerOnly s v := (setPartSt_ledgerOnly s part 1).trans (setPart_ledgerOnly u part.toNat { y with tolCode := code, tolScore := if was then x.tolScore else x.score })
  exact (placed.trans (journal_ledgerOnly v 0x0A part [code])).trans ⟨_, rfl⟩

theorem softRetired_leaves (seq : BitVec 64) (actor : Nat) : ((softRetired s part seq actor).part part.toNat).st = 2 ∧ (softRetired s part seq actor).sng.softCount = bump s.sng.softCount 1 := by
  unfold softRetired
  extract_lets u g v
  obtain ⟨n, noted⟩ := journal_part v 0x08 part (leBytes 8 seq.toNat ++ [BitVec.ofNat 8 actor])
  obtain ⟨q, l, t, sng⟩ := journal_sng v 0x08 part (leBytes 8 seq.toNat ++ [BitVec.ofNat 8 actor])
  have count : u.sng.softCount = s.sng.softCount := by
    simp only [u, setPartSt]
    split <;> rfl
  rw [noted, sng]
  exact ⟨(setPartSt_part s part 2).1, congrArg (fun c => bump c 1) count⟩

end

/-- The answer to an FM_ACTION leaves the ledger and the engines. -/
theorem fmOk_keeps (s : State) (r : MboxRec) (part : BitVec 16) : (fmOk s r part).sng = s.sng ∧ (fmOk s r part).engines = s.engines := by
  obtain ⟨l, w, o, h, answered⟩ := respond_lathOnly s r opFmAction stOk ([0, (s.part part.toNat).st] ++ List.replicate 14 0 ++ pressureRecord s true)
  rw [fmOk, answered]
  exact ⟨rfl, rfl⟩

theorem fmRefuse_sng (s : State) (r : MboxRec) (code : Nat) : (fmRefuse s r code).sng = { s.sng with refusedCount := bump s.sng.refusedCount 1 } := by
  unfold fmRefuse
  dsimp only
  obtain ⟨l, w, o, h, answered⟩ := respond_lathOnly { s with sng := { s.sng with refusedCount := bump s.sng.refusedCount 1 } } r opFmAction stRefused [BitVec.ofNat 8 code]
  rw [answered]

theorem part_of_sng {s t : State} (same : t.sng.parts = s.sng.parts) (p : Nat) : t.part p = s.part p := by
  unfold State.part
  rw [same]

theorem refuseRetire_leaves (s : State) (r : MboxRec) (part : BitVec 16) (code : Byte) :
    ((refuseRetire s r part code).part part.toNat).st = 1 ∧ ((refuseRetire s r part code).part part.toNat).tolCode = code ∧ (refuseRetire s r part code).sng.refusedCount = bump s.sng.refusedCount 1 := by
  obtain ⟨st, tolCode, -, count⟩ := tolerate_leaves s part code
  have sng := fmRefuse_sng (tolerate s part code) r code.toNat
  have same : (refuseRetire s r part code).part part.toNat = (tolerate s part code).part part.toNat := part_of_sng (congrArg Sng.parts sng :) _
  rw [same]
  exact ⟨st, tolCode, (congrArg Sng.refusedCount sng).trans (congrArg (bump · 1) count)⟩

section
variable {s : State} {e : Nat} (rests : (s.eng e).st = .idle ∨ (s.eng e).st = .fault)
include rests

theorem engOffline_leaves : ((engOffline s e).eng e).st = .offline ∧ (engOffline s e).sng = s.sng ∧ RunsEnd s (engOffline s e) := by
  have confirmed : engOffline s e = engConfirm (setEngSt s e .offline) e := if_pos rests
  have work := engConfirm_lathOnly (setEngSt s e .offline) e
  rw [confirmed]
  refine ⟨?_, ?_, .trans ?_ (engConfirm_runsEnd ..)⟩
  · rw [work.eng]
    exact congrArg Engine.st (State.setEng_eng ..)
  · obtain ⟨l, w, o, h, is⟩ := work
    rw [is]
    rfl
  · exact .of_mboxes rfl

end

/-! ### LEDGER_READ and FM_ACTION in a session -/

section
variable {s : State} {r : MboxRec} {i : Nat} {x : Session}

theorem begun_entriesHeld (op : BitVec 16) (args : List Byte) : entriesHeld (begun s r op args i x) = entriesHeld s := by
  obtain ⟨l, m, is⟩ := begun_eq s r op args i x
  rw [is]
  rfl

theorem begun_pressureRecord (op : BitVec 16) (args : List Byte) (inResult : Bool) : pressureRecord (begun s r op args i x) inResult = pressureRecord s inResult := by
  obtain ⟨l, m, is⟩ := begun_eq s r op args i x
  rw [is]
  rfl

theorem begun_part (op : BitVec 16) (args : List Byte) (p : Nat) : (begun s r op args i x).part p = s.part p := by
  obtain ⟨l, m, is⟩ := begun_eq s r op args i x
  rw [is]
  rfl

theorem begun_eng (op : BitVec 16) (args : List Byte) (e : Nat) : (begun s r op args i x).eng e = s.eng e := by
  obtain ⟨l, m, is⟩ := begun_eq s r op args i x
  rw [is]
  rfl

theorem begun_sng (op : BitVec 16) (args : List Byte) : (begun s r op args i x).sng = s.sng := by
  obtain ⟨l, m, is⟩ := begun_eq s r op args i x
  rw [is]

theorem begun_lanes (op : BitVec 16) (args : List Byte) (p : Nat) : laneBond (begun s r op args i x) p = laneBond s p ∧ (begun s r op args i x).mnd = s.mnd
    ∧ floorHolds (begun s r op args i x) p = floorHolds s p ∧ capHolds (begun s r op args i x) p = capHolds s p := by
  obtain ⟨l, m, is⟩ := begun_eq s r op args i x
  rw [is]
  exact ⟨rfl, rfl, rfl, rfl⟩

theorem respond_fresh (s : State) (r : MboxRec) (op : BitVec 16) (status : Byte) (result : List Byte) : (respond s r op status result).fresh = s.fresh := by
  obtain ⟨l, w, o, k, answered⟩ := respond_lathOnly s r op status result
  rw [answered]

/-- What LEDGER_READ does once its arguments pass. -/
def ledgerAnswered (u : State) (r : MboxRec) (sel : BitVec 8) (part count : BitVec 16) (q : BitVec 64) : State :=
  let d := ledgerData u sel part count q
  let v := if sel = 1 ∧ (entriesHeld u).isEmpty then { u with fresh := u.fresh + 1 } else u
  respond (putArea3 v r d.1) r 0x0060 stOk (beBytes 4 d.1.length ++ beBytes 4 (crc32c d.1).toNat ++ beBytes 8 d.2.toNat ++ pressureRecord v true)

section
variable {sel : BitVec 8} {part count : BitVec 16} {q : BitVec 64} {args : List Byte} (h : Accepted s r (needs 0x0060 false true [rdySng]) args i x)
  (is : args = [sel, 0] ++ beBytes 2 part.toNat ++ beBytes 2 count.toNat ++ [0, 0] ++ beBytes 8 q.toNat)
include h

include is in
theorem exec_ledgerRead_good (good : sel.toNat ≤ 2) (some_ : count ≠ 0) (few : count.toNat ≤ 128) :
    exec (.ledgerRead r sel part count q) s = .next (ledgerAnswered (begun s r 0x0060 args i x) r sel part count q) := by
  subst is
  exact exec_begun h rfl ((if_neg (by omega)).trans (if_neg (not_or.2 ⟨some_, by omega⟩)))

theorem ledgerAnswered_held (held : sel ≠ 1 ∨ entriesHeld s ≠ []) :
    let d := ledgerData (begun s r 0x0060 args i x) sel part count q
    ledgerAnswered (begun s r 0x0060 args i x) r sel part count q = respond ((begun s r 0x0060 args i x).setSession i (some { x with lastSeq := some r.seq, area3 := Mem.write x.area3 0 d.1 })) r 0x0060 stOk
      (beBytes 4 d.1.length ++ beBytes 4 (crc32c d.1).toNat ++ beBytes 8 d.2.toNat ++ pressureRecord s true) := by
  have entries : ¬(sel = 1 ∧ (entriesHeld (begun s r 0x0060 args i x)).isEmpty = true) := by
    rw [begun_entriesHeld]
    rintro ⟨one, empty⟩
    rcases held with other | some_
    · exact other one
    · exact some_ (List.isEmpty_iff.1 empty)
  have session : recSession (begun s r 0x0060 args i x) r = some (i, { x with lastSeq := some r.seq }) := h.begun_recSession
  unfold ledgerAnswered putArea3
  dsimp only
  rw [if_neg entries, session, begun_pressureRecord]

theorem ledgerAnswered_empty (first : sel = 1) (empty : entriesHeld s = []) :
    (ledgerAnswered (begun s r 0x0060 args i x) r sel part count q).fresh = s.fresh + 1 ∧ ((ledgerAnswered (begun s r 0x0060 args i x) r sel part count q).mbox r.mbox.val).running = none := by
  have entries : sel = 1 ∧ (entriesHeld (begun s r 0x0060 args i x)).isEmpty = true := ⟨first, by rw [begun_entriesHeld, empty]; rfl⟩
  have placed := h.putArea3_drawn ((begun s r 0x0060 args i x).fresh + 1)
  have running := begun_running s r 0x0060 args i x
  have fresh : (begun s r 0x0060 args i x).fresh = s.fresh := rfl
  have begins : begun s r (needs 0x0060 false true [rdySng]).op args i x = begun s r 0x0060 args i x := rfl
  rw [begins] at placed
  generalize begun s r 0x0060 args i x = u at *
  unfold ledgerAnswered
  dsimp only
  rw [if_pos entries, placed]
  constructor
  · rw [respond_fresh]
    exact congrArg (· + 1) fresh
  · refine respond_ends (.inl ?_) ..
    rw [State.setSession_mbox]
    exact running

end

section
variable {part : BitVec 16} {q : BitVec 64}

theorem exec_fmRetire_able (h : Accepted s r fmNeeds (fmArgs 1 part q) i x) (able : retirable part.toNat = true) (low : (s.part part.toNat).st.toNat < 2) :
    exec (.fmRetire r part q) s = .next (retirePart (begun s r 0x0061 (fmArgs 1 part q) i x) r part (answeredReco (begun s r 0x0061 (fmArgs 1 part q) i x) part q)) := by
  refine exec_begun h rfl ((if_neg (by simp [able])).trans (if_neg ?_))
  rw [begun_part]
  omega

theorem exec_fmTolerate_able (h : Accepted s r fmNeeds (fmArgs 2 part q) i x) (exists_ : partExists part.toNat = true) (healthy : (s.part part.toNat).st = 0) :
    exec (.fmTolerate r part q) s = .next (fmOk (tolerate (begun s r 0x0061 (fmArgs 2 part q) i x) part 0) r part) := by
  refine exec_begun h rfl ((if_neg (by simp [exists_])).trans (if_neg ?_))
  rw [begun_part]
  exact not_not.2 healthy

theorem exec_fmRestore_refused (h : Accepted s r fmNeeds (fmArgs 3 part q) i x) (exists_ : partExists part.toNat = true) :
    exec (.fmRestore r part q) s = .next (
      if (s.part part.toNat).st = 3 ∨ (s.part part.toNat).st = 4 ∨ ((s.part part.toNat).st = 2 ∧ (dfbOf part.toNat).isSome) then fmRefuse (begun s r 0x0061 (fmArgs 3 part q) i x) r 5
      else if (s.part part.toNat).st ≠ 2 then fmRefuse (begun s r 0x0061 (fmArgs 3 part q) i x) r 8
      else if part.toNat / 4096 = 3 ∧ s.mnd.move.isSome then fmRefuse (begun s r 0x0061 (fmArgs 3 part q) i x) r 7
      else fmOk (restorePart (begun s r 0x0061 (fmArgs 3 part q) i x) part) r part) := by
  obtain ⟨-, mnd, -, -⟩ := begun_lanes (s := s) (r := r) (i := i) (x := x) 0x0061 (fmArgs 3 part q) 0
  refine exec_begun h rfl ((if_neg (by simp [exists_])).trans ?_)
  rw [begun_part, show (begun s r fmNeeds.op (fmArgs 3 part q) i x).mnd = s.mnd from mnd]
  rfl

theorem retirePart_lane {u : State} {r : MboxRec} {part : BitVec 16} {b pos : Nat} (lane : part.toNat / 4096 = 3) (bond : laneBond u (part.toNat % 4096) = some (b, pos)) (q : BitVec 64) :
    (u.mnd.move.isSome = true → retirePart u r part q = fmRefuse u r 7)
      ∧ (u.mnd.move = none → floorHolds u part.toNat = true → retirePart u r part q = refuseRetire u r part 1)
      ∧ (u.mnd.move = none → floorHolds u part.toNat = false → capHolds u part.toNat = true → retirePart u r part q = refuseRetire u r part 2) := by
  unfold retirePart
  dsimp only
  rw [if_neg (by omega), if_pos lane, bond]
  dsimp only
  refine ⟨fun moving => if_pos moving, fun free floor => ?_, fun free above cap => ?_⟩
  · rw [free, if_neg (by simp), show retireRefusal u part.toNat = some 1 from if_pos floor]
  · rw [free, if_neg (by simp), show retireRefusal u part.toNat = some 2 from (if_neg (by simp [above])).trans (if_pos cap)]

theorem restorePart_engine (u : State) {part : BitVec 16} (engine : part.toNat / 4096 = 1) : restorePart u part = engOnline (journal (setPartSt u part 0) 0x0B part [2]) (part.toNat % 4096) :=
  if_pos engine

/-- An engine at rest is taken OFFLINE, and the retirement is answered. -/
theorem fmRetire_engine (h : Accepted s r fmNeeds (fmArgs 1 part q) i x) (able : retirable part.toNat = true) (low : (s.part part.toNat).st.toNat < 2) (engine : part.toNat / 4096 = 1)
    (rests : (s.eng (part.toNat % 4096)).st = .idle ∨ (s.eng (part.toNat % 4096)).st = .fault) : Answers (.fmRetire r part q) s fun t =>
      (t.part part.toNat).st = 2 ∧ (t.eng (part.toNat % 4096)).st = .offline ∧ t.sng.softCount = bump s.sng.softCount 1 ∧ (t.mbox r.mbox.val).running = none := by
  have still : ((begun s r 0x0061 (fmArgs 1 part q) i x).eng (part.toNat % 4096)).st = .idle ∨ ((begun s r 0x0061 (fmArgs 1 part q) i x).eng (part.toNat % 4096)).st = .fault := by
    rw [begun_eng]
    exact rests
  obtain ⟨offline, sng, ends⟩ := engOffline_leaves still
  have before := begun_sng (s := s) (r := r) (i := i) (x := x) 0x0061 (fmArgs 1 part q)
  have running := begun_running s r 0x0061 (fmArgs 1 part q) i x
  have ran := exec_fmRetire_able h able low
  generalize begun s r 0x0061 (fmArgs 1 part q) i x = u at *
  generalize answeredReco u part q = reco at *
  obtain ⟨st, count⟩ := softRetired_leaves (engOffline u (part.toNat % 4096)) part reco 0
  have ledger : LedgerOnly (engOffline u (part.toNat % 4096)) (softRetired (engOffline u (part.toNat % 4096)) part reco 0) := (softRetired_ledgerWork ..).only
  have answered : retirePart u r part reco = fmOk (softRetired (engOffline u (part.toNat % 4096)) part reco 0) r part := (if_pos engine).trans (if_pos still)
  obtain ⟨kept, engines⟩ := fmOk_keeps (softRetired (engOffline u (part.toNat % 4096)) part reco 0) r part
  rw [answered] at ran
  refine ⟨_, ran, ?_, ?_, ?_, respond_ends ?_ ..⟩
  · rw [part_of_sng (congrArg Sng.parts kept)]
    exact st
  · unfold State.eng
    rw [engines]
    obtain ⟨g, is⟩ := ledger
    rw [is]
    exact offline
  · rw [kept, count, sng, before]
  · rcases (ends.trans (.of_ledger ledger)).ends r.mbox.val with same | none
    · exact .inl (same.trans running)
    · exact .inr none

end

end

/-- Settles O53: the ledger by what its clock, counters, scores and flash leave, the commands by what the accepted record runs. -/
theorem ledgerAndFaults : Obligations.LedgerAndFaults := by
  unfold Obligations.LedgerAndFaults
  intro s live
  have answers {c : Instr} {t u : State} (run : exec c s = act s t) (h : t = u) : exec c s = .next u := run.trans (act_eq_next live h)
  refine ⟨fun halted => ?halted, fun runs => .of_act live rfl (lifeTick_running runs), fun runs => ⟨fun c u => answers rfl (if_pos runs), answers rfl (if_pos runs)⟩,
    fun part key v => ⟨rfl, ?read, fun full more => readCounter_saturates s part full more⟩, fun p small => evalPart_leaves s small, fun runs calm => ⟨fun some_ => ?good, fun some_ => ?bad, fun settled => ?summary⟩,
    fun warned settled ok => ⟨answers rfl (if_neg ?warned), answers rfl (if_neg ?warned), answers rfl (if_pos (by simp [warned]))⟩, fun r i x sel part count q h => ?ledgerRead,
    fun r i x part q kind h => ⟨?retire, ?tolerate, ?restore⟩⟩
  case halted =>
    exact ⟨answers rfl (if_pos (by simp [halted])), fun c u => answers rfl (if_neg (ne_true_of_eq_false halted)), answers rfl (if_neg (ne_true_of_eq_false halted)),
      fun ok => ⟨answers rfl (if_neg (by simp [mayFlush, halted])), answers rfl (if_neg (by simp [mayFlush, halted])), answers rfl (if_pos (by simp [halted]))⟩⟩
  case read =>
    rw [readCounter_lastRead]
    exact Tab.get_put ..
  case good => exact ⟨answers rfl (writeJournal_good runs calm some_), rfl⟩
  case bad => exact ⟨answers rfl (writeJournal_bad runs calm some_), rfl⟩
  case summary =>
    have may : ¬(!s.hwk.running || s.pwr.supplyWarn || s.sng.flushing) = true := by simp [runs, calm, settled]
    exact ⟨answers rfl ((if_neg may).trans (if_pos rfl)), answers rfl ((if_neg may).trans (if_neg Bool.false_ne_true))⟩
  case warned => simp [mayFlush, warned, settled]
  case ledgerRead =>
    refine ⟨fun bad => exec_begun h rfl (if_pos bad), fun good bad => exec_begun h rfl ((if_neg (by omega)).trans (if_pos bad)), fun good some_ few held => ?_, fun first some_ few empty => ?_⟩
    · exact (exec_ledgerRead_good h rfl good some_ few).trans (congrArg _ (ledgerAnswered_held h held))
    · exact ⟨_, exec_ledgerRead_good h rfl (by rw [first]; decide) some_ few, ledgerAnswered_empty h first empty⟩
  case retire =>
    rintro rfl
    obtain ⟨lanes, mnd, -, -⟩ := begun_lanes (s := s) (r := r) (i := i) (x := x) 0x0061 (fmArgs 1 part q) (part.toNat % 4096)
    obtain ⟨-, -, floors, caps⟩ := begun_lanes (s := s) (r := r) (i := i) (x := x) 0x0061 (fmArgs 1 part q) part.toNat
    refine ⟨fun unable => exec_begun h rfl (if_pos (by simp [unable])), fun able done => exec_begun h rfl ((if_neg (by simp [able])).trans (if_pos ?_)), fun able low engine busy faulty => ?_,
      fun able low engine rests => fmRetire_engine h able low engine rests, fun b pos able low lane bond => ⟨fun moving => ?_, fun free floor => ?_, fun free above cap => ?_⟩⟩
    · rw [begun_part]
      exact done
    · rw [exec_fmRetire_able h able low]
      refine congrArg _ ((if_pos engine).trans (if_neg ?_))
      rw [begun_eng]
      rintro (idle | fault)
      · exact busy idle
      · exact faulty fault
    · rw [exec_fmRetire_able h able low, (retirePart_lane lane (lanes.trans bond) _).1 (by rw [mnd]; exact moving)]
    · rw [← floors] at floor
      refine ⟨_, (exec_fmRetire_able h able low).trans (congrArg _ ((retirePart_lane lane (lanes.trans bond) _).2.1 (by rw [mnd]; exact free) floor)), ?_⟩
      rw [← begun_sng 0x0061 (fmArgs 1 part q)]
      exact refuseRetire_leaves ..
    · rw [← floors] at above
      rw [← caps] at cap
      refine ⟨_, (exec_fmRetire_able h able low).trans (congrArg _ ((retirePart_lane lane (lanes.trans bond) _).2.2 (by rw [mnd]; exact free) above cap)), ?_⟩
      rw [← begun_sng 0x0061 (fmArgs 1 part q)]
      exact refuseRetire_leaves ..
  case tolerate =>
    rintro rfl
    refine ⟨fun unknown => exec_begun h rfl (if_pos (by simp [unknown])), fun exists_ ill => exec_begun h rfl ((if_neg (by simp [exists_])).trans (if_pos ?_)), fun exists_ healthy => ?_⟩
    · rw [begun_part]
      exact ill
    · obtain ⟨st, tolCode, err, -⟩ := tolerate_leaves (begun s r 0x0061 (fmArgs 2 part q) i x) part 0
      obtain ⟨kept, -⟩ := fmOk_keeps (tolerate (begun s r 0x0061 (fmArgs 2 part q) i x) part 0) r part
      refine ⟨_, exec_fmTolerate_able h exists_ healthy, ?_, ?_, ?_, respond_ends (.inl ?_) ..⟩
      · rw [part_of_sng (congrArg Sng.parts kept)]
        exact st
      · rw [part_of_sng (congrArg Sng.parts kept)]
        exact tolCode
      · rw [kept]
        exact err
      · rw [(tolerate_ledgerOnly (begun s r 0x0061 (fmArgs 2 part q) i x) part 0).mbox]
        exact begun_running ..
  case restore =>
    rintro rfl
    refine ⟨fun unknown => exec_begun h rfl (if_pos (by simp [unknown])), fun exists_ hard => (exec_fmRestore_refused h exists_).trans (congrArg _ (if_pos hard)), fun exists_ other => (exec_fmRestore_refused h exists_).trans (congrArg _ ?_),
      fun soft engine exists_ => (exec_fmRestore_refused h exists_).trans (congrArg _ ?_), fun soft lane exists_ moving => (exec_fmRestore_refused h exists_).trans (congrArg _ ?_)⟩
    · have dfb : (dfbOf part.toNat).isSome = true → (s.part part.toNat).st ≠ 2 := by rintro - two; rcases other with st | st | st <;> exact absurd (st.symm.trans two) (by decide)
      refine (if_neg ?_).trans (if_pos ?_)
      · rintro (st' | st' | ⟨two, laser⟩)
        · rcases other with st | st | st <;> exact absurd (st.symm.trans st') (by decide)
        · rcases other with st | st | st <;> exact absurd (st.symm.trans st') (by decide)
        · exact dfb laser two
      · rintro two
        rcases other with st | st | st <;> exact absurd (st.symm.trans two) (by decide)
    · have plain : dfbOf part.toNat = none := if_neg fun laser => by omega
      rw [plain, soft, if_neg (by decide), if_neg (by decide), if_neg (by omega)]
      rw [restorePart_engine _ engine]
    · have plain : dfbOf part.toNat = none := if_neg fun laser => by omega
      rw [plain, soft, if_neg (by decide), if_neg (by decide), if_pos ⟨lane, moving⟩]

end Sys2Proof.Machine

/-! What each operation on a photonic engine leaves in the engine itself: its colours, its spares and its words. -/
namespace Sys2Proof.Machine

/-! ## Colours and spares of an engine -/

namespace PEng

variable (x : PEng) (c d : Nat)

@[simp] theorem setCol_col (y : Colour) : (x.setCol c y).col c = y := Tab.get_put ..
theorem setCol_col_ne {c d : Nat} (y : Colour) (other : d ≠ c) : (x.setCol c y).col d = x.col d := Tab.get_put_ne _ _ _ _ _ _ other
@[simp] theorem setCol_spare (y : Colour) : (x.setCol c y).spare d = x.spare d := rfl
@[simp] theorem setSpare_spare (y : Spare) : (x.setSpare c y).spare c = y := Tab.get_put ..
theorem setSpare_spare_ne {c d : Nat} (y : Spare) (other : d ≠ c) : (x.setSpare c y).spare d = x.spare d := Tab.get_put_ne _ _ _ _ _ _ other
@[simp] theorem setSpare_col (y : Spare) : (x.setSpare c y).col d = x.col d := rfl

/-- The words of an engine beside its colours, its spares and the event it last told of. -/
def words : PEng := { x with colours := [], spares := [], err := 0, evKind := 0, evColour := 0, evDir := false }

@[simp] theorem setCol_words (y : Colour) : (x.setCol c y).words = x.words := rfl
@[simp] theorem setSpare_words (y : Spare) : (x.setSpare c y).words = x.words := rfl
@[simp] theorem setCol_err (y : Colour) : (x.setCol c y).err = x.err := rfl
@[simp] theorem setSpare_err (y : Spare) : (x.setSpare c y).err = x.err := rfl

/-- The engine with an event, R506. -/
def event (i c : Nat) (rx : Bool) : PEng := { x with err := setErr x.err i, evKind := BitVec.ofNat 8 i, evColour := BitVec.ofNat 5 c, evDir := rx }

@[simp] theorem event_words (i c : Nat) (rx : Bool) : (x.event i c rx).words = x.words := rfl
@[simp] theorem event_col (i : Nat) (rx : Bool) : (x.event i c rx).col d = x.col d := rfl
@[simp] theorem event_spare (i : Nat) (rx : Bool) : (x.event i c rx).spare d = x.spare d := rfl
@[simp] theorem event_err (i : Nat) (rx : Bool) : (x.event i c rx).err = setErr x.err i := rfl

/-- A fold that sets each of the first colours from what it is. -/
theorem foldl_setCol_col (d : Nat) (g : Nat → Colour → Colour) (k : Nat) : ((List.range k).foldl (fun x c => x.setCol c (g c (x.col c))) x).col d = if d < k then g d (x.col d) else x.col d :=
  foldl_range_get (get := PEng.col) (fun x c => setCol_col x c _) (fun x _ _ other => setCol_col_ne x _ other) x k d

variable {x} {y : PEng}

/-- Engines with the same words. -/
theorem safety_of_words (h : y.words = x.words) : y.safety = x.safety := (congrArg PEng.safety h :)
theorem eyes_of_words (h : y.words = x.words) : y.eyes = x.eyes := (congrArg PEng.eyes h :)
theorem wrongLock_of_words (h : y.words = x.words) : y.wrongLock = x.wrongLock := (congrArg PEng.wrongLock h :)
theorem rxTotal_of_words (h : y.words = x.words) : y.rxTotal = x.rxTotal := (congrArg PEng.rxTotal h :)
theorem autoSwap_of_words (h : y.words = x.words) : y.autoSwap = x.autoSwap := (congrArg PEng.autoSwap h :)
theorem biasTop_of_words (h : y.words = x.words) : biasTop y = biasTop x := (congrArg biasTop h :)
theorem freqWin_of_words (h : y.words = x.words) : y.freqWin = x.freqWin := (congrArg PEng.freqWin h :)
theorem discards_of_words (h : y.words = x.words) : y.discards = x.discards := (congrArg PEng.discards h :)

end PEng

/-! ## What operations leave in an engine -/

section
variable (s : State) (n c d m : Nat)

theorem col_eq : s.col n c = (s.phe n).col c := rfl
theorem spare_eq : s.spare n c = (s.phe n).spare c := rfl

theorem LedgerOnly.phe {s t : State} (h : LedgerOnly s t) (n : Nat) : t.phe n = s.phe n := by
  obtain ⟨_, rfl⟩ := h
  rfl

theorem LathOnly.phe {s t : State} (h : LathOnly s t) (n : Nat) : t.phe n = s.phe n := by
  obtain ⟨_, _, _, _, rfl⟩ := h
  rfl

@[simp] theorem phe_ite (c : Prop) [Decidable c] (s t : State) (n : Nat) : (if c then s else t).phe n = if c then s.phe n else t.phe n := apply_ite (State.phe · n) c s t
@[simp] theorem top_ite (c : Prop) [Decidable c] (s t : State) : (if c then s else t).top = if c then s.top else t.top := apply_ite State.top c s t

@[simp] theorem setCol_phe (y : Colour) : (s.setCol n c y).phe n = (s.phe n).setCol c y := State.setPhe_phe ..
@[simp] theorem setSpare_phe (y : Spare) : (s.setSpare n c y).phe n = (s.phe n).setSpare c y := State.setPhe_phe ..
@[simp] theorem phnErr_phe (i : Nat) (rx : Bool) : (phnErr s n i c rx).phe n = (s.phe n).event i c rx := State.setPhe_phe ..
@[simp] theorem nearSettle_phe : (nearSettle s n).phe m = s.phe m := rfl
@[simp] theorem setTx_phe (r : Ring) : (setTx s n c r).phe n = (s.phe n).setCol c { (s.phe n).col c with tx := r } := setCol_phe ..
@[simp] theorem setRx_phe (r : Ring) : (setRx s n c r).phe n = (s.phe n).setCol c { (s.phe n).col c with rx := r } := setCol_phe ..
@[simp] theorem rxReset_phe : (rxReset s n c).phe n = (s.phe n).setCol c ((s.phe n).col c).deaf := setCol_phe ..
@[simp] theorem dropCredits_phe : (dropCredits s n c).phe n = (s.phe n).setCol c { (s.phe n).col c with credits := 0 } := setCol_phe ..
@[simp] theorem afterMove_phe (st : RingSt) : (afterMove s n c st).phe n
    = (s.phe n).setCol c { (s.phe n).col c with tx := { ((s.phe n).col c).tx with st := if ((s.phe n).col c).rx.st = .inService then st else .locking } } := setTx_phe ..

@[simp] theorem journal_phe (part : BitVec 16) (type : Nat) (body : List Byte) : (journal s type part body).phe n = s.phe n := (journal_ledgerWork ..).only.phe n
@[simp] theorem stateHard_phe (part : BitVec 16) (cause st : Nat) : (stateHard s part cause st).phe n = s.phe n := (stateHard_ledgerWork ..).only.phe n
@[simp] theorem stateMended_phe (part : BitVec 16) (cause : Nat) : (stateMended s part cause).phe n = s.phe n := (stateMended_ledgerWork ..).only.phe n
@[simp] theorem setPartSt_phe (part : BitVec 16) (st : Nat) : (setPartSt s part st).phe n = s.phe n := (setPartSt_ledgerWork ..).only.phe n
@[simp] theorem softRetired_phe (part : BitVec 16) (seq : BitVec 64) (actor : Nat) : (softRetired s part seq actor).phe n = s.phe n := (softRetired_ledgerWork ..).only.phe n
@[simp] theorem countDefect_phe (part : BitVec 16) : (countDefect s part).phe n = s.phe n := rfl
@[simp] theorem partRetry_phe (part : BitVec 16) (k : Nat) : (partRetry s part k).phe n = s.phe n := rfl
@[simp] theorem partRetrain_phe (part : BitVec 16) (k : Nat) : (partRetrain s part k).phe n = s.phe n := rfl
@[simp] theorem partMargin_phe (part : BitVec 16) (k : Int) : (partMargin s part k).phe n = s.phe n := rfl

@[simp] theorem releaseQueue_phe (q : Nat) : (releaseQueue s q).phe n = s.phe n := by
  unfold releaseQueue
  dsimp only
  split
  · rfl
  · rfl

@[simp] theorem releaseNear_phe : (releaseNear s n).phe m = s.phe m := foldl_keeps (State.phe · m) (step := releaseQueue) (fun s q => releaseQueue_phe s m q) _ s

@[simp] theorem fmOk_phe (r : MboxRec) (part : BitVec 16) : (fmOk s r part).phe n = s.phe n := (respond_lathOnly ..).phe n
@[simp] theorem fmRefuse_phe (r : MboxRec) (code : Nat) : (fmRefuse s r code).phe n = s.phe n := (respond_lathOnly ..).phe n

/-! What takes a colour out of service leaves in it and in its engine. -/

theorem txLeave_col (r : Ring) : ((txLeave s n c r).phe n).col c = { (s.phe n).col c with credits := 0, tx := { r with st := .locking } } := by
  simp [txLeave]

theorem rxLeave_col (r : Ring) : ((rxLeave s n c r).phe n).col c = { (s.phe n).col c with credits := 0, rx := { r with st := .locking } }.deaf := by
  simp [rxLeave]

@[simp] theorem txLeave_words (r : Ring) : ((txLeave s n c r).phe n).words = (s.phe n).words := by simp [txLeave]
@[simp] theorem rxLeave_words (r : Ring) : ((rxLeave s n c r).phe n).words = (s.phe n).words := by simp [rxLeave]

@[simp] theorem ringFailed_phe (rx : Bool) : (ringFailed s n c rx).phe n = (s.phe n).event pbRingFailed c rx := by
  cases rx <;> simp [ringFailed]

/-! ## A ring passes or fails an attempt, R490 -/

/-- The ring of a colour that a failed attempt leaves. -/
def Ring.failed (r : Ring) : Ring := { r with att := r.att + 1, locked := false, heat := r.heat + 8, swept := 0, parked := false, st := if r.att = 2 then .failed else .locking }

/-- The device once an attempt of a transmit ring has failed, before it is judged whether it was the third. -/
def txFailed : State :=
  let u := s.setPhe n { s.phe n with wrongLock := bump (s.phe n).wrongLock 1 }
  partRetry (phnErr (setTx (if decide ((s.col n c).tx.st = .inService) then dropCredits u n c else u) n c (s.col n c).tx.failed) n pbWrongLock c false) (txPart n c) 1

theorem failAttempt_tx : failAttempt s n c false
    = if (s.col n c).tx.failed.st = .failed then ringFailed (txFailed s n c) n c false else partRetrain (txFailed s n c) (txPart n c) 1 := rfl

theorem txFailed_tx : (((txFailed s n c).phe n).col c).tx = (s.col n c).tx.failed := by
  simp [txFailed]

theorem txFailed_wrongLock : ((txFailed s n c).phe n).wrongLock = bump (s.phe n).wrongLock 1 := by
  rw [txFailed]
  split
  · simp [PEng.event, PEng.setCol]
  · simp [PEng.event, PEng.setCol]

theorem failAttempt_tx_col : (((failAttempt s n c false).phe n).col c).tx = (s.col n c).tx.failed := by
  rw [failAttempt_tx]
  split
  · rw [ringFailed_phe, PEng.event_col, txFailed_tx]
  · rw [partRetrain_phe, txFailed_tx]

theorem failAttempt_tx_wrongLock : ((failAttempt s n c false).phe n).wrongLock = bump (s.phe n).wrongLock 1 := by
  rw [failAttempt_tx]
  split
  · rw [ringFailed_phe, PEng.wrongLock_of_words (PEng.event_words ..), txFailed_wrongLock]
  · rw [partRetrain_phe, txFailed_wrongLock]

/-! ## Readiness of an engine, R498 -/

theorem nearSettle_near_bit {n : Nat} (low : n < 8) (down : (s.phe n).safety ≠ .normal ∨ ∃ c < 32, ((s.phe n).col c).tx.st.served = false ∨ ((s.phe n).col c).rx.st.served = false) :
    (nearSettle s n).top.near.getLsbD n = false := by
  have unready : (decide ((s.phe n).safety = .normal) && (List.range 32).all fun c => ((s.phe n).col c).tx.st.served && ((s.phe n).col c).rx.st.served) = false := by
    rcases down with off | ⟨c, here, unserved⟩
    · rw [decide_eq_false off, Bool.false_and]
    · rw [Bool.and_eq_false_iff, List.all_eq_false]
      refine .inr ⟨c, List.mem_range.2 here, ?_⟩
      rcases unserved with h | h
      · simp [h]
      · simp [h]
  unfold nearSettle
  dsimp only
  rw [unready]
  exact putBit_self _ _ _ low

/-! ## Loss of a colour, R490 and R491 -/

theorem ringPeakLoss_rx (up : (s.col n c).rx.st = .inService) : ringPeakLoss s n c true = nearSettle (rxLeave s n c ((s.col n c).rx.sweepFrom (heatLo s n))) n :=
  if_pos ⟨rfl, up⟩

theorem ringPeakLoss_tx (up : (s.col n c).tx.st = .inService) : ringPeakLoss s n c false = nearSettle (txLeave s n c ((s.col n c).tx.sweepFrom (heatLo s n))) n := by
  rw [ringPeakLoss, if_neg fun h => Bool.noConfusion h.1, if_pos ⟨rfl, up⟩]

theorem ringPeakLoss_down (rx : Bool) (rxDown : rx = true → (s.col n c).rx.st ≠ .inService) (txDown : rx = false → (s.col n c).tx.st ≠ .inService) : ringPeakLoss s n c rx = s :=
  (if_neg fun h => rxDown h.1 h.2).trans (if_neg fun h => txDown (by simpa using h.1) h.2)

/-! ## Spares, R493 to R495 -/

/-- What an answer to FM_ACTION leaves in an engine, when it touches no engine itself. -/
theorem spareAnswer_phe {f : State → MboxRec → State} (same : ∀ u r, (f u r).phe n = u.phe n) (o : Nat) :
    (spareAnswer s n o f).phe n = match (s.spare n o).fm with
      | none => s.phe n
      | some _ => (s.phe n).setSpare o { s.spare n o with fm := none } := by
  unfold spareAnswer
  dsimp only
  cases (s.spare n o).fm with
  | none => rfl
  | some p => exact (same _ _).trans (setSpare_phe ..)

theorem spareAnswer_words {f : State → MboxRec → State} (same : ∀ u r, (f u r).phe n = u.phe n) (o : Nat) : ((spareAnswer s n o f).phe n).words = (s.phe n).words := by
  rw [spareAnswer_phe s n same]
  cases (s.spare n o).fm with
  | none => rfl
  | some _ => rfl

theorem spareAnswer_st {f : State → MboxRec → State} (same : ∀ u r, (f u r).phe n = u.phe n) (o : Nat) : (((spareAnswer s n o f).phe n).spare o).st = ((s.phe n).spare o).st := by
  rw [spareAnswer_phe s n same]
  cases (s.spare n o).fm with
  | none => rfl
  | some _ =>
    dsimp only
    rw [PEng.setSpare_spare]
    rfl

@[simp] theorem colourRetired_words : ((colourRetired s n c).phe n).words = (s.phe n).words := by simp [colourRetired]
@[simp] theorem colourRetired_spare (o : Nat) : ((colourRetired s n c).phe n).spare o = (s.phe n).spare o := by simp [colourRetired]

/-- A spare that has FAILED, before FM_ACTION is answered. -/
def spareDown (o : Nat) : State :=
  let u := stateHard (journal (s.setSpare n o { s.spare n o with st := .failed, urgent := false }) 0x06 (sparePart n o) [3, BitVec.ofNat 8 (s.spare n o).colour.toNat]) (sparePart n o) 2 3
  let c := (s.spare n o).colour.toNat
  if (u.col n c).stage = 3 ∧ !(u.col n c).spared ∧ (u.col n c).tx.st ≠ .retired then colourRetired u n c else u

theorem spareFailed_eq (o : Nat) : spareFailed s n o = spareAnswer (spareDown s n o) n o fun u r => fmRefuse u r 9 := rfl

theorem spareDown_st (o : Nat) : (((spareDown s n o).phe n).spare o).st = .failed := by
  unfold spareDown
  dsimp only
  split
  · simp
  · simp

theorem spareDown_words (o : Nat) : ((spareDown s n o).phe n).words = (s.phe n).words := by
  unfold spareDown
  dsimp only
  split
  · simp
  · simp

theorem spareFailed_st (o : Nat) : (((spareFailed s n o).phe n).spare o).st = .failed := by
  rw [spareFailed_eq, spareAnswer_st _ _ fun u r => fmRefuse_phe u n r 9, spareDown_st]

@[simp] theorem spareFailed_words (o : Nat) : ((spareFailed s n o).phe n).words = (s.phe n).words := by
  rw [spareFailed_eq, spareAnswer_words _ _ fun u r => fmRefuse_phe u n r 9, spareDown_words]

theorem words_ite (p : Prop) [Decidable p] (t u : State) (same : (t.phe n).words = (u.phe n).words) : ((if p then t else u).phe n).words = (u.phe n).words := by
  split
  · exact same
  · rfl

@[simp] theorem moveFail_words : ((moveFail s n c).phe n).words = (s.phe n).words := by
  unfold moveFail
  dsimp only
  rw [words_ite _ _ _ _ (spareFailed_words ..), words_ite]
  · simp
  · rw [spareAnswer_words _ _ fun u r => fmOk_phe u n r _, colourRetired_words]

/-! ## SHUTDOWN, R497 -/

theorem revertSpares_words : ((revertSpares s n).phe n).words = (s.phe n).words := by
  refine foldl_keeps (fun u : State => (u.phe n).words) (fun u o => ?_) _ s
  dsimp only
  split
  · exact moveFail_words ..
  · split
    · rw [setSpare_phe, PEng.setSpare_words, spareAnswer_words _ _ fun u r => fmRefuse_phe u n r 7]
    · rfl

theorem beforeDark_words : ((beforeDark s n).phe n).words = (s.phe n).words := by
  refine (foldl_keeps (fun u : State => (u.phe n).words) (fun u c => ?_) _ _).trans (revertSpares_words s n)
  exact words_ite n _ _ _ (by simp)

theorem PEng.darkened_words (x : PEng) : x.darkened.words = x.words :=
  foldl_keeps PEng.words (step := fun x c => x.setCol c { (x.col c).deaf with tx := (x.col c).tx.dark, rx := (x.col c).rx.dark }) (fun x c => x.setCol_words c _) _ x

theorem PEng.darkened_tx (x : PEng) {d : Nat} (here : d < 32) : (x.darkened.col d).tx = (x.col d).tx.dark := by
  rw [PEng.darkened, PEng.foldl_setCol_col x d (fun _ y => { y.deaf with tx := y.tx.dark, rx := y.rx.dark }) 32, if_pos here]

theorem PEng.safetySet_col (x : PEng) (st : Safety) (k : Count) (d : Nat) : PEng.col { x with safety := st, eyes := k } d = x.col d := rfl

/-- A ring that goes dark carries no light. -/
theorem Ring.dark_st (r : Ring) : r.dark.st ≠ .verify ∧ r.dark.st ≠ .inService ∧ r.dark.st ≠ .swapping := by
  unfold Ring.dark
  split
  next stands => rcases stands with h | h <;> simp [h]
  · simp

/-- The engine once it is in SHUTDOWN: its words beside SAFETY and EYE_COUNT, and its colours. -/
theorem enterShutdown_eyes (pin : Bool) : ((enterShutdown s n pin).phe n).eyes = bump (s.phe n).eyes 1 := by
  have shut : ((shutDown s n).phe n).eyes = bump (s.phe n).eyes 1 := by
    rw [shutDown, State.setPhe_phe, PEng.eyes_of_words (PEng.darkened_words _), PEng.eyes_of_words (beforeDark_words ..)]
  rw [enterShutdown_eq, nearSettle_phe]
  cases pin with
  | false => rw [if_neg Bool.false_ne_true, phnErr_phe, PEng.eyes_of_words (PEng.event_words ..), shut]
  | true => rw [if_pos rfl, phnErr_phe, phnErr_phe, PEng.eyes_of_words ((PEng.event_words ..).trans (PEng.event_words ..)), shut]

theorem enterShutdown_col (pin : Bool) (d : Nat) : ((enterShutdown s n pin).phe n).col d = ((shutDown s n).phe n).col d := by
  rw [enterShutdown_eq, nearSettle_phe]
  cases pin with
  | false => rw [if_neg Bool.false_ne_true, phnErr_phe, PEng.event_col]
  | true => rw [if_pos rfl, phnErr_phe, phnErr_phe, PEng.event_col, PEng.event_col]

theorem shutDown_tx {d : Nat} (here : d < 32) : (((shutDown s n).phe n).col d).tx = (((beforeDark s n).phe n).col d).tx.dark := by
  rw [shutDown, State.setPhe_phe, PEng.safetySet_col, PEng.darkened_tx _ here]

end

end Sys2Proof.Machine

/-! The loops of Level and the monitor samples: what each leaves in its engine. -/
namespace Sys2Proof.Machine

/-! ## Fences, R502 -/

/-- The engine has the fences of the first, and every laser of its colours stands within them. -/
structure WithinFences (x y : PEng) : Prop where
  top : biasTop y = biasTop x
  window : y.freqWin = x.freqWin
  bias : ∀ d < 32, (y.col d).bias.toNat ≤ biasTop x
  freq : ∀ d < 32, (y.col d).freq.natAbs ≤ x.freqWin.toNat

namespace WithinFences

variable {x y z : PEng}

/-- A change of a colour that leaves its laser where it may stand. -/
theorem setCol {c : Nat} (h : WithinFences x y) (w : Colour) (bias : c < 32 → w.bias.toNat ≤ biasTop x) (freq : c < 32 → w.freq.natAbs ≤ x.freqWin.toNat) : WithinFences x (y.setCol c w) := by
  refine ⟨h.top, h.window, fun d low => ?_, fun d low => ?_⟩
  · by_cases here : d = c
    · subst here
      rw [PEng.setCol_col]
      exact bias low
    · rw [PEng.setCol_col_ne y w here]
      exact h.bias d low
  · by_cases here : d = c
    · subst here
      rw [PEng.setCol_col]
      exact freq low
    · rw [PEng.setCol_col_ne y w here]
      exact h.freq d low

/-- A change of a colour that leaves its laser alone. -/
theorem setCol_same {c : Nat} (h : WithinFences x y) (w : Colour) (bias : w.bias = (y.col c).bias) (freq : w.freq = (y.col c).freq) : WithinFences x (y.setCol c w) :=
  h.setCol w (fun low => bias ▸ h.bias c low) (fun low => freq ▸ h.freq c low)

/-- A change of words and spares alone. -/
theorem of_colours (h : WithinFences x y) (colours : z.colours = y.colours) (top : biasTop z = biasTop y) (window : z.freqWin = y.freqWin) : WithinFences x z := by
  have same (d : Nat) : z.col d = y.col d := by rw [PEng.col, colours, PEng.col]
  exact ⟨top.trans h.top, window.trans h.window, fun d low => (same d).symm ▸ h.bias d low, fun d low => (same d).symm ▸ h.freq d low⟩

end WithinFences

theorem clampInt_natAbs (w : Nat) (v : Int) : (clampInt (-(w : Int)) w v).natAbs ≤ w := by
  unfold clampInt
  omega

theorem biasTop_le (x : PEng) : biasTop x ≤ 4095 := Nat.min_le_left ..

theorem toNat_bias (x : PEng) (v : Nat) : (BitVec.ofNat 12 (min (biasTop x) v)).toNat = min (biasTop x) v := by
  have top := biasTop_le x
  rw [BitVec.toNat_ofNat, Nat.mod_eq_of_lt]
  omega

theorem toNat_bias_le (x : PEng) (v : Nat) : (BitVec.ofNat 12 (min (biasTop x) v)).toNat ≤ biasTop x := (toNat_bias x v).trans_le (Nat.min_le_left ..)

/-- A colour within the fences of its engine. -/
def PEng.fencedCol (x : PEng) (lo hi : Nat) (y : Colour) : Colour :=
  { y with bias := BitVec.ofNat 12 (min (biasTop x) y.bias.toNat), freq := clampInt (-(x.freqWin.toNat : Int)) x.freqWin.toNat y.freq, tx := { y.tx with heat := fenced lo hi y.tx.heat }, rx := { y.rx with heat := fenced lo hi y.rx.heat } }

section
variable (s : State) (n : Nat)

/-- The engine with its colours within its fences. -/
def colsFenced (x : PEng) (lo hi : Nat) : PEng := (List.range 32).foldl (fun z c => z.setCol c (x.fencedCol lo hi (z.col c))) x

theorem colsFenced_within (x : PEng) (lo hi : Nat) : WithinFences x (colsFenced x lo hi) := by
  have words : (colsFenced x lo hi).words = x.words := foldl_keeps PEng.words (step := fun z c => z.setCol c (x.fencedCol lo hi (z.col c))) (fun z c => z.setCol_words c _) _ x
  have col (d : Nat) (low : d < 32) : (colsFenced x lo hi).col d = x.fencedCol lo hi (x.col d) := by
    rw [colsFenced, PEng.foldl_setCol_col x d (fun _ => x.fencedCol lo hi), if_pos low]
  refine ⟨PEng.biasTop_of_words words, PEng.freqWin_of_words words, fun d low => ?_, fun d low => ?_⟩
  · rw [col d low]
    exact toNat_bias_le x _
  · rw [col d low]
    exact clampInt_natAbs ..

/-- The engine with its spares within its fences. -/
def sparesFenced (z : PEng) (top lo hi : Nat) : PEng :=
  (List.range 4).foldl (fun x o => x.setSpare o { x.spare o with bias := BitVec.ofNat 12 (min top (x.spare o).bias.toNat), heat := if (x.spare o).st = .idle then (x.spare o).heat else fenced lo hi (x.spare o).heat }) z

theorem sparesFenced_col (z : PEng) (top lo hi : Nat) : (sparesFenced z top lo hi).colours = z.colours := foldl_keeps PEng.colours
  (step := fun x o => x.setSpare o { x.spare o with bias := BitVec.ofNat 12 (min top (x.spare o).bias.toNat), heat := if (x.spare o).st = .idle then (x.spare o).heat else fenced lo hi (x.spare o).heat }) (fun _ _ => rfl) _ z

theorem sparesFenced_words (z : PEng) (top lo hi : Nat) : (sparesFenced z top lo hi).words = z.words := foldl_keeps PEng.words
  (step := fun x o => x.setSpare o { x.spare o with bias := BitVec.ofNat 12 (min top (x.spare o).bias.toNat), heat := if (x.spare o).st = .idle then (x.spare o).heat else fenced lo hi (x.spare o).heat }) (fun _ _ => rfl) _ z

theorem applyFences_eq : applyFences s n = s.setPhe n (sparesFenced (colsFenced (s.phe n) (heatLo s n) (heatHi s n)) (biasTop (s.phe n)) (heatLo s n) (heatHi s n)) := rfl

theorem applyFences_within : WithinFences (s.phe n) ((applyFences s n).phe n) := by
  rw [applyFences_eq, State.setPhe_phe]
  have words := sparesFenced_words (colsFenced (s.phe n) (heatLo s n) (heatHi s n)) (biasTop (s.phe n)) (heatLo s n) (heatHi s n)
  exact (colsFenced_within ..).of_colours (sparesFenced_col ..) (PEng.biasTop_of_words words) (PEng.freqWin_of_words words)

/-! ## Sweeps, R487 -/

variable {s n} {x : PEng}

theorem setCol_within (h : WithinFences x (s.phe n)) (c : Nat) (w : Colour) (bias : w.bias = ((s.phe n).col c).bias) (freq : w.freq = ((s.phe n).col c).freq) : WithinFences x ((s.setCol n c w).phe n) := by
  rw [setCol_phe]
  exact h.setCol_same w bias freq

theorem setSpare_within (h : WithinFences x (s.phe n)) (o : Nat) (w : Spare) : WithinFences x ((s.setSpare n o w).phe n) := by
  rw [setSpare_phe]
  exact h.of_colours rfl rfl rfl

theorem phnErr_within (h : WithinFences x (s.phe n)) (i c : Nat) (rx : Bool) : WithinFences x ((phnErr s n i c rx).phe n) := by
  rw [phnErr_phe]
  exact h.of_colours rfl rfl rfl

theorem setRx_within (h : WithinFences x (s.phe n)) (c : Nat) (r : Ring) : WithinFences x ((setRx s n c r).phe n) := setCol_within h c _ rfl rfl
theorem setTx_within (h : WithinFences x (s.phe n)) (c : Nat) (r : Ring) : WithinFences x ((setTx s n c r).phe n) := setCol_within h c _ rfl rfl
theorem rxReset_within (h : WithinFences x (s.phe n)) (c : Nat) : WithinFences x ((rxReset s n c).phe n) := setCol_within h c _ rfl rfl
theorem parked_within (h : WithinFences x (s.phe n)) (c : Nat) (r : Ring) : WithinFences x ((s.setCol n c { s.col n c with rx := r, los := true }).phe n) := setCol_within h c _ rfl rfl

theorem either_within {p : Prop} [Decidable p] {t u : State} (ht : WithinFences x (t.phe n)) (hu : WithinFences x (u.phe n)) : WithinFences x ((if p then t else u).phe n) := by
  split
  · exact ht
  · exact hu

theorem sweepRx_within (h : WithinFences x (s.phe n)) (peaks : List (Fin 32)) : WithinFences x ((sweepRx s n peaks).phe n) := by
  unfold sweepRx
  split
  · exact h
  · exact either_within (rxReset_within (setRx_within h ..) ..) (either_within (parked_within h ..) (setRx_within h ..))

/-- A fold over the colours of an engine that leaves its lasers alone. -/
theorem foldl_within {f : PEng → Nat → PEng} (keep : ∀ y c, WithinFences x y → WithinFences x (f y c)) (l : List Nat) {y : PEng} (h : WithinFences x y) : WithinFences x (l.foldl f y) :=
  List.foldlRecOn (motive := WithinFences x) l f h fun y hy c _ => keep y c hy

theorem txEnterVerify_within (h : WithinFences x (s.phe n)) (c : Nat) : WithinFences x ((txEnterVerify s n c).phe n) := by
  unfold txEnterVerify
  dsimp only
  split
  · refine setCol_within ?_ _ _ rfl rfl
    rw [State.setPhe_phe]
    refine foldl_within (fun y d hy => ?_) _ h
    split
    · exact hy.setCol_same _ rfl rfl
    · exact hy
  · exact h

theorem sweepTx_within (h : WithinFences x (s.phe n)) (peaks : List (Fin 32)) : WithinFences x ((sweepTx s n peaks).phe n) := by
  unfold sweepTx
  split
  · exact h
  · exact txEnterVerify_within (setTx_within h ..) _

end

/-! ## Loops, R500 and R501 -/

/-- A loop keeps its engine within its fences. -/
theorem loopAct_within {x y : PEng} (h : WithinFences x y) (lo hi : Nat) (target : Int) (l : Loop) (v : Int) : WithinFences x (loopAct y lo hi target l v) := by
  unfold loopAct
  cases l with
  | laserPower c => exact h.setCol _ (fun _ => (toNat_bias_le y _).trans_eq h.top) (h.freq _)
  | laserFreq c => exact h.setCol _ (h.bias _) fun _ => (clampInt_natAbs ..).trans_eq (congrArg BitVec.toNat h.window)
  | txRing c =>
    dsimp only
    split
    · exact h.setCol_same _ rfl rfl
    · exact h
  | rxRing c =>
    dsimp only
    split
    · exact h.setCol_same _ rfl rfl
    · exact h
  | spareCurrent o =>
    dsimp only
    split
    · exact h
    · exact h.of_colours rfl rfl rfl
  | spareHeater o =>
    dsimp only
    split
    · exact h
    · exact h.of_colours rfl rfl rfl

/-- The words of an engine and its event, which no loop touches. -/
theorem loopAct_frame (x : PEng) (lo hi : Nat) (target : Int) (l : Loop) (v : Int) : (loopAct x lo hi target l v).words = x.words ∧ (loopAct x lo hi target l v).err = x.err := by
  unfold loopAct
  cases l with
  | laserPower c => exact ⟨rfl, rfl⟩
  | laserFreq c => exact ⟨rfl, rfl⟩
  | txRing c => dsimp only; split <;> exact ⟨rfl, rfl⟩
  | rxRing c => dsimp only; split <;> exact ⟨rfl, rfl⟩
  | spareCurrent o => dsimp only; split <;> exact ⟨rfl, rfl⟩
  | spareHeater o => dsimp only; split <;> exact ⟨rfl, rfl⟩

section
variable (s : State) (n : Nat) (l : Loop) (v : Int)

/-- What a loop makes of its engine. -/
def acted : PEng := loopAct (s.phe n) (heatLo s n) (heatHi s n) (powerTarget s n) l v

theorem acted_saturated : (acted s n l v).saturated = (s.phe n).saturated := (congrArg PEng.saturated (loopAct_frame ..).1 :)
theorem acted_fenceSat : (acted s n l v).fenceSat = (s.phe n).fenceSat := (congrArg PEng.fenceSat (loopAct_frame ..).1 :)
theorem acted_err : (acted s n l v).err = (s.phe n).err := (loopAct_frame ..).2

/-- What a held loop leaves in its engine before it tells of itself. -/
def saturates : PEng :=
  { acted s n l v with fenceSat := bump (acted s n l v).fenceSat 1, saturated := if (acted s n l v).saturated.contains l then (acted s n l v).saturated else (acted s n l v).saturated ++ [l] }

theorem saturates_mem : l ∈ (saturates s n l v).saturated := by
  unfold saturates
  dsimp only
  split
  next has => exact List.contains_iff_mem.1 has
  · exact List.mem_append_right _ (List.mem_singleton.2 rfl)

theorem runLoop_held (h : beyondFence (s.phe n) (heatLo s n) (heatHi s n) l v = true) :
    (runLoop s n l v).phe n = if (s.phe n).saturated.contains l then saturates s n l v else (saturates s n l v).event pbFenceSat (loopColour l) (loopRx l) := by
  unfold runLoop
  dsimp only
  rw [if_pos h, phe_ite, phnErr_phe, State.setPhe_phe]
  rfl

theorem runLoop_free (h : beyondFence (s.phe n) (heatLo s n) (heatHi s n) l v = false) :
    (runLoop s n l v).phe n = { acted s n l v with saturated := (acted s n l v).saturated.filter (· ≠ l) } := by
  unfold runLoop
  dsimp only
  rw [if_neg (by rw [h]; exact Bool.false_ne_true), State.setPhe_phe]
  rfl

variable {s n} {x : PEng}

theorem runLoop_within (h : WithinFences x (s.phe n)) : WithinFences x ((runLoop s n l v).phe n) := by
  have within : WithinFences x (acted s n l v) := loopAct_within h ..
  have saturated : WithinFences x (saturates s n l v) := within.of_colours rfl rfl rfl
  cases held : beyondFence (s.phe n) (heatLo s n) (heatHi s n) l v with
  | true =>
    rw [runLoop_held _ _ _ _ held]
    split
    · exact saturated
    · exact saturated.of_colours rfl rfl rfl
  | false =>
    rw [runLoop_free _ _ _ _ held]
    exact within.of_colours rfl rfl rfl

end

end Sys2Proof.Machine

/-! Chapter 13, the rings, lasers and safety states of one photonic engine. -/
namespace Sys2Proof.Machine

section
variable (s : State) (n c : Nat)

/-! ## A lost peak and lost light, R479, R490 and R491 -/

theorem rxLeave_unready {n c : Nat} (low : n < 8) (here : c < 32) (r : Ring) : (nearSettle (rxLeave s n c r) n).top.near.getLsbD n = false :=
  nearSettle_near_bit _ low (.inr ⟨c, here, .inr (by rw [rxLeave_col]; rfl)⟩)

theorem txLeave_unready {n c : Nat} (low : n < 8) (here : c < 32) (r : Ring) : (nearSettle (txLeave s n c r) n).top.near.getLsbD n = false :=
  nearSettle_near_bit _ low (.inr ⟨c, here, .inl (by rw [txLeave_col]; rfl)⟩)

theorem partRetrain_defect (p : BitVec 16) (k q : Nat) : ((partRetrain s p k).part q).defect = (s.part q).defect := by
  unfold partRetrain
  dsimp only
  by_cases here : q = p.toNat
  · rw [here, State.setPart_part]
  · rw [State.setPart_part_ne _ _ _ _ here]

theorem txLeave_defect (r : Ring) (q : Nat) : ((txLeave s n c r).part q).defect = (s.part q).defect := partRetrain_defect ..
theorem rxLeave_defect (r : Ring) (q : Nat) : ((rxLeave s n c r).part q).defect = (s.part q).defect := partRetrain_defect ..

/-- The device that has lost a colour's light. -/
def losCounted : State := countDefect (s.setCol n c { s.col n c with los := true }) (rxPart n c)

theorem losCounted_col : ((losCounted s n c).phe n).col c = { s.col n c with los := true } := by
  simp [losCounted]

theorem losCounted_defect : ((losCounted s n c).part (rxPart n c).toNat).defect = bump (s.part (rxPart n c).toNat).defect 1 := by
  rw [losCounted, countDefect_part]
  rfl

/-- The receive side has left service, if it was in it. -/
def losLeft : State := if (s.col n c).rx.st = .inService then rxLeave (losCounted s n c) n c ((s.col n c).rx.sweepFrom (heatLo (losCounted s n c) n)) else losCounted s n c

theorem rxLos_lit (lit : (s.col n c).los = false) : rxLos s n c
    = nearSettle (if (s.col n c).rx.st = .inService ∧ ((s.col n c).tx.st = .inService ∨ (s.col n c).tx.st = .verify) then txLeave (losLeft s n c) n c (s.col n c).tx else losLeft s n c) n :=
  if_neg (by rw [lit]; exact Bool.false_ne_true)

theorem losLeft_los : (((losLeft s n c).phe n).col c).los = true := by
  unfold losLeft
  split
  · rw [rxLeave_col, losCounted_col]
    rfl
  · rw [losCounted_col]

theorem losLeft_defect : ((losLeft s n c).part (rxPart n c).toNat).defect = bump (s.part (rxPart n c).toNat).defect 1 := by
  unfold losLeft
  split
  · rw [rxLeave_defect, losCounted_defect]
  · rw [losCounted_defect]

theorem losLeft_rx (up : (s.col n c).rx.st = .inService) : (((losLeft s n c).phe n).col c).rx.st = .locking := by
  rw [losLeft, if_pos up, rxLeave_col]
  rfl

theorem nearSettle_col (m d : Nat) : (nearSettle s n).col m d = s.col m d := rfl
theorem nearSettle_part (q : Nat) : (nearSettle s n).part q = s.part q := rfl

theorem rxLos_leaves (lit : (s.col n c).los = false) :
    ((rxLos s n c).col n c).los = true ∧ ((rxLos s n c).part (rxPart n c).toNat).defect = bump (s.part (rxPart n c).toNat).defect 1
      ∧ ((s.col n c).rx.st = .inService → ((rxLos s n c).col n c).rx.st = .locking ∧ ((s.col n c).tx.st = .inService → ((rxLos s n c).col n c).tx.st = .locking)) := by
  rw [rxLos_lit s n c lit, col_eq, nearSettle_phe, nearSettle_part]
  split
  next both =>
    rw [txLeave_col, txLeave_defect]
    exact ⟨losLeft_los s n c, losLeft_defect s n c, fun up => ⟨losLeft_rx s n c up, fun _ => rfl⟩⟩
  next apart => exact ⟨losLeft_los s n c, losLeft_defect s n c, fun up => ⟨losLeft_rx s n c up, fun lit => absurd ⟨up, .inl lit⟩ apart⟩⟩

/-! ## Verify and make time out, R489, R490 and R495 -/

theorem verifyTimeout_verify (st : (s.col n c).tx.st = .verify) : verifyTimeout s n c = nearSettle (failAttempt s n c false) n := by
  rw [verifyTimeout, st]

theorem verifyTimeout_swapping (st : (s.col n c).tx.st = .swapping) : verifyTimeout s n c = nearSettle (moveFail s n c) n := by
  rw [verifyTimeout, st]

theorem verifyTimeout_none (verify : (s.col n c).tx.st ≠ .verify) (swapping : (s.col n c).tx.st ≠ .swapping) : verifyTimeout s n c = s := by
  unfold verifyTimeout
  split
  next st => exact absurd st verify
  next st => exact absurd st swapping
  · rfl

theorem verifyTimeout_fails (st : (s.col n c).tx.st = .verify) :
    ((verifyTimeout s n c).phe n).wrongLock = bump (s.phe n).wrongLock 1 ∧ ((verifyTimeout s n c).col n c).tx.att = (s.col n c).tx.att + 1
      ∧ ((verifyTimeout s n c).col n c).tx.st = (if (s.col n c).tx.att = 2 then .failed else .locking) := by
  rw [verifyTimeout_verify s n c st, col_eq, nearSettle_phe, failAttempt_tx_col]
  exact ⟨failAttempt_tx_wrongLock .., rfl, rfl⟩

theorem spareMakeTimeout_tuning (o : Nat) (st : (s.spare n o).st = .tuning) : ((spareMakeTimeout s n o).spare n o).st = .failed := by
  rw [spareMakeTimeout, if_pos st]
  exact spareFailed_st ..

/-! ## RELOCK and SWAP, R503 -/

/-- The device with a colour selected in PHN_CTRL. -/
def selected (rx : Bool) : State := s.setPhe n { s.phe n with colour := BitVec.ofNat 5 c, rxSel := rx }

theorem selected_col (rx : Bool) (d : Nat) : (selected s n c rx).col n d = s.col n d := by
  rw [selected, col_eq, State.setPhe_phe]
  rfl

/-- The device with a colour named in PHN_CTRL. -/
def named : State := s.setPhe n { s.phe n with colour := BitVec.ofNat 5 c }

theorem named_col (d : Nat) : (named s n c).col n d = s.col n d := by
  rw [named, col_eq, State.setPhe_phe]
  rfl

theorem named_spare (d : Nat) : (named s n c).spare n d = s.spare n d := by
  rw [named, spare_eq, State.setPhe_phe]
  rfl

theorem swap_eq : swap s n c = if (s.phe n).safety = .normal ∧ (s.spare n (c / 8)).st = .idle ∧ (s.col n c).stage ≠ 0 ∧ (s.col n c).tx.st ≠ .retired then startMake (named s n c) n c false none
    else phnErr (named s n c) n pbCtrlIgnored c false := by
  unfold swap
  dsimp only
  rw [← named, named_col, named_spare]

theorem relock_ignored (rx : Bool) (unable : ¬ ((s.phe n).safety = .normal ∧ (if rx then (s.col n c).rx else (s.col n c).tx).st = .failed)) :
    relock s n c rx = phnErr (selected s n c rx) n pbCtrlIgnored c rx := by
  refine if_neg fun able => unable ?_
  rw [← selected, selected_col] at able
  exact able

theorem relock_ignored_leaves (rx : Bool) (unable : ¬ ((s.phe n).safety = .normal ∧ (if rx then (s.col n c).rx else (s.col n c).tx).st = .failed)) :
    ((relock s n c rx).phe n).err = setErr (s.phe n).err pbCtrlIgnored ∧ (relock s n c rx).col n c = s.col n c := by
  rw [relock_ignored s n c rx unable, col_eq, phnErr_phe, PEng.event_err, PEng.event_col, ← col_eq, selected_col]
  rw [selected, State.setPhe_phe]
  exact ⟨rfl, rfl⟩

/-- A ring that RELOCK starts again. -/
def Ring.relocked (r : Ring) (lo : Nat) : Ring := { r.sweepFrom lo with att := 0 }

theorem relock_starts (rx : Bool) (normal : (s.phe n).safety = .normal) (failed : (if rx then (s.col n c).rx else (s.col n c).tx).st = .failed) :
    relock s n c rx = nearSettle (partRetrain (if rx then setRx (selected s n c rx) n c ((if rx then (s.col n c).rx else (s.col n c).tx).relocked (heatLo s n))
      else setTx (selected s n c rx) n c ((if rx then (s.col n c).rx else (s.col n c).tx).relocked (heatLo s n))) (if rx then rxPart n c else txPart n c) 1) n := by
  have lo : heatLo (selected s n c rx) n = heatLo s n := by rw [heatLo, selected, State.setPhe_phe, heatLo]
  unfold relock
  dsimp only
  rw [← selected, selected_col, if_pos ⟨normal, failed⟩, lo]
  rfl

theorem relock_starts_leaves (rx : Bool) (normal : (s.phe n).safety = .normal) (failed : (if rx then (s.col n c).rx else (s.col n c).tx).st = .failed) :
    (if rx then ((relock s n c rx).col n c).rx else ((relock s n c rx).col n c).tx) = (if rx then (s.col n c).rx else (s.col n c).tx).relocked (heatLo s n) := by
  rw [relock_starts s n c rx normal failed, col_eq, nearSettle_phe, partRetrain_phe]
  cases rx with
  | false => rw [if_neg Bool.false_ne_true, if_neg Bool.false_ne_true, if_neg Bool.false_ne_true, setTx_phe, PEng.setCol_col]
  | true => rw [if_pos rfl, if_pos rfl, if_pos rfl, setRx_phe, PEng.setCol_col]

/-! ## The loops, R500 to R502 -/

theorem controlCycle_normal (o : CycleObs) (normal : (s.phe n).safety = .normal) : controlCycle s n o
    = nearSettle (o.wishes.foldl (fun v w => runLoop v n w.1 w.2) (sweepTx (sweepRx (o.spareLocked.foldl (fun v k => if (v.spare n k.val).st = .tuning then v.setSpare n k.val { v.spare n k.val with st := .locked } else v)
      (applyFences s n)) n o.rxPeak) n o.txPeak)) n :=
  if_neg fun h => h normal

theorem controlCycle_within (o : CycleObs) (normal : (s.phe n).safety = .normal) : WithinFences (s.phe n) ((controlCycle s n o).phe n) := by
  rw [controlCycle_normal s n o normal, nearSettle_phe]
  refine List.foldlRecOn (motive := fun v : State => WithinFences (s.phe n) (v.phe n)) _ _ (sweepTx_within (sweepRx_within ?_ _) _) fun v h w _ => runLoop_within w.1 w.2 h
  refine List.foldlRecOn (motive := fun v : State => WithinFences (s.phe n) (v.phe n)) _ _ (applyFences_within s n) fun v h k _ => ?_
  exact either_within (setSpare_within h ..) h

/-- What a loop held at its fence leaves: one more count, and its flag on entry to saturation. -/
theorem runLoop_held_leaves (l : Loop) (v : Int) (h : beyondFence (s.phe n) (heatLo s n) (heatHi s n) l v = true) :
    ((runLoop s n l v).phe n).fenceSat = bump (s.phe n).fenceSat 1 ∧ l ∈ ((runLoop s n l v).phe n).saturated
      ∧ (l ∉ (s.phe n).saturated → ((runLoop s n l v).phe n).err = setErr (s.phe n).err pbFenceSat) ∧ (l ∈ (s.phe n).saturated → ((runLoop s n l v).phe n).err = (s.phe n).err) := by
  have count : (saturates s n l v).fenceSat = bump (s.phe n).fenceSat 1 := congrArg (bump · 1) (acted_fenceSat s n l v)
  have err : (saturates s n l v).err = (s.phe n).err := acted_err s n l v
  rw [runLoop_held s n l v h]
  split
  next has => exact ⟨count, saturates_mem s n l v, fun no => absurd (List.contains_iff_mem.1 has) no, fun _ => err⟩
  next no => exact ⟨count, saturates_mem s n l v, fun _ => congrArg (setErr · pbFenceSat) err, fun has => absurd (List.contains_iff_mem.2 has) no⟩

/-- What a loop within its fence leaves. -/
theorem runLoop_free_leaves (l : Loop) (v : Int) (h : beyondFence (s.phe n) (heatLo s n) (heatHi s n) l v = false) :
    ((runLoop s n l v).phe n).fenceSat = (s.phe n).fenceSat ∧ l ∉ ((runLoop s n l v).phe n).saturated ∧ ((runLoop s n l v).phe n).err = (s.phe n).err := by
  rw [runLoop_free s n l v h]
  refine ⟨acted_fenceSat s n l v, fun has => ?_, acted_err s n l v⟩
  exact absurd rfl (of_decide_eq_true (List.mem_filter.1 has).2)

/-- A power loop within its fence. -/
theorem runLoop_laserPower (d : Fin 32) (v : Int) (h : beyondFence (s.phe n) (heatLo s n) (heatHi s n) (.laserPower d) v = false) :
    ((((runLoop s n (.laserPower d) v).phe n).col d.val).bias.toNat : Int) = v ∧ (((runLoop s n (.laserPower d) v).phe n).col d.val).aim = powerTarget s n := by
  have col : ((runLoop s n (.laserPower d) v).phe n).col d.val = { s.col n d.val with bias := BitVec.ofNat 12 (min (biasTop (s.phe n)) v.toNat), aim := powerTarget s n } := by
    rw [runLoop_free s n _ v h]
    exact PEng.setCol_col ..
  have inside : ¬ (biasTop (s.phe n) : Int) < v ∧ ¬ v < 0 := by simpa [beyondFence] using h
  rw [col]
  refine ⟨?_, rfl⟩
  rw [toNat_bias]
  omega

/-! ## Monitor samples, R492, R495 and R500 -/

/-- What a sample of powers leaves of an engine: its words, and of each colour the stage of its laser and its transmit ring. -/
def monitored (s : State) (n : Nat) : PEng × (Nat → BitVec 2 × Ring) := ((s.phe n).words, fun d => (((s.phe n).col d).stage, ((s.phe n).col d).tx))

/-- The device with the receive powers of colours read. -/
def powersRead (l : List (Fin 32 × BitVec 16)) : State :=
  l.foldl (fun s p => partMargin (s.setCol n p.1.val { s.col n p.1.val with rxPwr := p.2 }) (rxPart n p.1.val) (p.2.toInt + 80)) s

/-- The device with a sample's powers taken. -/
def powersTaken (o : MonitorObs) : State :=
  (List.range 32).foldl (fun s c => partMargin s (txPart n c) (((s.phe n).heatMax.toNat : Int) - (((s.col n c).tx.heat / 2 : Nat) : Int)))
    (powersRead (s.setPhe n { s.phe n with rxTotal := o.rxTotal }) n o.rxPower)

/-- The lasers of a sample judged in colour order. -/
def lasersJudged (lasers : List LaserSample) : State :=
  (List.range 32).foldl (fun s c => match lasers.find? fun m => decide (m.colour.val = c) with
      | some m => judgeLaser s n m
      | none => s) s

theorem monitorSample_eq (o : MonitorObs) : monitorSample s n o
    = if ((powersTaken s n o).phe n).safety ≠ .normal then powersTaken s n o else nearSettle (autoSwaps (lasersJudged (powersTaken s n o) n o.lasers) n) n := rfl

theorem setCol_monitored (y : Colour) (stage : y.stage = (s.col n c).stage) (tx : y.tx = (s.col n c).tx) : monitored (s.setCol n c y) n = monitored s n := by
  refine Prod.ext ?_ (funext fun d => ?_)
  · rw [monitored, setCol_phe, PEng.setCol_words, monitored]
  · rw [monitored, monitored, setCol_phe]
    dsimp only
    by_cases here : d = c
    · subst here
      rw [PEng.setCol_col, stage, tx]
      rfl
    · rw [PEng.setCol_col_ne _ _ here]

theorem margins_phe : ((List.range 32).foldl (fun s c => partMargin s (txPart n c) (((s.phe n).heatMax.toNat : Int) - (((s.col n c).tx.heat / 2 : Nat) : Int))) s).phe n = s.phe n :=
  foldl_keeps (State.phe · n) (step := fun s c => partMargin s (txPart n c) (((s.phe n).heatMax.toNat : Int) - (((s.col n c).tx.heat / 2 : Nat) : Int))) (fun _ _ => rfl) _ s

theorem powersRead_monitored (l : List (Fin 32 × BitVec 16)) : monitored (powersRead s n l) n = monitored s n := by
  induction l generalizing s with
  | nil => rfl
  | cons p l ih => exact (ih _).trans (setCol_monitored s n p.1.val _ rfl rfl)

theorem powersTaken_monitored (o : MonitorObs) : monitored (powersTaken s n o) n = monitored (s.setPhe n { s.phe n with rxTotal := o.rxTotal }) n := by
  rw [monitored, powersTaken, margins_phe, ← monitored, powersRead_monitored]

theorem powersTaken_words (o : MonitorObs) : ((powersTaken s n o).phe n).words = { (s.phe n).words with rxTotal := o.rxTotal } := by
  have words := congrArg Prod.fst (powersTaken_monitored s n o)
  rw [monitored, monitored, State.setPhe_phe] at words
  exact words

theorem powersTaken_rxTotal (o : MonitorObs) : ((powersTaken s n o).phe n).rxTotal = o.rxTotal := (congrArg PEng.rxTotal (powersTaken_words s n o) :)
theorem powersTaken_safety (o : MonitorObs) : ((powersTaken s n o).phe n).safety = (s.phe n).safety := (congrArg PEng.safety (powersTaken_words s n o) :)
theorem powersTaken_autoSwap (o : MonitorObs) : ((powersTaken s n o).phe n).autoSwap = (s.phe n).autoSwap := (congrArg PEng.autoSwap (powersTaken_words s n o) :)

theorem powersTaken_laser (o : MonitorObs) (d : Nat) : ((powersTaken s n o).col n d).stage = (s.col n d).stage ∧ ((powersTaken s n o).col n d).tx = (s.col n d).tx := by
  have laser := congrFun (congrArg Prod.snd (powersTaken_monitored s n o)) d
  rw [monitored, monitored, State.setPhe_phe] at laser
  exact Prod.ext_iff.1 laser

theorem powersTaken_col (o : MonitorObs) (none : o.rxPower = []) (d : Nat) : (powersTaken s n o).col n d = s.col n d := by
  rw [powersTaken, none, col_eq, margins_phe, powersRead, List.foldl_nil, State.setPhe_phe]
  rfl

theorem autoSwaps_off (off : (s.phe n).autoSwap = false) : autoSwaps s n = s := if_neg fun h => Bool.false_ne_true (off ▸ h.2)

theorem lasersJudged_nil : lasersJudged s n [] = s := List.foldlRecOn (motive := fun t => t = s) _ _ rfl fun _ h _ _ => h

/-! ## Stages of a laser, R492 -/

theorem enterStage_warn : (enterStage s n c 1).phe n = ((s.phe n).setCol c { (s.phe n).col c with stage := 1 }).event pbLaserWarn c false := by
  simp [enterStage, col_eq]

theorem enterStage_due : (enterStage s n c 2).phe n = ((s.phe n).setCol c { (s.phe n).col c with stage := 2 }).event pbSpareDue c false := by
  simp [enterStage, col_eq]

/-- A laser with its sample taken. -/
def sampled (m : LaserSample) : State :=
  let u := s.setCol n c { s.col n c with bias := m.bias, light := m.light, level := sampleLevel (s.phe n) (laserEolOf s n c) m }
  partMargin u (laserPart u n c) ((laserEolOf u n c : Int) - (m.bias.toNat : Int))

theorem sampled_phe (m : LaserSample) : (sampled s n c m).phe n = (s.phe n).setCol c { s.col n c with bias := m.bias, light := m.light, level := sampleLevel (s.phe n) (laserEolOf s n c) m } := setCol_phe ..

/-- A laser at STAGE 0 is judged: the stages up to the one that this sample and the one before reach are entered in turn. -/
theorem judgeLaser_fresh (m : LaserSample) (colour : m.colour.val = c) (serves : (s.col n c).tx.st ≠ .retired) (fresh : (s.col n c).stage = 0) :
    let new := min (sampleLevel (s.phe n) (laserEolOf s n c) m) (s.col n c).level
    (new = 0 → judgeLaser s n m = sampled s n c m) ∧ (new = 1 → judgeLaser s n m = enterStage (sampled s n c m) n c 1)
      ∧ (new = 2 → judgeLaser s n m = enterStage (enterStage (sampled s n c m) n c 1) n c 2) := by
  have zero : (s.col n c).stage.toNat = 0 := by rw [fresh]; rfl
  unfold judgeLaser
  rw [colour]
  dsimp only
  rw [if_neg serves, ← sampled, zero]
  refine ⟨fun h => ?_, fun h => ?_, fun h => ?_⟩
  · rw [if_neg (by omega), if_neg (by omega), if_neg (by omega)]
  · rw [if_neg (by omega), if_neg (by omega), if_pos (by omega)]
  · rw [if_neg (by omega), if_pos (by omega), if_pos (by omega)]

theorem judgeLaser_stages (m : LaserSample) (colour : m.colour.val = c) (serves : (s.col n c).tx.st ≠ .retired) (fresh : (s.col n c).stage = 0) :
    let l := sampleLevel (s.phe n) (laserEolOf s n c) m
    let t := judgeLaser s n m
    (l = 0 ∨ (s.col n c).level = 0 → (t.col n c).stage = 0 ∧ (t.col n c).level = l)
      ∧ (l = 1 → 1 ≤ (s.col n c).level → (t.col n c).stage = 1 ∧ (t.phe n).err = setErr (s.phe n).err pbLaserWarn)
      ∧ (l = 2 → 2 ≤ (s.col n c).level → (t.col n c).stage = 2 ∧ (t.phe n).err = setErr (setErr (s.phe n).err pbLaserWarn) pbSpareDue) := by
  obtain ⟨none, warn, due⟩ := judgeLaser_fresh s n c m colour serves fresh
  intro l t
  refine ⟨fun h => ?_, fun h reached => ?_, fun h reached => ?_⟩
  · rw [show t = _ from none (by omega), col_eq, sampled_phe, PEng.setCol_col]
    exact ⟨fresh, rfl⟩
  · rw [show t = _ from warn (by omega), col_eq, enterStage_warn, sampled_phe]
    simp
  · rw [show t = _ from due (by omega), col_eq, enterStage_due, enterStage_warn, sampled_phe]
    simp

end

end Sys2Proof.Machine

/-! Settles O50. -/
namespace Sys2Proof.Machine

section
variable (s : State) (n : Nat)

/-! ## Eye safety, R496 and R497 -/

theorem enterShutdown_unready {n : Nat} (low : n < 8) (pin : Bool) : (enterShutdown s n pin).top.near.getLsbD n = false := by
  have shut := (enterShutdown_shuts s n pin).here
  rw [enterShutdown_eq] at shut ⊢
  rw [nearSettle_phe] at shut
  exact nearSettle_near_bit _ low (.inl (by rw [shut]; exact nofun))

/-- What an engine's entry to SHUTDOWN leaves. -/
theorem enterShutdown_leaves {n : Nat} (low : n < 8) (pin : Bool) :
    ((enterShutdown s n pin).phe n).safety = .shutdown ∧ ((enterShutdown s n pin).phe n).eyes = bump (s.phe n).eyes 1 ∧ (enterShutdown s n pin).top.near.getLsbD n = false
      ∧ ∀ d, d < 32 → ((enterShutdown s n pin).col n d).tx.st ≠ .verify ∧ ((enterShutdown s n pin).col n d).tx.st ≠ .inService ∧ ((enterShutdown s n pin).col n d).tx.st ≠ .swapping := by
  refine ⟨(enterShutdown_shuts s n pin).here, enterShutdown_eyes s n pin, enterShutdown_unready s low pin, fun d here => ?_⟩
  rw [col_eq, enterShutdown_col, shutDown_tx s n here]
  exact Ring.dark_st _

/-- The device with EYE_INTERLOCK_N high. -/
def pinHigh : State := { s with phn := { s.phn with interlock := true } }

/-- The engines that the pin shuts down. -/
def litEngines : List Nat := (List.range 8).filter fun n => decide ((s.phe n).safety ≠ .shutdown)

theorem interlockHigh_eq : interlockHigh s
    = if (litEngines (pinHigh s)).isEmpty then (litEngines (pinHigh s)).foldl (fun s n => enterShutdown s n true) (pinHigh s)
      else eyeEntry ((litEngines (pinHigh s)).foldl (fun s n => enterShutdown s n true) (pinHigh s)) 1 := rfl

theorem litEngines_nil : litEngines (pinHigh s) = [] ↔ ∀ k, k < 8 → (s.phe k).safety = .shutdown := by
  rw [litEngines, List.filter_eq_nil_iff]
  refine forall_congr' fun k => ?_
  rw [List.mem_range, decide_eq_true_eq, not_not]
  rfl

theorem interlockHigh_already (dark : ∀ k, k < 8 → (s.phe k).safety = .shutdown) : interlockHigh s = pinHigh s := by
  rw [interlockHigh_eq, (litEngines_nil s).2 dark]
  rfl

theorem interlockHigh_entry (lit : ∃ k, k < 8 ∧ (s.phe k).safety ≠ .shutdown) : ∃ e, (interlockHigh s).sng.pend.getLast? = some e ∧ e.type = 0x12 ∧ e.body = padTo 0 36 [1] := by
  obtain ⟨k, low, on⟩ := lit
  have some : (litEngines (pinHigh s)).isEmpty ≠ true := fun none => on ((litEngines_nil s).1 (List.isEmpty_iff.1 none) k low)
  rw [interlockHigh_eq, if_neg some, eyeEntry]
  obtain ⟨e, pend, type, -, body⟩ := journal_pend ((litEngines (pinHigh s)).foldl (fun s n => enterShutdown s n true) (pinHigh s)) 0x12 deviceId [1]
  exact ⟨e, by rw [pend]; exact List.getLast?_concat .., type, body⟩

theorem shutAll_interlock (l : List Nat) : (l.foldl (fun s n => enterShutdown s n true) s).phn.interlock = s.phn.interlock :=
  foldl_keeps (fun u : State => u.phn.interlock) (fun u n => (enterShutdown_shuts u n true).interlock) l s

theorem interlockHigh_pin : (interlockHigh s).phn.interlock = true := by
  rw [interlockHigh_eq]
  split
  · exact shutAll_interlock ..
  · exact (journal_ledgerWork ..).near.interlock.trans (shutAll_interlock ..)

theorem forceOff_eq (on : Bool) : forceOff s n on = if on = true ∧ ((s.phe n).safety = .normal ∨ (s.phe n).safety = .probe) then enterShutdown (s.setPhe n { s.phe n with forceOff := on }) n false
    else s.setPhe n { s.phe n with forceOff := on } := by
  unfold forceOff
  dsimp only
  rw [State.setPhe_phe]

/-- The colours of an engine when it enters NORMAL. -/
def restarted : PEng :=
  (List.range 32).foldl (fun x c => x.setCol c { x.col c with tx := (x.col c).tx.restart false (heatLo s n), rx := (x.col c).rx.restart true (heatLo s n) }) { s.phe n with safety := .normal }

theorem enterNormal_eq : enterNormal s n = autoSwaps (nearSettle (s.setPhe n (restarted s n)) n) n := rfl

theorem restarted_safety : (restarted s n).safety = .normal := foldl_keeps PEng.safety
  (step := fun x c => x.setCol c { x.col c with tx := (x.col c).tx.restart false (heatLo s n), rx := (x.col c).rx.restart true (heatLo s n) }) (fun _ _ => rfl) _ _

theorem enterNormal_safety : ((enterNormal s n).phe n).safety = .normal := by
  rw [enterNormal_eq, (autoSwaps_near ..).safety, nearSettle_phe, State.setPhe_phe, restarted_safety]

end

/-! ## The obligation -/

/-- Settles O50: rings by what each event leaves in its colour, the loops by the invariant that every laser stands within its fences, and the safety states by what the entry to each leaves. -/
theorem nearRings : Obligations.NearRings := by
  unfold Obligations.NearRings
  intro s n c live
  have answers {i : Instr} {t u : State} (runs : exec i s = act s t) (h : t = u) : exec i s = .next u := runs.trans (act_eq_next live h)
  have low : n.val < 8 := n.isLt
  have here : c.val < 32 := c.isLt
  refine ⟨fun rx rxDown txDown => answers rfl (ringPeakLoss_down s n c rx rxDown txDown), fun up => .of_act live rfl ?rxPeak, fun up => .of_act live rfl ?txPeak, fun dark => answers rfl (if_pos dark),
    fun lit => .of_act live rfl (rxLos_leaves s n c lit), answers rfl rfl, fun verify swapping => answers rfl (verifyTimeout_none s n c verify swapping),
    fun st => .of_act live rfl (verifyTimeout_fails s n c st), fun st => answers rfl (verifyTimeout_swapping s n c st), fun st parked => answers rfl (if_pos ⟨st, parked⟩),
    fun stays => answers rfl (if_neg ?still), fun o st => answers rfl (if_neg st), fun o st => .of_act live rfl (spareMakeTimeout_tuning s n o st), fun rx => ⟨fun unable => .of_act live rfl ?ignored, fun normal failed => .of_act live rfl (relock_starts_leaves s n c rx normal failed)⟩,
    ⟨fun unable => answers rfl ?swapIgnored, fun able => answers rfl ?swapped⟩, fun v => ⟨answers rfl rfl, fun order => answers rfl (if_pos order), fun order => answers rfl (if_neg (by omega)), fun order => answers rfl (if_pos order),
      fun order => answers rfl (if_neg (by omega))⟩, fun o off => answers rfl (if_pos off), fun o normal => .of_act live rfl ?within, fun o normal => answers rfl (controlCycle_normal s n o normal),
    fun l v => ⟨fun held => runLoop_held_leaves s n l v held, fun free => runLoop_free_leaves s n l v free⟩, fun d v free => runLoop_laserPower s n d v free, ⟨rfl, rfl⟩, ⟨rfl, rfl⟩, fun o off => .of_act live rfl ?unlit,
    fun o normal none still => .of_act live rfl ?unjudged, fun o normal none => .of_act live rfl ?judged, fun m colour serves fresh => judgeLaser_stages s n c m (congrArg Fin.val colour) serves fresh,
    fun off => answers rfl (if_neg off), fun normal => answers rfl (if_pos normal), fun pin => enterShutdown_leaves s low pin, fun dark => answers rfl (interlockHigh_already s dark),
    fun lit => .of_act live rfl ⟨interlockHigh_pin s, fun k small => interlockHigh_safety s small, interlockHigh_entry s lit⟩, fun high => answers rfl (if_pos high), fun low => answers rfl (if_neg (by rw [low]; exact Bool.false_ne_true)),
    ⟨fun free => answers rfl (if_pos ?free), fun bound => answers rfl (if_neg ?bound)⟩, fun light other => answers rfl (if_neg other), fun probes => ⟨answers rfl (if_pos probes), answers rfl (if_pos probes)⟩,
    enterNormal_safety s n, fun on => ⟨fun held lit => answers rfl ?forced, fun stays => answers rfl ?freed⟩⟩
  case rxPeak =>
    rw [ringPeakLoss_rx s n c up]
    rw [col_eq, nearSettle_phe, rxLeave_col]
    exact ⟨rfl, rfl, rfl, rxLeave_unready s low here _⟩
  case txPeak =>
    rw [ringPeakLoss_tx s n c up]
    rw [col_eq, nearSettle_phe, txLeave_col]
    exact ⟨rfl, rfl, rfl, txLeave_unready s low here _⟩
  case still =>
    rintro ⟨st, parked⟩
    rcases stays with other | moving
    · exact other st
    · exact ne_true_of_eq_false moving parked
  case ignored =>
    obtain ⟨err, col⟩ := relock_ignored_leaves s n c rx (by rintro ⟨normal, failed⟩; rcases unable with off | up; exacts [off normal, up failed])
    exact ⟨err, congrArg Colour.rx col, congrArg Colour.tx col⟩
  case swapIgnored => exact (swap_eq s n c).trans (if_neg unable)
  case swapped => exact (swap_eq s n c).trans (if_pos able)
  case within =>
    have within := controlCycle_within s n o normal
    exact fun d small => ⟨within.bias d small, within.freq d small⟩
  case unlit =>
    rw [monitorSample_eq, if_pos ((powersTaken_safety s n o).symm ▸ off)]
    exact ⟨powersTaken_rxTotal s n o, powersTaken_safety s n o, fun d _ => powersTaken_laser s n o d⟩
  case unjudged =>
    rw [monitorSample_eq, if_neg (not_not.2 ((powersTaken_safety s n o).trans normal)), none, lasersJudged_nil, autoSwaps_off _ _ ((powersTaken_autoSwap s n o).trans still)]
    refine ⟨by rw [nearSettle_phe, powersTaken_rxTotal], fun d _ => ?_⟩
    rw [nearSettle_col, (powersTaken_laser s n o d).1]
  case judged =>
    refine ⟨powersTaken s n o, powersTaken_rxTotal s n o, fun d _ => powersTaken_col s n o none d, ?_⟩
    rw [monitorSample_eq, if_neg (not_not.2 ((powersTaken_safety s n o).trans normal))]
    rfl
  case free =>
    obtain ⟨shut, pin, hold, force⟩ := free
    simp [*]
  case bound =>
    rintro ⟨shut, pin, hold, force⟩
    exact bound ⟨shut, by simpa using pin, hold, by simpa using force⟩
  case forced => exact (forceOff_eq s n on).trans (if_pos ⟨held, lit⟩)
  case freed =>
    refine (forceOff_eq s n on).trans (if_neg fun ⟨held, lit⟩ => ?_)
    rcases stays with off | ⟨dark, quiet⟩
    · exact ne_true_of_eq_false off held
    · exact lit.elim dark quiet

end Sys2Proof.Machine

/-! Near frames: alignment, discards and credits, and what a transmit colour sends, R481 to R484, R525 and R526. -/
namespace Sys2Proof.Machine

/-! ## Alignment, R482 -/

section
variable (y : Colour)

theorem Colour.hunt_short (k : Nat) (short : y.stream.length < 32) : y.hunt (k + 1) = y := if_pos short

theorem Colour.hunt_skips (k : Nat) (long : 32 ≤ y.stream.length) (miss : frameHead y.stream = false) : y.hunt (k + 1) = { y with stream := y.stream.drop 1 }.hunt k := by
  rw [Colour.hunt, if_neg (Nat.not_lt.2 long), if_pos (by rw [miss]; rfl)]

theorem Colour.hunt_waits (k : Nat) (long : 32 ≤ y.stream.length) (short : y.stream.length < 4160) (head : frameHead y.stream = true) : y.hunt (k + 1) = y := by
  rw [Colour.hunt, if_neg (Nat.not_lt.2 long), if_neg (by rw [head]; exact Bool.false_ne_true), if_pos short]

theorem Colour.hunt_aligns (k : Nat) (long : 4160 ≤ y.stream.length) (head : frameHead y.stream = true) (next : frameHead (y.stream.drop 4128) = true) :
    y.hunt (k + 1) = { y with stream := y.stream.drop 4128, aligned := true, syncBad := 0 } := by
  rw [Colour.hunt, if_neg (by omega), if_neg (by rw [head]; exact Bool.false_ne_true), if_neg (Nat.not_lt.2 long), if_pos next]

theorem Colour.hunt_false_head (k : Nat) (long : 4160 ≤ y.stream.length) (head : frameHead y.stream = true) (next : frameHead (y.stream.drop 4128) = false) :
    y.hunt (k + 1) = { y with stream := y.stream.drop 1 }.hunt k := by
  rw [Colour.hunt, if_neg (by omega), if_neg (by rw [head]; exact Bool.false_ne_true), if_neg (Nat.not_lt.2 long), if_neg (by rw [next]; exact Bool.false_ne_true)]

/-- The fourth bad SYNC in a row ends the alignment, and nothing else does. -/
theorem alignStep_lost (f : NearFrame) (aligned : y.aligned = true) : (alignStep y f).aligned = false ↔ 4 < f.syncErrors ∧ 3 ≤ y.syncBad := by
  unfold alignStep
  dsimp only
  by_cases bad : 4 < f.syncErrors
  · by_cases fourth : 3 ≤ y.syncBad
    · simp [bad, fourth]
    · simp [bad, fourth, aligned]
  · simp [bad, aligned]

end

/-! ## Frames in, R482 and R484 -/

section
variable (s : State) (n : Fin 8) (c : Fin 32)

theorem listens_iff : listens s n.val c.val = true ↔ ((s.phe n.val).safety = .normal ∧ ((s.col n.val c.val).rx.st = .verify ∨ (s.col n.val c.val).rx.st = .inService)) := by
  simp [listens]

/-- A colour as it looks for a frame. -/
def sought : Colour := if (s.col n.val c.val).aligned then s.col n.val c.val else (s.col n.val c.val).hunt ((s.col n.val c.val).stream.length + 1)

/-- The colour once a frame has been taken from its octets. -/
def beyondFrame : Colour := { sought s n c with stream := (sought s n c).stream.drop 4128 }

theorem nearReceive_deaf (deaf : listens s n.val c.val = false) : nearReceive s n c = s := if_pos (by rw [deaf]; rfl)

theorem nearReceive_waits (hears : listens s n.val c.val = true) (short : (sought s n c).aligned = false ∨ (sought s n c).stream.length < 4128) :
    nearReceive s n c = s.setCol n.val c.val (sought s n c) := by
  unfold nearReceive
  rw [if_neg (by rw [hears]; exact Bool.false_ne_true)]
  refine if_neg fun ⟨aligned, long⟩ => ?_
  rcases short with lost | short
  · exact ne_true_of_eq_false lost aligned
  · exact absurd short (Nat.not_lt.2 long)

theorem nearReceive_frame (hears : listens s n.val c.val = true) (aligned : (sought s n c).aligned = true) (long : 4128 ≤ (sought s n c).stream.length) :
    nearReceive s n c = nearFrame (s.setCol n.val c.val (beyondFrame s n c)) n c (readNear ((sought s n c).stream.take 4128)) := by
  unfold nearReceive
  rw [if_neg (by rw [hears]; exact Bool.false_ne_true)]
  exact if_pos ⟨aligned, long⟩

theorem setCol_col_same (y : Colour) : (s.setCol n.val c.val y).col n.val c.val = y := by
  rw [col_eq, setCol_phe, PEng.setCol_col]

theorem nearFrame_lost (y : Colour) (f : NearFrame) (lost : (alignStep y f).aligned = false) :
    nearFrame (s.setCol n.val c.val y) n c f = (s.setCol n.val c.val y).setCol n.val c.val (alignStep y f) := by
  unfold nearFrame
  rw [setCol_col_same]
  exact if_pos (by rw [lost]; rfl)

theorem nearFrame_read (y : Colour) (f : NearFrame) (aligned : (alignStep y f).aligned = true) :
    nearFrame (s.setCol n.val c.val y) n c f
      = nearSettle (judgeRuns (takeFrame ((s.setCol n.val c.val y).setCol n.val c.val (noteFrame (alignStep y f) (cidOf n.val c.val) f)) n c f) n.val c.val) n.val := by
  unfold nearFrame
  rw [setCol_col_same]
  exact if_neg (by rw [aligned]; exact Bool.false_ne_true)

/-- The frame at the front of a colour's octets. -/
def frontFrame : NearFrame := readNear ((sought s n c).stream.take 4128)

theorem nearReceive_loses (hears : listens s n.val c.val = true) (aligned : (sought s n c).aligned = true) (long : 4128 ≤ (sought s n c).stream.length)
    (lost : (alignStep (beyondFrame s n c) (frontFrame s n c)).aligned = false) :
    (nearReceive s n c).col n.val c.val = alignStep (beyondFrame s n c) (frontFrame s n c) ∧ (nearReceive s n c).engines = s.engines ∧ (nearReceive s n c).sch = s.sch := by
  rw [nearReceive_frame s n c hears aligned long, ← frontFrame, nearFrame_lost s n c _ _ lost, setCol_col_same]
  exact ⟨rfl, rfl, rfl⟩

theorem nearReceive_reads (hears : listens s n.val c.val = true) (aligned : (sought s n c).aligned = true) (long : 4128 ≤ (sought s n c).stream.length)
    (kept : (alignStep (beyondFrame s n c) (frontFrame s n c)).aligned = true) :
    ∃ u, u.col n.val c.val = noteFrame (alignStep (beyondFrame s n c) (frontFrame s n c)) (cidOf n.val c.val) (frontFrame s n c) ∧ u.engines = s.engines
      ∧ nearReceive s n c = nearSettle (judgeRuns (takeFrame u n c (frontFrame s n c)) n.val c.val) n.val :=
  ⟨_, setCol_col_same (s.setCol n.val c.val (beyondFrame s n c)) n c _, rfl, by
    rw [nearReceive_frame s n c hears aligned long, ← frontFrame, nearFrame_read s n c _ _ kept]⟩

/-- What no event of an engine touches: its words, a colour and Torrow's engines. -/
def besideEvents (n c : Nat) (s : State) : PEng × Colour × Tab Engine := ((s.phe n).words, (s.phe n).col c, s.engines)

theorem phnErr_besideEvents (m d i : Nat) (rx : Bool) : besideEvents n.val d (phnErr s n.val i m rx) = besideEvents n.val d s := by
  rw [besideEvents, phnErr_phe]
  rfl

/-- What a discard leaves: one more in PHN_DISCARDS, and no tile and no credit. -/
theorem nearDiscard_leaves (also : List Nat) :
    ((nearDiscard s n.val c.val also).phe n.val).discards = bump (s.phe n.val).discards 1 ∧ (nearDiscard s n.val c.val also).engines = s.engines
      ∧ ((nearDiscard s n.val c.val also).col n.val c.val).credits = (s.col n.val c.val).credits := by
  let counted := s.setPhe n.val { s.phe n.val with discards := bump (s.phe n.val).discards 1 }
  have same : besideEvents n.val c.val (nearDiscard s n.val c.val also) = besideEvents n.val c.val counted :=
    (foldl_keeps (besideEvents n.val c.val) (step := fun s i => phnErr s n.val i c.val true) (fun s i => phnErr_besideEvents s n c.val c.val i true) also _).trans (phnErr_besideEvents ..)
  have here : counted.phe n.val = { s.phe n.val with discards := bump (s.phe n.val).discards 1 } := State.setPhe_phe ..
  rw [besideEvents, besideEvents, here] at same
  obtain ⟨words, rest⟩ := Prod.ext_iff.1 same
  obtain ⟨col, engines⟩ := Prod.ext_iff.1 rest
  exact ⟨(congrArg PEng.discards words :), engines, congrArg Colour.credits col⟩

/-- The colour with the credits of a frame. -/
def credited (f : NearFrame) : State := s.setCol n.val c.val { s.col n.val c.val with credits := BitVec.ofNat 16 (min 0xFFFF ((s.col n.val c.val).credits.toNat + f.crCount.toNat)) }

/-- The reasons for which a frame is discarded, R482 and R484. -/
def Unfit (f : NearFrame) : Prop :=
  f.hcrcOk = false ∨ 1 < f.kind.toNat ∨ f.cid ≠ cidOf n.val c.val ∨ (f.kind = 1 ∧ (hasBudget s 0x01 (8 * bitsOf f.dest.toNat 8 3 + bitsOf f.dest.toNat 2 0) = false ∨ iqRoom s (bitsOf f.dest.toNat 8 3) (bitsOf f.dest.toNat 2 0) = false))

theorem takeFrame_unfit (f : NearFrame) (unfit : Unfit s n c f) : ∃ also, takeFrame s n c f = nearDiscard s n.val c.val also := by
  unfold takeFrame
  dsimp only
  split_ifs with head cid budget room tile
  · exact ⟨_, rfl⟩
  · exact ⟨_, rfl⟩
  · exact ⟨_, rfl⟩
  · exact ⟨_, rfl⟩
  all_goals
    exfalso
    simp only [Bool.or_eq_true, Bool.not_eq_true', decide_eq_true_eq, not_or, not_and, Bool.not_eq_false] at head cid budget room
    rcases unfit with h | h | h | ⟨kind, h | h⟩
    · exact ne_true_of_eq_false h head.1
    · exact head.2 h
    · exact cid h
    · exact ne_true_of_eq_false h (budget kind)
    · exact ne_true_of_eq_false h (room kind)

theorem takeFrame_fit (f : NearFrame) (fit : ¬ Unfit s n c f) : takeFrame s n c f
    = if f.kind = 1 then pump (iqInsert (spendHeld (credited s n c f) (creditKey n.val c.val (8 * bitsOf f.dest.toNat 8 3 + bitsOf f.dest.toNat 2 0))) (bitsOf f.dest.toNat 8 3) (bitsOf f.dest.toNat 2 0)
      ⟨f.fmt, f.tcrc, f.tileNo, padTo 0 4096 f.payload, some (n, c), none⟩) else credited s n c f := by
  unfold takeFrame
  dsimp only
  rw [if_neg, if_neg, if_neg, if_neg]
  · rfl
  · exact fun ⟨kind, room⟩ => fit (.inr (.inr (.inr ⟨kind, .inr (by simpa using room)⟩)))
  · exact fun ⟨kind, budget⟩ => fit (.inr (.inr (.inr ⟨kind, .inl (by simpa using budget)⟩)))
  · exact fun cid => fit (.inr (.inr (.inl cid)))
  · intro head
    rcases Bool.or_eq_true .. ▸ head with h | h
    · exact fit (.inl (by simpa using h))
    · exact fit (.inr (.inl (by simpa using h)))

end

/-! ## Frames out, R481 to R485 and R526 -/

section
variable (s : State) (n c : Nat)

theorem nearTxFrame_dark (dark : (s.phe n).safety ≠ .normal) : nearTxFrame s n c = s := if_pos dark

/-- A colour that shows light on its fibre. -/
def shines : Prop := (s.col n c).tx.st = .verify ∨ (s.col n c).tx.st = .inService ∨ (s.col n c).tx.st = .swapping

/-- An IDLE frame without a credit return. -/
def idleFrame : List Byte := nearFrameBytes n c (s.col n c).lastCid 0 0 0 0 0 0 0 []

variable {s n c}

theorem lit_iff : (decide ((s.col n c).tx.st = .verify) || decide ((s.col n c).tx.st = .inService) || decide ((s.col n c).tx.st = .swapping)) = true ↔ shines s n c := by
  simp [shines, or_assoc]

theorem nearTxFrame_idle (normal : (s.phe n).safety = .normal) (stays : mayMove s n c = false) (empty : sendable s n c = none) (still : nextReturn s n c = none) : nearTxFrame s n c
    = if decide ((s.col n c).tx.st = .verify) || decide ((s.col n c).tx.st = .inService) || decide ((s.col n c).tx.st = .swapping) then sendNear s n c (idleFrame s n c) else s := by
  unfold nearTxFrame
  rw [if_neg (not_not.2 normal), stays]
  simp [still, empty, idleFrame]

theorem nearTxFrame_tile {q k : Nat} {fmt : BitVec 4} {crc stp : BitVec 32} {no : BitVec 16} {data : List Byte} (normal : (s.phe n).safety = .normal) (stays : mayMove s n c = false) (still : nextReturn s n c = none)
    (endpoint : s.se.role ≠ 2) (tile : sendable s n c = some (q, k, .tile fmt crc no stp data)) : nearTxFrame s n c
    = if decide ((s.col n c).tx.st = .verify) || decide ((s.col n c).tx.st = .inService) || decide ((s.col n c).tx.st = .swapping) then
        sendNear (markSent s n c q k) n c (nearFrameBytes n c (s.col n c).lastCid 1 0 0 fmt no crc stp data) else markSent s n c q k := by
  have plain : (if s.se.role = 2#2 then nearFrameBytes n c (s.col n c).lastCid 0 0 0 0#4 0#16 0#32 0#32 [] else nearFrameBytes n c (s.col n c).lastCid 1 0 0 fmt no crc stp data)
      = nearFrameBytes n c (s.col n c).lastCid 1 0 0 fmt no crc stp data := if_neg endpoint
  unfold nearTxFrame
  rw [if_neg (not_not.2 normal), stays]
  simp [still, tile, plain]

/-- A tile is sent in service and on a credit alone, R484 and R526. -/
theorem sendable_serves {q k : Nat} {i : QItem} (endpoint : s.se.role ≠ 2) (found : sendable s n c = some (q, k, i)) : (s.col n c).tx.st = .inService ∧ (s.col n c).credits ≠ 0 := by
  unfold sendable at found
  dsimp only at found
  split at found
  · exact nomatch found
  · split at found
    · exact nomatch found
    · split at found
      next able =>
        rcases able with shadow | ⟨st, credits, -⟩
        · exact absurd shadow endpoint
        · exact ⟨st, credits⟩
      · exact nomatch found

end

/-! ## The obligation -/

/-- Settles O49: the hunt by its five cases, a frame by what alignment makes of it, its content by whether it is fit, and a frame boundary by what the colour may send. -/
theorem nearFrames : Obligations.NearFrames := by
  unfold Obligations.NearFrames
  intro s n c live
  have answers {i : Instr} {t u : State} (runs : exec i s = act s t) (h : t = u) : exec i s = .next u := runs.trans (act_eq_next live h)
  refine ⟨fun deaf => answers rfl (nearReceive_deaf s n c deaf), listens_iff s n c, ⟨Colour.hunt_short _ _, Colour.hunt_skips _ _, Colour.hunt_waits _ _, Colour.hunt_aligns _ _, Colour.hunt_false_head _ _⟩,
    fun hears => ⟨fun short => answers rfl (nearReceive_waits s n c hears short), fun aligned long lost => .of_act live rfl ?lost, fun aligned long kept => .of_act live rfl ?read, fun aligned => alignStep_lost _ _ aligned⟩,
    fun f => ⟨fun unfit => ?discarded, fun fit idle => ?credits, fun fit tile => (takeFrame_fit s n c f fit).trans (if_pos tile)⟩, fun dark => answers rfl (nearTxFrame_dark s n c dark),
    fun normal stays empty still => ⟨fun lit => answers rfl ((nearTxFrame_idle normal stays empty still).trans (if_pos (lit_iff.2 lit))), fun verify service swapping => answers rfl ((nearTxFrame_idle normal stays empty still).trans (if_neg ?unlit))⟩,
    fun q k fmt crc no stp data normal stays still endpoint tile => ?sent⟩
  case lost => exact nearReceive_loses s n c hears aligned long lost
  case read => exact nearReceive_reads s n c hears aligned long kept
  case discarded =>
    obtain ⟨also, discard⟩ := takeFrame_unfit s n c f unfit
    rw [discard]
    exact nearDiscard_leaves s n c also
  case credits => exact (takeFrame_fit s n c f fit).trans (if_neg (by rw [idle]; decide))
  case unlit => exact fun lit => (lit_iff.1 lit).elim verify (Or.elim · service swapping)
  case sent =>
    have serves := sendable_serves endpoint tile
    exact ⟨serves.1, serves.2, answers rfl ((nearTxFrame_tile normal stays still endpoint tile).trans (if_pos (lit_iff.2 (.inr (.inl serves.1)))))⟩

end Sys2Proof.Machine

/-! The line side, chapter 11: codewords of far and near lanes, requests for resend, settings and lane moves. -/
namespace Sys2Proof.Machine

/-! ## Codewords, R404 to R406 -/

section
variable (x : MLane) (w : Codeword)

/-- Three markers in a row, their CWN in order, lock a lane. -/
theorem MLane.search_locks (run : 2 ≤ x.good) (next : w.cwn = x.lastCwn + 1) (exact_ : w.patternErrors = 0) :
    x.search w = { x with good := 0, lastCwn := w.cwn, locked := true, badMarks := 0, badWords := 0 } := by
  unfold MLane.search
  have third : 3 ≤ (if x.good = 0 ∨ w.cwn ≠ x.lastCwn + 1 then 1 else x.good + 1) := by
    rw [if_neg (by rintro (none | other); exacts [by omega, other next])]
    omega
  rw [if_neg (not_not.2 exact_)]
  exact if_pos third

/-- What a corrected codeword leaves in its lane. -/
theorem MLane.decode_corrected {k : Fin 16} (corrected : w.corrected = some k) (mark : w.patternErrors ≤ 2) :
    (x.decode w).locked = true ∧ (x.decode w).corrSym = bump x.corrSym k.val ∧ (x.decode w).badWords = 0 ∧ (x.decode w).badMarks = 0 := by
  unfold MLane.decode
  rw [corrected, if_neg (by omega)]
  dsimp only
  split_ifs <;> exact ⟨rfl, rfl, rfl, rfl⟩

/-- What an uncorrectable codeword leaves in its lane. -/
theorem MLane.decode_uncorrectable (uncorrectable : w.corrected = none) :
    (x.decode w).locked = (decide ((if 2 < w.patternErrors then x.badMarks + 1 else 0) < 4) && decide (x.badWords + 1 < 8)) ∧ (x.decode w).uncorrCw = bump x.uncorrCw 1 ∧ (x.decode w).badWords = x.badWords + 1 := by
  unfold MLane.decode
  rw [uncorrectable]
  exact ⟨rfl, rfl, rfl⟩

theorem MLane.decode_loaCount : (x.decode w).loaCount = x.loaCount := by
  unfold MLane.decode
  cases w.corrected with
  | none => rfl
  | some k => dsimp only; split_ifs <;> rfl

/-- Eight uncorrectable codewords or four bad markers in a row lose a lane. -/
theorem MLane.decode_loses (bad : (w.corrected = none ∧ 7 ≤ x.badWords) ∨ (2 < w.patternErrors ∧ 3 ≤ x.badMarks)) : (x.decode w).locked = false := by
  rcases bad with ⟨uncorrectable, eighth⟩ | ⟨mark, fourth⟩
  · rw [(MLane.decode_uncorrectable x w uncorrectable).1, decide_eq_false (p := x.badWords + 1 < 8) (by omega), Bool.and_false]
  · unfold MLane.decode
    dsimp only
    rw [if_pos mark, decide_eq_false (p := x.badMarks + 1 < 4) (by omega)]
    cases w.corrected with
    | none => rfl
    | some k => dsimp only; split_ifs <;> rfl

end

/-! ## Far lanes -/

section
variable (s : State) (g : Nat)

theorem settleLane_lineOnly (old : State) : LineOnly s (settleLane old s g) := by
  unfold settleLane
  split
  · exact settle_lineOnly ..
  · exact .refl s

theorem LineOnly.mnd {s t : State} (h : LineOnly s t) : t.mnd = s.mnd := by
  obtain ⟨_, _, _, _, rfl⟩ := h
  rfl

theorem clearDefect_mnd (code : Nat) (x : RLane) : (clearDefect s g code x).mnd = s.mnd := by
  obtain ⟨t, ⟨_, rfl⟩, withdrawn⟩ := withdrawDefect_frame s g code x
  exact (settleLane_lineOnly ..).mnd.trans (congrArg State.mnd withdrawn :)

theorem raiseDefect_mnd (code : Nat) (x : RLane) : (raiseDefect s g code x).mnd = s.mnd := by
  obtain ⟨t, y, ⟨_, _, rfl⟩, -, declared⟩ := declareDefect_frame s g code x
  exact (settleLane_lineOnly ..).mnd.trans (congrArg State.mnd declared :)

theorem loaClear_mnd : (loaClear s g).mnd = s.mnd := by
  unfold loaClear
  dsimp only
  split
  · exact clearDefect_mnd ..
  · rfl

theorem loaDeclare_mnd : (loaDeclare s g).mnd = s.mnd := by
  unfold loaDeclare
  dsimp only
  split
  · rfl
  · exact raiseDefect_mnd ..

theorem RLane.loa_clear {x : RLane} (clear : x.loa = false) : { x with loa := false } = x := by
  cases x
  cases clear
  rfl

/-- A lane whose LOA is clear, but for what a judgement touches. -/
theorem loaClear_lane : ((loaClear s g).lane g).unjudged = { s.lane g with loa := false }.unjudged := by
  unfold loaClear
  dsimp only
  split
  · exact clearDefect_lane ..
  next clear => rw [RLane.loa_clear (eq_false_of_ne_true clear)]

theorem loaDeclare_loa : ((loaDeclare s g).lane g).loa = true := by
  unfold loaDeclare
  dsimp only
  split
  next down => exact down
  · exact (congrArg RLane.loa (raiseDefect_lane s g 2 { (s.lane g).cut with loa := true }) :)

theorem bondOfLane_congr {s t : State} (same : ∀ b, (t.bond b).en = (s.bond b).en ∧ (t.bond b).ports = (s.bond b).ports) (g : Nat) : bondOfLane t g = bondOfLane s g := by
  unfold bondOfLane
  exact congrArg (List.find? · _) (funext fun b => by rw [(same b).1, (same b).2])

theorem loaClear_bondOfLane : bondOfLane (loaClear s g) g = bondOfLane s g := by
  refine bondOfLane_congr (fun b => ?_) g
  have kept : ((loaClear s g).bond b).unjudged = (s.bond b).unjudged := by
    unfold loaClear
    dsimp only
    split
    · exact ((settleLane_judged ..).bond b).trans (congrArg Bond.unjudged (withdrawDefect_bond ..))
    · rfl
  exact ⟨(congrArg Bond.en kept :), (congrArg Bond.ports kept :)⟩

/-- A lane takes codewords: it is not RETIRED, it has light, and an enabled bond has it. -/
def Takes : Prop := (s.lane g).retired = false ∧ (s.lane g).los = false ∧ (bondOfLane s g).isSome = true

variable (w : Codeword)

theorem deliverWord_mnd : (deliverWord s g w).mnd = s.mnd := by
  unfold deliverWord
  dsimp only
  split
  · rfl
  · rfl

theorem deliverWord_loa : ((deliverWord s g w).lane g).loa = (s.lane g).loa := by
  unfold deliverWord
  dsimp only
  split
  · rfl
  · rw [State.setLane_lane]
    rfl

theorem deliverWord_takes (takes : Takes s g) : deliverWord s g w = s.setLane g ((s.lane g).gain w) := by
  obtain ⟨works, lit, bonded⟩ := takes
  refine if_neg ?_
  rw [works, lit, ← Option.not_isSome, bonded]
  exact Bool.false_ne_true

theorem deliverWord_stream (takes : Takes s g) : ((deliverWord s g w).lane g).stream = (s.lane g).stream ++ w.octets := by
  rw [deliverWord_takes s g w takes, State.setLane_lane]
  rfl

theorem deliverWord_flags (takes : Takes s g) (uncorrectable : w.corrected = none) : ((s.lane g).stream.length, w.octets.length) ∈ ((deliverWord s g w).lane g).flags := by
  rw [deliverWord_takes s g w takes, State.setLane_lane, RLane.gain, uncorrectable]
  exact List.mem_append_right _ (List.mem_singleton.2 rfl)

theorem mlane_of_mnd {s t : State} (h : t.mnd = s.mnd) (g : Nat) : t.mlane g = s.mlane g := by rw [State.mlane, h, State.mlane]

end

section
variable (s : State) (g : Nat) (levels : List (BitVec 2))

/-- The codeword on a lane's pins. -/
def farWord : Codeword := (s.mlane g).word levels

/-- The lane with the levels on its pins heard. -/
def farHeard : MLane := (s.mlane g).heard levels

theorem farCodeword_searching (out : (farHeard s g levels).locked = false) (still : ((farHeard s g levels).search (farWord s g levels)).locked = false) :
    farCodeword s g levels = s.setMlane g ((farHeard s g levels).search (farWord s g levels)) := by
  unfold farCodeword
  exact (if_neg (ne_true_of_eq_false out)).trans (if_neg (ne_true_of_eq_false still))

theorem farCodeword_locks (out : (farHeard s g levels).locked = false) (found : ((farHeard s g levels).search (farWord s g levels)).locked = true) :
    farCodeword s g levels = deliverWord (loaClear (s.setMlane g (((farHeard s g levels).search (farWord s g levels)).decode (farWord s g levels))) g) g (farWord s g levels) := by
  unfold farCodeword
  exact (if_neg (ne_true_of_eq_false out)).trans (if_pos found)

theorem farCodeword_keeps (inLock : (farHeard s g levels).locked = true) (stays : ((farHeard s g levels).decode (farWord s g levels)).locked = true) :
    farCodeword s g levels = deliverWord (s.setMlane g ((farHeard s g levels).decode (farWord s g levels))) g (farWord s g levels) := by
  unfold farCodeword
  exact (if_pos inLock).trans (if_pos stays)

theorem farCodeword_loses (inLock : (farHeard s g levels).locked = true) (lost : ((farHeard s g levels).decode (farWord s g levels)).locked = false) :
    farCodeword s g levels = loaDeclare (s.setMlane g { (farHeard s g levels).decode (farWord s g levels) with loaCount := bump ((farHeard s g levels).decode (farWord s g levels)).loaCount 1, err := setErr ((farHeard s g levels).decode (farWord s g levels)).err 0, good := 0 }) g := by
  unfold farCodeword
  exact (if_pos inLock).trans (if_neg (ne_true_of_eq_false lost))

/-- What the third marker in a row leaves. -/
theorem farCodeword_locks_leaves (out : (farHeard s g levels).locked = false) (run : 2 ≤ (farHeard s g levels).good) (next : (farWord s g levels).cwn = (farHeard s g levels).lastCwn + 1)
    (exact_ : (farWord s g levels).patternErrors = 0) :
    ((farCodeword s g levels).mlane g).locked = true ∧ ((farCodeword s g levels).lane g).loa = false
      ∧ (Takes s g → ((farCodeword s g levels).lane g).stream = (s.lane g).stream ++ (farWord s g levels).octets) := by
  have search := MLane.search_locks _ _ run next exact_
  have locked : (((farHeard s g levels).search (farWord s g levels)).decode (farWord s g levels)).locked = true := by
    rw [search]
    cases corrected : (farWord s g levels).corrected with
    | none =>
      rw [(MLane.decode_uncorrectable _ _ corrected).1, exact_]
      rfl
    | some k => exact (MLane.decode_corrected _ _ corrected (by omega)).1
  rw [farCodeword_locks s g levels out (by rw [search])]
  generalize (((farHeard s g levels).search (farWord s g levels)).decode (farWord s g levels)) = z at locked ⊢
  have lane := loaClear_lane (s.setMlane g z) g
  refine ⟨?_, ?_, fun takes => ?_⟩
  · rw [mlane_of_mnd ((deliverWord_mnd ..).trans (loaClear_mnd ..)), State.setMlane_mlane, locked]
  · rw [deliverWord_loa]
    exact (congrArg RLane.loa lane :)
  · obtain ⟨works, lit, bonded⟩ := takes
    rw [deliverWord_stream _ _ _ ⟨(congrArg RLane.retired lane :).trans works, (congrArg RLane.los lane :).trans lit, by rw [loaClear_bondOfLane]; exact bonded⟩]
    exact congrArg (· ++ _) (congrArg RLane.stream lane :)

/-- What an uncorrectable codeword leaves of a lane that stays LOCKED. -/
theorem farCodeword_uncorrectable (inLock : (farHeard s g levels).locked = true) (uncorrectable : (farWord s g levels).corrected = none) (few : (farHeard s g levels).badWords < 7) (mark : (farWord s g levels).patternErrors ≤ 2) :
    ((farCodeword s g levels).mlane g).locked = true ∧ ((farCodeword s g levels).mlane g).uncorrCw = bump (farHeard s g levels).uncorrCw 1 ∧ ((farCodeword s g levels).mlane g).badWords = (farHeard s g levels).badWords + 1
      ∧ (Takes s g → ((farCodeword s g levels).lane g).stream = (s.lane g).stream ++ (farWord s g levels).octets ∧ ((s.lane g).stream.length, (farWord s g levels).octets.length) ∈ ((farCodeword s g levels).lane g).flags) := by
  obtain ⟨lock, uncorr, words⟩ := MLane.decode_uncorrectable (farHeard s g levels) (farWord s g levels) uncorrectable
  have stays : ((farHeard s g levels).decode (farWord s g levels)).locked = true := by
    rw [lock, if_neg (by omega), decide_eq_true (p := (farHeard s g levels).badWords + 1 < 8) (by omega)]
    rfl
  rw [farCodeword_keeps s g levels inLock stays, mlane_of_mnd (deliverWord_mnd ..), State.setMlane_mlane]
  exact ⟨stays, uncorr, words, fun takes => ⟨deliverWord_stream _ g _ takes, deliverWord_flags _ g _ takes uncorrectable⟩⟩

/-- What the loss of a lane leaves. -/
theorem farCodeword_loses_leaves (inLock : (farHeard s g levels).locked = true)
    (bad : ((farWord s g levels).corrected = none ∧ 7 ≤ (farHeard s g levels).badWords) ∨ (2 < (farWord s g levels).patternErrors ∧ 3 ≤ (farHeard s g levels).badMarks)) :
    ((farCodeword s g levels).mlane g).locked = false ∧ ((farCodeword s g levels).mlane g).loaCount = bump (farHeard s g levels).loaCount 1 ∧ ((farCodeword s g levels).lane g).loa = true := by
  have lost := MLane.decode_loses _ _ bad
  rw [farCodeword_loses s g levels inLock lost, mlane_of_mnd (loaDeclare_mnd ..), State.setMlane_mlane, MLane.decode_loaCount]
  exact ⟨lost, rfl, loaDeclare_loa ..⟩

end

end Sys2Proof.Machine

/-! Chapter 11: near codewords, requests for resend, lane moves and the settings of the stripe code. -/
namespace Sys2Proof.Machine

/-! ## Near codewords, R480 -/

section
variable (s : State) (n c : Nat) (levels : List (BitVec 2))

/-- The codeword on a near lane's pins. -/
def nearWord : Codeword := (s.col n c).lane.word levels

/-- The near lane with the levels on its pins heard. -/
def nearHeard : MLane := (s.col n c).lane.heard levels

/-- The octets of a colour once a codeword has joined them, if its ring is locked. -/
def nearOctets : List Byte := if listens s n c then (s.col n c).stream ++ (nearWord s n c levels).octets else (s.col n c).stream

theorem gain_eq (y : Colour) (on : Bool) (w : Codeword) : y.gain on w = { y with stream := if on then y.stream ++ w.octets else y.stream } := by
  cases on with
  | false => rfl
  | true => rfl

theorem nearCodeword_keeps (inLock : (nearHeard s n c levels).locked = true) (stays : ((nearHeard s n c levels).decode (nearWord s n c levels)).locked = true) :
    nearCodeword s n c levels = s.setCol n c { s.col n c with lane := (nearHeard s n c levels).decode (nearWord s n c levels), stream := nearOctets s n c levels } := by
  unfold nearCodeword
  exact (if_pos inLock).trans ((if_pos stays).trans (congrArg (s.setCol n c) (gain_eq ..)))

theorem nearCodeword_locks (out : (nearHeard s n c levels).locked = false) (found : ((nearHeard s n c levels).search (nearWord s n c levels)).locked = true) :
    nearCodeword s n c levels = s.setCol n c { s.col n c with lane := ((nearHeard s n c levels).search (nearWord s n c levels)).decode (nearWord s n c levels), loa := false, stream := nearOctets s n c levels } := by
  unfold nearCodeword
  exact (if_neg (ne_true_of_eq_false out)).trans ((if_pos found).trans (congrArg (s.setCol n c) (gain_eq ..)))

theorem nearCodeword_searching (out : (nearHeard s n c levels).locked = false) (still : ((nearHeard s n c levels).search (nearWord s n c levels)).locked = false) :
    nearCodeword s n c levels = s.setCol n c { s.col n c with lane := (nearHeard s n c levels).search (nearWord s n c levels) } := by
  unfold nearCodeword
  exact (if_neg (ne_true_of_eq_false out)).trans (if_neg (ne_true_of_eq_false still))

/-- A near lane that has lost its codewords. -/
def laneLost (z : MLane) : MLane := { z with loaCount := bump z.loaCount 1, err := setErr z.err 0, good := 0 }

theorem nearCodeword_loses (inLock : (nearHeard s n c levels).locked = true) (lost : ((nearHeard s n c levels).decode (nearWord s n c levels)).locked = false) :
    nearCodeword s n c levels = if (s.col n c).rx.st = .inService then
      nearSettle (rxLeave (s.setCol n c { (s.col n c).deaf with lane := laneLost ((nearHeard s n c levels).decode (nearWord s n c levels)), loa := true }) n c
        ((s.col n c).rx.sweepFrom (heatLo (s.setCol n c { (s.col n c).deaf with lane := laneLost ((nearHeard s n c levels).decode (nearWord s n c levels)), loa := true }) n))) n
      else s.setCol n c { (s.col n c).deaf with lane := laneLost ((nearHeard s n c levels).decode (nearWord s n c levels)), loa := true } := by
  unfold nearCodeword
  exact (if_pos inLock).trans (if_neg (ne_true_of_eq_false lost))

theorem nearCodeword_loses_leaves (inLock : (nearHeard s n c levels).locked = true) (lost : ((nearHeard s n c levels).decode (nearWord s n c levels)).locked = false) :
    ((nearCodeword s n c levels).col n c).loa = true ∧ ((nearCodeword s n c levels).col n c).lane.locked = false ∧ ((nearCodeword s n c levels).col n c).rx.st ≠ .inService := by
  rw [nearCodeword_loses s n c levels inLock lost]
  generalize ((nearHeard s n c levels).decode (nearWord s n c levels)) = z at lost
  split
  next up =>
    rw [nearSettle_col, col_eq, rxLeave_col, setCol_phe, PEng.setCol_col]
    exact ⟨rfl, lost, nofun⟩
  next down =>
    rw [col_eq, setCol_phe, PEng.setCol_col]
    exact ⟨rfl, lost, down⟩

end

/-! ## Requests for resend, R423 and R424 -/

section
variable (s : State) (b : Nat) (q : BitVec 48)

theorem resendTimeout_unknown (known : (s.mbond b).missing.find? (fun m => decide (m.seq = q)) = none) : resendTimeout s b q = s := by
  unfold resendTimeout
  dsimp only
  rw [known]

variable {q} {m : Missing} (known : (s.mbond b).missing.find? (fun m => decide (m.seq = q)) = some m)
include known

theorem resendTimeout_fresh (fresh : m.since = none) : resendTimeout s b q = s := by
  unfold resendTimeout
  dsimp only
  rw [known]
  exact if_pos (by rw [fresh]; rfl)

theorem resendTimeout_givesUp (carried : m.since ≠ none) (spent : max 1 (s.mbond b).retries.toNat ≤ m.tries) : resendTimeout s b q = s.setMbond b ((s.mbond b).giveUp q) := by
  unfold resendTimeout
  dsimp only
  rw [known]
  exact (if_neg fun none => carried (Option.isNone_iff_eq_none.1 none)).trans (if_pos spent)

theorem resendTimeout_asks (carried : m.since ≠ none) (left : m.tries < max 1 (s.mbond b).retries.toNat) : resendTimeout s b q = s.setMbond b (MBond.ask 1 q.toNat 1 (s.mbond b)) := by
  unfold resendTimeout
  dsimp only
  rw [known]
  exact (if_neg fun none => carried (Option.isNone_iff_eq_none.1 none)).trans (if_neg (Nat.not_le.2 left))

omit known in
/-- One more request for one SEQ. -/
theorem ask_one (x : MBond) : MBond.ask 1 q.toNat 1 x =
    { x with nextTag := x.nextTag + 1, req := bump x.req 1, requests := x.requests ++ [⟨BitVec.ofNat 48 q.toNat, 1, x.nextTag, 4⟩], missing := x.missing.filter (fun m => !([BitVec.ofNat 48 q.toNat] : List (BitVec 48)).contains m.seq)
      ++ [{ seq := BitVec.ofNat 48 q.toNat, tries := (match x.missing.find? fun m => m.seq = BitVec.ofNat 48 q.toNat with | some m => m.tries | none => 0) + 1, tag := x.nextTag }] } := rfl

theorem resendTimeout_asks_leaves (carried : m.since ≠ none) (left : m.tries < max 1 (s.mbond b).retries.toNat) :
    ((resendTimeout s b q).mbond b).requests = (s.mbond b).requests ++ [⟨BitVec.ofNat 48 q.toNat, 1, (s.mbond b).nextTag, 4⟩] ∧ ((resendTimeout s b q).mbond b).req = bump (s.mbond b).req 1
      ∧ ∃ n ∈ ((resendTimeout s b q).mbond b).missing, n.seq = q ∧ n.tries = m.tries + 1 ∧ n.since = none := by
  rw [resendTimeout_asks s b known carried left, State.setMbond_mbond, ask_one, BitVec.ofNat_toNat, BitVec.setWidth_eq]
  refine ⟨rfl, rfl, _, List.mem_append_right _ (List.mem_singleton.2 rfl), rfl, ?_, rfl⟩
  dsimp only
  rw [known]

end

/-! ## Lane moves, R428 and R429 -/

section
variable (s : State) (b pos : Nat)

/-- The lanes and bonds that a move looks at, which the fields of MND_CTRL leave alone. -/
theorem moveStart_fields (action act : Nat) (fm : Option (MboxRec × BitVec 64)) : moveStart (moveFields s act b pos) action b pos fm =
    if s.mnd.move.isSome then moveResult (moveFields s act b pos) 3
    else if !(s.bond b).en || decide ((bondLanes s b).length ≤ pos) || decide (1 < action) then moveResult (moveFields s act b pos) 2
    else if action = 0 then
      if (s.mbond b).eLast + 1 ≤ parityLanes (s.mbond b) then { moveFields s act b pos with mnd := { (moveFields s act b pos).mnd with move := some ⟨b, pos, false, fm⟩ } } else moveResult (moveFields s act b pos) 1
    else
      let u := (moveFields s act b pos).setMbond b { s.mbond b with moved := if (s.mbond b).moved.contains pos then (s.mbond b).moved else (s.mbond b).moved ++ [pos] }
      { u with mnd := { u.mnd with move := some ⟨b, pos, true, none⟩ } } := rfl

/-- A move that no bond can make. -/
def NoMove : Prop := (s.bond b).en = false ∨ (bondLanes s b).length ≤ pos

theorem noMove_iff (action : Nat) (low : action ≤ 1) : (!(s.bond b).en || decide ((bondLanes s b).length ≤ pos) || decide (1 < action)) = true ↔ NoMove s b pos := by
  simp [NoMove, Nat.not_lt.2 low]

variable {s b pos}

theorem moveStart_busy (act : Nat) (fm : Option (MboxRec × BitVec 64)) (busy : s.mnd.move.isSome = true) : moveStart (moveFields s act b pos) act b pos fm = moveResult (moveFields s act b pos) 3 :=
  (moveStart_fields ..).trans (if_pos busy)

theorem moveStart_bad {act : Nat} (low : act ≤ 1) (fm : Option (MboxRec × BitVec 64)) (free : s.mnd.move = none) (bad : NoMove s b pos) : moveStart (moveFields s act b pos) act b pos fm = moveResult (moveFields s act b pos) 2 :=
  (moveStart_fields ..).trans ((if_neg (by rw [free]; exact Bool.false_ne_true)).trans (if_pos ((noMove_iff s b pos act low).2 bad)))

theorem moveStart_retires (free : s.mnd.move = none) (good : ¬ NoMove s b pos) (room : (s.mbond b).eLast + 1 ≤ parityLanes (s.mbond b)) :
    moveStart (moveFields s 0 b pos) 0 b pos none = { moveFields s 0 b pos with mnd := { (moveFields s 0 b pos).mnd with move := some ⟨b, pos, false, none⟩ } } :=
  (moveStart_fields ..).trans ((if_neg (by rw [free]; exact Bool.false_ne_true)).trans ((if_neg fun bad => good ((noMove_iff s b pos 0 (by omega)).1 bad)).trans ((if_pos rfl).trans (if_pos room))))

theorem moveStart_full (free : s.mnd.move = none) (good : ¬ NoMove s b pos) (full : parityLanes (s.mbond b) < (s.mbond b).eLast + 1) :
    moveStart (moveFields s 0 b pos) 0 b pos none = moveResult (moveFields s 0 b pos) 1 :=
  (moveStart_fields ..).trans ((if_neg (by rw [free]; exact Bool.false_ne_true)).trans ((if_neg fun bad => good ((noMove_iff s b pos 0 (by omega)).1 bad)).trans ((if_pos rfl).trans (if_neg (Nat.not_le.2 full)))))

/-- What the beginning of a restoration leaves. -/
theorem moveStart_restores (free : s.mnd.move = none) (good : ¬ NoMove s b pos) :
    (moveStart (moveFields s 1 b pos) 1 b pos none).mnd.move = some ⟨b, pos, true, none⟩ ∧ pos ∈ ((moveStart (moveFields s 1 b pos) 1 b pos none).mbond b).moved
      ∧ ∀ p ∈ (s.mbond b).moved, p ∈ ((moveStart (moveFields s 1 b pos) 1 b pos none).mbond b).moved := by
  have begun := (moveStart_fields s b pos 1 1 none).trans ((if_neg (by rw [free]; exact Bool.false_ne_true)).trans ((if_neg fun bad => good ((noMove_iff s b pos 1 (by omega)).1 bad)).trans (if_neg (by omega))))
  have moved : ((moveStart (moveFields s 1 b pos) 1 b pos none).mbond b).moved = if (s.mbond b).moved.contains pos then (s.mbond b).moved else (s.mbond b).moved ++ [pos] := by
    rw [begun]
    exact congrArg MBond.moved (State.setMbond_mbond ..)
  refine ⟨by rw [begun], ?_, fun p has => ?_⟩
  · rw [moved]
    split
    next has => exact List.contains_iff_mem.1 has
    · exact List.mem_append_right _ (List.mem_singleton.2 rfl)
  · rw [moved]
    split
    · exact has
    · exact List.mem_append_left _ has

end

/-! ## The end of a move -/

section
variable (s : State)

/-- The lane that a move is about. -/
def movedLane (v : Move) : Nat := (bondLanes s v.bond).getD v.pos 0

/-- The positions of a bond that are moved out once a move is done. -/
def movedOut (v : Move) : List Nat :=
  if v.restore then (s.mbond v.bond).moved.filter (· ≠ v.pos) else if (s.mbond v.bond).moved.contains v.pos then (s.mbond v.bond).moved else (s.mbond v.bond).moved ++ [v.pos]

/-- The device with a move at its end. -/
def moveEnded (v : Move) : State :=
  let u := s.setMbond v.bond { s.mbond v.bond with moved := movedOut s v, err := setErr (s.mbond v.bond).err 10 }
  { u with mnd := { u.mnd with move := none, moveResult := 0 } }

variable {s} {v : Move} (under : s.mnd.move = some v)
include under

theorem moveDone_waits (restore : v.restore = true) (away : (s.lane (movedLane s v)).rdiRx = true) : moveDone s = s := by
  unfold moveDone
  rw [under]
  exact if_pos ⟨restore, away⟩

theorem moveDone_ends (back : ¬ (v.restore = true ∧ (s.lane (movedLane s v)).rdiRx = true)) (alone : v.fm = none) : moveDone s = moveEnded s v := by
  unfold moveDone
  rw [under]
  refine (if_neg back).trans ?_
  rw [alone]
  rfl

theorem moveDone_answers (back : ¬ (v.restore = true ∧ (s.lane (movedLane s v)).rdiRx = true)) {r : MboxRec} {q : BitVec 64} (asked : v.fm = some (r, q)) :
    moveDone s = fmOk (softRetired (reclaimBond (setRetired (moveEnded s v) (movedLane s v) true) v.bond) (partId 3 (movedLane s v)) q 0) r (partId 3 (movedLane s v)) := by
  unfold moveDone
  rw [under]
  refine (if_neg back).trans ?_
  rw [asked]
  rfl

omit under

theorem moveEnded_moved : ((moveEnded s v).mbond v.bond).moved = movedOut s v := congrArg MBond.moved (State.setMbond_mbond ..)

theorem movedOut_restored (restore : v.restore = true) : v.pos ∉ movedOut s v := by
  rw [movedOut, if_pos restore]
  intro has
  simpa using (List.mem_filter.1 has).2

theorem movedOut_retired (retire : v.restore = false) : v.pos ∈ movedOut s v := by
  rw [movedOut, if_neg (ne_true_of_eq_false retire)]
  split
  next has => exact List.contains_iff_mem.1 has
  · exact List.mem_append_right _ (List.mem_singleton.2 rfl)

theorem proxyFree_lathOnly (s : State) (o : Owner) : LathOnly s (proxyFree s o) := lathQueue_lathOnly ..

theorem reclaimBond_lathOnly (s : State) (b : Nat) : LathOnly s (reclaimBond s b) := by
  unfold reclaimBond
  split
  · exact (proxyFree_lathOnly ..).trans (proxyFree_lathOnly ..)
  · exact .refl s

theorem setRetired_lane (s : State) (g : Nat) (works : (s.lane g).retired = false) : ((setRetired s g true).lane g).retired = true := by
  unfold setRetired
  dsimp only
  rw [works, if_neg (by decide)]
  exact (congrArg RLane.retired (laneChange_lane s g _) :)

theorem setRetired_mnd (s : State) (g : Nat) (r : Bool) : (setRetired s g r).mnd = s.mnd := by
  unfold setRetired
  dsimp only
  split
  · rfl
  · exact (settleLane_lineOnly ..).mnd

theorem LathOnly.mnd {s t : State} (h : LathOnly s t) : t.mnd = s.mnd := by
  obtain ⟨_, _, _, _, rfl⟩ := h
  rfl

theorem LathOnly.lane {s t : State} (h : LathOnly s t) (g : Nat) : t.lane g = s.lane g := by
  obtain ⟨_, _, _, _, rfl⟩ := h
  rfl

theorem LedgerOnly.mnd {s t : State} (h : LedgerOnly s t) : t.mnd = s.mnd := by
  obtain ⟨_, rfl⟩ := h
  rfl

theorem moveDone_retires {r : MboxRec} {q : BitVec 64} (under : s.mnd.move = some v) (retire : v.restore = false) (asked : v.fm = some (r, q)) (works : (s.lane (movedLane s v)).retired = false) :
    (moveDone s).mnd.move = none ∧ ((moveDone s).lane (movedLane s v)).retired = true ∧ ((moveDone s).part (partId 3 (movedLane s v)).toNat).st = 2 := by
  rw [moveDone_answers under (fun back => ne_true_of_eq_false retire back.1) asked]
  generalize partId 3 (movedLane s v) = part
  have retired := softRetired_ledgerWork (reclaimBond (setRetired (moveEnded s v) (movedLane s v) true) v.bond) part q 0
  have answered := respond_lathOnly (softRetired (reclaimBond (setRetired (moveEnded s v) (movedLane s v) true) v.bond) part q 0) r
  have reclaimed := reclaimBond_lathOnly (setRetired (moveEnded s v) (movedLane s v) true) v.bond
  refine ⟨?_, ?_, ?_⟩
  · rw [fmOk, (answered ..).mnd, retired.only.mnd, reclaimed.mnd, setRetired_mnd, moveEnded]
  · rw [fmOk, (answered ..).lane, retired.only.lane, reclaimed.lane]
    exact setRetired_lane _ _ works
  · rw [part_of_sng (congrArg Sng.parts (fmOk_keeps ..).1)]
    exact (softRetired_leaves ..).1

end

/-! ## The stripe code's settings, R407 and R433 -/

section
variable (s : State) (b : Nat) (v : BitVec 32)

/-- A bond with the fields of MND_Bb_CFG that take their values at once. -/
def retriesSet : MBond := { s.mbond b with retries := BitVec.ofNat 4 (bitsOf v.toNat 27 24), rto := v.setWidth 24 }

/-- The M of a write of MND_Bb_CFG. -/
def writtenM : BitVec 2 := BitVec.ofNat 2 (bitsOf v.toNat 31 30)

variable {s b v}

theorem stripeCfgWrite_same (same : writtenM v = (retriesSet s b v).m) : stripeCfgWrite s b v = s.setMbond b (retriesSet s b v) := if_pos same

theorem stripeCfgWrite_refused (changes : writtenM v ≠ (retriesSet s b v).m) (held : (s.bond b).en = true ∨ (writtenM v = 3 ∧ isV1 s b = true)) :
    stripeCfgWrite s b v = s.setMbond b { retriesSet s b v with err := setErr (retriesSet s b v).err 9 } :=
  (if_neg changes).trans (if_pos (by simpa [writtenM] using held))

theorem stripeCfgWrite_taken (changes : writtenM v ≠ (retriesSet s b v).m) (free : (s.bond b).en = false) (lawful : ¬ (writtenM v = 3 ∧ isV1 s b = true)) :
    stripeCfgWrite s b v = judgeMinLow (s.setMbond b { retriesSet s b v with m := writtenM v }) b := by
  refine (if_neg changes).trans (if_neg fun held => ?_)
  rw [free, Bool.false_or, Bool.and_eq_true, decide_eq_true_eq] at held
  exact lawful held

end

end Sys2Proof.Machine

/-! Chapter 11: the frames that a bond or an idle port sends, R392, R419, R421 and R638. -/
namespace Sys2Proof.Machine

/-! ## The octets of a frame, R366 and R367 -/

theorem padTo_nil (n : Nat) : padTo (0 : Byte) n [] = List.replicate n 0 := by
  rw [padTo, List.take_nil, List.nil_append, List.length_nil, Nat.sub_zero]

theorem fawOf_length (v1 : Bool) : (fawOf v1).length = 6 := by
  cases v1 with
  | false => exact beBytes_length ..
  | true => exact beBytes_length ..

section
variable (v1 : Bool) (pos lid : Nat) (vb lanePos flags pstart jc : Byte) (slots mnd payload : List Byte)

/-- The header of a frame under its OHCRC. -/
def frameBody : List Byte := [BitVec.ofNat 8 pos] ++ beBytes 2 (pos / 256) ++ [BitVec.ofNat 8 lid, vb, lanePos, flags, pstart, jc, 0] ++ padTo 0 32 slots ++ padTo 0 12 mnd

theorem frameBody_length : (frameBody pos lid vb lanePos flags pstart jc slots mnd).length = 54 := by
  simp [frameBody, padTo_length]

theorem frameOctets_eq : frameOctets v1 pos lid vb lanePos flags pstart jc slots mnd payload
    = fawOf v1 ++ frameBody pos lid vb lanePos flags pstart jc slots mnd ++ beBytes 4 (crc32c (frameBody pos lid vb lanePos flags pstart jc slots mnd)).toNat ++ padTo 0 16320 payload := rfl

/-- The payload of a frame stands behind its 64 octets of overhead. -/
theorem frameOctets_payload : (frameOctets v1 pos lid vb lanePos flags pstart jc slots mnd payload).drop 64 = padTo 0 16320 payload := by
  rw [frameOctets_eq]
  exact List.drop_left' (by simp [fawOf_length, frameBody_length])

theorem frameOctets_silent : (frameOctets v1 pos lid vb lanePos flags pstart jc slots mnd []).drop 64 = List.replicate 16320 0 := by
  rw [frameOctets_payload, padTo_nil]

/-- POS and the flags of a lane stand in octets 11 and 12. -/
theorem frameOctets_pos_flags : ∃ r, (frameOctets v1 pos lid vb lanePos flags pstart jc slots mnd payload).drop 11 = lanePos :: flags :: r := by
  rw [frameOctets_eq, List.append_assoc, List.append_assoc, List.drop_append, List.drop_eq_nil_of_le (by rw [fawOf_length]; omega), fawOf_length]
  exact ⟨_, rfl⟩

theorem frameOctets_lanePos : beAt (frameOctets v1 pos lid vb lanePos flags pstart jc slots mnd payload) 11 1 = lanePos.toNat := by
  obtain ⟨r, front⟩ := frameOctets_pos_flags v1 pos lid vb lanePos flags pstart jc slots mnd payload
  rw [beAt, slice, front]
  rfl

theorem frameOctets_flags : beAt (frameOctets v1 pos lid vb lanePos flags pstart jc slots mnd payload) 12 1 = flags.toNat := by
  obtain ⟨r, front⟩ := frameOctets_pos_flags v1 pos lid vb lanePos flags pstart jc slots mnd payload
  rw [beAt, slice, ← List.drop_drop (i := 1) (j := 11), front]
  rfl

end

/-! ## What the parts of a position reach -/

section
variable (b : Nat) (s : State)

/-- What no part of a position touches but its own places: what has been sent, Sealer, the position that a bond is at, and its TXSEQ. -/
def besideFrame (s : State) : List Out × Slr × Nat × BitVec 48 := (s.out, s.slr, (s.bond b).txPos, (s.mbond b).txSeq)

variable {b} {s t : State} in
theorem besideFrame_told (h : besideFrame b t = besideFrame b s) : t.out = s.out ∧ t.slr = s.slr ∧ (t.bond b).txPos = (s.bond b).txPos ∧ (t.mbond b).txSeq = (s.mbond b).txSeq := by
  obtain ⟨out, rest⟩ := Prod.ext_iff.1 h
  obtain ⟨slr, rest⟩ := Prod.ext_iff.1 rest
  obtain ⟨pos, seq⟩ := Prod.ext_iff.1 rest
  exact ⟨out, slr, pos, seq⟩

theorem setBond_besideFrame (x : Bond) (same : x.txPos = (s.bond b).txPos) : besideFrame b (s.setBond b x) = besideFrame b s := by
  unfold besideFrame
  rw [State.setBond_bond, same]
  rfl

theorem setMbond_besideFrame (x : MBond) (same : x.txSeq = (s.mbond b).txSeq) : besideFrame b (s.setMbond b x) = besideFrame b s := by
  unfold besideFrame
  rw [State.setMbond_mbond, same]
  rfl

theorem sendTime_besideFrame : besideFrame b (sendTime s b) = besideFrame b s := setBond_besideFrame b s _ rfl
theorem sendRanging_besideFrame (mfn : Nat) : besideFrame b (sendRanging s b mfn) = besideFrame b s := setBond_besideFrame b s _ rfl
theorem sendKeyReady_besideFrame : besideFrame b (sendKeyReady s b) = besideFrame b s := setBond_besideFrame b s _ rfl
theorem takeSlots_besideFrame : besideFrame b (takeSlots s b).2 = besideFrame b s := setBond_besideFrame b s _ rfl

theorem takeTrib_besideFrame : besideFrame b (takeTrib s b).2 = besideFrame b s := by
  unfold takeTrib
  split
  · rfl
  · rfl

theorem takeRequest_besideFrame : besideFrame b (takeRequest s b).2 = besideFrame b s := by
  unfold takeRequest
  dsimp only
  split
  · rfl
  · exact setMbond_besideFrame b s _ rfl

theorem frameStart_besideFrame (fn mfn : Nat) : besideFrame b (frameStart s b fn mfn) = besideFrame b s := by
  unfold frameStart
  split
  · rfl
  · extract_lets u v w
    have time : besideFrame b u = besideFrame b s := by
      unfold u
      split
      · exact sendTime_besideFrame b s
      · rfl
    have messages : besideFrame b v = besideFrame b s := ((sendRanging_besideFrame b _ mfn).trans (sendKeyReady_besideFrame b u)).trans time
    split
    · split
      · exact (setMbond_besideFrame b v { w with moved := w.moved ++ [_] } rfl).trans messages
      · exact messages
    · exact messages

theorem sendFrames_besideFrame (fs : List (Nat × List Byte)) : besideFrame b (sendFrames s fs).2 = besideFrame b s :=
  foldl_keeps (fun p : List (Nat × List (BitVec 2)) × State => besideFrame b p.2) (step := fun (p : List (Nat × List (BitVec 2)) × State) (f : Nat × List Byte) => (p.1 ++ [(f.1, ((p.2.mlane f.1).send f.2).1)], p.2.setMlane f.1 ((p.2.mlane f.1).send f.2).2)) (fun _ _ => rfl) fs ([], s)

end

/-! ## A port that is in no enabled bond, R382 and R392 -/

section
variable (s : State) (b : Nat)

theorem transmitPosition_unbonded (off : (s.bond b).en = false) : transmitPosition s b
    = if ((List.range 16).any fun c => (s.bond c).en && (s.bond c).ports.getLsbD b) || decide (s.se.role = 2) || !isUp s then s else idlePosition s b :=
  if_pos (by rw [off]; rfl)

theorem transmitPosition_keepsStill (off : (s.bond b).en = false) (still : (∃ c, c < 16 ∧ (s.bond c).en = true ∧ (s.bond c).ports.getLsbD b = true) ∨ s.se.role = 2 ∨ isUp s = false) : transmitPosition s b = s := by
  refine (transmitPosition_unbonded s b off).trans (if_pos ?_)
  rw [Bool.or_eq_true, Bool.or_eq_true, List.any_eq_true, decide_eq_true_eq, Bool.not_eq_true']
  rcases still with ⟨c, low, en, has⟩ | shadow | down
  · exact .inl (.inl ⟨c, List.mem_range.2 low, by rw [en, has]; rfl⟩)
  · exact .inl (.inr shadow)
  · exact .inr down

theorem transmitPosition_idles (off : (s.bond b).en = false) (free : ∀ c, c < 16 → (s.bond c).en = true → (s.bond c).ports.getLsbD b = false) (endpoint : s.se.role ≠ 2) (up : isUp s = true) :
    transmitPosition s b = idlePosition s b := by
  refine (transmitPosition_unbonded s b off).trans (if_neg ?_)
  rw [Bool.or_eq_true, Bool.or_eq_true, List.any_eq_true, decide_eq_true_eq, Bool.not_eq_true']
  rintro ((⟨c, low, has⟩ | shadow) | down)
  · rw [Bool.and_eq_true] at has
    exact ne_true_of_eq_false (free c (List.mem_range.1 low) has.1) has.2
  · exact endpoint shadow
  · exact ne_true_of_eq_false down up

/-- The frames of a port that idles. -/
def idlePortFrames : List (Nat × List Byte) :=
  (List.range 8).map fun l => (8 * b + l, frameOctets (s.rport b).v1 (s.rport b).txPos (8 * b + l) (BitVec.ofNat 8 ((if (s.rport b).v1 then 16 else 32) + freeNat s % 16)) 0xFF 2 0 0 [] (leBytes 12 (freeNat s / 16)) [])

/-- The device once a port has moved to its next position. -/
def portMoved : State := { s.setRport b { s.rport b with txPos := ((s.rport b).txPos + 1) % 2 ^ 24 } with fresh := s.fresh + 1 }

theorem idlePosition_eq : idlePosition s b
    = emit (sendFrames (portMoved s b) (idlePortFrames s b)).2 (.idleFrames b (idlePortFrames s b) (sendFrames (portMoved s b) (idlePortFrames s b)).1) := rfl

theorem sendFrames_rport (fs : List (Nat × List Byte)) (p : Nat) : (sendFrames s fs).2.rport p = s.rport p :=
  foldl_keeps (fun x : List (Nat × List (BitVec 2)) × State => x.2.rport p) (step := fun (p : List (Nat × List (BitVec 2)) × State) (f : Nat × List Byte) => (p.1 ++ [(f.1, ((p.2.mlane f.1).send f.2).1)], p.2.setMlane f.1 ((p.2.mlane f.1).send f.2).2)) (fun _ _ => rfl) fs ([], s)

theorem idlePortFrames_told : (idlePortFrames s b).length = 8 ∧ ∀ p ∈ idlePortFrames s b, beAt p.2 11 1 = 0xFF ∧ bitOf (beAt p.2 12 1) 1 = true ∧ p.2.drop 64 = List.replicate 16320 0 := by
  refine ⟨by rw [idlePortFrames, List.length_map, List.length_range], fun p has => ?_⟩
  obtain ⟨l, -, rfl⟩ := List.mem_map.1 has
  exact ⟨frameOctets_lanePos .., congrArg (bitOf · 1) (frameOctets_flags ..), frameOctets_silent ..⟩

theorem portMoved_txPos : ((portMoved s b).rport b).txPos = ((s.rport b).txPos + 1) % 2 ^ 24 := by
  have moved : (portMoved s b).rport b = { s.rport b with txPos := ((s.rport b).txPos + 1) % 2 ^ 24 } := State.setRport_rport ..
  rw [moved]

theorem emit_told (u : State) (o : Out) : (emit u o).out = u.out ++ [o] ∧ (emit u o).slr = u.slr ∧ (emit u o).rport b = u.rport b := ⟨rfl, rfl, rfl⟩

theorem idlePosition_leaves : ((idlePosition s b).rport b).txPos = ((s.rport b).txPos + 1) % 2 ^ 24 ∧ (idlePosition s b).slr = s.slr
    ∧ ∃ fs pins, (idlePosition s b).out = s.out ++ [.idleFrames b fs pins] ∧ fs.length = 8 ∧ ∀ p ∈ fs, beAt p.2 11 1 = 0xFF ∧ bitOf (beAt p.2 12 1) 1 = true ∧ p.2.drop 64 = List.replicate 16320 0 := by
  have port := sendFrames_rport (portMoved s b) (idlePortFrames s b) b
  obtain ⟨out, slr, -, -⟩ := besideFrame_told (sendFrames_besideFrame b (portMoved s b) (idlePortFrames s b))
  obtain ⟨told, kept, here⟩ := emit_told b (sendFrames (portMoved s b) (idlePortFrames s b)).2 (.idleFrames b (idlePortFrames s b) (sendFrames (portMoved s b) (idlePortFrames s b)).1)
  rw [idlePosition_eq, told, kept, here, port, portMoved_txPos, out, slr]
  exact ⟨rfl, rfl, _, _, rfl, idlePortFrames_told s b⟩

end

end Sys2Proof.Machine

/-! Chapter 11: the frames of a bond, R419, R421, R423 and R638. -/
namespace Sys2Proof.Machine

/-! ## The line frame of a position reaches neither Sealer nor Render -/

/-- Sealer and Render. -/
def lineUnits (s : State) : Slr × Rnd := (s.slr, s.rnd)

section
variable (s : State) (b : Nat)

theorem LedgerOnly.lineUnits {s t : State} (h : LedgerOnly s t) : lineUnits t = lineUnits s := by
  obtain ⟨_, rfl⟩ := h
  rfl

theorem readBursts_lineUnits (dha n : Nat) : lineUnits (readBursts s dha n).2 = lineUnits s := by
  unfold readBursts
  dsimp only
  split
  · rfl
  · exact (journal_ledgerOnly ..).lineUnits

theorem readTile_lineUnits (dha : Nat) : lineUnits (readTile s dha).2.2 = lineUnits s := by
  rw [readTile_eq]
  exact readBursts_lineUnits ..

theorem fetchFrame_lineUnits (q : BitVec 48) : lineUnits (fetchFrame s b q).2.2 = lineUnits s := by
  refine foldl_keeps (fun r : Bool × List Byte × State => lineUnits r.2.2) (fun r i => ?_) _ (true, [], s)
  dsimp only
  split
  · exact readTile_lineUnits ..
  · rfl

theorem storeFrame_lineUnits (q : BitVec 48) (bytes : List Byte) : lineUnits (storeFrame s b q bytes) = lineUnits s := by
  refine foldl_keeps lineUnits (fun u p => ?_) _ s
  split
  · rfl
  · rfl

theorem storeNew_lineUnits (q : BitVec 48) (items : List QItem) (bytes : List Byte) : lineUnits (storeNew s b q items bytes) = lineUnits s := by
  unfold storeNew
  extract_lets p
  split
  · rfl
  · exact storeFrame_lineUnits ..

theorem refillShapers_lineUnits : lineUnits (refillShapers s b) = lineUnits s := by
  refine foldl_keeps lineUnits (fun u p => ?_) _ s
  dsimp only
  split
  · rfl
  · rfl

theorem takeHead_lineUnits (q : Nat) : lineUnits (takeHead s q) = lineUnits s := by
  unfold takeHead
  dsimp only
  split
  · rfl
  · rfl

theorem takeNumbered_lineUnits (fuel room : Nat) : lineUnits (takeNumbered b fuel room s).2 = lineUnits s := by
  induction fuel generalizing room s with
  | zero => rfl
  | succ n ih =>
    unfold takeNumbered
    split
    · rfl
    · split
      · rfl
      · split
        · exact (ih ..).trans (takeHead_lineUnits ..)
        · rfl

theorem takeSegments_lineUnits (room : Nat) : lineUnits (takeSegments s b room).2 = lineUnits s := by
  unfold takeSegments
  generalize takeCtl room room (s.ctlQ b) = r
  obtain ⟨a, rest⟩ := r
  dsimp only
  have refilled : lineUnits (refillShapers { s with sch := { s.sch with ctl := Tab.put [] s.sch.ctl b rest } } b) = lineUnits s := refillShapers_lineUnits ..
  generalize refillShapers { s with sch := { s.sch with ctl := Tab.put [] s.sch.ctl b rest } } b = u at refilled ⊢
  split
  · exact (takeNumbered_lineUnits u b room _).trans refilled
  · exact refilled

theorem nextLine_lineUnits : lineUnits (nextLine s b).2 = lineUnits s := by
  unfold nextLine
  extract_lets c x
  split
  next q rest _ =>
    extract_lets u
    split
    · have fetched : lineUnits (fetchFrame u b q).2.2 = lineUnits s := fetchFrame_lineUnits ..
      generalize fetchFrame u b q = r at fetched ⊢
      obtain ⟨ok, bytes, v⟩ := r
      dsimp only at fetched ⊢
      split
      · exact fetched
      · exact fetched
    · rfl
  · have taken : lineUnits (if hasSegment s b = true then takeSegments s b (c - 16) else ([], s)).2 = lineUnits s := by
      split
      · exact takeSegments_lineUnits ..
      · rfl
    generalize (if hasSegment s b = true then takeSegments s b (c - 16) else ([], s)) = r at taken ⊢
    obtain ⟨items, v⟩ := r
    dsimp only at taken ⊢
    split
    · rfl
    · exact (storeNew_lineUnits ..).trans taken

end

/-! ## What the lanes of a position send without a line frame, R638 -/

theorem laneSends_none (s : State) (b : Nat) : ∀ l ∈ laneSends s b none, l.erased = true ∧ l.payload = [] := by
  intro l has
  obtain ⟨p, -, rfl⟩ := List.mem_map.1 has
  simp

/-! ## The position of a bond -/

section
variable (s : State) (b : Nat)

theorem transmitPosition_quiet (on : (s.bond b).en = true) (quiet : dataLanes s b = 0 ∨ shadowQuiet s b = true) : transmitPosition s b = s :=
  (if_neg (by rw [on]; exact Bool.false_ne_true)).trans (if_pos (by rw [Bool.or_eq_true, decide_eq_true_eq]; exact quiet))

/-- The device with a position of a bond sent. -/
def lineSent (p : Nat) (f : TxFrame) : State := emit (s.setBond b { s.bond b with txPos := p }) (.line f)

theorem lineSent_told (p : Nat) (f : TxFrame) :
    ((lineSent s b p f).bond b).txPos = p ∧ (lineSent s b p f).slr = s.slr ∧ ((lineSent s b p f).mbond b).txSeq = (s.mbond b).txSeq ∧ (lineSent s b p f).out = s.out ++ [.line f] :=
  ⟨congrArg Bond.txPos (State.setBond_bond ..), rfl, rfl, rfl⟩

variable {s b} (on : (s.bond b).en = true) (lanes : dataLanes s b ≠ 0) (loud : shadowQuiet s b = false)
include on lanes loud

omit on lanes loud in
/-- What a position of a bond leaves, by the key that is ACTIVE: without one every lane is ERASED and carries zeros; with one it carries a line frame, and the key's NCTR rises once it has been sent. -/
def SentUnder (s t : State) (b : Nat) : Option Nat → Prop
  | none => ∃ u f, t = lineSent u b (((s.bond b).txPos + 1) % 2 ^ 24) f ∧ besideFrame b u = besideFrame b s ∧ f.bond = b ∧ f.line = none ∧ (∀ l ∈ f.lanes, l.2.2.2.2 = true)
      ∧ ∀ p ∈ f.octets, p.2.drop 64 = List.replicate 16320 0
  | some e => ∃ v f, t = pump (useKey (lineSent v b (((s.bond b).txPos + 1) % 2 ^ 24) f) b e) ∧ v.slr = s.slr ∧ f.bond = b ∧ f.line.isSome ∧ f.nctr = ((s.sbond b).tx e).nctr
      ∧ f.keyId = ((s.sbond b).tx e).id

theorem transmitPosition_sends {key : Option Nat} (active : ((s.sbond b).activeTx).filter (fun e => ((s.sbond b).tx e).sends) = key) : SentUnder s (transmitPosition s b) b key := by
  unfold transmitPosition
  extract_lets x pos fn mfn u
  rw [if_neg (by rw [on]; exact Bool.false_ne_true), if_neg (by rw [Bool.or_eq_true, decide_eq_true_eq]; rintro (h | h); exacts [lanes h, ne_true_of_eq_false loud h])]
  have started : besideFrame b u = besideFrame b s := frameStart_besideFrame ..
  have slotted := takeSlots_besideFrame b u
  generalize takeSlots u b = r at slotted ⊢
  obtain ⟨⟨slots, start1⟩, u1⟩ := r
  have carried := takeTrib_besideFrame b u1
  dsimp only at slotted ⊢
  generalize takeTrib u1 b = r at carried ⊢
  obtain ⟨trib, u2⟩ := r
  have asked := takeRequest_besideFrame b u2
  dsimp only at carried ⊢
  generalize takeRequest u2 b = r at asked ⊢
  obtain ⟨rq, u3⟩ := r
  dsimp only at asked ⊢
  have before : besideFrame b u3 = besideFrame b s := asked.trans (carried.trans (slotted.trans started))
  have slr : u3.slr = s.slr := (besideFrame_told before).2.1
  rw [State.sbond, slr, ← State.sbond, active]
  cases key with
  | none =>
    refine ⟨_, _, rfl, (sendFrames_besideFrame ..).trans before, rfl, rfl, fun l has => ?_, fun p has => ?_⟩
    · obtain ⟨x, mem, rfl⟩ := List.mem_map.1 has
      exact (laneSends_none u3 b x mem).1
    · obtain ⟨x, mem, rfl⟩ := List.mem_map.1 has
      exact (frameOctets_payload ..).trans (by rw [(laneSends_none u3 b x mem).2, padTo_nil])
  | some e =>
    dsimp only
    have lined : (nextLine u3 b).2.slr = u3.slr := congrArg Prod.fst (nextLine_lineUnits u3 b)
    generalize nextLine u3 b = r at lined ⊢
    obtain ⟨line, u4⟩ := r
    dsimp only at lined ⊢
    have keys : u4.sbond b = s.sbond b := by rw [State.sbond, lined, slr, State.sbond]
    exact ⟨_, _, rfl, ((besideFrame_told (sendFrames_besideFrame b u4 _)).2.1.trans lined).trans slr, rfl, rfl, congrArg (fun x : SBond => (x.tx e).nctr) keys, congrArg (fun x : SBond => (x.tx e).id) keys⟩

end

/-- A key's NCTR after a frame, R457. -/
theorem useKey_nctr (s : State) (b e : Nat) : (((useKey s b e).sbond b).tx e).nctr = ((s.sbond b).tx e).nctr + 1 := by
  have kept (x : SBond) (k : KeySlot) : ((x.setTx e k).tx e) = k := by
    unfold SBond.setTx SBond.tx
    by_cases zero : e = 0
    · rw [if_pos zero, if_pos zero]
    · rw [if_neg zero, if_neg zero]
  have flagged (x : SBond) (w : BitVec 32) : ({ x with err := w }.tx e) = x.tx e := rfl
  unfold useKey
  dsimp only
  rw [keyChange_sbond]
  split
  · rw [flagged, kept]
  · rw [kept]

end Sys2Proof.Machine

/-! Chapter 11: the release of a position, R385, R388, R409, R410 and R413. -/
namespace Sys2Proof.Machine

/-! ## Places and what stands in them -/

section
variable {α β : Type}

/-- A list by its places. -/
theorem eq_map_range_getD (d : α) (l : List α) : l = (List.range l.length).map fun i => l.getD i d := by
  refine List.ext_getElem (by simp) fun i low _ => ?_
  rw [List.getElem_map, List.getElem_range, List.getD_eq_getElem _ _ low]

/-- The places of a list at which something holds. -/
theorem zip_range_filterMap (f : Option α → Bool) (l : List (Option α)) {n : Nat} (len : l.length = n) :
    (((List.range n).zip l).filterMap fun p => if f p.2 then some p.1 else none) = (List.range n).filter fun i => f (l.getD i none) := by
  have places : (List.range n).zip l = (List.range n).map fun i => (i, l.getD i none) := by
    have self : (List.range n).zip l = ((List.range n).map id).zip ((List.range n).map fun i => l.getD i none) := by
      rw [List.map_id, ← len, ← eq_map_range_getD]
    exact self.trans (List.zip_map' ..)
  rw [places, List.filterMap_map, ← List.filterMap_eq_filter]
  rfl

end

/-! ## The position under release -/

section
variable (s : State) (b pos : Nat)

/-- A place of the position is an erasure: nothing stands in it, or a frame that is flagged or ERASED. -/
def erasure : Option HeldFrame → Bool
  | some f => f.flagged || f.erased
  | none => true

/-- The places of a position that are erasures. -/
def erasedPlaces : List Nat := (List.range (bondLanes s b).length).filter fun i => erasure ((heldFrames s b pos).getD i none)

theorem heldFrames_length : (heldFrames s b pos).length = (bondLanes s b).length := by
  rw [heldFrames, List.length_map, List.length_range]

theorem erasedPlaces_eq : (((List.range (bondLanes s b).length).zip (heldFrames s b pos)).filterMap fun p => match p.2 with
      | some f => if f.flagged || f.erased then some p.1 else none
      | none => some p.1) = erasedPlaces s b pos := by
  rw [erasedPlaces, ← zip_range_filterMap erasure _ (heldFrames_length s b pos)]
  refine congrArg (List.filterMap · _) (funext fun p => ?_)
  cases p.2 with
  | none => rfl
  | some f => rfl

/-- The bond with a position released from its lanes. -/
def posReleased : State :=
  let u := (svcLanes s b).foldl (fun s g => noteLate s g pos) s
  let u := (bondLanes u b).foldl (fun s g => let x := s.lane g; s.setLane g { x with frames := x.frames.filter fun f => f.pos ≠ pos }) u
  u.setBond b { u.bond b with released := some pos }

/-- The bond with the overhead of a position heard. -/
def overheard : State :=
  match ((heldFrames s b pos).filterMap id).find? (·.ohOk) with
  | some f => peerOverhead (judgeCfg (posReleased s b pos) b f) b f
  | none => posReleased s b pos

/-- The bond with the erasures of a position counted. -/
def erasuresNoted (x : MBond) (e : Nat) : MBond :=
  { x with erasures := BitVec.ofNat 8 e, eNow := (if pos % 256 = 255 then 0 else max x.eNow e), eLast := if pos % 256 = 255 then max x.eNow e else x.eLast }

/-- Every frame of a position is ERASED, and there is one. -/
def posIdle : Bool := !((heldFrames s b pos).filterMap id).isEmpty && ((heldFrames s b pos).filterMap id).all (·.erased)

/-- The stripe of a position, decoded with m lanes of parity. -/
def posDecoded (m : Nat) : List (List Byte) × Bool :=
  stripeDecode m 16320 ((heldFrames s b pos).map fun f => match f with | some f => f.payload | none => []) (erasedPlaces s b pos)

/-- What the release of a position comes to: lost, without a good syndrome, or its data judged. -/
def posJudged (u : State) (n : Nat) (e : Nat) (idle : Bool) (dec : List (List Byte) × Bool) : State :=
  let m := parityLanes (u.mbond b)
  let x := erasuresNoted pos (u.mbond b) e
  if m < e then (if idle then u.setMbond b x else u.setMbond b { x with lost := bump x.lost 1, err := setErr x.err 1 })
  else
    let x := if 1 ≤ e then { x with recovered := bump x.recovered 1 } else x
    if !dec.2 then u.setMbond b { x with synd := bump x.synd 1, err := setErr x.err 2 }
    else if x.cfgMm then u.setMbond b x
    else stripeData (u.setMbond b x) b ((dec.1.take (n - m)).flatten)

theorem frameRelease_eq (oldest : oldestPos s b = some pos) : frameRelease s b =
    posJudged b pos (overheard s b pos) (bondLanes s b).length (erasedPlaces s b pos).length (posIdle s b pos) (posDecoded s b pos (parityLanes ((overheard s b pos).mbond b))) := by
  unfold frameRelease posDecoded
  rw [oldest, ← erasedPlaces_eq]
  rfl

/-! ## What the overhead of a position reaches -/

theorem noteLate_kept (g : Nat) : (noteLate s g pos).slr = s.slr ∧ (noteLate s g pos).mnd = s.mnd := by
  unfold noteLate
  dsimp only
  split
  · exact ⟨rfl, rfl⟩
  · exact ⟨rfl, rfl⟩

/-- A lane without the frames of a position. -/
def posLeft (s : State) (g : Nat) : State := s.setLane g { s.lane g with frames := (s.lane g).frames.filter fun f => f.pos ≠ pos }

theorem posReleased_kept : (posReleased s b pos).slr = s.slr ∧ (posReleased s b pos).mnd = s.mnd ∧ ((posReleased s b pos).bond b).released = some pos := by
  have late : (((svcLanes s b).foldl (fun s g => noteLate s g pos) s).slr, ((svcLanes s b).foldl (fun s g => noteLate s g pos) s).mnd) = (s.slr, s.mnd) :=
    foldl_keeps (fun u : State => (u.slr, u.mnd)) (step := fun s g => noteLate s g pos) (fun u g => Prod.ext (noteLate_kept u pos g).1 (noteLate_kept u pos g).2) _ s
  have released : posReleased s b pos = (((bondLanes ((svcLanes s b).foldl (fun s g => noteLate s g pos) s) b).foldl (posLeft pos) ((svcLanes s b).foldl (fun s g => noteLate s g pos) s)).setBond b
      { ((bondLanes ((svcLanes s b).foldl (fun s g => noteLate s g pos) s) b).foldl (posLeft pos) ((svcLanes s b).foldl (fun s g => noteLate s g pos) s)).bond b with released := some pos }) := rfl
  rw [released]
  generalize (svcLanes s b).foldl (fun s g => noteLate s g pos) s = u at late ⊢
  have left : (((bondLanes u b).foldl (posLeft pos) u).slr, ((bondLanes u b).foldl (posLeft pos) u).mnd) = (u.slr, u.mnd) := foldl_keeps (fun u : State => (u.slr, u.mnd)) (step := posLeft pos) (fun _ _ => rfl) _ u
  generalize (bondLanes u b).foldl (posLeft pos) u = v at left ⊢
  obtain ⟨slr, mnd⟩ := Prod.ext_iff.1 (left.trans late)
  exact ⟨slr, mnd, congrArg Bond.released (State.setBond_bond ..)⟩

/-- What of MND's bond the overhead of a position leaves as it was. -/
def MBond.counted (x : MBond) : BitVec 2 × Count × Count := (x.m, x.lost, x.synd)

theorem MBond.of_counted {x y : MBond} (same : x.counted = y.counted) : x.m = y.m ∧ x.lost = y.lost ∧ x.synd = y.synd := by
  obtain ⟨m, counts⟩ := Prod.ext_iff.1 same
  obtain ⟨lost, synd⟩ := Prod.ext_iff.1 counts
  exact ⟨m, lost, synd⟩

variable {s b pos}

theorem setMbond_kept (x : MBond) : (s.setMbond b x).slr = s.slr ∧ (s.setMbond b x).bond b = s.bond b := ⟨rfl, rfl⟩

theorem peerOverhead_kept (f : HeldFrame) : (peerOverhead s b f).slr = s.slr ∧ (peerOverhead s b f).bond b = s.bond b
    ∧ ((peerOverhead s b f).mbond b).counted = (s.mbond b).counted ∧ ((peerOverhead s b f).mbond b).cfgMm = (s.mbond b).cfgMm := by
  unfold peerOverhead
  extract_lets x w a y
  split
  · rw [State.setMbond_mbond]
    exact ⟨rfl, rfl, rfl, rfl⟩
  · rw [State.setMbond_mbond]
    exact ⟨rfl, rfl, rfl, rfl⟩

theorem judgeCfg_kept (f : HeldFrame) : (judgeCfg s b f).slr = s.slr ∧ (judgeCfg s b f).bond b = s.bond b ∧ ((judgeCfg s b f).mbond b).counted = (s.mbond b).counted := by
  unfold judgeCfg
  extract_lets x same bad good mm
  rw [State.setMbond_mbond]
  exact ⟨rfl, rfl, rfl⟩

/-- CFG_MM stands off while fewer than four frames in a row have differed. -/
theorem judgeCfg_cfgMm (f : HeldFrame) (off : (s.mbond b).cfgMm = false) (few : (s.mbond b).mmBad < 3) : ((judgeCfg s b f).mbond b).cfgMm = false := by
  unfold judgeCfg
  extract_lets x same bad good mm
  rw [State.setMbond_mbond]
  have third : ¬ 4 ≤ bad := by
    unfold bad
    split
    · omega
    · exact fun four => absurd four (by unfold x; omega)
  change mm = false
  unfold mm
  rw [if_neg third]
  split
  · rfl
  · exact off

theorem overheard_kept : (overheard s b pos).slr = s.slr ∧ ((overheard s b pos).bond b).released = some pos ∧ ((overheard s b pos).mbond b).counted = (s.mbond b).counted := by
  obtain ⟨slr, mnd, released⟩ := posReleased_kept s b pos
  have counted : ((posReleased s b pos).mbond b).counted = (s.mbond b).counted := by rw [State.mbond, mnd, State.mbond]
  unfold overheard
  split
  next f _ =>
    obtain ⟨slrC, bondC, countedC⟩ := judgeCfg_kept (s := posReleased s b pos) (b := b) f
    obtain ⟨slrP, bondP, countedP, -⟩ := peerOverhead_kept (s := judgeCfg (posReleased s b pos) b f) (b := b) f
    exact ⟨(slrP.trans slrC).trans slr, (congrArg Bond.released (bondP.trans bondC)).trans released, (countedP.trans countedC).trans counted⟩
  · exact ⟨slr, released, counted⟩

theorem overheard_cfgMm (off : (s.mbond b).cfgMm = false) (few : (s.mbond b).mmBad < 3) : ((overheard s b pos).mbond b).cfgMm = false := by
  obtain ⟨-, mnd, -⟩ := posReleased_kept s b pos
  have same : (posReleased s b pos).mbond b = s.mbond b := by rw [State.mbond, mnd, State.mbond]
  unfold overheard
  split
  next f _ =>
    rw [(peerOverhead_kept f).2.2.2]
    exact judgeCfg_cfgMm f (same ▸ off) (same ▸ few)
  · rw [same, off]

/-- What a lost position leaves. -/
theorem posJudged_lost (u : State) (n : Nat) (dec : List (List Byte) × Bool) {e : Nat} (many : parityLanes (u.mbond b) < e) :
    ((posJudged b pos u n e false dec).mbond b).lost = bump (u.mbond b).lost 1 ∧ ((posJudged b pos u n e false dec).mbond b).erasures = BitVec.ofNat 8 e
      ∧ (posJudged b pos u n e false dec).slr = u.slr ∧ (posJudged b pos u n e false dec).bond b = u.bond b := by
  unfold posJudged
  dsimp only
  rw [if_pos many, if_neg Bool.false_ne_true, State.setMbond_mbond]
  exact ⟨rfl, rfl, rfl, rfl⟩

theorem parityLanes_of_m {x y : MBond} (same : x.m = y.m) : parityLanes x = parityLanes y := by
  rw [parityLanes, same, parityLanes]

/-- Lost: more erasures than parity, and a frame that is not ERASED. -/
theorem frameRelease_lost (oldest : oldestPos s b = some pos) (many : parityLanes (s.mbond b) < (erasedPlaces s b pos).length)
    (spoken : ∃ i f, i < (bondLanes s b).length ∧ (heldFrames s b pos).getD i none = some f ∧ f.erased = false) :
    ((frameRelease s b).bond b).released = some pos ∧ ((frameRelease s b).mbond b).lost = bump (s.mbond b).lost 1
      ∧ ((frameRelease s b).mbond b).erasures = BitVec.ofNat 8 (erasedPlaces s b pos).length ∧ (frameRelease s b).slr = s.slr := by
  obtain ⟨slr, released, counted⟩ := overheard_kept (s := s) (b := b) (pos := pos)
  obtain ⟨m, lost, -⟩ := MBond.of_counted counted
  have idle : posIdle s b pos = false := by
    obtain ⟨i, f, low, held, plain⟩ := spoken
    have mem : f ∈ (heldFrames s b pos).filterMap id := by
      refine List.mem_filterMap.2 ⟨some f, ?_, rfl⟩
      rw [← held, List.getD_eq_getElem _ _ (by rw [heldFrames_length]; exact low)]
      exact List.getElem_mem _
    rw [posIdle, Bool.and_eq_false_iff]
    exact .inr (List.all_eq_false.2 ⟨f, mem, by rw [plain]; exact Bool.false_ne_true⟩)
  have parity := parityLanes_of_m m
  obtain ⟨lostJ, erasuresJ, slrJ, bondJ⟩ := posJudged_lost (pos := pos) (overheard s b pos) (bondLanes s b).length (posDecoded s b pos (parityLanes ((overheard s b pos).mbond b))) (parity.trans_lt many)
  rw [frameRelease_eq s b pos oldest, idle, lostJ, erasuresJ, slrJ, bondJ, released, lost, slr]
  exact ⟨rfl, rfl, rfl, rfl⟩

/-- Every place of the position holds a frame that is neither flagged nor ERASED. -/
def Whole (s : State) (b pos : Nat) : Prop := ∀ i, i < (bondLanes s b).length → ∃ f, (heldFrames s b pos).getD i none = some f ∧ f.flagged = false ∧ f.erased = false

theorem erasedPlaces_whole (whole : Whole s b pos) : erasedPlaces s b pos = [] := by
  refine List.filter_eq_nil_iff.2 fun i has => ?_
  obtain ⟨f, held, unflagged, plain⟩ := whole i (List.mem_range.1 has)
  rw [held, erasure, unflagged, plain]
  exact Bool.false_ne_true

/-- The payload that a place gives to the stripe. -/
def heldPayload : Option HeldFrame → List Byte
  | some f => f.payload
  | none => []

/-- The stripe of a position without erasures. -/
def wholeDecoded (s : State) (b pos : Nat) : List (List Byte) × Bool :=
  stripeDecode (parityLanes (s.mbond b)) 16320 ((List.range (bondLanes s b).length).map fun i => heldPayload ((heldFrames s b pos).getD i none)) []

theorem posDecoded_whole (whole : Whole s b pos) : posDecoded s b pos (parityLanes (s.mbond b)) = wholeDecoded s b pos := by
  have payloads : ((heldFrames s b pos).map fun f => match f with | some f => f.payload | none => []) = (List.range (bondLanes s b).length).map fun i => heldPayload ((heldFrames s b pos).getD i none) := by
    conv_lhs => rw [eq_map_range_getD none (heldFrames s b pos), heldFrames_length, List.map_map]
    refine congrArg (List.map · _) (funext fun i => ?_)
    rw [Function.comp_apply]
    cases (heldFrames s b pos).getD i none with
    | none => rfl
    | some f => rfl
  rw [posDecoded, erasedPlaces_whole whole, payloads, wholeDecoded]

/-- What the release comes to without an erasure. -/
theorem posJudged_whole (u : State) (n : Nat) (idle : Bool) (dec : List (List Byte) × Bool) : posJudged b pos u n 0 idle dec =
    if !dec.2 then u.setMbond b { erasuresNoted pos (u.mbond b) 0 with synd := bump (erasuresNoted pos (u.mbond b) 0).synd 1, err := setErr (erasuresNoted pos (u.mbond b) 0).err 2 }
    else if (u.mbond b).cfgMm then u.setMbond b (erasuresNoted pos (u.mbond b) 0)
    else stripeData (u.setMbond b (erasuresNoted pos (u.mbond b) 0)) b ((dec.1.take (n - parityLanes (u.mbond b))).flatten) := by
  unfold posJudged
  dsimp only
  rw [if_neg (Nat.not_lt_zero _), if_neg (show ¬ 1 ≤ 0 by omega)]
  rfl

/-- What a position without erasures leaves: its data to judge, or one more bad syndrome. -/
theorem posJudged_leaves (u : State) (n : Nat) (idle : Bool) (dec : List (List Byte) × Bool) (matched : (u.mbond b).cfgMm = false) :
    (dec.2 = true → ∃ v, posJudged b pos u n 0 idle dec = stripeData v b ((dec.1.take (n - parityLanes (u.mbond b))).flatten) ∧ v.slr = u.slr ∧ v.bond b = u.bond b)
      ∧ (dec.2 = false → ((posJudged b pos u n 0 idle dec).mbond b).synd = bump (u.mbond b).synd 1 ∧ (posJudged b pos u n 0 idle dec).slr = u.slr ∧ (posJudged b pos u n 0 idle dec).bond b = u.bond b) := by
  rw [posJudged_whole]
  refine ⟨fun good => ?_, fun bad => ?_⟩
  · rw [good, if_neg (by decide), if_neg (by rw [matched]; exact Bool.false_ne_true)]
    exact ⟨_, rfl, rfl, rfl⟩
  · rw [bad, if_pos (by decide), State.setMbond_mbond]
    exact ⟨rfl, rfl, rfl⟩

/-- A position without erasures: its data are judged, or its syndrome is not zero. -/
theorem frameRelease_whole (oldest : oldestPos s b = some pos) (whole : Whole s b pos) (matched : (s.mbond b).cfgMm = false) (few : (s.mbond b).mmBad < 3) :
    ((wholeDecoded s b pos).2 = true → ∃ u, frameRelease s b = stripeData u b (((wholeDecoded s b pos).1.take ((bondLanes s b).length - parityLanes (s.mbond b))).flatten) ∧ u.slr = s.slr ∧ (u.bond b).released = some pos)
      ∧ ((wholeDecoded s b pos).2 = false → ((frameRelease s b).mbond b).synd = bump (s.mbond b).synd 1 ∧ (frameRelease s b).slr = s.slr ∧ ((frameRelease s b).bond b).released = some pos) := by
  obtain ⟨slr, released, counted⟩ := overheard_kept (s := s) (b := b) (pos := pos)
  have cfg : ((overheard s b pos).mbond b).cfgMm = false := overheard_cfgMm matched few
  obtain ⟨m, -, synd⟩ := MBond.of_counted counted
  have parity := parityLanes_of_m m
  have judged : frameRelease s b = posJudged b pos (overheard s b pos) (bondLanes s b).length 0 (posIdle s b pos) (wholeDecoded s b pos) := by
    rw [frameRelease_eq s b pos oldest, parity, posDecoded_whole whole, erasedPlaces_whole whole, List.length_nil]
  obtain ⟨good, bad⟩ := posJudged_leaves (pos := pos) (overheard s b pos) (bondLanes s b).length (posIdle s b pos) (wholeDecoded s b pos) cfg
  rw [judged]
  refine ⟨fun passes => ?_, fun fails => ?_⟩
  · obtain ⟨v, is, slrJ, bondJ⟩ := good passes
    rw [parity] at is
    exact ⟨v, is, slrJ.trans slr, by rw [bondJ, released]⟩
  · obtain ⟨syndJ, slrJ, bondJ⟩ := bad fails
    exact ⟨by rw [syndJ, synd], slrJ.trans slr, by rw [bondJ, released]⟩

end

/-! ## The stripe's data, R412 and R449 -/

theorem stripeData_eq (s : State) (b : Nat) (data : List Byte) :
    let e := beAt data 12 1 % 2
    let line := openLine ((s.sbond b).rx e) data
    let c := authCheck (s.sbond b) e (beAt data 0 8) (beAt data 8 4) line.isSome
    stripeData s b data = if c.1 then lineReceive (keyChange s b c.2) b (line.getD []) else keyChange s b c.2 := rfl

end Sys2Proof.Machine

/-! Settles O46. -/
namespace Sys2Proof.Machine

/-- A list of flags by its places counts as many erasures as the position has. -/
theorem erasedPlaces_count (s : State) (b pos : Nat) : ((List.range (bondLanes s b).length).filter fun i => match (heldFrames s b pos).getD i none with | some f => f.flagged || f.erased | none => true).length
    = (erasedPlaces s b pos).length := by
  refine congrArg List.length (congrArg (List.filter · _) (funext fun i => ?_))
  cases (heldFrames s b pos).getD i none with
  | none => rfl
  | some f => rfl

theorem wholeDecoded_eq (s : State) (b pos : Nat) : stripeDecode (parityLanes (s.mbond b)) 16320
    ((List.range (bondLanes s b).length).map fun i => match (heldFrames s b pos).getD i none with | some f => f.payload | none => []) [] = wholeDecoded s b pos := by
  refine congrArg (fun l => stripeDecode (parityLanes (s.mbond b)) 16320 l []) (congrArg (List.map · _) (funext fun i => ?_))
  cases (heldFrames s b pos).getD i none with
  | none => rfl
  | some f => rfl

/-- Settles O46: a codeword by what the lane makes of it, requests by what they know of their SEQ, a position by the key that is ACTIVE, a release by its erasures, and a move by its state. -/
theorem lineSide : Obligations.LineSide := by
  unfold Obligations.LineSide
  intro s live
  have answers {i : Instr} {t u : State} (runs : exec i s = act s t) (h : t = u) : exec i s = .next u := runs.trans (act_eq_next live h)
  refine ⟨fun g levels => ⟨fun out still => answers rfl (farCodeword_searching s g levels out still), fun out run next exact_ => .of_act live rfl (farCodeword_locks_leaves s g levels out run next exact_),
      fun k inLock corrected mark => ?corrected, fun inLock uncorrectable few mark => .of_act live rfl (farCodeword_uncorrectable s g levels inLock uncorrectable few mark),
      fun inLock bad => .of_act live rfl (farCodeword_loses_leaves s g levels inLock bad)⟩,
    fun n c levels => ⟨fun inLock stays => answers rfl (nearCodeword_keeps s n c levels inLock stays), fun inLock lost => .of_act live rfl (nearCodeword_loses_leaves s n c levels inLock lost),
      fun out found => answers rfl (nearCodeword_locks s n c levels out found), fun out still => answers rfl (nearCodeword_searching s n c levels out still)⟩,
    fun b q => ⟨fun unknown => answers rfl (resendTimeout_unknown s b q unknown), fun m known => ⟨fun fresh => answers rfl (resendTimeout_fresh s b known fresh),
      fun carried spent => answers rfl (resendTimeout_givesUp s b known carried spent), fun carried left => .of_act live rfl (resendTimeout_asks_leaves s b known carried left)⟩⟩,
    fun b off still => answers rfl (transmitPosition_keepsStill s b off still), fun b off free endpoint up => .of_act live rfl ?idles, fun b on quiet => answers rfl (transmitPosition_quiet s b on quiet),
    fun b on lanes loud key => .of_act live rfl ?keyless, fun b e on lanes loud key => .of_act live rfl ?keyed, fun b none => answers rfl ?empty, fun b pos => ?lost, fun b pos => ?whole, fun b data => stripeData_eq s b data,
    fun b pos => ?moves, fun idle => answers rfl ?idle, fun v under => ?done, fun b v => ⟨fun same => answers rfl (stripeCfgWrite_same same), fun changes held => answers rfl (stripeCfgWrite_refused changes held),
      fun changes free lawful => answers rfl (stripeCfgWrite_taken changes free lawful)⟩⟩
  case corrected =>
    obtain ⟨locked, counts⟩ := MLane.decode_corrected (farHeard s g levels) (farWord s g levels) corrected mark
    exact ⟨answers rfl (farCodeword_keeps s g levels inLock locked), locked, counts⟩
  case idles =>
    rw [transmitPosition_idles s b off free endpoint up]
    exact idlePosition_leaves s b
  case keyless =>
    obtain ⟨u, f, sent, same, rest⟩ := transmitPosition_sends on lanes loud key
    obtain ⟨out, slr, -, seq⟩ := besideFrame_told same
    obtain ⟨pos, slrT, seqT, outT⟩ := lineSent_told u b (((s.bond b).txPos + 1) % 2 ^ 24) f
    rw [sent, pos, slrT, seqT, outT, out, slr, seq]
    exact ⟨rfl, rfl, rfl, f, rfl, rest⟩
  case keyed =>
    obtain ⟨v, f, sent, slr, bond, line, nctr, id⟩ := transmitPosition_sends on lanes loud key
    obtain ⟨pos, slrT, -, outT⟩ := lineSent_told v b (((s.bond b).txPos + 1) % 2 ^ 24) f
    refine ⟨lineSent v b (((s.bond b).txPos + 1) % 2 ^ 24) f, f, v.out, sent, pos, slrT.trans slr, outT, bond, line, nctr, id, ?_⟩
    rw [useKey_nctr, State.sbond, slrT, slr, State.sbond]
  case empty =>
    unfold frameRelease
    rw [none]
  case lost =>
    intro n held x oldest gone many spoken
    have count : gone = (erasedPlaces s b pos).length := erasedPlaces_count s b pos
    rw [count] at many ⊢
    exact .of_act live rfl (frameRelease_lost oldest many spoken)
  case whole =>
    intro n held x oldest whole matched few dec
    obtain ⟨good, bad⟩ := frameRelease_whole oldest whole matched few
    have decoded : dec = wholeDecoded s b pos := wholeDecoded_eq s b pos
    rw [decoded]
    exact ⟨fun h => .of_act live rfl (good h), fun h => .of_act live rfl (bad h)⟩
  case moves =>
    refine ⟨fun busy => ⟨answers rfl (moveStart_busy 0 none busy), answers rfl (moveStart_busy 1 none busy)⟩, fun free bad => ⟨answers rfl (moveStart_bad (by omega) none free bad), answers rfl (moveStart_bad (by omega) none free bad)⟩,
      fun free good full => answers rfl (moveStart_full free good full), fun free good room => answers rfl (moveStart_retires free good room), fun free good => .of_act live rfl (moveStart_restores free good)⟩
  case idle =>
    unfold moveDone
    rw [idle]
  case done =>
    refine ⟨fun restore away => answers rfl (moveDone_waits under restore away), fun restore back alone => .of_act live rfl ?_, fun retire alone => .of_act live rfl ?_,
      fun r q retire asked works => .of_act live rfl (moveDone_retires under retire asked works)⟩
    · rw [moveDone_ends under (fun h => ne_true_of_eq_false back h.2) alone, moveEnded_moved]
      exact ⟨rfl, rfl, movedOut_restored restore⟩
    · rw [moveDone_ends under (fun h => ne_true_of_eq_false retire h.1) alone, moveEnded_moved]
      exact ⟨rfl, rfl, movedOut_retired retire⟩

end Sys2Proof.Machine
